-- ==== Sys2Proof/Word.lean ====
section
/-! DEFINITION. Bytes, tables held as association lists, and the fields of which mailbox payloads are built. -/

namespace Sys2Proof

/-- A byte. -/
abbrev Byte := BitVec 8

/-- A table of records by index, ascending; an index not listed holds the record at reset. -/
abbrev Table (α : Type) := List (Nat × α)

/-- A field of a mailbox payload, by the size R401 gives it: an unsigned or signed little-endian number of so many
bytes, or a structure carried byte for byte. -/
inductive Field where
  | u (size v : Nat)
  | s (size : Nat) (v : Int)
  | struct (bytes : List (BitVec 8))
  deriving DecidableEq, Repr

end Sys2Proof
end

