-- ==== Sys2Proof/Syntax.lean ====
section
/-! DEFINITION. The commands the module takes from outside (one constructor of `Instr` for each row of the
opcode table) and the plain data that their operands and the state are made of. -/

namespace Sys2Proof

/-! ## Names the spec enumerates -/

/-- The three request paths of R397. -/
inductive Path where | pcie | service | garzet
  deriving DecidableEq, Repr

/-- The two estate networks. -/
inductive Lan where | a | b
  deriving DecidableEq, Repr

/-- What a HELM or MIRROR message arrived over: a LAN or a lane of the twin link (R351, R362). -/
inductive Link where | lanA | lanB | twin0 | twin1
  deriving DecidableEq, Repr

/-- PTP port states the module distinguishes (R44). -/
inductive PtpState where | listening | uncalibrated | slave | master | passive
  deriving DecidableEq, Repr

/-- R50. -/
inductive ServoState where | free | acquire | locked | holdover
  deriving DecidableEq, Repr

/-- R60, in the order of its codes. -/
inductive TideQuality where | lockedTwo | lockedOne | coasting | none_
  deriving DecidableEq, Repr

/-- R75: what drives a TSOUT output. -/
inductive TrigMode where | off | time | pps
  deriving DecidableEq, Repr

/-- R93. -/
inductive PortState where | off | train | run | stall | sleep | failed
  deriving DecidableEq, Repr

/-- R107. -/
inductive TapCmdKind where | config | balance | sleep
  deriving DecidableEq, Repr

/-- R109. -/
inductive InputClass where | current | voltage | temperature | raw
  deriving DecidableEq, Repr

/-- R124. -/
inductive IcvQuality where | icv | sarCarried | stopped
  deriving DecidableEq, Repr

/-- R139. -/
inductive LaneState where | unconfigured | disarmed | arming | run | shadow | disarming | tripped
  deriving DecidableEq, Repr

/-- R211: how far a sounding step has come. -/
inductive StepPhase where | scheduled | enabled | running | capturing | fitting | ended
  deriving DecidableEq, Repr

/-- R221. -/
inductive SpringPhase where | idle | charge | top | discharge | bottom | return_
  deriving DecidableEq, Repr

/-- R252; BARE ROCK is the power state. -/
inductive DieState where | normal | shedRequest | enforce
  deriving DecidableEq, Repr

/-- R34. -/
inductive RoleState where | active | standby | none_
  deriving DecidableEq, Repr

/-- R347, in the order PAIR.ROLE_SET names them. -/
inductive PairKind where | twin | estate | none_
  deriving DecidableEq, Repr

/-- R353, R363. -/
inductive SyncState where | none_ | syncing | inSync | stale
  deriving DecidableEq, Repr

/-- R318. -/
inductive ChangeState where | open_ | complete | reverted | incomplete | abandoned
  deriving DecidableEq, Repr

/-- R410, R293, R294. -/
inductive BerthState where | notDerived | both | one | conflict | unmapped | duplicate
  deriving DecidableEq, Repr

/-- R320. -/
inductive SlotState where | empty | stopped | active | shadow | suspended
  deriving DecidableEq, Repr

/-- R389. -/
inductive ChanState where | idle | running | parked | stopped
  deriving DecidableEq, Repr

/-- R382: who owns a DMA channel. -/
inductive ChanOwner where | system | tenant (slot : Nat) | pcie
  deriving DecidableEq, Repr

/-- R412. -/
inductive BoxState where | disabled | idle | executing | waiting
  deriving DecidableEq, Repr

/-- R426. -/
inductive CanMode where | disabled | normal | listenOnly
  deriving DecidableEq, Repr

/-- R453. -/
inductive WearStage where | normal | wearWatch | retiring | keyEventsOnly | volatile
  deriving DecidableEq, Repr

/-- R472. -/
inductive ImgState where | empty | writing | pending | running | good | rejected
  deriving DecidableEq, Repr

/-- R462. -/
inductive Lifecycle where | blank | turned | sealed | parted
  deriving DecidableEq, Repr

/-- R468. -/
inductive DebugLevel where | none_ | observe | invasive
  deriving DecidableEq, Repr

/-- R23. -/
inductive PowerState where | full | slack | beached | bareRock
  deriving DecidableEq, Repr

/-- The hardwired safety inputs of R267. -/
inductive SafeInput where | estopA | estopB | fireIn
  deriving DecidableEq, Repr

/-- Where poisoned data was consumed or an uncorrectable error stands (R26, R283, R354). -/
inductive EccUnit where
  | spindle (n : Nat) | modelEngine (p : Nat) | graphEngine (k : Nat) | supervisor (core : Nat)
  | supervisorMemory | runningImages | lpddrPage (page : Nat) | sramBlock (block : Nat)
  deriving DecidableEq, Repr

/-! ## Operands -/

/-- Who sends a mailbox command: the path, the mailbox on it (its number, the session, or the sender's
berth) and the TAG of the request (R397, R398); of a Garzet request also its CORR and the role and epoch it is sent
from (R302, R418). -/
structure Source where
  path : Path
  box : Nat
  tag : Nat
  corr : Nat := 0
  role : Nat := 0
  epoch : Nat := 0
  deriving DecidableEq, Repr

/-- The one source of an output (R130, R247, R429): nothing yet, a mailbox path, a local signal, a tenant
slot or a cooling loop. -/
inductive OutSource where
  | none_ | path (p : Path) | signal (handle : Nat) | slot (n : Nat) | loop (n : Nat)
  deriving DecidableEq, Repr

/-- "Port, or lane with all its ports" (R106). -/
inductive PortOrLane where | port (p : Nat) | lane (n : Nat)
  deriving DecidableEq, Repr

/-- "Port, or one cell" (R202), the cell by its identifier lane.port.cell. -/
inductive PortOrCell where | port (p : Nat) | cell (lane port cell : Nat)
  deriving DecidableEq, Repr

/-- "Input or ICV n" (R135). -/
inductive CalTarget where | input (k : Nat) | icv (n : Nat)
  deriving DecidableEq, Repr

/-- A cell identifier lane.port.cell (R11, R12). -/
structure CellId where
  lane : Nat
  port : Nat
  cell : Nat
  deriving DecidableEq, Repr

/-- The fields of TIME.SERVO_SET (R49, R76). -/
structure ServoParams where
  kp : Nat
  ki : Nat
  outlier : Nat
  lockNs : Nat
  stepNs : Nat
  asymA : Int
  asymB : Int
  deriving DecidableEq, Repr

/-- The fields of LIGHTHOUSE.CONFIG (R76). -/
structure LhConfig where
  lane : Nat
  nominalHz : Nat
  angleOffset : Int
  bandwidth : Nat
  nominalMv : Nat
  deriving DecidableEq, Repr

/-- The data set of an Announce message, in the order the default best master clock algorithm compares (R44). -/
structure Announce where
  priority1 : Nat
  clockClass : Nat
  accuracy : Nat
  variance : Nat
  priority2 : Nat
  identity : Nat
  stepsRemoved : Nat
  logInterval : Int
  domain : Nat
  deriving DecidableEq, Repr

/-- A Sync as received: timestamps of R48 and the announced interval. -/
structure SyncMsg where
  t1 : Nat
  t2 : Nat
  correction : Int
  logInterval : Int
  domain : Nat
  deriving DecidableEq, Repr

/-- A Delay_Resp as received: the request's sequence and its arrival time. -/
structure DelayResp where
  seq : Nat
  t4 : Nat
  correction : Int
  logMinDelayReq : Int
  deriving DecidableEq, Repr

/-- A tide message payload (R56); the reserved fields as received: FLAGS [3:0], BERTH [15:12] and bytes 38 to 39. -/
structure TideMsg where
  version : Nat
  inst : Nat
  locked : Bool
  timeHoldover : Bool
  freqLimit : Bool
  undervoltage : Bool
  flagsLow : Nat := 0
  berth : Nat
  berthHigh : Nat := 0
  sequence : Nat
  refT : Nat
  position : Nat
  frequency : Nat
  rocof : Int
  vPos : Nat
  unbalance : Nat
  phaseError : Int
  reserved : Nat
  deriving DecidableEq, Repr

/-- What one evaluation of the lighthouse's phase-locked loop gives (02 R53 states its bandwidth, not its gains). -/
structure PllOut where
  angle : Nat
  freqUhz : Nat
  rocof : Int
  vPos : Nat
  unbalance : Nat
  phaseErr : Int
  negAbove : Bool
  deriving DecidableEq, Repr, Inhabited

/-- A capture record of R74. -/
structure Capture where
  time : Nat
  position : Nat
  rising : Bool
  deriving DecidableEq, Repr

/-- What a tap receiver sees of one transmission (R78 to R81): whether the start delimiter was 0xAB, the bytes
that follow it, whether it ended partway through a byte, and whether the safety path saw the same bytes. -/
structure TapRx where
  delimiterOk : Bool
  bytes : List (BitVec 8)
  partialByte : Bool
  safetyOk : Bool
  storeOk : Bool
  startEdge : Nat
  deriving DecidableEq, Repr

/-- The fields of a HELLO (R85). -/
structure Hello where
  version : Nat
  otherRun : Bool
  dual : Bool
  sideB : Bool
  model : Nat
  serial : Nat
  deriving DecidableEq, Repr

/-- LANE.CONFIG (R137); `dtH` and `dtL` are per phase, UMIN and UMAX raw Q1.31, PRE_DELTA raw UQ0.16. -/
structure LaneConfig where
  firstPort : Nat
  portCount : Nat
  phases : Nat
  pwmN : Nat
  dtH : List Nat
  dtL : List Nat
  minOn : Nat
  umin : Int
  umax : Int
  power : Bool
  stringFs : Nat
  powerFs : Nat
  phaseFs : Nat
  rated : Nat
  iChgMax : Nat
  iDisMax : Nat
  rampRate : Nat
  vbusMin : Int
  vbusMax : Int
  tFb : Nat
  preDelta : Nat
  preTimeout : Nat
  preShort : Nat
  tOverlap : Nat
  iOpen : Nat
  iBreak : Nat
  disarmTimeout : Nat
  tDecay : Nat
  source : OutSource
  deriving DecidableEq, Repr

/-- LANE.LOOP_SET: raw UQ8.24 gains of spindles A and B (R138). -/
structure LoopGains where
  kpA : Nat
  kiA : Nat
  kdA : Nat
  kpB : Nat
  kiB : Nat
  kdB : Nat
  deriving DecidableEq, Repr

/-- A calibration point under way (R126). -/
structure CalJob where
  target : CalTarget
  full : Bool
  value : Int
  src : Source
  codes : List Nat
  nextAt : Nat
  deriving DecidableEq, Repr

/-- Coefficients committed to the serial store by ANALOG.CAL_COMMIT (R127), and the generation of the settings record that
holds them. -/
structure CalRec where
  target : CalTarget
  a : Int
  b : Int
  gen : Nat
  deriving DecidableEq, Repr

/-- SOUND.SCHEDULE (R231). -/
structure SoundReq where
  lane : Nat
  set_ : Nat
  step : Nat
  last : Bool
  start : Nat
  stepMa : Int
  length : Nat
  capture : Bool
  partnerRole : Nat
  partnerEpoch : Nat
  deriving DecidableEq, Repr

/-- A SOUND payload (R207). -/
structure SoundMsg where
  kind : Nat
  reason : Nat
  set_ : Nat
  step : Nat
  length : Nat
  source : Nat
  start : Nat
  stepMa : Int
  stepW : Int
  laneRole : Nat
  laneEpoch : Nat
  deriving DecidableEq, Repr

/-- A fit result record (R217). -/
structure SoundResult where
  rhoObs : Option Nat
  residual : Option Nat
  kappaObs : Option Nat
  cell : Nat
  reject : Nat
  set_ : Nat
  step : Nat
  kappaFit : Bool
  used : Bool
  accepted : Bool
  deriving DecidableEq, Repr

/-- What the COORDINATOR knows of one lane of the estate (R228). -/
structure RosterLane where
  role : Nat
  holder : Nat
  lastComplete : Option Nat
  lastFailed : Option Nat
  out : Bool
  deriving DecidableEq, Repr

/-- BALANCE.CONFIG (R236). -/
structure BalRequest where
  enable : Bool
  deadband : Nat
  maxPerPort : Nat
  vMin : Nat
  tMax : Int
  dropMin : Nat
  dropMax : Nat
  leak : Nat
  deriving DecidableEq, Repr

/-- THERMAL.LIMITS_SET (R242). -/
structure ThermRequest where
  tripHigh : Int
  warnHigh : Int
  shedStart : Int
  warnLow : Int
  chgInhibit : Int
  tripLow : Int
  rateLimit : Nat
  shedFloor : Nat
  hsShedStart : Int
  hsTrip : Int
  coolLossShare : Nat
  deriving DecidableEq, Repr

/-- COOLING.LOOP_SET (R248, R255). -/
structure CoolConfig where
  lanes : Nat
  pump : Nat
  tach : Nat
  setPoint : Int
  kp : Nat
  ki : Nat
  pumpMin : Nat
  pumpMax : Nat
  expect : Nat
  deriving DecidableEq, Repr

/-- The source of one safe-channel DATA bit (R277). -/
inductive BitSource where
  | zero | laneTripped (n : Nat) | laneLatched (n : Nat) | moduleLatch | estop | fire
  | precursor (n : Nat) | bareRock | received (berth link bit : Nat)
  deriving DecidableEq, Repr

/-- The action of one received bit (R277); a TRIP names a lane mask, de-energising a mask of safe outputs. -/
inductive BitAction where
  | none_ | alarm | trip (lanes : Nat) | outputs (mask : Nat) | tripOutputs (lanes mask : Nat)
  deriving DecidableEq, Repr

/-- SAFETY.LINK_SET (R277, R287). -/
structure LinkSet where
  send : Bool
  linkId : Nat
  berth : Nat
  dest : Nat
  sources : List (Nat × BitSource)
  actions : List (Nat × BitAction)
  watchdog : Option Nat
  skew : Option Nat
  maxAge : Option Nat
  deriving DecidableEq, Repr

/-- A single copy held under R280. -/
structure HeldCopy where
  seq : Nat
  lan : Lan
  at_ : Nat
  bytes : List (BitVec 8)
  deriving DecidableEq, Repr

/-- An LLDP identity: Chassis ID and Port ID as subtype and value (R291). -/
structure LldpId where
  chassisType : Nat
  chassis : List (BitVec 8)
  portType : Nat
  port : List (BitVec 8)
  deriving DecidableEq, Repr

/-- An entry of the berth map (R291). -/
structure BerthEntry where
  berth : Nat
  idA : LldpId
  idB : LldpId
  deriving DecidableEq, Repr

/-- A Garzet header (R297); `lanB` is the LAN_B flag. -/
structure GHead where
  typ : Nat
  reliable : Bool
  reply : Bool
  newStream : Bool
  lanB : Bool
  srcBerth : Nat
  dstBerth : Nat
  srcRole : Nat
  srcEpoch : Nat
  length : Nat
  targetRole : Nat
  targetEpoch : Nat
  corr : Nat
  sequence : Nat
  ackSeq : Nat
  srcKey : Nat
  deriving DecidableEq, Repr

/-- A role entry of an ANNOUNCE (R305). -/
structure RoleEntry where
  role : Nat
  epoch : Nat
  active : Bool
  deriving DecidableEq, Repr

/-- An ANNOUNCE payload (R305) with the source MAC address of its frame. -/
structure AnnounceMsg where
  part : Nat
  parts : Nat
  power : Nat
  berth : Nat
  moduleEpoch : Nat
  serial : Nat
  entries : List RoleEntry
  mac : Nat
  deriving DecidableEq, Repr

/-- A ROLE_MOVED payload (R309). -/
structure MovedMsg where
  role : Nat
  refusedEpoch : Nat
  holderBerth : Nat
  holderEpoch : Nat
  refusedSeq : Nat
  typ : Nat
  deriving DecidableEq, Repr

/-- A PROPOSE payload, and the fields of ESTATE.CHANGE_PROPOSE (R312, R318). -/
structure Proposal where
  id : Nat
  kind : Nat
  policy : Nat
  conservative : Nat
  n : Nat
  old : Nat
  new_ : Nat
  members : List Nat
  deriving DecidableEq, Repr

/-- A REPORT payload (R312). -/
structure ReportMsg where
  id : Nat
  outcome : Nat
  inForce : Nat
  at_ : Nat
  deriving DecidableEq, Repr

/-- A SIGNAL payload (R338). -/
structure SignalEntry where
  typ : Nat
  absent : Bool
  held : Bool
  handle : Nat
  value : Int
  deriving DecidableEq, Repr

structure SignalMsg where
  cycleSeq : Nat
  publishAt : Nat
  entries : List SignalEntry
  deriving DecidableEq, Repr

/-- An entry waiting for its base instant (R339). -/
structure DueSignal where
  at_ : Nat
  late : Bool
  role : Nat
  seq : Nat
  entry : SignalEntry
  deriving DecidableEq, Repr

/-- A HELM payload (R353). -/
structure HelmMsg where
  kind : Nat
  result : Nat
  role : Nat
  epoch : Nat
  format : Nat
  at_ : Nat
  gen : Nat
  deriving DecidableEq, Repr

/-- A LOOP item (R359). -/
structure LoopItem where
  periodSeq : Nat
  laneState : Nat
  contactors : Nat
  updated : Nat
  bInteg : Int
  bYPrev : Int
  ramp : Int
  dff : Int
  command : Int
  bOut : Int
  phases : List (Int × Int × Nat)
  deriving DecidableEq, Repr

/-- A cell record of a CELL item: the states, the covariance factor and the flags as the sender holds them
(R190, R359), with the values its FP32 fields stand for; the learned values in the order of R192. -/
structure CellItem where
  index : Nat
  x : List Rat
  cov : List (List Rat)
  learned : List (Option Rat)
  learnedAt : Nat
  flags : Nat
  deriving DecidableEq, Repr

/-- The items of a mirror frame (R357, R359): an item stands whole in the frame that carries its last part. The values of a
VARS item go with the bytes that each takes. -/
inductive MirrorItem where
  | cell (c : CellItem)
  | vars (slot : Nat) (values : List Int) (widths : List Nat)
  | digest (slot cycleSeq input output : Nat)
  | learned (port : Nat) (bytes : List (BitVec 8))
  | spring (lane port phase : Nat) (iK : Int) (tag : Nat) (cells : List (Nat × Nat × Int))
  | status (sync running staged : Nat)
  deriving DecidableEq, Repr

/-- One frame of a mirror generation (R358); `size` is the bytes of items and parts of items that it carries. -/
structure MirrorFrag where
  format : Nat
  role : Nat
  epoch : Nat
  index : Nat
  count : Nat
  full : Bool
  gen : Nat
  tag : Nat
  size : Nat
  items : List MirrorItem
  deriving DecidableEq, Repr

/-- PAIR.ROLE_SET (R347, R374). -/
structure Assignment where
  role : Nat
  local_ : Nat
  kind : PairKind
  partner : Nat
  preferred : Bool
  deriving DecidableEq, Repr

/-- The body of a Garzet message the module sends. -/
inductive GBody where
  | tide (m : TideMsg) | sound (m : SoundMsg) | mailbox (bytes : List (BitVec 8))
  | mailboxReply (bytes : List (BitVec 8)) | ack | roleMoved (m : MovedMsg) | announce (m : AnnounceMsg)
  | helm (m : HelmMsg) | mirror (m : MirrorFrag) | signal (m : SignalMsg) | propose (m : Proposal)
  | proposeAck (id result : Nat) | commit (id n : Nat) | abandon (id reason : Nat)
  | report (m : ReportMsg) | fallBack (id m : Nat)
  deriving DecidableEq, Repr

/-- A message of a stream (R301, R302): its number, header, body and the times of its sends. -/
structure StreamMsg where
  seq : Nat
  head : GHead
  body : GBody
  sentAt : Nat
  sends : Nat
  deriving DecidableEq, Repr

/-- A received message held behind a gap (R303). -/
structure HeldMsg where
  seq : Nat
  at_ : Nat
  head : GHead
  body : GBody
  deriving DecidableEq, Repr

/-- A request sent over Garzet and awaited (R420): for whom, to which role at which epoch, its bytes, and the payload of the
reply as far as it has come. -/
structure SentReq where
  corr : Nat
  slot : Nat
  srcRole : Nat
  role : Nat
  epoch : Nat
  command : Nat
  sentAt : Nat
  waitUntil : Nat
  bytes : List (BitVec 8)
  got : List (BitVec 8)
  deriving DecidableEq, Repr

/-- A report to the function that sent a message (R302, R311, R420): TYPE and CORR of the message, the status
code, and the holder when one is named. -/
structure FnReport where
  typ : Nat
  corr : Nat
  role : Nat
  status : Nat
  holder : Nat
  holderEpoch : Nat
  deriving DecidableEq, Repr

/-- A graph variable (R323) with its value. -/
structure GraphVar where
  name : List (BitVec 8)
  typ : Nat
  mirror : Bool
  count : Nat
  offset : Nat
  values : List Int
  deriving DecidableEq, Repr

/-- A CAN frame (R434, R440). -/
structure CanFrame where
  id : Nat := 0
  ide : Bool := false
  fdf : Bool := false
  brs : Bool := false
  rtr : Bool := false
  esi : Bool := false
  dlc : Nat := 0
  data : List (BitVec 8) := []
  deriving DecidableEq, Repr

/-- What a graph does at a publication beside its signals (R320, R340): a send request of a container bus send block
with its request count, an entry put into a queue, entries got from one, and a command to a role (R420) with the time it
may take, ns. -/
inductive TenantAct where
  | canSend (ctl buf count : Nat) (f : CanFrame)
  | queuePut (q : Nat) (entry : List (BitVec 8))
  | queueGet (q n : Nat)
  | request (role cmd : Nat) (payload : List (BitVec 8)) (answer : Nat)
  deriving DecidableEq, Repr

/-- What a graph cycle's computation gives (R329): its outputs, its working copy of the variables, the engine
time used, and whether an access left the window (R326). The block library that computes them is not in the
spec's text (R340). -/
structure CycleResult where
  outputs : List (Nat × Bool × Option Int)
  vars : List (List Int)
  acts : List TenantAct
  usedUs : Nat
  windowFault : Bool
  deriving DecidableEq, Repr

/-- One phase of R427. -/
structure BitTiming where
  brp : Nat
  tseg1 : Nat
  tseg2 : Nat
  sjw : Nat
  deriving DecidableEq, Repr

/-- Where frames and outcome records go (R434). -/
inductive CanTarget where | discard | queue (q : Nat) | path (p : Path)
  deriving DecidableEq, Repr

/-- What a filter sends a frame to (R433). -/
inductive FilterTarget where | discard | fifo0 | fifo1 | hp
  deriving DecidableEq, Repr

/-- CAN.FILTER_SET (R433): `formats` has [0] Classical, [1] FD, [2] remote. -/
structure CanFilter where
  ide : Bool
  id : Nat
  mask : Nat
  formats : Nat
  target : FilterTarget
  deriving DecidableEq, Repr

/-- CAN.CONFIG (R440). -/
structure CanConfig where
  mode : CanMode
  fd : Bool
  nominal : BitTiming
  data : BitTiming
  tdc : Bool
  tdcOffset : Nat
  txTimeout : Nat
  owners : List OutSource
  retries : List Nat
  fifo0 : CanTarget
  fifo1 : CanTarget
  hp : CanTarget
  txEvent : CanTarget
  noMatchFifo1 : Bool
  deriving DecidableEq, Repr

/-- CAN.TIME_MASTER_SET (R437). -/
structure TimeMaster where
  container : Nat
  identifier : Nat
  ide : Bool
  periodMs : Nat
  deriving DecidableEq, Repr

/-- A transmit outcome record (R432). -/
structure TxOutcome where
  time : Nat
  txSeq : Nat
  outcome : Nat
  lastError : Nat
  attempts : Nat
  buffer : Nat
  controller : Nat
  abortLate : Bool
  deriving DecidableEq, Repr

/-- An operation on the serial store's interface (R447). -/
inductive StoreOp where
  | recorder (records : Nat) | commitPage | settings (gen : Nat) | header | image (bytes : Nat) | erase (sector : Nat)
  deriving DecidableEq, Repr

/-- An active alarm (R456): code, object kind, object and time. -/
structure Alarm where
  code : Nat
  objKind : Nat
  object : Nat
  time : Nat
  deriving DecidableEq, Repr

/-- A TLS handshake on the service port (R466): whether it keeps the parameters of R466, the key generation its
client chain reaches (0 the commissioning root, none another root), its length, the client certificate's serial number,
those of the other certificates of the chain, and whether their dates hold. -/
structure Handshake where
  paramsOk : Bool
  rootGen : Option Nat
  chainLen : Nat
  serial : Nat
  others : List Nat := []
  datesOk : Bool
  deriving DecidableEq, Repr

/-- LIFECYCLE.TURN (R478). `rootIsCa` says whether the root given is a P-384 CA certificate. -/
structure TurnReq where
  root : Nat
  rootIsCa : Bool
  delivery : Nat
  revoked : List Nat
  ipv4 : Nat
  prefixLen : Nat
  deriving DecidableEq, Repr

/-- What SVB finds when it checks one image slot at boot (R474). -/
structure SlotCheck where
  keyOk : Bool
  gcmOk : Bool
  signatureOk : Bool
  deriving DecidableEq, Repr

/-- What SVB finds of the two image slots at boot. -/
structure BootSlots where
  a : SlotCheck
  b : SlotCheck
  deriving DecidableEq, Repr

/-- Whether each device of the store answers at boot as R441 asks. -/
structure BootDevices where
  dev0 : Bool
  dev1 : Bool
  deriving DecidableEq, Repr

/-- A pulse at a tachometer input, as the edge that ends it shows it (R131): the direction of that edge, the width of the pulse,
and the level of the pair's direction input. -/
structure TachPulse where
  falling : Bool
  widthNs : Nat
  dirHigh : Bool
  deriving DecidableEq, Repr

/-- A safe-channel frame that falls due on a link (R277), and whether it is inserted in time on each LAN (R47). -/
structure SafeDue where
  linkId : Nat
  insertA : Bool
  insertB : Bool
  deriving DecidableEq, Repr

/-- A Garzet frame on a LAN, header and payload (R297). -/
structure LanFrame where
  lan : Lan
  bytes : List (BitVec 8)
  deriving DecidableEq, Repr

/-- What a burst meets outside the engine (R385): the bytes that the host's memory gives, how many entries of its source queue
other agents take, and the entries that they put into its destination queue. -/
structure BurstData where
  hostData : List (BitVec 8) := []
  taken : Nat := 0
  filled : List (List (BitVec 8)) := []
  deriving DecidableEq, Repr

/-- The beaching sequence under way (R198): its step, the roles still to release and the time of the step; in step 3, the tide
position of the base instant after which every cell is still to step. -/
structure BeachSeq where
  step : Nat
  roles : List Nat
  at_ : Nat
  stepFrom : Option Nat := none
  deriving DecidableEq, Repr

/-- The parting sequence under way (R493). -/
structure PartSeq where
  step : Nat
  roles : List Nat
  at_ : Nat
  deriving DecidableEq, Repr

/-- What the module has put on its lines and networks (tap frames, Garzet, PTP, safe-channel, LLDP and CAN
frames, safe-channel copies on both LANs). A Garzet message goes out on both LANs, to a destination address on each (R299). The
bytes of these frames on a LAN are those of Wire.lean. -/
inductive Output where
  | tap (port startAt refEdge : Nat) (bytes : List (BitVec 8))
  | tone (port : Nat)
  | garzet (macA macB : Nat) (head : GHead) (body : GBody)
  | twin (head : GHead) (body : GBody)
  | ptpSync (lan : Lan) (seq origin : Nat)
  | ptpAborted (lan : Lan)
  | ptpAnnounce (lan : Lan) (a : Announce)
  | delayReq (lan : Lan) (seq : Nat)
  | delayResp (lan : Lan) (seq requester : Nat) (t4 : Nat)
  | safe (lan : Lan) (linkId dest : Nat) (bytes : List (BitVec 8))
  | lldp (lan : Lan) (chassis : Nat) (berth : Option Nat)
  | can (ctl : Nat) (buf : Nat) (f : CanFrame)
  | loopItem (lane : Nat) (item : LoopItem)
  | dmaHost (addr : Nat) (bytes : List (BitVec 8))
  deriving DecidableEq, Repr

/-- The commands: one constructor for each row of the opcode table. A mailbox command names its source first;
an event, a register write or a message names first the clock time `t` (ns) at which it happens. -/
inductive Instr where
  /-- MODULE_IDENTIFY (R425): Command returning the identity registers and the MAC addresses of both plant ports. -/
  | moduleIdentify (src : Source)
  /-- MODULE_STATUS (R425): Command returning MODULE_STATE, BERTH, LANES and the active alarms. -/
  | moduleStatus (src : Source)
  /-- MODULE_BEACH (R198): Command that starts the beaching sequence when every lane is DISARMED or UNCONFIGURED. -/
  | moduleBeach (src : Source)
  /-- MODULE_PART (R493): Command that starts the orderly withdrawal of the module from the estate. -/
  | modulePart (src : Source)
  /-- MODULE_RESTART (R495): Service-port command that self-resets the module from stage 0 and keeps the latches. -/
  | moduleRestart (src : Source)
  /-- MBOX_NOP (R425): Command that echoes its data. -/
  | mboxNop (src : Source) (data : List (BitVec 8))
  /-- MBOX_STATUS (R425): Command returning the state of every mailbox on every path. -/
  | mboxStatus (src : Source)
  /-- MBOX_COUNTERS_READ (R425): Command returning the per-path mailbox counters and clearing them on request. -/
  | mboxCountersRead (src : Source) (clear : Bool)
  /-- TIME_STATUS (R76): Command returning the servo state, offset, INCR and PTP counts. -/
  | timeStatus (src : Source)
  /-- TIME_SERVO_SET (R49): Command setting KP, KI, OUTLIER, LOCK_NS, STEP_NS and the LAN asymmetries from the next sample. -/
  | timeServoSet (src : Source) (p : ServoParams)
  /-- TIME_TRIGGER_SET (R75): Command configuring a TSOUT output for OFF, TIME or PPS pulses. -/
  | timeTriggerSet (src : Source) (output : Nat) (mode : TrigMode) (start : Nat) (period : Nat) (width : Nat)
  /-- TIME_CAPTURE_READ (R74): Command that reads and removes TSIN capture records and reports drops. -/
  | timeCaptureRead (src : Source) (input : Nat) (max : Nat)
  /-- TIDE_STATUS (R76): Command returning the tide position, quality, source and tide counts. -/
  | tideStatus (src : Source)
  /-- TIDE_ENTRY_SET (R73): Command writing a user tide-table entry, refused for module entries, owned tables or excess density. -/
  | tideEntrySet (src : Source) (entry : Nat) (w : BitVec 256)
  /-- TIDE_ENTRY_READ (R76): Command returning one 32-byte tide-table entry. -/
  | tideEntryRead (src : Source) (entry : Nat)
  /-- LIGHTHOUSE_CONFIG (R52): Command setting the lighthouse measurement lane, nominal frequency, offset, bandwidth and nominal voltage. -/
  | lighthouseConfig (src : Source) (c : LhConfig)
  /-- TAP_STATUS (R106): Command returning a port's state, trim, HELLO fields and last status. -/
  | tapStatus (src : Source) (port : Nat)
  /-- TAP_TRIM_SET (R86): Command setting a port's ASYM correction from the next exchange. -/
  | tapTrimSet (src : Source) (port : Nat) (asym : Int)
  /-- TAP_LIMITS_SET (R518): Command storing a port's or lane's front-end limits and presence masks and queuing CONFIG. -/
  | tapLimitsSet (src : Source) (target : PortOrLane) (ov : Nat) (uv : Nat) (ot : Int) (cells : Nat) (temps : Nat)
  /-- TAP_RETRAIN (R106): Command that puts a port of an unarmed lane into TRAIN. -/
  | tapRetrain (src : Source) (port : Nat)
  /-- TAP_COUNTERS_READ (R106): Command returning a port's link counters and clearing them on request. -/
  | tapCountersRead (src : Source) (port : Nat) (clear : Bool)
  /-- ANALOG_INPUT_SET (R109): Command setting a free input's class, nominal scale and signal handle. -/
  | analogInputSet (src : Source) (input : Nat) (cls : InputClass) (scale : Int) (handle : Nat)
  /-- ANALOG_TABLE_SET (R116): Command writing a converter's sequencer table and its optional queue. -/
  | analogTableSet (src : Source) (conv : Nat) (table : Nat) (entries : List (BitVec 32)) (queue : Option Nat)
  /-- ANALOG_TABLE_START (R115): Command starting a sequencer table or making it pending. -/
  | analogTableStart (src : Source) (conv : Nat) (table : Nat)
  /-- ANALOG_CONVERT (R112): Command requesting a SOFT or SOFT_URGENT conversion of one input and returning its record. -/
  | analogConvert (src : Source) (input : Nat) (urgent : Bool)
  /-- ANALOG_READ (R119): Command returning the latest result record of up to 96 inputs. -/
  | analogRead (src : Source) (inputs : List Nat)
  /-- ANALOG_CAL_POINT (R126): Command starting a ZERO or FULL calibration point on an input or ICV. -/
  | analogCalPoint (src : Source) (target : CalTarget) (full : Bool) (value : Int)
  /-- ANALOG_CAL_COMMIT (R127): Command queuing computed coefficients for commit to the serial store. -/
  | analogCalCommit (src : Source) (inputs : List Nat) (icvs : List Nat) (all : Bool)
  /-- ANALOG_CAL_READ (R135): Command returning an input's or ICV's coefficients and committed flag. -/
  | analogCalRead (src : Source) (target : CalTarget)
  /-- ANALOG_COUNTERS_READ (R135): Command returning a converter's counters and clearing them on request. -/
  | analogCountersRead (src : Source) (conv : Nat) (clear : Bool)
  /-- ICV_STATUS (R135): Command returning a lane's last ICV word, counter, quality and valid word count. -/
  | icvStatus (src : Source) (lane : Nat)
  /-- ICV_RESET (R123): Command making a synchronising reset of a lane's integrating converter. -/
  | icvReset (src : Source) (lane : Nat)
  /-- DAC_CONFIG (R130): Command naming a DAC's source, SAFE_CODE and its range. -/
  | dacConfig (src : Source) (out : Nat) (source : OutSource) (safeCode : Nat) (range : Nat)
  /-- DAC_SET (R128): Command writing a DAC range and code from its owning mailbox path. -/
  | dacSet (src : Source) (out : Nat) (range : Nat) (code : Nat)
  /-- TACH_CONFIG (R131): Command configuring a tachometer input and returning it to standstill. -/
  | tachConfig (src : Source) (input : Nat) (falling : Bool) (pair : Bool) (ppr : Nat) (filter : Nat) (standstill : Nat)
  /-- TACH_READ (R131): Command returning speed, direction, STALE, edge count and last interval. -/
  | tachRead (src : Source) (inputs : List Nat)
  /-- LANE_CONFIG (R137): Command configuring, changing or unconfiguring a lane while no lane is armed. -/
  | laneConfig (src : Source) (lane : Nat) (c : LaneConfig)
  /-- LANE_LOOP_SET (R138): Command setting the loop gains of spindles A and B. -/
  | laneLoopSet (src : Source) (lane : Nat) (g : LoopGains)
  /-- LANE_ARM (R159): Command that checks the arming conditions and starts the arming sequence. -/
  | laneArm (src : Source) (lane : Nat)
  /-- LANE_DISARM (R161): Command that stops arming or starts the disarm sequence of a running lane. -/
  | laneDisarm (src : Source) (lane : Nat)
  /-- LANE_SETPOINT (R154): Command delivering a lane's current or power command from its mailbox source. -/
  | laneSetpoint (src : Source) (lane : Nat) (v : Int)
  /-- LANE_STATUS (R164): Command returning a lane's state, loop values, limits and contactor counts. -/
  | laneStatus (src : Source) (lane : Nat)
  /-- LANE_FAULT_CLEAR (R163): Command moving a lane from TRIPPED to DISARMED unless latched or welded. -/
  | laneFaultClear (src : Source) (lane : Nat) (ack : Bool)
  /-- LANE_COUNTERS_READ (R164): Command returning a lane's counters and clearing them on request. -/
  | laneCountersRead (src : Source) (lane : Nat) (clear : Bool)
  /-- MODEL_PARAM_LOAD (R179): Command checking and loading a cell-type parameter set. -/
  | modelParamLoad (src : Source) (typ : Nat) (bytes : List (BitVec 8))
  /-- MODEL_PARAM_READ (R202): Command returning a parameter set's version, build, CRC and assigned cells. -/
  | modelParamRead (src : Source) (typ : Nat)
  /-- MODEL_ASSIGN (R185): Command assigning cell types and sensors to a port's cells. -/
  | modelAssign (src : Source) (port : Nat) (types : List Nat) (sensors : List Nat)
  /-- MODEL_CELL_READ (R180): Command returning cell output records. -/
  | modelCellRead (src : Source) (port : Nat) (first : Nat) (count : Nat)
  /-- MODEL_STATUS (R202): Command returning a lane's model signals, learning mode and commit state. -/
  | modelStatus (src : Source) (lane : Nat)
  /-- MODEL_LEARN_SET (R191): Command setting NATIVE or HOST_HELD learning and the commit interval. -/
  | modelLearnSet (src : Source) (native : Bool) (hours : Nat)
  /-- MODEL_LEARNED_READ (R192): Command returning a port's learned block. -/
  | modelLearnedRead (src : Source) (port : Nat)
  /-- MODEL_LEARNED_WRITE (R194): Command replacing a port's learned values when the serial matches. -/
  | modelLearnedWrite (src : Source) (port : Nat) (bytes : List (BitVec 8))
  /-- MODEL_COMMIT (R193): Command requesting a learned commit in NATIVE mode. -/
  | modelCommit (src : Source)
  /-- MODEL_ROUGH_COMMAND (R185): MODEL.ROUGH command starting a roughing estimate for a port or cell. -/
  | modelRoughCommand (src : Source) (target : PortOrCell) (keep : Bool)
  /-- MODEL_POWER_SET (R196): Command enabling or disabling slack water. -/
  | modelPowerSet (src : Source) (on : Bool)
  /-- MODEL_COUNTERS_READ (R202): Command returning a port's model counters and clearing them on request. -/
  | modelCountersRead (src : Source) (port : Nat) (clear : Bool)
  /-- SOUND_SCHEDULE (R205): Command scheduling one sounding step and writing its disabled tide entry. -/
  | soundSchedule (src : Source) (r : SoundReq)
  /-- SOUND_CANCEL (R209): Command ending or abandoning sounding steps with CANCELLED. -/
  | soundCancel (src : Source) (lane : Nat) (set_ : Nat) (step : Option Nat)
  /-- SOUND_STATUS (R231): Command returning a lane's scheduled and running steps and open sets. -/
  | soundStatus (src : Source) (lane : Nat)
  /-- SOUND_RESULT_READ (R217): Command returning the fit result records of a step for a port. -/
  | soundResultRead (src : Source) (lane : Nat) (set_ : Nat) (step : Nat) (port : Nat)
  /-- SPRING_START (R220): Coordinator command starting a spring tide on a lane. -/
  | springStart (src : Source) (lane : Nat) (iChg : Int) (iDis : Int) (cvGain : Nat) (maxHours : Nat)
  /-- SPRING_STOP (R223): Command ending a spring tide FAILED with cause STOPPED. -/
  | springStop (src : Source) (lane : Nat)
  /-- SPRING_STATUS (R231): Command returning a lane's spring-tide phase and results. -/
  | springStatus (src : Source) (lane : Nat)
  /-- SPRING_ROSTER_SET (R228): Coordinator command setting SHARE and INTERVAL of the roster. -/
  | springRosterSet (src : Source) (share : Nat) (interval : Nat)
  /-- SPRING_ROSTER_READ (R228): Coordinator command returning the roster and due lanes. -/
  | springRosterRead (src : Source)
  /-- BALANCE_CONFIG (R236): Command setting a lane's balancing fields from the next plan. -/
  | balanceConfig (src : Source) (lane : Nat) (r : BalRequest)
  /-- BALANCE_STATUS (R255): Command returning a lane's balancing plan and faulted cells. -/
  | balanceStatus (src : Source) (lane : Nat)
  /-- BALANCE_TEST (R238): Command queuing a balancing switch test of one cell. -/
  | balanceTest (src : Source) (cell : CellId)
  /-- BALANCE_TEST_READ (R255): Command returning the last switch-test verdicts of a port. -/
  | balanceTestRead (src : Source) (port : Nat)
  /-- THERMAL_LIMITS_SET (R242): Command setting a lane's temperature limits and shed parameters. -/
  | thermalLimitsSet (src : Source) (lane : Nat) (r : ThermRequest)
  /-- THERMAL_STATUS (R255): Command returning a lane's temperature extremes, shed limit and warnings. -/
  | thermalStatus (src : Source) (lane : Nat)
  /-- COOLING_LOOP_SET (R248): Command configuring a cooling loop. -/
  | coolingLoopSet (src : Source) (loop : Nat) (c : CoolConfig)
  /-- COOLING_OUTPUT_SET (R247): Command naming a pump output's source, frequency and SAFE_DUTY. -/
  | coolingOutputSet (src : Source) (out : Nat) (source : OutSource) (freq : Nat) (safeDuty : Nat)
  /-- COOLING_DUTY_SET (R247): Command writing a pump output duty from its owning mailbox path. -/
  | coolingDutySet (src : Source) (out : Nat) (duty : Nat)
  /-- COOLING_STATUS (R255): Command returning a cooling loop's demand, measurement and COOLING_LOST. -/
  | coolingStatus (src : Source) (loop : Nat)
  /-- DIE_STATUS (R255): Command returning the die reading, rate and thermal state. -/
  | dieStatus (src : Source)
  /-- SAFETY_STATUS (R287): Command returning latches, safety inputs, safe outputs, LAN states and permissives. -/
  | safetyStatus (src : Source)
  /-- SAFETY_LIMITS_SET (R262): Service command setting SAFE_OV, SAFE_UV and PORT_LOST_TIME of a lane. -/
  | safetyLimitsSet (src : Source) (lane : Nat) (ov : Nat) (uv : Nat) (plt : Nat)
  /-- SAFETY_OC_SET (R261): Service command setting a lane's overcurrent thresholds and filter time. -/
  | safetyOcSet (src : Source) (lane : Nat) (str : Nat) (ph : Nat) (filt : Nat)
  /-- SAFETY_IO_SET (R267): Service command setting the discrepancy time, FIRE_IN enable and safe output masks. -/
  | safetyIoSet (src : Source) (disc : Nat) (fireEn : Bool) (masks : List Nat)
  /-- SAFETY_CHANNEL_SET (R277): Service command setting the safe-channel heartbeat period HB. -/
  | safetyChannelSet (src : Source) (hb : Nat)
  /-- SAFETY_LINK_SET (R277): Service command configuring a sent or received safe-channel link. -/
  | safetyLinkSet (src : Source) (l : LinkSet)
  /-- SAFETY_LINK_STATUS (R287): Command returning a safe-channel link's state and counts. -/
  | safetyLinkStatus (src : Source) (sender : Nat) (link : Nat)
  /-- SAFETY_WINDOW_SET (R282): Service command setting N and W of a fault source. -/
  | safetyWindowSet (src : Source) (source : Nat) (n : Nat) (w : Nat)
  /-- SAFETY_BARE_ROCK (R284): Command putting the module into BARE ROCK. -/
  | safetyBareRock (src : Source)
  /-- SAFETY_COUNTERS_READ (R287): Command returning fault, trip and CLEAR counts and clearing them on request. -/
  | safetyCountersRead (src : Source) (clear : Bool)
  /-- NET_STATUS (R318): Command returning per-LAN link, MAC, LLDP and LAN state. -/
  | netStatus (src : Source)
  /-- NET_COUNTERS_READ (R318): Command returning network counters and clearing them on request. -/
  | netCountersRead (src : Source) (clear : Bool)
  /-- BERTH_STATUS (R318): Command returning the berth, berth state and MODULE epoch. -/
  | berthStatus (src : Source)
  /-- ESTATE_MAP_LOAD (R291): Service command loading the berth map for the next start. -/
  | estateMapLoad (src : Source) (entries : List BerthEntry)
  /-- ESTATE_CHANGE_PROPOSE (R314): Coordinator command proposing a tide-committed change to members. -/
  | estateChangePropose (src : Source) (p : Proposal)
  /-- ESTATE_CHANGE_STATUS (R318): Command returning the state of a tide-committed change. -/
  | estateChangeStatus (src : Source) (id : Nat)
  /-- ESTATE_CHANGE_ABANDON (R318): Coordinator command abandoning a change with OPERATOR. -/
  | estateChangeAbandon (src : Source) (id : Nat)
  /-- ROLE_TABLE_READ (R318): Command returning role table entries. -/
  | roleTableRead (src : Source) (first : Nat) (count : Nat)
  /-- ROLE_RESOLVE (R318): Command returning the ACTIVE and STANDBY holders of a role. -/
  | roleResolve (src : Source) (role : Nat)
  /-- TENANT_LOAD (R324): Command delivering a graph image in parts and checking and placing it at the last part. -/
  | tenantLoad (src : Source) (slot : Nat) (role : Nat) (offset : Nat) (bytes : List (BitVec 8)) (last : Bool)
  /-- TENANT_UNLOAD (R327): Command emptying a slot and returning its memory uncleared. -/
  | tenantUnload (src : Source) (slot : Nat)
  /-- TENANT_STOP (R320): Command stopping a slot until TENANT.START. -/
  | tenantStop (src : Source) (slot : Nat)
  /-- TENANT_START (R320): Command lifting a slot's stop. -/
  | tenantStart (src : Source) (slot : Nat)
  /-- TENANT_STATUS (R346): Command returning a slot's state, graphs, engine and share. -/
  | tenantStatus (src : Source) (slot : Nat)
  /-- TENANT_COUNTERS_READ (R346): Command returning a slot's cycle counters and clearing them on request. -/
  | tenantCountersRead (src : Source) (slot : Nat) (clear : Bool)
  /-- GRAPH_ACTIVATE (R343): Command scheduling activation of an unpaired slot's staged graph at cycle N. -/
  | graphActivate (src : Source) (slot : Nat) (n : Nat)
  /-- GRAPH_DISCARD (R346): Command releasing a slot's staged graph. -/
  | graphDiscard (src : Source) (slot : Nat)
  /-- GRAPH_VAR_READ (R346): Command returning graph variables from the last committed cycle. -/
  | graphVarRead (src : Source) (slot : Nat) (first : Nat) (count : Nat)
  /-- GRAPH_GROUP_SET (R328): Command setting a cycle group's offset and rewriting its entry. -/
  | graphGroupSet (src : Source) (group : Nat) (offset : Nat)
  /-- GRAPH_ENGINES_READ (R346): Command returning per-engine slots, shares and memory. -/
  | graphEnginesRead (src : Source)
  /-- SIGNAL_READ (R335): Command returning up to 64 signal slots. -/
  | signalRead (src : Source) (estate : Bool) (handles : List Nat)
  /-- SIGNAL_CONFIG (R339): Service command setting APPLY_DELAY and REFRESH. -/
  | signalConfig (src : Source) (delay : Nat) (refresh : Nat)
  /-- PAIR_ROLE_SET (R347): Service command assigning a role, its pair kind, partner and preference. -/
  | pairRoleSet (src : Source) (a : Assignment)
  /-- PAIR_STATUS (R374): Command returning a role's pair and sync state. -/
  | pairStatus (src : Source) (role : Nat)
  /-- PAIR_SWAP_HELM (R369): Command starting an orderly helm move to the standby. -/
  | pairSwapHelm (src : Source) (role : Nat)
  /-- PAIR_COMPARE_SET (R364): Service command setting DUTY_TOL, OUT_TOL and SOC_TOL. -/
  | pairCompareSet (src : Source) (dutyTol : Nat) (outTol : Nat) (socTol : Nat)
  /-- PAIR_COUNTERS_READ (R374): Command returning a role's pair counters and clearing them on request. -/
  | pairCountersRead (src : Source) (role : Nat) (clear : Bool)
  /-- QUEUE_CREATE (R376): Command creating a host queue and allocating its ring. -/
  | queueCreate (src : Source) (q : Nat) (k : Nat) (prod : Nat) (cons : Nat) (thr : Nat)
  /-- QUEUE_DESTROY (R396): Command destroying a host queue and freeing its ring space. -/
  | queueDestroy (src : Source) (q : Nat)
  /-- QUEUE_THRESHOLD_SET (R380): Command setting a queue's notice threshold. -/
  | queueThresholdSet (src : Source) (q : Nat) (thr : Nat)
  /-- QUEUE_STATUS (R381): Command returning a queue's context. -/
  | queueStatus (src : Source) (q : Nat)
  /-- DMA_CHANNEL_SET (R382): Command assigning a channel's owner, priority and host descriptor window. -/
  | dmaChannelSet (src : Source) (ch : Nat) (owner : ChanOwner) (prio : Nat) (win : Option Nat)
  /-- DMA_START (R389): Command starting a channel on a named descriptor. -/
  | dmaStart (src : Source) (ch : Nat) (addr : Nat)
  /-- DMA_DOORBELL (R390): Command ringing a channel's doorbell. -/
  | dmaDoorbell (src : Source) (ch : Nat)
  /-- DMA_ABORT (R394): Command aborting a channel and returning its state at acceptance. -/
  | dmaAbort (src : Source) (ch : Nat)
  /-- DMA_STATUS (R396): Command returning a channel's state and last record. -/
  | dmaStatus (src : Source) (ch : Nat)
  /-- DMA_COUNTERS_READ (R396): Command returning a channel's counters and clearing them on request. -/
  | dmaCountersRead (src : Source) (ch : Nat) (clear : Bool)
  /-- CAN_CONFIG (R439): Command configuring a CAN FD controller's mode, timing, buffers and targets. -/
  | canConfig (src : Source) (ctl : Nat) (c : CanConfig)
  /-- CAN_FILTER_SET (R433): Command setting one acceptance filter. -/
  | canFilterSet (src : Source) (ctl : Nat) (i : Nat) (f : CanFilter)
  /-- CAN_SEND (R430): Command placing a transmit request in a buffer or aborting it. -/
  | canSend (src : Source) (ctl : Nat) (buf : Nat) (abort : Bool) (f : CanFrame)
  /-- CAN_RECEIVE (R434): Command taking received or TX_EVENT records from a mailbox-path target. -/
  | canReceive (src : Source) (ctl : Nat) (which : Nat) (max : Nat)
  /-- CAN_RECOVER (R436): Command starting bus-off recovery. -/
  | canRecover (src : Source) (ctl : Nat)
  /-- CAN_STATUS (R440): Command returning a controller's mode, error state and buffers. -/
  | canStatus (src : Source) (ctl : Nat)
  /-- CAN_TIME_MASTER_SET (R437): Command making a controller a CONTAINER_TIME candidate and reserving TB31. -/
  | canTimeMasterSet (src : Source) (ctl : Nat) (on : Bool) (m : TimeMaster)
  /-- CAN_COUNTERS_READ (R440): Command returning a controller's counters and clearing them on request. -/
  | canCountersRead (src : Source) (ctl : Nat) (clear : Bool)
  /-- STORE_STATUS (R459): Command returning device, hold-up, commit and scrub state. -/
  | storeStatus (src : Source)
  /-- STORE_SCRUB (R454): Command starting a scrub of both devices. -/
  | storeScrub (src : Source)
  /-- STORE_HOLDUP_MEASURE (R449): Command requesting a measurement of the bulk capacitance. -/
  | storeHoldupMeasure (src : Source)
  /-- STORE_WEAR_READ (R459): Command returning a device's wear data. -/
  | storeWearRead (src : Source) (dev : Nat)
  /-- EVENT_STATUS (R459): Command returning the recorder's sequence bounds and counts. -/
  | eventStatus (src : Source)
  /-- EVENT_READ (R458): Command returning up to 64 event records with OLDEST_START and OLDEST_END. -/
  | eventRead (src : Source) (first : Nat) (count : Nat)
  /-- LIFECYCLE_STATUS (R478): Command returning the lifecycle state, key generations and sessions. -/
  | lifecycleStatus (src : Source)
  /-- LIFECYCLE_TURN (R461): Command installing a new generation of estate keys. -/
  | lifecycleTurn (src : Source) (r : TurnReq)
  /-- LIFECYCLE_SEAL (R462): Command moving a TURNED module to SEALED. -/
  | lifecycleSeal (src : Source)
  /-- LIFECYCLE_DECOMMISSION (R463): Command erasing settings, blowing the PARTED fuse and resetting. -/
  | lifecycleDecommission (src : Source) (serial : Nat)
  /-- DEBUG_STATUS (R478): Command returning the debug level and halted cores. -/
  | debugStatus (src : Source)
  /-- DEBUG_LEVEL_SET (R470): Command changing the debug level, running the invasive entry sequence when raised to invasive. -/
  | debugLevelSet (src : Source) (level : Nat)
  /-- UPDATE_STATUS (R478): Command returning the image slots, default slot, TRY mark and rollback count. -/
  | updateStatus (src : Source)
  /-- UPDATE_IMAGE_WRITE (R473): Command writing a firmware package in parts to the inactive slot and checking it at the last part. -/
  | updateImageWrite (src : Source) (offset : Nat) (bytes : List (BitVec 8)) (last : Bool) (gapOk : Bool)
  /-- UPDATE_REBOOT (R476): Command restarting on trial of the PENDING slot or on the default slot. -/
  | updateReboot (src : Source) (trial : Bool)
  /-- POWER_STATUS (R495): Command returning per-port power, VHU, board supply and start stages. -/
  | powerStatus (src : Source)
  /-- INT_STATUS_WRITE (R411): W1C write to INT_STATUS clearing interrupt bits. -/
  | intStatusWrite (t : Nat) (v : Nat)
  /-- MAILBOX_ENABLE_WRITE (R412): Write of a PCIe mailbox's ENABLE bit, which gates taking of requests. -/
  | mailboxEnableWrite (t : Nat) (m : Nat) (on : Bool)
  /-- MAILBOX_RESET_WRITE (R416): Write of a PCIe mailbox's RESET bit, resetting that mailbox alone. -/
  | mailboxResetWrite (t : Nat) (m : Nat)
  /-- TIME_LO_READ (R410): Read of TIME_LO that captures all 64 bits of the clock for TIME_HI. -/
  | timeLoRead (t : Nat)
  /-- QUEUE_DOORBELL_PI (R415): Host write of a new PI to a queue doorbell. -/
  | queueDoorbellPi (t : Nat) (q : Nat) (v : Nat)
  /-- QUEUE_DOORBELL_CI (R415): Host write of a new CI to a queue doorbell. -/
  | queueDoorbellCi (t : Nat) (q : Nat) (v : Nat)
  /-- CHANNEL_DOORBELL_RING (R390): Host write of 0x1 to a channel doorbell. -/
  | channelDoorbellRing (t : Nat) (c : Nat)
  /-- CHANNEL_DOORBELL_ABORT (R394): Host write of 0x2 to a channel doorbell requesting abort. -/
  | channelDoorbellAbort (t : Nat) (c : Nat)
  /-- QUEUE_NOTICE_PENDING_WRITE (R411): W1C write to the queue notice pending bits. -/
  | queueNoticePendingWrite (t : Nat) (word : Nat) (v : Nat)
  /-- BAR2_ACCESS (R414): Host access to BAR2, reaching only rings of queues with a HOST side. -/
  | bar2Access (t : Nat) (write : Bool) (offset : Nat) (data : List (BitVec 8)) (len : Nat)
  /-- REGISTER_WRITE (R408): Write to a BAR0 register with no behaviour of its own, or of a wrong size. -/
  | registerWrite (t : Nat) (offset : Nat) (v : Nat) (size : Nat)
  /-- PCIE_FUNCTION_RESET (R416): Function level reset or hot reset clearing the PCIe path state. -/
  | pcieFunctionReset (t : Nat)
  /-- REQUEST_TAKE (R404): SVA takes a complete request from a mailbox, checks it and executes it. -/
  | requestTake (t : Nat) (path : Path) (box : Nat)
  /-- RESP_ROOM (R413): Room appears in a full response ring and the waiting response is written. -/
  | respRoom (t : Nat) (m : Nat)
  /-- SERVICE_MESSAGE (R417): A message arrives on a service session's TLS stream. -/
  | serviceMessage (t : Nat) (session : Nat) (bytes : List (BitVec 8))
  /-- MAILBOX_CLOSE (R418): A Garzet mailbox closes after 10 s without a request. -/
  | mailboxClose (t : Nat) (berth : Nat)
  /-- REQUEST_TIMEOUT (R420): A sent Garzet request gets no reply within its answer time plus 30 ms. -/
  | requestTimeout (t : Nat) (corr : Nat)
  /-- HEARTBEAT (R410): SVA toggles HEARTBEAT every 100 ms. -/
  | heartbeat (t : Nat)
  /-- PTP_SYNC (R48): A Sync received on the source LAN gives a servo offset sample. -/
  | ptpSync (t : Nat) (lan : Lan) (m : SyncMsg)
  /-- PTP_ANNOUNCE (R44): An Announce message is received and the best master clock algorithm runs. -/
  | ptpAnnounce (t : Nat) (lan : Lan) (a : Announce)
  /-- PTP_DELAY_RESP (R48): A Delay_Resp completes a path delay measurement. -/
  | ptpDelayResp (t : Nat) (lan : Lan) (m : DelayResp)
  /-- PTP_SYNC_SEND (R47): As master the module sends a one-step Sync. -/
  | ptpSyncSend (t : Nat) (lan : Lan) (insertOk : Bool)
  /-- SERVO_LOCKED (R50): 16 consecutive samples within LOCK_NS move the servo to LOCKED. -/
  | servoLocked (t : Nat)
  /-- SERVO_OUTLIERS (R50): 8 consecutive outliers move a LOCKED servo to ACQUIRE. -/
  | servoOutliers (t : Nat)
  /-- MASTER_LOST (R50): No Sync for 4 intervals or announce timeout moves the servo to HOLDOVER. -/
  | masterLost (t : Nat)
  /-- TIME_DISAGREE (R51): The two LANs' offsets differ by over 1,000 ns for 8 consecutive pairs. -/
  | timeDisagree (t : Nat)
  /-- LIGHTHOUSE_SAMPLE (R53): A 50 µs grid voltage sample pair steps the phase-locked loop. -/
  | lighthouseSample (t : Nat) (inst : Nat) (lane : Nat)
  /-- PLL_LOCK (R54): The loop locks after 10 consecutive good cycles. -/
  | pllLock (t : Nat)
  /-- PLL_UNLOCK (R54): The loop leaves lock on 3 cycles of large phase error or a range excursion. -/
  | pllUnlock (t : Nat)
  /-- TIDE_PUBLISH (R55): A lighthouse sends its tide message once per grid cycle. -/
  | tidePublish (t : Nat)
  /-- TIDE_MESSAGE (R58): A tide message is received, checked and used to correct the local tide position. -/
  | tideMessage (t : Nat) (lan : Lan) (bytes : List (BitVec 8))
  /-- LIGHTHOUSE_DISAGREE (R59): Three consecutive disagreeing comparisons of the two instances are recorded. -/
  | lighthouseDisagree (t : Nat)
  /-- INSTANCE_RETURN (R59): After 16 agreeing messages the module returns to instance 0. -/
  | instanceReturn (t : Nat)
  /-- INSTANCE_SILENT (R59): An instance becomes silent after 3 cycles without an accepted message. -/
  | instanceSilent (t : Nat) (i : Nat)
  /-- CORRECTION_END (R61): The period of corrected tide rate ends and the rate returns to the grid rate. -/
  | correctionEnd (t : Nat)
  /-- TIDE_RECOUNT (R62): At the next angle wrap the module takes the source's cycle count. -/
  | tideRecount (t : Nat)
  /-- TIDE_FIRING_ARMED (R69): A tide-table firing comes within 20 µs and its t0 is fixed. -/
  | tideFiringArmed (t : Nat) (entry : Nat) (k : Nat) (pos : Nat)
  /-- SAMPLE_STROBE (R87): A SAMPLE_STROBE firing sends SYNCs, strobes string currents and marks alignment instants. -/
  | sampleStrobe (t : Nat) (entry : Nat)
  /-- SAR_SEQUENCE (R115): A SAR_SEQUENCE firing starts or pends a converter table. -/
  | sarSequence (t : Nat) (entry : Nat)
  /-- ICV_WINDOW (R121): An ICV_WINDOW firing ends one integration window and starts the next. -/
  | icvWindow (t : Nat) (entry : Nat)
  /-- SOUNDING_STEP (R203): A SOUNDING_STEP firing applies a sounding step and sends ACTIVE. -/
  | soundingStep (t : Nat) (entry : Nat)
  /-- GRAPH_CYCLE (R329): A GRAPH_CYCLE firing publishes due cycles, applies signals and takes snapshots for starting cycles. -/
  | graphCycle (t : Nat) (entry : Nat)
  /-- MODE_CHANGE (R314): A MODE_CHANGE firing applies a committed mode or graph change. -/
  | modeChange (t : Nat) (entry : Nat)
  /-- TRIGGER_OUT (R75): A TRIGGER_OUT firing starts a TSOUT pulse. -/
  | triggerOut (t : Nat) (entry : Nat)
  /-- TRIGGER_TIME_PULSE (R75): A TSOUT pulse starts at its configured clock time in TIME or PPS mode. -/
  | triggerTimePulse (t : Nat) (out : Nat)
  /-- PULSE_END (R75): A TSOUT pulse ends after its width. -/
  | pulseEnd (t : Nat) (out : Nat)
  /-- TSIN_CAPTURE (R74): An edge on TSIN captures clock time and tide position. -/
  | tsinCapture (t : Nat) (input : Nat) (rising : Bool) (widthNs : Nat)
  /-- TAP_DATA (R90): A DATA frame is received and written to the sample store and safety memory. -/
  | tapData (t : Nat) (port : Nat) (rx : TapRx)
  /-- TAP_HELLO (R94): A HELLO is received during training and checked. -/
  | tapHello (t : Nat) (port : Nat) (rx : TapRx)
  /-- TAP_ECHO_REPLY (R86): An ECHO_REPLY gives a trim result. -/
  | tapEchoReply (t : Nat) (port : Nat) (rx : TapRx)
  /-- ALIGN_LOST (R91): Three consecutive echo outliers set ALIGN_LOST. -/
  | alignLost (t : Nat) (port : Nat)
  /-- ALIGN_REGAINED (R91): 16 consecutive close results give a new trim and clear ALIGN_LOST. -/
  | alignRegained (t : Nat) (port : Nat)
  /-- ALIGN_LOST_RETRAIN (R91): A port with ALIGN_LOST for 10 s is retrained. -/
  | alignLostRetrain (t : Nat) (port : Nat)
  /-- TAP_ACK (R107): An ACK answers a CONFIG, BALANCE or SLEEP command. -/
  | tapAck (t : Nat) (port : Nat) (rx : TapRx)
  /-- TAP_FRAME_ERROR (R80): A received tap frame fails its checks and is discarded when the line falls idle. -/
  | tapFrameError (t : Nat) (port : Nat) (rx : TapRx)
  /-- MISSED_FRAME (R97): No DATA accepted by t0 + 150 µs makes the frame missed. -/
  | missedFrame (t : Nat) (port : Nat)
  /-- TAP_STALL (R98): Three consecutive missed frames put a port into STALL and TRAIN. -/
  | tapStall (t : Nat) (port : Nat)
  /-- COMMAND_WINDOW (R89): A port's command window opens for one ECHO or command exchange. -/
  | commandWindow (t : Nat) (port : Nat)
  /-- TRAINING_ATTEMPT (R94): A wake training attempt starts with 200 µs of tone. -/
  | trainingAttempt (t : Nat) (port : Nat)
  /-- TRAINING_TIMEOUT (R94): A training attempt not in RUN by 50 ms, or without HELLO by 2.5 ms, fails. -/
  | trainingTimeout (t : Nat) (port : Nat)
  /-- TRAINING_RETRY (R93): A new attempt starts 100 ms after a failure, or every 10 s in FAILED. -/
  | trainingRetry (t : Nat) (port : Nat)
  /-- HELM_HOLDER_MARK (R103): The standby strobes a lane at the instant the helm holder marks over the twin link. -/
  | helmHolderMark (t : Nat) (lane : Nat) (at_ : Nat)
  /-- CONVERSION_COMPLETE (R119): A SAR conversion delivers its result record to its consumers. -/
  | conversionComplete (t : Nat) (conv : Nat) (code : Nat)
  /-- TABLE_RUN_END (R115): A sequencer table run ends after its last GAP and a pending start begins. -/
  | tableRunEnd (t : Nat) (conv : Nat)
  /-- CAL_POINT_RESULT (R126): A calibration point's conversions or ICV windows end and coefficients are computed. -/
  | calPointResult (t : Nat) (target : CalTarget)
  /-- ICV_WORD (R124): An ICV output word arrives and the coulomb counter and model correction are updated. -/
  | icvWord (t : Nat) (lane : Nat) (count : Int)
  /-- BEACHED_BUS_CONVERSION (R120): In BEACHED the DC bus voltage of each configured lane is converted every 10 ms. -/
  | beachedBusConversion (t : Nat) (lane : Nat) (code : Nat)
  /-- DAC_RANGE_SETTLE (R129): The 20 µs of code 0 after a range change end and the written code is driven. -/
  | dacRangeSettle (t : Nat) (out : Nat)
  /-- TACH_EDGE (R131): A counted tachometer edge updates count, speed and direction. -/
  | tachEdge (t : Nat) (input : Nat) (pulse : TachPulse)
  /-- STANDSTILL (R132): STANDSTILL passes without a counted edge and the input reports speed 0 with STALE. -/
  | standstill (t : Nat) (input : Nat)
  /-- PWM_PERIOD_START (R145): A phase's PWM period starts, loading its shadow and raising PWM requests; spindle C forms the reference at phase 0. -/
  | pwmPeriodStart (t : Nat) (lane : Nat) (phase : Nat)
  /-- LOOP_SAMPLE_LOST (R147): Eight consecutive dropped samples trip the lane. -/
  | loopSampleLost (t : Nat) (lane : Nat)
  /-- BUS_RANGE (R152): The bus outside its window for 10 periods trips the lane. -/
  | busRange (t : Nat) (lane : Nat)
  /-- ARM_SEQUENCE_STEP (R160): A timer, feedback or voltage condition advances the arming sequence. -/
  | armSequenceStep (t : Nat) (lane : Nat)
  /-- PRECHARGE_SHORT (R160): The precharge node above half the string voltage for PRE_SHORT fails the precharge. -/
  | prechargeShort (t : Nat) (lane : Nat)
  /-- DISARM_SEQUENCE_STEP (R161): Current below I_OPEN, a timer or feedback advances the disarm sequence. -/
  | disarmSequenceStep (t : Nat) (lane : Nat)
  /-- DISARM_FORCED (R161): DISARM_TIMEOUT passes and the gates are forced low. -/
  | disarmForced (t : Nat) (lane : Nat)
  /-- DECAY_CHECK (R161): At step 3 + T_DECAY the stage voltage is checked for a weld. -/
  | decayCheck (t : Nat) (lane : Nat)
  /-- CONTACTOR_FEEDBACK (R158): A contactor feedback input changes and closings or breaks are counted. -/
  | contactorFeedback (t : Nat) (lane : Nat) (k : Nat) (closed : Bool)
  /-- CONTACTOR_MISMATCH (R156): Feedback differs from command for longer than T_FB and trips the lane. -/
  | contactorMismatch (t : Nat) (lane : Nat) (k : Nat)
  /-- WELD_CHECK (R162): T_FB after a trip opening, a closed feedback is recorded as WELD. -/
  | weldCheck (t : Nat) (lane : Nat)
  /-- LOOP_ITEM (R157): A LOOP mirror item arrives over the twin link and the shadow tracks contactors and compares duty. -/
  | loopItem (t : Nat) (lane : Nat) (item : LoopItem)
  /-- MODEL_STEP (R173): A model engine steps its cells, makes one filter update and publishes outputs and limits. -/
  | modelStep (t : Nat) (port : Nat)
  /-- MODEL_DIVERGED (R176): Ten consecutive rejected updates set DIVERGED and take a roughing estimate. -/
  | modelDiverged (t : Nat) (port : Nat) (cell : Nat)
  /-- MODEL_LIMITS_STALE (R183): A port minimum not refreshed in time counts as 0. -/
  | modelLimitsStale (t : Nat) (port : Nat)
  /-- OPEN_CIRCUIT_ESTIMATE (R186): After 16 accepted frames the open-circuit estimate replaces a cell's state. -/
  | openCircuitEstimate (t : Nat) (port : Nat) (cell : Nat)
  /-- LANE_REST (R187): A lane completes 30 min of rest and its ROUGH cells are re-estimated. -/
  | laneRest (t : Nat) (lane : Nat)
  /-- COMMIT_INTERVAL (R193): The commit interval runs out and a learned commit starts. -/
  | commitInterval (t : Nat)
  /-- COMMIT_DONE (R445): A learned commit's footer is written and the queued commit, if any, starts. -/
  | commitDone (t : Nat) (ok : Bool)
  /-- SLACK_ENTER (R196): 60 s of low current enters SLACK at the next qualifying cycle. -/
  | slackEnter (t : Nat)
  /-- SLACK_EXIT (R196): Three samples at or above the threshold return the module to FULL. -/
  | slackExit (t : Nat)
  /-- ROLE_DROPPED (R198): A role release not taken up within 1 s stops the role. -/
  | roleDropped (t : Nat) (role : Nat)
  /-- BEACHED_AT (R198): After the beaching commit the ports are sent SLEEP and the module stops its engines. -/
  | beachedAt (t : Nat)
  /-- REFLOAT (R201): A bus return or a REFLOAT input held 50 ms starts refloat. -/
  | refloat (t : Nat) (byInput : Bool) (rose : Nat)
  /-- REFLOATED (R201): By 100 ms the module is in FULL, makes pending commits and takes its roles. -/
  | refloated (t : Nat)
  /-- SOUND_READY_SEND (R206): At angle 0 up to cycle N − 3 a holder sends READY. -/
  | soundReadySend (t : Nat) (lane : Nat)
  /-- SOUND_READY (R206): A READY message from the partner is received. -/
  | soundReady (t : Nat) (lan : Lan) (h : GHead) (m : SoundMsg)
  /-- SOUND_ACTIVE (R208): An ACTIVE message from the partner is received. -/
  | soundActive (t : Nat) (lan : Lan) (h : GHead) (m : SoundMsg)
  /-- SOUND_END (R208): An END message from the partner ends or abandons the step. -/
  | soundEnd (t : Nat) (lan : Lan) (h : GHead) (m : SoundMsg)
  /-- SOUND_DECISION (R206): At angle 0 of cycle N − 2 each holder enables or abandons its step. -/
  | soundDecision (t : Nat) (lane : Nat)
  /-- SOUND_ALONE (R208): No partner ACTIVE by START + 2 ms ends the step with ALONE. -/
  | soundAlone (t : Nat) (lane : Nat)
  /-- SOUND_STEP_LEAVE (R203): The step leaves after LENGTH base intervals. -/
  | soundStepLeave (t : Nat) (lane : Nat)
  /-- CAPTURE_END (R212): The capture ends, its entries are disabled and balancing resumes. -/
  | captureEnd (t : Nat) (lane : Nat)
  /-- SOUND_FIT (R214): The fit of every port completes and results are readable. -/
  | soundFit (t : Nat) (lane : Nat)
  /-- SOUND_SET_CLOSE (R218): A set still open 1 h after its first step is closed. -/
  | soundSetClose (t : Nat) (lane : Nat)
  /-- SPRING_PHASE_END (R221): A spring-tide phase reaches its end condition and moves on. -/
  | springPhaseEnd (t : Nat) (lane : Nat)
  /-- SPRING_TAPER_END (R221): Current below C50 for 10 s ends TOP or BOTTOM and starts the endpoint. -/
  | springTaperEnd (t : Nat) (lane : Nat)
  /-- SPRING_ENDPOINT (R225): After 16 frames the FULL or EMPTY endpoint SOC is taken. -/
  | springEndpoint (t : Nat) (lane : Nat)
  /-- SPRING_INTERRUPTED (R223): Current at or below zero for 60 s in discharge fails the spring tide. -/
  | springInterrupted (t : Nat) (lane : Nat)
  /-- SPRING_PORT_LOST (R223): A port out of RUN for 1 s fails the spring tide. -/
  | springPortLost (t : Nat) (lane : Nat)
  /-- SPRING_TIMEOUT (R223): MAX_HOURS after the start fails the spring tide. -/
  | springTimeout (t : Nat) (lane : Nat)
  /-- SPRING_GRANT (R228): The coordinator grants spring tides to due lanes within the share. -/
  | springGrant (t : Nat)
  /-- BALANCE_PLAN (R233): Every 10 s the balancing plan is recomputed. -/
  | balancePlan (t : Nat) (lane : Nat)
  /-- BALANCE_REPEAT (R234): A port's balancing mask is repeated every 500 ms. -/
  | balanceRepeat (t : Nat) (port : Nat)
  /-- SWITCH_TEST_START (R237): A scheduled or retried balancing switch test starts. -/
  | switchTestStart (t : Nat) (port : Nat) (cell : Nat)
  /-- SWITCH_TEST_STEP (R238): A frame count or field state advances a switch test to its verdict. -/
  | switchTestStep (t : Nat) (port : Nat)
  /-- BAL_TEST_OVERDUE (R237): A cell without a completed test for 24 h raises an alarm. -/
  | balTestOverdue (t : Nat) (port : Nat) (cell : Nat)
  /-- TEMPERATURE_SAMPLE (R243): At each temperature sample SFA applies the temperature rules and spindle C the shed limit. -/
  | temperatureSample (t : Nat) (lane : Nat)
  /-- THERMAL_PRECURSOR (R244): Three consecutive fast rises raise the precursor and trip the lane. -/
  | thermalPrecursor (t : Nat) (port : Nat) (sensor : Nat)
  /-- TEMP_SENSOR_LOST (R245): Ten consecutive marker samples raise the alarm and derate the lane. -/
  | tempSensorLost (t : Nat) (port : Nat) (sensor : Nat)
  /-- COOLING_LOOP_UPDATE (R248): Once per second a cooling loop computes its demand and publishes its signals. -/
  | coolingLoopUpdate (t : Nat) (loop : Nat)
  /-- COOLING_LOST (R249): A tachometer without expected speed for 10 s sets COOLING_LOST. -/
  | coolingLost (t : Nat) (loop : Nat)
  /-- COOLING_RESTORED (R249): 60 s of valid speed clears COOLING_LOST. -/
  | coolingRestored (t : Nat) (loop : Nat)
  /-- DIE_READING (R252): A die sensor reading is taken and the die thermal state updated. -/
  | dieReading (t : Nat) (raw : Nat) (reading : Int)
  /-- DIE_ENFORCE (R252): SHED_REQUEST held for 2 s enters ENFORCE. -/
  | dieEnforce (t : Nat)
  /-- DIE_SENSOR_BROKEN (R253): A raw code unchanged over 100 readings makes the reading broken. -/
  | dieSensorBroken (t : Nat)
  /-- DIE_RELEASE (R254): 10 s of cool, slow readings return the die state to NORMAL. -/
  | dieRelease (t : Nat)
  /-- LOCKSTEP_MISMATCH (R258): A safety core pair's lockstep mismatch is a safety core fault. -/
  | lockstepMismatch (t : Nat) (sfb : Bool)
  /-- CROSS_WATCHDOG (R22): Expiry of the 100 µs cross-watchdog between safety pairs. -/
  | crossWatchdog (t : Nat) (sfb : Bool)
  /-- CONFIG_CRC_CHECK (R257): Every 100 ms SFA checks the safety configuration CRC. -/
  | configCrcCheck (t : Nat) (ok : Bool)
  /-- SAFETY_CORE_RESET (R258): 10 ms after a safety core fault the module resets itself. -/
  | safetyCoreReset (t : Nat)
  /-- OVERCURRENT_TRIP (R261): A comparator crossing its threshold forces the lane's gates low in hardware. -/
  | overcurrentTrip (t : Nat) (lane : Nat) (comp : Nat) (value : Int)
  /-- COMPARATOR_RELEASE (R261): A comparator input below 90 % for 1 ms releases the comparator. -/
  | comparatorRelease (t : Nat) (lane : Nat) (comp : Nat)
  /-- THRESHOLD_READBACK (R261): Every 10 ms SFA reads back the comparator thresholds. -/
  | thresholdReadback (t : Nat) (lane : Nat) (comp : Nat) (code : Nat)
  /-- PORT_DERATE (R263): A port out of RUN or a cell at 0xFFFF for 3 frames derates the lane. -/
  | portDerate (t : Nat) (lane : Nat)
  /-- PORT_LOST (R263): The derate condition lasting PORT_LOST_TIME trips the lane. -/
  | portLost (t : Nat) (lane : Nat)
  /-- ESTOP (R267): An E-STOP channel falling trips every lane. -/
  | estop (t : Nat) (channelB : Bool)
  /-- ESTOP_DISCREPANCY (R267): The channels differing for the discrepancy time set the module latch. -/
  | estopDiscrepancy (t : Nat)
  /-- ESTOP_RECOVERED (R267): Both channels high together for 1 s allow the discrepancy latch to be released. -/
  | estopRecovered (t : Nat)
  /-- FIRE (R267): FIRE_IN going low trips every lane. -/
  | fire (t : Nat)
  /-- SAFE_OUT_FAULT (R268): A safe output read-back disagreeing for 10 ms sets SAFE_OUT_FAULT. -/
  | safeOutFault (t : Nat) (out : Nat)
  /-- CLEAR_EDGE (R273): A clean CLEAR edge releases latches whose causes are gone. -/
  | clearEdge (t : Nat) (lowNs : Nat) (highNs : Nat)
  /-- CLEAR_STUCK (R272): CLEAR held high for 2 s is recorded. -/
  | clearStuck (t : Nat) (rose : Nat)
  /-- SAFE_HEARTBEAT (R277): A link's safe-channel frame is sent each heartbeat or on a change. -/
  | safeHeartbeat (t : Nat) (due : SafeDue)
  /-- SAFE_FRAME (R280): A safe-channel copy is received, checked and accepted or held. -/
  | safeFrame (t : Nat) (lan : Lan) (bytes : List (BitVec 8))
  /-- SKEW_EXPIRY (R280): SKEW ends with a single held copy, discarded as SINGLE_COPY. -/
  | skewExpiry (t : Nat) (berth : Nat) (link : Nat)
  /-- SAFE_LINK_WATCHDOG (R281): No frame accepted for WATCHDOG puts the link in SAFE. -/
  | safeLinkWatchdog (t : Nat) (berth : Nat) (link : Nat)
  /-- LAN_DOWN (R278): PHY loss of link or 4 × HB of silence makes a LAN DOWN. -/
  | lanDown (t : Nat) (lan : Lan) (linkLoss : Bool)
  /-- LAN_UP (R278): 100 × HB of frames without silence makes a LAN up again. -/
  | lanUp (t : Nat) (lan : Lan)
  /-- ECC_CORRECTED (R26): A single-bit error is corrected and counted against its page or block. -/
  | eccCorrected (t : Nat) (sram : Bool) (object : Nat)
  /-- UNCORRECTABLE_ERROR (R26): An engine consumes poisoned data and raises an active compute path fault. -/
  | uncorrectableError (t : Nat) (u : EccUnit)
  /-- SUPERVISOR_WATCHDOG (R283): SFA's 100 ms watchdog on a supervisor core expires. -/
  | supervisorWatchdog (t : Nat) (core : Nat)
  /-- BARE_ROCK_STROBE (R64): In BARE ROCK tap sampling is strobed every 10 ms. -/
  | bareRockStrobe (t : Nat)
  /-- BARE_ROCK_EXIT (R286): After 60 s of cool die readings the module self-resets out of BARE ROCK. -/
  | bareRockExit (t : Nat)
  /-- LLDPDU (R292): An LLDPDU is received and its identities kept. -/
  | lldpdu (t : Nat) (lan : Lan) (id : LldpId)
  /-- LLDP_SEND (R292): The module sends an LLDPDU every 30 s and after link-up. -/
  | lldpSend (t : Nat) (lan : Lan)
  /-- BERTH_DERIVATION (R293): After listening the module derives its berth, retried every 10 s. -/
  | berthDerivation (t : Nat)
  /-- BERTH_DUPLICATE (R294): A duplicate announcer of the held berth is recorded every 60 s. -/
  | berthDuplicate (t : Nat)
  /-- GARZET_FORMAT_ERR (R297): A Garzet frame breaking the header rules is discarded. -/
  | garzetFormatErr (t : Nat) (frame : LanFrame)
  /-- GARZET_MAILBOX (R418): A MAILBOX message is delivered to its sender's mailbox. -/
  | garzetMailbox (t : Nat) (lan : Lan) (h : GHead) (bytes : List (BitVec 8))
  /-- GARZET_MAILBOX_REPLY (R420): A MAILBOX_REPLY completes a sent request. -/
  | garzetMailboxReply (t : Nat) (lan : Lan) (h : GHead) (bytes : List (BitVec 8))
  /-- GARZET_ACK (R302): An ACK releases acknowledged messages of a stream. -/
  | garzetAck (t : Nat) (lan : Lan) (h : GHead)
  /-- GARZET_ROLE_MOVED (R311): A ROLE_MOVED reply reaches the sending function. -/
  | garzetRoleMoved (t : Nat) (lan : Lan) (h : GHead) (m : MovedMsg)
  /-- GARZET_ANNOUNCE (R306): An ANNOUNCE replaces the announcer's role table entries. -/
  | garzetAnnounce (t : Nat) (lan : Lan) (h : GHead) (m : AnnounceMsg)
  /-- GARZET_SIGNAL (R339): A SIGNAL frame's entries are scheduled for application. -/
  | garzetSignal (t : Nat) (lan : Lan) (h : GHead) (m : SignalMsg)
  /-- GARZET_PROPOSE (R313): A member answers PROPOSE with PROPOSE_ACK. -/
  | garzetPropose (t : Nat) (lan : Lan) (h : GHead) (m : Proposal)
  /-- GARZET_PROPOSE_ACK (R314): The coordinator records a member's answer. -/
  | garzetProposeAck (t : Nat) (lan : Lan) (h : GHead) (id : Nat) (result : Nat)
  /-- GARZET_COMMIT (R314): A member holding COMMIT writes its MODE_CHANGE entry. -/
  | garzetCommit (t : Nat) (lan : Lan) (h : GHead) (id : Nat) (n : Nat)
  /-- GARZET_ABANDON (R314): A member closes an abandoned change. -/
  | garzetAbandon (t : Nat) (lan : Lan) (h : GHead) (id : Nat) (reason : Nat)
  /-- GARZET_REPORT (R315): The coordinator records a member's outcome. -/
  | garzetReport (t : Nat) (lan : Lan) (h : GHead) (m : ReportMsg)
  /-- GARZET_FALL_BACK (R315): A member schedules its move to the conservative mode at M. -/
  | garzetFallBack (t : Nat) (lan : Lan) (h : GHead) (id : Nat) (m : Nat)
  /-- RETRANSMIT (R302): An unacknowledged message is resent at 2, 4, 6 and 8 ms. -/
  | retransmit (t : Nat) (peer : Nat) (seq : Nat)
  /-- NO_ACK (R302): 10 ms without ACK reports NO_ACK and renews the stream. -/
  | noAck (t : Nat) (peer : Nat) (seq : Nat)
  /-- GAP_SKIPPED (R303): A gap open 10 ms is given up and held messages delivered. -/
  | gapSkipped (t : Nat) (peer : Nat)
  /-- PATH_DOWN (R304): A LAN missing a sender's copies for 16 ms is PATH_DOWN. -/
  | pathDown (t : Nat) (berth : Nat) (lan : Lan)
  /-- PATH_UP (R304): 1 s of copies makes the LAN PATH_UP again. -/
  | pathUp (t : Nat) (berth : Nat) (lan : Lan)
  /-- ANNOUNCE_SEND (R305): The module sends ANNOUNCE every 1 s and after role changes. -/
  | announceSend (t : Nat)
  /-- ROLE_AGE_OUT (R306): An announcer's entries age out 5 s after its last announcement. -/
  | roleAgeOut (t : Nat) (key : Nat)
  /-- CHANGE_DECISION (R314): At angle 0 of N − 2 the coordinator sends COMMIT or ABANDON. -/
  | changeDecision (t : Nat) (id : Nat)
  /-- CHANGE_ROUND (R315): At angle 0 of N + 2 or of a later round the coordinator judges the change. -/
  | changeRound (t : Nat) (id : Nat)
  /-- CHANGE_MEMBER_CLOSE (R316): Members close an undecided change 64 cycles after N. -/
  | changeMemberClose (t : Nat) (id : Nat)
  /-- COORDINATOR_TAKEOVER (R316): 10 s after taking COORDINATOR the module reads open changes and spring tides. -/
  | coordinatorTakeover (t : Nat) (roster : List RosterLane) (reports : List (Proposal × List ReportMsg))
  /-- GRAPH_CYCLE_COMPLETE (R329): A graph cycle's computation completes and awaits publication. -/
  | graphCycleComplete (t : Nat) (slot : Nat) (r : CycleResult)
  /-- CYCLE_BUDGET (R331): A cycle reaching its budget is stopped and fails. -/
  | cycleBudget (t : Nat) (slot : Nat)
  /-- TENANT_FAULT (R332): Three consecutive cycle failures stop the tenant. -/
  | tenantFault (t : Nat) (slot : Nat)
  /-- ENGINE_FAULT (R332): A graph engine fault or 10 ms watchdog stops all its tenants. -/
  | engineFault (t : Nat) (engine : Nat)
  /-- SIGNAL_REFRESH (R337): Every declared estate signal is sent at least once per REFRESH. -/
  | signalRefresh (t : Nat) (slot : Nat)
  /-- SIGNAL_STALE (R339): A handle without entries for 3 × REFRESH takes its marker with STALE. -/
  | signalStale (t : Nat) (handle : Nat)
  /-- ROLE_TAKE (R348): 5 s or 10 s after the berth an unresolved assigned role is taken ACTIVE. -/
  | roleTake (t : Nat) (role : Nat)
  /-- HELM_IN_FALL (R355): The partner's helm line falls. -/
  | helmInFall (t : Nat) (lane : Nat)
  /-- HELM_RAISE (R350): After 2 µs of HELM_IN low the module raises its helm line. -/
  | helmRaise (t : Nat) (lane : Nat)
  /-- HELM_CONFLICT (R350): Both modules raise together and drop their lines. -/
  | helmConflict (t : Nat) (lane : Nat)
  /-- HELM_RETRY (R350): After 20 or 100 µs a module tries the helm again. -/
  | helmRetry (t : Nat) (lane : Nat)
  /-- TAKEOVER (R367): The new holder raises its line and drives the lane from mirrored states. -/
  | takeover (t : Nat) (role : Nat)
  /-- SPINDLE_LATE (R354): A law not complete 1 µs after hold in two periods releases the lane. -/
  | spindleLate (t : Nat) (lane : Nat)
  /-- MODEL_ENGINE_LATE (R354): A model engine late in two instants releases the lane. -/
  | modelEngineLate (t : Nat) (port : Nat)
  /-- HELM_KEEP (R351): A KEEP token message is received. -/
  | helmKeep (t : Nat) (link : Link) (h : GHead) (m : HelmMsg)
  /-- KEEP_CHECK (R351): At a publication instant the standby finds KEEP missing and takes the helm. -/
  | keepCheck (t : Nat) (role : Nat) (p : Nat)
  /-- HELM_RELEASE (R353): A RELEASE helm message is received. -/
  | helmRelease (t : Nat) (link : Link) (h : GHead) (m : HelmMsg)
  /-- HELM_TAKEN_RECEIVED (R353): A TAKEN helm message is received. -/
  | helmTakenReceived (t : Nat) (link : Link) (h : GHead) (m : HelmMsg)
  /-- HELM_SWAP_REQUEST (R369): The standby answers SWAP_REQUEST with SWAP_READY or its sync state. -/
  | helmSwapRequest (t : Nat) (link : Link) (h : GHead) (m : HelmMsg)
  /-- HELM_SWAP_READY (R369): The holder releases at the end of the next period or publication. -/
  | helmSwapReady (t : Nat) (link : Link) (h : GHead) (m : HelmMsg)
  /-- HELM_TEST_START (R365): A TEST_START schedules the self-test 2 ms ahead. -/
  | helmTestStart (t : Nat) (link : Link) (h : GHead) (m : HelmMsg)
  /-- SELF_TEST (R366): The self-test of the role's engines runs at its start time. -/
  | selfTest (t : Nat) (role : Nat) (pass : Bool)
  /-- HELM_TEST_RESULT (R365): A TEST_RESULT arbitrates a shadow compare mismatch. -/
  | helmTestResult (t : Nat) (link : Link) (h : GHead) (m : HelmMsg)
  /-- TEST_RESULT_TIMEOUT (R365): A result missing 5 ms after the start counts as FAIL. -/
  | testResultTimeout (t : Nat) (role : Nat)
  /-- BACKGROUND_TEST (R366): A background self-test slice runs on a standby engine. -/
  | backgroundTest (t : Nat) (role : Nat) (pass : Bool)
  /-- HELM_FULL_REQUEST (R363): A FULL_REQUEST makes the holder send a FULL generation. -/
  | helmFullRequest (t : Nat) (link : Link) (h : GHead) (m : HelmMsg)
  /-- FULL_REQUEST_SEND (R363): A SYNCING standby sends FULL_REQUEST every 1 s. -/
  | fullRequestSend (t : Nat) (role : Nat)
  /-- GARZET_MIRROR (R358): A MIRROR frame arrives and complete generations are applied and compared. -/
  | garzetMirror (t : Nat) (link : Link) (h : GHead) (m : MirrorFrag)
  /-- MIRROR_STALE (R361): A last applied generation older than 8 cycles makes the standby STALE. -/
  | mirrorStale (t : Nat) (role : Nat)
  /-- IN_SYNC (R363): After a FULL generation and 1 s of clean compare the standby is IN_SYNC. -/
  | inSync (t : Nat) (role : Nat)
  /-- TWIN_LANE_DOWN (R362): A twin-link lane without frames for 1 ms is down. -/
  | twinLaneDown (t : Nat) (i : Nat)
  /-- DESCRIPTOR_FETCH (R386): A channel fetches and checks its next descriptor. -/
  | descriptorFetch (t : Nat) (ch : Nat) (hostBytes : List (BitVec 8))
  /-- DMA_BURST_GRANT (R383): At a burst boundary the engine grants a burst by priority. -/
  | dmaBurstGrant (t : Nat) (ch : Nat) (data : BurstData) (busErr : Bool)
  /-- DESCRIPTOR_COMPLETE (R392): After the last beat the channel writes its completion record and makes the end check. -/
  | descriptorComplete (t : Nat) (ch : Nat)
  /-- CQ_ROOM (R392): Room appears in a completion queue and the held record is written. -/
  | cqRoom (t : Nat) (ch : Nat)
  /-- CQ_STALL (R392): A record waiting 100 ms for room is recorded. -/
  | cqStall (t : Nat) (ch : Nat)
  /-- CAN_FRAME_RECEIVED (R433): A frame received without error is filtered and stored. -/
  | canFrameReceived (t : Nat) (ctl : Nat) (start : Nat) (f : CanFrame)
  /-- CAN_BUS_IDLE (R430): At bus idle the controller offers the winning pending request. -/
  | canBusIdle (t : Nat) (ctl : Nat)
  /-- CAN_TX_ATTEMPT_END (R431): A transmit attempt ends in success, lost arbitration or error. -/
  | canTxAttemptEnd (t : Nat) (ctl : Nat) (result : Nat) (loopDelay : Option Nat) (counted : Bool)
  /-- TX_TIMEOUT (R431): A request not ended TX_TIMEOUT after acceptance ends TIMEOUT_ABORT. -/
  | txTimeout (t : Nat) (ctl : Nat) (buf : Nat)
  /-- CAN_BUS_OFF (R436): Error counters reach bus-off and pending requests end. -/
  | canBusOff (t : Nat) (ctl : Nat)
  /-- CAN_RECOVERY_DONE (R436): 128 occurrences of 11 recessive bits end recovery. -/
  | canRecoveryDone (t : Nat) (ctl : Nat)
  /-- TX_EVENT_ROOM (R432): Room in the TX_EVENT target lets a held outcome record be written. -/
  | txEventRoom (t : Nat) (ctl : Nat) (buf : Nat)
  /-- CAN_REFERENCE_DUE (R437): At each multiple of PERIOD the CONTAINER_TIME holder queues a reference message. -/
  | canReferenceDue (t : Nat) (ctl : Nat)
  /-- CONTAINER_TIME_TAKE (R437): A candidate takes CONTAINER_TIME after 5 s unresolved. -/
  | containerTimeTake (t : Nat) (ctl : Nat)
  /-- RECORD_BATCH (R457): 64 gathered records or 100 ms write a recorder batch. -/
  | recordBatch (t : Nat)
  /-- HOLDUP_RETRY (R448): A deferred write's hold-up check is repeated every 1 s. -/
  | holdupRetry (t : Nat) (vhu : Nat)
  /-- STORE_DEFERRED (R448): A write waiting 60 s raises STORE_DEFERRED. -/
  | storeDeferred (t : Nat)
  /-- HOLDUP_MEASUREMENT (R449): A due measurement of C_HU starts. -/
  | holdupMeasurement (t : Nat) (vhu : Nat)
  /-- HOLDUP_MEASURED (R449): After 50 ms C_HU is computed and written. -/
  | holdupMeasured (t : Nat) (vhu : Nat)
  /-- PAGE_PROGRAM_DONE (R451): A page program is verified and retried or the sector made bad. -/
  | pageProgramDone (t : Nat) (ok0 : Bool) (ok1 : Bool)
  /-- ERASE_DONE (R443): A background erase completes. -/
  | eraseDone (t : Nat) (ok0 : Bool) (ok1 : Bool)
  /-- SCRUB (R454): Every 24 h both devices are read, compared and repaired. -/
  | scrub (t : Nat) (problems : List (Nat × Nat))
  /-- SERVICE_CONNECT (R466): A TCP connection on port 5130 runs the TLS handshake. -/
  | serviceConnect (t : Nat) (hs : Handshake)
  /-- LOCKOUT_END (R467): The 60 s lockout ends. -/
  | lockoutEnd (t : Nat)
  /-- SESSION_TIMEOUT (R467): A session without a message for 15 min is closed. -/
  | sessionTimeout (t : Nat) (session : Nat)
  /-- SESSION_KEY_EXPIRY (R462): 10 s after a key-rotating TURN, old-root sessions end. -/
  | sessionKeyExpiry (t : Nat)
  /-- ROLLBACK_ADVANCED (R475): 72 h of the default image advances the fused rollback count. -/
  | rollbackAdvanced (t : Nat)
  /-- STAGE_RAILS_UP (R488): Rails are in tolerance, safety memory is zeroed and SFA and SFB run. -/
  | stageRailsUp (t : Nat) (sideB : Bool)
  /-- MEMORY_ZEROED (R27): Zeroing of SRAM and LPDDR5 ends and the other engines start. -/
  | memoryZeroed (t : Nat)
  /-- STAGE_IMAGE_RUNNING (R474): A slot is chosen and checked and the image runs. -/
  | stageImageRunning (t : Nat) (slots : BootSlots) (devices : BootDevices)
  /-- STAGE_ON_NETWORK (R488): Plant links are up, the berth is derived and a trial slot becomes GOOD. -/
  | stageOnNetwork (t : Nat)
  /-- STAGE_LANES_ARMABLE (R488): Every configured lane meets the armable conditions. -/
  | stageLanesArmable (t : Nat)
  /-- START_SLOW (R488): A start stage not reached by its time raises an alarm. -/
  | startSlow (t : Nat) (stage : Nat)
  /-- VHU_CHARGED (R485): VHU first reaches 39.2 V and hold-up checks may proceed. -/
  | vhuCharged (t : Nat) (mv : Nat)
  /-- PORT_POWER_LOSS (R482): One port stops being powered and the other carries the load. -/
  | portPowerLoss (t : Nat) (port : Nat)
  /-- PORT_POWER_RESTORED (R482): A port powered again for 1 s clears POWER_ONE_PORT. -/
  | portPowerRestored (t : Nat) (port : Nat)
  /-- LINE_POWER_LOSS (R486): Neither port powered for 50 µs runs the loss sequence. -/
  | linePowerLoss (t : Nat) (vhu : Nat)
  /-- MODULE_UNPOWERED (R486): VHU falls below 20.0 V and the latches clear. -/
  | moduleUnpowered (t : Nat)
  /-- BROWNOUT_RESTART (R487): Power returning during the loss sequence resets the module after the commit. -/
  | brownoutRestart (t : Nat)
  /-- BOARD_SUPPLY_FAULT (R484): VBRD_3V3 over current or under voltage for 10 ms switches it off. -/
  | boardSupplyFault (t : Nat)
  /-- BOARD_SUPPLY_RETRY (R484): The board supply is tried again every 1 s. -/
  | boardSupplyRetry (t : Nat) (ma : Nat) (ok : Bool)
  /-- PARTING_STEP (R493): A completed helm move or timeout advances the parting sequence. -/
  | partingStep (t : Nat)
  /-- POWER_UP (R488): The first port's PSE applies power after classification, which is time zero of start-up with the power-on reset held and outputs per R489. -/
  | powerUp (t : Nat) (port : Nat)
  /-- SESSION_CLOSE (R469): A service session is closed by its client; the executing command's response is discarded, untaken requests are dropped, and an observe level that the session set falls to none. -/
  | sessionClose (t : Nat) (session : Nat)
  /-- DELAY_REQ_SEND (R44): A slave PTP port sends a Delay_Req at the master's logMinDelayReqInterval to measure the path delay. -/
  | delayReqSend (t : Nat) (lan : Lan)
  /-- DELAY_REQ (R44): A port in the PTP master state receives a Delay_Req, timestamps it and answers with a Delay_Resp. -/
  | delayReq (t : Nat) (lan : Lan) (seq : Nat) (peer : Nat)
  /-- PTP_ANNOUNCE_SEND (R45): A port in the PTP master state sends Announce with clockClass 248 at its announce interval. -/
  | ptpAnnounceSend (t : Nat) (lan : Lan)
  /-- FOREIGN_FRAME (R289): A plant-port frame that is oversize, or that carries an EtherType other than Garzet, safe channel, PTP or LLDP (PAUSE included), is discarded and counted as OVERSIZE or FOREIGN. -/
  | foreignFrame (t : Nat) (lan : Lan) (oversize : Bool)
  /-- CHANGE_LAGGING (R314): A member holding an open change reaches cycle N without a COMMIT, keeps its old mode and sends REPORT LAGGING. -/
  | changeLagging (t : Nat) (id : Nat)
  /-- SAFETY_INPUT_HEALTHY (R267): An ESTOP channel or FIRE_IN returns high; its cause ends, SRC_STATE changes and is sent within 100 µs, and the cause no longer blocks a CLEAR release. -/
  | safetyInputHealthy (t : Nat) (input : SafeInput)
  /-- CAN_RECEIVE_ERROR (R436): A protocol error or protocol exception detected while receiving a frame updates REC and the error state under ISO 11898-1, or counts PXE. -/
  | canReceiveError (t : Nat) (ctl : Nat) (exception : Bool) (code : Nat) (dominantAfterFlag : Bool)
  /-- DEBUG_HALT (R470): At the invasive level, a debugger's HALT instruction on the 1149.1 port halts an engine or supervisor core, and SFA suspends its watchdog of R283 for that core. -/
  | debugHalt (t : Nat) (core : Nat)
  deriving DecidableEq, Repr

end Sys2Proof
end

