-- ==== Sys2Proof/Decode.lean ====
section
/-! DEFINITION. The command that a word spells: no row of the opcode table gives bits, so none does. -/

namespace Sys2Proof

/-- The command that `nbits` bits spell by the opcode table. -/
def decodeTableWord (_nbits _w : Nat) : Option Instr := none

end Sys2Proof
end

