-- ==== Sys2Proof/Config.lean ====
section
/-! DEFINITION. What the spec leaves open: functions without a body, so that no proof knows a value of one. Each has a
log entry. -/

namespace Sys2Proof

/-- The FP32 number nearest a rational (06 R168 gives the width, not each rounding); log entry 27. -/
opaque Config.fp32 : Rat → Rat
/-- The exponential as a model engine computes it (06 R168); log entry 27. -/
opaque Config.fexp : Rat → Rat
/-- The inverse hyperbolic sine as a model engine computes it (06 R166); log entry 27. -/
opaque Config.fasinh : Rat → Rat
/-- The square root as a model engine computes it (06 R171); log entry 27. -/
opaque Config.fsqrt : Rat → Rat

/-- One evaluation of the loop from its last outputs, the settings of LIGHTHOUSE.CONFIG (bandwidth, nominal frequency and
nominal voltage, of which V_POS is a fraction: R56) and the two voltages; log entry 28. -/
opaque Config.pll : PllOut → (bandwidth nominalHz nominalMv : Nat) → Int → Int → PllOut
/-- The nominal scale of integrating converter `n`, nC per count, that its range check compares with (04 R127 gives no
number); log entry 49. -/
opaque Config.icvNominal : Nat → Rat

/-- The measured delay of the twin link, ns (03 R103 gives no number); log entry 148. -/
opaque Config.twinDelay : Nat

/-- The local handle the module gives to one of its own signals (11 R336 leaves the numbers to the module): what the
signal is and which object it is of; log entry 35. -/
opaque Config.moduleHandle : Nat → Nat → Nat

/-- A value the spec leaves open, fresh for each number of the counter; log entry 29. -/
opaque Config.freeNat : Nat → Nat

/-- The speed, in 0.01 rpm, that EXPECT times a pump duty stands for (08 R249 gives EXPECT no unit); log entry 41. -/
opaque Config.expectSpeed : Nat → Nat → Int

/-- The twin partner is strapped to side B (19 R500); log entry 73. -/
opaque Config.twinPeerSideB : Bool

/-! A graph image's parts that the spec does not lay out (11 R322, R336, R340): functions of its bytes; log entry 53. -/

/-- The local handles that the graph of an image publishes. -/
opaque Config.imageLocal : List Byte → List Nat
/-- The estate handles that it publishes. -/
opaque Config.imageEstate : List Byte → List Nat
/-- The signals that it reads: handle, and whether it is an estate signal. -/
opaque Config.imageReads : List Byte → List (Nat × Bool)
/-- The type of a signal that it publishes: handle, and whether it is an estate signal. -/
opaque Config.imageType : List Byte → Nat → Bool → Nat
/-- The initial values of variable `k` of its variable table. -/
opaque Config.imageInit : List Byte → Nat → List Int
/-- What the ring size exponent of its queue `i` is taken from. -/
opaque Config.imageQueue : List Byte → Nat → Nat

/-- The factory delivery key (17 R460 gives no value); log entry 70. -/
opaque Config.factoryKey : Nat
/-- The key unwrap of RFC 3394 succeeds, of a key and a wrapped key (17 R473); log entry 70. -/
opaque Config.unwraps : Nat → List Byte → Bool
/-- The 40 bytes of a content key rewrapped under the device storage key, of its wrapped key (17 R473); log entry 70. -/
opaque Config.rewrapped : List Byte → List Byte
/-- The bytes are a P-384 CA certificate (17 R478); log entry 70. -/
opaque Config.isP384Ca : List Byte → Bool
/-- The module's device identity certificate (17 R460); log entry 70. -/
opaque Config.identityCert : List Byte

end Sys2Proof
end

