-- ==== Sys2Proof/Machine/State.lean ====
section
/-! DEFINITION. The state of the module: every register, counter, buffer, mode and pin the spec gives it, as plain
data, and the queue of commands that wait. The default of each field is its value at reset; notes/assumptions/1 to 22
name the values the spec does not give, and INVENTORY.md lists every field with its rule. Numbers are naturals or
integers in the unit of their field; every operation that writes one keeps it within the field's width. -/

namespace Sys2Proof.Machine

open Sys2Proof

/-- A settings record of the serial store (16 R446): the setting command's code and object, its generation, and the
command whose request fields it holds. -/
structure SettingRec where
  code : Nat
  object : Nat
  gen : Nat
  cmd : Instr
  deriving DecidableEq, Repr

/-- The nanosecond clock of R42. -/
structure Clock where
  /-- integer nanoseconds of the PTP timescale (64; 02 R42). -/
  ns : Nat := 0
  /-- fraction in units of 2^-32 ns (32; 02 R42). -/
  frac : Nat := 0
  /-- INCR, added on each tick of the 125 MHz clock; nominal in FREE (40; 02 R42, R50). -/
  incr : Nat := 0x800000000
  deriving DecidableEq, Repr

/-- One PTP port of R44 (two: LAN A and LAN B). -/
structure PtpPort where
  /-- state of the port under the best master clock algorithm (enum; 02 R44). -/
  state : PtpState := .listening
  /-- data set of the latest qualified Announce (record; 02 R44). -/
  best : Option Announce := none
  /-- clock time of the latest Announce of the selected master (64; 02 R44, R50). -/
  announceAt : Option Nat := none
  /-- announce interval of the selected master (log2 s) (8; 02 R44). -/
  logAnnounce : Int := 1
  /-- expected logSyncInterval, -7 to 0, default expected -4 (8; 02 R44). -/
  logSync : Int := -4
  /-- the master's logMinDelayReqInterval (8; 02 R44). -/
  logMinDelayReq : Int := 0
  /-- clock time at which the selected master was selected (64; 02 R44, R50). -/
  masterAt : Option Nat := none
  /-- departure of the latest Delay_Req (64; 02 R44). -/
  delayReqLast : Option Nat := none
  /-- clock time of the latest Sync sent as master (64; 02 R44). -/
  syncSentAt : Option Nat := none
  /-- clock time of the latest Announce sent as master (64; 02 R44). -/
  announceSentAt : Option Nat := none
  /-- clock time of the latest Sync (64; 02 R50). -/
  lastSyncAt : Option Nat := none
  /-- the last measured path delays, newest first, at most 16 (16 x 32; 02 R48, R50). -/
  delays : List Int := []
  /-- departure time t3 of the outstanding Delay_Req (64; 02 R44). -/
  delayReqAt : Option Nat := none
  /-- sequenceId of the latest Delay_Req (16; 02 R44). -/
  delayReqSeq : Nat := 0
  /-- sequenceId of the Syncs sent as master (16; 02 R47). -/
  syncSeq : Nat := 0
  /-- sequenceId of the Announces sent as master (16; 02 R45). -/
  announceSeq : Nat := 0
  /-- receive timestamp t2 of the latest Sync (64; 02 R48). -/
  lastSyncT2 : Int := 0
  /-- origin timestamp plus correctionField of the latest Sync (64; 02 R48). -/
  lastSyncT1 : Int := 0
  /-- latest offset formed on this LAN (32; 02 R51, R76). -/
  lastOffset : Int := 0
  /-- an offset not yet paired with the other LAN's (1; 02 R51). -/
  offsetFresh : Bool := false
  /-- path asymmetry correction of the LAN, ns (16; 02 R46). -/
  asym : Int := 0
  /-- priority1 of this berth, default 255 (slave-only) (8; 02 R45). -/
  priority1 : Nat := 255
  /-- priority2 of this berth (8; 02 R45). -/
  priority2 : Nat := 128
  deriving DecidableEq, Repr

/-- The servo of R48 to R51. -/
structure Servo where
  /-- FREE, ACQUIRE, LOCKED or HOLDOVER (enum; 02 R50). -/
  state : ServoState := .free
  /-- I, in 2^-48 ns per tick (the product with KI kept whole) (signed; 02 R48, R50). -/
  integ : Int := 0
  /-- KP, default 128.0 (UQ16.16; 02 R49). -/
  kp : Nat := 8388608
  /-- KI, default 8.0 (UQ16.16; 02 R49). -/
  ki : Nat := 524288
  /-- OUTLIER, ns (32; 02 R49). -/
  outlier : Nat := 10000
  /-- LOCK_NS (32; 02 R49). -/
  lockNs : Nat := 100
  /-- STEP_NS (32; 02 R49). -/
  stepNs : Nat := 100000
  /-- offsets of the last accepted samples, newest first, at most 8 (8 x 32; 02 R48). -/
  accepted : List Int := []
  /-- LAN from which samples are taken (1; 02 R51). -/
  source : Lan := .a
  /-- the next sample is the first of this ACQUIRE (1; 02 R50). -/
  firstSample : Bool := false
  /-- consecutive samples with |o| < LOCK_NS (16; 02 R50). -/
  goodRun : Nat := 0
  /-- consecutive outliers (16; 02 R50). -/
  outlierRun : Nat := 0
  /-- samples discarded as outliers (64; 02 R48). -/
  outlierCount : Nat := 0
  /-- last offset (32; 02 R76). -/
  lastOffset : Int := 0
  /-- clock time at which LOCKED was entered (64; 02 R65, R205). -/
  lockedSince : Option Nat := none
  /-- clock time at which HOLDOVER was entered (64; 02 R76, 09 R275). -/
  holdoverSince : Option Nat := none
  /-- consecutive pairs of samples more than 1,000 ns apart (16; 02 R51). -/
  disagreeRun : Nat := 0
  /-- TIME_DISAGREE count (64; 02 R76). -/
  disagreeCount : Nat := 0
  /-- insertion abort count (64; 02 R47, R76). -/
  insertionAborts : Nat := 0
  /-- PTP domain number, default 0 (7; 02 R44). -/
  domain : Nat := 0
  deriving DecidableEq, Repr

/-- Lighthouse measurement of R52 to R57. -/
structure Lighthouse where
  /-- measurement lane n set by LIGHTHOUSE.CONFIG (3; 02 R52). -/
  lane : Option Nat := none
  /-- nominal frequency, 50 or 60 Hz (8; 02 R76). -/
  nominalHz : Nat := 50
  /-- ANGLE_OFFSET, tide units (16; 02 R53). -/
  angleOffset : Int := 0
  /-- loop bandwidth, Hz (8; 02 R53). -/
  bandwidth : Nat := 5
  /-- nominal line-to-line rms at the inputs, mV (32; 02 R76). -/
  nominalMv : Nat := 0
  /-- a LIGHTHOUSE.CONFIG waiting for the next grant of the role (record; 02 R76). -/
  staged : Option LhConfig := none
  /-- grid angle of the loop, tide units (16; 02 R53). -/
  angle : Nat := 0
  /-- loop frequency, uHz (32; 02 R53, R56). -/
  freqUhz : Nat := 0
  /-- rate of change of frequency, uHz/s (32; 02 R56). -/
  rocof : Int := 0
  /-- positive-sequence magnitude (UQ1.15; 02 R53, R56). -/
  vPos : Nat := 0
  /-- negative over positive sequence (UQ1.15; 02 R56). -/
  unbalance : Nat := 0
  /-- phase error, tide units (16; 02 R54, R56). -/
  phaseErr : Int := 0
  /-- PHASE_SEQUENCE: the negative sequence exceeds the positive (1; 02 R53). -/
  negAbove : Bool := false
  /-- the loop is locked (1; 02 R54). -/
  locked : Bool := false
  /-- consecutive cycles in which all three conditions held (16; 02 R54). -/
  goodCycles : Nat := 0
  /-- consecutive cycles with phase error beyond 364 tide units (16; 02 R54). -/
  badCycles : Nat := 0
  /-- frequency or magnitude left its range in a cycle (1; 02 R54). -/
  rangeLost : Bool := false
  /-- the three conditions have held at every evaluation of the cycle running (1; 02 R54). -/
  cycleGood : Bool := true
  /-- the phase error has exceeded 364 tide units in the cycle running (1; 02 R54). -/
  cycleBad : Bool := false
  /-- the lighthouse's own cycle count (48; 02 R57). -/
  count : Nat := 0
  /-- the cycle count has been taken since locking (1; 02 R57). -/
  countTaken : Bool := false
  /-- cycles since locking (48; 02 R57). -/
  lockCycle : Nat := 0
  /-- an accepted message of the other instance was heard since locking (1; 02 R57). -/
  otherHeard : Bool := false
  /-- SEQUENCE of the next tide message (16; 02 R56). -/
  sequence : Nat := 0
  /-- T of the last published message (64; 02 R55). -/
  lastT : Option Nat := none
  /-- clock time of the latest loop evaluation (64; 02 R53). -/
  lastRef : Nat := 0
  /-- T and the loop's outputs, with the grid angle, at the first evaluation at or after angle 0; none while no message is due (record; 02 R55). -/
  mark : Option (Nat × PllOut) := none
  /-- clock time of the last 50 us sample pair (64; 02 R52). -/
  lastEval : Nat := 0
  /-- hold instant and VALUE of the latest sample of v_ab not yet evaluated (record; 02 R52). -/
  vab : Option (Nat × Option Int) := none
  /-- hold instant and VALUE of the latest sample of v_bc not yet evaluated (record; 02 R52). -/
  vbc : Option (Nat × Option Int) := none
  deriving DecidableEq, Repr

/-- What the module keeps of one lighthouse instance (R58, R59). -/
structure TideInst where
  /-- sender's berth configured for the instance (12; 02 R58). -/
  berth : Nat := 0
  /-- a message has been accepted since power-up (1; 02 R59). -/
  heard : Bool := false
  /-- the instance is silent (1; 02 R59). -/
  silent : Bool := true
  /-- receipt of the last accepted message (64; 02 R59). -/
  rxAt : Nat := 0
  /-- T of the last accepted message (64; 02 R56). -/
  refT : Nat := 0
  /-- POSITION of the last accepted message (64; 02 R56). -/
  position : Nat := 0
  /-- FREQUENCY of the last accepted message (32; 02 R56). -/
  freqUhz : Nat := 0
  /-- SEQUENCE of the last accepted message (duplicate test) (16; 02 R58). -/
  lastSeq : Option Nat := none
  /-- SEQUENCE of the last message of the configured berth, accepted or not (gap count) (16; 02 R58). -/
  heardSeq : Option Nat := none
  /-- the last message not accepted, and its LAN: its second copy is a duplicate (record; 02 R58). -/
  turnedAway : Option (Lan × List (BitVec 8)) := none
  deriving DecidableEq, Repr

/-- The tide position and quality of R58 to R64. -/
structure Tide where
  /-- nominal grid frequency of the installation, 50 or 60 (8; 02 R68). -/
  gridHz : Nat := 50
  /-- clock time of the anchor of the extrapolation (64; 02 R61). -/
  anchorNs : Nat := 0
  /-- tide position at the anchor, in tide units with its fraction (64 + fraction; 02 R61). -/
  anchorPos : Rat := 0
  /-- source FREQUENCY in use; nominal while the quality is NONE (32; 02 R61, R63). -/
  freqUhz : Nat := 50000000
  /-- e of the correction in force, 0 for none (Q16.16; 02 R61). -/
  corrE : Int := 0
  /-- clock time at which the correction period ends (64; 02 R61). -/
  corrEnd : Option Nat := none
  /-- last e (Q16.16; 02 R76). -/
  lastE : Int := 0
  /-- tide quality (2; 02 R60). -/
  quality : TideQuality := .none_
  /-- source instance (1; 02 R59). -/
  source : Nat := 0
  /-- the two instances, 0 and 1 (2 x record; 02 R59). -/
  inst : Table TideInst := []
  /-- clock time at which coasting began (64; 02 R76). -/
  coastSince : Option Nat := none
  /-- change of cycle count due at the next angle wrap (48; 02 R62). -/
  recountTo : Option Int := none
  /-- consecutive accepted messages of instance 0 that agree (16; 02 R59). -/
  agreeRun : Nat := 0
  /-- consecutive disagreeing comparisons (16; 02 R59). -/
  disagreeRun : Nat := 0
  /-- the instances count as disagreeing (1; 02 R59, R60). -/
  disagreeing : Bool := false
  /-- TIDE_RECOUNT count (64; 02 R76). -/
  recounts : Nat := 0
  /-- TIDE_STALE count (64; 02 R58). -/
  staleCount : Nat := 0
  /-- TIDE_EARLY count (64; 02 R58). -/
  earlyCount : Nat := 0
  /-- TIDE_REFUSED count (64; 02 R58). -/
  refusedCount : Nat := 0
  /-- LIGHTHOUSE_DISAGREE count (64; 02 R76). -/
  disagreeCount : Nat := 0
  /-- gaps in SEQUENCE (64; 02 R58). -/
  seqGaps : Nat := 0
  /-- clock time of the last correction of more than 16 tide units (64; 02 R65). -/
  bigCorrAt : Option Nat := none
  deriving DecidableEq, Repr

/-- One tide-table entry, laid out per R67. -/
structure TideEntry where
  /-- POSITION (64; 02 R67). -/
  position : Nat := 0
  /-- MUST_FIRE (1; 02 R67). -/
  mustFire : Bool := false
  /-- PERIODIC (1; 02 R67). -/
  periodic : Bool := false
  /-- ENABLE (1; 02 R67). -/
  enable : Bool := false
  /-- KIND (8; 02 R67, R68). -/
  kind : Nat := 0
  /-- LATE_LIMIT (16; 02 R67). -/
  lateLimit : Nat := 0
  /-- REPEAT (16; 02 R67). -/
  repeat_ : Nat := 0
  /-- PERIOD (16; 02 R67). -/
  period : Nat := 0
  /-- ARG0 (32; 02 R67). -/
  arg0 : Nat := 0
  /-- ARG1 (32; 02 R67). -/
  arg1 : Nat := 0
  /-- EXPIRED (1; 02 R67). -/
  expired : Bool := false
  /-- LATE (1; 02 R67). -/
  late : Bool := false
  /-- FIRED (1; 02 R67). -/
  fired : Bool := false
  /-- MISSED, saturates at 0xFFFF (16; 02 R67). -/
  missed : Nat := 0
  /-- FIRE_COUNT, wraps (32; 02 R67). -/
  fireCount : Nat := 0
  deriving DecidableEq, Repr

/-- A firing armed under R69: its instant and the contents in force when it was armed. -/
structure ArmedFiring where
  /-- entry number (10; 02 R69). -/
  entry : Nat := 0
  /-- strobe index within the cycle (12; 02 R68). -/
  k : Nat := 0
  /-- tide position of the firing (64; 02 R69). -/
  pos : Nat := 0
  /-- clock time fixed for the firing (64; 02 R69). -/
  t0 : Nat := 0
  /-- clock time at which it was armed (64; 02 R69, 03 R91). -/
  armedAt : Nat := 0
  /-- contents the firing was armed with (256; 02 R73). -/
  content : TideEntry := {}
  /-- the entry has not been rewritten since (1; 02 R73). -/
  current : Bool := true
  deriving DecidableEq, Repr

/-- The tide table of R66. -/
structure TideTable where
  /-- the 1,024 entries; a number not listed holds the reset entry (ENABLE clear) (1,024 x 256; 02 R66). -/
  entries : Table TideEntry := []
  /-- firings armed and not yet made (list; 02 R69). -/
  armed : List ArmedFiring := []
  /-- per lane, t0 of its latest SAMPLE_STROBE firing (8 x 64; 02 R71). -/
  lastStrobe : Table (Option Nat) := []
  /-- per entry, t0 of the latest firing armed: an instant is armed once, also after a recount (1,024 x 64; 02 R72). -/
  lastArmed : Table (Option Nat) := []
  /-- OFFSET set for cycle group g; none is the default of R328 (8 x 16; 11 R328). -/
  groupOffset : Table (Option Nat) := []
  deriving DecidableEq, Repr

/-- One capture input TSINk of R74. -/
structure TsIn where
  /-- captures rising edges (1; 02 R74). -/
  rising : Bool := true
  /-- captures falling edges (1; 02 R74). -/
  falling : Bool := false
  /-- glitch filter, ticks of 8 ns (8; 02 R74). -/
  filter : Nat := 0
  /-- queued capture records, oldest first (16 x 192; 02 R74). -/
  queue : List Capture := []
  /-- captures dropped since the last read (64; 02 R74, R76). -/
  dropped : Nat := 0
  deriving DecidableEq, Repr

/-- One trigger output TSOUTk of R75. -/
structure TsOut where
  /-- OFF, TIME, PPS or driven by TRIGGER_OUT entries (enum; 02 R75). -/
  mode : TrigMode := .off
  /-- last configured by a TRIGGER_OUT entry (1; 02 R75). -/
  byTable : Bool := false
  /-- level of the ball; low from reset (1; 02 R75). -/
  level : Bool := false
  /-- clock time of the next TIME or PPS pulse (64; 02 R75). -/
  nextAt : Option Nat := none
  /-- start time of the TIME sequence; 0 in PPS mode (64; 02 R75, R76). -/
  start : Nat := 0
  /-- period, ns (40; 02 R75). -/
  period : Nat := 0
  /-- pulse width, ns (32; 02 R75). -/
  width : Nat := 0
  /-- clock time at which the high time ends (64; 02 R75). -/
  endAt : Option Nat := none
  deriving DecidableEq, Repr

/-- Front-end limits and presence masks of one port (R518). -/
structure TapLimits where
  /-- OV_LIMIT, 100 uV (16; 03 R518). -/
  ov : Nat := 65534
  /-- UV_LIMIT, 100 uV (16; 03 R518). -/
  uv : Nat := 0
  /-- OT_LIMIT, 0.01 degC (16; 03 R518). -/
  ot : Int := 32767
  /-- CELL_PRESENT (18; 03 R518). -/
  cells : Nat := 0x3FFFF
  /-- TEMP_PRESENT (6; 03 R518). -/
  temps : Nat := 0x3F
  deriving DecidableEq, Repr

/-- The latest SYNC sent on a port (R90). -/
structure SyncRec where
  /-- tide position of its instant (64; 03 R90). -/
  tag : Nat := 0
  /-- clock time of its instant (64; 03 R90). -/
  t0 : Nat := 0
  /-- HELM bit sent (1; 03 R83). -/
  helm : Bool := false
  /-- SERIAL_REQ bit sent (1; 03 R83, R95). -/
  serialReq : Bool := false
  /-- a DATA has been accepted for it on the sample-store path (1; 03 R90). -/
  answered : Bool := false
  /-- a DATA has been accepted for it on the safety path (1; 03 R90, R100). -/
  safeAnswered : Bool := false
  /-- its instant has been judged missed or answered (1; 03 R97). -/
  judged : Bool := false
  deriving DecidableEq, Repr

/-- A mean of echo results that becomes a port's trim (R91). -/
structure TrimChange where
  /-- clock time at which it came about: it applies from the next firing armed after (64; 03 R91). -/
  at_ : Nat := 0
  /-- the trim (12; 03 R86). -/
  trim : Nat := 0
  /-- it clears ALIGN_LOST as it applies (1; 03 R91). -/
  regains : Bool := false
  deriving DecidableEq, Repr

/-- A waiting command of a port (R107). -/
structure TapCmd where
  /-- CONFIG, BALANCE or SLEEP (enum; 03 R107). -/
  kind : TapCmdKind := .config
  /-- SEQ (8; 03 R107). -/
  seq : Nat := 0
  /-- BALANCE mask (18; 03 R83). -/
  mask : Nat := 0
  /-- times sent, at most 3 (2; 03 R107). -/
  sends : Nat := 0
  deriving DecidableEq, Repr

/-- One slot of a port's sample-store ring (R37). -/
structure PortSample where
  /-- tide position (64; 01 R37). -/
  tag : Nat := 0
  /-- V0 to V17, 100 uV (18 x 16; 03 R84). -/
  volts : List Nat := []
  /-- T0 to T5, 0.01 degC (6 x 16; 03 R84). -/
  temps : List Int := []
  /-- BALANCE field (18; 03 R84). -/
  balance : Nat := 0
  /-- MISALIGNED flag (1; 03 R92). -/
  misaligned : Bool := false
  /-- the slot holds the no-value markers of R5 (1; 03 R98). -/
  marker : Bool := false
  deriving DecidableEq, Repr

/-- Link counters of a port (R106). -/
structure TapCounters where
  /-- CRC_ERR (64; 03 R106). -/
  crcErr : Nat := 0
  /-- FORMAT_ERR (64; 03 R106). -/
  formatErr : Nat := 0
  /-- TRUNCATED (64; 03 R106). -/
  truncated : Nat := 0
  /-- INSTANT_MISMATCH (64; 03 R106). -/
  instantMismatch : Nat := 0
  /-- DUPLICATE_DATA (64; 03 R106). -/
  duplicateData : Nat := 0
  /-- LATE_DATA (64; 03 R106). -/
  lateData : Nat := 0
  /-- missed frames (64; 03 R106). -/
  missed : Nat := 0
  /-- CONTENTION (64; 03 R106). -/
  contention : Nat := 0
  /-- ECHO_OUTLIER (64; 03 R106). -/
  echoOutlier : Nat := 0
  /-- PATH_DISAGREE (64; 03 R106). -/
  pathDisagree : Nat := 0
  /-- stalls (64; 03 R106). -/
  stalls : Nat := 0
  /-- training attempts (64; 03 R106). -/
  attempts : Nat := 0
  /-- failed attempts (64; 03 R106). -/
  failedAttempts : Nat := 0
  /-- commands unanswered after 3 sends (64; 03 R106). -/
  unanswered : Nat := 0
  /-- sample overruns (64; 01 R37). -/
  overruns : Nat := 0
  deriving DecidableEq, Repr

/-- One tap port TAPp (R93). -/
structure Port where
  /-- OFF, TRAIN, RUN, STALL, SLEEP or FAILED (enum; 03 R93). -/
  state : PortState := .off
  /-- trim in use, ns (12; 03 R86). -/
  trim : Nat := 0
  /-- ASYM, ns (16; 03 R86). -/
  asym : Int := 0
  /-- echo results in the mean, in half nanoseconds, newest first, at most 16 (16 x 16; 03 R86). -/
  mean : List Int := []
  /-- new trims that apply from the next armed firing, newest first (list; 03 R91). -/
  trims : List TrimChange := []
  /-- ALIGN_LOST (1; 03 R91). -/
  alignLost : Bool := false
  /-- clock time at which ALIGN_LOST was set (64; 03 R91). -/
  alignLostAt : Nat := 0
  /-- consecutive echo outliers (8; 03 R91). -/
  echoOutRun : Nat := 0
  /-- departure of the outstanding ECHO's reference edge (64; 03 R86). -/
  echoSent : Option Nat := none
  /-- TOKEN of the latest ECHO (8; 03 R83). -/
  echoToken : Nat := 0
  /-- an ECHO exchange is due in the next free window (1; 03 R91). -/
  echoDue : Bool := false
  /-- fields of the latest HELLO (record; 03 R85). -/
  hello : Option Hello := none
  /-- recorded serial (64; 03 R95). -/
  recordedSerial : Option Nat := none
  /-- last STATUS (16; 03 R84, R106). -/
  lastStatus : Nat := 0
  /-- last CMD_ACK (8; 03 R84, R106). -/
  cmdAck : Nat := 0
  /-- the latest SYNC sent (record; 03 R90). -/
  sync : Option SyncRec := none
  /-- consecutive missed frames (8; 03 R98). -/
  missRun : Nat := 0
  /-- SEQ of the last new command (8; 03 R107). -/
  seq : Nat := 0
  /-- waiting commands in the order first requested (3 x record; 03 R107). -/
  waiting : List TapCmd := []
  /-- command sent in the current window and not answered (record; 03 R107). -/
  inFlight : Option TapCmd := none
  /-- start of the training attempt under way (64; 03 R94). -/
  attemptAt : Option Nat := none
  /-- step of R94 reached by the attempt under way (3; 03 R94). -/
  trainStep : Nat := 0
  /-- results of the attempt's ECHO exchanges, in half nanoseconds (16 x 16; 03 R94). -/
  trainEchoes : List Int := []
  /-- valid DATA seen on consecutive instants at step 5 (2; 03 R94). -/
  trainValid : Nat := 0
  /-- consecutive failed attempts (8; 03 R93). -/
  failRun : Nat := 0
  /-- clock time at which the last attempt failed (64; 03 R94). -/
  failedAt : Nat := 0
  /-- limits and masks sent in every CONFIG (record; 03 R518). -/
  limits : TapLimits := {}
  /-- the 8 latest instants, newest first (8 x record; 01 R37). -/
  ring : List PortSample := []
  /-- the copy of the latest frame in the safety memory of SFA (record; 01 R38). -/
  safety : Option PortSample := none
  /-- per cell, consecutive accepted frames reading 0xFFFF (18 x 8; 09 R263). -/
  coldRun : Table Nat := []
  /-- the latest accepted frame carried CONFIG_LOST (1; 03 R96). -/
  configLost : Bool := false
  /-- a bit of OV_MASK, UV_MASK or OT_MASK is set in the latest frame of the safety path (1; 09 R262). -/
  hwLimit : Bool := false
  /-- start of the module's latest transmission on the line (64; 03 R99). -/
  txAt : Option Nat := none
  /-- the command window of the instant has been used (1; 03 R89). -/
  windowOpen : Bool := false
  /-- clock time of the last accepted frame (64; 06 R188). -/
  lastAcceptAt : Nat := 0
  /-- since when the port has been out of RUN; none before its first RUN (64; 07 R223). -/
  outSince : Option Nat := none
  /-- the port has left RUN by STALL and not been in RUN since (1; 06 R189). -/
  stalled : Bool := false
  /-- BALANCE of the last accepted frame (18; 06 R188). -/
  lastBalance : Nat := 0
  /-- accepted frames since the port entered RUN (32; 06 R189). -/
  acceptedSinceRun : Nat := 0
  /-- link counters (record; 03 R106). -/
  counters : TapCounters := {}
  deriving DecidableEq, Repr

/-- The 128 tap ports. -/
structure Tap where
  /-- port p; a port not listed is as at reset (128 x record; 03 R93). -/
  ports : Table Port := []
  deriving DecidableEq, Repr

/-- A conversion result record (R111). -/
structure Result where
  /-- TAG (64; 04 R111). -/
  tag : Nat := 0
  /-- VALUE; none is the no-value marker 0x8000_0000 (32; 04 R111). -/
  value : Option Int := none
  /-- RAW (14; 04 R111). -/
  raw : Nat := 0
  /-- INPUT (7; 04 R111). -/
  input : Nat := 0
  /-- SOURCE (3; 04 R111). -/
  source : Nat := 0
  /-- TIME_TAG (1; 04 R111). -/
  timeTag : Bool := false
  /-- DROPPED (1; 04 R111). -/
  dropped : Bool := false
  /-- UNCAL (1; 04 R111). -/
  uncal : Bool := false
  /-- CLIP (1; 04 R111). -/
  clip : Bool := false
  /-- RESUMED (1; 04 R111). -/
  resumed : Bool := false
  deriving DecidableEq, Repr

/-- One analogue input AINk (R109, R110). -/
structure Input where
  /-- class of a free input, RAW by default; a fixed input's follows its position (enum; 04 R109). -/
  cls : InputClass := .raw
  /-- nominal scale, units per code (Q16.16; 04 R127, R135). -/
  scale : Int := 0
  /-- signal handle that publishes the input (16; 04 R135). -/
  handle : Option Nat := none
  /-- OFFSET and GAIN; none is UNCAL (2 x Q16.16; 04 R110, R125). -/
  coef : Option (Int × Int) := none
  /-- the coefficients in force are committed (1; 04 R135). -/
  committed : Bool := false
  /-- ZERO point: applied value and mean code (record; 04 R127). -/
  zero : Option (Int × Rat) := none
  /-- FULL point: applied value and mean code (record; 04 R127). -/
  full : Option (Int × Rat) := none
  /-- latest-value slot (128; 04 R119). -/
  latest : Option Result := none
  /-- clock time of the latest valid sample (64; 05 R160). -/
  latestAt : Nat := 0
  /-- value of the latest valid sample (32; 05 R160). -/
  validValue : Option Int := none
  deriving DecidableEq, Repr

/-- A conversion a converter is running or has waiting (R112). -/
structure Conversion where
  /-- AIN number (7; 04 R112). -/
  input : Nat := 0
  /-- request source code (3; 04 R112). -/
  source : Nat := 0
  /-- hold instant (64; 04 R108). -/
  holdAt : Nat := 0
  /-- TAG of the record (64; 04 R111). -/
  tag : Nat := 0
  /-- TIME_TAG (1; 04 R111). -/
  timeTag : Bool := false
  /-- conversions of this request still to complete (8; 04 R116, R126). -/
  left : Nat := 1
  /-- codes of its completed conversions (list of 14; 04 R116). -/
  codes : List Nat := []
  /-- RESUMED (1; 04 R118). -/
  resumed : Bool := false
  /-- table entry it belongs to (6; 04 R115). -/
  entry : Option Nat := none
  /-- command that waits for its record (record; 04 R135). -/
  src : Option Source := none
  /-- sources of the other urgent requests that share the conversion (list; 04 R114). -/
  also : List Nat := []
  /-- trip cause that raised a TRIP request (8; 16 R515). -/
  cause : Nat := 0
  /-- other commands that wait for the record of the shared conversion (list; 04 R114, R135). -/
  alsoSrc : List Source := []
  deriving DecidableEq, Repr

/-- A sequencer table run (R115). -/
structure TableRun where
  /-- table (2; 04 R115). -/
  table : Nat := 0
  /-- entries of the table at the start of the run (list; 04 R116). -/
  entries : List (BitVec 32) := []
  /-- queue that the table named at the start of the run (15; 04 R119). -/
  queue : Option Nat := none
  /-- entry being converted or next (6; 04 R115). -/
  index : Nat := 0
  /-- started by a SAR_SEQUENCE firing (1; 04 R112). -/
  byFiring : Bool := false
  /-- end of the GAP running (64; 04 R115). -/
  gapUntil : Option Nat := none
  /-- records of the run so far (list; 04 R119). -/
  records : List Result := []
  deriving DecidableEq, Repr

/-- One SAR converter (R108). -/
structure Converter where
  /-- sequencer tables; an empty list is a table never set (4 tables, 64 x 32; 04 R115, R116). -/
  tables : Table (List (BitVec 32)) := []
  /-- queue named by each table (4 x 15; 04 R119). -/
  queues : Table (Option Nat) := []
  /-- conversion in progress (record; 04 R112). -/
  running : Option Conversion := none
  /-- urgent conversions that follow back to back (list; 04 R114). -/
  urgent : List Conversion := []
  /-- SOFT and CAL requests waiting (list; 04 R113). -/
  soft : List Conversion := []
  /-- conversion aborted by an urgent request, to be done again (record; 04 R118). -/
  aborted : Option Conversion := none
  /-- table run in progress (record; 04 R115). -/
  run : Option TableRun := none
  /-- pending start: table, and whether by a firing (3; 04 R115). -/
  pendingStart : Option (Nat × Bool) := none
  /-- the converter is stopped (BARE ROCK) or limited (BEACHED) (1; 04 R120). -/
  stopped : Bool := false
  /-- URGENT_COLLIDE (64; 04 R114). -/
  urgentCollide : Nat := 0
  /-- URGENT_DROPPED (64; 04 R117). -/
  urgentDropped : Nat := 0
  /-- RESUMED count (64; 04 R135). -/
  resumedCount : Nat := 0
  /-- SEQ_OVERRUN (64; 04 R115). -/
  seqOverrun : Nat := 0
  /-- CLIP count (64; 04 R135). -/
  clipCount : Nat := 0
  deriving DecidableEq, Repr

/-- An integrating-converter output word (R121). -/
structure IcvWord where
  /-- TAG, tide position of the window's start (64; 04 R121). -/
  tag : Nat := 0
  /-- END_NS (64; 04 R121). -/
  endNs : Nat := 0
  /-- WINDOW_NS (32; 04 R121). -/
  windowNs : Nat := 0
  /-- COUNT (24; 04 R121). -/
  count : Int := 0
  /-- OVERRANGE (1; 04 R121). -/
  overrange : Bool := false
  /-- PARTIAL (1; 04 R121). -/
  partial_ : Bool := false
  deriving DecidableEq, Repr

/-- Integrating converter and coulomb counter of one lane (R121 to R124). -/
structure Icv where
  /-- OFFSET_RATE and K (Q24.8, UQ16.16; 04 R122). -/
  coef : Option (Int × Nat) := none
  /-- coefficients committed (1; 04 R135). -/
  committed : Bool := false
  /-- ZERO point: applied mA and mean count rate (record; 04 R127). -/
  zero : Option (Int × Rat) := none
  /-- FULL point (record; 04 R127). -/
  full : Option (Int × Rat) := none
  /-- COUNT and WINDOW_NS collected for a calibration point (16 x record; 04 R126). -/
  calWords : List (Int × Nat) := []
  /-- calibration point under way (record; 04 R126). -/
  cal : Option CalJob := none
  /-- last word (192; 04 R135). -/
  last : Option IcvWord := none
  /-- the words in the sample store under their tags, newest first (8 of them: log entry 141) (8 x 192; 04 R121, 01 R37). -/
  ring : List IcvWord := []
  /-- clock time of the start of the window running (64; 04 R121). -/
  windowStart : Nat := 0
  /-- tide position of the start of the window running (64; 04 R121). -/
  windowTag : Nat := 0
  /-- start of the window that awaits its word (64; 04 R121). -/
  prevStart : Nat := 0
  /-- tag of the window that awaits its word (64; 04 R121). -/
  prevTag : Nat := 0
  /-- end of the window that awaits its word (64; 04 R121). -/
  prevEnd : Nat := 0
  /-- that window began at a synchronising reset (1; 04 R123). -/
  prevPartial : Bool := false
  /-- the window running began at a synchronising reset (power-up is one) (1; 04 R123). -/
  partial_ : Bool := true
  /-- accumulator, nC (64; 04 R124). -/
  acc : Int := 0
  /-- ICV, SAR_CARRIED or STOPPED (enum; 04 R124). -/
  quality : IcvQuality := .stopped
  /-- INCOMPLETE (1; 04 R124). -/
  incomplete : Bool := false
  /-- valid words since the last reset (64; 04 R135). -/
  validWords : Nat := 0
  /-- end of the last window whose charge has been added (64; 04 R124). -/
  addedTo : Option Nat := none
  /-- clock time of the last synchronising reset (64; 04 R124). -/
  resetAt : Nat := 0
  /-- STROBE samples kept for the carry, oldest first (list; 04 R124). -/
  strobes : List (Nat × Option Int) := []
  /-- charge the models used over the window running (nC; 06 R177). -/
  modelCharge : Rat := 0
  /-- charge the models used over the window that awaits its word (nC; 06 R177). -/
  prevCharge : Rat := 0
  /-- tide position of the latest base sample counted (64; 06 R177). -/
  lastTag : Nat := 0
  /-- string current the models take for it, mA: of a sample without a value, the one before (32; 06 R177). -/
  lastI : Option Int := none
  /-- string current the models take for the base sample before that, mA (32; 06 R167). -/
  beforeI : Option Int := none
  /-- it was a sample of FULL, so that the models step from it on the samples (1; 06 R177). -/
  lastFull : Bool := false
  /-- windows since the FULL endpoint (32; 07 R226). -/
  windowsSpan : Nat := 0
  /-- of them, carried (32; 07 R226). -/
  windowsCarried : Nat := 0
  deriving DecidableEq, Repr

/-- One DAC output (R128 to R130). -/
structure Dac where
  /-- source named by DAC.CONFIG (record; 04 R130). -/
  source : OutSource := .none_
  /-- SAFE_CODE, 0 by default (16; 04 R130). -/
  safeCode : Nat := 0
  /-- range of SAFE_CODE (the configured range) (1; 04 R130). -/
  safeRange : Nat := 0
  /-- range driven (1; 04 R128). -/
  range : Nat := 0
  /-- code driven (16; 04 R128). -/
  code : Nat := 0
  /-- code written, driven when the settle time ends (16; 04 R129). -/
  stored : Nat := 0
  /-- end of the 20 us of code 0 (64; 04 R129). -/
  settleUntil : Option Nat := none
  /-- a first write has been made (1; 04 R128). -/
  written : Bool := false
  /-- the output is at SAFE_CODE for a cause of R130 (1; 04 R130). -/
  safe : Bool := false
  /-- writes refused with NOT_OWNER (64; 04 R130). -/
  refused : Nat := 0
  deriving DecidableEq, Repr

/-- One tachometer input (R131 to R134). -/
structure Tach where
  /-- polarity counted (1; 04 R131). -/
  falling : Bool := false
  /-- TACH(2k), TACH(2k+1) form a direction pair (1; 04 R131). -/
  pair : Bool := false
  /-- pulses per revolution (7; 04 R131). -/
  ppr : Nat := 1
  /-- glitch filter, ticks of 8 ns (8; 04 R131). -/
  filter : Nat := 0
  /-- STANDSTILL, ms (14; 04 R132). -/
  standstill : Nat := 1000
  /-- speed, 0.01 rpm (32; 04 R132). -/
  speed : Int := 0
  /-- direction (1; 04 R131). -/
  reverse : Bool := false
  /-- STALE (1; 04 R132). -/
  stale : Bool := true
  /-- edge count (32; 04 R131). -/
  count : Int := 0
  /-- clock time of the last counted edge since standstill (64; 04 R132). -/
  lastEdge : Option Nat := none
  /-- last interval, ns (64; 04 R135). -/
  lastInterval : Nat := 0
  deriving DecidableEq, Repr

/-- Converters, ICVs, DACs and tachometers. -/
structure Analog where
  /-- inputs AIN0 to AIN95 (96 x record; 04 R109). -/
  inputs : Table Input := []
  /-- SAR converters 0 to 15 (16 x record; 04 R108). -/
  conv : Table Converter := []
  /-- integrating converters 0 to 7 (8 x record; 04 R121). -/
  icv : Table Icv := []
  /-- DAC0 to DAC7 (8 x record; 04 R128). -/
  dac : Table Dac := []
  /-- TACH0 to TACH15 (16 x record; 04 R131). -/
  tach : Table Tach := []
  /-- input calibration points under way (list; 04 R126). -/
  calJobs : List CalJob := []
  /-- clock time of the latest BEACHED bus conversion (64; 04 R120). -/
  beachedBusAt : Nat := 0
  /-- coefficients committed to the serial store (kept through resets) (list; 04 R127, 16 R446). -/
  calStored : List CalRec := []
  deriving DecidableEq, Repr

/-- Integrator and history of one loop (R149). -/
structure LoopState where
  /-- I (Q1.31; 05 R149). -/
  integ : Int := 0
  /-- y_prev; none before the first sample of the run (Q1.31; 05 R149). -/
  yPrev : Option Int := none
  /-- latest output u (Q1.31; 05 R150, R151). -/
  out : Int := 0
  /-- consecutive dropped samples (8; 05 R147). -/
  droppedRun : Nat := 0
  /-- SAMPLE_DROPPED (64; 05 R147). -/
  dropped : Nat := 0
  deriving DecidableEq, Repr

/-- One phase of a lane (R142 to R145). -/
structure Phase where
  /-- spindle A on this phase (record; 05 R151). -/
  loop : LoopState := {}
  /-- ON of the running period, counts (20; 05 R142). -/
  on : Nat := 0
  /-- duty whose compare value is in the PWM shadow (Q1.31; 05 R153). -/
  shadow : Int := 0
  /-- the shadow was written for the next period (1; 05 R153). -/
  shadowNew : Bool := false
  /-- the phase switches (from its second period in RUN) (1; 05 R160). -/
  switching : Bool := false
  /-- the phase is in its first period in RUN (1; 05 R160). -/
  inFirst : Bool := false
  /-- GATE_Ln_Pm_H goes high in the running period; held low from reset (1; 05 R141). -/
  gateH : Bool := false
  /-- GATE_Ln_Pm_L is high in a part of the running period; held low from reset (1; 05 R141). -/
  gateL : Bool := false
  /-- count of the running period at which GATE_Ln_Pm_H goes high (20; 05 R142). -/
  hiRise : Nat := 0
  /-- count at which it goes low; at or before the rise it stays low (20; 05 R142). -/
  hiFall : Nat := 0
  /-- count from which GATE_Ln_Pm_L is high at the period's start (20; 05 R142). -/
  loFirst : Nat := 0
  /-- count at which it goes low; at or before the first it stays low until its rise (20; 05 R142). -/
  loFall : Nat := 0
  /-- count at which it goes high again; at or beyond the period's length it does not in this period (20; 05 R142). -/
  loRise : Nat := 0
  /-- counts of the low side's turn-on delay that run into the next period (20; 05 R142). -/
  loDue : Nat := 0
  /-- the running period ends with the high side commanded on (1; 05 R142). -/
  hiEnd : Bool := false
  /-- length of the period running, or next to start, 250 ps counts (20; 05 R144). -/
  len : Nat := 0
  /-- clock time at which the next period of the phase starts (ns; 05 R144). -/
  nextAt : Option Rat := none
  /-- sample of the first period that waits for spindle B (Q1.31; 05 R151). -/
  waitY : Option Int := none
  deriving DecidableEq, Repr

/-- One contactor of a lane (R156, R158). -/
structure Contactor where
  /-- output energised (1; 05 R141). -/
  drive : Bool := false
  /-- feedback reads closed (1; 05 R156). -/
  fb : Bool := false
  /-- clock time from which feedback and command differ (64; 05 R156). -/
  changedAt : Nat := 0
  /-- count of closings (64; 05 R158). -/
  closings : Nat := 0
  /-- count of openings above I_BREAK (64; 05 R158). -/
  breaks : Nat := 0
  /-- WELD recorded and not acknowledged (1; 05 R162). -/
  weld : Bool := false
  /-- WELD_SUSPECT recorded and not acknowledged (1; 05 R160, R161). -/
  weldSuspect : Bool := false
  /-- string current of the latest phase 0 period before the output was de-energised (32; 05 R158). -/
  breakCurrent : Int := 0
  /-- the difference between feedback and command has tripped the lane or was recorded as WELD (1; 05 R156, R162). -/
  reported : Bool := false
  deriving DecidableEq, Repr

/-- One string lane (R139). -/
structure Lane where
  /-- configuration; none is UNCONFIGURED (record; 05 R137). -/
  cfg : Option LaneConfig := none
  /-- loop gains; no default (6 x UQ8.24; 05 R138). -/
  gains : Option LoopGains := none
  /-- gains that take effect at the next alignment instant (6 x UQ8.24; 05 R138). -/
  pendingGains : Option LoopGains := none
  /-- lane state (enum; 05 R139). -/
  state : LaneState := .unconfigured
  /-- cause of the last trip or failure (16; 05 R164, 09 R260). -/
  cause : Nat := 0
  /-- sequence failure (PRECHARGE cause of R515), 0 none (8; 05 R164). -/
  failName : Nat := 0
  /-- step of the arming or disarming sequence reached (4; 05 R160, R161). -/
  step : Nat := 0
  /-- clock time at which that step was reached (64; 05 R160). -/
  stepAt : Nat := 0
  /-- clock time of a sequence's reference step (KP closing, DISARM, K+ opening) (64; 05 R160, R161). -/
  seqAt : Nat := 0
  /-- since when the contactor-side voltage has stayed within PRE_DELTA (64; 05 R160). -/
  inDelta : Option Nat := none
  /-- since when the precharge node has counted as above half (64; 05 R160). -/
  preHighSince : Option Nat := none
  /-- contactor-side voltage was above 50 % at step 3 (1; 05 R160). -/
  wasAbove : Bool := false
  /-- the KP feedback has read closed within T_FB of step 3 (1; 05 R160). -/
  kpClosed : Bool := false
  /-- contactors still to open 1 ms apart (0 K-, 1 K+, 2 KP) (3 x 2; 05 R140). -/
  opening : List Nat := []
  /-- clock time of the latest of those openings (64; 05 R140). -/
  openingAt : Nat := 0
  /-- contactors whose feedback must read open (list; 05 R161, R162). -/
  openWatch : List Nat := []
  /-- clock time of the latest opening to be checked (64; 05 R162). -/
  openAt : Nat := 0
  /-- when step 7 of R161 is checked (64; 05 R161). -/
  decayDue : Option Nat := none
  /-- K-, negative main (record; 05 R156). -/
  kNeg : Contactor := {}
  /-- K+, positive main (record; 05 R156). -/
  kPos : Contactor := {}
  /-- KP, precharge (record; 05 R156). -/
  kPre : Contactor := {}
  /-- phases 0 to 5 (6 x record; 05 R142). -/
  phases : Table Phase := []
  /-- spindle B (record; 05 R150). -/
  spB : LoopState := {}
  /-- bus feed-forward d_ff (Q1.31; 05 R150). -/
  dff : Int := 0
  /-- previous FF (Q1.31; 05 R150). -/
  ffPrev : Int := 0
  /-- output of spindle B from the previous period of phase 0 (Q1.31; 05 R151). -/
  rNow : Int := 0
  /-- d_ff computed with it (Q1.31; 05 R151). -/
  dNow : Int := 0
  /-- the first period of phase 0 in RUN (1; 05 R151). -/
  firstPeriod : Bool := false
  /-- spindle B has computed the first period's FF and d_ff (1; 05 R151). -/
  firstReady : Bool := false
  /-- the string samples of the running period of phase 0 have reached spindle B, or one was dropped (1; 05 R147). -/
  stringSeen : Bool := false
  /-- command in use, mA or W (32; 05 R154). -/
  command : Int := 0
  /-- latest accepted LANE.SETPOINT since the lane last entered RUN (32; 05 R154). -/
  mailboxCmd : Option Int := none
  /-- SOURCE_LOST (1; 05 R154). -/
  sourceLost : Bool := true
  /-- ramp value (fraction; 05 R154). -/
  ramp : Rat := 0
  /-- reference delivered to spindle B (32; 05 R154). -/
  reference : Int := 0
  /-- charge limit in force, mA (32; 05 R154). -/
  limitedChg : Int := 0
  /-- discharge limit in force, mA (32; 05 R154). -/
  limitedDis : Int := 0
  /-- latest string current, mA (32; 05 R150). -/
  iString : Int := 0
  /-- string voltage at the latest base instant, mV (32; 07 R203). -/
  vBase : Int := 0
  /-- latest string voltage of spindle B, mV (32; 05 R150). -/
  vString : Int := 0
  /-- latest bus voltage of spindle B, mV (32; 05 R150). -/
  vBus : Int := 0
  /-- consecutive periods with |I| below I_OPEN (16; 05 R161). -/
  lowRun : Nat := 0
  /-- consecutive periods with the bus outside its window (16; 05 R152). -/
  busOutRun : Nat := 0
  /-- lengths of the PWM periods that remain in the interval, 250 ps counts (list of counts; 05 R144). -/
  periods : List Nat := []
  /-- remainder carried into the next interval (32; 05 R144). -/
  carry : Int := 0
  /-- periods of phase 0 since arming (32; 12 R359). -/
  periodSeq : Nat := 0
  /-- PWM_SLIP (64; 05 R164). -/
  pwmSlip : Nat := 0
  /-- set-points refused from other sources (64; 05 R164). -/
  refusedSets : Nat := 0
  /-- DISARM_FORCED (64; 05 R164). -/
  disarmForced : Nat := 0
  /-- PRECHARGE_OPEN failures (64; 05 R164). -/
  preOpen : Nat := 0
  /-- PRECHARGE_TIMEOUT failures (64; 05 R164). -/
  preTimeout : Nat := 0
  /-- PRECHARGE_SHORT failures (64; 05 R164). -/
  preShort : Nat := 0
  /-- a force-off holds every gate low (1; 01 R31). -/
  gatesForced : Bool := true
  /-- length of the latest period of phase 0 (ns; 05 R154). -/
  lastPeriodNs : Rat := 0
  /-- string-current ring of the sample store: tag and VALUE, newest first (8 x record; 01 R37). -/
  ring : List (Nat × Option Int) := []
  /-- since when every string-current sample has lain below 0.5 % (64; 06 R187). -/
  restSince : Option Nat := none
  /-- the lane has completed 30 min of rest (1; 06 R187). -/
  rested : Bool := false
  /-- consecutive samples at or above 0.5 % of RATED_CURRENT (8; 06 R196). -/
  highRun : Nat := 0
  /-- since when samples have stayed below 0.5 % (64; 06 R196). -/
  lowSince : Option Nat := none
  /-- sum of the STROBE samples since power-up, mA (64; 06 R197). -/
  strobeSum : Int := 0
  /-- their number (64; 06 R197). -/
  strobeCnt : Nat := 0
  /-- string currents of the last 100 ms (list; 08 R237). -/
  currentAt100 : List (Nat × Int) := []
  /-- port minimum of I_chg, mA, and when refreshed (128 x record; 06 R183). -/
  limChgPort : Table (Option (Nat × Nat)) := []
  /-- port minimum of I_dis, mA, and when refreshed (128 x record; 06 R183). -/
  limDisPort : Table (Option (Nat × Nat)) := []
  /-- MODEL_LIMITS_STALE (1; 06 R183). -/
  limitsStale : Bool := false
  /-- the tenant source has stopped running (1; 05 R154). -/
  lostSources : Bool := false
  /-- HELM_OUT_Ln driven high (1; 12 R349). -/
  helmOut : Bool := false
  /-- HELM_IN_Ln level (1; 12 R349). -/
  helmIn : Bool := false
  /-- since when HELM_IN_Ln has read low (64; 12 R350). -/
  helmLowSince : Option Nat := none
  /-- clock time at which the module raised its line (64; 12 R350). -/
  helmRaisedAt : Option Nat := none
  /-- clock time from which a new try may be made after a conflict (64; 12 R350). -/
  helmRetryAt : Option Nat := none
  /-- the module is taking the lane's helm (1; 12 R355). -/
  wantHelm : Bool := false
  /-- lane state code of the helm holder's latest LOOP item (8; 12 R359). -/
  peerState : Nat := 0
  deriving DecidableEq, Repr

/-- Learned values of one cell (R166, R192). -/
structure Learned where
  /-- C, As; none is the marker (C_NOM) (64; 06 R192). -/
  capacity : Option Rat := none
  /-- CAPACITY_SD, As; none is the marker (32; 06 R192). -/
  capacitySd : Option Rat := none
  /-- rho; none means 1.0 (16; 06 R192). -/
  rho : Option Rat := none
  /-- RHO_SD; none is the marker (16; 06 R192). -/
  rhoSd : Option Rat := none
  /-- plating offset, V; none means PL_OFFSET0 (16; 06 R192). -/
  plOffset : Option Rat := none
  /-- PL_OFFSET_SD, V (16; 06 R192). -/
  plOffsetSd : Option Rat := none
  /-- isd, A; none means 0 (32; 06 R192). -/
  iSd : Option Rat := none
  /-- LEARNED_AT (64; 06 R192). -/
  learnedAt : Nat := 0
  deriving DecidableEq, Repr

/-- Output record of a cell (R180). -/
structure CellOut where
  /-- TAG (64; 06 R180). -/
  tag : Nat := 0
  /-- ENERGY, mWh (64; 06 R180). -/
  energy : Option Int := none
  /-- CAPACITY, mC (64; 06 R180). -/
  capacity : Option Int := none
  /-- ENERGY_SD (32; 06 R180). -/
  energySd : Option Nat := none
  /-- CAPACITY_SD (32; 06 R180). -/
  capacitySd : Option Nat := none
  /-- RESISTANCE, uOhm (32; 06 R180). -/
  resistance : Option Nat := none
  /-- I_SD, uA (32; 06 R180). -/
  iSd : Option Int := none
  /-- RESISTANCE_SD (16; 06 R180). -/
  resistanceSd : Option Nat := none
  /-- SOC (UQ1.15; 06 R180). -/
  soc : Option Nat := none
  /-- SOC_SD (UQ1.15; 06 R180). -/
  socSd : Option Nat := none
  /-- CORE_TEMP (16; 06 R180). -/
  coreTemp : Option Int := none
  /-- CORE_TEMP_SD (16; 06 R180). -/
  coreTempSd : Option Nat := none
  /-- PLATING (16; 06 R180). -/
  plating : Option Int := none
  /-- PLATING_SD (16; 06 R180). -/
  platingSd : Option Nat := none
  /-- RHO (UQ4.12; 06 R180). -/
  rho : Nat := 0x1000
  /-- V_PRED (16; 06 R180). -/
  vPred : Option Nat := none
  /-- INNOVATION (16; 06 R180). -/
  innovation : Int := 0
  /-- NO_PARAM (1; 06 R180). -/
  noParam : Bool := true
  /-- DIVERGED (1; 06 R180). -/
  diverged : Bool := false
  /-- TEMP_LOST (1; 06 R180). -/
  tempLost : Bool := false
  /-- MISALIGNED (1; 06 R180). -/
  misaligned : Bool := false
  /-- COAST (1; 06 R180). -/
  coast : Bool := false
  /-- ROUGH (1; 06 R180). -/
  rough : Bool := false
  /-- HOST_HELD (1; 06 R180). -/
  hostHeld : Bool := false
  /-- CAP_PROVISIONAL (1; 06 R180). -/
  capProvisional : Bool := true
  /-- SLACK (1; 06 R180). -/
  slack : Bool := false
  /-- VALID (1; 06 R180). -/
  valid : Bool := false
  deriving DecidableEq, Repr

/-- A loaded parameter set (R178). -/
structure ParamSet where
  /-- the set as loaded (1,032 bytes; 06 R178). -/
  bytes : List (BitVec 8) := []
  /-- BUILD (64; 06 R178). -/
  build : Nat := 0
  deriving DecidableEq, Repr

/-- One cell and its model (R165 to R189). -/
structure Cell where
  /-- assigned cell type, 0 for none (8; 06 R165). -/
  typ : Nat := 0
  /-- assigned sensor index, 0xFF for the mean (8; 06 R167). -/
  sensor : Nat := 0xFF
  /-- the cell's model has been started (1; 06 R184). -/
  started : Bool := false
  /-- the 14 states; empty before the model is started (14 x FP32; 06 R166). -/
  x : List Rat := []
  /-- lower-triangular square-root factor S, by rows (105 x FP32; 06 R171). -/
  cov : List (List Rat) := []
  /-- tide position of the latest step (64; 06 R167). -/
  tagAt : Nat := 0
  /-- learned values in use (256; 06 R166). -/
  learned : Learned := {}
  /-- values written that the cell takes at its next step (256; 06 R194). -/
  newLearned : Option Learned := none
  /-- the set of the cell's latest step, while a newer one waits for the next (1,032 bytes; 06 R179). -/
  oldSet : Option ParamSet := none
  /-- tide position of the latest filter update, accepted or not (64; 06 R190). -/
  updAt : Option Nat := none
  /-- coulomb counter at the latest step, nC (64; 06 R197). -/
  accAt : Int := 0
  /-- sum of STROBE samples at the latest step (64; 06 R197). -/
  sumAt : Int := 0
  /-- number of STROBE samples at the latest step (64; 06 R197). -/
  cntAt : Nat := 0
  /-- the next step covers a beached span, with the string term 0 (1; 06 R201). -/
  zeroSpan : Bool := false
  /-- output deviation of the latest update, widened at each step of a coast (FP32; 06 R183, R188). -/
  sigmaV : Rat := 0
  /-- PLATING_SD of the latest update (FP32; 06 R181). -/
  platingSd : Rat := 0
  /-- consecutive rejected updates (8; 06 R176). -/
  rejectRun : Nat := 0
  /-- the next update is the first after a coast (1; 06 R176). -/
  afterCoast : Bool := false
  /-- voltages gathered for the open-circuit procedure (16 x 16; 06 R186). -/
  estVolts : List Nat := []
  /-- string currents of the same instants (16 x 32; 06 R186). -/
  estCurrents : List Int := []
  /-- an open-circuit procedure is gathering frames (1; 06 R186). -/
  estActive : Bool := false
  /-- its state is flagged ROUGH (1; 06 R185). -/
  estRough : Bool := true
  /-- its covariance is widened (1; 06 R187). -/
  estWiden : Bool := true
  /-- output record (512; 06 R180). -/
  outRec : CellOut := {}
  /-- I_chg of the latest step (A; 06 R183). -/
  limChg : Rat := 0
  /-- I_dis of the latest step (A; 06 R183). -/
  limDis : Rat := 0
  /-- pending coulomb correction (nC; 06 R177). -/
  pendingDelta : Rat := 0
  /-- accepted instant of the re-anchoring run at which the cell updates (8; 06 R189). -/
  reanchorAt : Option Nat := none
  /-- consecutive switch-test failures (8; 08 R240). -/
  balFaultRun : Nat := 0
  /-- BAL_SWITCH_FAULT (1; 08 R240). -/
  balSwitchFault : Bool := false
  /-- b = 1 is kept until a PASS (1; 08 R240). -/
  holdB : Bool := false
  /-- last verdict (8; 08 R239). -/
  lastVerdict : Option Nat := none
  /-- its time (64; 08 R255). -/
  lastVerdictAt : Nat := 0
  /-- D of the last test (16; 08 R239). -/
  lastD : Int := 0
  /-- V_after - V_open of the last test (16; 08 R239). -/
  lastLeak : Int := 0
  /-- FULL or SLACK time of the last completed test (64; 08 R237). -/
  testedAt : Nat := 0
  /-- clock time of a retry or retest (64; 08 R237). -/
  retryAt : Option Nat := none
  /-- a BALANCE.TEST is queued (1; 08 R255). -/
  testQueued : Bool := false
  /-- BAL_TEST_OVERDUE raised (1; 08 R237). -/
  overdue : Bool := false
  /-- FULL endpoint SOC, its deviation and slope (record; 07 R225). -/
  sFull : Option (Rat × Rat × Rat) := none
  /-- EMPTY endpoint SOC, its deviation and slope (record; 07 R225). -/
  sEmpty : Option (Rat × Rat × Rat) := none
  /-- COAST and ROUGH were clear at the FULL endpoint (1; 07 R226). -/
  fullOk : Bool := false
  /-- charge integrated since the FULL endpoint (As; 07 R225). -/
  qPart : Rat := 0
  /-- charge of it integrated since the end of the latest ICV window (As; 07 R224). -/
  qWin : Rat := 0
  /-- charge of it integrated over the window before (As; 07 R224). -/
  qPrevWin : Rat := 0
  /-- Tc, h and charge at the 16th frame of an endpoint, and whether COAST and ROUGH were clear (record; 07 R225). -/
  endState : Option (Rat × Rat × Rat × Bool) := none
  /-- voltages gathered for an endpoint (16 x 16; 07 R225). -/
  endVolts : List Nat := []
  /-- string currents of the same instants (16 x 32; 07 R225). -/
  endCurrents : List Int := []
  /-- takes no learned value from the spring tide in progress (1; 06 R195). -/
  noLearnSpring : Bool := false
  /-- sounding sets, open when an estimate was taken on the port, from which it takes no learned value (list; 06 R195). -/
  noLearnSets : List Nat := []
  deriving DecidableEq, Repr

/-- Model counters of a port (R202). -/
structure ModelCounters where
  /-- UPDATE_SKIPPED (64; 06 R202). -/
  skipped : Nat := 0
  /-- REJECTED (64; 06 R202). -/
  rejected : Nat := 0
  /-- NUMERIC (64; 06 R202). -/
  numeric : Nat := 0
  /-- DIVERGED (64; 06 R202). -/
  diverged : Nat := 0
  /-- re-anchors (64; 06 R202). -/
  reanchors : Nat := 0
  /-- coasts (64; 06 R202). -/
  coasts : Nat := 0
  /-- roughing estimates (64; 06 R202). -/
  roughs : Nat := 0
  deriving DecidableEq, Repr

/-- Cell models of the module. -/
structure Model where
  /-- cell c of port p at index 18 p + c (2,304 x record; 06 R165). -/
  cells : Table Cell := []
  /-- parameter sets by type (64 of 255 x 1,032 B; 06 R179). -/
  params : Table (Option ParamSet) := []
  /-- counters per port (128 x record; 06 R202). -/
  counters : Table ModelCounters := []
  /-- learning mode NATIVE (default) or HOST_HELD (1; 06 R191). -/
  native : Bool := true
  /-- commit interval in force, hours (8; 06 R191). -/
  intervalH : Nat := 6
  /-- commit interval that takes effect from the next commit (8; 06 R202). -/
  nextIntervalH : Option Nat := none
  /-- slack water enabled (1; 06 R196). -/
  slackEnabled : Bool := false
  /-- number n of the latest base instant (64; 06 R172). -/
  lastBase : Nat := 0
  /-- number m of the latest SLACK instant (64; 06 R197). -/
  lastSlack : Nat := 0
  /-- tide position of the latest base instant (64; 06 R167). -/
  lastTag : Nat := 0
  /-- tide position of the instant at which each port's engine last stepped (128 x 64; 06 R173). -/
  stepped : Table (Option Nat) := []
  /-- tide position of the latest instant at which SYNCs went out, captures apart (64; 08 R241). -/
  syncTag : Option Nat := none
  /-- blocks of the newest valid learned commit in the store (kept through resets): SERIAL and the 18 records (128 x 588 B; 16 R445, 06 R192). -/
  storedBlocks : Table (Option (Nat × List Learned)) := []
  /-- SERIAL of each port's block in memory (128 x 64; 06 R192). -/
  serials : Table (Option Nat) := []
  deriving DecidableEq, Repr

/-- One capture instant of a port (R213). -/
structure CapSample where
  /-- tag (64; 07 R213). -/
  tag : Nat := 0
  /-- voltages; empty for a frame missed (18 x 16; 07 R213). -/
  volts : List Nat := []
  /-- BALANCE (18; 07 R213). -/
  balance : Nat := 0
  /-- MISALIGNED (1; 07 R213). -/
  misaligned : Bool := false
  /-- string-current VALUE of the tag (32; 07 R213). -/
  current : Option Int := none
  deriving DecidableEq, Repr

/-- One scheduled or running sounding step (R203 to R211). -/
structure SoundStep where
  /-- the step's slot (16; 07 R205). -/
  slot : Nat := 0
  /-- SET (32; 07 R207). -/
  set_ : Nat := 0
  /-- STEP (16; 07 R207). -/
  step : Nat := 0
  /-- LAST (1; 07 R218). -/
  last : Bool := false
  /-- START (64; 07 R203). -/
  start : Nat := 0
  /-- STEP_MA (32; 07 R203). -/
  stepMa : Int := 0
  /-- STEP_W of the final READY sent (32; 07 R203). -/
  stepW : Int := 0
  /-- LENGTH in base intervals (16; 07 R203). -/
  length : Nat := 10
  /-- CAPTURE (1; 07 R204). -/
  capture : Bool := false
  /-- partner LANE role (32; 07 R231). -/
  partnerRole : Nat := 0
  /-- its epoch (16; 07 R231). -/
  partnerEpoch : Nat := 0
  /-- tide-table entry taken (10; 07 R205). -/
  entry : Nat := 0
  /-- scheduled, decided, running, capturing, fitting or ended (enum; 07 R211). -/
  phase : StepPhase := .scheduled
  /-- a matching READY arrived since angle 0 of N - 4 (1; 07 R206). -/
  readyOk : Bool := false
  /-- a READY that differed arrived (1; 07 R206). -/
  readyDiff : Bool := false
  /-- partner's STEP_W (32; 07 R206). -/
  partnerW : Int := 0
  /-- partner's tide source instance (1; 07 R206). -/
  partnerSource : Nat := 0
  /-- partner's ACTIVE received (1; 07 R208). -/
  activeSeen : Bool := false
  /-- clock time of START (64; 07 R208). -/
  t0 : Nat := 0
  /-- outcome code (0 none) (8; 07 R206). -/
  outcome : Nat := 0
  /-- the step ends at the next alignment instant (1; 07 R208). -/
  endAtAlign : Bool := false
  /-- CLIPPED (1; 07 R210). -/
  clipped : Bool := false
  /-- DISTURBED (1; 07 R210). -/
  disturbed : Bool := false
  /-- the step ended early or ran ALONE (1; 07 R209). -/
  endedEarly : Bool := false
  /-- capture instants taken (16; 07 R212). -/
  capCount : Nat := 0
  /-- cycle at whose angle 0 READY was last sent (64; 07 R206). -/
  readyCycle : Option Nat := none
  /-- capture buffer per port, newest first, until the set is complete (model region; 07 R213). -/
  caps : Table (List CapSample) := []
  /-- states saved at the first capture instant, per cell index (128 x 14 FP32 x 18; 07 R214). -/
  capX : Table (List Rat) := []
  /-- ports that entered STALL during the capture (list; 07 R216). -/
  stalled : List Nat := []
  deriving DecidableEq, Repr

/-- An accepted fit of a cell in an open set (R214, R219). -/
structure Fit where
  /-- SET (32; 07 R218). -/
  set_ : Nat := 0
  /-- STEP (16; 07 R217). -/
  step : Nat := 0
  /-- the cell, as index of the table of cells (12; 07 R219). -/
  index : Nat := 0
  /-- sum of w^2 (V2; 07 R219). -/
  rhoD : Rat := 0
  /-- - sum of d w (V2; 07 R219). -/
  rhoM : Rat := 0
  /-- sum of k^2; 0 when kappa was not fitted (V2; 07 R219). -/
  kapD : Rat := 0
  /-- - sum of d' k (V2; 07 R219). -/
  kapM : Rat := 0
  /-- kappa was fitted (1; 07 R219). -/
  kapFit : Bool := false
  /-- sum of squared residuals (V2; 07 R219). -/
  sumRes : Rat := 0
  /-- instants in the sums (16; 07 R219). -/
  count : Nat := 0
  /-- mean Tc (K; 07 R219). -/
  tc : Rat := 0
  deriving DecidableEq, Repr

/-- A set still open (R218). -/
structure OpenSet where
  /-- SET (32; 07 R218). -/
  set_ : Nat := 0
  /-- START of its first step (64; 07 R218). -/
  start : Nat := 0
  /-- t0 of its first step, once that has come (64; 07 R218). -/
  t0 : Option Nat := none
  deriving DecidableEq, Repr

/-- A step whose results are held on a port (R231). -/
structure SoundRun where
  /-- SET (32; 07 R231). -/
  set_ : Nat := 0
  /-- STEP (16; 07 R231). -/
  step : Nat := 0
  /-- port (7; 07 R231). -/
  port : Nat := 0
  /-- mean step current; none without a sample (mA; 07 R214). -/
  mean : Option Rat := none
  /-- I_ref; none without a sample (mA; 07 R214). -/
  iRef : Option Rat := none
  deriving DecidableEq, Repr

/-- Soundings of one lane. -/
structure LaneSound where
  /-- steps of the lane, oldest first (list; 07 R205). -/
  steps : List SoundStep := []
  /-- result records per port of the latest sets (128 x 18 x 128; 07 R217). -/
  results : Table (List SoundResult) := []
  /-- steps whose results are held, by port (list; 07 R231). -/
  runs : List SoundRun := []
  /-- accepted fits of the open sets (list; 07 R219). -/
  fits : List Fit := []
  /-- open sets (list; 07 R218). -/
  openSets : List OpenSet := []
  deriving DecidableEq, Repr

/-- Spring tide of one lane (R220 to R227). -/
structure Spring where
  /-- IDLE, CHARGE, TOP, DISCHARGE, BOTTOM or RETURN (enum; 07 R221). -/
  phase : SpringPhase := .idle
  /-- I_CHG, mA (32; 07 R231). -/
  iChg : Int := 0
  /-- I_DIS, mA (32; 07 R231). -/
  iDis : Int := 0
  /-- CV_GAIN, mA per mV (16; 07 R231). -/
  cvGain : Nat := 100
  /-- MAX_HOURS (8; 07 R231). -/
  maxHours : Nat := 24
  /-- clock time of SPRING.START (64; 07 R223). -/
  startedAt : Nat := 0
  /-- clock time at which the phase was entered (64; 07 R231). -/
  phaseAt : Nat := 0
  /-- I_k, mA (32; 07 R222). -/
  iK : Int := 0
  /-- margin m of the latest base instant, mV (mV; 07 R221). -/
  margin : Option Rat := none
  /-- since when |I_string| has stayed below C50 (64; 07 R221). -/
  taperSince : Option Nat := none
  /-- an endpoint is being taken (1; 07 R225). -/
  gathering : Bool := false
  /-- since when the string current has stayed at or below 0 (64; 07 R223). -/
  lowSince : Option Nat := none
  /-- time of the last COMPLETE (64; 07 R228). -/
  lastCompleteAt : Option Nat := none
  /-- time of the last FAILED (64; 07 R228). -/
  lastFailedAt : Option Nat := none
  /-- last outcome: 0 none, 1 COMPLETE, 2 FAILED (8; 07 R231). -/
  outcome : Nat := 0
  /-- cause of the last FAILED (8; 07 R223). -/
  failCause : Nat := 0
  /-- the coulomb counter was never INCOMPLETE over the span (1; 07 R226). -/
  counterOk : Bool := true
  /-- tag of the FULL endpoint (64; 07 R224). -/
  fullTag : Nat := 0
  deriving DecidableEq, Repr

/-- Spring-tide roster of the COORDINATOR (R228). -/
structure Roster where
  /-- SHARE in steps of 0.1 %, default 2 % (8; 07 R228). -/
  share : Nat := 20
  /-- INTERVAL, days (16; 07 R228). -/
  interval : Nat := 180
  /-- lanes known: role, holder, last complete, last failed, out (list; 07 R228). -/
  lanes : List RosterLane := []
  /-- the roster has been read after taking COORDINATOR (1; 07 R229). -/
  ready : Bool := false
  deriving DecidableEq, Repr

/-- Soundings and spring tides. -/
structure Sound where
  /-- soundings per lane (8 x record; 07 R205). -/
  lanes : Table LaneSound := []
  /-- spring tides per lane (8 x record; 07 R221). -/
  spring : Table Spring := []
  /-- roster (record; 07 R228). -/
  roster : Roster := {}
  deriving DecidableEq, Repr

/-- Balancing fields of a lane (R236). -/
structure BalConfig where
  /-- ENABLE (1; 08 R236). -/
  enable : Bool := true
  /-- DEADBAND, mC (64; 08 R236). -/
  deadband : Nat := 3600000
  /-- MAX_PER_PORT (8; 08 R236). -/
  maxPerPort : Nat := 9
  /-- BAL_V_MIN (16; 08 R236). -/
  vMin : Nat := 30000
  /-- T_BAL_MAX (16; 08 R236). -/
  tMax : Int := 5500
  /-- DROP_MIN (16; 08 R236). -/
  dropMin : Nat := 150
  /-- DROP_MAX (16; 08 R236). -/
  dropMax : Nat := 600
  /-- LEAK_LIMIT (16; 08 R236). -/
  leak : Nat := 20
  deriving DecidableEq, Repr

/-- Temperature limits of a lane (R242). -/
structure ThermConfig where
  /-- T_TRIP_HIGH (16; 08 R242). -/
  tripHigh : Int := 6000
  /-- T_WARN_HIGH (16; 08 R242). -/
  warnHigh : Int := 5000
  /-- SHED_START (16; 08 R242). -/
  shedStart : Int := 4500
  /-- T_WARN_LOW (16; 08 R242). -/
  warnLow : Int := 0
  /-- T_CHG_INHIBIT (16; 08 R242). -/
  chgInhibit : Int := 0
  /-- T_TRIP_LOW (16; 08 R242). -/
  tripLow : Int := -3000
  /-- RATE_LIMIT (16; 08 R242). -/
  rateLimit : Nat := 200
  /-- SHED_FLOOR (UQ0.16; 08 R242). -/
  shedFloor : Nat := 0x4000
  /-- HS_SHED_START (16; 08 R242). -/
  hsShedStart : Int := 8000
  /-- HS_TRIP (16; 08 R242). -/
  hsTrip : Int := 9500
  /-- COOL_LOSS_SHARE (UQ0.16; 08 R242). -/
  coolLossShare : Nat := 0x8000
  deriving DecidableEq, Repr

/-- A balancing switch test under way on a port (R238). -/
structure SwitchTest where
  /-- cell under test (5; 08 R238). -/
  cell : Nat := 0
  /-- step (3; 08 R238). -/
  step : Nat := 1
  /-- accepted frames counted in the step (8; 08 R238). -/
  frames : Nat := 0
  /-- sum of the 8 baseline readings (32; 08 R238). -/
  sumOpen : Nat := 0
  /-- sum of the 8 closed readings (32; 08 R238). -/
  sumClosed : Nat := 0
  /-- sum of the 8 readings after reopening (32; 08 R238). -/
  sumAfter : Nat := 0
  /-- string current at step 1 (32; 08 R238). -/
  current0 : Int := 0
  /-- clock time of step 1 (64; 08 R238). -/
  startedAt : Nat := 0
  deriving DecidableEq, Repr

/-- Temperature rules of one sensor (R243 to R245). -/
structure SensorState where
  /-- previous valid sample and its time (record; 08 R244). -/
  last : Option (Int × Nat) := none
  /-- consecutive samples rising faster than RATE_LIMIT (8; 08 R244). -/
  fastRun : Nat := 0
  /-- consecutive marker samples (8; 08 R245). -/
  lostRun : Nat := 0
  /-- TEMP_SENSOR_LOST (1; 08 R245). -/
  lost : Bool := false
  /-- high warning active (1; 08 R243). -/
  warnHigh : Bool := false
  /-- low warning active (1; 08 R243). -/
  warnLow : Bool := false
  deriving DecidableEq, Repr

/-- Balancing and thermal state of a lane. -/
structure LaneTherm where
  /-- balancing configuration (record; 08 R236). -/
  bal : BalConfig := {}
  /-- configuration that applies from the next plan (record; 08 R255). -/
  pendingBal : Option BalConfig := none
  /-- Q_ref of the latest plan (64; 08 R233). -/
  qRef : Option Int := none
  /-- thermal limits (record; 08 R242). -/
  cfg : ThermConfig := {}
  /-- limits that apply from the next temperature sample (record; 08 R255). -/
  pendingCfg : Option ThermConfig := none
  /-- SFA derates charge to 0 (1; 08 R243). -/
  chgInhibited : Bool := false
  /-- instant of the latest temperature sample (64; 08 R241). -/
  sampleTag : Option Nat := none
  /-- thermal shed limit, mA; none before the first temperature sample (32; 08 R246). -/
  shedLimit : Option Int := none
  /-- term that gave the shed limit (8; 08 R255). -/
  shedCause : Nat := 0
  /-- hottest valid sample (16; 08 R255). -/
  hottest : Option Int := none
  /-- coldest valid sample (16; 08 R255). -/
  coldest : Option Int := none
  /-- valid heat-sink value read since the previous temperature sample (32; 08 R246). -/
  hsValue : Option Int := none
  /-- THERMAL_PRECURSOR active (1; 08 R244). -/
  precursor : Bool := false
  /-- SFA derates for a lost sensor (1; 08 R245). -/
  derateLost : Bool := false
  deriving DecidableEq, Repr

/-- Balancing of one port. -/
structure BalPort where
  /-- the plan's mask (18; 08 R234). -/
  plan : Nat := 0
  /-- mask of the last BALANCE requested (18; 08 R234). -/
  sent : Nat := 0
  /-- clock time of that request (64; 08 R234). -/
  sentAt : Nat := 0
  /-- switch test under way (record; 08 R238). -/
  test : Option SwitchTest := none
  deriving DecidableEq, Repr

/-- One cooling loop (R248, R249). -/
structure CoolLoop where
  /-- configuration (record; 08 R248). -/
  cfg : Option CoolConfig := none
  /-- integrator and history (record; 08 R248). -/
  loop : LoopState := {}
  /-- demand u (UQ0.16; 08 R248). -/
  u : Nat := 0
  /-- measurement y (16; 08 R255). -/
  y : Option Int := none
  /-- PUMP_DUTY (UQ0.16; 08 R248). -/
  duty : Nat := 0
  /-- since when the tachometer has lacked the expected speed (64; 08 R249). -/
  lowSince : Option Nat := none
  /-- since when the speed has been valid (64; 08 R249). -/
  okSince : Option Nat := none
  /-- COOLING_LOST (1; 08 R249). -/
  lost : Bool := false
  deriving DecidableEq, Repr

/-- One pump output AUXPWMk (R247). -/
structure AuxPwm where
  /-- source; low until configured (record; 08 R247). -/
  source : OutSource := .none_
  /-- frequency, Hz (17; 08 R247). -/
  freq : Nat := 25000
  /-- SAFE_DUTY (UQ0.16; 08 R247). -/
  safeDuty : Nat := 0
  /-- duty driven (UQ0.16; 08 R247). -/
  duty : Nat := 0
  /-- configured (1; 08 R247). -/
  configured : Bool := false
  /-- the output holds SAFE_DUTY (1; 08 R247). -/
  safe : Bool := false
  /-- writes refused with NOT_OWNER (64; 08 R247). -/
  refused : Nat := 0
  deriving DecidableEq, Repr

/-- The die sensor and thermal state (R251 to R254). -/
structure Die where
  /-- latest reading, 0.01 degC (16; 08 R251). -/
  reading : Option Int := none
  /-- latest raw code (16; 08 R251). -/
  raw : Nat := 0
  /-- consecutive readings with that raw code (8; 08 R251). -/
  sameRun : Nat := 0
  /-- readings of about the last second, newest first (list; 08 R251). -/
  history : List (Nat × Int) := []
  /-- rate, 0.01 degC/s (32; 08 R251). -/
  rate : Option Int := none
  /-- broken (1; 08 R251). -/
  broken : Bool := false
  /-- NORMAL, SHED_REQUEST, ENFORCE (enum; 08 R252). -/
  state : DieState := .normal
  /-- clock time at which the state was entered (64; 08 R255). -/
  since : Nat := 0
  /-- consecutive readings at or above 112.0 degC (8; 08 R252). -/
  hotRun : Nat := 0
  /-- since when the readings have been cool and slow (64; 08 R254, 09 R286). -/
  coolSince : Option Nat := none
  deriving DecidableEq, Repr

/-- Balancing, thermal rules, cooling and the die. -/
structure Thermal where
  /-- per lane (8 x record; 08 R236, R242). -/
  lanes : Table LaneTherm := []
  /-- per port (128 x record; 08 R234). -/
  ports : Table BalPort := []
  /-- sensor i of port p at index 6 p + i (768 x record; 08 R244). -/
  sensors : Table SensorState := []
  /-- cooling loops 0 to 7 (8 x record; 08 R248). -/
  loops : Table CoolLoop := []
  /-- AUXPWM0 to AUXPWM7 (8 x record; 08 R247). -/
  aux : Table AuxPwm := []
  /-- die sensor (record; 08 R252). -/
  die : Die := {}
  /-- time spent in FULL or SLACK, ns (64; 08 R237). -/
  fullTime : Nat := 0
  /-- clock time up to which that time is counted (64; 08 R237). -/
  fullMark : Nat := 0
  deriving DecidableEq, Repr

/-- One overcurrent comparator (R261); 0 string, 1 to 6 phases 0 to 5. -/
structure Comparator where
  /-- tripped (1; 09 R261). -/
  tripped : Bool := false
  /-- threshold in codes written to the comparator; none is not set (16; 09 R261). -/
  code : Option Nat := none
  /-- clock time of the latest threshold read-back (64; 09 R261). -/
  readAt : Nat := 0
  /-- the latest read-back differed (1; 09 R261). -/
  readBad : Bool := false
  deriving DecidableEq, Repr

/-- Safety state of one lane. -/
structure LaneSafety where
  /-- lane latch (retention: cleared only by loss of power) (1; 09 R270, R271). -/
  latch : Bool := false
  /-- causes that set the latch (list; 09 R273). -/
  latchCauses : List Nat := []
  /-- SAFE_OV, 100 uV; no default (16; 09 R287). -/
  ov : Option Nat := none
  /-- SAFE_UV, 100 uV; no default (16; 09 R287). -/
  uv : Option Nat := none
  /-- PORT_LOST_TIME, ms (16; 09 R263). -/
  portLostTime : Nat := 50
  /-- string threshold, mA (32; 09 R261). -/
  ocString : Option Nat := none
  /-- phase threshold, mA (32; 09 R261). -/
  ocPhase : Option Nat := none
  /-- comparator filter time, ns (8; 09 R261). -/
  ocFilter : Nat := 40
  /-- comparators (7 x record; 09 R261). -/
  comps : Table Comparator := []
  /-- SFA derates both directions (1; 09 R263). -/
  derate : Bool := false
  /-- since when the condition of R263 has held (64; 09 R263). -/
  derateSince : Option Nat := none
  /-- cells (port, cell) outside SAFE_UV to SAFE_OV in their latest frame (list; 09 R262). -/
  badCells : List (Nat × Nat) := []
  deriving DecidableEq, Repr

/-- A received safe-channel link (R277 to R281). -/
structure LinkRx where
  /-- sender berth (12; 09 R274). -/
  berth : Nat := 0
  /-- LINK_ID (16; 09 R274). -/
  linkId : Nat := 0
  /-- WATCHDOG, ns (32; 09 R277). -/
  watchdog : Nat := 3000000
  /-- SKEW, ns (32; 09 R277). -/
  skew : Nat := 500000
  /-- MAX_AGE, ns (32; 09 R277). -/
  maxAge : Nat := 2000000
  /-- action per bit; a bit not listed has NONE (256; 09 R277). -/
  actions : List (Nat × BitAction) := []
  /-- the link is in SAFE (1; 09 R281). -/
  safe : Bool := false
  /-- the link stays in SAFE until a clean CLEAR edge (1; 09 R282). -/
  stuck : Bool := false
  /-- last accepted sequence (32; 09 R279). -/
  lastSeq : Option Nat := none
  /-- the frame last accepted (64 bytes; 09 R280). -/
  lastBytes : List (BitVec 8) := []
  /-- clock time of the last accepted frame, or of configuration (64; 09 R281). -/
  lastAt : Nat := 0
  /-- single copies held, oldest first (list; 09 R280). -/
  held : List HeldCopy := []
  /-- DATA of the last accepted frame (256; 09 R275). -/
  bits : Nat := 0
  /-- CRC_ERR (64; 09 R279). -/
  crcErr : Nat := 0
  /-- AGE (64; 09 R279). -/
  age : Nat := 0
  /-- STALE (64; 09 R279). -/
  stale : Nat := 0
  /-- SINGLE_COPY (64; 09 R280). -/
  singleCopy : Nat := 0
  /-- COPY_MISMATCH (64; 09 R280). -/
  copyMismatch : Nat := 0
  deriving DecidableEq, Repr

/-- A sent safe-channel link (R274 to R277). -/
structure LinkTx where
  /-- LINK_ID (16; 09 R274). -/
  linkId : Nat := 0
  /-- destination address (48; 09 R274). -/
  dest : Nat := 0
  /-- source per bit; a bit not listed is constant 0 (256; 09 R277). -/
  sources : List (Nat × BitSource) := []
  /-- SEQUENCE of the latest frame (32; 09 R275). -/
  seq : Nat := 0
  /-- clock time of the latest frame (64; 09 R277). -/
  lastSent : Nat := 0
  /-- SRC_STATE of the latest frame (32; 09 R277). -/
  lastState : Nat := 0
  /-- DATA of the latest frame (256; 09 R277). -/
  lastBits : Nat := 0
  deriving DecidableEq, Repr

/-- LAN state kept by SFB (R278). -/
structure SafeLan where
  /-- DOWN (1; 09 R278). -/
  down : Bool := false
  /-- clock time of the latest safe-channel frame with a good FCS (64; 09 R278). -/
  lastFrame : Nat := 0
  /-- since when frames have come without silence (64; 09 R278). -/
  upSince : Option Nat := none
  deriving DecidableEq, Repr

/-- One fault source's window (R282). -/
structure FaultWin where
  /-- row of R282 (3; 09 R282). -/
  source : Nat := 0
  /-- port, page, link or 0 (32; 09 R282). -/
  object : Nat := 0
  /-- times of its last N events, newest first (255 x 64; 09 R282). -/
  times : List Nat := []
  deriving DecidableEq, Repr

/-- The safety layer. -/
structure Safety where
  /-- per lane (8 x record; 09 R270). -/
  lanes : Table LaneSafety := []
  /-- module latch (retention) (1; 09 R270, R271). -/
  moduleLatch : Bool := false
  /-- causes that set the module latch (list; 09 R273). -/
  moduleCauses : List Nat := []
  /-- debounced level of ESTOP_A, high while healthy (1; 09 R267). -/
  estopA : Bool := true
  /-- debounced level of ESTOP_B (1; 09 R267). -/
  estopB : Bool := true
  /-- debounced level of FIRE_IN (1; 09 R267). -/
  fireIn : Bool := true
  /-- since when the ESTOP channels have differed (64; 09 R267). -/
  discrepancySince : Option Nat := none
  /-- since when both have been high (64; 09 R267). -/
  bothHighSince : Option Nat := none
  /-- ESTOP_DISCREPANCY active (1; 09 R267). -/
  discrepancy : Bool := false
  /-- discrepancy time, ms (16; 09 R267). -/
  discTime : Nat := 50
  /-- FIRE_IN enabled (1; 09 R267). -/
  fireEnable : Bool := true
  /-- debounced level of CLEAR (1; 09 R272). -/
  clear : Bool := false
  /-- clock time of the latest fall of CLEAR (64; 09 R272). -/
  clearFell : Option Nat := none
  /-- CLEAR_STUCK recorded for this high (1; 09 R272). -/
  clearStuck : Bool := false
  /-- accepted CLEAR edges (64; 09 R287). -/
  clearsOk : Nat := 0
  /-- refused CLEAR edges (64; 09 R287). -/
  clearsRefused : Nat := 0
  /-- cause mask of SAFE_OUTk (default 0xE000_FF00) (4 x 32; 09 R268). -/
  outMask : Table Nat := []
  /-- read-back of SAFE_OUTk where it has been found to disagree; none reads as the output (4 x 1; 09 R268). -/
  outRead : Table (Option Bool) := []
  /-- SAFE_OUT_FAULT active (1; 09 R268). -/
  outFault : Bool := false
  /-- SFB has read its configuration; outputs undriven before (1; 09 R268). -/
  outConfigured : Bool := false
  /-- HB, ns (32; 09 R277). -/
  hb : Nat := 250000
  /-- received links (64 x record; 09 R274). -/
  rx : List LinkRx := []
  /-- sent links (32 x record; 09 R274). -/
  tx : List LinkTx := []
  /-- UNKNOWN count (64; 09 R279). -/
  unknownLinks : Nat := 0
  /-- CRC_ERR of copies of no configured link (64; 09 R279). -/
  strayCrc : Nat := 0
  /-- LAN A and LAN B (2 x record; 09 R278). -/
  lans : Table SafeLan := []
  /-- event times per source and object (list; 09 R282). -/
  windows : List FaultWin := []
  /-- N set per source (7 x 8; 09 R282). -/
  winN : Table (Option Nat) := []
  /-- W set per source, ns (7 x 48; 09 R282). -/
  winW : Table (Option Nat) := []
  /-- transients per source (7 x 64; 09 R287). -/
  transients : Table Nat := []
  /-- lasting faults per source (7 x 64; 09 R287). -/
  lastings : Table Nat := []
  /-- trips per cause (64 x 64; 09 R287). -/
  trips : Table Nat := []
  /-- clock time of a safety core fault being handled (64; 09 R258). -/
  coreFault : Option Nat := none
  /-- clock time of the latest configuration CRC check (64; 09 R257). -/
  configCrcAt : Nat := 0
  /-- BARE ROCK entry cause of R515 and VALUE0; none outside BARE ROCK (record; 09 R283). -/
  rock : Option (Nat × Nat) := none
  /-- entry causes now active (list; 09 R286). -/
  rockActive : List Nat := []
  /-- BARE ROCK is left only by loss of power (retention) (1; 09 R282). -/
  rockHold : Bool := false
  /-- the module holds itself in reset until its power is lost (retention) (1; 09 R282). -/
  resetHold : Bool := false
  /-- clock time of the latest BARE ROCK strobe (64; 02 R64). -/
  rockStrobeAt : Nat := 0
  /-- strobes since entry (32; 08 R241). -/
  rockStrobes : Nat := 0
  /-- LPDDR5 pages copied to a spare page and retired (list; 09 R282). -/
  retired : List Nat := []
  /-- spare pages left in the system reserve (16; 09 R282). -/
  sparePages : Nat := 65536
  /-- corrected errors per page or block (list; 01 R26). -/
  eccCounts : List (Nat × Nat) := []
  deriving DecidableEq, Repr

/-- One plant port (R288 to R292). -/
structure NetLan where
  /-- link up (1; 10 R288). -/
  link : Bool := false
  /-- PHY role; slave by default (1; 10 R288). -/
  master : Bool := false
  /-- MAC address (48; 10 R288). -/
  mac : Nat := 0
  /-- identity of the latest LLDPDU received (record; 10 R292). -/
  lldp : Option LldpId := none
  /-- clock time of link-up (64; 10 R292). -/
  linkAt : Nat := 0
  /-- clock time of the last LLDPDU sent (64; 10 R292). -/
  lldpAt : Option Nat := none
  /-- frames in (64; 10 R318). -/
  framesIn : Nat := 0
  /-- frames already sent on the LAN when its frames-out counter last stood at 0 (64; 10 R318). -/
  framesOut : Nat := 0
  /-- FCS errors (64; 10 R318). -/
  fcsErr : Nat := 0
  /-- OVERSIZE (64; 10 R289). -/
  oversize : Nat := 0
  /-- FOREIGN (64; 10 R289). -/
  foreign : Nat := 0
  /-- FORMAT_ERR (64; 10 R297). -/
  formatErr : Nat := 0
  /-- duplicates (64; 10 R318). -/
  duplicates : Nat := 0
  deriving DecidableEq, Repr

/-- An outgoing stream to one peer (R301, R302). -/
structure StreamTx where
  /-- peer key (berth, or SERIAL of an unberthed module + 65,536) (64; 10 R301). -/
  peer : Nat := 0
  /-- number of the next message (32; 10 R301). -/
  nextSeq : Nat := 1
  /-- NEW_STREAM is set until the first ACK (1; 10 R301). -/
  newStream : Bool := true
  /-- sent and not acknowledged, oldest first (64 x record; 10 R302). -/
  unacked : List StreamMsg := []
  /-- queued behind the window (256 x record; 10 R302). -/
  queued : List StreamMsg := []
  deriving DecidableEq, Repr

/-- An incoming stream from one peer (R301, R303). -/
structure StreamRx where
  /-- peer key (64; 10 R301). -/
  peer : Nat := 0
  /-- next expected SEQUENCE (32; 10 R301). -/
  expected : Nat := 1
  /-- messages ahead of the gap, ascending, with their arrival (64 x record; 10 R303). -/
  held : List HeldMsg := []
  /-- sequences given up on (list; 10 R303). -/
  skipped : List Nat := []
  /-- arrival of the latest copy with NEW_STREAM (64; 10 R301). -/
  newAt : Nat := 0
  deriving DecidableEq, Repr

/-- Copies of one sender (R300, R304). -/
structure PeerPath where
  /-- sender berth (16; 10 R304). -/
  berth : Nat := 0
  /-- last duplicate keys (TYPE, SEQUENCE) (64 x record; 10 R300). -/
  keys : List (Nat × Nat) := []
  /-- time of the last good copy on LAN A, or when the sender was first heard (64; 10 R304). -/
  lastA : Option Nat := none
  /-- time of the last good copy on LAN B, or when the sender was first heard (64; 10 R304). -/
  lastB : Option Nat := none
  /-- LAN A is PATH_DOWN for the sender (1; 10 R304). -/
  downA : Bool := false
  /-- LAN B is PATH_DOWN for the sender (1; 10 R304). -/
  downB : Bool := false
  /-- since when copies have come on the LAN that was down (64; 10 R304). -/
  backSince : Option Nat := none
  /-- MAC address learned on LAN A (48; 10 R299). -/
  macA : Option Nat := none
  /-- MAC address learned on LAN B (48; 10 R299). -/
  macB : Option Nat := none
  deriving DecidableEq, Repr

/-- What one announcer has announced (R305, R306). -/
structure Announcer where
  /-- berth, or SERIAL + 65,536 without a berth (64; 10 R306). -/
  key : Nat := 0
  /-- BERTH (16; 10 R305). -/
  berth : Nat := 0
  /-- SERIAL (64; 10 R305). -/
  serial : Nat := 0
  /-- MODULE_EPOCH (16; 10 R305). -/
  moduleEpoch : Nat := 0
  /-- POWER (8; 10 R305). -/
  power : Nat := 0
  /-- parts gathered of the announcement under way (3 x record; 10 R305). -/
  parts : List (Nat × List RoleEntry) := []
  /-- entries in force (list; 10 R306). -/
  entries : List RoleEntry := []
  /-- clock time of its last announcement (64; 10 R306). -/
  at_ : Nat := 0
  deriving DecidableEq, Repr

/-- A role assigned to or held by this module (R34, R347). -/
structure OwnRole where
  /-- role identifier (32; 01 R33). -/
  role : Nat := 0
  /-- ACTIVE, STANDBY or NONE (enum; 01 R34). -/
  state : RoleState := .none_
  /-- epoch (16; 10 R306). -/
  epoch : Nat := 0
  /-- pair kind (enum; 12 R347). -/
  kind : PairKind := .none_
  /-- partner berth (16; 12 R347). -/
  partner : Nat := 0
  /-- local lane or tenant slot (8; 12 R347). -/
  local_ : Nat := 0
  /-- this module is the preferred holder (1; 12 R347). -/
  preferred : Bool := false
  /-- PAIR_ASSIGN_MISMATCH recorded (1; 12 R347). -/
  mismatch : Bool := false
  /-- sync state (enum; 12 R363). -/
  sync : SyncState := .none_
  /-- partner epoch (16; 12 R374). -/
  partnerEpoch : Nat := 0
  /-- format level the partner announces (16; 12 R370). -/
  partnerFormat : Option Nat := none
  /-- latest generation sent (32; 12 R357). -/
  genSent : Nat := 0
  /-- latest generation applied (32; 12 R361). -/
  genApplied : Option Nat := none
  /-- clock time of that application (64; 12 R361). -/
  genAppliedAt : Nat := 0
  /-- frames gathered of a generation (1,024 x record; 12 R358). -/
  frags : List MirrorFrag := []
  /-- the next generation formed carries FULL (1; 12 R363). -/
  fullRequested : Bool := false
  /-- a FULL generation has been applied since SYNCING began (1; 12 R363). -/
  fullApplied : Bool := false
  /-- since when the shadow compare has been clean (64; 12 R363). -/
  cleanSince : Nat := 0
  /-- publications named by KEEPs held (standby) (list; 12 R351). -/
  keeps : List Nat := []
  /-- publications named by own KEEPs not acknowledged (list; 12 R352). -/
  keepUnacked : List Nat := []
  /-- clock time of the latest FULL_REQUEST sent (64; 12 R363). -/
  fullReqAt : Nat := 0
  /-- start of the arbitration self-test (64; 12 R365). -/
  testAt : Option Nat := none
  /-- own result (true PASS) (1; 12 R365). -/
  testOwn : Option Bool := none
  /-- partner's result (1; 12 R365). -/
  testPeer : Option Bool := none
  /-- times of unresolved mismatches (list; 12 R365). -/
  unresolved : List Nat := []
  /-- PAIR.SWAP_HELM waiting for its answer (record; 12 R369). -/
  swap : Option Source := none
  /-- SWAP_READY received (1; 12 R369). -/
  swapReady : Bool := false
  /-- staged GRAPH_ID that the partner's STATUS item reports (32; 11 R342). -/
  stagedPeer : Option Nat := none
  /-- running GRAPH_ID that the partner's STATUS item reports (32; 12 R359). -/
  runningPeer : Option Nat := none
  /-- consecutive periods beyond DUTY_TOL, per phase (6 x 8; 12 R364). -/
  dutyRun : Table Nat := []
  /-- consecutive periods beyond OUT_TOL (8; 12 R364). -/
  outRun : Nat := 0
  /-- consecutive updates beyond SOC_TOL, per cell (2,304 x 8; 12 R364). -/
  socRun : Table Nat := []
  /-- own digests by CYCLE_SEQ (list; 12 R364). -/
  digests : List (Nat × Nat × Nat) := []
  /-- clock time of the latest background self-test (64; 12 R366). -/
  bgTestAt : Nat := 0
  /-- mismatches by kind: 0 duty, 1 spindle B output, 2 SOC, 3 digest (4 x 64; 12 R374). -/
  mismatches : Table Nat := []
  /-- spring phase last mirrored (8; 12 R357, 07 R224). -/
  springSent : Nat := 0
  /-- learned values last mirrored, by port (128 x 588 B; 12 R357). -/
  learnedSent : List (Nat × List Learned) := []
  /-- commit generation at the latest LEARNED items (32; 12 R357). -/
  commitSent : Nat := 0
  /-- INPUT_DIFF (64; 12 R364). -/
  inputDiff : Nat := 0
  /-- unresolved mismatches (64; 12 R374). -/
  unresolvedCount : Nat := 0
  /-- self-tests run (64; 12 R374). -/
  testsRun : Nat := 0
  /-- self-tests failed (64; 12 R374). -/
  testsFailed : Nat := 0
  /-- MIRROR_DROPPED (64; 12 R361). -/
  mirrorDropped : Nat := 0
  /-- generations missed (64; 12 R363). -/
  genMissed : Nat := 0
  /-- generation that the traffic limit holds back (1,024 x record; 12 R361). -/
  mirrorHeld : List MirrorFrag := []
  /-- clock time from which the limit lets it go (64; 12 R361). -/
  mirrorDue : Nat := 0
  /-- bytes of the generation held back (32; 12 R361). -/
  mirrorBytes : Nat := 0
  /-- TAKEOVER_STALE (64; 12 R363). -/
  takeoverStale : Nat := 0
  /-- HELM_CONFLICT (64; 12 R350). -/
  helmConflict : Nat := 0
  /-- HELM_FENCED (64; 12 R352). -/
  helmFenced : Nat := 0
  /-- FORMAT_GAP (64; 12 R370). -/
  formatGap : Nat := 0
  /-- last takeover time (64; 12 R374). -/
  takeoverAt : Option Nat := none
  /-- its cause (8; 12 R374). -/
  takeoverCause : Nat := 0
  /-- latest 10 ms check of a COORDINATOR role (64; 12 R351). -/
  keepAt : Option Nat := none
  /-- period starts or publications until the holder releases; 0 for none (2; 12 R369). -/
  releaseDue : Nat := 0
  /-- the partner has released the role (RELEASE received) (1; 12 R353). -/
  peerReleased : Bool := false
  /-- the module has released the role since it last decided under R348 (1; 12 R355). -/
  released : Bool := false
  deriving DecidableEq, Repr

/-- A member of a change, on the coordinator (R314, R315). -/
structure ChangeMember where
  /-- member berth (16; 10 R314). -/
  berth : Nat := 0
  /-- RESULT of its PROPOSE_ACK (8; 10 R313). -/
  answer : Option Nat := none
  /-- OUTCOME of its latest REPORT (8; 10 R315). -/
  report : Option Nat := none
  /-- IN_FORCE reported (8; 10 R312). -/
  inForce : Nat := 0
  deriving DecidableEq, Repr

/-- A tide-committed change (R312 to R316). -/
structure Change where
  /-- CHANGE_ID (32; 10 R312). -/
  id : Nat := 0
  /-- KIND (8; 10 R312). -/
  kind : Nat := 1
  /-- POLICY (8; 10 R312). -/
  policy : Nat := 1
  /-- CONSERVATIVE (8; 10 R312). -/
  conservative : Nat := 0
  /-- N (64; 10 R312). -/
  n : Nat := 0
  /-- OLD (32; 10 R312). -/
  old : Nat := 0
  /-- NEW (32; 10 R312). -/
  new_ : Nat := 0
  /-- members (list; 10 R312). -/
  members : List ChangeMember := []
  /-- OPEN, COMPLETE, REVERTED, INCOMPLETE or ABANDONED (enum; 10 R318). -/
  status : ChangeState := .open_
  /-- COMMIT or ABANDON has been sent (coordinator) or received (member) (1; 10 R314). -/
  decided : Bool := false
  /-- rounds made (8; 10 R315). -/
  round : Nat := 0
  /-- tide position named by the latest round (64; 10 R315). -/
  roundAt : Nat := 0
  /-- FALL_BACK sent or received (1; 10 R315). -/
  fellBack : Bool := false
  /-- MODE_CHANGE entry written (10; 10 R314). -/
  entry : Option Nat := none
  /-- the new mode is in force on this member (1; 10 R314). -/
  applied : Bool := false
  /-- berth of the coordinator (16; 10 R314). -/
  coordBerth : Nat := 0
  deriving DecidableEq, Repr

/-- The estate network. -/
structure Net where
  /-- LAN A and LAN B (2 x record; 10 R288). -/
  lans : Table NetLan := []
  /-- estate VLAN identifier (12; 10 R290). -/
  vlan : Nat := 0
  /-- safety VLAN identifier (12; 09 R274). -/
  safetyVlan : Nat := 0
  /-- estate group address (48; 10 R299). -/
  groupMac : Nat := 0x030000A50000
  /-- berth map in use (4,096 x record; 10 R291). -/
  map : List BerthEntry := []
  /-- priority1 and priority2 that the estate configuration sets for a berth, by default 255 and 128 (log entry 156) (4,096 x 16; 02 R45). -/
  priorities : Table (Nat × Nat) := []
  /-- berth taken (12; 10 R293). -/
  berth : Option Nat := none
  /-- berth state (enum; 10 R293). -/
  berthState : BerthState := .notDerived
  /-- epoch of the MODULE role (16; 10 R295). -/
  moduleEpoch : Nat := 0
  /-- last berth taken and its epoch (persistent) (record; 10 R295). -/
  storedBerth : Option (Nat × Nat) := none
  /-- MODULE epoch of a duplicate announcer heard while listening: its berth and epoch (record; 10 R295). -/
  seenEpoch : Option (Nat × Nat) := none
  /-- since when the module has listened (64; 10 R294). -/
  listenFrom : Option Nat := none
  /-- clock time of the latest derivation (64; 10 R293). -/
  derivedAt : Nat := 0
  /-- clock time of the latest BERTH_DUPLICATE record (64; 10 R294). -/
  dupAt : Nat := 0
  /-- clock time from which R348 counts (64; 12 R348). -/
  berthAt : Nat := 0
  /-- outgoing streams (list; 10 R301). -/
  streamsTx : List StreamTx := []
  /-- incoming streams (list; 10 R301). -/
  streamsRx : List StreamRx := []
  /-- senders heard (list; 10 R304). -/
  peers : List PeerPath := []
  /-- role table: what each announcer has announced (list; 10 R306). -/
  announcers : List Announcer := []
  /-- this module's roles and assignments (list; 12 R347). -/
  own : List OwnRole := []
  /-- PAIR.ROLE_SET settings for the next start (persistent) (list; 12 R347). -/
  assignments : List Assignment := []
  /-- SEQUENCE of the next unreliable message, per type (17 x 32; 10 R297). -/
  typeSeq : Table Nat := []
  /-- CORR of the next request (16; 10 R297). -/
  corr : Nat := 0
  /-- clock time of the latest ANNOUNCE (64; 10 R305). -/
  announceAt : Nat := 0
  /-- a role changed and an ANNOUNCE is due within 1 ms (1; 10 R305). -/
  announceDue : Bool := false
  /-- CORR of requests that have been sent again after a ROLE_MOVED (list; 10 R311). -/
  resent : List Nat := []
  /-- requests sent and awaited (list; 14 R420). -/
  requests : List SentReq := []
  /-- estate mode (local signal ESTATE_MODE) (8; 10 R312). -/
  estateMode : Nat := 0
  /-- changes known, newest first (list; 10 R316). -/
  changes : List Change := []
  /-- when COORDINATOR was taken, until the open changes are read (64; 10 R316). -/
  takeoverAt : Option Nat := none
  /-- WINDOW (64; 10 R303). -/
  winDrops : Nat := 0
  /-- STALE (64; 10 R303). -/
  staleMsgs : Nat := 0
  /-- GAP_SKIPPED (64; 10 R318). -/
  gapSkipped : Nat := 0
  /-- NO_ACK (64; 10 R302). -/
  noAck : Nat := 0
  /-- ROLE_MOVED sent (64; 10 R318). -/
  movedSent : Nat := 0
  /-- ROLE_MOVED received (64; 10 R318). -/
  movedRecv : Nat := 0
  /-- ORPHAN_REPLY (64; 10 R310). -/
  orphans : Nat := 0
  /-- ROLE_CONFLICT (64; 10 R306). -/
  roleConflicts : Nat := 0
  /-- module serial number (identity block) (64; 10 R305). -/
  serial : Nat := 0
  /-- DUTY_TOL of P (fraction; 12 R364). -/
  dutyTol : Rat := (1 : Rat) / 50
  /-- OUT_TOL of PHASE_FS (fraction; 12 R364). -/
  outTol : Rat := (1 : Rat) / 20
  /-- SOC_TOL (fraction; 12 R364). -/
  socTol : Rat := (1 : Rat) / 200
  /-- twin-link lane down (2 x 1; 12 R362). -/
  twinDown : Table Bool := []
  /-- clock time of the latest frame on a twin-link lane (2 x 64; 12 R362). -/
  twinLast : Table Nat := []
  /-- clock time up to which the MIRROR traffic sent takes the rate of 8 MiB/s (64; 12 R361). -/
  mirrorFree : Nat := 0
  /-- TWIN_LANE_DOWN count (64; 12 R374). -/
  twinDownCount : Nat := 0
  /-- side read at stage 1: true for side B (1; 19 R500). -/
  twinSideB : Bool := false
  /-- side the partner reports over the twin link (1; 19 R500). -/
  twinPeerSide : Option Bool := none
  /-- mirror format level written; 0 until the image runs (16; 12 R370, 14 R409). -/
  format : Nat := 0
  /-- instant last marked by the helm holder, per lane (8 x 64; 03 R103). -/
  helmMark : Table Nat := []
  /-- reports to originators (NO_ACK, ROLE_MOVED, TIMEOUT, BUSY), oldest first (list; 10 R311, R302). -/
  inboxFns : List FnReport := []
  deriving DecidableEq, Repr

/-- A graph held in a slot: its image header and variables (R322, R323). -/
structure Graph where
  /-- GRAPH_ID (32; 11 R322). -/
  id : Nat := 0
  /-- BUILD (64; 11 R322). -/
  build : Nat := 0
  /-- CYCLE (16; 11 R322). -/
  cycle : Nat := 1
  /-- PHASE (16; 11 R322). -/
  phase : Nat := 0
  /-- DEADLINE (16; 11 R322). -/
  deadline : Nat := 1
  /-- GROUP (8; 11 R322). -/
  group : Nat := 0
  /-- CLASS (1; 11 R322). -/
  sheddable : Bool := false
  /-- BUDGET, us (32; 11 R322). -/
  budget : Nat := 10
  /-- LOCAL_BYTES (32; 11 R322). -/
  localBytes : Nat := 0
  /-- WINDOW_BYTES (32; 11 R322). -/
  windowBytes : Nat := 0
  /-- base of its window in the tenant pool, when placed (32; 11 R325). -/
  base : Nat := 0
  /-- QUEUES (16; 11 R322). -/
  queues : Nat := 0
  /-- LOCAL_PUB (16; 11 R322). -/
  localPub : Nat := 0
  /-- ESTATE_PUB (32; 11 R322). -/
  estatePub : Nat := 0
  /-- variable table with the committed values (list; 11 R323). -/
  vars : List GraphVar := []
  /-- the image (up to 4 MiB; 11 R322). -/
  image : List (BitVec 8) := []
  deriving DecidableEq, Repr

/-- A signal slot (R335). -/
structure SigVal where
  /-- VALUE; none is the marker (64; 11 R335). -/
  value : Option Int := none
  /-- CYCLE_SEQ (32; 11 R335). -/
  seq : Nat := 0
  /-- TYPE; 0 for a handle never declared (8; 11 R335). -/
  typ : Nat := 0
  /-- ABSENT (1; 11 R335). -/
  absent : Bool := true
  /-- HELD (1; 11 R335). -/
  held : Bool := false
  /-- STALE (1; 11 R335). -/
  stale : Bool := false
  /-- LATE (1; 11 R335). -/
  late : Bool := false
  /-- PUBLISHER (8; 11 R335). -/
  publisher : Nat := 0
  deriving DecidableEq, Repr

/-- One tenant slot (R319, R320). -/
structure Slot where
  /-- EMPTY, STOPPED, ACTIVE, SHADOW or SUSPENDED (enum; 11 R320). -/
  state : SlotState := .empty
  /-- TENANT role; 0 for none (32; 11 R319). -/
  role : Nat := 0
  /-- TENANT.STOP in force (1; 11 R320). -/
  stop : Bool := false
  /-- image parts received (up to 4 MiB; 11 R324). -/
  upload : List (BitVec 8) := []
  /-- running graph (record; 11 R342). -/
  running : Option Graph := none
  /-- staged graph (record; 11 R342). -/
  staged : Option Graph := none
  /-- fallback graph (record; 11 R344). -/
  fallback : Option Graph := none
  /-- graph engine (5; 11 R325). -/
  engine : Nat := 0
  /-- queues of the tenant (128 x 15; 11 R376). -/
  queueList : List Nat := []
  /-- a cycle is running (1; 11 R329). -/
  inCycle : Bool := false
  /-- its computation has completed (1; 11 R329). -/
  cycleDone : Bool := false
  /-- signals copied at the cycle's start: handle, estate, slot (list; 11 R329). -/
  snapshot : List (Nat × Bool × SigVal) := []
  /-- working copy of the variables (list; 11 R329). -/
  working : List GraphVar := []
  /-- outputs computed by the cycle: handle, estate, value (list; 11 R329). -/
  outputs : List (Nat × Bool × Option Int) := []
  /-- send requests, queue operations and commands of the cycle (list; 11 R320). -/
  acts : List TenantAct := []
  /-- outcomes for its container bus send blocks since the last snapshot (list; 15 R432). -/
  canOut : List TxOutcome := []
  /-- outcomes in the snapshot (list; 15 R432). -/
  canSeen : List TxOutcome := []
  /-- replies for its mailbox blocks since the last snapshot: CORR, status, payload (list; 11 R341). -/
  replies : List (Nat × Nat × List (BitVec 8)) := []
  /-- replies in the snapshot (list; 11 R341). -/
  repliesSeen : List (Nat × Nat × List (BitVec 8)) := []
  /-- base interval n of the last cycle start (64; 11 R346). -/
  cycleStart : Nat := 0
  /-- clock time of the running cycle's start (64; 11 R331). -/
  startedAt : Nat := 0
  /-- base interval at which the running cycle publishes (64; 11 R329). -/
  publishAt : Nat := 0
  /-- cycles completed (64; 11 R346). -/
  cycles : Nat := 0
  /-- cycle count, low 32 bits (32; 11 R335). -/
  cycleSeq : Nat := 0
  /-- consecutive cycle failures (8; 11 R332). -/
  failRun : Nat := 0
  /-- OVERRUN failures (64; 11 R346). -/
  overruns : Nat := 0
  /-- BUDGET failures (64; 11 R346). -/
  budgets : Nat := 0
  /-- WINDOW failures (64; 11 R346). -/
  windowFails : Nat := 0
  /-- last failure cause (8; 11 R346). -/
  lastFail : Nat := 0
  /-- clock time of the last failure (64; 11 R346). -/
  lastFailAt : Option Nat := none
  /-- peak engine time, us (32; 11 R346). -/
  peakUs : Nat := 0
  /-- VAR_RESIZED (64; 11 R344). -/
  resized : Nat := 0
  /-- VAR_RETYPED (64; 11 R344). -/
  retyped : Nat := 0
  /-- GRAPH.ACTIVATE: N and the entry taken (record; 11 R343). -/
  activateAt : Option (Nat × Nat) := none
  /-- the staged graph starts at its first cycle after N (1; 11 R344). -/
  switching : Bool := false
  /-- local handles published by the graph (list; 11 R336). -/
  localHandles : List Nat := []
  /-- estate handles published by the graph (list; 11 R337). -/
  estateHandles : List Nat := []
  /-- estate handles as last sent: value and HELD (list; 11 R337). -/
  estateOut : List (Nat × Option Int × Bool) := []
  /-- handles (estate or local) that only the graph before published, until the first publication (list; 11 R344). -/
  retire : List (Nat × Bool) := []
  deriving DecidableEq, Repr

/-- Ownership of one estate handle (R339). -/
structure EstateSig where
  /-- role whose SIGNAL was accepted last (32; 11 R339). -/
  owner : Nat := 0
  /-- clock time of that SIGNAL (64; 11 R339). -/
  ownerAt : Nat := 0
  /-- clock time at which this module last sent the handle (64; 11 R337). -/
  sentAt : Nat := 0
  deriving DecidableEq, Repr

/-- One graph engine GEk. -/
structure Engine where
  /-- engine fault raised (1; 11 R332). -/
  fault : Bool := false
  deriving DecidableEq, Repr

/-- Tenants and signals. -/
structure Tenants where
  /-- slots 0 to 255 (256 x record; 11 R319). -/
  slots : Table Slot := []
  /-- GE0 to GE31 (32 x record; 11 R325). -/
  engines : Table Engine := []
  /-- local signal slots (65,536 x 128; 11 R335). -/
  local_ : Table SigVal := []
  /-- estate signal slots (1,048,576 x 128; 11 R337). -/
  estate : Table SigVal := []
  /-- estate handle ownership (1,048,576 x record; 11 R339). -/
  owners : Table EstateSig := []
  /-- epoch last accepted per SRC_ROLE (list; 11 R339). -/
  epochs : List (Nat × Nat) := []
  /-- entries scheduled for application (list; 11 R339). -/
  due : List DueSignal := []
  /-- APPLY_DELAY (8; 11 R339). -/
  applyDelay : Nat := 2
  /-- REFRESH, ms (16; 11 R337). -/
  refresh : Nat := 1000
  /-- SIGNAL_OLD_EPOCH (64; 11 R339). -/
  oldEpoch : Nat := 0
  /-- SIGNAL_CONFLICT (64; 11 R339). -/
  conflicts : Nat := 0
  deriving DecidableEq, Repr

/-- One queue context (R381). -/
structure Queue where
  /-- PI (32; 13 R381). -/
  pi : Nat := 0
  /-- CI (32; 13 R381). -/
  ci : Nat := 0
  /-- FULL_DROPS, saturates (32; 13 R381). -/
  fullDrops : Nat := 0
  /-- THRESHOLD (17; 13 R381). -/
  threshold : Nat := 0
  /-- BASE (64; 13 R381). -/
  base : Nat := 0
  /-- OWNER (8; 13 R381). -/
  owner : Nat := 0
  /-- PROD (4; 13 R381). -/
  prod : Nat := 0
  /-- CONS (4; 13 R381). -/
  cons : Nat := 0
  /-- K; 0 while the queue does not exist (5; 13 R381). -/
  k : Nat := 0
  /-- created by QUEUE.CREATE (1; 13 R416). -/
  created : Bool := false
  /-- INDEX_ERROR of the queue (64; 13 R378). -/
  indexErr : Nat := 0
  deriving DecidableEq, Repr

/-- A descriptor as fetched (R386). -/
structure Desc where
  /-- its address (64; 13 R386). -/
  addr : Nat := 0
  /-- END (1; 13 R386). -/
  end_ : Bool := true
  /-- NOTIFY (1; 13 R386). -/
  notify : Bool := false
  /-- USER (8; 13 R386). -/
  user : Nat := 0
  /-- CQ (15; 13 R386). -/
  cq : Nat := 0
  /-- LENGTH (32; 13 R386). -/
  length : Nat := 0
  /-- DST (64; 13 R386). -/
  dst : Nat := 0
  /-- SRC (64; 13 R386). -/
  src : Nat := 0
  /-- NEXT_LO (32; 13 R386). -/
  nextLo : Nat := 0
  deriving DecidableEq, Repr

/-- A completion record (R392). -/
structure Record where
  /-- DESC (64; 13 R392). -/
  desc : Nat := 0
  /-- TIME (64; 13 R392). -/
  time : Nat := 0
  /-- BYTES_DONE (32; 13 R392). -/
  bytesDone : Nat := 0
  /-- OVERRUN_BEATS (16; 13 R392). -/
  overrun : Nat := 0
  /-- USER (8; 13 R392). -/
  user : Nat := 0
  /-- CHANNEL (8; 13 R392). -/
  channel : Nat := 0
  /-- SEQ (32; 13 R392). -/
  seq : Nat := 0
  /-- STATUS (8; 13 R392). -/
  status : Nat := 0
  /-- ABORT_LATE (1; 13 R392). -/
  abortLate : Bool := false
  /-- TAIL (1; 13 R392). -/
  tail : Bool := false
  deriving DecidableEq, Repr

/-- One DMA channel (R382, R389). -/
structure Channel where
  /-- IDLE, RUNNING, PARKED or STOPPED (enum; 13 R389). -/
  state : ChanState := .idle
  /-- owner; channels 0 to 15 the system tenant (enum; 13 R382). -/
  owner : ChanOwner := .system
  /-- priority (3; 13 R382). -/
  priority : Nat := 0
  /-- host descriptor window base (64; 13 R386). -/
  window : Option Nat := none
  /-- address of the next descriptor to fetch (64; 13 R389). -/
  next : Nat := 0
  /-- current descriptor (record; 13 R389). -/
  desc : Option Desc := none
  /-- the current descriptor has been started (1; 13 R389). -/
  started : Bool := false
  /-- bytes of the current descriptor carried (data) (32; 13 R392). -/
  done_ : Nat := 0
  /-- bytes left in the descriptor (32; 13 R384). -/
  left : Nat := 0
  /-- surplus beats of the current descriptor (16; 13 R385). -/
  overrun : Nat := 0
  /-- clock time of the last beat (64; 13 R392). -/
  beatAt : Nat := 0
  /-- the last burst of the descriptor has been granted (1; 13 R394). -/
  lastGranted : Bool := false
  /-- an abort has met the current descriptor (1; 13 R394). -/
  abortReq : Bool := false
  /-- the abort met the completing transfer (1; 13 R394). -/
  abortLate : Bool := false
  /-- doorbell-pending bit (1; 13 R390). -/
  pendingBell : Bool := false
  /-- END and NEXT_LO of a descriptor in host memory are being read again (1; 13 R389, R390). -/
  rereading : Bool := false
  /-- record waiting for room in CQ (256; 13 R392). -/
  held : Option Record := none
  /-- since when it has waited (64; 13 R392). -/
  heldSince : Option Nat := none
  /-- CQ_STALL recorded for this wait (1; 13 R392). -/
  stallSeen : Bool := false
  /-- records since reset (32; 13 R392). -/
  seq : Nat := 0
  /-- last record (256; 13 R396). -/
  lastRec : Option Record := none
  /-- bytes moved (64; 13 R396). -/
  bytes : Nat := 0
  /-- bursts (64; 13 R396). -/
  bursts : Nat := 0
  /-- OVERRUN_BEATS (64; 13 R396). -/
  overrunBeats : Nat := 0
  /-- CQ_WAIT (64; 13 R392). -/
  cqWait : Nat := 0
  /-- DOORBELL_IGNORED (64; 13 R390). -/
  bellIgnored : Nat := 0
  /-- ABORT_IDLE (64; 13 R394). -/
  abortIdle : Nat := 0
  /-- records by status (6 x 64; 13 R396). -/
  byStatus : Table Nat := []
  deriving DecidableEq, Repr

/-- Queues, DMA and the memories they reach. -/
structure Fabric where
  /-- queue contexts (32,768 x 256; 13 R375). -/
  queues : Table Queue := []
  /-- channels 0 to 63 (64 x record; 13 R382). -/
  channels : Table Channel := []
  /-- channel last granted at each priority (8 x 6; 13 R383). -/
  lastGrant : Table Nat := []
  /-- LPDDR5 usable space, byte by byte; a byte not listed reads 0 (zeroed at power-up) (3,584 MiB; 01 R25, R27). -/
  lpddr : List Host.Cell := []
  /-- the bytes of the sample store and of staging that space 1 reaches; a byte not listed reads 0. No rule lays tap frames and current samples out in it: they stand in the rings of ports and lanes and do not show here (DESIGN CHOICE, log entry 155) (6.5 MiB; 01 R24, R27). -/
  sram : List Host.Cell := []
  /-- pages of LPDDR5 that hold an uncorrectable error (list; 01 R26). -/
  poisoned : List Nat := []
  /-- 1 KiB blocks of the sample store, queue and DMA state and staging that hold one (log entry 154) (list; 01 R26). -/
  poisonedSram : List Nat := []
  /-- the engine is stopped (before it starts, BARE ROCK) (1; 13 R395). -/
  stopped : Bool := true
  deriving DecidableEq, Repr

/-- A request being assembled in a mailbox (R400). -/
structure Assembly where
  /-- TAG (32; 14 R400). -/
  tag : Nat := 0
  /-- COMMAND (16; 14 R400). -/
  command : Nat := 0
  /-- LENGTH (32; 14 R400). -/
  length : Nat := 0
  /-- payload so far (up to 1 MiB; 14 R400). -/
  bytes : List (BitVec 8) := []
  deriving DecidableEq, Repr

/-- A complete request not yet taken (R404). -/
structure Request where
  /-- TAG (32; 14 R398). -/
  tag : Nat := 0
  /-- COMMAND (16; 14 R398). -/
  command : Nat := 0
  /-- status that the envelope checks 1 and 2 give, none when they pass (16; 14 R399). -/
  envErr : Option Nat := none
  /-- payload (up to 1 MiB; 14 R398). -/
  bytes : List (BitVec 8) := []
  /-- TARGET_ROLE of a GARZET request (32; 14 R418). -/
  targetRole : Nat := 0
  /-- TARGET_EPOCH of a GARZET request (16; 14 R418). -/
  targetEpoch : Nat := 0
  /-- CORR of a GARZET request (16; 14 R418). -/
  corr : Nat := 0
  /-- SRC_ROLE of a GARZET request (32; 10 R302). -/
  srcRole : Nat := 0
  /-- SRC_EPOCH of a GARZET request (16; 10 R302). -/
  srcEpoch : Nat := 0
  deriving DecidableEq, Repr

/-- A response formed by the module (R398). -/
structure Response where
  /-- path (enum; 14 R397). -/
  path : Path := .pcie
  /-- mailbox, session or sender berth (64; 14 R397). -/
  box : Nat := 0
  /-- TAG (32; 14 R398). -/
  tag : Nat := 0
  /-- COMMAND (16; 14 R398). -/
  command : Nat := 0
  /-- STATUS (16; 14 R422). -/
  status : Nat := 0
  /-- DONE_AT (64; 14 R398). -/
  doneAt : Nat := 0
  /-- payload fields, laid out per R401 (list; 14 R401). -/
  payload : List Field := []
  /-- CORR copied from a GARZET request (16; 14 R418). -/
  corr : Nat := 0
  deriving DecidableEq, Repr

/-- One mailbox (R397). -/
structure Mailbox where
  /-- path (enum; 14 R397). -/
  path : Path := .pcie
  /-- number, session or sender berth (64; 14 R397). -/
  box : Nat := 0
  /-- ENABLE of a PCIe mailbox (1; 14 R412). -/
  enable : Bool := false
  /-- disabled, idle, executing or waiting for response room (enum; 14 R412). -/
  state : BoxState := .disabled
  /-- complete requests not yet taken, oldest first (list; 14 R404). -/
  queue : List Request := []
  /-- assembly under way (record; 14 R400). -/
  asm : Option Assembly := none
  /-- TAG whose further messages are discarded (32; 14 R400). -/
  discardTag : Option Nat := none
  /-- messages of the response that wait for room in the response ring (messages; 14 R413). -/
  waiting : List (List (BitVec 8)) := []
  /-- command executing (16; 14 R425). -/
  executing : Option Nat := none
  /-- clock time of the latest request (GARZET) (64; 14 R418). -/
  lastReqAt : Nat := 0
  /-- the indices are set to 0 once the executing command completes (1; 14 R416). -/
  resetPending : Bool := false
  deriving DecidableEq, Repr

/-- Counters of one path (R425). -/
structure PathCount where
  /-- requests taken (64; 14 R425). -/
  taken : Nat := 0
  /-- BAD_ENVELOPE (64; 14 R425). -/
  badEnvelope : Nat := 0
  /-- UNKNOWN_COMMAND (64; 14 R425). -/
  unknown : Nat := 0
  /-- PATH_REFUSED (64; 14 R425). -/
  refused : Nat := 0
  /-- BUSY refusals (64; 14 R425). -/
  busy : Nat := 0
  /-- RESP_WAIT (64; 14 R413). -/
  respWait : Nat := 0
  /-- requests discarded by reset or session end (64; 14 R425). -/
  discarded : Nat := 0
  /-- HOST_ACCESS_DENIED (64; 14 R414). -/
  accessDenied : Nat := 0
  /-- INDEX_ERROR (64; 14 R415). -/
  indexError : Nat := 0
  /-- NOT_OWNER doorbell writes (64; 14 R415). -/
  notOwner : Nat := 0
  deriving DecidableEq, Repr

/-- One service session (R417, R467). -/
structure Session where
  /-- session number (8; 17 R467). -/
  id : Nat := 0
  /-- client certificate (its serial number) (64; 17 R478). -/
  subject : Nat := 0
  /-- key generation it was authenticated under (0 commissioning root) (8; 17 R462). -/
  rootGen : Nat := 0
  /-- TIME_UNCHECKED (1; 17 R466). -/
  timeUnchecked : Bool := false
  /-- clock time of the latest message (64; 17 R467). -/
  lastMsgAt : Nat := 0
  /-- ends 10 s after a TURN (64; 17 R462). -/
  endsAt : Option Nat := none
  deriving DecidableEq, Repr

/-- Mailboxes and the host window. -/
structure Mbox where
  /-- mailboxes of the three paths that are open (list; 14 R397). -/
  boxes : List Mailbox := []
  /-- responses handed to their paths, oldest first (list; 14 R402). -/
  responses : List Response := []
  /-- per path: 0 PCIE, 1 SERVICE, 2 GARZET (3 x record; 14 R425). -/
  counts : Table PathCount := []
  /-- round-robin position (16; 14 R404). -/
  lastServed : Nat := 0
  /-- MAILBOX_READY (1; 14 R410). -/
  ready : Bool := false
  /-- HEARTBEAT (1; 14 R410). -/
  heartbeat : Bool := false
  /-- clock time of its latest toggle (64; 14 R410). -/
  heartbeatAt : Nat := 0
  /-- INT_STATUS (8; 14 R411). -/
  intStatus : Nat := 0
  /-- INT_ENABLE (8; 14 R411). -/
  intEnable : Nat := 0
  /-- MSI-X vectors raised, oldest first (list; 14 R411). -/
  msix : List Nat := []
  /-- queues whose notice pending bit is set, ascending (32,768 x 1; 14 R411). -/
  noticePending : List Nat := []
  /-- upper half of the clock captured by the read of TIME_LO (32; 14 R410). -/
  timeHi : Nat := 0
  /-- QSEL (15; 14 R414). -/
  qsel : Nat := 0
  /-- MSI-X table words (128 x 32; 14 R408). -/
  msixTable : Table Nat := []
  /-- MSI-X pending bit array (32; 14 R408). -/
  msixPba : Nat := 0
  /-- value returned by the latest host read (32; 14 R410). -/
  lastRead : Option Nat := none
  /-- accesses completed with unsupported request (64; 14 R408). -/
  unsupported : Nat := 0
  /-- a PCIe host is linked (1; 13 R396). -/
  hostLinked : Bool := false
  /-- open service sessions (4 x record; 17 R467). -/
  sessions : List Session := []
  /-- times of failed handshakes in the last 60 s (list; 17 R467). -/
  fails : List Nat := []
  /-- end of the lockout (64; 17 R467). -/
  lockoutUntil : Option Nat := none
  deriving DecidableEq, Repr

/-- A transmit request in a buffer (R430, R431). -/
structure TxReq where
  /-- the frame (record; 15 R430). -/
  frame : CanFrame := {}
  /-- TX_SEQ (32; 15 R432). -/
  txSeq : Nat := 0
  /-- attempts made (5; 15 R431). -/
  attempts : Nat := 0
  /-- LAST_ERROR (3; 15 R432). -/
  lastError : Nat := 0
  /-- start of frame of the last attempt (64; 15 R432). -/
  startAt : Option Nat := none
  /-- clock time of acceptance (64; 15 R431). -/
  acceptedAt : Nat := 0
  /-- an attempt is on the bus (1; 15 R431). -/
  onBus : Bool := false
  /-- outcome of an abort that met the attempt on the bus (8; 15 R431). -/
  ending : Option Nat := none
  /-- a reference message (1; 15 R437). -/
  reference : Bool := false
  deriving DecidableEq, Repr

/-- One transmit buffer TBi (R429). -/
structure TxBuf where
  /-- owner (record; 15 R429). -/
  owner : OutSource := .none_
  /-- RETRY, default 3 (4; 15 R429). -/
  retry : Nat := 3
  /-- pending request (record; 15 R430). -/
  req : Option TxReq := none
  /-- outcome record waiting for room (128; 15 R432). -/
  heldRec : Option TxOutcome := none
  /-- last outcome (8; 15 R440). -/
  last : Option Nat := none
  deriving DecidableEq, Repr

/-- One CAN FD controller (R426). -/
structure Can where
  /-- DISABLED, NORMAL or LISTEN_ONLY (enum; 15 R439). -/
  mode : CanMode := .disabled
  /-- configuration in force (record; 15 R439). -/
  cfg : Option CanConfig := none
  /-- acceptance filters (64 x record; 15 R433). -/
  filters : Table (Option CanFilter) := []
  /-- TB0 to TB31 (32 x record; 15 R429). -/
  bufs : Table TxBuf := []
  /-- value returned by the next CAN.SEND (32; 15 R432). -/
  txSeq : Nat := 0
  /-- TEC (9; 15 R436). -/
  tec : Nat := 0
  /-- REC (8; 15 R436). -/
  rec_ : Nat := 0
  /-- BUS_OFF (1; 15 R436). -/
  busOff : Bool := false
  /-- recovery under way (1; 15 R436). -/
  recovering : Bool := false
  /-- rejoins the bus after 11 recessive bits (1; 15 R439). -/
  integrating : Bool := true
  /-- own frame that is on the bus (record; 15 R431). -/
  air : Option CanFrame := none
  /-- last measured loop delay, kernel periods (8; 15 R428). -/
  loopDelay : Option Nat := none
  /-- records of targets that are mailbox paths (0 FIFO0, 1 FIFO1, 2 HP, 3 TX_EVENT) (4 x 256 x 64 B; 15 R434). -/
  paths : Table (List (List (BitVec 8))) := []
  /-- CONTAINER_TIME candidacy (record; 15 R437). -/
  master : Option TimeMaster := none
  /-- clock time at which the role table last showed the container's role resolved (64; 15 R437). -/
  clearAt : Nat := 0
  /-- SEQUENCE of reference messages (8; 15 R438). -/
  refSeq : Nat := 0
  /-- clock time of the latest reference due (64; 15 R437). -/
  refDueAt : Nat := 0
  /-- frames sent (64; 15 R440). -/
  sent : Nat := 0
  /-- frames received (64; 15 R440). -/
  received : Nat := 0
  /-- errors by type (LAST_ERROR code) (7 x 64; 15 R440). -/
  errors : Table Nat := []
  /-- arbitration losses (64; 15 R440). -/
  arbLost : Nat := 0
  /-- bus-off entries (64; 15 R440). -/
  busOffs : Nat := 0
  /-- PXE (64; 15 R426). -/
  pxe : Nat := 0
  /-- TDC_RANGE (64; 15 R428). -/
  tdcRange : Nat := 0
  /-- RX_LOST (64; 15 R434). -/
  rxLost : Nat := 0
  /-- RX_BEACHED (64; 15 R439). -/
  rxBeached : Nat := 0
  /-- NO_MATCH discards (64; 15 R440). -/
  noMatch : Nat := 0
  /-- REF_LATE (64; 15 R437). -/
  refLate : Nat := 0
  /-- refusals by NOT_OWNER (64; 15 R429). -/
  notOwner : Nat := 0
  deriving DecidableEq, Repr

/-- The two controllers. -/
structure CanBus where
  /-- CAN0 and CAN1 (2 x record; 15 R426). -/
  ctl : Table Can := []
  deriving DecidableEq, Repr

/-- One serial NOR device (R441, R444, R453); kept through resets and loss of power. -/
structure Device where
  /-- present and usable under R441 (1; 16 R441). -/
  present : Bool := true
  /-- declared failed (1; 16 R454). -/
  failed : Bool := false
  /-- wear stage (enum; 16 R453). -/
  stage : WearStage := .normal
  /-- retries in all (32; 16 R453). -/
  retries : Nat := 0
  /-- power-on times of retries in the last 30 days (list; 16 R453). -/
  retryTimes : List Nat := []
  /-- remap table: logical sector, spare index (254 x 32; 16 R444). -/
  remap : List (Nat × Nat) := []
  /-- spares left (8; 16 R442). -/
  sparesLeft : Nat := 254
  /-- bad sectors (list; 16 R452). -/
  badSectors : List Nat := []
  /-- erase counts per sector (4,096 x 32; 16 R459). -/
  erases : Table Nat := []
  /-- structures that failed the last scrub (list; 16 R454). -/
  scrubFails : List Nat := []
  deriving DecidableEq, Repr

/-- A learned commit running (R445). -/
structure Commit where
  /-- GENERATION (64; 16 R445). -/
  generation : Nat := 0
  /-- TIME (64; 16 R445). -/
  startedAt : Nat := 0
  /-- pages still to program (16; 16 R445). -/
  pagesLeft : Nat := 0
  /-- port entries being written (128 x 588 B; 16 R445). -/
  blocks : Table (Option (Nat × List Learned)) := []
  /-- lane entries being written (8 x 56 B; 16 R445). -/
  lanes : List (Nat × List Nat) := []
  deriving DecidableEq, Repr

/-- A waiting operation of the interface (R447). -/
structure Op where
  /-- priority, 1 highest (3; 16 R447). -/
  prio : Nat := 0
  /-- operation (record; 16 R447). -/
  kind : StoreOp := .commitPage
  /-- clock time at which a write fell due (64; 16 R448). -/
  due : Nat := 0
  /-- its hold-up check has passed (1; 16 R448). -/
  checked : Bool := false
  /-- clock time of its latest hold-up check (64; 16 R448). -/
  checkAt : Nat := 0
  /-- it has waited 60 s (STORE_DEFERRED) (1; 16 R448). -/
  late : Bool := false
  /-- reprograms of its page on device 0 (2; 16 R451). -/
  tries0 : Nat := 0
  /-- reprograms of its page on device 1 (2; 16 R451). -/
  tries1 : Nat := 0
  /-- devices on which its page stayed wrong (list; 16 R451). -/
  given : List Nat := []
  deriving DecidableEq, Repr

/-- The serial store; its settings, commits, devices and ring are kept through resets. -/
structure Store where
  /-- devices 0 and 1 (2 x record; 16 R441). -/
  devs : Table Device := []
  /-- settings records in force, newest first (8 MiB log; 16 R446). -/
  settings : List SettingRec := []
  /-- newest settings generation (64; 16 R443). -/
  genSettings : Nat := 0
  /-- newest valid learned commit generation (64; 16 R443). -/
  genCommit : Nat := 0
  /-- its time (64; 16 R459). -/
  commitTime : Nat := 0
  /-- lane entries of the newest commit (8 x 48 B; 16 R445). -/
  laneCounts : List (Nat × List Nat) := []
  /-- header generation (64; 16 R444). -/
  headerGen : Nat := 0
  /-- C_HU measured, with its time; none holds no measurement (F; 16 R444, R449). -/
  cHu : Option Rat := none
  /-- power-on time of the measurement (64; 16 R449). -/
  cHuAt : Nat := 0
  /-- C_HU and its time as the header holds them (record; 16 R444). -/
  cHuHeader : Option (Rat × Nat) := none
  /-- VHU, mV (16; 18 R485). -/
  vHu : Nat := 0
  /-- last E_AVAIL (J; 16 R459). -/
  eAvail : Option Rat := none
  /-- measurement under way: start and voltage, mV (record; 16 R449). -/
  measuring : Option (Nat × Nat) := none
  /-- a measurement is due (1; 16 R449). -/
  measureDue : Bool := false
  /-- VHU has reached 39.2 V since power-up (1; 18 R485). -/
  measuredBoot : Bool := false
  /-- operations waiting on the interface, in order of arrival (list; 16 R447). -/
  ops : List Op := []
  /-- operation running (record; 16 R447). -/
  running : Option Op := none
  /-- erase suspended (record; 16 R447). -/
  suspended : Option Op := none
  /-- learned commit running or deferred (record; 06 R193). -/
  commit : Option Commit := none
  /-- one further commit is queued (1; 06 R193). -/
  commitQueued : Bool := false
  /-- clock time at which the last commit ended (64; 06 R193). -/
  lastCommitEnd : Nat := 0
  /-- STORE_DEFERRED alarm active (1; 16 R448). -/
  deferred : Bool := false
  /-- scrub running: start and problems found (record; 16 R454). -/
  scrub : Option (Nat × Nat) := none
  /-- clock time of the last scrub (64; 16 R454). -/
  lastScrub : Nat := 0
  /-- its result (8; 16 R459). -/
  lastScrubRes : Nat := 0
  /-- power-on time, ns (kept) (64; 16 R449). -/
  onTime : Nat := 0
  /-- clock time up to which power-on time is counted (64; 16 R449). -/
  onMark : Nat := 0
  /-- SETTINGS_VOLATILE (1; 16 R453). -/
  settingsVolatile : Bool := false
  deriving DecidableEq, Repr

/-- An event record (R455). -/
structure EventRec where
  /-- SEQ (64; 16 R455). -/
  seq : Nat := 0
  /-- TIME (64; 16 R455). -/
  time : Nat := 0
  /-- POSITION (64; 16 R455). -/
  position : Nat := 0
  /-- CODE (16; 16 R456). -/
  code : Nat := 0
  /-- OBJECT_KIND (8; 16 R455). -/
  objKind : Nat := 0
  /-- OBJECT (32; 16 R455). -/
  object : Nat := 0
  /-- CAUSE (16; 16 R455). -/
  cause : Nat := 0
  /-- VALUE0; none is the marker (64; 16 R455). -/
  v0 : Option Int := none
  /-- VALUE1 (64; 16 R455). -/
  v1 : Option Int := none
  /-- VALUE2 (64; 16 R455). -/
  v2 : Option Int := none
  /-- SEVERITY (4; 16 R516). -/
  severity : Nat := 0
  /-- SOURCE (4; 16 R516). -/
  source : Nat := 0
  /-- CLEARED (1; 16 R455). -/
  cleared : Bool := false
  /-- ROCK (1; 16 R455). -/
  rock : Bool := false
  deriving DecidableEq, Repr

/-- The event recorder; the ring is kept through resets and loss of power. -/
structure Recorder where
  /-- records written, newest first (2,097,152 x 512; 16 R455). -/
  ring : List EventRec := []
  /-- records gathered, oldest first (65,536 x 512; 16 R457). -/
  cache : List EventRec := []
  /-- SEQ of the next record kept (64; 16 R455). -/
  nextSeq : Nat := 1
  /-- records dropped since space was lost (64; 16 R457). -/
  lostNow : Nat := 0
  /-- RECORDS_LOST total (64; 16 R459). -/
  lostTotal : Nat := 0
  /-- active alarms: code, object, time (list; 16 R456). -/
  alarms : List Alarm := []
  deriving DecidableEq, Repr

/-- One generation of estate keys (R461); fused, kept for ever. -/
structure KeyGen where
  /-- estate service root (its identity) (2,048 B; 17 R460). -/
  root : Nat := 0
  /-- estate delivery key (256; 17 R460). -/
  delivery : Nat := 0
  /-- revocation list (256 x 64; 17 R460). -/
  revoked : List Nat := []
  /-- static IPv4 address and prefix (40; 17 R465). -/
  ipv4 : Option (Nat × Nat) := none
  deriving DecidableEq, Repr

/-- One image slot (R472); kept through resets and loss of power. -/
structure ImgSlot where
  /-- EMPTY, WRITING, PENDING, RUNNING, GOOD or REJECTED (enum; 17 R472). -/
  state : ImgState := .empty
  /-- package parts received (48 MiB; 17 R473). -/
  upload : List (BitVec 8) := []
  /-- FW_VERSION (32; 17 R472). -/
  fwVersion : Nat := 0
  /-- BUILD (64; 17 R472). -/
  build : Nat := 0
  /-- MIRROR_FORMAT (16; 17 R472). -/
  format : Nat := 0
  /-- ROLLBACK (8; 17 R472). -/
  rollback : Nat := 0
  /-- SIGNER (8; 17 R472). -/
  signer : Nat := 0
  /-- last rejection cause (8; 17 R478). -/
  rejectCause : Nat := 0
  /-- generation (64; 17 R472). -/
  generation : Nat := 0
  /-- bytes written (32; 17 R473). -/
  bytes : Nat := 0
  deriving DecidableEq, Repr

/-- Lifecycle, keys, debug and update. -/
structure Security where
  /-- lifecycle state (fuses); BLANK from manufacture (enum; 17 R462). -/
  lifecycle : Lifecycle := .blank
  /-- key generations written, newest first (16 x record; 17 R461). -/
  keyGens : List KeyGen := []
  /-- revocation fuses of firmware keys blown (4 x 1; 17 R460). -/
  signerRevoked : List Nat := []
  /-- debug level; none from every reset (enum; 17 R468). -/
  debug : DebugLevel := .none_
  /-- session that set the level (8; 17 R478). -/
  debugSession : Option Nat := none
  /-- halted engines and cores (list; 17 R470). -/
  halted : List Nat := []
  /-- image slots A (0) and B (1) (2 x 48 MiB; 17 R472). -/
  slots : Table ImgSlot := [(0, { state := .good })]
  /-- booted slot (1; 17 R472). -/
  active : Nat := 0
  /-- default slot (1; 17 R474). -/
  default_ : Nat := 0
  /-- TRY mark of the header (1; 17 R474). -/
  tryMark : Option Nat := none
  /-- the running image is on trial (1; 17 R475). -/
  trial : Bool := false
  /-- fused rollback count (6; 17 R475). -/
  rollback : Nat := 0
  /-- power-on time of the default image, ns (64; 17 R475). -/
  imageOn : Nat := 0
  /-- clock time up to which it is counted (64; 17 R475). -/
  imageMark : Nat := 0
  /-- the recovery loader runs (1; 17 R474). -/
  recovery : Bool := false
  deriving DecidableEq, Repr

/-- Power of one plant port (R480 to R482). -/
structure PowerPort where
  /-- input at or above 36.0 V (1; 18 R481). -/
  powered : Bool := false
  /-- clock time at which it was last powered again (64; 18 R482). -/
  poweredAt : Nat := 0
  deriving DecidableEq, Repr

/-- Line power, start-up and power states. -/
structure Power where
  /-- the module runs (from POWER_UP to the loss of line power) (1; 18 R488). -/
  on : Bool := false
  /-- FULL, SLACK, BEACHED or BARE ROCK (POWER resets to 0 FULL) (enum; 01 R23). -/
  state : PowerState := .full
  /-- START_STAGE (4; 18 R488). -/
  stage : Nat := 0
  /-- time each stage was reached (5 x 64; 18 R495). -/
  stageAt : Table (Option Nat) := []
  /-- the second zeroing has ended (1; 01 R27). -/
  zeroed : Bool := false
  /-- clock time of time zero (64; 18 R488). -/
  bootAt : Nat := 0
  /-- plant ports A and B as power inputs (2 x record; 18 R481). -/
  ports : Table PowerPort := []
  /-- clock time of the loss of line power, until the module is unpowered or restarts (64; 18 R486). -/
  lossAt : Option Nat := none
  /-- time of the last POWER_FAIL (64; 18 R495). -/
  lastFail : Option Nat := none
  /-- BROWNOUT_RESTART is recorded at stage 2 (kept through the reset) (1; 18 R487). -/
  brownout : Bool := false
  /-- VBRD_3V3 on (1; 18 R484). -/
  board : Bool := false
  /-- VBRD_3V3 current, mA (16; 18 R495). -/
  boardMa : Nat := 0
  /-- since when the output has been in tolerance (64; 18 R484). -/
  boardOkSince : Option Nat := none
  /-- clock time of the latest retry (64; 18 R484). -/
  boardTryAt : Nat := 0
  /-- bulk charger on (1; 18 R485). -/
  charger : Bool := false
  /-- VSTORE_1V8 and TCXO_VDD up (1; 19 R506). -/
  vstore : Bool := false
  /-- PULL_OK (1; 18 R489). -/
  pullOk : Bool := false
  /-- beaching sequence under way (record; 06 R198). -/
  beach : Option BeachSeq := none
  /-- parting sequence under way (record; 18 R493). -/
  part : Option PartSeq := none
  /-- beached by parting (1; 18 R494). -/
  parted : Bool := false
  /-- clock time of BEACHED (64; 06 R198). -/
  beachedAt : Nat := 0
  /-- consecutive conversions with every lane below VBUS_MIN (16; 06 R200). -/
  busLow : Nat := 0
  /-- 100 such conversions have been seen since step 6 (1; 06 R200). -/
  busWasLow : Bool := false
  /-- consecutive conversions with a lane at or above VBUS_MIN (16; 06 R200). -/
  busHigh : Nat := 0
  /-- level of REFLOAT (1; 06 R200). -/
  refloatIn : Bool := false
  /-- clock time of the refloat trigger (64; 06 R201). -/
  refloatAt : Option Nat := none
  /-- a commit still deferred is made after refloat (1; 06 R198). -/
  pendingCommit : Bool := false
  deriving DecidableEq, Repr

/-- What the module held at step 6 of beaching, which STATUS replies give in BEACHED (06 R199). -/
structure Held where
  /-- as State.clock was (record; 06 R199). -/
  clock : Clock := {}
  /-- as State.ptp was (2 x record; 06 R199). -/
  ptp : Table PtpPort := []
  /-- as State.servo was (record; 06 R199). -/
  servo : Servo := {}
  /-- as State.lh was (record; 06 R199). -/
  lh : Lighthouse := {}
  /-- as State.tide was (record; 06 R199). -/
  tide : Tide := {}
  /-- as State.table was (record; 06 R199). -/
  table : TideTable := {}
  /-- as State.tsin was (4 x record; 06 R199). -/
  tsin : Table TsIn := []
  /-- as State.tsout was (4 x record; 06 R199). -/
  tsout : Table TsOut := []
  /-- as State.tap was (record; 06 R199). -/
  tap : Tap := {}
  /-- as State.ana was (record; 06 R199). -/
  ana : Analog := {}
  /-- as State.lanes was (8 x record; 06 R199). -/
  lanes : Table Lane := []
  /-- as State.model was (record; 06 R199). -/
  model : Model := {}
  /-- as State.sound was (record; 06 R199). -/
  sound : Sound := {}
  /-- as State.therm was (record; 06 R199). -/
  therm : Thermal := {}
  /-- as State.safety was (record; 06 R199). -/
  safety : Safety := {}
  /-- as State.net was (record; 06 R199). -/
  net : Net := {}
  /-- as State.ten was (record; 06 R199). -/
  ten : Tenants := {}
  /-- as State.fab was (record; 06 R199). -/
  fab : Fabric := {}
  /-- as State.mbox was (record; 06 R199). -/
  mbox : Mbox := {}
  /-- as State.can was (record; 06 R199). -/
  can : CanBus := {}
  /-- as State.store was (record; 06 R199). -/
  store : Store := {}
  /-- as State.recorder was (record; 06 R199). -/
  recorder : Recorder := {}
  /-- as State.sec was (record; 06 R199). -/
  sec : Security := {}
  /-- as State.power was (record; 06 R199). -/
  power : Power := {}
  deriving DecidableEq, Repr

/-- The whole module, and the queue of commands that wait. -/
structure State where
  /-- nanosecond clock (record; 02 R42). -/
  clock : Clock := {}
  /-- PTP ports: 0 LAN A, 1 LAN B (2 x record; 02 R44). -/
  ptp : Table PtpPort := []
  /-- servo (record; 02 R50). -/
  servo : Servo := {}
  /-- lighthouse (record; 02 R52). -/
  lh : Lighthouse := {}
  /-- tide position (record; 02 R60). -/
  tide : Tide := {}
  /-- tide table (record; 02 R66). -/
  table : TideTable := {}
  /-- TSIN0 to TSIN3 (4 x record; 02 R74). -/
  tsin : Table TsIn := []
  /-- TSOUT0 to TSOUT3 (4 x record; 02 R75). -/
  tsout : Table TsOut := []
  /-- tap ports (record; 03 R93). -/
  tap : Tap := {}
  /-- analogue side (record; 04 R108). -/
  ana : Analog := {}
  /-- lanes 0 to 7 (8 x record; 05 R139). -/
  lanes : Table Lane := []
  /-- cell models (record; 06 R165). -/
  model : Model := {}
  /-- soundings and spring tides (record; 07 R203). -/
  sound : Sound := {}
  /-- balancing and thermal management (record; 08 R236). -/
  therm : Thermal := {}
  /-- safety layer (record; 09 R256). -/
  safety : Safety := {}
  /-- estate network, roles and pairs (record; 10 R288). -/
  net : Net := {}
  /-- tenants and signals (record; 11 R319). -/
  ten : Tenants := {}
  /-- queue fabric, DMA and memories (record; 13 R375). -/
  fab : Fabric := {}
  /-- mailboxes, host window and service sessions (record; 14 R397). -/
  mbox : Mbox := {}
  /-- container bus (record; 15 R426). -/
  can : CanBus := {}
  /-- serial store (record; 16 R441). -/
  store : Store := {}
  /-- event recorder (record; 16 R455). -/
  recorder : Recorder := {}
  /-- lifecycle, security, debug and update (record; 17 R462). -/
  sec : Security := {}
  /-- line power and start-up (record; 18 R488). -/
  power : Power := {}
  /-- what STATUS replies give in BEACHED (record; 06 R199). -/
  held : Option Held := none
  /-- what the module has put on its lines and networks since reset, newest first (transmit queues) (list; 10 R290, 03 R83). -/
  out : List Output := []
  /-- the model's own counter of free values used (counter; the model’s). -/
  fresh : Nat := 0
  /-- commands waiting, first in, first out; empty at reset (list; the model’s). -/
  pending : List Instr := []
  deriving DecidableEq, Repr

/-- Why a step stops. -/
inductive Fault where
  /-- An event names an object the module does not have (a port above 127, a lane above 7 ...); raised by the event
  rows. Such an event cannot arise, so the stop is safe (log entry 26). -/
  | noSuchObject
  deriving DecidableEq, Repr

/-- Why a command has no meaning. -/
inductive Refusal where
  /-- The command is not modelled; raised by an arm of `exec` alone; safe. -/
  | notModelled (mnemonic : String)
  deriving DecidableEq, Repr

/-- The module before power is applied: every field at its value at reset, no command waiting. -/
def State.reset : State := {}

end Sys2Proof.Machine
end

