-- ==== Sys2Proof/Machine/Access.lean ====
section
/-! DEFINITION. Reading and writing one record of a table of the state. -/

namespace Sys2Proof.Machine

open Sys2Proof

/-- The record at index `i` of a table; `d`, the record at reset, where the index is not listed. -/
def tget {α : Type} (d : α) : Table α → Nat → α
  | [], _ => d
  | (k, a) :: r, i => if k = i then a else tget d r i

/-- The table with `a` at index `i`, in ascending order. -/
def tset {α : Type} : Table α → Nat → α → Table α
  | [], i, a => [(i, a)]
  | (k, b) :: r, i, a =>
    if k = i then (i, a) :: r else if i < k then (i, a) :: (k, b) :: r else (k, b) :: tset r i a

/-- The tap port p (03 R93). -/
def State.port (s : State) (i : Nat) : Port := tget {} s.tap.ports i

/-- The state with another tap port p (03 R93). -/
def State.setPort (s : State) (i : Nat) (a : Port) : State := { s with tap := { s.tap with ports := tset s.tap.ports i a } }

/-- The state with the tap port p (03 R93) changed by `f`. -/
def State.updPort (s : State) (i : Nat) (f : Port → Port) : State := s.setPort i (f (s.port i))

/-- The analogue input k (04 R109). -/
def State.input (s : State) (i : Nat) : Input := tget {} s.ana.inputs i

/-- The state with another analogue input k (04 R109). -/
def State.setInput (s : State) (i : Nat) (a : Input) : State := { s with ana := { s.ana with inputs := tset s.ana.inputs i a } }

/-- The state with the analogue input k (04 R109) changed by `f`. -/
def State.updInput (s : State) (i : Nat) (f : Input → Input) : State := s.setInput i (f (s.input i))

/-- The SAR converter c (04 R108). -/
def State.conv (s : State) (i : Nat) : Converter := tget {} s.ana.conv i

/-- The state with another SAR converter c (04 R108). -/
def State.setConv (s : State) (i : Nat) (a : Converter) : State := { s with ana := { s.ana with conv := tset s.ana.conv i a } }

/-- The state with the SAR converter c (04 R108) changed by `f`. -/
def State.updConv (s : State) (i : Nat) (f : Converter → Converter) : State := s.setConv i (f (s.conv i))

/-- The integrating converter n (04 R121). -/
def State.icv (s : State) (i : Nat) : Icv := tget {} s.ana.icv i

/-- The state with another integrating converter n (04 R121). -/
def State.setIcv (s : State) (i : Nat) (a : Icv) : State := { s with ana := { s.ana with icv := tset s.ana.icv i a } }

/-- The state with the integrating converter n (04 R121) changed by `f`. -/
def State.updIcv (s : State) (i : Nat) (f : Icv → Icv) : State := s.setIcv i (f (s.icv i))

/-- The DAC output k (04 R128). -/
def State.dac (s : State) (i : Nat) : Dac := tget {} s.ana.dac i

/-- The state with another DAC output k (04 R128). -/
def State.setDac (s : State) (i : Nat) (a : Dac) : State := { s with ana := { s.ana with dac := tset s.ana.dac i a } }

/-- The state with the DAC output k (04 R128) changed by `f`. -/
def State.updDac (s : State) (i : Nat) (f : Dac → Dac) : State := s.setDac i (f (s.dac i))

/-- The tachometer input k (04 R131). -/
def State.tach (s : State) (i : Nat) : Tach := tget {} s.ana.tach i

/-- The state with another tachometer input k (04 R131). -/
def State.setTach (s : State) (i : Nat) (a : Tach) : State := { s with ana := { s.ana with tach := tset s.ana.tach i a } }

/-- The state with the tachometer input k (04 R131) changed by `f`. -/
def State.updTach (s : State) (i : Nat) (f : Tach → Tach) : State := s.setTach i (f (s.tach i))

/-- The lane n (05 R139). -/
def State.lane (s : State) (i : Nat) : Lane := tget {} s.lanes i

/-- The state with another lane n (05 R139). -/
def State.setLane (s : State) (i : Nat) (a : Lane) : State := { s with lanes := tset s.lanes i a }

/-- The state with the lane n (05 R139) changed by `f`. -/
def State.updLane (s : State) (i : Nat) (f : Lane → Lane) : State := s.setLane i (f (s.lane i))

/-- The cell at index 18 p + c (06 R165). -/
def State.cell (s : State) (i : Nat) : Cell := tget {} s.model.cells i

/-- The state with another cell at index 18 p + c (06 R165). -/
def State.setCell (s : State) (i : Nat) (a : Cell) : State := { s with model := { s.model with cells := tset s.model.cells i a } }

/-- The state with the cell at index 18 p + c (06 R165) changed by `f`. -/
def State.updCell (s : State) (i : Nat) (f : Cell → Cell) : State := s.setCell i (f (s.cell i))

/-- The model counters of port p (06 R202). -/
def State.modelCount (s : State) (i : Nat) : ModelCounters := tget {} s.model.counters i

/-- The state with another model counters of port p (06 R202). -/
def State.setModelCount (s : State) (i : Nat) (a : ModelCounters) : State := { s with model := { s.model with counters := tset s.model.counters i a } }

/-- The state with the model counters of port p (06 R202) changed by `f`. -/
def State.updModelCount (s : State) (i : Nat) (f : ModelCounters → ModelCounters) : State := s.setModelCount i (f (s.modelCount i))

/-- The soundings of lane n (07 R205). -/
def State.laneSound (s : State) (i : Nat) : LaneSound := tget {} s.sound.lanes i

/-- The state with another soundings of lane n (07 R205). -/
def State.setLaneSound (s : State) (i : Nat) (a : LaneSound) : State := { s with sound := { s.sound with lanes := tset s.sound.lanes i a } }

/-- The state with the soundings of lane n (07 R205) changed by `f`. -/
def State.updLaneSound (s : State) (i : Nat) (f : LaneSound → LaneSound) : State := s.setLaneSound i (f (s.laneSound i))

/-- The spring tide of lane n (07 R221). -/
def State.spring (s : State) (i : Nat) : Spring := tget {} s.sound.spring i

/-- The state with another spring tide of lane n (07 R221). -/
def State.setSpring (s : State) (i : Nat) (a : Spring) : State := { s with sound := { s.sound with spring := tset s.sound.spring i a } }

/-- The state with the spring tide of lane n (07 R221) changed by `f`. -/
def State.updSpring (s : State) (i : Nat) (f : Spring → Spring) : State := s.setSpring i (f (s.spring i))

/-- The balancing and thermal state of lane n (08 R236, R242). -/
def State.laneTherm (s : State) (i : Nat) : LaneTherm := tget {} s.therm.lanes i

/-- The state with another balancing and thermal state of lane n (08 R236, R242). -/
def State.setLaneTherm (s : State) (i : Nat) (a : LaneTherm) : State := { s with therm := { s.therm with lanes := tset s.therm.lanes i a } }

/-- The state with the balancing and thermal state of lane n (08 R236, R242) changed by `f`. -/
def State.updLaneTherm (s : State) (i : Nat) (f : LaneTherm → LaneTherm) : State := s.setLaneTherm i (f (s.laneTherm i))

/-- The balancing of port p (08 R234). -/
def State.balPort (s : State) (i : Nat) : BalPort := tget {} s.therm.ports i

/-- The state with another balancing of port p (08 R234). -/
def State.setBalPort (s : State) (i : Nat) (a : BalPort) : State := { s with therm := { s.therm with ports := tset s.therm.ports i a } }

/-- The state with the balancing of port p (08 R234) changed by `f`. -/
def State.updBalPort (s : State) (i : Nat) (f : BalPort → BalPort) : State := s.setBalPort i (f (s.balPort i))

/-- The sensor at index 6 p + i (08 R243). -/
def State.sensor (s : State) (i : Nat) : SensorState := tget {} s.therm.sensors i

/-- The state with another sensor at index 6 p + i (08 R243). -/
def State.setSensor (s : State) (i : Nat) (a : SensorState) : State := { s with therm := { s.therm with sensors := tset s.therm.sensors i a } }

/-- The state with the sensor at index 6 p + i (08 R243) changed by `f`. -/
def State.updSensor (s : State) (i : Nat) (f : SensorState → SensorState) : State := s.setSensor i (f (s.sensor i))

/-- The cooling loop k (08 R248). -/
def State.coolLoop (s : State) (i : Nat) : CoolLoop := tget {} s.therm.loops i

/-- The state with another cooling loop k (08 R248). -/
def State.setCoolLoop (s : State) (i : Nat) (a : CoolLoop) : State := { s with therm := { s.therm with loops := tset s.therm.loops i a } }

/-- The state with the cooling loop k (08 R248) changed by `f`. -/
def State.updCoolLoop (s : State) (i : Nat) (f : CoolLoop → CoolLoop) : State := s.setCoolLoop i (f (s.coolLoop i))

/-- The pump output k (08 R247). -/
def State.aux (s : State) (i : Nat) : AuxPwm := tget {} s.therm.aux i

/-- The state with another pump output k (08 R247). -/
def State.setAux (s : State) (i : Nat) (a : AuxPwm) : State := { s with therm := { s.therm with aux := tset s.therm.aux i a } }

/-- The state with the pump output k (08 R247) changed by `f`. -/
def State.updAux (s : State) (i : Nat) (f : AuxPwm → AuxPwm) : State := s.setAux i (f (s.aux i))

/-- The safety state of lane n (09 R270). -/
def State.laneSafe (s : State) (i : Nat) : LaneSafety := tget {} s.safety.lanes i

/-- The state with another safety state of lane n (09 R270). -/
def State.setLaneSafe (s : State) (i : Nat) (a : LaneSafety) : State := { s with safety := { s.safety with lanes := tset s.safety.lanes i a } }

/-- The state with the safety state of lane n (09 R270) changed by `f`. -/
def State.updLaneSafe (s : State) (i : Nat) (f : LaneSafety → LaneSafety) : State := s.setLaneSafe i (f (s.laneSafe i))

/-- The LAN state kept by SFB (09 R278). -/
def State.safeLan (s : State) (i : Nat) : SafeLan := tget {} s.safety.lans i

/-- The state with another LAN state kept by SFB (09 R278). -/
def State.setSafeLan (s : State) (i : Nat) (a : SafeLan) : State := { s with safety := { s.safety with lans := tset s.safety.lans i a } }

/-- The state with the LAN state kept by SFB (09 R278) changed by `f`. -/
def State.updSafeLan (s : State) (i : Nat) (f : SafeLan → SafeLan) : State := s.setSafeLan i (f (s.safeLan i))

/-- The plant port l (10 R288). -/
def State.netLan (s : State) (i : Nat) : NetLan := tget {} s.net.lans i

/-- The state with another plant port l (10 R288). -/
def State.setNetLan (s : State) (i : Nat) (a : NetLan) : State := { s with net := { s.net with lans := tset s.net.lans i a } }

/-- The state with the plant port l (10 R288) changed by `f`. -/
def State.updNetLan (s : State) (i : Nat) (f : NetLan → NetLan) : State := s.setNetLan i (f (s.netLan i))

/-- The tenant slot n (11 R319). -/
def State.slot (s : State) (i : Nat) : Slot := tget {} s.ten.slots i

/-- The state with another tenant slot n (11 R319). -/
def State.setSlot (s : State) (i : Nat) (a : Slot) : State := { s with ten := { s.ten with slots := tset s.ten.slots i a } }

/-- The state with the tenant slot n (11 R319) changed by `f`. -/
def State.updSlot (s : State) (i : Nat) (f : Slot → Slot) : State := s.setSlot i (f (s.slot i))

/-- The graph engine k (11 R325). -/
def State.engine (s : State) (i : Nat) : Engine := tget {} s.ten.engines i

/-- The state with another graph engine k (11 R325). -/
def State.setEngine (s : State) (i : Nat) (a : Engine) : State := { s with ten := { s.ten with engines := tset s.ten.engines i a } }

/-- The state with the graph engine k (11 R325) changed by `f`. -/
def State.updEngine (s : State) (i : Nat) (f : Engine → Engine) : State := s.setEngine i (f (s.engine i))

/-- The local signal slot (11 R335). -/
def State.sigLocal (s : State) (i : Nat) : SigVal := tget {} s.ten.local_ i

/-- The state with another local signal slot (11 R335). -/
def State.setSigLocal (s : State) (i : Nat) (a : SigVal) : State := { s with ten := { s.ten with local_ := tset s.ten.local_ i a } }

/-- The state with the local signal slot (11 R335) changed by `f`. -/
def State.updSigLocal (s : State) (i : Nat) (f : SigVal → SigVal) : State := s.setSigLocal i (f (s.sigLocal i))

/-- The estate signal slot (11 R337). -/
def State.sigEstate (s : State) (i : Nat) : SigVal := tget {} s.ten.estate i

/-- The state with another estate signal slot (11 R337). -/
def State.setSigEstate (s : State) (i : Nat) (a : SigVal) : State := { s with ten := { s.ten with estate := tset s.ten.estate i a } }

/-- The state with the estate signal slot (11 R337) changed by `f`. -/
def State.updSigEstate (s : State) (i : Nat) (f : SigVal → SigVal) : State := s.setSigEstate i (f (s.sigEstate i))

/-- The ownership of an estate handle (11 R339). -/
def State.sigOwner (s : State) (i : Nat) : EstateSig := tget {} s.ten.owners i

/-- The state with another ownership of an estate handle (11 R339). -/
def State.setSigOwner (s : State) (i : Nat) (a : EstateSig) : State := { s with ten := { s.ten with owners := tset s.ten.owners i a } }

/-- The state with the ownership of an estate handle (11 R339) changed by `f`. -/
def State.updSigOwner (s : State) (i : Nat) (f : EstateSig → EstateSig) : State := s.setSigOwner i (f (s.sigOwner i))

/-- The queue q (13 R381). -/
def State.queue (s : State) (i : Nat) : Queue := tget {} s.fab.queues i

/-- The state with another queue q (13 R381). -/
def State.setQueue (s : State) (i : Nat) (a : Queue) : State := { s with fab := { s.fab with queues := tset s.fab.queues i a } }

/-- The state with the queue q (13 R381) changed by `f`. -/
def State.updQueue (s : State) (i : Nat) (f : Queue → Queue) : State := s.setQueue i (f (s.queue i))

/-- The DMA channel c (13 R382). -/
def State.channel (s : State) (i : Nat) : Channel := tget {} s.fab.channels i

/-- The state with another DMA channel c (13 R382). -/
def State.setChannel (s : State) (i : Nat) (a : Channel) : State := { s with fab := { s.fab with channels := tset s.fab.channels i a } }

/-- The state with the DMA channel c (13 R382) changed by `f`. -/
def State.updChannel (s : State) (i : Nat) (f : Channel → Channel) : State := s.setChannel i (f (s.channel i))

/-- The CAN controller c (15 R426). -/
def State.canCtl (s : State) (i : Nat) : Can := tget {} s.can.ctl i

/-- The state with another CAN controller c (15 R426). -/
def State.setCanCtl (s : State) (i : Nat) (a : Can) : State := { s with can := { s.can with ctl := tset s.can.ctl i a } }

/-- The state with the CAN controller c (15 R426) changed by `f`. -/
def State.updCanCtl (s : State) (i : Nat) (f : Can → Can) : State := s.setCanCtl i (f (s.canCtl i))

/-- The store device d (16 R441). -/
def State.device (s : State) (i : Nat) : Device := tget {} s.store.devs i

/-- The state with another store device d (16 R441). -/
def State.setDevice (s : State) (i : Nat) (a : Device) : State := { s with store := { s.store with devs := tset s.store.devs i a } }

/-- The state with the store device d (16 R441) changed by `f`. -/
def State.updDevice (s : State) (i : Nat) (f : Device → Device) : State := s.setDevice i (f (s.device i))

/-- The PTP port l (02 R44). -/
def State.ptpPort (s : State) (i : Nat) : PtpPort := tget {} s.ptp i

/-- The state with another PTP port l (02 R44). -/
def State.setPtpPort (s : State) (i : Nat) (a : PtpPort) : State := { s with ptp := tset s.ptp i a }

/-- The state with the PTP port l (02 R44) changed by `f`. -/
def State.updPtpPort (s : State) (i : Nat) (f : PtpPort → PtpPort) : State := s.setPtpPort i (f (s.ptpPort i))

/-- The capture input k (02 R74). -/
def State.tsIn (s : State) (i : Nat) : TsIn := tget {} s.tsin i

/-- The state with another capture input k (02 R74). -/
def State.setTsIn (s : State) (i : Nat) (a : TsIn) : State := { s with tsin := tset s.tsin i a }

/-- The state with the capture input k (02 R74) changed by `f`. -/
def State.updTsIn (s : State) (i : Nat) (f : TsIn → TsIn) : State := s.setTsIn i (f (s.tsIn i))

/-- The trigger output k (02 R75). -/
def State.tsOut (s : State) (i : Nat) : TsOut := tget {} s.tsout i

/-- The state with another trigger output k (02 R75). -/
def State.setTsOut (s : State) (i : Nat) (a : TsOut) : State := { s with tsout := tset s.tsout i a }

/-- The state with the trigger output k (02 R75) changed by `f`. -/
def State.updTsOut (s : State) (i : Nat) (f : TsOut → TsOut) : State := s.setTsOut i (f (s.tsOut i))

/-- The plant port as a power input (18 R481). -/
def State.powerPort (s : State) (i : Nat) : PowerPort := tget {} s.power.ports i

/-- The state with another plant port as a power input (18 R481). -/
def State.setPowerPort (s : State) (i : Nat) (a : PowerPort) : State := { s with power := { s.power with ports := tset s.power.ports i a } }

/-- The state with the plant port as a power input (18 R481) changed by `f`. -/
def State.updPowerPort (s : State) (i : Nat) (f : PowerPort → PowerPort) : State := s.setPowerPort i (f (s.powerPort i))

/-- The image slot (17 R472). -/
def State.imgSlot (s : State) (i : Nat) : ImgSlot := tget {} s.sec.slots i

/-- The state with another image slot (17 R472). -/
def State.setImgSlot (s : State) (i : Nat) (a : ImgSlot) : State := { s with sec := { s.sec with slots := tset s.sec.slots i a } }

/-- The state with the image slot (17 R472) changed by `f`. -/
def State.updImgSlot (s : State) (i : Nat) (f : ImgSlot → ImgSlot) : State := s.setImgSlot i (f (s.imgSlot i))

/-- The tide-table entry e (02 R66). -/
def State.entry (s : State) (i : Nat) : TideEntry := tget {} s.table.entries i

/-- The state with another tide-table entry e (02 R66). -/
def State.setEntry (s : State) (i : Nat) (a : TideEntry) : State := { s with table := { s.table with entries := tset s.table.entries i a } }

/-- The state with the tide-table entry e (02 R66) changed by `f`. -/
def State.updEntry (s : State) (i : Nat) (f : TideEntry → TideEntry) : State := s.setEntry i (f (s.entry i))

/-- The lighthouse instance (02 R58). -/
def State.inst (s : State) (i : Nat) : TideInst := tget {} s.tide.inst i

/-- The state with another lighthouse instance (02 R58). -/
def State.setInst (s : State) (i : Nat) (a : TideInst) : State := { s with tide := { s.tide with inst := tset s.tide.inst i a } }

/-- The state with the lighthouse instance (02 R58) changed by `f`. -/
def State.updInst (s : State) (i : Nat) (f : TideInst → TideInst) : State := s.setInst i (f (s.inst i))

/-- The counters of a mailbox path (14 R425). -/
def State.pathCount (s : State) (i : Nat) : PathCount := tget {} s.mbox.counts i

/-- The state with another counters of a mailbox path (14 R425). -/
def State.setPathCount (s : State) (i : Nat) (a : PathCount) : State := { s with mbox := { s.mbox with counts := tset s.mbox.counts i a } }

/-- The state with the counters of a mailbox path (14 R425) changed by `f`. -/
def State.updPathCount (s : State) (i : Nat) (f : PathCount → PathCount) : State := s.setPathCount i (f (s.pathCount i))

end Sys2Proof.Machine
end

