-- ==== Sys2Proof/Machine/Events.lean ====
section
/-! DEFINITION. The event codes of the recorder (16 R456, 17 R479, 18 R496), which of them are alarms, and their
severities (16 R516). -/

namespace Sys2Proof.Machine

/-! Area MODULE, 0x01. -/
abbrev evBeachStart : Nat := 0x0101
abbrev evBeachedAt : Nat := 0x0102
abbrev evBeached : Nat := 0x0103
abbrev evRefloat : Nat := 0x0104
abbrev evRefloated : Nat := 0x0105
abbrev evRoleDropped : Nat := 0x0106

/-! Area TIME, 0x03. -/
abbrev evTimeDisagree : Nat := 0x0301
abbrev evInsertionAbort : Nat := 0x0302

/-! Area TIDE, 0x04. -/
abbrev evTideRecount : Nat := 0x0401
abbrev evLighthouseDisagree : Nat := 0x0402
abbrev evPhaseSequence : Nat := 0x0403
abbrev evTideQuality : Nat := 0x0404

/-! Area TAP, 0x06. -/
abbrev evTapNewSerial : Nat := 0x0601
abbrev evAlignLost : Nat := 0x0602
abbrev evTapStall : Nat := 0x0603
abbrev evTapFailed : Nat := 0x0604
abbrev evTapPortFault : Nat := 0x0605

/-! Area ANALOG, 0x07. -/
abbrev evTripSample : Nat := 0x0701
abbrev evCalCommitted : Nat := 0x0702

/-! Area LANE, 0x0B. -/
abbrev evLaneRun : Nat := 0x0B01
abbrev evLaneDisarmed : Nat := 0x0B02
abbrev evLaneTrip : Nat := 0x0B03
abbrev evArmAborted : Nat := 0x0B04
abbrev evDisarmForced : Nat := 0x0B05
abbrev evPrechargeFail : Nat := 0x0B06
abbrev evWeld : Nat := 0x0B07
abbrev evWeldSuspect : Nat := 0x0B08

/-! Area MODEL, 0x0C. -/
abbrev evModelRough : Nat := 0x0C01
abbrev evModelDiverged : Nat := 0x0C02
abbrev evSlackEnter : Nat := 0x0C03
abbrev evSlackExit : Nat := 0x0C04
abbrev evLearnVolatile : Nat := 0x0C05

/-! Area SOUND, 0x0D. -/
abbrev evSoundStepEnd : Nat := 0x0D01
abbrev evSoundSetComplete : Nat := 0x0D02

/-! Area SPRING, 0x0E. -/
abbrev evSpringComplete : Nat := 0x0E01
abbrev evSpringFailed : Nat := 0x0E02

/-! Area BALANCE, 0x0F. -/
abbrev evBalTestFail : Nat := 0x0F01
abbrev evBalSwitchFault : Nat := 0x0F02
abbrev evBalTestOverdue : Nat := 0x0F03

/-! Area THERMAL, 0x10. -/
abbrev evThermalWarn : Nat := 0x1001
abbrev evThermalPrecursor : Nat := 0x1002
abbrev evTempSensorLost : Nat := 0x1003

/-! Area COOLING, 0x11. -/
abbrev evCoolingLost : Nat := 0x1101

/-! Area DIE, 0x12. -/
abbrev evDieShed : Nat := 0x1201
abbrev evDieEnforce : Nat := 0x1202
abbrev evDieSensorBroken : Nat := 0x1203

/-! Area SAFETY, 0x13. -/
abbrev evEstopDiscrepancy : Nat := 0x1301
abbrev evClearStuck : Nat := 0x1302
abbrev evLatchReleased : Nat := 0x1303
abbrev evClearRefused : Nat := 0x1304
abbrev evLanDown : Nat := 0x1305
abbrev evLanUp : Nat := 0x1306
abbrev evBareRockEnter : Nat := 0x1307
abbrev evNetworkFault : Nat := 0x1308
abbrev evSafeOutFault : Nat := 0x1309
abbrev evFaultTransient : Nat := 0x130A
abbrev evFaultLasting : Nat := 0x130B

/-! Area NET, 0x14. -/
abbrev evPathDown : Nat := 0x1401
abbrev evPathUp : Nat := 0x1402
abbrev evGapSkipped : Nat := 0x1403
abbrev evRoleConflict : Nat := 0x1404

/-! Area BERTH, 0x15. -/
abbrev evBerthOneLan : Nat := 0x1501
abbrev evBerthConflict : Nat := 0x1502
abbrev evBerthUnmapped : Nat := 0x1503
abbrev evBerthDuplicate : Nat := 0x1504
abbrev evBerthCableChange : Nat := 0x1505

/-! Area ESTATE, 0x16. -/
abbrev evChangeApplied : Nat := 0x1601
abbrev evChangeSplit : Nat := 0x1602

/-! Area TENANT, 0x18. -/
abbrev evTenantFault : Nat := 0x1801
abbrev evEngineFault : Nat := 0x1802

/-! Area PAIR, 0x1B. -/
abbrev evPairAssignMismatch : Nat := 0x1B01
abbrev evHelmConflict : Nat := 0x1B02
abbrev evHelmFenced : Nat := 0x1B03
abbrev evHelmTaken : Nat := 0x1B04
abbrev evTakeoverStale : Nat := 0x1B05
abbrev evMismatchUnresolved : Nat := 0x1B06
abbrev evPairDegraded : Nat := 0x1B07
abbrev evTwinLaneDown : Nat := 0x1B08
abbrev evFormatGap : Nat := 0x1B09

/-! Area CAN, 0x1E. -/
abbrev evCanBusOff : Nat := 0x1E01

/-! Area STORE, 0x1F. -/
abbrev evCommitDone : Nat := 0x1F01
abbrev evStoreDeferred : Nat := 0x1F02
abbrev evHoldupMeasured : Nat := 0x1F03
abbrev evHoldupLow : Nat := 0x1F04
abbrev evWearWatch : Nat := 0x1F05
abbrev evSectorRetired : Nat := 0x1F06
abbrev evKeyEventsOnly : Nat := 0x1F07
abbrev evStoreDegraded : Nat := 0x1F08
abbrev evScrubRepair : Nat := 0x1F09
abbrev evSettingsVolatile : Nat := 0x1F0A

/-! Area EVENT, 0x20. -/
abbrev evRecordsLost : Nat := 0x2001

/-! Area LIFECYCLE, 0x21. -/
abbrev evLifecycleTurn : Nat := 0x2101
abbrev evLifecycleSeal : Nat := 0x2102
abbrev evLifecycleParted : Nat := 0x2103
abbrev evSessionOpen : Nat := 0x2104
abbrev evSessionClose : Nat := 0x2105
abbrev evSessionRefused : Nat := 0x2106
abbrev evServiceLockout : Nat := 0x2107

/-! Area DEBUG, 0x22. -/
abbrev evDebugLevel : Nat := 0x2201

/-! Area UPDATE, 0x23. -/
abbrev evImageWritten : Nat := 0x2301
abbrev evImageBooted : Nat := 0x2302
abbrev evImageRejected : Nat := 0x2303
abbrev evImageTrialFailed : Nat := 0x2304
abbrev evRollbackAdvanced : Nat := 0x2305
abbrev evRecovery : Nat := 0x2306

/-! Area POWER, 0x24. -/
abbrev evPowerFail : Nat := 0x2401
abbrev evPowerOnePort : Nat := 0x2402
abbrev evBoardSupplyFault : Nat := 0x2403
abbrev evBrownoutRestart : Nat := 0x2404
abbrev evStartStage : Nat := 0x2405
abbrev evStartSlow : Nat := 0x2406
abbrev evPartingStart : Nat := 0x2407
abbrev evPartingDone : Nat := 0x2408

/-- The events marked (A). -/
def alarmCodes : List Nat :=
  [evTapFailed, evLearnVolatile, evBalSwitchFault, evBalTestOverdue, evTempSensorLost, evCoolingLost, 
   evDieSensorBroken, evNetworkFault, evSafeOutFault, evPairDegraded, evCanBusOff, evStoreDeferred, evHoldupLow, 
   evWearWatch, evKeyEventsOnly, evStoreDegraded, evSettingsVolatile, evImageRejected, evImageTrialFailed, 
   evRecovery, evPowerOnePort, evBoardSupplyFault, evStartSlow]

/-- The WARN events of 16 R516, in its order (first half). -/
def warnCodesA : List Nat :=
  [evTimeDisagree, evInsertionAbort, evTideRecount, evLighthouseDisagree, evPhaseSequence, evAlignLost, 
   evTapStall, evTapPortFault, evRoleDropped, evArmAborted, evDisarmForced, evPrechargeFail, evWeld, 
   evWeldSuspect, evModelDiverged, evSpringFailed, evBalTestFail, evThermalWarn, evThermalPrecursor, evDieShed, 
   evDieEnforce, evEstopDiscrepancy, evClearStuck, evClearRefused, evLanDown, evBareRockEnter]

/-- The WARN events of 16 R516, in its order (second half). -/
def warnCodesB : List Nat :=
  [evFaultTransient, evFaultLasting, evPathDown, evGapSkipped, evRoleConflict, evBerthOneLan, evBerthConflict, 
   evBerthUnmapped, evBerthDuplicate, evBerthCableChange, evChangeSplit, evTenantFault, evEngineFault, 
   evPairAssignMismatch, evHelmConflict, evHelmFenced, evTakeoverStale, evMismatchUnresolved, evTwinLaneDown, 
   evFormatGap, evSectorRetired, evScrubRepair, evRecordsLost, evSessionRefused, evServiceLockout, evPowerFail, 
   evBrownoutRestart]

/-- The event is an alarm (16 R456). -/
def isAlarm (code : Nat) : Bool := alarmCodes.contains code

/-- SEVERITY of an event (16 R516): 3 TRIP, 2 ALARM, 1 WARN, 0 INFO. -/
def severityOf (code : Nat) : Nat :=
  if code = evLaneTrip then 3 else if isAlarm code then 2
  else if warnCodesA.contains code || warnCodesB.contains code then 1 else 0

/-- SOURCE of an event by its area (16 R516), before the exceptions for POWER_FAIL and LANE_TRIP; `lanB` says that it
was observed only on LAN B. -/
def sourceOf (code : Nat) (lanB : Bool) : Nat :=
  let area := code / 256
  if code = evPowerFail then 6
  else if area = 0x10 || area = 0x12 then 4
  else if area = 0x13 then 5
  else if area = 3 || area = 4 || area = 0x14 || area = 0x15 || area = 0x16 then (if lanB then 3 else 2)
  else if area = 0x1F || area = 0x20 || area = 0x21 || area = 0x22 || area = 0x23 || area = 0x24 then 1
  else 0

end Sys2Proof.Machine
end

