-- ==== Sys2Proof/Machine/Ops.lean ====
section
/-! DEFINITION. The operations the meanings share: numbers, bytes, checks, the clock, the tide position, event records,
memories and queue rings. -/

namespace Sys2Proof.Machine

open Sys2Proof

/-! ## Numbers (00 R3, R4) -/

/-- A counter of 64 bits, one higher. -/
def inc64 (n : Nat) : Nat := (n + 1) % 2 ^ 64
/-- A saturating counter of `w` bits, one higher. -/
def satInc (w n : Nat) : Nat := min (n + 1) (2 ^ w - 1)
/-- The signed number that the low `w` bits of `v` stand for. -/
def toSigned (w v : Nat) : Int :=
  if v % 2 ^ w < 2 ^ (w - 1) then ((v % 2 ^ w : Nat) : Int) else ((v % 2 ^ w : Nat) : Int) - (2 ^ w : Nat)
/-- The `w` bits of a signed number. -/
def ofSigned (w : Nat) (v : Int) : Nat := (v % ((2 ^ w : Nat) : Int)).toNat
/-- A signed number wrapped to `w` bits. -/
def wrapS (w : Nat) (v : Int) : Int := toSigned w (ofSigned w v)
/-- A number held between two limits. -/
def clampI (lo hi v : Int) : Int := max lo (min v hi)
/-- A signed number saturated at `w` bits. -/
def satS (w : Nat) (v : Int) : Int := clampI (-((2 ^ (w - 1) : Nat) : Int)) ((2 ^ (w - 1) : Nat) - 1) v
/-- The number lies in a range. -/
def within (lo hi v : Nat) : Bool := decide (lo ≤ v ∧ v ≤ hi)
/-- The signed number lies in a range. -/
def withinI (lo hi v : Int) : Bool := decide (lo ≤ v ∧ v ≤ hi)
/-- Rounding to the nearest integer, a half upward. -/
def roundQ (q : Rat) : Int := (q + 1 / 2).floor
/-- A bit mask with bit `i` set or clear. -/
def setBit (m i : Nat) (b : Bool) : Nat := if b then m ||| 2 ^ i else m - (m &&& 2 ^ i)
/-- The numbers below `n` whose bit is set in a mask, ascending. -/
def bitsOf (n m : Nat) : List Nat := (List.range n).filter fun i => m.testBit i
/-- The mask of a list of bit numbers. -/
def maskOf : List Nat → Nat
  | [] => 0
  | i :: r => 2 ^ i ||| maskOf r
/-- The median of a list (the mean of the two middle values, rounded down, when their number is even); 0 for none. -/
def median (l : List Int) : Int :=
  let t := l.mergeSort (· ≤ ·)
  let n := t.length
  if n = 0 then 0
  else if n % 2 = 1 then t.getD (n / 2) 0
  else (t.getD (n / 2 - 1) 0 + t.getD (n / 2) 0).fdiv 2
/-- The time `b` is at least `d` after `a`. -/
def elapsed (a d b : Nat) : Bool := decide (a + d ≤ b)
/-- `b` is at least `d` after the time held, if one is held. -/
def elapsedO (a : Option Nat) (d b : Nat) : Bool := match a with | none => false | some t => elapsed t d b

/-- The time since which a condition has held. -/
def since (held : Option Nat) (now : Nat) (c : Bool) : Option Nat := if c then some (held.getD now) else none

/-- Repeat an action, at most `n` times, until it has nothing to do. -/
def repeatWhile {α : Type} (f : α → Option α) : Nat → α → α
  | 0, s => s
  | n + 1, s => match f s with | none => s | some t => repeatWhile f n t
/-- Repeat an action `n` times; none where one of them fails. -/
def repeatAll {α : Type} (f : α → Option α) : Nat → α → Option α
  | 0, s => some s
  | n + 1, s => match f s with | none => none | some t => repeatAll f n t
/-- Take the elements of a list in order until one cannot be taken; what is left. -/
def takeEach {α β : Type} (f : α → β → Option α) : List β → α → α × List β
  | [], s => (s, [])
  | x :: r, s => match f s x with | none => (s, x :: r) | some t => takeEach f r t

/-! ## Bytes (00 R9, R10) -/

/-- `n` bytes of a number, least significant first. -/
def leBytes : Nat → Nat → List Byte
  | 0, _ => []
  | n + 1, v => BitVec.ofNat 8 v :: leBytes n (v / 256)
/-- `n` bytes of a number, most significant first. -/
def beBytes (n v : Nat) : List Byte := (leBytes n v).reverse
/-- The number that bytes hold, least significant first. -/
def ofLe : List Byte → Nat
  | [] => 0
  | b :: r => b.toNat + 256 * ofLe r
/-- The number that bytes hold, most significant first. -/
def ofBe (l : List Byte) : Nat := ofLe l.reverse
/-- `n` bytes from offset `o`. -/
def slice (l : List Byte) (o n : Nat) : List Byte := (l.drop o).take n
/-- The little-endian number of `n` bytes at offset `o`. -/
def leAt (l : List Byte) (o n : Nat) : Nat := ofLe (slice l o n)
/-- The big-endian number of `n` bytes at offset `o`. -/
def beAt (l : List Byte) (o n : Nat) : Nat := ofBe (slice l o n)
/-- A list of bytes padded with zeros, or cut, to `n`. -/
def fitBytes (n : Nat) (l : List Byte) : List Byte := (l ++ List.replicate (n - l.length) 0).take n

/-! ## Checks -/

/-- Eight steps of a reflected CRC on its register. -/
def crcStepR (poly : Nat) : Nat → Nat → Nat
  | 0, c => c
  | k + 1, c => crcStepR poly k (if c % 2 = 1 then (c / 2) ^^^ poly else c / 2)
/-- A reflected 32-bit CRC, register and result inverted. -/
def crc32R (poly : Nat) (l : List Byte) : Nat :=
  (l.foldl (fun c b => crcStepR poly 8 (c ^^^ b.toNat)) 0xFFFFFFFF) ^^^ 0xFFFFFFFF
/-- CRC-32 with the IEEE 802.3 polynomial (06 R178). -/
def crc32 (l : List Byte) : Nat := crc32R 0xEDB88320 l
/-- CRC-32C (09 R276). -/
def crc32c (l : List Byte) : Nat := crc32R 0x82F63B78 l

/-! ## The clock (02 R42) -/

/-- The clock's integer nanoseconds. -/
def State.now (s : State) : Nat := s.clock.ns
/-- The state at the time an event carries; the clock never goes back. -/
def State.atTime (s : State) (t : Nat) : State :=
  if s.clock.ns < t then { s with clock := { s.clock with ns := t } } else s
/-- TIME_OK (09 R275). -/
def State.timeOk (s : State) : Bool :=
  s.servo.state == .locked || (s.servo.state == .holdover && !elapsedO s.servo.holdoverSince 10000000000 s.now)
/-- One tick of the 125 MHz clock: INCR is added to the nanoseconds and their fraction (02 R42). -/
def clockTick (c : Clock) : Clock :=
  let v := c.ns * 2 ^ 32 + c.frac + c.incr
  { c with ns := v / 2 ^ 32 % 2 ^ 64, frac := v % 2 ^ 32 }

/-! ## The tide position (00 R8, 02 R61) -/

/-- Tide units per nanosecond at a frequency in µHz. -/
def tideRate (freqUhz : Nat) : Rat := (freqUhz * 65536 : Nat) / (10 ^ 15 : Nat)
/-- The period of a frequency in nanoseconds, rounded down. -/
def periodNs (freqUhz : Nat) : Nat := 10 ^ 15 / freqUhz
/-- The extrapolated position at a clock time, with its fraction: the corrected rate up to the end of the correction
period, the grid rate after it. -/
def Tide.posAt (td : Tide) (t : Nat) : Rat :=
  let r := tideRate td.freqUhz
  let a : Rat := td.anchorNs
  let x : Rat := t
  match td.corrEnd with
  | none => td.anchorPos + (x - a) * r
  | some e =>
    let c : Rat := 1 + (td.corrE : Rat) / (2 ^ 32 : Nat)
    if t ≤ e then td.anchorPos + (x - a) * r * c else td.anchorPos + ((e : Rat) - a) * r * c + (x - e) * r
/-- The exchanged 64-bit tide position at a clock time. -/
def State.posAt (s : State) (t : Nat) : Nat := ((s.tide.posAt t).floor % (2 ^ 64 : Nat)).toNat
/-- The tide position now. -/
def State.pos (s : State) : Nat := s.posAt s.now
/-- The cycle count of a position. -/
def cycleOf (p : Nat) : Nat := p / 65536
/-- Base strobes per grid cycle of a grid of that frequency (02 R68). -/
def baseRepeat (hz : Nat) : Nat := if hz = 60 then 17 else 20

/-! ## Events and alarms (16 R455 to R457, R515, R516) -/

/-- SFB writes the records itself in BEACHED and BARE ROCK. -/
def State.rockRecords (s : State) : Bool := s.power.state == .beached || s.power.state == .bareRock
/-- Sectors of a device that are bad and have no spare (16 R452, R453). -/
def Device.lost (d : Device) : List Nat := d.badSectors.filter fun k => !(d.remap.any fun x => x.1 == k)
/-- Records that the ring holds: 1,024 fewer for each recorder sector that is skipped (16 R453, R457). -/
def State.ringCap (s : State) : Nat :=
  let bad := (s.device 0).lost ++ (s.device 1).lost
  2096128 - 1024 * (((List.range 2048).map (· + 2048)).filter fun k => bad.contains k).length
/-- A ring, newest first, that keeps at least `cap` records: the oldest 1,024 go when the next sector is erased (16 R457). -/
def ringKeep (cap : Nat) (l : List EventRec) : List EventRec :=
  if l.length < cap then l else l.take (cap + (l.length - cap) % 1024)
/-- The records gathered are written to the ring: SFB writes from now on, and SEQ goes on in the ring's order (DEDUCED, log
entry 166). -/
def State.flushCache (s : State) : State :=
  { s with recorder := { s.recorder with ring := ringKeep s.ringCap (s.recorder.cache.reverse ++ s.recorder.ring), cache := [] } }
/-- Keep a record: SEQ is assigned to records kept alone; in BEACHED and BARE ROCK it is written to the ring with ROCK. -/
def State.keepRecord (s : State) (r : EventRec) : State :=
  let r := { r with seq := s.recorder.nextSeq }
  if s.rockRecords then
    { s with recorder := { s.recorder with
        ring := ringKeep s.ringCap ({ r with rock := true, source := 5 } :: s.recorder.ring)
        nextSeq := inc64 s.recorder.nextSeq } }
  else if s.recorder.cache.length < 65536 then
    { s with recorder := { s.recorder with cache := s.recorder.cache ++ [r], nextSeq := inc64 s.recorder.nextSeq } }
  else { s with recorder := { s.recorder with lostNow := s.recorder.lostNow + 1, lostTotal := inc64 s.recorder.lostTotal } }
/-- Record an event at the clock time. -/
def State.event (s : State) (code objKind object : Nat) (cause : Nat := 0) (v0 v1 v2 : Option Int := none)
    (src : Option Nat := none) (lanB : Bool := false) (cleared : Bool := false) (at_ : Option Nat := none) : State :=
  s.keepRecord
    { time := s.now, position := at_.getD s.pos, code := code, objKind := objKind, object := object, cause := cause
      v0 := v0, v1 := v1, v2 := v2, severity := severityOf code, source := src.getD (sourceOf code lanB)
      cleared := cleared }
/-- The alarm of a code and object is active. -/
def State.alarmOn (s : State) (code objKind object : Nat) : Bool :=
  s.recorder.alarms.any fun a => a.code == code && a.objKind == objKind && a.object == object
/-- Raise an alarm that is not yet active. -/
def State.raise (s : State) (code objKind object : Nat) (cause : Nat := 0) (v0 v1 : Option Int := none) : State :=
  if s.alarmOn code objKind object then s
  else
    let s1 := s.event code objKind object cause v0 v1
    { s1 with recorder := { s1.recorder with alarms := ⟨code, objKind, object, s.now⟩ :: s1.recorder.alarms } }
/-- The alarms that are active by the records of a ring, newest first (16 R456). -/
def ringAlarms : List EventRec → List Alarm
  | [] => []
  | r :: l =>
    let rest := (ringAlarms l).filter fun a => !(a.code == r.code && a.objKind == r.objKind && a.object == r.object)
    if !isAlarm r.code then ringAlarms l else if r.cleared then rest else ⟨r.code, r.objKind, r.object, r.time⟩ :: rest
/-- End an alarm that is active. -/
def State.clearAlarm (s : State) (code objKind object : Nat) (cause : Nat := 0) : State :=
  if s.alarmOn code objKind object then
    let s1 := s.event code objKind object cause (cleared := true)
    { s1 with recorder := { s1.recorder with
        alarms := s1.recorder.alarms.filter fun a => !(a.code == code && a.objKind == objKind && a.object == object) } }
  else s

/-! ## Memories (01 R24, R25, R27): sorted cells, a byte not listed reads 0 -/

/-- The byte at an address. -/
def readByte : List Host.Cell → Nat → Byte
  | [], _ => 0
  | (k, b) :: r, a => if k = a then b else readByte r a
/-- The memory with another byte at an address. -/
def writeByte : List Host.Cell → Nat → Byte → List Host.Cell
  | [], a, b => if b = 0 then [] else [(a, b)]
  | (k, c) :: r, a, b =>
    if a < k then (if b = 0 then (k, c) :: r else (a, b) :: (k, c) :: r)
    else if a = k then (if b = 0 then r else (a, b) :: r)
    else (k, c) :: writeByte r a b
/-- `n` bytes from an address. -/
def readBytes (m : List Host.Cell) (a : Nat) : Nat → List Byte
  | 0 => []
  | n + 1 => readByte m a :: readBytes m (a + 1) n
/-- The memory with bytes stored from an address. -/
def writeBytes (m : List Host.Cell) (a : Nat) : List Byte → List Host.Cell
  | [] => m
  | b :: r => writeBytes (writeByte m a b) (a + 1) r
/-- The canonical form of a memory: addresses strictly rising, no cell equal to what an unlisted address reads as. -/
def Memory.wf (m : List Host.Cell) : Bool :=
  decide (m.Pairwise fun x y => x.1 < y.1) && m.all fun c => c.2 != 0
/-- Bytes of LPDDR5. -/
def State.lpRead (s : State) (a n : Nat) : List Byte := readBytes s.fab.lpddr a n
/-- LPDDR5 with bytes stored. -/
def State.lpWrite (s : State) (a : Nat) (l : List Byte) : State :=
  { s with fab := { s.fab with lpddr := writeBytes s.fab.lpddr a l } }

/-- Start of the queue ring region in LPDDR5: the regions of 01 R25 in the order of its table (log entry 31). -/
def ringRegion : Nat := 2624 * 1048576
/-- Start of the tenant pool in LPDDR5 (log entry 31). -/
def poolRegion : Nat := 128 * 1048576

/-! ## Queue rings (13 R375 to R380) -/

/-- Entries in a queue. -/
def Queue.fill (q : Queue) : Nat := (q.pi + 2 ^ 32 - q.ci) % 2 ^ 32
/-- Entries a queue holds when full. -/
def Queue.size (q : Queue) : Nat := 2 ^ q.k
/-- The address of entry `i`. -/
def Queue.slotAddr (q : Queue) (i : Nat) : Nat := q.base + (i % q.size) * 64
/-- Raise an MSI-X vector. -/
def State.msixRaise (s : State) (v : Nat) : State := { s with mbox := { s.mbox with msix := s.mbox.msix ++ [v] } }
/-- Insert in an ascending list without repeats. -/
def insertAsc (a : Nat) : List Nat → List Nat
  | [] => [a]
  | b :: r => if a = b then b :: r else if a < b then a :: b :: r else b :: insertAsc a r
/-- The notice of a queue to a HOST consumer (13 R380, 14 R411): vectors 1 to 4 for the response queues of mailboxes 0
to 3, else the pending bit and vector 8 + (q mod 24). -/
def State.notice (s : State) (q : Nat) : State :=
  if (s.queue q).cons = 2 then
    if q = 17 || q = 19 || q = 21 || q = 23 then s.msixRaise (1 + (q - 17) / 2)
    else
      let s1 := { s with mbox := { s.mbox with noticePending := insertAsc q s.mbox.noticePending } }
      s1.msixRaise (8 + q % 24)
  else s
/-- The queue takes one more entry than it held; its notice follows when the level crosses THRESHOLD upward. -/
def State.queueMoved (s : State) (q fill0 : Nat) (force : Bool := false) : State :=
  let x := s.queue q
  if force || (x.threshold ≠ 0 && fill0 < x.threshold && x.threshold ≤ x.fill) then s.notice q else s
/-- A HARDWARE put of one 64-byte entry by an agent that is no DMA channel: dropped and counted when the queue is full. -/
def State.queuePut (s : State) (q : Nat) (entry : List Byte) : State :=
  let x := s.queue q
  if x.k = 0 then s
  else if x.size ≤ x.fill then s.setQueue q { x with fullDrops := satInc 32 x.fullDrops }
  else
    let s1 := s.lpWrite (x.slotAddr x.pi) (fitBytes 64 entry)
    (s1.setQueue q { x with pi := (x.pi + 1) % 2 ^ 32 }).queueMoved q x.fill

/-! ## Payloads (14 R401) -/

/-- Bytes of zeros up to a multiple of `n`. -/
def padTo (n len : Nat) : List Byte := List.replicate ((n - len % n) % n) 0
/-- A payload with one more field, at a multiple of its own size, up to 8. -/
def putField (acc : List Byte) : Field → List Byte
  | .u n v => acc ++ padTo (max 1 (min n 8)) acc.length ++ leBytes n v
  | .s n v => acc ++ padTo (max 1 (min n 8)) acc.length ++ leBytes n (ofSigned (8 * n) v)
  | .struct b => acc ++ padTo 8 acc.length ++ b
/-- The bytes of a payload. -/
def layOut (fs : List Field) : List Byte := fs.foldl putField []
/-- One byte: a lane, port, cell and so on, an enumeration or a selector. -/
abbrev f1 (v : Nat) : Field := .u 1 v
/-- Two bytes: a queue, berth, epoch, entry or step number. -/
abbrev f2 (v : Nat) : Field := .u 2 v
/-- Four bytes. -/
abbrev f4 (v : Nat) : Field := .u 4 v
/-- Eight bytes: a tide position, clock time or counter. -/
abbrev f8 (v : Nat) : Field := .u 8 v
/-- A flag. -/
abbrev fb (b : Bool) : Field := .u 1 (if b then 1 else 0)
/-- A signed value of four bytes with the no-value marker. -/
abbrev fi4 (v : Option Int) : Field := .s 4 (v.getD (-2147483648))
/-- A signed value of two bytes with the no-value marker. -/
abbrev fi2 (v : Option Int) : Field := .s 2 (v.getD (-32768))
/-- A signed value of eight bytes with the no-value marker. -/
abbrev fi8 (v : Option Int) : Field := .s 8 (v.getD (-9223372036854775808))
/-- A clock time that may not have been; 0 where there is none. -/
abbrev ft (v : Option Nat) : Field := .u 8 (v.getD 0)

/-! ## Roles (01 R33, R34, 10 R306) -/

/-- The kind of a role identifier. -/
def roleKind (r : Nat) : Nat := r / 2 ^ 28
/-- This module's record of a role. -/
def State.ownRole (s : State) (r : Nat) : Option OwnRole := s.net.own.find? fun o => o.role == r
/-- This module holds the role ACTIVE. -/
def State.holdsActive (s : State) (r : Nat) : Bool :=
  match s.ownRole r with | none => false | some o => o.state == .active
/-- The roles of this module with one record replaced. -/
def State.setOwn (s : State) (r : Nat) (f : OwnRole → OwnRole) : State :=
  { s with net := { s.net with own := s.net.own.map fun o => if o.role == r then f o else o } }
/-- A role that this module holds ACTIVE, of a kind. -/
def State.activeOf (s : State) (kind : Nat) : Option OwnRole :=
  s.net.own.find? fun o => roleKind o.role == kind && o.state == .active
/-- The record of the LANE role assigned to a local lane. -/
def State.laneRole (s : State) (n : Nat) : Option OwnRole :=
  s.net.own.find? fun o => roleKind o.role == 2 && o.local_ == n
/-- The module holds the COORDINATOR role. -/
def State.isCoordinator (s : State) : Bool := (s.activeOf 5).isSome
/-- Any role other than MODULE is held ACTIVE. -/
def State.holdsAnyActive (s : State) : Bool := s.net.own.any fun o => o.state == .active
/-- Any role other than MODULE is held ACTIVE or STANDBY. -/
def State.holdsAny (s : State) : Bool := s.net.own.any fun o => o.state != .none_
/-- Epoch `a` is newer than epoch `b`. -/
def newer (a b : Nat) : Bool := within 1 32767 ((a + 65536 - b) % 65536)
/-- The epoch after `e`. -/
def nextEpoch (e : Nat) : Nat := if e = 65535 then 1 else e + 1
/-- The module's own MODULE role. -/
def State.moduleRole (s : State) : Nat := 0x10000000 + s.net.berth.getD 0x0FFFFFFF
/-- The module's berth field. -/
def State.berthField (s : State) : Nat := s.net.berth.getD 0xFFFF
/-- The ACTIVE claims on a role that the role table holds: key, berth and epoch. -/
def State.claims (s : State) (r : Nat) : List (Nat × Nat × Nat) :=
  s.net.announcers.filterMap fun a =>
    if roleKind r = 1 && r = 0x10000000 + a.berth then some (a.key, a.berth, a.moduleEpoch)
    else (a.entries.find? fun e => e.role == r && e.active).map fun e => (a.key, a.berth, e.epoch)
/-- The better of two claims: the newer epoch, then the lower berth. -/
def betterClaim (x y : Nat × Nat × Nat) : Nat × Nat × Nat :=
  if newer x.2.2 y.2.2 || (x.2.2 == y.2.2 && x.2.1 ≤ y.2.1) then x else y
/-- The ACTIVE holder of a role among other modules: berth and epoch. -/
def State.otherHolder (s : State) (r : Nat) : Option (Nat × Nat) :=
  match s.claims r with
  | [] => none
  | c :: cs => some (cs.foldl betterClaim c).2
/-- The ACTIVE holder of a role as the module knows it: berth and epoch. -/
def State.holderOf (s : State) (r : Nat) : Option (Nat × Nat) :=
  if r = s.moduleRole && s.net.berth.isSome then some (s.berthField, s.net.moduleEpoch)
  else match s.ownRole r with
    | some o => if o.state == .active then some (s.berthField, o.epoch) else s.otherHolder r
    | none => s.otherHolder r
/-- The berths that hold a role STANDBY. -/
def State.standbys (s : State) (r : Nat) : List Nat :=
  (match s.ownRole r with | some o => if o.state == .standby then [s.berthField] else [] | none => [])
  ++ s.net.announcers.filterMap fun a =>
    if a.entries.any fun e => e.role == r && !e.active then some a.berth else none
/-- The role is unresolved. -/
def State.unresolved (s : State) (r : Nat) : Bool := (s.holderOf r).isNone

/-! ## Garzet (10 R297 to R302) -/

/-- Put something on a line or network. -/
def State.emit (s : State) (o : Output) : State := { s with out := o :: s.out }
/-- Payload bytes of a message. -/
def gLength : GBody → Nat
  | .tide _ => 40
  | .sound _ => 36
  | .mailbox b => b.length
  | .mailboxReply b => b.length
  | .ack => 0
  | .roleMoved _ => 16
  | .announce m => 20 + 8 * m.entries.length
  | .helm _ => 24
  | .mirror f => 28 + f.size
  | .signal m => 16 + 12 * m.entries.length
  | .propose _ => 536
  | .proposeAck _ _ => 8
  | .commit _ _ => 16
  | .abandon _ _ => 8
  | .report _ => 16
  | .fallBack _ _ => 16
/-- TYPE of a message. -/
def gType : GBody → Nat
  | .tide _ => 1 | .sound _ => 2 | .mailbox _ => 3 | .mailboxReply _ => 4 | .ack => 5 | .roleMoved _ => 6
  | .announce _ => 7 | .helm _ => 8 | .mirror _ => 9 | .signal _ => 10 | .propose _ => 11 | .proposeAck _ _ => 12
  | .commit _ _ => 13 | .abandon _ _ => 14 | .report _ => 15 | .fallBack _ _ => 16
/-- A header with the sender's fields filled. -/
def State.headOf (s : State) (body : GBody) (dst srcRole srcEpoch target tEpoch corr seq ack : Nat)
    (reliable reply newStream : Bool) : GHead :=
  { typ := gType body, reliable := reliable, reply := reply, newStream := newStream, lanB := false
    srcBerth := s.berthField, dstBerth := dst, srcRole := srcRole, srcEpoch := srcEpoch, length := gLength body
    targetRole := target, targetEpoch := tEpoch, corr := corr, sequence := seq, ackSeq := ack, srcKey := s.net.serial }
/-- The destination address of a frame to a peer on a LAN: the address learned from its ANNOUNCE frames, else the estate
group's (10 R299, R308). -/
def State.macTo (s : State) (peer : Nat) (lan : Lan) : Nat :=
  match s.net.peers.find? fun p => p.berth == peer with
  | none => s.net.groupMac
  | some p => (match lan with | .a => p.macA | .b => p.macB).getD s.net.groupMac
/-- A message goes out on both LANs to a peer; 0xFFFF stands for the estate group. -/
def State.onLans (s : State) (peer : Nat) (h : GHead) (body : GBody) : State :=
  s.emit (.garzet (s.macTo peer .a) (s.macTo peer .b) h body)
/-- Send a message that is not RELIABLE to a peer at a berth, once on each LAN; SEQUENCE counts per type. -/
def State.sendPlain (s : State) (peer : Nat) (body : GBody) (dst srcRole srcEpoch : Nat) (corr : Nat := 0) (ack : Nat := 0)
    (reply : Bool := false) : State :=
  let q := tget 0 s.net.typeSeq (gType body)
  let h := s.headOf body dst srcRole srcEpoch 0 0 corr q ack false reply false
  ({ s with net := { s.net with typeSeq := tset s.net.typeSeq (gType body) ((q + 1) % 2 ^ 32) } }).onLans peer h body
/-- Send to the estate group on behalf of the MODULE role. -/
def State.sendGroup (s : State) (body : GBody) : State :=
  s.sendPlain 0xFFFF body 0xFFFF s.moduleRole (if s.net.berth.isSome then s.net.moduleEpoch else 0)
/-- The stream to a peer. -/
def State.streamTx (s : State) (peer : Nat) : StreamTx :=
  (s.net.streamsTx.find? fun x => x.peer == peer).getD { peer := peer }
/-- The outgoing streams with one replaced. -/
def State.setStreamTx (s : State) (x : StreamTx) : State :=
  { s with net := { s.net with streamsTx := x :: s.net.streamsTx.filter fun y => y.peer != x.peer } }
/-- The sequence after `n` in a stream. -/
def nextSeqOf (n : Nat) : Nat := if n = 2 ^ 32 - 1 then 1 else n + 1
/-- Report to the function that sent a message. -/
def State.report (s : State) (r : FnReport) : State :=
  { s with net := { s.net with inboxFns := s.net.inboxFns ++ [r] } }
/-- A HELM or MIRROR message of a twin pair's role goes over the twin link while one of its lanes is up (12 R351, R362). -/
def State.viaTwin (s : State) (h : GHead) : Bool :=
  (h.typ == 8 || h.typ == 9) && (s.ownRole h.srcRole).any (fun o => o.kind == .twin)
  && !(tget false s.net.twinDown 0 && tget false s.net.twinDown 1)
/-- Put a message of the stream to a peer on its two carriers. -/
def State.transmit (s : State) (peer : Nat) (h : GHead) (body : GBody) : State :=
  if s.viaTwin h then s.emit (.twin h body) else s.onLans peer h body
/-- The highest sequence delivered in order of a peer's stream (10 R297, R301). -/
def State.ackFor (s : State) (peer : Nat) : Nat :=
  match s.net.streamsRx.find? fun x => x.peer == peer with
  | none => 0
  | some x => if x.expected = 1 then 2 ^ 32 - 1 else x.expected - 1
/-- Send a RELIABLE message in the stream to a peer: at most 64 unacknowledged, 256 more queued, else refused BUSY. -/
def State.sendReliable (s : State) (peer dst : Nat) (body : GBody) (srcRole srcEpoch target tEpoch : Nat)
    (corr : Nat := 0) (reply : Bool := false) : State :=
  let x := s.streamTx peer
  let h := s.headOf body dst srcRole srcEpoch target tEpoch corr x.nextSeq (if reply then s.ackFor peer else 0) true reply
    x.newStream
  let m : StreamMsg := { seq := x.nextSeq, head := h, body := body, sentAt := s.now, sends := 1 }
  if x.unacked.length < 64 then
    (s.setStreamTx { x with nextSeq := nextSeqOf x.nextSeq, unacked := x.unacked ++ [m] }).transmit peer h body
  else if x.queued.length < 256 then
    s.setStreamTx { x with nextSeq := nextSeqOf x.nextSeq, queued := x.queued ++ [{ m with sends := 0 }] }
  else s.report { typ := gType body, corr := corr, role := target, status := 6, holder := 0xFFFF, holderEpoch := 0 }
/-- Send a RELIABLE message to the ACTIVE holder of a role, when one is known. -/
def State.sendToRole (s : State) (role : Nat) (body : GBody) (srcRole srcEpoch : Nat) (corr : Nat := 0)
    (reply : Bool := false) : State :=
  match s.otherHolder role with
  | none => s
  | some (b, e) => s.sendReliable b b body srcRole srcEpoch role e corr reply

/-- A plant port has link (10 R318; log entry 60); the module listens from the first link of a start on (10 R293, R294). -/
def State.linkUp (s : State) (l t : Nat) : State :=
  let s1 := s.updNetLan l fun x => { x with link := true, linkAt := if x.link then x.linkAt else t }
  { s1 with net := { s1.net with listenFrom := some (s1.net.listenFrom.getD t) } }
/-- A frame arrives at a plant port. -/
def State.frameIn (s : State) (l t : Nat) : State :=
  if s.power.on && 2 ≤ s.power.stage then (s.updNetLan l fun x => { x with framesIn := inc64 x.framesIn }).linkUp l t else s
/-- Frames that an output is on a LAN. -/
def Output.onLan (l : Nat) : Output → Nat
  | .garzet _ _ _ _ => 1
  | .ptpSync x _ _ | .ptpAborted x | .ptpAnnounce x _ | .delayReq x _ | .delayResp x _ _ _ | .lldp x _ _ | .safe x _ _ _ =>
    if l = (match x with | .a => 0 | .b => 1) then 1 else 0
  | _ => 0
/-- Frames sent on a LAN since the start of the record of outputs. -/
def State.lanFrames (s : State) (l : Nat) : Nat := (s.out.map fun (o : Output) => Output.onLan l o).sum

/-! ## Requests that the module sends (14 R420) -/

/-- A reply to SPRING.STATUS brings the roster up to date (07 R228). -/
def State.rosterReply (s : State) (role : Nat) (p : List Byte) : State :=
  { s with sound := { s.sound with roster := { s.sound.roster with
      lanes := s.sound.roster.lanes.map fun (l : RosterLane) => if l.role == role then { l with
        out := within 1 4 (leAt p 0 1)
        lastComplete := if leAt p 16 8 = 0 then l.lastComplete else some (leAt p 16 8)
        lastFailed := if leAt p 24 1 = 2 ∧ l.out then some s.now else l.lastFailed } else l } } }
/-- A request that was sent is over, with a status and the payload of its reply: it is reported to the function that sent
it. -/
def State.requestDone (s : State) (corr status : Nat) (payload : List Byte) : State :=
  match s.net.requests.find? fun r => r.corr == corr with
  | none => s
  | some r =>
    let s1 := { s with net := { s.net with
        requests := s.net.requests.filter fun x => x.corr != corr, resent := s.net.resent.filter (· != corr) } }
    let h := s.otherHolder r.role
    let s2 := s1.report { typ := 3, corr := corr, role := r.role, status := status, holder := (h.map (·.1)).getD 0xFFFF
                          holderEpoch := (h.map (·.2)).getD 0 }
    let s3 := if r.slot = 0 then s2 else s2.updSlot r.slot fun x => { x with replies := x.replies ++ [(corr, status, payload)] }
    if r.command = 0x0E03 ∧ status = 0 then s3.rosterReply r.role payload else s3

/-! ## Lanes (05 R139) -/

/-- A lane is armed in ARMING, RUN, SHADOW and DISARMING. -/
def laneArmed : LaneState → Bool
  | .arming | .run | .shadow | .disarming => true
  | .unconfigured | .disarmed | .tripped => false
/-- Any lane of the module is armed. -/
def State.anyArmed (s : State) : Bool := (List.range 8).any fun n => laneArmed (s.lane n).state
/-- The lane that a port is assigned to. -/
def State.laneOfPort (s : State) (p : Nat) : Option Nat :=
  (List.range 8).find? fun n =>
    match (s.lane n).cfg with | none => false | some c => decide (c.firstPort ≤ p ∧ p < c.firstPort + c.portCount)
/-- The ports of a lane. -/
def State.portsOf (s : State) (n : Nat) : List Nat :=
  match (s.lane n).cfg with | none => [] | some c => (List.range c.portCount).map (c.firstPort + ·)
/-- The time spent in FULL or SLACK (08 R237). -/
def State.fullNow (s : State) : Nat :=
  s.therm.fullTime + (if s.power.state == .full || s.power.state == .slack then s.now - s.therm.fullMark else 0)
/-- Count that time up to now, before a change of the power state. -/
def State.countFull (s : State) : State := { s with therm := { s.therm with fullTime := s.fullNow, fullMark := s.now } }
/-- Every safety latch. -/
def State.latched (s : State) (n : Nat) : Bool := (s.laneSafe n).latch || s.safety.moduleLatch

end Sys2Proof.Machine
end

