-- ==== Sys2Proof/Machine/Flags.lean ====
section
/-! DEFINITION. The status words of the host window (14 R410, R411) and the interrupt bits that follow a change of them. -/

namespace Sys2Proof.Machine

open Sys2Proof

/-- The code of a lane state, in the order of 05 R139 (14 R401). -/
def laneCode : LaneState → Nat
  | .unconfigured => 0 | .disarmed => 1 | .arming => 2 | .run => 3 | .shadow => 4 | .disarming => 5 | .tripped => 6
/-- The code of a power state (14 R410). -/
def powerCode : PowerState → Nat
  | .full => 0 | .slack => 1 | .beached => 2 | .bareRock => 3
/-- The code of a lifecycle state. -/
def lifecycleCode : Lifecycle → Nat
  | .blank => 0 | .turned => 1 | .sealed => 2 | .parted => 3
/-- The code of a debug level. -/
def debugCode : DebugLevel → Nat
  | .none_ => 0 | .observe => 1 | .invasive => 2
/-- The code of a tide quality (02 R60). -/
def qualityCode : TideQuality → Nat
  | .lockedTwo => 0 | .lockedOne => 1 | .coasting => 2 | .none_ => 3
/-- The code of a berth state. -/
def berthCode : BerthState → Nat
  | .notDerived => 0 | .both => 1 | .one => 2 | .conflict => 3 | .unmapped => 4 | .duplicate => 5
/-- Any safety latch is set. -/
def State.anyLatch (s : State) : Bool := s.safety.moduleLatch || (List.range 8).any fun n => (s.laneSafe n).latch
/-- MODULE_STATE at 0x0040. -/
def State.moduleStateWord (s : State) : Nat :=
  lifecycleCode s.sec.lifecycle * 2 ^ 24 + debugCode s.sec.debug * 2 ^ 20 + powerCode s.power.state * 2 ^ 16
  + s.power.stage * 2 ^ 12 + qualityCode s.tide.quality * 2 ^ 8 + berthCode s.net.berthState * 2 ^ 4
  + (if s.mbox.ready then 8 else 0) + (if s.anyLatch then 4 else 0) + (if s.recorder.alarms.isEmpty then 0 else 2)
  + (if s.mbox.heartbeat then 1 else 0)
/-- The mask of lanes in a state. -/
def State.laneMask (s : State) (p : LaneState → Bool) : Nat :=
  maskOf ((List.range 8).filter fun n => p (s.lane n).state)
/-- LANES at 0x0048: armed, tripped, in RUN, configured. -/
def State.lanesWord (s : State) : Nat :=
  s.laneMask laneArmed * 2 ^ 24 + s.laneMask (· == .tripped) * 2 ^ 16 + s.laneMask (· == .run) * 2 ^ 8
  + s.laneMask (· != .unconfigured)
/-- BERTH at 0x0044. -/
def State.berthWord (s : State) : Nat := s.berthField

/-- The INT_STATUS bits that a change from `a` to `b` sets (14 R411); in BARE ROCK only bits 7, 5 and 4 are raised. -/
def intBits (a b : State) : Nat :=
  let rock := b.power.state == .bareRock
  let bit (k : Nat) (c : Bool) : Nat := if c then 2 ^ k else 0
  bit 7 (rock && a.power.state != .bareRock)
  ||| bit 6 (!rock && a.power.state != b.power.state)
  ||| bit 5 (a.anyLatch != b.anyLatch || (List.range 8).any fun n => (a.laneSafe n).latch != (b.laneSafe n).latch)
  ||| bit 4 (a.lanesWord != b.lanesWord)
  ||| bit 3 (!rock && a.recorder.alarms != b.recorder.alarms)
  ||| bit 2 (!rock && (a.net.berth != b.net.berth || a.net.berthState != b.net.berthState))
  ||| bit 1 (!rock && a.tide.quality != b.tide.quality)
  ||| bit 0 (!rock && a.mbox.ready != b.mbox.ready)

/-- The state `b` with the interrupt bits of the change from `a`; vector 0 is raised when a bit becomes set while its
enable is set. A reset that `b` has just been through leaves INT_STATUS at its Reset value (00 R15). -/
def settle (a b : State) : State :=
  let n := if a.power.stage != 0 && b.power.stage == 0 then 0 else intBits a b
  if n = 0 then b
  else
    let fresh := n &&& (255 - (b.mbox.intStatus &&& 255))
    let b1 := { b with mbox := { b.mbox with intStatus := b.mbox.intStatus ||| n } }
    if fresh &&& b.mbox.intEnable = 0 then b1 else b1.msixRaise 0

/-- The next state of a command that takes `a` to `b`. -/
def done (a b : State) : Host.Outcome State Fault Refusal := .next (settle a b)

/-- An event whose condition `c` must hold to have arisen: where it does not, nothing happens (log entry 25). -/
def whenever (s : State) (t : Nat) (c : State → Bool) (f : State → State) : Host.Outcome State Fault Refusal :=
  let s1 := s.atTime t
  if c s1 then done s (f s1) else .next s1

/-- The same for an event about an object that the module must have. -/
def wheneverOn (exists_ : Bool) (s : State) (t : Nat) (c : State → Bool) (f : State → State) :
    Host.Outcome State Fault Refusal :=
  if exists_ then whenever s t c f else .fault .noSuchObject

end Sys2Proof.Machine
end

