-- ==== Sys2Proof/Machine/Commands.lean ====
section
/-! DEFINITION. The envelope of every mailbox command: the checks before it runs (14 R399, R406), its answer and the
handing over of the response to its path (14 R398, R402, R404, R413, R418), and the recording of persistent settings
(16 R446). -/

namespace Sys2Proof.Machine

open Sys2Proof

/-! ## Status codes (14 R422, R423) -/

abbrev stOk : Nat := 0x0000
abbrev stInvalidArg : Nat := 0x0001
abbrev stUnknownCommand : Nat := 0x0002
abbrev stBadEnvelope : Nat := 0x0003
abbrev stPathRefused : Nat := 0x0004
abbrev stServiceOnly : Nat := 0x0005
abbrev stBusy : Nat := 0x0006
abbrev stBeached : Nat := 0x0007
abbrev stNoBerth : Nat := 0x0008
abbrev stRoleMoved : Nat := 0x0009
abbrev stNoAck : Nat := 0x000A
abbrev stTimeout : Nat := 0x000B
abbrev stNotFound : Nat := 0x000C
abbrev stNotOwner : Nat := 0x000D
abbrev stNotHelm : Nat := 0x000E
abbrev stLaneArmed : Nat := 0x000F
abbrev stRoleHeld : Nat := 0x0010
abbrev stTooLate : Nat := 0x0011
abbrev stNotCoordinator : Nat := 0x0012
abbrev stEntryOwned : Nat := 0x0100
abbrev stTideTooDense : Nat := 0x0101
abbrev stLaneInUse : Nat := 0x0102
abbrev stInputOwned : Nat := 0x0103
abbrev stTableFull : Nat := 0x0104
abbrev stUrgentDropped : Nat := 0x0105
abbrev stCalNoisy : Nat := 0x0106
abbrev stCalSpan : Nat := 0x0107
abbrev stCalRange : Nat := 0x0108
abbrev stNoTide : Nat := 0x0109
abbrev stUncalibrated : Nat := 0x010A
abbrev stPortsNotReady : Nat := 0x010B
abbrev stNotPermitted : Nat := 0x010C
abbrev stTripped : Nat := 0x010D
abbrev stBusRange : Nat := 0x010E
abbrev stNotArmed : Nat := 0x010F
abbrev stLatched : Nat := 0x0110
abbrev stContactorFault : Nat := 0x0111
abbrev stParamCheck : Nat := 0x0112
abbrev stParamRange : Nat := 0x0113
abbrev stTypeLimit : Nat := 0x0114
abbrev stSerialMismatch : Nat := 0x0115
abbrev stNotNative : Nat := 0x0116
abbrev stNotPresent : Nat := 0x0117
abbrev stNotRun : Nat := 0x0118
abbrev stSpringActive : Nat := 0x0119
abbrev stNotBase : Nat := 0x011A
abbrev stTideUnsettled : Nat := 0x011B
abbrev stStepRange : Nat := 0x011C
abbrev stFixed : Nat := 0x011D
abbrev stImageCheck : Nat := 0x011E
abbrev stLibVersion : Nat := 0x011F
abbrev stSignalOwned : Nat := 0x0120
abbrev stNoCapacity : Nat := 0x0121
abbrev stStageBusy : Nat := 0x0122
abbrev stStandbyFirst : Nat := 0x0123
abbrev stRoleMismatch : Nat := 0x0124
abbrev stPaired : Nat := 0x0125
abbrev stNotStaged : Nat := 0x0126
abbrev stChangeOpen : Nat := 0x0127
abbrev stGroupInUse : Nat := 0x0128
abbrev stNotInSync : Nat := 0x0129
abbrev stQueueInUse : Nat := 0x012A
abbrev stNoSpace : Nat := 0x012B
abbrev stHostAbsent : Nat := 0x012C
abbrev stQueueOwned : Nat := 0x012D
abbrev stCqInUse : Nat := 0x012E
abbrev stNoGains : Nat := 0x012F
abbrev stBitTiming : Nat := 0x0140
abbrev stBufferBusy : Nat := 0x0141
abbrev stBusOff : Nat := 0x0142
abbrev stControllerOff : Nat := 0x0143
abbrev stNotBusOff : Nat := 0x0144
abbrev stFdRequired : Nat := 0x0145
abbrev stNoLinePower : Nat := 0x0150
abbrev stKeysExhausted : Nat := 0x0160
abbrev stBadKeys : Nat := 0x0161
abbrev stNotTurned : Nat := 0x0162
abbrev stConfirmMismatch : Nat := 0x0163
abbrev stResetNeeded : Nat := 0x0164
abbrev stPackageCheck : Nat := 0x0165
abbrev stKeyAbsent : Nat := 0x0166
abbrev stFormatStep : Nat := 0x0167
abbrev stNoPending : Nat := 0x0168
abbrev stNotPaired : Nat := 0x0180
abbrev stParting : Nat := 0x0181

/-! ## The command index (14 R424) -/

/-- Verbs of each area, from area 0x01. -/
def areaVerbs : List Nat :=
  [5, 3, 4, 3, 1, 5, 9, 2, 2, 2, 8, 12, 4, 5, 4, 2, 4, 1, 10, 2, 1, 4, 2, 6, 5, 2, 5, 4, 6, 8, 4, 2, 4, 2, 3, 1]
/-- The code is a command of the module. -/
def isCommand (code : Nat) : Bool :=
  decide (1 ≤ code / 256 ∧ code / 256 ≤ 0x24 ∧ 1 ≤ code % 256 ∧ code % 256 ≤ areaVerbs.getD (code / 256 - 1) 0)
/-- Commands whose VERB is STATUS. -/
def statusCodes : List Nat :=
  [0x0102, 0x0202, 0x0301, 0x0401, 0x0601, 0x0801, 0x0B06, 0x0C05, 0x0D03, 0x0E03, 0x0F02, 0x1002, 0x1104, 0x1201,
   0x1301, 0x1401, 0x1501, 0x1805, 0x1B02, 0x1C04, 0x1D05, 0x1E06, 0x1F01, 0x2001, 0x2101, 0x2201, 0x2301, 0x2401]
/-- Commands whose VERB is READ or ends in _READ. -/
def readCodes : List Nat :=
  [0x0203, 0x0304, 0x0403, 0x0605, 0x0705, 0x0708, 0x0709, 0x0A02, 0x0B08, 0x0C02, 0x0C04, 0x0C07, 0x0C0C, 0x0D04,
   0x0E05, 0x0F04, 0x130A, 0x1402, 0x1701, 0x1806, 0x1903, 0x1905, 0x1A01, 0x1B05, 0x1D06, 0x1E08, 0x1F04, 0x2002]
/-- Commands restricted to the service port (09 R287, 10 R318, 11 R346, 12 R374, 17 R478, 18 R495). -/
def serviceCodes : List Nat :=
  [0x0105, 0x1302, 0x1303, 0x1304, 0x1305, 0x1306, 0x1308, 0x1601, 0x1A02, 0x1B01, 0x1B04, 0x2102, 0x2103, 0x2104,
   0x2202, 0x2302, 0x2303]
/-- Commands that would arm a lane, start a tenant, or enter BEACHED (17 R470; log entry 32). -/
def invasiveRefused : List Nat := [0x0103, 0x0104, 0x0B03, 0x1804]
/-- Commands that the recovery loader serves (17 R474). -/
def recoveryCodes : List Nat := [0x2101, 0x2301, 0x2302, 0x2303]
/-- The command of that code has the VERB STATUS. -/
def isStatus (code : Nat) : Bool := statusCodes.contains code
/-- The table of 17 R464. -/
def lifecycleAllows (l : Lifecycle) (p : Path) (code : Nat) : Bool :=
  match l with
  | .turned | .sealed => true
  | .blank => if p == .service then code != 0x0B03 && code != 0x0B05 else code == 0x0101 || isStatus code
  | .parted =>
    if p == .service then
      isStatus code || readCodes.contains code || code == 0x0101 || code / 256 == 0x21 || code / 256 == 0x22
        || code / 256 == 0x23
    else code == 0x0101 || isStatus code

/-! ## Mailboxes -/

/-- A mailbox of a path. -/
def State.box (s : State) (p : Path) (b : Nat) : Mailbox :=
  (s.mbox.boxes.find? fun x => x.path == p && x.box == b).getD { path := p, box := b }
/-- The mailboxes with one replaced. -/
def State.setBox (s : State) (x : Mailbox) : State :=
  { s with mbox := { s.mbox with
      boxes := x :: s.mbox.boxes.filter fun y => !(y.path == x.path && y.box == x.box) } }
/-- The mailboxes without one. -/
def State.dropBox (s : State) (p : Path) (b : Nat) : State :=
  { s with mbox := { s.mbox with boxes := s.mbox.boxes.filter fun y => !(y.path == p && y.box == b) } }
/-- The index of a path's counters. -/
def pathIdx : Path → Nat
  | .pcie => 0 | .service => 1 | .garzet => 2
/-- The largest segment of a path (14 R397). -/
def segMax : Path → Nat
  | .pcie | .service => 4064 | .garzet => 1408

/-! ## Messages (14 R398, R400, R412, R413) -/

/-- One message of a response: envelope and segment. -/
def respMessage (r : Response) (len off : Nat) (seg : List Byte) (last : Bool) : List Byte :=
  leBytes 2 1 ++ leBytes 2 r.command ++ leBytes 4 r.tag ++ leBytes 4 len ++ leBytes 4 off ++ leBytes 2 seg.length
  ++ leBytes 2 r.status ++ leBytes 4 (if last then 3 else 2) ++ leBytes 8 r.doneAt ++ seg
/-- The segments from an offset; `fuel` bounds their number. -/
def respSegments (r : Response) (n len : Nat) : Nat → Nat → List Byte → List (List Byte)
  | 0, _, _ => []
  | f + 1, off, rest =>
    if rest.length ≤ n then [respMessage r len off rest true]
    else respMessage r len off (rest.take n) false :: respSegments r n len f (off + n) (rest.drop n)
/-- The messages of a response. -/
def respMessages (r : Response) : List (List Byte) :=
  let p := layOut r.payload
  let n := segMax r.path
  respSegments r n p.length (p.length / n + 1) 0 p
/-- Write one message into a ring when all its entries fit; PI advances once. -/
def State.ringPut (s : State) (q : Nat) (msg : List Byte) : Option State :=
  let x := s.queue q
  let n := (msg.length + 63) / 64
  if x.fill + n ≤ x.size ∧ x.k ≠ 0 then
    let s1 := (List.range n).foldl
      (fun z i => z.lpWrite (x.slotAddr (x.pi + i)) (fitBytes 64 (slice msg (64 * i) 64))) s
    some ((s1.setQueue q { x with pi := (x.pi + n) % 2 ^ 32 }).queueMoved q x.fill)
  else none
/-- Write messages in order until one finds no room; the rest is returned. -/
def State.ringPutAll (s : State) (q : Nat) (l : List (List Byte)) : State × List (List Byte) :=
  takeEach (fun z m => z.ringPut q m) l s
/-- Count on a path. -/
def State.countPath (s : State) (p : Path) (f : PathCount → PathCount) : State := s.updPathCount (pathIdx p) f

/-- Hand a response to its path: the response ring of a PCIe mailbox, the TLS stream of a session, or MAILBOX_REPLY
messages to the requesting berth. -/
def State.handOver (s : State) (r : Response) : State :=
  let s1 := { s with mbox := { s.mbox with responses := s.mbox.responses ++ [r] } }
  match r.path with
  | .pcie =>
    let (s2, rest) := s1.ringPutAll (17 + 2 * r.box) (respMessages r)
    if rest.isEmpty then s2
    else (s2.setBox { s2.box .pcie r.box with waiting := rest, state := .waiting }).countPath .pcie
      fun c => { c with respWait := inc64 c.respWait }
  | .service => s1
  | .garzet =>
    if s1.net.berth == some r.box then s1.requestDone r.corr r.status (layOut r.payload)
    else (respMessages r).foldl
      (fun z m => z.sendReliable r.box (if r.box < 65536 then r.box else 0xFFFF) (.mailboxReply m) z.moduleRole
        z.net.moduleEpoch 0 0 r.corr true) s1

/-- The reset of a mailbox takes effect: its queues' indices are 0, what it held is gone, and it serves again once ENABLE is
set; a session's mailbox goes with its session (14 R416, R417). -/
def State.boxFresh (s : State) (p : Path) (b : Nat) : State :=
  match p with
  | .pcie =>
    let on := (s.box .pcie b).enable
    let s1 := (s.setQueue (16 + 2 * b) { s.queue (16 + 2 * b) with pi := 0, ci := 0 }).setQueue (17 + 2 * b)
      { s.queue (17 + 2 * b) with pi := 0, ci := 0 }
    s1.setBox { path := .pcie, box := b, enable := on, state := if on then .idle else .disabled }
  | p => s.dropBox p b

/-- Form the response of a command and hand it over; the response of a mailbox whose reset is pending, or whose session
has ended, is discarded (14 R416, R417). -/
def State.answer (s : State) (src : Source) (code status : Nat) (payload : List Field) : State :=
  let b := s.box src.path src.box
  let s1 := s.countPath src.path fun c => { c with
    taken := inc64 c.taken
    badEnvelope := if status = stBadEnvelope then inc64 c.badEnvelope else c.badEnvelope
    unknown := if status = stUnknownCommand then inc64 c.unknown else c.unknown
    refused := if status = stPathRefused then inc64 c.refused else c.refused
    busy := if status = stBusy then inc64 c.busy else c.busy }
  if b.resetPending then s1.boxFresh src.path src.box
  else (if b.executing.isSome then s1.setBox { b with executing := none, state := .idle } else s1).handOver
    { path := src.path, box := src.box, tag := src.tag, command := code, status := status, doneAt := s.now
      payload := payload, corr := src.corr }

/-- A service session ends (R417, 17 R469): requests not taken are discarded, the response of an executing command will be,
and an observe level that the session set falls to none. -/
def State.endSession (s : State) (id : Nat) : State :=
  let b := s.box .service id
  let s1 := s.countPath .service fun c => { c with discarded := (c.discarded + b.queue.length) % 2 ^ 64 }
  let s2 := if b.executing.isSome then s1.setBox { b with queue := [], asm := none, resetPending := true }
    else s1.dropBox .service id
  let s3 := { s2 with mbox := { s2.mbox with sessions := s2.mbox.sessions.filter fun x => x.id != id } }
  let s4 := if s3.sec.debug == .observe && s3.sec.debugSession == some id then
      ({ s3 with sec := { s3.sec with debug := .none_, debugSession := none } }).event evDebugLevel 0 0 (v0 := some 0)
    else s3
  s4.event evSessionClose 0 0 (v0 := some id)

/-! ## Running a command -/

/-- What a command does at its taking: the status and payload of its answer, none while the answer comes later, and the
state it leaves. -/
structure Answer where
  status : Option Nat
  payload : List Field
  state : State

/-- Accepted, no payload. -/
def ok (s : State) : Answer := ⟨some stOk, [], s⟩
/-- Accepted with a payload; the state as it was. -/
def okWith (s : State) (fs : List Field) : Answer := ⟨some stOk, fs, s⟩
/-- Refused; the state as it was. -/
def refuse (s : State) (status : Nat) : Answer := ⟨some status, [], s⟩
/-- Answered later. -/
def later (s : State) : Answer := ⟨none, [], s⟩
/-- The first condition that fails gives its status. -/
def checked (s : State) : List (Bool × Nat) → Answer → Answer
  | [], a => a
  | (c, st) :: r, a => if c then checked s r a else refuse s st

/-- Where a command stands before its own checks. -/
inductive Gate where
  | closed | refused (status : Nat) | runs
  deriving DecidableEq, Repr

/-- The checks that come before a command's own (14 R399.4, R403, R406; 06 R198, R199; 10 R293; 17 R464, R470, R474;
18 R493). -/
def gate (s : State) (src : Source) (code : Nat) : Gate :=
  let b := s.box src.path src.box
  if !(s.mbox.ready || s.sec.recovery) || s.power.state == .bareRock || b.executing.isSome || !b.waiting.isEmpty then .closed
  else if s.sec.recovery && !(src.path == .service && recoveryCodes.contains code) then .closed
  else if serviceCodes.contains code && src.path != .service then .refused stServiceOnly
  else if !lifecycleAllows s.sec.lifecycle src.path code then .refused stPathRefused
  else if s.sec.debug == .invasive && invasiveRefused.contains code then .refused stPathRefused
  else if isStatus code then .runs
  else if s.power.state == .beached then .refused stBeached
  else if s.power.beach.isSome || (s.power.part.isSome && code != 0x0105) then .refused stBusy
  else if src.path == .garzet && s.net.berth.isNone then .refused stNoBerth
  else .runs

/-- The command runs when its mailbox is served and its gate is open. -/
abbrev Served (s : State) (src : Source) (code : Nat) : Prop := gate s src code = .runs

/-- What the module holds now, for STATUS replies in BEACHED (06 R199). -/
def State.snapshot (s : State) : Held :=
  {
    clock := s.clock, ptp := s.ptp, servo := s.servo, lh := s.lh, tide := s.tide, table := s.table, tsin := s.tsin,
    tsout := s.tsout, tap := s.tap, ana := s.ana, lanes := s.lanes, model := s.model, sound := s.sound,
    therm := s.therm, safety := s.safety, net := s.net, ten := s.ten, fab := s.fab, mbox := s.mbox, can := s.can,
    store := s.store, recorder := s.recorder, sec := s.sec, power := s.power }
/-- The state as it was at step 6 of beaching. -/
def State.atStep6 (s : State) : State :=
  match s.held with
  | none => s
  | some h =>
    { s with
      clock := h.clock, ptp := h.ptp, servo := h.servo, lh := h.lh, tide := h.tide, table := h.table, tsin := h.tsin,
      tsout := h.tsout, tap := h.tap, ana := h.ana, lanes := h.lanes, model := h.model, sound := h.sound,
      therm := h.therm, safety := h.safety, net := h.net, ten := h.ten, fab := h.fab, mbox := h.mbox, can := h.can,
      store := h.store, recorder := h.recorder, sec := h.sec, power := h.power }
/-- What a command that its gate lets run does: in BEACHED it is a STATUS command, which answers the values held at step 6 and
changes nothing (06 R199). -/
def State.runs (s : State) (h : State → Answer) : Answer :=
  if s.power.state == .beached then
    let a := h s.atStep6
    { a with state := { s with fresh := a.state.fresh } }
  else h s
/-- Run a command: its gate, its own effect and its answer. -/
def runCommand (src : Source) (code : Nat) (h : State → Answer) (s : State) : Host.Outcome State Fault Refusal :=
  match gate s src code with
  | .closed => .next s
  | .refused st => done s (s.answer src code st [])
  | .runs =>
    let a := s.runs h
    match a.status with
    | some st => done s (a.state.answer src code st a.payload)
    | none => done s (a.state.setBox { a.state.box src.path src.box with executing := some code, state := .executing })

/-! ## The store's interface (16 R447, R448) -/

/-- The energy available from the bulk node, J. -/
def State.eAvail (s : State) : Option Rat :=
  s.store.cHu.map fun c => 85 / 100 * c / 2 * (((s.store.vHu : Rat) / 1000) ^ 2 - 400)
/-- The hold-up check. -/
def State.holdupOk (s : State) : Bool := match s.eAvail with | none => false | some e => decide ((5 : Rat) / 2 ≤ e)
/-- The write takes a hold-up check. -/
def Op.guarded (o : Op) : Bool := match o.kind with | .commitPage | .settings _ | .header => true | _ => false
/-- The operation may start. -/
def Op.may (o : Op) : Bool := !o.guarded || o.checked
/-- The hold-up check of the writes that wait; none is made before VHU has reached 39.2 V, nor during a measurement. -/
def State.holdupCheck (s : State) (p : Op → Bool) : State :=
  if s.store.ops.all fun o => o.may || !p o then s
  else
    let can := s.store.measuring.isNone && s.store.measuredBoot
    let ok := can && s.holdupOk
    { s with store := { s.store with
        ops := s.store.ops.map fun (o : Op) => if o.may || !p o then o else { o with checked := ok, checkAt := s.now }
        eAvail := if can then s.eAvail else s.store.eAvail } }
/-- The operation taken next: the lowest number of priority, then the order of arrival. -/
def bestOp : List Op → Option Op
  | [] => none
  | o :: r => match bestOp r with
    | none => if o.may then some o else none
    | some b => if o.may && decide (o.prio ≤ b.prio) then some o else some b
/-- Take the next operation; one of higher priority suspends an erase, which resumes before another erase starts (R447). The
interface is SVB's (01 R23). -/
def State.storeServe (s : State) : State :=
  let st := s.store
  if s.power.state == .beached || s.power.state == .bareRock then s
  else match st.running, bestOp st.ops with
    | none, some o =>
      if o.prio = 6 && st.suspended.isSome then { s with store := { st with running := st.suspended, suspended := none } }
      else { s with store := { st with running := some o, ops := st.ops.erase o } }
    | none, none => { s with store := { st with running := st.suspended, suspended := none } }
    | some e, some o =>
      if e.prio = 6 && o.prio < 6 && st.suspended.isNone then
        { s with store := { st with running := some o, suspended := some e, ops := st.ops.erase o } }
      else s
    | some _, none => s
/-- An operation falls due on the interface. -/
def State.queueOp (s : State) (prio : Nat) (kind : StoreOp) : State :=
  let o : Op := { prio := prio, kind := kind, due := s.now }
  (({ s with store := { s.store with ops := s.store.ops ++ [o] } }).holdupCheck (· == o)).storeServe

/-- The alarm STORE_DEFERRED ends once no write is left that has waited its 60 s (R448). -/
def State.deferralEnds (s : State) : State :=
  if s.store.deferred && !(s.store.ops.any fun o => o.late) && !(s.store.running.any fun o => o.late) then
    ({ s with store := { s.store with deferred := false } }).clearAlarm evStoreDeferred 0 0
  else s

/-! ## Persistent settings (16 R446, R448, R453) -/

/-- Queue a settings record: it is in force in the store once it has been programmed. -/
def State.persist (s : State) (code object : Nat) (cmd : Instr) : State :=
  if s.store.settingsVolatile then s
  else
    let g := s.store.genSettings + 1
    { s with store := { s.store with
        genSettings := g, settings := ⟨code, object, g, cmd⟩ :: s.store.settings } }.queueOp 3 (.settings g)
/-- A setting that was accepted is committed. -/
def Answer.persisted (a : Answer) (code object : Nat) (cmd : Instr) : Answer :=
  if a.status = some stOk then { a with state := a.state.persist code object cmd } else a

end Sys2Proof.Machine
end

