-- ==== Sys2Proof/Machine/Signals.lean ====
section
/-! DEFINITION. Local signals, and the outputs that follow them (04 R128 to R130, 08 R247, R249, 11 R334 to R336). -/

namespace Sys2Proof.Machine

open Sys2Proof

/-! ## DAC and pump outputs (04 R128 to R130, 08 R247) -/

/-- A write to a DAC: a range change drives code 0 for 20 µs first. -/
def Dac.write (d : Dac) (now range code : Nat) : Dac :=
  if range ≠ d.range then
    { d with range := range, code := 0, stored := code, settleUntil := some (now + 20000), written := true }
  else if d.settleUntil.isSome then { d with stored := code, written := true }
  else { d with code := code, stored := code, written := true }
/-- A DAC goes to SAFE_CODE. -/
def State.dacSafe (s : State) (k : Nat) : State :=
  s.updDac k fun d => { d.write s.now d.safeRange d.safeCode with safe := true }
/-- A value of a DAC's source. -/
def State.dacValue (s : State) (k range code : Nat) : State :=
  s.updDac k fun d => { d.write s.now range code with safe := false }
/-- A duty for a pump output; none holds SAFE_DUTY. -/
def State.auxValue (s : State) (k : Nat) (v : Option Nat) : State :=
  s.updAux k fun a => match v with
    | some d => { a with duty := d, safe := false }
    | none => { a with duty := a.safeDuty, safe := true }
/-- The no-value marker of a signal type, as the number that a value of the type would be; none where the type has none
(11 R334). -/
def sigMarker : Nat → Option Int
  | 2 => some (-32768) | 3 => some 65535 | 4 => some (-2147483648) | 5 => some 4294967295
  | 6 => some (-9223372036854775808)
  | _ => none
/-- A value of a type is its no-value marker, or, in FP32, any NaN (11 R334). -/
def sigIsMarker (typ : Nat) (v : Int) : Bool :=
  sigMarker typ == some v || (typ == 7 && decide (0x7F800000 < ofSigned 32 v % 2 ^ 31))
/-- A slot whose value is its type's marker is ABSENT (11 R335). -/
def SigVal.norm (v : SigVal) : SigVal :=
  if v.value.any (sigIsMarker v.typ) then { v with value := none, absent := true } else v
/-- The outputs that name a local signal as their source follow it: an unsigned 16-bit signal carries the code
(04 R130, 08 R247). -/
def State.followSignal (s : State) (h : Nat) : State :=
  let v := s.sigLocal h
  let code := if v.absent || v.typ != 3 then none else v.value.map fun x => ofSigned 16 x
  let s1 := (List.range 8).foldl (fun z k =>
    if (z.dac k).source == .signal h then
      (match code with | some c => z.dacValue k (z.dac k).safeRange c | none => if (z.dac k).safe then z else z.dacSafe k)
    else z) s
  (List.range 8).foldl (fun z k => if (z.aux k).source == .signal h then z.auxValue k code else z) s1
/-- Publish a local signal. -/
def State.publishLocal (s : State) (h : Nat) (v : SigVal) : State := (s.setSigLocal h v.norm).followSignal h
/-- A signal of the module, of a type, with the number of the latest base instant. -/
def State.moduleSignal (s : State) (h typ : Nat) (v : Option Int) : State :=
  s.publishLocal h
    { value := v, seq := s.model.lastBase % 2 ^ 32, typ := typ, absent := v.isNone, held := false, stale := false
      late := false, publisher := 0 }

/-! What the module's own local signals are, as `Config.moduleHandle` names them (11 R336; log entry 35). -/
abbrev sgTachSpeed : Nat := 0
abbrev sgTachStale : Nat := 1
abbrev sgTachReverse : Nat := 2
abbrev sgLaneOut : Nat := 3
abbrev sgOutW : Nat := 4
abbrev sgSpringPhase : Nat := 5
abbrev sgSoundW : Nat := 6
abbrev sgPumpDuty : Nat := 7
abbrev sgValveCode : Nat := 8
abbrev sgHvacDemand : Nat := 9
abbrev sgDieShed : Nat := 10
abbrev sgEstateMode : Nat := 11
abbrev sgTideQuality : Nat := 12
/-- The first of the lane signals of 06 R182; the others follow in their order. -/
abbrev sgModel : Nat := 32
/-- Publish a signal of the module's own. -/
def State.signalOf (s : State) (what obj typ : Nat) (v : Int) : State :=
  s.moduleSignal (Config.moduleHandle what obj) typ (some v)

/-- The cooling loops watch their tachometers: since when each has lacked, or shown, the speed expected (08 R249). -/
def State.watchCooling (s : State) : State :=
  (List.range 8).foldl (fun z k =>
    let x := z.coolLoop k
    match x.cfg with
    | none => z
    | some c =>
      let t := z.tach c.tach
      let good := !t.stale && decide (Config.expectSpeed c.expect x.duty ≤ t.speed)
      let asked := decide (c.pumpMin ≤ x.duty)
      z.setCoolLoop k { x with
        lowSince := since x.lowSince z.now (asked && !good), okSince := since x.okSince z.now good }) s

end Sys2Proof.Machine
end

