-- ==== Sys2Proof/Machine/TideOps.lean ====
section
/-! DEFINITION. The servo, the tide position and the tide table: operations that several commands share (02). -/

namespace Sys2Proof.Machine

open Sys2Proof

/-! ## The servo (02 R42, R43, R48 to R51) -/

/-- The index of a LAN. -/
def lanIx : Lan → Nat
  | .a => 0 | .b => 1
/-- INCR held within the limits of R42. -/
def incrClamp (v : Int) : Nat := (clampI 0x7FEF9DB23 0x8010624DD v).toNat
/-- INCR for a correction `u` in 2^-48 ns per tick. -/
def incrFor (u : Int) : Int := 0x800000000 - (u + 32768).fdiv 65536
/-- INCR of HOLDOVER: the last rate without the proportional term. -/
def State.holdoverRate (s : State) : State :=
  { s with clock := { s.clock with incr := incrClamp (incrFor s.servo.integ) } }
/-- Enter HOLDOVER. -/
def State.toHoldover (s : State) : State :=
  { s with servo := { s.servo with state := .holdover, holdoverSince := some s.now, lockedSince := none } }.holdoverRate
/-- Enter ACQUIRE; its outlier test starts with new samples (log entry 33). -/
def State.toAcquire (s : State) : State :=
  { s with servo := { s.servo with
      state := .acquire, firstSample := true, goodRun := 0, outlierRun := 0, accepted := [], holdoverSince := none
      lockedSince := none } }
/-- HOLDOVER ends once the source LAN, its port a slave, has 4 path delays measured (R50); in BARE ROCK the servo is held in
HOLDOVER (R64). -/
def State.holdoverEnds (s : State) : State :=
  let p := s.ptpPort (lanIx s.servo.source)
  if s.servo.state == .holdover && p.state == .slave && decide (4 ≤ p.delays.length) && s.power.state != .bareRock then s.toAcquire
  else s
/-- The LAN that the servo takes its samples from: LAN A while its port is in the slave state, otherwise LAN B. -/
def State.ptpSource (s : State) : Lan := if (s.ptpPort 0).state == .slave then .a else .b
/-- Follow a change of the source LAN or of its master: FREE goes to HOLDOVER once a master is selected, LOCKED goes to
HOLDOVER, and HOLDOVER ends where the delays are already there. -/
def State.followMaster (s : State) (changed : Bool) : State :=
  let src := s.ptpSource
  let moved := src != s.servo.source
  let s1 := { s with servo := { s.servo with source := src } }
  let slave := (s.ptpPort (lanIx src)).state == .slave
  (match s.servo.state with
  | .free => if slave then s1.toHoldover else s1
  | .locked => if moved || changed then s1.toHoldover else s1
  | _ => s1).holdoverEnds
/-- 2^k seconds in nanoseconds. -/
def pow2Sec (k : Int) : Nat := if k < 0 then 10 ^ 9 / 2 ^ (-k).toNat else 10 ^ 9 * 2 ^ k.toNat
/-- The mean of the measured path delays. -/
def meanDelay (l : List Int) : Int := if l.isEmpty then 0 else l.sum.fdiv l.length
/-- The first instant at or after `now` among those `start`, `start + period`, ... (R75; for a start time already past the
spec names no first pulse: the sequence goes on as if it had run since then, DESIGN CHOICE, log entry 134). -/
def firstPulse (now start period : Nat) : Nat :=
  if now ≤ start then start else start + ((now - start + period - 1) / period) * period
/-- An output's TIME or PPS sequence on a clock that was stepped (R75). -/
def TsOut.stepped (x : TsOut) (now : Nat) : TsOut :=
  { x with nextAt := x.nextAt.map fun _ => firstPulse now x.start x.period }
/-- The clock stepped by `-o`; the tide position keeps its angle (R61), and the pulse sequences their clock times (R75). -/
def State.stepClock (s : State) (o : Int) : State :=
  let n := ((s.clock.ns : Int) - o).toNat
  { s with
    clock := { s.clock with ns := n }
    tsout := s.tsout.map fun x => (x.1, x.2.stepped n)
    tide := if s.tide.quality == .none_ then s.tide
      else { s.tide with
        anchorNs := ((s.tide.anchorNs : Int) - o).toNat
        corrEnd := s.tide.corrEnd.map fun e => ((e : Int) - o).toNat } }
/-- The servo law of R48 on an accepted offset. -/
def State.servoLaw (s : State) (o : Int) : State :=
  let i := s.servo.integ + s.servo.ki * o
  let v := incrFor (s.servo.kp * o + i)
  let sat := decide (v < 0x7FEF9DB23 ∨ 0x8010624DD < v)
  { s with
    clock := { s.clock with incr := incrClamp v }
    servo := { s.servo with integ := if sat then s.servo.integ else i } }
/-- One offset sample of the source LAN (R48, R50). -/
def State.servoSample (s : State) (o : Int) : State :=
  let v := s.servo
  let s0 := { s with servo := { v with lastOffset := o } }
  if v.accepted.length = 8 ∧ (v.outlier : Int) < |o - median v.accepted| then
    { s0 with servo := { s0.servo with
        outlierRun := v.outlierRun + 1, outlierCount := inc64 v.outlierCount, goodRun := 0 } }
  else
    let s1 := { s0 with servo := { s0.servo with outlierRun := 0 } }
    match v.state with
    | .acquire =>
      if v.firstSample && decide ((v.stepNs : Int) < |o|) && !s.anyArmed then
        { s1 with servo := { s1.servo with firstSample := false, goodRun := 0 } }.stepClock o
      else
        ({ s1 with servo := { s1.servo with
            firstSample := false, accepted := (o :: v.accepted).take 8
            goodRun := if |o| < (v.lockNs : Int) then v.goodRun + 1 else 0 } }).servoLaw o
    | .locked => ({ s1 with servo := { s1.servo with accepted := (o :: v.accepted).take 8 } }).servoLaw o
    | _ => s1

/-! ## The tide position (02 R57 to R63) -/

/-- The clock time at which the local position reaches `p`, to the nearest nanosecond. -/
def Tide.timeOf (td : Tide) (p : Rat) : Nat :=
  let r := tideRate td.freqUhz
  let a : Rat := td.anchorNs
  let c : Rat := 1 + (td.corrE : Rat) / (2 ^ 32 : Nat)
  let q : Rat :=
    match td.corrEnd with
    | none => a + (p - td.anchorPos) / r
    | some e => if p ≤ td.posAt e then a + (p - td.anchorPos) / (r * c) else (e : Rat) + (p - td.posAt e) / r
  (roundQ q).toNat
/-- The extrapolation started anew from a clock time, without correction. -/
def Tide.reanchor (td : Tide) (t : Nat) : Tide :=
  { td with anchorNs := t, anchorPos := td.posAt t, corrE := 0, corrEnd := none }
/-- A lighthouse's position extrapolated to a clock time. -/
def instPos (i : TideInst) (t : Nat) : Rat :=
  (i.position : Rat) + ((t : Rat) - (i.refT : Rat)) * tideRate i.freqUhz
/-- Two positions agree when their distance, a signed 64-bit integer, lies within 256 tide units. -/
def tideAgree (p q : Rat) : Bool := withinI (-256) 256 (wrapS 64 (p.floor - q.floor))
/-- The tide quality of R60. -/
def Tide.qualityNow (td : Tide) : TideQuality :=
  let a := tget {} td.inst 0
  let b := tget {} td.inst 1
  if !a.silent && !b.silent then (if td.disagreeing then .lockedOne else .lockedTwo)
  else if !a.silent || !b.silent then .lockedOne
  else if a.heard || b.heard then .coasting else .none_
/-- Publish the tide quality as the module's local signal (R60). -/
def State.publishQuality (s : State) : State := s.signalOf sgTideQuality 0 3 (qualityCode s.tide.quality)
/-- Take the tide quality anew; a change is recorded and published, and coasting drops the correction (R60, R63). -/
def State.takeQuality (s : State) : State :=
  let q := s.tide.qualityNow
  if q == s.tide.quality then s
  else
    let td := if q == .coasting then { s.tide.reanchor s.now with coastSince := some s.now }
      else { s.tide with coastSince := none }
    (({ s with tide := { td with quality := q } }).event evTideQuality 0 0
      (v0 := some (qualityCode q)) (v1 := some (qualityCode s.tide.quality))).publishQuality
/-- Correct the local position to an accepted message of the source (R61, R62). -/
def Tide.correct (td : Tide) (t : Nat) (i : TideInst) : Tide :=
  let target := instPos i t
  let here := td.posAt t
  let e := wrapS 32 ((target - here) * 65536).floor
  let cyc := roundQ ((target - here - (e : Rat) / 65536) / 65536)
  { td with
    anchorNs := t, anchorPos := here, freqUhz := i.freqUhz, corrE := e, lastE := e
    corrEnd := some (t + periodNs i.freqUhz)
    recountTo := if cyc = 0 then none else some cyc
    bigCorrAt := if 16 * 65536 < |e| then some t else td.bigCorrAt }
/-- An accepted message of instance `n`: the comparison of R59, the source, the correction and the quality. -/
def State.tideAccept (s : State) (n : Nat) (m : TideMsg) (t : Nat) : State :=
  let old := s.inst n
  let i : TideInst := { old with
    heard := true, silent := false, rxAt := t, refT := m.refT, position := m.position, freqUhz := m.frequency }
  let other := s.inst (1 - n)
  let td := { s.tide with inst := tset s.tide.inst n i }
  let td := if n = 0 ∧ !other.silent then
      (if tideAgree (instPos i t) (instPos other t) then
        { td with agreeRun := td.agreeRun + 1, disagreeRun := 0, disagreeing := false }
      else { td with agreeRun := 0, disagreeRun := td.disagreeRun + 1 })
    else td
  let td := if td.source ≠ n ∧ other.silent then { td with source := n } else td
  let td := if td.source = n then td.correct t i else td
  ({ s with tide := td }).takeQuality
/-- An instance has become silent (R59). The two go on counting as disagreeing, and the run of disagreeing comparisons
stands, until the next comparison. -/
def State.instSilent (s : State) (n : Nat) : State :=
  let s1 := s.updInst n fun i => { i with silent := true }
  let other := s.inst (1 - n)
  let td := { s1.tide with agreeRun := 0 }
  ({ s1 with tide := if td.source = n ∧ !other.silent then { td with source := 1 - n } else td }).takeQuality

/-! ## Tide messages and the lighthouse's loop (02 R52 to R56) -/

/-- The 40 bytes of a tide message (R56). -/
def tideBytes (m : TideMsg) : List Byte :=
  beBytes 2 m.version ++ beBytes 1 m.inst
  ++ beBytes 1 ((if m.locked then 128 else 0) + (if m.timeHoldover then 64 else 0) + (if m.freqLimit then 32 else 0)
      + (if m.undervoltage then 16 else 0) + m.flagsLow)
  ++ beBytes 2 (m.berthHigh * 4096 + m.berth) ++ beBytes 2 m.sequence ++ beBytes 8 m.refT ++ beBytes 8 m.position
  ++ beBytes 4 m.frequency ++ beBytes 4 (ofSigned 32 m.rocof) ++ beBytes 2 m.vPos ++ beBytes 2 m.unbalance
  ++ beBytes 2 (ofSigned 16 m.phaseError) ++ beBytes 2 m.reserved
/-- The tide message that 40 bytes hold (R56). -/
def tideOf (l : List Byte) : TideMsg :=
  let fl := beAt l 3 1
  { version := beAt l 0 2, inst := beAt l 2 1, locked := fl.testBit 7, timeHoldover := fl.testBit 6, freqLimit := fl.testBit 5
    undervoltage := fl.testBit 4, flagsLow := fl % 16, berth := beAt l 4 2 % 4096, berthHigh := beAt l 4 2 / 4096
    sequence := beAt l 6 2, refT := beAt l 8 8, position := beAt l 16 8, frequency := beAt l 24 4
    rocof := toSigned 32 (beAt l 28 4), vPos := beAt l 32 2, unbalance := beAt l 34 2, phaseError := toSigned 16 (beAt l 36 2)
    reserved := beAt l 38 2 }
/-- Tide tables run in FULL and SLACK (R64, 06 R198). -/
def State.tablesRun (s : State) : Bool := s.power.state == .full || s.power.state == .slack
/-- The lane whose converters and spindle C serve the lighthouse, while a LIGHTHOUSE role is held (R52). -/
def State.gridLane (s : State) : Option Nat := if (s.activeOf 4).isSome then s.lh.lane else none
/-- Spindle k is not gated: its lane is configured, or it is spindle C of the lighthouse's lane; spindles are off in BEACHED
and BARE ROCK (01 R21, R23, R52). -/
def State.spindleRuns (s : State) (k : Nat) : Bool :=
  s.tablesRun && ((s.lane (k / 3)).cfg.isSome || (k % 3 == 2 && s.gridLane == some (k / 3)))
/-- The lighthouse measures: its role is held, its lane is set and is unconfigured, and its spindle C runs (R52). -/
def State.gridRuns (s : State) : Bool :=
  match s.gridLane with | none => false | some n => (s.lane n).cfg.isNone && s.spindleRuns (3 * n + 2)
/-- One evaluation of the loop at a sampling instant, its angle referred to the grid, and the conditions of R54 for the
cycle. The first evaluation at or after angle 0 is kept for the tide message (R55). -/
def lighthouseDo (hold : Nat) (vab vbc : Int) (s : State) : State :=
  let h := s.lh
  let prev : PllOut :=
    { angle := (ofSigned 16 (h.angle + 5461 - h.angleOffset)), freqUhz := h.freqUhz, rocof := h.rocof, vPos := h.vPos
      unbalance := h.unbalance, phaseErr := h.phaseErr, negAbove := h.negAbove }
  let r := Config.pll prev h.bandwidth h.nominalHz h.nominalMv vab vbc
  let angle := ofSigned 16 ((r.angle : Int) - 5461 + h.angleOffset)
  let fOk := withinI (h.nominalHz * 1000000 - 5000000) (h.nominalHz * 1000000 + 5000000) r.freqUhz
  let vOk := decide (16384 ≤ r.vPos)
  let good := withinI (-91) 91 r.phaseErr && fOk && vOk && !r.negAbove
  let bad := !withinI (-364) 364 r.phaseErr
  let wrapped := decide (angle + 32768 ≤ h.angle)
  let h1 := { h with
    angle := angle, freqUhz := r.freqUhz, rocof := r.rocof, vPos := r.vPos, unbalance := r.unbalance
    phaseErr := r.phaseErr, negAbove := r.negAbove, lastRef := hold, rangeLost := h.rangeLost || !fOk || !vOk
    mark := if wrapped then some (hold, { r with angle := angle }) else h.mark }
  let h2 := if wrapped then
      { h1 with
        count := (h.count + 1) % 2 ^ 48, lockCycle := h.lockCycle + 1
        goodCycles := if h.cycleGood && good then h.goodCycles + 1 else 0
        badCycles := if h.cycleBad || bad then h.badCycles + 1 else 0, cycleGood := true, cycleBad := false }
    else { h1 with cycleGood := h.cycleGood && good, cycleBad := h.cycleBad || bad }
  let s1 := { s with lh := h2 }
  if r.negAbove && !h.negAbove then s1.event evPhaseSequence 1 (h.lane.getD 0) else s1
/-- A LIGHTHOUSE record reaches the loop (04 R119): with both samples of an instant the loop evaluates; a sample that holds
the no-value marker is an absence, and its instant has no evaluation (00 R5). -/
def State.gridRecord (s : State) (input hold : Nat) (v : Option Int) : State :=
  let h := if input % 12 = 0 then { s.lh with vab := some (hold, v) } else { s.lh with vbc := some (hold, v) }
  match h.vab, h.vbc with
  | some (a, x), some (b, y) =>
    if a = b then
      let s1 := { s with lh := { h with vab := none, vbc := none } }
      match s.gridRuns, x, y with
      | true, some vab, some vbc => lighthouseDo hold vab vbc s1
      | _, _, _ => s1
    else { s with lh := h }
  | _, _ => { s with lh := h }
/-- The loop as it starts at a grant of the role: unlocked, with no cycle counted and no message due (R54, R55). -/
def Lighthouse.unlocked (h : Lighthouse) : Lighthouse :=
  { h with
    locked := false, goodCycles := 0, badCycles := 0, rangeLost := false, cycleGood := true, cycleBad := false
    countTaken := false, otherHeard := false, lockCycle := 0, mark := none, vab := none, vbc := none }

/-! ## The tide table (02 R66 to R73) -/

/-- The entry that 256 bits lay out; its status fields are cleared (R67, R73). -/
def entryOf (w : BitVec 256) : TideEntry :=
  let v := w.toNat
  { position := v % 2 ^ 64, mustFire := v.testBit 65, periodic := v.testBit 66, enable := v.testBit 67
    kind := v / 2 ^ 72 % 256, lateLimit := v / 2 ^ 80 % 65536, repeat_ := v / 2 ^ 96 % 65536
    period := v / 2 ^ 112 % 65536, arg0 := v / 2 ^ 128 % 2 ^ 32, arg1 := v / 2 ^ 160 % 2 ^ 32 }
/-- The reserved fields of an entry are 0. -/
def entryReserved (w : BitVec 256) : Bool :=
  let v := w.toNat
  !v.testBit 64 && v / 2 ^ 68 % 16 == 0 && v / 2 ^ 195 % 2 ^ 13 == 0
/-- The 32 bytes of an entry. -/
def entryWord (e : TideEntry) : Nat :=
  e.position + (if e.mustFire then 2 ^ 65 else 0) + (if e.periodic then 2 ^ 66 else 0)
  + (if e.enable then 2 ^ 67 else 0) + e.kind * 2 ^ 72 + e.lateLimit * 2 ^ 80 + e.repeat_ * 2 ^ 96
  + e.period * 2 ^ 112 + e.arg0 * 2 ^ 128 + e.arg1 * 2 ^ 160 + (if e.expired then 2 ^ 192 else 0)
  + (if e.late then 2 ^ 193 else 0) + (if e.fired then 2 ^ 194 else 0) + e.missed * 2 ^ 208 + e.fireCount * 2 ^ 224
/-- The fields of an entry keep the ranges of R67 and R68 that hold for every kind. -/
def entryShape (e : TideEntry) : Bool :=
  if e.periodic then
    within 1 65535 e.period && within 1 4096 e.repeat_ && (e.repeat_ == 1 || decide (e.position % 65536 * e.repeat_ < 65536))
  else e.period == 0 && e.repeat_ == 0
/-- Angle `k` of a periodic entry (R68). -/
def entryAngle (e : TideEntry) (k : Nat) : Nat := e.position % 65536 + k * 65536 / e.repeat_
/-- The position is a firing of the entry, strobe `k` (R68, R72). -/
def fires (e : TideEntry) (k pos : Nat) : Bool :=
  e.enable &&
  (if e.periodic then
    decide (k < e.repeat_) && pos % 65536 == entryAngle e k && cycleOf pos % e.period == cycleOf e.position % e.period
  else k == 0 && pos == e.position && !e.fired && !e.expired)
/-- A firing as the density rule sees it: the modulus of its cycles (0 for one cycle alone), their residue and the angle. -/
def firingsOf (e : TideEntry) : List (Nat × Int × Nat) :=
  if !e.enable || e.fired || e.expired then []
  else if e.periodic then
    (List.range e.repeat_).map fun k => (e.period, (cycleOf e.position : Int), entryAngle e k)
  else [(0, (cycleOf e.position : Int), e.position % 65536)]
/-- Two firings share a cycle: their congruences have a common solution. -/
def shareCycle (x y : Nat × Int × Nat) : Bool := ((x.2.1 - y.2.1) % (Nat.gcd x.1 y.1 : Int)) == 0
/-- The firings that lie within 64 tide units from the firing `x`, those of the next cycle counted from it. -/
def windowOf (x : Nat × Int × Nat) (l : List (Nat × Int × Nat)) : List (Nat × Int × Nat) :=
  l.filterMap fun y =>
    if x.2.2 ≤ y.2.2 ∧ y.2.2 < x.2.2 + 64 ∧ shareCycle x y then some y
    else if y.2.2 + 65536 < x.2.2 + 64 ∧ shareCycle x (y.1, y.2.1 - 1, y.2.2) then some (y.1, y.2.1 - 1, y.2.2) else none
/-- Every two firings of a list share a cycle. -/
def allShare : List (Nat × Int × Nat) → Bool
  | [] => true
  | x :: r => r.all (shareCycle x) && allShare r
/-- More than 14 user firings would lie within some 64 tide units (R71). -/
def tooDense (es : List TideEntry) : Bool :=
  let l := es.flatMap firingsOf
  l.any fun x =>
    let w := windowOf x l
    decide (14 < w.length) && (w.sublistsLen 15).any allShare
/-- The user entries, with one replaced. -/
def State.userEntries (s : State) (n : Nat) (e : TideEntry) : List TideEntry :=
  e :: (s.table.entries.filter fun x => decide (768 ≤ x.1) && x.1 != n).map Prod.snd
/-- A user entry names a converter table that the module keeps (R66). -/
def State.sarOwned (s : State) (e : TideEntry) : Bool :=
  (e.arg0 % 2 == 1 && e.arg1 == 3 && (s.lane (e.arg0 / 2)).cfg.isSome)
  || ((s.activeOf 4).isSome && s.lh.lane == some (e.arg0 / 2))
/-- A one-shot entry whose position has passed fires at once, late, within LATE_LIMIT of a MUST_FIRE entry, and expires
otherwise (R72). -/
def State.passOver (s : State) (n : Nat) : State :=
  let e := s.entry n
  if e.enable && !e.periodic && !e.fired && !e.expired && decide ((e.position : Rat) < s.tide.posAt s.now)
      && !(s.table.armed.any fun a => a.entry == n && a.current && a.pos == e.position) then
    if e.mustFire && decide (s.pos - e.position ≤ e.lateLimit) then
      let s1 := s.setEntry n { e with late := true, fireCount := (e.fireCount + 1) % 2 ^ 32 }
      { s1 with table := { s1.table with
          armed :=
            { entry := n, k := 0, pos := e.position, t0 := s.now, armedAt := s.now, content := { e with late := true }
              current := true } :: s1.table.armed } }
    else s.setEntry n { e with expired := true }
  else s
/-- Write an entry: an armed firing keeps its old contents, and every status field is cleared (R73). -/
def State.writeEntry (s : State) (n : Nat) (e : TideEntry) : State :=
  let e0 := { e with expired := false, late := false, fired := false, missed := 0, fireCount := 0 }
  let s1 := s.setEntry n e0
  ({ s1 with table := { s1.table with
      armed := s1.table.armed.map fun (a : ArmedFiring) => if a.entry == n then { a with current := false } else a } }).passOver n
/-- The lowest free one-shot entry of 56 to 703 (R517): one whose ENABLE and use are clear. -/
def State.freeEntry (s : State) (used : List Nat) : Option Nat :=
  ((List.range 648).map (· + 56)).find? fun n => !(s.entry n).enable && !used.contains n
    && !(s.table.armed.any fun a => a.entry == n)
/-- Clear an entry of the module. -/
def State.freeEntryAt (s : State) (n : Nat) : State := s.writeEntry n {}
/-- The order of kinds of R70. -/
def kindOrder (k : Nat) : Nat :=
  if k = 6 then 1 else if k = 3 then 2 else if k = 1 ∨ k = 2 then 3 else if k = 4 then 4 else if k = 5 then 5 else 6
/-- The key by which armed firings are taken: instant, kind, entry (R70). -/
def firingKey (a : ArmedFiring) : Nat := (a.t0 * 8 + kindOrder a.content.kind) * 1024 + a.entry
/-- The firing of an entry of that kind that is due: armed, its instant reached, and no other to be taken before it. -/
def State.dueFiring (s : State) (n kind : Nat) : Option ArmedFiring :=
  s.table.armed.find? fun a => a.entry == n && a.content.kind == kind && decide (a.t0 ≤ s.now)
    && s.table.armed.all fun b => decide (firingKey a ≤ firingKey b)
/-- The firing is made: it leaves the armed list, and a one-shot entry of these contents sets FIRED. -/
def State.takeFiring (s : State) (a : ArmedFiring) : State :=
  let s1 := { s with table := { s.table with
      armed := s.table.armed.filter fun b => !(b.entry == a.entry && b.t0 == a.t0 && b.k == a.k) } }
  if a.current && !a.content.periodic then s1.updEntry a.entry fun e => { e with fired := true } else s1
/-- The tide tables stop: the armed firings are not made, and the periodic ones among them count in MISSED (R64, R72). -/
def State.dropArmed (s : State) : State :=
  let s1 := s.table.armed.foldl (fun (z : State) a =>
    if a.current && a.content.periodic then z.updEntry a.entry fun e => { e with missed := satInc 16 e.missed } else z) s
  { s1 with table := { s1.table with armed := [] } }
/-- A firing event: what a due firing of that kind does. -/
def firing (n kind : Nat) (s : State) (t : Nat) (f : State → ArmedFiring → State) : Host.Outcome State Fault Refusal :=
  if n < 1024 then
    let s1 := s.atTime t
    match s1.dueFiring n kind with
    | some a => if s1.tablesRun then done s (f (s1.takeFiring a) a) else .next s1
    | none => .next s1
  else .fault .noSuchObject

/-- The value a status reply gives for the clock: in BEACHED the values held at step 6 (06 R199). -/
def State.statusNow (s : State) : Nat := if s.power.state == .beached then s.power.beachedAt else s.now

/-- A frame whose insertion cannot complete is ended with a bad FCS and counted (R47). -/
def State.insertionAbort (s : State) (lan : Lan) : State :=
  (({ s with servo := { s.servo with insertionAborts := inc64 s.servo.insertionAborts } }).emit
    (.ptpAborted lan)).event evInsertionAbort 13 (lanIx lan) (lanB := lan == Lan.b)

end Sys2Proof.Machine
end

