-- ==== Sys2Proof/Machine/LaneOps.lean ====
section
/-! DEFINITION. The control law, the set-point path, the PWM plan and the string-current samples of a lane (05, and the
rules of 06 to 08 that watch the string current). -/

namespace Sys2Proof.Machine

open Sys2Proof

/-! ## Numbers of the law (05 R148) -/

/-- Rounding to the nearest integer, a half away from zero. -/
def roundA (q : Rat) : Int := if q < 0 then -((-q + 1 / 2).floor) else (q + 1 / 2).floor
/-- Truncation toward zero. -/
def truncQ (q : Rat) : Int := if q < 0 then -((-q).floor) else q.floor
/-- A loop as it starts (05 R149). -/
def LoopState.fresh (l : LoopState) : LoopState := { ({} : LoopState) with dropped := l.dropped }
/-- A quantity normalised to Q1.31 by its full scale. -/
def norm (x : Rat) (fs : Nat) : Int := satS 32 (roundA (x * (2 ^ 31 : Nat) / (fs : Rat)))
/-- A UQ8.24 gain times a Q1.31 value. -/
def mulGain (g : Nat) (y : Int) : Int := satS 32 (roundA (((g : Int) * y : Int) / (2 ^ 24 : Nat)))
/-- One update of a loop (05 R149): `comb` combines the feed-forward and v; the output is held within `lo` and `hi`. -/
def loopLaw (kp ki kd : Nat) (comb : Int → Int) (lo hi : Int) (l : LoopState) (r y : Int) : LoopState :=
  let e := satS 32 (r - y)
  let d := mulGain kd (l.yPrev.getD y - y)
  let cand := satS 32 (l.integ + mulGain ki e)
  let raw := comb (satS 32 (mulGain kp e + cand + d))
  let u := min (max raw lo) hi
  { l with integ := if u = raw then cand else l.integ, yPrev := some y, out := u, droppedRun := 0 }

/-! ## Reading a lane -/

/-- Phase m of a lane. -/
def Lane.phase (l : Lane) (m : Nat) : Phase := tget {} l.phases m
/-- A lane with a phase changed. -/
def Lane.updPhase (l : Lane) (m : Nat) (f : Phase → Phase) : Lane := { l with phases := tset l.phases m (f (l.phase m)) }
/-- A lane with each of its configured phases changed. -/
def Lane.updPhases (l : Lane) (f : Nat → Phase → Phase) : Lane :=
  match l.cfg with
  | none => l
  | some c => (List.range c.phases).foldl (fun z m => z.updPhase m (f m)) l
/-- The loops of a lane run (05 R139). -/
def Lane.loops (l : Lane) : Bool := l.state == .run || l.state == .shadow || (l.state == .disarming && !l.gatesForced)
/-- The lane holds its power in POWER mode. -/
def Lane.powerMode (l : Lane) : Bool := match l.cfg with | none => false | some c => c.power
/-- RATED_CURRENT. -/
def Lane.rated (l : Lane) : Nat := match l.cfg with | none => 0 | some c => c.rated
/-- A contactor of a lane: 0 K−, 1 K+, 2 KP. -/
def Lane.contactor (l : Lane) (k : Nat) : Contactor := if k = 0 then l.kNeg else if k = 1 then l.kPos else l.kPre
/-- A lane with a contactor changed. -/
def Lane.updContactor (l : Lane) (k : Nat) (f : Contactor → Contactor) : Lane :=
  if k = 0 then { l with kNeg := f l.kNeg } else if k = 1 then { l with kPos := f l.kPos }
  else { l with kPre := f l.kPre }
/-- Every contactor reads open. -/
def Lane.allOpen (l : Lane) : Bool := !l.kNeg.fb && !l.kPos.fb && !l.kPre.fb
/-- Drive a contactor; the current of the latest period of phase 0 is kept when it is de-energised (05 R158). -/
def Lane.driveK (l : Lane) (k : Nat) (on : Bool) (now : Nat) : Lane :=
  l.updContactor k fun c =>
    { c with
      drive := on, changedAt := if c.drive == on then c.changedAt else now, reported := c.reported && c.drive == on
      breakCurrent := if c.drive && !on then l.iString else c.breakCurrent }
/-- The latest valid sample of an input, when it is at most 10 ms old (05 R160). -/
def State.freshSample (s : State) (k : Nat) : Option Int :=
  let i := s.input k
  if s.now ≤ i.latestAt + 10000000 then i.validValue else none
/-- The latest valid sample of an input. -/
def State.sample (s : State) (k : Nat) : Option Int := (s.input k).validValue
/-- The fresh values of two inputs meet a condition; a missing one does not (05 R160). -/
def State.freshPair (s : State) (i j : Nat) (p : Int → Int → Bool) : Bool :=
  match s.freshSample i, s.freshSample j with | some x, some y => p x y | _, _ => false
/-- The latest bus voltage lies within the lane's window (05 R159). -/
def State.busOk (s : State) (n : Nat) : Bool :=
  match (s.lane n).cfg, s.sample (12 * n + 8) with
  | some c, some v => withinI c.vbusMin c.vbusMax v
  | _, _ => false

/-! ## Limits in force (05 R154, 06 R183, 08 R246, 09 R263) -/

/-- The smallest port minimum of a table of limits; one not refreshed within the window counts as 0. -/
def portLimit (now window : Nat) (t : Table (Option (Nat × Nat))) : List Nat → Option Nat
  | [] => none
  | p :: r =>
    let v := match tget none t p with | some (mA, at_) => (if now ≤ at_ + window then mA else 0) | none => 0
    some (match portLimit now window t r with | none => v | some w => min v w)
/-- The window of R183: 20 ms in FULL, 300 ms in SLACK. -/
def State.limitWindow (s : State) : Nat := if s.power.state == .slack then 300000000 else 20000000
/-- SHED_FLOOR of a lane times its RATED_CURRENT. -/
def State.shedFloor (s : State) (n : Nat) : Nat := (s.laneTherm n).cfg.shedFloor * (s.lane n).rated / 65536
/-- SFA's derate of a lane, charge and discharge (08 R243, R245, 09 R263). -/
def State.sfaDerate (s : State) (n : Nat) (charge : Bool) : Option Nat :=
  if charge && (s.laneTherm n).chgInhibited then some 0
  else if (s.laneSafe n).derate || (s.laneTherm n).derateLost then some (s.shedFloor n) else none
/-- The thermal shed limit of a lane (08 R246). -/
def State.shedNow (s : State) (n : Nat) : Nat :=
  match (s.laneTherm n).shedLimit with | none => s.shedFloor n | some v => v.toNat
/-- The smaller of a limit, with its source, and another. -/
def lower (a : Nat × Nat) (b : Nat) (src : Nat) : Nat × Nat := if b < a.1 then (b, src) else a
/-- The limit in force in one direction, mA, and its source: 0 I_CHG_MAX or I_DIS_MAX, 1 cell models, 2 SFA, 3 thermal
shed. -/
def State.limitOf (s : State) (n : Nat) (charge : Bool) : Nat × Nat :=
  let l := s.lane n
  match l.cfg with
  | none => (0, 0)
  | some c =>
    let a := (if charge then c.iChgMax else c.iDisMax, 0)
    let t := if charge then l.limChgPort else l.limDisPort
    let b := match portLimit s.now s.limitWindow t (s.portsOf n) with | none => a | some v => lower a v 1
    let d := match s.sfaDerate n charge with | none => b | some v => lower b v 2
    lower d (s.shedNow n) 3

/-! ## The set-point path on spindle C (05 R154, R155, 07 R220, R222) -/

/-- A current in the lane's unit: mA, or W at the string voltage. -/
def Lane.unit (l : Lane) (mA : Int) : Rat := if l.powerMode then (mA : Rat) * l.vString / 1000000 else mA
/-- The measured value: string current, or string power of the latest period. -/
def Lane.measured (l : Lane) : Rat := l.unit l.iString
/-- The profile of a spring tide from CHARGE to BOTTOM, mA. -/
def Spring.profile (p : Spring) : Option Int :=
  match p.phase with
  | .charge => some (-p.iChg) | .top => some (-p.iK) | .discharge => some p.iDis | .bottom => some p.iK
  | .idle | .return_ => none
/-- The command of step 1, in the lane's unit; none is SOURCE_LOST. -/
def State.sourceValue (s : State) (n : Nat) : Option Int :=
  let l := s.lane n
  match l.cfg with
  | none => none
  | some c =>
    match c.source with
    | .signal h =>
      let v := s.sigLocal h
      if v.absent || l.lostSources then none else v.value.map (clampI (-2147483648) 2147483647)
    | .path _ => l.mailboxCmd
    | _ => none
/-- The sounding step that is applied, if any. -/
def LaneSound.running (x : LaneSound) : Option SoundStep := x.steps.find? fun a => a.phase == .running
/-- A capture runs, or a step without capture: the ramp is held (07 R210). -/
def LaneSound.holds (x : LaneSound) : Bool :=
  x.steps.any fun a => a.phase == .running || (a.capture && decide (0 < a.capCount) && (a.phase == .enabled || a.phase == .capturing))
/-- Every step of a lane changed. -/
def LaneSound.mapSteps (x : LaneSound) (f : SoundStep → SoundStep) : LaneSound := { x with steps := x.steps.map f }
/-- Mark the steps of a lane that run or are being captured. -/
def LaneSound.mark (x : LaneSound) (clip dist : Bool) : LaneSound :=
  x.mapSteps fun a =>
    if a.phase == .running || (decide (0 < a.capCount) && (a.phase == .enabled || a.phase == .capturing)) then
      { a with clipped := a.clipped || clip, disturbed := a.disturbed || dist } else a
/-- Spindle C forms the reference once per period of phase 0, at the period's string voltage (R154). SOURCE_LOST is of the
source alone, whatever the command is replaced by; a value stored in DISARMING does not end it. A ramp that a capture holds
is not seeded (07 R210). -/
def State.formReference (s : State) (n : Nat) : State :=
  let l := s.lane n
  match l.cfg with
  | none => s
  | some c =>
    let src := s.sourceValue n
    let prof := (s.spring n).profile
    let lost := src.isNone || (l.state == .disarming && l.sourceLost)
    let cmd : Rat := if l.state == .disarming then 0
      else match prof with | some i => l.unit i | none => (src.getD 0 : Int)
    let chg := s.limitOf n true
    let dis := s.limitOf n false
    let lo := -(l.unit chg.1)
    let hi := l.unit dis.1
    let target := max lo (min cmd hi)
    let x := s.laneSound n
    let ramp0 := if l.sourceLost && !lost && !x.holds then l.measured else l.ramp
    let step : Rat := (c.rampRate : Rat) * l.lastPeriodNs / 1000000
    let ramp1 := if x.holds then ramp0
      else if ramp0 < target then min target (ramp0 + step) else max target (ramp0 - step)
    let ramp2 := max lo (min ramp1 hi)
    let add : Rat := match x.running with
      | none => 0
      | some a => if c.power then a.stepW else a.stepMa
    let sum := ramp2 + add
    let clamped := max (-(l.unit c.iChgMax)) (min sum (l.unit c.iDisMax))
    let s1 := s.setLane n { l with
      command := satS 32 (roundA cmd), sourceLost := lost, ramp := ramp2, reference := satS 32 (roundA clamped)
      limitedChg := chg.1, limitedDis := dis.1 }
    s1.setLaneSound n (x.mark (decide (clamped ≠ sum) && decide (add ≠ 0)) (x.holds && decide (ramp2 ≠ ramp1)))

/-! ## Spindles B and A (05 R150, R151) -/

/-- The feed-forward FF of a reference `r`, normalised; none where V_string is 0 or less in POWER mode. -/
def ffOf (c : LaneConfig) (r v : Int) : Option Int :=
  let x : Rat := (r : Rat) / (2 ^ 31 : Nat)
  if c.power then
    if v ≤ 0 then none else some (norm (x * c.powerFs * 1000000 / v) (c.phases * c.phaseFs))
  else some (norm (x * c.stringFs) (c.phases * c.phaseFs))
/-- Spindle A on phase m, with its sample. -/
def Lane.spindleA (l : Lane) (c : LaneConfig) (g : LoopGains) (m : Nat) (y : Int) : Lane :=
  l.updPhase m fun p =>
    let lp := loopLaw g.kpA g.kiA g.kdA (fun v => l.dNow - v) c.umin c.umax p.loop l.rNow y
    { p with loop := lp, shadow := lp.out, shadowNew := true, waitY := none }
/-- Spindle B on the samples of a period; in the first period of phase 0 its FF serves spindle A at once. -/
def Lane.spindleB (l : Lane) (c : LaneConfig) (g : LoopGains) : Lane :=
  let fs := if c.power then c.powerFs else c.stringFs
  let y := norm l.measured fs
  let r := norm l.reference fs
  let ff := (ffOf c r l.vString).getD l.ffPrev
  let d := if l.vBus ≤ 0 then l.dff else clampI 0 2147483647 (norm ((l.vString : Rat) / l.vBus) 1)
  let b := loopLaw g.kpB g.kiB g.kdB (fun v => ff + v) (-2147483648) 2147483647 l.spB r y
  let l1 := { l with spB := b, ffPrev := ff, dff := d }
  if l.firstPeriod then
    (List.range c.phases).foldl
      (fun z m => match (z.phase m).waitY with | some w => z.spindleA c g m w | none => z)
      { l1 with rNow := ff, dNow := d, firstReady := true }
  else l1
/-- A sample of a phase current reaches spindle A (05 R147, R151). -/
def Lane.phaseSample (l : Lane) (m : Nat) (v : Option Int) : Lane :=
  match l.cfg, l.gains with
  | some c, some g =>
    if !l.loops || c.phases ≤ m then l
    else match v with
      | none => l.updPhase m fun p => { p with loop := { p.loop with
          droppedRun := p.loop.droppedRun + 1, dropped := inc64 p.loop.dropped } }
      | some i =>
        let y := norm i c.phaseFs
        if l.firstPeriod && !l.firstReady then l.updPhase m fun p => { p with waitY := some y } else l.spindleA c g m y
  | _, _ => l
/-- The string current of a period of phase 0 (05 R152, R161): the runs that spindle C keeps. -/
def Lane.periodRuns (l : Lane) : Lane :=
  match l.cfg with
  | none => l
  | some c => { l with
      lowRun := if |l.iString| < (c.iOpen : Int) then l.lowRun + 1 else 0
      busOutRun := if withinI c.vbusMin c.vbusMax l.vBus then 0 else l.busOutRun + 1 }
/-- The string samples of a period are complete, or one was dropped: the reference is formed, and spindle B runs or counts
the sample dropped, once in a period (R147, R150, R154). -/
def State.stringPeriod (s : State) (n : Nat) (dropped : Bool) : State :=
  let l := s.lane n
  match l.cfg, l.gains with
  | some c, some g =>
    if !l.loops || l.stringSeen then s
    else (s.formReference n).updLane n fun x =>
      let y := { x with stringSeen := true }
      if dropped then { y with spB := { y.spB with droppedRun := y.spB.droppedRun + 1, dropped := inc64 y.spB.dropped } }
      else (y.spindleB c g).periodRuns
  | _, _ => s

/-! ## The PWM plan (05 R142, R144) -/

/-- The ON count of a duty in a period (05 R142). -/
def onCount (c : LaneConfig) (d : Int) (p : Nat) : Nat :=
  let on := (roundA ((d : Rat) / (2 ^ 31 : Nat) * p)).toNat
  if on < c.minOn then 0 else if p < on + c.minOn then p else on
/-- `n` periods that share `l` counts, the longer first. -/
def sharePeriods (n l : Nat) : List Nat :=
  if n = 0 then [] else List.replicate (l % n) (l / n + 1) ++ List.replicate (n - l % n) (l / n)
/-- The base strobe rate of the installation. -/
def State.baseB (s : State) : Nat := baseRepeat s.tide.gridHz
/-- The position of the base instant after a position. -/
def nextBase (b p : Nat) : Nat :=
  let cyc := cycleOf p
  let k := ((List.range b).find? fun i => decide (p % 65536 < i * 65536 / b)).getD b
  cyc * 65536 + (if k = b then 65536 else k * 65536 / b)
/-- The clock time of a position, not rounded. -/
def Tide.timeQ (td : Tide) (p : Nat) : Rat :=
  let r := tideRate td.freqUhz
  match td.corrEnd with
  | none => td.anchorNs + (p - td.anchorPos) / r
  | some e =>
    let c : Rat := 1 + (td.corrE : Rat) / (2 ^ 32 : Nat)
    if (p : Rat) ≤ td.posAt e then td.anchorNs + (p - td.anchorPos) / (r * c) else (e : Rat) + (p - td.posAt e) / r
/-- Plan the periods of an interval that starts now at position `pos`; a remainder carried into it is the slip of an
alignment instant that was not met. -/
def State.planInterval (s : State) (n pos : Nat) : State :=
  let l := s.lane n
  match l.cfg with
  | none => s
  | some c =>
    let dt := s.tide.timeQ (nextBase s.baseB pos) - s.now
    let len : Int := (dt * 4).floor + l.carry
    let per := sharePeriods c.pwmN len.toNat
    let l1 := { l with periods := per, carry := 0, pwmSlip := if l.carry = 0 then l.pwmSlip else inc64 l.pwmSlip }
    s.setLane n (l1.updPhase 0 fun p => { p with nextAt := some ((s.now : Rat) - (l.carry : Rat) / 4) })
/-- Re-plan the periods that remain when the extrapolation rate changes; where periods held at ±5 % cannot meet the instant
the remainder is carried. -/
def State.replan (s : State) (n : Nat) : State :=
  let l := s.lane n
  match l.cfg, (l.phase 0).nextAt with
  | some c, some start =>
    let k := l.periods.length
    if k = 0 then s
    else
      let nominal := (tideRate s.tide.freqUhz)⁻¹ * 65536 / s.baseB * 4 / c.pwmN
      let lo := (nominal * (19 / 20)).ceil.toNat
      let hi := (nominal * (21 / 20)).floor.toNat
      let want := (((s.tide.timeQ (nextBase s.baseB s.pos) - start) * 4).floor).toNat
      let per := (sharePeriods k want).map fun p => max lo (min p hi)
      let left : Int := (want : Int) - per.sum
      s.setLane n { l with periods := per, carry := left }
  | _, _ => s
/-- Re-plan every lane. -/
def State.replanAll (s : State) : State := (List.range 8).foldl (fun z n => z.replan n) s
/-- Stop the carrier of a lane: nothing is planned. -/
def Lane.stopCarrier (l : Lane) : Lane :=
  { l with periods := [], carry := 0, phases := l.phases.map fun x => (x.1, { x.2 with nextAt := none }) }
/-- A phase whose gates stay low. -/
def Phase.low (p : Phase) : Phase :=
  { p with
    on := 0, gateH := false, gateL := false, hiRise := 0, hiFall := 0, loFirst := 0, loFall := 0, loRise := 0, loDue := 0
    hiEnd := false }
/-- Force every gate of a lane low; the loops end (05 R139, R141). -/
def Lane.forceGates (l : Lane) : Lane :=
  { l with
    gatesForced := true, phases := l.phases.map fun x => (x.1, { x.2 with switching := false, inFirst := false }.low) }

/-! ## The coulomb counter (04 R122 to R124) -/

/-- The charge of a window, nC (04 R122); none without coefficients. -/
def Icv.charge (v : Icv) (count : Int) (windowNs : Nat) : Option Int :=
  match v.coef with
  | none => none
  | some (off, k) =>
    some (roundA (((count : Rat) - (off : Rat) / 256 * windowNs / 1000000000) * ((k : Rat) / 65536)))
/-- The charge that STROBE samples carry over a span, nC, and whether every part of it was carried: each piece runs from
a sample to the next. -/
def carrySpan (l : List (Nat × Option Int)) (a b : Nat) : Rat × Bool :=
  match l with
  | [] => (0, decide (b ≤ a))
  | (t, v) :: rest =>
    let hi := match rest with | [] => b | (u, _) :: _ => min b u
    let lo := max a t
    let piece : Rat × Bool := if lo < hi then (match v with
      | none => (0, false)
      | some i => ((i : Rat) * (hi - lo : Nat) / 1000, true)) else (0, true)
    let r := match rest with | [] => ((0 : Rat), true) | _ => carrySpan rest a b
    (piece.1 + r.1, piece.2 && r.2)
/-- No sample is held at or before the start of a span. -/
def carryGap (l : List (Nat × Option Int)) (a : Nat) : Bool := !(l.any fun x => decide (x.1 ≤ a))
/-- Carry a span on the samples kept (04 R124). The signed 64-bit accumulator wraps (the spec names no overflow: DESIGN
CHOICE, log entry 144). -/
def Icv.carry (v : Icv) (a b : Nat) : Icv :=
  let r := carrySpan v.strobes a b
  { v with
    acc := wrapS 64 (v.acc + roundA r.1), quality := .sarCarried
    incomplete := v.incomplete || !r.2 || carryGap v.strobes a }
/-- Carry from what has been added up to a moment; a counter that is stopped adds nothing. -/
def Icv.carryTo (v : Icv) (b : Nat) : Icv :=
  let a := v.addedTo.getD v.resetAt
  if v.quality == .stopped || decide (b ≤ a) then v else { v.carry a b with addedTo := some b }
/-- A window has ended and its word has not come. -/
def Icv.awaits (v : Icv) : Bool := decide ((match v.last with | none => 0 | some w => w.endNs) < v.prevEnd)
/-- The pieces of a gap that samples have ended are added; while the word of the window before the gap is awaited, nothing
is, so that no window is counted twice (04 R124). -/
def Icv.reopen (v : Icv) : Icv :=
  if v.partial_ && !v.awaits then (match v.strobes.getLast? with | none => v | some x => v.carryTo x.1) else v
/-- A synchronising reset at a time and tide position (04 R123): the window running begins there, and is partial. The gap
that it opens begins where the counter has added to, and the pieces of it that samples have ended are added (R124). -/
def Icv.reset (v : Icv) (now pos : Nat) : Icv :=
  let v1 := if v.quality == .stopped then v else { v with addedTo := some (v.addedTo.getD v.resetAt), quality := .sarCarried }
  let v2 := { v1 with partial_ := true }.reopen
  { v2 with partial_ := true, resetAt := now, validWords := 0, windowStart := now, windowTag := pos }
/-- The counter starts: nothing has been added since (04 R124). -/
def Icv.start (v : Icv) (now pos : Nat) : Icv :=
  { ({ v with quality := .stopped }.reset now pos) with addedTo := none, quality := .sarCarried }
/-- A STROBE sample: while a gap is open it ends a piece, which is added (04 R124). -/
def Icv.strobed (v : Icv) (hold : Nat) (i : Option Int) : Icv :=
  let v1 := { v with strobes := v.strobes ++ [(hold, i)] }
  if v1.partial_ then (if v1.awaits then v1 else v1.carryTo hold)
  else if v1.prevPartial then v1.carryTo (min hold v1.prevEnd) else v1
/-- The counter stops, with the carry up to the moment. -/
def Icv.stop (v : Icv) (now : Nat) : Icv :=
  if v.quality == .stopped then v
  else
    let from_ := v.addedTo.getD v.resetAt
    { (if from_ < now then v.carry from_ now else v) with quality := .stopped, addedTo := none, lastFull := false, lastI := none }

/-! ## The string current (06 R187, R196, 07 R221, R223, 08 R237) -/

/-- The value of a binary32 pattern; none where it is not finite. -/
def f32 (b : Nat) : Option Rat :=
  let e := b / 2 ^ 23 % 256
  let m : Nat := b % 2 ^ 23
  let mag : Rat := if e = 0 then (m : Rat) / (2 ^ 149 : Nat)
    else if 150 ≤ e then (((m + 2 ^ 23) * 2 ^ (e - 150) : Nat) : Rat)
    else ((m + 2 ^ 23 : Nat) : Rat) / (2 ^ (150 - e) : Nat)
  if e = 255 then none else some (if b / 2 ^ 31 % 2 = 1 then -mag else mag)
/-- The FP32 field at an offset of a parameter set (06 R178). -/
def ParamSet.f (q : ParamSet) (o : Nat) : Rat := (f32 (leAt q.bytes o 4)).getD 0
/-- The parameter set of a type. -/
def State.params (s : State) (typ : Nat) : Option ParamSet := if typ = 0 then none else tget none s.model.params typ
/-- The index of cell c of port p. -/
def cellIx (p c : Nat) : Nat := 18 * p + c
/-- The modelled cells of a port, as cell numbers: marked present and assigned a type (06 R165). -/
def State.modelled (s : State) (p : Nat) : List Nat :=
  (List.range 18).filter fun c => (s.port p).limits.cells.testBit c && (s.cell (cellIx p c)).typ != 0
/-- The parameter sets of the types assigned in a lane. -/
def State.laneParams (s : State) (n : Nat) : List ParamSet :=
  (s.portsOf n).flatMap fun p => (s.modelled p).filterMap fun c => s.params (s.cell (cellIx p c)).typ
/-- C50 of a lane, mA: the smallest C_NOM divided by 180 (07 R221). -/
def State.c50 (s : State) (n : Nat) : Rat :=
  match (s.laneParams n).map (fun q => q.f 16) with
  | [] => 0
  | a :: r => r.foldl min a / 180
/-- The position is a base instant's (05 R144). -/
def isBase (b p : Nat) : Bool := (List.range b).any fun k => p % 65536 == k * 65536 / b
/-- The base instant before one (05 R144). -/
def prevBase (b p : Nat) : Nat :=
  let k := (p % 65536 * b + 65535) / 65536
  if k = 0 then (p / 65536 - 1) * 65536 + (b - 1) * 65536 / b else p / 65536 * 65536 + (k - 1) * 65536 / b
/-- The charge that the models use between two base samples of FULL joins the window it belongs to (06 R177): the one that
awaits its word, for the sample at the window's end. Instants without a sample in between were stepped on the current before
them (06 R175). In SLACK the models use the counter, which holds the words themselves (06 R197). -/
def Icv.baseSample (c : Icv) (freqUhz b tag : Nat) (full : Bool) (v : Option Int) : Icv :=
  let i := v.orElse fun _ => c.lastI
  let nC (mA : Rat) (units : Nat) : Rat := mA * units / 65536 / freqUhz * (10 ^ 12 : Nat)
  let q : Rat := match c.lastI, i with
    | some x, some y =>
      if full && c.lastFull then
        nC x (prevBase b tag - c.lastTag) + nC (((x + y : Int) : Rat) / 2) (tag - max c.lastTag (prevBase b tag))
      else 0
    | _, _ => 0
  let c1 := { c with lastTag := tag, beforeI := c.lastI, lastI := i, lastFull := full }
  if tag ≤ c.windowTag then { c1 with prevCharge := c.prevCharge + q } else { c1 with modelCharge := c.modelCharge + q }
/-- What a STROBE sample changes in its lane. -/
def Lane.strobeSample (l : Lane) (tag hold : Nat) (v : Option Int) : Lane :=
  { l with
    ring := ((tag, v) :: l.ring).take 8
    strobeSum := l.strobeSum + v.getD 0, strobeCnt := l.strobeCnt + (if v.isSome then 1 else 0)
    currentAt100 := (match v with | none => [] | some i => [(hold, i)]) ++
      l.currentAt100.filter fun x => decide (hold ≤ x.1 + 100000000) }
/-- A valid string-current sample of any source against 0.5 % of RATED_CURRENT: rest and slack water (06 R187, R196). -/
def Lane.watchCurrent (l : Lane) (hold : Nat) (i : Int) : Lane :=
  let small := decide (|i| * 200 < l.rated)
  { l with
    restSince := since l.restSince hold (small || l.allOpen)
    rested := l.rested && (small || l.allOpen)
    highRun := if small then 0 else l.highRun + 1
    lowSince := since l.lowSince hold small }
/-- What it changes in a spring tide. -/
def Spring.strobeSample (p : Spring) (c50 : Rat) (hold : Nat) (v : Option Int) : Spring :=
  let inRun := p.phase == .discharge || p.phase == .bottom
  let inTaper := p.phase == .top || p.phase == .bottom
  { p with
    lowSince := since p.lowSince hold (inRun && (match v with | none => false | some i => decide (i ≤ 0)))
    taperSince := since p.taperSince hold
      (inTaper && (match v with | none => false | some i => decide ((|i| : Rat) < c50))) }
/-- A STROBE sample of the string current of a lane, with the no-value marker as none. -/
def State.strobeSample (s : State) (n tag hold : Nat) (v : Option Int) : State :=
  let s1 := ((s.updLane n fun l => l.strobeSample tag hold v).updSpring n fun p => p.strobeSample (s.c50 n) hold v).updIcv n fun c =>
    let c1 := c.strobed hold v
    if isBase s.baseB tag then c1.baseSample s.tide.freqUhz s.baseB tag (s.power.state == .full) v else c1
  if (s1.icv n).incomplete then s1.updSpring n fun p => { p with counterOk := false } else s1

end Sys2Proof.Machine
end

