-- ==== Sys2Proof/Machine/AnalogOps.lean ====
section
/-! DEFINITION. Result records and their consumers, and the meeting of requests on a converter (04). -/

namespace Sys2Proof.Machine

open Sys2Proof

/-! ## Inputs and records (04 R109 to R111, 01 R29, R30) -/

/-- The input is fixed to a lane: a phase current of a configured phase or an input of the string converter. -/
def State.fixedInput (s : State) (k : Nat) : Bool :=
  match (s.lane (k / 12)).cfg with
  | none => false
  | some c => decide (6 ≤ k % 12 ∨ k % 12 < c.phases)
/-- The class an input has by its position in a lane. -/
def positionClass (k : Nat) : InputClass :=
  let i := k % 12
  if i ≤ 6 then .current else if i ≤ 10 then .voltage else .temperature
/-- The class of an input. -/
def State.classOf (s : State) (k : Nat) : InputClass := if s.fixedInput k then positionClass k else (s.input k).cls
/-- The input belongs to an armed lane (04 R135). -/
def State.armedInput (s : State) (k : Nat) : Bool := s.fixedInput k && laneArmed (s.lane (k / 12)).state
/-- VALUE of a mean code (04 R110); none while the input lacks coefficients. -/
def State.valueOf (s : State) (k : Nat) (mean : Rat) (raw : Nat) : Option Int :=
  match s.classOf k, (s.input k).coef with
  | .raw, _ => some raw
  | _, none => none
  | _, some (off, gain) =>
    some (clampI (-2147483647) 2147483647 (roundA ((mean - (off : Rat) / 65536) * ((gain : Rat) / 65536))))
/-- The input of a comparator: 0 the string current, 1 to 6 the phases (09 R261). -/
def compInput (n k : Nat) : Nat := if k = 0 then 12 * n + 6 else 12 * n + k - 1
/-- A threshold in codes of its input; none without coefficients (04 R110, 09 R261). -/
def State.compCode (s : State) (n k thr : Nat) : Option Nat :=
  match (s.input (compInput n k)).coef with
  | none => none
  | some (_, g) => if g = 0 then none else some (roundA ((thr : Rat) * 65536 / g.natAbs)).toNat
/-- Write a lane's thresholds to its comparators, in codes of the coefficients in force (09 R261). -/
def State.compWrite (s : State) (n : Nat) : State :=
  match (s.laneSafe n).ocString, (s.laneSafe n).ocPhase with
  | some str, some ph => (List.range 7).foldl (fun z k => z.updLaneSafe n fun x => { x with
      comps := tset x.comps k { tget {} x.comps k with code := z.compCode n k (if k = 0 then str else ph) } }) s
  | _, _ => s
/-- The 16 bytes of a record (04 R111). -/
def Result.bytes (r : Result) : List Byte :=
  leBytes 4 ((if r.resumed then 1 else 0) + (if r.clip then 2 else 0) + (if r.uncal then 4 else 0)
    + (if r.dropped then 8 else 0) + (if r.timeTag then 16 else 0) + r.source * 2 ^ 8 + r.input * 2 ^ 11 + r.raw * 2 ^ 18)
  ++ leBytes 4 (ofSigned 32 (r.value.getD (-2147483648))) ++ leBytes 8 r.tag
/-- The record of a conversion's codes. -/
def State.recordOf (s : State) (c : Conversion) (codes : List Nat) : Result :=
  let n := codes.length
  let sum := codes.sum
  let raw := if n = 0 then 0 else (2 * sum + n) / (2 * n)
  let v := s.valueOf c.input (if n = 0 then 0 else (sum : Rat) / n) raw
  { tag := c.tag, value := v, raw := raw, input := c.input, source := c.source, timeTag := c.timeTag, dropped := false
    uncal := v.isNone, clip := codes.any fun x => x == 0 || x == 16383, resumed := c.resumed }
/-- The record of a request that is not converted. -/
def droppedRecord (c : Conversion) : Result :=
  { tag := c.tag, value := none, raw := 0, input := c.input, source := c.source, timeTag := c.timeTag, dropped := true }
/-- The status bits of a record (16 R515). -/
def Result.bits (r : Result) : Nat :=
  (if r.resumed then 1 else 0) + (if r.clip then 2 else 0) + (if r.uncal then 4 else 0) + (if r.dropped then 8 else 0)
  + (if r.timeTag then 16 else 0)

/-! ## Consumers (04 R119) -/

/-- Spindle C's watch on the voltages of an arming lane, from KP's closing on: since when the contactor-side voltage has
stayed within PRE_DELTA of the string voltage, and since when the precharge node has counted as above half of it
(05 R160). -/
def State.armWatch (s : State) (n : Nat) : State :=
  let l := s.lane n
  match l.cfg with
  | none => s
  | some c =>
    if l.state == .arming && within 3 5 l.step then
      let near := s.freshPair (12 * n + 10) (12 * n + 7) fun x v => decide (|x - v| * 65536 ≤ (c.preDelta : Int) * v)
      let low := s.freshPair (12 * n + 9) (12 * n + 7) fun x v => decide (2 * x ≤ v)
      s.setLane n { l with inDelta := since l.inDelta s.now near, preHighSince := since l.preHighSince s.now (!low) }
    else s
/-- A record updates its input's latest-value slot and the input's local signal; a heat-sink value is kept for the shed
limit (08 R246). -/
def State.latestRecord (s : State) (r : Result) (hold : Nat) : State :=
  let valid := !r.dropped && !r.uncal
  let s1 := s.updInput r.input fun i =>
    let i1 := { i with latest := some r }
    if valid then { i1 with latestAt := hold, validValue := r.value } else i1
  let n := r.input / 12
  let s2 := if s1.fixedInput r.input && 6 ≤ r.input % 12 then
      (if valid && r.input % 12 = 11 && r.source = 0 && (s1.conv (r.input / 6)).run.any (·.table == 3) then
        s1.updLaneTherm n fun h => { h with hsValue := r.value } else if valid && r.input % 12 = 6 then s1.updLane n fun l => l.watchCurrent hold (r.value.getD 0)
      else s1).armWatch n
    else s1
  match (s2.input r.input).handle with
  | none => s2
  | some h => s2.moduleSignal h 4 r.value
/-- The LOOP item of a lane after a law evaluation (12 R357, R359). -/
def Lane.loopItem (l : Lane) (updated : Nat) : LoopItem :=
  { periodSeq := l.periodSeq, laneState := laneCode l.state
    contactors := (if l.kPos.drive then 4 else 0) + (if l.kNeg.drive then 2 else 0) + (if l.kPre.drive then 1 else 0)
    updated := updated, bInteg := l.spB.integ, bYPrev := l.spB.yPrev.getD 0, ramp := satS 32 (roundA l.ramp)
    dff := l.dff, command := l.command, bOut := l.spB.out
    phases := (List.range 6).map fun m =>
      let p := l.phase m
      (p.loop.integ, p.loop.yPrev.getD 0, match l.cfg with | none => 0 | some c => onCount c p.shadow p.len) }
/-- This module mirrors the lane to its twin (12 R357). -/
def State.mirrorsLane (s : State) (n : Nat) : Bool :=
  match s.laneRole n with | none => false | some o => o.state == .active && o.kind == .twin
/-- The LOOP item goes out after a law evaluation of the phases named (12 R357). -/
def State.sendLoop (s : State) (n updated : Nat) : State :=
  if s.mirrorsLane n && updated != 0 && (s.lane n).loops then s.emit (.loopItem n ((s.lane n).loopItem updated)) else s
/-- The phases whose first-period sample waits for spindle B (05 R151). -/
def Lane.waiting (l : Lane) : Nat :=
  if l.firstPeriod && !l.firstReady then maskOf ((List.range 6).filter fun m => (l.phase m).waitY.isSome) else 0
/-- A PWM record reaches the lane's spindles (05 R145, R147). -/
def State.pwmRecord (s : State) (r : Result) : State :=
  let n := r.input / 12
  let l := s.lane n
  let i := r.input % 12
  if i < 6 then
    (s.setLane n (l.phaseSample i r.value)).sendLoop n
      (if r.value.isSome && (!l.firstPeriod || l.firstReady) then 2 ^ i else 0)
  else if r.dropped then s.stringPeriod n true
  else if i = 6 then s.setLane n { l with iString := r.value.getD l.iString }
  else if i = 8 then s.setLane n { l with vBus := r.value.getD l.vBus }
  else ((s.setLane n { l with vString := r.value.getD l.vString }).stringPeriod n false).sendLoop n l.waiting
/-- A record to the consumer of one source. -/
def State.consume (s : State) (r : Result) (c : Conversion) (source : Nat) : State :=
  match source with
  | 0 => s.updConv (r.input / 6) fun v => { v with run := v.run.map fun x => { x with records := x.records ++ [r] } }
  | 1 => s.strobeSample (r.input / 12) r.tag c.holdAt r.value
  | 2 => s.pwmRecord r
  | 3 => s.gridRecord r.input c.holdAt r.value
  | 4 => s.event evTripSample 4 r.input (cause := c.cause) (v0 := r.value)
      (v1 := if r.dropped then none else some (r.raw : Int)) (v2 := some (r.bits : Int)) (at_ := some r.tag)
  | 5 | 6 => (c.src.toList ++ c.alsoSrc).foldl
      (fun z q => z.answer q 0x0704 (if r.dropped then stUrgentDropped else stOk) [.struct r.bytes]) s
  | _ => s
/-- A record to every consumer that shares the conversion. -/
def State.deliver (s : State) (r : Result) (c : Conversion) : State :=
  (c.source :: c.also).foldl (fun z q => z.consume { r with source := q } c q) (s.latestRecord r c.holdAt)

/-! ## Requests on a converter (04 R112 to R118) -/

/-- Urgent sources. -/
def urgentSource (n : Nat) : Bool := within 1 5 n
/-- The fields of a table entry (04 R116). -/
def entryInput (e : BitVec 32) : Nat := e.toNat % 8
def entryAverage (e : BitVec 32) : Nat := e.toNat / 32 % 8
def entryGap (e : BitVec 32) : Nat := e.toNat / 256 % 256
/-- A table entry keeps the fields of R116. -/
def tableEntryOk (e : BitVec 32) : Bool :=
  decide (entryInput e ≤ 5) && decide (entryAverage e ≤ 4) && e.toNat / 8 % 4 == 0 && decide (e.toNat < 65536)
/-- A table of a converter. -/
def Converter.table (v : Converter) (k : Nat) : List (BitVec 32) := tget [] v.tables k
/-- The table run is in short mode. -/
def Converter.shortMode (v : Converter) : Bool :=
  match v.run with | none => false | some r => decide (r.entries.length ≤ 8)
/-- The instants of armed scheduled requests of a converter. -/
def State.scheduledAt (s : State) (k : Nat) : List Nat :=
  let n := k / 2
  let strobes := if k % 2 = 1 then
      (s.table.armed.filter fun a => a.content.kind == 1 && a.content.arg0.testBit n).map fun a => a.t0 else []
  let pwm := ((s.lane n).phases.filter fun x => k % 2 == 0 || x.1 == 0).filterMap fun x => x.2.nextAt.map fun q => q.ceil.toNat
  let grid := if s.gridRuns && s.gridLane == some n then [s.lh.lastEval + 50000] else []
  strobes ++ pwm ++ grid
/-- A non-urgent conversion does not start within 270 ns before a scheduled request (04 R113). -/
def State.clearOf (s : State) (k h : Nat) : Nat :=
  match (s.scheduledAt k).find? fun x => decide (h ≤ x ∧ x < h + 270) with
  | none => h
  | some x => x
/-- The next entry of the table run as a conversion. -/
def Converter.nextEntry (v : Converter) (k at_ : Nat) : Option Conversion :=
  match v.run with
  | none => none
  | some r =>
    match r.entries[r.index]? with
    | none => none
    | some e => some
        { input := 6 * k + entryInput e, source := 0, holdAt := max at_ (r.gapUntil.getD 0), tag := 0
          timeTag := !r.byFiring, left := 2 ^ entryAverage e, entry := some r.index }
/-- An urgent conversion that follows back to back holds when the one before it has ended, and its record carries the tag of
its own hold instant (04 R111, R114). -/
def State.holdFrom (s : State) (c : Conversion) (at_ : Nat) : Conversion :=
  if at_ ≤ c.holdAt then c else { c with holdAt := at_, tag := if c.timeTag then at_ else s.posAt at_ }
/-- Start what a converter is to do next, from a moment: urgent conversions, an aborted one, a SOFT or CAL request, the
next table entry. -/
def State.startNext (s : State) (k at_ : Nat) : State :=
  let v := s.conv k
  match v.urgent with
  | c :: r => s.setConv k { v with running := some (s.holdFrom c at_), urgent := r }
  | [] =>
    match v.aborted with
    | some c => s.setConv k { v with running := some { c with holdAt := s.clearOf k (max at_ c.holdAt) }, aborted := none }
    | none =>
      let e := v.nextEntry k at_
      match v.soft with
      | c :: r =>
        let first := match e with | none => true | some x => decide (c.holdAt ≤ at_ ∨ c.holdAt ≤ x.holdAt)
        if first then s.setConv k { v with running := some { c with holdAt := s.clearOf k (max at_ c.holdAt) }, soft := r }
        else s.setConv k { v with running := e.map fun x => { x with holdAt := s.clearOf k x.holdAt } }
      | [] => s.setConv k { v with running := e.map fun x => { x with holdAt := s.clearOf k x.holdAt } }
/-- A request that is not converted: counted, and its consumer told. -/
def State.dropRequest (s : State) (k : Nat) (c : Conversion) (collide : Bool) : State :=
  (s.updConv k fun v => if collide then { v with urgentCollide := (v.urgentCollide + 1 + c.also.length) % 2 ^ 64 }
    else { v with urgentDropped := inc64 v.urgentDropped }).deliver (droppedRecord c) c
/-- Two waiting lists in source-code order. -/
def mergeUrgent (a b : List Conversion) : List Conversion := (a ++ b).mergeSort fun x y => decide (x.source ≤ y.source)
/-- Requests of which one holds, with what follows it and the one that is not converted. -/
structure Meeting where
  first : Conversion
  rest : List Conversion
  lost : Option Conversion
/-- A request `c` with `rest` behind it meets the urgent conversion `r` with `tail` behind it (04 R114): at the same instant
they share a conversion of the same first input, else the lower code holds; at another instant `c` is not converted. -/
def meetUrgent (r : Conversion) (tail : List Conversion) (c : Conversion) (rest : List Conversion) : Meeting :=
  if r.holdAt = c.holdAt then
    if r.input = c.input then
      let lo := if c.source < r.source then c else r
      let hi := if c.source < r.source then r else c
      { first := { lo with
          also := (if lo.source = hi.source then [] else [hi.source]) ++ r.also ++ c.also
          alsoSrc := hi.src.toList ++ r.alsoSrc ++ c.alsoSrc, cause := max r.cause c.cause }
        rest := mergeUrgent tail rest, lost := none }
    else if c.source < r.source then { first := c, rest := rest, lost := some r }
    else { first := r, rest := tail, lost := some c }
  else { first := r, rest := tail, lost := some c }
/-- The request is a scheduled one: STROBE, PWM or LIGHTHOUSE (04 R112). -/
def Conversion.scheduled (c : Conversion) : Bool := within 1 3 c.source
/-- The request that a meeting leaves unconverted is told so. -/
def State.loseRequest (s : State) (k : Nat) : Option Conversion → State
  | none => s
  | some c => s.dropRequest k c true
/-- An urgent request, its inputs in order, at its instant (04 R112, R114, R117, R118). A non-urgent conversion that would
start less than 270 ns before a scheduled request has not been started for it (R113). -/
def State.urgentRequest (s : State) (k : Nat) : List Conversion → State
  | [] => s
  | c :: rest =>
    let v := s.conv k
    if v.stopped then s
    else match v.running with
    | none => s.setConv k { v with running := some c, urgent := rest }
    | some r =>
      if urgentSource r.source && r.holdAt = c.holdAt then
        let m := meetUrgent r v.urgent c rest
        (s.setConv k { v with running := some m.first, urgent := m.rest }).loseRequest k m.lost
      else if r.holdAt + 250 ≤ c.holdAt then
        match v.urgent with
        | [] => s.setConv k { v with urgent := c :: rest }
        | u :: us =>
          let m := meetUrgent u us c rest
          (s.setConv k { v with urgent := m.first :: m.rest }).loseRequest k m.lost
      else if urgentSource r.source then s.dropRequest k c true
      else if c.holdAt ≤ r.holdAt || (c.scheduled && decide (c.holdAt < r.holdAt + 270)) then
        s.setConv k { v with running := some c, urgent := rest, aborted := some r }
      else if r.source = 0 && v.shortMode then s.dropRequest k c false
      else
        s.setConv k { v with
          running := some c, urgent := rest, aborted := some { r with resumed := true }
          resumedCount := inc64 v.resumedCount }
/-- The converter stands in the GAP before a table entry that it has not begun, and that was not aborted (04 R113, R118). -/
def Conversion.parked (c : Conversion) (now : Nat) : Bool :=
  c.source == 0 && c.codes.isEmpty && !c.resumed && decide (now < c.holdAt)
/-- A non-urgent request: served at once while no table runs or its table stands in a GAP, else at the next boundary. -/
def State.softRequest (s : State) (k : Nat) (c : Conversion) : State :=
  let v := s.conv k
  if v.stopped then s
  else
    let idle := v.running.all fun r => r.parked s.now
    let s1 := s.setConv k { v with soft := v.soft ++ [c], running := if idle then none else v.running }
    if idle then s1.startNext k c.holdAt else s1
/-- A table start (04 R115). -/
def State.startTable (s : State) (k table : Nat) (byFiring : Bool) (at_ : Nat) : State :=
  let v := s.conv k
  if v.stopped || (v.table table).isEmpty then s
  else if v.run.isSome then
    if v.pendingStart.isSome then s.setConv k { v with seqOverrun := inc64 v.seqOverrun }
    else s.setConv k { v with pendingStart := some (table, byFiring) }
  else
    let r : TableRun := { table := table, entries := v.table table, queue := tget none v.queues table, byFiring := byFiring }
    let s1 := s.setConv k { v with run := some r }
    if v.running.isNone then s1.startNext k at_ else s1
/-- A conversion at the clock time, tagged with the tide position or the clock time. -/
def State.conversion (s : State) (input source : Nat) (timeTag : Bool) : Conversion :=
  { input := input, source := source, holdAt := s.now, tag := if timeTag then s.now else s.pos, timeTag := timeTag }
/-- The commands that wait for a record of a converter. -/
def Converter.waitingSrcs (v : Converter) : List Source :=
  (v.running.toList ++ v.urgent ++ v.soft ++ v.aborted.toList).flatMap fun c => c.src.toList ++ c.alsoSrc
/-- ANALOG.CONVERT and ANALOG.CAL_POINT that still wait as the converters stop on entry to BEACHED are answered BEACHED (06
R199; the spec does not say what becomes of them: DESIGN CHOICE, log entry 142). -/
def State.refuseAnalog (s : State) : State :=
  let s1 := (List.range 16).foldl (fun z k => ((z.conv k).waitingSrcs).foldl (fun y q => y.answer q 0x0704 stBeached []) z) s
  let s2 := s1.ana.calJobs.foldl (fun z j => z.answer j.src 0x0706 stBeached []) s1
  let s3 := { s2 with ana := { s2.ana with calJobs := [] } }
  (List.range 8).foldl (fun z n => match (z.icv n).cal with
    | none => z
    | some j => (z.updIcv n fun v => { v with cal := none, calWords := [] }).answer j.src 0x0706 stBeached []) s3
/-- The TRIP requests of a lane's trip on both converters (09 R260). -/
def State.tripRequests (s : State) (n cause : Nat) : State :=
  let m := match (s.lane n).cfg with | none => 0 | some c => c.phases
  let mk (i : Nat) : Conversion := { s.conversion (12 * n + i) 4 false with cause := cause }
  (s.urgentRequest (2 * n) ((List.range m).map mk)).urgentRequest (2 * n + 1) [mk 6]

end Sys2Proof.Machine
end

