-- ==== Sys2Proof/Machine/CanOps.lean ====
section
/-! DEFINITION. The container bus: frames, arbitration, targets, and how transmit requests end (15 R426 to R439). What the
spec takes from ISO 11898-1 (R430, R436) stands in log entry 67. -/

namespace Sys2Proof.Machine

open Sys2Proof

/-! ## Frames (R434, R440) -/

/-- The DLC of a number of data bytes, if one encodes it. -/
def dlcOf (n : Nat) : Option Nat :=
  if n ≤ 8 then some n
  else match n with | 12 => some 9 | 16 => some 10 | 20 => some 11 | 24 => some 12 | 32 => some 13 | 48 => some 14 | 64 => some 15 | _ => none
/-- The identifier has 11 bits, or 29. -/
def idOk (ide : Bool) (id : Nat) : Bool := decide (id < if ide then 2 ^ 29 else 2 ^ 11)
/-- A frame that may be sent: remote frames and up to 8 bytes in Classical CAN, bit rate switching in CAN FD only. -/
def canFrameOk (f : CanFrame) : Bool :=
  idOk f.ide f.id && (dlcOf f.data.length).isSome && (f.fdf || (f.data.length ≤ 8 && !f.brs)) && !(f.fdf && f.rtr)
/-- The arbitration field as a number: the lower wins (R430). -/
def canArb (f : CanFrame) : Nat :=
  if f.ide then f.id / 2 ^ 18 * 2 ^ 21 + 2 ^ 20 + 2 ^ 19 + f.id % 2 ^ 18 * 2 + (if f.rtr then 1 else 0)
  else f.id * 2 ^ 21 + (if f.rtr then 2 ^ 20 else 0)
/-- The transmitter is error passive (R436). -/
def Can.passive (c : Can) : Bool := decide (128 ≤ c.tec ∨ 128 ≤ c.rec_)
/-- The filter accepts a frame (R433). -/
def filterAccepts (x : CanFilter) (f : CanFrame) : Bool :=
  x.ide == f.ide && (x.id ^^^ f.id) &&& x.mask == 0 && x.formats.testBit (if f.rtr then 2 else if f.fdf then 1 else 0)
/-- The first filter that accepts a frame: its number and target. -/
def Can.matching (c : Can) (f : CanFrame) : Option (Nat × FilterTarget) :=
  (List.range 64).findSome? fun i => match tget none c.filters i with
    | none => none
    | some x => if filterAccepts x f then some (i, x.target) else none
/-- The 16 bytes of a received frame's header (R434). -/
def rxHeader (ctl start : Nat) (filter : Option Nat) (f : CanFrame) : List Byte :=
  let b (k : Nat) (c : Bool) : Nat := if c then 2 ^ k else 0
  leBytes 16 (start % 2 ^ 64 * 2 ^ 64 + f.data.length * 2 ^ 56 + filter.getD 0 * 2 ^ 50 + b 49 filter.isNone + ctl * 2 ^ 48
    + f.dlc % 16 * 2 ^ 44 + b 43 f.fdf + b 42 f.brs + b 41 f.esi + b 40 f.ide + b 39 f.rtr
    + (if 48 < f.data.length then 2 else 1) * 2 ^ 37 + f.id % 2 ^ 29)
/-- The entries of a received frame: one up to 48 bytes of data, otherwise two. -/
def rxEntries (ctl start : Nat) (filter : Option Nat) (f : CanFrame) : List Byte :=
  fitBytes (if 48 < f.data.length then 128 else 64) (rxHeader ctl start filter f ++ f.data)
/-- The 64 bytes of an outcome's entry (R432). -/
def outcomeEntry (o : TxOutcome) : List Byte :=
  fitBytes 64 (leBytes 16 (o.time % 2 ^ 64 * 2 ^ 64 + o.txSeq % 2 ^ 32 * 2 ^ 32 + o.outcome * 2 ^ 16 + o.lastError * 2 ^ 13
    + o.attempts * 2 ^ 8 + o.buffer * 4 + o.controller * 2 + (if o.abortLate then 1 else 0)))

/-! ## Targets (R434) -/

/-- The target of a FIFO: 0 FIFO0, 1 FIFO1, 2 HP, 3 TX_EVENT. -/
def canTarget (c : CanConfig) : Nat → CanTarget
  | 0 => c.fifo0 | 1 => c.fifo1 | 2 => c.hp | _ => c.txEvent
/-- Entries that records take. -/
def entriesOf (l : List (List Byte)) : Nat := (l.map fun r => r.length / 64).sum
/-- Store a record of one or two entries in a target with room for it. -/
def State.canPut (s : State) (ctl which : Nat) (bytes : List Byte) : Option State :=
  match (s.canCtl ctl).cfg.map fun c => canTarget c which with
  | some (.queue q) =>
    let x := s.queue q
    let n := bytes.length / 64
    if x.k = 0 ∨ x.size < x.fill + n then none
    else
      let s1 := (List.range n).foldl (fun z i => z.lpWrite (x.slotAddr (x.pi + i)) (slice bytes (64 * i) 64)) s
      some ((s1.setQueue q { x with pi := (x.pi + n) % 2 ^ 32 }).queueMoved q x.fill)
  | some (.path _) =>
    let l := tget [] (s.canCtl ctl).paths which
    if 256 < entriesOf l + bytes.length / 64 then none
    else some (s.updCanCtl ctl fun c => { c with paths := tset c.paths which (l ++ [bytes]) })
  | _ => none
/-- A frame that found no room: FULL_DROPS of the queue and RX_LOST. -/
def State.rxLose (s : State) (ctl which : Nat) : State :=
  let s1 := s.updCanCtl ctl fun c => { c with rxLost := inc64 c.rxLost }
  match (s.canCtl ctl).cfg.map fun c => canTarget c which with
  | some (.queue q) => s1.setQueue q { s1.queue q with fullDrops := satInc 32 (s1.queue q).fullDrops }
  | _ => s1

/-! ## How requests end (R431, R432) -/

abbrev coSent : Nat := 0
abbrev coRetries : Nat := 1
abbrev coAborted : Nat := 2
abbrev coTimeout : Nat := 3
abbrev coBusOff : Nat := 4
abbrev coDisabled : Nat := 5

/-- A buffer of a controller. -/
def State.txBuf (s : State) (ctl b : Nat) : TxBuf := tget {} (s.canCtl ctl).bufs b
def State.updTxBuf (s : State) (ctl b : Nat) (f : TxBuf → TxBuf) : State :=
  s.updCanCtl ctl fun c => { c with bufs := tset c.bufs b (f (tget {} c.bufs b)) }
/-- Write an outcome to TX_EVENT, or hold it in its buffer until there is room. -/
def State.putOutcome (s : State) (ctl b : Nat) (o : TxOutcome) : State :=
  match s.canPut ctl 3 (outcomeEntry o) with
  | some s1 => s1.updTxBuf ctl b fun x => { x with heldRec := none }
  | none => s.updTxBuf ctl b fun x => { x with heldRec := some o }
/-- An outcome reaches the send block of the slot that owns the buffer at its next snapshot. -/
def State.tellSlot (s : State) (owner : OutSource) (o : TxOutcome) : State :=
  match owner with
  | .slot n => s.updSlot n fun x => { x with canOut := x.canOut ++ [o] }
  | _ => s
/-- A request ends with an outcome. -/
def State.endTx (s : State) (ctl b outcome : Nat) (late : Bool := false) : State :=
  let x := s.txBuf ctl b
  match x.req with
  | none => s
  | some r =>
    let o : TxOutcome := { time := r.startAt.getD s.now, txSeq := r.txSeq, outcome := outcome, lastError := r.lastError
                           attempts := r.attempts, buffer := b, controller := ctl, abortLate := late }
    let s1 := (s.updTxBuf ctl b fun y => { y with req := none, last := some outcome }).putOutcome ctl b o
    if r.reference then s1 else s1.tellSlot x.owner o
/-- Every pending request of a controller ends. -/
def State.endAllTx (s : State) (ctl outcome : Nat) : State :=
  (List.range 32).foldl (fun z b => z.endTx ctl b outcome) s
/-- Pending requests of both controllers end DISABLED (R439). -/
def State.canBeach (s : State) : State := (s.endAllTx 0 coDisabled).endAllTx 1 coDisabled
/-- Both controllers are DISABLED, TX recessive (R439). -/
def State.canOff (s : State) : State :=
  [0, 1].foldl (fun z k => z.updCanCtl k fun c => { c with mode := .disabled, air := none, integrating := true }) s.canBeach
/-- Abort the request of a buffer: one whose attempt is on the bus lets it finish. -/
def State.abortTx (s : State) (ctl b outcome : Nat) : State :=
  match (s.txBuf ctl b).req with
  | none => s
  | some r =>
    if r.onBus then s.updTxBuf ctl b fun x => { x with req := x.req.map fun y => { y with ending := some outcome } }
    else s.endTx ctl b outcome
/-- The requests of a tenant that stops running are aborted. -/
def State.abortSlotTx (s : State) (n : Nat) : State :=
  [0, 1].foldl (fun z k => (List.range 32).foldl (fun y b =>
    if (y.txBuf k b).owner == .slot n && !((y.txBuf k b).req.any fun r => r.reference) then y.abortTx k b coAborted else y) z) s

/-! ## Requests (R429, R430, R437) -/

/-- TB31 is reserved for reference messages. -/
def Can.reserved (c : Can) (b : Nat) : Bool := b == 31 && c.master.isSome
/-- The frame as it is sent: DLC and ESI from the controller. -/
def canToSend (f : CanFrame) : CanFrame := { f with dlc := (dlcOf f.data.length).getD 0, esi := false }
/-- Place a request in a free buffer. -/
def State.placeTx (s : State) (ctl b txSeq : Nat) (f : CanFrame) (reference : Bool := false) : State :=
  s.updTxBuf ctl b fun x => { x with
    req := some { frame := canToSend f, txSeq := txSeq, acceptedAt := s.now, reference := reference } }
/-- The controller may transmit. -/
def Can.sends (c : Can) : Bool := c.mode == .normal
/-- A send request of a tenant's send block, made at a publication (R429, R436); one that its buffer cannot take has no
effect (log entry 68). -/
def State.slotSend (s : State) (n ctl b count : Nat) (f : CanFrame) : State :=
  let c := s.canCtl ctl
  let x := s.txBuf ctl b
  if decide (2 ≤ ctl) || decide (32 ≤ b) || !canFrameOk f then s
  else if x.owner != .slot n || c.reserved b then s.updCanCtl ctl fun y => { y with notOwner := inc64 y.notOwner }
  else if x.req.isSome || x.heldRec.isSome then s
  else if !c.sends || (f.fdf && !(c.cfg.any fun g => g.fd)) then s
  else
    let s1 := s.placeTx ctl b (count % 2 ^ 32) f
    if c.busOff then s1.endTx ctl b coBusOff else s1
/-- The pending request that would win arbitration against the others; between equal frames the lower buffer. -/
def Can.winner (c : Can) : Option Nat :=
  (List.range 32).foldl (fun (w : Option Nat) b =>
    let key (i : Nat) : Option Nat := ((tget {} c.bufs i).req.map fun r => canArb r.frame)
    match key b, w with
    | none, _ => w
    | some _, none => some b
    | some k, some v => if decide (k < (key v).getD 0) then some b else w) none

end Sys2Proof.Machine
end

