-- ==== Sys2Proof/Machine/FabricOps.lean ====
section
/-! DEFINITION. Ring space, DMA channels, completion records and aborts (13 R375 to R395). -/

namespace Sys2Proof.Machine

open Sys2Proof

/-! ## Ring space (R375 to R377) -/

/-- Bytes of the queue ring region (01 R25). -/
def ringBytes : Nat := 512 * 1048576
/-- Rings that exist: base and bytes. -/
def State.rings (s : State) : List (Nat × Nat) :=
  (s.fab.queues.filter fun x => x.2.k != 0).map fun x => (x.2.base, 64 * x.2.size)
/-- The next multiple of `n`. -/
def alignUp (n a : Nat) : Nat := (a + n - 1) / n * n
/-- The lowest free block of `n` bytes in a range, aligned to `al`; the blocks in use are given. -/
def lowestFree (lo size n al : Nat) (used : List (Nat × Nat)) : Option Nat :=
  let fits (a : Nat) : Bool := decide (a + n ≤ lo + size) && used.all fun u => decide (u.1 + u.2 ≤ a ∨ a + n ≤ u.1)
  ((lo :: used.map fun u => lo + alignUp al (u.1 + u.2 - lo)).filter fits).min?
/-- Create a queue: PI and CI are 0 and the ring is not cleared. -/
def State.createQueue (s : State) (q k prod cons thr owner : Nat) (created : Bool) : Option State :=
  (lowestFree ringRegion ringBytes (64 * 2 ^ k) (64 * 2 ^ k) s.rings).map fun b =>
    s.setQueue q { k := k, base := b, prod := prod, cons := cons, threshold := thr, owner := owner, created := created }
/-- Destroy a queue: its ring space is freed unchanged. -/
def State.destroyQueue (s : State) (q : Nat) : State :=
  let s1 := { s with mbox := { s.mbox with noticePending := s.mbox.noticePending.filter (· != q) } }
  { s1 with fab := { s1.fab with queues := s1.fab.queues.filter fun x => x.1 != q } }

/-! ## Addresses (R387, R388) -/

/-- SPACE and offset of an address. -/
def addrSpace (a : Nat) : Nat := a / 2 ^ 60
def addrOff (a : Nat) : Nat := a % 2 ^ 48
/-- An address keeps the fields of R387. -/
def addrOk (a : Nat) : Bool :=
  decide (a < 2 ^ 64) && decide (addrSpace a ≤ 3) && a / 2 ^ 48 % 4096 == 0
  && (addrSpace a != 3 || decide (addrOff a < 32768))
/-- The address is a queue. -/
def isQueue (a : Nat) : Bool := addrSpace a == 3
/-- Bytes of the spaces with memory of the module. -/
def spaceBytes : Nat → Nat
  | 0 => 3584 * 1048576 | 1 => 6815744 | _ => 2 ^ 48

/-! ## Completion records (R392) -/

/-- The 32 bytes of a record. -/
def Record.bytes (r : Record) : List Byte :=
  leBytes 4 ((if r.abortLate then 4 else 0) + (if r.overrun = 0 then 0 else 2) + (if r.tail then 1 else 0) + r.status * 256)
  ++ leBytes 4 r.seq ++ leBytes 1 r.channel ++ leBytes 1 r.user ++ leBytes 2 r.overrun ++ leBytes 4 r.bytesDone
  ++ leBytes 8 r.time ++ leBytes 8 r.desc
/-- The record of a channel's current descriptor. -/
def Channel.record (c : Channel) (ch : Nat) (d : Desc) (status : Nat) (tail : Bool) : Record :=
  { desc := d.addr, time := c.beatAt, bytesDone := c.done_, overrun := min c.overrun 65535, user := d.user, channel := ch
    seq := c.seq, status := status, abortLate := c.abortLate, tail := tail }
/-- A record is formed: SEQ counts, and the counters of R396. -/
def Channel.formed (c : Channel) (r : Record) : Channel :=
  { c with seq := (c.seq + 1) % 2 ^ 32, lastRec := some r, byStatus := tset c.byStatus r.status (inc64 (tget 0 c.byStatus r.status)) }
/-- A completion queue takes records: it exists with a HARDWARE producer side. -/
def State.cqOk (s : State) (q : Nat) : Bool := (s.queue q).k != 0 && (s.queue q).prod == 1
/-- Append a record to its queue; NOTIFY raises the notice whatever the level. -/
def State.putRecord (s : State) (q : Nat) (notify : Bool) (r : Record) : State :=
  let x := s.queue q
  let s1 := s.lpWrite (x.slotAddr x.pi) (fitBytes 64 r.bytes)
  (s1.setQueue q { x with pi := (x.pi + 1) % 2 ^ 32 }).queueMoved q x.fill notify
/-- Write the record of a descriptor, or hold it while its queue is full; whether it was written. -/
def State.writeRecord (s : State) (ch : Nat) (d : Desc) (r : Record) : Bool × State :=
  let s1 := s.updChannel ch fun c => c.formed r
  if !s.cqOk d.cq then (true, s1)
  else if (s.queue d.cq).fill < (s.queue d.cq).size then (true, s1.putRecord d.cq d.notify r)
  else (false, s1.updChannel ch fun c => { c with
    held := some r, heldSince := some s.now, stallSeen := false, cqWait := inc64 c.cqWait })
/-- A channel's current descriptor ends with a status and the channel stops. -/
def State.endDescriptor (s : State) (ch : Nat) (d : Desc) (status : Nat) : State :=
  let r := (s.channel ch).record ch d status false
  let w := s.writeRecord ch d r
  w.2.updChannel ch fun c => { c with
    state := .stopped, desc := if w.1 then none else c.desc, started := false, lastGranted := false, abortReq := false
    abortLate := false, rereading := false, pendingBell := false }

/-! ## Aborts (R394, R395) -/

/-- Abort a channel. -/
def State.abortChannel (s : State) (ch : Nat) : State :=
  let c := s.channel ch
  match c.state with
  | .running =>
    if c.held.isSome then s.setChannel ch { c with state := .stopped, pendingBell := false }
    else match c.desc with
    | none => s.setChannel ch { c with state := .stopped, pendingBell := false }
    | some d =>
      if c.rereading || !c.started then
        s.setChannel ch { c with state := .stopped, desc := none, rereading := false, pendingBell := false }
      else if c.lastGranted then s.setChannel ch { c with abortReq := true, abortLate := true }
      else s.endDescriptor ch d 1
  | _ => s.setChannel ch { c with state := .stopped, abortIdle := inc64 c.abortIdle, pendingBell := false }
/-- Abort the channels of a list. -/
def State.abortChannels (s : State) (l : List Nat) : State := l.foldl (fun z c => z.abortChannel c) s
/-- The channels of a tenant slot. -/
def State.tenantChannels (s : State) (n : Nat) : List Nat :=
  (List.range 64).filter fun c => (s.channel c).owner == .tenant n
/-- Channels 16 to 63. -/
def openChannels : List Nat := (List.range 48).map (· + 16)

end Sys2Proof.Machine
end

