-- ==== Sys2Proof/Machine/Places.lean ====
section
/-! DEFINITION. The module's own entries of the tide table (02 R517): what the present configuration puts into them. -/

namespace Sys2Proof.Machine

open Sys2Proof

/-- The lanes that are configured, as a mask (02 R517). -/
def State.configuredMask (s : State) : Nat := s.laneMask (· != .unconfigured)
/-- The default offset of a cycle group: group 0 at the first tide unit from 600 µs on (11 R328). -/
def groupDefault (b g : Nat) : Nat := if g = 0 then (if b = 17 then 2360 else 1967) else 0
/-- The offset of a cycle group in force (11 R328, R346). -/
def State.groupOffset (s : State) (g : Nat) : Nat := (tget none s.table.groupOffset g).getD (groupDefault s.baseB g)
/-- The running graph of a slot, else the staged one (11 R342). -/
def Slot.graph (x : Slot) : Option Graph := x.running.orElse fun _ => x.staged
/-- The base of a slot's window (11 R325). -/
def Slot.windowBase (x : Slot) : Nat := match x.running with | none => 0 | some g => g.base
/-- The slot is to run from its next cycle instant (11 R320): its role is held, no stop is in force and, where it is
SUSPENDED, the die is NORMAL again; a slot on a failed engine stays STOPPED (R325). -/
def State.slotWants (s : State) (x : Slot) : Bool :=
  !x.stop && x.running.isSome && !(s.engine x.engine).fault && (s.power.state == .full || s.power.state == .slack)
  && (match s.ownRole x.role with | none => false | some o => o.state == .active || o.state == .standby)
  && (x.state == .stopped || (x.state == .suspended && s.therm.die.state == .normal))
/-- A tenant of the group is ACTIVE or SHADOW, or is to be from its next cycle instant (11 R328; DEDUCED, log entry 43). -/
def State.groupRuns (s : State) (g : Nat) : Bool :=
  s.ten.slots.any fun x => (x.2.state == .active || x.2.state == .shadow || s.slotWants x.2)
    && ((match x.2.graph with | none => false | some y => y.group == g)
      || (x.2.switching && x.2.staged.any fun y => y.group == g))
/-- What an entry of the module's own holds in the present configuration, entries 0 to 25 (02 R517). -/
def State.placed (s : State) (i : Nat) : TideEntry :=
  let b := s.baseB
  let on := s.power.state == .full || s.power.state == .slack
  if i < 8 then
    { periodic := true, enable := on, kind := 3, repeat_ := 1, period := 1, arg0 := 2 ^ i }
  else if i = 8 then
    { periodic := true, enable := on, kind := 1, repeat_ := b, period := 1, arg0 := s.configuredMask }
  else if i = 9 then
    { periodic := true, enable := s.power.state == .slack, kind := 1, repeat_ := 1, period := if b = 17 then 6 else 5
      arg0 := s.configuredMask }
  else if i < 18 then
    (if (s.lane (i - 10)).cfg.isSome then
      { periodic := true, enable := on, kind := 2, repeat_ := b, period := 1, arg0 := 2 * (i - 10) + 1, arg1 := 3 }
    else {})
  else
    { position := s.groupOffset (i - 18), periodic := true, enable := on && s.groupRuns (i - 18), kind := 5, repeat_ := b
      period := 1, arg0 := i - 18 }
/-- The entry holds those contents. -/
def sameContents (a b : TideEntry) : Bool := entryWord { a with missed := 0, fireCount := 0, late := false, fired := false, expired := false }
  == entryWord { b with missed := 0, fireCount := 0, late := false, fired := false, expired := false }
/-- Write the entries that the present configuration changes (02 R517). -/
def State.placeEntries (s : State) : State :=
  (List.range 26).foldl (fun z i => if sameContents (z.entry i) (z.placed i) then z else z.writeEntry i (z.placed i)) s

end Sys2Proof.Machine
end

