-- ==== Sys2Proof/Machine/SlotOps.lean ====
section
/-! DEFINITION. What becomes of a tenant slot's signals when the tenant stops running, and of what follows them (11 R320,
R321, 04 R130, 05 R154). -/

namespace Sys2Proof.Machine

open Sys2Proof

/-- A signal without a value. -/
def SigVal.gone (v : SigVal) : SigVal := { v with value := none, absent := true, held := false }
/-- The lanes whose set-point source is one of these signals have lost it, or have it again (05 R154). -/
def State.sourcesLost (s : State) (hs : List Nat) (lost : Bool) : State :=
  (List.range 8).foldl (fun z n =>
    match (z.lane n).cfg with
    | none => z
    | some c => match c.source with
      | .signal h => if hs.contains h then z.updLane n fun l => { l with lostSources := lost } else z
      | _ => z) s
/-- The outputs that follow one of these signals go to their safe values (04 R130, 08 R247). -/
def State.followersSafe (s : State) (hs : List Nat) : State :=
  let named (o : OutSource) : Bool := match o with | .signal h => hs.contains h | _ => false
  let s1 := (List.range 8).foldl (fun z k => if named (z.dac k).source then z.dacSafe k else z) s
  (List.range 8).foldl (fun z k => if named (z.aux k).source then z.auxValue k none else z) s1
/-- What a tenant that stops running leaves to end: its channels and its transmit requests (13 R395, 15 R431). -/
def State.tenantAborts (s : State) (n : Nat) : State := (s.abortChannels (s.tenantChannels n)).abortSlotTx n
/-- A tenant no longer publishes: its local signals are absent, and where it was ACTIVE its transfers and requests end. -/
def State.slotAbsent (s : State) (n : Nat) : State :=
  let hs := (s.slot n).localHandles
  let s1 := (hs.foldl (fun z h => z.publishLocal h (z.sigLocal h).gone) s).sourcesLost hs true
  if (s.slot n).state == .active then s1.tenantAborts n else s1
/-- A slot goes to STOPPED, or to EMPTY. -/
def State.slotTo (s : State) (n : Nat) (st : SlotState) : State :=
  if (s.slot n).state == .empty then s
  else ((s.slotAbsent n).updSlot n fun x => { x with state := st, inCycle := false, cycleDone := false }).placeEntries
/-- A slot is SUSPENDED: its signals keep their values with HELD set, and what follows them has lost its source. -/
def State.slotSuspend (s : State) (n : Nat) : State :=
  let hs := (s.slot n).localHandles
  let s1 := s.updSlot n fun x => { x with state := .suspended, inCycle := false, cycleDone := false }
  let s2 := hs.foldl (fun z h => z.updSigLocal h fun v => { v with held := true }) s1
  (((s2.sourcesLost hs true).followersSafe hs).tenantAborts n).placeEntries
/-- The numbers of the slots that hold something. -/
def State.slotNumbers (s : State) : List Nat := s.ten.slots.map (·.1)
/-- ENFORCE suspends the SHEDDABLE tenants (11 R320, 08 R252). -/
def State.suspendTenants (s : State) : State :=
  s.slotNumbers.foldl (fun z n =>
    let x := z.slot n
    if (x.state == .active || x.state == .shadow) && (match x.running with | none => false | some g => g.sheddable) then
      z.slotSuspend n else z) s
/-- Every slot is STOPPED (11 R333). -/
def State.stopTenants (s : State) : State := s.slotNumbers.foldl (fun z n => z.slotTo n .stopped) s

end Sys2Proof.Machine
end

