-- ==== Sys2Proof/Machine/SoundOps.lean ====
section
/-! DEFINITION. Sounding steps and spring tides: their messages, and the ways they end (07 R203 to R211, R220 to R223). -/

namespace Sys2Proof.Machine

open Sys2Proof

/-! ## Outcomes of a step and causes of a failed spring tide, in the order 07 names them (log entry 36) -/

abbrev ocNoPartner : Nat := 1
abbrev ocMismatch : Nat := 2
abbrev ocUnbalanced : Nat := 3
abbrev ocTideUnsettled : Nat := 4
abbrev ocPartnerEnded : Nat := 5
abbrev ocAlone : Nat := 6
abbrev ocCancelled : Nat := 7
abbrev ocHelm : Nat := 8
abbrev ocLaneState : Nat := 9
abbrev ocComplete : Nat := 10

abbrev scInterrupted : Nat := 1
abbrev scPortLost : Nat := 2
abbrev scTimeout : Nat := 3
abbrev scLaneState : Nat := 4
abbrev scStopped : Nat := 5

/-! ## Messages (07 R206 to R208) -/

/-- A lane's step, by its slot, changed. -/
def State.updStep (s : State) (n slot : Nat) (f : SoundStep → SoundStep) : State :=
  s.updLaneSound n fun x => x.mapSteps fun a =>
    if a.slot == slot && a.phase != .ended then f a else a
/-- The tide-table entries of the capture strobes of a lane (02 R517). -/
def captureEntries (n : Nat) : List Nat := [32 + 3 * n, 33 + 3 * n, 34 + 3 * n]
/-- The capture of a step, decided on, has not ended. -/
def SoundStep.capturePending (a : SoundStep) : Bool :=
  a.capture && (a.phase == .enabled || a.phase == .running || a.phase == .capturing)
/-- The capture entries of a lane disabled, unless a step decided on still needs them (07 R211). -/
def State.captureOff (s : State) (n : Nat) : State :=
  if (s.laneSound n).steps.any SoundStep.capturePending then s
  else (captureEntries n).foldl (fun z e => z.freeEntryAt e) s
/-- The capture entries of a lane enabled (07 R212). -/
def State.captureOn (s : State) (n : Nat) : State :=
  let b := s.baseB
  ([1, 2, 3] : List Nat).foldl (fun z j => z.writeEntry (31 + 3 * n + j)
    { position := j * 65536 / (4 * b), periodic := true, enable := true, kind := 1, repeat_ := b, period := 1
      arg0 := 2 ^ n }) s
/-- The number of the base instant at a position; none off a base instant (07 R205, 06 R172). -/
def baseIndex (b pos : Nat) : Option Nat :=
  ((List.range b).find? fun k => pos % 65536 == k * 65536 / b).map fun k => cycleOf pos * b + k
/-- The position of a base instant. -/
def basePos (b i : Nat) : Nat := i / b * 65536 + i % b * 65536 / b
/-- The mean of a list; none of an empty one. -/
def meanOf (l : List Rat) : Option Rat := if l.isEmpty then none else some (l.sum / l.length)
/-- The mean string current, mA, of the capture instants of the last half of a step, and I_ref, over those of a capture that
count (07 R214); oldest first. -/
def stepCurrents (b : Nat) (a : SoundStep) (use : CapSample → Bool) (l : List CapSample) : Option Rat × Option Rat :=
  let i0 := (baseIndex b a.start).getD 0
  let p0 := basePos b (i0 + a.length / 2)
  let p1 := basePos b (i0 + a.length)
  let cur (x : List CapSample) : Option Rat := meanOf ((x.filter use).filterMap fun f => f.current.map fun v => (v : Rat))
  (cur (l.filter fun f => decide (p0 ≤ f.tag) && decide (f.tag < p1))
  , cur ((l.filter fun f => decide (f.tag < a.start)).reverse.take 40))
/-- STEP_SHORT (07 R216). -/
def stepShort (a : SoundStep) (c : Option Rat × Option Rat) : Bool :=
  match c with
  | (some m, some r) => decide (0 < (m - r) * a.stepMa) && decide (|m - r| * 100 < |(a.stepMa : Rat)| * 80)
  | _ => false
/-- The capture of a step on a port, oldest first. -/
def SoundStep.capOf (a : SoundStep) (p : Nat) : List CapSample := (tget [] a.caps p).reverse
/-- The step's currents on a port, frames missed left out. -/
def SoundStep.currents (a : SoundStep) (b p : Nat) : Option Rat × Option Rat :=
  stepCurrents b a (fun f => !f.volts.isEmpty) (a.capOf p)
/-- The currents of a step that SOUND.RESULT_READ gives for a port. -/
def SoundStep.run (a : SoundStep) (b p : Nat) : SoundRun :=
  let c := a.currents b p
  { set_ := a.set_, step := a.step, port := p, mean := c.1, iRef := c.2 }
/-- A step that ended early gives no fit: its records carry the first that applies of CLIPPED, DISTURBED, STEP_SHORT and ENDED
(07 R209, R216). -/
def State.endedResults (s : State) (n : Nat) (a : SoundStep) : State :=
  let code (p : Nat) : Nat := if a.clipped then 1 else if a.disturbed then 2
    else if stepShort a (a.currents s.baseB p) then 3 else 4
  let recs (p : Nat) : List SoundResult := (List.range 18).map fun c =>
    { rhoObs := none, residual := none, kappaObs := none, cell := c, reject := code p, set_ := a.set_, step := a.step
      kappaFit := false, used := false, accepted := false }
  s.updLaneSound n fun x => { x with
    results := (s.portsOf n).foldl (fun t p => tset t p (tget [] t p ++ recs p)) x.results
    runs := x.runs ++ (s.portsOf n).map (a.run s.baseB) }
/-- The step is over: its entry freed, its outcome recorded. -/
def State.stepEnded (s : State) (n : Nat) (a : SoundStep) (outcome : Nat) : State :=
  let s1 := s.updStep n a.slot fun x => { x with
    phase := .ended, outcome := outcome, endedEarly := x.endedEarly || outcome != ocComplete }
  let s2 := if (s.entry a.entry).kind == 4 then s1.freeEntryAt a.entry else s1
  let s3 := if a.capture && a.phase != .scheduled then s2.captureOff n else s2
  let s4 := if a.capture && outcome != ocComplete && a.phase != .scheduled && a.phase != .enabled then s3.endedResults n a else s3
  s4.event evSoundStepEnd 1 n (cause := outcome)
/-- A SOUND message of a step. -/
def State.soundMsg (s : State) (n : Nat) (a : SoundStep) (kind reason : Nat) : SoundMsg :=
  let o := s.laneRole n
  { kind := kind, reason := reason, set_ := a.set_, step := a.step, length := a.length, source := s.tide.source
    start := a.start, stepMa := a.stepMa, stepW := a.stepW, laneRole := (o.map (·.role)).getD 0
    laneEpoch := (o.map (·.epoch)).getD 0 }
/-- A READY meets a step of its partner's: it matches, or differs (07 R206). One of another SET or STEP differs, unless it is
for another step of the lane. -/
def readyMeets (pos : Nat) (m : SoundMsg) (other : Bool) (a : SoundStep) : SoundStep :=
  let same := a.set_ == m.set_ && a.step == m.step
  if a.partnerRole == m.laneRole && (a.phase == .scheduled || a.phase == .enabled)
      && decide ((cycleOf a.start - 4) * 65536 ≤ pos) && (same || !other) then
    if same && a.start == m.start && a.length == m.length && decide (a.stepMa * m.stepMa < 0) then
      { a with readyOk := true, partnerW := m.stepW, partnerSource := m.source }
    else { a with readyDiff := true }
  else a
/-- The step that a SOUND message is about: of its SET, STEP and START, with its sender as partner. -/
def LaneSound.meant (x : LaneSound) (m : SoundMsg) : Option SoundStep :=
  x.steps.find? fun a => a.set_ == m.set_ && a.step == m.step && a.start == m.start && a.partnerRole == m.laneRole
    && a.phase != .ended
/-- The module that holds the partner's LANE role ACTIVE is another: a SOUND message goes to it, on both LANs (07 R207). -/
def State.sendSoundOut (s : State) (n : Nat) (a : SoundStep) (kind reason : Nat) : State :=
  match s.otherHolder a.partnerRole with
  | none => s
  | some (b, _) =>
    let m := s.soundMsg n a kind reason
    s.sendReliable b b (.sound m) m.laneRole m.laneEpoch a.partnerRole a.partnerEpoch
/-- The lane of this module that holds the partner's LANE role ACTIVE. -/
def State.soundInside (s : State) (a : SoundStep) : Option Nat :=
  match s.ownRole a.partnerRole with
  | some o => if o.state == .active then some o.local_ else none
  | none => none
/-- The effect of a SOUND message at the lane it addresses; an END that meets a step not yet started abandons it, with an END
to the partner, which on this module has ended its own already (07 R206, R208). -/
def State.soundArrives (s : State) (n : Nat) (m : SoundMsg) : State :=
  if m.kind = 1 then
    let other := (s.laneSound n).steps.any fun a =>
      a.set_ == m.set_ && a.step == m.step && a.partnerRole == m.laneRole && a.phase != .ended
    s.updLaneSound n fun x => x.mapSteps (readyMeets s.pos m other)
  else match (s.laneSound n).meant m with
  | none => s
  | some a =>
    if m.kind = 2 then s.updStep n a.slot fun x => { x with activeSeen := true }
    else if a.phase == .running then
      s.updStep n a.slot fun x => { x with endAtAlign := true, outcome := ocPartnerEnded }
    else if a.phase == .scheduled || a.phase == .enabled then
      let s1 := s.stepEnded n a ocPartnerEnded
      if (s.soundInside a).isSome then s1 else s1.sendSoundOut n a 3 ocPartnerEnded
    else s
/-- Send a SOUND message to the partner's LANE role; between two lanes of one module it passes inside the module. -/
def State.sendSound (s : State) (n : Nat) (a : SoundStep) (kind reason : Nat) : State :=
  match s.soundInside a with
  | some k => s.soundArrives k (s.soundMsg n a kind reason)
  | none => s.sendSoundOut n a kind reason
/-- Abandon a step before START: END goes to the partner (07 R206, R209). -/
def State.abandonStep (s : State) (n : Nat) (a : SoundStep) (outcome : Nat) : State :=
  (s.stepEnded n a outcome).sendSound n a 3 outcome
/-- End the steps of a lane that match: a running one at the next alignment instant, one before START at once; a capture
after its step ends with the step (07 R209). -/
def State.endSteps (s : State) (n outcome : Nat) (p : SoundStep → Bool) : State :=
  ((s.laneSound n).steps.filter p).foldl (fun z a =>
    if a.phase == .running then
      (z.updStep n a.slot fun x => { x with endAtAlign := true, outcome := outcome, endedEarly := true }).sendSound n a 3
        outcome
    else if a.phase == .scheduled || a.phase == .enabled then z.abandonStep n a outcome
    else z) s
/-- STEP_W of a step at the string voltage of the latest base instant (07 R203). -/
def State.stepWatts (s : State) (n : Nat) (mA : Int) : Int := roundA ((mA : Rat) * (s.lane n).vBase / 1000000)
/-- The conditions of R205 that must still hold while a step is scheduled: the status of the first that fails. -/
def State.soundBlocked (s : State) (n : Nat) : Option Nat :=
  let role := match s.laneRole n with | none => false | some o => o.state == .active
  if !role then some stNotHelm
  else if (s.lane n).state != .run then some stNotRun
  else if (s.spring n).profile.isSome then some stSpringActive
  else none
/-- The tide and the servo are settled (07 R205). -/
def State.tideSettled (s : State) : Bool :=
  (s.tide.quality == .lockedTwo || s.tide.quality == .lockedOne)
  && s.servo.state == .locked && elapsedO s.servo.lockedSince (60 * 10 ^ 9) s.now
/-- One-shot entries in use by steps, changes and graph activations, enabled or not (02 R517). -/
def State.usedEntries (s : State) : List Nat :=
  ((List.range 8).flatMap fun n => ((s.laneSound n).steps.filter fun a => a.phase != .ended).map fun a => a.entry)
  ++ s.net.changes.filterMap (fun c => c.entry)
  ++ (List.range 256).filterMap fun k => (s.slot k).activateAt.map Prod.snd

/-! ## Spring tides (07 R221, R223) -/

/-- A spring tide runs from CHARGE to BOTTOM. -/
def Spring.out (p : Spring) : Bool := p.profile.isSome
/-- A spring tide ends FAILED; in RUN it goes to RETURN, else to IDLE. -/
def State.springFail (s : State) (n cause : Nat) : State :=
  let p := s.spring n
  if p.phase == .idle then s
  else if p.out then
    (s.setSpring n { p with
      phase := if (s.lane n).state == .run then .return_ else .idle, phaseAt := s.now, outcome := 2, failCause := cause
      lastFailedAt := some s.now, gathering := false }).event evSpringFailed 1 n (cause := cause)
  else if (s.lane n).state != .run then s.setSpring n { p with phase := .idle, phaseAt := s.now }
  else s
/-- What a lane's leaving of RUN ends: its soundings and its spring tide. -/
def State.runLeft (s : State) (n outcome : Nat) : State := (s.endSteps n outcome fun _ => true).springFail n scLaneState

end Sys2Proof.Machine
end

