-- ==== Sys2Proof/Machine/SafetyOps.lean ====
section
/-! DEFINITION. The safety layer's shared operations: trips and latches, close permissives, safe outputs, fault windows,
BARE ROCK and safety core faults (09 R258 to R286). -/

namespace Sys2Proof.Machine

open Sys2Proof

/-! ## Trip causes (09 R259) -/

abbrev trOvercurrent : Nat := 0x01
abbrev trCellOv : Nat := 0x02
abbrev trCellUv : Nat := 0x03
abbrev trCellHw : Nat := 0x04
abbrev trCellTemp : Nat := 0x05
abbrev trHeatsink : Nat := 0x06
abbrev trPrecursor : Nat := 0x07
abbrev trPortLost : Nat := 0x08
abbrev trEstop : Nat := 0x09
abbrev trFire : Nat := 0x0A
abbrev trSafeLink : Nat := 0x0B
abbrev trRemote : Nat := 0x0C
abbrev trSafetyCore : Nat := 0x0D
abbrev trSafeOut : Nat := 0x0E
abbrev trBareRock : Nat := 0x0F
abbrev trBusRange : Nat := 0x20
abbrev trLoopSample : Nat := 0x21
abbrev trMismatch : Nat := 0x22
abbrev trContactor : Nat := 0x23
abbrev trWeldSuspect : Nat := 0x24
/-- 18 R486. -/
abbrev trPowerFail : Nat := 0x25

/-- The cause sets the lane latch. -/
def latchesLane (c : Nat) : Bool := [0x01, 0x02, 0x03, 0x04, 0x05, 0x07, 0x0B, 0x0C].contains c
/-- The cause sets the module latch. -/
def latchesModule (c : Nat) : Bool := [0x09, 0x0A, 0x0D, 0x0E].contains c
/-- SOURCE of a LANE_TRIP (16 R516). -/
def tripSource (c : Nat) : Nat :=
  if c = 0x01 ∨ c = 0x0D ∨ c = 0x25 then 6 else if c ≤ 0x08 then 4 else if c ≤ 0x0F then 5 else 0

/-! ## Received links (09 R277, R281) -/

/-- A DATA bit of a received link; in SAFE every bit is 1. -/
def LinkRx.bit (r : LinkRx) (i : Nat) : Bool := r.safe || r.bits.testBit i
/-- The lanes and safe outputs that an action names. -/
def actLanes : BitAction → Nat
  | .trip m => m | .tripOutputs m _ => m | _ => 0
def actOuts : BitAction → Nat
  | .outputs m => m | .tripOutputs _ m => m | _ => 0
/-- The trip cause that the received bits hold on a lane, if any. -/
def State.linkTrip (s : State) (n : Nat) (safe : Bool) : Bool :=
  s.safety.rx.any fun r => r.safe == safe && r.actions.any fun a => r.bit a.1 && (actLanes a.2).testBit n
/-- Any received link is in SAFE. -/
def State.linkSafe (s : State) : Bool := s.safety.rx.any (·.safe)

/-! ## What is active (09 R259, R264, R273) -/

/-- ESTOP is active: a channel is low, or the discrepancy has not been recovered (09 R267). -/
def State.estopActive (s : State) : Bool := !s.safety.estopA || !s.safety.estopB
/-- FIRE is active. -/
def State.fireActive (s : State) : Bool := s.safety.fireEnable && !s.safety.fireIn
/-- The voltage of a cell in the latest frame of the safety path; the marker is no value (00 R5). -/
def State.safeVolt (s : State) (p c : Nat) : Option Nat :=
  match (s.port p).safety with
  | none => none
  | some f => match f.volts[c]? with | some 65535 => none | v => v
/-- A present cell of the lane lies beyond a limit in its latest frame. -/
def State.cellBeyond (s : State) (n : Nat) (above : Bool) : Bool :=
  let x := s.laneSafe n
  x.badCells.any fun k =>
    match s.safeVolt k.1 k.2, (if above then x.ov else x.uv) with
    | some v, some lim => if above then decide (lim < v) else decide (v < lim)
    | _, _ => false
/-- The valid samples of the sensors of a lane. -/
def State.laneTemps (s : State) (n : Nat) : List Int :=
  (s.portsOf n).flatMap fun p => (List.range 6).filterMap fun i =>
    if (s.port p).limits.temps.testBit i && !(s.sensor (6 * p + i)).lost then (s.sensor (6 * p + i)).last.map Prod.fst
    else none
/-- A trip cause is active on a lane. -/
def State.causeActive (s : State) (n c : Nat) : Bool :=
  let x := s.laneSafe n
  let h := s.laneTherm n
  match c with
  | 0x01 => x.comps.any fun k => k.2.tripped || k.2.readBad
  | 0x02 => s.cellBeyond n true
  | 0x03 => s.cellBeyond n false
  | 0x04 => (s.portsOf n).any fun p => (s.port p).hwLimit
  | 0x05 => (s.laneTemps n).any fun t => decide (h.cfg.tripHigh ≤ t ∨ t ≤ h.cfg.tripLow)
  | 0x06 => match s.sample (12 * n + 11) with | none => false | some v => decide (h.cfg.hsTrip ≤ v)
  | 0x07 => h.precursor
  | 0x08 => elapsedO x.derateSince (x.portLostTime * 1000000) s.now
  | 0x09 => s.estopActive || (s.safety.discrepancy && !elapsedO s.safety.bothHighSince 1000000000 s.now)
  | 0x0A => s.fireActive
  | 0x0B => s.linkTrip n true
  | 0x0C => s.linkTrip n false
  | 0x0D => s.safety.coreFault.isSome
  | 0x0E => s.safety.outFault
  | 0x0F => s.power.state == .bareRock
  | _ => false
/-- A cause that holds arrives at a lane unless it has held there since before, is recorded and, where it latches, has set
its latch (09 R260; DEDUCED, log entry 42). -/
def State.arrives (before : State) (n c : Nat) : Bool :=
  !((before.lane n).state == .tripped && before.causeActive n c
    && (!([0x01, 0x02, 0x03, 0x04, 0x05, 0x07, 0x0B, 0x0C].contains c) || (before.laneSafe n).latchCauses.contains c))
/-- SFA grants the close permissive of a lane (09 R264). -/
def State.permissive (s : State) (n : Nat) : Bool :=
  let x := s.laneSafe n
  !s.latched n
  && !((List.range 16).any fun c => s.causeActive n c)
  && (s.portsOf n).all (fun p => (s.port p).state == .run)
  && x.ov.isSome && x.uv.isSome && x.badCells.isEmpty
  && (s.power.state == .full || s.power.state == .slack)

/-! ## SRC_STATE and the safe outputs (09 R268, R275) -/

/-- SRC_STATE. -/
def State.srcState (s : State) : Nat :=
  let b (k : Nat) (c : Bool) : Nat := if c then 2 ^ k else 0
  b 31 s.safety.moduleLatch + b 30 s.estopActive + b 29 s.fireActive + b 28 (s.power.state == .bareRock)
  + b 27 s.linkSafe + s.laneMask (· == .tripped) * 2 ^ 16
  + maskOf ((List.range 8).filter fun n => (s.laneSafe n).latch) * 2 ^ 8
/-- A safe output is driven: no cause of its mask is active and no received bit names it. -/
def State.safeOut (s : State) (k : Nat) : Bool :=
  s.safety.outConfigured && s.safety.coreFault.isNone
  && decide (tget 0xE000FF00 s.safety.outMask k &&& s.srcState = 0)
  && !(s.safety.rx.any fun r => r.actions.any fun a => r.bit a.1 && (actOuts a.2).testBit k)

/-! ## Trips and latches (09 R259, R260, 05 R140, R162) -/

/-- Insert a cause in a list kept in code order. -/
def addCause (c : Nat) (l : List Nat) : List Nat := insertAsc c l
/-- A latch that covers the lane is set, where the cause sets one. -/
def State.latchFor (s : State) (n c : Nat) : State :=
  if latchesLane c then
    s.updLaneSafe n fun x => { x with latch := true, latchCauses := addCause c x.latchCauses }
  else if latchesModule c then
    { s with safety := { s.safety with moduleLatch := true, moduleCauses := addCause c s.safety.moduleCauses } }
  else s
/-- De-energise the three contactor outputs together; their feedbacks are checked T_FB later (05 R162). -/
def Lane.openAll (l : Lane) (now : Nat) : Lane :=
  { ((l.driveK 0 false now).driveK 1 false now).driveK 2 false now with
    opening := [], openWatch := [0, 1, 2], openAt := now, decayDue := none }
/-- The lane goes to TRIPPED. -/
def Lane.toTripped (l : Lane) (c now : Nat) : Lane :=
  { (l.forceGates.openAll now) with state := .tripped, cause := c, failName := 0, step := 0, stepAt := now }
/-- A trip of one cause on one lane. -/
def State.tripLane (s : State) (n c : Nat) (v0 : Option Int := none) : State :=
  let l := s.lane n
  if l.state == .unconfigured then s
  else
    let s1 := (s.latchFor n c).event evLaneTrip 1 n (cause := c) (v0 := v0) (src := some (tripSource c))
    let s2 := { s1 with safety := { s1.safety with trips := tset s1.safety.trips c (inc64 (tget 0 s1.safety.trips c)) } }
    if l.state == .tripped then s2
    else ((s2.setLane n (l.toTripped c s.now)).runLeft n ocLaneState).tripRequests n c
/-- Causes that meet on one lane at one moment, in code order: the lowest is the primary cause. -/
def State.tripCauses (s : State) (n : Nat) (cs : List Nat) : State :=
  (cs.mergeSort (· ≤ ·)).foldl (fun z c => z.tripLane n c) s
/-- A trip of every lane. -/
def State.tripAll (s : State) (c : Nat) : State := (List.range 8).foldl (fun z n => z.tripLane n c) (s.latchFor 0 c)
/-- Set the module latch for a cause without a trip. -/
def State.setModuleLatch (s : State) (c : Nat) : State :=
  { s with safety := { s.safety with moduleLatch := true, moduleCauses := addCause c s.safety.moduleCauses } }

/-! ## Abandoned sequences (05 R140, R160) -/

/-- The contactors that an abandoned arming sequence opens, in the order K+, KP, K−. -/
def Lane.energised (l : Lane) : List Nat := ([1, 2, 0] : List Nat).filter fun k => (l.contactor k).drive
/-- Step number of a sequence that only opens its contactors. -/
abbrev stepOpening : Nat := 10
/-- Open the next contactor of an abandoned sequence; the lane is DISARMED once the last is open. -/
def Lane.openNext (l : Lane) (now : Nat) : Lane :=
  match l.opening with
  | [] => { l with state := .disarmed, step := 0, stepAt := now }
  | k :: r =>
    let l1 := { l.driveK k false now with opening := r, openingAt := now }
    if r.isEmpty then { l1 with state := .disarmed, step := 0, stepAt := now } else l1
/-- Abandon an arming sequence; a recorded cause makes ARM_ABORTED. -/
def State.abandonArming (s : State) (n : Nat) (cause : Option Nat) : State :=
  let l := s.lane n
  if l.state == .arming && l.step != stepOpening then
    let s1 := s.setLane n ({ l with step := stepOpening, opening := l.energised }.openNext s.now)
    match cause with | none => s1 | some c => s1.event evArmAborted 1 n (cause := c)
  else s
/-- A lane in SHADOW without its close permissive drives no contactor output (05 R157). -/
def State.shadowOpens (s : State) (n : Nat) : State :=
  if (s.lane n).state == .shadow then
    s.updLane n fun l => ((l.driveK 1 false s.now).driveK 0 false s.now).driveK 2 false s.now
  else s
/-- Every lane whose close permissive has gone abandons its arming, or drives no output in SHADOW (05 R157, R160). -/
def State.recheckArming (s : State) : State :=
  (List.range 8).foldl (fun z n =>
    if z.permissive n then z else (z.abandonArming n (some stNotPermitted)).shadowOpens n) s

/-! ## Faults within windows (09 R282) -/

abbrev fwTapCrc : Nat := 0
abbrev fwPathDisagree : Nat := 1
abbrev fwEcc : Nat := 2
abbrev fwCopyMismatch : Nat := 3
abbrev fwSingleCopy : Nat := 4
abbrev fwSafetyCore : Nat := 5
abbrev fwBareRock : Nat := 6

/-- Default N of each source. -/
def winDefaultN : List Nat := [5, 3, 10, 3, 20, 3, 3]
/-- Default W of each source, ns. -/
def winDefaultW : List Nat :=
  [10 ^ 9, 10 ^ 9, 3600 * 10 ^ 9, 3600 * 10 ^ 9, 10 ^ 9, 3600 * 10 ^ 9, 86400 * 10 ^ 9]
def State.winN (s : State) (k : Nat) : Nat := (tget none s.safety.winN k).getD (winDefaultN.getD k 1)
def State.winW (s : State) (k : Nat) : Nat := (tget none s.safety.winW k).getD (winDefaultW.getD k 0)
/-- Object kind of a source's records (16 R515). -/
def winKind (k : Nat) : Nat := if k ≤ 1 then 2 else if k = 2 then 12 else if k = 3 then 8 else 0
/-- The times held of a source and object. -/
def State.winTimes (s : State) (k o : Nat) : List Nat :=
  match s.safety.windows.find? fun w => w.source == k && w.object == o with | none => [] | some w => w.times
/-- Count a fault event: whether it is lasting, and the state with its record. -/
def State.faultEvent (s : State) (k o : Nat) : Bool × State :=
  let n := s.winN k
  let w := s.winW k
  let times := (s.now :: s.winTimes k o).take n
  let inW := times.filter fun t => decide (s.now < t + w ∨ s.now = t)
  let lasting := decide (n ≤ inW.length)
  let s1 := { s with safety := { s.safety with
      windows := { source := k, object := o, times := times } :: s.safety.windows.filter fun x =>
        !(x.source == k && x.object == o)
      transients := if lasting then s.safety.transients else tset s.safety.transients k (inc64 (tget 0 s.safety.transients k))
      lastings := if lasting then tset s.safety.lastings k (inc64 (tget 0 s.safety.lastings k)) else s.safety.lastings } }
  (lasting, s1.event (if lasting then evFaultLasting else evFaultTransient) (winKind k) (if winKind k = 0 then 0 else o)
    (v0 := some (k : Int)) (v1 := some (inW.length : Int)) (v2 := some (w : Int)))
/-- OBJECT of a link (log entry 37): sender berth and LINK_ID. -/
def linkObject (berth link : Nat) : Nat := berth * 65536 + link
/-- Another SINGLE_COPY; a lasting fault is a NETWORK_FAULT. -/
def State.singleCopyFault (s : State) : State :=
  let r := s.faultEvent fwSingleCopy 0
  if r.1 then r.2.raise evNetworkFault 0 0 else r.2

/-! ## Helm lines, BARE ROCK and safety core faults (09 R258, R284) -/

/-- Stop driving every helm line. -/
def State.dropHelmLines (s : State) : State :=
  (List.range 8).foldl (fun z n => z.updLane n fun l => { l with helmOut := false, wantHelm := false, helmRaisedAt := none }) s
/-- Every DAC goes to its SAFE_CODE, every pump output to its SAFE_DUTY, every tachometer stops, every TSOUT is low. -/
def State.outputsSafe (s : State) : State :=
  let s1 := (List.range 8).foldl (fun z k => if (z.dac k).source == .none_ && !(z.dac k).written then z else z.dacSafe k) s
  let s2 := (List.range 8).foldl (fun z k => if (z.aux k).configured then z.auxValue k none else z) s1
  { s2 with tsout := s2.tsout.map fun (x : Nat × TsOut) => (x.1, { x.2 with level := false, endAt := none }) }
/-- Stop every converter. -/
def State.stopConverters (s : State) : State :=
  (List.range 16).foldl (fun z k => z.updConv k fun v =>
    { v with stopped := true, running := none, urgent := [], soft := [], aborted := none, run := none, pendingStart := none }) s
/-- Stop every coulomb counter, with its carry (04 R124). -/
def State.stopCounters (s : State) : State := (List.range 8).foldl (fun z n => z.updIcv n fun v => v.stop s.now) s
/-- What stops on entry to BARE ROCK (09 R284 step 3). -/
def State.enginesOff (s : State) : State :=
  let s1 := ((s.stopCounters.stopConverters).outputsSafe).stopTenants
  let s2 := { s1 with fab := { s1.fab with stopped := true } }.dropArmed
  if s2.servo.state == .holdover then s2 else s2.toHoldover
/-- Roles other than MODULE are held no longer. -/
def State.loseRoles (s : State) : State :=
  { s with net := { s.net with own := s.net.own.map fun (o : OwnRole) => { o with state := .none_, sync := .none_ } } }
/-- The tide coasts on its last rate (02 R64): both instances are silent. -/
def State.tideCoasts (s : State) : State :=
  let td := s.tide.reanchor s.now
  { s with tide := { td with
      inst := td.inst.map (fun (x : Nat × TideInst) => (x.1, { x.2 with silent := true })), agreeRun := 0 } }.takeQuality
/-- Mailboxes are served no more: sessions end, what executes is not answered, and observe falls to none (14 R406, 17 R467,
R469). -/
def State.mailboxesOff (s : State) : State :=
  let s1 := (s.mbox.sessions.map (·.id)).foldl (fun z i => z.endSession i) s
  { s1 with
    sec := if s1.sec.debug == .observe then { s1.sec with debug := .none_, debugSession := none } else s1.sec
    mbox := { s1.mbox with
      ready := false
      boxes := (s1.mbox.boxes.filter fun b => b.path != .service).map fun (b : Mailbox) => { b with executing := none } } }
/-- Enter BARE ROCK for a cause (09 R283, R284); a further cause inside BARE ROCK is added to those active. -/
def State.enterRock (s : State) (cause : Nat) (v0 : Option Int := none) : State :=
  let s0 := { s.countFull with safety := { s.safety with rockActive := addCause cause s.safety.rockActive } }
  if s.power.state == .bareRock then s0
  else
    let s0 := s0.canOff.flushCache
    let s1 := { s0 with
      power := { s0.power with state := .bareRock, beach := none, part := none }
      safety := { s0.safety with rock := some (cause, (v0.getD 0).toNat), rockStrobeAt := s.now, rockStrobes := 0 } }
    let r := (((s1.event evBareRockEnter 0 0 (cause := cause) (v0 := v0)).abortChannels openChannels).dropHelmLines).faultEvent
      fwBareRock 0
    let s2 := { r.2 with safety := { r.2.safety with rockHold := r.2.safety.rockHold || r.1 } }
    let s3 := (List.range 8).foldl (fun z n => if laneArmed (z.lane n).state then z.tripLane n trBareRock else z) s2
    s3.enginesOff.loseRoles.tideCoasts.mailboxesOff
/-- A safety core fault (09 R258): every lane tripped by hardware, the module latch set, safe outputs and helm lines off. -/
def State.coreFault (s : State) : State :=
  let s1 := { s with safety := { s.safety with coreFault := some s.now } }
  let s2 := (s1.tripAll trSafetyCore).dropHelmLines
  let r := s2.faultEvent fwSafetyCore 0
  { r.2 with safety := { r.2.safety with resetHold := r.2.safety.resetHold || r.1 } }

end Sys2Proof.Machine
end

