-- ==== Sys2Proof/Machine/ModelOps.lean ====
section
/-! DEFINITION. The cell model, its filter, its outputs, learned values and learned commits, roughing estimates (06 R165 to
R195, 16 R443 to R453). -/

namespace Sys2Proof.Machine

open Sys2Proof

/-! ## Learned blocks (06 R192) -/

/-- A field of a learned record: its units rounded and held within the width. -/
def quant (v : Option Rat) (scale : Nat) (lo hi : Int) : Option Int := v.map fun x => clampI lo hi (roundA (x * scale))
/-- The 32 bytes of a cell record; C in mC of As, ρ in UQ4.12, Δpl in 0.1 mV, isd in µA. -/
def Learned.bytes (l : Learned) : List Byte :=
  leBytes 8 l.learnedAt ++ leBytes 4 (ofSigned 32 ((quant l.iSd 1000000 (-2147483647) 2147483647).getD (-2147483648)))
  ++ leBytes 2 (((quant l.plOffsetSd 10000 0 65534).map Int.toNat).getD 65535)
  ++ leBytes 2 (ofSigned 16 ((quant l.plOffset 10000 (-32767) 32767).getD (-32768)))
  ++ leBytes 2 (((quant l.rhoSd 4096 0 65534).map Int.toNat).getD 65535)
  ++ leBytes 2 (((quant l.rho 4096 0 65534).map Int.toNat).getD 65535)
  ++ leBytes 4 (((quant l.capacitySd 1000 0 4294967294).map Int.toNat).getD 4294967295)
  ++ leBytes 8 (ofSigned 64 ((quant l.capacity 1000 (-9223372036854775807) 9223372036854775807).getD (-9223372036854775808)))
/-- An unsigned field with its marker as none. -/
def unsMark (n w scale : Nat) : Option Rat := if n = 2 ^ w - 1 then none else some ((n : Rat) / scale)
/-- A signed field with its marker as none. -/
def sgnMark (n w scale : Nat) : Option Rat := if n = 2 ^ (w - 1) then none else some ((toSigned w n : Rat) / scale)
/-- The learned values that 32 bytes hold. -/
def learnedOf (b : List Byte) : Learned :=
  { learnedAt := leAt b 0 8, iSd := sgnMark (leAt b 8 4) 32 1000000, plOffsetSd := unsMark (leAt b 12 2) 16 10000
    plOffset := sgnMark (leAt b 14 2) 16 10000, rhoSd := unsMark (leAt b 16 2) 16 4096
    rho := unsMark (leAt b 18 2) 16 4096, capacitySd := unsMark (leAt b 20 4) 32 1000
    capacity := sgnMark (leAt b 24 8) 64 1000 }
/-- The block of a port: SERIAL, 18 records, CRC-32. -/
def blockBytes (serial : Nat) (l : List Learned) : List Byte :=
  let b := leBytes 8 serial ++ (l.map Learned.bytes).flatten
  b ++ leBytes 4 (crc32 b)
/-- The learned values of a cell as its port's block holds them: values written count from their acceptance, though the cell
takes them at its next step (log entry 101). -/
def Cell.blockValues (c : Cell) : Learned := c.newLearned.getD c.learned
/-- The learned values of a port's cells. -/
def State.learnedOfPort (s : State) (p : Nat) : List Learned := (List.range 18).map fun c => (s.cell (cellIx p c)).blockValues
/-- The SERIAL of a port's block: the recorded serial. -/
def State.serialOf (s : State) (p : Nat) : Nat := ((tget none s.model.serials p).orElse fun _ => (s.port p).recordedSerial).getD 0

/-! ## Learned commits (06 R193, 16 R445, R448, R453) -/

/-- The order of wear stages. -/
def wearOrder : WearStage → Nat
  | .normal => 0 | .wearWatch => 1 | .retiring => 2 | .keyEventsOnly => 3 | .volatile => 4
/-- The stage of the store: the later of the devices' stages; with both failed it is VOLATILE (16 R453, R454). -/
def State.storeStage (s : State) : WearStage :=
  let a := s.device 0
  let b := s.device 1
  if a.failed && b.failed then .volatile
  else if wearOrder a.stage < wearOrder b.stage then b.stage else a.stage
/-- The ports that have a modelled cell. -/
def State.modelledPorts (s : State) : List Nat := (List.range 128).filter fun p => !(s.modelled p).isEmpty
/-- Pages of a commit's header, body and footer (16 R445). -/
def commitPages (ports lanes : Nat) : Nat := (64 + ports * 600 + lanes * 56 + 64 + 255) / 256
/-- Start a commit with the values held now; its write waits for its hold-up check. An interval set since the last commit
takes effect (06 R202). -/
def State.startCommit (s : State) : State :=
  let ports := s.modelledPorts
  let lanes := (List.range 8).filter fun n => (s.lane n).cfg.isSome
  let counts (l : Lane) : List Nat :=
    [l.kPos.closings, l.kPos.breaks, l.kNeg.closings, l.kNeg.breaks, l.kPre.closings, l.kPre.breaks]
  let c : Commit :=
    { generation := s.store.genCommit + 1, startedAt := s.now
      pagesLeft := commitPages ports.length lanes.length
      blocks := ports.map fun p => (p, some (s.serialOf p, (s.learnedOfPort p).map fun l => learnedOf l.bytes))
      lanes := lanes.map fun n => (n, counts (s.lane n)) }
  { s with
    store := { s.store with commit := some c, commitQueued := false }
    model := { s.model with intervalH := s.model.nextIntervalH.getD s.model.intervalH, nextIntervalH := none } }.queueOp 2
      .commitPage
/-- A commit is asked for: at a key event, or at the interval (06 R193). -/
def State.requestCommit (s : State) (key : Bool) : State :=
  if !s.model.native || s.storeStage == .volatile || (!key && s.storeStage == .keyEventsOnly) then s
  else if s.store.commit.isSome then { s with store := { s.store with commitQueued := true } }
  else s.startCommit

/-! ## Parameters and look-ups (06 R168, R170) -/

/-- R_g, J/(mol K). -/
def gasR : Rat := 8314462618 / 1000000000
/-- F, C/mol. -/
def faradayF : Rat := 9648533212 / 100000
/-- Held between two limits. -/
def clampQ (lo hi v : Rat) : Rat := max lo (min v hi)
/-- A linear look-up on a grid of `n` points at an offset of the set, at grid coordinate `u`, clamped at the ends. -/
def ParamSet.lut (q : ParamSet) (o n : Nat) (u : Rat) : Rat :=
  if u ≤ 0 then q.f o
  else if ((n - 1 : Nat) : Rat) ≤ u then q.f (o + 4 * (n - 1))
  else
    let k := u.floor.toNat
    q.f (o + 4 * k) + (u - k) * (q.f (o + 4 * (k + 1)) - q.f (o + 4 * k))
def ParamSet.up (q : ParamSet) (th : Rat) : Rat := q.lut 304 65 (th * 64)
def ParamSet.un (q : ParamSet) (th : Rat) : Rat := q.lut 564 65 (th * 64)
def ParamSet.dudt (q : ParamSet) (soc : Rat) : Rat := q.lut 824 17 (soc * 16)
def ParamSet.mhyst (q : ParamSet) (soc : Rat) : Rat := q.lut 892 17 (soc * 16)
def ParamSet.fChg (q : ParamSet) (tc : Rat) : Rat := q.lut 960 8 ((tc - 27315 / 100 + 20) / 10)
def ParamSet.fDis (q : ParamSet) (tc : Rat) : Rat := q.lut 992 8 ((tc - 27315 / 100 + 20) / 10)
/-- The temperature dependence of R168. -/
def ParamSet.arr (q : ParamSet) (x : Rat) (e : Rat) (t : Rat) : Rat := x * Config.fexp (e / gasR * (1 / t - 1 / q.f 144))
def ParamSet.rser (q : ParamSet) (t : Rat) : Rat := q.arr (q.f 108) (q.f 112) t
def ParamSet.i0 (q : ParamSet) (t : Rat) : Rat := q.f 116 * Config.fexp (-(q.f 120) / gasR * (1 / t - 1 / q.f 144))
def ParamSet.i0n (q : ParamSet) (t : Rat) : Rat := q.f 124 * Config.fexp (-(q.f 120) / gasR * (1 / t - 1 / q.f 144))
/-- Spans of stoichiometry of the two electrodes. -/
def ParamSet.dn (q : ParamSet) : Rat := q.f 24 - q.f 20
def ParamSet.dp (q : ParamSet) : Rat := q.f 28 - q.f 32
/-- Learned values in use: C in As, ρ, Δpl, isd. -/
def Learned.cap (l : Learned) (q : ParamSet) : Rat := l.capacity.getD (q.f 16)
def Learned.r (l : Learned) : Rat := l.rho.getD 1
def Learned.pl (l : Learned) (q : ParamSet) : Rat := l.plOffset.getD (q.f 296)
/-- State `i` of a model. -/
def xs (x : List Rat) (i : Nat) : Rat := x.getD i 0
def socOf (q : ParamSet) (x : List Rat) : Rat := (xs x 0 - q.f 20) / q.dn
/-- Open-circuit voltage of a state. -/
def uocv (q : ParamSet) (x : List Rat) : Rat :=
  q.up (clampQ 0 1 (xs x 3 + xs x 4 + xs x 5)) - q.un (clampQ 0 1 (xs x 0 + xs x 1 + xs x 2))
  + q.dudt (socOf q x) * (xs x 10 - q.f 144)
/-- 2 R_g T / F. -/
def thermalV (t : Rat) : Rat := 2 * gasR * t / faradayF
/-- Predicted terminal voltage V̂. -/
def vHat (q : ParamSet) (rho : Rat) (x : List Rat) (i : Rat) : Rat :=
  uocv q x + q.mhyst (socOf q x) * xs x 12 - xs x 8 - xs x 9 - xs x 6 - xs x 7 - rho * q.rser (xs x 10) * i
  - thermalV (xs x 10) * Config.fasinh (i / (2 * q.i0 (xs x 10)))
/-- Plating margin m_pl. -/
def mPl (q : ParamSet) (l : Learned) (x : List Rat) (i : Rat) : Rat :=
  q.un (clampQ 0 1 (xs x 0 + xs x 1 + xs x 2)) - (xs x 6 + xs x 7) / 2
  + thermalV (xs x 10) * Config.fasinh (i / (2 * q.i0n (xs x 10))) - l.pl q

/-! ## A step (06 R168, R169, R171) -/

/-- The decay factors of a step, by state. -/
def decays (q : ParamSet) (l : Learned) (x : List Rat) (i dt : Rat) : List Rat :=
  let t := xs x 10
  let a (o : Nat) (e : Rat) : Rat := Config.fexp (-dt / q.arr (q.f o) e t)
  [1, a 36 (q.f 52), a 40 (q.f 52), 1, a 56 (q.f 72), a 60 (q.f 72), a 76 (q.f 112), a 80 (q.f 112)
  , a 96 (q.f 112), a 104 (q.f 112), 1, 1, Config.fexp (-|i| * dt * q.f 148 / l.cap q), 1]
/-- The thermal step: the new (Tc, Ts) and the matrix on the old ones. -/
def thermalStep (q : ParamSet) (tc ts qin dt : Rat) (tamb : Option Rat) : (Rat × Rat) × List Rat :=
  let cc := q.f 128 / dt
  let cs := q.f 132 / dt
  let g := 1 / q.f 136
  let h := match tamb with | none => 0 | some _ => 1 / q.f 140
  let a := cc + g
  let d := cs + g + h
  let det := a * d - g * g
  let r1 := cc * tc + qin
  let r2 := cs * ts + h * tamb.getD 0
  (((d * r1 + g * r2) / det, (g * r1 + a * r2) / det), [d * cc / det, g * cs / det, g * cc / det, a * cs / det])
/-- A state as FP32 holds it. -/
def fp (x : List Rat) : List Rat := x.map Config.fp32
/-- The states after a step, with the clamps. -/
def stepStates (q : ParamSet) (l : Learned) (x : List Rat) (i dt : Rat) (tamb : Option Rat) : List Rat :=
  let a := decays q l x i dt
  let m (k : Nat) (gain : Rat) : Rat := xs a k * xs x k + (1 - xs a k) * gain * i
  let qin := i * (uocv q x - vHat q l.r x i) - i * xs x 10 * q.dudt (socOf q x)
  let th := (thermalStep q (xs x 10) (xs x 11) qin dt tamb).1
  let sgn : Rat := if 0 < i then 1 else if i < 0 then -1 else 0
  let c := l.cap q
  let n0 := clampQ 0 1 (xs x 0 - i * dt * q.dn / c)
  let p0 := clampQ 0 1 (xs x 3 + i * dt * q.dp / c)
  fp [n0, m 1 (-(q.f 44)), m 2 (-(q.f 48)), p0, m 4 (q.f 64), m 5 (q.f 68), m 6 (q.f 84), m 7 (q.f 88)
  , m 8 (l.r * q.f 92), m 9 (l.r * q.f 100), th.1, th.2
  , clampQ (-1) 1 (xs a 12 * xs x 12 - (1 - xs a 12) * sgn), xs x 13]
/-- The Jacobian's row `r` as pairs of column and value. -/
def jacobianRow (q : ParamSet) (l : Learned) (a th : List Rat) (dt : Rat) (r : Nat) : List (Nat × Rat) :=
  if r = 0 then [(0, 1), (13, -dt * q.dn / l.cap q)]
  else if r = 3 then [(3, 1), (13, dt * q.dp / l.cap q)]
  else if r = 10 then [(10, xs th 0), (11, xs th 1)]
  else if r = 11 then [(10, xs th 2), (11, xs th 3)]
  else [(r, xs a r)]
/-- The dot product of two rows. -/
def dot (a b : List Rat) : Rat := (List.zipWith (· * ·) a b).sum
/-- Row `i` of a factor, padded to 14. -/
def rowOf (m : List (List Rat)) (i : Nat) : List Rat := let r := m.getD i []; r ++ List.replicate (14 - r.length) 0
/-- One row of the lower-triangular factor of a matrix row; none where it is not positive. -/
def cholRow (rows : List (List Rat)) (p : List Rat) : Option (List Rat) :=
  let i := rows.length
  let body := (List.range i).foldl (fun acc j =>
    acc ++ [(xs p j - dot acc (rows.getD j [])) / xs (rows.getD j []) j]) []
  let d := xs p i - dot body body
  if d ≤ 0 then none else some (body ++ [Config.fsqrt d])
/-- The lower-triangular square root of a matrix. -/
def chol (p : List (List Rat)) : Option (List (List Rat)) :=
  p.foldlM (fun rows r => (cholRow rows r).map fun x => rows ++ [x]) []
/-- The covariance of a factor. -/
def covOf (s : List (List Rat)) : List (List Rat) :=
  (List.range 14).map fun i => (List.range 14).map fun j => dot (rowOf s i) (rowOf s j)
/-- The factor after a step. -/
def stepCov (q : ParamSet) (l : Learned) (x : List Rat) (s : List (List Rat)) (i dt : Rat) (tamb : Option Rat) :
    List (List Rat) :=
  let a := decays q l x i dt
  let th := (thermalStep q 0 0 0 dt tamb).2
  let b := (List.range 14).map fun r =>
    (jacobianRow q l a th dt r).foldl (fun acc e => List.zipWith (· + ·) acc ((rowOf s e.1).map (· * e.2)))
      (List.replicate 14 0)
  let p := (List.range 14).map fun r => (List.range 14).map fun c =>
    dot (b.getD r []) (b.getD c []) + (if r = c then q.f (172 + 4 * r) * dt else 0)
  ((chol p).getD s).map fp
/-- The clamps of R168 on a state. -/
def clampState (x : List Rat) : List Rat :=
  (x.set 0 (clampQ 0 1 (xs x 0))).set 3 (clampQ 0 1 (xs x 3)) |>.set 12 (clampQ (-1) 1 (xs x 12))

/-! ## The filter update (06 R174) -/

/-- What an update computes. -/
structure UpdateOut where
  x : List Rat
  s : Option (List (List Rat))
  nu : Rat
  nis : Rat
  pyy : Rat
  platingSd : Rat
/-- The mean of a list. -/
def meanQ (l : List Rat) : Rat := if l.isEmpty then 0 else l.sum / l.length
/-- One filter update with the measured voltage. -/
def filterUpdate (q : ParamSet) (l : Learned) (x : List Rat) (s : List (List Rat)) (i v : Rat) : UpdateOut :=
  let r14 := Config.fsqrt 14
  let cols := (List.range 14).map fun j => (List.range 14).map fun k => r14 * xs (rowOf s k) j
  let pts := cols.flatMap fun c => [List.zipWith (· + ·) x c, List.zipWith (· - ·) x c]
  let ys := pts.map fun p => vHat q l.r p i
  let yb := meanQ ys
  let pyy := meanQ (ys.map fun y => (y - yb) ^ 2) + q.f 228
  let pxy := (List.range 14).map fun k => meanQ (List.zipWith (fun p y => (xs p k - xs x k) * (y - yb)) pts ys)
  let nu := v - yb
  let gain := pxy.map (· / pyy)
  let p0 := covOf s
  let p1 := (List.range 14).map fun a => (List.range 14).map fun b => xs (p0.getD a []) b - xs gain a * xs gain b * pyy
  let ms := pts.map fun p => mPl q l p i
  let mb := meanQ ms
  { x := fp (clampState (List.zipWith (fun a g => a + g * nu) x gain)), s := (chol p1).map (·.map fp), nu := nu
    nis := nu ^ 2 / pyy, pyy := pyy, platingSd := Config.fsqrt (meanQ (ms.map fun m => (m - mb) ^ 2)) }

/-! ## Limits and outputs (06 R181, R183) -/

/-- R_eff. -/
def rEff (q : ParamSet) (rho tc : Rat) : Rat :=
  rho * (q.rser tc + q.f 92 * (1 - Config.fexp (-(q.f 164) / q.f 96)) + q.f 100 * (1 - Config.fexp (-(q.f 164) / q.f 104)))
/-- The largest charge current that keeps twice PLATING_SD of margin, by 12 bisection steps. -/
def platingLimit (q : ParamSet) (l : Learned) (x : List Rat) (sd : Rat) : Nat → Rat → Rat → Rat
  | 0, lo, _ => lo
  | n + 1, lo, hi =>
    let m := (lo + hi) / 2
    if 2 * sd ≤ mPl q l x (-m) then platingLimit q l x sd n m hi else platingLimit q l x sd n lo m
/-- I_chg and I_dis of a cell, A. -/
def cellLimits (q : ParamSet) (l : Learned) (x : List Rat) (sigma sd : Rat) (iMax : Rat) : Rat × Rat :=
  let tc := xs x 10
  let e0 := uocv q x + q.mhyst (socOf q x) * xs x 12 - xs x 8 - xs x 9 - xs x 6 - xs x 7
  let r := rEff q l.r tc
  let dis := q.fDis tc * max 0 ((e0 - 2 * sigma - q.f 160) / r)
  let pl := if mPl q l x 0 < 2 * sd then 0 else platingLimit q l x sd 12 0 iMax
  (q.fChg tc * min (max 0 ((q.f 156 - e0 - 2 * sigma) / r)) pl, dis)
/-- The open-circuit voltage at a SOC and temperature, without modes. -/
def ocvAt (q : ParamSet) (s t : Rat) : Rat :=
  q.up (clampQ 0 1 (q.f 28 - s * q.dp)) - q.un (clampQ 0 1 (q.f 20 + s * q.dn)) + q.dudt s * (t - q.f 144)
/-- ENERGY in mWh: 16 equal steps from SOC down to 0. -/
def energyOf (q : ParamSet) (l : Learned) (soc tc : Rat) : Rat :=
  let c := l.cap q / 36 * 10
  let d := soc / 16
  ((List.range 16).map fun j =>
    c * (ocvAt q (d * ((j : Rat) + 1 / 2)) tc - q.f 168 * rEff q l.r tc) * d).sum
/-- An unsigned field of an output, one below its marker at most. -/
def uField (w : Nat) (v : Rat) : Option Nat := some (clampI 0 ((2 ^ w : Nat) - 2) (roundA v)).toNat
/-- A signed field of an output. -/
def sField (w : Nat) (v : Rat) : Option Int := some (clampI (1 - (2 ^ (w - 1) : Nat)) ((2 ^ (w - 1) : Nat) - 1) (roundA v))
/-- The output record of a cell after a step with current `i`; ENERGY is recomputed unless the die thermal state holds it
back to filter updates (08 R252). -/
def outputOf (q : ParamSet) (c : Cell) (i : Rat) (energy slack : Bool) (native : Bool) : CellOut :=
  let x := c.x
  let l := c.learned
  let soc := socOf q x
  let tc := xs x 10
  let e := energyOf q l soc tc
  let socSd := Config.fsqrt ((covOf c.cov).getD 0 [] |> fun r => xs r 0) / q.dn
  let es := l.cap q / 36 * 10 * (ocvAt q soc tc - q.f 168 * rEff q l.r tc)
  let csd := l.capacitySd.getD 0
  let esd := Config.fsqrt ((es * socSd) ^ 2 + (e / l.cap q * csd) ^ 2)
  let res := q.f 108 + q.f 92 + q.f 100
  { c.outRec with
    energy := if energy then sField 64 e else c.outRec.energy
    energySd := if energy then uField 32 esd else c.outRec.energySd
    capacity := sField 64 (l.cap q * 1000), capacitySd := l.capacitySd.bind fun v => uField 32 (v * 1000)
    resistance := uField 32 (l.r * res * 1000000), resistanceSd := l.rhoSd.bind fun v => uField 16 (v * res * 1000000)
    iSd := sField 32 (xs x 13 * 1000000), soc := uField 16 (soc * 32768), socSd := uField 16 (socSd * 32768)
    coreTemp := sField 16 ((tc - 27315 / 100) * 100)
    coreTempSd := uField 16 (Config.fsqrt ((covOf c.cov).getD 10 [] |> fun r => xs r 10) * 100)
    plating := sField 16 (mPl q l x i * 10000), platingSd := uField 16 (c.platingSd * 10000)
    rho := (clampI 0 65535 (roundA (l.r * 4096))).toNat, vPred := uField 16 (vHat q l.r x i * 10000)
    noParam := false, hostHeld := !native, capProvisional := l.capacity.isNone, slack := slack, valid := true }

/-! ## Estimates (06 R184 to R187) -/

/-- Bisection of a rising function on 0 to 1. -/
def bisect (f : Rat → Rat) (v : Rat) : Nat → Rat → Rat → Rat
  | 0, lo, hi => (lo + hi) / 2
  | n + 1, lo, hi => let m := (lo + hi) / 2; if f m < v then bisect f v n m hi else bisect f v n lo m
/-- The SOC that solves a rising function, clamped at the ends. -/
def solveSoc (f : Rat → Rat) (v : Rat) : Rat := if v ≤ f 0 then 0 else if f 1 ≤ v then 1 else bisect f v 24 0 1
/-- The state of the open-circuit procedure. -/
def openState (q : ParamSet) (l : Learned) (soc tamb : Rat) : List Rat :=
  fp [q.f 20 + soc * q.dn, 0, 0, q.f 28 - soc * q.dp, 0, 0, 0, 0, 0, 0, tamb, tamb, 0, l.iSd.getD 0]
/-- The covariance factor diag(P0), widened for a ROUGH estimate. -/
def openCov (q : ParamSet) (widen : Bool) : List (List Rat) :=
  (List.range 14).map fun r =>
    let p := q.f (232 + 4 * r) * (if widen && (r == 0 || r == 3) then q.f 288 else 1)
    List.replicate r 0 ++ [Config.fp32 (Config.fsqrt p)]
/-- The lane of a port has been at rest for 30 min (06 R187). -/
def State.laneRested (s : State) (p : Nat) : Bool :=
  match s.laneOfPort p with
  | none => false
  | some n => elapsedO (s.lane n).restSince (1800 * 10 ^ 9) s.now
/-- Start the open-circuit procedure of a cell. -/
def Cell.startEstimate (c : Cell) (rough widen : Bool) : Cell :=
  { c with estActive := true, estVolts := [], estCurrents := [], estRough := rough, estWiden := widen }
/-- Reset of a cell's learned values, isd among them, which is the filter's state 13 (06 R185, R192). -/
def Cell.resetLearned (c : Cell) : Cell :=
  { c with
    learned := {}, newLearned := none, outRec := { c.outRec with capProvisional := true }
    x := if c.x.isEmpty then [] else c.x.set 13 0 }
/-- The cells of a port take no learned value from the spring tide and the sounding sets that run on its lane (06 R195). -/
def State.markNoLearn (s : State) (p : Nat) : State :=
  match s.laneOfPort p with
  | none => s
  | some n =>
    let sets := (s.laneSound n).openSets.map (·.set_)
    (s.modelled p).foldl (fun z c => z.updCell (cellIx p c) fun k => { k with
      noLearnSpring := k.noLearnSpring || (s.spring n).profile.isSome
      noLearnSets := k.noLearnSets ++ sets.filter fun x => !k.noLearnSets.contains x }) s
/-- A roughing estimate of some cells of a port (06 R185): their learned values kept or reset. It is ROUGH unless the lane has
rested for 30 min, and at a start always (06 R184). Each cell's estimate is counted. -/
def State.rough (s : State) (p : Nat) (cells : List Nat) (keep : Bool) (start : Bool := false) : State :=
  let cs := cells.filter fun c => (s.modelled p).contains c
  if cs.isEmpty then s
  else
    let rough := start || !s.laneRested p
    let s1 := cs.foldl (fun z c => z.updCell (cellIx p c) fun y =>
      { (if keep then y else y.resetLearned).startEstimate rough rough with pendingDelta := 0 }) (s.markNoLearn p)
    let s2 := (s1.updModelCount p fun k => { k with roughs := (k.roughs + cs.length) % 2 ^ 64 }).event evModelRough 2 p
    if keep then s2 else s2.requestCommit true
/-- A port's cells start as it enters RUN for the first time (06 R184): from the stored block when learning is native and
its SERIAL matches, otherwise with reset values, and ROUGH either way. The model engines run in FULL and SLACK (01 R23). -/
def State.startCells (s : State) (p : Nat) : State :=
  let cs := (s.modelled p).filter fun c => !(s.cell (cellIx p c)).started
  let fresh := (cs.foldl (fun z c => z.updCell (cellIx p c) fun y => { y with started := true }) s).rough p cs false true
  if !s.tablesRun then s
  else match tget none s.model.storedBlocks p, s.model.native, (s.port p).hello with
  | some (k, l), true, some h =>
    if k = h.serial then
      cs.foldl (fun z c => z.updCell (cellIx p c) fun y =>
        { (y.startEstimate true true) with started := true, learned := l.getD c {} }) s
    else fresh
  | _, _, _ => fresh

/-! ## What a frame brings to the models (06 R186, R188, R189, 07 R213, R225) -/

/-- The string current of a tag in the lane's ring. -/
def State.currentAt (s : State) (n tag : Nat) : Option Int :=
  match (s.lane n).ring.find? fun x => x.1 == tag with | none => none | some x => x.2
/-- A capture of a step is under way at a position (07 R212). -/
def stepCaptures (b : Nat) (pos : Nat) (a : SoundStep) : Bool :=
  let unit := 65536 / b
  a.capturePending && decide (a.start ≤ pos + 20 * unit + 20) && decide (pos < a.start + 2 * a.length * unit + 2 * a.length)
/-- Write one capture sample of a port, or a missed frame. -/
def State.capture (s : State) (n p : Nat) (f : Option PortSample) (tag : Nat) : State :=
  if (s.laneSound n).steps.any (stepCaptures s.baseB tag) then
    let c : CapSample := match f with
      | none => { tag := tag, current := s.currentAt n tag }
      | some g => { tag := tag, volts := g.volts, balance := g.balance, misaligned := g.misaligned, current := s.currentAt n tag }
    s.updLaneSound n fun x => x.mapSteps fun a =>
      if stepCaptures s.baseB tag a then { a with caps := tset a.caps p (c :: tget [] a.caps p) } else a
  else s
/-- A frame joins the gatherings of a cell: open-circuit procedure and endpoint. -/
def Cell.gather (c : Cell) (v : Nat) (i : Int) (endpoint : Bool) : Cell :=
  if v = 65535 then c
  else
    let c1 := if c.estActive && decide (c.estVolts.length < 16) then
        { c with estVolts := c.estVolts ++ [v], estCurrents := c.estCurrents ++ [i] } else c
    if endpoint && decide (c1.endVolts.length < 16) then
      { c1 with
        endVolts := c1.endVolts ++ [v], endCurrents := c1.endCurrents ++ [i]
        endState := if c1.endVolts.length = 15 then
            some (xs c1.x 10, xs c1.x 12, c1.qPart, !c1.outRec.coast && !c1.outRec.rough) else none } else c1
/-- A frame accepted on the sample-store path reaches the gatherings of the port's cells, in FULL and SLACK (01 R23). A frame
whose instant has no string current is combined with none, and joins no gathering of frames and currents (01 R36). -/
def State.frameToModels (s : State) (p : Nat) (f : PortSample) : State :=
  match s.laneOfPort p, s.tablesRun with
  | some n, true =>
    let s1 := s.capture n p (some f) f.tag
    match s.currentAt n f.tag with
    | none => s1
    | some i =>
      (s.modelled p).foldl (fun z c => z.updCell (cellIx p c) fun y =>
        y.gather (f.volts.getD c 65535) i (s.spring n).gathering) s1
  | _, _ => s
/-- A cell coasts from now on (06 R188). -/
def Cell.coasts (c : Cell) : Cell := { c with afterCoast := true, outRec := { c.outRec with coast := true } }
/-- The cells of a port coast from now on; each that begins to is counted (06 R188, R202). -/
def State.coast (s : State) (p : Nat) : State :=
  let cs := s.modelled p
  let new := (cs.filter fun c => !(s.cell (cellIx p c)).outRec.coast).length
  (cs.foldl (fun z c => z.updCell (cellIx p c) Cell.coasts) s).updModelCount p fun k => { k with
    coasts := (k.coasts + new) % 2 ^ 64 }
/-- Cells that begin to be modelled on a port: in RUN they start, and while it trains or has failed they coast (06 R184,
R188). -/
def State.joinCells (s : State) (p : Nat) : State :=
  let x := (s.port p).state
  if x == .run then s.startCells p else if x == .train || x == .failed then s.coast p else s
/-- The cells of a port that leaves STALL with its serial unchanged re-anchor: cell c at the c-th accepted instant, and each
is counted (06 R189, R202). A cell whose next step covers a beached span, or that gathers an estimate, does not. -/
def State.reanchorCells (s : State) (p : Nat) : State :=
  let cs := (s.modelled p).filter fun c =>
    let k := s.cell (cellIx p c)
    (s.port p).stalled && k.started && !k.estActive && !k.zeroSpan
  ((cs.foldl (fun z c => z.updCell (cellIx p c) fun y => { y with reanchorAt := some (c + 1), afterCoast := true }) s).updPort p
    fun x => { x with stalled := false }).updModelCount p fun k => { k with reanchors := (k.reanchors + cs.length) % 2 ^ 64 }
/-- The output record of a cell as it is read: of a cell that is not modelled, no estimate and no values (06 R165); NO_PARAM is
that of the sets now loaded, and HOST_HELD that of the learning mode (06 R180, R191). -/
def State.cellRecord (s : State) (p c : Nat) : CellOut :=
  let k := s.cell (cellIx p c)
  if (s.modelled p).contains c then
    { k.outRec with noParam := (s.params k.typ).isNone, hostHeld := k.started && !s.model.native }
  else {}

/-! ## Slack water (06 R196) -/

/-- Back to FULL from SLACK. -/
def State.slackExit (s : State) : State :=
  if s.power.state == .slack then
    ({ s with power := { s.power with state := .full } }.event evSlackExit 0 0).placeEntries
  else s

end Sys2Proof.Machine
end

