-- ==== Sys2Proof/Machine/TapOps.lean ====
section
/-! DEFINITION. The tap link: frames and their checks, trims, commands, port states, and what a frame brings to SFA
(03, 09 R262 to R264). -/

namespace Sys2Proof.Machine

open Sys2Proof

/-! ## Frames and their checks (R79 to R85) -/

/-- One step of the tap CRC. -/
def crc16Step : Nat → Nat → Nat
  | 0, c => c
  | k + 1, c => crc16Step k (if 32768 ≤ c then (c * 2 % 65536) ^^^ 0x1021 else c * 2)
/-- CRC-16 of a list of bytes (R79). -/
def crc16 (l : List Byte) : Nat := l.foldl (fun c b => crc16Step 8 (c ^^^ (b.toNat * 256))) 0xFFFF
/-- What a path finds of one transmission (R80, R81). -/
inductive TapCheck where | accepted | formatErr | truncated | crcErr
  deriving DecidableEq, Repr
/-- LENGTH of a TYPE from a front-end. -/
def tapLengthOk (typ len : Nat) : Bool :=
  if typ = 0x81 then len == 62 || len == 70 else if typ = 0x82 then len == 14 else if typ = 0x83 then len == 1
  else if typ = 0x84 then len == 2 else false
/-- Reserved fields are 0 and coded fields hold a code; offsets count from TYPE. -/
def tapFieldsOk (b : List Byte) : Bool :=
  let typ := beAt b 0 1
  if typ = 0x81 then
    beAt b 4 2 % 128 == 0 && decide (beAt b 54 3 < 2 ^ 18) && decide (beAt b 57 3 < 2 ^ 18)
      && decide (beAt b 60 3 < 2 ^ 18) && decide (beAt b 63 1 < 64)
  else if typ = 0x82 then decide (beAt b 3 1 < 8) && beAt b 14 2 == 0
  else if typ = 0x84 then decide (beAt b 3 1 ≤ 3)
  else true
/-- The checks of R80 in their order, on the path whose CRC check gives `crcOk`. -/
def tapCheck (rx : TapRx) (crcOk : Bool) : TapCheck :=
  let b := rx.bytes
  let n := beAt b 1 1 + 4
  if !rx.delimiterOk then .formatErr
  else if b.length < 2 || b.length < n || (rx.partialByte && b.length ≤ n) then .truncated
  else if n < b.length then .formatErr
  else if !crcOk || crc16 (b.take (n - 2)) ≠ beAt b (n - 2) 2 then .crcErr
  else if !tapLengthOk (beAt b 0 1) (beAt b 1 1) || !tapFieldsOk b then .formatErr
  else .accepted
/-- The sample-store path's check, and the safety path's. -/
def storeCheck (rx : TapRx) : TapCheck := tapCheck rx rx.storeOk
def safetyCheck (rx : TapRx) : TapCheck := tapCheck rx rx.safetyOk
/-- A frame of that TYPE passes the checks on a path at least. -/
def tapTyped (rx : TapRx) (typ : Nat) : Bool :=
  beAt rx.bytes 0 1 == typ && (storeCheck rx == .accepted || safetyCheck rx == .accepted)
/-- The sample that a DATA frame holds, under a tag (R84). -/
def dataSample (b : List Byte) (tag : Nat) (misaligned : Bool) : PortSample :=
  { tag := tag, volts := (List.range 18).map fun c => beAt b (6 + 2 * c) 2
    temps := (List.range 6).map fun i => toSigned 16 (beAt b (42 + 2 * i) 2), balance := beAt b 54 3
    misaligned := misaligned }
/-- The no-value markers of a slot (00 R5). -/
def markerSample (q : PortSample) : PortSample :=
  { q with volts := List.replicate 18 65535, temps := List.replicate 6 (-32768), marker := true }
/-- A frame on the line: preamble, start delimiter, TYPE, LENGTH, body and CRC, high byte first (R78, R79). -/
def tapFrame (typ : Nat) (body : List Byte) : List Byte :=
  let core := beBytes 1 typ ++ beBytes 1 body.length ++ body
  beBytes 2 0xAAAA ++ beBytes 1 0xAB ++ core ++ beBytes 2 (crc16 core)
/-- SYNC (R83): INSTANT is bits 15 to 8 of the tide position, CONTROL holds HELM and SERIAL_REQ. -/
def syncBytes (tag : Nat) (helm serialReq : Bool) : List Byte :=
  tapFrame 0x10 (beBytes 1 (tag / 256 % 256) ++ beBytes 1 ((if helm then 128 else 0) + if serialReq then 64 else 0))
/-- ECHO (R83). -/
def echoBytes (token : Nat) : List Byte := tapFrame 0x21 (beBytes 1 token)
/-- The fields of a HELLO (R85). -/
def helloOf (b : List Byte) : Hello :=
  let p := beAt b 3 1
  { version := beAt b 2 1, otherRun := p.testBit 2, dual := p.testBit 1, sideB := p.testBit 0, model := beAt b 4 2
    serial := beAt b 6 8 }

/-! ## Commands of a port (R107) -/

/-- Take the place of the waiting command of the same kind, or the end of the list. -/
def placeCmd (c : TapCmd) : List TapCmd → List TapCmd
  | [] => [c]
  | d :: r => if d.kind == c.kind then c :: r else d :: placeCmd c r
/-- Request a new command of a port: it takes the next SEQ and replaces the waiting command of its kind. -/
def Port.request (p : Port) (kind : TapCmdKind) (mask : Nat := 0) : Port :=
  let seq := (p.seq + 1) % 256
  { p with
    seq := seq, waiting := placeCmd { kind := kind, seq := seq, mask := mask, sends := 0 } p.waiting
    inFlight := match p.inFlight with | some d => if d.kind == kind then none else some d | none => none }
/-- CONFIG goes before the other commands (R96). -/
def configFirst (l : List TapCmd) : List TapCmd :=
  (l.filter fun c => c.kind == .config) ++ l.filter fun c => c.kind != .config
/-- Commands that have been sent three times without an answer are given up. -/
def Port.dropUnanswered (p : Port) : Port :=
  let k := (p.waiting.filter fun c => decide (3 ≤ c.sends)).length
  { p with
    waiting := p.waiting.filter fun c => decide (c.sends < 3)
    counters := { p.counters with unanswered := (p.counters.unanswered + k) % 2 ^ 64 } }
/-- A CONFIG is wanted because the front-end holds CONFIG_LOST; one that waits and may still be sent serves. -/
def Port.wantConfig (x : Port) : Port :=
  let p := x.dropUnanswered
  let q := if p.waiting.any fun c => c.kind == .config then p else p.request .config
  { q with waiting := configFirst q.waiting }
/-- A command has been answered. -/
def Port.answered (p : Port) (seq : Nat) : Port :=
  { p with waiting := p.waiting.filter (fun c => c.seq != seq), inFlight := none }
/-- The frame that carries a command (R83): SEQ, then the limits and masks of CONFIG, or the mask of BALANCE. -/
def cmdBytes (x : TapLimits) (c : TapCmd) : List Byte :=
  match c.kind with
  | .config => tapFrame 0x22 (beBytes 1 c.seq ++ beBytes 2 x.ov ++ beBytes 2 x.uv ++ beBytes 2 (x.ot % 65536).toNat
      ++ beBytes 3 x.cells ++ beBytes 1 x.temps)
  | .balance => tapFrame 0x23 (beBytes 1 c.seq ++ beBytes 3 c.mask)
  | .sleep => tapFrame 0x24 (beBytes 1 c.seq)
/-- Drive a frame on a port's line from a time on: its reference edge is the mid-bit of its last bit (R77, R78). -/
def State.drive (s : State) (p at_ : Nat) (bytes : List Byte) : State :=
  (s.updPort p fun x => { x with txAt := some at_ }).emit (.tap p at_ (at_ + bytes.length * 640 - 40) bytes)
/-- Send a waiting command, once more. -/
def State.sendCmd (s : State) (p : Nat) (c : TapCmd) : State :=
  let d := { c with sends := c.sends + 1 }
  (s.updPort p fun y => { y with
    inFlight := some d, waiting := y.waiting.map fun k => if k.seq == c.seq then d else k }).drive p s.now
    (cmdBytes (s.port p).limits c)
/-- Bits of a command frame on the line: preamble, delimiter, TYPE, LENGTH, body and CRC. -/
def cmdBits : TapCmdKind → Nat
  | .config => 144 | .balance => 88 | .sleep => 64
/-- An exchange's end judged for the worst case allowed to the front-end, after its start (R89): the reference edge is the
mid-bit of the last bit, the reply comes at 1,000 ppm below 12.5 Mb/s from the mid-bit of its first bit on, and its line
is released one bit-time later. -/
def exchangeNs (bits replyBits turnaround trim : Nat) : Nat :=
  bits * 80 - 40 + 2 * trim + turnaround + ((2 * replyBits - 1) * 40000 + 998) / 999 + 80

/-! ## Balancing (08 R232 to R235) -/

/-- A capture is prepared or running on a lane, from its decision to its end (08 R235). -/
def State.capturePrepared (s : State) (n : Nat) : Bool :=
  (s.laneSound n).steps.any SoundStep.capturePending
/-- This module balances a lane. -/
def State.balances (s : State) (n : Nat) : Bool :=
  (match s.laneRole n with | none => false | some o => o.state == .active) && (s.power.state == .full || s.power.state == .slack)
/-- The hottest present sensor of a port's latest frame. -/
def Port.hottest (x : Port) : Option Int :=
  match x.ring with
  | [] => none
  | f :: _ => ((List.range 6).filterMap fun i =>
      let t := f.temps.getD i (-32768)
      if x.limits.temps.testBit i && t != -32768 then some t else none).max?
/-- The voltage of a cell in the port's latest frame, 100 µV. -/
def Port.volt (x : Port) (c : Nat) : Nat := match x.ring with | [] => 65535 | f :: _ => f.volts.getD c 65535
/-- The cells of a plan that may bleed now: none of a front-end as hot as T_BAL_MAX, and none below BAL_V_MIN (08 R234). -/
def State.bleeding (s : State) (n p plan : Nat) : Nat :=
  let g := (s.laneTherm n).bal
  let x := s.port p
  if x.hottest.any fun t => decide (g.tMax ≤ t) then 0
  else maskOf ((bitsOf 18 plan).filter fun c => x.volt c != 65535 && decide (g.vMin ≤ x.volt c))
/-- The mask that the port's front-end is to hold. -/
def State.balanceMask (s : State) (n p : Nat) : Nat :=
  let b := s.balPort p
  if s.capturePrepared n then 0
  else match b.test with
  | some q => if q.step = 3 ∨ q.step = 4 then 2 ^ q.cell else 0
  | none => s.bleeding n p b.plan
/-- Ask for BALANCE on a port in RUN, when the mask has changed or the send is due. -/
def State.sendBalance (s : State) (p : Nat) (force : Bool := false) : State :=
  match s.laneOfPort p with
  | none => s
  | some n =>
    let m := s.balanceMask n p
    if s.balances n && (s.port p).state == .run && (force || m != (s.balPort p).sent) then
      (s.updPort p fun x => x.request .balance m).updBalPort p fun b => { b with sent := m, sentAt := s.now }
    else s

/-! ## Port states (R93 to R98) -/

/-- A switch test is abandoned: its cell is tried again 10 min later (08 R238). -/
def State.dropTest (s : State) (p : Nat) : State :=
  match (s.balPort p).test with
  | none => s
  | some q => (s.updBalPort p fun b => { b with test := none }).updCell (cellIx p q.cell) fun c =>
      { c with retryAt := some (s.now + 600 * 10 ^ 9) }
/-- An accepted frame in a switch test: it is counted, and its reading joins the average of the step (08 R238). -/
def SwitchTest.frame (q : SwitchTest) (v : Nat) : SwitchTest :=
  if v = 65535 then q
  else
    let avg := within 2 9 q.frames
    { q with
      frames := q.frames + 1
      sumOpen := if q.step = 2 ∧ q.frames < 8 then q.sumOpen + v else q.sumOpen
      sumClosed := if q.step = 4 ∧ avg then q.sumClosed + v else q.sumClosed
      sumAfter := if q.step = 6 ∧ avg then q.sumAfter + v else q.sumAfter }
/-- What a port's leaving of RUN does: its cells coast, the permissive of its lane is gone, and a switch test ends. -/
def State.portOut (s : State) (p : Nat) : State :=
  ((((s.coast p).dropTest p).updBalPort p fun b => { b with sent := 0 }).updPort p fun x => { x with
    outSince := some s.now }).recheckArming
/-- The port in a state that runs no training. A SYNC sent before can still be judged missed, but on a port in no lane
(R97). -/
def Port.toState (p : Port) (st : PortState) : Port :=
  { p with
    state := st, attemptAt := none, trainStep := 0, trainEchoes := [], trainValid := 0, missRun := 0, inFlight := none
    echoSent := none, echoDue := false, alignLost := false, echoOutRun := 0, trims := [], hwLimit := false
    stalled := p.stalled && st != .off && st != .sleep
    sync := if st == .off then none else p.sync }
/-- A port goes to TRAIN, where its first attempt can start; its cells coast (06 R188). -/
def State.toTrain (s : State) (p : Nat) : State :=
  let was := (s.port p).state
  let s1 := s.updPort p fun x => { (x.toState .train) with
    failRun := 0, waiting := x.waiting.filter fun c => c.kind != .sleep }
  let s2 := s1.clearAlarm evTapFailed 2 p
  if was == .run then s2.portOut p else s2.coast p
/-- SLEEP has been acknowledged (R93). -/
def State.toSleep (s : State) (p : Nat) : State := ((s.dropTest p).updPort p fun x => x.toState .sleep).recheckArming
/-- A training attempt has failed; after three in a row the port is FAILED. -/
def State.trainFail (s : State) (p : Nat) : State :=
  let x := s.port p
  let n := x.failRun + 1
  let s1 := s.setPort p { (x.toState (if 3 ≤ n then .failed else .train)) with
    failRun := n, failedAt := s.now, counters := { x.counters with failedAttempts := inc64 x.counters.failedAttempts } }
  if 3 ≤ n then s1.raise evTapFailed 2 p else s1
/-- Start a training attempt with its tone. -/
def State.trainStart (s : State) (p : Nat) : State :=
  (s.updPort p fun x => { x with
    attemptAt := some s.now, trainStep := 1, trainEchoes := [], trainValid := 0, txAt := some s.now
    counters := { x.counters with attempts := inc64 x.counters.attempts } }).emit (.tone p)
/-- Send an ECHO that starts at a time. -/
def State.sendEcho (s : State) (p at_ : Nat) : State :=
  let k := ((s.port p).echoToken + 1) % 256
  (s.updPort p fun x => { x with echoToken := k, echoSent := some (at_ + 5080), echoDue := false }).drive p at_ (echoBytes k)
/-- The port enters RUN with its first accepted frame. -/
def State.portRun (s : State) (p : Nat) : State :=
  let s1 := (s.updPort p fun x => { x with
    state := .run, attemptAt := none, trainStep := 0, trainValid := 0, failRun := 0, missRun := 0, acceptedSinceRun := 0
    coldRun := [], echoDue := false }).clearAlarm evTapFailed 2 p
  ((s1.reanchorCells p).startCells p).sendBalance p
/-- A counted fault of a port's link; a lasting one puts the port into TRAIN (09 R282). -/
def State.tapFault (s : State) (source p : Nat) : State :=
  let r := s.faultEvent source p
  if r.1 then (r.2.event evTapPortFault 2 p).toTrain p else r.2

/-! ## Trims (R86, R91) -/

/-- The mean of echo results, ns. -/
def echoMean (l : List Int) : Rat := if l.isEmpty then 0 else (l.sum : Rat) / (2 * l.length : Nat)
/-- Every result lies within 10 ns of the mean. -/
def echoClose (l : List Int) : Bool := l.all fun r => decide (|(r : Rat) / 2 - echoMean l| ≤ 10)
/-- A mean lies in the trim range. -/
def trimOk (q : Rat) : Bool := decide (0 ≤ q ∧ q ≤ 4000)
/-- The trim of a mean. -/
def trimOf (q : Rat) : Nat := (clampI 0 4000 (roundA q)).toNat
/-- An echo result in RUN (R91). While ALIGN_LOST is set the result only joins the 16 that are held to their own mean: it is
compared with no trim and is no ECHO_OUTLIER (DESIGN CHOICE, log entry 145: the rule does not say whether it counts). -/
def Port.echoResult (p : Port) (r : Int) (now : Nat) : Port :=
  if p.alignLost then { p with mean := (r :: p.mean).take 16 }
  else if withinI (-50) 50 (r - 2 * p.trim) then
    let m := (r :: p.mean).take 16
    { p with mean := m, echoOutRun := 0, trims := { at_ := now, trim := trimOf (echoMean m), regains := false } :: p.trims }
  else { p with
    echoOutRun := p.echoOutRun + 1, counters := { p.counters with echoOutlier := inc64 p.counters.echoOutlier } }

/-! ## What SFA does with a frame (09 R262, R263) -/

/-- Cells of a frame that lie outside SAFE_UV to SAFE_OV, or have no value. -/
def outsideCells (x : LaneSafety) (lim : TapLimits) (p : Nat) (f : PortSample) : List (Nat × Nat) :=
  ((List.range 18).filter fun c => lim.cells.testBit c &&
    (let v := f.volts.getD c 65535
     v == 65535 || decide (x.ov.getD 65535 < v) || decide (v < x.uv.getD 0))).map fun c => (p, c)
/-- SFA checks a frame that has landed in the safety memory: flags, voltages, and the end of a derate. -/
def State.sfaFrame (s : State) (p : Nat) (b : List Byte) (f : PortSample) : State :=
  let flags := decide (beAt b 57 3 ≠ 0 ∨ beAt b 60 3 ≠ 0 ∨ beAt b 63 1 ≠ 0)
  let s0 := s.updPort p fun x => { x with
    safety := some f, hwLimit := flags
    coldRun := (List.range 18).map fun c =>
      (c, if x.limits.cells.testBit c && f.volts.getD c 65535 == 65535 then tget 0 x.coldRun c + 1 else 0) }
  match s0.laneOfPort p with
  | none => s0
  | some n =>
    let x := s0.laneSafe n
    let s1 := s0.updLaneSafe n fun y => { y with
      badCells := y.badCells.filter (fun k => k.1 != p) ++ outsideCells y (s0.port p).limits p f }
    let volt (above : Bool) : Bool := (List.range 18).any fun c =>
      (s0.port p).limits.cells.testBit c &&
        (match s1.safeVolt p c, (if above then x.ov else x.uv) with
         | some v, some lim => if above then decide (lim < v) else decide (v < lim)
         | _, _ => false)
    let cs := (if volt true then [trCellOv] else []) ++ (if volt false then [trCellUv] else [])
      ++ (if flags then [trCellHw] else [])
    let s2 := s1.tripCauses n (cs.filter fun k => s.arrives n k)
    let ready := (s2.portsOf n).all fun q =>
      (s2.port q).state == .run && (s2.port q).coldRun.all fun k => decide (k.2 < 3)
    let s3 := if cs.isEmpty && ready then
        s2.updLaneSafe n fun y => { y with derate := false, derateSince := none } else s2
    s3.recheckArming

/-! ## SYNCs (R86, R87, R91, R95) -/

/-- The port as a firing armed at a time finds it: the newest trim that came about before applies, and with one that
regains alignment ALIGN_LOST is clear. -/
def Port.trimmed (p : Port) (armedAt : Nat) : Port :=
  match p.trims.find? fun c => decide (c.at_ ≤ armedAt) with
  | none => p
  | some c => { p with
      trim := c.trim, trims := p.trims.filter fun d => decide (armedAt < d.at_), alignLost := p.alignLost && !c.regains
      echoOutRun := if c.regains then 0 else p.echoOutRun }
/-- Send the SYNC of an instant on a port; the window of the instant opens anew. An ECHO falls due on a port in RUN only. -/
def State.sendSync (s : State) (p t0 tag armedAt : Nat) (helm serialReq echo : Bool) : State :=
  let x := (s.port p).trimmed armedAt
  let req := serialReq && x.state == .run
  (s.setPort p { x with
    windowOpen := false, inFlight := none, echoSent := none, echoDue := x.echoDue || (x.state == .run && (echo || x.alignLost))
    sync := some { tag := tag, t0 := t0, helm := helm, serialReq := req } }).drive p (t0 - 7720 - x.trim)
      (syncBytes tag helm req)
/-- A port takes SYNCs: in RUN, and at step 5 of training. -/
def Port.synced (p : Port) : Bool := p.state == .run || (p.state == .train && p.trainStep == 5)
  || (p.state == .failed && p.trainStep == 5)
/-- The module holds the helm of a lane: it holds the lane's role ACTIVE. -/
def State.holdsHelm (s : State) (n : Nat) : Bool := match s.laneRole n with | none => false | some o => o.state == .active

end Sys2Proof.Machine
end

