-- ==== Sys2Proof/Machine/Analog.lean ====
section
/-! DEFINITION. The converters, the coulomb counters, the DACs and the tachometers (04). -/

namespace Sys2Proof.Machine

open Sys2Proof

/-! ## Inputs and tables (R135) -/

/-- The input belongs to the lane used for the lighthouse, while the module holds a LIGHTHOUSE role. -/
def State.gridInput (s : State) (k : Nat) : Bool := (s.activeOf 4).isSome && s.lh.lane == some (k / 12)
/-- The checks on every input that a command names. -/
def State.nameable (s : State) (ks : List Nat) : List (Bool × Nat) :=
  [(ks.all fun k => !s.armedInput k, stLaneArmed), (ks.all fun k => !s.gridInput k, stRoleHeld)]
/-- ANALOG.CAL_POINT is at work on an input or an ICV: a command that would change it is refused with BUSY (14 R405). -/
def State.calibrating (s : State) : CalTarget → Bool
  | .input k => s.ana.calJobs.any fun j => j.target == .input k
  | .icv n => (s.icv n).cal.isSome
/-- Table 3 of a configured lane's string converter is the module's own (05 R146). -/
def State.tableOwned (s : State) (conv table : Nat) : Bool :=
  conv % 2 == 1 && table == 3 && ((s.lane (conv / 2)).cfg).isSome

def inputSetDo (k : Nat) (cls : InputClass) (scale : Int) (handle : Nat) (s : State) : Answer :=
  checked s ((decide (k < 96) && withinI (-2147483648) 2147483647 scale && decide (handle < 4096), stInvalidArg)
    :: s.nameable [k] ++ [(!s.fixedInput k || cls == positionClass k, stInputOwned), (!s.calibrating (.input k), stBusy)])
    (ok (s.updInput k fun i => { i with cls := cls, scale := scale, handle := some handle }))
def execAnalogInputSet (src : Source) (input : Nat) (cls : InputClass) (scale : Int) (handle : Nat) (s : State) :
    Host.Outcome State Fault Refusal :=
  runCommand src 0x0701 (inputSetDo input cls scale handle) s

/-- Entries of a converter's tables besides one. -/
def Converter.otherEntries (v : Converter) (table : Nat) : Nat :=
  (((List.range 4).filter (· != table)).map fun k => (v.table k).length).sum
def tableSetDo (conv table : Nat) (entries : List (BitVec 32)) (queue : Option Nat) (s : State) : Answer :=
  let v := s.conv conv
  checked s
    ([ (decide (conv < 16) && decide (table < 4) && within 1 64 entries.length && entries.all tableEntryOk
        && (match queue with | none => true | some q => decide (q < 32768)), stInvalidArg) ]
     ++ s.nameable (entries.map fun e => 6 * conv + entryInput e)
     ++ [(!s.tableOwned conv table, stInputOwned), (decide (v.otherEntries table + entries.length ≤ 64), stTableFull)])
    (ok (s.setConv conv { v with tables := tset v.tables table entries, queues := tset v.queues table queue }))
def execAnalogTableSet (src : Source) (conv table : Nat) (entries : List (BitVec 32)) (queue : Option Nat) (s : State) :
    Host.Outcome State Fault Refusal :=
  runCommand src 0x0702 (tableSetDo conv table entries queue) s

def tableStartDo (conv table : Nat) (s : State) : Answer :=
  let es := (s.conv conv).table table
  checked s
    ((decide (conv < 16) && decide (table < 4), stInvalidArg) :: s.nameable (es.map fun e => 6 * conv + entryInput e)
     ++ [(!s.tableOwned conv table, stInputOwned), (!es.isEmpty, stNotFound)])
    (ok (s.startTable conv table false s.now))
def execAnalogTableStart (src : Source) (conv table : Nat) (s : State) : Host.Outcome State Fault Refusal :=
  runCommand src 0x0703 (tableStartDo conv table) s

/-- ANALOG.CONVERT: answered with its record; an urgent request that is not converted is answered at once. -/
def convertDo (src : Source) (input : Nat) (urgent : Bool) (s : State) : Answer :=
  let k := input / 6
  let c := s.conversion input (if urgent then 5 else 6) true
  let z := s.urgentRequest k [c]
  let v := s.conv k
  let dropped := (z.conv k).urgentCollide != v.urgentCollide || (z.conv k).urgentDropped != v.urgentDropped
  checked s [(decide (input < 96), stInvalidArg), (!s.gridInput input, stRoleHeld)]
    (if urgent then
      (if dropped then ⟨some stUrgentDropped, [.struct (droppedRecord c).bytes], z⟩
       else later (s.urgentRequest k [{ c with src := some src }]))
     else later (s.softRequest k { c with src := some src }))
def execAnalogConvert (src : Source) (input : Nat) (urgent : Bool) (s : State) : Host.Outcome State Fault Refusal :=
  runCommand src 0x0704 (convertDo src input urgent) s

/-- The latest record of an input; one never converted holds the no-value marker. -/
def State.latestOf (s : State) (k : Nat) : Result :=
  (s.input k).latest.getD
    { tag := 0, value := none, raw := 0, input := k, source := 0, timeTag := false, dropped := false, uncal := true }
def execAnalogRead (src : Source) (inputs : List Nat) (s : State) : Host.Outcome State Fault Refusal :=
  runCommand src 0x0705 (fun z => checked z
    [ (decide (inputs.length ≤ 96) && inputs.all (decide <| · < 96), stInvalidArg)
    , (inputs.all fun k => !z.gridInput k, stRoleHeld) ]
    (okWith z (f2 inputs.length :: inputs.map fun k => .struct (z.latestOf k).bytes))) s

/-! ## Calibration (R126, R127) -/

/-- The input that a target's 64 conversions take. -/
def calInput : CalTarget → Nat
  | .input k => k
  | .icv n => 12 * n + 6
/-- A CAL request of 64 conversions. -/
def State.calRequest (s : State) (k : Nat) : State :=
  s.softRequest (k / 6) { s.conversion k 7 true with left := 64 }
def calPointDo (src : Source) (target : CalTarget) (full : Bool) (value : Int) (s : State) : Answer :=
  let k := calInput target
  let job : CalJob := { target := target, full := full, value := value, src := src, codes := [], nextAt := s.now }
  let busy := s.ana.calJobs.any (fun j => calInput j.target == k)
    || (List.range 8).any fun n => (s.icv n).cal.isSome && 12 * n + 6 == k
  checked s ((decide (k < 96) && withinI (-2147483647) 2147483647 value, stInvalidArg) :: s.nameable [k] ++ [(!busy, stBusy)])
    (match target with
     | .input _ => later ({ s with ana := { s.ana with calJobs := s.ana.calJobs ++ [job] } }.calRequest k)
     | .icv n => later (s.updIcv n fun v => { v.reset s.now s.pos with cal := some job, calWords := [] }))
def execAnalogCalPoint (src : Source) (target : CalTarget) (full : Bool) (value : Int) (s : State) :
    Host.Outcome State Fault Refusal :=
  runCommand src 0x0706 (calPointDo src target full value) s

/-- The coefficients in force of a target. -/
def State.calOf (s : State) : CalTarget → Option (Int × Int)
  | .input k => (s.input k).coef
  | .icv n => (s.icv n).coef.map fun x => (x.1, (x.2 : Int))
/-- Commit the coefficients of targets to the serial store, under the generation that their record takes. -/
def State.calStore (s : State) (ts : List CalTarget) : State :=
  ts.foldl (fun z g => match z.calOf g with
    | none => z
    | some (a, b) =>
      let z1 := if z.store.settingsVolatile then z
        else { z with ana := { z.ana with calStored := ⟨g, a, b, z.store.genSettings + 1⟩ :: z.ana.calStored } }
      match g with
      | .input k => z1.updInput k fun i => { i with committed := true }
      | .icv n => z1.updIcv n fun v => { v with committed := true }) s
/-- The targets that ANALOG.CAL_COMMIT names. -/
def calTargets (inputs icvs : List Nat) (all : Bool) : List CalTarget :=
  if all then (List.range 96).map .input ++ (List.range 8).map .icv else inputs.map .input ++ icvs.map .icv
def calCommitDo (inputs icvs : List Nat) (all : Bool) (s : State) : Answer :=
  let ts := calTargets inputs icvs all
  let named := if all then List.range 96 else inputs ++ icvs.map fun n => 12 * n + 6
  checked s ((inputs.all (decide <| · < 96) && icvs.all (decide <| · < 8), stInvalidArg)
      :: s.nameable named ++ [(!ts.any s.calibrating, stBusy)])
    (ok ((s.calStore ts).event evCalCommitted 0 0))
def execAnalogCalCommit (src : Source) (inputs icvs : List Nat) (all : Bool) (s : State) :
    Host.Outcome State Fault Refusal :=
  runCommand src 0x0707 (fun z => (calCommitDo inputs icvs all z).persisted 0x0707 0
    (.analogCalCommit src inputs icvs all)) s

def execAnalogCalRead (src : Source) (target : CalTarget) (s : State) : Host.Outcome State Fault Refusal :=
  runCommand src 0x0708 (fun z =>
    let c := z.calOf target
    let done := match target with | .input k => (z.input k).committed | .icv n => (z.icv n).committed
    checked z ((decide (calInput target < 96), stInvalidArg) :: z.nameable [calInput target])
      (okWith z [fb c.isSome, .s 4 ((c.map Prod.fst).getD 0), .s 4 ((c.map Prod.snd).getD 0), fb done])) s

/-- The mean of codes, and their spread. -/
def meanCode (l : List Nat) : Rat := if l.isEmpty then 0 else (l.sum : Rat) / l.length
def spreadOf (l : List Nat) : Nat := l.foldl max 0 - l.foldl min 16383
/-- The mean count rate of windows, counts per second, and their mean length in seconds. -/
def meanRate (l : List (Int × Nat)) : Rat :=
  if l.isEmpty then 0 else ((l.map fun w => (w.1 : Rat) * 1000000000 / w.2).sum) / l.length
def meanWindow (l : List (Int × Nat)) : Rat :=
  if l.isEmpty then 0 else ((l.map fun w => (w.2 : Rat) / 1000000000).sum) / l.length
/-- The coefficients of an input's two points: the status, and OFFSET and GAIN. Coefficients that their number formats do
not hold are out of range (log entry 49). -/
def inputCoef (i : Input) (z f : Int × Rat) : Nat × Option (Int × Int) :=
  let d := f.2 - z.2
  if |d| < 4096 then (stCalSpan, none)
  else
    let g : Rat := ((f.1 - z.1 : Int) : Rat) / d
    if g = 0 ∨ |((i.scale : Rat) / 65536)| < 10 * |g - (i.scale : Rat) / 65536| then (stCalRange, none)
    else
      let o := roundA ((z.2 - z.1 / g) * 65536)
      let q := roundA (g * 65536)
      if withinI (-2147483648) 2147483647 o && withinI (-2147483648) 2147483647 q then (stOk, some (o, q))
      else (stCalRange, none)
/-- The coefficients of an ICV's two points (mean count rates): OFFSET_RATE and K. The nominal scale of the range rule is the
converter's own (`Config.icvNominal`, log entry 49). -/
def icvCoef (nominal windowS : Rat) (z f : Int × Rat) : Nat × Option (Int × Nat) :=
  let d := f.2 - z.2
  if |d * windowS| < 4096 then (stCalSpan, none)
  else if |nominal| < 10 * |(f.1 : Rat) * 1000000 / d - nominal| then (stCalRange, none)
  else
    let o := roundA (z.2 * 256)
    let k := roundA ((f.1 : Rat) * 1000000 / d * 65536)
    if withinI (-2147483648) 2147483647 o && withinI 0 4294967295 k then (stOk, some (o, k.toNat)) else (stCalRange, none)
/-- An input takes a point; coefficients follow when both are held. -/
def State.inputPoint (s : State) (k : Nat) (full : Bool) (p : Int × Rat) : Nat × State :=
  let i := s.input k
  let i1 := if full then { i with full := some p } else { i with zero := some p }
  match i1.zero, i1.full with
  | some z, some f =>
    let r := inputCoef i1 z f
    (r.1, (s.setInput k (match r.2 with | none => i1 | some c => { i1 with coef := some c, committed := false })).compWrite
      (k / 12))
  | _, _ => (stOk, s.setInput k i1)
/-- An ICV takes a point. -/
def State.icvPoint (s : State) (n : Nat) (full : Bool) (p : Int × Rat) (windowS : Rat) : Nat × State :=
  let v := s.icv n
  let v1 := if full then { v with full := some p } else { v with zero := some p }
  match v1.zero, v1.full with
  | some z, some f =>
    let r := icvCoef (Config.icvNominal n) windowS z f
    (r.1, s.setIcv n (match r.2 with | none => v1 | some c => { v1 with coef := some c, committed := false }))
  | _, _ => (stOk, s.setIcv n v1)
/-- The job of a target. -/
def State.calJob (s : State) : CalTarget → Option CalJob
  | .input k => s.ana.calJobs.find? fun j => j.target == .input k
  | .icv n => (s.icv n).cal
/-- The point of a target is complete. -/
def State.calReady (s : State) (g : CalTarget) : Bool :=
  match s.calJob g with
  | none => false
  | some j => j.codes.length == 64 && (match g with | .input _ => true | .icv n => (s.icv n).calWords.length == 16)
/-- Answer a calibration point. The spec gives the mean code and the mean count rate of the response no number format: they
go out as signed Q16.16 codes and signed Q24.8 counts per second, the formats of OFFSET and OFFSET_RATE (DESIGN CHOICE, log
entry 143). -/
def calResultDo (g : CalTarget) (j : CalJob) (s : State) : State :=
  let spread := spreadOf j.codes
  let s0 := match g with
    | .input _ => { s with ana := { s.ana with calJobs := s.ana.calJobs.filter fun (x : CalJob) => x.target != g } }
    | .icv n => s.updIcv n fun v => { v with cal := none, calWords := [] }
  let reply (r : Nat × State) (mean : Field) : State :=
    r.2.answer j.src 0x0706 r.1 (if r.1 = stOk then [mean, f2 spread] else [])
  if 64 < spread then s0.answer j.src 0x0706 stCalNoisy []
  else match g with
  | .input k => reply (s0.inputPoint k j.full (j.value, meanCode j.codes)) (.s 4 (roundA (meanCode j.codes * 65536)))
  | .icv n =>
    let w := (s.icv n).calWords
    let r := s0.icvPoint n j.full (j.value, meanRate w) (meanWindow w)
    let q := r.2.inputPoint (12 * n + 6) j.full (j.value, meanCode j.codes)
    reply (if r.1 = stOk then q else (r.1, q.2)) (.s 4 (roundA (meanRate w * 256)))
def execCalPointResult (t : Nat) (target : CalTarget) (s : State) : Host.Outcome State Fault Refusal :=
  wheneverOn (decide (calInput target < 96)) s t (fun z => z.calReady target)
    (fun z => match z.calJob target with | none => z | some j => calResultDo target j z)

def execAnalogCountersRead (src : Source) (conv : Nat) (clear : Bool) (s : State) : Host.Outcome State Fault Refusal :=
  runCommand src 0x0709 (fun z =>
    let v := z.conv conv
    checked z [(decide (conv < 16), stInvalidArg)]
      { ok (if clear then z.setConv conv { v with
          urgentCollide := 0, urgentDropped := 0, resumedCount := 0, seqOverrun := 0, clipCount := 0 } else z) with
        payload := [f8 v.urgentCollide, f8 v.urgentDropped, f8 v.resumedCount, f8 v.seqOverrun, f8 v.clipCount] }) s

/-! ## Conversions (R108, R110 to R119) -/

/-- A code of a calibration conversion joins its job. -/
def State.calCode (s : State) (k code : Nat) : State :=
  let put (j : CalJob) : CalJob := if j.codes.length < 64 then { j with codes := j.codes ++ [code] } else j
  let s1 := { s with ana := { s.ana with calJobs := s.ana.calJobs.map fun (j : CalJob) => if j.target == .input k then put j else j } }
  if k % 12 = 6 then s1.updIcv (k / 12) fun v => { v with cal := v.cal.map put } else s1
/-- A conversion delivers its code, 250 ns after its hold instant; the converter goes on with what is next. One that a
scheduled request armed since forbids (R113) has not been started: it is put off. -/
def conversionDo (k code : Nat) (c : Conversion) (s : State) : State :=
  if !urgentSource c.source && s.clearOf k c.holdAt != c.holdAt then
    s.updConv k fun v => { v with running := some { c with holdAt := s.clearOf k c.holdAt } }
  else
  let tag := if c.codes.isEmpty && (c.source == 0 || c.source == 6 || c.source == 7) then
      (if c.timeTag then c.holdAt else s.posAt c.holdAt) else c.tag
  let c1 := { c with codes := c.codes ++ [code], tag := tag, left := c.left - 1 }
  let end_ := c.holdAt + 250
  let s0 := s.updConv k fun v => { v with running := none }
  if c.source = 7 then
    let one := { c1 with codes := [], resumed := false, holdAt := c.holdAt + 1000 }
    let s1 := ((s0.calCode c.input code).deliver (s.recordOf { c1 with codes := [] } [code]) c).updConv k fun v =>
      { v with clipCount := if code = 0 ∨ code = 16383 then inc64 v.clipCount else v.clipCount
               soft := if c1.left = 0 then v.soft else v.soft ++ [one] }
    s1.startNext k end_
  else if c1.left ≠ 0 then s.updConv k fun v => { v with running := some { c1 with holdAt := s.clearOf k end_ } }
  else
    let r := s.recordOf c1 c1.codes
    let s1 := (s0.updConv k fun v => { v with clipCount := if r.clip then inc64 v.clipCount else v.clipCount }).deliver r c1
    let s2 := if c.source = 0 then s1.updConv k fun v => { v with run := v.run.map fun x =>
        { x with
          index := x.index + 1
          gapUntil := some (end_ + 250 * entryGap (x.entries.getD x.index 0)) } } else s1
    s2.startNext k end_
def execConversionComplete (t conv code : Nat) (s : State) : Host.Outcome State Fault Refusal :=
  wheneverOn (decide (conv < 16)) s t
    (fun z => decide (code < 16384) && (z.conv conv).running.any fun c => decide (c.holdAt + 250 ≤ z.now))
    (fun z => match (z.conv conv).running with | none => z | some c => conversionDo conv code c z)

/-- Records four to a 64-byte entry, the last filled with zeros; `fuel` bounds the entries. -/
def packRecords : Nat → List Result → List (List Byte)
  | 0, _ => []
  | _, [] => []
  | f + 1, l => fitBytes 64 ((l.take 4).flatMap Result.bytes) :: packRecords f (l.drop 4)
/-- A table run has ended: its records go to its queue, and a pending start begins (R115, R119). -/
def tableEndDo (k : Nat) (r : TableRun) (s : State) : State :=
  let v := s.conv k
  let s1 := s.setConv k { v with run := none, pendingStart := none }
  let s2 := match r.queue with
    | none => s1
    | some q => (packRecords 16 r.records).foldl (fun z e => z.queuePut q e) s1
  match v.pendingStart with
  | none => s2
  | some (table, byFiring) => s2.startTable k table byFiring s.now
def execTableRunEnd (t conv : Nat) (s : State) : Host.Outcome State Fault Refusal :=
  wheneverOn (decide (conv < 16)) s t
    (fun z => match (z.conv conv).run with
      | none => false
      | some r => r.index == r.entries.length && elapsedO r.gapUntil 0 z.now)
    (fun z => match (z.conv conv).run with | none => z | some r => tableEndDo conv r z)

def execSarSequence (t entry : Nat) (s : State) : Host.Outcome State Fault Refusal :=
  firing entry 2 s t fun z a => z.startTable a.content.arg0 a.content.arg1 true a.t0

/-! ## The integrating converters (R121 to R124, 06 R177) -/

/-- The 24 bytes of an output word. -/
def IcvWord.bytes (w : IcvWord) : List Byte :=
  leBytes 4 ((if w.partial_ then 1 else 0) + (if w.overrange then 2 else 0) + ofSigned 24 w.count * 256)
  ++ leBytes 4 w.windowNs ++ leBytes 8 w.endNs ++ leBytes 8 w.tag
def execIcvStatus (src : Source) (lane : Nat) (s : State) : Host.Outcome State Fault Refusal :=
  runCommand src 0x0801 (fun z =>
    let v := z.icv lane
    checked z [(decide (lane < 8), stInvalidArg)]
      (okWith z
        [ .struct (match v.last with | none => List.replicate 24 0 | some w => w.bytes), .s 8 (v.acc.tdiv 1000000)
        , f1 (match v.quality with | .icv => 0 | .sarCarried => 1 | .stopped => 2), fb v.incomplete, f8 v.validWords ])) s

def execIcvReset (src : Source) (lane : Nat) (s : State) : Host.Outcome State Fault Refusal :=
  runCommand src 0x0802 (fun z => checked z
    [(decide (lane < 8), stInvalidArg), (!z.gridInput (12 * lane + 6), stRoleHeld), (!z.calibrating (.icv lane), stBusy)]
    (ok (z.updIcv lane fun v => v.reset z.now z.pos))) s

/-- A firing ends one window and starts the next. -/
def icvWindowDo (n : Nat) (a : ArmedFiring) (s : State) : State :=
  s.updIcv n fun v => { v with
    prevStart := v.windowStart, prevTag := v.windowTag, prevEnd := a.t0, prevPartial := v.partial_
    windowStart := a.t0, windowTag := a.pos, partial_ := false, prevCharge := v.modelCharge, modelCharge := 0 }
def execIcvWindow (t entry : Nat) (s : State) : Host.Outcome State Fault Refusal :=
  firing entry 3 s t fun z a => (bitsOf 8 a.content.arg0).foldl (fun y n => icvWindowDo n a y) z

/-- Samples that no later piece can need are dropped. -/
def pruneStrobes (upTo : Nat) : List (Nat × Option Int) → List (Nat × Option Int)
  | a :: b :: r => if b.1 ≤ upTo then pruneStrobes upTo (b :: r) else a :: b :: r
  | l => l
/-- The counter takes a word: a gap before the window is carried, and the word's own charge added, or carried where the
word is partial, over range or without coefficients. -/
def Icv.count (v : Icv) (w : IcvWord) : Icv :=
  let start := w.endNs - w.windowNs
  let from_ := v.addedTo.getD v.resetAt
  if w.partial_ then
    { v.carryTo w.endNs with
      addedTo := some (max from_ w.endNs), windowsSpan := v.windowsSpan + 1, windowsCarried := v.windowsCarried + 1 }
  else
    let v1 := if from_ < start then v.carry from_ start else v
    match (if w.overrange then none else v.charge w.count w.windowNs) with
    | some q => { v1 with
        acc := wrapS 64 (v1.acc + q), quality := .icv, incomplete := false, addedTo := some w.endNs
        windowsSpan := v1.windowsSpan + 1 }.reopen
    | none => { v1.carry start w.endNs with
        addedTo := some w.endNs, windowsSpan := v1.windowsSpan + 1, windowsCarried := v1.windowsCarried + 1 }.reopen
/-- A word arrives: the counter, the correction of the models (06 R177), and a calibration point under way. In SLACK the models
take the word's charge through the counter (06 R197), so that what the correction leaves is the part of the window that they
stepped on samples in FULL (DEDUCED, log entry 157). -/
def icvWordDo (n : Nat) (count : Int) (s : State) : State :=
  let v := s.icv n
  let w : IcvWord :=
    { tag := v.prevTag, endNs := v.prevEnd, windowNs := v.prevEnd - v.prevStart, count := satS 24 count
      overrange := decide (count ≤ -8388608 ∨ 8388607 ≤ count), partial_ := v.prevPartial }
  let v1 := { v with
    last := some w, ring := (w :: v.ring).take 8
    validWords := if w.partial_ || w.overrange || decide (w.endNs ≤ v.resetAt) then v.validWords else v.validWords + 1 }
  let running := v.quality != .stopped
  let v2 := if running then v1.count w else v1
  let v3 := { v2 with strobes := pruneStrobes (v2.addedTo.getD 0) v2.strobes }
  let v4 := match v3.cal with
    | some _ => if w.partial_ || 16 ≤ v3.calWords.length then v3
        else { v3 with calWords := v3.calWords ++ [(w.count, w.windowNs)] }
    | none => v3
  let s1 := s.setIcv n v4
  let s2 := if v.cal.isSome && w.partial_ then s1.calRequest (12 * n + 6) else s1
  let s3 := if running && (v.incomplete || v4.incomplete) then s2.updSpring n fun p => { p with counterOk := false } else s2
  let valid := running && !w.partial_ && !w.overrange && v.coef.isSome
  match valid, v.charge w.count w.windowNs with
  | true, some q =>
    let d : Rat := (if s.power.state == .slack then 0 else (q : Rat)) - v.prevCharge
    (s3.portsOf n).foldl (fun z p => (z.modelled p).foldl (fun y c => y.updCell (cellIx p c) fun k =>
      if k.started then { k with pendingDelta := k.pendingDelta + d } else k) z) s3
  | _, _ => s3
def execIcvWord (t lane : Nat) (count : Int) (s : State) : Host.Outcome State Fault Refusal :=
  wheneverOn (decide (lane < 8)) s t
    (fun z => decide (0 < (z.icv lane).prevEnd) && decide ((z.icv lane).prevEnd ≤ z.now)
      && (match (z.icv lane).last with | none => true | some w => decide (w.endNs < (z.icv lane).prevEnd)) && z.tablesRun)
    (icvWordDo lane count)

/-- A bus conversion in BEACHED (R120); the last configured lane's closes the round that R200 of 06 counts. -/
def beachedBusDo (n code : Nat) (s : State) : State :=
  let c : Conversion := { input := 12 * n + 8, source := 6, holdAt := s.now, tag := s.now, timeTag := true }
  let s1 := s.latestRecord (s.recordOf c [code]) s.now
  let lanes := (List.range 8).filter fun k => ((s1.lane k).cfg).isSome
  if lanes.getLast? == some n then
    let below (k : Nat) : Bool := match (s1.lane k).cfg, s1.sample (12 * k + 8) with
      | some g, some v => decide (v < g.vbusMin)
      | _, _ => false
    let low := if lanes.all below then s1.power.busLow + 1 else 0
    let up := lanes.any fun k => match (s1.lane k).cfg, s1.sample (12 * k + 8) with
      | some g, some v => decide (g.vbusMin ≤ v)
      | _, _ => false
    { s1 with
      ana := { s1.ana with beachedBusAt := s1.now }
      power := { s1.power with
        busLow := low, busWasLow := s1.power.busWasLow || decide (100 ≤ low)
        busHigh := if up && s1.power.busWasLow then s1.power.busHigh + 1 else 0 } }
  else s1
def execBeachedBusConversion (t lane code : Nat) (s : State) : Host.Outcome State Fault Refusal :=
  wheneverOn (decide (lane < 8)) s t
    (fun z => z.power.state == .beached && ((z.lane lane).cfg).isSome && z.now % 10000000 == 0 && decide (code < 16384))
    (beachedBusDo lane code)

/-! ## DACs (R128 to R130) -/

/-- DAC.CONFIG: a source signal is an unsigned 16-bit one; a handle that was never declared has no type yet, and drives
SAFE_CODE until it carries one (R130, 11 R335). -/
def dacConfigDo (k : Nat) (source : OutSource) (safeCode range : Nat) (s : State) : Answer :=
  let s1 := s.updDac k fun d => { d with source := source, safeCode := safeCode, safeRange := range }
  checked s
    [ (decide (k < 8) && decide (safeCode < 65536) && decide (range < 2)
        && (match source with
          | .path _ => true
          | .signal h => decide (h < 65536) && ((s.sigLocal h).typ == 0 || (s.sigLocal h).typ == 3)
          | _ => false), stInvalidArg) ]
    (ok (match source with
      | .signal h => if (s1.sigLocal h).absent then s1.dacSafe k else s1
      | _ => s1))
def execDacConfig (src : Source) (out : Nat) (source : OutSource) (safeCode range : Nat) (s : State) :
    Host.Outcome State Fault Refusal :=
  runCommand src 0x0901 (dacConfigDo out source safeCode range) s

def dacSetDo (src : Source) (k range code : Nat) (s : State) : Answer :=
  checked s [(decide (k < 8) && decide (range < 2) && decide (code < 65536), stInvalidArg)]
    (if (s.dac k).source == .path src.path then ok (s.dacValue k range code)
     else ⟨some stNotOwner, [], s.updDac k fun d => { d with refused := inc64 d.refused }⟩)
def execDacSet (src : Source) (out range code : Nat) (s : State) : Host.Outcome State Fault Refusal :=
  runCommand src 0x0902 (dacSetDo src out range code) s

def execDacRangeSettle (t out : Nat) (s : State) : Host.Outcome State Fault Refusal :=
  wheneverOn (decide (out < 8)) s t (fun z => elapsedO (z.dac out).settleUntil 0 z.now)
    (fun z => z.updDac out fun d => { d with code := d.stored, settleUntil := none })

/-! ## Tachometers (R131 to R134) -/

/-- An input at standstill. -/
def Tach.still (x : Tach) : Tach := { x with speed := 0, stale := true, lastEdge := none }
/-- The signals of an input. -/
def State.tachSignals (s : State) (k : Nat) : State :=
  let x := s.tach k
  ((s.watchCooling.signalOf sgTachSpeed k 4 x.speed).signalOf sgTachStale k 1 (if x.stale then 1 else 0)).signalOf sgTachReverse k 1
    (if x.reverse then 1 else 0)
/-- Every tachometer goes to standstill (R132), and its signals say so (R134). -/
def State.tachsStill (s : State) : State := (List.range 16).foldl (fun z k => (z.updTach k Tach.still).tachSignals k) s
def tachConfigDo (k : Nat) (falling pair : Bool) (ppr filter standstill : Nat) (s : State) : Answer :=
  let s1 := s.updTach k fun x =>
    { x.still with falling := falling, pair := pair, ppr := ppr, filter := filter, standstill := standstill, reverse := false }
  let mate := if k % 2 = 0 then k + 1 else k - 1
  checked s
    [ (decide (k < 16) && (!pair || decide (k < 8)) && within 1 64 ppr && decide (filter < 256)
        && within 10 10000 standstill, stInvalidArg) ]
    (ok ((if k < 8 then s1.updTach mate fun x => { x with pair := pair } else s1).tachSignals k))
def execTachConfig (src : Source) (input : Nat) (falling pair : Bool) (ppr filter standstill : Nat) (s : State) :
    Host.Outcome State Fault Refusal :=
  runCommand src 0x0A01 (tachConfigDo input falling pair ppr filter standstill) s

def execTachRead (src : Source) (inputs : List Nat) (s : State) : Host.Outcome State Fault Refusal :=
  runCommand src 0x0A02 (fun z => checked z [(decide (inputs.length ≤ 16) && inputs.all (decide <| · < 16), stInvalidArg)]
    (okWith z (f2 inputs.length :: inputs.flatMap fun k =>
      let x := z.tach k
      [.s 4 x.speed, fb x.reverse, fb x.stale, .s 4 x.count, f8 x.lastInterval]))) s

/-- The interval between two edges, measured to 8 ns (R131). -/
def edgeInterval (a b : Nat) : Nat := (b / 8 - a / 8) * 8
/-- A counted edge (R131 to R133). -/
def Tach.edge (x : Tach) (now : Nat) (dirHigh : Bool) : Tach :=
  let rev := x.pair && dirHigh
  let x1 := { x with
    count := wrapS 32 (x.count + (if rev then -1 else 1)), lastEdge := some now, reverse := rev
    lastInterval := match x.lastEdge with | none => x.lastInterval | some e => edgeInterval e now }
  match x.lastEdge with
  | none => { x1 with speed := 0 }
  | some e =>
    if x.standstill * 1000000 < now - e then { x1 with speed := 0, stale := true }
    else if rev != x.reverse then { x1 with speed := 0 }
    else
      let v := satS 32 (roundA ((6000000000000 : Rat) / (edgeInterval e now * x.ppr : Nat)))
      { x1 with speed := if rev then -v else v, stale := false }
/-- TACH_EDGE: an edge is counted in the selected polarity, unless its pulse is narrower than the glitch filter (R131). -/
def execTachEdge (t input : Nat) (pulse : TachPulse) (s : State) : Host.Outcome State Fault Refusal :=
  wheneverOn (decide (input < 16)) s t
    (fun z => z.tablesRun && pulse.falling == (z.tach input).falling && decide (8 * (z.tach input).filter ≤ pulse.widthNs)
      && !((z.tach input).pair && input % 2 == 1 && decide (input < 8)))
    (fun z => (z.updTach input fun x => x.edge z.now pulse.dirHigh).tachSignals input)

def execStandstill (t input : Nat) (s : State) : Host.Outcome State Fault Refusal :=
  wheneverOn (decide (input < 16)) s t
    (fun z => z.tablesRun && elapsedO (z.tach input).lastEdge ((z.tach input).standstill * 1000000) z.now)
    (fun z => (z.updTach input Tach.still).tachSignals input)

end Sys2Proof.Machine
end

