-- ==== Sys2Proof/Machine/MboxOps.lean ====
section
/-! DEFINITION. Requests on their way to a mailbox: envelopes, segments, the request rings of the PCIe host, and what a role
move refuses; requests of the module's own (14 R397 to R400, R412, R418, R420, R421). -/

namespace Sys2Proof.Machine

open Sys2Proof

/-! ## Envelopes (R398, R399) -/

/-- The status that the checks of an envelope itself give, if any; `seg` is the path's largest segment. -/
def envelopeErr (seg : Nat) (b : List Byte) : Option Nat :=
  if leAt b 0 2 ≠ 1 ∨ seg < leAt b 16 2 ∨ b.length < 32 then some stBadEnvelope
  else if leAt b 18 2 ≠ 0 ∨ leAt b 20 4 % 2 ^ 32 / 2 ≠ 0 ∨ leAt b 24 8 ≠ 0 then some stInvalidArg
  else none
/-- What the header of a Garzet message says of a request in it; zeros on the other paths (R418). -/
structure Route where
  role : Nat := 0
  epoch : Nat := 0
  corr : Nat := 0
  srcRole : Nat := 0
  srcEpoch : Nat := 0
/-- A request with a route. -/
def Request.via (q : Request) (r : Route) : Request :=
  { q with targetRole := r.role, targetEpoch := r.epoch, corr := r.corr, srcRole := r.srcRole, srcEpoch := r.srcEpoch }
/-- A request of a message's envelope. -/
def requestOf (b : List Byte) (err : Option Nat) (bytes : List Byte) (r : Route) : Request :=
  ({ tag := leAt b 4 4, command := leAt b 2 2, envErr := err, bytes := bytes } : Request).via r

/-! ## Segments (R400) -/

/-- The open assembly of a mailbox ends with BAD_ENVELOPE. -/
def Mailbox.badAssembly (m : Mailbox) (r : Route) : Mailbox :=
  match m.asm with
  | none => m
  | some a => { m with
      asm := none
      queue := m.queue ++
        [({ tag := a.tag, command := a.command, envErr := some stBadEnvelope, bytes := [] } : Request).via r] }
/-- Take a segment that fits the assembly `a`. -/
def Mailbox.segment (m : Mailbox) (a : Assembly) (b : List Byte) (r : Route) : Mailbox :=
  let bytes := a.bytes ++ slice b 32 (leAt b 16 2)
  let last := leAt b 20 4 % 2 == 1
  if a.length < bytes.length || (last && decide (bytes.length < a.length)) then
    { ({ m with asm := some a }.badAssembly r) with discardTag := some a.tag }
  else if last then
    { m with asm := none, queue := m.queue ++ [requestOf b none bytes r] }
  else { m with asm := some { a with bytes := bytes } }
/-- A message that carries a request, or a segment of one, arrives at its mailbox. -/
def Mailbox.message (m : Mailbox) (b : List Byte) (r : Route) : Mailbox :=
  let tag := leAt b 4 4
  let off := leAt b 12 4
  let length := leAt b 8 4
  let cmd := leAt b 2 2
  match envelopeErr (segMax m.path) b with
  | some e =>
    let m1 := m.badAssembly r
    { m1 with queue := m1.queue ++ [requestOf b (some e) [] r], discardTag := some tag }
  | none =>
    if off ≠ 0 && m.discardTag == some tag then m
    else if off = 0 then
      let m1 := { m.badAssembly r with discardTag := none }
      if 1048576 < length then
        { m1 with queue := m1.queue ++ [requestOf b (some stBadEnvelope) [] r], discardTag := some tag }
      else m1.segment { tag := tag, command := cmd, length := length, bytes := [] } b r
    else match m.asm with
      | none => { m with queue := m.queue ++ [requestOf b (some stBadEnvelope) [] r], discardTag := some tag }
      | some a =>
        if a.tag = tag && a.command = cmd && a.length = length && a.bytes.length = off then m.segment a b r
        else { m.badAssembly r with discardTag := some tag }

/-! ## Request rings (R412) -/

/-- The next whole message of a PCIe mailbox's request ring, its entries taken from the ring. A SEG_LENGTH above the largest
segment takes the entries it counts that are there (log entry 47). -/
def State.ringMessage (s : State) (m : Nat) : Option (List Byte × State) :=
  let q := s.queue (16 + 2 * m)
  if q.fill = 0 then none
  else
    let seg := leAt (s.lpRead (q.slotAddr q.ci) 64) 16 2
    let n := (32 + seg + 63) / 64
    let k := if 4064 < seg then min n q.fill else n
    if q.fill < k then none
    else
      let bytes := ((List.range k).flatMap fun i => s.lpRead (q.slotAddr (q.ci + i)) 64).take (32 + seg)
      some (bytes, s.setQueue (16 + 2 * m) { q with ci := (q.ci + k) % 2 ^ 32 })
/-- Take messages from the ring until the mailbox holds a complete request. -/
def State.ringFetch (s : State) (m : Nat) (n : Nat) : State :=
  repeatWhile (fun z =>
    let b := z.box .pcie m
    if !b.enable || !b.queue.isEmpty then none
    else (z.ringMessage m).map fun x => x.2.setBox (b.message x.1 {})) n s
/-- Complete requests that a PCIe mailbox holds, those in its ring included (QUEUED). -/
def State.queuedIn (s : State) (m : Nat) : Nat → Nat
  | 0 => 0
  | f + 1 =>
    let s1 := s.ringFetch m 256
    let b := s1.box .pcie m
    if b.queue.isEmpty then 0
    else b.queue.length + (s1.setBox { b with queue := [] }).queuedIn m f

/-! ## What a role move refuses (R310, R421) -/

/-- The 16 bytes of a ROLE_MOVED payload (10 R309). -/
def movedBytes (m : MovedMsg) : List Byte :=
  beBytes 4 m.role ++ beBytes 2 m.refusedEpoch ++ beBytes 2 m.holderBerth ++ beBytes 2 m.holderEpoch ++ beBytes 4 m.refusedSeq
  ++ beBytes 1 m.typ ++ [0]
/-- The payload that refuses a message for a role at an epoch. -/
def State.movedMsg (s : State) (role epoch seq typ : Nat) : MovedMsg :=
  let h := s.holderOf role
  { role := role, refusedEpoch := epoch, holderBerth := (h.map (·.1)).getD 0xFFFF, holderEpoch := (h.map (·.2)).getD 0
    refusedSeq := seq, typ := typ }
/-- Answer a request that was not taken. -/
def State.answerUntaken (s : State) (path : Path) (box tag command status corr : Nat) (payload : List Field) : State :=
  s.handOver { path := path, box := box, tag := tag, command := command, status := status, doneAt := s.now
               payload := payload, corr := corr }
/-- The requests of the Garzet mailboxes that address a role released: each is answered ROLE_MOVED. -/
def State.refuseRole (s : State) (r : Nat) : State :=
  (s.mbox.boxes.filter fun b => b.path == .garzet).foldl (fun z b =>
    (b.queue.filter fun q => q.targetRole == r).foldl (fun y q =>
      y.answerUntaken .garzet b.box q.tag q.command stRoleMoved q.corr [.struct (movedBytes (y.movedMsg r q.targetEpoch 0 3))])
      (z.setBox { z.box b.path b.box with queue := b.queue.filter fun q => q.targetRole != r })) s

/-! ## Garzet mailboxes (R418) -/

/-- COMMAND of a MAILBOX payload. -/
def mailCommand (b : List Byte) : Nat := leAt b 2 2
/-- The open Garzet mailboxes. -/
def State.garzetBoxes (s : State) : List Mailbox := s.mbox.boxes.filter fun b => b.path == .garzet
/-- A delivered request joins the mailbox of its sender; without room it is answered BUSY. -/
def State.garzetRequest (s : State) (key : Nat) (r : Route) (bytes : List Byte) : State :=
  let open_ := s.garzetBoxes.any fun b => b.box == key
  let b := s.box .garzet key
  if (!open_ && decide (32 ≤ s.garzetBoxes.length)) || decide (16 ≤ b.queue.length) then
    (s.countPath .garzet fun c => { c with busy := inc64 c.busy }).answerUntaken .garzet key (leAt bytes 4 4) (mailCommand bytes)
      stBusy r.corr []
  else
    let m : Mailbox := { b with enable := true, lastReqAt := s.now, state := if b.state == .disabled then .idle else b.state }
    s.setBox (m.message bytes r)

/-! ## Requests of the module's own (14 R397, R420) -/

/-- The bytes of a request in one message. -/
def requestBytes (cmd tag : Nat) (payload : List Byte) : List Byte :=
  leBytes 2 1 ++ leBytes 2 cmd ++ leBytes 4 tag ++ leBytes 4 payload.length ++ leBytes 4 0 ++ leBytes 2 payload.length
  ++ leBytes 2 0 ++ leBytes 4 1 ++ leBytes 8 0 ++ payload
/-- Send a request to a holder at an epoch; to this module itself it passes inside, and a full stream refuses it. -/
def State.mailOut (s : State) (h e : Nat) (r : SentReq) : State :=
  let x := s.streamTx h
  if s.net.berth == some h then s.garzetRequest h
      { role := r.role, epoch := e, corr := r.corr, srcRole := r.srcRole
        srcEpoch := ((s.ownRole r.srcRole).map (·.epoch)).getD s.net.moduleEpoch } r.bytes
  else if 64 ≤ x.unacked.length ∧ 256 ≤ x.queued.length then s.requestDone r.corr stBusy []
  else s.sendReliable h h (.mailbox r.bytes) r.srcRole (((s.ownRole r.srcRole).map (·.epoch)).getD s.net.moduleEpoch) r.role e r.corr
/-- Send a request to the ACTIVE holder of a role, and await its reply. -/
def State.sendRequest (s : State) (srcRole role cmd answerNs : Nat) (payload : List Byte) (slot : Nat := 0) : State :=
  let corr := s.net.corr
  let holder := s.holderOf role
  let r : SentReq := { corr := corr, slot := slot, srcRole := srcRole, role := role, epoch := (holder.map (·.2)).getD 0
                       command := cmd, sentAt := s.now, waitUntil := s.now + answerNs + 30000000
                       bytes := requestBytes cmd corr payload, got := [] }
  let s1 := { s with net := { s.net with corr := (corr + 1) % 65536, requests := r :: s.net.requests } }
  match holder with
  | none => s1
  | some (h, e) => s1.mailOut h e r

end Sys2Proof.Machine
end

