-- ==== Sys2Proof/Machine/RoleOps.lean ====
section
/-! DEFINITION. Taking, releasing and losing roles, and the helm messages that go with it (10 R305, R306, R310, 12 R348 to
R356, R367, R368). -/

namespace Sys2Proof.Machine

open Sys2Proof

/-! ## Helm messages (12 R353, R370) -/

abbrev hmKeep : Nat := 1
abbrev hmRelease : Nat := 2
abbrev hmTaken : Nat := 3
abbrev hmSwapRequest : Nat := 4
abbrev hmSwapReady : Nat := 5
abbrev hmTestStart : Nat := 6
abbrev hmTestResult : Nat := 7
abbrev hmFullRequest : Nat := 8

/-- The code of a sync state. -/
def syncCode : SyncState → Nat
  | .none_ => 0 | .syncing => 1 | .inSync => 2 | .stale => 3
/-- The mirror format level written to the partner of a role (12 R370). -/
def State.formatTo (s : State) (o : OwnRole) : Nat :=
  match o.partnerFormat with
  | some f => if f + 1 = s.net.format then f else s.net.format
  | none => s.net.format
/-- Send a HELM message about a role to its partner; `result` is the sync state except in a TEST_RESULT. -/
def State.sendHelm (s : State) (r kind at_ : Nat) (result : Option Nat := none) : State :=
  match s.ownRole r with
  | none => s
  | some o =>
    if o.kind == .none_ then s
    else s.sendReliable o.partner o.partner
      (.helm { kind := kind, result := result.getD (syncCode o.sync), role := r, epoch := o.epoch, format := s.formatTo o
               at_ := at_, gen := if o.state == .active then o.genSent else o.genApplied.getD 0 })
      r o.epoch r o.partnerEpoch

/-! ## Epochs (10 R306) -/

/-- The newest of some epochs. -/
def newestEpoch : List Nat → Option Nat
  | [] => none
  | e :: r => match newestEpoch r with | none => some e | some f => some (if newer f e then f else e)
/-- The epochs of a role that the module knows from its role table and from the pair's mirror. -/
def State.knownEpochs (s : State) (r : Nat) : List Nat :=
  (s.net.announcers.flatMap fun a => (a.entries.filter fun e => e.role == r).map (·.epoch))
  ++ (match s.ownRole r with | none => [] | some o => [o.epoch, o.partnerEpoch].filter (· != 0))
/-- The epoch at which the module takes a role ACTIVE. -/
def State.takeEpoch (s : State) (r : Nat) : Nat := match newestEpoch (s.knownEpochs r) with | none => 1 | some e => nextEpoch e
/-- A role of this module changes state: it is announced. -/
def State.changeOwn (s : State) (r : Nat) (f : OwnRole → OwnRole) : State :=
  let s1 := s.setOwn r f
  let s2 := { s1 with net := { s1.net with announceDue := true } }
  [0, 1].foldl (fun z k => if (z.canCtl k).master.any fun m => 0x60000000 + m.container == r then
    z.updCanCtl k fun c => { c with clearAt := z.now } else z) s2

/-! ## Taking a role ACTIVE -/

/-- The coordinator waits 10 s before it takes up open changes (10 R316). -/
def State.coordinatorTaken (s : State) (r : Nat) : State :=
  if roleKind r = 5 then { s with net := { s.net with takeoverAt := some s.now } } else s
/-- The role is held ACTIVE, at a newer epoch. -/
def State.takeActive (s : State) (r : Nat) : State :=
  let e := s.takeEpoch r
  ((s.changeOwn r fun o => { o with
      state := .active, epoch := e, sync := .none_, keeps := [], keepUnacked := [], peerReleased := false, releaseDue := 0
      fullApplied := false, frags := [] }).coordinatorTaken r).placeEntries
/-- Raise a lane's helm line (12 R350). -/
def State.raiseHelm (s : State) (n : Nat) : State :=
  s.updLane n fun l => { l with helmOut := true, helmRaisedAt := some s.now, helmRetryAt := none, wantHelm := false }
/-- A lane that was in SHADOW drives from its mirrored states: each phase switches from its next period (12 R367). -/
def Lane.takeDrive (l : Lane) : Lane :=
  if l.state == .shadow then
    { (l.updPhases fun _ p => { p with inFirst := true, switching := false }) with
      state := .run, gatesForced := false, lowRun := 0, busOutRun := 0, mailboxCmd := none }
  else l
/-- A standby takes a role over (12 R367, R368): the epoch, TAKEN and the record. -/
def State.takeOver (s : State) (r cause : Nat) : State :=
  match s.ownRole r with
  | none => s
  | some o =>
    let s1 := if o.sync == .stale then (s.setOwn r fun x => { x with takeoverStale := inc64 x.takeoverStale }).event
        evTakeoverStale 5 r else s
    let s2 := s1.takeActive r
    let s3 := s2.setOwn r fun x => { x with takeoverAt := some s.now, takeoverCause := cause }
    (s3.sendHelm r hmTaken s.pos).event evHelmTaken 5 r
/-- Causes of a takeover, as PAIR.STATUS gives them (log entry 36): 1 the helm line fell, 2 KEEP was missing, 3 RELEASE. -/
abbrev tkLine : Nat := 1
abbrev tkKeep : Nat := 2
abbrev tkRelease : Nat := 3

/-! ## Giving a role up (12 R354 to R356) -/

/-- A lane loses its helm: the line falls and the gates are held low (01 R31, 05 R139, R140, 07 R209). A spring tide goes on
at the new holder (07 R224). A lane in RUN that no twin takes over has no holder to shadow: its contactors open and it is
DISARMED, as 12 R356 has it of a lane left unheld (DESIGN CHOICE, log entry 152: R139 names SHADOW alone). -/
def State.laneHelmLost (s : State) (n : Nat) (standby : Bool) : State :=
  let l := s.lane n
  let s1 := (s.updLane n fun x => { x with helmOut := false, wantHelm := false, helmRaisedAt := none }).endSteps n ocHelm fun _ => true
  match l.state with
  | .run =>
    if standby then s1.updLane n fun x => { x.forceGates with state := .shadow }
    else (s1.updLane n fun x => { (x.forceGates.openAll s.now) with state := .disarmed, step := 0, stepAt := s.now }).springFail n
      scLaneState
  | .arming => s1.abandonArming n (some 0)
  | .disarming => s1.updLane n fun x => x.forceGates
  | _ => s1
/-- A lane that stands by is held by nobody: contactors open, DISARMED (12 R356). -/
def State.laneUnheld (s : State) (n : Nat) : State :=
  if (s.lane n).state == .shadow then
    (s.updLane n fun l => { (l.forceGates.openAll s.now) with state := .disarmed, step := 0, stepAt := s.now }).springFail n
      scLaneState
  else s
/-- What releasing a role does in the unit that serves it. -/
def State.roleStops (s : State) (o : OwnRole) (standby : Bool) : State :=
  match roleKind o.role with
  | 2 => s.laneHelmLost o.local_ standby
  | 3 =>
    if standby then
      (if (s.slot o.local_).state == .active then
        ((s.slotAbsent o.local_).updSlot o.local_ fun x => { x with state := .shadow }).placeEntries else s)
    else s.slotTo o.local_ .stopped
  | _ => s
/-- A request to move this role's helm ends with the release, unless the release is that move (14 R421). -/
def State.swapEnds (s : State) (o : OwnRole) (bySwap : Bool) : State :=
  match o.swap with
  | none => s
  | some src =>
    if bySwap then s
    else
      let s1 := s.setOwn o.role fun x => { x with swap := none }
      if src.path == .garzet then
        s1.answer src 0x1B03 stRoleMoved [.struct (movedBytes (s1.movedMsg o.role o.epoch 0 3))]
      else s1.answer src 0x1B03 stNotHelm []
/-- Release a role that is held ACTIVE: it is held STANDBY where it is paired, otherwise NONE; `told` sends RELEASE. -/
def State.releaseRole (s : State) (r : Nat) (told : Bool := true) (bySwap : Bool := false) (toNone : Bool := false) : State :=
  match s.ownRole r with
  | none => s
  | some o =>
    if o.state != .active then s
    else
      let standby := o.kind != .none_ && !o.mismatch && (roleKind r == 2 || roleKind r == 3 || roleKind r == 5) && !toNone
      let s1 := if told then s.sendHelm r hmRelease s.pos else s
      let s2 := s1.roleStops o standby
      let s3 := s2.changeOwn r fun x => { x with
        state := if standby then .standby else .none_, sync := if standby then .syncing else .none_, keeps := []
        keepUnacked := [], releaseDue := 0, fullApplied := false, cleanSince := s.now, frags := [], genApplied := none
        peerReleased := false, released := true, mirrorHeld := [] }
      ((s3.swapEnds o bySwap).refuseRole r).placeEntries
/-- A standby gives its place up: NONE. -/
def State.dropStandby (s : State) (r : Nat) : State :=
  match s.ownRole r with
  | none => s
  | some o =>
    if o.state != .standby then s
    else
      let s1 := if roleKind r = 2 then s.laneUnheld o.local_ else if roleKind r = 3 then s.slotTo o.local_ .stopped else s
      (s1.changeOwn r fun x => { x with state := .none_, sync := .none_ }).placeEntries
/-- Every role other than MODULE is released (12 R354). -/
def State.releaseAll (s : State) (told : Bool) : State :=
  (s.net.own.map (·.role)).foldl (fun z r => (z.releaseRole r told).dropStandby r) s

/-! ## Active compute path faults (01 R26, 11 R332, 12 R354) -/

/-- A lane's compute path has failed: its role is released. -/
def State.laneFault (s : State) (n : Nat) : State :=
  match s.laneRole n with | none => s | some o => s.releaseRole o.role
/-- A slot is stopped by a fault, and its role released; a standby has to resynchronise. -/
def State.slotFault (s : State) (n : Nat) : State :=
  let r := (s.slot n).role
  let s1 := (s.slotTo n .stopped).setOwn r fun o => if o.state == .standby then
    { o with sync := .syncing, fullApplied := false } else o
  if s1.holdsActive r then s1.releaseRole r else s1
/-- A graph engine has failed: every tenant it holds stops with ENGINE_FAULT. -/
def State.engineFault (s : State) (k : Nat) : State :=
  let s1 := s.updEngine k fun e => { e with fault := true }
  (s1.slotNumbers.filter fun n => (s1.slot n).state != .empty && (s1.slot n).engine == k).foldl
    (fun z n => (z.slotFault n).event evEngineFault 6 n) s1
/-- The unit that an SRAM block of 1 KiB belongs to, the parts in the order of 01 R24 (log entry 31). -/
def unitOfBlock (b : Nat) : Option EccUnit :=
  if b < 32768 then some (.modelEngine (b / 256))
  else if b < 49152 then some (.graphEngine ((b - 32768) / 512))
  else if b < 50688 then some (.spindle ((b - 49152) / 64))
  else if 52736 ≤ b ∧ b < 56832 then some .supervisorMemory
  else none
/-- An active compute path fault of a unit. -/
def State.computeFault (s : State) : EccUnit → State
  | .spindle k => s.laneFault (k / 3)
  | .modelEngine p => match s.laneOfPort p with | none => s | some n => s.laneFault n
  | .graphEngine k => s.engineFault k
  | _ => s

end Sys2Proof.Machine
end

