-- ==== Sys2Proof/Machine/TenantOps.lean ====
section
/-! DEFINITION. Graph images, their placement, signals, publications and online change (11 R322 to R345), and what a
publication does for the pair (12 R351, R352, R357 to R361). -/

namespace Sys2Proof.Machine

open Sys2Proof

/-! ## Signal values (11 R334, R335) -/

/-- The no-value marker of a type. -/
def markerOf : Nat → Option Nat
  | 2 => some 0x8000 | 3 => some 0xFFFF | 4 => some 0x80000000 | 5 => some 0xFFFFFFFF
  | 6 => some 0x8000000000000000 | 7 => some 0x7FC00000 | _ => none
/-- Bits of a type, and whether it is signed. -/
def typeBits : Nat → Nat × Bool
  | 1 => (1, false) | 2 => (16, true) | 3 => (16, false) | 4 => (32, true) | 5 => (32, false) | 6 => (64, true)
  | 7 => (32, false) | _ => (64, false)
/-- A value as its type holds it; the marker, and any NaN of FP32, is absence. -/
def sigNorm (typ : Nat) (v : Int) : Option Int :=
  let w := typeBits typ
  let bits := ofSigned w.1 v
  let gone := match markerOf typ with | none => false | some m => bits == m
  let nan := typ == 7 && decide (0x7F800000 < bits % 2 ^ 31)
  if gone || nan then none else some (if w.2 then toSigned w.1 bits else (bits : Int))
/-- VALUE as the 64 bits of a slot or of a SIGNAL entry. -/
def sigField (typ : Nat) (v : Option Int) : Nat :=
  match v, markerOf typ with
  | some x, _ => ofSigned 64 x
  | none, some m => if (typeBits typ).2 then ofSigned 64 (toSigned (typeBits typ).1 m) else m
  | none, none => 0
/-- Bits [23:20] of a slot, in their byte. -/
def SigVal.flags (v : SigVal) : Nat :=
  (if v.absent then 0x80 else 0) + (if v.held then 0x40 else 0) + (if v.stale then 0x20 else 0) + (if v.late then 0x10 else 0)
/-- The 16 bytes of a slot. -/
def SigVal.bytes (v : SigVal) : List Byte :=
  [0] ++ leBytes 1 v.publisher ++ leBytes 1 v.flags ++ leBytes 1 v.typ ++ leBytes 4 v.seq ++ leBytes 8 (sigField v.typ v.value)

/-! ## Digests (12 R360) -/

/-- Eight steps of CRC-64 on its register. -/
def crc64Step : Nat → Nat → Nat
  | 0, c => c
  | k + 1, c => crc64Step k (if c.testBit 63 then (c * 2 % 2 ^ 64) ^^^ 0x42F0E1EBA9EA3693 else c * 2)
/-- CRC-64 of R360. -/
def crc64 (l : List Byte) : Nat := l.foldl (fun c b => crc64Step 8 (c ^^^ (b.toNat * 2 ^ 56))) 0
/-- What a digest covers of one slot (log entry 54). -/
def SigVal.digestBytes (v : SigVal) : List Byte := leBytes 1 v.flags ++ leBytes 8 (sigField v.typ v.value)
/-- A digest over slots. -/
def digestOf (l : List SigVal) : Nat := crc64 (l.flatMap SigVal.digestBytes)

/-! ## Images (R322 to R324) -/

/-- An entry of the variable table. -/
def varOf (img : List Byte) (off k : Nat) : GraphVar :=
  let o := off + 72 * k
  { name := slice img o 64, typ := leAt img (o + 64) 1, mirror := (leAt img (o + 65) 1).testBit 0, count := leAt img (o + 66) 2
    offset := leAt img (o + 68) 4, values := (Config.imageInit img k).take (leAt img (o + 66) 2) }
/-- The graph that an image holds, its variables at their initial values. -/
def graphOf (b : List Byte) : Graph :=
  { id := leAt b 8 4, build := leAt b 12 8, cycle := leAt b 20 2, phase := leAt b 22 2, deadline := leAt b 24 2
    group := leAt b 26 1, sheddable := leAt b 27 1 == 1, budget := leAt b 28 4, localBytes := leAt b 32 4
    windowBytes := leAt b 36 4, queues := leAt b 40 2, localPub := leAt b 42 2, estatePub := leAt b 44 4
    vars := (List.range (leAt b 52 4)).map (varOf b (leAt b 48 4)), image := b }
/-- Reserved fields are 0 and fields within their ranges; VERSION, LENGTH and CRC agree. -/
def imageOk (b : List Byte) : Bool :=
  let n := leAt b 4 4
  let vo := leAt b 48 4
  let vc := leAt b 52 4
  let var (k : Nat) : Bool :=
    let o := vo + 72 * k
    within 1 9 (leAt b (o + 64) 1) && decide (leAt b (o + 65) 1 < 2) && within 1 4096 (leAt b (o + 66) 2)
  leAt b 0 2 == 1 && n == b.length && within 128 4194304 n && leAt b (n - 4) 4 == crc32 (b.take (n - 4))
  && leAt b 8 4 != 0 && within 1 1000 (leAt b 20 2) && decide (leAt b 22 2 < leAt b 20 2)
  && within 1 (leAt b 20 2) (leAt b 24 2) && decide (leAt b 26 1 < 8) && decide (leAt b 27 1 < 2)
  && within 10 (leAt b 24 2 * 980) (leAt b 28 4) && within 4096 524288 (leAt b 32 4) && leAt b 32 4 % 4096 == 0
  && decide (leAt b 36 4 ≤ 64 * 1048576) && leAt b 36 4 % 1048576 == 0 && decide (leAt b 40 2 ≤ 128)
  && decide (leAt b 42 2 ≤ 61440) && decide (leAt b 44 4 ≤ 1048576) && leAt b 56 8 == 0
  && decide (vo + 72 * vc + 4 ≤ n) && (List.range vc).all var
/-- The local handles of tenants. -/
def tenantHandles (img : List Byte) : List Nat := (Config.imageLocal img).filter fun h => within 4096 65535 h
/-- The estate handles of an image. -/
def estateHandles (img : List Byte) : List Nat := (Config.imageEstate img).filter fun h => decide (h < 1048576)

/-! ## Placement (R325) -/

/-- The share of an engine that a graph takes. -/
def Graph.share (g : Graph) (b : Nat) : Rat :=
  (g.budget : Rat) / (g.deadline * (if b = 17 then (1000000 : Rat) / 1020 else 1000))
/-- The graphs a slot holds. -/
def Slot.graphs (x : Slot) : List Graph := [x.running, x.staged, x.fallback].filterMap id
/-- The largest of some shares: a slot's graphs follow each other on its engine (log entry 55). -/
def maxQ (l : List Rat) : Rat := l.foldl max 0
/-- What a slot takes of its engine: local memory, U and CRITICAL U. -/
def Slot.load (x : Slot) (b : Nat) : Nat × Rat × Rat :=
  ((x.graphs.map (·.localBytes)).foldl max 0, maxQ (x.graphs.map (·.share b)),
    maxQ ((x.graphs.filter fun g => !g.sheddable).map (·.share b)))
/-- The engine has room for a graph beside the tenants of other slots than `n`. -/
def State.engineFits (s : State) (n k : Nat) (g : Graph) : Bool :=
  let l := (s.ten.slots.filter fun x => x.1 != n && x.2.state != .empty && x.2.engine == k).map fun x => x.2.load s.baseB
  let u := g.share s.baseB
  decide ((l.map (·.1)).sum + g.localBytes ≤ 524288) && decide ((l.map (·.2.1)).sum + u ≤ (85 : Rat) / 100)
  && (g.sheddable || decide ((l.map (·.2.2)).sum + u ≤ (1 : Rat) / 2))
/-- The windows in use, apart from those of slot `n`. -/
def State.windows (s : State) (n : Nat) : List (Nat × Nat) :=
  (s.ten.slots.filter fun x => x.1 != n).flatMap fun x =>
    (x.2.graphs.filter fun g => g.windowBytes != 0).map fun g => (g.base, g.windowBytes)
/-- The base of a window for a graph of slot `n`: that of its running graph where it fits there, else the lowest free. -/
def State.windowFor (s : State) (n : Nat) (g : Graph) : Option Nat :=
  if g.windowBytes = 0 then some 0
  else
    let used := s.windows n
    let free (a : Nat) : Bool := decide (a + g.windowBytes ≤ poolRegion + 2048 * 1048576)
      && used.all fun u => decide (u.1 + u.2 ≤ a ∨ a + g.windowBytes ≤ u.1)
    match (s.slot n).running with
    | some r => if r.windowBytes != 0 && free r.base then some r.base
        else lowestFree poolRegion (2048 * 1048576) g.windowBytes 1048576 used
    | none => lowestFree poolRegion (2048 * 1048576) g.windowBytes 1048576 used
/-- The lowest free queue number from 1,024 upward. -/
def State.freeQueue (s : State) : Option Nat :=
  ((List.range 31744).map (· + 1024)).find? fun q => (s.queue q).k == 0
/-- Give a slot queues up to number `want`; none where one finds no number or no ring space. -/
def State.giveQueues (s : State) (n want : Nat) (img : List Byte) (k : Nat) : Option State :=
  repeatAll (fun z =>
    let have_ := (z.slot n).queueList.length
    if want ≤ have_ then some z
    else match z.freeQueue with
      | none => none
      | some q => (z.createQueue q (3 + Config.imageQueue img have_ % 14) 1 1 0 n false).map fun z1 =>
          z1.updSlot n fun x => { x with queueList := x.queueList ++ [q] }) k s
/-- Destroy the queues of a slot beyond what its graphs need. -/
def State.trimQueues (s : State) (n : Nat) : State :=
  let x := s.slot n
  let want := (x.graphs.map (·.queues)).foldl max 0
  ((x.queueList.drop want).foldl (fun z q => z.destroyQueue q) s).updSlot n fun y => { y with queueList := y.queueList.take want }

/-! ## Estate signals (R337 to R339) -/

/-- The first base instant at or after a position plus `d` base intervals. -/
def baseAfter (b p d : Nat) : Nat :=
  let q := p * b + d * 65536
  let n := q / 65536
  let pos (i : Nat) : Nat := i / b * 65536 + i % b * 65536 / b
  if q ≤ pos n * b then pos n else if q ≤ pos (n + 1) * b then pos (n + 1) else pos (n + 2)
/-- Apply an entry of a SIGNAL. -/
def State.applySignal (s : State) (d : DueSignal) : State :=
  let v := if d.entry.absent then none else sigNorm d.entry.typ d.entry.value
  s.setSigEstate d.entry.handle
    { value := v, seq := d.seq, typ := d.entry.typ, absent := v.isNone, held := d.entry.held, stale := false, late := d.late
      publisher := 0 }
/-- Apply every entry due by a base instant (R330, R339). -/
def State.applySignals (s : State) (pos : Nat) : State :=
  let s1 := { s with ten := { s.ten with due := s.ten.due.filter fun d => decide (pos < d.at_) } }
  (s.ten.due.filter fun d => decide (d.at_ ≤ pos)).foldl (fun z d => z.applySignal d) s1
/-- One entry of an accepted frame: its owner, and its schedule. -/
def State.takeSignalEntry (s : State) (role seq at_ : Nat) (e : SignalEntry) : State :=
  let o := s.sigOwner e.handle
  if o.owner ≠ 0 ∧ o.owner ≠ role ∧ s.now < o.ownerAt + 3 * s.ten.refresh * 1000000 then
    { s with ten := { s.ten with conflicts := inc64 s.ten.conflicts } }
  else
    let s1 := s.setSigOwner e.handle { o with owner := role, ownerAt := s.now }
    { s1 with ten := { s1.ten with due := s1.ten.due ++ [{ at_ := at_, late := decide (at_ < s.pos), role := role, seq := seq, entry := e }] } }
/-- A SIGNAL frame on behalf of a role at an epoch, from a berth. -/
def State.signalFrame (s : State) (berth role epoch : Nat) (m : SignalMsg) : State :=
  let known := s.holderOf role == some (berth, epoch)
  let last := (s.ten.epochs.find? fun x => x.1 == role).map (·.2)
  if !known || (last.any fun e => newer e epoch) then
    { s with ten := { s.ten with oldEpoch := inc64 s.ten.oldEpoch } }
  else
    let s1 := { s with ten := { s.ten with epochs := (role, epoch) :: s.ten.epochs.filter fun x => x.1 != role } }
    let at_ := baseAfter s.baseB m.publishAt s.ten.applyDelay
    m.entries.foldl (fun z e => z.takeSignalEntry role m.cycleSeq at_ e) s1
/-- Lists of at most `n`. -/
def chunks {α : Type} (n : Nat) : Nat → List α → List (List α)
  | 0, _ => []
  | f + 1, l => if l.isEmpty then [] else l.take n :: chunks n f (l.drop n)
/-- A tenant sends estate entries; this module receives them too. -/
def State.sendSignals (s : State) (n p : Nat) (es : List SignalEntry) : State :=
  let x := s.slot n
  let e := (s.ownRole x.role).map (·.epoch)
  let s1 := es.foldl (fun z y => z.updSigOwner y.handle fun o => { o with sentAt := z.now }) s
  (chunks 118 es.length es).foldl (fun z c =>
    let m : SignalMsg := { cycleSeq := x.cycleSeq, publishAt := p, entries := c }
    (z.sendPlain 0xFFFF (.signal m) 0xFFFF x.role (e.getD 0)).signalFrame z.berthField x.role (e.getD 0) m) s1
/-- The entry for an estate handle of a slot as last computed. -/
def Slot.entryFor (x : Slot) (h : Nat) (v : Option Int) (held : Bool) : SignalEntry :=
  let typ := match x.running with | none => 0 | some g => Config.imageType g.image h true
  { typ := typ, absent := v.isNone, held := held, handle := h, value := toSigned 64 (sigField typ v) }
/-- The value and HELD of an estate handle as last sent. -/
def Slot.lastOut (x : Slot) (h : Nat) : Option (Option Int × Bool) := (x.estateOut.find? fun y => y.1 == h).map fun y => (y.2.1, y.2.2)
/-- Replace what was last sent of some handles. -/
def Slot.sentOut (x : Slot) (l : List (Nat × Option Int × Bool)) : Slot :=
  { x with estateOut := l ++ x.estateOut.filter fun y => !(l.any fun z => z.1 == y.1) }

/-! ## Failures (R332) -/

abbrev cfOverrun : Nat := 1
abbrev cfBudget : Nat := 2
abbrev cfWindow : Nat := 3

/-- A cycle of slot `n` fails. -/
def State.cycleFail (s : State) (n cause : Nat) : State :=
  let s1 := s.updSlot n fun x => { x with
    inCycle := false, cycleDone := false, working := [], failRun := x.failRun + 1, lastFail := cause, lastFailAt := some s.now
    overruns := if cause = cfOverrun then inc64 x.overruns else x.overruns
    budgets := if cause = cfBudget then inc64 x.budgets else x.budgets
    windowFails := if cause = cfWindow then inc64 x.windowFails else x.windowFails }
  if (s.slot n).state == .active then
    let s2 := (s.slot n).localHandles.foldl (fun z h => z.updSigLocal h fun v => { v with held := true }) s1
    let x := s2.slot n
    let out := (x.estateHandles.filterMap fun h => (x.lastOut h).bind fun o => if o.2 then none else some (h, o.1, true))
    (s2.setSlot n (x.sentOut out)).sendSignals n s2.pos (out.map fun o => x.entryFor o.1 o.2.1 true)
  else s1

/-! ## The pair at a publication (12 R351, R352, R357 to R361, R369) -/

/-- The partner of a role holds it STANDBY, as the role table shows. -/
def State.partnerThere (s : State) (o : OwnRole) : Bool :=
  o.kind != .none_ && !o.mismatch && (s.standbys o.role).contains o.partner
/-- The position of a group's firing in base interval `i`. -/
def State.groupPos (s : State) (g i : Nat) : Nat :=
  let b := s.baseB
  i / b * 65536 + s.groupOffset g % 65536 + i % b * 65536 / b
/-- Base intervals between a publication and the KEEP it checks: CYCLE, or at least 4 in whole cycles (log entry 56). -/
def keepSpan (cycle : Nat) : Nat := if 4 ≤ cycle then cycle else (4 + cycle - 1) / cycle * cycle
/-- The KEEP that a publication of base interval `i` checks. -/
def State.keepBefore (s : State) (g : Graph) (i : Nat) : Nat := s.groupPos g.group (i - keepSpan g.cycle)
/-- Send a KEEP that names a publication. -/
def State.sendKeep (s : State) (r p : Nat) : State :=
  match s.ownRole r with
  | none => s
  | some o =>
    if s.partnerThere o then (s.setOwn r fun x => { x with keepUnacked := (p :: x.keepUnacked).take 64 }).sendHelm r hmKeep p else s
/-- The bytes of an item, header included (12 R358, R359). -/
def itemSize : MirrorItem → Nat
  | .cell _ => 520 | .vars _ _ w => 8 + w.sum | .digest _ _ _ _ => 32 | .learned _ _ => 596 | .spring _ _ _ _ _ _ => 240
  | .status _ _ _ => 20
/-- Place items in frames of 1,412 bytes: an item stands in the frame that ends it; an item in parts has a header in each
frame (12 R358; log entry 57). Each frame comes with the bytes that it carries. -/
def placeItems : Nat → List MirrorItem → List MirrorItem → List (List MirrorItem × Nat)
  | left, [], acc => [(acc.reverse, 1412 - left)]
  | left, i :: r, acc =>
    if (itemSize i) ≤ left then placeItems (left - (itemSize i)) r (i :: acc)
    else
      let first := if 8 < left then left - 8 else 0
      let rest := (itemSize i) - 8 - first
      let more := (rest + 1403) / 1404
      [(acc.reverse, if 8 < left then 1412 else 1412 - left)] ++ List.replicate (more - 1) ([], 1412)
        ++ placeItems (1412 - 8 - (rest - 1404 * (more - 1))) r [i]
/-- Send the frames of a generation. -/
def State.sendFrags (s : State) (o : OwnRole) (fs : List MirrorFrag) : State :=
  fs.foldl (fun z f => z.sendReliable o.partner o.partner (.mirror f) o.role o.epoch o.role o.partnerEpoch) s
/-- Nanoseconds that bytes take at 8 MiB/s. -/
def mirrorNs (n : Nat) : Nat := n * 1000000000 / 8388608
/-- A generation of a role is ready: it goes out, or in an estate pair may be held back by the limit of R361; one still held
back when the next is ready is dropped, unless it is FULL. -/
def State.sendGeneration (s : State) (r tag : Nat) (full : Bool) (items : List MirrorItem) : State :=
  match s.ownRole r with
  | none => s
  | some o =>
    let parts := placeItems 1412 items []
    let gen := (o.genSent + 1) % 2 ^ 32
    let fs := (List.range parts.length).map fun i => ({ format := s.formatTo o, role := r, epoch := o.epoch, index := i
                                                        count := parts.length, full := full, gen := gen, tag := tag
                                                        size := (parts.getD i ([], 0)).2, items := (parts.getD i ([], 0)).1 } :
                                                       MirrorFrag)
    let s1 := s.setOwn r fun x => { x with genSent := gen, fullRequested := x.fullRequested && !full }
    if o.kind != .estate then s1.sendFrags o fs
    else
      let held := o.mirrorHeld
      let bytes := 28 * parts.length + (items.map itemSize).sum
      let late := !held.isEmpty && decide (o.mirrorDue ≤ s.now)
      let s2 := if late then s1.sendFrags o held else s1
      if !held.isEmpty && !late && held.any (·.full) then
        s2.setOwn r fun x => { x with mirrorDropped := inc64 x.mirrorDropped, fullRequested := o.fullRequested }
      else
        let dropped := !held.isEmpty && !late
        let s3 := s2.setOwn r fun x => { x with
          mirrorHeld := [], mirrorDropped := if dropped then inc64 x.mirrorDropped else x.mirrorDropped }
        let base := max s.net.mirrorFree s.now - (if dropped then mirrorNs o.mirrorBytes else 0)
        let free := max base s.now + mirrorNs bytes
        let s4 := { s3 with net := { s3.net with mirrorFree := free } }
        if free ≤ s.now + mirrorNs 262144 then s4.sendFrags o fs
        else s4.setOwn r fun x => { x with mirrorHeld := fs, mirrorDue := free - mirrorNs 262144, mirrorBytes := bytes }
/-- The values of the MIRROR variables of a graph. -/
def Graph.mirrored (g : Graph) : List Int := (g.vars.filter fun v => v.mirror).flatMap fun v => v.values
/-- The bytes that each of those values takes, packed at its type's size. -/
def Graph.mirrorWidths (g : Graph) : List Nat :=
  (g.vars.filter fun v => v.mirror).flatMap fun v => v.values.map fun _ => ((typeBits v.typ).1 + 7) / 8
/-- The mirror generation of a tenant's cycle. -/
def State.tenantGeneration (s : State) (n p inD outD : Nat) : State :=
  let x := s.slot n
  match s.ownRole x.role with
  | none => s
  | some o =>
    if s.partnerThere o then
      s.sendGeneration x.role p o.fullRequested
        [.digest n x.cycleSeq inD outD, .status (syncCode o.sync) ((x.running.map (·.id)).getD 0) ((x.staged.map (·.id)).getD 0),
          .vars n ((x.running.map Graph.mirrored).getD []) ((x.running.map Graph.mirrorWidths).getD [])]
    else s

/-! ## Publications (R329, R330, R344, 12 R364, R368) -/

/-- The outputs of a cycle as slots. -/
def Slot.outSlots (x : Slot) (n : Nat) : List (Nat × Bool × SigVal) :=
  match x.running with
  | none => []
  | some g => x.outputs.map fun o =>
    let typ := Config.imageType g.image o.1 o.2.1
    let v := o.2.2.bind (sigNorm typ)
    (o.1, o.2.1, { value := v, seq := x.cycleSeq, typ := typ, absent := v.isNone, held := false, stale := false, late := false
                   publisher := if o.2.1 then 0 else n })
/-- Sort slots by handle, local handles first. -/
def sortSlots (l : List (Nat × Bool × SigVal)) : List (Nat × Bool × SigVal) :=
  l.mergeSort fun a b => decide ((if a.2.1 then 1048576 else 0) + a.1 ≤ (if b.2.1 then 1048576 else 0) + b.1)
/-- The digests of a cycle: inputs and outputs. -/
def Slot.digests (x : Slot) (n : Nat) : Nat × Nat :=
  (digestOf (x.snapshot.map (·.2.2)), digestOf ((sortSlots (x.outSlots n)).map (·.2.2)))
/-- Commit the working copy: the cycle is completed. -/
def Slot.commit (x : Slot) : Slot :=
  { x with
    running := x.running.map fun g => { g with vars := x.working }
    inCycle := false, cycleDone := false, cycles := inc64 x.cycles, failRun := 0 }
/-- Publish a committed cycle's outputs: local signals, the handles that only the graph before published, and the estate
signals that changed. -/
def State.publishOutputs (s : State) (n p : Nat) : State :=
  let x := s.slot n
  let outs := x.outSlots n
  let s1 := (outs.filter fun o => !o.2.1).foldl (fun z o => z.publishLocal o.1 o.2.2) s
  let s2 := (x.retire.filter fun h => !h.2).foldl (fun z h => z.publishLocal h.1 (z.sigLocal h.1).gone) s1
  let est := outs.filter fun o => o.2.1
  let changed := (est.filter fun o => x.lastOut o.1 != some (o.2.2.value, false)).map fun o => (o.1, o.2.2.value, false)
  let held := x.estateHandles.filterMap fun h =>
    if est.any (fun o => o.1 == h) then none
    else (x.lastOut h).bind fun o => if o.2 then some (h, o.1, false) else none
  let ends := (x.retire.filter fun h => h.2).map fun h => (h.1, (none : Option Int), false)
  let out := changed ++ held
  let x1 := (x.sentOut out)
  let x2 := { x1 with retire := [], estateOut := x1.estateOut.filter fun y => !(x.retire.any fun h => h.2 && h.1 == y.1) }
  ((s2.setSlot n x2).sendSignals n p ((out ++ ends).map fun o => x.entryFor o.1 o.2.1 o.2.2)).sourcesLost x.localHandles false
/-- What a graph does at a publication beside its signals: send requests, queue entries and commands to roles. -/
def State.performAct (s : State) (n : Nat) (a : TenantAct) : State :=
  let x := s.slot n
  match a with
  | .canSend ctl buf count f => s.slotSend n ctl buf count f
  | .queuePut q e => if x.queueList.contains q && (s.queue q).prod == 1 then s.queuePut q e else s
  | .queueGet q k =>
    let y := s.queue q
    if x.queueList.contains q && y.cons == 1 then s.setQueue q { y with ci := (y.ci + min k y.fill) % 2 ^ 32 } else s
  | .request role cmd p ans => s.sendRequest x.role role cmd ans p n
/-- The acts of a publication, in order. -/
def State.performActs (s : State) (n : Nat) : State :=
  (s.slot n).acts.foldl (fun z a => z.performAct n a) (s.updSlot n fun x => { x with acts := [] })
/-- The active holder publishes at position `p`, or is fenced (12 R352). -/
def State.publishActive (s : State) (n i p : Nat) : State :=
  let x := s.slot n
  match x.running with
  | none => s
  | some g =>
    let fenced := (s.ownRole x.role).any fun o => o.keepUnacked.contains (s.keepBefore g i)
    if fenced then
      let s1 := s.updSlot n fun y => { y with inCycle := false, cycleDone := false }
      ((s1.setOwn x.role fun o => { o with helmFenced := inc64 o.helmFenced }).event evHelmFenced 5 x.role).releaseRole x.role
    else
      let d := x.digests n
      let s1 := ((((s.setSlot n x.commit).publishOutputs n p).performActs n).sendKeep x.role p).tenantGeneration n p d.1 d.2
      if (s1.ownRole x.role).any fun o => o.releaseDue == 1 then s1.releaseRole x.role true true
      else s1
/-- The standby completes the cycle: its digests are kept for the compare, and its STATUS goes to the holder (12 R359; log
entry 64). -/
def State.publishShadow (s : State) (n p : Nat) : State :=
  let x := s.slot n
  let d := x.digests n
  let s1 := (s.setSlot n x.commit).setOwn x.role fun o => { o with digests := ((x.cycleSeq, d.1, d.2) :: o.digests).take 64 }
  match s1.ownRole x.role with
  | none => s1
  | some o =>
    if o.state == .standby && o.kind != .none_ && !o.mismatch then
      s1.sendGeneration x.role p false
        [.status (syncCode o.sync) ((x.running.map (·.id)).getD 0) ((x.staged.map (·.id)).getD 0)]
    else s1
/-- The publication of slot `n` that falls due in base interval `i`. -/
def State.publishSlot (s : State) (n i p : Nat) : State :=
  let x := s.slot n
  if !x.cycleDone then s.cycleFail n cfOverrun
  else if x.state == .active then s.publishActive n i p
  else s.publishShadow n p

/-! ## Online change (R342 to R345) -/

/-- A variable that carries over from the graph before: the variable, whether it was resized and whether retyped. -/
def carryVar (old : List GraphVar) (v : GraphVar) : GraphVar × Bool × Bool :=
  match old.find? fun o => o.name == v.name with
  | none => (v, false, false)
  | some o =>
    if o.typ ≠ v.typ then (v, false, true)
    else if o.count = v.count then ({ v with values := o.values }, false, false)
    else ({ v with values := o.values.take (min o.count v.count) ++ v.values.drop (min o.count v.count) }, true, false)
/-- The image of a graph anew, in the place it has. -/
def Graph.anew (g : Graph) : Graph := { graphOf g.image with base := g.base }
/-- An open change that activates a graph. -/
def State.openGraphChange (s : State) (id : Nat) : Bool :=
  s.net.changes.any fun c => c.kind == 2 && c.status == .open_ && (c.new_ == id || c.old == id)
/-- The staged graph takes over from the running one. -/
def State.doSwitch (s : State) (n : Nat) : State :=
  let x := s.slot n
  match x.staged with
  | none => s.updSlot n fun y => { y with switching := false }
  | some g0 =>
    let g := g0.anew
    let old := (x.running.map (·.vars)).getD []
    let c := g.vars.map (carryVar old)
    let lh := tenantHandles g.image
    let eh := estateHandles g.image
    let gone := ((x.localHandles.filter fun h => !lh.contains h).map fun h => (h, false))
      ++ (x.estateHandles.filter fun h => !eh.contains h).map fun h => (h, true)
    (s.setSlot n { x with
      running := some { g with vars := c.map (·.1) }, staged := none
      fallback := if s.openGraphChange g.id then x.running else none
      switching := false, localHandles := lh, estateHandles := eh, retire := gone
      resized := (x.resized + (c.filter fun v => v.2.1).length) % 2 ^ 64
      retyped := (x.retyped + (c.filter fun v => v.2.2).length) % 2 ^ 64 }).trimQueues n

/-! ## Starts (R329, R330) -/

/-- The state a slot takes at its cycle instant; under ENFORCE a SHEDDABLE tenant that would run is SUSPENDED (R320). -/
def State.slotStarts (s : State) (n : Nat) : State :=
  let x := s.slot n
  let active := s.holdsActive x.role
  let shed := s.therm.die.state == .enforce && x.running.any fun g => g.sheddable
  if s.slotWants x then s.updSlot n fun y => { y with
    state := if shed then .suspended else if active then .active else .shadow, failRun := 0 }
  else if x.state == .shadow && active then s.updSlot n fun y => { y with state := .active }
  else s
/-- A cycle of slot `n` starts in base interval `i`. -/
def State.startCycle (s : State) (n i : Nat) : State :=
  let s1 := s.slotStarts n
  let x := s1.slot n
  match x.running with
  | none => s1
  | some g =>
    if x.state != .active && x.state != .shadow then s1
    else
      let reads := (Config.imageReads g.image).filter fun r => decide (r.1 < if r.2 then 1048576 else 65536)
      let snap := sortSlots (reads.map fun r => (r.1, r.2, if r.2 then s1.sigEstate r.1 else s1.sigLocal r.1))
      s1.setSlot n { x with
        inCycle := true, cycleDone := false, snapshot := snap, canSeen := x.canOut, canOut := []
        repliesSeen := x.replies, replies := [], working := g.vars, outputs := [], acts := [], cycleStart := i
        cycleSeq := i / g.cycle % 2 ^ 32, startedAt := s1.now, publishAt := i + g.deadline }
/-- A graph's group fires at the instants at which group `g` fires: the two have one OFFSET (R328). -/
def State.firesWith (s : State) (g : Nat) (y : Graph) : Bool := s.groupOffset y.group % 65536 == s.groupOffset g % 65536
/-- What the firing of a group, and of those that fire with it, in base interval `i` starts in slot `n`. -/
def State.startSlot (s : State) (n g i : Nat) : State :=
  let x := s.slot n
  if x.inCycle then s
  else
    let due (y : Graph) : Bool := s.firesWith g y && i % y.cycle == y.phase
    if x.switching then (if x.staged.any due then (s.doSwitch n).startCycle n i else s)
    else if x.running.any due then s.startCycle n i
    else s
/-- The slots in ascending order. -/
def State.slotsAsc (s : State) : List Nat := s.slotNumbers.foldr insertAsc []
/-- The firing of group `g` in base interval `i` at position `p`: every publication due at the instant is made, in ascending slot
order, before every snapshot due at it is taken (R330), so the first group to fire serves those that fire with it. -/
def State.groupFires (s : State) (g i p : Nat) : State :=
  let s1 := s.slotsAsc.foldl (fun z n =>
    let x := z.slot n
    if x.inCycle && decide (x.publishAt ≤ i) && x.running.any (z.firesWith g) then z.publishSlot n i p else z) s
  (s1.slotsAsc.foldl (fun z n => z.startSlot n g i) s1).placeEntries

end Sys2Proof.Machine
end

