-- ==== Sys2Proof/Machine/NetOps.lean ====
section
/-! DEFINITION. Garzet reception, streams, the role table and requests: operations that several commands share (10 R293 to
R311, 14 R418 to R420). -/

namespace Sys2Proof.Machine

open Sys2Proof

/-! ## Headers (R297, R298) -/

/-- The index of a LAN. -/
def lanNo : Lan → Nat
  | .a => 0 | .b => 1
/-- Types that address no role. -/
def noRole (typ : Nat) : Bool := [1, 4, 5, 6, 7, 10].contains typ
/-- FLAGS of a type: RELIABLE and REPLY. -/
def flagsOf (typ : Nat) : Bool × Bool :=
  if [1, 5, 7, 10].contains typ then (false, false) else if typ = 6 then (false, true)
  else if typ = 4 ∨ typ = 12 then (true, true) else (true, false)
/-- The header keeps the rules of its fields, and LENGTH agrees with the payload. -/
def headOk (h : GHead) (body : GBody) : Bool :=
  h.typ == gType body && (h.reliable, h.reply) == flagsOf h.typ
  && (decide (h.srcBerth < 4096) || h.srcBerth == 65535) && (decide (h.dstBerth < 4096) || h.dstBerth == 65535)
  && decide (h.length ≤ 1440) && h.length == gLength body
  && (!noRole h.typ || (h.targetRole == 0 && h.targetEpoch == 0))
/-- The peer of a message: its berth, or the SERIAL of a module without one, as R301 and R308 key streams. -/
def senderKey (h : GHead) : Nat := if h.srcBerth = 65535 then h.srcKey + 65536 else h.srcBerth
/-- The frame is for this module. -/
def State.addressed (s : State) (h : GHead) : Bool := h.dstBerth == 65535 || s.net.berth == some h.dstBerth
/-- Garzet is received: the image runs and the module is not in BARE ROCK. -/
def State.netRuns (s : State) : Bool :=
  s.power.on && decide (2 ≤ s.power.stage) && s.power.state != .bareRock && !s.sec.recovery

/-! ## Senders (R300, R304) -/

def State.peer (s : State) (k : Nat) : PeerPath :=
  (s.net.peers.find? fun p => p.berth == k).getD { berth := k, lastA := some s.now, lastB := some s.now }
def State.setPeer (s : State) (p : PeerPath) : State :=
  { s with net := { s.net with peers := p :: s.net.peers.filter fun q => q.berth != p.berth } }
/-- 16 ms, the time after which a LAN's copies are missing. -/
def pathGap : Nat := 16000000
/-- Since when copies come again on a LAN that is down: a gap of 16 ms starts the count anew. -/
def PeerPath.back (p : PeerPath) (last : Option Nat) (t : Nat) : Option Nat :=
  if elapsedO last pathGap t then some t else some (p.backSince.getD t)
/-- A good copy of a sender arrives on a LAN. -/
def PeerPath.copy (p : PeerPath) (lan : Lan) (t : Nat) : PeerPath :=
  match lan with
  | .a => { p with lastA := some t, backSince := if p.downA then p.back p.lastA t else p.backSince }
  | .b => { p with lastB := some t, backSince := if p.downB then p.back p.lastB t else p.backSince }
/-- The LAN lacks copies while the other has them: its last is 16 ms older than the other's. -/
def PeerPath.missing (p : PeerPath) (lan : Lan) : Bool :=
  match lan, p.lastA, p.lastB with
  | .a, some a, some b => elapsed a pathGap b
  | .b, some a, some b => elapsed b pathGap a
  | _, _, _ => false
/-- Keep a key, 64 at most. -/
def PeerPath.keep (p : PeerPath) (k : Nat × Nat) : PeerPath := { p with keys := (k :: p.keys).take 64 }
/-- The key of a message: type 0 stands for the stream of RELIABLE messages. -/
def keyOf (h : GHead) : Nat × Nat := (if h.reliable then 0 else h.typ, h.sequence)

/-! ## Streams (R301 to R303) -/

/-- Sequences run from 1 to 2^32 − 1. -/
def seqRing : Nat := 2 ^ 32 - 1
/-- How far `b` lies ahead of `a`. -/
def seqAhead (a b : Nat) : Nat := (b + seqRing - a) % seqRing
def State.streamRx (s : State) (k : Nat) : Option StreamRx := s.net.streamsRx.find? fun x => x.peer == k
def State.setStreamRx (s : State) (x : StreamRx) : State :=
  { s with net := { s.net with streamsRx := x :: s.net.streamsRx.filter fun y => y.peer != x.peer } }
/-- Send an ACK to a sender. -/
def State.sendAck (s : State) (h : GHead) : State :=
  s.sendPlain (senderKey h) .ack h.srcBerth s.moduleRole (if s.net.berth.isSome then s.net.moduleEpoch else 0) h.corr (s.ackFor (senderKey h))
/-- Send ROLE_MOVED for a message that is refused (R309). -/
def State.sendMoved (s : State) (h : GHead) (role : Nat) : State :=
  let m := { s.movedMsg role h.targetEpoch h.sequence h.typ with role := h.targetRole }
  let s1 := { s with net := { s.net with movedSent := inc64 s.net.movedSent } }
  s1.sendPlain (senderKey h) (.roleMoved m) h.srcBerth s.moduleRole (if s.net.berth.isSome then s.net.moduleEpoch else 0) h.corr
    (s.ackFor (senderKey h)) true
/-- Insert a held message by its distance from the next expected sequence. -/
def heldInsert (e : Nat) (m : HeldMsg) : List HeldMsg → List HeldMsg
  | [] => [m]
  | x :: r => if seqAhead e m.seq < seqAhead e x.seq then m :: x :: r else x :: heldInsert e m r
/-- Move queued messages into the window and send them. -/
def State.pumpStream (s : State) (peer : Nat) : Nat → State
  | 0 => s
  | f + 1 =>
    let x := s.streamTx peer
    match x.queued with
    | [] => s
    | m :: r =>
      if x.unacked.length < 64 then
        let h := { m.head with newStream := x.newStream }
        ((s.setStreamTx { x with
          unacked := x.unacked ++ [{ m with head := h, sentAt := s.now, sends := 1 }], queued := r }).transmit peer h m.body).pumpStream peer f
      else s
/-- A KEEP has been acknowledged (12 R352). -/
def State.keepAcked (s : State) (b : GBody) : State :=
  match b with
  | .helm m => if m.kind = hmKeep then s.setOwn m.role fun o => { o with keepUnacked := o.keepUnacked.filter (· != m.at_) } else s
  | _ => s
/-- An acknowledgement of a peer covers every sequence up to `ack`. -/
def State.acked (s : State) (peer ack : Nat) : State :=
  if ack = 0 then s
  else
    let x := s.streamTx peer
    let covered (m : StreamMsg) : Bool := decide (seqAhead m.seq ack < 2 ^ 31)
    let s1 := (x.unacked.filter covered).foldl (fun z m => z.keepAcked m.body) s
    (s1.setStreamTx { x with unacked := x.unacked.filter fun m => !covered m, newStream := false }).pumpStream peer 256
/-- One message is acknowledged by a reply that names it (R307). -/
def State.ackedOne (s : State) (peer seq : Nat) : State :=
  let x := s.streamTx peer
  (s.setStreamTx { x with unacked := x.unacked.filter fun m => m.seq != seq, newStream := false }).pumpStream peer 256
/-- The message is the SWAP_REQUEST of a move that waits (12 R369). -/
def State.swapAsked (s : State) (m : StreamMsg) : Bool :=
  (match m.body with | .helm k => k.kind == hmSwapRequest | _ => false) && (s.ownRole m.head.srcRole).any fun o => o.swap.isSome
/-- PAIR.SWAP_HELM is answered. -/
def State.swapDone (s : State) (r status : Nat) : State :=
  match (s.ownRole r).bind fun o => o.swap with
  | none => s
  | some src => (s.setOwn r fun o => { o with swap := none, releaseDue := 0 }).answer src 0x1B03 status []
/-- A message ends as NO_ACK for the function that sent it (R302, 14 R420). -/
def State.noAckOf (s : State) (m : StreamMsg) : State :=
  if m.head.typ = 3 then
    (if s.net.requests.any fun r => r.corr == m.head.corr && r.epoch == m.head.targetEpoch then
      s.requestDone m.head.corr stNoAck [] else s)
  else if s.swapAsked m then s.swapDone m.head.srcRole stNoAck
  else s.report { typ := m.head.typ, corr := m.head.corr, role := m.head.targetRole, status := stNoAck, holder := 0xFFFF
                  holderEpoch := 0 }
/-- A stream is given up: every message of it is reported NO_ACK, and it starts anew. -/
def State.streamFails (s : State) (peer : Nat) : State :=
  let x := s.streamTx peer
  let l := x.unacked ++ x.queued
  let s1 := { s with net := { s.net with noAck := (s.net.noAck + l.length) % 2 ^ 64 } }
  l.foldl (fun z m => z.noAckOf m) (s1.setStreamTx { x with unacked := [], queued := [], newStream := true })

/-! ## The check of R307 -/

/-- What becomes of a RELIABLE message that is not a REPLY. -/
inductive Verdict where
  | deliver | invalid | moved
  deriving DecidableEq, Repr
/-- HELM and MIRROR go to the partner's role, whichever state it is held in (log entry 58). -/
def State.partnerMsg (s : State) (h : GHead) : Bool :=
  (h.typ == 8 || h.typ == 9) && (s.ownRole h.targetRole).any fun o =>
    (o.state == .active || o.state == .standby) && o.partner == h.srcBerth && o.kind != .none_
def State.verdict (s : State) (h : GHead) (b : GBody) : Verdict :=
  let k := roleKind h.targetRole
  let mine := s.holderOf h.targetRole
  let held := mine == some (s.berthField, h.targetEpoch) && s.net.berth.isSome
  let status := match b with | .mailbox m => isStatus (mailCommand m) | _ => false
  let mail := h.typ == 3
  if h.reply then .deliver
  else if k = 0 ∨ 7 ≤ k then .invalid
  else if s.partnerMsg h then .deliver
  else if held then .deliver
  else if h.targetEpoch = 0 && status && s.net.berth.isSome && mine.any (fun x => x.1 == s.berthField) then .deliver
  else if s.net.berth.isNone && mail && h.targetRole == 0x1FFFFFFF && h.targetEpoch == 0 then .deliver
  else .moved

/-! ## The role table (R305, R306) -/

/-- The key of an announcer: its berth; its SERIAL where it has none or where another announces the same berth. -/
def State.announcerKey (s : State) (m : AnnounceMsg) : Nat :=
  if m.berth = 65535 || s.net.berth == some m.berth
      || (s.net.announcers.any fun a => a.berth == m.berth && a.serial != m.serial) then m.serial + 65536
  else m.berth
/-- The announcer of a SERIAL. -/
def State.announcer (s : State) (m : AnnounceMsg) : Announcer :=
  (s.net.announcers.find? fun a => a.serial == m.serial).getD { key := s.announcerKey m, serial := m.serial }
/-- A claim of another module overrules that of this one: the newer epoch, then the lower berth. -/
def State.overruled (s : State) (o : OwnRole) : Bool :=
  match s.otherHolder o.role with
  | none => false
  | some (b, e) => newer e o.epoch || (e == o.epoch && decide (b < s.berthField))
/-- Release every role whose claim has been overruled (R306). -/
def State.settleClaims (s : State) : State :=
  (s.net.own.filter fun o => o.state == .active).foldl (fun z o =>
    if z.overruled o then
      let z1 := z.event evRoleConflict 5 o.role
      ({ z1 with net := { z1.net with roleConflicts := inc64 z1.net.roleConflicts } }).releaseRole o.role
    else z) s
/-- The partner's epochs as its announcement gives them. -/
def State.partnerEpochs (s : State) (b : Nat) (es : List RoleEntry) : State :=
  es.foldl (fun z e => z.setOwn e.role fun o => if o.kind != .none_ && o.partner == b then { o with partnerEpoch := e.epoch } else o) s
/-- CONTAINER_TIME roles that the role table showed resolved until now (15 R437). -/
def State.containersSeen (before s : State) : State :=
  [0, 1].foldl (fun z k => match (z.canCtl k).master with
    | none => z
    | some m => if before.unresolved (0x60000000 + m.container) then z else z.updCanCtl k fun c => { c with clearAt := z.now }) s
/-- One part of an announcement, the first copy of it. -/
def State.announceTaken (s : State) (m : AnnounceMsg) : State :=
  let a := s.announcer m
  let key := s.announcerKey m
  let parts := (m.part, m.entries) :: (if m.part = 0 then [] else a.parts.filter fun p => p.1 != m.part)
  let whole := (List.range m.parts).all fun i => parts.any fun p => p.1 == i
  let a1 : Announcer := { a with
    key := key, berth := m.berth, moduleEpoch := m.moduleEpoch, power := m.power
    at_ := if whole || a.at_ == 0 then s.now else a.at_
    parts := if whole then [] else parts
    entries := if whole then (List.range m.parts).flatMap (fun i => (parts.filter fun p => p.1 == i).flatMap (·.2)) else a.entries }
  let s1 := { s with net := { s.net with announcers := a1 :: s.net.announcers.filter fun x => x.serial != m.serial } }
  s.containersSeen (if whole then (s1.partnerEpochs m.berth a1.entries).settleClaims else s1)
/-- Role identifiers of the role table, ascending. -/
def State.knownRoles (s : State) : List Nat :=
  let mine : List Nat := s.net.own.filterMap fun (o : OwnRole) => if o.state == .none_ then none else some o.role
  let theirs : List Nat := s.net.announcers.flatMap fun (a : Announcer) =>
    (if a.berth = 65535 then [] else [0x10000000 + a.berth]) ++ a.entries.map fun (e : RoleEntry) => e.role
  (mine ++ theirs).foldr insertAsc (if s.net.berth.isSome then [s.moduleRole] else [])

/-! ## Berths (R291 to R295) -/

/-- The berth of an identity on a LAN. -/
def State.berthOf (s : State) (lan : Nat) (id : LldpId) : Option Nat :=
  (s.net.map.find? fun e => (if lan = 0 then e.idA else e.idB) == id).map (·.berth)
/-- Another module announces a berth. -/
def State.announced (s : State) (b : Nat) : Option Announcer :=
  s.net.announcers.find? fun a => a.berth == b && a.serial != s.net.serial
/-- The PTP ports take the priorities that the estate configuration sets for a berth (02 R45). -/
def State.berthPriorities (s : State) (b : Nat) : State :=
  let q := tget (255, 128) s.net.priorities b
  ([0, 1] : List Nat).foldl (fun z l => z.updPtpPort l fun p => { p with priority1 := q.1, priority2 := q.2 }) s
/-- Take a berth, with the roles assigned. -/
def State.takeBerth (s : State) (b : Nat) (st : BerthState) : State :=
  let seen := (s.net.announcers.filter fun a => a.berth == b).map (·.moduleEpoch)
    ++ (match s.net.seenEpoch with | some x => if x.1 = b then [x.2] else [] | none => [])
  let e := match s.net.storedBerth with
    | some x => if x.1 = b then x.2 else (newestEpoch seen).elim 1 nextEpoch
    | none => (newestEpoch seen).elim 1 nextEpoch
  let own := s.net.assignments.map fun (a : Assignment) =>
    ({ role := a.role, kind := a.kind, partner := a.partner, local_ := a.local_, preferred := a.preferred } : OwnRole)
  let kept := s.net.own.filter fun o => !(own.any fun x => x.role == o.role)
  let s1 := { s with net := { s.net with
      berth := some b, berthState := st, moduleEpoch := e, storedBerth := some (b, e), berthAt := s.now, announceDue := true
      own := own ++ kept } }.berthPriorities b
  (own.filter fun o => roleKind o.role == 3).foldl (fun z o => z.updSlot o.local_ fun x =>
    if x.role = 0 then { x with role := o.role } else x) s1
/-- The outcome of a derivation without a berth. -/
def State.noBerth (s : State) (st : BerthState) (ev : Nat) : State :=
  { s with net := { s.net with berthState := st } }.event ev 0 0
/-- A berth has been derived: it is taken unless another module announces it (R294). -/
def State.derived (s : State) (b : Nat) (st : BerthState) : State :=
  match s.announced b with
  | some a => ({ s with net := { s.net with
      berthState := .duplicate, dupAt := s.now
      seenEpoch := (newestEpoch (a.moduleEpoch :: (match s.net.seenEpoch with | some x => if x.1 = b then [x.2] else [] | none => []))).map
        fun e => (b, e) } }).event evBerthDuplicate 7 b (v0 := some (a.serial : Int))
  | none =>
    let s1 := s.takeBerth b st
    if st == .one then s1.event evBerthOneLan 7 b else s1
/-- The derivation of R293; an identity that is not in the map beside one that is gives no outcome (log entry 61). -/
def State.derive (s : State) : State :=
  let id (l : Nat) : Option LldpId := (s.netLan l).lldp
  let b (l : Nat) : Option Nat := (id l).bind (s.berthOf l)
  let s1 := { s with net := { s.net with derivedAt := s.now } }
  match b 0, b 1 with
  | some x, some y => if x = y then s1.derived x .both else s1.noBerth .conflict evBerthConflict
  | some x, none => if (id 1).isNone || !(s.netLan 1).link then s1.derived x .one else s1
  | none, some y => if (id 0).isNone || !(s.netLan 0).link then s1.derived y .one else s1
  | none, none => s1.noBerth .unmapped evBerthUnmapped

end Sys2Proof.Machine
end

