-- ==== Sys2Proof/Machine/Can.lean ====
section
/-! DEFINITION. The container bus: the CAN commands and what happens on the bus (15). -/

namespace Sys2Proof.Machine

open Sys2Proof

/-! ## CAN.CONFIG (R427, R429, R434, R435, R439) -/

/-- The bit rate of a phase lies between two bounds, bit/s. -/
def rateIn (b : BitTiming) (lo hi : Nat) : Bool :=
  let q := b.brp * (1 + b.tseg1 + b.tseg2)
  decide (lo * q ≤ 80000000 ∧ 80000000 ≤ hi * q)
/-- The data rate is at least the nominal rate, or above it. -/
def rateAbove (n d : BitTiming) (strict : Bool) : Bool :=
  let qn := n.brp * (1 + n.tseg1 + n.tseg2)
  let qd := d.brp * (1 + d.tseg1 + d.tseg2)
  if strict then decide (qd < qn) else decide (qd ≤ qn)
/-- The fields of a phase lie in their ranges. -/
def phaseFieldsOk (b : BitTiming) (t1 t2 lo : Nat) : Bool :=
  within 1 32 b.brp && within lo t1 b.tseg1 && within lo t2 b.tseg2 && within 1 b.tseg2 b.sjw
/-- The table of R427. -/
def bitTimingOk (c : CanConfig) : Bool :=
  phaseFieldsOk c.nominal 256 128 2 && rateIn c.nominal 125000 1000000 && decide (c.tdcOffset ≤ 127)
  && (!c.fd || (phaseFieldsOk c.data 32 16 1 && rateAbove c.nominal c.data false && rateIn c.data 0 5000000
    && (!c.tdc || c.data.brp ≤ 2) && (c.tdc || rateIn c.data 0 1000000)))
/-- A queue of a tenant, or with a HOST consumer side, that takes HARDWARE puts; or a mailbox path (R434). -/
def State.targetOk (s : State) : CanTarget → Bool
  | .discard => false
  | .path _ => true
  | .queue q =>
    let x := s.queue q
    decide (1024 ≤ q) && x.k != 0 && x.prod == 1 && (x.owner != 0 || x.cons == 2)
/-- The other fields of CAN.CONFIG lie in their ranges. -/
def State.canConfigOk (s : State) (ctl : Nat) (c : CanConfig) : Bool :=
  decide (ctl < 2) && within 1 10000 c.txTimeout && c.owners.length == 32 && c.retries.length == 32
  && c.retries.all (fun r => decide (r ≤ 15))
  && c.owners.all (fun o => match o with | .none_ | .path _ => true | .slot n => decide (n < 256) | _ => false)
  && (List.range 4).all fun k => s.targetOk (canTarget c k)
/-- What CAN.CONFIG sets: pending requests end DISABLED and the controller rejoins the bus. -/
def State.canConfigDo (s : State) (ctl : Nat) (c : CanConfig) : State :=
  let s1 := (s.endAllTx ctl coDisabled).updCanCtl ctl fun x => { x with
    mode := c.mode, cfg := some c, air := none, integrating := true
    bufs := (List.range 32).map fun i =>
      (i, { tget {} x.bufs i with owner := c.owners.getD i .none_, retry := c.retries.getD i 3 }) }
  match c.hp with
  | .queue q => if (s1.queue q).k = 0 then s1 else s1.setQueue q { s1.queue q with threshold := 1 }
  | _ => s1
/-- CAN.CONFIG. -/
def execCanConfig (src : Source) (ctl : Nat) (c : CanConfig) (s : State) : Host.Outcome State Fault Refusal :=
  runCommand src 0x1E01 (fun z =>
    (checked z [(z.canConfigOk ctl c, stInvalidArg), (bitTimingOk c, stBitTiming)]
      (ok (z.canConfigDo ctl c))).persisted 0x1E01 ctl (.canConfig src ctl c)) s

/-! ## CAN.FILTER_SET (R433) -/

/-- What CAN.FILTER_SET sets. -/
def State.filterDo (s : State) (ctl i : Nat) (f : CanFilter) : State :=
  s.updCanCtl ctl fun c => { c with filters := tset c.filters i (some f) }
/-- CAN.FILTER_SET. -/
def execCanFilterSet (src : Source) (ctl i : Nat) (f : CanFilter) (s : State) : Host.Outcome State Fault Refusal :=
  runCommand src 0x1E02 (fun z =>
    (checked z
      [(decide (ctl < 2 ∧ i < 64 ∧ f.formats < 8) && idOk f.ide f.id && idOk f.ide f.mask, stInvalidArg)]
      (ok (z.filterDo ctl i f))).persisted 0x1E02 (ctl * 64 + i) (.canFilterSet src ctl i f)) s

/-! ## CAN.SEND, CAN.RECEIVE, CAN.RECOVER (R430, R431, R434, R436) -/

/-- The request of a path that does not own the buffer, or a reserved one, is refused and counted. -/
def State.notOwner (s : State) (ctl : Nat) : Answer :=
  refuse (s.updCanCtl ctl fun c => { c with notOwner := inc64 c.notOwner }) stNotOwner
/-- CAN.SEND. -/
def execCanSend (src : Source) (ctl buf : Nat) (abort : Bool) (f : CanFrame) (s : State) :
    Host.Outcome State Fault Refusal :=
  runCommand src 0x1E03 (fun z =>
    let c := z.canCtl ctl
    let x := z.txBuf ctl buf
    if !(decide (ctl < 2 ∧ buf < 32) && canFrameOk f) then refuse z stInvalidArg
    else if x.owner != .path src.path || c.reserved buf then z.notOwner ctl
    else if abort then
      match x.req with
      | none => refuse z stNotFound
      | some r => ⟨some stOk, [f4 r.txSeq], z.abortTx ctl buf coAborted⟩
    else checked z
      [ (x.req.isNone && x.heldRec.isNone, stBufferBusy),
        (!c.busOff, stBusOff),
        (c.sends && (!f.fdf || c.cfg.any fun g => g.fd), stControllerOff) ]
      ⟨some stOk, [f4 c.txSeq],
        (z.placeTx ctl buf c.txSeq f).updCanCtl ctl fun y => { y with txSeq := (y.txSeq + 1) % 2 ^ 32 }⟩) s
/-- CAN.RECEIVE. -/
def execCanReceive (src : Source) (ctl which max : Nat) (s : State) : Host.Outcome State Fault Refusal :=
  runCommand src 0x1E04 (fun z =>
    let c := z.canCtl ctl
    if !decide (ctl < 2 ∧ which < 4 ∧ 1 ≤ max ∧ max ≤ 32) then refuse z stInvalidArg
    else if (c.cfg.map fun g => canTarget g which) != some (.path src.path) then z.notOwner ctl
    else
      let l := tget [] c.paths which
      ⟨some stOk, f2 (min max l.length) :: (l.take max).map .struct,
        z.updCanCtl ctl fun y => { y with paths := tset y.paths which (l.drop max) }⟩) s
/-- CAN.RECOVER. -/
def execCanRecover (src : Source) (ctl : Nat) (s : State) : Host.Outcome State Fault Refusal :=
  runCommand src 0x1E05 (fun z =>
    checked z [(decide (ctl < 2), stInvalidArg), ((z.canCtl ctl).busOff, stNotBusOff)]
      (ok (z.updCanCtl ctl fun c => { c with recovering := true }))) s

/-! ## CAN.STATUS and CAN.COUNTERS_READ (R440) -/

/-- The code of a mode. -/
def canModeCode : CanMode → Nat
  | .disabled => 0 | .normal => 1 | .listenOnly => 2
/-- The code of the error state, in the order of R436. -/
def Can.errorState (c : Can) : Nat := if c.busOff then 2 else if c.passive then 1 else 0
/-- The state of a controller's CONTAINER_TIME candidacy, in the order of 01 R34; NONE for no candidate. -/
def State.containerState (s : State) (c : Can) : Nat :=
  match c.master with
  | none => 2
  | some m => match s.ownRole (0x60000000 + m.container) with
    | none => 2
    | some o => match o.state with | .active => 0 | .standby => 1 | .none_ => 2
/-- CAN.STATUS. -/
def execCanStatus (src : Source) (ctl : Nat) (s : State) : Host.Outcome State Fault Refusal :=
  runCommand src 0x1E06 (fun z =>
    checked z [(decide (ctl < 2), stInvalidArg)]
      (let c := z.canCtl ctl
       okWith z ([f1 (canModeCode c.mode), f1 c.errorState, f2 c.tec, f2 c.rec_, f2 (c.loopDelay.getD 65535)]
        ++ (List.range 32).flatMap (fun b => let x := tget {} c.bufs b; [fb x.req.isSome, f1 (x.last.getD 255)])
        ++ [f1 (z.containerState c)]))) s
/-- CAN.COUNTERS_READ. -/
def execCanCountersRead (src : Source) (ctl : Nat) (clear : Bool) (s : State) : Host.Outcome State Fault Refusal :=
  runCommand src 0x1E08 (fun z =>
    checked z [(decide (ctl < 2), stInvalidArg)]
      (let c := z.canCtl ctl
       let fs := [f8 c.sent, f8 c.received] ++ ([2, 3, 4, 5, 6].map fun k => f8 (tget 0 c.errors k))
        ++ [f8 c.arbLost, f8 c.busOffs, f8 c.pxe, f8 c.tdcRange, f8 c.rxLost, f8 c.rxBeached, f8 c.noMatch, f8 c.refLate,
            f8 c.notOwner]
       okWith (if clear then z.setCanCtl ctl { c with
        sent := 0, received := 0, errors := [], arbLost := 0, busOffs := 0, pxe := 0, tdcRange := 0, rxLost := 0
        rxBeached := 0, noMatch := 0, refLate := 0, notOwner := 0 } else z) fs)) s

/-! ## CONTAINER_TIME (R437, R438) -/

/-- The role of a candidacy. -/
def containerRole (m : TimeMaster) : Nat := 0x60000000 + m.container
/-- A candidacy ends: its role is released, and forgotten where no other controller stands for it. -/
def State.candidacyEnds (s : State) (ctl : Nat) : State :=
  match (s.canCtl ctl).master with
  | none => s
  | some m =>
    let r := containerRole m
    let s1 := s.updCanCtl ctl fun c => { c with master := none }
    if (s1.canCtl (1 - ctl)).master.any fun x => containerRole x == r then s1
    else
      let s2 := s1.releaseRole r true false true
      { s2 with net := { s2.net with own := s2.net.own.filter fun o => o.role != r } }
/-- CAN.TIME_MASTER_SET. -/
def execCanTimeMasterSet (src : Source) (ctl : Nat) (on : Bool) (m : TimeMaster) (s : State) :
    Host.Outcome State Fault Refusal :=
  runCommand src 0x1E07 (fun z =>
    checked z
      [ (decide (ctl < 2 ∧ m.container < 4096) && idOk m.ide m.identifier && within 10 10000 m.periodMs, stInvalidArg),
        ((z.canCtl ctl).cfg.any (fun c => c.fd), stFdRequired) ]
      (if !on then ok (z.candidacyEnds ctl)
       else
        let same := (z.canCtl ctl).master.any fun x => x.container == m.container
        let z1 := if same then z else z.candidacyEnds ctl
        let r := containerRole m
        let z2 := z1.updCanCtl ctl fun c => { c with master := some m, clearAt := if same then c.clearAt else z.now }
        ok (if (z2.ownRole r).isSome then z2
            else { z2 with net := { z2.net with own := z2.net.own ++ [{ role := r, local_ := ctl }] } }))) s
/-- CONTAINER_TIME_TAKE: the role table has shown the role unresolved for 5 s. -/
def execContainerTimeTake (t ctl : Nat) (s : State) : Host.Outcome State Fault Refusal :=
  whenever s t (fun z => z.netRuns && z.net.berth.isSome && (z.power.state == .full || z.power.state == .slack)
      && z.power.beach.isNone && z.power.part.isNone && z.sec.debug != .invasive
      && (z.canCtl ctl).master.any fun m => z.unresolved (containerRole m)
        && elapsed (max (z.canCtl ctl).clearAt z.net.berthAt) (5 * 10 ^ 9) z.now) fun z =>
    match (z.canCtl ctl).master with
    | none => z
    | some m => (z.takeActive (containerRole m)).setOwn (containerRole m) fun o => { o with local_ := ctl }
/-- The 20 bytes of a reference message whose frame starts now. -/
def State.referenceData (s : State) (seq container : Nat) : List Byte :=
  beBytes 8 s.now ++ beBytes 8 s.pos ++ beBytes 1 ((if s.timeOk then 0x80 else 0) + qualityCode s.tide.quality) ++ beBytes 1 seq
  ++ beBytes 2 container
/-- BRS of a reference message: the data phase is faster than the nominal one (log entry 69). -/
def Can.brs (c : Can) : Bool := c.cfg.any fun g => rateAbove g.nominal g.data true
/-- CAN_REFERENCE_DUE: at a multiple of PERIOD the ACTIVE holder queues a reference message in TB31; one that has not started
is withdrawn. Its TX_SEQ is not stated and is free (log entry 29). -/
def execCanReferenceDue (t ctl : Nat) (s : State) : Host.Outcome State Fault Refusal :=
  whenever s t (fun z => (z.canCtl ctl).sends && !(z.canCtl ctl).busOff && ((z.canCtl ctl).cfg.any fun g => g.fd)
      && (z.canCtl ctl).master.any fun m =>
      z.holdsActive (containerRole m) && (z.ownRole (containerRole m)).any (fun o => o.local_ == ctl)
      && t % (m.periodMs * 1000000) == 0) fun z =>
    match (z.canCtl ctl).master with
    | none => z
    | some m =>
      let x := z.txBuf ctl 31
      let late := z.updCanCtl ctl fun c => { c with refLate := inc64 c.refLate, refDueAt := t }
      let place (y : State) : State :=
        (({ y with fresh := y.fresh + 1 }).updTxBuf ctl 31 fun b => { b with
          req := some { frame := canToSend { id := m.identifier, ide := m.ide, fdf := true, brs := (y.canCtl ctl).brs
                                             data := List.replicate 20 0 }
                        txSeq := Config.freeNat y.fresh % 2 ^ 32, acceptedAt := y.now, reference := true } }).updCanCtl ctl
          fun c => { c with refDueAt := t }
      match x.req with
      | none => if x.heldRec.isSome then late else place z
      | some r => if r.reference && r.startAt.isNone then place late else late

/-! ## On the bus (R430 to R438) -/

/-- CAN_BUS_IDLE: the request that would win arbitration starts an attempt; a reference message takes its time, position and
SEQUENCE. -/
def execCanBusIdle (t ctl : Nat) (s : State) : Host.Outcome State Fault Refusal :=
  wheneverOn (decide (ctl < 2)) s t (fun z => z.power.on && (z.canCtl ctl).mode != .disabled && (z.canCtl ctl).air.isNone) fun z =>
    let z1 := z.updCanCtl ctl fun c => { c with integrating := false }
    let c := z1.canCtl ctl
    if !c.sends || c.busOff then z1
    else match c.winner with
      | none => z1
      | some b => match (tget {} c.bufs b).req with
        | none => z1
        | some r =>
          let f := { r.frame with
            esi := r.frame.fdf && c.passive
            data := if r.reference then z1.referenceData c.refSeq ((c.master.map (·.container)).getD 0) else r.frame.data }
          ((z1.updTxBuf ctl b fun x => { x with req := some { r with
              startAt := some z1.now, attempts := r.attempts + 1, onBus := true } }).updCanCtl ctl fun y => { y with
            air := some f, refSeq := if r.reference then (y.refSeq + 1) % 256 else y.refSeq }).emit (.can ctl b f)
/-- The buffer whose attempt is on the bus. -/
def Can.attempt (c : Can) : Option Nat :=
  (List.range 32).find? fun b => match (tget {} c.bufs b).req with | none => false | some r => r.onBus
/-- CAN_TX_ATTEMPT_END: `result` is 0 for success or a LAST_ERROR code; `counted` is false where an exception of the standard
leaves TEC as it is. -/
def execCanTxAttemptEnd (t ctl result : Nat) (loopDelay : Option Nat) (counted : Bool) (s : State) :
    Host.Outcome State Fault Refusal :=
  wheneverOn (decide (ctl < 2)) s t (fun z => z.power.on && (z.canCtl ctl).air.isSome && decide (result ≤ 6)) fun z =>
    let c := z.canCtl ctl
    let fd := c.air.any fun f => f.fdf
    let measured := if fd && c.cfg.any (fun g => g.tdc) then loopDelay else none
    let out := measured.any fun d => decide (127 < d)
    let res := if out && result = 0 then 2 else result
    let z1 := z.setCanCtl ctl { c with
      air := none
      loopDelay := if measured.isSome then measured else c.loopDelay
      tdcRange := if out then inc64 c.tdcRange else c.tdcRange
      sent := if res = 0 then inc64 c.sent else c.sent
      arbLost := if res = 1 then inc64 c.arbLost else c.arbLost
      errors := if 2 ≤ res then tset c.errors res (inc64 (tget 0 c.errors res)) else c.errors
      tec := if res = 0 then c.tec - 1 else if 2 ≤ res ∧ counted then c.tec + 8 else c.tec }
    match c.attempt with
    | none => z1
    | some b => match (tget {} c.bufs b).req with
      | none => z1
      | some r =>
        let z2 := z1.updTxBuf ctl b fun x => { x with req := some { r with
          onBus := false, lastError := if res = 0 then r.lastError else res } }
        let most := if r.reference then 0 else (tget {} c.bufs b).retry
        if res = 0 then z2.endTx ctl b coSent r.ending.isSome
        else match r.ending with
          | some o => z2.endTx ctl b o
          | none => if most < r.attempts then z2.endTx ctl b coRetries else z2
/-- TX_TIMEOUT. -/
def execTxTimeout (t ctl buf : Nat) (s : State) : Host.Outcome State Fault Refusal :=
  wheneverOn (decide (ctl < 2)) s t (fun z => (z.txBuf ctl buf).req.any fun r => r.ending.isNone
      && elapsed r.acceptedAt ((((z.canCtl ctl).cfg.map (·.txTimeout)).getD 1000) * 1000000) z.now) fun z =>
    z.abortTx ctl buf coTimeout
/-- TX_EVENT_ROOM: the target has room for a held record. -/
def execTxEventRoom (t ctl buf : Nat) (s : State) : Host.Outcome State Fault Refusal :=
  wheneverOn (decide (ctl < 2)) s t (fun z => (z.txBuf ctl buf).heldRec.isSome) fun z =>
    match (z.txBuf ctl buf).heldRec with
    | none => z
    | some o => z.putOutcome ctl buf o
/-- CAN_FRAME_RECEIVED: filtered at its end of frame and stored; `start` is the clock time of its start of frame. -/
def execCanFrameReceived (t ctl start : Nat) (f : CanFrame) (s : State) : Host.Outcome State Fault Refusal :=
  wheneverOn (decide (ctl < 2)) s t (fun z => z.power.on && (z.canCtl ctl).mode != .disabled && !(z.canCtl ctl).busOff
      && !(z.canCtl ctl).integrating && (z.canCtl ctl).air.isNone && (!f.fdf || (z.canCtl ctl).cfg.any fun g => g.fd)) fun z =>
    let c := z.canCtl ctl
    let z1 := { z with fresh := z.fresh + 1 }.setCanCtl ctl { c with
      received := inc64 c.received
      rec_ := if 127 < c.rec_ then 119 + Config.freeNat z.fresh % 9 else c.rec_ - 1 }
    if z.power.state == .beached || z.power.beach.isSome then z1.updCanCtl ctl fun y => { y with rxBeached := inc64 y.rxBeached }
    else
      let hit := c.matching f
      let which : Option Nat := match hit with
        | some (_, .fifo0) => some 0 | some (_, .fifo1) => some 1 | some (_, .hp) => some 2 | some (_, .discard) => none
        | none => if c.cfg.any fun g => g.noMatchFifo1 then some 1 else none
      match which with
      | none => if hit.isNone then z1.updCanCtl ctl fun y => { y with noMatch := inc64 y.noMatch } else z1
      | some w => match z1.canPut ctl w (rxEntries ctl start (hit.map (·.1)) f) with
        | some z2 => z2
        | none => z1.rxLose ctl w
/-- CAN_RECEIVE_ERROR: REC counts 1, or 8 where a dominant bit follows the error flag; a protocol exception makes the
controller wait for bus integration. -/
def execCanReceiveError (t ctl : Nat) (exception : Bool) (code : Nat) (dominantAfterFlag : Bool) (s : State) :
    Host.Outcome State Fault Refusal :=
  wheneverOn (decide (ctl < 2)) s t (fun z => z.power.on && (z.canCtl ctl).mode != .disabled && !(z.canCtl ctl).busOff
      && !(z.canCtl ctl).integrating && (z.canCtl ctl).air.isNone && (exception || within 2 6 code)) fun z =>
    z.updCanCtl ctl fun c =>
      if exception then { c with pxe := inc64 c.pxe, integrating := true }
      else { c with
        errors := tset c.errors code (inc64 (tget 0 c.errors code))
        rec_ := satInc 8 (if dominantAfterFlag then c.rec_ + 7 else c.rec_) }
/-- CAN_BUS_OFF: TEC has passed 255. -/
def execCanBusOff (t ctl : Nat) (s : State) : Host.Outcome State Fault Refusal :=
  wheneverOn (decide (ctl < 2)) s t (fun z => decide (256 ≤ (z.canCtl ctl).tec) && !(z.canCtl ctl).busOff) fun z =>
    ((z.updCanCtl ctl fun c => { c with busOff := true, busOffs := inc64 c.busOffs, air := none }).endAllTx ctl coBusOff).raise
      evCanBusOff 11 ctl
/-- CAN_RECOVERY_DONE: 128 occurrences of 11 recessive bits. -/
def execCanRecoveryDone (t ctl : Nat) (s : State) : Host.Outcome State Fault Refusal :=
  wheneverOn (decide (ctl < 2)) s t (fun z => (z.canCtl ctl).busOff && (z.canCtl ctl).recovering
      && (z.canCtl ctl).mode != .disabled) fun z =>
    (z.updCanCtl ctl fun c => { c with busOff := false, recovering := false, integrating := false, tec := 0, rec_ := 0 }).clearAlarm
      evCanBusOff 11 ctl

end Sys2Proof.Machine
end

