-- ==== Sys2Proof/Machine/Lane.lean ====
section
/-! DEFINITION. The lanes: configuration, arming, disarming, PWM periods and contactors (05). -/

namespace Sys2Proof.Machine

open Sys2Proof

/-! ## Configuration (R137, R138, R146) -/

/-- The rate of the base strobe at nominal grid frequency, Hz (R137). -/
def baseRate (b : Nat) : Nat := if b = 17 then 1020 else 1000
/-- A signed 32-bit quantity between 1,000 and 2,000,000,000 (R137). -/
def fsOk (v : Nat) : Bool := within 1000 2000000000 v
/-- A set-point source of R32. -/
def setpointSource : OutSource → Bool
  | .path _ => true
  | .signal h => decide (h < 65536)
  | _ => false
/-- The ranges of R137, for a base strobe of so many firings in a cycle. -/
def laneConfigOk (b : Nat) (c : LaneConfig) : Bool :=
  within 8 32 c.portCount && decide (c.firstPort + c.portCount ≤ 128)
  && within 1 6 c.phases && within 5 100 c.pwmN && decide (c.pwmN * baseRate b ≤ 100000)
  && c.dtH.length == c.phases && c.dtL.length == c.phases
  && c.dtH.all (fun d => decide (d ≤ 8000)) && c.dtL.all (fun d => decide (d ≤ 8000)) && decide (c.minOn ≤ 8000)
  && decide (0 ≤ c.umin) && decide (c.umin < c.umax) && decide (c.umax ≤ 2147483647)
  && fsOk c.stringFs && fsOk c.powerFs && fsOk c.phaseFs && within 1000 c.stringFs c.rated
  && decide (c.iChgMax ≤ c.stringFs) && decide (c.iDisMax ≤ c.stringFs) && within 1 2000000000 c.rampRate
  && decide (0 < c.vbusMin) && decide (c.vbusMin < c.vbusMax) && decide (c.vbusMax ≤ 2147483647)
  && within 10 500 c.tFb && within 328 6553 c.preDelta && within 100 30000 c.preTimeout && within 50 5000 c.preShort
  && within 5 200 c.tOverlap && decide (c.iOpen ≤ c.rated) && decide (c.iBreak ≤ c.stringFs)
  && within 100 10000 c.disarmTimeout && (c.tDecay == 0 || within 100 60000 c.tDecay) && setpointSource c.source
/-- The port range of a lane as it would be: the one proposed for lane `n`, the present one of the others. -/
def State.rangeOf (s : State) (n : Nat) (c : LaneConfig) (i : Nat) : Option (Nat × Nat) :=
  if i = n then (if c.portCount = 0 then none else some (c.firstPort, c.portCount))
  else (s.lane i).cfg.map fun x => (x.firstPort, x.portCount)
/-- Ranges ascend and do not overlap. -/
def ascending : List (Nat × Nat) → Bool
  | a :: b :: r => decide (a.1 + a.2 ≤ b.1) && ascending (b :: r)
  | _ => true
/-- R28 holds with the configuration proposed. -/
def State.rangesOk (s : State) (n : Nat) (c : LaneConfig) : Bool := ascending ((List.range 8).filterMap (s.rangeOf n c))

/-- The four tables of a converter within the 64 entries they share (04 R115): where the module's own table 3 finds no room,
user tables are given up from number 2 down (DESIGN CHOICE, log entry 150: no rule says what gives way). -/
def fitTables (t : Table (List (BitVec 32))) : Table (List (BitVec 32)) :=
  ([2, 1, 0] : List Nat).foldl (fun x k =>
    if 64 < ((List.range 4).map fun i => (tget [] x i).length).sum then tset x k [] else x) t
/-- A port leaves its lane: OFF, its line not driven (03 R93). -/
def State.portLeaves (s : State) (p : Nat) : State :=
  ((s.coast p).dropTest p).updPort p fun x => { (x.toState .off) with waiting := [], failRun := 0 }
/-- Put a configuration in force, or take the lane's configuration away (R137, R139, R146, 03 R93, 04 R124). -/
def State.configure (s : State) (n : Nat) (c : LaneConfig) : State :=
  let old := s.portsOf n
  let was := (s.lane n).cfg.isSome
  let off := c.portCount = 0
  let l := s.lane n
  let l1 : Lane :=
    if off then { l.stopCarrier with cfg := none, state := .unconfigured, gatesForced := true }
    else { l with cfg := some c, state := if l.state == .unconfigured then .disarmed else l.state }
  let s1 := s.setLane n l1
  let now := s1.portsOf n
  let s2 := (old.filter fun p => !now.contains p).foldl (fun z p => z.portLeaves p) s1
  let s3 := s2.updLaneSafe n fun x => { x with badCells := x.badCells.filter fun k => now.contains k.1 }
  let s4 := (now.filter fun p => !old.contains p).foldl (fun z p => z.toTrain p) s3
  let s5 := s4.updConv (2 * n + 1) fun v => { v with tables := fitTables (tset v.tables 3 (if off then [] else [3, 4, 5])) }
  let s6 := if off then (if was then s5.updIcv n fun v => v.stop s5.now else s5)
    else s5.updIcv n fun v => if was then v.reset s5.now s5.pos else v.start s5.now s5.pos
  (s6.placeEntries).compWrite n
/-- LANE.CONFIG. -/
def configDo (n : Nat) (c : LaneConfig) (s : State) : Answer :=
  checked s
    [ (!s.anyArmed, stLaneArmed)
    , (decide (n < 8) && decide (c.firstPort < 128) && (c.portCount == 0 || laneConfigOk s.baseB c) && s.rangesOk n c, stInvalidArg) ]
    (ok (s.configure n c))
/-- LANE.CONFIG (R137, R164); the configuration is a persistent setting (DEDUCED, log entry 38). -/
def execLaneConfig (src : Source) (lane : Nat) (c : LaneConfig) (s : State) : Host.Outcome State Fault Refusal :=
  runCommand src 0x0B01 (fun z => (configDo lane c z).persisted 0x0B01 lane (.laneConfig src lane c)) s

/-- Gains in UQ8.24 (R138). -/
def gainsOk (g : LoopGains) : Bool :=
  decide (g.kpA < 2 ^ 32) && decide (g.kiA < 2 ^ 32) && decide (g.kdA < 2 ^ 32)
  && decide (g.kpB < 2 ^ 32) && decide (g.kiB < 2 ^ 32) && decide (g.kdB < 2 ^ 32)
/-- LANE.LOOP_SET: the gains wait for the next alignment instant in RUN and SHADOW (R138), and a sequence in progress
refuses them (14 R405). -/
def loopSetDo (n : Nat) (g : LoopGains) (s : State) : Answer :=
  let l := s.lane n
  checked s
    [ (decide (n < 8) && gainsOk g, stInvalidArg)
    , (l.state != .arming && l.state != .disarming, stBusy) ]
    (ok (s.setLane n (if l.state == .run || l.state == .shadow then { l with pendingGains := some g }
      else { l with gains := some g, pendingGains := none })))
/-- LANE.LOOP_SET (R138, R164). -/
def execLaneLoopSet (src : Source) (lane : Nat) (g : LoopGains) (s : State) : Host.Outcome State Fault Refusal :=
  runCommand src 0x0B02 (fun z => (loopSetDo lane g z).persisted 0x0B02 lane (.laneLoopSet src lane g)) s

/-! ## Arming (R159, R160) -/

/-- The lane's configured current inputs, its string converter inputs and its ICV have coefficients (04 R125). -/
def State.laneCalibrated (s : State) (n : Nat) : Bool :=
  (List.range 12).all (fun i => !s.fixedInput (12 * n + i) || ((s.input (12 * n + i)).coef).isSome)
  && ((s.icv n).coef).isSome
/-- The checks of R159, in their order. -/
def State.armChecks (s : State) (n : Nat) : List (Bool × Nat) :=
  let l := s.lane n
  [ (l.cfg.isSome, stNotFound)
  , (s.holdsHelm n, stNotHelm)
  , (s.tide.quality != .none_, stNoTide)
  , (s.laneCalibrated n, stUncalibrated)
  , (l.gains.isSome, stNoGains)
  , ((s.portsOf n).all fun p => (s.port p).state == .run, stPortsNotReady)
  , (s.permissive n, stNotPermitted)
  , (l.state != .tripped, stTripped)
  , (l.state == .disarmed, stBusy)
  , (s.busOk n, stBusRange) ]
/-- ARMING begins: K- is energised (R160). -/
def Lane.startArming (l : Lane) (now : Nat) : Lane :=
  { (l.driveK 0 true now) with
    state := .arming, step := 1, stepAt := now, seqAt := now, periodSeq := 0, inDelta := none
    preHighSince := none, wasAbove := false, kpClosed := false, opening := [], openWatch := [], decayDue := none }
/-- LANE.ARM (R159, R160). -/
def execLaneArm (src : Source) (lane : Nat) (s : State) : Host.Outcome State Fault Refusal :=
  runCommand src 0x0B03 (fun z => checked z ((decide (lane < 8), stInvalidArg) :: z.armChecks lane)
    (ok (z.updLane lane fun l => l.startArming z.now))) s

/-- A feedback check of the sequence failed: CONTACTOR_FAULT, naming the contactor (R160, R161). -/
def State.contactorFault (s : State) (n k : Nat) : State := s.tripLane n trContactor (some (k : Int))
/-- WELD_SUSPECT against the contactors named, and the trip (R160, R161). -/
def State.weldSuspect (s : State) (n : Nat) (ks : List Nat) : State :=
  let s1 := ks.foldl (fun z k => z.updLane n fun l => l.updContactor k fun c => { c with weldSuspect := true }) s
  (s1.event evWeldSuspect 1 n (v0 := match ks with | [k] => some (k : Int) | _ => none)).tripLane n trWeldSuspect
/-- A precharge check failed: all three outputs are de-energised together and the lane goes to DISARMED (R160, 16 R515):
1 PRECHARGE_OPEN, 2 PRECHARGE_TIMEOUT, 3 PRECHARGE_SHORT. -/
def State.prechargeFail (s : State) (n cause : Nat) : State :=
  let l := s.lane n
  let l1 := ((l.driveK 0 false s.now).driveK 1 false s.now).driveK 2 false s.now
  (s.setLane n { l1 with
    state := .disarmed, step := 0, stepAt := s.now, failName := cause
    preOpen := if cause = 1 then inc64 l.preOpen else l.preOpen
    preTimeout := if cause = 2 then inc64 l.preTimeout else l.preTimeout
    preShort := if cause = 3 then inc64 l.preShort else l.preShort }).event evPrechargeFail 1 n (cause := cause)
      (v0 := s.sample (12 * n + 9)) (v1 := s.sample (12 * n + 10)) (v2 := s.sample (12 * n + 7))
/-- The contactor-side voltage lies below 10 % of the string voltage, on samples of the last 10 ms (R160, R161). -/
def State.stageDown (s : State) (n : Nat) : Bool := s.freshPair (12 * n + 10) (12 * n + 7) fun x v => decide (10 * x < v)
/-- A feedback that reads closed, and did by a deadline. -/
def Contactor.closedBy (c : Contactor) (deadline : Nat) : Bool := c.fb && decide (c.changedAt ≤ deadline)
/-- A feedback that reads open, and did by a deadline. -/
def Contactor.openBy (c : Contactor) (deadline : Nat) : Bool := !c.fb && decide (c.changedAt ≤ deadline)
/-- T_FB of the lane, ns (R137). -/
def fbNs (c : LaneConfig) : Nat := c.tFb * 1000000
/-- KP is energised: step 3 of R160. -/
def State.armPrecharge (s : State) (n : Nat) : State :=
  let above := s.freshPair (12 * n + 10) (12 * n + 7) fun x v => decide (v < 2 * x)
  s.updLane n fun l => { (l.driveK 2 true s.now) with
    step := 3, stepAt := s.now, seqAt := s.now, wasAbove := above, kpClosed := l.kPre.fb, inDelta := none, preHighSince := some s.now }
/-- The voltage check of step 4. -/
def State.armNode (s : State) (n : Nat) : State :=
  if (s.lane n).wasAbove || s.freshPair (12 * n + 9) (12 * n + 7) (fun x v => decide (v < 2 * x)) then
    s.updLane n fun l => { l with step := 4, stepAt := s.now }
  else s.prechargeFail n 1
/-- Step 5: within PRE_DELTA for 10 ms, samples of the last 10 ms. -/
def State.armDelta (s : State) (n : Nat) (c : LaneConfig) : Bool :=
  elapsedO (s.lane n).inDelta 10000000 s.now
  && s.freshPair (12 * n + 10) (12 * n + 7) fun x v => decide (|x - v| * 65536 ≤ (c.preDelta : Int) * v)
/-- One advance of the arming sequence (R160). -/
def State.armStep (s : State) (n : Nat) (c : LaneConfig) : State :=
  let l := s.lane n
  let now := s.now
  let kpLate := within 3 7 l.step && !l.kpClosed && decide (l.seqAt + fbNs c < now)
  match l.step with
  | 1 =>
    if l.kNeg.closedBy (l.stepAt + fbNs c) then
      (if c.tDecay ≠ 0 && !s.stageDown n then s.weldSuspect n [1, 2]
      else s.setLane n { l with step := 2, stepAt := now })
    else if l.stepAt + fbNs c ≤ now then s.contactorFault n 0 else s
  | 2 => if l.stepAt + 1000000 ≤ now then s.armPrecharge n else s
  | 3 => if kpLate then s.contactorFault n 2 else if l.stepAt + 5000000 ≤ now then s.armNode n else s
  | 4 =>
    if kpLate then s.contactorFault n 2
    else if s.armDelta n c then s.setLane n { (l.driveK 1 true now) with step := 6, stepAt := now }
    else if l.seqAt + c.preTimeout * 1000000 ≤ now then s.prechargeFail n 2 else s
  | 6 =>
    if kpLate then s.contactorFault n 2
    else if l.kPos.closedBy (l.stepAt + fbNs c) then s.setLane n { l with step := 7, stepAt := now }
    else if l.stepAt + fbNs c ≤ now then s.contactorFault n 1 else s
  | 7 =>
    if kpLate then s.contactorFault n 2
    else if l.stepAt + c.tOverlap * 1000000 ≤ now then s.setLane n { (l.driveK 2 false now) with step := 8, stepAt := now }
    else s
  | 8 =>
    if l.kPre.openBy (l.stepAt + fbNs c) then s.setLane n { l with step := 9, stepAt := now }
    else if l.stepAt + fbNs c ≤ now then s.contactorFault n 2 else s
  | 10 => if l.openingAt + 1000000 ≤ now then s.setLane n (l.openNext now) else s
  | _ => s
/-- ARM_SEQUENCE_STEP (R160): the permissive first, then the step the sequence has reached. -/
def execArmSequenceStep (t lane : Nat) (s : State) : Host.Outcome State Fault Refusal :=
  wheneverOn (decide (lane < 8)) s t (fun z => (z.lane lane).state == .arming)
    (fun z => match (z.lane lane).cfg with
      | none => z
      | some c =>
        if z.permissive lane || (z.lane lane).step == stepOpening then z.armStep lane c
        else z.abandonArming lane (some stNotPermitted))

/-- Since when the precharge node has counted as above half the string voltage: a span without a valid sample counts
(R160). -/
def State.nodeHighSince (s : State) (n : Nat) : Option Nat :=
  if s.freshPair (12 * n + 9) (12 * n + 7) fun _ _ => true then (s.lane n).preHighSince
  else some ((s.lane n).preHighSince.getD (min (s.input (12 * n + 9)).latestAt (s.input (12 * n + 7)).latestAt + 10000000))
/-- PRECHARGE_SHORT (R160). -/
def execPrechargeShort (t lane : Nat) (s : State) : Host.Outcome State Fault Refusal :=
  wheneverOn (decide (lane < 8)) s t
    (fun z => (z.lane lane).state == .arming && within 3 4 (z.lane lane).step
      && (match (z.lane lane).cfg with
        | none => false
        | some c => elapsedO (z.nodeHighSince lane) (c.preShort * 1000000 + 1) z.now))
    (fun z => z.prechargeFail lane 3)

/-! ## Disarming (R140, R161) -/

/-- LANE.DISARM (R140, R161): a standby's contactors follow the helm holder, so in SHADOW it changes nothing. -/
def disarmDo (n : Nat) (s : State) : Answer :=
  checked s [(decide (n < 8), stInvalidArg)]
    (ok (match (s.lane n).state with
      | .run => (s.updLane n fun l => { l with state := .disarming, step := 1, stepAt := s.now, lowRun := 0 }).runLeft n ocLaneState
      | .arming => s.abandonArming n none
      | _ => s))
/-- LANE.DISARM. -/
def execLaneDisarm (src : Source) (lane : Nat) (s : State) : Host.Outcome State Fault Refusal :=
  runCommand src 0x0B04 (disarmDo lane) s

/-- One advance of the disarming sequence (R161). -/
def State.disarmStep (s : State) (n : Nat) (c : LaneConfig) : State :=
  let l := s.lane n
  let now := s.now
  match l.step with
  | 1 => if 10 ≤ l.lowRun then s.setLane n { l with step := 2, stepAt := now } else s
  | 2 =>
    if l.gatesForced && decide (l.stepAt + 1000000 ≤ now) then
      s.setLane n { (l.driveK 1 false now) with
        step := 3, stepAt := now, decayDue := if c.tDecay = 0 then none else some (now + c.tDecay * 1000000) }
    else s
  | 3 =>
    if l.kPos.openBy (l.stepAt + fbNs c) then s.setLane n { (l.driveK 0 false now) with step := 5, stepAt := now }
    else if l.stepAt + fbNs c ≤ now then s.contactorFault n 1 else s
  | 5 =>
    if l.kNeg.openBy (l.stepAt + fbNs c) then
      (s.setLane n { l with state := .disarmed, step := 0, stepAt := now }).event evLaneDisarmed 1 n
    else if l.stepAt + fbNs c ≤ now then s.contactorFault n 0 else s
  | _ => s
/-- DISARM_SEQUENCE_STEP (R161). -/
def execDisarmSequenceStep (t lane : Nat) (s : State) : Host.Outcome State Fault Refusal :=
  wheneverOn (decide (lane < 8)) s t (fun z => (z.lane lane).state == .disarming)
    (fun z => match (z.lane lane).cfg with | none => z | some c => z.disarmStep lane c)

/-- DISARM_FORCED (R161): the timeout of step 2. -/
def execDisarmForced (t lane : Nat) (s : State) : Host.Outcome State Fault Refusal :=
  wheneverOn (decide (lane < 8)) s t
    (fun z => (z.lane lane).state == .disarming && (z.lane lane).step == 1
      && (match (z.lane lane).cfg with
        | none => false | some c => decide ((z.lane lane).stepAt + c.disarmTimeout * 1000000 ≤ z.now)))
    (fun z => (z.updLane lane fun l => { l with
      step := 2, stepAt := z.now, disarmForced := inc64 l.disarmForced }).event evDisarmForced 1 lane)

/-- DECAY_CHECK (R161, step 7). -/
def execDecayCheck (t lane : Nat) (s : State) : Host.Outcome State Fault Refusal :=
  wheneverOn (decide (lane < 8)) s t (fun z => elapsedO (z.lane lane).decayDue 0 z.now)
    (fun z =>
      let z1 := z.updLane lane fun l => { l with decayDue := none }
      if z.stageDown lane then z1 else z1.weldSuspect lane [1])

/-! ## Set-points, status and counters (R154, R163, R164) -/

/-- LANE.SETPOINT. -/
def setpointDo (src : Source) (n : Nat) (v : Int) (s : State) : Answer :=
  let l := s.lane n
  checked s [(decide (n < 8) && withinI (-2147483648) 2147483647 v, stInvalidArg)]
    (match l.cfg with
    | none => refuse s stNotFound
    | some c =>
      if c.source != .path src.path then refuse (s.setLane n { l with refusedSets := inc64 l.refusedSets }) stNotOwner
      else if l.state == .run || l.state == .disarming then ok (s.setLane n { l with mailboxCmd := some v })
      else refuse s stNotArmed)
/-- LANE.SETPOINT (R154, R164). -/
def execLaneSetpoint (src : Source) (lane : Nat) (v : Int) (s : State) : Host.Outcome State Fault Refusal :=
  runCommand src 0x0B05 (setpointDo src lane v) s

/-- The cause of the last trip or failure as LANE.STATUS gives it: the trip cause of 09 R259, or after a failed precharge
its CAUSE of 16 R515 (log entry 39). -/
def Lane.lastCause (l : Lane) : Nat := if l.failName = 0 then l.cause else l.failName
/-- The commands and feedbacks of K-, K+ and KP as bits 0 to 2 (log entry 39). -/
def Lane.kBits (l : Lane) (f : Contactor → Bool) : Nat :=
  maskOf (([0, 1, 2] : List Nat).filter fun k => f (l.contactor k))
/-- The response of LANE.STATUS (R164): a voltage or current that has had no valid sample reads as the no-value marker
(00 R5). -/
def State.laneFields (s : State) (n : Nat) : List Field :=
  let l := s.lane n
  let phases := match l.cfg with | none => 0 | some c => c.phases
  [f1 (laneCode l.state), f2 l.lastCause, .s 4 l.command, .s 4 (satS 32 (roundA l.ramp)), .s 4 l.reference, .s 4 l.dff]
  ++ (List.range phases).map (fun m => (.s 4 (l.phase m).loop.out : Field))
  ++ ([6, 7, 8] : List Nat).map (fun i => (.s 4 ((s.sample (12 * n + i)).getD (-2147483648)) : Field))
  ++ [.s 4 (s.limitOf n true).1, f1 (s.limitOf n true).2
     , .s 4 (s.limitOf n false).1, f1 (s.limitOf n false).2, f1 (l.kBits (·.drive)), f1 (l.kBits (·.fb))]
  ++ ([0, 1, 2] : List Nat).flatMap (fun k => [f8 (l.contactor k).closings, f8 (l.contactor k).breaks])
  ++ [fb l.sourceLost]
/-- LANE.STATUS. -/
def execLaneStatus (src : Source) (lane : Nat) (s : State) : Host.Outcome State Fault Refusal :=
  runCommand src 0x0B06 (fun z => checked z [(decide (lane < 8), stInvalidArg)] (okWith z (z.laneFields lane))) s

/-- LANE.FAULT_CLEAR (R163). -/
def faultClearDo (n : Nat) (ack : Bool) (s : State) : Answer :=
  let l := s.lane n
  let weld := ([0, 1, 2] : List Nat).any fun k => (l.contactor k).weld || (l.contactor k).weldSuspect
  checked s
    [ (decide (n < 8), stInvalidArg)
    , (!s.latched n, stLatched)
    , (l.allOpen && (!weld || ack), stContactorFault) ]
    (if l.state != .tripped then ok s
    else ok (s.setLane n
      (([0, 1, 2] : List Nat).foldl (fun z k => z.updContactor k fun c => { c with weld := false, weldSuspect := false })
        { l with state := .disarmed, step := 0, stepAt := s.now, openWatch := [] })))
/-- LANE.FAULT_CLEAR. -/
def execLaneFaultClear (src : Source) (lane : Nat) (ack : Bool) (s : State) : Host.Outcome State Fault Refusal :=
  runCommand src 0x0B07 (faultClearDo lane ack) s

/-- The counters of a lane, cleared (R164). -/
def Lane.clearCounters (l : Lane) : Lane :=
  { l with
    pwmSlip := 0, refusedSets := 0, disarmForced := 0, preOpen := 0, preTimeout := 0, preShort := 0
    spB := { l.spB with dropped := 0 }
    phases := l.phases.map fun x => (x.1, { x.2 with loop := { x.2.loop with dropped := 0 } }) }
/-- The response of LANE.COUNTERS_READ (R164). -/
def Lane.counterFields (l : Lane) : List Field :=
  let phases := match l.cfg with | none => 0 | some c => c.phases
  [f8 l.pwmSlip, f8 l.spB.dropped] ++ (List.range phases).map (fun m => f8 (l.phase m).loop.dropped)
  ++ [f8 l.refusedSets, f8 l.disarmForced, f8 l.preOpen, f8 l.preTimeout, f8 l.preShort]
/-- LANE.COUNTERS_READ. -/
def execLaneCountersRead (src : Source) (lane : Nat) (clear : Bool) (s : State) : Host.Outcome State Fault Refusal :=
  runCommand src 0x0B08 (fun z => checked z [(decide (lane < 8), stInvalidArg)]
    { ok (if clear then z.updLane lane Lane.clearCounters else z) with payload := (z.lane lane).counterFields }) s

/-! ## PWM periods (R142 to R145, R147, R152 to R154, R161) -/

/-- The edges of a phase's gates in a period of `len` counts with `on` counts of high-side command, with the dead times in
force: the outgoing switch turns off at the command edge, the incoming one its delay later; a period that follows one with
the high side on throughout begins with such an edge, and a delay that runs past a period's end goes on in the next
(R142, R143). -/
def Phase.gates (p : Phase) (dtH dtL len on : Nat) : Phase :=
  let a := (len - on) / 2
  let p1 := if on = 0 then
      { p with
        hiRise := 0, hiFall := 0, loFirst := if p.hiEnd then dtL else p.loDue, loFall := len, loRise := len
        loDue := (if p.hiEnd then dtL else p.loDue) - len, hiEnd := false }
    else if len ≤ on then
      { p with
        hiRise := if p.hiEnd then 0 else dtH, hiFall := len, loFirst := 0, loFall := 0, loRise := len, loDue := 0
        hiEnd := true }
    else
      { p with
        hiRise := a + dtH, hiFall := a + on, loFirst := if p.hiEnd then dtL else p.loDue, loFall := a
        loRise := a + on + dtL, loDue := a + on + dtL - len, hiEnd := false }
  { p1 with
    gateH := decide (p1.hiRise < p1.hiFall), gateL := decide (p1.loFirst < p1.loFall) || decide (p1.loRise < len) }
/-- The turn-on delay of R142: DT, and at least 10 ns. -/
def deadTime (l : List Nat) (m : Nat) : Nat := max (l.getD m 0) 40
/-- The phase starts a period of so many counts: it loads its shadow; both switches stay off through its first period in
RUN, and it switches from its second on (R151, R153, R160). -/
def Phase.start (p : Phase) (c : LaneConfig) (m : Nat) (drives : Bool) (len : Nat) (next : Option Rat) : Phase :=
  let sw := drives && (p.switching || p.inFirst)
  let p1 := { p with len := len, nextAt := next, shadowNew := false, switching := sw, inFirst := drives && !sw }
  if sw then { p1 with on := onCount c p.shadow len }.gates (deadTime c.dtH m) (deadTime c.dtL m) len (onCount c p.shadow len)
  else p1.low
/-- The lane's gates follow its compare values (01 R31, 05 R139). -/
def Lane.drives (l : Lane) : Bool := !l.gatesForced && (l.state == .run || l.state == .disarming)
/-- A period of phase 0 starts: the next planned length, the later phases' starts, spindle A's references, and a pending
forcing of the gates (R144, R151, R161). -/
def Lane.startPeriod (l : Lane) (c : LaneConfig) (now : Nat) : Lane :=
  match l.periods, (l.phase 0).nextAt with
  | len :: rest, some start =>
    let force := l.state == .disarming && l.step == 2 && !l.gatesForced
    let l0 := if force then { l.forceGates with stepAt := now } else l
    let drv := l0.drives
    let l1 := { l0 with
      periods := rest, lastPeriodNs := (len : Rat) / 4, stringSeen := false
      periodSeq := if laneArmed l0.state then (l0.periodSeq + 1) % 2 ^ 32 else l0.periodSeq }
    let l2 := l1.updPhase 0 fun p => p.start c 0 drv len (some (start + (len : Rat) / 4))
    let l3 := (List.range c.phases).foldl (fun z m =>
      if m = 0 then z else z.updPhase m fun p => { p with
        len := len, nextAt := some (start + ((m * len / c.phases : Nat) : Rat) / 4) }) l2
    let first := (l3.phase 0).inFirst
    { l3 with
      firstPeriod := first, firstReady := false, rNow := if first then l3.rNow else l3.spB.out, dNow := if first then l3.dNow else l3.dff }
  | _, _ => l
/-- A STROBE of the lane within 300 ns carries the string requests (R145). -/
def State.strobeNear (s : State) (n : Nat) : Bool :=
  match tget none s.table.lastStrobe n with
  | none => false
  | some t => decide (t ≤ s.now + 300) && decide (s.now ≤ t + 300)
/-- The PWM requests of the string converter: string current, bus voltage, string voltage (R145). -/
def State.stringRequests (s : State) (n : Nat) : List Conversion :=
  [s.conversion (12 * n + 6) 2 false, s.conversion (12 * n + 8) 2 false, s.conversion (12 * n + 7) 2 false]
/-- A helm move that waits for the end of the next period of phase 0 is made (12 R369). -/
def State.periodRelease (s : State) (n : Nat) : State :=
  match s.laneRole n with
  | none => s
  | some o =>
    if o.state != .active || o.releaseDue = 0 then s
    else if o.releaseDue = 1 then s.releaseRole o.role true true
    else s.setOwn o.role fun x => { x with releaseDue := x.releaseDue - 1 }
/-- The helm holder reports its contactors and lane state each PWM period, also while no law is evaluated (R157; log entry
63). -/
def State.reportPeriod (s : State) (n : Nat) : State :=
  if s.mirrorsLane n && !(s.lane n).loops then s.emit (.loopItem n ((s.lane n).loopItem 0)) else s
/-- A period of a phase starts. -/
def pwmPeriodDo (n m : Nat) (c : LaneConfig) (s0 : State) : State :=
  let s := if m = 0 then (s0.periodRelease n).reportPeriod n else s0
  let s1 := if m = 0 then s.setLane n ((s.lane n).startPeriod c s.now)
    else s.updLane n fun l => l.updPhase m fun p => p.start c m l.drives p.len none
  let s3 := s1.urgentRequest (2 * n) [s1.conversion (12 * n + m) 2 false]
  if m = 0 && !s3.strobeNear n then s3.urgentRequest (2 * n + 1) (s3.stringRequests n) else s3
/-- PWM_PERIOD_START (R145, R154). -/
def execPwmPeriodStart (t lane phase : Nat) (s : State) : Host.Outcome State Fault Refusal :=
  wheneverOn (decide (lane < 8) && decide (phase < 6)) s t
    (fun z => match (z.lane lane).cfg with
      | none => false
      | some c => decide (phase < c.phases) && z.tablesRun && (phase != 0 || !(z.lane lane).periods.isEmpty)
        && (match ((z.lane lane).phase phase).nextAt with | none => false | some q => decide (q ≤ (z.now : Rat) + 1)))
    (fun z => match (z.lane lane).cfg with | none => z | some c => pwmPeriodDo lane phase c z)

/-- LOOP_SAMPLE_LOST (R147). -/
def execLoopSampleLost (t lane : Nat) (s : State) : Host.Outcome State Fault Refusal :=
  wheneverOn (decide (lane < 8)) s t
    (fun z => (z.lane lane).loops && (decide (8 ≤ (z.lane lane).spB.droppedRun)
      || (z.lane lane).phases.any fun x => decide (8 ≤ x.2.loop.droppedRun)))
    (fun z => z.tripLane lane trLoopSample)

/-- BUS_RANGE (R152). -/
def execBusRange (t lane : Nat) (s : State) : Host.Outcome State Fault Refusal :=
  wheneverOn (decide (lane < 8)) s t
    (fun z => (z.lane lane).state == .run && decide (10 ≤ (z.lane lane).busOutRun)) (fun z => z.tripLane lane trBusRange)

/-! ## Contactors (R156, R158, R162) -/

/-- KP's feedback closes within T_FB of step 3 (R160). -/
def Lane.kpCloses (l : Lane) (k : Nat) (closed : Bool) (now : Nat) : Bool :=
  k == 2 && closed && l.state == .arming && within 3 7 l.step
    && (match l.cfg with | none => false | some c => decide (now ≤ l.seqAt + fbNs c))
/-- A feedback changes; the holder of the helm counts closings, and openings above I_BREAK (R158). -/
def feedbackDo (n k : Nat) (closed : Bool) (s : State) : State :=
  let l := s.lane n
  let count := s.holdsHelm n
  let l1 := { l with kpClosed := l.kpClosed || l.kpCloses k closed s.now }
  s.setLane n (l1.updContactor k fun x =>
    let i := if x.drive then l.iString else x.breakCurrent
    let brk := match l.cfg with | none => false | some c => decide ((c.iBreak : Int) < |i|)
    { x with
      fb := closed, changedAt := s.now, reported := false
      closings := if count && closed then inc64 x.closings else x.closings
      breaks := if count && !closed && brk then inc64 x.breaks else x.breaks })
/-- CONTACTOR_FEEDBACK (R158). -/
def execContactorFeedback (t lane k : Nat) (closed : Bool) (s : State) : Host.Outcome State Fault Refusal :=
  wheneverOn (decide (lane < 8) && decide (k < 3)) s t (fun z => ((z.lane lane).contactor k).fb != closed)
    (feedbackDo lane k closed)

/-- CONTACTOR_MISMATCH (R156), outside the sequences and the opening that R162 checks; a difference trips once. -/
def execContactorMismatch (t lane k : Nat) (s : State) : Host.Outcome State Fault Refusal :=
  wheneverOn (decide (lane < 8) && decide (k < 3)) s t
    (fun z =>
      let l := z.lane lane
      let x := l.contactor k
      (l.state == .run || l.state == .shadow || l.state == .disarmed || (l.state == .tripped && l.openWatch.isEmpty))
        && x.drive != x.fb && !x.reported
        && (match l.cfg with | none => false | some c => decide (x.changedAt + fbNs c < z.now)))
    (fun z => (z.updLane lane fun l => l.updContactor k fun x => { x with reported := true }).tripLane lane trMismatch
      (some (k : Int)))

/-- A contactor whose feedback still reads closed T_FB after the opening is recorded as WELD (R162). -/
def weldCheckDo (n : Nat) (s : State) : State :=
  let l := s.lane n
  let ks := l.openWatch.filter fun k => (l.contactor k).fb
  let s1 := s.setLane n { l with openWatch := [] }
  let s2 := ks.foldl (fun z k =>
    (z.updLane n fun x => x.updContactor k fun c => { c with weld := true, reported := true }).event evWeld 1 n (v0 := some (k : Int))) s1
  match ks with
  | [] => s2
  | k :: _ => s2.tripLane n trContactor (some (k : Int))
/-- WELD_CHECK (R162). -/
def execWeldCheck (t lane : Nat) (s : State) : Host.Outcome State Fault Refusal :=
  wheneverOn (decide (lane < 8)) s t
    (fun z =>
      let l := z.lane lane
      l.state == .tripped && !l.openWatch.isEmpty
        && (match l.cfg with | none => false | some c => decide (l.openAt + fbNs c ≤ z.now)))
    (weldCheckDo lane)

end Sys2Proof.Machine
end

