-- ==== Sys2Proof/Machine/Model.lean ====
section
/-! DEFINITION. The cell models: parameter sets, stepping, estimates, learned values and slack water (06 R166 to R197,
R202). -/

namespace Sys2Proof.Machine

open Sys2Proof

/-! ## Parameter sets (R178, R179) -/

/-- Every binary32 field of a set. -/
def paramFields : List Nat := (List.range 252).map fun k => 16 + 4 * k
/-- The fields that must lie above 0: time constants, capacities, resistances, exchange currents and variances (R179). -/
def positiveFields : List Nat :=
  [16, 36, 40, 56, 60, 76, 80, 92, 96, 100, 104, 108, 116, 124, 128, 132, 136, 140, 152]
  ++ (List.range 14).map (fun k => 172 + 4 * k) ++ [228] ++ (List.range 14).map fun k => 232 + 4 * k
/-- A grid never increases. -/
def ParamSet.falls (q : ParamSet) (o : Nat) : Bool := (List.range 64).all fun k => decide (q.f (o + 4 * (k + 1)) ≤ q.f (o + 4 * k))
/-- The open-circuit voltage rises strictly at 256 evenly spaced points (R179). -/
def ParamSet.ocvRises (q : ParamSet) : Bool :=
  (List.range 255).all fun k => decide (ocvAt q ((k : Rat) / 255) (q.f 144) < ocvAt q (((k + 1 : Nat) : Rat) / 255) (q.f 144))
/-- VERSION, LENGTH, CRC and the reserved fields (R179). -/
def paramCheck (b : List Byte) : Bool :=
  leAt b 0 2 == 1 && leAt b 4 4 == 1032 && leAt b 300 4 == 0 && leAt b 1024 4 == 0 && leAt b 1028 4 == crc32 (b.take 1028)
/-- The ranges of R179. -/
def paramRange (typ : Nat) (q : ParamSet) : Bool :=
  leAt q.bytes 2 2 == typ && paramFields.all (fun o => (f32 (leAt q.bytes o 4)).isSome)
  && decide (0 ≤ q.f 20) && decide (q.f 20 < q.f 24) && decide (q.f 24 ≤ 1)
  && decide (0 ≤ q.f 32) && decide (q.f 32 < q.f 28) && decide (q.f 28 ≤ 1)
  && positiveFields.all (fun o => decide (0 < q.f o)) && decide (q.f 160 < q.f 156)
  && q.falls 304 && q.falls 564
  && (List.range 16).all (fun k => decide (0 ≤ q.f (960 + 4 * k)) && decide (q.f (960 + 4 * k) ≤ 1))
  && q.ocvRises
/-- Move the stoichiometries to another set or capacity, keeping the state of charge (R179, R194). -/
def Cell.atSoc (c : Cell) (soc : Rat) (q : ParamSet) : Cell :=
  if c.x.isEmpty then c
  else { c with x := fp ((c.x.set 0 (clampQ 0 1 (q.f 20 + soc * q.dn))).set 3 (clampQ 0 1 (q.f 28 - soc * q.dp))) }
/-- At its next step a cell takes a set loaded for its type: its SOC, as the set before gave it, stays (R179). -/
def Cell.takeSet (c : Cell) (q : ParamSet) : Cell :=
  match c.oldSet with
  | none => c
  | some o => { c.atSoc (socOf o c.x) q with oldSet := none }
/-- At its next step a cell takes values written to it: its SOC stays and the stoichiometries are rescaled to it, isd is the
filter's state 13, and a capacity written is no longer provisional (R194). -/
def Cell.takeWritten (c : Cell) (q : ParamSet) : Cell :=
  match c.newLearned with
  | none => c
  | some l =>
    { c with
      learned := l, newLearned := none
      outRec := { c.outRec with capProvisional := c.outRec.capProvisional && l.capacity.isNone }
      x := if c.x.isEmpty then [] else fp (c.x.set 13 (l.iSd.getD 0)) }.atSoc (socOf q c.x) q
/-- MODEL.PARAM_LOAD. -/
def paramLoadDo (typ : Nat) (b : List Byte) (s : State) : Answer :=
  let q : ParamSet := { bytes := b, build := leAt b 8 8 }
  let held := (s.model.params.filter fun x => x.2.isSome && x.1 != typ).length
  checked s
    [ (within 1 255 typ && b.length == 1032, stInvalidArg)
    , (paramCheck b, stParamCheck)
    , (paramRange typ q, stParamRange)
    , (decide (held < 64), stTypeLimit) ]
    (ok
      (let cells := s.model.cells.map fun (x : Nat × Cell) =>
         (x.1, if x.2.typ = typ then { x.2 with oldSet := x.2.oldSet.orElse fun _ => s.params typ } else x.2)
       { s with model := { s.model with params := tset s.model.params typ (some q), cells := cells } }))
/-- MODEL.PARAM_LOAD (R179, R202). -/
def execModelParamLoad (src : Source) (typ : Nat) (bytes : List Byte) (s : State) : Host.Outcome State Fault Refusal :=
  runCommand src 0x0C01 (paramLoadDo typ bytes) s

/-- MODEL.PARAM_READ (R202). -/
def execModelParamRead (src : Source) (typ : Nat) (s : State) : Host.Outcome State Fault Refusal :=
  runCommand src 0x0C02 (fun z => checked z [(within 1 255 typ, stInvalidArg), ((z.params typ).isSome, stNotFound)]
    (match z.params typ with
    | none => ok z
    | some q => okWith z
        [f2 (leAt q.bytes 0 2), f8 q.build, f4 (leAt q.bytes 1028 4)
        , f2 (z.model.cells.filter fun x => x.2.typ == typ).length])) s

/-! ## Assignment, records and learned values (R180, R185, R191 to R194) -/

/-- Give a cell another type; its model goes, and a cell without a type has none. -/
def Cell.retype (c : Cell) (typ sensor : Nat) : Cell :=
  if c.typ = typ then { c with sensor := sensor }
  else if typ = 0 then { sensor := sensor }
  else { c with typ := typ, sensor := sensor, x := [], cov := [], oldSet := none, outRec := {} }
/-- MODEL.ASSIGN: a type given to a cell that had none starts its model as R184 says; another type takes R185 (log
entry 40). -/
def assignDo (p : Nat) (types sensors : List Nat) (s : State) : Answer :=
  checked s
    [ (decide (p < 128) && types.length == 18 && sensors.length == 18 && types.all (fun x => decide (x ≤ 255))
        && sensors.all (fun x => decide (x ≤ 5) || x == 255), stInvalidArg)
    , ((match s.laneOfPort p with | none => true | some n => !laneArmed (s.lane n).state), stLaneArmed) ]
    (ok
      (let changed := (List.range 18).filter fun c =>
         (s.cell (cellIx p c)).typ != types.getD c 0 && (s.cell (cellIx p c)).typ != 0 && types.getD c 0 != 0
       let s1 := (List.range 18).foldl (fun z c =>
         z.updCell (cellIx p c) fun y => y.retype (types.getD c 0) (sensors.getD c 255)) s
       let s2 := (changed.filter fun c => (s1.cell (cellIx p c)).started)
       (s1.rough p s2 false).joinCells p))
/-- MODEL.ASSIGN (R185, R202). -/
def execModelAssign (src : Source) (port : Nat) (types sensors : List Nat) (s : State) : Host.Outcome State Fault Refusal :=
  runCommand src 0x0C03 (assignDo port types sensors) s

/-- A flag's bit. -/
def bitIf (k : Nat) (b : Bool) : Nat := if b then 2 ^ k else 0
/-- The 64 bytes of an output record (R180). -/
def CellOut.bytes (o : CellOut) : List Byte :=
  let u (n : Nat) (v : Option Nat) : List Byte := leBytes n (v.getD (2 ^ (8 * n) - 1))
  let i (n : Nat) (v : Option Int) : List Byte := leBytes n (ofSigned (8 * n) (v.getD (-((2 ^ (8 * n - 1) : Nat) : Int))))
  leBytes 2 (bitIf 9 o.noParam + bitIf 8 o.diverged + bitIf 7 o.tempLost + bitIf 6 o.misaligned + bitIf 5 o.coast
    + bitIf 4 o.rough + bitIf 3 o.hostHeld + bitIf 2 o.capProvisional + bitIf 1 o.slack + bitIf 0 o.valid)
  ++ leBytes 2 0 ++ leBytes 2 (ofSigned 16 o.innovation) ++ u 2 o.vPred ++ leBytes 2 o.rho ++ u 2 o.platingSd
  ++ i 2 o.plating ++ u 2 o.coreTempSd ++ i 2 o.coreTemp ++ u 2 o.socSd ++ u 2 o.soc ++ u 2 o.resistanceSd
  ++ i 4 o.iSd ++ u 4 o.resistance ++ u 4 o.capacitySd ++ u 4 o.energySd ++ i 8 o.capacity ++ i 8 o.energy
  ++ leBytes 8 o.tag
/-- MODEL.CELL_READ (R180, R202). -/
def execModelCellRead (src : Source) (port first count : Nat) (s : State) : Host.Outcome State Fault Refusal :=
  runCommand src 0x0C04 (fun z => checked z
    [(decide (port < 128) && decide (first < 18) && within 1 18 count && decide (first + count ≤ 18), stInvalidArg)]
    (okWith z ((List.range count).map fun k => .struct (z.cellRecord port (first + k)).bytes))) s

/-- The least of some values. -/
def leastInt : List Int → Option Int
  | [] => none
  | a :: r => some (r.foldl min a)
/-- The mean of some values, rounded. -/
def meanInt (l : List Int) : Option Int := if l.isEmpty then none else some (roundA ((l.sum : Rat) / l.length))
/-- The cell-model limit of a lane in one direction, mA (06 R183). -/
def State.modelLimit (s : State) (n : Nat) (charge : Bool) : Option Int :=
  let l := s.lane n
  (portLimit s.now s.limitWindow (if charge then l.limChgPort else l.limDisPort)
    (s.portsOf n)).map fun v => (v : Int)
/-- The ten model signals of a lane (06 R182), with their types: the values over the cells that hold an estimate, the counts
over all modelled cells. -/
def State.modelSignals (s : State) (n : Nat) : List (Nat × Option Int) :=
  let all := (s.portsOf n).flatMap fun p => (s.modelled p).map fun c => (s.cell (cellIx p c)).outRec
  let outs := all.filter fun o => o.valid
  let soc := outs.filterMap fun o => o.soc.map fun v => (v : Int)
  let energy := outs.filterMap fun o => o.energy
  let count (f : CellOut → Bool) : Option Int := some ((all.filter f).length : Int)
  [ (3, leastInt soc), (3, (leastInt (soc.map fun v => -v)).map fun v => -v), (3, meanInt soc)
  , (6, if energy.isEmpty then none else some energy.sum), (2, leastInt (outs.filterMap fun o => o.plating))
  , (2, (leastInt ((outs.filterMap fun o => o.coreTemp).map fun v => -v)).map fun v => -v)
  , (4, s.modelLimit n true), (4, s.modelLimit n false), (3, count (·.rough)), (3, count (·.coast)) ]
/-- MODEL.STATUS (R202). -/
def execModelStatus (src : Source) (lane : Nat) (s : State) : Host.Outcome State Fault Refusal :=
  runCommand src 0x0C05 (fun z => checked z [(decide (lane < 8), stInvalidArg)]
    (let g := z.modelSignals lane
     let v (k : Nat) : Option Int := (g.getD k (3, none)).2
     okWith z
      [ .u 2 ((v 0).getD 65535).toNat, .u 2 ((v 1).getD 65535).toNat, .u 2 ((v 2).getD 65535).toNat, fi8 (v 3), fi2 (v 4)
      , fi2 (v 5), fi4 (v 6), fi4 (v 7), f8 ((v 8).getD 0).toNat, f8 ((v 9).getD 0).toNat, fb (z.lane lane).limitsStale
      , fb (!z.model.native), fb z.store.commit.isSome, fb z.store.deferred, f8 z.store.lastCommitEnd
      , fb (z.power.state == .slack) ])) s

/-- MODEL.LEARN_SET: the mode at once, the interval from the next commit (R191, R202). Its fields are kept as a persistent
setting, since cells start in the mode set at every start (DEDUCED, log entry 158). -/
def execModelLearnSet (src : Source) (native : Bool) (hours : Nat) (s : State) : Host.Outcome State Fault Refusal :=
  runCommand src 0x0C06 (fun z => (checked z [(within 1 24 hours, stInvalidArg)]
    (ok { z with model := { z.model with native := native, nextIntervalH := some hours } })).persisted 0x0C06 0
      (.modelLearnSet src native hours)) s

/-- MODEL.LEARNED_READ (R192). -/
def execModelLearnedRead (src : Source) (port : Nat) (s : State) : Host.Outcome State Fault Refusal :=
  runCommand src 0x0C07 (fun z => checked z [(decide (port < 128), stInvalidArg)]
    (okWith z [.struct (blockBytes (z.serialOf port) (z.learnedOfPort port))])) s

/-- Values written to a cell wait for its next step (R194). -/
def State.writeLearned (s : State) (p c : Nat) (l : Learned) : State :=
  s.updCell (cellIx p c) fun y => { y with newLearned := some l }
/-- MODEL.LEARNED_WRITE. -/
def learnedWriteDo (p : Nat) (b : List Byte) (s : State) : Answer :=
  checked s
    [ (decide (p < 128) && b.length == 588, stInvalidArg)
    , ((match (s.port p).hello with | none => false | some h => h.serial == leAt b 0 8), stSerialMismatch)
    , (leAt b 584 4 == crc32 (b.take 584), stParamCheck) ]
    (ok (((s.modelled p).foldl (fun z c => z.writeLearned p c (learnedOf (slice b (8 + 32 * c) 32))) s).requestCommit true))
/-- MODEL.LEARNED_WRITE (R194). -/
def execModelLearnedWrite (src : Source) (port : Nat) (bytes : List Byte) (s : State) : Host.Outcome State Fault Refusal :=
  runCommand src 0x0C08 (learnedWriteDo port bytes) s

/-- MODEL.COMMIT (R193). -/
def execModelCommit (src : Source) (s : State) : Host.Outcome State Fault Refusal :=
  runCommand src 0x0C09 (fun z => checked z [(z.model.native, stNotNative)] (ok (z.requestCommit true))) s

/-- The port a target lies on, and the cells of it that it names. -/
def State.roughTarget (s : State) : PortOrCell → Nat × List Nat
  | .port p => (p, s.modelled p)
  | .cell _ p k => (p, (s.modelled p).filter (· == k))
/-- The target is in range, and a cell's lane is the one its port is assigned to (00 R12). -/
def State.roughTargetOk (s : State) : PortOrCell → Bool
  | .port p => decide (p < 128)
  | .cell n p k => decide (n < 8 ∧ p < 128 ∧ k < 18) && s.laneOfPort p == some n
/-- MODEL.ROUGH (R185): a port, or one of its cells. -/
def execModelRoughCommand (src : Source) (target : PortOrCell) (keep : Bool) (s : State) :
    Host.Outcome State Fault Refusal :=
  runCommand src 0x0C0A (fun z =>
    checked z
      [(z.roughTargetOk target, stInvalidArg), (!(z.roughTarget target).2.isEmpty, stNotPresent)]
      (ok (z.rough (z.roughTarget target).1 (z.roughTarget target).2 keep))) s

/-- MODEL.POWER_SET (R196). -/
def execModelPowerSet (src : Source) (on : Bool) (s : State) : Host.Outcome State Fault Refusal :=
  runCommand src 0x0C0B (fun z =>
    let z1 := { z with model := { z.model with slackEnabled := on } }
    ok (if on then z1 else z1.slackExit)) s

/-- MODEL.COUNTERS_READ (R202). -/
def execModelCountersRead (src : Source) (port : Nat) (clear : Bool) (s : State) : Host.Outcome State Fault Refusal :=
  runCommand src 0x0C0C (fun z => checked z [(decide (port < 128), stInvalidArg)]
    (let k := z.modelCount port
     { ok (if clear then z.setModelCount port {} else z) with
       payload := [f8 k.skipped, f8 k.rejected, f8 k.numeric, f8 k.diverged, f8 k.reanchors, f8 k.coasts, f8 k.roughs] })) s

/-! ## A step of a port's cells (R167, R172 to R177, R183) -/

/-- The port's accepted frame of an instant. -/
def Port.frameAt (p : Port) (tag : Nat) : Option PortSample := p.ring.find? fun f => f.tag == tag && !f.marker
/-- The ambient temperature of a cell, K: its sensor, or the mean of the port's present sensors with a reading (R167). -/
def State.tamb (s : State) (p sensor : Nat) : Option Rat :=
  match (s.port p).ring.find? fun f => !f.marker with
  | none => none
  | some f =>
    let val (i : Nat) : Option Rat :=
      let t := f.temps.getD i (-32768)
      if (s.port p).limits.temps.testBit i && t != -32768 then some (((t : Rat) + 27315) / 100) else none
    if sensor = 255 then
      (match (List.range 6).filterMap val with | [] => none | l => some (meanQ l))
    else val sensor
/-- The mean string current over a cell's span, A: the change in the coulomb counter, or the mean of the STROBE samples
while the counter is STOPPED or INCOMPLETE (R197). -/
def State.spanCurrent (s : State) (n : Nat) (c : Cell) (dt : Rat) : Rat :=
  let v := s.icv n
  let l := s.lane n
  if v.quality != .stopped && !v.incomplete then ((v.acc - c.accAt : Int) : Rat) / 1000000000 / dt
  else if c.cntAt < l.strobeCnt then
    ((l.strobeSum - c.sumAt : Int) : Rat) / ((l.strobeCnt - c.cntAt : Nat) : Rat) / 1000
  else (l.iString : Rat) / 1000
/-- The string term of a step's current, A (R167, R175, R197, R201): from one base instant to the next the mean of their two
currents, the one before standing in where a sample is missing, as the lane's integrator counts it (R177). -/
def State.stringTerm (s : State) (n tag : Nat) (c : Cell) (dt : Rat) : Rat :=
  let v := s.icv n
  if c.zeroSpan then 0
  else if s.power.state != .slack && c.tagAt == prevBase s.baseB tag then
    (match v.lastI with
    | none => s.spanCurrent n c dt
    | some b => if v.lastTag = tag then ((v.beforeI.getD b + b : Int) : Rat) / 2000 else (b : Rat) / 1000)
  else s.spanCurrent n c dt
/-- The state of a cell's balancing switch for its model (R167, R188, 08 R240): that of the instant's frame, and for 2 s after
the last accepted frame the one reported there. -/
def State.switchB (s : State) (p c : Nat) (f : Option PortSample) : Rat :=
  let x := s.port p
  let closed := match f with
    | some g => g.balance.testBit c
    | none => decide (s.now < x.lastAcceptAt + 2000000000) && x.lastBalance.testBit c
  if (s.cell (cellIx p c)).holdB || closed then 1 else 0
/-- The cell's voltage at an instant, V; none without a reading. -/
def cellVolt (f : Option PortSample) (c : Nat) : Option Rat :=
  match f with
  | none => none
  | some g => let v := g.volts.getD c 65535; if v = 65535 then none else some ((v : Rat) / 10000)
/-- Apply the pending coulomb correction (R177). -/
def Cell.correct (c : Cell) (q : ParamSet) : Cell :=
  if c.x.isEmpty then { c with pendingDelta := 0 }
  else
    let d := c.pendingDelta / 1000000000
    let k := c.learned.cap q
    { c with
      x := fp ((c.x.set 0 (clampQ 0 1 (xs c.x 0 - d * q.dn / k))).set 3 (clampQ 0 1 (xs c.x 3 + d * q.dp / k)))
      pendingDelta := 0, qPart := c.qPart + d, qPrevWin := c.qPrevWin + d }
/-- The cell's slot is the instant's (R172, R197). -/
def inSlot (c inst : Nat) : Bool := inst % 100 == c * 100 / 18
/-- The filter update of a cell: accepted, rejected or NUMERIC (R174, R176). What it computes of ν, σV and PLATING_SD is that
of the latest update, whether or not it is accepted (R180, R181, R183); isd is learned while no estimate with kept or reset
values is being gathered (R185). -/
def Cell.update (c : Cell) (q : ParamSet) (i v : Rat) (tag : Nat) : Cell × Nat × Nat :=
  let u := filterUpdate q c.learned c.x c.cov i v
  let limit : Rat := if c.afterCoast then 100 else 25
  let c0 := { c with
    updAt := some tag, afterCoast := false, reanchorAt := none, sigmaV := Config.fp32 (Config.fsqrt u.pyy)
    platingSd := Config.fp32 u.platingSd
    outRec := { c.outRec with innovation := clampI (-32768) 32767 (roundA (u.nu * 10000)) } }
  if limit < u.nis then ({ c0 with rejectRun := c.rejectRun + 1 }, 1, 0)
  else match u.s with
    | none => (c0, 0, 1)
    | some sf =>
      let sd := Config.fsqrt ((covOf sf).getD 0 [] |> fun r => xs r 0) / q.dn
      ({ c0 with
        x := u.x, cov := sf, rejectRun := 0
        learned := if c.estActive then c.learned else { c.learned with iSd := some (xs u.x 13) }
        outRec := { c0.outRec with
          tag := tag, coast := false, diverged := false, rough := c0.outRec.rough && decide (q.f 292 < sd) } }, 0, 0)
/-- What a port's step counts. -/
structure StepCount where
  skipped : Nat := 0
  rejected : Nat := 0
  numeric : Nat := 0
  coasts : Nat := 0
/-- A cell whose step is made: correction, step, coasting, update when `slot` says so, output and limits (R173, R188). -/
def State.stepModel (s : State) (n p c tag : Nat) (slot : Bool) (q : ParamSet) (k : Cell) : Cell × StepCount :=
  let l := s.lane n
  let f := (s.port p).frameAt tag
  let dt : Rat := ((tag - k.tagAt : Nat) : Rat) / 65536 * 1000000 / s.tide.freqUhz
  let v := cellVolt f c
  let tamb := s.tamb p k.sensor
  let str := s.stringTerm n tag k dt
  let bal : Rat := s.switchB p c f * v.getD (vHat q k.learned.r k.x (str + xs k.x 13)) / q.f 152 + xs k.x 13
  let i := str + bal
  let k1 : Cell := if k.tagAt < tag then { k with
      x := stepStates q k.learned k.x i dt tamb, cov := stepCov q k.learned k.x k.cov i dt tamb, tagAt := tag
      accAt := (s.icv n).acc, sumAt := l.strobeSum, cntAt := l.strobeCnt, afterCoast := k.afterCoast || k.zeroSpan
      zeroSpan := false, qPart := k.qPart + i * dt
      qWin := if tag % 65536 = 0 then 0 else k.qWin + i * dt
      qPrevWin := if tag % 65536 = 0 then k.qWin + i * dt else k.qPrevWin }
    else k
  let bad := match f with | none => false | some g => g.volts.getD c 65535 == 65535
  let k2 := if bad then k1.coasts else k1
  let mis := match f with | none => false | some g => g.misaligned
  let k3 := { k2 with
    sigmaV := if k2.outRec.coast then Config.fp32 (Config.fsqrt (filterUpdate q k2.learned k2.x k2.cov i 0).pyy) else k2.sigmaV
    outRec := { k2.outRec with
      tempLost := tamb.isNone, misaligned := match f with | none => k2.outRec.misaligned | some g => g.misaligned } }
  let now := (s.currentAt n tag).map fun a => (a : Rat) / 1000 + bal
  let r : Cell × StepCount :=
    if !slot then (k3, {})
    else match v, now, mis with
      | some vk, some ik, false => let u := k3.update q ik vk tag; (u.1, { rejected := u.2.1, numeric := u.2.2 })
      | _, _, _ => ({ k3 with reanchorAt := none }, { skipped := 1 })
  let lim := cellLimits q r.1.learned r.1.x r.1.sigmaV r.1.platingSd
    (match l.cfg with | none => 0 | some g => (g.iChgMax : Rat) / 1000)
  let k4 := { r.1 with limChg := lim.1, limDis := lim.2 }
  ({ k4 with outRec :=
      outputOf q k4 i (slot || s.therm.die.state != .enforce) (s.power.state == .slack) s.model.native },
    { r.2 with coasts := if bad && !k1.outRec.coast then 1 else 0 })
/-- Step one cell to an instant. A set loaded and values written since its latest step are taken first (R179, R194); a cell
without an estimate has none to step, and the step over a beached span waits for its port to run or to fail (R201). -/
def State.stepCell (s : State) (n p c tag : Nat) (slot : Bool) : State :=
  let k0 := s.cell (cellIx p c)
  match s.params k0.typ with
  | none => s
  | some q =>
    let k := ((k0.takeSet q).takeWritten q).correct q
    if k.x.isEmpty || (k.zeroSpan && ((s.port p).state == .train || (s.port p).state == .sleep)) then s.setCell (cellIx p c) k
    else
      let r := s.stepModel n p c tag slot q k
      (s.setCell (cellIx p c) r.1).updModelCount p fun m => { m with
        skipped := (m.skipped + r.2.skipped) % 2 ^ 64, rejected := (m.rejected + r.2.rejected) % 2 ^ 64
        numeric := (m.numeric + r.2.numeric) % 2 ^ 64, coasts := (m.coasts + r.2.coasts) % 2 ^ 64 }
/-- The cell takes an update at this instant: its place in a re-anchoring run, else its slot (R172, R189, R197). -/
def State.updatesNow (s : State) (p c : Nat) : Bool :=
  let k := s.cell (cellIx p c)
  let inst := if s.power.state == .slack then s.model.lastSlack else s.model.lastBase
  match k.reanchorAt with
  | some a => decide (a ≤ (s.port p).acceptedSinceRun)
  | none => inSlot c inst && !((s.modelled p).any fun d => (s.cell (cellIx p d)).reanchorAt.isSome)
/-- The port minimum of the limits of all modelled cells, mA, published to spindle C (R183); a cell that has made no step yet
has the limits of its record's reset, 0. -/
def State.publishLimits (s : State) (n p : Nat) : State :=
  let cs := s.modelled p
  let least (f : Cell → Rat) : Option Nat :=
    (leastInt (cs.map fun c => ((f (s.cell (cellIx p c))) * 1000).floor)).map Int.toNat
  match least (·.limChg), least (·.limDis) with
  | some a, some b =>
    let s1 := s.updLane n fun l => { l with
      limChgPort := tset l.limChgPort p (some (a, s.now)), limDisPort := tset l.limDisPort p (some (b, s.now)) }
    let stale := (s1.portsOf n).any fun r => match tget none (s1.lane n).limChgPort r with
      | none => true | some (_, t) => decide (t + s1.limitWindow < s1.now)
    s1.updLane n fun l => { l with limitsStale := l.limitsStale && stale }
  | _, _ => s
/-- A model engine's work at an instant (R173): every cell in FULL, in SLACK the cell whose slot it is (R197), and every cell
where step 3 of R198 waits for it. -/
def State.stepPort (s : State) (n p : Nat) : State :=
  let slack := s.power.state == .slack && !(s.power.beach.any fun b => b.stepFrom.isSome)
  let tag := s.model.lastTag
  ((s.modelled p).foldl (fun z c =>
    let up := z.updatesNow p c
    if slack && !up then z else z.stepCell n p c tag up) s).publishLimits n p

/-! ## Estimates and staleness (R176, R183, R186, R187) -/

/-- MODEL_DIVERGED (R176). -/
def execModelDiverged (t port cell : Nat) (s : State) : Host.Outcome State Fault Refusal :=
  wheneverOn (decide (port < 128) && decide (cell < 18)) s t (fun z => decide (10 ≤ (z.cell (cellIx port cell)).rejectRun))
    (fun z =>
      let n := (z.laneOfPort port).getD 0
      let z1 := z.updCell (cellIx port cell) fun k => { k with rejectRun := 0, outRec := { k.outRec with diverged := true } }
      let z2 := z1.updModelCount port fun k => { k with diverged := inc64 k.diverged }
      (z2.event evModelDiverged 3 (n * 2 ^ 24 + port * 2 ^ 16 + cell)).rough port [cell] true)

/-- MODEL_LIMITS_STALE (R183). -/
def execModelLimitsStale (t port : Nat) (s : State) : Host.Outcome State Fault Refusal :=
  wheneverOn (decide (port < 128)) s t
    (fun z => match z.laneOfPort port with
      | none => false
      | some n => z.tablesRun && (match tget none (z.lane n).limChgPort port with
        | none => true | some (_, a) => decide (a + z.limitWindow < z.now)))
    (fun z => match z.laneOfPort port with
      | none => z | some n => z.updLane n fun l => { l with limitsStale := true })

/-- The open-circuit estimate of a cell (R186). Without an ambient temperature the spec names none to solve at: a free
value (log entry 29). -/
def State.openEstimate (s : State) (p c : Nat) (q : ParamSet) : State :=
  let k := s.cell (cellIx p c)
  let n := (s.laneOfPort p).getD 0
  let l := s.lane n
  let i : Rat := (k.estCurrents.sum : Rat) / k.estCurrents.length
  let big := decide ((l.rated : Rat) ≤ |i| * 200)
  let v0 : Rat := (k.estVolts.sum : Rat) / k.estVolts.length / 10000
  let v := if big then v0 + i / 1000 * k.learned.r * (q.f 108 + q.f 92 + q.f 100) else v0
  let tamb := s.tamb p k.sensor
  let t := tamb.getD (Config.freeNat s.fresh : Rat)
  let soc := solveSoc (fun x => ocvAt q x t) v
  let rough := k.estRough || big
  { s.setCell (cellIx p c) { k with
      x := openState q k.learned soc t, cov := openCov q (k.estWiden || big), estActive := false, estVolts := []
      estCurrents := [], tagAt := s.model.lastTag, accAt := (s.icv n).acc, sumAt := l.strobeSum, cntAt := l.strobeCnt
      pendingDelta := 0, zeroSpan := false, oldSet := none, outRec := { k.outRec with rough := rough } } with
    fresh := if tamb.isNone then s.fresh + 1 else s.fresh }
/-- OPEN_CIRCUIT_ESTIMATE (R186). -/
def execOpenCircuitEstimate (t port cell : Nat) (s : State) : Host.Outcome State Fault Refusal :=
  wheneverOn (decide (port < 128) && decide (cell < 18)) s t
    (fun z =>
      let k := z.cell (cellIx port cell)
      z.tablesRun && k.estActive && k.estVolts.length == 16 && (z.params k.typ).isSome)
    (fun z => match z.params (z.cell (cellIx port cell)).typ with | none => z | some q => z.openEstimate port cell q)

/-- LANE_REST (R187). -/
def execLaneRest (t lane : Nat) (s : State) : Host.Outcome State Fault Refusal :=
  wheneverOn (decide (lane < 8)) s t
    (fun z => !(z.lane lane).rested && elapsedO (z.lane lane).restSince (1800 * 10 ^ 9) z.now)
    (fun z =>
      let z1 := z.updLane lane fun l => { l with rested := true }
      (z1.portsOf lane).foldl (fun y p => (y.modelled p).foldl (fun x c =>
        x.updCell (cellIx p c) fun k => if k.outRec.rough then k.startEstimate false false else k) y) z1)

/-! ## Commits and slack water (R193, R196) -/

/-- COMMIT_INTERVAL (R193). -/
def execCommitInterval (t : Nat) (s : State) : Host.Outcome State Fault Refusal :=
  whenever s t
    (fun z => z.model.native && z.tablesRun && z.store.commit.isNone && z.storeStage != .keyEventsOnly
      && elapsed z.store.lastCommitEnd (z.model.intervalH * 3600 * 10 ^ 9) z.now)
    (fun z => z.requestCommit false)

/-- No sounding, spring tide, arming or disarming is in progress (R196). -/
def State.quiet (s : State) : Bool :=
  (List.range 8).all fun n =>
    (s.laneSound n).steps.all (fun a => a.phase == .ended) && (s.spring n).phase == .idle
    && (s.lane n).state != .arming && (s.lane n).state != .disarming
/-- SLACK_ENTER (R196), in the cycle from which the SLACK instants run. -/
def execSlackEnter (t : Nat) (s : State) : Host.Outcome State Fault Refusal :=
  whenever s t
    (fun z => z.power.state == .full && z.model.slackEnabled && z.quiet && z.sec.debug != .invasive
      && z.sec.lifecycle != .parted && z.power.beach.isNone
      && (List.range 8).all (fun n => (z.lane n).cfg.isNone || elapsedO (z.lane n).lowSince (60 * 10 ^ 9) z.now)
      && cycleOf (z.pos + 32) % (if z.baseB = 17 then 6 else 5) == 0)
    (fun z => ({ z with power := { z.power with state := .slack } }.event evSlackEnter 0 0).placeEntries)

/-- SLACK_EXIT (R196): three samples at or above 0.5 % of RATED_CURRENT. -/
def execSlackExit (t : Nat) (s : State) : Host.Outcome State Fault Refusal :=
  whenever s t
    (fun z => z.power.state == .slack
      && (List.range 8).any fun n => (z.lane n).cfg.isSome && decide (3 ≤ (z.lane n).highRun))
    (fun z => z.slackExit)

end Sys2Proof.Machine
end

