-- ==== Sys2Proof/Machine/Sound.lean ====
section
/-! DEFINITION. Sounding steps, their captures, fits and sets, and spring tides (07). -/

namespace Sys2Proof.Machine

open Sys2Proof

/-! ## Scheduling (R203 to R206, R231) -/

/-- The span of a step in base instants: its capture window, or the step alone (R205, R212). -/
def stepSpan (b : Nat) (start length : Nat) (capture : Bool) : Nat × Nat :=
  let i := (baseIndex b start).getD 0
  if capture then (i - 20, i + 2 * length) else (i, i + length)
/-- Two spans overlap. -/
def spansMeet (x y : Nat × Nat) : Bool := decide (x.1 < y.2) && decide (y.1 < x.2)
/-- The step overlaps another of the lane (R205). -/
def State.stepOverlaps (s : State) (n : Nat) (r : SoundReq) : Bool :=
  (s.laneSound n).steps.any fun a => a.phase != .ended
    && spansMeet (stepSpan s.baseB r.start r.length r.capture) (stepSpan s.baseB a.start a.length a.capture)
/-- STEP_MA and LENGTH of R203. -/
def stepRange (rated : Nat) (r : SoundReq) : Bool :=
  (r.length == 10 || r.length == 100 || r.length == 1000)
  && decide ((rated : Int) ≤ |r.stepMa| * 100) && decide (|r.stepMa| * 20 ≤ (rated : Int))
/-- Drop the ended steps of sets that are closed. -/
def LaneSound.tidy (x : LaneSound) : LaneSound :=
  { x with steps := x.steps.filter fun a => a.phase != .ended || x.openSets.any fun o => o.set_ == a.set_ }
/-- A slot that no step kept has. -/
def LaneSound.freeSlot (x : LaneSound) : Nat :=
  ((List.range (x.steps.length + 1)).find? fun k => x.steps.all fun a => a.slot != k).getD 0
/-- A step joins its set: the first step of a set is the one of the earliest START (R218). -/
def LaneSound.joinSet (x : LaneSound) (set_ start : Nat) : LaneSound :=
  { x with
    openSets := if x.openSets.any fun o => o.set_ == set_ then
        x.openSets.map fun o => if o.set_ == set_ && o.t0.isNone && decide (start < o.start) then { o with start := start } else o
      else x.openSets ++ [{ set_ := set_, start := start }] }
/-- SOUND.SCHEDULE. -/
def scheduleDo (r : SoundReq) (s : State) : Answer :=
  let n := r.lane
  checked s
    [ (decide (n < 8) && decide (r.set_ < 2 ^ 32) && decide (r.step < 65536) && decide (r.start < 2 ^ 64)
        && roleKind r.partnerRole == 2 && decide (r.partnerEpoch < 65536), stInvalidArg)
    , (s.soundBlocked n != some stNotHelm, stNotHelm)
    , (s.soundBlocked n != some stNotRun, stNotRun)
    , ((s.soundBlocked n).isNone, stSpringActive)
    , ((baseIndex s.baseB r.start).isSome, stNotBase)
    , (decide (s.pos + 10 * 65536 ≤ r.start), stTooLate)
    , (!s.stepOverlaps n r, stBusy)
    , (s.tideSettled, stTideUnsettled)
    , (stepRange (s.lane n).rated r, stStepRange)
    , ((s.freeEntry s.usedEntries).isSome, stBusy) ]
    (match s.freeEntry s.usedEntries with
    | none => refuse s stBusy
    | some e =>
      let y := (s.laneSound n).tidy
      let a : SoundStep :=
        { slot := y.freeSlot, set_ := r.set_, step := r.step, last := r.last, start := r.start, stepMa := r.stepMa, stepW := s.stepWatts n r.stepMa
          length := r.length, capture := r.capture, partnerRole := r.partnerRole, partnerEpoch := r.partnerEpoch, entry := e }
      let s1 := s.slackExit
      let s2 := s1.writeEntry e { position := r.start, kind := 4, arg0 := n, arg1 := a.slot }
      let s3 := s2.setLaneSound n { y.joinSet r.set_ r.start with steps := y.steps ++ [a] }
      ok (s3.sendSound n a 1 0))
/-- SOUND.SCHEDULE (R205, R231). -/
def execSoundSchedule (src : Source) (r : SoundReq) (s : State) : Host.Outcome State Fault Refusal :=
  runCommand src 0x0D01 (scheduleDo r) s

/-- SOUND.CANCEL (R209): one step, or all steps of the set. -/
def execSoundCancel (src : Source) (lane set_ : Nat) (step : Option Nat) (s : State) : Host.Outcome State Fault Refusal :=
  runCommand src 0x0D02 (fun z => checked z [(decide (lane < 8), stInvalidArg)]
    (ok (z.endSteps lane ocCancelled fun a => a.set_ == set_ && (match step with | none => true | some k => a.step == k)))) s

/-- The code of a step's state, in the order 07 names them (log entry 36). -/
def stepCode : StepPhase → Nat
  | .scheduled => 0 | .enabled => 1 | .running => 2 | .capturing => 3 | .fitting => 4 | .ended => 5
/-- SOUND.STATUS (R231). -/
def execSoundStatus (src : Source) (lane : Nat) (s : State) : Host.Outcome State Fault Refusal :=
  runCommand src 0x0D03 (fun z => checked z [(decide (lane < 8), stInvalidArg)]
    (let x := z.laneSound lane
     okWith z ([f2 x.steps.length]
       ++ x.steps.flatMap (fun a => [f4 a.set_, f2 a.step, f1 (stepCode a.phase), f1 a.outcome])
       ++ [f2 x.openSets.length] ++ x.openSets.map fun o => f4 o.set_))) s

/-- The 16 bytes of a result record (R217). -/
def soundBytes (r : SoundResult) : List Byte :=
  leBytes 2 (bitIf 2 r.kappaFit + bitIf 1 r.used + bitIf 0 r.accepted) ++ leBytes 2 r.step ++ leBytes 4 r.set_
  ++ leBytes 1 r.reject ++ leBytes 1 r.cell ++ leBytes 2 (r.kappaObs.getD 65535) ++ leBytes 2 (r.residual.getD 65535)
  ++ leBytes 2 (r.rhoObs.getD 65535)
/-- The record of a cell that no fit has been made for. -/
def noResult (set_ step c : Nat) : SoundResult :=
  { rhoObs := none, residual := none, kappaObs := none, cell := c, reject := 0, set_ := set_, step := step
    kappaFit := false, used := false, accepted := false }
/-- SOUND.RESULT_READ (R217, R231). -/
def execSoundResultRead (src : Source) (lane set_ step port : Nat) (s : State) : Host.Outcome State Fault Refusal :=
  runCommand src 0x0D04 (fun z =>
    let x := z.laneSound lane
    let run := x.runs.find? fun r => r.set_ == set_ && r.step == step && r.port == port
    checked z
      [ (decide (lane < 8) && decide (port < 128), stInvalidArg)
      , (run.isSome, stNotFound) ]
      (match run with
      | none => ok z
      | some r =>
        let recs := (tget [] x.results port).filter fun k => k.set_ == set_ && k.step == step
        okWith z ((List.range 18).map (fun c =>
            .struct (soundBytes ((recs.find? fun k => k.cell == c).getD (noResult set_ step c))))
          ++ [fi4 (r.mean.map roundA), fi4 (r.iRef.map roundA)]))) s

/-! ## The exchange and the step (R206, R208, R211) -/

/-- Angle 0 of a cycle, as the clock comes to it. -/
def State.atAngle0 (s : State) : Bool := decide ((s.pos + 1) % 65536 ≤ 1)
/-- SOUND_READY_SEND (R206): at angle 0 of a cycle up to N - 3, READY goes out once, while the conditions of R205 still hold. -/
def execSoundReadySend (t lane : Nat) (s : State) : Host.Outcome State Fault Refusal :=
  let due (z : State) (a : SoundStep) : Bool :=
    let c := cycleOf (z.pos + 1)
    a.phase == .scheduled && decide (c + 3 ≤ cycleOf a.start) && a.readyCycle != some c
  wheneverOn (decide (lane < 8)) s t
    (fun z => z.atAngle0 && (z.laneSound lane).steps.any (due z) && (z.soundBlocked lane).isNone && z.tideSettled)
    (fun z => ((z.laneSound lane).steps.filter (due z)).foldl (fun y a =>
      let w := y.stepWatts lane a.stepMa
      (y.updStep lane a.slot fun x => { x with stepW := w, readyCycle := some (cycleOf (z.pos + 1)) }).sendSound lane
        { a with stepW := w } 1 0) z)

/-- Every port of the lane is asked to open its balancing switches (R211). -/
def State.openBalancing (s : State) (n : Nat) : State :=
  (s.portsOf n).foldl (fun z p => (z.dropTest p).sendBalance p true) s
/-- The decision on a step at angle 0 of cycle N - 2 (R206). -/
def State.decideStep (s : State) (n : Nat) (a : SoundStep) : State :=
  let sum := |a.stepW + a.partnerW| * 10
  if !a.readyOk then s.abandonStep n a (if a.readyDiff then ocMismatch else ocNoPartner)
  else if max |a.stepW| |a.partnerW| < sum then s.abandonStep n a ocUnbalanced
  else if (s.soundBlocked n).isSome || !s.tideSettled || a.partnerSource != s.tide.source then s.abandonStep n a ocTideUnsettled
  else
    let s1 := s.writeEntry a.entry { s.entry a.entry with enable := true }
    let s2 := s1.updStep n a.slot fun x => { x with phase := .enabled }
    if a.capture then (s2.captureOn n).openBalancing n else s2
/-- SOUND_DECISION (R206). -/
def execSoundDecision (t lane : Nat) (s : State) : Host.Outcome State Fault Refusal :=
  let due (z : State) (a : SoundStep) : Bool := a.phase == .scheduled && decide (cycleOf a.start ≤ cycleOf (z.pos + 1) + 2)
  wheneverOn (decide (lane < 8)) s t (fun z => (z.laneSound lane).steps.any (due z))
    (fun z => ((z.laneSound lane).steps.filter (due z)).foldl (fun y a => y.decideStep lane a) z)

/-- SOUNDING_STEP (R203, R208): the step is applied from this alignment instant and ACTIVE is sent; its entry is freed. -/
def execSoundingStep (t entry : Nat) (s : State) : Host.Outcome State Fault Refusal :=
  firing entry 4 s t fun z a =>
    let n := a.content.arg0
    match (z.laneSound n).steps.find? fun x => x.entry == entry && x.phase == .enabled with
    | none => z
    | some x =>
      let z1 := (z.updStep n x.slot fun y => { y with phase := .running, t0 := a.t0, entry := 0 }).updLaneSound n fun y => { y with
        openSets := y.openSets.map fun o => if o.set_ == x.set_ && o.start == x.start then { o with t0 := some a.t0 } else o }
      (z1.freeEntryAt entry).sendSound n { x with t0 := a.t0 } 2 0

/-- SOUND_ALONE (R208). -/
def execSoundAlone (t lane : Nat) (s : State) : Host.Outcome State Fault Refusal :=
  let due (z : State) (a : SoundStep) : Bool :=
    a.phase == .running && !a.activeSeen && !a.endAtAlign && decide (a.t0 + 2000000 ≤ z.now)
  wheneverOn (decide (lane < 8)) s t (fun z => (z.laneSound lane).steps.any (due z))
    (fun z => ((z.laneSound lane).steps.filter (due z)).foldl (fun y a =>
      (y.updStep lane a.slot fun x => { x with endAtAlign := true, outcome := ocAlone, endedEarly := true }).sendSound
        lane a 3 ocAlone) z)

/-- The position lies at or past a base instant so many base intervals after START. -/
def State.pastStart (s : State) (a : SoundStep) (k : Nat) : Bool :=
  decide (basePos s.baseB ((baseIndex s.baseB a.start).getD 0 + k) ≤ s.pos + 1)
/-- SOUND_STEP_LEAVE (R203): the step leaves; a captured step goes on capturing (R212). -/
def execSoundStepLeave (t lane : Nat) (s : State) : Host.Outcome State Fault Refusal :=
  let due (z : State) (a : SoundStep) : Bool := a.phase == .running && !a.endAtAlign && z.pastStart a a.length
  wheneverOn (decide (lane < 8)) s t (fun z => (z.laneSound lane).steps.any (due z))
    (fun z => ((z.laneSound lane).steps.filter (due z)).foldl (fun y a =>
      if a.capture then y.updStep lane a.slot fun x => { x with phase := .capturing }
      else y.stepEnded lane a ocComplete) z)

/-- CAPTURE_END (R212): the capture entries are disabled. -/
def execCaptureEnd (t lane : Nat) (s : State) : Host.Outcome State Fault Refusal :=
  let due (z : State) (a : SoundStep) : Bool := a.phase == .capturing && z.pastStart a (2 * a.length)
  wheneverOn (decide (lane < 8)) s t (fun z => (z.laneSound lane).steps.any (due z))
    (fun z => ((z.laneSound lane).steps.filter (due z)).foldl (fun y a =>
      let y1 := (y.updStep lane a.slot fun x => { x with phase := .fitting }).captureOff lane
      (y1.portsOf lane).foldl (fun w p => w.sendBalance p) y1) z)

/-! ## The fit (R214 to R217) -/

/-- What the replay gives at one capture instant. -/
structure FitPoint where
  tag : Nat
  ok : Bool
  v : Rat
  i : Rat
  u : Rat
  w : Rat
  k : Rat
  tc : Rat
  soc : Rat
/-- The replay of the cell's model over the capture, oldest first (R214): `x` and `tag` are the state stepped to. -/
def replay (q : ParamSet) (l : Learned) (freq c : Nat) (tamb : Option Rat) (x : List Rat) (tag : Nat) (last : Rat) :
    List CapSample → List FitPoint
  | [] => []
  | f :: r =>
    let i : Rat := match f.current with | none => last | some a => (a : Rat) / 1000
    let ic := i + xs x 13
    let dt : Rat := ((f.tag - tag : Nat) : Rat) / 65536 * 1000000 / freq
    let y := if tag < f.tag then stepStates q l x ic dt tamb else x
    let va := (xs y 8 + xs y 9) / l.r
    let w := q.rser (xs y 10) * ic + va
    let v := f.volts.getD c 65535
    { tag := f.tag, ok := v != 65535, v := (v : Rat) / 10000, i := i * 1000, u := vHat q l.r y ic + l.r * w, w := w
      k := thermalV (xs y 10) * Config.fasinh (ic / (2 * q.i0 (xs y 10))), tc := xs y 10, soc := socOf q y }
    :: replay q l freq c tamb y (max tag f.tag) i r
/-- The outcome of a cell's fit before its rejections. -/
structure FitOut where
  rho : Rat
  r2 : Rat
  kappa : Option Rat
  fit : Fit
  soc : Rat
  tc0 : Rat
  tcSpan : Rat
/-- The sums of R214 and R215 over a replay. -/
def fitOf (a : SoundStep) (ix : Nat) (pts : List FitPoint) : FitOut :=
  let before := (pts.filter fun p => decide (p.tag < a.start)).reverse.take 40 |>.filter (·.ok)
  let after := pts.filter fun p => decide (a.start ≤ p.tag) && p.ok
  let m (f : FitPoint → Rat) : Rat := meanQ (before.map f)
  let dw := after.map fun p => ((p.v - m (·.v)) - (p.u - m (·.u)), p.w - m (·.w), p.k - m (·.k))
  let dd := (dw.map fun x => x.2.1 ^ 2).sum
  let mm := -(dw.map fun x => x.1 * x.2.1).sum
  let rho := mm / dd
  let res := dw.map fun x => x.1 + rho * x.2.1
  let kfit := a.length == 10 && decide (a.stepMa < 0) && !dw.isEmpty
  let kd := (dw.map fun x => x.2.2 ^ 2).sum
  let km := -(List.zipWith (fun x (e : Rat) => e * x.2.2) dw res).sum
  let t := pts.map (·.tc)
  let first := (pts.filter fun p => decide (a.start ≤ p.tag)).head?
  { rho := rho, r2 := meanQ (res.map (· ^ 2)), kappa := if kfit then some (1 + km / kd) else none
    fit := { set_ := a.set_, step := a.step, index := ix, rhoD := dd, rhoM := mm, kapD := if kfit then kd else 0
             kapM := if kfit then km else 0, kapFit := kfit, sumRes := (res.map (· ^ 2)).sum, count := res.length
             tc := meanQ t }
    soc := match first with | none => 0 | some p => p.soc, tc0 := match first with | none => 0 | some p => p.tc
    tcSpan := match t with | [] => 0 | x :: r => r.foldl max x - r.foldl min x }
/-- The first rejection that applies, 0 for none (R216). -/
def rejectOf (a : SoundStep) (q : ParamSet) (o : FitOut) (short missed misaligned balancing roughed : Bool) : Nat :=
  let rhoOut (v : Rat) : Bool := decide (v < 1 / 2) || decide (4 < v)
  if a.clipped then 1 else if a.disturbed then 2 else if short then 3 else if a.endedEarly then 4
  else if missed then 5 else if misaligned then 6 else if balancing then 7
  else if decide (o.soc < 1 / 10) || decide (9 / 10 < o.soc) then 8
  else if decide (o.tc0 < 27315 / 100) || decide (31815 / 100 < o.tc0) || decide (2 < o.tcSpan) then 9
  else if decide (9 * q.f 228 < o.r2) then 10
  else if rhoOut o.rho || (match o.kappa with | none => false | some k => rhoOut k) then 11
  else if roughed then 12 else 0
/-- Three consecutive frames of the port are missing: it entered STALL (R216, 03 R98). -/
def threeMissed : List CapSample → Bool
  | a :: b :: c :: r => (a.volts.isEmpty && b.volts.isEmpty && c.volts.isEmpty) || threeMissed (b :: c :: r)
  | _ => false
/-- The fit of one cell: its result record and, when accepted, its share of the set (R214 to R217). The currents leave out the
instants that the cell's sums leave out. -/
def State.fitCell (s : State) (p c : Nat) (a : SoundStep) : SoundResult × Option Fit :=
  let ix := cellIx p c
  let k := s.cell ix
  let l := a.capOf p
  match s.params k.typ with
  | none => (noResult a.set_ a.step c, none)
  | some q =>
    let first := match l with | [] => 0 | f :: _ => f.tag
    let o := fitOf a ix (replay q k.learned s.tide.freqUhz c (s.tamb p k.sensor) (tget [] a.capX ix) first 0 l)
    let total := 4 * (20 + 2 * a.length)
    let got := (l.filter fun f => !f.volts.isEmpty).length
    let short := stepShort a (stepCurrents s.baseB a (fun f => f.volts.getD c 65535 != 65535) l)
    let missed := decide (total < (total - got) * 100) || threeMissed l || a.stalled.contains p
    let code := rejectOf a q o short missed (l.any (·.misaligned)) (l.any fun f => f.balance.testBit c)
      (k.noLearnSets.contains a.set_)
    let uq (v : Rat) : Nat := (clampI 0 65534 (roundA (v * 4096))).toNat
    ( { rhoObs := if o.fit.count = 0 then none else some (uq o.rho)
        residual := if o.fit.count = 0 then none else some (clampI 0 65534 (roundA (Config.fsqrt o.r2 * 1000000))).toNat
        kappaObs := o.kappa.map uq, cell := c, reject := code, set_ := a.set_, step := a.step, kappaFit := o.fit.kapFit
        used := false, accepted := code == 0 }
    , if code = 0 then some o.fit else none )
/-- The fits of every port of a capture; the results of earlier closed sets are released (R217, R231). -/
def State.fitStep (s : State) (n : Nat) (a : SoundStep) : State :=
  let x := s.laneSound n
  let keep (set_ : Nat) : Bool := set_ == a.set_ || x.openSets.any fun o => o.set_ == set_
  let outs := (s.portsOf n).map fun p => (p, (s.modelled p).map fun c => s.fitCell p c a)
  let results := outs.foldl (fun t y => tset t y.1 ((tget [] t y.1).filter (fun r => keep r.set_) ++ y.2.map Prod.fst)) x.results
  let fits := outs.flatMap fun y => y.2.filterMap Prod.snd
  (s.setLaneSound n { x with
    results := results, fits := x.fits ++ fits
    runs := (x.runs.filter fun r => keep r.set_) ++ (s.portsOf n).map (a.run s.baseB) }).stepEnded n a ocComplete

/-! ## Learning from a set (R218, R219) -/

/-- Days since a clock time. -/
def daysSince (now at_ : Nat) : Rat := ((now - at_ : Nat) : Rat) / (86400 * 10 ^ 9 : Nat)
/-- A learned value and its deviation after an observation of it with a variance (R219, R227): without a deviation the
prior is infinite. -/
def learnValue (old : Rat) (sd : Option Rat) (drift obs var : Rat) : Rat × Rat :=
  match sd with
  | none => (obs, Config.fsqrt var)
  | some d =>
    let prior := d ^ 2 + drift
    let g := prior / (prior + var)
    (old + g * (obs - old), Config.fsqrt ((1 - g) * prior))
/-- A cell learns from its accepted fits. -/
def learnFits (q : ParamSet) (l : Learned) (fs : List Fit) (now : Nat) : Learned :=
  let sum (f : Fit → Rat) : Rat := (fs.map f).sum
  let days := daysSince now l.learnedAt
  let rp := sum (·.sumRes) / sum (fun f => (f.count : Rat))
  let d := sum (·.rhoD)
  let noise := max rp (q.f 228)
  let r := learnValue l.r l.rhoSd (4 / 1000000 * days) (sum (·.rhoM) / d) (noise / d)
  let l1 := { l with rho := some r.1, rhoSd := some r.2, learnedAt := now }
  let ks := fs.filter (·.kapFit)
  if ks.isEmpty then l1
  else
    let kd := (ks.map (·.kapD)).sum
    let kap := 1 + (ks.map (·.kapM)).sum / kd
    let tc := meanQ (ks.map (·.tc))
    let eta := thermalV tc * Config.fasinh (q.f 168 / (2 * q.i0n tc))
    let p := learnValue (l.pl q) l.plOffsetSd (4 / 100000000 * days) (q.f 296 + (kap - 1) * eta) (eta ^ 2 * (noise / kd))
    { l1 with plOffset := some p.1, plOffsetSd := some p.2 }
/-- A set completes: the cells learn from its accepted fits, which are marked USED, its buffers are released, and a commit
is asked for (R218, 06 R193). -/
def State.closeSet (s : State) (n set_ : Nat) : State :=
  let x := s.laneSound n
  let fs := x.fits.filter fun f => f.set_ == set_
  let s1 := (s.portsOf n).foldl (fun z p => (z.modelled p).foldl (fun y c =>
    let mine := fs.filter fun f => f.index == cellIx p c
    let k := y.cell (cellIx p c)
    let k1 := { k with noLearnSets := k.noLearnSets.filter fun o => o != set_ }
    match y.params k.typ, mine with
    | some q, _ :: _ => if k.noLearnSets.contains set_ then y.setCell (cellIx p c) k1
        else y.setCell (cellIx p c) { k1 with learned := learnFits q k.learned mine y.now }
    | _, _ => y.setCell (cellIx p c) k1) z) s
  let used (p : Nat) (r : SoundResult) : SoundResult :=
    if r.set_ == set_ && r.accepted && !(s.cell (cellIx p r.cell)).noLearnSets.contains set_ then { r with used := true } else r
  ((s1.updLaneSound n fun y => { y with
      fits := y.fits.filter fun f => f.set_ != set_, openSets := y.openSets.filter fun o => o.set_ != set_
      steps := y.steps.map fun a => if a.set_ == set_ then { a with caps := [], capX := [] } else a
      results := y.results.map fun (t : Nat × List SoundResult) => (t.1, t.2.map (used t.1)) }).event evSoundSetComplete 1 n
        (v0 := some (set_ : Int))).requestCommit true
/-- The open sets of a lane whose LAST step has ended. -/
def LaneSound.complete (x : LaneSound) : List Nat :=
  (x.openSets.map (·.set_)).filter fun k => x.steps.any fun a => a.set_ == k && a.last && a.phase == .ended
/-- SOUND_FIT (R214, R218): the fit of a capture that has ended, and the completion of a set whose LAST step has ended. -/
def execSoundFit (t lane : Nat) (s : State) : Host.Outcome State Fault Refusal :=
  wheneverOn (decide (lane < 8)) s t
    (fun z => ((z.laneSound lane).steps.any fun a => a.phase == .fitting) || !(z.laneSound lane).complete.isEmpty)
    (fun z =>
      let z1 := ((z.laneSound lane).steps.filter fun a => a.phase == .fitting).foldl (fun y a => y.fitStep lane a) z
      (z1.laneSound lane).complete.foldl (fun y k => y.closeSet lane k) z1)
/-- SOUND_SET_CLOSE (R218). -/
def execSoundSetClose (t lane : Nat) (s : State) : Host.Outcome State Fault Refusal :=
  let due (z : State) : List Nat := ((z.laneSound lane).openSets.filter fun o => decide (o.t0.getD (z.tide.timeOf o.start) + 3600 * 10 ^ 9 ≤ z.now)).map (·.set_)
  wheneverOn (decide (lane < 8)) s t (fun z => !(due z).isEmpty) (fun z => (due z).foldl (fun y k => y.closeSet lane k) z)

/-! ## Spring tides (R220 to R227) -/

/-- The command comes from the holder of COORDINATOR, sent from that role at its current epoch, or over the service port
(R220). -/
def State.fromCoordinator (s : State) (src : Source) : Bool :=
  match src.path with
  | .service => true
  | .garzet => src.role == 0x50000000 && (match s.holderOf 0x50000000 with
    | none => false | some (b, e) => b == src.box && e == src.epoch)
  | .pcie => false
/-- 1 % to 100 % of RATED_CURRENT (R231). -/
def springCurrent (rated : Nat) (i : Int) : Bool := decide ((rated : Int) ≤ i * 100) && decide (i ≤ (rated : Int))
/-- A capture is scheduled or running on the lane (R220). -/
def LaneSound.capturePending (x : LaneSound) : Bool :=
  x.steps.any fun a => a.capture && (a.phase == .scheduled || a.capturePending)
/-- SPRING.START. -/
def springStartDo (src : Source) (n : Nat) (iChg iDis : Int) (cvGain maxHours : Nat) (s : State) : Answer :=
  let r := (s.lane n).rated
  checked s
    [ (decide (n < 8) && within 1 10000 cvGain && within 4 72 maxHours
        && ((s.lane n).cfg.isNone || (springCurrent r iChg && springCurrent r iDis)), stInvalidArg)
    , (s.fromCoordinator src, stNotCoordinator)
    , (s.soundBlocked n != some stNotHelm, stNotHelm)
    , (s.soundBlocked n != some stNotRun, stNotRun)
    , ((s.soundBlocked n).isNone && !(s.laneSound n).capturePending, stBusy) ]
    (let s1 := s.slackExit
     let s2 := s1.updSpring n fun p => { p with
       phase := .charge, iChg := iChg, iDis := iDis, cvGain := cvGain, maxHours := maxHours, startedAt := s1.now
       phaseAt := s1.now, iK := iChg, margin := none, taperSince := none, lowSince := none, gathering := false, outcome := 0
       failCause := 0, counterOk := true }
     ok ((s2.portsOf n).foldl (fun z p => (z.modelled p).foldl (fun y c => y.updCell (cellIx p c) fun k =>
       { k with
         sFull := none, sEmpty := none, fullOk := false, qPart := 0, qWin := 0, qPrevWin := 0, noLearnSpring := false }) z) s2))
/-- SPRING.START (R220, R231). -/
def execSpringStart (src : Source) (lane : Nat) (iChg iDis : Int) (cvGain maxHours : Nat) (s : State) :
    Host.Outcome State Fault Refusal :=
  runCommand src 0x0E01 (springStartDo src lane iChg iDis cvGain maxHours) s
/-- SPRING.STOP (R223). -/
def execSpringStop (src : Source) (lane : Nat) (s : State) : Host.Outcome State Fault Refusal :=
  runCommand src 0x0E02 (fun z => checked z [(decide (lane < 8), stInvalidArg)] (ok (z.springFail lane scStopped))) s

/-- The code of a spring phase, in the order of R221 after IDLE (log entry 36). -/
def springCode : SpringPhase → Nat
  | .idle => 0 | .charge => 1 | .top => 2 | .discharge => 3 | .bottom => 4 | .return_ => 5
/-- An endpoint SOC in UQ1.15, 0xFFFF for none. -/
def socField (v : Option (Rat × Rat × Rat)) : Field :=
  f2 (match v with | none => 65535 | some (x, _) => (clampI 0 65534 (roundA (x * 32768))).toNat)
/-- SPRING.STATUS (R231). -/
def execSpringStatus (src : Source) (lane : Nat) (s : State) : Host.Outcome State Fault Refusal :=
  runCommand src 0x0E03 (fun z => checked z [(decide (lane < 8), stInvalidArg)]
    (let p := z.spring lane
     let cells := (z.portsOf lane).flatMap fun q => (z.modelled q).map fun c => z.cell (cellIx q c)
     okWith z ([f1 (springCode p.phase), .s 4 p.iK, f8 (z.statusNow - p.phaseAt), ft p.lastCompleteAt, f1 p.outcome
       , f1 p.failCause, f2 cells.length] ++ cells.flatMap fun k => [socField k.sFull, socField k.sEmpty]))) s

/-- SPRING.ROSTER_SET (R228, R231). -/
def execSpringRosterSet (src : Source) (share interval : Nat) (s : State) : Host.Outcome State Fault Refusal :=
  runCommand src 0x0E04 (fun z => checked z
    [ (within 1 200 share && within 30 730 interval, stInvalidArg), (z.isCoordinator, stNotCoordinator) ]
    (ok { z with sound := { z.sound with roster := { z.sound.roster with share := share, interval := interval } } })) s
/-- A lane is due: its last COMPLETE is older than INTERVAL, and it has not failed within 24 h (R228). -/
def rosterDue (now interval : Nat) (l : RosterLane) : Bool :=
  !l.out && (match l.lastComplete with | none => true | some t => decide (t + interval * 86400 * 10 ^ 9 < now))
  && (match l.lastFailed with | none => true | some t => decide (t + 86400 * 10 ^ 9 ≤ now))
/-- Oldest COMPLETE first, ties to the lower estate string number (R228). -/
def rosterBefore (a b : RosterLane) : Bool :=
  decide (a.lastComplete.getD 0 < b.lastComplete.getD 0)
  || (a.lastComplete.getD 0 == b.lastComplete.getD 0 && decide (a.role ≤ b.role))
/-- The due lanes in the order of their grants. -/
def Roster.due (r : Roster) (now : Nat) : List RosterLane :=
  (r.lanes.filter (rosterDue now r.interval)).mergeSort rosterBefore
/-- SPRING.ROSTER_READ (R228, R231). -/
def execSpringRosterRead (src : Source) (s : State) : Host.Outcome State Fault Refusal :=
  runCommand src 0x0E05 (fun z => checked z [(z.isCoordinator, stNotCoordinator)]
    (let r := z.sound.roster
     let out := r.lanes.filter (·.out)
     let due := r.due z.now
     okWith z ([f2 r.share, f2 r.interval, f2 out.length] ++ out.map (fun l => f4 l.role) ++ [f2 due.length]
       ++ due.map fun l => f4 l.role))) s

/-- The limited command of a lane (05 R154, step 2). -/
def Lane.limitedCommand (l : Lane) : Rat := max (-(l.unit l.limitedChg)) (min (l.command : Rat) (l.unit l.limitedDis))
/-- A phase begins (R221, R222). A run of string currents at or below 0 goes on from DISCHARGE into BOTTOM (R223). -/
def Spring.enter (p : Spring) (ph : SpringPhase) (iK : Int) (now : Nat) : Spring :=
  { p with
    phase := ph, phaseAt := now, iK := iK, margin := none, taperSince := none, gathering := false
    lowSince := if ph == .bottom then p.lowSince else none }
/-- SPRING_PHASE_END (R221). -/
def execSpringPhaseEnd (t lane : Nat) (s : State) : Host.Outcome State Fault Refusal :=
  let met (p : Spring) : Bool := match p.margin with | none => false | some m => decide (m ≤ 10)
  wheneverOn (decide (lane < 8)) s t
    (fun z =>
      let p := z.spring lane
      match p.phase with
      | .charge | .discharge => met p
      | .return_ => decide (p.phaseAt < z.now) && decide ((z.lane lane).ramp = (z.lane lane).limitedCommand)
      | _ => false)
    (fun z => z.updSpring lane fun p =>
      match p.phase with
      | .charge => p.enter .top p.iChg z.now
      | .discharge => p.enter .bottom p.iDis z.now
      | _ => p.enter .idle 0 z.now)

/-- SPRING_TAPER_END (R221): the endpoint's frames are gathered from here. -/
def execSpringTaperEnd (t lane : Nat) (s : State) : Host.Outcome State Fault Refusal :=
  wheneverOn (decide (lane < 8)) s t
    (fun z =>
      let p := z.spring lane
      (p.phase == .top || p.phase == .bottom) && !p.gathering && elapsedO p.taperSince (10 ^ 10) z.now)
    (fun z =>
      let z1 := z.updSpring lane fun p => { p with gathering := true }
      (z1.portsOf lane).foldl (fun y p => (y.modelled p).foldl (fun x c =>
        x.updCell (cellIx p c) fun k => { k with endVolts := [], endCurrents := [], endState := none }) y) z1)

/-- The endpoint SOC of a cell, its deviation and the slope there, with Tc and h as they were at the cell's 16th frame
(R225). -/
def endpointOf (q : ParamSet) (k : Cell) (rated : Nat) : Rat × Rat × Rat :=
  let i : Rat := (k.endCurrents.sum : Rat) / k.endCurrents.length
  let v0 : Rat := (k.endVolts.sum : Rat) / k.endVolts.length / 10000
  let v := if (rated : Rat) ≤ |i| * 200 then v0 + i / 1000 * k.learned.r * (q.f 108 + q.f 92 + q.f 100) else v0
  let e := k.endState.getD (xs k.x 10, xs k.x 12, k.qPart, false)
  let f (x : Rat) : Rat := ocvAt q x e.1 + q.mhyst x * e.2.1
  let soc := solveSoc f v
  let d : Rat := 1 / (2 ^ 24 : Nat)
  let slope := (f (soc + d) - f (soc - d)) / (2 * d)
  (soc, Config.fsqrt (q.f 228) / slope, slope)
/-- Capacity learned from a complete spring tide (R226, R227). -/
def learnCapacity (q : ParamSet) (k : Cell) (full empty : Rat × Rat × Rat) (charge : Rat) (now : Nat) : Cell :=
  let ds := full.1 - empty.1
  let c := charge / ds
  let var := (c ^ 2 * (full.2.1 ^ 2 + empty.2.1 ^ 2) + (charge / 1000) ^ 2) / ds ^ 2
  let drift := (q.f 16 / 2000) ^ 2 * daysSince now k.learned.learnedAt
  let r := learnValue (k.learned.cap q) k.learned.capacitySd drift c var
  let soc := socOf q k.x
  { k with
    learned := { k.learned with capacity := some r.1, capacitySd := some r.2, learnedAt := now }
    outRec := { k.outRec with capProvisional := false } }.atSoc soc q
/-- The cell qualifies at both endpoints (R226). -/
def endpointsOk (k : Cell) (full empty : Rat × Rat × Rat) (clear : Bool) : Bool :=
  decide (9 / 10 ≤ full.1) && decide (empty.1 ≤ 1 / 10) && decide (1 ≤ full.2.2) && decide (1 ≤ empty.2.2)
  && k.fullOk && clear && !k.noLearnSpring
/-- The counter condition of R226. -/
def State.counterGood (s : State) (n : Nat) : Bool :=
  (s.spring n).counterOk && !(s.icv n).incomplete && decide ((s.icv n).windowsCarried * 100 ≤ (s.icv n).windowsSpan)
/-- The FULL endpoint: the cells' charge counts from here, and DISCHARGE begins (R221, R225). -/
def State.fullEndpoint (s : State) (n : Nat) : State :=
  let s1 := (s.portsOf n).foldl (fun z p => (z.modelled p).foldl (fun y c => y.updCell (cellIx p c) fun k =>
    match y.params k.typ with
    | none => k
    | some q => match k.endState with
      | some e => { k with
          sFull := some (endpointOf q k (s.lane n).rated), sEmpty := none, qPart := k.qPart - e.2.2.1, fullOk := e.2.2.2 }
      | none => { k with sFull := none }) z) s
  (s1.updIcv n fun v => { v with windowsSpan := 0, windowsCarried := 0 }).updSpring n fun p =>
    { (p.enter .discharge p.iDis s.now) with counterOk := !(s.icv n).incomplete, fullTag := s.model.lastTag }
/-- The EMPTY endpoint: the cells learn and the spring tide is COMPLETE (R225 to R227). -/
def State.emptyEndpoint (s : State) (n : Nat) : State :=
  let good := s.counterGood n
  let s1 := (s.portsOf n).foldl (fun z p => (z.modelled p).foldl (fun y c => y.updCell (cellIx p c) fun k =>
    match y.params k.typ with
    | none => k
    | some q =>
      match k.endState with
      | none => k
      | some r =>
        let e := endpointOf q k (s.lane n).rated
        let k1 := { k with sEmpty := some e }
        match k.sFull with
        | none => k1
        | some f => if good && endpointsOk k f e r.2.2.2 then
              { (learnCapacity q k1 f e r.2.2.1 s.now) with noLearnSpring := false }
            else { k1 with noLearnSpring := false }) z) s
  ((s1.updSpring n fun p => { (p.enter .return_ 0 s.now) with outcome := 1, lastCompleteAt := some s.now }).event
    evSpringComplete 1 n).requestCommit true
/-- SPRING_ENDPOINT (R225): every modelled cell that can be read has its 16 frames. -/
def execSpringEndpoint (t lane : Nat) (s : State) : Host.Outcome State Fault Refusal :=
  wheneverOn (decide (lane < 8)) s t
    (fun z =>
      let cells := (z.portsOf lane).flatMap fun p => (z.modelled p).map fun c => z.cell (cellIx p c)
      (z.spring lane).gathering && (cells.any fun k => k.endState.isSome)
        && cells.all fun k => k.endState.isSome || k.outRec.coast)
    (fun z => if (z.spring lane).phase == .top then z.fullEndpoint lane else z.emptyEndpoint lane)

/-- SPRING_INTERRUPTED (R223). -/
def execSpringInterrupted (t lane : Nat) (s : State) : Host.Outcome State Fault Refusal :=
  wheneverOn (decide (lane < 8)) s t
    (fun z => ((z.spring lane).phase == .discharge || (z.spring lane).phase == .bottom)
      && elapsedO (z.spring lane).lowSince (60 * 10 ^ 9 + 1) z.now)
    (fun z => z.springFail lane scInterrupted)
/-- SPRING_PORT_LOST (R223): one port of the lane, out of RUN for more than 1 s of the spring tide. -/
def execSpringPortLost (t lane : Nat) (s : State) : Host.Outcome State Fault Refusal :=
  wheneverOn (decide (lane < 8)) s t
    (fun z => (z.spring lane).profile.isSome && (z.portsOf lane).any fun p => (z.port p).state != .run
      && elapsed (max (z.spring lane).startedAt ((z.port p).outSince.getD 0)) (10 ^ 9 + 1) z.now)
    (fun z => z.springFail lane scPortLost)
/-- SPRING_TIMEOUT (R223). -/
def execSpringTimeout (t lane : Nat) (s : State) : Host.Outcome State Fault Refusal :=
  wheneverOn (decide (lane < 8)) s t
    (fun z => (z.spring lane).profile.isSome
      && elapsed (z.spring lane).startedAt ((z.spring lane).maxHours * 3600 * 10 ^ 9) z.now)
    (fun z => z.springFail lane scTimeout)

/-! ## At each base instant (R221, R222) -/

/-- The margin of the lane, mV, over the accepted voltages of one instant (R221). -/
def State.springMargin (s : State) (n tag : Nat) : Option Rat :=
  let top := (s.spring n).phase == .charge || (s.spring n).phase == .top
  let ms := (s.portsOf n).flatMap fun p => (s.modelled p).filterMap fun c =>
    match s.params (s.cell (cellIx p c)).typ, cellVolt ((s.port p).frameAt tag) c with
    | some q, some v => some (if top then (q.f 156 - v) * 1000 else (v - q.f 160) * 1000)
    | _, _ => none
  match ms with | [] => none | a :: r => some (r.foldl min a)
/-- The margin and the taper current of a base instant (R221, R222). -/
def State.springBase (s : State) (n tag : Nat) : State :=
  let p := s.spring n
  if p.profile.isNone then s
  else match s.springMargin n tag with
  | none => s
  | some m =>
    let i0 := if p.phase == .top then p.iChg else p.iDis
    s.setSpring n { p with
      margin := some m
      iK := if p.phase == .top || p.phase == .bottom then min i0 (max 0 (roundA (p.iK + p.cvGain * (m - 5)))) else p.iK }

end Sys2Proof.Machine
end

