-- ==== Sys2Proof/Machine/Change.lean ====
section
/-! DEFINITION. Tide-committed changes on the coordinator and on its members (10 R312 to R318, 11 R343 to R345), and the
coordinator's spring-tide roster (07 R228, R229). -/

namespace Sys2Proof.Machine

open Sys2Proof

/-- The COORDINATOR role (01 R33). -/
abbrev coordinatorRole : Nat := 0x50000000

/-! ## Changes known -/

def State.change (s : State) (id : Nat) : Option Change := s.net.changes.find? fun c => c.id == id
def State.updChange (s : State) (id : Nat) (f : Change → Change) : State :=
  { s with net := { s.net with changes := s.net.changes.map fun (c : Change) => if c.id == id then f c else c } }
/-- Keep a new change as the latest. -/
def State.addChange (s : State) (c : Change) : State :=
  { s with net := { s.net with changes := (c :: s.net.changes.filter fun x => x.id != c.id).take 64 } }
/-- This module is the coordinator of the change. -/
def State.coordinates (s : State) (c : Change) : Bool := s.net.berth == some c.coordBerth
/-- Release the fallback graphs of a change that closes (11 R344). -/
def State.releaseFallback (s : State) (c : Change) : State :=
  if c.kind != 2 then s
  else (s.slotsAsc.filter fun n => (s.slot n).fallback.any fun g => g.id == c.old || g.id == c.new_).foldl
    (fun z n => (z.updSlot n fun x => { x with fallback := none }).trimQueues n) s
/-- Close a change. -/
def State.closeChange (s : State) (id : Nat) (st : ChangeState) : State :=
  match s.change id with
  | none => s
  | some c =>
    let s1 := match c.entry with | none => s | some e => s.freeEntryAt e
    (s1.updChange id fun x => { x with status := st, entry := none }).releaseFallback c

/-! ## Modes in force (10 R312, R313, 11 R343) -/

/-- The slots that run a graph. -/
def State.running (s : State) (id : Nat) : List Nat := s.slotsAsc.filter fun n => (s.slot n).running.any fun g => g.id == id
/-- The slot has a graph staged. -/
def Slot.stages (x : Slot) (id : Nat) : Bool := x.staged.any fun g => g.id == id
/-- A member's answer to PROPOSE, in the order of R313. -/
def State.proposalResult (s : State) (p : Proposal) : Nat :=
  let reserved := !(within 1 2 p.kind) || !(within 1 2 p.policy) || decide (1 < p.conservative)
  let bad := if p.kind = 1 then p.old != s.net.estateMode || decide (255 < p.new_) else (s.running p.old).isEmpty
  if s.net.changes.any fun c => c.status == .open_ && c.id != p.id then 1
  else if p.n < s.pos + 6 * 65536 then 2
  else if s.tide.quality == .coasting || s.tide.quality == .none_ then 4
  else if reserved || bad then 5
  else if p.kind == 2 && (s.running p.old).any fun n => !(s.slot n).stages p.new_ then 3
  else 0
/-- The estate mode takes a value: the local signal ESTATE_MODE follows. -/
def State.setMode (s : State) (v : Nat) : State :=
  ({ s with net := { s.net with estateMode := v } }).signalOf sgEstateMode 0 3 v
/-- Move to NEW; whether the move was made. -/
def State.toNew (s : State) (c : Change) : Bool × State :=
  if c.kind = 1 then (true, s.setMode c.new_)
  else
    let l := (s.running c.old).filter fun n => (s.slot n).stages c.new_
    let moving := l.filter fun n => (s.slot n).state != .stopped
    (!l.isEmpty && moving.length == l.length, (moving.foldl (fun z n => z.updSlot n fun x => { x with switching := true }) s).placeEntries)
/-- Move back to OLD (11 R344). -/
def State.toOld (s : State) (c : Change) : State :=
  if c.kind = 1 then s.setMode c.old
  else (s.slotsAsc.foldl (fun z n =>
    let x := z.slot n
    if x.switching && x.stages c.new_ then z.updSlot n fun y => { y with switching := false }
    else if (x.running.any fun g => g.id == c.new_) && x.fallback.any fun g => g.id == c.old then
      z.updSlot n fun y => { y with staged := y.fallback, fallback := none, switching := true }
    else z) s).placeEntries

/-! ## Messages of a change (10 R312) -/

/-- A member's REPORT reaches the coordinator's record. -/
def State.reportTaken (s : State) (berth : Nat) (m : ReportMsg) : State :=
  s.updChange m.id fun c => { c with members := c.members.map fun (x : ChangeMember) =>
    if x.berth == berth then { x with report := some m.outcome, inForce := m.inForce } else x }
/-- A member reports. -/
def State.sendReport (s : State) (c : Change) (outcome inForce : Nat) : State :=
  let m : ReportMsg := { id := c.id, outcome := outcome, inForce := inForce, at_ := s.pos }
  if s.coordinates c then s.reportTaken s.berthField m
  else s.sendToRole coordinatorRole (.report m) s.moduleRole s.net.moduleEpoch
/-- The mode in force of a change on this member: 0 OLD, 1 NEW. -/
def Change.inForceNow (c : Change) : Nat := if c.applied then 1 else 0
/-- A PROPOSE is answered; an accepted change is held open. -/
def State.memberPropose (s : State) (coord : Nat) (p : Proposal) : Nat × State :=
  let r := s.proposalResult p
  if r = 0 && (s.change p.id).isNone then
    (r, s.addChange { id := p.id, kind := p.kind, policy := p.policy, conservative := p.conservative, n := p.n, old := p.old
                      new_ := p.new_, coordBerth := coord })
  else (r, s)
/-- Write the MODE_CHANGE entry of a change at a position; without an entry the change is not applied. -/
def State.modeEntry (s : State) (c : Change) (p : Nat) : State :=
  let s1 := match c.entry with | none => s | some e => s.freeEntryAt e
  match s1.freeEntry s1.usedEntries with
  | none => s1.updChange c.id fun x => { x with entry := none }
  | some e => (s1.updChange c.id fun x => { x with entry := some e }).writeEntry e { position := p, enable := true, kind := 6, arg0 := c.id }
/-- COMMIT reaches a member (R314, R317). -/
def State.memberCommit (s : State) (id n : Nat) : State :=
  match s.change id with
  | none => s
  | some c =>
    if c.status != .open_ || c.applied then s
    else if cycleOf n ≤ cycleOf s.pos then s.sendReport c 2 0
    else (s.updChange id fun x => { x with decided := true }).modeEntry { c with decided := true } n
/-- ABANDON reaches a member. -/
def State.memberAbandon (s : State) (id : Nat) : State :=
  match s.change id with
  | none => s
  | some c => if c.status == .open_ then s.closeChange id .abandoned else s
/-- FALL_BACK reaches a member (R315, R317). -/
def State.memberFallBack (s : State) (id m : Nat) : State :=
  match s.change id with
  | none => s
  | some c =>
    if c.status != .open_ then s
    else if cycleOf m ≤ cycleOf s.pos then s.sendReport c 2 c.inForceNow
    else (s.updChange id fun x => { x with fellBack := true }).modeEntry { c with fellBack := true } m
/-- The coordinator sends a message of a change to the MODULE role of a member; its own membership is served inside. -/
def State.sendMember (s : State) (b : Nat) (body : GBody) : State :=
  if s.net.berth == some b then
    match body with
    | .propose p =>
      let r := s.memberPropose b p
      r.2.updChange p.id fun c => { c with members := c.members.map fun (x : ChangeMember) =>
        if x.berth == b then { x with answer := some r.1 } else x }
    | .commit id n => s.memberCommit id n
    | .abandon _ _ => s
    | .fallBack id m => s.memberFallBack id m
    | _ => s
  else s.sendToRole (0x10000000 + b) body coordinatorRole (((s.ownRole coordinatorRole).map (·.epoch)).getD 0)

/-! ## Commands (10 R318) -/

/-- ESTATE.CHANGE_PROPOSE (R314). -/
def execEstateChangePropose (src : Source) (p : Proposal) (s : State) : Host.Outcome State Fault Refusal :=
  runCommand src 0x1602 (fun z =>
    checked z
      [ (within 1 2 p.kind && within 1 2 p.policy && decide (p.conservative ≤ 1) && decide (p.id < 2 ^ 32) && p.id != 0
          && p.n % 65536 == 0 && decide (p.n < 2 ^ 64) && decide (p.old < 2 ^ 32) && decide (p.new_ < 2 ^ 32)
          && (p.kind == 2 || (decide (p.old < 256) && decide (p.new_ < 256))) && !p.members.isEmpty
          && p.members.all fun b => decide (b < 4096), stInvalidArg),
        (z.isCoordinator, stNotCoordinator), (!(z.net.changes.any fun c => c.status == .open_), stBusy),
        (decide (z.pos + 8 * 65536 ≤ p.n), stTooLate) ]
      (let c : Change := { id := p.id, kind := p.kind, policy := p.policy, conservative := p.conservative, n := p.n
                           old := p.old, new_ := p.new_, coordBerth := z.berthField
                           members := p.members.map fun b => { berth := b } }
       ok (p.members.foldl (fun y b => y.sendMember b (.propose p)) (z.addChange c)))) s
/-- The code of a change's state, in the order of R318. -/
def changeCode : ChangeState → Nat
  | .open_ => 0 | .complete => 1 | .reverted => 2 | .incomplete => 3 | .abandoned => 4
/-- ESTATE.CHANGE_STATUS. -/
def execEstateChangeStatus (src : Source) (id : Nat) (s : State) : Host.Outcome State Fault Refusal :=
  runCommand src 0x1603 (fun z =>
    match (if id = 0 then z.net.changes.head? else z.change id) with
    | none => refuse z stNotFound
    | some c => okWith z ([f1 (changeCode c.status), f1 c.round, f2 c.members.length] ++ c.members.flatMap fun m =>
        [f2 m.berth, f1 (m.answer.getD 255), f1 (m.report.getD 0), f1 m.inForce])) s
/-- ESTATE.CHANGE_ABANDON. -/
def execEstateChangeAbandon (src : Source) (id : Nat) (s : State) : Host.Outcome State Fault Refusal :=
  runCommand src 0x1604 (fun z =>
    match z.change id with
    | none => if z.isCoordinator then refuse z stNotFound else refuse z stNotCoordinator
    | some c =>
      checked z
        [ (z.isCoordinator, stNotCoordinator), (c.status == .open_, stNotFound),
          (decide (cycleOf z.pos + 2 < cycleOf c.n) && !c.decided, stTooLate) ]
        (ok ((c.members.foldl (fun y m => y.sendMember m.berth (.abandon id 3)) z).closeChange id .abandoned))) s

/-! ## The coordinator's decisions (10 R314, R315) -/

/-- CHANGE_DECISION: angle 0 of cycle N − 2. -/
def execChangeDecision (t id : Nat) (s : State) : Host.Outcome State Fault Refusal :=
  whenever s t (fun z => z.isCoordinator && (z.change id).any fun c =>
      z.coordinates c && c.status == .open_ && !c.decided && decide (cycleOf c.n ≤ cycleOf z.pos + 2)) fun z =>
    match z.change id with
    | none => z
    | some c =>
      if c.members.all fun m => m.answer == some 0 then
        let z1 := z.updChange id fun x => { x with decided := true, roundAt := c.n }
        c.members.foldl (fun y m => y.sendMember m.berth (.commit id c.n)) z1
      else
        let reason := if c.members.any (fun m => m.answer.any (· != 0)) then 1 else 2
        (c.members.foldl (fun y m => y.sendMember m.berth (.abandon id reason)) z).closeChange id .abandoned
/-- The change stays split. -/
def State.leftSplit (s : State) (id : Nat) : State := (s.closeChange id .incomplete).event evChangeSplit 0 0 (v0 := some (id : Int))
/-- Another round for some members, at the present cycle + 4. -/
def State.nextRound (s : State) (c : Change) (l : List ChangeMember) (fall : Bool) : State :=
  let p := (cycleOf s.pos + 4) * 65536
  let s1 := s.updChange c.id fun x => { x with
    round := c.round + 1, roundAt := p, fellBack := x.fellBack || fall
    members := x.members.map fun (m : ChangeMember) => if !fall && l.any (fun y => y.berth == m.berth) then { m with report := none } else m }
  l.foldl (fun y m => y.sendMember m.berth (if fall then .fallBack c.id p else .commit c.id p)) s1
/-- CHANGE_ROUND: the judgement at angle 0 two cycles after the latest position named (R315). -/
def execChangeRound (t id : Nat) (s : State) : Host.Outcome State Fault Refusal :=
  whenever s t (fun z => z.isCoordinator && (z.change id).any fun c =>
      z.coordinates c && c.status == .open_ && c.decided && decide (cycleOf c.roundAt + 2 ≤ cycleOf z.pos)) fun z =>
    match z.change id with
    | none => z
    | some c =>
      if c.fellBack then
        let l := c.members.filter fun m => m.inForce != c.conservative
        if l.isEmpty then z.closeChange id (if c.conservative = 0 then .reverted else .complete)
        else if c.round < 8 then z.nextRound c l true
        else z.leftSplit id
      else
        let l := c.members.filter fun m => m.report != some 1
        if l.isEmpty then z.closeChange id .complete
        else if c.policy = 2 then z.nextRound c c.members true
        else if c.round < 8 then z.nextRound c l false
        else z.leftSplit id

/-! ## A member's part (10 R314 to R316) -/

/-- A MODE_CHANGE entry fires for a change. -/
def State.changeFires (s : State) (c : Change) (e : Nat) : State :=
  let s1 := (s.freeEntryAt e).updChange c.id fun x => { x with entry := none }
  if !c.fellBack then
    let r := s1.toNew c
    if r.1 then
      ((r.2.updChange c.id fun x => { x with applied := true }).event evChangeApplied 0 0 (v0 := some (c.id : Int)) (v1 := some 1)).sendReport
        c 1 1
    else r.2.sendReport c 2 0
  else if c.inForceNow = c.conservative then s1
  else if c.conservative = 0 then
    let s2 := (s1.toOld c).updChange c.id fun x => { x with applied := false }
    (s2.event evChangeApplied 0 0 (v0 := some (c.id : Int)) (v1 := some 0)).sendReport c 3 0
  else
    let r := s1.toNew c
    if r.1 then
      ((r.2.updChange c.id fun x => { x with applied := true }).event evChangeApplied 0 0 (v0 := some (c.id : Int)) (v1 := some 1)).sendReport
        c 1 1
    else r.2.sendReport c 2 0
/-- A member that has fallen back closes the change; the coordinator closes it by its judgement (log entry 59). -/
def State.fallenBack (s : State) (c : Change) : State :=
  if c.fellBack && !s.coordinates c && (s.change c.id).any (fun x => x.inForceNow == c.conservative) then
    s.closeChange c.id (if c.conservative = 0 then .reverted else .complete)
  else s
/-- MODE_CHANGE: the firing of a change's entry, or of GRAPH.ACTIVATE (R314, R315; 11 R343, R344). -/
def execModeChange (t entry : Nat) (s : State) : Host.Outcome State Fault Refusal :=
  firing entry 6 s t fun z a =>
    match z.net.changes.find? fun c => c.entry == some entry with
    | some c => (z.changeFires c entry).fallenBack c
    | none =>
      match z.slotsAsc.find? fun n => (z.slot n).activateAt == some (a.pos, entry) with
      | none => z
      | some n =>
        let z1 := (z.freeEntryAt entry).updSlot n fun x => { x with
          activateAt := none, switching := x.state != .stopped && x.staged.isSome }
        z1.placeEntries
/-- CHANGE_LAGGING: cycle N begins without a COMMIT, or the entry has expired (R314). -/
def execChangeLagging (t id : Nat) (s : State) : Host.Outcome State Fault Refusal :=
  whenever s t (fun z => (z.change id).any fun c => c.status == .open_ && !c.applied && !c.fellBack
      && decide (cycleOf c.n ≤ cycleOf z.pos)
      && (match c.entry with | none => !c.decided && !z.coordinates c | some e => (z.entry e).expired)) fun z =>
    match z.change id with
    | none => z
    | some c =>
      let z1 := match c.entry with | none => z | some e => z.freeEntryAt e
      (z1.updChange id fun x => { x with entry := none, decided := true }).sendReport c 2 0
/-- CHANGE_MEMBER_CLOSE: 64 cycles after N (R316; log entry 59). -/
def execChangeMemberClose (t id : Nat) (s : State) : Host.Outcome State Fault Refusal :=
  whenever s t (fun z => (z.change id).any fun c =>
      c.status == .open_ && !(z.coordinates c && z.isCoordinator) && decide (cycleOf c.n + 64 ≤ cycleOf z.pos)) fun z =>
    z.closeChange id (if (z.change id).any (·.applied) then .complete else .abandoned)

/-! ## Taking the coordinator's place (10 R316, 07 R229) -/

/-- An open change that the members report, carried on or abandoned with MISSING. -/
def State.resumeChange (s : State) (x : Proposal × List ReportMsg) : State :=
  let p := x.1
  let old := s.change p.id
  let ms : List ChangeMember := (List.range p.members.length).map fun i =>
    let r := x.2[i]?
    { berth := p.members.getD i 0, answer := some 0
      report := r.bind fun y => if y.outcome = 0 then none else some y.outcome, inForce := (r.map (·.inForce)).getD 0 }
  let base : Change := old.getD {}
  let committed := base.decided || ms.any fun m => m.report.isSome || m.inForce == 1
  let c : Change := { base with
    id := p.id, kind := p.kind, policy := p.policy, conservative := p.conservative, n := p.n, old := p.old, new_ := p.new_
    members := ms, status := .open_, coordBerth := s.berthField, decided := committed, roundAt := max base.roundAt p.n }
  let s1 := s.addChange c
  if !committed && decide (cycleOf p.n ≤ cycleOf s.pos + 2) then
    (ms.foldl (fun y m => y.sendMember m.berth (.abandon p.id 2)) s1).closeChange p.id .abandoned
  else s1
/-- COORDINATOR_TAKEOVER: 10 s after taking the role, what its members and the LANE holders answer is taken up. -/
def execCoordinatorTakeover (t : Nat) (roster : List RosterLane) (reports : List (Proposal × List ReportMsg)) (s : State) :
    Host.Outcome State Fault Refusal :=
  whenever s t (fun z => z.isCoordinator && elapsedO z.net.takeoverAt (10 * 10 ^ 9) z.now) fun z =>
    let z1 := { z with
      net := { z.net with takeoverAt := none }
      sound := { z.sound with roster := { z.sound.roster with lanes := roster, ready := true } } }
    reports.foldl (fun y x => y.resumeChange x) z1
/-- LANE roles held ACTIVE in the estate. -/
def State.lanesHeld (s : State) : Nat :=
  (s.knownRoles.filter fun r => roleKind r == 2 && (s.holderOf r).isSome).length
/-- Grants that are free now (07 R228). -/
def State.grantsFree (s : State) : Nat :=
  let r := s.sound.roster
  max 1 (r.share * s.lanesHeld / 1000) - (r.lanes.filter (·.out)).length
/-- A grant: SPRING.START to the lane's holder, with currents that the spec leaves open (log entry 62). -/
def State.grant (s : State) (l : RosterLane) : State :=
  let s1 := { s with
    fresh := s.fresh + 2
    sound := { s.sound with roster := { s.sound.roster with
      lanes := s.sound.roster.lanes.map fun (x : RosterLane) => if x.role == l.role then { x with out := true } else x } } }
  s1.sendRequest coordinatorRole l.role 0x0E01 1000000
    (layOut [f1 255, f4 (Config.freeNat s.fresh % 2 ^ 32), f4 (Config.freeNat (s.fresh + 1) % 2 ^ 32), f2 100, f1 24])
/-- SPRING_GRANT (07 R228): the lanes out are read, and due lanes granted within the share. -/
def execSpringGrant (t : Nat) (s : State) : Host.Outcome State Fault Refusal :=
  whenever s t (fun z => z.isCoordinator && z.sound.roster.ready && !(z.sound.roster.due z.now).isEmpty) fun z =>
    let z1 := (z.sound.roster.lanes.filter (·.out)).foldl (fun y l => y.sendRequest coordinatorRole l.role 0x0E03 1000000 (layOut [f1 255])) z
    ((z.sound.roster.due z.now).take z.grantsFree).foldl (fun y l => y.grant l) z1

end Sys2Proof.Machine
end

