-- ==== Sys2Proof/Machine/Fabric.lean ====
section
/-! DEFINITION. Chapter 13, the queue fabric and DMA: the QUEUE and DMA commands, and what a channel does. -/

namespace Sys2Proof.Machine

open Sys2Proof

/-! ## Queues (R376, R396) -/

/-- The 32 bytes of a context (R381). -/
def Queue.bytes (q : Queue) : List Byte :=
  leBytes 4 q.k ++ leBytes 1 (q.prod * 16 + q.cons) ++ leBytes 1 q.owner ++ leBytes 2 0 ++ leBytes 8 q.base
  ++ leBytes 4 q.threshold ++ leBytes 4 q.fullDrops ++ leBytes 4 q.ci ++ leBytes 4 q.pi
/-- QUEUE.CREATE (R376, R377, R396). -/
def execQueueCreate (src : Source) (q k prod cons thr : Nat) (s : State) : Host.Outcome State Fault Refusal :=
  runCommand src 0x1C01 (fun z => checked z
    [ (within 1024 32767 q && within 3 16 k && within 1 2 prod && within 1 2 cons && decide (thr ≤ 2 ^ k), stInvalidArg)
    , ((z.queue q).k == 0, stQueueInUse), (z.mbox.hostLinked || (prod == 1 && cons == 1), stHostAbsent) ]
    (match z.createQueue q k prod cons thr 0 true with
    | none => refuse z stNoSpace
    | some y => okWith y [f8 (y.queue q).base])) s
/-- A started descriptor names the queue as its completion queue. -/
def State.cqUsed (s : State) (q : Nat) : Bool :=
  (List.range 64).any fun c => let x := s.channel c
    (x.started || x.held.isSome) && (match x.desc with | none => false | some d => d.cq == q)
/-- QUEUE.DESTROY (R396). -/
def execQueueDestroy (src : Source) (q : Nat) (s : State) : Host.Outcome State Fault Refusal :=
  runCommand src 0x1C02 (fun z => checked z
    [ (decide (q < 32768), stInvalidArg), (decide (1024 ≤ q) && (z.queue q).owner == 0, stQueueOwned)
    , ((z.queue q).k != 0, stNotFound), (!z.cqUsed q, stCqInUse) ] (ok (z.destroyQueue q))) s
/-- The queue is the HP target of a controller: its THRESHOLD is held at 1 (15 R435). -/
def State.holdsHp (s : State) (q : Nat) : Bool := [0, 1].any fun k => (s.canCtl k).cfg.any fun c => c.hp == .queue q
/-- QUEUE.THRESHOLD_SET (R380, R396). -/
def execQueueThresholdSet (src : Source) (q thr : Nat) (s : State) : Host.Outcome State Fault Refusal :=
  runCommand src 0x1C03 (fun z => checked z
    [ (decide (q < 32768), stInvalidArg), (decide (1024 ≤ q), stQueueOwned), ((z.queue q).k != 0, stNotFound)
    , (decide (thr ≤ (z.queue q).size), stInvalidArg) ]
    (ok (z.updQueue q fun x => { x with threshold := if z.holdsHp q then 1 else thr }))) s
/-- QUEUE.STATUS (R381, R396). -/
def execQueueStatus (src : Source) (q : Nat) (s : State) : Host.Outcome State Fault Refusal :=
  runCommand src 0x1C04 (fun z => checked z [(decide (q < 32768), stInvalidArg), ((z.queue q).k != 0, stNotFound)]
    (okWith z [.struct (z.queue q).bytes])) s

/-! ## Channel commands (R382, R389, R390, R394, R396) -/

/-- The code of an owner: 0 the system tenant, 1 to 255 a slot, 256 the PCIe host path. -/
def ownerCode : ChanOwner → Nat
  | .system => 0 | .tenant n => n | .pcie => 256
/-- The code of a channel state. -/
def chanCode : ChanState → Nat
  | .idle => 0 | .running => 1 | .parked => 2 | .stopped => 3
/-- A request comes from the path that owns the channel. -/
def Channel.ownedBy (c : Channel) (p : Path) : Bool := c.owner == .pcie && p == .pcie
/-- DMA.CHANNEL_SET (R382, R386, R396). -/
def execDmaChannelSet (src : Source) (ch : Nat) (owner : ChanOwner) (prio : Nat) (win : Option Nat) (s : State) :
    Host.Outcome State Fault Refusal :=
  runCommand src 0x1D01 (fun z => checked z
    [ (within 16 63 ch && decide (prio ≤ 5) && (match owner with | .tenant n => within 1 255 n | _ => true)
        && (match win with | none => true | some w => decide (w < 2 ^ 48)), stInvalidArg)
    , ((z.channel ch).state == .idle || (z.channel ch).state == .stopped, stBusy) ]
    (ok (z.updChannel ch fun c => { c with
      owner := owner, priority := prio, window := win, state := .idle, desc := none, started := false, pendingBell := false }))) s
/-- DMA.START (R389, R396). -/
def execDmaStart (src : Source) (ch addr : Nat) (s : State) : Host.Outcome State Fault Refusal :=
  runCommand src 0x1D02 (fun z => checked z
    [ (decide (ch < 64) && addrOk addr && addr % 32 == 0 && addrSpace addr != 3, stInvalidArg)
    , ((z.channel ch).ownedBy src.path, stNotOwner)
    , ((z.channel ch).state == .idle || (z.channel ch).state == .stopped, stBusy) ]
    (ok (z.updChannel ch fun c => { c with
      state := .running, next := addr, desc := none, started := false, lastGranted := false, abortReq := false
      abortLate := false, rereading := false, pendingBell := false }))) s

/-! ## Chains (R386, R389, R390) -/

/-- The fields of a descriptor. -/
def descOf (addr : Nat) (b : List Byte) : Desc :=
  { addr := addr, end_ := (leAt b 28 4).testBit 31, notify := (leAt b 28 4).testBit 30, user := leAt b 28 1
    cq := leAt b 26 2 % 32768, length := leAt b 20 4, dst := leAt b 12 8, src := leAt b 4 8, nextLo := leAt b 0 4 }
/-- The fields of a descriptor keep their rules (R386, R387); its completion queue has a HARDWARE producer side (R392). -/
def State.descOk (s : State) (b : List Byte) (d : Desc) : Bool :=
  leAt b 28 4 / 256 % 2 ^ 22 == 0 && leAt b 26 2 < 32768 && leAt b 24 2 == 0
  && within 1 0x10000000 d.length && (d.length % 64 == 0 || !(isQueue d.src || isQueue d.dst))
  && addrOk d.dst && addrOk d.src && d.nextLo % 32 == 0 && s.cqOk d.cq
/-- The descriptor stands in host memory. -/
def inHost (addr : Nat) : Bool := addrSpace addr == 2
/-- The address that NEXT_LO names: in the host descriptor window where the channel has one, else in LPDDR5. -/
def Channel.nextAddr (c : Channel) (lo : Nat) : Nat :=
  match c.window with | none => lo | some w => 2 ^ 61 + (w + lo) % 2 ^ 48
/-- The 32 bytes at a descriptor's address. -/
def State.descBytes (s : State) (addr : Nat) (host : List Byte) : List Byte :=
  if inHost addr then fitBytes 32 host
  else if addrSpace addr = 1 then readBytes s.fab.sram (addrOff addr) 32 else s.lpRead (addrOff addr) 32
/-- The end check has read END and NEXT_LO of the current descriptor: the chain goes on, or the channel parks on it. -/
def State.endCheck (s : State) (ch : Nat) (d : Desc) (b : List Byte) : State :=
  s.updChannel ch fun c =>
    let c1 := { c with started := false, lastGranted := false, done_ := 0, left := 0, overrun := 0, rereading := false }
    if (leAt b 28 4).testBit 31 then
      { c1 with state := .parked, desc := some d, next := d.addr }
    else { c1 with state := .running, desc := none, next := c.nextAddr (leAt b 0 4) }
/-- Read the tail again: at once from the module's memories, by a fetch from the host's. -/
def State.reread (s : State) (ch : Nat) : State :=
  let c := s.channel ch
  match c.desc with
  | none => s
  | some d =>
    if inHost d.addr then s.setChannel ch { c with state := .running, rereading := true, pendingBell := false }
    else (s.setChannel ch { c with pendingBell := false }).endCheck ch d (s.descBytes d.addr [])
/-- A doorbell (R390). -/
def State.ringChannel (s : State) (ch : Nat) : State :=
  let c := s.channel ch
  match c.state with
  | .idle | .stopped => s.setChannel ch { c with bellIgnored := inc64 c.bellIgnored }
  | .parked => s.reread ch
  | .running => s.setChannel ch { c with pendingBell := true }
/-- DMA.DOORBELL (R390, R396). -/
def execDmaDoorbell (src : Source) (ch : Nat) (s : State) : Host.Outcome State Fault Refusal :=
  runCommand src 0x1D03 (fun z => checked z
    [(decide (ch < 64), stInvalidArg), ((z.channel ch).ownedBy src.path, stNotOwner)] (ok (z.ringChannel ch))) s
/-- DMA.ABORT (R394, R396). -/
def execDmaAbort (src : Source) (ch : Nat) (s : State) : Host.Outcome State Fault Refusal :=
  runCommand src 0x1D04 (fun z => checked z
    [(decide (ch < 64), stInvalidArg), ((z.channel ch).ownedBy src.path, stNotOwner)]
    (okWith (z.abortChannel ch) [f1 (chanCode (z.channel ch).state)])) s
/-- DMA.STATUS (R396). -/
def execDmaStatus (src : Source) (ch : Nat) (s : State) : Host.Outcome State Fault Refusal :=
  runCommand src 0x1D05 (fun z =>
    let c := z.channel ch
    checked z [(decide (ch < 64), stInvalidArg)]
      (okWith z [f1 (chanCode c.state), f2 (ownerCode c.owner), f1 c.priority, f8 ((c.desc.map (·.addr)).getD c.next)
                , f4 ((c.lastRec.map (·.seq)).getD 0), fb c.pendingBell])) s
/-- DMA.COUNTERS_READ (R396); INDEX_ERROR of a channel's queues is that of its current source and destination. -/
def execDmaCountersRead (src : Source) (ch : Nat) (clear : Bool) (s : State) : Host.Outcome State Fault Refusal :=
  runCommand src 0x1D06 (fun z =>
    let c := z.channel ch
    let ie := match c.desc with
      | none => 0
      | some d => (if isQueue d.src then (z.queue (addrOff d.src)).indexErr else 0)
          + (if isQueue d.dst then (z.queue (addrOff d.dst)).indexErr else 0)
    checked z [(decide (ch < 64), stInvalidArg)]
      (okWith (if clear then z.setChannel ch { c with
          bytes := 0, bursts := 0, overrunBeats := 0, cqWait := 0, bellIgnored := 0, abortIdle := 0, byStatus := [] } else z)
        ([f8 c.bytes, f8 c.bursts, f8 c.overrunBeats, f8 c.cqWait, f8 c.bellIgnored, f8 c.abortIdle]
          ++ (List.range 6).map (fun k => f8 (tget 0 c.byStatus k)) ++ [f8 ie]))) s

/-! ## Rights (R388) -/

/-- A queue that a channel's owner may use. -/
def State.queueRight (s : State) (o : ChanOwner) (q : Nat) : Bool :=
  let x := s.queue q
  x.k != 0 && (match o with
    | .system => true
    | .tenant n => decide (1024 ≤ q) && x.owner == n
    | .pcie => x.created)
/-- The owner may reach `len` bytes at an address, as a source or as a destination. -/
def State.right (s : State) (o : ChanOwner) (a len : Nat) (isSrc : Bool) : Bool :=
  match addrSpace a with
  | 0 => (match o with
      | .system => true
      | .tenant n =>
        let x := s.slot n
        let size := (x.running.map (·.windowBytes)).getD 0
        decide (x.windowBase ≤ addrOff a ∧ addrOff a + len ≤ x.windowBase + size)
      | .pcie => false)
  | 1 => o == .system
  | 2 => o == .system || o == .pcie
  | _ => s.queueRight o (addrOff a) && (if isSrc then (s.queue (addrOff a)).cons == 1 else (s.queue (addrOff a)).prod == 1)

/-! ## Fetching (R386, R389) -/

/-- DESCRIPTOR_FETCH (R386, R388 to R390): a channel that runs without a descriptor takes the next one; one that reads the
tail of its chain again in host memory makes its end check. -/
def execDescriptorFetch (t ch : Nat) (hostBytes : List Byte) (s : State) : Host.Outcome State Fault Refusal :=
  wheneverOn (decide (ch < 64)) s t
    (fun z => let c := z.channel ch
      !z.fab.stopped && c.state == .running && c.held.isNone && (c.desc.isNone || c.rereading))
    (fun z =>
      let c := z.channel ch
      match c.desc with
      | some d =>
        let z1 := z.endCheck ch d (fitBytes 32 hostBytes)
        if (z1.channel ch).state == .parked && (z1.channel ch).pendingBell then z1.reread ch else z1
      | none =>
        let b := z.descBytes c.next hostBytes
        let d := descOf c.next b
        let z1 := z.setChannel ch { c with
          desc := some d, done_ := 0, left := d.length, overrun := 0, started := false, lastGranted := false, beatAt := z.now }
        if !z1.descOk b d then z1.endDescriptor ch d 4
        else if !(z1.right c.owner d.src d.length true && z1.right c.owner d.dst d.length false) then z1.endDescriptor ch d 5
        else z1)

/-! ## Bursts (R383 to R385, R393) -/

/-- Entries a queue side allows now. -/
def State.sideEntries (s : State) (a : Nat) (isSrc : Bool) : Nat :=
  let x := s.queue (addrOff a)
  if isSrc then x.fill else x.size - x.fill
/-- The channel has a burst ready (R383). -/
def State.burstReady (s : State) (ch : Nat) : Bool :=
  let c := s.channel ch
  c.state == .running && c.held.isNone && !c.rereading && !c.lastGranted
  && (match c.desc with
      | none => false
      | some d => (!isQueue d.src || decide (0 < s.sideEntries d.src true))
          && (!isQueue d.dst || decide (0 < s.sideEntries d.dst false)))
/-- Priority of a channel: the system's own channels run at 6 and 7. -/
def Channel.prio (c : Channel) : Nat := c.priority
/-- The channel that the arbitration grants (R383). -/
def State.granted (s : State) : Option Nat :=
  let ready := (List.range 64).filter s.burstReady
  match (ready.map fun c => (s.channel c).prio).max? with
  | none => none
  | some p =>
    let l := ready.filter fun c => (s.channel c).prio == p
    let last := tget 63 s.fab.lastGrant p
    (l.find? fun c => decide (last < c)).orElse fun _ => l.head?
/-- Bytes to the next 4 KiB boundary of a memory address, or whole entries and the ring's wrap of a queue. -/
def State.sideBytes (s : State) (a done_ : Nat) (isSrc : Bool) : Nat :=
  if isQueue a then
    let x := s.queue (addrOff a)
    let i := if isSrc then x.ci else x.pi
    min (64 * min 8 (s.sideEntries a isSrc)) (min (64 * (x.size - i % x.size)) (4096 - x.slotAddr i % 4096))
  else 4096 - (addrOff a + done_) % 4096
/-- Bytes of the next burst (R384); with a queue on either side, whole entries. -/
def State.burstBytes (s : State) (c : Channel) (d : Desc) : Nat :=
  let n := min (min c.left 512) (min (s.sideBytes d.src c.done_ true) (s.sideBytes d.dst c.done_ false))
  if isQueue d.src || isQueue d.dst then max 64 (n / 64 * 64) else n
/-- A memory side lies outside its space. -/
def outsideSpace (a done_ n : Nat) : Bool := !isQueue a && decide (spaceBytes (addrSpace a) < addrOff a + done_ + n)
/-- The offset in space 1 of an SRAM block of 1 KiB of the sample store or of staging, the parts in the order of 01 R24 (log
entry 31). -/
def blockOffset (b : Nat) : Option Nat :=
  if 56832 ≤ b ∧ b < 60928 then some ((b - 56832) * 1024)
  else if 62976 ≤ b ∧ b < 65536 then some ((b - 58880) * 1024)
  else none
/-- Bytes of LPDDR5 from `a` on meet a poisoned page. -/
def State.poisonedLp (s : State) (a n : Nat) : Bool :=
  s.fab.poisoned.any fun p => decide (p * 4096 < a + n ∧ a < p * 4096 + 4096)
/-- What a burst reads is poisoned (01 R26): a page of LPDDR5, also under the ring of a source queue, or an SRAM block. -/
def State.poisonedSource (s : State) (a done_ n : Nat) : Bool :=
  match addrSpace a with
  | 0 => s.poisonedLp (addrOff a + done_) n
  | 1 => (s.fab.poisonedSram.filterMap blockOffset).any fun o =>
      decide (o < addrOff a + done_ + n ∧ addrOff a + done_ < o + 1024)
  | 2 => false
  | _ =>
    let x := s.queue (addrOff a)
    (List.range (n / 64)).any fun i => s.poisonedLp (x.slotAddr (x.ci + i)) 64
/-- Other agents take entries of a source queue while a burst runs. -/
def State.othersTake (s : State) (a k : Nat) : State :=
  if isQueue a then s.updQueue (addrOff a) fun x => { x with ci := (x.ci + min k x.fill) % 2 ^ 32 } else s
/-- Other agents put entries into a destination queue while a burst runs. -/
def State.othersPut (s : State) (a : Nat) (l : List (List Byte)) : State :=
  if isQueue a then l.foldl (fun z e => z.queuePut (addrOff a) e) s else s
/-- Bytes of a burst of `n` that the sides still have: entries of a source, free slots of a destination (R385). -/
def State.sideLeft (s : State) (a n : Nat) (isSrc : Bool) : Nat := if isQueue a then min n (64 * s.sideEntries a isSrc) else n
/-- The bytes that a burst reads, and the state after its source side. -/
def State.takeBurst (s : State) (d : Desc) (done_ n : Nat) (host : List Byte) : List Byte × State :=
  match addrSpace d.src with
  | 0 => (s.lpRead (addrOff d.src + done_) n, s)
  | 1 => (readBytes s.fab.sram (addrOff d.src + done_) n, s)
  | 2 => (fitBytes n host, s)
  | _ =>
    let q := addrOff d.src
    let x := s.queue q
    ((List.range (n / 64)).flatMap fun i => s.lpRead (x.slotAddr (x.ci + i)) 64, s.setQueue q { x with ci := (x.ci + n / 64) % 2 ^ 32 })
/-- Store the bytes of a burst. -/
def State.putBurst (s : State) (d : Desc) (done_ : Nat) (b : List Byte) : State :=
  match addrSpace d.dst with
  | 0 => s.lpWrite (addrOff d.dst + done_) b
  | 1 => { s with fab := { s.fab with sram := writeBytes s.fab.sram (addrOff d.dst + done_) b } }
  | 2 => s.emit (.dmaHost (addrOff d.dst + done_) b)
  | _ =>
    let q := addrOff d.dst
    let x := s.queue q
    let n := b.length / 64
    let s1 := (List.range n).foldl (fun z i => z.lpWrite (x.slotAddr (x.pi + i)) (slice b (64 * i) 64)) s
    (s1.setQueue q { x with pi := (x.pi + n) % 2 ^ 32 }).queueMoved q x.fill
/-- The beats of a burst of `n` bytes that are surplus (R385), a beat being 32 bytes: those of the source that no entry fills, and
those of a queue destination that find no slot for what the source gave. -/
def surplusBeats (n given taken : Nat) : Nat := (n - given) / 32 + (given - taken) / 32
/-- A granted burst of `n` bytes runs. What other agents took from the source, or put into the destination, since it was sized
withdraws part of it (R385): only entries that are there and find a slot move, and a destination that is no queue gets beats of
zero for the rest (DEDUCED, log entry 123). -/
def State.runBurst (s : State) (ch : Nat) (d : Desc) (done_ n : Nat) (host : List Byte) : State :=
  let given := s.sideLeft d.src n true
  let moved := s.sideLeft d.dst given false
  let r := s.takeBurst d done_ moved host
  let b := if isQueue d.dst then r.1 else fitBytes n r.1
  let surplus := surplusBeats n given moved
  (r.2.putBurst d done_ b).updChannel ch fun x => { x with
    done_ := done_ + moved, left := x.left - moved, bytes := (x.bytes + moved) % 2 ^ 64, bursts := inc64 x.bursts
    overrun := x.overrun + surplus, overrunBeats := (x.overrunBeats + surplus) % 2 ^ 64
    lastGranted := decide (x.left ≤ moved) }
/-- DMA_BURST_GRANT (R383 to R385, R393): the channel is the one that the arbitration grants. While the burst runs, other agents
may take entries of its source queue and put entries into its destination queue. -/
def execDmaBurstGrant (t ch : Nat) (data : BurstData) (busErr : Bool) (s : State) : Host.Outcome State Fault Refusal :=
  wheneverOn (decide (ch < 64)) s t (fun z => !z.fab.stopped && z.granted == some ch) (fun z =>
    let c := z.channel ch
    match c.desc with
    | none => z
    | some d =>
      let n := z.burstBytes c d
      let z1 := (z.updChannel ch fun x => { x with started := true, beatAt := z.now })
      let z2 := { z1 with fab := { z1.fab with lastGrant := tset z1.fab.lastGrant c.prio ch } }
      if busErr || outsideSpace d.src c.done_ n || outsideSpace d.dst c.done_ n then z2.endDescriptor ch d 2
      else if z.poisonedSource d.src c.done_ n then z2.endDescriptor ch d 3
      else ((z2.othersTake d.src data.taken).othersPut d.dst data.filled).runBurst ch d c.done_ n data.hostData)

/-! ## Completion (R389, R392, R394) -/

/-- After the record of a completed descriptor has been written. -/
def State.afterRecord (s : State) (ch : Nat) (d : Desc) : State :=
  let c := s.channel ch
  if c.abortReq || c.state == .stopped then
    s.setChannel ch { c with
      state := .stopped, desc := none, started := false, lastGranted := false, abortReq := false, abortLate := false
      pendingBell := false }
  else if inHost d.addr then
    s.setChannel ch { c with rereading := true, pendingBell := false, started := false, lastGranted := false }
  else (s.setChannel ch { c with pendingBell := false }).endCheck ch d (s.descBytes d.addr [])
/-- DESCRIPTOR_COMPLETE (R389, R392): the last beat has been carried. -/
def execDescriptorComplete (t ch : Nat) (s : State) : Host.Outcome State Fault Refusal :=
  wheneverOn (decide (ch < 64)) s t
    (fun z => let c := z.channel ch
      !z.fab.stopped && c.state == .running && c.held.isNone && c.started && c.lastGranted && c.desc.isSome)
    (fun z => match (z.channel ch).desc with
      | none => z
      | some d =>
        let tail := if inHost d.addr then d.end_ else (leAt (z.descBytes d.addr []) 28 4).testBit 31
        let r := (z.channel ch).record ch d 0 tail
        let w := z.writeRecord ch d r
        if w.1 then w.2.afterRecord ch d else w.2)
/-- CQ_ROOM (R392, R394): room for the record held. -/
def execCqRoom (t ch : Nat) (s : State) : Host.Outcome State Fault Refusal :=
  wheneverOn (decide (ch < 64)) s t
    (fun z => let c := z.channel ch
      !z.fab.stopped && c.held.isSome && (match c.desc with
        | none => false | some d => decide ((z.queue d.cq).fill < (z.queue d.cq).size)))
    (fun z =>
      let c := z.channel ch
      match c.desc, c.held with
      | some d, some r =>
        ((z.putRecord d.cq d.notify r).updChannel ch fun x => { x with held := none, heldSince := none, stallSeen := false }).afterRecord
          ch d
      | _, _ => z)
/-- CQ_STALL (R392): a record has waited 100 ms; it is noted once for each wait. 16 R456 gives it no event code (log entry 160). -/
def execCqStall (t ch : Nat) (s : State) : Host.Outcome State Fault Refusal :=
  wheneverOn (decide (ch < 64)) s t
    (fun z => let c := z.channel ch
      c.held.isSome && !c.stallSeen && elapsedO c.heldSince 100000000 z.now)
    (fun z => z.updChannel ch fun c => { c with stallSeen := true })

end Sys2Proof.Machine
end

