-- ==== Sys2Proof/Machine/Mailbox.lean ====
section
/-! DEFINITION. The commands of the mailbox chapter, the PCIe host window, and what arrives at and leaves mailboxes beside the
taking of requests (14 R407 to R418, R420, R425; 13 R378, R390, R394). -/

namespace Sys2Proof.Machine

open Sys2Proof

/-! ## MODULE.IDENTIFY, MODULE.STATUS and MBOX (R409, R410, R425) -/

/-- Six bytes of a MAC address, in the order of its bytes on the wire. -/
def macField (m : Nat) : Field := .struct (beBytes 6 m)
/-- The identity registers from 0x0000 to 0x0014 (R409); those of the image read 0 until it runs. -/
def State.identity (s : State) : List Nat :=
  let x := s.imgSlot s.sec.active
  let run := s.mbox.ready
  [ 0x434C4432, 0x230400 * 256 + 0xC001, s.net.serial % 2 ^ 32, s.net.serial / 2 ^ 32 % 2 ^ 32
  , if run then x.fwVersion % 65536 * 65536 + x.build % 65536 else 0, if run then s.net.format % 65536 else 0 ]
/-- MODULE.IDENTIFY. -/
def execModuleIdentify (src : Source) (s : State) : Host.Outcome State Fault Refusal :=
  runCommand src 0x0101 (fun z =>
    okWith z (z.identity.map f4 ++ [macField (z.netLan 0).mac, macField (z.netLan 1).mac])) s
/-- MODULE.STATUS. -/
def execModuleStatus (src : Source) (s : State) : Host.Outcome State Fault Refusal :=
  runCommand src 0x0102 (fun z =>
    let l := z.recorder.alarms.take 64
    okWith z ([f4 z.moduleStateWord, f4 z.berthWord, f4 z.lanesWord, f2 l.length] ++ l.flatMap fun a => [f2 a.code, f8 a.time])) s
/-- MBOX.NOP. -/
def execMboxNop (src : Source) (data : List Byte) (s : State) : Host.Outcome State Fault Refusal :=
  runCommand src 0x0201 (fun z => checked z [(decide (data.length ≤ 1024), stInvalidArg)] (okWith z (data.map fun b => f1 b.toNat))) s
/-- The code of a mailbox's state (R412). -/
def boxCode : BoxState → Nat
  | .disabled => 0 | .idle => 1 | .executing => 2 | .waiting => 3
/-- The mailboxes of every path: the four of PCIe, and those that are open. -/
def State.everyBox (s : State) : List Mailbox :=
  ((List.range 4).map fun m => s.box .pcie m) ++ s.mbox.boxes.filter fun (x : Mailbox) => x.path != .pcie
/-- Requests that a mailbox holds (QUEUED). -/
def State.requestsOf (s : State) (x : Mailbox) : Nat := if x.path = .pcie then s.queuedIn x.box 257 else x.queue.length
/-- MBOX.STATUS. -/
def execMboxStatus (src : Source) (s : State) : Host.Outcome State Fault Refusal :=
  runCommand src 0x0202 (fun z =>
    okWith z (f2 z.everyBox.length :: z.everyBox.flatMap fun (x : Mailbox) =>
      [f1 (pathIdx x.path), f2 x.box, f1 (boxCode x.state), f2 (x.executing.getD 0), f2 (z.requestsOf x)])) s
/-- MBOX.COUNTERS_READ. -/
def execMboxCountersRead (src : Source) (clear : Bool) (s : State) : Host.Outcome State Fault Refusal :=
  runCommand src 0x0203 (fun z =>
    let fs := (List.range 3).flatMap fun i =>
      let c := z.pathCount i
      [f8 c.taken, f8 c.badEnvelope, f8 c.unknown, f8 c.refused, f8 c.busy, f8 c.respWait, f8 c.discarded, f8 c.accessDenied,
       f8 c.indexError, f8 c.notOwner]
    okWith (if clear then { z with mbox := { z.mbox with counts := [] } } else z) fs) s

/-- SVA serves mailboxes (14 R406; 17 R470, R474). -/
def State.serving (s : State) : Bool :=
  (s.mbox.ready || s.sec.recovery) && s.power.state != .bareRock && !s.sec.halted.contains 0

/-! ## The register window (R408 to R412) -/

/-- Clear INT_STATUS bits by writing 1. -/
def State.writeIntStatus (s : State) (v : Nat) : State :=
  { s with mbox := { s.mbox with intStatus := s.mbox.intStatus - (s.mbox.intStatus &&& v) } }
/-- INT_STATUS_WRITE (R411). -/
def execIntStatusWrite (t v : Nat) (s : State) : Host.Outcome State Fault Refusal :=
  whenever s t (fun z => z.mbox.hostLinked) fun z => z.writeIntStatus v
/-- The state that a mailbox shows, by what it does and its ENABLE. -/
def Mailbox.shown (x : Mailbox) : BoxState :=
  if x.resetPending then .disabled
  else if x.executing.isSome then .executing
  else if !x.waiting.isEmpty then .waiting
  else if x.enable then .idle else .disabled
/-- Set ENABLE of a PCIe mailbox. -/
def State.enableBox (s : State) (m : Nat) (on : Bool) : State :=
  let x : Mailbox := { s.box .pcie m with enable := on }
  s.setBox { x with state := x.shown }
/-- MAILBOX_ENABLE_WRITE (R412). -/
def execMailboxEnableWrite (t m : Nat) (on : Bool) (s : State) : Host.Outcome State Fault Refusal :=
  wheneverOn (decide (m < 4)) s t (fun z => z.mbox.hostLinked) fun z => z.enableBox m on
/-- Reset a PCIe mailbox (R416): its ENABLE is cleared and its requests are discarded; its indices are set to 0 at once, or
once the command that executes has completed. -/
def State.resetBox (s : State) (m : Nat) : State :=
  let n := s.queuedIn m 257
  let s1 := s.countPath .pcie fun c => { c with discarded := (c.discarded + n) % 2 ^ 64 }
  let x : Mailbox := { s1.box .pcie m with enable := false, state := .disabled, queue := [], asm := none, waiting := [] }
  if x.executing.isSome then s1.setBox { x with resetPending := true }
  else (s1.setBox x).boxFresh .pcie m
/-- MAILBOX_RESET_WRITE (R416). -/
def execMailboxResetWrite (t m : Nat) (s : State) : Host.Outcome State Fault Refusal :=
  wheneverOn (decide (m < 4)) s t (fun z => z.mbox.hostLinked) fun z => z.resetBox m
/-- The registers of a PCIe mailbox, by offset from its base (R412): RESET is write-only and reads 0. -/
def State.readBox (s : State) (m o : Nat) : Nat :=
  let x := s.box .pcie m
  if o = 0 then 16 + 2 * m else if o = 4 then 17 + 2 * m
  else if o = 8 then (if x.enable then 1 else 0)
  else if o = 12 then s.queuedIn m 257 % 65536 * 65536 + boxCode x.state
  else 0
/-- The registers that describe the queue selected (R414). -/
def State.readQueue (s : State) (o : Nat) : Nat :=
  let x := s.queue s.mbox.qsel
  let base := x.base - ringRegion
  if o = 0x200 then s.mbox.qsel
  else if x.k = 0 then 0
  else if o = 0x204 then 65536 + x.cons * 4096 + x.prod * 256 + x.k
  else if o = 0x208 then base % 2 ^ 32 else if o = 0x20C then base / 2 ^ 32
  else if o = 0x210 then x.pi else if o = 0x214 then x.ci else 0
/-- What a read of a word of BAR0 returns (00 R13, R14; R408 to R415): read-only and read-write fields their values,
write-only fields, reserved fields and offsets that are not listed 0. -/
def State.readRegister (s : State) (o : Nat) : Nat :=
  if o < 0x40 then s.identity.getD (o / 4) 0
  else if o = 0x40 then s.moduleStateWord else if o = 0x44 then s.berthWord else if o = 0x48 then s.lanesWord
  else if o = 0x50 then s.now % 2 ^ 32 else if o = 0x54 then s.mbox.timeHi
  else if o = 0x80 then s.mbox.intStatus else if o = 0x84 then s.mbox.intEnable
  else if 0x100 ≤ o ∧ o < 0x200 then s.readBox ((o - 0x100) / 64) (o % 64)
  else if 0x200 ≤ o ∧ o < 0x220 then s.readQueue o
  else if 0x2000 ≤ o ∧ o < 0x3000 then
    ((List.range 32).filter fun b => s.mbox.noticePending.contains (8 * (o - 0x2000) + b)).foldl (fun a b => a + 2 ^ b) 0
  else if 0x3000 ≤ o ∧ o < 0x3200 then tget 0 s.mbox.msixTable ((o - 0x3000) / 4)
  else if o = 0x3800 then s.mbox.msixPba
  else 0
/-- TIME_LO_READ (R410): the read captures the whole clock. -/
def execTimeLoRead (t : Nat) (s : State) : Host.Outcome State Fault Refusal :=
  whenever s t (fun z => z.mbox.hostLinked) fun z =>
    { z with mbox := { z.mbox with lastRead := some (z.readRegister 0x50), timeHi := z.now / 2 ^ 32 % 2 ^ 32 } }
/-- Clear queue notice pending bits by writing 1: bit b of word w stands for queue 32w + b. -/
def State.writePending (s : State) (w v : Nat) : State :=
  { s with mbox := { s.mbox with
      noticePending := s.mbox.noticePending.filter fun q => !(q / 32 == w && v.testBit (q % 32)) } }
/-- QUEUE_NOTICE_PENDING_WRITE (R411). -/
def execQueueNoticePendingWrite (t word v : Nat) (s : State) : Host.Outcome State Fault Refusal :=
  wheneverOn (decide (word < 1024)) s t (fun z => z.mbox.hostLinked) fun z => z.writePending word v

/-! ## Doorbells (R415; 13 R378) -/

/-- A doorbell write that is ignored. -/
def State.indexError (s : State) (q : Nat) : State :=
  let s1 := s.countPath .pcie fun c => { c with indexError := inc64 c.indexError }
  if (s1.queue q).k = 0 then s1 else s1.updQueue q fun x => { x with indexErr := inc64 x.indexErr }
/-- A new PI: only on a HOST producer side, and only when PI − CI stays within the ring. -/
def State.bellPi (s : State) (q v : Nat) : State :=
  let x := s.queue q
  if x.k ≠ 0 && x.prod == 2 && decide ((v + 2 ^ 32 - x.ci) % 2 ^ 32 ≤ x.size) then
    (s.setQueue q { x with pi := v % 2 ^ 32 }).queueMoved q x.fill
  else s.indexError q
/-- A new CI: only on a HOST consumer side, and only when PI − CI stays within the ring. -/
def State.bellCi (s : State) (q v : Nat) : State :=
  let x := s.queue q
  if x.k ≠ 0 && x.cons == 2 && decide ((x.pi + 2 ^ 32 - v % 2 ^ 32) % 2 ^ 32 ≤ x.size) then
    s.setQueue q { x with ci := v % 2 ^ 32 }
  else s.indexError q
/-- QUEUE_DOORBELL_PI. -/
def execQueueDoorbellPi (t q v : Nat) (s : State) : Host.Outcome State Fault Refusal :=
  wheneverOn (decide (q < 32768)) s t (fun z => z.mbox.hostLinked && decide (v < 2 ^ 32)) fun z => z.bellPi q v
/-- QUEUE_DOORBELL_CI. -/
def execQueueDoorbellCi (t q v : Nat) (s : State) : Host.Outcome State Fault Refusal :=
  wheneverOn (decide (q < 32768)) s t (fun z => z.mbox.hostLinked && decide (v < 2 ^ 32)) fun z => z.bellCi q v
/-- A channel doorbell write by the PCIe path: another owner's channel is left alone. -/
def State.bellChannel (s : State) (c : Nat) (f : State → State) : State :=
  if (s.channel c).ownedBy .pcie then f s else s.countPath .pcie fun x => { x with notOwner := inc64 x.notOwner }
/-- CHANNEL_DOORBELL_RING (13 R390). -/
def execChannelDoorbellRing (t c : Nat) (s : State) : Host.Outcome State Fault Refusal :=
  wheneverOn (decide (c < 64)) s t (fun z => z.mbox.hostLinked) fun z => z.bellChannel c fun y => y.ringChannel c
/-- CHANNEL_DOORBELL_ABORT (13 R394). -/
def execChannelDoorbellAbort (t c : Nat) (s : State) : Host.Outcome State Fault Refusal :=
  wheneverOn (decide (c < 64)) s t (fun z => z.mbox.hostLinked) fun z => z.bellChannel c fun y => y.abortChannel c

/-! ## BAR2 and the other registers (R408, R414) -/

/-- The offset within BAR2 lies in the ring of a queue that has a HOST side. -/
def State.hostByte (s : State) (o : Nat) : Bool :=
  s.fab.queues.any fun (x : Nat × Queue) =>
    x.2.k != 0 && (x.2.prod == 2 || x.2.cons == 2) && decide (x.2.base ≤ ringRegion + o ∧ ringRegion + o < x.2.base + 64 * x.2.size)
/-- Write through BAR2: bytes outside are dropped, and the access counted. -/
def State.bar2Write (s : State) (o : Nat) (data : List Byte) : State :=
  let l := data.zipIdx
  let s1 := l.foldl (fun (z : State) (x : Byte × Nat) =>
    if s.hostByte (o + x.2) then z.lpWrite (ringRegion + o + x.2) [x.1] else z) s
  if l.all fun (x : Byte × Nat) => s.hostByte (o + x.2) then s1
  else s1.countPath .pcie fun c => { c with accessDenied := inc64 c.accessDenied }
/-- Read through BAR2: bytes outside read 0. -/
def State.bar2Read (s : State) (o n : Nat) : State :=
  let bs := (List.range n).flatMap fun i => if s.hostByte (o + i) then s.lpRead (ringRegion + o + i) 1 else [0]
  { s with mbox := { s.mbox with lastRead := some (ofLe bs) } }
/-- BAR2_ACCESS (R414), within the payload and read sizes of R407. -/
def execBar2Access (t : Nat) (write : Bool) (offset : Nat) (data : List Byte) (len : Nat) (s : State) :
    Host.Outcome State Fault Refusal :=
  whenever s t (fun z => z.mbox.hostLinked && (if write then within 1 256 data.length && decide (offset + data.length ≤ 2 ^ 29)
      else within 1 512 len && decide (offset + len ≤ 2 ^ 29)))
    fun z => if write then z.bar2Write offset data else z.bar2Read offset len
/-- The registers that hold what is written: INT_ENABLE, QSEL and the MSI-X table; a write to another offset that has no
behaviour of its own is ignored, as is a value that no channel doorbell knows, which counts where the channel is another's (R415). -/
def State.writeRegister (s : State) (o v : Nat) : State :=
  if o = 0x84 then { s with mbox := { s.mbox with intEnable := v % 256 } }
  else if o = 0x200 then { s with mbox := { s.mbox with qsel := v % 32768 } }
  else if 0x3000 ≤ o ∧ o < 0x3200 then { s with mbox := { s.mbox with msixTable := tset s.mbox.msixTable ((o - 0x3000) / 4) v } }
  else if 0x1000 ≤ o ∧ o < 0x1200 ∧ o % 8 = 0 then s.bellChannel ((o - 0x1000) / 8) id
  else s
/-- REGISTER_WRITE (R408): a write to BAR0 with no behaviour of its own; one that is no whole aligned word completes with
unsupported request. -/
def execRegisterWrite (t offset v size : Nat) (s : State) : Host.Outcome State Fault Refusal :=
  whenever s t (fun z => z.mbox.hostLinked && decide (offset < 0x80000 ∧ v < 2 ^ 32)) fun z =>
    if size ≠ 4 ∨ offset % 4 ≠ 0 then { z with mbox := { z.mbox with unsupported := inc64 z.mbox.unsupported } }
    else z.writeRegister offset v
/-- PCIE_FUNCTION_RESET (R416). -/
def execPcieFunctionReset (t : Nat) (s : State) : Host.Outcome State Fault Refusal :=
  whenever s t (fun z => z.mbox.hostLinked) fun z =>
    let z1 := { z with mbox := { z.mbox with intEnable := 0 } }
    let z2 := (List.range 4).foldl (fun (y : State) m => y.resetBox m) z1
    let z3 := z2.abortChannels ((List.range 64).filter fun c => (z2.channel c).ownedBy .pcie)
    (z3.fab.queues.filter fun (x : Nat × Queue) => x.2.created && (x.2.prod == 2 || x.2.cons == 2)).foldl
      (fun (y : State) (x : Nat × Queue) => y.destroyQueue x.1) z3

/-! ## Responses, sessions and Garzet (R413, R417, R418, R420) -/

/-- The response that waits is written as far as there is room. -/
def State.writeWaiting (s : State) (m : Nat) : State :=
  let (s1, rest) := s.ringPutAll (17 + 2 * m) (s.box .pcie m).waiting
  let x : Mailbox := { s1.box .pcie m with waiting := rest }
  s1.setBox { x with state := x.shown }
/-- RESP_ROOM: room in a full response ring. -/
def execRespRoom (t m : Nat) (s : State) : Host.Outcome State Fault Refusal :=
  wheneverOn (decide (m < 4)) s t
    (fun z => z.serving && match (z.box .pcie m).waiting with
      | [] => false
      | w :: _ => (z.ringPut (17 + 2 * m) w).isSome)
    fun z => z.writeWaiting m
/-- SERVICE_MESSAGE: a message on a session's stream. -/
def execServiceMessage (t session : Nat) (bytes : List Byte) (s : State) : Host.Outcome State Fault Refusal :=
  whenever s t (fun z => z.mbox.sessions.any fun (x : Session) => x.id == session) fun z =>
    let z1 := { z with mbox := { z.mbox with sessions := z.mbox.sessions.map fun (x : Session) =>
      if x.id = session then { x with lastMsgAt := z.now } else x } }
    let b := z1.box .service session
    let b1 : Mailbox := { b with enable := true, state := if b.state == .disabled then .idle else b.state }
    z1.setBox (b1.message bytes {})
/-- MAILBOX_CLOSE: 10 s without a request. -/
def execMailboxClose (t berth : Nat) (s : State) : Host.Outcome State Fault Refusal :=
  whenever s t (fun z => z.garzetBoxes.any fun (b : Mailbox) =>
      b.box == berth && b.queue.isEmpty && b.executing.isNone && elapsed b.lastReqAt (10 ^ 10) z.now)
    fun z => z.dropBox .garzet berth
/-- REQUEST_TIMEOUT: no reply came within the answer time plus 30 ms. -/
def execRequestTimeout (t corr : Nat) (s : State) : Host.Outcome State Fault Refusal :=
  whenever s t (fun z => z.net.requests.any fun (r : SentReq) => r.corr == corr && decide (r.waitUntil ≤ z.now)) fun z =>
    z.requestDone corr stTimeout []
/-- HEARTBEAT: SVA toggles it every 100 ms. -/
def execHeartbeat (t : Nat) (s : State) : Host.Outcome State Fault Refusal :=
  whenever s t (fun z => z.serving && elapsed z.mbox.heartbeatAt (10 ^ 8) z.now) fun z =>
    { z with mbox := { z.mbox with heartbeat := !z.mbox.heartbeat, heartbeatAt := z.now } }

end Sys2Proof.Machine
end

