-- ==== Sys2Proof/Machine/Net.lean ====
section
/-! DEFINITION. The estate network: the commands of 10 R318, LLDP, berths, streams, paths and announcements (10 R288 to
R306). -/

namespace Sys2Proof.Machine

open Sys2Proof

/-! ## Commands (R318) -/

/-- A TLV value of an LLDP identity: subtype, length and value. -/
def tlvBytes (typ : Nat) (v : List Byte) : List Byte := leBytes 1 typ ++ leBytes 1 v.length ++ v
/-- The Chassis ID and Port ID of a LAN as a field. -/
def lldpField (x : Option LldpId) : Field :=
  .struct (match x with
    | none => [0, 0, 0, 0]
    | some i => tlvBytes i.chassisType i.chassis ++ tlvBytes i.portType i.port)
/-- The LAN state of R278. -/
def State.lanStateCode (s : State) (l : Nat) : Nat := if (s.safeLan l).down then 1 else 0
/-- NET.STATUS; the quality of a PHY's signal is not stated by the spec and is free (log entry 29). -/
def execNetStatus (src : Source) (s : State) : Host.Outcome State Fault Refusal :=
  runCommand src 0x1401 (fun z =>
    let down := z.net.peers.filter fun p => p.downA || p.downB
    okWith { z with fresh := z.fresh + 2 } ((List.range 2).flatMap (fun l =>
        let n := z.netLan l
        [fb n.link, fb n.master, f2 (Config.freeNat (z.fresh + l) % 65536), f8 n.mac, lldpField n.lldp, f1 (z.lanStateCode l)])
      ++ [f2 down.length] ++ down.flatMap fun p => [f2 p.berth, f1 ((if p.downA then 1 else 0) + if p.downB then 2 else 0)])) s
/-- NET.COUNTERS_READ. -/
def execNetCountersRead (src : Source) (clear : Bool) (s : State) : Host.Outcome State Fault Refusal :=
  runCommand src 0x1402 (fun z =>
    let fs := (List.range 2).flatMap (fun l =>
        let n := z.netLan l
        [f8 n.framesIn, f8 (z.lanFrames l - n.framesOut), f8 n.fcsErr, f8 n.oversize, f8 n.foreign, f8 n.formatErr, f8 n.duplicates])
      ++ [f8 z.net.winDrops, f8 z.net.staleMsgs, f8 z.net.gapSkipped, f8 z.net.noAck, f8 z.net.movedSent, f8 z.net.movedRecv,
          f8 z.net.orphans, f8 z.net.roleConflicts]
    let z1 := (List.range 2).foldl (fun y l => y.updNetLan l fun n => { n with
      framesIn := 0, framesOut := z.lanFrames l, fcsErr := 0, oversize := 0, foreign := 0, formatErr := 0, duplicates := 0 }) z
    let z2 := { z1 with net := { z1.net with
      winDrops := 0, staleMsgs := 0, gapSkipped := 0, noAck := 0, movedSent := 0, movedRecv := 0, orphans := 0, roleConflicts := 0 } }
    okWith (if clear then z2 else z) fs) s
/-- BERTH.STATUS. -/
def execBerthStatus (src : Source) (s : State) : Host.Outcome State Fault Refusal :=
  runCommand src 0x1501 (fun z =>
    let dup := z.net.announcers.find? fun a => (z.net.berth == some a.berth || z.net.seenEpoch.any fun x => x.1 == a.berth)
      && a.serial != z.net.serial
    okWith z [f2 z.berthField, f1 (berthCode z.net.berthState), f2 z.net.moduleEpoch, f2 ((z.net.storedBerth.map (·.1)).getD 0xFFFF),
      lldpField (if z.net.berthState == .conflict || z.net.berthState == .unmapped then (z.netLan 0).lldp else none),
      lldpField (if z.net.berthState == .conflict || z.net.berthState == .unmapped then (z.netLan 1).lldp else none),
      f8 ((dup.map (·.serial)).getD 0)]) s
/-- The identity keeps R291: each TLV value has 1 to 32 bytes. -/
def lldpOk (i : LldpId) : Bool :=
  within 1 32 i.chassis.length && within 1 32 i.port.length && decide (i.chassisType < 256) && decide (i.portType < 256)
/-- No identity appears twice. -/
def distinctIds : List LldpId → Bool
  | [] => true
  | x :: r => !r.contains x && distinctIds r
/-- What ESTATE.MAP_LOAD sets, at the next start (R296). -/
def mapLoadDo (entries : List BerthEntry) (s : State) : State := { s with net := { s.net with map := entries } }
/-- ESTATE.MAP_LOAD (R291): kept as a setting, used at the next start. -/
def execEstateMapLoad (src : Source) (entries : List BerthEntry) (s : State) : Host.Outcome State Fault Refusal :=
  runCommand src 0x1601 (fun z =>
    (checked z
      [ (decide (entries.length ≤ 4096) && (entries.all fun e => decide (e.berth < 4096) && lldpOk e.idA && lldpOk e.idB)
          && distinctIds (entries.flatMap fun e => [e.idA, e.idB]), stInvalidArg) ]
      (ok z)).persisted 0x1601 0 (.estateMapLoad src entries)) s
/-- A role of the table: holder, epoch, standbys and age in milliseconds. -/
def State.roleFields (s : State) (r : Nat) : List Field :=
  let h := s.holderOf r
  let sb := s.standbys r
  let at_ := (s.net.announcers.find? fun a => h.any fun x => x.1 == a.berth).map (·.at_)
  [f4 r, f2 ((h.map (·.1)).getD 0xFFFF), f2 ((h.map (·.2)).getD 0), f2 sb.length] ++ sb.map f2
    ++ [f8 (match at_ with | none => 0 | some t => s.statusNow - t)]
/-- ROLE.TABLE_READ. -/
def execRoleTableRead (src : Source) (first count : Nat) (s : State) : Host.Outcome State Fault Refusal :=
  runCommand src 0x1701 (fun z =>
    checked z [(within 1 160 count, stInvalidArg)]
      (let l := (z.knownRoles.drop first).take count
       okWith z (f2 l.length :: l.flatMap z.roleFields))) s
/-- ROLE.RESOLVE. -/
def execRoleResolve (src : Source) (role : Nat) (s : State) : Host.Outcome State Fault Refusal :=
  runCommand src 0x1702 (fun z =>
    checked z [(within 1 6 (roleKind role), stInvalidArg)]
      (let h := z.holderOf role
       let sb := z.standbys role
       okWith z ([f2 ((h.map (·.1)).getD 0xFFFF), f2 ((h.map (·.2)).getD 0), f2 sb.length] ++ sb.map f2))) s

/-! ## Plant ports and LLDP (R289, R292, R296) -/

/-- FOREIGN_FRAME (R289). -/
def execForeignFrame (t : Nat) (lan : Lan) (oversize : Bool) (s : State) : Host.Outcome State Fault Refusal :=
  whenever (s.frameIn (lanNo lan) t) t (·.netRuns) fun z =>
    z.updNetLan (lanNo lan) fun n =>
      if oversize then { n with oversize := inc64 n.oversize } else { n with foreign := inc64 n.foreign }
/-- LLDPDU (R292, R296). -/
def execLldpdu (t : Nat) (lan : Lan) (id : LldpId) (s : State) : Host.Outcome State Fault Refusal :=
  whenever (s.frameIn (lanNo lan) t) t (·.netRuns) fun z =>
    let z1 := z.updNetLan (lanNo lan) fun n => { n with lldp := some id }
    match z.net.berth with
    | none => z1
    | some b =>
      if z.berthOf (lanNo lan) id != some b && (z.netLan (lanNo lan)).lldp != some id then z1.event evBerthCableChange 7 b else z1
/-- LLDP_SEND (R292): every 30 s, and within 1 s of link-up. -/
def execLldpSend (t : Nat) (lan : Lan) (s : State) : Host.Outcome State Fault Refusal :=
  whenever s t (fun z =>
      let n := z.netLan (lanNo lan)
      z.netRuns && n.link && (match n.lldpAt with | none => true | some a => elapsed a (30 * 10 ^ 9) z.now || decide (a < n.linkAt)))
    fun z => (z.updNetLan (lanNo lan) fun n => { n with lldpAt := some z.now }).emit (.lldp lan (z.netLan (lanNo lan)).mac z.net.berth)

/-! ## Berths (R293, R294) -/

/-- BERTH_DERIVATION: after 2 s of listening, and again every 10 s until a berth is taken. -/
def execBerthDerivation (t : Nat) (s : State) : Host.Outcome State Fault Refusal :=
  whenever s t (fun z => z.netRuns && (z.sec.lifecycle == .turned || z.sec.lifecycle == .sealed) && z.net.berth.isNone
      && elapsedO z.net.listenFrom (2 * 10 ^ 9) z.now
      && (z.net.berthState == .notDerived || elapsed z.net.derivedAt (10 ^ 10) z.now))
    (·.derive)
/-- BERTH_DUPLICATE: another module announces the berth held, recorded every 60 s. -/
def execBerthDuplicate (t : Nat) (s : State) : Host.Outcome State Fault Refusal :=
  whenever s t (fun z => z.netRuns && (match z.net.berth with | none => false | some b => (z.announced b).isSome)
      && (z.net.dupAt == 0 || elapsed z.net.dupAt (60 * 10 ^ 9) z.now)) fun z =>
    let b := z.net.berth.getD 0
    ({ z with net := { z.net with dupAt := z.now } }).event evBerthDuplicate 7 b
      (v0 := (z.announced b).map fun (a : Announcer) => (a.serial : Int))

/-! ## Streams and paths (R302 to R304) -/

/-- RETRANSMIT: 2, 4, 6 and 8 ms after the first send, with NEW_STREAM as long as no ACK has come (R301). -/
def execRetransmit (t peer seq : Nat) (s : State) : Host.Outcome State Fault Refusal :=
  let due (z : State) (m : StreamMsg) : Bool := m.seq == seq && decide (m.sends < 5) && elapsed m.sentAt (2000000 * m.sends) z.now
  whenever s t (fun z => z.netRuns && (z.streamTx peer).unacked.any (due z)) fun z =>
    let x := z.streamTx peer
    let z1 := z.setStreamTx { x with
      unacked := x.unacked.map fun (m : StreamMsg) => if due z m then { m with sends := m.sends + 1 } else m }
    (x.unacked.filter (due z)).foldl (fun y m => y.transmit peer { m.head with newStream := x.newStream } m.body) z1
/-- NO_ACK: 10 ms without an ACK. -/
def execNoAck (t peer seq : Nat) (s : State) : Host.Outcome State Fault Refusal :=
  whenever s t (fun z => z.netRuns && (z.streamTx peer).unacked.any fun m => m.seq == seq && elapsed m.sentAt 10000000 z.now)
    (fun z => z.streamFails peer)
/-- PATH_DOWN (R304). -/
def execPathDown (t berth : Nat) (lan : Lan) (s : State) : Host.Outcome State Fault Refusal :=
  whenever s t (fun z => z.netRuns && (z.net.peers.any fun p => p.berth == berth)
      && (z.peer berth).missing lan && !(if lan == .a then (z.peer berth).downA else (z.peer berth).downB)) fun z =>
    let p := z.peer berth
    (z.setPeer (if lan == .a then { p with downA := true, backSince := none } else { p with downB := true, backSince := none })).event
      evPathDown 7 berth (v0 := some (lanNo lan : Int))
/-- PATH_UP: 1 s of copies. -/
def execPathUp (t berth : Nat) (lan : Lan) (s : State) : Host.Outcome State Fault Refusal :=
  whenever s t (fun z => z.netRuns && (if lan == .a then (z.peer berth).downA else (z.peer berth).downB)
      && !(z.peer berth).missing lan && elapsedO (z.peer berth).backSince (10 ^ 9) z.now) fun z =>
    let p := z.peer berth
    (z.setPeer (if lan == .a then { p with downA := false, backSince := none } else { p with downB := false, backSince := none })).event
      evPathUp 7 berth (v0 := some (lanNo lan : Int))

/-! ## Announcements (R305, R306, R308) -/

/-- The code of a power state in ANNOUNCE. -/
def announcePower (p : PowerState) : Nat := match p with | .full => 0 | .slack => 1 | .beached => 2 | .bareRock => 2
/-- The role entries this module announces. -/
def State.ownEntries (s : State) : List RoleEntry :=
  if s.net.berth.isNone then []
  else (s.net.own.filter fun (o : OwnRole) => o.state != .none_).map fun (o : OwnRole) =>
    ({ role := o.role, epoch := o.epoch, active := o.state == .active } : RoleEntry)
/-- Send an ANNOUNCE in as many parts as it needs. -/
def State.announce (s : State) : State :=
  let es := s.ownEntries
  let parts := if es.isEmpty then [[]] else chunks 160 3 es
  let s1 := { s with net := { s.net with announceAt := s.now, announceDue := false } }
  (List.range parts.length).foldl (fun z i => z.sendGroup (.announce
    { part := i, parts := parts.length, power := announcePower z.power.state, berth := z.berthField
      moduleEpoch := if z.net.berth.isSome then z.net.moduleEpoch else 0, serial := z.net.serial, entries := parts.getD i []
      mac := 0 })) s1
/-- ANNOUNCE_SEND: every 1 s, and after a role has changed. -/
def execAnnounceSend (t : Nat) (s : State) : Host.Outcome State Fault Refusal :=
  whenever s t (fun z => z.netRuns && decide (3 ≤ z.power.stage) && (z.net.announceDue || elapsed z.net.announceAt (10 ^ 9) z.now))
    (·.announce)
/-- ROLE_AGE_OUT: 5 s after an announcer's last announcement. -/
def execRoleAgeOut (t key : Nat) (s : State) : Host.Outcome State Fault Refusal :=
  whenever s t (fun z => z.net.announcers.any fun a => a.key == key && elapsed a.at_ (5 * 10 ^ 9) z.now) fun z =>
    z.containersSeen
      { z with net := { z.net with announcers := z.net.announcers.filter fun a => !(a.key == key && elapsed a.at_ (5 * 10 ^ 9) z.now) } }

end Sys2Proof.Machine
end

