-- ==== Sys2Proof/Machine/PairOps.lean ====
section
/-! DEFINITION. Pairs: taking the helm, HELM messages as they arrive, mirror generations, resynchronisation, the shadow
compare and its arbitration (12 R348 to R370). -/

namespace Sys2Proof.Machine

open Sys2Proof

/-! ## Roles of a pair -/

/-- A role that is held as a pair. -/
def OwnRole.paired (o : OwnRole) : Bool := o.kind != .none_ && !o.mismatch
/-- A role of this module, where it has one. -/
def State.own (s : State) (r : Nat) : OwnRole := (s.ownRole r).getD {}
/-- The partner's format level differs by more than one (R370). -/
def State.formatGap (s : State) (o : OwnRole) : Bool :=
  match o.partnerFormat with
  | none => false
  | some f => decide (f + 1 < s.net.format ∨ s.net.format + 1 < f)
/-- The standby of a role goes back to SYNCING. -/
def State.toSyncing (s : State) (r : Nat) : State :=
  s.setOwn r fun o => { o with sync := .syncing, fullApplied := false, cleanSince := s.now, genApplied := none, frags := [] }
/-- The standby gives its place up with PAIR_DEGRADED (R365). -/
def State.degrade (s : State) (r : Nat) : State := (s.dropStandby r).raise evPairDegraded 5 r
/-- A standby in sync becomes STALE. -/
def State.toStale (s : State) (r : Nat) : State :=
  s.setOwn r fun o => if o.state == .standby && o.sync == .inSync then { o with sync := .stale, cleanSince := s.now } else o
/-- The roles that the engines of a role serve (R354, R366): the tenants of one graph engine, or the role alone. -/
def State.servedWith (s : State) (r : Nat) : List Nat :=
  let o := s.own r
  if roleKind r = 3 then
    (s.slotNumbers.filter fun n => (s.slot n).state != .empty && (s.slot n).engine == (s.slot o.local_).engine).map
      fun n => (s.slot n).role
  else [r]

/-! ## Taking the helm (R348, R350, R355, R367, R368) -/

/-- The partner's line has read low for 2 µs. -/
def State.lineLow (s : State) (n : Nat) : Bool :=
  !(s.lane n).helmIn && (match (s.lane n).helmLowSince with | none => true | some t => elapsed t 2000 s.now)
/-- A lane that gains the helm while the old holder was arming it: the sequence is aborted (05 R140). -/
def State.abortArmed (s : State) (n : Nat) : State :=
  (s.updLane n fun l => { l with state := .arming, step := 1 }).abandonArming n (some 0)
/-- A lane whose line this module has raised drives from its mirrored states (R367). -/
def State.driveLane (s : State) (n : Nat) : State :=
  if (s.lane n).state == .shadow && (s.lane n).peerState == 2 then s.abortArmed n else s.updLane n Lane.takeDrive
/-- A standby takes a lane over: its line, its role and its gates. -/
def State.takeLane (s : State) (n r : Nat) : State :=
  let s1 := if (s.lane n).helmOut then s else s.raiseHelm n
  (s1.takeOver r tkLine).driveLane n
/-- Raise the line of a lane and take its role, as its record stands. -/
def State.takeHelm (s : State) (n : Nat) : State :=
  match s.laneRole n with
  | none => s
  | some o =>
    if o.state == .standby then s.takeLane n o.role
    else if o.state == .none_ then (s.raiseHelm n).takeActive o.role
    else s.raiseHelm n
/-- Take the helm now where the line allows it, else once it has been low for 2 µs. -/
def State.tryHelm (s : State) (n : Nat) : State :=
  if s.lineLow n then s.takeHelm n else s.updLane n fun l => { l with wantHelm := true, helmRetryAt := none }
/-- The settings of a LIGHTHOUSE.CONFIG apply at the grant of the role (02 R76); the loop starts unlocked (02 R54). -/
def State.grantLighthouse (s : State) : State :=
  match s.lh.staged with
  | none => { s with lh := s.lh.unlocked }
  | some c => { s with lh := { s.lh.unlocked with
      lane := some c.lane, nominalHz := c.nominalHz, angleOffset := c.angleOffset, bandwidth := c.bandwidth
      nominalMv := c.nominalMv, staged := none } }
/-- A role that is unresolved is taken ACTIVE (R348). -/
def State.resolveRole (s : State) (o : OwnRole) : State :=
  if roleKind o.role = 2 then s.tryHelm o.local_
  else if roleKind o.role = 4 then s.grantLighthouse.takeActive o.role
  else s.takeActive o.role
/-- The role table shows the role at a module that is not the partner (R347). -/
def State.assignedElsewhere (s : State) (o : OwnRole) : Bool :=
  o.kind != .none_ && !o.mismatch
  && s.net.announcers.any fun a => a.berth != o.partner && a.serial != s.net.serial && a.entries.any fun e => e.role == o.role
/-- Record a mismatch of assignments. -/
def State.assignMismatch (s : State) (r : Nat) : State :=
  (s.setOwn r fun o => { o with mismatch := true }).event evPairAssignMismatch 5 r
/-- The time after which an unresolved role is taken: 5 s or 10 s after the berth. -/
def OwnRole.waitNs (o : OwnRole) : Nat := if o.preferred || o.kind == .none_ then 5 * 10 ^ 9 else 10 ^ 10
/-- The decision of R348 on a role. -/
def State.decideRole (s : State) (r : Nat) : State :=
  let s1 := if s.assignedElsewhere (s.own r) then s.assignMismatch r else s
  let o := s1.own r
  match s1.otherHolder r with
  | some (b, e) =>
    if o.paired && o.partner == b then
      (s1.changeOwn r fun x => { x with
        state := .standby, sync := .syncing, partnerEpoch := e, cleanSince := s.now, fullApplied := false, genApplied := none
        keeps := [], peerReleased := false }).placeEntries
    else s1
  | none =>
    if !o.released && elapsed s.net.berthAt o.waitNs s.now && (!o.mismatch || o.preferred) then s1.resolveRole o else s1

/-! ## Publications of a standby (R351, R368) -/

/-- A standby may take the helm: it is IN_SYNC or STALE. -/
def OwnRole.ready (o : OwnRole) : Bool := o.state == .standby && (o.sync == .inSync || o.sync == .stale)
/-- The cause of a takeover of a token role. -/
def OwnRole.tkCause (o : OwnRole) : Nat := if o.peerReleased then tkRelease else tkKeep
/-- A slot whose role has been taken over runs the graph that the holder before it ran, as the holder's STATUS items named it
(11 R345): where that is its staged graph, or the one it fell back from, it moves to it at its next cycle instant (DEDUCED, log
entry 164). -/
def State.followGraph (s : State) (r : Nat) : State :=
  match (s.own r).runningPeer with
  | none => s
  | some id => s.updSlot (s.own r).local_ fun x =>
    if x.running.any fun g => g.id == id then x
    else if x.staged.any fun g => g.id == id then { x with switching := true }
    else if x.fallback.any fun g => g.id == id then { x with staged := x.fallback, fallback := none, switching := true }
    else x
/-- A slot whose role has been taken over publishes the cycle that its shadow computed. -/
def State.publishTaken (s : State) (n i p : Nat) : State :=
  let s1 := if (s.slot n).state == .shadow then s.updSlot n fun x => { x with state := .active } else s
  if (s1.slot n).inCycle then s1.publishSlot n i p
  else ((s1.publishOutputs n p).performActs n).sendKeep (s1.slot n).role p
/-- The check of a standby at a publication of its slot. -/
def State.checkTenant (s : State) (r p : Nat) : State :=
  let o := s.own r
  let x := s.slot o.local_
  match x.running with
  | none => s
  | some g =>
    if o.ready && x.state == .shadow && s.groupPos g.group x.publishAt == p && !o.keeps.contains (s.keepBefore g x.publishAt) then
      ((s.takeOver r o.tkCause).followGraph r).publishTaken o.local_ x.publishAt p
    else s
/-- The check of a COORDINATOR role, every 10 ms: the holder's KEEP is sent, the standby's watched (R351, R352). -/
def State.checkCoordinator (s : State) (r : Nat) : State :=
  let o := s.own r
  let before := s.posAt (s.now - 20000000)
  if o.state == .active then
    if o.releaseDue = 1 then s.releaseRole r true true
    else if o.keepUnacked.any fun p => decide (p ≤ before) then
      ((s.setOwn r fun x => { x with helmFenced := inc64 x.helmFenced }).event evHelmFenced 5 r).releaseRole r
    else s.sendKeep r s.pos
  else if o.ready && o.keeps.all fun p => decide (p < before) then s.takeOver r o.tkCause
  else s

/-! ## Arbitration (R365, R366) -/

/-- The standby has found a mismatch of a kind: it asks for the self-test 2 ms ahead. -/
def State.mismatch (s : State) (r kind : Nat) : State :=
  let s1 := s.setOwn r fun o => { o with
    mismatches := tset o.mismatches kind (inc64 (tget 0 o.mismatches kind)), cleanSince := s.now }
  if (s.own r).testAt.isSome then s1
  else (s1.setOwn r fun o => { o with testAt := some (s.now + 2000000), testOwn := none, testPeer := none }).sendHelm r
    hmTestStart (s.posAt (s.now + 2000000))
/-- Both pass: the mismatch stays unresolved. -/
def State.stayUnresolved (s : State) (r : Nat) : State :=
  let o := s.own r
  let times := s.now :: o.unresolved.filter fun t => decide (s.now < t + 3600 * 10 ^ 9)
  let s1 := (s.setOwn r fun x => { x with unresolved := times, unresolvedCount := inc64 x.unresolvedCount }).event
    evMismatchUnresolved 5 r
  if o.state != .standby then s1
  else if 3 ≤ times.length then s1.degrade r
  else s1.toSyncing r
/-- This module's own result is FAIL. -/
def State.ownFails (s : State) (r : Nat) (peer : Bool) : State :=
  let o := s.own r
  if o.state == .active then
    (s.servedWith r).foldl (fun z x => z.releaseRole x true false (!peer)) s
  else if o.state == .standby then (if peer then s.degrade r else s.dropStandby r)
  else s
/-- The outcome, once both results stand. -/
def State.arbitrate (s : State) (r : Nat) : State :=
  let o := s.own r
  match o.testOwn, o.testPeer with
  | some a, some b =>
    let s1 := s.setOwn r fun x => { x with testAt := none, testOwn := none, testPeer := none }
    if a && b then s1.stayUnresolved r else if a then s1 else s1.ownFails r b
  | _, _ => s

/-! ## HELM messages (R353, R369, R370) -/

/-- What every HELM or MIRROR message tells of the partner: its epoch and format level. -/
def State.peerSays (s : State) (r epoch format : Nat) : State :=
  let o := s.own r
  let s1 := s.setOwn r fun x => { x with partnerEpoch := epoch, partnerFormat := some format }
  if s1.formatGap (s1.own r) && o.partnerFormat != some format && o.state == .standby then
    ((s1.toSyncing r).setOwn r fun x => { x with formatGap := inc64 x.formatGap }).event evFormatGap 5 r
  else s1
/-- The standby answers SWAP_REQUEST; an answer that is no SWAP_READY goes as SWAP_REQUEST with its sync state (log entry
65). -/
def State.answerSwap (s : State) (r : Nat) : State :=
  let o := s.own r
  if o.state != .standby then s
  else if o.sync == .inSync && elapsed o.cleanSince (10 ^ 9) s.now then s.sendHelm r hmSwapReady 0
  else s.sendHelm r hmSwapRequest 0
/-- The holder may release: at the end of the next period of phase 0, after the next publication, or at once where the unit
makes none. -/
def State.swapNow (s : State) (r : Nat) : State :=
  let o := s.own r
  let due := if roleKind r = 2 then (if (s.lane o.local_).cfg.isSome then 2 else 0)
    else if roleKind r = 3 then (if (s.slot o.local_).state == .active then 1 else 0) else 1
  if due = 0 then s.releaseRole r true true else s.setOwn r fun x => { x with releaseDue := due, swapReady := true }
/-- A TEST_START names the start. -/
def State.testStart (s : State) (r at_ : Nat) : State :=
  s.setOwn r fun o => if o.testAt.isSome then o else { o with testAt := some (s.tide.timeOf at_), testOwn := none, testPeer := none }

/-! ## Mirror generations of a lane (R357 to R359) -/

/-- The CELL item of a cell. -/
def State.cellItem (s : State) (k : Nat) : CellItem :=
  let c := s.cell k
  let l := c.learned
  { index := k, x := c.x, cov := c.cov, learned := [l.capacity, l.capacitySd, l.rho, l.rhoSd, l.plOffset, l.plOffsetSd, l.iSd]
    learnedAt := l.learnedAt, flags := leAt (s.cellRecord (k / 18) (k % 18)).bytes 0 2 }
/-- A fraction in UQ1.15. -/
def uq15 (v : Rat) : Nat := (clampI 0 65534 (roundA (v * 32768))).toNat
/-- The code of a phase of a spring tide, in the order of 07 R221. -/
def springPhaseCode : SpringPhase → Nat
  | .idle => 0 | .charge => 1 | .top => 2 | .discharge => 3 | .bottom => 4 | .return_ => 5
def springPhaseOf : Nat → SpringPhase
  | 1 => .charge | 2 => .top | 3 => .discharge | 4 => .bottom | 5 => .return_ | _ => .idle
/-- The SPRING item of a port: Q_part counts up to the end of the latest ICV window, which the item's tag names (07 R224). -/
def State.springItem (s : State) (n p : Nat) : MirrorItem :=
  let x := s.spring n
  .spring n p (springPhaseCode x.phase) x.iK (s.icv n).windowTag ((List.range 18).map fun c =>
    let k := s.cell (cellIx p c)
    let q := roundA ((k.qPart - k.qWin) * 1000)
    match k.sFull with
    | none => (65535, 65535, q)
    | some f => (uq15 f.1, uq15 f.2.1, q))
/-- Both lanes of the twin link are down. -/
def State.twinGone (s : State) : Bool := tget false s.net.twinDown 0 && tget false s.net.twinDown 1
/-- The generation of a lane for one base instant: the cells updated, or every item where FULL was asked for. While both lanes
of the twin link are down no CELL item goes (R362), and a FULL generation, which carries them all, waits. -/
def State.laneGeneration (s : State) (n tag : Nat) (updated : List Nat) : State :=
  match s.laneRole n with
  | none => s
  | some o =>
    if o.state != .active || o.kind != .twin || !s.partnerThere o then s
    else
      let ports := s.portsOf n
      let full := o.fullRequested && !s.twinGone
      let commit := s.store.genCommit != o.commitSent
      let cells := if s.twinGone then [] else if full then ports.flatMap fun p => (s.modelled p).map (cellIx p) else updated
      let blocks := ports.filter fun p => !(s.modelled p).isEmpty
        && (full || commit || (o.learnedSent.find? fun x => x.1 == p).map (·.2) != some (s.learnedOfPort p))
      let items : List MirrorItem := cells.map (fun k => .cell (s.cellItem k))
        ++ blocks.map (fun p => .learned p (blockBytes (s.serialOf p) (s.learnedOfPort p)))
        ++ (if (s.spring n).profile.isSome || full || springPhaseCode (s.spring n).phase != o.springSent then
            ports.map (s.springItem n) else [])
        ++ [.status (syncCode o.sync) 0 0]
      (s.setOwn o.role fun x => { x with
        commitSent := s.store.genCommit, springSent := springPhaseCode (s.spring n).phase
        learnedSent := blocks.map (fun p => (p, s.learnedOfPort p)) ++ x.learnedSent.filter fun y => !blocks.contains y.1
        }).sendGeneration o.role tag full items

/-! ## Applying a generation (R358 to R364) -/

/-- The flags of a mirrored cell. -/
def setFlags (o : CellOut) (w : Nat) : CellOut :=
  { o with
    noParam := w.testBit 9, diverged := w.testBit 8, tempLost := w.testBit 7, misaligned := w.testBit 6, coast := w.testBit 5
    rough := w.testBit 4, hostHeld := w.testBit 3, capProvisional := w.testBit 2, slack := w.testBit 1, valid := w.testBit 0 }
/-- Learned values in the order of a record. -/
def learnedIn (l : List (Option Rat)) (at_ : Nat) : Learned :=
  let f (i : Nat) : Option Rat := l.getD i none
  { capacity := f 0, capacitySd := f 1, rho := f 2, rhoSd := f 3, plOffset := f 4, plOffsetSd := f 5, iSd := f 6, learnedAt := at_ }
/-- A CELL item of a generation: the SOC is compared, then the estimate replaced by the item's, which is of the generation's
instant; the standby steps on from there on its own frames (06 R190). -/
def State.applyCell (s : State) (r tag : Nat) (c : CellItem) : State :=
  let k := s.cell c.index
  let far := match s.params k.typ with
    | none => false
    | some q => !k.x.isEmpty && decide (s.net.socTol < |socOf q k.x - socOf q c.x|)
  let run := if far then tget 0 (s.own r).socRun c.index + 1 else 0
  let n := (s.laneOfPort (c.index / 18)).getD 0
  let s1 := (s.setOwn r fun o => { o with socRun := tset o.socRun c.index (if 2 ≤ run then 0 else run) }).updCell c.index fun y =>
    { y with
      x := c.x, cov := c.cov, learned := learnedIn c.learned c.learnedAt, newLearned := none, started := true, tagAt := tag
      accAt := (s.icv n).acc, sumAt := (s.lane n).strobeSum, cntAt := (s.lane n).strobeCnt, outRec := setFlags y.outRec c.flags }
  if 2 ≤ run then s1.mismatch r 2 else s1
/-- Values dealt out to the MIRROR variables of a graph. -/
def dealVars : List GraphVar → List Int → List GraphVar
  | [], _ => []
  | v :: r, l => if v.mirror then { v with values := l.take v.count } :: dealVars r (l.drop v.count) else v :: dealVars r l
/-- A DIGEST item: digests of the same cycle are compared. -/
def State.applyDigest (s : State) (r seq inD outD : Nat) : State :=
  match (s.own r).digests.find? fun d => d.1 == seq with
  | none => s
  | some d =>
    if d.2.1 ≠ inD then s.setOwn r fun o => { o with inputDiff := inc64 o.inputDiff }
    else if d.2.2 ≠ outD then s.mismatch r 3
    else s
/-- A LEARNED item: the block of a port. -/
def State.applyLearned (s : State) (p : Nat) (b : List Byte) : State :=
  let s1 := { s with model := { s.model with serials := tset s.model.serials p (some (leAt b 0 8)) } }
  (List.range 18).foldl (fun z c => z.updCell (cellIx p c) fun k => { k with
    learned := learnedOf (slice b (8 + 32 * c) 32), newLearned := none }) s1
/-- Charge that a cell's model has integrated since the window end that a SPRING item names (07 R224). -/
def Cell.sinceWindow (k : Cell) (v : Icv) (tag : Nat) : Rat := if tag = v.prevTag then k.qPrevWin + k.qWin else k.qWin
/-- What a SPRING item says of the lane (07 R222, R224). In CHARGE and DISCHARGE I_k is the profile current. A spring tide that
begins here has the defaults of R231; the current of a direction that no item has shown yet is free, since no item carries it
(log entry 159). -/
def Spring.mirrored (x : Spring) (phase : Nat) (iK : Int) (tag now free : Nat) (incomplete : Bool) : Spring :=
  let old := springPhaseCode x.phase
  let new := old = 0 && phase ≠ 0
  let enters := phase = 3 ∧ old ≠ 3
  { x with
    phase := springPhaseOf phase, iK := iK, phaseAt := if old = phase then x.phaseAt else now
    startedAt := if new then now else x.startedAt, cvGain := if new then 100 else x.cvGain
    maxHours := if new then 24 else x.maxHours
    iChg := if phase = 1 then iK else if new then (Config.freeNat free : Int) else x.iChg
    iDis := if phase = 3 then iK else if new then (Config.freeNat (free + 1) : Int) else x.iDis
    fullTag := if enters then tag else x.fullTag, counterOk := if enters then !incomplete else x.counterOk
    gathering := x.gathering && old == phase }
/-- A SPRING item: the phase, the FULL endpoint record and Q_part, to which the module adds its own charge from the window end
on (07 R224). The slope at the FULL endpoint follows from its deviation (07 R225). -/
def State.applySpring (s : State) (n p phase : Nat) (iK : Int) (tag : Nat) (cells : List (Nat × Nat × Int)) : State :=
  let v := s.icv n
  let enters := phase = 3 ∧ springPhaseCode (s.spring n).phase ≠ 3
  let s1 := s.updSpring n fun x => x.mirrored phase iK tag s.now s.fresh v.incomplete
  let s2 := { (s1.updIcv n fun u => if enters then { u with windowsSpan := 0, windowsCarried := 0 } else u) with
    fresh := s.fresh + 2 }
  (List.range 18).foldl (fun z c =>
    match cells[c]? with
    | none => z
    | some f => z.updCell (cellIx p c) fun k =>
      let sd : Rat := (f.2.1 : Rat) / 32768
      let rv := match z.params k.typ with | none => 0 | some q => Config.fsqrt (q.f 228)
      { k with
        qPart := (f.2.2 : Rat) / 1000 + k.sinceWindow v tag
        fullOk := if k.sFull.isNone then !k.outRec.coast && !k.outRec.rough else k.fullOk
        sFull := if f.1 = 65535 then none else some ((f.1 : Rat) / 32768, sd, rv / sd) }) s2
/-- An item of a generation at the standby. -/
def State.applyItem (s : State) (r tag : Nat) (i : MirrorItem) : State :=
  let o := s.own r
  match i with
  | .cell c => s.applyCell r tag c
  | .vars _ v _ => s.updSlot o.local_ fun x => { x with running := x.running.map fun g => { g with vars := dealVars g.vars v } }
  | .digest _ seq a b => s.applyDigest r seq a b
  | .learned p b => s.applyLearned p b
  | .spring _ p ph iK tag cells => s.applySpring o.local_ p ph iK tag cells
  | .status _ run st => s.setOwn r fun x => { x with runningPeer := some run, stagedPeer := some st }
/-- A complete generation: a standby applies it, once it has had a FULL one; of a generation that reaches the holder only
STATUS is taken. -/
def State.applyGeneration (s : State) (r : Nat) (fs : List MirrorFrag) : State :=
  let o := s.own r
  let items := fs.flatMap (·.items)
  match fs.head? with
  | none => s
  | some h =>
    if o.state == .active then
      items.foldl (fun z i => match i with | .status _ _ _ => z.applyItem r h.tag i | _ => z) s
    else if o.state != .standby || (o.sync == .syncing && !o.fullApplied && !h.full) || s.formatGap o then s
    else
      let missed := match o.genApplied with | none => 0 | some g => (h.gen + 2 ^ 32 - g - 1) % 2 ^ 32
      let late := o.sync == .stale && decide (o.genAppliedAt + 1000000000 < s.now)
      let s1 := s.setOwn r fun x => { x with
        genApplied := some h.gen, genAppliedAt := s.now, fullApplied := x.fullApplied || h.full
        cleanSince := if (h.full && !x.fullApplied) || late then s.now else x.cleanSince
        genMissed := if missed < 2 ^ 31 then (x.genMissed + missed) % 2 ^ 64 else x.genMissed }
      items.foldl (fun z i => z.applyItem r h.tag i) s1
/-- A frame of a generation arrives: frames of another generation are given up. -/
def State.takeFrag (s : State) (r : Nat) (f : MirrorFrag) : State :=
  let o := s.own r
  let same := o.frags.filter fun x => x.gen == f.gen && x.epoch == f.epoch
  let fs := f :: same.filter fun x => x.index != f.index
  if fs.length = f.count then
    (s.setOwn r fun x => { x with frags := [] }).applyGeneration r (fs.mergeSort fun a b => decide (a.index ≤ b.index))
  else s.setOwn r fun x => { x with frags := fs }
/-- A role's cycle in nanoseconds: a base interval for a lane, CYCLE for a tenant. -/
def State.roleCycleNs (s : State) (r : Nat) : Nat :=
  let base := periodNs s.tide.freqUhz / s.baseB
  if roleKind r = 3 then base * ((((s.slot (s.own r).local_).running).map (·.cycle)).getD 1) else base

/-! ## LOOP items (05 R139, R157, 12 R359, R364) -/

/-- A phase takes its mirrored integrator. -/
def Lane.mirrorPhase (l : Lane) (item : LoopItem) (m : Nat) : Lane :=
  match item.phases[m]? with
  | none => l
  | some (i, y, _) => l.updPhase m fun p => { p with loop := { p.loop with integ := i, yPrev := some y } }
/-- A lane takes the mirrored states of an item; one sent without a law evaluation carries no states of spindle B. -/
def Lane.mirror (l : Lane) (item : LoopItem) : Lane :=
  let l1 := { l with
    periodSeq := item.periodSeq, ramp := item.ramp, dff := item.dff, command := item.command, peerState := item.laneState
    spB := if item.updated = 0 then l.spB else { l.spB with integ := item.bInteg, yPrev := some item.bYPrev } }
  (bitsOf 6 item.updated).foldl (fun z m => z.mirrorPhase item m) l1
/-- The contactor outputs follow the reported states while the permissive is granted, and are open otherwise. -/
def State.trackContactors (s : State) (n bits : Nat) : State :=
  let ok := s.permissive n
  s.updLane n fun l =>
    ((l.driveK 1 (ok && bits.testBit 2) s.now).driveK 0 (ok && bits.testBit 1) s.now).driveK 2 (ok && bits.testBit 0) s.now
/-- The duty run of a phase after a compare of its ON with the item's. -/
def State.dutyRunNext (s : State) (o : OwnRole) (n m : Nat) (item : LoopItem) : Nat :=
  let l := s.lane n
  let p := l.phase m
  match l.cfg, item.phases[m]? with
  | some c, some (_, _, on) =>
    if s.net.dutyTol * p.len < |((onCount c p.shadow p.len : Nat) : Rat) - on| then tget 0 o.dutyRun m + 1 else 0
  | _, _ => 0
/-- The compare of an item with the shadow's own outputs, before the mirrored states replace them. -/
def State.compareLoop (s : State) (o : OwnRole) (n : Nat) (item : LoopItem) : State :=
  if (s.lane n).state != .shadow then s
  else
    let runs := (bitsOf 6 item.updated).map fun m => (m, s.dutyRunNext o n m item)
    let out := if item.updated.testBit 0 then
        (if s.net.outTol * (2 ^ 31 : Nat) < |((s.lane n).spB.out : Rat) - item.bOut| then o.outRun + 1 else 0)
      else o.outRun
    let s1 := s.setOwn o.role fun x => { x with
      dutyRun := runs.foldl (fun t a => tset t a.1 (if 16 ≤ a.2 then 0 else a.2)) x.dutyRun
      outRun := if 16 ≤ out then 0 else out }
    let s2 := if runs.any fun a => decide (16 ≤ a.2) then s1.mismatch o.role 0 else s1
    if 16 ≤ out then s2.mismatch o.role 1 else s2
/-- What the holder's lane state makes of a standby's lane: one that is DISARMED enters SHADOW as the partner arms, and its
loops start afresh (05 R139, R149). -/
def State.followLane (s : State) (n state : Nat) : State :=
  let l := s.lane n
  let armed := within 2 5 state
  if l.state == .disarmed && armed then
    s.updLane n fun x => { (x.updPhases fun _ p => { p with loop := p.loop.fresh, waitY := none }) with
      state := .shadow, gatesForced := true, step := 0, stepAt := s.now, firstPeriod := false, spB := x.spB.fresh }
  else if l.state == .shadow && state == 6 then (s.setLane n (l.toTripped 0 s.now)).springFail n scLaneState
  else if l.state == .shadow && !armed then
    ((s.setLane n { (l.forceGates.openAll s.now) with state := .disarmed, step := 0, stepAt := s.now }).springFail n
      scLaneState).event evLaneDisarmed 1 n
  else s
/-- A LOOP item reaches the standby of its lane. -/
def State.loopArrives (s : State) (o : OwnRole) (n : Nat) (item : LoopItem) : State :=
  let s1 := ((s.compareLoop o n item).followLane n item.laneState).updLane n fun l => l.mirror item
  if (s1.lane n).state == .shadow then s1.trackContactors n item.contactors else s1

/-! ## The twin link (R362) -/

/-- The partner reports its side over the twin link (19 R500; log entry 73): where it is this module's own, every TWIN
assignment disagrees. -/
def State.sideHeard (s : State) : State :=
  if s.net.twinPeerSide.isSome then s
  else
    let s1 := { s with net := { s.net with twinPeerSide := some Config.twinPeerSideB } }
    if Config.twinPeerSideB == s.net.twinSideB then
      (s1.net.own.filter fun (o : OwnRole) => o.kind == .twin && !o.mismatch).foldl (fun (z : State) o => z.assignMismatch o.role) s1
    else s1
/-- A frame arrives on a lane of the twin link. -/
def State.twinHeard (s : State) (i : Nat) : State :=
  { s with net := { s.net with
      twinLast := tset s.net.twinLast i s.now, twinDown := tset s.net.twinDown i false } }.sideHeard

end Sys2Proof.Machine
end

