-- ==== Sys2Proof/Machine/Pair.lean ====
section
/-! DEFINITION. Pairs: the PAIR commands, the helm lines, the helm token, self-tests and synchronisation (12). -/

namespace Sys2Proof.Machine

open Sys2Proof

/-! ## Commands (R374) -/

/-- The local lane, slot or controller that a role of a kind may name; LIGHTHOUSE and COORDINATOR have one place on a
module, number 0, so that it holds one instance at most (01 R33, R34). -/
def localOk (kind n : Nat) : Bool :=
  match kind with | 2 => decide (n < 8) | 3 => within 1 255 n | 6 => decide (n < 2) | _ => n == 0
/-- The instance of a role of a kind lies in its range (01 R33). -/
def instanceOk (kind i : Nat) : Bool :=
  match kind with
  | 2 => decide (i < 32768) | 3 => decide (i < 1048576) | 4 => decide (i < 2) | 5 => i == 0 | 6 => decide (i < 4096) | _ => false
/-- A pair kind that the kind of role may have. -/
def pairOk (kind : Nat) (k : PairKind) : Bool :=
  match k with | .none_ => true | .twin => kind == 2 || kind == 3 || kind == 5 | .estate => kind == 3 || kind == 5
/-- The fields of an assignment lie in their ranges. -/
def assignmentOk (a : Assignment) (berth : Option Nat) : Bool :=
  let k := roleKind a.role
  within 2 5 k && instanceOk k (a.role % 2 ^ 28) && localOk k a.local_ && pairOk k a.kind
  && (a.kind == .none_ || (decide (a.partner < 4096) && berth != some a.partner))
/-- What PAIR.ROLE_SET sets, at the next start: one role for one lane, slot or controller. -/
def roleSetDo (a : Assignment) (s : State) : State :=
  { s with net := { s.net with
      assignments := (s.net.assignments.filter fun (x : Assignment) =>
        x.role != a.role && !(roleKind x.role == roleKind a.role && x.local_ == a.local_)) ++ [a] } }
/-- PAIR.ROLE_SET (R347): kept as a setting, used at the next start. -/
def execPairRoleSet (src : Source) (a : Assignment) (s : State) : Host.Outcome State Fault Refusal :=
  runCommand src 0x1B01 (fun z =>
    (checked z
      [ (assignmentOk a z.net.berth, stInvalidArg),
        (!(roleKind a.role == 2 && laneArmed (z.lane a.local_).state), stLaneArmed),
        (!z.holdsActive a.role, stRoleHeld) ]
      (ok z)).persisted 0x1B01 a.role (.pairRoleSet src a)) s
/-- The code of a role state, in the order of 01 R34. -/
def roleStateCode : RoleState → Nat
  | .active => 0 | .standby => 1 | .none_ => 2
/-- PAIR.STATUS. -/
def execPairStatus (src : Source) (role : Nat) (s : State) : Host.Outcome State Fault Refusal :=
  runCommand src 0x1B02 (fun z =>
    match z.ownRole role with
    | none => refuse z stNotFound
    | some o =>
      let l := z.lane o.local_
      let line (b : Bool) : Field := fb (roleKind role == 2 && b)
      okWith z [f1 (roleStateCode o.state), f1 (syncCode o.sync), f2 o.partner, f2 o.partnerEpoch, f2 (z.formatTo o),
        f2 (o.partnerFormat.getD 0), f4 o.genSent, f4 (o.genApplied.getD 0), line l.helmOut, line l.helmIn, ft o.takeoverAt,
        f1 o.takeoverCause]) s
/-- PAIR.SWAP_HELM (R369). -/
def execPairSwapHelm (src : Source) (role : Nat) (s : State) : Host.Outcome State Fault Refusal :=
  runCommand src 0x1B03 (fun z =>
    let o := z.own role
    checked z
      [ (z.holdsActive role, stNotHelm),
        (!(roleKind role == 2 && (z.lane o.local_).state == .arming) && o.swap.isNone && o.releaseDue == 0, stBusy),
        (z.partnerThere o, stNotInSync) ]
      (later ((z.setOwn role fun x => { x with swap := some src, swapReady := false }).sendHelm role hmSwapRequest 0))) s
/-- A fraction of a command in UQ0.16 (log entry 66). -/
def share16 (n : Nat) : Rat := (n : Rat) / 65536
/-- PAIR.COMPARE_SET. -/
def execPairCompareSet (src : Source) (dutyTol outTol socTol : Nat) (s : State) : Host.Outcome State Fault Refusal :=
  runCommand src 0x1B04 (fun z =>
    checked z
      [ (decide ((1 : Rat) / 1000 ≤ share16 dutyTol ∧ share16 dutyTol ≤ 1 / 5 ∧ (1 : Rat) / 1000 ≤ share16 outTol
          ∧ share16 outTol ≤ 1 / 2 ∧ (1 : Rat) / 1000 ≤ share16 socTol ∧ share16 socTol ≤ 1 / 20), stInvalidArg) ]
      (ok { z with net := { z.net with
        dutyTol := share16 dutyTol, outTol := share16 outTol, socTol := share16 socTol } })) s
/-- PAIR.COUNTERS_READ. -/
def execPairCountersRead (src : Source) (role : Nat) (clear : Bool) (s : State) : Host.Outcome State Fault Refusal :=
  runCommand src 0x1B05 (fun z =>
    match z.ownRole role with
    | none => refuse z stNotFound
    | some o =>
      let fs := (List.range 4).map (fun k => f8 (tget 0 o.mismatches k))
        ++ [f8 o.inputDiff, f8 o.unresolvedCount, f8 o.testsRun, f8 o.testsFailed, f8 o.mirrorDropped, f8 o.takeoverStale,
            f8 o.helmConflict, f8 o.helmFenced, f8 z.net.twinDownCount, f8 o.formatGap]
      let z1 := z.setOwn role fun x => { x with
        mismatches := [], inputDiff := 0, unresolvedCount := 0, testsRun := 0, testsFailed := 0, mirrorDropped := 0
        takeoverStale := 0, helmConflict := 0, helmFenced := 0, formatGap := 0 }
      okWith (if clear then { z1 with net := { z1.net with twinDownCount := 0 } } else z) fs) s

/-! ## Taking roles (R347, R348) -/

/-- ROLE_TAKE: the decision on an assigned role that the module does not hold. -/
def execRoleTake (t role : Nat) (s : State) : Host.Outcome State Fault Refusal :=
  whenever s t (fun z => z.netRuns && z.net.berth.isSome && (z.power.state == .full || z.power.state == .slack)
      && z.power.beach.isNone && z.power.part.isNone && z.sec.debug != .invasive
      && (z.ownRole role).any (fun o => o.state == .none_) && !z.alarmOn evPairDegraded 5 role) fun z =>
    z.decideRole role

/-! ## Helm lines (R350, R355, R356, R367) -/

/-- HELM_IN_FALL: the partner's line goes low. -/
def execHelmInFall (t lane : Nat) (s : State) : Host.Outcome State Fault Refusal :=
  wheneverOn (decide (lane < 8)) s t (·.power.on) fun z =>
    let z1 := z.updLane lane fun l => { l with helmIn := false, helmLowSince := some z.now }
    match z1.laneRole lane with
    | none => z1
    | some o =>
      if o.state != .standby then z1
      else if o.ready && z1.permissive lane then z1.updLane lane fun l => { l with wantHelm := true }
      else z1.laneUnheld lane
/-- HELM_RAISE: the line has been low for 2 µs and the module is taking the lane; a standby drives at TAKEOVER. -/
def execHelmRaise (t lane : Nat) (s : State) : Host.Outcome State Fault Refusal :=
  wheneverOn (decide (lane < 8)) s t (fun z => (z.lane lane).wantHelm && !(z.lane lane).helmOut && z.lineLow lane
      && (z.laneRole lane).isSome) fun z =>
    if (z.laneRole lane).any fun o => o.state == .standby then z.raiseHelm lane else z.takeHelm lane
/-- The role of a lane whose line met the partner's is held no longer: a standby that took over stands by again. -/
def State.conflictRole (s : State) (n : Nat) : State :=
  match s.laneRole n with
  | none => s
  | some o =>
    let s1 := (s.setOwn o.role fun x => { x with helmConflict := inc64 x.helmConflict }).event evHelmConflict 1 n
    if o.state != .active then s1
    else
      let took := o.takeoverAt.any fun a => (s.lane n).helmRaisedAt.any fun b => decide (b ≤ a)
      (s1.laneHelmLost n true).changeOwn o.role fun x => { x with
        state := if took then .standby else .none_, sync := if took then .syncing else .none_, cleanSince := s.now
        fullApplied := false }
/-- HELM_CONFLICT: the partner's line reads high within 1 µs of the module's raising its own. -/
def execHelmConflict (t lane : Nat) (s : State) : Host.Outcome State Fault Refusal :=
  wheneverOn (decide (lane < 8)) s t
    (fun z => (z.lane lane).helmOut && (z.lane lane).helmRaisedAt.any fun a => decide (z.now ≤ a + 1000)) fun z =>
    (z.conflictRole lane).updLane lane fun l => { l with
      helmOut := false, helmRaisedAt := none, wantHelm := false, helmIn := true, helmLowSince := none
      helmRetryAt := some (z.now + if z.net.twinSideB then 100000 else 20000) }
/-- HELM_RETRY: 20 µs after the conflict on side A, 100 µs on side B. -/
def execHelmRetry (t lane : Nat) (s : State) : Host.Outcome State Fault Refusal :=
  wheneverOn (decide (lane < 8)) s t (fun z => elapsedO (z.lane lane).helmRetryAt 0 z.now && !(z.lane lane).helmOut
      && (z.laneRole lane).any fun o => (z.otherHolder o.role).isNone) fun z =>
    (z.updLane lane fun l => { l with helmRetryAt := none }).tryHelm lane
/-- TAKEOVER: of a lane once its line may be raised, or of another role that the partner has released and for which no
publication falls due (R355, R367). -/
def execTakeover (t role : Nat) (s : State) : Host.Outcome State Fault Refusal :=
  whenever s t (fun z => (z.ownRole role).any fun o =>
      o.ready && (if roleKind role = 2 then
          (z.lane o.local_).helmOut || ((z.lane o.local_).wantHelm && z.lineLow o.local_)
        else o.peerReleased && !(roleKind role == 3 && (z.slot o.local_).state == .shadow))) fun z =>
    if roleKind role = 2 then z.takeLane (z.own role).local_ role else ((z.takeOver role tkRelease).followGraph role).placeEntries

/-! ## Giving the helm up on own diagnosis (R354) -/

/-- SPINDLE_LATE: a law not complete 1 µs after the hold instant in 2 consecutive periods. -/
def execSpindleLate (t lane : Nat) (s : State) : Host.Outcome State Fault Refusal :=
  wheneverOn (decide (lane < 8)) s t (fun z => (z.lane lane).loops) fun z => z.laneFault lane
/-- MODEL_ENGINE_LATE: a model engine late in 2 consecutive instants. -/
def execModelEngineLate (t port : Nat) (s : State) : Host.Outcome State Fault Refusal :=
  wheneverOn (decide (port < 128)) s t (fun z => z.tablesRun && !(z.modelled port).isEmpty) fun z =>
    match z.laneOfPort port with | none => z | some n => z.laneFault n

/-! ## The token (R351, R352) -/

/-- KEEP_CHECK: a publication instant of a standby, or the 10 ms instant of a COORDINATOR role. -/
def execKeepCheck (t role p : Nat) (s : State) : Host.Outcome State Fault Refusal :=
  whenever s t (fun z => z.netRuns && (z.ownRole role).any fun o => o.paired && o.state != .none_
      && ((roleKind role == 5 && (match o.keepAt with | none => true | some a => elapsed a 10000000 z.now)) || (roleKind role == 3 && decide (p ≤ z.pos)))) fun z =>
    if roleKind role = 5 then (z.setOwn role fun o => { o with keepAt := some z.now }).checkCoordinator role else z.checkTenant role p

/-! ## Self-tests (R365, R366) -/

/-- SELF_TEST: the test that a TEST_START named has run; its result goes to the partner. -/
def execSelfTest (t role : Nat) (pass : Bool) (s : State) : Host.Outcome State Fault Refusal :=
  whenever s t (fun z => (z.ownRole role).any fun o => o.testOwn.isNone && elapsedO o.testAt 0 z.now) fun z =>
    let z1 := z.setOwn role fun o => { o with
      testOwn := some pass, testsRun := inc64 o.testsRun, testsFailed := if pass then o.testsFailed else inc64 o.testsFailed }
    (z1.sendHelm role hmTestResult 0 (some (if pass then 0 else 1))).arbitrate role
/-- TEST_RESULT_TIMEOUT: a result missing 5 ms after the start is a FAIL of the silent module. -/
def execTestResultTimeout (t role : Nat) (s : State) : Host.Outcome State Fault Refusal :=
  whenever s t (fun z => (z.ownRole role).any fun o => elapsedO o.testAt 5000000 z.now) fun z =>
    (z.setOwn role fun o => { o with
      testOwn := some (o.testOwn.getD false), testPeer := some (o.testPeer.getD false) }).arbitrate role
/-- BACKGROUND_TEST: a slice on the engines of a STANDBY role; a failure releases what those engines serve. -/
def execBackgroundTest (t role : Nat) (pass : Bool) (s : State) : Host.Outcome State Fault Refusal :=
  whenever s t (fun z => (z.ownRole role).any fun o => o.state == .standby) fun z =>
    let z1 := z.setOwn role fun o => { o with
      bgTestAt := z.now, testsRun := inc64 o.testsRun, testsFailed := if pass then o.testsFailed else inc64 o.testsFailed }
    if pass then z1
    else ((z1.servedWith role).foldl (fun y r => y.releaseRole r) z1).degrade role

/-! ## Synchronisation (R361 to R363) -/

/-- FULL_REQUEST_SEND: every 1 s while SYNCING. -/
def execFullRequestSend (t role : Nat) (s : State) : Host.Outcome State Fault Refusal :=
  whenever s t (fun z => z.netRuns && (z.ownRole role).any fun o => o.state == .standby && o.sync == .syncing && !o.fullApplied
      && roleKind role != 5 && (o.fullReqAt == 0 || elapsed o.fullReqAt (10 ^ 9) z.now)) fun z =>
    (z.setOwn role fun o => { o with fullReqAt := z.now }).sendHelm role hmFullRequest 0
/-- MIRROR_STALE: the last applied generation is older than 8 cycles of the role. -/
def execMirrorStale (t role : Nat) (s : State) : Host.Outcome State Fault Refusal :=
  whenever s t (fun z => (z.ownRole role).any fun o => o.state == .standby && o.sync == .inSync && roleKind role != 5
      && decide (o.genAppliedAt + 8 * z.roleCycleNs role < z.now)) fun z => z.toStale role
/-- IN_SYNC: SYNCING ends with a FULL generation and 1 s of clean compare, STALE with 1 s of current items. -/
def execInSync (t role : Nat) (s : State) : Host.Outcome State Fault Refusal :=
  whenever s t (fun z => (z.ownRole role).any fun o => o.state == .standby && !z.formatGap o && elapsed o.cleanSince (10 ^ 9) z.now
      && !(roleKind role == 2 && z.twinGone) && ((o.sync == .syncing && (o.fullApplied || roleKind role == 5))
        || (o.sync == .stale && decide (z.now ≤ o.genAppliedAt + 8 * z.roleCycleNs role)))) fun z =>
    z.setOwn role fun o => { o with sync := .inSync }
/-- TWIN_LANE_DOWN: no frame for 1 ms; with both down every LANE standby is STALE. -/
def execTwinLaneDown (t i : Nat) (s : State) : Host.Outcome State Fault Refusal :=
  wheneverOn (decide (i < 2)) s t (fun z => z.netRuns && z.net.own.any (fun (o : OwnRole) => o.kind == .twin)
      && !(tget false z.net.twinDown i) && elapsed (tget 0 z.net.twinLast i) 1000000 z.now) fun z =>
    let z1 := { z with net := { z.net with
      twinDown := tset z.net.twinDown i true, twinDownCount := inc64 z.net.twinDownCount } }
    let z2 := z1.event evTwinLaneDown 0 0 (v0 := some (i : Int))
    if z2.twinGone then
      (z2.net.own.filter fun (o : OwnRole) => roleKind o.role == 2).foldl (fun y o => y.toStale o.role) z2
    else z2
/-- LOOP_ITEM: an item of the helm holder reaches the standby of the lane. -/
def execLoopItem (t lane : Nat) (item : LoopItem) (s : State) : Host.Outcome State Fault Refusal :=
  wheneverOn (decide (lane < 8)) s t (fun z => (z.laneRole lane).any fun o => o.state == .standby && o.kind == .twin && o.paired) fun z =>
    let z1 := ((List.range 2).filter fun i => !(tget false z.net.twinDown i)).foldl (fun y i => y.twinHeard i) z
    match z1.laneRole lane with | none => z1 | some o => z1.loopArrives o lane item

end Sys2Proof.Machine
end

