-- ==== Sys2Proof/Machine/ResetOps.lean ====
section
/-! DEFINITION. What outlasts a reset the module makes itself (09 R271, 16 R441 to R450, 17 R461, 18 R495), and what outlasts
the loss of power (09 R271, 18 R486). -/

namespace Sys2Proof.Machine

open Sys2Proof

/-- Power-on time counted up to now (16 R449). -/
def State.onNow (s : State) : Nat := s.store.onTime + (s.now - s.store.onMark)
/-- The settings record of a generation waits, or is being written. -/
def State.settingWaits (s : State) (g : Nat) : Bool :=
  (s.store.ops.any fun o => o.kind == .settings g) || (s.store.running.any fun o => o.kind == .settings g)
/-- The store as a start finds it: what was waiting or running on the interface is gone, and with it the settings whose
record was not yet written (16 R443, R446). -/
def State.storeKept (s : State) : Store :=
  { s.store with
    settings := s.store.settings.filter fun r => !s.settingWaits r.gen
    measuring := none, measureDue := false, ops := [], running := none, suspended := none, commit := none
    commitQueued := false, lastCommitEnd := s.now, deferred := false, scrub := none
    cHu := s.store.cHuHeader.map (·.1), cHuAt := (s.store.cHuHeader.map (·.2)).getD 0
    eAvail := none, onTime := s.onNow, onMark := s.now, settingsVolatile := false }
/-- The recorder as a start finds it: the ring, with the alarms that are active by its records, and SEQ going on from its newest
record (16 R450, R456, R457). -/
def State.recorderKept (s : State) : Recorder :=
  { ring := s.recorder.ring, alarms := ringAlarms s.recorder.ring, nextSeq := match s.recorder.ring with | [] => 1 | r :: _ => inc64 r.seq }
/-- Power-on time of the default image, counted up to now (17 R475). -/
def State.imageNow (s : State) : Nat :=
  s.sec.imageOn + (if 2 ≤ s.power.stage && s.sec.active == s.sec.default_ && !s.sec.trial && !s.sec.recovery then
    s.now - s.sec.imageMark else 0)
/-- Lifecycle, keys and images as a start finds them; `caused` is a reset that the image caused (17 R468, R472 to R475). -/
def State.secKept (s : State) (caused : Bool) : Security :=
  { lifecycle := s.sec.lifecycle, keyGens := s.sec.keyGens, signerRevoked := s.sec.signerRevoked
    slots := s.sec.slots.map fun x => (x.1, if x.2.state == .writing then { x.2 with state := .empty, upload := [], bytes := 0 } else x.2)
    active := s.sec.active, default_ := s.sec.default_, tryMark := s.sec.tryMark, rollback := s.sec.rollback
    imageOn := if caused then 0 else s.imageNow, imageMark := s.now }
/-- Retention registers and the levels at the safety balls (09 R271, R282). -/
def State.safetyKept (s : State) : Safety :=
  let a := s.safety
  { ({} : Safety) with
    lanes := a.lanes.map fun (x : Nat × LaneSafety) => (x.1, { ({} : LaneSafety) with latch := x.2.latch, latchCauses := x.2.latchCauses })
    moduleLatch := a.moduleLatch, moduleCauses := a.moduleCauses, estopA := a.estopA, estopB := a.estopB
    fireIn := a.fireIn, clear := a.clear, clearFell := a.clearFell, outRead := a.outRead
    windows := a.windows.filter fun w => w.source == fwSafetyCore || w.source == fwBareRock
    rockHold := a.rockHold, resetHold := a.resetHold }
/-- The line inputs of a lane as their balls read them. -/
def laneKept (l : Lane) : Lane :=
  { ({} : Lane) with
    helmIn := l.helmIn, helmLowSince := l.helmLowSince, kNeg := { ({} : Contactor) with fb := l.kNeg.fb }
    kPos := { ({} : Contactor) with fb := l.kPos.fb }, kPre := { ({} : Contactor) with fb := l.kPre.fb } }
/-- Power inputs, and what a start takes over from before it (18 R481, R487). -/
def State.powerKept (s : State) (brownout : Bool) : Power :=
  { ({} : Power) with
    on := true, bootAt := s.now, ports := s.power.ports, brownout := brownout, lastFail := s.power.lastFail
    refloatIn := s.power.refloatIn, stageAt := [(0, some s.now)], boardMa := 0, vstore := s.power.vstore }
/-- A reset that the module makes itself (09 R258, R286; 17 R463, R476; 18 R487, R495): it starts again from stage 0. The clock
keeps its nanoseconds (log entry 48). -/
def State.selfReset (s : State) (caused : Bool := false) (brownout : Bool := false) : State :=
  { State.reset with
    clock := { ns := s.clock.ns, frac := s.clock.frac }
    lanes := s.lanes.map fun (x : Nat × Lane) => (x.1, laneKept x.2)
    ana := { State.reset.ana with
      icv := (List.range 8).map fun n => (n, { ({} : Icv) with windowStart := s.now, resetAt := s.now })
      calStored := s.ana.calStored.filter fun (r : CalRec) => !s.settingWaits r.gen }
    model := { State.reset.model with storedBlocks := s.model.storedBlocks }
    safety := s.safetyKept
    net := { State.reset.net with
      lans := s.net.lans.map fun (x : Nat × NetLan) => (x.1, { ({} : NetLan) with mac := x.2.mac, framesOut := s.lanFrames x.1 })
      vlan := s.net.vlan, safetyVlan := s.net.safetyVlan, storedBerth := s.net.storedBerth, serial := s.net.serial
      twinSideB := s.net.twinSideB, priorities := s.net.priorities }
    fab := { State.reset.fab with lpddr := s.fab.lpddr, sram := s.fab.sram }
    mbox := { State.reset.mbox with responses := s.mbox.responses }
    store := s.storeKept
    recorder := s.recorderKept
    sec := s.secKept caused
    power := s.powerKept brownout
    out := s.out
    fresh := s.fresh
    pending := s.pending }
/-- The module without power (18 R486 step 6): what only the latches held is cleared, and what the store and the fuses hold
stays. -/
def State.unpowered (s : State) : State :=
  let z := s.selfReset
  { z with
    safety := { ({} : Safety) with
      estopA := s.safety.estopA, estopB := s.safety.estopB, fireIn := s.safety.fireIn, clear := s.safety.clear
      clearFell := s.safety.clearFell }
    fab := { z.fab with lpddr := [], sram := [] }
    store := { z.store with vHu := 0, measuredBoot := false }
    power := { ({} : Power) with refloatIn := s.power.refloatIn } }

end Sys2Proof.Machine
end

