-- ==== Sys2Proof/Machine/Protect.lean ====
section
/-! DEFINITION. Chapter 09, protection and the safety layer: the SAFETY commands, safety core faults, comparators, the
hardwired inputs and outputs, CLEAR, the safe channel, counted faults and BARE ROCK. -/

namespace Sys2Proof.Machine

open Sys2Proof

/-! ## Trips that a change brings (R259, R260) -/

/-- The lanes on which a cause arrives, against the state before, trip. -/
def State.tripNew (s before : State) (c : Nat) (lanes : List Nat) : State :=
  (lanes.filter fun n => s.causeActive n c && before.arrives n c).foldl (fun z n => z.tripLane n c) s
/-- A cause whose scope is every lane. -/
def State.tripEvery (s before : State) (c : Nat) : State :=
  ((s.latchFor 0 c).tripNew before c (List.range 8)).recheckArming
/-- Causes that received bits and links in SAFE bring. -/
def State.tripLinks (s before : State) : State :=
  ((List.range 8).foldl (fun z n =>
    z.tripCauses n ([trSafeLink, trRemote].filter fun c => z.causeActive n c && before.arrives n c)) s).recheckArming

/-! ## Reading (R287) -/

/-- SAFETY.STATUS (R287). -/
def execSafetyStatus (src : Source) (s : State) : Host.Outcome State Fault Refusal :=
  runCommand src 0x1301 (fun z =>
    let a := z.safety
    okWith z ([fb a.moduleLatch, f8 (maskOf a.moduleCauses)]
      ++ (List.range 8).flatMap (fun n => [fb (z.laneSafe n).latch, f8 (maskOf (z.laneSafe n).latchCauses)])
      ++ [fb a.estopA, fb a.estopB, fb a.fireIn, fb a.clear]
      ++ (List.range 4).flatMap (fun k => [fb (z.safeOut k), fb ((tget none a.outRead k).getD (z.safeOut k))])
      ++ [fb (z.safeLan 0).down, fb (z.safeLan 1).down, f1 (maskOf ((List.range 8).filter z.permissive))
         , f1 ((a.rock.map (·.1)).getD 0)])) s
/-- SAFETY.LINK_STATUS (R287). -/
def execSafetyLinkStatus (src : Source) (sender link : Nat) (s : State) : Host.Outcome State Fault Refusal :=
  runCommand src 0x1307 (fun z => checked z [(decide (sender < 4096) && decide (link < 65536), stInvalidArg)]
    (match z.safety.rx.find? fun r => r.berth == sender && r.linkId == link with
    | none => refuse z stInvalidArg
    | some r => okWith z [fb r.safe, f4 (r.lastSeq.getD 0), f8 (z.now - r.lastAt), f8 r.crcErr, f8 z.safety.unknownLinks
                         , f8 r.age, f8 r.stale, f8 r.singleCopy, f8 r.copyMismatch])) s
/-- The trip causes in code order, with 18 R486's. -/
def tripCodes : List Nat := (List.range 15).map (· + 1) ++ [0x20, 0x21, 0x22, 0x23, 0x24, 0x25]
/-- SAFETY.COUNTERS_READ (R287). -/
def execSafetyCountersRead (src : Source) (clear : Bool) (s : State) : Host.Outcome State Fault Refusal :=
  runCommand src 0x130A (fun z =>
    let a := z.safety
    let z1 := if clear then { z with safety := { a with
        transients := [], lastings := [], trips := [], clearsOk := 0, clearsRefused := 0 } } else z
    okWith z1 ((List.range 7).map (fun k => f8 (tget 0 a.transients k)) ++ (List.range 7).map (fun k => f8 (tget 0 a.lastings k))
      ++ tripCodes.map (fun c => f8 (tget 0 a.trips c)) ++ [f8 a.clearsRefused, f8 a.clearsOk])) s

/-! ## Settings (R261, R267, R268, R277, R282, R287) -/

/-- Give a lane its limits (R262, R263). -/
def State.limitsDo (s : State) (n ov uv plt : Nat) : State :=
  s.updLaneSafe n fun x => { x with ov := some ov, uv := some uv, portLostTime := plt }
/-- SAFETY.LIMITS_SET (R287). -/
def execSafetyLimitsSet (src : Source) (lane ov uv plt : Nat) (s : State) : Host.Outcome State Fault Refusal :=
  runCommand src 0x1302 (fun z => (checked z
    [ (decide (lane < 8) && decide (ov < 65535) && decide (uv < ov) && within 10 1000 plt, stInvalidArg)
    , (!z.anyArmed, stLaneArmed) ]
    (ok (z.limitsDo lane ov uv plt))).persisted 0x1302 lane (.safetyLimitsSet src lane ov uv plt)) s
/-- Set a lane's thresholds and write them to its comparators (R261). -/
def State.ocDo (s : State) (n str ph filt : Nat) : State :=
  (s.updLaneSafe n fun x => { x with ocString := some str, ocPhase := some ph, ocFilter := filt }).compWrite n
/-- The lane's comparators whose input must have coefficients: the string current and its configured phases, every phase
of a lane not configured (R125, R261; DEDUCED, log entry 74). -/
def State.compNeeded (s : State) (n : Nat) : List Nat :=
  match (s.lane n).cfg with
  | none => List.range 7
  | some c => List.range (c.phases + 1)
/-- SAFETY.OC_SET (R261, R287). -/
def execSafetyOcSet (src : Source) (lane str ph filt : Nat) (s : State) : Host.Outcome State Fault Refusal :=
  runCommand src 0x1303 (fun z => (checked z
    [ (decide (lane < 8) && decide (str < 2 ^ 31) && decide (ph < 2 ^ 31) && decide (filt ≤ 80) && filt % 10 == 0, stInvalidArg)
    , (!z.anyArmed, stLaneArmed)
    , ((z.compNeeded lane).all fun k => (z.compCode lane k 0).isSome, stUncalibrated) ]
    (ok (z.ocDo lane str ph filt))).persisted 0x1303 lane (.safetyOcSet src lane str ph filt)) s
/-- Set the discrepancy time, FIRE_IN and the output masks (R267, R268). -/
def State.ioDo (s : State) (disc : Nat) (fire : Bool) (masks : List Nat) : State :=
  { s with safety := { s.safety with
      discTime := disc, fireEnable := fire
      outMask := (List.range 4).foldl (fun t k => tset t k (masks.getD k 0xE000FF00)) s.safety.outMask } }
/-- SAFETY.IO_SET (R287): FIRE_IN that is low when it is enabled trips. -/
def execSafetyIoSet (src : Source) (disc : Nat) (fireEn : Bool) (masks : List Nat) (s : State) :
    Host.Outcome State Fault Refusal :=
  runCommand src 0x1304 (fun z => (checked z
    [ (within 10 500 disc && masks.length == 4 && masks.all (· < 2 ^ 32), stInvalidArg), (!z.anyArmed, stLaneArmed) ]
    (let z1 := z.ioDo disc fireEn masks
     ok (if z1.fireActive && !z.fireActive then z1.tripEvery z trFire else z1))).persisted 0x1304 0
       (.safetyIoSet src disc fireEn masks)) s
/-- Set HB. -/
def State.hbDo (s : State) (hb : Nat) : State := { s with safety := { s.safety with hb := hb } }
/-- SAFETY.CHANNEL_SET (R277, R287), HB in ns. -/
def execSafetyChannelSet (src : Source) (hb : Nat) (s : State) : Host.Outcome State Fault Refusal :=
  runCommand src 0x1305 (fun z => (checked z
    [ (within 250000 2500000 hb && z.safety.rx.all fun r => decide (6 * hb ≤ r.watchdog), stInvalidArg)
    , (!z.anyArmed, stLaneArmed) ]
    (ok (z.hbDo hb))).persisted 0x1305 0 (.safetyChannelSet src hb)) s
/-- The WATCHDOG of a request: 3 ms, or 6 × HB rounded up to a whole ms where that is longer, unless given. -/
def linkWatchdog (hb : Nat) (w : Option Nat) : Nat := w.getD (max 3000000 ((6 * hb + 999999) / 1000000 * 1000000))
/-- A bit source or action is in range. -/
def sourceOk : BitSource → Bool
  | .laneTripped n | .laneLatched n | .precursor n => decide (n < 8)
  | .received b l k => decide (b < 4096) && decide (l < 65536) && decide (k < 256)
  | _ => true
def actionOk : BitAction → Bool
  | .trip m => decide (m < 256)
  | .outputs m => decide (m < 16)
  | .tripOutputs m o => decide (m < 256) && decide (o < 16)
  | _ => true
/-- The fields of a LINK_SET are in range (R277). -/
def linkOk (hb : Nat) (l : LinkSet) : Bool :=
  decide (l.linkId < 65536)
  && (if l.send then decide (l.dest < 2 ^ 48) && l.sources.all fun x => decide (x.1 < 256) && sourceOk x.2
      else decide (l.berth < 4096) && l.actions.all (fun x => decide (x.1 < 256) && actionOk x.2)
        && (let w := linkWatchdog hb l.watchdog
            within 2000000 100000000 w && decide (6 * hb ≤ w))
        && within 100000 1000000 (l.skew.getD 500000) && within 100000 50000000 (l.maxAge.getD 2000000))
/-- There is room for the link. -/
def State.linkRoom (s : State) (l : LinkSet) : Bool :=
  if l.send then decide ((s.safety.tx.filter fun x => x.linkId != l.linkId).length < 32)
  else decide ((s.safety.rx.filter fun x => !(x.berth == l.berth && x.linkId == l.linkId)).length < 64)
/-- Configure a link; a link already configured starts afresh. -/
def State.linkDo (s : State) (l : LinkSet) : State :=
  if l.send then
    { s with safety := { s.safety with
        tx := (s.safety.tx.filter fun x => x.linkId != l.linkId)
          ++ [{ linkId := l.linkId, dest := l.dest, sources := l.sources, lastSent := s.now }] } }
  else
    { s with safety := { s.safety with
        rx := (s.safety.rx.filter fun x => !(x.berth == l.berth && x.linkId == l.linkId))
          ++ [{ berth := l.berth, linkId := l.linkId, watchdog := linkWatchdog s.safety.hb l.watchdog
                skew := l.skew.getD 500000, maxAge := l.maxAge.getD 2000000, actions := l.actions, lastAt := s.now }] } }
/-- SAFETY.LINK_SET (R277, R287). -/
def execSafetyLinkSet (src : Source) (l : LinkSet) (s : State) : Host.Outcome State Fault Refusal :=
  runCommand src 0x1306 (fun z => (checked z
    [(linkOk z.safety.hb l && z.linkRoom l, stInvalidArg), (!z.anyArmed, stLaneArmed)]
    (ok (z.linkDo l).recheckArming)).persisted 0x1306
      ((if l.send then 2 ^ 31 else linkObject l.berth 0) + l.linkId) (.safetyLinkSet src l)) s
/-- Set N and W of a source; the newest N times are kept. -/
def State.windowDo (s : State) (k n w : Nat) : State :=
  { s with safety := { s.safety with winN := tset s.safety.winN k (some n), winW := tset s.safety.winW k (some w) } }
/-- SAFETY.WINDOW_SET (R282, R287), W in ns. -/
def execSafetyWindowSet (src : Source) (source n w : Nat) (s : State) : Host.Outcome State Fault Refusal :=
  runCommand src 0x1308 (fun z => (checked z
    [ (decide (source < 7) && within 1 255 n && within 1000000 86400000000000 w, stInvalidArg)
    , (decide (source < 5), stFixed), (!z.anyArmed, stLaneArmed) ]
    (ok (z.windowDo source n w))).persisted 0x1308 source (.safetyWindowSet src source n w)) s
/-- SAFETY.BARE_ROCK (R284). -/
def execSafetyBareRock (src : Source) (s : State) : Host.Outcome State Fault Refusal :=
  runCommand src 0x1309 (fun z => ok (z.enterRock 4)) s

/-! ## Safety core faults (R257, R258) -/

/-- A safety core fault, unless one is being handled: every role is lost and no RELEASE is sent (12 R354). -/
def State.safetyFault (s : State) : State := if s.safety.coreFault.isSome then s else s.coreFault.releaseAll false
/-- SFA and SFB run: stage 1 has been reached. -/
def State.safetyRuns (s : State) : Bool := s.power.on && decide (1 ≤ s.power.stage)
/-- LOCKSTEP_MISMATCH (R258, 01 R22): either pair alone. -/
def execLockstepMismatch (t : Nat) (_sfb : Bool) (s : State) : Host.Outcome State Fault Refusal :=
  whenever s t State.safetyRuns State.safetyFault
/-- CROSS_WATCHDOG (01 R22, R258). -/
def execCrossWatchdog (t : Nat) (_sfb : Bool) (s : State) : Host.Outcome State Fault Refusal :=
  whenever s t State.safetyRuns State.safetyFault
/-- CONFIG_CRC_CHECK (R257): every 100 ms. -/
def execConfigCrcCheck (t : Nat) (ok : Bool) (s : State) : Host.Outcome State Fault Refusal :=
  whenever s t (fun z => z.safetyRuns && elapsed z.safety.configCrcAt 100000000 z.now) (fun z =>
    let z1 := { z with safety := { z.safety with configCrcAt := z.now } }
    if ok then z1 else z1.safetyFault)
/-- The healthy pair writes the records of a fault to the ring (R258). -/
def State.writeFaultRecords (s : State) (from_ : Nat) : State :=
  let rs := s.recorder.cache.filter fun r => decide (from_ ≤ r.time)
  let base := match s.recorder.ring with | [] => 0 | r :: _ => r.seq
  { s with recorder := { s.recorder with
      ring := ((rs.zipIdx.map fun (x : EventRec × Nat) => { x.1 with seq := base + 1 + x.2 }).reverse ++ s.recorder.ring).take 2096128
      cache := [] } }
/-- SAFETY_CORE_RESET (R258): 10 ms after the fault. -/
def execSafetyCoreReset (t : Nat) (s : State) : Host.Outcome State Fault Refusal :=
  whenever s t (fun z => elapsedO z.safety.coreFault 10000000 z.now)
    (fun z => (z.writeFaultRecords (z.safety.coreFault.getD 0)).selfReset)

/-! ## Overcurrent comparators (R261) -/

/-- A comparator is changed. -/
def State.updComp (s : State) (n k : Nat) (f : Comparator → Comparator) : State :=
  s.updLaneSafe n fun x => { x with comps := tset x.comps k (f (tget {} x.comps k)) }
/-- The threshold of a comparator, mA; none where it is not set. -/
def State.compThreshold (s : State) (n k : Nat) : Option Nat :=
  if (tget {} (s.laneSafe n).comps k).code.isNone then none
  else if k = 0 then (s.laneSafe n).ocString else (s.laneSafe n).ocPhase
/-- The lane has the comparator. -/
def State.hasComp (s : State) (n k : Nat) : Bool :=
  match (s.lane n).cfg with | none => false | some c => decide (k ≤ c.phases)
/-- OVERCURRENT_TRIP (R261): |value| has exceeded the threshold for longer than the filter time. -/
def execOvercurrentTrip (t lane comp : Nat) (value : Int) (s : State) : Host.Outcome State Fault Refusal :=
  wheneverOn (decide (lane < 8) && decide (comp < 7)) s t
    (fun z => z.hasComp lane comp && !(tget {} (z.laneSafe lane).comps comp).tripped
      && (match z.compThreshold lane comp with | none => false | some thr => decide (thr < value.natAbs)))
    (fun z =>
      let z1 := z.updComp lane comp fun c => { c with tripped := true }
      (z1.tripNew z trOvercurrent [lane]).recheckArming)
/-- COMPARATOR_RELEASE (R261): the input has been below 90 % of the threshold for 1 ms. -/
def execComparatorRelease (t lane comp : Nat) (s : State) : Host.Outcome State Fault Refusal :=
  wheneverOn (decide (lane < 8) && decide (comp < 7)) s t (fun z => (tget {} (z.laneSafe lane).comps comp).tripped)
    (fun z => z.updComp lane comp fun c => { c with tripped := false })
/-- THRESHOLD_READBACK (R261): every 10 ms; a code that differs is a cause of OVERCURRENT until a read-back agrees. -/
def execThresholdReadback (t lane comp code : Nat) (s : State) : Host.Outcome State Fault Refusal :=
  wheneverOn (decide (lane < 8) && decide (comp < 7)) s t
    (fun z => (tget {} (z.laneSafe lane).comps comp).code.isSome
      && elapsed (tget {} (z.laneSafe lane).comps comp).readAt 10000000 z.now)
    (fun z =>
      let z1 := z.updComp lane comp fun c => { c with readAt := z.now, readBad := c.code != some code }
      (z1.tripNew z trOvercurrent [lane]).recheckArming)

/-! ## Lost ports (R263) -/

/-- The condition of R263: a port outside RUN, or a present cell at 0xFFFF in 3 frames. -/
def State.derateCond (s : State) (n : Nat) : Bool :=
  (s.portsOf n).any fun p => (s.port p).state != .run || (s.port p).coldRun.any fun k => decide (3 ≤ k.2)
/-- PORT_DERATE (R263). -/
def execPortDerate (t lane : Nat) (s : State) : Host.Outcome State Fault Refusal :=
  wheneverOn (decide (lane < 8)) s t
    (fun z => laneArmed (z.lane lane).state && !(z.laneSafe lane).derate && z.derateCond lane)
    (fun z => z.updLaneSafe lane fun x => { x with derate := true, derateSince := some z.now })
/-- PORT_LOST (R263). -/
def execPortLost (t lane : Nat) (s : State) : Host.Outcome State Fault Refusal :=
  wheneverOn (decide (lane < 8)) s t
    (fun z => laneArmed (z.lane lane).state && (z.laneSafe lane).derate && z.derateCond lane
      && elapsedO (z.laneSafe lane).derateSince ((z.laneSafe lane).portLostTime * 1000000) z.now)
    (fun z => z.tripLane lane trPortLost)

/-! ## Hardwired inputs (R267) -/

/-- The levels of the E-STOP channels, with the time they have differed or have both been high. -/
def State.estopLevels (s : State) (a b : Bool) : State :=
  { s with safety := { s.safety with
      estopA := a, estopB := b
      discrepancySince := if a == b then none else some (s.safety.discrepancySince.getD s.now)
      bothHighSince := if a && b then some (s.safety.bothHighSince.getD s.now) else none } }
/-- ESTOP (R267): a channel's debounced level falls. -/
def execEstop (t : Nat) (channelB : Bool) (s : State) : Host.Outcome State Fault Refusal :=
  whenever s t (fun z => z.safetyRuns && (if channelB then z.safety.estopB else z.safety.estopA))
    (fun z => (if channelB then z.estopLevels z.safety.estopA false else z.estopLevels false z.safety.estopB).tripEvery z
      trEstop)
/-- ESTOP_DISCREPANCY (R267). -/
def execEstopDiscrepancy (t : Nat) (s : State) : Host.Outcome State Fault Refusal :=
  whenever s t
    (fun z => z.safetyRuns && !z.safety.discrepancy
      && elapsedO z.safety.discrepancySince (z.safety.discTime * 1000000) z.now)
    (fun z =>
      let z1 := { z with safety := { z.safety with discrepancy := true } }
      ((z1.setModuleLatch trEstop).event evEstopDiscrepancy 0 0).recheckArming)
/-- ESTOP_RECOVERED (R267): both channels have been high for 1 s. -/
def execEstopRecovered (t : Nat) (s : State) : Host.Outcome State Fault Refusal :=
  whenever s t (fun z => z.safety.discrepancy && elapsedO z.safety.bothHighSince 1000000000 z.now)
    (fun z => { z with safety := { z.safety with discrepancy := false } })
/-- FIRE (R267): FIRE_IN's debounced level falls; it trips while the input is enabled. -/
def execFire (t : Nat) (s : State) : Host.Outcome State Fault Refusal :=
  whenever s t (fun z => z.safetyRuns && z.safety.fireIn) (fun z =>
    let z1 := { z with safety := { z.safety with fireIn := false } }
    if z.safety.fireEnable then z1.tripEvery z trFire else z1)
/-- SAFETY_INPUT_HEALTHY (R267): an input's debounced level rises. -/
def execSafetyInputHealthy (t : Nat) (input : SafeInput) (s : State) : Host.Outcome State Fault Refusal :=
  whenever s t State.safetyRuns (fun z => match input with
    | .estopA => z.estopLevels true z.safety.estopB
    | .estopB => z.estopLevels z.safety.estopA true
    | .fireIn => { z with safety := { z.safety with fireIn := true } })

/-! ## Safe outputs (R268) -/

/-- The read-backs that disagreed and now agree are forgotten; the fault ends with the last of them. -/
def State.outCheck (s : State) : State :=
  let rest := s.safety.outRead.filter fun (x : Nat × Option Bool) => x.2.isSome && x.2 != some (s.safeOut x.1)
  let s1 := { s with safety := { s.safety with outRead := rest, outFault := !rest.isEmpty } }
  if s.safety.outFault && rest.isEmpty then s1.clearAlarm evSafeOutFault 0 0 else s1
/-- SAFE_OUT_FAULT (R268): the read-back has disagreed with the output for 10 ms. -/
def execSafeOutFault (t out : Nat) (s : State) : Host.Outcome State Fault Refusal :=
  wheneverOn (decide (out < 4)) s t
    (fun z => z.safetyRuns && z.safety.outConfigured && (tget none z.safety.outRead out).isNone)
    (fun z =>
      let z1 := { z with safety := { z.safety with
          outRead := tset z.safety.outRead out (some !(z.safeOut out)), outFault := true } }
      (z1.raise evSafeOutFault 0 0 (v0 := some out)).tripEvery z trSafeOut)

/-! ## CLEAR (R271 to R273, R286) -/

/-- Release one latch, or record why it stays. -/
def State.clearLatch (s : State) (lane : Option Nat) (causes : List Nat) : State :=
  let kind := if lane.isNone then 0 else 1
  let object := lane.getD 0
  match causes.find? fun c => s.causeActive object c with
  | some c => s.event evClearRefused kind object (cause := c)
  | none =>
    (match lane with
     | none => { s with safety := { s.safety with moduleLatch := false, moduleCauses := [] } }
     | some n => s.updLaneSafe n fun x => { x with latch := false, latchCauses := [] }).event evLatchReleased kind object
/-- Every latch at a clean edge. -/
def State.clearLatches (s : State) : State :=
  let s1 := (List.range 8).foldl (fun z n =>
    if (z.laneSafe n).latch then z.clearLatch (some n) (z.laneSafe n).latchCauses else z) s
  if s1.safety.moduleLatch then s1.clearLatch none s1.safety.moduleCauses else s1
/-- The die has been cool for 60 s (R286). -/
def State.dieCool (s : State) : Bool :=
  !s.therm.die.broken && elapsedO s.therm.die.coolSince 60000000000 s.now
/-- No entry cause of BARE ROCK other than the one it was entered by remains active: the die state is the only cause that
lasts (R283, R286; log entry 50). -/
def State.rockFree (s : State) : Bool := !s.safety.rockHold && (!s.safety.rockActive.contains 1 || s.dieCool)
/-- A clean CLEAR edge (R273, R282, R286). -/
def State.cleanEdge (s : State) : State :=
  let s1 := { s with safety := { s.safety with clearsOk := inc64 s.safety.clearsOk } }.outCheck
  let s2 := s1.clearLatches
  let s3 := { s2 with safety := { s2.safety with rx := s2.safety.rx.map fun r => { r with stuck := false } } }
  if s3.power.state == .bareRock && (s3.safety.rock.map (·.1)) != some 1 && s3.rockFree then s3.selfReset else s3
/-- CLEAR_EDGE (R272): CLEAR falls after a low of `lowNs` and a high of `highNs`. -/
def execClearEdge (t lowNs highNs : Nat) (s : State) : Host.Outcome State Fault Refusal :=
  whenever s t
    (fun z => z.safetyRuns && decide ((z.safety.clearFell.getD 0) + lowNs + highNs ≤ z.now))
    (fun z =>
      let z1 := { z with safety := { z.safety with clear := false, clearStuck := false, clearFell := some z.now } }
      if 50000000 ≤ lowNs && within 100000000 2000000000 highNs then z1.cleanEdge
      else { z1 with safety := { z1.safety with clearsRefused := inc64 z1.safety.clearsRefused } })
/-- CLEAR_STUCK (R272): 2 s after the rise. -/
def execClearStuck (t rose : Nat) (s : State) : Host.Outcome State Fault Refusal :=
  whenever s t
    (fun z => z.safetyRuns && !z.safety.clearStuck && elapsed rose 2000000000 z.now
      && decide ((z.safety.clearFell.getD 0) ≤ rose))
    (fun z => { z with safety := { z.safety with clear := true, clearStuck := true } }.event evClearStuck 0 0)

/-! ## The safe channel, sending (R274 to R277) -/

/-- The value of a bit source. -/
def State.bitValue (s : State) : BitSource → Bool
  | .zero => false
  | .laneTripped n => (s.lane n).state == .tripped
  | .laneLatched n => (s.laneSafe n).latch
  | .moduleLatch => s.safety.moduleLatch
  | .estop => s.estopActive
  | .fire => s.fireActive
  | .precursor n => (s.laneTherm n).precursor
  | .bareRock => s.power.state == .bareRock
  | .received b l k => s.safety.rx.any fun r => r.berth == b && r.linkId == l && r.bit k
/-- DATA of a sent link. -/
def State.linkBits (s : State) (x : LinkTx) : Nat := maskOf ((x.sources.filter fun y => s.bitValue y.2).map (·.1))
/-- The 64 bytes of a frame (R275, R276). -/
def safeBytes (berth link seq txTime state bits : Nat) (timeOk : Bool) : List Byte :=
  let a := beBytes 2 1 ++ [1, if timeOk then 0x80 else 0] ++ beBytes 2 berth ++ beBytes 2 link ++ beBytes 4 seq
  let b := beBytes 4 state ++ beBytes 32 bits ++ beBytes 4 0
  a ++ beBytes 8 txTime ++ b ++ beBytes 4 (crc32c (a ++ b))
/-- A link's frame leaves on one LAN, or its transmit-time insertion fails (R47). -/
def State.linkOut (s : State) (x : LinkTx) (bytes : List Byte) (inserted : Bool) (lan : Lan) : State :=
  if inserted then s.emit (.safe lan x.linkId x.dest bytes) else s.insertionAbort lan
/-- Send a link's frame on both LANs; on each the one-step insertion of its transmit time completes or not. -/
def State.sendSafe (s : State) (x : LinkTx) (insertA insertB : Bool) : State :=
  let bits := s.linkBits x
  let y := { x with
    seq := (x.seq + 1) % 2 ^ 32, lastSent := s.now, lastState := s.srcState, lastBits := bits }
  let b := safeBytes s.berthField x.linkId y.seq s.now s.srcState bits s.timeOk
  let s1 : State := { s with safety := { s.safety with
    tx := s.safety.tx.map fun (w : LinkTx) => if w.linkId == x.linkId then y else w } }
  (s1.linkOut x b insertA .a).linkOut x b insertB .b
/-- SAFE_HEARTBEAT (R277): at each HB, and within 100 µs of a change of SRC_STATE or a sourced bit. -/
def execSafeHeartbeat (t : Nat) (due : SafeDue) (s : State) : Host.Outcome State Fault Refusal :=
  whenever s t (fun z => z.safetyRuns && z.safety.outConfigured && z.net.berth.isSome
      && (match z.safety.tx.find? fun x => x.linkId == due.linkId with
          | none => false
          | some x => elapsed x.lastSent z.safety.hb z.now || x.lastState != z.srcState || x.lastBits != z.linkBits x))
    (fun z => match z.safety.tx.find? fun x => x.linkId == due.linkId with
      | none => z
      | some x => z.sendSafe x due.insertA due.insertB)

/-! ## The safe channel, receiving (R278 to R281) -/

/-- The link of a sender and LINK_ID. -/
def State.rxLink (s : State) (berth link : Nat) : Option LinkRx :=
  s.safety.rx.find? fun r => r.berth == berth && r.linkId == link
/-- The received links with one changed. -/
def State.updRx (s : State) (berth link : Nat) (f : LinkRx → LinkRx) : State :=
  { s with safety := { s.safety with
      rx := s.safety.rx.map fun r => if r.berth == berth && r.linkId == link then f r else r } }
/-- LAN number, and the other LAN. -/
def otherLan : Lan → Lan | .a => .b | .b => .a
/-- For 4 × HB no frame has come on a LAN while frames have come on the other (R278). -/
def State.lanSilent (s : State) (l : Lan) : Bool :=
  elapsed (s.safeLan (lanIx l)).lastFrame (4 * s.safety.hb) s.now
  && decide (s.now < (s.safeLan (lanIx (otherLan l))).lastFrame + 4 * s.safety.hb)
/-- A LAN is DOWN now. -/
def State.lanDownNow (s : State) (l : Lan) : Bool := (s.safeLan (lanIx l)).down || s.lanSilent l
/-- Bytes 0 to 11 and 20 to 59 agree, and TX_TIMEs differ by at most 50 µs (R280). -/
def copiesEqual (a b : List Byte) : Bool :=
  a.take 12 == b.take 12 && slice a 20 40 == slice b 20 40
  && decide ((((beAt a 12 8 : Nat) : Int) - (beAt b 12 8 : Nat)).natAbs ≤ 50000)
/-- DATA of a frame (R10, R275). -/
def frameBits (b : List Byte) : Nat := beAt b 24 32
/-- A link takes a frame (R280, R281). -/
def LinkRx.accept (r : LinkRx) (b : List Byte) (now : Nat) : LinkRx :=
  { r with lastSeq := some (beAt b 8 4), lastBytes := b, lastAt := now, bits := frameBits b, safe := r.stuck
           held := r.held.filter fun h => h.seq != beAt b 8 4 }
/-- Take a frame on a link, with the trips that its bits bring. -/
def State.acceptFrame (s : State) (berth link : Nat) (b : List Byte) : State :=
  (s.updRx berth link fun r => r.accept b s.now).tripLinks s
/-- The link enters SAFE. -/
def State.linkToSafe (s : State) (berth link : Nat) : State :=
  (s.updRx berth link fun r => { r with safe := true }).tripLinks s
/-- COPY_MISMATCH (R280, R282). -/
def State.copyMismatch (s : State) (berth link seq : Nat) : State :=
  let s1 := s.updRx berth link fun r => { r with
    copyMismatch := inc64 r.copyMismatch, held := r.held.filter fun h => h.seq != seq }
  let q := s1.faultEvent fwCopyMismatch (linkObject berth link)
  let s2 := if q.1 then q.2.updRx berth link fun r => { r with stuck := true } else q.2
  s2.linkToSafe berth link
/-- SINGLE_COPY of one held copy. -/
def State.singleCopy (s : State) (berth link seq : Nat) : State :=
  (s.updRx berth link fun r => { r with
    singleCopy := inc64 r.singleCopy, held := r.held.filter fun h => h.seq != seq }).singleCopyFault
/-- The sequence is not behind the last accepted one (R279 step 4); in SAFE any sequence will do (R281). -/
def LinkRx.fresh (r : LinkRx) (seq : Nat) : Bool :=
  r.safe || (match r.lastSeq with | none => true | some q => decide ((seq + 2 ^ 32 - q) % 2 ^ 32 ≤ 2 ^ 31 - 1))
/-- Take a held copy because the other LAN is DOWN. -/
def State.takeHeld (s : State) (berth link : Nat) (h : HeldCopy) : State :=
  match s.rxLink berth link with
  | none => s
  | some r =>
    if r.fresh h.seq then s.acceptFrame berth link h.bytes
    else s.updRx berth link fun r => { r with stale := inc64 r.stale, held := r.held.filter fun x => x.seq != h.seq }
/-- The copies that wait for a LAN that is now DOWN are accepted (R280). -/
def State.releaseHeld (s : State) (downLan : Lan) : State :=
  s.safety.rx.foldl (fun z r =>
    (r.held.filter fun h => h.lan != downLan && decide (z.now ≤ h.at_ + r.skew)).foldl
      (fun y h => y.takeHeld r.berth r.linkId h) z) s
/-- The table of R280 on a copy that passed R279. -/
def State.decideCopy (s : State) (lan : Lan) (r : LinkRx) (b : List Byte) : State :=
  let seq := beAt b 8 4
  match r.held.find? fun h => h.seq == seq && decide (s.now ≤ h.at_ + r.skew) with
  | some h =>
    if h.lan == lan then s
    else if copiesEqual h.bytes b then s.acceptFrame r.berth r.linkId b
    else s.copyMismatch r.berth r.linkId seq
  | none =>
    if r.lastSeq == some seq && !r.safe then
      if copiesEqual r.lastBytes b then s else s.copyMismatch r.berth r.linkId seq
    else if s.lanDownNow (otherLan lan) then s.acceptFrame r.berth r.linkId b
    else s.updRx r.berth r.linkId fun x => { x with held := x.held ++ [{ seq := seq, lan := lan, at_ := s.now, bytes := b }] }
/-- VERSION, KIND, reserved fields and CRC hold (R279 step 1). -/
def safeFrameOk (b : List Byte) : Bool :=
  b.length == 64 && beAt b 0 2 == 1 && beAt b 2 1 == 1 && beAt b 3 1 % 128 == 0 && decide (beAt b 4 2 < 4096)
  && beAt b 20 4 &&& 0x070000FF == 0 && beAt b 56 4 == 0 && beAt b 60 4 == crc32c (b.take 12 ++ slice b 20 40)
/-- The age rule (R279 step 3). -/
def State.ageOk (s : State) (r : LinkRx) (b : List Byte) : Bool :=
  if beAt b 3 1 ≥ 128 && (s.servo.state == .locked || s.servo.state == .holdover) then
    withinI (-10000) r.maxAge ((s.now : Int) - (beAt b 12 8 : Nat))
  else true
/-- A frame with a good FCS on a LAN, for R278. -/
def State.lanHeard (s : State) (l : Lan) : State :=
  let i := lanIx l
  let x := s.safeLan i
  let gap := decide (x.lastFrame + 4 * s.safety.hb < s.now)
  (s.setSafeLan i { x with
    lastFrame := s.now, upSince := if x.down then (if gap then some s.now else some (x.upSince.getD s.now)) else none }).linkUp i s.now
/-- SAFE_FRAME (R279, R280). -/
def execSafeFrame (t : Nat) (lan : Lan) (bytes : List (BitVec 8)) (s : State) : Host.Outcome State Fault Refusal :=
  whenever (s.frameIn (lanIx lan) t) t (fun z => z.safetyRuns && z.safety.outConfigured) (fun z0 =>
    let z := z0.lanHeard lan
    let berth := beAt bytes 4 2
    let link := beAt bytes 6 2
    let known := z.rxLink berth link
    if !safeFrameOk bytes then
      (match known with
       | none => { z with safety := { z.safety with strayCrc := inc64 z.safety.strayCrc } }
       | some _ => z.updRx berth link fun r => { r with crcErr := inc64 r.crcErr })
    else match known with
      | none => { z with safety := { z.safety with unknownLinks := inc64 z.safety.unknownLinks } }
      | some r =>
        if !z.ageOk r bytes then z.updRx berth link fun r => { r with age := inc64 r.age }
        else if !r.fresh (beAt bytes 8 4) then z.updRx berth link fun r => { r with stale := inc64 r.stale }
        else z.decideCopy lan r bytes)
/-- SKEW_EXPIRY (R280): a copy is still alone when its SKEW ends; one that waits for a LAN that is DOWN at that moment is
accepted. -/
def execSkewExpiry (t berth link : Nat) (s : State) : Host.Outcome State Fault Refusal :=
  whenever s t
    (fun z => match z.rxLink berth link with
      | none => false | some r => r.held.any fun h => elapsed h.at_ r.skew z.now)
    (fun z => match z.rxLink berth link with
      | none => z
      | some r => (r.held.filter fun h => elapsed h.at_ r.skew z.now).foldl (fun y h =>
          if h.at_ + r.skew = y.now && y.lanDownNow (otherLan h.lan) then y.takeHeld berth link h
          else y.singleCopy berth link h.seq) z)
/-- SAFE_LINK_WATCHDOG (R281). -/
def execSafeLinkWatchdog (t berth link : Nat) (s : State) : Host.Outcome State Fault Refusal :=
  whenever s t
    (fun z => z.safetyRuns && z.safety.outConfigured && (match z.rxLink berth link with
      | none => false | some r => !r.safe && elapsed r.lastAt r.watchdog z.now))
    (fun z => z.linkToSafe berth link)
/-- LAN_DOWN (R278). -/
def execLanDown (t : Nat) (lan : Lan) (linkLoss : Bool) (s : State) : Host.Outcome State Fault Refusal :=
  whenever s t (fun z => z.safetyRuns && !(z.safeLan (lanIx lan)).down && (linkLoss || z.lanSilent lan)) (fun z =>
    let z1 := z.updSafeLan (lanIx lan) fun x => { x with down := true, upSince := none }
    let z2 := if linkLoss then z1.updNetLan (lanIx lan) fun n => { n with link := false } else z1
    (z2.event evLanDown 13 (lanIx lan) (cause := if linkLoss then 1 else 2)).releaseHeld lan)
/-- LAN_UP (R278). -/
def execLanUp (t : Nat) (lan : Lan) (s : State) : Host.Outcome State Fault Refusal :=
  whenever s t
    (fun z => (z.safeLan (lanIx lan)).down && elapsedO (z.safeLan (lanIx lan)).upSince (100 * z.safety.hb) z.now
      && !z.lanSilent lan)
    (fun z => (z.updSafeLan (lanIx lan) fun x => { x with down := false, upSince := none }).event evLanUp 13 (lanIx lan))

/-! ## Memory errors (R282, R283; 01 R26, 12 R354) -/

/-- The fault of an LPDDR5 page without a spare is that of the tenants whose window holds it (log entry 52). -/
def State.pageFault (s : State) (page : Nat) : State :=
  (s.slotNumbers.filter fun n =>
    let x := s.slot n
    let size := (x.running.map (·.windowBytes)).getD 0
    x.state != .empty && decide (x.windowBase ≤ page * 4096 ∧ page * 4096 < x.windowBase + size)).foldl
    (fun z n => z.slotFault n) s
/-- ECC_CORRECTED (01 R26, R282). -/
def execEccCorrected (t : Nat) (sram : Bool) (object : Nat) (s : State) : Host.Outcome State Fault Refusal :=
  wheneverOn (decide (object < if sram then 65536 else 917504)) s t (fun _ => true) (fun z =>
    let o := if sram then 2 ^ 31 + object else object
    let z0 := { z with safety := { z.safety with
        eccCounts := tset z.safety.eccCounts o (inc64 (tget 0 z.safety.eccCounts o)) } }
    let r := z0.faultEvent fwEcc o
    if !r.1 then r.2
    else if !sram && decide (0 < r.2.safety.sparePages) then
      { r.2 with safety := { r.2.safety with
          retired := insertAsc object r.2.safety.retired, sparePages := r.2.safety.sparePages - 1 } }
    else if sram then (match unitOfBlock object with | none => r.2 | some u => r.2.computeFault u)
    else r.2.pageFault object)
/-- UNCORRECTABLE_ERROR (01 R26, R283): an engine that consumes poisoned data raises an active compute path fault; an error
in the running images or in supervisor memory enters BARE ROCK, and one in safety memory is a safety core fault (DEDUCED, log
entry 154). A page or a block that no engine has to itself stays poisoned until something reads it. -/
def State.uncorrectable (s : State) : EccUnit → State
  | .supervisorMemory => s.enterRock 3 (some 1)
  | .runningImages => s.enterRock 3 (some 0)
  | .supervisor _ => s
  | .lpddrPage p =>
    let s1 := { s with fab := { s.fab with poisoned := insertAsc p s.fab.poisoned } }
    if p < 32768 then s1.enterRock 3 (some 0) else s1
  | .sramBlock b => match unitOfBlock b with
    | none =>
      if 50688 ≤ b ∧ b < 52736 then s.safetyFault
      else { s with fab := { s.fab with poisonedSram := insertAsc b s.fab.poisonedSram } }
    | some .supervisorMemory => s.enterRock 3 (some 1)
    | some u => s.computeFault u
  | u => s.computeFault u
def execUncorrectableError (t : Nat) (u : EccUnit) (s : State) : Host.Outcome State Fault Refusal :=
  whenever s t (fun _ => true) (fun z => z.uncorrectable u)
/-- SUPERVISOR_WATCHDOG (R283): suspended for a core that the debugger has halted (17 R470). -/
def execSupervisorWatchdog (t core : Nat) (s : State) : Host.Outcome State Fault Refusal :=
  wheneverOn (decide (core < 4)) s t
    (fun z => z.safetyRuns && decide (2 ≤ z.power.stage) && z.power.state != .bareRock
      && !(z.power.state == .beached && core == 1) && !z.sec.halted.contains core)
    (fun z => z.enterRock 2 (some (core : Int)))

/-! ## BARE ROCK (R284 to R286, 02 R64) -/

/-- BARE_ROCK_STROBE (02 R64, R285): every 10 ms. -/
def execBareRockStrobe (t : Nat) (s : State) : Host.Outcome State Fault Refusal :=
  whenever s t (fun z => z.power.state == .bareRock && elapsed z.safety.rockStrobeAt 10000000 z.now) (fun z =>
    let tag := z.pos
    let z1 := { z with
      safety := { z.safety with rockStrobeAt := z.now, rockStrobes := z.safety.rockStrobes + 1 }
      model := { z.model with syncTag := some tag } }
    ((List.range 128).filter fun p => (z.port p).synced).foldl (fun y p => y.sendSync p z.now tag z.now false false false) z1)
/-- BARE_ROCK_EXIT (R286): the die cause, 60 s of cool readings. -/
def execBareRockExit (t : Nat) (s : State) : Host.Outcome State Fault Refusal :=
  whenever s t
    (fun z => z.power.state == .bareRock && (z.safety.rock.map (·.1)) == some 1 && z.dieCool && !z.safety.rockHold)
    State.selfReset

end Sys2Proof.Machine
end

