-- ==== Sys2Proof/Machine/Store.lean ====
section
/-! DEFINITION. The serial store and the event recorder: the STORE and EVENT commands, writes, the hold-up check, wear, scrub
(16), and the end of a learned commit (06 R193). -/

namespace Sys2Proof.Machine

open Sys2Proof

/-! ## Devices and wear (R451 to R454) -/

/-- The device is used. -/
def Device.used (d : Device) : Bool := d.present && !d.failed
/-- Thirty days of power-on time, ns. -/
def monthNs : Nat := 30 * 86400 * 10 ^ 9
/-- The device's retries of the last 30 days of power-on time. -/
def State.recentRetries (s : State) (d : Device) : List Nat := d.retryTimes.filter fun t => decide (s.onNow < t + monthNs)
/-- The device is at a stage, or stays at a later one. -/
def Device.atStage (d : Device) (st : WearStage) : Device :=
  if wearOrder d.stage < wearOrder st then { d with stage := st } else d
/-- Learned slots of a device whose two sectors can be written. -/
def Device.usableSlots (d : Device) : Nat :=
  ((List.range 64).filter fun k => !d.lost.contains (0x180 + 2 * k) && !d.lost.contains (0x181 + 2 * k)).length
/-- The learned log is volatile: the mode becomes HOST_HELD, the values in use are kept and no commit is made (06 R193, R453). -/
def State.volatileNow (s : State) : State :=
  if s.storeStage == .volatile then
    ({ s with
        model := { s.model with native := false }
        store := { s.store with
          commit := none, commitQueued := false, ops := s.store.ops.filter fun (o : Op) => o.kind != StoreOp.commitPage
          running := s.store.running.filter fun (o : Op) => o.kind != StoreOp.commitPage } }).deferralEnds.raise evLearnVolatile 0 0
  else s
/-- The settings log has no usable sector. -/
def State.settingsGone (s : State) : Bool :=
  [0, 1].all fun d => !(s.device d).used || (List.range 128).all fun k => (s.device d).lost.contains (0x100 + k)
/-- What the state of the devices brings with it. -/
def State.wearEffects (s : State) : State :=
  let s1 := [0, 1].foldl (fun z k => z.updDevice k fun d => if d.usableSlots < 4 then d.atStage .volatile else d) s
  let s2 := s1.volatileNow
  if s2.settingsGone && !s2.store.settingsVolatile then
    ({ s2 with store := { s2.store with settingsVolatile := true } }).raise evSettingsVolatile 0 0
  else s2
/-- A sector of a device is bad: retired to the lowest free spare, or without one left as it is (R452, R453). -/
def State.badSector (s : State) (k sector : Nat) : State :=
  let d := s.device k
  if d.badSectors.contains sector && !(d.remap.any fun x => x.1 == sector) then s
  else if 0 < d.sparesLeft then
    let s1 := s.setDevice k { (d.atStage .retiring) with
      badSectors := insertAsc sector d.badSectors, sparesLeft := d.sparesLeft - 1
      remap := d.remap.filter (fun x => x.1 != sector) ++ [(sector, 254 - d.sparesLeft)] }
    ({ s1 with store := { s1.store with headerGen := s1.store.headerGen + 1 } }).event evSectorRetired 9 k (v0 := some (sector : Int))
  else
    let s1 := s.setDevice k { (d.atStage .keyEventsOnly) with
      badSectors := insertAsc sector d.badSectors, remap := d.remap.filter fun x => x.1 != sector }
    ((s1.raise evKeyEventsOnly 9 k)).wearEffects
/-- A reprogram of a page is counted against its device (R451, R453). -/
def State.retried (s : State) (k : Nat) : State :=
  let d := s.device k
  let times := s.onNow :: s.recentRetries d
  let s1 := s.setDevice k { d with retries := d.retries + 1, retryTimes := times }
  if 64 < times.length && wearOrder d.stage < wearOrder .wearWatch then
    (s1.updDevice k fun x => x.atStage .wearWatch).raise evWearWatch 9 k
  else s1

/-! ## Operations of the interface (R447, R451) -/

/-- The sector that an operation writes or erases (R442); the place of a settings record is not stated and is free. -/
def State.opSector (s : State) (o : Op) : Nat :=
  match o.kind with
  | .recorder _ => 0x800 + s.recorder.nextSeq / 1024 % 2048
  | .commitPage => 0x180 + 2 * ((s.store.genCommit + 1) % 64)
  | .settings _ => 0x100 + Config.freeNat s.fresh % 128
  | .header => s.store.headerGen % 2
  | .image _ => (if s.sec.active = 0 then 0x500 else 0x200) + (s.imgSlot (1 - s.sec.active)).bytes / 65536
  | .erase k => k
/-- What is left of an operation when one page of it is done. -/
def opLeft : StoreOp → Option StoreOp
  | .recorder n => if 4 < n then some (.recorder (n - 4)) else none
  | .image n => if 256 < n then some (.image (n - 256)) else none
  | .commitPage => some .commitPage
  | _ => none
/-- The operation at the next page, its tries counted anew. -/
def Op.next (o : Op) (k : StoreOp) : Op := { o with kind := k, tries0 := 0, tries1 := 0, given := [] }
/-- The header holds C_HU and its time as measured last (R444, R449). -/
def State.headerWritten (s : State) : State :=
  { s with store := { s.store with
      headerGen := s.store.headerGen + 1, cHuHeader := s.store.cHu.map fun c => (c, s.store.cHuAt) } }
/-- A page of the running operation has been programmed. -/
def State.pageOver (s : State) (o : Op) : State :=
  match o.kind, opLeft o.kind with
  | .commitPage, _ =>
    let s1 := { s with store := { s.store with
        commit := s.store.commit.map fun (c : Commit) => { c with pagesLeft := c.pagesLeft - 1 }
        running := none, ops := o.next .commitPage :: s.store.ops } }
    s1.storeServe
  | .header, _ => ({ s.headerWritten with store := { s.headerWritten.store with running := none } }).deferralEnds.storeServe
  | _, some k => ({ s with store := { s.store with running := none, ops := o.next k :: s.store.ops } }).storeServe
  | _, none => (({ s with store := { s.store with running := none } }).deferralEnds).storeServe
/-- The commit running has failed its check on both devices: the store is VOLATILE (R453). -/
def State.commitFailed (s : State) : State :=
  let s1 := { s with store := { s.store with commit := none, commitQueued := false, running := none } }
  ([0, 1].foldl (fun (y : State) k => y.updDevice k fun d => d.atStage .volatile) s1).volatileNow.deferralEnds.storeServe
/-- The devices on which a write or an erase failed. -/
def State.failing (s : State) (ok0 ok1 : Bool) : List Nat :=
  (if ok0 || !(s.device 0).used then [] else [0]) ++ (if ok1 || !(s.device 1).used then [] else [1])
/-- Reprograms of the page on a device. -/
def Op.tries (o : Op) (k : Nat) : Nat := if k = 0 then o.tries0 else o.tries1
/-- PAGE_PROGRAM_DONE: a page has been read back; a device on which it is wrong is programmed again, up to three times, and
then its sector is bad. -/
def execPageProgramDone (t : Nat) (ok0 ok1 : Bool) (s : State) : Host.Outcome State Fault Refusal :=
  whenever s t (fun z => z.power.on && (z.store.running.any fun o => match o.kind with | .erase _ => false | _ => true)) fun z =>
    match z.store.running with
    | none => z
    | some o =>
      let bad := (z.failing ok0 ok1).filter fun k => !o.given.contains k
      if bad.isEmpty then z.pageOver o
      else
        let again := bad.filter fun k => decide (o.tries k < 3)
        let up := bad.filter fun k => decide (3 ≤ o.tries k)
        let sector := z.opSector o
        let z1 := up.foldl (fun y k => y.badSector k sector) (if up.isEmpty then z else { z with fresh := z.fresh + 1 })
        let z2 := again.foldl (fun y k => y.retried k) z1
        let o2 := { o with
          tries0 := if again.contains 0 then o.tries0 + 1 else o.tries0
          tries1 := if again.contains 1 then o.tries1 + 1 else o.tries1
          given := o.given ++ up }
        if !again.isEmpty then { z2 with store := { z2.store with running := some o2 } }
        else if o.kind == .commitPage && [0, 1].all (fun k => !(z.device k).used || o2.given.contains k) then z2.commitFailed
        else z2.pageOver o2
/-- ERASE_DONE: an erase that a device reports failed makes the sector bad. -/
def execEraseDone (t : Nat) (ok0 ok1 : Bool) (s : State) : Host.Outcome State Fault Refusal :=
  whenever s t (fun z => z.power.on && (z.store.running.any fun o => match o.kind with | .erase _ => true | _ => false)) fun z =>
    match z.store.running with
    | none => z
    | some o =>
      let sector := z.opSector o
      let z1 := [0, 1].foldl (fun y k => if (y.device k).used then
        y.updDevice k fun d => { d with erases := tset d.erases sector (tget 0 d.erases sector + 1) } else y) z
      let z2 := (z1.failing ok0 ok1).foldl (fun y k => y.badSector k sector) z1
      ({ z2 with store := { z2.store with running := none } }).storeServe

/-! ## Learned commits (06 R193, R445) -/

/-- The header of a commit in its slot, with its CRC (R445). -/
def Commit.header (c : Commit) (ports : Nat) (body : List Byte) : List Byte :=
  let h := leBytes 4 0x4C524E44 ++ leBytes 2 1 ++ leBytes 2 ports ++ leBytes 8 c.generation ++ leBytes 8 c.startedAt
    ++ leBytes 2 c.lanes.length ++ leBytes 2 0 ++ leBytes 4 body.length ++ leBytes 4 (crc32 body) ++ leBytes 24 0
  h ++ leBytes 4 (crc32 h)
/-- The port entries and lane entries of a commit (R445). -/
def Commit.body (c : Commit) : List Byte :=
  (c.blocks.flatMap fun x => match x.2 with
    | none => []
    | some (serial, l) => leBytes 1 x.1 ++ leBytes 7 0 ++ blockBytes serial l ++ leBytes 4 0)
  ++ c.lanes.flatMap fun x => leBytes 1 x.1 ++ leBytes 7 0 ++ x.2.flatMap (leBytes 8)
/-- The last 64 bytes of a commit's slot, whose CRC covers the header too (R445). -/
def Commit.footer (c : Commit) (header : List Byte) : List Byte :=
  let f := leBytes 4 0x544F4F46 ++ leBytes 4 0 ++ leBytes 8 c.generation
  f ++ leBytes 4 (crc32 (header ++ f)) ++ leBytes 44 0
/-- The 128 KiB of a commit's slot; 0 stands for the bytes between body and footer, which stay erased (R445). -/
def Commit.slotBytes (c : Commit) : List Byte :=
  let h := c.header (c.blocks.filter fun x => x.2.isSome).length c.body
  fitBytes 131008 (h ++ c.body) ++ c.footer h
/-- A slot is valid: its three CRCs hold and both GENERATION fields agree (R445). -/
def slotValid (b : List Byte) : Bool :=
  let f := b.drop 131008
  leAt b 0 4 == 0x4C524E44 && leAt f 0 4 == 0x544F4F46 && leAt b 60 4 == crc32 (b.take 60)
  && leAt b 32 4 == crc32 (slice b 64 (leAt b 28 4)) && leAt f 16 4 == crc32 (b.take 64 ++ f.take 16)
  && leAt b 8 8 == leAt f 8 8
/-- The learned blocks in the store with those of a commit. -/
def Commit.into (c : Commit) (m : Table (Option (Nat × List Learned))) : Table (Option (Nat × List Learned)) :=
  c.blocks.foldl (fun t x => tset t x.1 x.2) m
/-- A commit's values are in the store: it is the newest valid generation. -/
def State.stored (s : State) (c : Commit) : State :=
  { s with
    model := { s.model with storedBlocks := c.into s.model.storedBlocks }
    store := { s.store with
      genCommit := c.generation, commitTime := c.startedAt, laneCounts := c.lanes, lastCommitEnd := s.now, commit := none
      running := none } }
/-- The commit running has ended well, and the one that waits starts. -/
def State.commitMade (s : State) (c : Commit) : State :=
  let s2 := (s.stored c).deferralEnds.event evCommitDone 0 0
  let slot := 0x180 + 2 * ((c.generation + 2) % 64)
  let s3 := ((s2.queueOp 6 (.erase slot)).queueOp 6 (.erase (slot + 1))).storeServe
  if s3.store.commitQueued then s3.startCommit else s3
/-- COMMIT_DONE: the last page of the commit, its footer, has been verified, or it has failed on both devices. -/
def execCommitDone (t : Nat) (ok : Bool) (s : State) : Host.Outcome State Fault Refusal :=
  whenever s t (fun z => z.power.on && (z.store.commit.any fun c => decide (c.pagesLeft ≤ 1))
      && (z.store.running.any fun o => o.kind == .commitPage)) fun z =>
    match z.store.commit with
    | some c => if ok then z.commitMade c else z.commitFailed
    | none => z

/-! ## The hold-up check and C_HU (R448, R449) -/

/-- Line power is present. -/
def State.linePower (s : State) : Bool := s.power.on && [0, 1].any fun k => (s.powerPort k).powered
/-- The write waits since 1 s for its check to be made again. -/
def State.checkDue (s : State) (o : Op) : Bool := !o.may && elapsed o.checkAt (10 ^ 9) s.now
/-- HOLDUP_RETRY: a write whose check failed is checked again every 1 s. -/
def execHoldupRetry (t vhu : Nat) (s : State) : Host.Outcome State Fault Refusal :=
  whenever s t (fun z => z.power.on && z.power.lossAt.isNone && z.store.ops.any z.checkDue) fun z =>
    (({ z with store := { z.store with vHu := vhu } }).holdupCheck z.checkDue).storeServe
/-- The write has waited 60 s and is not marked so. -/
def State.nowLate (s : State) (o : Op) : Bool := !o.may && !o.late && elapsed o.due (60 * 10 ^ 9) s.now
/-- STORE_DEFERRED: a write has waited 60 s. -/
def execStoreDeferred (t : Nat) (s : State) : Host.Outcome State Fault Refusal :=
  whenever s t (fun z => z.power.on && z.store.ops.any z.nowLate) fun z =>
    ({ z with store := { z.store with
        deferred := true, ops := z.store.ops.map fun (o : Op) => { o with late := o.late || z.nowLate o } } }).raise
      evStoreDeferred 0 0
/-- A measurement of C_HU is due: asked for, none held, or 30 days of power-on time old. -/
def State.measureDue (s : State) : Bool :=
  s.store.measureDue || s.store.cHu.isNone || decide (s.store.cHuAt + monthNs ≤ s.onNow)
/-- A write under R448 runs. -/
def State.guardedRuns (s : State) : Bool := s.store.running.any fun (o : Op) => o.guarded
/-- HOLDUP_MEASUREMENT, from when VHU has reached 39.2 V (18 R485): the bulk node is isolated and 0.5 A drawn from it. -/
def execHoldupMeasurement (t vhu : Nat) (s : State) : Host.Outcome State Fault Refusal :=
  whenever s t (fun z => z.linePower && z.power.state != .bareRock && z.store.measuredBoot && z.store.measuring.isNone
      && !z.guardedRuns && z.measureDue) fun z =>
    { z with store := { z.store with measuring := some (z.now, vhu), measureDue := false, vHu := vhu } }
/-- HOLDUP_MEASURED: 50 ms later, C_HU = 0.025 / ΔV; it goes into the header under R448, and at 40.0 V it must give 2.5 J. -/
def execHoldupMeasured (t vhu : Nat) (s : State) : Host.Outcome State Fault Refusal :=
  whenever s t (fun z => z.power.on && z.store.measuring.any fun m => elapsed m.1 50000000 z.now && decide (vhu < m.2)) fun z =>
    let v0 := (z.store.measuring.map (·.2)).getD 0
    let c : Rat := 25 / ((v0 : Rat) - (vhu : Rat))
    let z1 := (({ z with store := { z.store with
        measuring := none, vHu := vhu, cHu := some c, cHuAt := z.onNow } }).queueOp 3 .header).event evHoldupMeasured 0 0
    if 85 / 100 * c / 2 * (1600 - 400) < (5 : Rat) / 2 then z1.raise evHoldupLow 0 0 else z1.clearAlarm evHoldupLow 0 0

/-! ## The recorder (R455 to R458) -/

/-- A value of a record, or the marker. -/
def recVal (v : Option Int) : List Byte := leBytes 8 (ofSigned 64 (v.getD (-9223372036854775808)))
/-- The 64 bytes of a record. -/
def EventRec.bytes (r : EventRec) : List Byte :=
  let a := leBytes 4 ((if r.rock then 1 else 0) + (if r.cleared then 2 else 0) + r.source * 256 + r.severity * 4096 + r.code * 65536)
    ++ leBytes 2 r.objKind ++ leBytes 2 r.cause ++ leBytes 4 r.object ++ recVal r.v0 ++ recVal r.v1 ++ recVal r.v2
    ++ leBytes 8 r.position ++ leBytes 8 r.time ++ leBytes 8 r.seq
  a ++ leBytes 4 (crc32 a)
/-- Write the records of a batch to the ring; crossing into a sector erases the one ahead. -/
def State.writeBatch (s : State) (l : List EventRec) : State :=
  let ring := ringKeep s.ringCap (l.reverse ++ s.recorder.ring)
  let s1 := { s with recorder := { s.recorder with ring := ring, cache := s.recorder.cache.drop l.length } }
  let a := (l.head?.map (·.seq)).getD 0
  let b := (l.getLast?.map (·.seq)).getD 0
  let s2 := s1.queueOp 1 (.recorder l.length)
  if a / 1024 = b / 1024 && a % 1024 != 0 then s2 else s2.queueOp 6 (.erase (0x800 + (b / 1024 + 1) % 2048))
/-- The count of dropped records is recorded when space returns. -/
def State.countLost (s : State) : State :=
  if s.recorder.lostNow = 0 ∨ 65536 ≤ s.recorder.cache.length then s
  else
    let n := s.recorder.lostNow
    ({ s with recorder := { s.recorder with lostNow := 0 } }).event evRecordsLost 0 0 (v0 := some (n : Int))
/-- RECORD_BATCH: 64 records have gathered, or the oldest has waited 100 ms. -/
def execRecordBatch (t : Nat) (s : State) : Host.Outcome State Fault Refusal :=
  whenever s t (fun z => z.power.on && (z.power.state == .full || z.power.state == .slack)
      && (decide (64 ≤ z.recorder.cache.length) || (z.recorder.cache.head?.any fun r => elapsed r.time 100000000 z.now))) fun z =>
    (z.writeBatch (z.recorder.cache.take 64)).countLost
/-- The oldest and newest SEQ held in the ring. -/
def State.oldestSeq (s : State) : Nat := (s.recorder.ring.getLast?.map (·.seq)).getD 0
def State.newestSeq (s : State) : Nat := (s.recorder.ring.head?.map (·.seq)).getD 0

/-! ## Scrub (R454) -/

/-- A copy on a device failed or differed in a structure. -/
def State.scrubProblem (s : State) (k structure_ : Nat) : State :=
  let d := s.device k
  let s1 := s.event evScrubRepair 9 k
  if d.scrubFails.contains structure_ && d.used then
    (s1.updDevice k fun x => { x with failed := true }).raise evStoreDegraded 9 k
  else s1
/-- SCRUB: both devices have been read, compared and repaired; `problems` names device and structure. -/
def execScrub (t : Nat) (problems : List (Nat × Nat)) (s : State) : Host.Outcome State Fault Refusal :=
  whenever s t (fun z => z.power.on && z.power.state != .bareRock && z.power.state != .beached
      && (z.store.scrub.isSome || elapsed z.store.lastScrub (86400 * 10 ^ 9) z.now)) fun z =>
    let l := problems.filter fun p => decide (p.1 < 2) && (z.device p.1).used
    let z1 := l.foldl (fun y p => y.scrubProblem p.1 p.2) z
    let z2 := [0, 1].foldl (fun y k => y.updDevice k fun d => { d with
      scrubFails := (l.filter fun p => p.1 == k).map (·.2) }) z1
    ({ z2 with store := { z2.store with scrub := none, lastScrub := z.now, lastScrubRes := min l.length 255 } }).wearEffects

/-! ## Commands (R459) -/

/-- The code of a wear stage, in the order of R453. -/
def wearCode (w : WearStage) : Nat := wearOrder w
/-- C_HU in µF; 0 where there is no measurement (log entry 36). -/
def State.cHuField (s : State) : Nat := ((s.store.cHu.map fun c => (roundQ (c * 1000000)).toNat)).getD 0
/-- Writes that wait on the interface, and the longest time waited, ms. -/
def State.waitingWrites (s : State) : Nat × Nat :=
  let l := s.store.ops.filter fun o => match o.kind with | .erase _ => false | _ => true
  (l.length, (s.now - (l.map (·.due)).foldl min s.now) / 1000000)
/-- STORE.STATUS. -/
def execStoreStatus (src : Source) (s : State) : Host.Outcome State Fault Refusal :=
  runCommand src 0x1F01 (fun z =>
    okWith z (([0, 1].flatMap fun k => let d := z.device k; [fb d.present, fb d.failed, f1 (wearCode d.stage), f2 d.sparesLeft])
      ++ [f4 z.cHuField, f8 z.store.cHuAt, f4 (((z.store.eAvail.map fun e => (roundQ (e * 1000)).toNat)).getD 0),
          f2 z.waitingWrites.1, f4 z.waitingWrites.2, f8 z.store.genCommit, f8 z.store.commitTime, f8 z.store.lastScrub,
          f1 z.store.lastScrubRes])) s
/-- STORE.SCRUB. -/
def execStoreScrub (src : Source) (s : State) : Host.Outcome State Fault Refusal :=
  runCommand src 0x1F02 (fun z =>
    checked z [(z.store.scrub.isNone, stBusy)]
      (ok { z with store := { z.store with scrub := some (z.now, 0) } })) s
/-- STORE.HOLDUP_MEASURE. -/
def execStoreHoldupMeasure (src : Source) (s : State) : Host.Outcome State Fault Refusal :=
  runCommand src 0x1F03 (fun z =>
    checked z [(z.linePower, stNoLinePower), (z.store.measuring.isNone && !z.guardedRuns, stBusy)]
      (ok { z with store := { z.store with measureDue := true } })) s
/-- The regions of R442: first sector and number. -/
def storeRegions : List (Nat × Nat) :=
  [(0, 2), (2, 254), (0x100, 128), (0x180, 128), (0x200, 768), (0x500, 768), (0x800, 2048)]
/-- STORE.WEAR_READ. -/
def execStoreWearRead (src : Source) (dev : Nat) (s : State) : Host.Outcome State Fault Refusal :=
  runCommand src 0x1F04 (fun z =>
    checked z [(decide (dev < 2), stInvalidArg)]
      (let d := z.device dev
       let counts (r : Nat × Nat) : List Nat := (List.range r.2).map fun i => tget 0 d.erases (r.1 + i)
       okWith z ([f4 (z.recentRetries d).length, f4 d.retries, f2 d.remap.length]
        ++ d.remap.map (fun x => f4 (x.1 + x.2 * 65536)) ++ [f2 d.badSectors.length] ++ d.badSectors.map f2
        ++ storeRegions.flatMap fun r => [f4 ((counts r).foldl max 0), f4 ((counts r).sum / r.2)]))) s
/-- EVENT.STATUS. -/
def execEventStatus (src : Source) (s : State) : Host.Outcome State Fault Refusal :=
  runCommand src 0x2001 (fun z =>
    okWith z [f8 z.newestSeq, f8 z.oldestSeq, f4 z.recorder.ring.length, f4 z.recorder.cache.length, f8 z.recorder.lostTotal]) s
/-- EVENT.READ (R458). -/
def execEventRead (src : Source) (first count : Nat) (s : State) : Host.Outcome State Fault Refusal :=
  runCommand src 0x2002 (fun z =>
    checked z
      [(within 1 64 count, stInvalidArg), (!z.recorder.ring.isEmpty && decide (first ≤ z.newestSeq), stNotFound)]
      (let a := max first z.oldestSeq
       let l := (z.recorder.ring.filter fun r => decide (a ≤ r.seq ∧ r.seq < a + count)).reverse
       okWith z ([f8 z.oldestSeq, f8 z.oldestSeq] ++ l.map fun r => .struct r.bytes))) s

end Sys2Proof.Machine
end

