-- ==== Sys2Proof/Machine/Security.lean ====
section
/-! DEFINITION. Lifecycle, keys, the service port, debug levels and firmware update (17). -/

namespace Sys2Proof.Machine

open Sys2Proof

/-! ## Commands of the lifecycle (R461 to R463, R478) -/

/-- LIFECYCLE.STATUS. -/
def execLifecycleStatus (src : Source) (s : State) : Host.Outcome State Fault Refusal :=
  runCommand src 0x2101 (fun z =>
    okWith z ([f1 (lifecycleCode z.sec.lifecycle), f1 z.sec.keyGens.length, f2 Config.identityCert.length,
        .struct Config.identityCert, f1 z.mbox.sessions.length]
      ++ z.mbox.sessions.flatMap fun x => [f8 x.subject, fb x.timeUnchecked])) s
/-- A TURN that rotates keys ends the other sessions 10 s later (R462). -/
def State.expireSessions (s : State) (issuer : Nat) : State :=
  { s with mbox := { s.mbox with sessions := s.mbox.sessions.map fun (x : Session) =>
      if x.id = issuer || s.sec.keyGens.length < x.rootGen then x else { x with endsAt := some (x.endsAt.getD (s.now + 10 ^ 10)) } } }
/-- LIFECYCLE.TURN: the next key generation is written and becomes valid. -/
def execLifecycleTurn (src : Source) (r : TurnReq) (s : State) : Host.Outcome State Fault Refusal :=
  runCommand src 0x2102 (fun z =>
    checked z
      [ (decide (r.revoked.length ≤ 256 ∧ r.prefixLen ≤ 32), stInvalidArg),
        (decide (z.sec.keyGens.length < 16), stKeysExhausted),
        (r.rootIsCa, stBadKeys),
        (z.sec.lifecycle != .parted, stPathRefused) ]
      (let g : KeyGen := { root := r.root, delivery := r.delivery, revoked := r.revoked, ipv4 := some (r.ipv4, r.prefixLen) }
       let z1 := if z.sec.lifecycle == .blank then z else z.expireSessions src.box
       ok (({ z1 with sec := { z1.sec with
          keyGens := g :: z1.sec.keyGens
          lifecycle := if z1.sec.lifecycle == Lifecycle.blank then Lifecycle.turned else z1.sec.lifecycle } }).event evLifecycleTurn 0 0))) s
/-- LIFECYCLE.SEAL. -/
def execLifecycleSeal (src : Source) (s : State) : Host.Outcome State Fault Refusal :=
  runCommand src 0x2103 (fun z =>
    checked z [(z.sec.lifecycle == .turned, stNotTurned), (z.sec.debug != .invasive, stBusy)]
      (ok (({ z with sec := { z.sec with lifecycle := .sealed } }).event evLifecycleSeal 0 0))) s
/-- Run a command that resets the module once its answer has been handed over. -/
def runReset (src : Source) (code : Nat) (checks : State → List (Bool × Nat)) (f : State → State) (s : State) :
    Host.Outcome State Fault Refusal :=
  match gate s src code with
  | .closed => .next s
  | .refused st => done s (s.answer src code st [])
  | .runs =>
    let a := checked s (checks s) (ok s)
    if a.status = some stOk then done s (f (s.answer src code stOk [])).selfReset
    else done s (s.answer src code (a.status.getD stOk) [])
/-- The settings log is erased: settings, coefficients and the berth (R463, 16 R446). -/
def State.eraseSettings (s : State) : State :=
  { s with
    store := { s.store with settings := [] }
    ana := { s.ana with calStored := State.reset.ana.calStored }
    net := { s.net with storedBerth := none } }
/-- LIFECYCLE.DECOMMISSION (R463); a BLANK module has no move to PARTED (R462; log entry 75). -/
def execLifecycleDecommission (src : Source) (serial : Nat) (s : State) : Host.Outcome State Fault Refusal :=
  runReset src 0x2104
    (fun z => [(serial == z.net.serial, stConfirmMismatch), (!z.anyArmed, stLaneArmed), (!z.holdsAny, stRoleHeld),
      (z.sec.lifecycle != .blank, stPathRefused)])
    (fun z =>
      let z1 := z.eraseSettings
      let z2 := ({ z1 with sec := { z1.sec with lifecycle := .parted } }).event evLifecycleParted 0 0
      z2.writeBatch z2.recorder.cache) s

/-! ## Debug levels (R468 to R470) -/

/-- DEBUG.STATUS; the session is 255 for none (log entry 36). -/
def execDebugStatus (src : Source) (s : State) : Host.Outcome State Fault Refusal :=
  runCommand src 0x2201 (fun z =>
    okWith z ([f1 (debugCode z.sec.debug), f1 (z.sec.debugSession.getD 255), f1 z.sec.halted.length] ++ z.sec.halted.map f1)) s
/-- A level is in force. -/
def State.debugTo (s : State) (l : DebugLevel) (session : Option Nat) : State :=
  ({ s with sec := { s.sec with debug := l, debugSession := session } }).event evDebugLevel 0 0 (v0 := some (debugCode l : Int))
/-- Entry to invasive (R470): FULL, every role released, slots STOPPED, gates low and contactors off. -/
def State.goInvasive (s : State) (session : Nat) : State :=
  let s1 := ((s.debugTo .invasive (some session)).slackExit.releaseAll true).stopTenants
  let s2 := (List.range 8).foldl (fun (z : State) n => z.laneUnheld n) s1
  (List.range 8).foldl (fun (z : State) n => z.updLane n fun l => l.forceGates.openAll z.now) s2
/-- DEBUG.LEVEL_SET. -/
def execDebugLevelSet (src : Source) (level : Nat) (s : State) : Host.Outcome State Fault Refusal :=
  runCommand src 0x2202 (fun z =>
    let moves := (List.range 8).any fun n => match (z.lane n).state with | .arming | .run | .disarming => true | _ => false
    checked z
      [ (decide (level < 3), stInvalidArg),
        (z.sec.debug != .invasive || level == 2, stResetNeeded),
        (level != 2 || !moves, stLaneArmed),
        (level != 2 || z.sec.lifecycle != .sealed, stPathRefused) ]
      (ok (if level = debugCode z.sec.debug then z
        else match level with
          | 0 => z.debugTo .none_ none
          | 1 => z.debugTo .observe (some src.box)
          | _ => z.goInvasive src.box))) s
/-- DEBUG_HALT: at invasive the debugger halts a supervisor core, whose watchdog SFA suspends (R470). -/
def execDebugHalt (t core : Nat) (s : State) : Host.Outcome State Fault Refusal :=
  wheneverOn (decide (core < 4)) s t (fun z => z.sec.debug == .invasive) fun z =>
    { z with sec := { z.sec with halted := insertAsc core z.sec.halted } }

/-! ## Image packages and slots (R472, R473) -/

/-- The code of a slot's state, in the order of R472. -/
def imgCode : ImgState → Nat
  | .empty => 0 | .writing => 1 | .pending => 2 | .running => 3 | .good => 4 | .rejected => 5
/-- Bytes of a header that are reserved. -/
def reservedZero (b : List Byte) : Bool :=
  leAt b 23 1 == 0 && leAt b 28 4 == 0 && (slice b 196 60).all fun x => x == 0
/-- The checks of R473 on a package received, in order; none where all pass. -/
def State.packageErr (s : State) (b : List Byte) (gapOk : Bool) : Option Nat :=
  let keyId := leAt b 6 1
  let want := if s.sec.lifecycle == .blank then 1 else 2
  let key := if keyId = 1 then Config.factoryKey else ((s.sec.keyGens.head?).map (·.delivery)).getD 0
  let f := leAt b 20 2
  let bad := leAt b 0 4 != 0x47504B43 || leAt b 4 2 != 1 || !within 1 50331392 (leAt b 24 4) || !reservedZero b
    || b.length != 256 + leAt b 24 4
  if bad then some stPackageCheck
  else if keyId ≠ want ∨ !Config.unwraps key (slice b 32 40) then some stKeyAbsent
  else if !gapOk && (s.net.format + 1 < f || f + 1 < s.net.format) then some stFormatStep
  else none
/-- The slot of a package that has passed its checks: KEY_ID 0, its content key wrapped under the device storage key. -/
def pendingSlot (x : ImgSlot) (b : List Byte) : ImgSlot :=
  { x with
    state := .pending
    upload := b.take 6 ++ [0] ++ slice b 7 25 ++ fitBytes 40 (Config.rewrapped (slice b 32 40)) ++ b.drop 72
    fwVersion := leAt b 16 4, build := leAt b 8 8
    format := leAt b 20 2, rollback := leAt b 22 1, signer := leAt b 7 1, rejectCause := 0, generation := x.generation + 1
    bytes := b.length }
/-- A sector of an image slot is bad without a spare: the slot is unwritable (16 R453). -/
def State.slotUnwritable (s : State) (k : Nat) : Bool :=
  let lo := if k = 0 then 0x200 else 0x500
  [0, 1].any fun d => (s.device d).used && (s.device d).lost.any fun x => decide (lo ≤ x ∧ x < lo + 768)
/-- UPDATE.STATUS. -/
def execUpdateStatus (src : Source) (s : State) : Host.Outcome State Fault Refusal :=
  runCommand src 0x2301 (fun z =>
    okWith z (([0, 1].flatMap fun k =>
        let x := z.imgSlot k
        let cause := if x.state != .empty && x.rollback < z.sec.rollback then 2 else x.rejectCause
        [f1 (imgCode x.state), f4 x.fwVersion, f8 x.build, f2 x.format, f1 x.rollback, f1 cause])
      ++ [f1 z.sec.default_, f1 (z.sec.tryMark.getD 255), f1 z.sec.rollback, f8 z.imageNow])) s
/-- UPDATE.IMAGE_WRITE (R473). -/
def execUpdateImageWrite (src : Source) (offset : Nat) (bytes : List Byte) (last gapOk : Bool) (s : State) :
    Host.Outcome State Fault Refusal :=
  runCommand src 0x2302 (fun z =>
    let k := 1 - z.sec.active
    let x := z.imgSlot k
    let have_ := if offset = 0 then [] else x.upload
    let all := have_ ++ bytes
    checked z
      [ (decide (all.length ≤ 50331648) && (offset == 0 || (x.state == .writing && offset == x.upload.length)), stInvalidArg),
        (z.sec.lifecycle != .parted, stPathRefused),
        (!z.slotUnwritable k, stPackageCheck) ]
      (let z1 := if offset = 0 then z.clearAlarm evImageRejected 6 k else z
       let z2 := (z1.setImgSlot k { x with state := .writing, upload := all, bytes := all.length, rejectCause := 0 }).queueOp 5
        (.image bytes.length)
       if !last then ok z2
       else match z.packageErr all gapOk with
        | some st => ⟨some st, [], z2.setImgSlot k { x with state := .empty, upload := [], bytes := 0, rejectCause := 0 }⟩
        | none => ok ((z2.setImgSlot k (pendingSlot x all)).event evImageWritten 6 k))) s
/-- UPDATE.REBOOT (R476). -/
def execUpdateReboot (src : Source) (trial : Bool) (s : State) : Host.Outcome State Fault Refusal :=
  runReset src 0x2303
    (fun z =>
      let x := z.imgSlot (1 - z.sec.active)
      [(!z.holdsAnyActive, stRoleHeld), (!trial || x.state == .pending, stNoPending), (x.state != .writing, stBusy)])
    (fun z => if trial then { z with sec := { z.sec with tryMark := some (1 - z.sec.active) } } else z) s
/-- ROLLBACK_ADVANCED (R475): the default image has run for 72 h. -/
def execRollbackAdvanced (t : Nat) (s : State) : Host.Outcome State Fault Refusal :=
  whenever s t (fun z => z.power.on && decide (2 ≤ z.power.stage) && !z.sec.recovery && !z.sec.trial
      && z.sec.active == z.sec.default_ && decide (72 * 3600 * 10 ^ 9 ≤ z.imageNow)
      && decide (z.sec.rollback < (z.imgSlot z.sec.default_).rollback)) fun z =>
    ({ z with sec := { z.sec with rollback := min 63 (z.imgSlot z.sec.default_).rollback } }).event evRollbackAdvanced 0 0

/-! ## Choosing a slot at boot (R474, R475) -/

/-- What the check of a slot finds: none where it holds no package; some 0 where it passes; else the rejection cause. -/
def State.slotCheck (s : State) (k : Nat) (c : SlotCheck) : Option Nat :=
  let x := s.imgSlot k
  match x.state with
  | .empty | .writing => none
  | _ => some (
    if s.sec.signerRevoked.contains x.signer then 1
    else if x.rollback < s.sec.rollback then 2
    else if !c.keyOk then 3
    else if !c.gcmOk then 4
    else if !c.signatureOk then 5
    else 0)
/-- Slots in the order in which they are checked: whether one passed, and the state with those rejected recorded. -/
def State.tryBoot (s : State) (check : Nat → SlotCheck) : List Nat → Option Nat × State
  | [] => (none, s)
  | k :: r =>
    match s.slotCheck k (check k) with
    | some 0 => (some k, s)
    | none => s.tryBoot check r
    | some c =>
      ((s.updImgSlot k fun x => { x with state := .rejected, rejectCause := c }).raise evImageRejected 6 k (cause := c)).tryBoot
        check r
/-- A trial that a reset ended before stage 3 (R475). -/
def State.failTrials (s : State) : State :=
  [0, 1].foldl (fun (z : State) k => if (z.imgSlot k).state == .running then
    (z.updImgSlot k fun x => { x with state := .rejected }).raise evImageTrialFailed 6 k else z) s
/-- SVB chooses a slot and boots it, or the recovery loader runs. -/
def State.bootImage (s : State) (a b : SlotCheck) : State :=
  let s1 := s.failTrials
  let first := s1.sec.tryMark.getD s1.sec.default_
  let s2 := { s1 with sec := { s1.sec with tryMark := none } }
  match s2.tryBoot (fun k => if k = 0 then a else b) [first, 1 - first] with
  | (none, s3) => ({ s3 with sec := { s3.sec with recovery := true } }).raise evRecovery 0 0
  | (some k, s3) =>
    let x := s3.imgSlot k
    let trial := x.state == .pending || (s1.sec.tryMark == some k && k != s1.sec.default_)
    let s4 := (s3.setImgSlot k { x with state := if trial then .running else .good })
    let s5 := { s4 with
      sec := { s4.sec with active := k, trial := trial, imageMark := s4.now }
      net := { s4.net with format := x.format } }
    (s5.event evImageBooted 6 k).clearAlarm evRecovery 0 0
/-- The image on trial becomes the default one (R475). -/
def State.trialGood (s : State) : State :=
  if s.sec.trial then
    let s1 := s.updImgSlot s.sec.active fun x => { x with state := .good }
    ({ s1 with sec := { s1.sec with
        trial := false, default_ := s1.sec.active, imageOn := 0, imageMark := s1.now } }.clearAlarm evImageTrialFailed 6
      0).clearAlarm evImageTrialFailed 6 1
  else s

/-! ## The service port (R465 to R467) -/

/-- The service port is served: an image or the recovery loader runs, outside BARE ROCK. -/
def State.serviceUp (s : State) : Bool :=
  s.power.on && s.power.state != .bareRock && (s.mbox.ready || s.sec.recovery)
/-- The clock is good enough to check validity dates. -/
def State.datesChecked (s : State) : Bool := s.servo.state == .locked || s.servo.state == .holdover
/-- The root that client chains must reach: 0 the commissioning root, else the key generation (R464). -/
def State.wantedRoot (s : State) : Nat :=
  match s.sec.lifecycle with | .blank | .parted => 0 | _ => s.sec.keyGens.length
/-- The handshake keeps the parameters of R466. -/
def State.handshakeOk (s : State) (h : Handshake) : Bool :=
  h.paramsOk && h.rootGen == some s.wantedRoot && within 1 4 h.chainLen
  && !(s.wantedRoot != 0 && ((s.sec.keyGens.head?).any fun g => (h.serial :: h.others).any g.revoked.contains))
  && (!s.datesChecked || h.datesOk)
/-- A session number that is free. -/
def State.freeSession (s : State) : Nat :=
  ((List.range 64).find? fun i => !(s.mbox.sessions.any fun x => x.id == i)
    && !(s.mbox.boxes.any fun b => b.path == .service && b.box == i)).getD 64
/-- SERVICE_CONNECT: a TLS handshake; a fifth connection is closed before it. -/
def execServiceConnect (t : Nat) (hs : Handshake) (s : State) : Host.Outcome State Fault Refusal :=
  whenever s t (fun z => z.serviceUp && z.mbox.lockoutUntil.isNone && decide (z.mbox.sessions.length < 4)) fun z =>
    if z.handshakeOk hs then
      let id := z.freeSession
      ({ z with mbox := { z.mbox with sessions := z.mbox.sessions ++
          [({ id := id, subject := hs.serial, rootGen := z.wantedRoot, timeUnchecked := !z.datesChecked
              lastMsgAt := z.now } : Session)] } }).event evSessionOpen 0 0 (v0 := some (id : Int))
    else
      let fails := (z.now :: z.mbox.fails).filter fun a => decide (z.now < a + 60 * 10 ^ 9)
      let z1 := ({ z with mbox := { z.mbox with fails := fails } }).event evSessionRefused 0 0
      if 5 ≤ fails.length then
        ({ z1 with mbox := { z1.mbox with fails := [], lockoutUntil := some (z1.now + 60 * 10 ^ 9) } }).event evServiceLockout 0 0
      else z1
/-- LOCKOUT_END: 60 s later. -/
def execLockoutEnd (t : Nat) (s : State) : Host.Outcome State Fault Refusal :=
  whenever s t (fun z => z.mbox.lockoutUntil.any fun a => decide (a ≤ z.now)) fun z =>
    { z with mbox := { z.mbox with lockoutUntil := none } }
/-- SESSION_TIMEOUT: 15 min without a message. -/
def execSessionTimeout (t session : Nat) (s : State) : Host.Outcome State Fault Refusal :=
  whenever s t (fun z => z.mbox.sessions.any fun x => x.id == session && elapsed x.lastMsgAt (900 * 10 ^ 9) z.now) fun z =>
    z.endSession session
/-- SESSION_KEY_EXPIRY: 10 s after a TURN that rotated keys. -/
def execSessionKeyExpiry (t : Nat) (s : State) : Host.Outcome State Fault Refusal :=
  whenever s t (fun z => z.mbox.sessions.any fun x => x.endsAt.any fun a => decide (a ≤ z.now)) fun z =>
    ((z.mbox.sessions.filter fun (x : Session) => x.endsAt.any fun a => decide (a ≤ z.now)).map (·.id)).foldl
      (fun (y : State) i => y.endSession i) z
/-- SESSION_CLOSE: the client closes its session. -/
def execSessionClose (t session : Nat) (s : State) : Host.Outcome State Fault Refusal :=
  whenever s t (fun z => z.mbox.sessions.any fun x => x.id == session) fun z => z.endSession session

end Sys2Proof.Machine
end

