-- ==== Sys2Proof/Machine/Tap.lean ====
section
/-! DEFINITION. The tap ports (03): the TAP commands, what arrives on a port, its windows, its training. -/

namespace Sys2Proof.Machine

open Sys2Proof

/-! ## Commands (R106) -/

/-- The code of a port state, in the order of R93. -/
def portCode : PortState → Nat
  | .off => 0 | .train => 1 | .run => 2 | .stall => 3 | .sleep => 4 | .failed => 5
/-- The response of TAP.STATUS. The fields of a HELLO that has not come and a serial that is not recorded are answered 0
(DESIGN CHOICE, log entry 149: no rule gives them a marker). -/
def tapStatusFields (p : Port) : List Field :=
  let h := p.hello.getD { version := 0, otherRun := false, dual := false, sideB := false, model := 0, serial := 0 }
  [f1 (portCode p.state), f2 p.trim, .s 2 p.asym, fb p.alignLost, f1 h.version, fb h.otherRun, fb h.dual, fb h.sideB
  , f2 h.model, f8 h.serial, f8 (p.recordedSerial.getD 0), f2 p.lastStatus, f1 p.cmdAck]
def execTapStatus (src : Source) (port : Nat) (s : State) : Host.Outcome State Fault Refusal :=
  runCommand src 0x0601 (fun z => checked z [(decide (port < 128), stInvalidArg)] (okWith z (tapStatusFields (z.port port)))) s

def execTapTrimSet (src : Source) (port : Nat) (asym : Int) (s : State) : Host.Outcome State Fault Refusal :=
  runCommand src 0x0602 (fun z => checked z [(decide (port < 128) && withinI (-500) 500 asym, stInvalidArg)]
    (ok (z.updPort port fun p => { p with asym := asym }))) s

/-- The ports that a target names. -/
def State.targetPorts (s : State) : PortOrLane → List Nat
  | .port p => [p]
  | .lane n => s.portsOf n
/-- The cells of a port follow its presence mask: one that is no longer modelled has no model and no estimate, and one
that is modelled now starts as the port's cells start (06 R165, R184). -/
def State.remodel (s : State) (p : Nat) : State :=
  let s1 := (List.range 18).foldl (fun z c =>
    if (z.modelled p).contains c then z
    else z.updCell (cellIx p c) fun k => { typ := k.typ, sensor := k.sensor, learned := k.blockValues }) s
  s1.joinCells p
/-- TAP.LIMITS_SET: no-value markers lie outside the ranges (00 R4, R5); the limits are stored, and a CONFIG is requested on each port in RUN (R106, R518). -/
def limitsSetDo (target : PortOrLane) (ov uv : Nat) (ot : Int) (cells temps : Nat) (s : State) : Answer :=
  let ps := s.targetPorts target
  checked s
    [ ((match target with | .port p => decide (p < 128) | .lane n => decide (n < 8)) && decide (ov < 65535)
        && decide (uv < ov) && withinI (-32767) 32767 ot && decide (cells < 2 ^ 18) && decide (temps < 64), stInvalidArg)
    , ((match target with | .port _ => true | .lane n => ((s.lane n).cfg).isSome), stNotFound)
    , (ps.all fun p => match s.laneOfPort p with | none => true | some n => s.holdsHelm n, stNotHelm) ]
    (ok (ps.foldl (fun z p => (z.updPort p fun x =>
      let y := { x with limits := { ov := ov, uv := uv, ot := ot, cells := cells, temps := temps } }
      if y.state == .run then y.request .config else y).remodel p) s))
/-- The setting of each port named is kept as the port's own (R518). -/
def Answer.persistedPorts (a : Answer) (ps : List Nat) (cmd : Nat → Instr) : Answer :=
  ps.foldl (fun z p => z.persisted 0x0603 p (cmd p)) a
def execTapLimitsSet (src : Source) (target : PortOrLane) (ov uv : Nat) (ot : Int) (cells temps : Nat) (s : State) :
    Host.Outcome State Fault Refusal :=
  runCommand src 0x0603 (fun z => (limitsSetDo target ov uv ot cells temps z).persistedPorts (z.targetPorts target)
    fun p => .tapLimitsSet src (.port p) ov uv ot cells temps) s

def execTapRetrain (src : Source) (port : Nat) (s : State) : Host.Outcome State Fault Refusal :=
  runCommand src 0x0604 (fun z => checked z
    [ (decide (port < 128), stInvalidArg)
    , ((z.laneOfPort port).isSome, stNotFound)
    , (match z.laneOfPort port with | none => true | some n => !laneArmed (z.lane n).state, stLaneArmed) ]
    (ok (z.toTrain port))) s

/-- The response of TAP.COUNTERS_READ. -/
def tapCounterFields (c : TapCounters) : List Field :=
  [f8 c.crcErr, f8 c.formatErr, f8 c.truncated, f8 c.instantMismatch, f8 c.duplicateData, f8 c.lateData, f8 c.missed
  , f8 c.contention, f8 c.echoOutlier, f8 c.pathDisagree, f8 c.stalls, f8 c.attempts, f8 c.failedAttempts, f8 c.unanswered]
def execTapCountersRead (src : Source) (port : Nat) (clear : Bool) (s : State) : Host.Outcome State Fault Refusal :=
  runCommand src 0x0605 (fun z => checked z [(decide (port < 128), stInvalidArg)]
    { ok (if clear then z.updPort port fun p => { p with counters := { overruns := p.counters.overruns } } else z) with
      payload := tapCounterFields (z.port port).counters }) s

/-! ## DATA (R84, R90, R92, R94 to R96, R100) -/

/-- What the sample rules say of a DATA that passed a path's checks. -/
inductive DataVerdict where | fresh | mismatch | duplicate | late | unread
  deriving DecidableEq, Repr
def dataVerdict (x : Port) (check : TapCheck) (b : List Byte) (now : Nat) (safety : Bool) : DataVerdict :=
  if check ≠ .accepted then .unread
  else match x.sync with
  | none => .mismatch
  | some y =>
    if beAt b 2 1 ≠ y.tag / 256 % 256 then .mismatch
    else if (if safety then y.safeAnswered else y.answered) then .duplicate
    else if y.t0 + 150000 < now then .late else .fresh
/-- A discard on the sample-store path is counted under its name. -/
def TapCounters.discard (c : TapCounters) (k : TapCheck) (v : DataVerdict) : TapCounters :=
  match v with
  | .fresh => c
  | .mismatch => { c with instantMismatch := inc64 c.instantMismatch }
  | .duplicate => { c with duplicateData := inc64 c.duplicateData }
  | .late => { c with lateData := inc64 c.lateData }
  | .unread => match k with
    | .accepted => c
    | .formatErr => { c with formatErr := inc64 c.formatErr }
    | .truncated => { c with truncated := inc64 c.truncated }
    | .crcErr => { c with crcErr := inc64 c.crcErr }
/-- A command that CMD_ACK answers. -/
def Port.ackedBy (p : Port) (seq : Nat) : Port :=
  if p.waiting.any fun c => c.seq == seq && decide (0 < c.sends) then p.answered seq else p
/-- The sample-store path takes a frame. -/
def State.storeFrame (s : State) (p : Nat) (b : List Byte) (f : PortSample) : State :=
  let s1 := s.updPort p fun x =>
    let y : Port := { x with
      sync := x.sync.map fun k => { k with answered := true, judged := true }
      missRun := 0, ring := (f :: x.ring).take 8, lastStatus := beAt b 4 2, cmdAck := beAt b 3 1
      configLost := beAt b 4 2 / 256 % 2 == 1, lastAcceptAt := s.now, lastBalance := f.balance, acceptedSinceRun := x.acceptedSinceRun + 1 }
    let z := y.ackedBy (beAt b 3 1)
    if z.configLost then z.wantConfig else z
  let s2 := (s1.frameToModels p f).updBalPort p fun k =>
    { k with test := k.test.map fun q => q.frame (f.volts.getD q.cell 65535) }
  if (s.port p).waiting.any fun c => c.kind == .sleep && c.seq == beAt b 3 1 && decide (0 < c.sends) then s2.toSleep p
  else s2.sendBalance p
/-- The paths disagree about a frame, or its CRC failed on the sample-store path: the counted faults (R100, 09 R282). -/
def State.frameFaults (s : State) (p : Nat) (crc disagree : Bool) : State :=
  let s1 := if crc then s.tapFault fwTapCrc p else s
  if disagree then
    (s1.updPort p fun x => { x with counters := { x.counters with pathDisagree := inc64 x.counters.pathDisagree } }).tapFault
      fwPathDisagree p
  else s1
/-- What both paths make of a frame that is no DATA (R80, R100): a discard of the sample-store path is counted, an accepted
one that is expected has its effect, and a frame accepted on one path alone counts PATH_DISAGREE. -/
def State.linkFrame (s : State) (p : Nat) (rx : TapRx) (expected : Bool) (f : State → State) : State :=
  let s1 := s.updPort p fun x => { x with counters := x.counters.discard (storeCheck rx) .unread }
  (if expected && storeCheck rx == .accepted then f s1 else s1).frameFaults p (storeCheck rx == .crcErr)
    ((storeCheck rx == .accepted) != (safetyCheck rx == .accepted))
/-- A DATA frame. -/
def tapDataDo (p : Nat) (rx : TapRx) (s : State) : State :=
  let b := rx.bytes
  let x := s.port p
  let sv := dataVerdict x (storeCheck rx) b s.now false
  let fv := dataVerdict x (safetyCheck rx) b s.now true
  let s1 := s.setPort p { x with counters := x.counters.discard (storeCheck rx) sv }
  let other := b.length == 74 && (match x.hello with | none => false | some h => h.serial != beAt b 64 8)
  let f := dataSample b ((x.sync.map (·.tag)).getD 0) x.alignLost
  let s2 :=
    if sv == .fresh && other then s1.toTrain p
    else if x.state != .run then
      if sv != .fresh then s1
      else if x.trainValid = 0 then
        s1.updPort p fun y => { y with
          trainValid := 1, sync := y.sync.map fun k => { k with answered := true, safeAnswered := true, judged := true } }
      else
        let s3 := (s1.portRun p).storeFrame p b f
        if fv == .fresh then (s3.updPort p fun y => { y with sync := y.sync.map fun k => { k with safeAnswered := true } }).sfaFrame p b f
        else s3
    else
      let s3 := if sv == .fresh then s1.storeFrame p b f else s1
      if fv == .fresh then (s3.updPort p fun y => { y with sync := y.sync.map fun k => { k with safeAnswered := true } }).sfaFrame p b f
      else s3
  s2.frameFaults p (storeCheck rx == .crcErr) ((sv == .fresh) != (fv == .fresh))
def execTapData (t port : Nat) (rx : TapRx) (s : State) : Host.Outcome State Fault Refusal :=
  wheneverOn (decide (port < 128)) s t (fun z => tapTyped rx 0x81 && (z.port port).synced) (tapDataDo port rx)

/-- A frame that both paths discard: one cut off by the module's own transmission is CONTENTION (R99), any other counts
under the name of the check that failed (R80). -/
def frameErrorDo (p : Nat) (rx : TapRx) (s : State) : State :=
  if (s.port p).txAt.any fun x => decide (rx.startEdge < x ∧ x ≤ s.now) then
    s.updPort p fun x => { x with counters := { x.counters with contention := inc64 x.counters.contention } }
  else s.linkFrame p rx false id
def execTapFrameError (t port : Nat) (rx : TapRx) (s : State) : Host.Outcome State Fault Refusal :=
  wheneverOn (decide (port < 128)) s t
    (fun z => storeCheck rx != .accepted && safetyCheck rx != .accepted && (z.port port).state != .off)
    (frameErrorDo port rx)

/-! ## Training (R93 to R95) -/

def execTrainingAttempt (t port : Nat) (s : State) : Host.Outcome State Fault Refusal :=
  wheneverOn (decide (port < 128)) s t
    (fun z => (z.port port).state == .train && (z.port port).attemptAt.isNone && (z.port port).failRun == 0
      && z.power.state != .beached)
    (fun z => z.trainStart port)

def execTrainingRetry (t port : Nat) (s : State) : Host.Outcome State Fault Refusal :=
  wheneverOn (decide (port < 128)) s t
    (fun z =>
      let x := z.port port
      x.attemptAt.isNone && z.power.state != .beached
      && ((x.state == .train && x.failRun != 0 && elapsed x.failedAt 100000000 z.now)
        || (x.state == .failed && elapsed x.failedAt (10 ^ 10) z.now)))
    (fun z => z.trainStart port)

def execTrainingTimeout (t port : Nat) (s : State) : Host.Outcome State Fault Refusal :=
  wheneverOn (decide (port < 128)) s t
    (fun z =>
      let x := z.port port
      elapsedO x.attemptAt 50000000 z.now || (x.trainStep == 1 && elapsedO x.attemptAt 2500000 z.now))
    (fun z => z.trainFail port)

/-- A HELLO: its serial is recorded, its version and model checked; CONFIG follows, or at once the ECHO exchanges where the
other module of the pair already runs the front-end (R94, R95). -/
def helloDo (p : Nat) (b : List Byte) (s : State) : State :=
  let h := helloOf b
  let x := s.port p
  let moved := match x.recordedSerial with | none => false | some k => k != h.serial
  let s1 := s.setPort p { x with
    hello := some h, recordedSerial := some h.serial, stalled := x.stalled && !moved }
  let started := (s.modelled p).filter fun c => (s.cell (cellIx p c)).started
  let s2 := if moved then (s1.event evTapNewSerial 2 p (v0 := some h.serial)).rough p started false else s1
  let s3 := { s2 with model := { s2.model with serials := tset s2.model.serials p (some h.serial) } }
  if h.version ≠ 1 || h.model = 0 || h.model = 0xFFFF then s3.trainFail p
  else if h.dual && h.otherRun then (s3.updPort p fun y => { y with trainStep := 4 }).sendEcho p s.now
  else
    let y := (s3.port p).request .config
    match y.waiting.find? fun c => c.kind == .config with
    | none => s3
    | some c =>
      (s3.setPort p { y with trainStep := 3, inFlight := some c }).drive p s.now (cmdBytes y.limits c)
def execTapHello (t port : Nat) (rx : TapRx) (s : State) : Host.Outcome State Fault Refusal :=
  wheneverOn (decide (port < 128)) s t
    (fun z => tapTyped rx 0x82 && (z.port port).state != .off)
    (fun z => z.linkFrame port rx ((z.port port).trainStep == 1 && !elapsedO (z.port port).attemptAt 2500001 z.now)
      (helloDo port rx.bytes))

/-! ## ECHO and ACK (R86, R91, R94, R96, R107) -/

/-- An ECHO_REPLY: a training result, or one of RUN. -/
def echoReplyDo (p : Nat) (startEdge : Nat) (s : State) : State :=
  let x := s.port p
  let sent := x.echoSent.getD 0
  let r : Int := (startEdge : Int) - sent - 4000 + 2 * x.asym
  if x.trainStep = 4 then
    let l := r :: x.trainEchoes
    if l.length < 16 then (s.setPort p { x with trainEchoes := l }).sendEcho p (sent - 5080 + 50000)
    else if echoClose l && trimOk (echoMean l) then
      s.setPort p { x with
        trainEchoes := l, mean := l, trim := trimOf (echoMean l), trims := [], trainStep := 5, echoSent := none
        trainValid := 0 }
    else (s.setPort p { x with trainEchoes := l }).trainFail p
  else s.setPort p { x.echoResult r s.now with echoSent := none }
def execTapEchoReply (t port : Nat) (rx : TapRx) (s : State) : Host.Outcome State Fault Refusal :=
  wheneverOn (decide (port < 128)) s t
    (fun z => tapTyped rx 0x83 && (z.port port).state != .off)
    (fun z => z.linkFrame port rx ((z.port port).echoSent.isSome && beAt rx.bytes 2 1 == (z.port port).echoToken)
      (echoReplyDo port rx.startEdge))

def execAlignLost (t port : Nat) (s : State) : Host.Outcome State Fault Refusal :=
  wheneverOn (decide (port < 128)) s t
    (fun z => (z.port port).state == .run && !(z.port port).alignLost && decide (3 ≤ (z.port port).echoOutRun))
    (fun z => (z.updPort port fun x => { x with alignLost := true, alignLostAt := z.now, mean := [], trims := [] }).event evAlignLost 2 port)

def execAlignRegained (t port : Nat) (s : State) : Host.Outcome State Fault Refusal :=
  wheneverOn (decide (port < 128)) s t
    (fun z => (z.port port).alignLost && (z.port port).mean.length == 16 && echoClose (z.port port).mean
      && !(z.port port).trims.any fun c => c.regains)
    (fun z => z.updPort port fun x => { x with
      trims := { at_ := z.now, trim := trimOf (echoMean x.mean), regains := true } :: x.trims })

def execAlignLostRetrain (t port : Nat) (s : State) : Host.Outcome State Fault Refusal :=
  wheneverOn (decide (port < 128)) s t
    (fun z => (z.port port).alignLost && elapsed (z.port port).alignLostAt (10 ^ 10) z.now) (fun z => z.toTrain port)

/-- An ACK of the command in flight. -/
def ackDo (p result : Nat) (c : TapCmd) (s : State) : State :=
  let x := s.port p
  if x.trainStep = 3 then
    if result = 0 then (s.setPort p { x.answered c.seq with trainStep := 4 }).sendEcho p s.now else s.trainFail p
  else if result = 3 && c.kind == .balance then
    s.setPort p ({ x with
      inFlight := none
      waiting := x.waiting.map fun (d : TapCmd) => if d.seq == c.seq then { d with sends := 0 } else d : Port }.wantConfig)
  else if result = 0 && c.kind == .sleep then (s.setPort p (x.answered c.seq)).toSleep p
  else s.setPort p { x.answered c.seq with configLost := x.configLost && !(c.kind == .config && result == 0) }
def execTapAck (t port : Nat) (rx : TapRx) (s : State) : Host.Outcome State Fault Refusal :=
  wheneverOn (decide (port < 128)) s t
    (fun z => tapTyped rx 0x84 && (z.port port).state != .off)
    (fun z => z.linkFrame port rx ((z.port port).inFlight.any fun c => c.seq == beAt rx.bytes 2 1)
      fun y => match (y.port port).inFlight with | none => y | some c => ackDo port (beAt rx.bytes 3 1) c y)

/-! ## Missed frames (R97, R98) -/

def execMissedFrame (t port : Nat) (s : State) : Host.Outcome State Fault Refusal :=
  wheneverOn (decide (port < 128)) s t
    (fun z => (z.port port).sync.any fun y => !y.judged && decide (y.t0 + 150000 ≤ z.now))
    (fun z =>
      let x := z.port port
      let tag := (x.sync.map (·.tag)).getD 0
      let z1 := z.setPort port { x with
        sync := x.sync.map fun y => { y with judged := true }
        missRun := if x.state == .run then x.missRun + 1 else 0, trainValid := 0
        counters := { x.counters with missed := inc64 x.counters.missed } }
      match z1.laneOfPort port with
      | none => z1
      | some n => if x.state == .run then z1.capture n port none tag else z1)

/-- A port that enters STALL in a capture marks it (07 R216). -/
def State.markStalled (s : State) (p : Nat) : State :=
  match s.laneOfPort p with
  | none => s
  | some n => s.updLaneSound n fun x => x.mapSteps fun a =>
      if stepCaptures s.baseB s.pos a then { a with stalled := p :: a.stalled } else a
def execTapStall (t port : Nat) (s : State) : Host.Outcome State Fault Refusal :=
  wheneverOn (decide (port < 128)) s t
    (fun z => (z.port port).state == .run && decide (3 ≤ (z.port port).missRun))
    (fun z =>
      ((z.event evTapStall 2 port).updPort port fun x => { x with
        ring := x.ring.map markerSample, stalled := true
        counters := { x.counters with stalls := inc64 x.counters.stalls } }).toTrain port |>.markStalled port)

/-! ## The command window (R89, R91, R96, R104, R107) -/

/-- A capture runs on the lane at the instant of a port's latest SYNC (07 R212). -/
def State.capturing (s : State) (n p : Nat) : Bool :=
  match (s.port p).sync with
  | none => false
  | some y => (s.laneSound n).steps.any (stepCaptures s.baseB y.tag)
/-- The clock time of the next instant of a lane after now: the earliest armed one, else the next base instant, or a
quarter of a base interval while its captures run; none in SLACK and BARE ROCK before it is armed. -/
def State.nextInstant (s : State) (n : Nat) : Option Nat :=
  let armed := (s.table.armed.filter fun a => a.content.kind == 1 && a.content.arg0.testBit n && decide (s.now < a.t0)).map
    fun a => a.t0
  match armed with
  | a :: r => some (r.foldl min a)
  | [] => if s.power.state == .full then
      some (s.tide.timeQ (nextBase (if (s.entry (32 + 3 * n)).enable then 4 * s.baseB else s.baseB) s.pos)).floor.toNat
    else none
/-- The first waiting command that may be sent: a BALANCE waits while the front-end has lost its configuration. -/
def Port.sendable (p : Port) : Option TapCmd := p.waiting.find? fun c => !(c.kind == .balance && p.configLost)
/-- The window's one exchange. During a capture it is an ECHO only (R104), so that a CONFIG wanted for CONFIG_LOST (R96)
waits until the capture ends (DESIGN CHOICE, log entry 146: the two rules disagree). -/
def windowDo (p : Nat) (s : State) : State :=
  let x := (s.port p).dropUnanswered
  let lane := s.laneOfPort p
  let room (ns : Nat) : Bool := match lane.bind s.nextInstant with
    | none => true
    | some t0 => decide (s.now + ns + 5000 + 7720 + x.trim ≤ t0)
  let s1 := s.setPort p { x with windowOpen := true }
  let cmd := if (match lane with | none => false | some n => s.capturing n p) then none else x.sendable
  match cmd with
  | some c =>
    if room (exchangeNs (cmdBits c.kind) 72 10000 x.trim) then
      s1.sendCmd p c
    else s1
  | none => if x.echoDue && room (exchangeNs 64 64 4010 x.trim) then s1.sendEcho p s.now else s1
def execCommandWindow (t port : Nat) (s : State) : Host.Outcome State Fault Refusal :=
  wheneverOn (decide (port < 128)) s t
    (fun z => (z.port port).state == .run && z.tablesRun && !(z.port port).windowOpen
      && (z.port port).sync.any fun y => decide (y.t0 + 150000 ≤ z.now))
    (windowDo port)

end Sys2Proof.Machine
end

