-- ==== Sys2Proof/Machine/Tenant.lean ====
section
/-! DEFINITION. Tenants, block graphs and signals: the commands of 11 R346 and the events of their cycles. -/

namespace Sys2Proof.Machine

open Sys2Proof

/-! ## TENANT commands (R346) -/

/-- What a loaded image is refused for, if anything (R324, R342). -/
def State.imageErr (s : State) (slot role : Nat) (b : List Byte) : Option Nat :=
  let g := graphOf b
  let x := s.slot slot
  let o := s.ownRole role
  let owned := s.ten.slots.any fun y => y.1 != slot && y.2.state != .empty
    && (tenantHandles b).any fun h => (y.2.localHandles.contains h
      || (y.2.staged.any fun z => (tenantHandles z.image).contains h))
  if !imageOk b then some stImageCheck
  else if leAt b 2 2 ≠ 1 then some stLibVersion
  else if x.running.isSome && s.holdsActive role && !(s.standbys role).isEmpty && o.any (fun y => y.stagedPeer != some g.id) then
    some stStandbyFirst
  else if owned then some stSignalOwned
  else none
/-- The slot with an image placed on an engine, if it can be placed (R325). -/
def State.placeImage (s : State) (slot role : Nat) (b : List Byte) : Option State :=
  let x := s.slot slot
  let g := graphOf b
  let k := if x.running.isSome then (if s.engineFits slot x.engine g then some x.engine else none)
    else (List.range 32).find? fun k => s.engineFits slot k g
  match k, s.windowFor slot g, s.giveQueues slot (max x.queueList.length g.queues) b 129 with
  | some k, some base, some s1 =>
    let g1 := { g with base := base }
    some ((s1.updSlot slot fun y =>
      if y.running.isSome then { y with staged := some g1, upload := [] }
      else { y with
        state := .stopped, role := role, running := some g1, engine := k, upload := [], localHandles := tenantHandles b
        estateHandles := estateHandles b, estateOut := [] }).placeEntries)
  | _, _, _ => none
/-- TENANT.LOAD (R324, R325, R342). -/
def execTenantLoad (src : Source) (slot role offset : Nat) (bytes : List (BitVec 8)) (last : Bool) (s : State) :
    Host.Outcome State Fault Refusal :=
  runCommand src 0x1801 (fun z =>
    let x := z.slot slot
    let up := if offset = 0 then bytes else x.upload ++ bytes
    checked z
      [ (within 1 255 slot && roleKind role == 3 && decide (role < 2 ^ 32)
          && (offset == 0 || offset == x.upload.length) && decide (up.length ≤ 4194304), stInvalidArg),
        (x.staged.isNone, stStageBusy),
        ((x.role == 0 || x.role == role)
          && !(z.net.own.any fun o => roleKind o.role == 3 && o.local_ == slot && o.role != role), stRoleMismatch) ]
      (if !last then ok (z.updSlot slot fun y => { y with upload := up })
      else
        let z1 := z.updSlot slot fun y => { y with upload := [] }
        match z.imageErr slot role up with
        | some st => refuse z1 st
        | none => match z1.placeImage slot role up with
          | none => refuse z1 stNoCapacity
          | some z2 => okWith z2 [f4 (leAt up 8 4), f1 (z2.slot slot).engine, f1 (if x.running.isSome then 1 else 0)])) s
/-- The parts of a TENANT.LOAD are at work on the slot: a command that would change it is refused with BUSY (14 R405). -/
def Slot.loading (x : Slot) : Bool := !x.upload.isEmpty
/-- TENANT.UNLOAD (R320, R327). -/
def execTenantUnload (src : Source) (slot : Nat) (s : State) : Host.Outcome State Fault Refusal :=
  runCommand src 0x1802 (fun z =>
    checked z [(decide (slot < 256), stInvalidArg), (!z.holdsActive (z.slot slot).role, stRoleHeld), (!(z.slot slot).loading, stBusy)]
      (let z1 := z.slotTo slot .stopped
       let z2 := (z1.slot slot).queueList.foldl (fun y q => y.destroyQueue q) z1
       let z3 := match (z.slot slot).activateAt with | none => z2 | some a => z2.freeEntryAt a.2
       let kept := (z3.net.own.find? fun o => roleKind o.role == 3 && o.local_ == slot).map (·.role)
       ok ((z3.setSlot slot { ({} : Slot) with role := kept.getD 0, stop := (z.slot slot).stop }).placeEntries))) s
/-- TENANT.STOP (R320). -/
def execTenantStop (src : Source) (slot : Nat) (s : State) : Host.Outcome State Fault Refusal :=
  runCommand src 0x1803 (fun z =>
    checked z [(decide (slot < 256), stInvalidArg), (!(z.slot slot).loading, stBusy)]
      (ok (((z.slotTo slot .stopped).updSlot slot fun x => { x with stop := true }).placeEntries))) s
/-- TENANT.START (R320). -/
def execTenantStart (src : Source) (slot : Nat) (s : State) : Host.Outcome State Fault Refusal :=
  runCommand src 0x1804 (fun z =>
    checked z [(decide (slot < 256), stInvalidArg), (!(z.slot slot).loading, stBusy)]
      (ok ((z.updSlot slot fun x => { x with stop := false }).placeEntries))) s
/-- The code of a slot state, in the order of R320. -/
def slotCode : SlotState → Nat
  | .empty => 0 | .stopped => 1 | .active => 2 | .shadow => 3 | .suspended => 4
/-- U in the unit of the payload: UQ16.16. -/
def shareField (q : Rat) : Nat := (roundQ (q * 65536)).toNat
/-- TENANT.STATUS. -/
def execTenantStatus (src : Source) (slot : Nat) (s : State) : Host.Outcome State Fault Refusal :=
  runCommand src 0x1805 (fun z =>
    let x := z.slot slot
    let gid (g : Option Graph) : Field := f4 ((g.map (·.id)).getD 0)
    checked z [(decide (slot < 256), stInvalidArg)]
      (okWith z [f1 (slotCode x.state), f4 x.role, f2 (((z.ownRole x.role).map (·.epoch)).getD 0), gid x.running, gid x.staged,
                 gid x.fallback, f1 x.engine, f4 (shareField ((x.running.map (·.share z.baseB)).getD 0)), f8 x.windowBase,
                 f4 ((x.running.map (·.windowBytes)).getD 0), f2 x.queueList.length,
                 .struct (x.queueList.flatMap (leBytes 2)), f8 x.cycleStart, ft x.lastFailAt, f1 x.lastFail])) s
/-- TENANT.COUNTERS_READ. -/
def execTenantCountersRead (src : Source) (slot : Nat) (clear : Bool) (s : State) : Host.Outcome State Fault Refusal :=
  runCommand src 0x1806 (fun z =>
    let x := z.slot slot
    let z1 := if clear then z.setSlot slot { x with
        cycles := 0, overruns := 0, budgets := 0, windowFails := 0, peakUs := 0, resized := 0, retyped := 0 } else z
    checked z [(decide (slot < 256), stInvalidArg)]
      (okWith z1 [f8 x.cycles, f8 x.overruns, f8 x.budgets, f8 x.windowFails, f4 x.peakUs, f8 x.resized, f8 x.retyped])) s

/-! ## GRAPH commands (R346) -/

/-- GRAPH.ACTIVATE (R343). -/
def execGraphActivate (src : Source) (slot n : Nat) (s : State) : Host.Outcome State Fault Refusal :=
  runCommand src 0x1901 (fun z =>
    let x := z.slot slot
    let z1 := match x.activateAt with | none => z | some a => z.freeEntryAt a.2
    checked z
      [ (within 1 255 slot && decide (n < 2 ^ 64) && n % 65536 == 0, stInvalidArg),
        ((z.standbys x.role).isEmpty, stPaired), (x.staged.isSome, stNotStaged),
        (decide (z.pos + 8 * 65536 ≤ n), stTooLate), (!x.loading, stBusy), ((z1.freeEntry z1.usedEntries).isSome, stBusy) ]
      (match z1.freeEntry z1.usedEntries with
      | none => refuse z stBusy
      | some e => ok ((z1.writeEntry e { position := n, enable := true, kind := 6, arg0 := slot }).updSlot slot fun y =>
          { y with activateAt := some (n, e) }))) s
/-- GRAPH.DISCARD. -/
def execGraphDiscard (src : Source) (slot : Nat) (s : State) : Host.Outcome State Fault Refusal :=
  runCommand src 0x1902 (fun z =>
    let x := z.slot slot
    checked z
      [ (within 1 255 slot, stInvalidArg), (x.staged.isSome, stNotStaged),
        (!(z.net.changes.any fun c => c.kind == 2 && c.status == .open_ && x.staged.any fun g => g.id == c.new_), stChangeOpen),
        (!x.loading, stBusy) ]
      (let z1 := match x.activateAt with | none => z | some a => z.freeEntryAt a.2
       ok (((z1.updSlot slot fun y => { y with staged := none, switching := false, activateAt := none }).trimQueues slot).placeEntries))) s
/-- A value in the bytes of its type. -/
def valueBytes (typ : Nat) (v : Int) : List Byte := leBytes (((typeBits typ).1 + 7) / 8) (ofSigned 64 v)
/-- GRAPH.VAR_READ. -/
def execGraphVarRead (src : Source) (slot first count : Nat) (s : State) : Host.Outcome State Fault Refusal :=
  runCommand src 0x1903 (fun z =>
    let vs := (((z.slot slot).running.map (·.vars)).getD [])
    checked z
      [ (within 1 255 slot && within 1 64 count, stInvalidArg), ((z.slot slot).running.isSome, stNotFound),
        (decide (first < vs.length), stInvalidArg) ]
      (okWith z (((vs.drop first).take count).flatMap fun v =>
        [.struct (fitBytes 64 v.name), f1 v.typ, f2 v.count, .struct (v.values.flatMap (valueBytes v.typ))]))) s
/-- GRAPH.GROUP_SET (R328). -/
def execGraphGroupSet (src : Source) (group offset : Nat) (s : State) : Host.Outcome State Fault Refusal :=
  runCommand src 0x1904 (fun z =>
    checked z
      [ (decide (group < 8) && decide (offset ≤ if z.baseB = 17 then 3855 else 3276), stInvalidArg),
        (!(z.ten.slots.any fun x => (x.2.state == .active || x.2.state == .shadow)
          && x.2.running.any fun g => g.group == group), stGroupInUse) ]
      (ok ({ z with table := { z.table with groupOffset := tset z.table.groupOffset group (some offset) } }.placeEntries))) s
/-- GRAPH.ENGINES_READ. -/
def execGraphEnginesRead (src : Source) (s : State) : Host.Outcome State Fault Refusal :=
  runCommand src 0x1905 (fun z =>
    okWith z ((List.range 32).flatMap fun k =>
      let l := z.ten.slots.filter fun x => x.2.state != .empty && x.2.engine == k
      let u := l.map fun x => x.2.load z.baseB
      [.struct (leBytes 1 l.length ++ l.flatMap fun x => leBytes 1 x.1), f4 (shareField (u.map (·.2.1)).sum),
       f4 (shareField (u.map (·.2.2)).sum), f4 (u.map (·.1)).sum, f1 (if (z.engine k).fault then 1 else 0)])) s

/-! ## SIGNAL commands (R346) -/

/-- SIGNAL.READ (R335). -/
def execSignalRead (src : Source) (estate : Bool) (handles : List Nat) (s : State) : Host.Outcome State Fault Refusal :=
  runCommand src 0x1A01 (fun z =>
    checked z
      [ (decide (handles.length ≤ 64) && handles.all (fun h => decide (h < if estate then 1048576 else 65536)), stInvalidArg) ]
      (okWith z (handles.map fun h => .struct (if estate then z.sigEstate h else z.sigLocal h).bytes))) s
/-- What SIGNAL.CONFIG sets. -/
def signalConfigDo (delay refresh : Nat) (s : State) : State :=
  { s with ten := { s.ten with applyDelay := delay, refresh := refresh } }
/-- SIGNAL.CONFIG (R337, R339). -/
def execSignalConfig (src : Source) (delay refresh : Nat) (s : State) : Host.Outcome State Fault Refusal :=
  runCommand src 0x1A02 (fun z =>
    (checked z [(within 1 100 delay && within 100 10000 refresh, stInvalidArg), (!z.anyArmed, stLaneArmed)]
      (ok (signalConfigDo delay refresh z))).persisted 0x1A02 0 (.signalConfig src delay refresh)) s

/-! ## Cycles (R329 to R333) -/

/-- GRAPH_CYCLE: the firing of a group (R328 to R330, R344; 12 R351, R352). -/
def execGraphCycle (t entry : Nat) (s : State) : Host.Outcome State Fault Refusal :=
  firing entry 5 s t fun z a => z.groupFires a.content.arg0 (cycleOf a.pos * z.baseB + a.k) a.pos
/-- GRAPH_CYCLE_COMPLETE (R326, R329, R331): the computation of a cycle has ended. -/
def execGraphCycleComplete (t slot : Nat) (r : CycleResult) (s : State) : Host.Outcome State Fault Refusal :=
  wheneverOn (decide (slot < 256)) s t (fun z => (z.slot slot).inCycle && !(z.slot slot).cycleDone) fun z =>
    let x := z.slot slot
    let mine (o : Nat × Bool × Option Int) : Bool := if o.2.1 then x.estateHandles.contains o.1 else x.localHandles.contains o.1
    if r.windowFault then z.cycleFail slot cfWindow
    else if (x.running.any fun g => decide (g.budget < r.usedUs)) then z.cycleFail slot cfBudget
    else z.setSlot slot { x with
      cycleDone := true, outputs := r.outputs.filter mine, acts := r.acts, peakUs := max x.peakUs r.usedUs
      working := (List.range x.working.length).map fun k =>
        let v := x.working.getD k (varOf [] 0 0)
        { v with values := (r.vars.getD k v.values).take v.count } }
/-- CYCLE_BUDGET (R331): a cycle has used its budget. -/
def execCycleBudget (t slot : Nat) (s : State) : Host.Outcome State Fault Refusal :=
  wheneverOn (decide (slot < 256)) s t
    (fun z =>
      let x := z.slot slot
      x.inCycle && !x.cycleDone && x.running.any fun g => elapsed x.startedAt (g.budget * 1000) z.now)
    (fun z => z.cycleFail slot cfBudget)
/-- TENANT_FAULT (R332, 12 R354): three consecutive cycle failures. -/
def execTenantFault (t slot : Nat) (s : State) : Host.Outcome State Fault Refusal :=
  wheneverOn (decide (slot < 256)) s t
    (fun z => decide (3 ≤ (z.slot slot).failRun) && ((z.slot slot).state == .active || (z.slot slot).state == .shadow))
    (fun z => ((z.event evTenantFault 6 slot (cause := (z.slot slot).lastFail)).slotFault slot).updSlot slot fun x =>
      { x with failRun := 0 })
/-- ENGINE_FAULT (R332): a fault of a graph engine, or its watchdog. -/
def execEngineFault (t engine : Nat) (s : State) : Host.Outcome State Fault Refusal :=
  wheneverOn (decide (engine < 32)) s t (fun z => !(z.engine engine).fault) (fun z => z.engineFault engine)

/-! ## Estate signals (R337, R339) -/

/-- The estate handles of a slot that have not been sent for REFRESH. -/
def State.refreshDue (s : State) (slot : Nat) : List Nat :=
  (s.slot slot).estateHandles.filter fun h => elapsed (s.sigOwner h).sentAt (s.ten.refresh * 1000000) s.now
/-- SIGNAL_REFRESH (R337). -/
def execSignalRefresh (t slot : Nat) (s : State) : Host.Outcome State Fault Refusal :=
  wheneverOn (decide (slot < 256)) s t (fun z => (z.slot slot).state == .active && !(z.refreshDue slot).isEmpty) fun z =>
    let x := z.slot slot
    z.sendSignals slot z.pos ((z.refreshDue slot).map fun h =>
      let o := (x.lastOut h).getD (none, false)
      x.entryFor h o.1 o.2)
/-- SIGNAL_STALE (R339): a handle has received nothing for 3 × REFRESH. -/
def execSignalStale (t handle : Nat) (s : State) : Host.Outcome State Fault Refusal :=
  wheneverOn (decide (handle < 1048576)) s t
    (fun z => (z.sigOwner handle).owner != 0 && elapsed (z.sigOwner handle).ownerAt (3 * z.ten.refresh * 1000000) z.now
      && !(z.sigEstate handle).stale)
    (fun z => z.updSigEstate handle fun v => { v.gone with stale := true })

end Sys2Proof.Machine
end

