-- ==== Sys2Proof/Machine/PowerOps.lean ====
section
/-! DEFINITION. What the power sequences share: beaching (06 R198), parting (18 R493), the commit at a loss of power
(16 R450), start stages (18 R488) and the settings applied at a start (16 R446). -/

namespace Sys2Proof.Machine

open Sys2Proof

/-! ## Roles in the order of release (06 R198, 18 R493) -/

/-- The roles of a kind that are held, by local lane or slot. -/
def State.heldOf (s : State) (kind : Nat) : List Nat :=
  ((s.net.own.filter fun o => roleKind o.role == kind && o.state != .none_).mergeSort fun a b => decide (a.local_ ≤ b.local_)).map
    (·.role)
/-- Roles to give up after the lanes: TENANT, COORDINATOR, LIGHTHOUSE. -/
def State.laterRoles (s : State) : List Nat := s.heldOf 3 ++ s.heldOf 5 ++ s.heldOf 4

/-! ## Beaching (06 R198) -/

/-- A release that the sequence does not wait for: a STANDBY, or a lane without a twin partner. -/
def State.atOnce (s : State) (r : Nat) : Bool :=
  match s.ownRole r with
  | none => true
  | some o => o.state != .active || (roleKind r == 2 && (o.kind == .none_ || o.mismatch))
/-- Release the roles of a list until one waits to be taken; what is left, its first role released and waiting. -/
def State.releaseNext (s : State) : List Nat → State × List Nat
  | [] => (s, [])
  | r :: l =>
    if s.atOnce r then ((s.releaseRole r true false true).dropStandby r).releaseNext l
    else (s.releaseRole r true false true, r :: l)
/-- The beaching sequence goes on with the roles that are left; after the last, every cell is stepped to the next base instant
and then the beaching commit asked for, at once where no cell is modelled. -/
def State.beachGo (s : State) (roles : List Nat) : State :=
  let (s1, l) := s.releaseNext roles
  if l.isEmpty then
    let hold (z : State) (after : Option Nat) : State :=
      { z with power := { z.power with beach := some { step := 3, roles := [], at_ := z.now, stepFrom := after } } }
    if s1.modelledPorts.isEmpty then hold (s1.requestCommit true) none else hold s1 (some s1.model.lastTag)
  else { s1 with power := { s1.power with beach := some { step := 2, roles := l, at_ := s1.now } } }
/-- The role that the sequence waits for has been taken up, or dropped. -/
def State.beachNext (s : State) : State :=
  match s.power.beach with
  | none => s
  | some b => if b.step = 2 then s.beachGo (b.roles.drop 1) else s
/-- Send SLEEP to a port (03 R104, R107): one in RUN in FULL is sent it in its next command windows; any other at once, its
training given up (DESIGN CHOICE, log entry 147). -/
def State.sleepPort (s : State) (p : Nat) : State :=
  let x := s.port p
  if x.state == .run && s.power.state == .full then s.setPort p (x.request .sleep)
  else
    let y := (if x.state == .run then x else { x.toState x.state with failRun := x.failRun }).request .sleep
    match y.waiting.find? fun c => c.kind == .sleep with
    | none => s
    | some c => (s.setPort p y).sendCmd p c
/-- Step 4 of R198: every port of a lane is sent SLEEP. -/
def State.sleepPorts (s : State) : State :=
  (((List.range 8).flatMap fun n => s.portsOf n).foldl (fun (z : State) p => z.sleepPort p) s).event evBeachedAt 0 0
/-- Step 4 is over: every port sleeps, or its 10 ms have passed since a time. -/
def State.portsAsleep (s : State) (at_ : Nat) : Bool :=
  elapsed at_ 10000000 s.now || ((List.range 8).flatMap fun n => s.portsOf n).all fun p => (s.port p).state == .sleep
/-- A commit that waits is put off until refloat; one that runs has run to its end. -/
def State.putOffCommit (s : State) : State :=
  { s with
    power := { s.power with pendingCommit := s.power.pendingCommit || s.store.commit.isSome || s.store.commitQueued }
    store := { s.store with
      commit := none, commitQueued := false, ops := s.store.ops.filter fun o => o.kind != .commitPage
      running := if s.store.running.any (fun o => o.kind == .commitPage) then none else s.store.running } }
/-- Steps 5 and 6 of R198. -/
def State.toBeached (s : State) : State :=
  let s2 := (((s.outputsSafe).stopCounters).refuseAnalog.stopConverters).stopTenants
  let s3 := s2.tachsStill
  let s4 := ((s3.abortChannels openChannels).canBeach).tideCoasts
  let s5 := s4.countFull.dropArmed.flushCache
  let s6 := { s5 with
    power := { s5.power with
      state := .beached, beach := none, part := none, beachedAt := s5.now, busLow := 0, busWasLow := false, busHigh := 0
      refloatAt := none } }
  let s7 := s6.event evBeached 0 0
  { s7 with held := some s7.snapshot }

/-! ## Parting (18 R493) -/

/-- The parting ends with NOT_IN_SYNC. -/
def State.partEnds (s : State) : State :=
  ({ s with power := { s.power with part := none } }).event evPartingDone 0 0 (cause := stNotInSync)
/-- Give the roles of a list up until one waits: a helm on its way to the partner, or a release to be taken. -/
def State.partRelease (s : State) : List Nat → State × List Nat
  | [] => (s, [])
  | r :: l =>
    match s.ownRole r with
    | none => s.partRelease l
    | some o =>
      if o.state != .active then (s.dropStandby r).partRelease l
      else if s.partnerThere o then (s.sendHelm r hmSwapRequest 0, r :: l)
      else if roleKind r = 2 then ((s.releaseRole r true false true).dropStandby r).partRelease l
      else (s.releaseRole r true false true, r :: l)
/-- The parting goes on: lanes, then the other roles, then the parting commit. -/
def State.partGo (s : State) (step : Nat) (roles : List Nat) : State :=
  let (s1, l) := s.partRelease roles
  let hold (z : State) (k : Nat) (x : List Nat) : State :=
    { z with power := { z.power with part := some { step := k, roles := x, at_ := z.now } } }
  if !l.isEmpty then hold s1 step l
  else
    let (s2, m) := if step = 2 then s1.partRelease s1.laterRoles else (s1, [])
    if !m.isEmpty then hold s2 3 m
    else
      let s3 := ({ s2 with net := { s2.net with announceDue := true } }).requestCommit true
      hold s3 4 []
/-- The helm that the parting waits for has been taken, or its time has run out. -/
def State.partNext (s : State) : State :=
  match s.power.part with
  | none => s
  | some p =>
    match p.roles with
    | [] => s
    | r :: l => (s.dropStandby r).partGo p.step l
/-- The role whose helm the parting moves. -/
def State.partingRole (s : State) (r : Nat) : Bool := s.power.part.any fun p => p.roles.head? == some r

/-! ## The commit at a loss of line power (16 R450) -/

/-- The write running completes; then the learned commit is made at once where the energy allows. -/
def State.lastWrites (s : State) (commit : Bool) : State :=
  let page (o : Op) : Bool := o.kind == .commitPage
  let begun := s.store.commit.any fun c => decide (c.pagesLeft < commitPages c.blocks.length c.lanes.length)
  let running := s.store.running.any page || (begun && s.store.ops.any page)
  let s1 := match s.store.commit with
    | some c => if running then s.stored c else { s with store := { s.store with commit := none } }
    | none => s
  let s2 := { s1 with store := { s1.store with running := none } }
  let s3 := s2.writeBatch s2.recorder.cache
  let ok := commit && s3.model.native && s3.storeStage != .volatile && s3.holdupOk
  if ok then
    match s3.startCommit.store.commit with
    | some c => s3.stored c
    | none => s3
  else s3

/-! ## Start stages and settings (18 R488, 16 R446) -/

/-- A stage is reached. -/
def State.reach (s : State) (n : Nat) : State :=
  (({ s with power := { s.power with stage := n, stageAt := tset s.power.stageAt n (some s.now) } }).event evStartStage 0 0
    (v0 := some (n : Int))).clearAlarm evStartSlow 0 n
/-- The order in which settings are applied: coefficients, lane configurations, the rest. -/
def settingRank (r : SettingRec) : Nat := if r.code = 0x0707 then 0 else if r.code = 0x0B01 then 1 else 2
/-- The settings in force, in the order in which they are applied: of each key the newest generation. -/
def inForce : List SettingRec → List SettingRec
  | [] => []
  | r :: l => r :: (inForce l).filter fun x => !(x.code == r.code && x.object == r.object)
/-- Apply one setting. -/
def State.applySetting (s : State) (r : SettingRec) : State :=
  match r.cmd with
  | .laneConfig _ n c => s.configure n c
  | .laneLoopSet _ n g => (loopSetDo n g s).state
  | .tapLimitsSet _ target ov uv ot cells temps =>
    (s.targetPorts target).foldl (fun (z : State) p => z.updPort p fun x => { x with
      limits := { ov := ov, uv := uv, ot := ot, cells := cells, temps := temps } }) s
  | .safetyLimitsSet _ n ov uv plt => s.limitsDo n ov uv plt
  | .safetyOcSet _ n str ph filt => s.ocDo n str ph filt
  | .safetyIoSet _ disc fire masks => s.ioDo disc fire masks
  | .safetyChannelSet _ hb => s.hbDo hb
  | .safetyLinkSet _ l => s.linkDo l
  | .safetyWindowSet _ k n w => s.windowDo k n w
  | .estateMapLoad _ l => mapLoadDo l s
  | .pairRoleSet _ a => roleSetDo a s
  | .canConfig _ ctl c => s.canConfigDo ctl c
  | .canFilterSet _ ctl i f => s.filterDo ctl i f
  | .signalConfig _ delay refresh => signalConfigDo delay refresh s
  | .modelLearnSet _ native hours => { s with model := { s.model with native := native, intervalH := hours } }
  | _ => s
/-- Coefficients as the store holds them (04 R125). -/
def State.loadCoefficients (s : State) : State :=
  s.ana.calStored.foldr (fun (r : CalRec) (z : State) => match r.target with
    | .input k => z.updInput k fun i => { i with coef := some (r.a, r.b), committed := true }
    | .icv n => z.updIcv n fun v => { v with coef := some (r.a, r.b.toNat), committed := true }) s
/-- A lane's contactor counts as a commit holds them (05 R158, 16 R445). -/
def Lane.withCounts (l : Lane) (c : List Nat) : Lane :=
  { l with
    kPos := { l.kPos with closings := c.getD 0 0, breaks := c.getD 1 0 }
    kNeg := { l.kNeg with closings := c.getD 2 0, breaks := c.getD 3 0 }
    kPre := { l.kPre with closings := c.getD 4 0, breaks := c.getD 5 0 } }
/-- The newest commit at a start: contactor counts, and while learning is NATIVE the recorded serials (03 R95). -/
def State.loadCommit (s : State) : State :=
  let s1 := s.store.laneCounts.foldl (fun (z : State) (x : Nat × List Nat) => z.updLane x.1 fun l => l.withCounts x.2) s
  if s1.model.native then s1.model.storedBlocks.foldl (fun (z : State) x => match x.2 with
    | none => z
    | some (k, _) => z.updPort x.1 fun p => { p with recordedSerial := some k }) s1
  else s1
/-- Settings and coefficients are read from the store and put in force, and the newest commit is loaded. -/
def State.applySettings (s : State) : State :=
  let l := (inForce s.store.settings).mergeSort fun a b =>
    decide (settingRank a < settingRank b ∨ (settingRank a = settingRank b ∧ a.gen ≤ b.gen))
  (l.foldl (fun (z : State) r => z.applySetting r) s.loadCoefficients).loadCommit

end Sys2Proof.Machine
end

