-- ==== Sys2Proof/Machine/Wire.lean ====
section
/-! DEFINITION. The bytes of frames on the LANs: Garzet headers and payloads, safe-channel and LLDP frames (02 R56, 07 R207,
09 R274, 10 R290, R292, R297 to R312, 11 R338, 12 R353 to R359), and the check of a Garzet frame that arrives (10 R297, R298).
Every field is big-endian (00 R9). The frames of PTP are those of IEEE 1588, which the spec does not lay out. -/

namespace Sys2Proof.Machine

open Sys2Proof

/-- A signed number of `n` bytes, most significant first. -/
def beInt (n : Nat) (v : Int) : List Byte := beBytes n (ofSigned (8 * n) v)
/-- A bit of a byte. -/
def bitAt (n : Nat) (b : Bool) : Nat := if b then 2 ^ n else 0

/-! ## Payloads -/

/-- The 36 bytes of a SOUND message (07 R207). -/
def soundMsgBytes (m : SoundMsg) : List Byte :=
  beBytes 2 1 ++ beBytes 1 m.kind ++ beBytes 1 m.reason ++ beBytes 4 m.set_ ++ beBytes 2 m.step ++ beBytes 1 m.length
  ++ beBytes 1 m.source ++ beBytes 8 m.start ++ beInt 4 m.stepMa ++ beInt 4 m.stepW ++ beBytes 4 m.laneRole
  ++ beBytes 2 m.laneEpoch ++ beBytes 2 0
/-- An ANNOUNCE payload (10 R305). -/
def announceBytes (m : AnnounceMsg) : List Byte :=
  beBytes 2 1 ++ beBytes 1 (m.part * 16 + m.parts) ++ beBytes 1 m.power ++ beBytes 2 m.berth ++ beBytes 2 m.moduleEpoch
  ++ beBytes 8 m.serial ++ beBytes 2 m.entries.length ++ beBytes 2 0
  ++ m.entries.flatMap fun e => beBytes 4 e.role ++ beBytes 2 e.epoch ++ beBytes 1 (if e.active then 1 else 2) ++ [0]
/-- The 24 bytes of a HELM message (12 R353). -/
def helmBytes (m : HelmMsg) : List Byte :=
  beBytes 2 1 ++ beBytes 1 m.kind ++ beBytes 1 m.result ++ beBytes 4 m.role ++ beBytes 2 m.epoch ++ beBytes 2 m.format
  ++ beBytes 8 m.at_ ++ beBytes 4 m.gen
/-- A SIGNAL payload (11 R338). -/
def signalBytes (m : SignalMsg) : List Byte :=
  beBytes 2 1 ++ beBytes 2 m.entries.length ++ beBytes 4 m.cycleSeq ++ beBytes 8 m.publishAt
  ++ m.entries.flatMap fun e =>
    beBytes 4 (e.typ * 2 ^ 28 + bitAt 27 e.absent + bitAt 26 e.held + e.handle) ++ beInt 8 e.value
/-- MEMBERS: bit b for berth b, berth 0 in the most significant bit of byte 0 (10 R312). -/
def memberBytes (l : List Nat) : List Byte :=
  (List.range 512).map fun i => BitVec.ofNat 8 ((List.range 8).map fun k => bitAt (7 - k) (l.contains (8 * i + k))).sum
/-- The 536 bytes of a PROPOSE (10 R312). -/
def proposeBytes (p : Proposal) : List Byte :=
  beBytes 4 p.id ++ beBytes 1 p.kind ++ beBytes 1 p.policy ++ beBytes 1 p.conservative ++ [0] ++ beBytes 8 p.n ++ beBytes 4 p.old
  ++ beBytes 4 p.new_ ++ memberBytes p.members
/-- The 16 bytes of a REPORT (10 R312). -/
def reportBytes (m : ReportMsg) : List Byte :=
  beBytes 4 m.id ++ beBytes 1 m.outcome ++ [0] ++ beBytes 1 m.inForce ++ [0] ++ beBytes 8 m.at_

/-! ## Mirror items (12 R358, R359) -/

/-- The binary32 pattern of a value that has one. -/
def f32Bits (v : Rat) : Nat :=
  let a := |v|
  if a = 0 then 0
  else
    let e : Int := (Nat.log2 a.num.natAbs : Int) - Nat.log2 a.den
    let lo : Rat := if 0 ≤ e then (2 ^ e.toNat : Nat) else 1 / (2 ^ (-e).toNat : Nat)
    let x : Int := max (-126) (if a < lo then e - 1 else e)
    let m := (if 23 ≤ x then a / (2 ^ (x - 23).toNat : Nat) else a * (2 ^ (23 - x).toNat : Nat)).floor.toNat
    bitAt 31 (decide (v < 0)) + if m < 2 ^ 23 then m else (x + 127).toNat * 2 ^ 23 + (m - 2 ^ 23)
/-- The upper triangle of a matrix by rows. -/
def upperRows : Nat → List (List Rat) → List Rat
  | _, [] => []
  | i, r :: l => r.drop i ++ upperRows (i + 1) l
/-- The cell record of R192 with its fields big-endian, in its order of bytes (log entry 162). -/
def cellRecordBytes (l : Learned) : List Byte :=
  let b := l.bytes
  [(0, 8), (8, 4), (12, 2), (14, 2), (16, 2), (18, 2), (20, 4), (24, 8)].flatMap fun x => (slice b x.1 x.2).reverse
/-- The data of an item (12 R359). -/
def itemData : MirrorItem → List Byte
  | .cell c => (c.x ++ upperRows 0 c.cov).flatMap (fun v => beBytes 4 (f32Bits v))
      ++ cellRecordBytes (learnedIn c.learned c.learnedAt) ++ beBytes 4 c.flags
  | .vars _ v w => (v.zip w).flatMap fun x => beInt x.2 x.1
  | .digest _ q a b => beBytes 4 q ++ beBytes 4 0 ++ beBytes 8 a ++ beBytes 8 b
  | .learned _ b => b
  | .spring _ _ ph iK tag cells => beBytes 1 ph ++ [0, 0, 0] ++ beInt 4 iK ++ beBytes 8 tag
      ++ cells.flatMap fun c => beBytes 2 c.1 ++ beBytes 2 c.2.1 ++ beInt 8 c.2.2
  | .status a r g => beBytes 1 a ++ [0, 0, 0] ++ beBytes 4 r ++ beBytes 4 g
/-- KIND and ID of an item (12 R357). -/
def itemKindId : MirrorItem → Nat × Nat
  | .cell c => (2, c.index / 18 * 256 + c.index % 18)
  | .vars n _ _ => (3, n)
  | .digest n _ _ _ => (4, n)
  | .learned p _ => (5, p)
  | .spring n p _ _ _ _ => (6, n * 256 + p)
  | .status _ _ _ => (7, 0)
/-- The 104 bytes of a LOOP item's data; it has KIND 1 and the lane as ID. -/
def loopBytes (i : LoopItem) : List Byte :=
  beBytes 4 i.periodSeq ++ beBytes 1 i.laneState ++ beBytes 1 i.contactors ++ beBytes 1 i.updated ++ [0] ++ beInt 4 i.bInteg
  ++ beInt 4 i.bYPrev ++ beInt 4 i.ramp ++ beInt 4 i.dff ++ beInt 4 i.command ++ beInt 4 i.bOut
  ++ (List.range 6).flatMap fun m =>
    let p := i.phases.getD m (0, 0, 0)
    beInt 4 p.1 ++ beInt 4 p.2.1 ++ beBytes 4 p.2.2
/-- An item, or a part of one: PART is 0 whole, 1 first, 2 middle, 3 last (12 R358). -/
def partBytes (kind part id : Nat) (data : List Byte) : List Byte :=
  beBytes 1 kind ++ beBytes 1 part ++ beBytes 2 data.length ++ beBytes 4 id ++ data
/-- The pieces of an item after its first, by the PART that each has. -/
def laterParts (kind id : Nat) : List (List Byte) → List (List Byte)
  | [] => []
  | [d] => [partBytes kind 3 id d]
  | d :: r => partBytes kind 2 id d :: laterParts kind id r
/-- The items of a generation as the bytes of its frames, placed as `placeItems` places them. -/
def itemFrames : Nat → List MirrorItem → List Byte → List (List Byte)
  | _, [], acc => [acc]
  | left, i :: r, acc =>
    let k := (itemKindId i)
    let d := itemData i
    if 8 + d.length ≤ left then itemFrames (left - 8 - d.length) r (acc ++ partBytes k.1 0 k.2 d)
    else if 8 < left then
      let ps := laterParts k.1 k.2 (chunks 1404 d.length (d.drop (left - 8)))
      (acc ++ partBytes k.1 1 k.2 (d.take (left - 8))) :: ps.dropLast
        ++ itemFrames (1412 - (ps.getLastD []).length) r (ps.getLastD [])
    else
      match chunks 1404 d.length d with
      | [c] => acc :: itemFrames (1412 - 8 - c.length) r (partBytes k.1 0 k.2 c)
      | c :: l =>
        let ps := partBytes k.1 1 k.2 c :: laterParts k.1 k.2 l
        acc :: ps.dropLast ++ itemFrames (1412 - (ps.getLastD []).length) r (ps.getLastD [])
      | [] => acc :: itemFrames 1412 r []
/-- The 28 bytes before the items of a MIRROR payload (12 R358). -/
def mirrorHead (f : MirrorFrag) : List Byte :=
  beBytes 2 1 ++ beBytes 2 f.format ++ beBytes 4 f.role ++ beBytes 2 f.epoch ++ beBytes 2 f.index ++ beBytes 2 f.count
  ++ beBytes 1 (bitAt 7 f.full) ++ [0] ++ beBytes 4 f.gen ++ beBytes 8 f.tag
/-- The MIRROR payloads of a generation, frame by frame. -/
def generationBytes (fs : List MirrorFrag) : List (List Byte) :=
  (fs.zip (itemFrames 1412 (fs.flatMap (·.items)) [])).map fun x => mirrorHead x.1 ++ x.2

/-! ## Frames -/

/-- The payload of a message; a MIRROR frame stands alone here (`generationBytes` has the frames of a generation). -/
def bodyBytes : GBody → List Byte
  | .tide m => tideBytes m
  | .sound m => soundMsgBytes m
  | .mailbox b => b
  | .mailboxReply b => b
  | .ack => []
  | .roleMoved m => movedBytes m
  | .announce m => announceBytes m
  | .helm m => helmBytes m
  | .mirror f => mirrorHead f ++ f.items.flatMap fun i => partBytes (itemKindId i).1 0 (itemKindId i).2 (itemData i)
  | .signal m => signalBytes m
  | .propose p => proposeBytes p
  | .proposeAck id r => beBytes 4 id ++ beBytes 1 r ++ [0, 0, 0]
  | .commit id n => beBytes 4 id ++ beBytes 4 0 ++ beBytes 8 n
  | .abandon id r => beBytes 4 id ++ beBytes 1 r ++ [0, 0, 0]
  | .report m => reportBytes m
  | .fallBack id m => beBytes 4 id ++ beBytes 4 0 ++ beBytes 8 m
/-- The 32 bytes of a Garzet header (10 R297). -/
def headBytes (h : GHead) : List Byte :=
  beBytes 2 1 ++ beBytes 1 h.typ
  ++ beBytes 1 (bitAt 7 h.reliable + bitAt 6 h.reply + bitAt 5 h.newStream + bitAt 4 h.lanB)
  ++ beBytes 2 h.srcBerth ++ beBytes 2 h.dstBerth ++ beBytes 4 h.srcRole ++ beBytes 2 h.srcEpoch ++ beBytes 2 h.length
  ++ beBytes 4 h.targetRole ++ beBytes 2 h.targetEpoch ++ beBytes 2 h.corr ++ beBytes 4 h.sequence ++ beBytes 4 h.ackSeq
/-- PCP of a message type (10 R298). -/
def pcpOf : Nat → Nat
  | 1 => 6 | 3 | 4 | 10 => 3 | 7 => 2 | 9 => 4 | _ => 5
/-- An Ethernet frame with one 802.1Q tag, from the destination address to the end of the payload; the port adds padding and the
FCS. -/
def taggedFrame (dst src pcp vlan etherType : Nat) (payload : List Byte) : List Byte :=
  beBytes 6 dst ++ beBytes 6 src ++ beBytes 2 0x8100 ++ beBytes 2 (pcp * 8192 + vlan) ++ beBytes 2 etherType ++ payload
/-- A TLV of an LLDPDU (IEEE 802.1AB): type in [15:9], length in [8:0]. -/
def lldpTlv (typ : Nat) (v : List Byte) : List Byte := beBytes 2 (typ * 512 + v.length) ++ v
/-- The bytes of characters. -/
def asciiBytes (x : String) : List Byte := x.toList.map fun c => BitVec.ofNat 8 c.toNat
/-- The decimal digits of a number below 10,000. -/
def digitsOf (n : Nat) : List Byte :=
  let d (k : Nat) : Byte := BitVec.ofNat 8 (48 + n / k % 10)
  if 1000 ≤ n then [d 1000, d 100, d 10, d 1] else if 100 ≤ n then [d 100, d 10, d 1] else if 10 ≤ n then [d 10, d 1] else [d 1]
/-- The TLVs that R292 names in the module's LLDPDU: Chassis ID as a MAC address, Port ID as locally assigned, System Name; the
time to live, which no rule states, is free (log entry 163). -/
def lldpBytes (lan : Lan) (chassis : Nat) (berth : Option Nat) (ttl : Nat) : List Byte :=
  lldpTlv 1 (4 :: beBytes 6 chassis) ++ lldpTlv 2 (7 :: asciiBytes (match lan with | .a => "LAN A" | .b => "LAN B"))
  ++ lldpTlv 3 (beBytes 2 ttl)
  ++ lldpTlv 5 (match berth with
    | some b => asciiBytes "CLD-2304 berth " ++ digitsOf b
    | none => asciiBytes "CLD-2304 unassigned")
  ++ lldpTlv 0 []
/-- The bytes that an output puts on a LAN; none where it is not for that LAN or its bytes are not the spec's. -/
def State.wire (s : State) (lan : Lan) : Output → Option (List Byte)
  | .garzet a b h body => some (taggedFrame (match lan with | .a => a | .b => b) (s.netLan (lanNo lan)).mac (pcpOf h.typ) s.net.vlan
      0x88B5 (headBytes { h with lanB := lan == .b } ++ bodyBytes body))
  | .safe l _ dest b => if l == lan then some (taggedFrame dest (s.netLan (lanNo lan)).mac 7 s.net.safetyVlan 0x88B6 b) else none
  | .lldp l c b => if l == lan then some (beBytes 6 0x0180C200000E ++ beBytes 6 (s.netLan (lanNo lan)).mac ++ beBytes 2 0x88CC
      ++ lldpBytes lan c b (Config.freeNat 0 % 65536)) else none
  | _ => none

/-! ## Frames that arrive (10 R297, R298) -/

/-- Payload bytes that a type has, where they are the same in every message of it. -/
def fixedLength (typ : Nat) : Option Nat :=
  match typ with
  | 1 => some 40 | 2 => some 36 | 5 => some 0 | 6 => some 16 | 8 => some 24 | 11 => some 536 | 12 | 14 => some 8
  | 13 | 15 | 16 => some 16 | _ => none
/-- Every byte named is 0. -/
def zeroAt (b : List Byte) (o n : Nat) : Bool := beAt b o n == 0
/-- The payload keeps its version, its codes and its reserved fields (00 R14). A tide message is checked by 02 R58 and an envelope
by 14 R397, each with a count or an answer of its own; the codes of a PROPOSE are answered BAD_MODE (R313). -/
def payloadOk (typ : Nat) (b : List Byte) : Bool :=
  let n := b.length
  match typ with
  | 2 => beAt b 0 2 == 1 && within 1 3 (beAt b 2 1) && decide (beAt b 10 1 ≤ 2) && decide (beAt b 11 1 < 2) && zeroAt b 34 2
  | 6 => zeroAt b 15 1
  | 7 => decide (20 ≤ n) && beAt b 0 2 == 1 && within 1 3 (beAt b 2 1 % 16) && decide (beAt b 2 1 / 16 < beAt b 2 1 % 16)
      && decide (beAt b 3 1 ≤ 2) && decide (beAt b 16 2 ≤ 160) && zeroAt b 18 2 && n == 20 + 8 * beAt b 16 2
      && (List.range (beAt b 16 2)).all fun i => within 1 2 (beAt b (26 + 8 * i) 1) && zeroAt b (27 + 8 * i) 1
  | 8 => beAt b 0 2 == 1 && within 1 8 (beAt b 2 1) && decide (beAt b 3 1 ≤ (if beAt b 2 1 = 7 then 1 else 3))
  | 9 => decide (28 ≤ n) && beAt b 0 2 == 1 && decide (beAt b 10 2 < beAt b 12 2) && decide (beAt b 12 2 ≤ 1024)
      && beAt b 14 1 % 128 == 0 && zeroAt b 15 1
  | 10 => decide (16 ≤ n) && beAt b 0 2 == 1 && within 1 118 (beAt b 2 2) && n == 16 + 12 * beAt b 2 2
      && (List.range (beAt b 2 2)).all fun i => beAt b (16 + 12 * i) 4 / 2 ^ 20 % 64 == 0
  | 11 => zeroAt b 7 1
  | 12 => decide (beAt b 4 1 ≤ 5) && zeroAt b 5 3
  | 13 | 16 => zeroAt b 4 4
  | 14 => within 1 3 (beAt b 4 1) && zeroAt b 5 3
  | 15 => within 1 3 (beAt b 4 1) && zeroAt b 5 1 && decide (beAt b 6 1 ≤ 1) && zeroAt b 7 1
  | _ => true
/-- A Garzet header and payload keep the rules of R297 and R298. -/
def garzetOk (b : List Byte) : Bool :=
  let typ := beAt b 2 1
  let fl := beAt b 3 1
  let n := beAt b 14 2
  decide (32 ≤ b.length) && beAt b 0 2 == 1 && within 1 16 typ && fl % 16 == 0 && (fl.testBit 7, fl.testBit 6) == flagsOf typ
  && (fl.testBit 7 || !fl.testBit 5)
  && (decide (beAt b 4 2 < 4096) || beAt b 4 2 == 65535) && (decide (beAt b 6 2 < 4096) || beAt b 6 2 == 65535)
  && decide (n ≤ 1440) && b.length == 32 + n && (fixedLength typ == none || fixedLength typ == some n)
  && (!noRole typ || (zeroAt b 16 4 && zeroAt b 20 2)) && payloadOk typ (b.drop 32)

end Sys2Proof.Machine
end

