-- ==== Sys2Proof/Machine/NetRx.lean ====
section
/-! DEFINITION. Garzet frames received: copies, streams and the check of roles (10 R297 to R311), then what each type does
(07 R206 to R208; 10 R306 to R317; 11 R339; 12 R351 to R369; 14 R418, R420). -/

namespace Sys2Proof.Machine

open Sys2Proof

/-! ## Requests and their replies (10 R310, R311, 14 R420) -/

/-- Count a reply that nothing awaits. -/
def State.orphan (s : State) : State := { s with net := { s.net with orphans := inc64 s.net.orphans } }
/-- Change an awaited request. -/
def State.updRequest (s : State) (corr : Nat) (f : SentReq → SentReq) : State :=
  { s with net := { s.net with requests := s.net.requests.map fun (r : SentReq) => if r.corr == corr then f r else r } }
/-- Send a refused request again, to the holder that was named. -/
def State.resend (s : State) (b e : Nat) (r : SentReq) : State :=
  let s1 := s.updRequest r.corr fun x => { x with epoch := e }
  ({ s1 with net := { s1.net with resent := r.corr :: s1.net.resent } }).mailOut b e { r with epoch := e }
/-- The requests that are refused together with one: those sent to the role at the same epoch since, oldest first. -/
def State.refusedWith (s : State) (r : SentReq) : List SentReq :=
  ((s.net.requests.reverse.dropWhile fun (x : SentReq) => x.corr != r.corr).filter fun (x : SentReq) =>
    x.role == r.role && x.epoch == r.epoch && !s.net.resent.contains x.corr)
/-- A ROLE_MOVED for a MAILBOX message: it is sent again once where a newer holder is named. -/
def State.movedMail (s : State) (corr : Nat) (m : MovedMsg) : State :=
  match s.net.requests.find? fun r => r.corr == corr with
  | none => s.orphan
  | some r =>
    if r.epoch ≠ m.refusedEpoch then s
    else if m.holderBerth ≠ 0xFFFF ∧ newer m.holderEpoch m.refusedEpoch ∧ !s.net.resent.contains corr then
      (s.refusedWith r).foldl (fun z x => z.resend m.holderBerth m.holderEpoch x) s
    else s.requestDone corr stRoleMoved (movedBytes m)
/-- A ROLE_MOVED reaches the function that sent the message. -/
def State.movedIn (s : State) (h : GHead) (m : MovedMsg) : State :=
  let s1 := ({ s with net := { s.net with movedRecv := inc64 s.net.movedRecv } }).ackedOne (senderKey h) m.refusedSeq
  if m.typ = 3 then s1.movedMail h.corr m
  else if m.typ = 2 then
    (List.range 8).foldl (fun z n => z.endSteps n ocHelm fun a =>
      a.partnerRole == m.role && a.partnerEpoch == m.refusedEpoch) s1
  else s1.report { typ := m.typ, corr := h.corr, role := m.role, status := stRoleMoved, holder := m.holderBerth
                   holderEpoch := m.holderEpoch }
/-- The source role of a request is still held. -/
def State.stillHolds (s : State) (r : Nat) : Bool := roleKind r == 1 || s.holdsActive r
/-- A message of a MAILBOX_REPLY: the request is over with the message that carries LAST. -/
def State.mailReply (s : State) (corr : Nat) (b : List Byte) : State :=
  match s.net.requests.find? fun r => r.corr == corr with
  | none => s.orphan
  | some r =>
    if !s.stillHolds r.srcRole then s.orphan
    else
      let got := r.got ++ (b.drop 32).take (leAt b 16 2)
      if leAt b 20 4 % 2 = 1 then s.requestDone corr (leAt b 18 2) got
      else s.updRequest corr fun x => { x with got := got }

/-! ## HELM and MIRROR (12 R351 to R369) -/

/-- SWAP_READY has not come: PAIR.SWAP_HELM, or the parting, ends with NOT_IN_SYNC. -/
def State.swapRefused (s : State) (r : Nat) : State :=
  if s.partingRole r then s.partEnds else s.swapDone r stNotInSync
/-- The holder waits for the answer to its SWAP_REQUEST. -/
def State.swapWaits (s : State) (r : Nat) : Bool :=
  s.holdsActive r && ((s.own r).swap.isSome || s.partingRole r)
/-- The partner has taken a role. -/
def State.takenByPartner (s : State) (r : Nat) : State :=
  let s1 := s.swapDone r stOk
  if s1.power.beach.any fun b => b.roles.head? == some r then s1.beachNext
  else if s1.partingRole r && !s1.holdsActive r then s1.partNext
  else s1
/-- A HELM message reaches its role. -/
def State.helmMsg (s : State) (m : HelmMsg) : State :=
  let r := m.role
  let s1 := s.peerSays r m.epoch m.format
  if m.kind = hmKeep then s1.setOwn r fun o => { o with keeps := (m.at_ :: o.keeps).take 64, peerReleased := false }
  else if m.kind = hmRelease then s1.setOwn r fun o => { o with keeps := [], peerReleased := true }
  else if m.kind = hmTaken then s1.takenByPartner r
  else if m.kind = hmSwapRequest then (if s1.swapWaits r then s1.swapRefused r else s1.answerSwap r)
  else if m.kind = hmSwapReady then
    (if !s1.swapWaits r then s1 else if m.result = 2 then s1.swapNow r else s1.swapRefused r)
  else if m.kind = hmTestStart then s1.testStart r m.at_
  else if m.kind = hmTestResult then (s1.setOwn r fun o => { o with testPeer := some (m.result == 0) }).arbitrate r
  else if m.kind = hmFullRequest then s1.setOwn r fun o => { o with fullRequested := true }
  else s1
/-- A MIRROR frame reaches its role. -/
def State.mirrorMsg (s : State) (f : MirrorFrag) : State :=
  if f.index < f.count ∧ f.count ≤ 1024 then (s.peerSays f.role f.epoch f.format).takeFrag f.role f else s

/-! ## Tide-committed changes (10 R313 to R315) -/

/-- A PROPOSE: refused where its epoch is not the coordinator's in the role table, else answered. -/
def State.proposeMsg (s : State) (h : GHead) (p : Proposal) : State :=
  if (s.holderOf coordinatorRole).map (·.2) != some h.srcEpoch then s.sendMoved h coordinatorRole
  else
    let a := s.memberPropose h.srcBerth p
    a.2.sendReliable (senderKey h) h.srcBerth (.proposeAck p.id a.1) a.2.moduleRole a.2.net.moduleEpoch h.srcRole h.srcEpoch
      h.corr true
/-- A PROPOSE_ACK. -/
def State.proposeAckMsg (s : State) (h : GHead) (id result : Nat) : State :=
  if !s.isCoordinator then s.orphan
  else s.updChange id fun c => { c with members := c.members.map fun (x : ChangeMember) =>
    if x.berth == h.srcBerth then { x with answer := some result } else x }

/-! ## Delivery (10 R300 to R307) -/

/-- The MAC address that an ANNOUNCE came from on a LAN (R299). -/
def PeerPath.learn (p : PeerPath) (lan : Lan) : GBody → PeerPath
  | .announce m => match lan with | .a => { p with macA := some m.mac } | .b => { p with macB := some m.mac }
  | _ => p
/-- What a message does once it is delivered. -/
def State.deliverMsg (s : State) (h : GHead) : GBody → State
  | .tide _ => s
  | .sound m =>
    match s.ownRole h.targetRole with
    | none => s
    | some o => if roleKind h.targetRole = 2 then s.soundArrives o.local_ m else s
  | .mailbox b => s.garzetRequest (senderKey h)
      { role := h.targetRole, epoch := h.targetEpoch, corr := h.corr, srcRole := h.srcRole, srcEpoch := h.srcEpoch } b
  | .mailboxReply b => s.mailReply h.corr b
  | .ack => s
  | .roleMoved m => s.movedIn h m
  | .announce m => if m.part < m.parts ∧ m.parts ≤ 3 ∧ m.power ≤ 2 then s.announceTaken m else s
  | .helm m => if m.role = h.targetRole then s.helmMsg m else s
  | .mirror f => if f.role = h.targetRole then s.mirrorMsg f else s
  | .signal m => s.signalFrame h.srcBerth h.srcRole h.srcEpoch m
  | .propose p => s.proposeMsg h p
  | .proposeAck id r => s.proposeAckMsg h id r
  | .commit id n => s.memberCommit id n
  | .abandon id _ => s.memberAbandon id
  | .report m => if s.isCoordinator then s.reportTaken h.srcBerth m else s
  | .fallBack id m => s.memberFallBack id m
/-- A request for a role of a reserved kind is answered INVALID_ARG (01 R33). -/
def State.refuseInvalid (s : State) (h : GHead) : GBody → State
  | .mailbox b => s.answerUntaken .garzet (senderKey h) (leAt b 4 4) (mailCommand b) stInvalidArg h.corr []
  | _ => s
/-- A message of a stream comes to its turn: its role is checked, and it is delivered or refused. -/
def State.takeTurn (s : State) (h : GHead) (b : GBody) : State :=
  let s1 := s.setPeer ((s.peer (senderKey h)).keep (keyOf h))
  match s1.verdict h b with
  | .deliver => s1.deliverMsg h b
  | .invalid => s1.refuseInvalid h b
  | .moved => s1.sendMoved h h.targetRole
/-- Deliver what is held as far as no gap stands before it. -/
def State.drain (s : State) (k : Nat) : Nat → State
  | 0 => s
  | f + 1 =>
    match s.streamRx k with
    | none => s
    | some x =>
      if (s.peer k).keys.contains (0, x.expected) then (s.setStreamRx { x with expected := nextSeqOf x.expected }).drain k f
      else match x.held with
        | [] => s
        | m :: r =>
          if m.seq = x.expected then
            ((s.setStreamRx { x with expected := nextSeqOf x.expected, held := r }).takeTurn m.head m.body).drain k f
          else s
/-- Count a second copy. -/
def State.dupOn (s : State) : Option Lan → State
  | none => s
  | some l => s.updNetLan (lanNo l) fun n => { n with duplicates := inc64 n.duplicates }
/-- The stream as a message finds it: new where none is held for the sender, or where NEW_STREAM says so. -/
def StreamRx.begin_ (h : GHead) (k t : Nat) : Option StreamRx → StreamRx
  | none => { peer := k, expected := h.sequence, newAt := if h.newStream then t else 0 }
  | some x =>
    let y := if h.newStream then { x with newAt := t } else x
    if h.newStream && x.expected != h.sequence then
      { y with expected := h.sequence, skipped := []
               held := x.held.filter fun m => within 1 64 (seqAhead h.sequence m.seq) }
    else y
/-- A copy with NEW_STREAM that is of no message of the stream held: the sender gives a message up 10 ms after its first send
(R302), so a copy that comes more than 10 ms after the latest one with NEW_STREAM begins another stream, which may number its
messages alike (DEDUCED, log entry 161). -/
def StreamRx.anew (h : GHead) (t : Nat) : Option StreamRx → Bool
  | none => false
  | some x => h.newStream && elapsed x.newAt 10000000 t
/-- What was held of a stream that the sender has given up is forgotten, its keys with it. -/
def State.forgetStream (s : State) (k : Nat) : State :=
  let s1 := s.setPeer { s.peer k with keys := (s.peer k).keys.filter fun x => x.1 != 0 }
  { s1 with net := { s1.net with streamsRx := s1.net.streamsRx.filter fun x => x.peer != k } }
/-- A RELIABLE message arrives. -/
def State.streamIn (s0 : State) (lan : Option Lan) (h : GHead) (b : GBody) : State :=
  let k := senderKey h
  let s := if StreamRx.anew h s0.now (s0.streamRx k) then s0.forgetStream k else s0
  let st := s.streamRx k
  if (s.peer k).keys.contains (keyOf h) || st.any (fun x => x.held.any fun m => m.seq == h.sequence) then (s.dupOn lan).sendAck h
  else if st.any fun x => x.skipped.contains h.sequence then
    ({ s with net := { s.net with staleMsgs := inc64 s.net.staleMsgs } }).sendAck h
  else
    let x := StreamRx.begin_ h k s.now st
    let d := seqAhead x.expected h.sequence
    if d = 0 then
      (((s.setStreamRx { x with expected := nextSeqOf x.expected }).takeTurn h b).drain k 192).sendAck h
    else if d ≤ 64 then
      (s.setStreamRx { x with
        held := heldInsert x.expected { seq := h.sequence, at_ := s.now, head := h, body := b } x.held }).sendAck h
    else if 2 ^ 31 ≤ d then (s.dupOn lan).sendAck h
    else { s with net := { s.net with winDrops := inc64 s.net.winDrops } }
/-- A good copy of a message arrives, over a LAN or over the twin link. -/
def State.copyIn (s : State) (lan : Option Lan) (h : GHead) (b : GBody) : State :=
  let k := senderKey h
  let p := match lan with | none => s.peer k | some l => ((s.peer k).copy l s.now).learn l b
  let s1 := s.setPeer p
  let s2 := if h.reply || h.typ == 5 then s1.acked k h.ackSeq else s1
  if h.reliable then s2.streamIn lan h b
  else if p.keys.contains (keyOf h) then s2.dupOn lan
  else (s2.setPeer ((s2.peer k).keep (keyOf h))).deliverMsg h b
/-- A Garzet frame arrives on a LAN (R297, R299, R300). -/
def garzetIn (lan : Lan) (h : GHead) (b : GBody) (s : State) : State :=
  if !headOk h b then s.updNetLan (lanNo lan) fun n => { n with formatErr := inc64 n.formatErr }
  else if !s.addressed h then s
  else s.copyIn (some lan) h b
/-- A frame arrives on a lane of the twin link (12 R362). -/
def twinIn (i : Nat) (h : GHead) (b : GBody) (s : State) : State :=
  let s1 := s.twinHeard i
  if !headOk h b || !s1.addressed h then s1 else s1.copyIn none h b
/-- A frame whose body `ok` admits arrives on a LAN. -/
def overLan (t : Nat) (lan : Lan) (ok : Bool) (h : GHead) (b : GBody) (s : State) : Host.Outcome State Fault Refusal :=
  whenever (s.frameIn (lanNo lan) t) t (fun z => z.netRuns && ok) (garzetIn lan h b)
/-- A frame whose body `ok` admits arrives over a LAN or a lane of the twin link. -/
def overLink (t : Nat) (link : Link) (ok : Bool) (h : GHead) (b : GBody) (s : State) : Host.Outcome State Fault Refusal :=
  match link with
  | .lanA => overLan t .a ok h b s
  | .lanB => overLan t .b ok h b s
  | .twin0 => whenever s t (fun z => z.netRuns && ok) (twinIn 0 h b)
  | .twin1 => whenever s t (fun z => z.netRuns && ok) (twinIn 1 h b)

/-! ## Rows -/

/-- GARZET_FORMAT_ERR: a frame, header and payload, that breaks a rule of R297 or R298, or has a reserved field that is not 0
(00 R14), is discarded and counted. -/
def execGarzetFormatErr (t : Nat) (frame : LanFrame) (s : State) : Host.Outcome State Fault Refusal :=
  whenever (s.frameIn (lanNo frame.lan) t) t (fun z => z.netRuns && !garzetOk frame.bytes) fun z =>
    z.updNetLan (lanNo frame.lan) fun n => { n with formatErr := inc64 n.formatErr }
/-- GARZET_MAILBOX (14 R418). -/
def execGarzetMailbox (t : Nat) (lan : Lan) (h : GHead) (bytes : List Byte) (s : State) : Host.Outcome State Fault Refusal :=
  overLan t lan true h (.mailbox bytes) s
/-- GARZET_MAILBOX_REPLY (14 R420). -/
def execGarzetMailboxReply (t : Nat) (lan : Lan) (h : GHead) (bytes : List Byte) (s : State) : Host.Outcome State Fault Refusal :=
  overLan t lan true h (.mailboxReply bytes) s
/-- GARZET_ACK (R302). -/
def execGarzetAck (t : Nat) (lan : Lan) (h : GHead) (s : State) : Host.Outcome State Fault Refusal := overLan t lan true h .ack s
/-- GARZET_ROLE_MOVED (R311). -/
def execGarzetRoleMoved (t : Nat) (lan : Lan) (h : GHead) (m : MovedMsg) (s : State) : Host.Outcome State Fault Refusal :=
  overLan t lan true h (.roleMoved m) s
/-- GARZET_ANNOUNCE (R306). -/
def execGarzetAnnounce (t : Nat) (lan : Lan) (h : GHead) (m : AnnounceMsg) (s : State) : Host.Outcome State Fault Refusal :=
  overLan t lan true h (.announce m) s
/-- GARZET_SIGNAL (11 R339). -/
def execGarzetSignal (t : Nat) (lan : Lan) (h : GHead) (m : SignalMsg) (s : State) : Host.Outcome State Fault Refusal :=
  overLan t lan true h (.signal m) s
/-- GARZET_PROPOSE (R313). -/
def execGarzetPropose (t : Nat) (lan : Lan) (h : GHead) (m : Proposal) (s : State) : Host.Outcome State Fault Refusal :=
  overLan t lan true h (.propose m) s
/-- GARZET_PROPOSE_ACK (R314). -/
def execGarzetProposeAck (t : Nat) (lan : Lan) (h : GHead) (id result : Nat) (s : State) : Host.Outcome State Fault Refusal :=
  overLan t lan true h (.proposeAck id result) s
/-- GARZET_COMMIT (R314). -/
def execGarzetCommit (t : Nat) (lan : Lan) (h : GHead) (id n : Nat) (s : State) : Host.Outcome State Fault Refusal :=
  overLan t lan true h (.commit id n) s
/-- GARZET_ABANDON (R314). -/
def execGarzetAbandon (t : Nat) (lan : Lan) (h : GHead) (id reason : Nat) (s : State) : Host.Outcome State Fault Refusal :=
  overLan t lan true h (.abandon id reason) s
/-- GARZET_REPORT (R315). -/
def execGarzetReport (t : Nat) (lan : Lan) (h : GHead) (m : ReportMsg) (s : State) : Host.Outcome State Fault Refusal :=
  overLan t lan true h (.report m) s
/-- GARZET_FALL_BACK (R315). -/
def execGarzetFallBack (t : Nat) (lan : Lan) (h : GHead) (id m : Nat) (s : State) : Host.Outcome State Fault Refusal :=
  overLan t lan true h (.fallBack id m) s
/-- SOUND_READY (07 R206). -/
def execSoundReady (t : Nat) (lan : Lan) (h : GHead) (m : SoundMsg) (s : State) : Host.Outcome State Fault Refusal :=
  overLan t lan (m.kind == 1) h (.sound m) s
/-- SOUND_ACTIVE (07 R208). -/
def execSoundActive (t : Nat) (lan : Lan) (h : GHead) (m : SoundMsg) (s : State) : Host.Outcome State Fault Refusal :=
  overLan t lan (m.kind == 2) h (.sound m) s
/-- SOUND_END (07 R206, R208). -/
def execSoundEnd (t : Nat) (lan : Lan) (h : GHead) (m : SoundMsg) (s : State) : Host.Outcome State Fault Refusal :=
  overLan t lan (m.kind == 3) h (.sound m) s
/-- HELM_KEEP (12 R351). -/
def execHelmKeep (t : Nat) (link : Link) (h : GHead) (m : HelmMsg) (s : State) : Host.Outcome State Fault Refusal :=
  overLink t link (m.kind == hmKeep) h (.helm m) s
/-- HELM_RELEASE (12 R353). -/
def execHelmRelease (t : Nat) (link : Link) (h : GHead) (m : HelmMsg) (s : State) : Host.Outcome State Fault Refusal :=
  overLink t link (m.kind == hmRelease) h (.helm m) s
/-- HELM_TAKEN_RECEIVED (12 R353). -/
def execHelmTakenReceived (t : Nat) (link : Link) (h : GHead) (m : HelmMsg) (s : State) : Host.Outcome State Fault Refusal :=
  overLink t link (m.kind == hmTaken) h (.helm m) s
/-- HELM_SWAP_REQUEST (12 R369). -/
def execHelmSwapRequest (t : Nat) (link : Link) (h : GHead) (m : HelmMsg) (s : State) : Host.Outcome State Fault Refusal :=
  overLink t link (m.kind == hmSwapRequest) h (.helm m) s
/-- HELM_SWAP_READY (12 R369). -/
def execHelmSwapReady (t : Nat) (link : Link) (h : GHead) (m : HelmMsg) (s : State) : Host.Outcome State Fault Refusal :=
  overLink t link (m.kind == hmSwapReady) h (.helm m) s
/-- HELM_TEST_START (12 R365). -/
def execHelmTestStart (t : Nat) (link : Link) (h : GHead) (m : HelmMsg) (s : State) : Host.Outcome State Fault Refusal :=
  overLink t link (m.kind == hmTestStart) h (.helm m) s
/-- HELM_TEST_RESULT (12 R365). -/
def execHelmTestResult (t : Nat) (link : Link) (h : GHead) (m : HelmMsg) (s : State) : Host.Outcome State Fault Refusal :=
  overLink t link (m.kind == hmTestResult) h (.helm m) s
/-- HELM_FULL_REQUEST (12 R363). -/
def execHelmFullRequest (t : Nat) (link : Link) (h : GHead) (m : HelmMsg) (s : State) : Host.Outcome State Fault Refusal :=
  overLink t link (m.kind == hmFullRequest) h (.helm m) s
/-- GARZET_MIRROR (12 R358). -/
def execGarzetMirror (t : Nat) (link : Link) (h : GHead) (m : MirrorFrag) (s : State) : Host.Outcome State Fault Refusal :=
  overLink t link true h (.mirror m) s
/-- The head of a held run has waited 10 ms (R303). -/
def State.gapOpen (s : State) (k : Nat) : Bool :=
  match (s.streamRx k).bind fun x => x.held.head? with
  | none => false
  | some m => elapsed m.at_ 10000000 s.now
/-- The numbers from `a`, `n` of them. -/
def seqsFrom (a : Nat) : Nat → List Nat
  | 0 => []
  | n + 1 => a :: seqsFrom (nextSeqOf a) n
/-- GAP_SKIPPED: the missing sequences are given up, and what is held is delivered. -/
def execGapSkipped (t peer : Nat) (s : State) : Host.Outcome State Fault Refusal :=
  whenever s t (fun z => z.netRuns && z.gapOpen peer) fun z =>
    match z.streamRx peer with
    | none => z
    | some x =>
      match x.held.head? with
      | none => z
      | some m =>
        let lost := seqsFrom x.expected (seqAhead x.expected m.seq)
        let z1 := z.setStreamRx { x with expected := m.seq, skipped := (lost ++ x.skipped).take 64 }
        let z2 := { z1 with net := { z1.net with gapSkipped := inc64 z1.net.gapSkipped } }
        (z2.event evGapSkipped 7 (if peer < 65536 then peer else 0xFFFF)).drain peer 192

end Sys2Proof.Machine
end

