-- ==== Sys2Proof/Machine/Power.lean ====
section
/-! DEFINITION. Line power, start-up, beaching and refloat, parting (18; 06 R198 to R201). -/

namespace Sys2Proof.Machine

open Sys2Proof

/-! ## Commands (06 R202, 18 R495) -/

/-- Every lane is DISARMED or UNCONFIGURED. -/
def State.lanesQuiet (s : State) : Bool :=
  (List.range 8).all fun n => (s.lane n).state == .disarmed || (s.lane n).state == .unconfigured
/-- MODULE.BEACH (06 R198). -/
def execModuleBeach (src : Source) (s : State) : Host.Outcome State Fault Refusal :=
  runCommand src 0x0103 (fun z =>
    checked z [(z.lanesQuiet, stLaneArmed)]
      (let z1 := ((z.event evBeachStart 0 0).canBeach).abortChannels openChannels
       ok (z1.beachGo (z1.heldOf 2 ++ z1.laterRoles)))) s
/-- A lane in RUN has a twin partner that holds it STANDBY. -/
def State.laneCovered (s : State) (n : Nat) : Bool :=
  (s.lane n).state != .run || (s.laneRole n).any fun o => o.kind == .twin && s.partnerThere o
/-- MODULE.PART (18 R492, R493). -/
def execModulePart (src : Source) (s : State) : Host.Outcome State Fault Refusal :=
  runCommand src 0x0104 (fun z =>
    checked z
      [ ((List.range 8).all z.laneCovered, stNotPaired),
        ((List.range 8).all fun n => (z.lane n).state != .arming && (z.lane n).state != .disarming, stBusy) ]
      (let z1 := z.event evPartingStart 0 0
       ok (z1.partGo 2 (z1.heldOf 2)))) s
/-- MODULE.RESTART. -/
def execModuleRestart (src : Source) (s : State) : Host.Outcome State Fault Refusal :=
  runReset src 0x0105 (fun z => [(!z.holdsAnyActive, stRoleHeld), (z.power.part.isNone, stParting)]) (fun z => z) s
/-- POWER.STATUS; the voltages and currents are measured values that no command brings, and are free (log entry 133); that of
the board output at its latest trial is the one read then. -/
def execPowerStatus (src : Source) (s : State) : Host.Outcome State Fault Refusal :=
  runCommand src 0x2401 (fun z =>
    let mv (k : Nat) : Nat := Config.freeNat (z.fresh + 2 * k) % 65536
    let ma (k : Nat) : Nat := Config.freeNat (z.fresh + 2 * k + 1) % 65536
    let board := if !z.power.board then 0 else if z.alarmOn evBoardSupplyFault 0 0 then z.power.boardMa
      else Config.freeNat (z.fresh + 4) % 65536
    okWith { z with fresh := z.fresh + 6 }
      (([0, 1].flatMap fun k => [fb (z.powerPort k).powered, f1 (if (z.powerPort k).powered then 9 else 0), f2 (mv k), f2 (ma k),
          f4 (mv k * ma k / 1000)])
        ++ [f2 (Config.freeNat (z.fresh + 5) % 65536), fb z.power.charger, fb z.power.board, f2 board, f1 z.power.stage]
        ++ (List.range 5).map (fun k => ft (tget none z.power.stageAt k)) ++ [ft z.power.lastFail])) s

/-! ## Beaching and refloat (06 R198 to R201) -/

/-- ROLE_DROPPED: a release not taken up within 1 s (06 R198, 18 R493). -/
def execRoleDropped (t role : Nat) (s : State) : Host.Outcome State Fault Refusal :=
  whenever s t (fun z =>
      (z.power.beach.any fun b => b.step == 2 && b.roles.head? == some role && elapsed b.at_ (10 ^ 9) z.now)
      || (z.power.part.any fun p => p.step == 3 && p.roles.head? == some role && elapsed p.at_ (10 ^ 9) z.now)) fun z =>
    let z1 := ((z.releaseRole role true false true).dropStandby role).event evRoleDropped 5 role
    if z1.power.beach.isSome then z1.beachNext else z1.partNext
/-- BEACHED_AT: the beaching commit has ended, or 60 s have gone; then, with the ports asleep, BEACHED. -/
def execBeachedAt (t : Nat) (s : State) : Host.Outcome State Fault Refusal :=
  whenever s t (fun z => z.power.on && z.power.beach.any fun b =>
      if b.step = 3 then (b.stepFrom.isNone && z.store.commit.isNone) || elapsed b.at_ (60 * 10 ^ 9) z.now
      else b.step == 4 && z.portsAsleep b.at_) fun z =>
    if z.power.beach.any fun b => b.step == 3 then
      let z1 := z.putOffCommit.sleepPorts
      { z1 with power := { z1.power with beach := some { step := 4, roles := [], at_ := z1.now } } }
    else z.toBeached
/-- The bus has returned (06 R200). -/
def State.busBack (s : State) : Bool := s.power.busWasLow && decide (100 ≤ s.power.busHigh) && !s.power.parted
/-- REFLOAT: the bus has returned, or the REFLOAT input that rose at `rose`, after step 6, has been high for 50 ms. -/
def execRefloat (t : Nat) (byInput : Bool) (rose : Nat) (s : State) : Host.Outcome State Fault Refusal :=
  whenever s t (fun z => z.power.on && z.power.state == .beached
      && (if byInput then decide (z.power.beachedAt ≤ rose) && elapsed rose 50000000 z.now else z.busBack)) fun z =>
    let z1 := (z.event evRefloat 0 0 (cause := if byInput then 2 else 1)).countFull
    let z2 := { z1 with
      held := none
      power := { z1.power with
        state := .full, refloatIn := byInput, refloatAt := some z1.now, parted := false, pullOk := false }
      net := { z1.net with
        berthAt := z1.now, announceDue := true
        own := z1.net.own.map fun (o : OwnRole) => { o with released := false } } }
    let z3 := (List.range 16).foldl (fun (y : State) k => y.updConv k fun v => { v with stopped := false }) z2
    let z4 := ((List.range 8).foldl (fun (y : State) n => y.updIcv n fun v =>
      if (y.lane n).cfg.isSome then v.start y.now y.pos else v.reset y.now y.pos) z3).tachsStill
    let z5 := (List.range 8).foldl (fun (y : State) k => match (y.dac k).source with | .signal h => y.followSignal h | _ => y) z4
    let ps := (List.range 8).flatMap fun n => z5.portsOf n
    let z6 := ps.foldl (fun (y : State) p => (y.modelled p).foldl (fun (x : State) c => x.updCell (cellIx p c) fun k =>
      { k with zeroSpan := true }) (y.toTrain p)) z5
    z6.placeEntries
/-- REFLOATED: by 100 ms, pending commits are made. -/
def execRefloated (t : Nat) (s : State) : Host.Outcome State Fault Refusal :=
  whenever s t (fun z => z.power.on && z.power.refloatAt.isSome && z.power.state == .full) fun z =>
    let due := z.power.pendingCommit
    let z1 := ({ z with power := { z.power with refloatAt := none, pendingCommit := false } }).event evRefloated 0 0
    if due then z1.requestCommit true else z1

/-! ## Parting (18 R493) -/

/-- PARTING_STEP: the time of a helm move has run out, or the parting commit has ended. -/
def execPartingStep (t : Nat) (s : State) : Host.Outcome State Fault Refusal :=
  whenever s t (fun z => z.power.on && z.power.part.any fun p =>
      if p.step = 4 then z.store.commit.isNone || elapsed p.at_ (60 * 10 ^ 9) z.now
      else if p.step = 5 then z.portsAsleep p.at_
      else elapsed p.at_ (if p.step = 2 then 100000000 else 10 ^ 9) z.now) fun z =>
    match z.power.part with
    | none => z
    | some p =>
      if p.step = 4 then
        let z1 := z.putOffCommit.sleepPorts
        { z1 with power := { z1.power with part := some { step := 5, roles := [], at_ := z1.now } } }
      else if p.step = 5 then
        let z1 := z.toBeached
        ({ z1 with power := { z1.power with pullOk := true, parted := true } }).event evPartingDone 0 0
      else match p.roles.head? with
        | none => z
        | some r =>
          let taken := !z.holdsActive r
          let z1 := (z.releaseRole r true false true).dropStandby r
          (if taken || p.step = 2 then z1 else z1.event evRoleDropped 5 r).partNext

/-! ## Start-up (18 R488) -/

/-- POWER_UP: a port's PSE applies power: the first starts the module, the other joins it; a port may also come back while a
loss of line power is being run. -/
def execPowerUp (t port : Nat) (s : State) : Host.Outcome State Fault Refusal :=
  wheneverOn (decide (port < 2)) s t (fun z => !(z.powerPort port).powered) fun z =>
    let z1 := z.setPowerPort port { powered := true, poweredAt := z.now }
    if z1.power.lossAt.isSome || z1.power.on then z1
    else { z1 with
      power := { z1.power with on := true, bootAt := z1.now, stage := 0, stageAt := [(0, some z1.now)] }
      ana := { z1.ana with icv := (List.range 8).map fun n => (n, { z1.icv n with windowStart := z1.now, resetAt := z1.now }) } }
/-- STAGE_RAILS_UP: rails and TCXO in tolerance; SFA and SFB run from boot ROM. -/
def execStageRailsUp (t : Nat) (sideB : Bool) (s : State) : Host.Outcome State Fault Refusal :=
  whenever s t (fun z => z.power.on && z.power.stage == 0 && !z.safety.resetHold) fun z =>
    ({ z with
        power := { z.power with board := true, charger := true, vstore := true }
        net := { z.net with twinSideB := sideB }
        store := { z.store with onMark := z.now } }).reach 1
/-- MEMORY_ZEROED: SRAM and LPDDR5 read zero and the other engines start (01 R27); the module's signals that hold from
power-up are published (02 R60, 04 R132, R134). -/
def execMemoryZeroed (t : Nat) (s : State) : Host.Outcome State Fault Refusal :=
  whenever s t (fun z => z.power.on && z.power.stage == 1 && !z.power.zeroed) fun z =>
    ({ z with power := { z.power with zeroed := true }
              fab := { z.fab with lpddr := [], sram := [], stopped := false } }.tachsStill).publishQuality
/-- The request and response queues of the PCIe mailboxes, which the module creates at start (14 R412). -/
def State.mailboxQueues (s : State) : State :=
  (List.range 4).foldl (fun (z : State) m =>
    let y := (z.createQueue (16 + 2 * m) 8 2 1 0 0 false).getD z
    (y.createQueue (17 + 2 * m) 8 1 2 1 0 false).getD y) s
/-- Alarms whose condition a reset has ended: the state that they describe is at its reset value (DESIGN CHOICE, log entry
165). -/
def endedAlarms : List Nat :=
  [evTapFailed, evBalSwitchFault, evBalTestOverdue, evTempSensorLost, evCoolingLost, evDieSensorBroken, evNetworkFault,
   evSafeOutFault, evPairDegraded, evCanBusOff, evStoreDeferred]
/-- They are recorded as ended when the image runs. -/
def State.endAlarms (s : State) : State :=
  (s.recorder.alarms.filter fun a => endedAlarms.contains a.code).foldl (fun z a => z.clearAlarm a.code a.objKind a.object) s
/-- SVB reads the devices' identity and SFDP table; one that fails R441 is declared failed (16 R441, R454). -/
def State.findDevice (s : State) (k : Nat) (meets : Bool) : State :=
  let s1 := s.updDevice k fun d => { d with present := meets, failed := d.failed || !meets }
  if meets then s1 else s1.raise evStoreDegraded 9 k
/-- What stage 2 brings beside the image: settings, safe outputs, ports, controllers, the host path and the mailboxes. -/
def State.imageRuns (s : State) : State :=
  let s1 := s.applySettings
  let s2 := { s1 with
    safety := { s1.safety with outConfigured := true }
    mbox := { s1.mbox with ready := true, hostLinked := true } }.mailboxQueues
  let s3 := (s2.endAlarms.wearEffects).reach 2
  let s4 := if s3.power.brownout then
    ({ s3 with power := { s3.power with brownout := false } }).event evBrownoutRestart 0 0 else s3
  s4.placeEntries
/-- STAGE_IMAGE_RUNNING: SVB reads the devices of the store, chooses a slot and checks it; the image runs, or the recovery
loader. -/
def execStageImageRunning (t : Nat) (slots : BootSlots) (devices : BootDevices) (s : State) : Host.Outcome State Fault Refusal :=
  whenever s t (fun z => z.power.on && z.power.stage == 1 && z.power.zeroed && !z.sec.recovery) fun z =>
    let z1 := ((z.findDevice 0 devices.dev0).findDevice 1 devices.dev1).bootImage slots.a slots.b
    if z1.sec.recovery then z1 else z1.imageRuns
/-- Plant links are up, or one after 2 s, and the berth has been derived where the lifecycle derives one. -/
def State.onNetwork (s : State) : Bool :=
  let up (l : Nat) : Bool := (s.netLan l).link
  (if up 0 && up 1 then true else (up 0 || up 1) && elapsed s.power.bootAt (2 * 10 ^ 9) s.now)
  && (s.net.berthState != .notDerived || s.sec.lifecycle == .blank || s.sec.lifecycle == .parted)
/-- STAGE_ON_NETWORK: the first ANNOUNCE is sent; a module without configured lanes reaches stage 4 with it. -/
def execStageOnNetwork (t : Nat) (s : State) : Host.Outcome State Fault Refusal :=
  whenever s t (fun z => z.netRuns && z.power.stage == 2 && z.onNetwork) fun z =>
    let z1 := ((z.reach 3).trialGood).announce
    if (List.range 8).all fun n => (z1.lane n).cfg.isNone then z1.reach 4 else z1
/-- A configured lane meets the conditions of stage 4. -/
def State.laneArmable (s : State) (n : Nat) : Bool :=
  (s.lane n).cfg.isNone || ((s.portsOf n).all (fun p => (s.port p).state == .run) && s.tide.quality != .none_
    && s.laneCalibrated n)
/-- STAGE_LANES_ARMABLE. -/
def execStageLanesArmable (t : Nat) (s : State) : Host.Outcome State Fault Refusal :=
  whenever s t (fun z => z.power.on && z.power.stage == 3 && (List.range 8).all z.laneArmable && z.store.measuredBoot) fun z =>
    z.reach 4
/-- By when a stage is reached; a rejected trial gives stage 2 200 ms more. -/
def State.stageBy (s : State) : Nat → Nat
  | 1 => 20000000
  | 2 => if [0, 1].any fun k => s.alarmOn evImageRejected 6 k then 600000000 else 400000000
  | 3 => 3 * 10 ^ 9
  | _ => 10 ^ 10
/-- START_SLOW: a stage has not been reached by its time. -/
def execStartSlow (t stage : Nat) (s : State) : Host.Outcome State Fault Refusal :=
  whenever s t (fun z => z.power.on && within 1 4 stage && decide (z.power.stage < stage)
      && decide (z.power.bootAt + z.stageBy stage < z.now)) fun z =>
    z.raise evStartSlow 0 stage (v0 := some (stage : Int))
/-- VHU_CHARGED: VHU first reaches 39.2 V after a power-up (18 R485). -/
def execVhuCharged (t mv : Nat) (s : State) : Host.Outcome State Fault Refusal :=
  whenever s t (fun z => z.power.on && z.power.charger && !z.store.measuredBoot && decide (39200 ≤ mv)) fun z =>
    (({ z with store := { z.store with vHu := mv, measuredBoot := true } }).holdupCheck fun _ => true).storeServe

/-! ## Plant port power (18 R481, R482) -/

/-- PORT_POWER_LOSS: the other port carries the whole load. -/
def execPortPowerLoss (t port : Nat) (s : State) : Host.Outcome State Fault Refusal :=
  wheneverOn (decide (port < 2)) s t (fun z => z.power.on && (z.powerPort port).powered) fun z =>
    let z1 := z.updPowerPort port fun x => { x with powered := false }
    if (z1.powerPort (1 - port)).powered then z1.raise evPowerOnePort 13 port else z1
/-- PORT_POWER_RESTORED: the port has been powered again for 1 s. -/
def execPortPowerRestored (t port : Nat) (s : State) : Host.Outcome State Fault Refusal :=
  wheneverOn (decide (port < 2)) s t
    (fun z => z.power.on && (!(z.powerPort port).powered || elapsed (z.powerPort port).poweredAt (10 ^ 9) z.now)) fun z =>
    (z.updPowerPort port fun x => { powered := true, poweredAt := if x.powered then x.poweredAt else z.now }).clearAlarm
      evPowerOnePort 13 port

/-! ## Loss of line power (18 R486, R487) -/

/-- Step 2: hardware forces every gate low, de-energises every contactor and safe output, stops driving every helm line and
switches VBRD_3V3 off. -/
def State.powerStep2 (s : State) : State :=
  let s1 := (List.range 8).foldl (fun (z : State) n => z.updLane n fun l => l.forceGates.openAll z.now) s.dropHelmLines
  { s1 with
    safety := { s1.safety with outConfigured := false }
    power := { s1.power with
      board := false, charger := false, lossAt := some s1.now
      ports := [(0, { powered := false }), (1, { powered := false })] } }
/-- Step 3: engines and PHYs stop; armed lanes are recorded TRIPPED. -/
def State.powerStep3 (s : State) (armed : List Nat) : State :=
  let s1 := { s with power := { s.power with beach := none, part := none } }
  let s2 := (armed.foldl (fun (z : State) n => z.tripLane n trPowerFail) s1).event evPowerFail 0 0
  let s3 := (s2.enginesOff.loseRoles).mailboxesOff
  { s3 with
    mbox := { s3.mbox with hostLinked := false }
    net := { s3.net with lans := s3.net.lans.map fun (x : Nat × NetLan) => (x.1, { x.2 with link := false }) }
    power := { s3.power with lastFail := some s3.now } }
/-- LINE_POWER_LOSS: neither port has been powered for 50 µs; VHU is then `vhu` mV. -/
def execLinePowerLoss (t vhu : Nat) (s : State) : Host.Outcome State Fault Refusal :=
  whenever s t (fun z => z.power.on) fun z =>
    let armed := (List.range 8).filter fun n => laneArmed (z.lane n).state
    let off (y : State) : State := { y with power := { y.power with on := false } }
    let z1 := { z with store := { z.store with vHu := vhu } }.countFull
    if z.power.stage < 2 ∨ z.power.state = .beached then off z1.powerStep2
    else off (((z1.powerStep2).powerStep3 armed).lastWrites (z.power.state != .bareRock))
/-- MODULE_UNPOWERED: VHU falls below 20.0 V. -/
def execModuleUnpowered (t : Nat) (s : State) : Host.Outcome State Fault Refusal :=
  whenever s t (fun z => z.power.lossAt.isSome) fun z => z.unpowered
/-- BROWNOUT_RESTART: power came back before VHU fell below 20.0 V; the module resets itself once the sequence is done, and the
hold-up checks wait again for 39.2 V (18 R485). -/
def execBrownoutRestart (t : Nat) (s : State) : Host.Outcome State Fault Refusal :=
  whenever s t (fun z => z.power.lossAt.isSome && [0, 1].any fun k => (z.powerPort k).powered) fun z =>
    let z1 := z.selfReset (brownout := true)
    { z1 with store := { z1.store with measuredBoot := false } }

/-! ## Board supply (18 R484) -/

/-- BOARD_SUPPLY_FAULT: over current or under voltage for 10 ms switches VBRD_3V3 off. -/
def execBoardSupplyFault (t : Nat) (s : State) : Host.Outcome State Fault Refusal :=
  whenever s t (fun z => z.power.on && z.power.board) fun z =>
    ({ z with power := { z.power with
        board := false, boardTryAt := z.now, boardOkSince := none } }).raise evBoardSupplyFault 0 0
/-- BOARD_SUPPLY_RETRY: the supply is tried every 1 s; 10 s in tolerance end the alarm. -/
def execBoardSupplyRetry (t ma : Nat) (ok : Bool) (s : State) : Host.Outcome State Fault Refusal :=
  whenever s t (fun z => z.power.on && z.alarmOn evBoardSupplyFault 0 0 && elapsed z.power.boardTryAt (10 ^ 9) z.now) fun z =>
    if ok then
      let since := z.power.boardOkSince.getD z.now
      let z1 := { z with power := { z.power with
        board := true, boardMa := ma, boardTryAt := z.now, boardOkSince := some since } }
      if elapsed since (10 ^ 10) z.now then z1.clearAlarm evBoardSupplyFault 0 0 else z1
    else { z with power := { z.power with board := false, boardMa := 0, boardTryAt := z.now, boardOkSince := none } }

end Sys2Proof.Machine
end

