-- ==== Sys2Proof/Machine/Operands.lean ====
section
/-! DEFINITION. The operand forms of the commands: the payload layout of 14 R401 and, for every code of 14 R424, the fields of
its Request column. Sizes and codes that the spec does not state are log entry 71. -/

namespace Sys2Proof.Machine

open Sys2Proof

/-! ## The layout (R401) -/

/-- A reader of a payload: the position in it and the bytes left. -/
abbrev Rd (α : Type) := StateT (Nat × List Byte) Option α

/-- The next `n` bytes as they stand. -/
def rdRaw (n : Nat) : Rd (List Byte) := fun c =>
  if n ≤ c.2.length then some (c.2.take n, c.1 + n, c.2.drop n) else none
/-- The zero bytes up to a multiple of `n`. -/
def rdAlign (n : Nat) : Rd Unit := fun c =>
  let k := (n - c.1 % n) % n
  if k ≤ c.2.length && (c.2.take k).all (· == 0) then some ((), c.1 + k, c.2.drop k) else none
/-- The payload ends here. -/
def rdAtEnd : Rd Bool := fun c => some (c.2.isEmpty, c)
/-- All the bytes but the last `k`. -/
def rdRest (k : Nat) : Rd (List Byte) := fun c => if k ≤ c.2.length then rdRaw (c.2.length - k) c else none
/-- An unsigned field of `n` bytes, at a multiple of its size. -/
def rdU (n : Nat) : Rd Nat := do
  rdAlign n
  return ofLe (← rdRaw n)
/-- A signed field of `n` bytes. -/
def rdI (n : Nat) : Rd Int := do return toSigned (8 * n) (← rdU n)
/-- An enumeration, coded from 0 in the order listed. -/
def rdEnum {α : Type} (l : List α) : Rd α := do
  match l[← rdU 1]? with
  | some a => return a
  | none => failure
/-- A flag. -/
def rdFlag : Rd Bool := rdEnum [false, true]
/-- A field offered as alternatives: which of `n` it is, and its value of `k` bytes. -/
def rdAlt (n k : Nat) : Rd (Nat × Nat) := do
  let a ← rdEnum (List.range n)
  return (a, ← rdU k)
/-- `n` readings, one after the other. -/
def rdTimes {α : Type} (r : Rd α) : Nat → Rd (List α)
  | 0 => return []
  | n + 1 => do
    let a ← r
    return a :: (← rdTimes r n)
/-- A list: its count and its elements. -/
def rdList {α : Type} (r : Rd α) : Rd (List α) := do rdTimes r (← rdU 2)
/-- A structure of `n` bytes, at a multiple of 8. -/
def rdStruct (n : Nat) : Rd (List Byte) := do
  rdAlign 8
  rdRaw n
/-- A structure that takes all the bytes but the last `k`. -/
def rdPart (k : Nat) : Rd (List Byte) := do
  rdAlign 8
  rdRest k
/-- A field that may be left out at the end of the payload. -/
def rdOpt {α : Type} (r : Rd α) : Rd (Option α) := do
  if ← rdAtEnd then return none else return some (← r)
/-- Read a whole payload. -/
def readAll {α : Type} (r : Rd α) (b : List Byte) : Option α :=
  match r (0, b) with
  | some (a, _, []) => some a
  | _ => none

/-! ## Forms that several commands share -/

/-- A mailbox path (R397). -/
def pathOf (n : Nat) : Option Path := [Path.pcie, .service, .garzet][n]?
/-- A value that must be there. -/
def rdSome {α : Type} : Option α → Rd α
  | some a => return a
  | none => failure
/-- "Signal handle, or mailbox path" (05 R137). -/
def rdSetpointSource : Rd OutSource := do
  match ← rdAlt 2 2 with
  | (0, v) => return .signal v
  | (_, v) => return .path (← rdSome (pathOf v))
/-- A mailbox path, or a local signal (04 R130). -/
def rdDacSource : Rd OutSource := do
  match ← rdAlt 2 2 with
  | (0, v) => return .path (← rdSome (pathOf v))
  | (_, v) => return .signal v
/-- A cooling loop, a local signal, or a mailbox path (08 R247). -/
def rdPumpSource : Rd OutSource := do
  match ← rdAlt 3 2 with
  | (0, v) => return .loop v
  | (1, v) => return .signal v
  | (_, v) => return .path (← rdSome (pathOf v))
/-- A tenant slot, or a mailbox path (15 R429). -/
def rdBufOwner : Rd OutSource := do
  match ← rdAlt 2 1 with
  | (0, v) => return .slot v
  | (_, v) => return .path (← rdSome (pathOf v))
/-- A queue, or a mailbox path (15 R434). -/
def rdCanTarget : Rd CanTarget := do
  match ← rdAlt 2 2 with
  | (0, v) => return .queue v
  | (_, v) => return .path (← rdSome (pathOf v))
/-- "Input or ICV n" (04 R135). -/
def rdCalTarget : Rd CalTarget := do
  match ← rdAlt 2 1 with
  | (0, v) => return .input v
  | (_, v) => return .icv v
/-- A value, or none. -/
def rdOrNone (k : Nat) : Rd (Option Nat) := do
  match ← rdAlt 2 k with
  | (0, v) => return some v
  | _ => return none

/-! ## Areas 0x01 to 0x06 -/

/-- MODULE and MBOX (14 R425; 06 R202; 18 R495). -/
def rdModule (src : Source) : Nat → Nat → Rd Instr
  | 0x01, 1 => return .moduleIdentify src
  | 0x01, 2 => return .moduleStatus src
  | 0x01, 3 => return .moduleBeach src
  | 0x01, 4 => return .modulePart src
  | 0x01, 5 => return .moduleRestart src
  | 0x02, 1 => return .mboxNop src (← rdRest 0)
  | 0x02, 2 => return .mboxStatus src
  | 0x02, 3 => return .mboxCountersRead src (← rdFlag)
  | _, _ => failure
/-- TIME, TIDE and LIGHTHOUSE (02 R76). -/
def rdTime (src : Source) : Nat → Nat → Rd Instr
  | 0x03, 1 => return .timeStatus src
  | 0x03, 2 => do
    return .timeServoSet src
      { kp := ← rdU 4, ki := ← rdU 4, outlier := ← rdU 4, lockNs := ← rdU 2, stepNs := ← rdU 4, asymA := ← rdI 4
        asymB := ← rdI 4 }
  | 0x03, 3 => return .timeTriggerSet src (← rdU 1) (← rdEnum [.off, .time, .pps]) (← rdU 8) (← rdU 8) (← rdU 8)
  | 0x03, 4 => return .timeCaptureRead src (← rdU 1) (← rdU 1)
  | 0x04, 1 => return .tideStatus src
  | 0x04, 2 => return .tideEntrySet src (← rdU 2) (BitVec.ofNat 256 (ofLe (← rdStruct 32)))
  | 0x04, 3 => return .tideEntryRead src (← rdU 2)
  | 0x05, 1 => do
    return .lighthouseConfig src
      { lane := ← rdU 1, nominalHz := ← rdU 1, angleOffset := ← rdI 2, bandwidth := ← rdU 1, nominalMv := ← rdU 4 }
  | _, _ => failure
/-- TAP (03 R106). -/
def rdTap (src : Source) : Nat → Nat → Rd Instr
  | 0x06, 1 => return .tapStatus src (← rdU 1)
  | 0x06, 2 => return .tapTrimSet src (← rdU 1) (← rdI 2)
  | 0x06, 3 => do
    let (a, v) ← rdAlt 2 1
    return .tapLimitsSet src (if a = 0 then .port v else .lane v) (← rdU 2) (← rdU 2) (← rdI 2) (← rdU 4) (← rdU 1)
  | 0x06, 4 => return .tapRetrain src (← rdU 1)
  | 0x06, 5 => return .tapCountersRead src (← rdU 1) (← rdFlag)
  | _, _ => failure

/-! ## Areas 0x07 to 0x0A -/

/-- ANALOG, ICV, DAC and TACH (04 R135). -/
def rdAnalog (src : Source) : Nat → Nat → Rd Instr
  | 0x07, 1 => return .analogInputSet src (← rdU 1) (← rdEnum [.current, .voltage, .temperature, .raw]) (← rdI 4) (← rdU 2)
  | 0x07, 2 => do
    return .analogTableSet src (← rdU 1) (← rdU 1)
      ((← rdList (rdU 4)).map (BitVec.ofNat 32)) (← rdOrNone 2)
  | 0x07, 3 => return .analogTableStart src (← rdU 1) (← rdU 1)
  | 0x07, 4 => return .analogConvert src (← rdU 1) (← rdFlag)
  | 0x07, 5 => return .analogRead src (← rdList (rdU 1))
  | 0x07, 6 => return .analogCalPoint src (← rdCalTarget) (← rdFlag) (← rdI 4)
  | 0x07, 7 => do
    if (← rdEnum [false, true]) then return .analogCalCommit src [] [] true
    else return .analogCalCommit src (← rdList (rdU 1)) (← rdList (rdU 1)) false
  | 0x07, 8 => return .analogCalRead src (← rdCalTarget)
  | 0x07, 9 => return .analogCountersRead src (← rdU 1) (← rdFlag)
  | 0x08, 1 => return .icvStatus src (← rdU 1)
  | 0x08, 2 => return .icvReset src (← rdU 1)
  | 0x09, 1 => return .dacConfig src (← rdU 1) (← rdDacSource) (← rdU 2) (← rdU 1)
  | 0x09, 2 => return .dacSet src (← rdU 1) (← rdU 1) (← rdU 2)
  | 0x0A, 1 => return .tachConfig src (← rdU 1) (← rdEnum [false, true]) (← rdFlag) (← rdU 1) (← rdU 1) (← rdU 2)
  | 0x0A, 2 => return .tachRead src (← rdList (rdU 1))
  | _, _ => failure

/-! ## Areas 0x0B to 0x0E -/

/-- A field with a Default that holds the no-value marker of its format takes the default: the layout of a request has no
other way to leave a field out that others follow (DESIGN CHOICE, log entry 151). -/
def orDefault (d marker v : Nat) : Nat := if v = marker then d else v
/-- An unsigned field of `k` bytes with a default. -/
def rdDef (k d : Nat) : Rd Nat := do return orDefault d (2 ^ (8 * k) - 1) (← rdU k)
/-- A signed 32-bit field with a default. -/
def rdDefI (d : Int) : Rd Int := do
  let v ← rdI 4
  return if v = -2147483648 then d else v
/-- A magnitude held in a signed 32-bit field, with a default. -/
def rdDefM (d : Nat) : Rd Nat := do return orDefault d 0x80000000 (← rdU 4)
/-- MODE, CURRENT by default. -/
def rdMode : Rd Bool := do
  match ← rdU 1 with
  | 0 | 255 => return false
  | 1 => return true
  | _ => failure
/-- The fields of 05 R137 with their defaults; a port count of 0 leaves the others out. -/
def rdLaneConfig : Rd LaneConfig := do
  let firstPort ← rdU 1
  let portCount ← rdU 1
  if portCount = 0 then
    return { firstPort := firstPort, portCount := 0, phases := 0, pwmN := 0, dtH := [], dtL := [], minOn := 0, umin := 0
             umax := 0, power := false, stringFs := 0, powerFs := 0, phaseFs := 0, rated := 0, iChgMax := 0, iDisMax := 0
             rampRate := 0, vbusMin := 0, vbusMax := 0, tFb := 0, preDelta := 0, preTimeout := 0, preShort := 0
             tOverlap := 0, iOpen := 0, iBreak := 0, disarmTimeout := 0, tDecay := 0, source := .none_ }
  else
    let phases ← rdU 1
    let pwmN ← rdU 1
    let dtH ← rdTimes (rdDef 2 400) phases
    let dtL ← rdTimes (rdDef 2 400) phases
    let minOn ← rdDef 2 800
    let umin ← rdDefI 42949673
    let umax ← rdDefI 2104533975
    let power ← rdMode
    let stringFs ← rdU 4
    let powerFs ← rdU 4
    let phaseFs ← rdU 4
    let rated ← rdU 4
    return { firstPort := firstPort, portCount := portCount, phases := phases, pwmN := pwmN, dtH := dtH, dtL := dtL
             minOn := minOn, umin := umin, umax := umax, power := power, stringFs := stringFs, powerFs := powerFs
             phaseFs := phaseFs, rated := rated, iChgMax := ← rdDefM rated, iDisMax := ← rdDefM rated, rampRate := ← rdU 4
             vbusMin := ← rdI 4, vbusMax := ← rdI 4, tFb := ← rdDef 2 50, preDelta := ← rdDef 2 1311
             preTimeout := ← rdDef 2 5000, preShort := ← rdDef 2 500, tOverlap := ← rdDef 2 20
             iOpen := ← rdDefM (rated / 100), iBreak := ← rdDefM (rated / 10), disarmTimeout := ← rdDef 2 2000
             tDecay := ← rdDef 2 0, source := ← rdSetpointSource }
/-- LANE (05 R164). -/
def rdLane (src : Source) : Nat → Nat → Rd Instr
  | 0x0B, 1 => return .laneConfig src (← rdU 1) (← rdLaneConfig)
  | 0x0B, 2 => do
    return .laneLoopSet src (← rdU 1)
      { kpA := ← rdU 4, kiA := ← rdU 4, kdA := ← rdU 4, kpB := ← rdU 4, kiB := ← rdU 4, kdB := ← rdU 4 }
  | 0x0B, 3 => return .laneArm src (← rdU 1)
  | 0x0B, 4 => return .laneDisarm src (← rdU 1)
  | 0x0B, 5 => return .laneSetpoint src (← rdU 1) (← rdI 4)
  | 0x0B, 6 => return .laneStatus src (← rdU 1)
  | 0x0B, 7 => return .laneFaultClear src (← rdU 1) (← rdFlag)
  | 0x0B, 8 => return .laneCountersRead src (← rdU 1) (← rdFlag)
  | _, _ => failure
/-- "Port, or one cell" (06 R202). -/
def rdPortOrCell : Rd PortOrCell := do
  match ← rdEnum [false, true] with
  | false => return .port (← rdU 1)
  | true => return .cell (← rdU 1) (← rdU 1) (← rdU 1)
/-- MODEL (06 R202). -/
def rdModel (src : Source) : Nat → Nat → Rd Instr
  | 0x0C, 1 => return .modelParamLoad src (← rdU 1) (← rdPart 0)
  | 0x0C, 2 => return .modelParamRead src (← rdU 1)
  | 0x0C, 3 => return .modelAssign src (← rdU 1) (← rdTimes (rdU 1) 18) (← rdTimes (rdU 1) 18)
  | 0x0C, 4 => return .modelCellRead src (← rdU 1) (← rdU 1) (← rdU 1)
  | 0x0C, 5 => return .modelStatus src (← rdU 1)
  | 0x0C, 6 => return .modelLearnSet src (← rdEnum [true, false]) (← rdU 1)
  | 0x0C, 7 => return .modelLearnedRead src (← rdU 1)
  | 0x0C, 8 => return .modelLearnedWrite src (← rdU 1) (← rdPart 0)
  | 0x0C, 9 => return .modelCommit src
  | 0x0C, 10 => return .modelRoughCommand src (← rdPortOrCell) (← rdFlag)
  | 0x0C, 11 => return .modelPowerSet src (← rdFlag)
  | 0x0C, 12 => return .modelCountersRead src (← rdU 1) (← rdFlag)
  | _, _ => failure
/-- SOUND and SPRING (07 R231). -/
def rdSound (src : Source) : Nat → Nat → Rd Instr
  | 0x0D, 1 => do
    return .soundSchedule src
      { lane := ← rdU 1, set_ := ← rdU 4, step := ← rdU 2, last := ← rdFlag, start := ← rdU 8, stepMa := ← rdI 4
        length := ← rdEnum [10, 100, 1000], capture := ← rdFlag, partnerRole := ← rdU 4, partnerEpoch := ← rdU 2 }
  | 0x0D, 2 => return .soundCancel src (← rdU 1) (← rdU 4) (← rdOrNone 2)
  | 0x0D, 3 => return .soundStatus src (← rdU 1)
  | 0x0D, 4 => return .soundResultRead src (← rdU 1) (← rdU 4) (← rdU 2) (← rdU 1)
  | 0x0E, 1 => return .springStart src (← rdU 1) (← rdI 4) (← rdI 4) ((← rdOpt (rdU 2)).getD 100) ((← rdOpt (rdU 1)).getD 24)
  | 0x0E, 2 => return .springStop src (← rdU 1)
  | 0x0E, 3 => return .springStatus src (← rdU 1)
  | 0x0E, 4 => return .springRosterSet src (← rdU 1) (← rdU 2)
  | 0x0E, 5 => return .springRosterRead src
  | _, _ => failure

/-! ## Areas 0x0F to 0x13 -/

/-- BALANCE, THERMAL, COOLING and DIE (08 R255). -/
def rdThermal (src : Source) : Nat → Nat → Rd Instr
  | 0x0F, 1 => do
    return .balanceConfig src (← rdU 1)
      { enable := ← rdFlag, deadband := ← rdU 8, maxPerPort := ← rdU 1, vMin := ← rdU 2, tMax := ← rdI 2, dropMin := ← rdU 2
        dropMax := ← rdU 2, leak := ← rdU 2 }
  | 0x0F, 2 => return .balanceStatus src (← rdU 1)
  | 0x0F, 3 => return .balanceTest src { lane := ← rdU 1, port := ← rdU 1, cell := ← rdU 1 }
  | 0x0F, 4 => return .balanceTestRead src (← rdU 1)
  | 0x10, 1 => do
    return .thermalLimitsSet src (← rdU 1)
      { tripHigh := ← rdI 2, warnHigh := ← rdI 2, shedStart := ← rdI 2, warnLow := ← rdI 2, chgInhibit := ← rdI 2
        tripLow := ← rdI 2, rateLimit := ← rdU 2, shedFloor := ← rdU 2, hsShedStart := ← rdI 2, hsTrip := ← rdI 2
        coolLossShare := ← rdU 2 }
  | 0x10, 2 => return .thermalStatus src (← rdU 1)
  | 0x11, 1 => do
    return .coolingLoopSet src (← rdU 1)
      { lanes := ← rdU 1, pump := ← rdU 1, tach := ← rdU 1, setPoint := ← rdI 2, kp := ← rdU 4, ki := ← rdU 4
        pumpMin := ← rdU 2, pumpMax := ← rdU 2, expect := ← rdU 2 }
  | 0x11, 2 => return .coolingOutputSet src (← rdU 1) (← rdPumpSource) (← rdU 4) (← rdU 2)
  | 0x11, 3 => return .coolingDutySet src (← rdU 1) (← rdU 2)
  | 0x11, 4 => return .coolingStatus src (← rdU 1)
  | 0x12, 1 => return .dieStatus src
  | _, _ => failure

/-- One bit's source (09 R277), in 8 bytes: the bit, the kind in the order of R277, the lane, the forwarded bit, and the
link's sender and LINK_ID. -/
def rdBitSource : Rd (Nat × BitSource) := do
  let bit ← rdU 1
  let kind ← rdU 1
  let n ← rdU 1
  let k ← rdU 1
  let berth ← rdU 2
  let link ← rdU 2
  match kind with
  | 0 => return (bit, .zero)
  | 1 => return (bit, .laneTripped n)
  | 2 => return (bit, .laneLatched n)
  | 3 => return (bit, .moduleLatch)
  | 4 => return (bit, .estop)
  | 5 => return (bit, .fire)
  | 6 => return (bit, .precursor n)
  | 7 => return (bit, .bareRock)
  | 8 => return (bit, .received berth link k)
  | _ => failure
/-- One bit's action (09 R277), in 4 bytes: the bit, the kind in the order of R277, the lane mask and the output mask. -/
def rdBitAction : Rd (Nat × BitAction) := do
  let bit ← rdU 1
  let kind ← rdU 1
  let lanes ← rdU 1
  let mask ← rdU 1
  match kind with
  | 0 => return (bit, .none_)
  | 1 => return (bit, .alarm)
  | 2 => return (bit, .trip lanes)
  | 3 => return (bit, .outputs mask)
  | 4 => return (bit, .tripOutputs lanes mask)
  | _ => failure
/-- The fields of SAFETY.LINK_SET: WATCHDOG in ms, SKEW and MAX_AGE in µs, each left out for its default. -/
def rdLinkSet : Rd LinkSet := do
  let recv ← rdEnum [false, true]
  let linkId ← rdU 2
  let (a, who) ← rdAlt 2 8
  let which ← rdEnum [0, 1]
  if recv then
    if a ≠ 0 || which ≠ 1 then failure
    let acts ← rdList (do rdAlign 4; rdBitAction)
    return { send := false, linkId := linkId, berth := who, dest := 0, sources := [], actions := acts
             watchdog := (← rdOpt (rdU 1)).map (· * 1000000), skew := (← rdOpt (rdU 2)).map (· * 1000)
             maxAge := (← rdOpt (rdU 2)).map (· * 1000) }
  else
    if a ≠ 1 || which ≠ 0 then failure
    let srcs ← rdList (do rdAlign 8; rdBitSource)
    return { send := true, linkId := linkId, berth := 0, dest := who, sources := srcs, actions := [], watchdog := none
             skew := none, maxAge := none }
/-- SAFETY (09 R287). -/
def rdSafety (src : Source) : Nat → Nat → Rd Instr
  | 0x13, 1 => return .safetyStatus src
  | 0x13, 2 => return .safetyLimitsSet src (← rdU 1) (← rdU 2) (← rdU 2) (← rdU 2)
  | 0x13, 3 => return .safetyOcSet src (← rdU 1) (← rdU 4) (← rdU 4) (← rdU 1)
  | 0x13, 4 => return .safetyIoSet src (← rdU 2) (← rdFlag) (← rdTimes (rdU 4) 4)
  | 0x13, 5 => return .safetyChannelSet src ((← rdU 2) * 1000)
  | 0x13, 6 => return .safetyLinkSet src (← rdLinkSet)
  | 0x13, 7 => return .safetyLinkStatus src (← rdU 2) (← rdU 2)
  | 0x13, 8 => return .safetyWindowSet src (← rdU 1) (← rdU 1) ((← rdU 4) * 1000000)
  | 0x13, 9 => return .safetyBareRock src
  | 0x13, 10 => return .safetyCountersRead src (← rdFlag)
  | _, _ => failure

/-! ## Areas 0x14 to 0x1B -/

/-- An LLDP identity (10 R291): two TLVs, each its subtype and its value as a list of bytes. -/
def rdLldpId : Rd LldpId := do
  let ct ← rdU 1
  let c ← rdList (rdU 1)
  let pt ← rdU 1
  let p ← rdList (rdU 1)
  return { chassisType := ct, chassis := c.map (BitVec.ofNat 8), portType := pt, port := p.map (BitVec.ofNat 8) }
/-- NET, BERTH, ESTATE and ROLE (10 R318). -/
def rdNet (src : Source) : Nat → Nat → Rd Instr
  | 0x14, 1 => return .netStatus src
  | 0x14, 2 => return .netCountersRead src (← rdFlag)
  | 0x15, 1 => return .berthStatus src
  | 0x16, 1 => return .estateMapLoad src (← rdList (do return { berth := ← rdU 2, idA := ← rdLldpId, idB := ← rdLldpId }))
  | 0x16, 2 => do
    return .estateChangePropose src
      { id := ← rdU 4, kind := ← rdU 1, policy := ← rdU 1, conservative := ← rdU 1, n := ← rdU 8, old := ← rdU 4
        new_ := ← rdU 4, members := ← rdList (rdU 2) }
  | 0x16, 3 => return .estateChangeStatus src (← rdU 4)
  | 0x16, 4 => return .estateChangeAbandon src (← rdU 4)
  | 0x17, 1 => return .roleTableRead src (← rdU 2) (← rdU 1)
  | 0x17, 2 => return .roleResolve src (← rdU 4)
  | _, _ => failure
/-- TENANT, GRAPH and SIGNAL (11 R346). -/
def rdTenant (src : Source) : Nat → Nat → Rd Instr
  | 0x18, 1 => return .tenantLoad src (← rdU 1) (← rdU 4) (← rdU 4) (← rdPart 1) (← rdFlag)
  | 0x18, 2 => return .tenantUnload src (← rdU 1)
  | 0x18, 3 => return .tenantStop src (← rdU 1)
  | 0x18, 4 => return .tenantStart src (← rdU 1)
  | 0x18, 5 => return .tenantStatus src (← rdU 1)
  | 0x18, 6 => return .tenantCountersRead src (← rdU 1) (← rdFlag)
  | 0x19, 1 => return .graphActivate src (← rdU 1) (← rdU 8)
  | 0x19, 2 => return .graphDiscard src (← rdU 1)
  | 0x19, 3 => return .graphVarRead src (← rdU 1) (← rdU 2) (← rdU 1)
  | 0x19, 4 => return .graphGroupSet src (← rdU 1) (← rdU 2)
  | 0x19, 5 => return .graphEnginesRead src
  | 0x1A, 1 => return .signalRead src (← rdEnum [false, true]) (← rdList (rdU 4))
  | 0x1A, 2 => return .signalConfig src (← rdU 1) (← rdU 2)
  | _, _ => failure
/-- PAIR (12 R374); "lane or slot" names the alternative that the role's kind calls for. -/
def rdPair (src : Source) : Nat → Nat → Rd Instr
  | 0x1B, 1 => do
    let role ← rdU 4
    let (a, n) ← rdAlt 2 1
    if (roleKind role = 2 && a ≠ 0) || (roleKind role = 3 && a ≠ 1) then failure
    return .pairRoleSet src
      { role := role, local_ := n, kind := ← rdEnum [.twin, .estate, .none_], partner := ← rdU 2, preferred := ← rdFlag }
  | 0x1B, 2 => return .pairStatus src (← rdU 4)
  | 0x1B, 3 => return .pairSwapHelm src (← rdU 4)
  | 0x1B, 4 => return .pairCompareSet src (← rdU 2) (← rdU 2) (← rdU 2)
  | 0x1B, 5 => return .pairCountersRead src (← rdU 4) (← rdFlag)
  | _, _ => failure

/-! ## Areas 0x1C to 0x24 -/

/-- QUEUE and DMA (13 R396). -/
def rdFabric (src : Source) : Nat → Nat → Rd Instr
  | 0x1C, 1 => return .queueCreate src (← rdU 2) (← rdU 1) (← rdU 1) (← rdU 1) (← rdU 4)
  | 0x1C, 2 => return .queueDestroy src (← rdU 2)
  | 0x1C, 3 => return .queueThresholdSet src (← rdU 2) (← rdU 4)
  | 0x1C, 4 => return .queueStatus src (← rdU 2)
  | 0x1D, 1 => do
    let ch ← rdU 1
    let (a, n) ← rdAlt 3 1
    return .dmaChannelSet src ch (if a = 0 then .system else if a = 1 then .tenant n else .pcie) (← rdU 1) (← rdOrNone 8)
  | 0x1D, 2 => return .dmaStart src (← rdU 1) (← rdU 8)
  | 0x1D, 3 => return .dmaDoorbell src (← rdU 1)
  | 0x1D, 4 => return .dmaAbort src (← rdU 1)
  | 0x1D, 5 => return .dmaStatus src (← rdU 1)
  | 0x1D, 6 => return .dmaCountersRead src (← rdU 1) (← rdFlag)
  | _, _ => failure
/-- The fields of CAN.CONFIG (15 R427, R440). -/
def rdCanConfig : Rd CanConfig := do
  let mode ← rdEnum [.disabled, .normal, .listenOnly]
  let fd ← rdFlag
  let nominal : BitTiming := { brp := ← rdU 1, tseg1 := ← rdU 2, tseg2 := ← rdU 1, sjw := ← rdU 1 }
  let data : BitTiming := { brp := ← rdU 1, tseg1 := ← rdU 1, tseg2 := ← rdU 1, sjw := ← rdU 1 }
  let tdc ← rdFlag
  let off ← rdU 1
  let txTimeout ← rdU 2
  let bufs ← rdTimes (do return (← rdBufOwner, ← rdU 1)) 32
  return { mode := mode, fd := fd, nominal := nominal, data := data, tdc := tdc, tdcOffset := off, txTimeout := txTimeout
           owners := bufs.map (·.1), retries := bufs.map (·.2), fifo0 := ← rdCanTarget, fifo1 := ← rdCanTarget
           hp := ← rdCanTarget, txEvent := ← rdCanTarget, noMatchFifo1 := ← rdEnum [false, true] }
/-- CAN (15 R440); an abort leaves the frame's fields out. -/
def rdCan (src : Source) : Nat → Nat → Rd Instr
  | 0x1E, 1 => return .canConfig src (← rdU 1) (← rdCanConfig)
  | 0x1E, 2 => do
    return .canFilterSet src (← rdU 1) (← rdU 1)
      { ide := ← rdEnum [false, true], id := ← rdU 4, mask := ← rdU 4, formats := ← rdU 1
        target := ← rdEnum [.discard, .fifo0, .fifo1, .hp] }
  | 0x1E, 3 => do
    let ctl ← rdU 1
    let buf ← rdU 1
    if ← rdFlag then return .canSend src ctl buf true {}
    else
      let id ← rdU 4
      let ide ← rdFlag
      let fdf ← rdFlag
      let brs ← rdFlag
      let rtr ← rdFlag
      let data ← rdRest 0
      return .canSend src ctl buf false
        { id := id, ide := ide, fdf := fdf, brs := brs, rtr := rtr, dlc := (dlcOf data.length).getD 0, data := data }
  | 0x1E, 4 => return .canReceive src (← rdU 1) (← rdEnum [0, 1, 2, 3]) (← rdU 1)
  | 0x1E, 5 => return .canRecover src (← rdU 1)
  | 0x1E, 6 => return .canStatus src (← rdU 1)
  | 0x1E, 7 => do
    let ctl ← rdU 1
    let on ← rdFlag
    if ← rdAtEnd then
      if on then failure
      else return .canTimeMasterSet src ctl false { container := 0, identifier := 0, ide := false, periodMs := 100 }
    else
      let c ← rdU 2
      let id ← rdU 4
      return .canTimeMasterSet src ctl on
        { container := c, identifier := id, ide := decide (2048 ≤ id), periodMs := (← rdOpt (rdU 2)).getD 100 }
  | 0x1E, 8 => return .canCountersRead src (← rdU 1) (← rdFlag)
  | _, _ => failure
/-- STORE, EVENT, LIFECYCLE, DEBUG, UPDATE and POWER (16 R459; 17 R478; 18 R495). -/
def rdStore (src : Source) : Nat → Nat → Rd Instr
  | 0x1F, 1 => return .storeStatus src
  | 0x1F, 2 => return .storeScrub src
  | 0x1F, 3 => return .storeHoldupMeasure src
  | 0x1F, 4 => return .storeWearRead src (← rdU 1)
  | 0x20, 1 => return .eventStatus src
  | 0x20, 2 => return .eventRead src (← rdU 8) (← rdU 1)
  | 0x21, 1 => return .lifecycleStatus src
  | 0x21, 2 => do
    let cert ← rdRaw (← rdU 2)
    let key ← rdRaw 32
    let revoked ← rdList (rdRaw 20)
    let ip ← rdU 4
    let len ← rdU 1
    return .lifecycleTurn src
      { root := ofLe cert, rootIsCa := decide (cert.length ≤ 2048) && Config.isP384Ca cert, delivery := ofLe key
        revoked := revoked.map ofLe, ipv4 := ip, prefixLen := len }
  | 0x21, 3 => return .lifecycleSeal src
  | 0x21, 4 => return .lifecycleDecommission src (← rdU 8)
  | 0x22, 1 => return .debugStatus src
  | 0x22, 2 => return .debugLevelSet src (← rdEnum [0, 1, 2])
  | 0x23, 1 => return .updateStatus src
  | 0x23, 2 => return .updateImageWrite src (← rdU 4) (← rdPart 2) (← rdFlag) (← rdFlag)
  | 0x23, 3 => return .updateReboot src (← rdEnum [true, false])
  | 0x24, 1 => return .powerStatus src
  | _, _ => failure

/-- The reader of a command's operands, by its area (14 R424). -/
def rdCommand (src : Source) (code : Nat) : Rd Instr :=
  match code / 256 with
  | 0x01 | 0x02 => rdModule src (code / 256) (code % 256)
  | 0x03 | 0x04 | 0x05 => rdTime src (code / 256) (code % 256)
  | 0x06 => rdTap src (code / 256) (code % 256)
  | 0x07 | 0x08 | 0x09 | 0x0A => rdAnalog src (code / 256) (code % 256)
  | 0x0B => rdLane src (code / 256) (code % 256)
  | 0x0C => rdModel src (code / 256) (code % 256)
  | 0x0D | 0x0E => rdSound src (code / 256) (code % 256)
  | 0x0F | 0x10 | 0x11 | 0x12 => rdThermal src (code / 256) (code % 256)
  | 0x13 => rdSafety src (code / 256) (code % 256)
  | 0x14 | 0x15 | 0x16 | 0x17 => rdNet src (code / 256) (code % 256)
  | 0x18 | 0x19 | 0x1A => rdTenant src (code / 256) (code % 256)
  | 0x1B => rdPair src (code / 256) (code % 256)
  | 0x1C | 0x1D => rdFabric src (code / 256) (code % 256)
  | 0x1E => rdCan src (code / 256) (code % 256)
  | _ => rdStore src (code / 256) (code % 256)
/-- The command that a code and its payload spell, none where the payload breaks the layout (14 R399.5). -/
def commandOf (src : Source) (code : Nat) (payload : List Byte) : Option Instr := readAll (rdCommand src code) payload

end Sys2Proof.Machine
end

