-- ==== Sys2Proof/Machine/Thermal.lean ====
section
/-! DEFINITION. Balancing, its switch tests, cell temperatures, cooling and the die sensor (08). -/

namespace Sys2Proof.Machine

open Sys2Proof

/-! ## Commands of balancing (R236, R255) -/

/-- The ranges of R236. -/
def balOk (r : BalRequest) : Bool :=
  decide (r.deadband ≤ 10 ^ 12) && within 1 18 r.maxPerPort && decide (r.vMin ≤ 65534) && withinI (-4000) 10000 r.tMax
  && within 1 10000 r.dropMin && within 1 10000 r.dropMax && decide (r.dropMin < r.dropMax) && within 1 1000 r.leak
/-- BALANCE.CONFIG (R236): in force from the next plan. -/
def execBalanceConfig (src : Source) (lane : Nat) (r : BalRequest) (s : State) : Host.Outcome State Fault Refusal :=
  runCommand src 0x0F01 (fun z => checked z [(decide (lane < 8) && balOk r, stInvalidArg)]
    (ok (z.updLaneTherm lane fun h => { h with
      pendingBal := some { enable := r.enable, deadband := r.deadband, maxPerPort := r.maxPerPort, vMin := r.vMin
                           tMax := r.tMax, dropMin := r.dropMin, dropMax := r.dropMax, leak := r.leak } }))) s
/-- The cells of a port that have a property, as a mask. -/
def State.cellMask (s : State) (p : Nat) (f : Cell → Bool) : Nat :=
  maskOf ((List.range 18).filter fun c => f (s.cell (cellIx p c)))
/-- The BALANCE field of the latest accepted frame. -/
def Port.balanceField (x : Port) : Nat := match x.ring with | [] => 0 | f :: _ => f.balance
/-- BALANCE.STATUS (R255). -/
def execBalanceStatus (src : Source) (lane : Nat) (s : State) : Host.Outcome State Fault Refusal :=
  runCommand src 0x0F02 (fun z => checked z [(decide (lane < 8), stInvalidArg)]
    (okWith z (fi8 (z.laneTherm lane).qRef :: (z.portsOf lane).flatMap fun p =>
      [f4 (z.balPort p).sent, f4 (z.port p).balanceField, f4 (z.cellMask p (·.overdue)), f4 (z.cellMask p (·.balSwitchFault))]))) s
/-- BALANCE.TEST (R238, R255): the test is queued. -/
def execBalanceTest (src : Source) (cell : CellId) (s : State) : Host.Outcome State Fault Refusal :=
  runCommand src 0x0F03 (fun z =>
    let ix := cellIx cell.port cell.cell
    checked z
      [ (decide (cell.lane < 8) && decide (cell.port < 128) && decide (cell.cell < 18)
          && z.laneOfPort cell.port == some cell.lane, stInvalidArg)
      , ((z.modelled cell.port).contains cell.cell, stNotPresent)
      , (z.holdsHelm cell.lane, stNotHelm)
      , ((z.port cell.port).state == .run, stPortsNotReady) ]
      (ok (z.updCell ix fun c => { c with testQueued := true }))) s
/-- BALANCE.TEST_READ (R255); a cell without a verdict shows 0xFF. -/
def execBalanceTestRead (src : Source) (port : Nat) (s : State) : Host.Outcome State Fault Refusal :=
  runCommand src 0x0F04 (fun z => checked z [(decide (port < 128), stInvalidArg)]
    (okWith z ((List.range 18).flatMap fun c =>
      let k := z.cell (cellIx port c)
      [f1 (k.lastVerdict.getD 0xFF), f8 k.lastVerdictAt, .s 2 k.lastD, .s 2 k.lastLeak]))) s

/-! ## The plan (R233, R234) -/

/-- A cell of the plan: its port, its number, Q_need and σ in mC. -/
structure BalCell where
  port : Nat
  cell : Nat
  need : Rat
  sigma : Rat
/-- Q_need and σ of an eligible cell (R233). -/
def State.balCell (s : State) (p c : Nat) : Option BalCell :=
  let k := s.cell (cellIx p c)
  let o := k.outRec
  if o.valid && !o.rough && !o.coast && !o.diverged && !k.balSwitchFault && (s.modelled p).contains c then
    match o.soc, o.socSd, o.capacity with
    | some soc, some sd, some cap =>
      some { port := p, cell := c, need := (1 - (soc : Rat) / 32768) * cap, sigma := (sd : Rat) / 32768 * cap }
    | _, _, _ => none
  else none
/-- The cells of a port that are to bleed: at most MAX_PER_PORT, the largest excess first, ties to the lower number. -/
def State.portPlan (s : State) (n p : Nat) (qRef : Rat) (l : List BalCell) : Nat :=
  let g := (s.laneTherm n).bal
  let x := s.port p
  let excess (b : BalCell) : Rat := qRef - b.need - 2 * b.sigma
  let hot := match x.hottest with | none => false | some t => decide (g.tMax ≤ t)
  let want := l.filter fun b => b.port == p && decide ((g.deadband : Rat) < excess b) && x.volt b.cell != 65535
    && decide (g.vMin ≤ x.volt b.cell)
  if !g.enable || hot || x.state != .run then 0
  else maskOf (((want.mergeSort fun a b => decide (excess b ≤ excess a)).take g.maxPerPort).map (·.cell))
/-- Recompute a lane's plan. -/
def State.balancePlan (s : State) (n : Nat) : State :=
  let s1 := s.updLaneTherm n fun h => { h with bal := h.pendingBal.getD h.bal, pendingBal := none }
  let cells := (s1.portsOf n).flatMap fun p => (List.range 18).filterMap (s1.balCell p)
  let qRef := (cells.map (·.need)).max?
  let s2 := s1.updLaneTherm n fun h => { h with qRef := qRef.map roundA }
  (s2.portsOf n).foldl (fun z p =>
    (z.updBalPort p fun b => { b with plan := z.portPlan n p (qRef.getD 0) cells }).sendBalance p) s2
/-- The module computes the lane's plan: it holds the LANE role ACTIVE, or is the lane's twin partner (R232). -/
def State.plans (s : State) (n : Nat) : Bool :=
  (s.power.state == .full || s.power.state == .slack)
  && (match s.laneRole n with
      | none => false
      | some o => o.state == .active || (o.state == .standby && o.kind == .twin))
/-- BALANCE_PLAN (R233): at base instants with n mod 10,000 = 0. -/
def execBalancePlan (t lane : Nat) (s : State) : Host.Outcome State Fault Refusal :=
  wheneverOn (decide (lane < 8)) s t (fun z => z.plans lane && z.model.lastBase % 10000 == 0) (fun z => z.balancePlan lane)
/-- BALANCE_REPEAT (R234). -/
def execBalanceRepeat (t port : Nat) (s : State) : Host.Outcome State Fault Refusal :=
  wheneverOn (decide (port < 128)) s t (fun z => elapsed (z.balPort port).sentAt 500000000 z.now)
    (fun z => z.sendBalance port true)

/-! ## Switch tests (R237 to R240) -/

/-- 20 h and 24 h of FULL or SLACK time. -/
abbrev testPeriod : Nat := 72000 * 10 ^ 9
abbrev testLimit : Nat := 86400 * 10 ^ 9
/-- OBJECT of a cell (16 R455). -/
def State.cellObject (s : State) (p c : Nat) : Nat := ((s.laneOfPort p).getD 0) * 2 ^ 24 + p * 2 ^ 16 + c
/-- The offset of a cell's scheduled test in the period: the tests of a port are spread evenly. -/
def State.testOffset (s : State) (p c : Nat) : Nat :=
  let l := s.modelled p
  testPeriod * (l.filter (· < c)).length / max 1 l.length
/-- A test of the cell is due: queued, at its retry, or at its place in the period since the last one. -/
def State.testDue (s : State) (p c : Nat) : Bool :=
  let k := s.cell (cellIx p c)
  let o := s.testOffset p c
  let slot (x : Nat) : Nat := (x + testPeriod - o) / testPeriod
  match k.retryAt with
  | some r => decide (r ≤ s.now)
  | none => k.testQueued || decide (slot k.testedAt < slot s.fullNow)
/-- The string current has stayed within 0.5 % of RATED_CURRENT over the last 100 ms. -/
def Lane.steady100 (l : Lane) : Bool :=
  match (l.currentAt100.map (·.2)).max?, (l.currentAt100.map (·.2)).min? with
  | some a, some b => decide ((a - b) * 200 ≤ (l.rated : Int))
  | _, _ => true
/-- A test can start on the port (R235, R237). -/
def State.testCanStart (s : State) (n p : Nat) : Bool :=
  s.balances n && (s.port p).state == .run && !s.capturePrepared n && (s.balPort p).test.isNone && (s.lane n).steady100
/-- The string current of a lane as a test sees it; none before its first valid sample. -/
def State.testCurrent (s : State) (n : Nat) : Option Int := s.sample (12 * n + 6)
/-- The string current has left ±0.5 % of RATED_CURRENT of its value at step 1, or is not known (R238). -/
def State.testDisturbed (s : State) (n : Nat) (q : SwitchTest) : Bool :=
  match s.testCurrent n with
  | none => true
  | some i => decide ((s.lane n).rated < (i - q.current0).natAbs * 200)
/-- The bound on a test: 60 ms, or 6 s in SLACK (R238). -/
def State.testBound (s : State) : Nat := if s.power.state == .slack then 6000000000 else 60000000
/-- Start a test, or put it off by 10 min. -/
def State.startTest (s : State) (p c : Nat) : State :=
  match s.laneOfPort p with
  | none => s
  | some n =>
    match s.testCurrent n, s.testCanStart n p with
    | some i, true =>
      let s1 := s.updBalPort p fun b => { b with
        test := some { cell := c, step := 1, current0 := i, startedAt := s.now } }
      (s1.updCell (cellIx p c) fun k => { k with testQueued := false, retryAt := none }).sendBalance p true
    | _, _ => s.updCell (cellIx p c) fun k => { k with retryAt := some (s.now + 600 * 10 ^ 9) }
/-- SWITCH_TEST_START (R237). -/
def execSwitchTestStart (t port cell : Nat) (s : State) : Host.Outcome State Fault Refusal :=
  wheneverOn (decide (port < 128) && decide (cell < 18)) s t
    (fun z => (z.modelled port).contains cell && z.testDue port cell) (fun z => z.startTest port cell)
/-- The verdict of a test that ran through (R239). -/
def verdictOf (g : BalConfig) (q : SwitchTest) : Nat :=
  let d : Int := (q.sumOpen : Int) - q.sumClosed
  let k : Int := (q.sumAfter : Int) - q.sumOpen
  if d < 8 * (g.dropMin : Int) then 3 else if 8 * (g.dropMax : Int) < d then 4
  else if 8 * (g.leak : Int) < |k| then 5 else 0
/-- A test has its verdict (R239, R240): the plan's mask is restored. -/
def State.testVerdict (s : State) (p : Nat) (q : SwitchTest) (v : Nat) : State :=
  let ix := cellIx p q.cell
  let o := s.cellObject p q.cell
  let run := if v = 0 then 0 else (s.cell ix).balFaultRun + 1
  let done_ := decide (v ≠ 1 ∧ v ≠ 2)
  let s1 := (s.updBalPort p fun b => { b with test := none }).updCell ix fun k => { k with
    balFaultRun := run, balSwitchFault := if v = 0 then false else k.balSwitchFault || decide (2 ≤ run)
    holdB := if v = 0 then false else k.holdB || v == 2 || v == 5
    lastVerdict := some v, lastVerdictAt := s.now
    lastD := if done_ then roundA (((q.sumOpen : Int) - q.sumClosed : Int) / (8 : Rat)) else k.lastD
    lastLeak := if done_ then roundA (((q.sumAfter : Int) - q.sumOpen : Int) / (8 : Rat)) else k.lastLeak
    testedAt := s.fullNow, retryAt := if run = 1 then some (s.now + 600 * 10 ^ 9) else none, overdue := false }
  let s2 := s1.clearAlarm evBalTestOverdue 3 o
  let s3 := if v = 0 then s2.clearAlarm evBalSwitchFault 3 o
    else if run = 1 then s2.event evBalTestFail 3 o (cause := v)
    else s2.raise evBalSwitchFault 3 o (cause := v)
  s3.sendBalance p true
/-- One step of a test, on what the latest frame shows (R238). One that has not ended within its bound is abandoned like an
interrupted one (DESIGN CHOICE, log entry 153: the rule gives the bound and no result). -/
def State.testStep (s : State) (n p : Nat) (q : SwitchTest) : State :=
  let field := (s.port p).balanceField
  let next (st : Nat) (z : State) : State := z.updBalPort p fun b => { b with test := some { q with step := st, frames := 0 } }
  if s.testDisturbed n q || s.capturePrepared n || elapsed q.startedAt (s.testBound + 1) s.now then
    -- INTERRUPTED
    (s.dropTest p).updPort p (fun x => x.request .balance 0) |>.updBalPort p fun b => { b with sent := 0, sentAt := s.now }
  else match q.step with
  | 1 => if field = 0 && decide (0 < q.frames) then next 2 s else s
  | 2 => if 8 ≤ q.frames then (next 3 s).sendBalance p true else s
  | 3 => if field = 2 ^ q.cell then next 4 s
    else if 10 ≤ q.frames && !field.testBit q.cell then s.testVerdict p q 1 else s
  | 4 => if 10 ≤ q.frames then (next 5 s).sendBalance p true else s
  | 5 => if field = 0 then next 6 s
    else if 10 ≤ q.frames && field.testBit q.cell then s.testVerdict p q 2 else s
  | _ => if 10 ≤ q.frames then s.testVerdict p q (verdictOf (s.laneTherm n).bal q) else s
/-- SWITCH_TEST_STEP (R238). -/
def execSwitchTestStep (t port : Nat) (s : State) : Host.Outcome State Fault Refusal :=
  wheneverOn (decide (port < 128)) s t (fun z => (z.balPort port).test.isSome) (fun z =>
    match (z.balPort port).test, z.laneOfPort port with
    | some q, some n => z.testStep n port q
    | _, _ => z)
/-- BAL_TEST_OVERDUE (R237). -/
def execBalTestOverdue (t port cell : Nat) (s : State) : Host.Outcome State Fault Refusal :=
  wheneverOn (decide (port < 128) && decide (cell < 18)) s t
    (fun z =>
      let k := z.cell (cellIx port cell)
      (z.modelled port).contains cell && !k.overdue && decide (k.testedAt + testLimit ≤ z.fullNow))
    (fun z => (z.updCell (cellIx port cell) fun k => { k with overdue := true }).raise evBalTestOverdue 3
      (z.cellObject port cell))

/-! ## Cell temperatures (R241 to R246) -/

/-- The ranges of R242. -/
def thermOk (r : ThermRequest) : Bool :=
  [r.tripHigh, r.warnHigh, r.shedStart, r.warnLow, r.chgInhibit, r.tripLow].all (withinI (-4000) 10000)
  && [r.hsShedStart, r.hsTrip].all (withinI (-4000) 15000) && within 50 500 r.rateLimit && decide (r.shedFloor < 65536)
  && decide (r.coolLossShare < 65536)
  && decide (r.tripLow < r.chgInhibit ∧ r.chgInhibit ≤ r.warnLow ∧ r.warnLow < r.shedStart ∧ r.shedStart < r.warnHigh
      ∧ r.warnHigh < r.tripHigh ∧ r.hsShedStart < r.hsTrip)
/-- THERMAL.LIMITS_SET (R242): in force from the next temperature sample. -/
def execThermalLimitsSet (src : Source) (lane : Nat) (r : ThermRequest) (s : State) : Host.Outcome State Fault Refusal :=
  runCommand src 0x1001 (fun z => checked z [(decide (lane < 8) && thermOk r, stInvalidArg)]
    (ok (z.updLaneTherm lane fun h => { h with
      pendingCfg := some { tripHigh := r.tripHigh, warnHigh := r.warnHigh, shedStart := r.shedStart, warnLow := r.warnLow
                           chgInhibit := r.chgInhibit, tripLow := r.tripLow, rateLimit := r.rateLimit
                           shedFloor := r.shedFloor, hsShedStart := r.hsShedStart, hsTrip := r.hsTrip
                           coolLossShare := r.coolLossShare } }))) s
/-- The present sensors of a lane: port and index. -/
def State.sensorsOf (s : State) (n : Nat) : List (Nat × Nat) :=
  (s.portsOf n).flatMap fun p => ((List.range 6).filter fun i => (s.port p).limits.temps.testBit i).map fun i => (p, i)
/-- A sensor of the lane has a property. -/
def State.anySensor (s : State) (n : Nat) (f : SensorState → Bool) : Bool :=
  (s.sensorsOf n).any fun k => f (s.sensor (6 * k.1 + k.2))
/-- THERMAL.STATUS (R255). -/
def execThermalStatus (src : Source) (lane : Nat) (s : State) : Host.Outcome State Fault Refusal :=
  runCommand src 0x1002 (fun z =>
    let h := z.laneTherm lane
    checked z [(decide (lane < 8), stInvalidArg)]
      (okWith z [fi2 h.hottest, fi2 h.coldest, f4 (z.shedNow lane), f1 h.shedCause, fb (z.anySensor lane (·.warnHigh))
        , fb (z.anySensor lane (·.warnLow)), fb h.precursor, fb (z.anySensor lane (·.lost))])) s

/-- A sensor's reading in a frame. -/
def PortSample.temp (f : PortSample) (i : Nat) : Option Int :=
  let t := f.temps.getD i (-32768)
  if t = -32768 then none else some t
/-- What SFA's copy of a port's frame of an instant holds for a sensor: none where the frame was missed, else the reading or
the marker. -/
def Port.reading (x : Port) (tag i : Nat) : Option (Option Int) :=
  match x.safety with
  | none => none
  | some f => if f.tag ≠ tag then none else some (f.temp i)
/-- The valid reading of a sensor in the sample store's frame of an instant (R241, R246). -/
def Port.stored (x : Port) (tag i : Nat) : Option Int := (x.ring.find? fun f => f.tag == tag).bind fun f => f.temp i
/-- The rules of one sensor at a sample (R243 to R245). -/
def SensorState.sample (k : SensorState) (g : ThermConfig) (run : Bool) (at_ : Nat) (r : Option (Option Int)) : SensorState :=
  if !run then { k with lostRun := 0 }
  else match r with
  | none => k
  | some none => { k with lostRun := k.lostRun + 1 }
  | some (some t) =>
    let fast := match k.last with
      | none => false
      | some (u, at0) => decide ((g.rateLimit : Rat) < ((t - u : Int) : Rat) * 1000000000 / (at_ - at0 : Nat)) && decide (at0 < at_)
    { k with
      last := some (t, at_), lostRun := 0, lost := false, fastRun := if fast then k.fastRun + 1 else 0
      warnHigh := decide (g.warnHigh ≤ t) || (k.warnHigh && decide (g.warnHigh - 200 < t))
      warnLow := decide (t ≤ g.warnLow) || (k.warnLow && decide (t < g.warnLow + 200)) }
/-- One sensor at a sample, its warnings and its regained reading recorded. -/
def State.sampleSensor (s : State) (g : ThermConfig) (tag : Nat) (k : Nat × Nat) : State :=
  let x := s.port k.1
  let ix := 6 * k.1 + k.2
  let a := s.sensor ix
  let b := a.sample g (x.state == .run) ((x.sync.map (·.t0)).getD s.now) (x.reading tag k.2)
  let s1 := s.setSensor ix b
  let s2 := if (b.warnHigh && !a.warnHigh) || (b.warnLow && !a.warnLow) then
      s1.event evThermalWarn 2 k.1 (v0 := some k.2) (v1 := b.last.map (·.1)) else s1
  if a.lost && !b.lost && !((List.range 6).any fun i => (s2.sensor (6 * k.1 + i)).lost) then
    s2.clearAlarm evTempSensorLost 2 k.1 else s2
/-- A falling line from 1 at `a` to `lo` at `b`, held outside. -/
def fallLine (a b : Int) (lo : Rat) (t : Int) : Rat :=
  if t < a then 1 else if b ≤ t then lo else 1 - (1 - lo) * ((t - a : Int) : Rat) / ((b - a : Int) : Rat)
/-- The terms of the thermal shed limit, each with its number in the list of R246 (log entry 36). -/
def State.shedTerms (s : State) (n : Nat) (hot : Option Int) : List (Int × Nat) :=
  let h := s.laneTherm n
  let g := h.cfg
  let rated : Rat := (s.lane n).rated
  let floor_ : Rat := (g.shedFloor : Rat) / 65536
  [ ((rated * (match hot with | none => floor_ | some t => fallLine g.shedStart g.warnHigh floor_ t)).floor, 1)
  , ((rated * (match h.hsValue with | none => floor_ | some t => fallLine g.hsShedStart g.hsTrip 0 t)).floor, 2) ]
  ++ (if (List.range 8).any fun k => (s.coolLoop k).lost &&
        (match (s.coolLoop k).cfg with | none => false | some c => c.lanes.testBit n) then
      [((rated * g.coolLossShare / 65536).floor, 3)] else [])
  ++ (if s.therm.die.state == .enforce then [((rated * floor_).floor, 4)] else [])
/-- The smallest of a list of terms; the first of equals. -/
def leastTerm : List (Int × Nat) → Int × Nat
  | [] => (0, 0)
  | [a] => a
  | a :: r => let b := leastTerm r; if b.1 < a.1 then b else a
/-- A temperature sample of a lane (R243, R245, R246): SFA's rules on its own copy of the frames, the shed limit on the
sample store (R241). -/
def State.temperatureSample (s : State) (n tag : Nat) : State :=
  let s1 := s.updLaneTherm n fun h => { h with cfg := h.pendingCfg.getD h.cfg, pendingCfg := none, sampleTag := some tag }
  let g := (s1.laneTherm n).cfg
  let ks := s1.sensorsOf n
  let s2 := ks.foldl (fun z k => z.sampleSensor g tag k) s1
  let temps := ks.filterMap fun k =>
    if (s2.port k.1).state == .run then ((s2.port k.1).reading tag k.2).getD none else none
  let shown := ks.filterMap fun k => (s2.port k.1).stored tag k.2
  let all := s2.laneTemps n
  let h := s2.laneTherm n
  let inhibited := if all.any (· < g.chgInhibit) then true else h.chgInhibited && !all.all (g.chgInhibit + 100 ≤ ·)
  let t := leastTerm (s2.shedTerms n shown.max?)
  let s3 := s2.updLaneTherm n fun y => { y with
    hottest := shown.max?, coldest := shown.min?, chgInhibited := inhibited, shedLimit := some t.1, shedCause := t.2
    hsValue := none, derateLost := ks.any fun k => (s2.sensor (6 * k.1 + k.2)).lost
    precursor := y.precursor && s2.anySensor n fun k => decide (3 ≤ k.fastRun) }
  let hsHot := match h.hsValue with | none => false | some v => decide (g.hsTrip ≤ v)
  let cs := (if temps.any fun t => decide (g.tripHigh ≤ t ∨ t ≤ g.tripLow) then [trCellTemp] else [])
    ++ (if hsHot then [trHeatsink] else [])
  (s3.tripCauses n (cs.filter fun c => s.arrives n c)).recheckArming
/-- The instant of a temperature sample is here (R241). -/
def State.sampleDue (s : State) (n : Nat) : Bool :=
  (s.lane n).cfg.isSome && s.model.syncTag.isSome && s.model.syncTag != (s.laneTherm n).sampleTag
  && (match s.power.state with
      | .full => s.model.lastBase % 100 == 0 && s.model.syncTag == some s.model.lastTag
      | .slack => true
      | .bareRock => s.safety.rockStrobes % 10 == 0
      | .beached => false)
/-- TEMPERATURE_SAMPLE (R241, R243, R246). -/
def execTemperatureSample (t lane : Nat) (s : State) : Host.Outcome State Fault Refusal :=
  wheneverOn (decide (lane < 8)) s t (fun z => z.sampleDue lane)
    (fun z => z.temperatureSample lane (z.model.syncTag.getD 0))
/-- THERMAL_PRECURSOR (R244, 09 R259). -/
def execThermalPrecursor (t port sensor : Nat) (s : State) : Host.Outcome State Fault Refusal :=
  wheneverOn (decide (port < 128) && decide (sensor < 6)) s t
    (fun z => decide (3 ≤ (z.sensor (6 * port + sensor)).fastRun) && (z.port port).limits.temps.testBit sensor)
    (fun z => match z.laneOfPort port with
      | none => z
      | some n =>
        if (z.laneTherm n).precursor then z
        else
          let z1 := (z.updLaneTherm n fun h => { h with precursor := true }).event evThermalPrecursor 2 port
            (v0 := some sensor)
          ((z1.tripLane n trPrecursor)).recheckArming)
/-- TEMP_SENSOR_LOST (R245). -/
def execTempSensorLost (t port sensor : Nat) (s : State) : Host.Outcome State Fault Refusal :=
  wheneverOn (decide (port < 128) && decide (sensor < 6)) s t
    (fun z => decide (10 ≤ (z.sensor (6 * port + sensor)).lostRun) && (z.port port).state == .run
      && (z.port port).limits.temps.testBit sensor && !(z.sensor (6 * port + sensor)).lost)
    (fun z =>
      let z1 := (z.updSensor (6 * port + sensor) fun k => { k with lost := true }).raise evTempSensorLost 2 port
        (v0 := some sensor)
      match z1.laneOfPort port with
      | none => z1
      | some n => z1.updLaneTherm n fun h => { h with derateLost := true })

/-! ## Cooling (R247 to R249) -/

/-- COOLING.LOOP_SET (R248). -/
def execCoolingLoopSet (src : Source) (loop : Nat) (c : CoolConfig) (s : State) : Host.Outcome State Fault Refusal :=
  runCommand src 0x1101 (fun z => checked z
    [ (decide (loop < 8) && decide (c.lanes < 256) && decide (c.pump < 8) && decide (c.tach < 16)
        && withinI (-32768) 32767 c.setPoint && decide (c.kp < 2 ^ 32) && decide (c.ki < 2 ^ 32)
        && decide (c.pumpMin < 65536) && decide (c.pumpMax < 65536) && decide (c.expect < 65536), stInvalidArg) ]
    (ok (z.updCoolLoop loop fun k => { k with cfg := some c }))) s
/-- The duty that an output's source gives now, if any. -/
def State.auxSource (s : State) : OutSource → Option Nat
  | .loop n => (s.coolLoop n).cfg.map fun _ => (s.coolLoop n).duty
  | .signal h =>
    let v := s.sigLocal h
    if v.absent || v.typ != 3 then none else v.value.map fun x => ofSigned 16 x
  | _ => none
/-- COOLING.OUTPUT_SET (R247). -/
def execCoolingOutputSet (src : Source) (out : Nat) (source : OutSource) (freq safeDuty : Nat) (s : State) :
    Host.Outcome State Fault Refusal :=
  runCommand src 0x1102 (fun z => checked z
    [ (decide (out < 8) && within 1000 100000 freq && decide (safeDuty < 65536)
        && (match source with
            | .path _ => true
            | .signal h => decide (h < 65536) && ((z.sigLocal h).typ == 0 || (z.sigLocal h).typ == 3)
            | .loop n => decide (n < 8)
            | _ => false), stInvalidArg) ]
    (ok ((z.updAux out fun a => { a with source := source, freq := freq, safeDuty := safeDuty, configured := true }).auxValue
      out (z.auxSource source)))) s
/-- COOLING.DUTY_SET (R247). -/
def execCoolingDutySet (src : Source) (out duty : Nat) (s : State) : Host.Outcome State Fault Refusal :=
  runCommand src 0x1103 (fun z => checked z [(decide (out < 8) && decide (duty < 65536), stInvalidArg)]
    (if (z.aux out).source == .path src.path then ok (z.auxValue out (some duty))
     else ⟨some stNotOwner, [], z.updAux out fun a => { a with refused := inc64 a.refused }⟩)) s
/-- PUMP_DUTY, VALVE_CODE and HVAC_DEMAND of a demand (R248). -/
def pumpDuty (c : CoolConfig) (u : Nat) : Nat :=
  (clampI 0 65535 (roundA ((c.pumpMin : Rat) + (u : Rat) / 65536 * ((c.pumpMax : Int) - c.pumpMin : Int)))).toNat
def valveCode (u : Nat) : Nat := (roundA ((u : Rat) / 65536 * 65535)).toNat
/-- COOLING.STATUS (R255). -/
def execCoolingStatus (src : Source) (loop : Nat) (s : State) : Host.Outcome State Fault Refusal :=
  runCommand src 0x1104 (fun z =>
    let k := z.coolLoop loop
    checked z [(decide (loop < 8), stInvalidArg)]
      (okWith z [f2 k.u, fi2 k.y, f2 k.duty, f2 (valveCode k.u), f2 k.u, fb k.lost])) s
/-- The hottest sensor sample of a mask of lanes. -/
def State.coolMeasure (s : State) (m : Nat) : Option Int :=
  ((bitsOf 8 m).filterMap fun n => (s.laneTherm n).hottest).max?
/-- The law of R149 in UQ0.16, with the sign that raises u when y exceeds the set-point. -/
def coolLaw (c : CoolConfig) (l : LoopState) (y : Int) : LoopState :=
  let n (x : Int) : Int := satS 32 (roundA ((x : Rat) * 65536 / 10000))
  let e := satS 32 (n y - n c.setPoint)
  let cand := satS 32 (l.integ + mulGain c.ki e)
  let raw := satS 32 (mulGain c.kp e + cand)
  let u := clampI 0 65535 raw
  { l with integ := if u = raw then cand else l.integ, yPrev := some (n y), out := u }
/-- COOLING_LOOP_UPDATE (R248); without a valid sample the demand stays. -/
def execCoolingLoopUpdate (t loop : Nat) (s : State) : Host.Outcome State Fault Refusal :=
  wheneverOn (decide (loop < 8)) s t
    (fun z => (z.coolLoop loop).cfg.isSome && (z.power.state == .full || z.power.state == .slack))
    (fun z => match (z.coolLoop loop).cfg with
      | none => z
      | some c =>
        let k := z.coolLoop loop
        let y := z.coolMeasure c.lanes
        let l := match y with | none => k.loop | some v => coolLaw c k.loop v
        let u := l.out.toNat
        let d := pumpDuty c u
        let z1 := z.setCoolLoop loop { k with loop := l, u := u, y := y, duty := d }
        let z2 := ((z1.signalOf sgPumpDuty loop 3 d).signalOf sgValveCode loop 3 (valveCode u)).signalOf sgHvacDemand loop 3 u
        ((List.range 8).foldl (fun w i => if (w.aux i).source == .loop loop then w.auxValue i (some d) else w)
          z2).watchCooling)
/-- COOLING_LOST (R249). -/
def execCoolingLost (t loop : Nat) (s : State) : Host.Outcome State Fault Refusal :=
  wheneverOn (decide (loop < 8)) s t
    (fun z => !(z.coolLoop loop).lost && elapsedO (z.coolLoop loop).lowSince (10 ^ 10) z.now)
    (fun z => (z.updCoolLoop loop fun k => { k with lost := true }).raise evCoolingLost 0 0 (v0 := some loop))
/-- COOLING_RESTORED (R249). -/
def execCoolingRestored (t loop : Nat) (s : State) : Host.Outcome State Fault Refusal :=
  wheneverOn (decide (loop < 8)) s t
    (fun z => (z.coolLoop loop).lost && elapsedO (z.coolLoop loop).okSince (6 * 10 ^ 10) z.now)
    (fun z =>
      let z1 := z.updCoolLoop loop fun k => { k with lost := false }
      if (List.range 8).any fun k => (z1.coolLoop k).lost then z1 else z1.clearAlarm evCoolingLost 0 0)

/-! ## The die sensor (R251 to R254) -/

/-- The code of a die state. -/
def dieCode : DieState → Nat
  | .normal => 0 | .shedRequest => 1 | .enforce => 2
/-- DIE.STATUS (R255): before a reading, and a rate, the no-value marker (00 R5). -/
def execDieStatus (src : Source) (s : State) : Host.Outcome State Fault Refusal :=
  runCommand src 0x1201 (fun z =>
    let d := z.therm.die
    okWith z [fi2 d.reading, .s 4 (d.rate.getD (-2147483648)), f1 (dieCode d.state), fb d.broken, f8 (z.now - d.since)]) s
/-- The die sensor changed. -/
def State.updDie (s : State) (f : Die → Die) : State := { s with therm := { s.therm with die := f s.therm.die } }
/-- Enter a die state, with what it publishes and records. -/
def State.dieEnter (s : State) (st : DieState) : State :=
  let s1 := (s.updDie fun d => { d with state := st, since := s.now, coolSince := none }).signalOf sgDieShed 0 1
    (if st = .normal then 0 else 1)
  match st with
  | .normal => s1
  | .shedRequest => s1.event evDieShed 0 0
  | .enforce => (s1.suspendTenants).event evDieEnforce 0 0
/-- ENFORCE, from any state. -/
def State.dieEnforce (s : State) : State := if s.therm.die.state == .enforce then s else s.dieEnter .enforce
/-- The reading is broken (R253): ENFORCE at once. -/
def State.dieBroken (s : State) : State :=
  ((s.updDie fun d => { d with broken := true, coolSince := none, hotRun := 0 }).raise evDieSensorBroken 0 0).dieEnforce
/-- The rate: against the reading nearest to 1 s earlier, once there is an earlier one (R251). -/
def dieRate (hist : List (Nat × Int)) (now : Nat) (r : Int) : Option Rat :=
  let far (t : Nat) : Nat := ((t : Int) + 1000000000 - now).natAbs
  match hist.filter fun h => decide (h.1 < now) with
  | [] => none
  | a :: l =>
    let b := l.foldl (fun x y => if far y.1 < far x.1 then y else x) a
    some (((r - b.2 : Int) : Rat) * 1000000000 / (now - b.1 : Nat))
/-- A reading (R251 to R253). -/
def State.dieReading (s : State) (raw : Nat) (r : Int) : State :=
  let d := s.therm.die
  let same := if d.raw = raw && !d.history.isEmpty then d.sameRun + 1 else 1
  let rate := dieRate d.history s.now r
  let s1 := s.updDie fun x => { x with
    reading := some r, raw := raw, sameRun := same, rate := rate.map roundA
    history := (s.now, r) :: x.history.filter fun h => decide (s.now ≤ h.1 + 1200000000) }
  if !withinI (-5000) 15000 r then s1.dieBroken
  else
    let broken := d.broken && decide (100 ≤ same)
    let s2 := if d.broken && !broken then (s1.updDie fun x => { x with broken := false }).clearAlarm evDieSensorBroken 0 0 else s1
    let hot := if 11200 ≤ r then d.hotRun + 1 else 0
    let cool := !broken && decide (r < 9500) && rate.all fun q => decide (q ≤ 100)
    let s3 := s2.updDie fun x => { x with hotRun := hot, coolSince := since x.coolSince s.now cool }
    let s4 := if s3.therm.die.state == .normal && (decide (10000 ≤ r) || rate.any fun q => decide (200 < q)) then s3.dieEnter .shedRequest else s3
    let s5 := if 10800 ≤ r then s4.dieEnforce else s4
    if 2 ≤ hot && !broken then s5.enterRock 1 else s5
/-- DIE_READING (R251, R252). -/
def execDieReading (t raw : Nat) (reading : Int) (s : State) : Host.Outcome State Fault Refusal :=
  whenever s t (fun _ => decide (raw < 65536) && withinI (-32768) 32767 reading) (fun z => z.dieReading raw reading)
/-- DIE_ENFORCE (R252): SHED_REQUEST has held for 2 s. -/
def execDieEnforce (t : Nat) (s : State) : Host.Outcome State Fault Refusal :=
  whenever s t (fun z => z.therm.die.state == .shedRequest && elapsed z.therm.die.since 2000000000 z.now) State.dieEnforce
/-- DIE_SENSOR_BROKEN (R251, R253). -/
def execDieSensorBroken (t : Nat) (s : State) : Host.Outcome State Fault Refusal :=
  whenever s t (fun z => !z.therm.die.broken && decide (100 ≤ z.therm.die.sameRun)) State.dieBroken
/-- DIE_RELEASE (R254). -/
def execDieRelease (t : Nat) (s : State) : Host.Outcome State Fault Refusal :=
  whenever s t
    (fun z => z.therm.die.state != .normal && !z.therm.die.broken && elapsedO z.therm.die.coolSince (10 ^ 10) z.now)
    (fun z => (z.dieEnter .normal).placeEntries)

end Sys2Proof.Machine
end

