-- ==== Sys2Proof/Machine/Time.lean ====
section
/-! DEFINITION. Time and the tide clock (02): the TIME, TIDE and LIGHTHOUSE commands, PTP, the servo, the lighthouse,
tide messages, the arming of tide-table firings, captures and triggers. -/

namespace Sys2Proof.Machine

open Sys2Proof

/-! ## Commands (R76) -/

/-- The code of a servo state, in the order of R50. -/
def servoCode : ServoState → Nat
  | .free => 0 | .acquire => 1 | .locked => 2 | .holdover => 3
/-- The grandmaster identity of a LAN: the module's own while its port is the master, 0 where the port knows none. -/
def State.grandmaster (s : State) (l : Nat) : Nat :=
  if (s.ptpPort l).state == .master then s.net.serial
  else match (s.ptpPort l).best with | none => 0 | some a => a.identity
/-- The response of TIME.STATUS. -/
def timeStatusFields (s : State) : List Field :=
  [f1 (servoCode s.servo.state), f1 (lanIx s.servo.source), .s 4 s.servo.lastOffset, f8 s.clock.incr
  , .s 8 (s.servo.integ.fdiv 65536), f8 (s.grandmaster 0), f8 (s.grandmaster 1)
  , f8 (match s.servo.holdoverSince with | none => 0 | some t => s.statusNow - t)
  , f8 s.servo.insertionAborts, f8 s.servo.disagreeCount]
def execTimeStatus (src : Source) (s : State) : Host.Outcome State Fault Refusal :=
  runCommand src 0x0301 (fun z => okWith z (timeStatusFields z)) s

/-- The ranges of R49 and R46. -/
def servoParamsOk (p : ServoParams) : Bool :=
  decide (p.kp < 2 ^ 32) && decide (p.ki < 2 ^ 32) && within 1000 1000000 p.outlier && within 10 10000 p.lockNs
  && within 1000 1000000000 p.stepNs && withinI (-32768) 32767 p.asymA && withinI (-32768) 32767 p.asymB
/-- TIME.SERVO_SET: from the next offset sample. -/
def servoSetDo (p : ServoParams) (s : State) : Answer :=
  checked s [(servoParamsOk p, stInvalidArg)]
    (ok ((({ s with servo := { s.servo with
        kp := p.kp, ki := p.ki, outlier := p.outlier, lockNs := p.lockNs, stepNs := p.stepNs } }).updPtpPort 0
          fun x => { x with asym := p.asymA }).updPtpPort 1 fun x => { x with asym := p.asymB }))
def execTimeServoSet (src : Source) (p : ServoParams) (s : State) : Host.Outcome State Fault Refusal :=
  runCommand src 0x0302 (servoSetDo p) s

/-- TIME.TRIGGER_SET (R75, R76). -/
def triggerSetDo (output : Nat) (mode : TrigMode) (start period width : Nat) (s : State) : Answer :=
  checked s
    [ (decide (output < 4), stInvalidArg)
    , (within 1000 (10 ^ 12) period, stInvalidArg)
    , (within 8 1000000 width, stInvalidArg)
    , (decide (start < 2 ^ 64), stInvalidArg) ]
    (ok (s.setTsOut output (match mode with
      | .off => {}
      | .time => { s.tsOut output with
          mode := .time, byTable := false, start := start, period := period, width := width
          nextAt := some (firstPulse s.now start period) }
      | .pps => { s.tsOut output with
          mode := .pps, byTable := false, start := 0, period := 10 ^ 9, width := width
          nextAt := some ((s.now / 10 ^ 9 + 1) * 10 ^ 9) })))
def execTimeTriggerSet (src : Source) (output : Nat) (mode : TrigMode) (start period width : Nat) (s : State) :
    Host.Outcome State Fault Refusal :=
  runCommand src 0x0303 (triggerSetDo output mode start period width) s

/-- The 24 bytes of a capture record (R74). -/
def captureBytes (c : Capture) : List Byte :=
  leBytes 8 (if c.rising then 1 else 0) ++ leBytes 8 c.position ++ leBytes 8 c.time
/-- TIME.CAPTURE_READ: the records returned are removed. -/
def captureReadDo (input max : Nat) (s : State) : Answer :=
  let q := s.tsIn input
  let n := min max q.queue.length
  checked s [(decide (input < 4) && within 1 16 max, stInvalidArg)]
    { ok (s.setTsIn input { q with queue := q.queue.drop n, dropped := 0 }) with
      payload := f2 n :: (q.queue.take n).map (fun c => .struct (captureBytes c)) ++ [f8 q.dropped] }
def execTimeCaptureRead (src : Source) (input max : Nat) (s : State) : Host.Outcome State Fault Refusal :=
  runCommand src 0x0304 (captureReadDo input max) s

/-- The response of TIDE.STATUS. -/
def tideStatusFields (s : State) : List Field :=
  [f8 (s.posAt s.statusNow), f1 (qualityCode s.tide.quality), f1 s.tide.source, f4 s.tide.freqUhz, .s 4 s.tide.lastE
  , f8 (match s.tide.coastSince with | none => 0 | some t => s.statusNow - t), f8 s.tide.recounts
  , f8 s.tide.staleCount, f8 s.tide.earlyCount, f8 s.tide.refusedCount, f8 s.tide.disagreeCount]
def execTideStatus (src : Source) (s : State) : Host.Outcome State Fault Refusal :=
  runCommand src 0x0401 (fun z => okWith z (tideStatusFields z)) s

/-- TIDE.ENTRY_SET (R66, R71, R73). -/
def entrySetDo (n : Nat) (w : BitVec 256) (s : State) : Answer :=
  let e := entryOf w
  let s1 := s.writeEntry n e
  checked s
    [ (decide (n < 1024) && entryReserved w, stInvalidArg)
    , (decide (768 ≤ n), stEntryOwned)
    , (within 1 7 e.kind, stInvalidArg)
    , (e.kind == 2 || e.kind == 7, stEntryOwned)
    , (entryShape e, stInvalidArg)
    , (if e.kind == 2 then decide (e.arg0 < 16) && decide (e.arg1 < 4)
       else decide (e.arg0 < 4) && within 8 1000000 e.arg1, stInvalidArg)
    , (e.kind != 2 || !s.sarOwned e, stEntryOwned)
    , (!tooDense (s.userEntries n e), stTideTooDense) ]
    (ok (if e.kind == 7 && e.enable then
        s1.updTsOut e.arg0 fun o => { o with byTable := true, mode := .off, nextAt := none }
      else s1))
def execTideEntrySet (src : Source) (entry : Nat) (w : BitVec 256) (s : State) : Host.Outcome State Fault Refusal :=
  runCommand src 0x0402 (entrySetDo entry w) s

def execTideEntryRead (src : Source) (entry : Nat) (s : State) : Host.Outcome State Fault Refusal :=
  runCommand src 0x0403 (fun z => checked z [(decide (entry < 1024), stInvalidArg)]
    (okWith z [.struct (leBytes 32 (entryWord (z.entry entry)))])) s

/-- LIGHTHOUSE.CONFIG: used at the next grant of the role (R52, R76). The spec gives the nominal voltage no range; it is held
to the format of lane and bus voltages, below 2^31 mV (00 R4; DESIGN CHOICE, log entry 135). -/
def lighthouseConfigDo (c : LhConfig) (s : State) : Answer :=
  checked s
    [ (decide (c.lane < 8) && (c.nominalHz == 50 || c.nominalHz == 60) && withinI (-32768) 32767 c.angleOffset
        && within 1 20 c.bandwidth && decide (c.nominalMv < 2 ^ 31), stInvalidArg)
    , (((s.lane c.lane).cfg).isNone, stLaneInUse)
    , ((s.activeOf 4).isNone, stRoleHeld) ]
    (ok { s with lh := { s.lh with staged := some c } })
def execLighthouseConfig (src : Source) (c : LhConfig) (s : State) : Host.Outcome State Fault Refusal :=
  runCommand src 0x0501 (lighthouseConfigDo c) s

/-! ## PTP (R44 to R47) and the servo's events -/

/-- Data set `a` is better than `b`: the fields compared in the order of the default algorithm (log entry 34). -/
def betterClock (a b : Announce) : Bool :=
  let k (x : Announce) : List Nat :=
    [x.priority1, x.clockClass, x.accuracy, x.variance, x.priority2, x.identity, x.stepsRemoved]
  decide (k a < k b)
/-- The module's own data set: clockClass 248 and the priorities of its berth (R45). The identity (the SERIAL), the accuracy
0xFE and the variance 0xFFFF are not in the spec (DESIGN CHOICE, log entry 136). -/
def State.ownClock (s : State) (l : Nat) : Announce :=
  { priority1 := (s.ptpPort l).priority1, clockClass := 248, accuracy := 0xFE, variance := 0xFFFF
    priority2 := (s.ptpPort l).priority2, identity := s.net.serial, stepsRemoved := 0, logInterval := 1
    domain := s.servo.domain }

/-- An Announce is received: the best master is taken anew. A module whose priority1 is 255 is slave-only. -/
def announceDo (l : Lan) (a : Announce) (s : State) : State :=
  let p := s.ptpPort (lanIx l)
  let same := match p.best with | none => false | some b => b.identity == a.identity
  let take := match p.best with | none => true | some b => same || betterClock a b
  if !take then s
  else
    let own := p.priority1 != 255 && betterClock (s.ownClock (lanIx l)) a
    let p1 : PtpPort := { p with
      best := some a, announceAt := some s.now, logAnnounce := a.logInterval
      masterAt := if same then p.masterAt else some s.now, lastSyncAt := if same then p.lastSyncAt else none
      state := if own then .master else .slave
      delays := if same then p.delays else []
      delayReqAt := if same then p.delayReqAt else none }
    (s.setPtpPort (lanIx l) p1).followMaster (!same && l == s.servo.source)
def execPtpAnnounce (t : Nat) (lan : Lan) (a : Announce) (s : State) : Host.Outcome State Fault Refusal :=
  whenever (s.frameIn (lanIx lan) t) t (fun z => a.domain == z.servo.domain && a.identity != z.net.serial && z.power.state != .bareRock)
    (announceDo lan a)

/-- The offset of R48. -/
def syncOffset (p : PtpPort) (m : SyncMsg) : Int :=
  satS 32 ((m.t2 : Int) - m.t1 - (m.correction + p.asym) - meanDelay p.delays)
/-- A pair of offsets, one of each LAN, is compared (R51). -/
def State.pairOffsets (s : State) : State :=
  let a := s.ptpPort 0
  let b := s.ptpPort 1
  if a.offsetFresh && b.offsetFresh then
    let s1 := (s.setPtpPort 0 { a with offsetFresh := false }).setPtpPort 1 { b with offsetFresh := false }
    { s1 with servo := { s1.servo with
        disagreeRun := if 1000 < |a.lastOffset - b.lastOffset| then s1.servo.disagreeRun + 1 else 0 } }
  else s
/-- A Sync is received from the selected master: a sample of the source LAN, or the other LAN's half of a pair. -/
def syncDo (l : Lan) (m : SyncMsg) (s : State) : State :=
  let p := s.ptpPort (lanIx l)
  let o := syncOffset p m
  let both := (s.ptpPort 0).state == .slave && (s.ptpPort 1).state == .slave
  let s1 := s.setPtpPort (lanIx l) { p with
    lastSyncAt := some s.now, logSync := m.logInterval, lastSyncT2 := m.t2, lastSyncT1 := (m.t1 : Int) + m.correction
    lastOffset := o, offsetFresh := both }
  let s2 := if both then s1.pairOffsets else s1
  if l == s.servo.source && s.power.state != .bareRock then s2.servoSample o else s2
def execPtpSync (t : Nat) (lan : Lan) (m : SyncMsg) (s : State) : Host.Outcome State Fault Refusal :=
  whenever (s.frameIn (lanIx lan) t) t (fun z => m.domain == z.servo.domain && withinI (-7) 0 m.logInterval
    && (z.ptpPort (lanIx lan)).state == .slave) (syncDo lan m)

/-- A Delay_Resp completes a path delay, the mean of the two directions: the asymmetry, which adds to one direction and
takes from the other, falls out of it (R46, R48; DEDUCED, log entry 137). HOLDOVER ends once the source LAN has 4 (R50). -/
def delayRespDo (l : Lan) (m : DelayResp) (t3 : Nat) (s : State) : State :=
  let p := s.ptpPort (lanIx l)
  let d := ((p.lastSyncT2 - p.lastSyncT1) + ((m.t4 : Int) - t3 - m.correction)).fdiv 2
  let ds := (d :: p.delays).take 16
  (s.setPtpPort (lanIx l) { p with delays := ds, delayReqAt := none, logMinDelayReq := m.logMinDelayReq }).holdoverEnds
def execPtpDelayResp (t : Nat) (lan : Lan) (m : DelayResp) (s : State) : Host.Outcome State Fault Refusal :=
  whenever (s.frameIn (lanIx lan) t) t (fun z => (z.ptpPort (lanIx lan)).delayReqAt.isSome && (z.ptpPort (lanIx lan)).delayReqSeq == m.seq
    && (z.ptpPort (lanIx lan)).lastSyncAt.isSome)
    (fun z => delayRespDo lan m ((z.ptpPort (lanIx lan)).delayReqAt.getD 0) z)

/-- An interval of 2^k s has passed since a time, or nothing was sent before. -/
def dueAgain (last : Option Nat) (k : Int) (now : Nat) : Bool := last.isNone || elapsedO last (pow2Sec k) now
/-- A master sends Syncs 2^−4 s and Announces 2 s apart (R44's expected interval, and the default profile's for Announce:
DEDUCED and PRESUMED, log entry 138). -/
abbrev masterLogSync : Int := -4
abbrev masterLogAnnounce : Int := 1
def execPtpSyncSend (t : Nat) (lan : Lan) (insertOk : Bool) (s : State) : Host.Outcome State Fault Refusal :=
  whenever s t (fun z => (z.ptpPort (lanIx lan)).state == .master
      && dueAgain (z.ptpPort (lanIx lan)).syncSentAt masterLogSync z.now && z.power.state != .bareRock) fun z =>
    let q := (z.ptpPort (lanIx lan)).syncSeq
    let z1 := z.updPtpPort (lanIx lan) fun p => { p with syncSeq := (q + 1) % 65536, syncSentAt := some z.now }
    if insertOk then z1.emit (.ptpSync lan q z.now) else z1.insertionAbort lan

def execDelayReqSend (t : Nat) (lan : Lan) (s : State) : Host.Outcome State Fault Refusal :=
  whenever s t (fun z => (z.ptpPort (lanIx lan)).state == .slave
      && dueAgain (z.ptpPort (lanIx lan)).delayReqLast (z.ptpPort (lanIx lan)).logMinDelayReq z.now
      && z.power.state != .bareRock) fun z =>
    let q := ((z.ptpPort (lanIx lan)).delayReqSeq + 1) % 65536
    (z.updPtpPort (lanIx lan) fun p => { p with
      delayReqSeq := q, delayReqAt := some z.now, delayReqLast := some z.now }).emit (.delayReq lan q)

def execDelayReq (t : Nat) (lan : Lan) (seq peer : Nat) (s : State) : Host.Outcome State Fault Refusal :=
  whenever (s.frameIn (lanIx lan) t) t (fun z => (z.ptpPort (lanIx lan)).state == .master) fun z => z.emit (.delayResp lan seq peer z.now)

def execPtpAnnounceSend (t : Nat) (lan : Lan) (s : State) : Host.Outcome State Fault Refusal :=
  whenever s t (fun z => (z.ptpPort (lanIx lan)).state == .master
      && dueAgain (z.ptpPort (lanIx lan)).announceSentAt masterLogAnnounce z.now && z.power.state != .bareRock) fun z =>
    (z.updPtpPort (lanIx lan) fun p => { p with announceSeq := (p.announceSeq + 1) % 65536, announceSentAt := some z.now }).emit
      (.ptpAnnounce lan (z.ownClock (lanIx lan)))

def execServoLocked (t : Nat) (s : State) : Host.Outcome State Fault Refusal :=
  whenever s t (fun z => z.servo.state == .acquire && decide (16 ≤ z.servo.goodRun)) fun z =>
    { z with servo := { z.servo with state := .locked, lockedSince := some z.now, outlierRun := 0 } }

def execServoOutliers (t : Nat) (s : State) : Host.Outcome State Fault Refusal :=
  whenever s t (fun z => z.servo.state == .locked && decide (8 ≤ z.servo.outlierRun)) fun z => z.toAcquire

/-- The master of a LAN is lost: no Sync for 4 expected intervals since the last or since the master was selected, or the
announce receipt timeout of 3 (R44, R50). A port that listens and may be master waits as long for an Announce. -/
def State.masterLost (s : State) (l : Nat) : Bool :=
  let p := s.ptpPort l
  match p.state with
  | .slave => elapsedO (p.lastSyncAt.orElse fun _ => p.masterAt) (4 * pow2Sec p.logSync) s.now
      || elapsedO p.announceAt (3 * pow2Sec p.logAnnounce) s.now
  | .listening => p.priority1 != 255 && (s.netLan l).link && elapsed (s.netLan l).linkAt (3 * pow2Sec p.logAnnounce) s.now
  | _ => false
/-- A port whose master is lost listens again, or is master where it is not slave-only. -/
def State.loseMaster (s : State) (l : Nat) : State :=
  if s.masterLost l then
    s.updPtpPort l fun p => { p with
      state := if p.priority1 == 255 then .listening else .master
      best := none, announceAt := none, masterAt := none, lastSyncAt := none, delays := [], delayReqAt := none
      offsetFresh := false }
  else s
def execMasterLost (t : Nat) (s : State) : Host.Outcome State Fault Refusal :=
  whenever s t (fun z => z.masterLost 0 || z.masterLost 1) fun z =>
    ((z.loseMaster 0).loseMaster 1).followMaster (z.masterLost (lanIx z.servo.source))

/-- TIME_DISAGREE is recorded once for each run of 8: the run is counted from 0 again after it (R51 does not say; DESIGN
CHOICE, log entry 139). -/
def execTimeDisagree (t : Nat) (s : State) : Host.Outcome State Fault Refusal :=
  whenever s t (fun z => decide (8 ≤ z.servo.disagreeRun)) fun z =>
    ({ z with servo := { z.servo with disagreeRun := 0, disagreeCount := inc64 z.servo.disagreeCount } }).event
      evTimeDisagree 0 0

/-! ## The lighthouse (R52 to R57) -/

/-- The 50 µs instant of a lighthouse: both converters of its lane sample at once, with SOURCE LIGHTHOUSE (R52, 04 R112);
each record goes to the loop, which evaluates when both samples of the instant have come (`State.gridRecord`). -/
def gridSample (n : Nat) (s : State) : State :=
  let s1 := { s with lh := { s.lh with lastEval := s.now } }
  (s1.urgentRequest (2 * n) [s1.conversion (12 * n) 3 true]).urgentRequest (2 * n + 1) [s1.conversion (12 * n + 6) 3 true]
def execLighthouseSample (t inst lane : Nat) (s : State) : Host.Outcome State Fault Refusal :=
  wheneverOn (decide (inst < 2) && decide (lane < 8)) s t
    (fun z => z.gridRuns && z.gridLane == some lane && ((z.activeOf 4).any fun o => o.role % 2 == inst) && t % 50000 == 0
      && z.now == t)
    (gridSample lane)

def execPllLock (t : Nat) (s : State) : Host.Outcome State Fault Refusal :=
  whenever s t (fun z => !z.lh.locked && decide (10 ≤ z.lh.goodCycles) && !z.lh.negAbove) fun z =>
    { z with lh := { z.lh with
        locked := true, badCycles := 0, rangeLost := false, countTaken := false, otherHeard := false, lockCycle := 0 } }

def execPllUnlock (t : Nat) (s : State) : Host.Outcome State Fault Refusal :=
  whenever s t (fun z => z.lh.locked && (decide (3 ≤ z.lh.badCycles) || z.lh.rangeLost)) fun z =>
    { z with lh := { z.lh with locked := false, goodCycles := 0, badCycles := 0, rangeLost := false } }

/-- The count whose cycle has its angle 0 nearest that of the own cycle, for a position at T (R57). -/
def nearestCount (p : Rat) (angle : Nat) : Nat := (roundQ ((p - angle) / 65536)).toNat % 2 ^ 48
/-- Take the cycle count at a publication with reference instant `ref` and grid angle `angle` (R57): the other instance's
when it was heard, the own count when the quality has been other than NONE, else the PTP time over the nominal period. -/
def takeCount (s : State) (h : Lighthouse) (other : TideInst) (ref angle : Nat) : Lighthouse :=
  if h.countTaken then h
  else if h.otherHeard then { h with countTaken := true, count := nearestCount (instPos other ref) angle }
  else if s.tide.quality != .none_ then { h with countTaken := true, count := nearestCount (s.tide.posAt ref) angle }
  else { h with countTaken := true, count := ref * h.nominalHz / 10 ^ 9 }
/-- The tide message of a lighthouse: the loop's outputs `o`, as they stood at T (R56). -/
def lhMessage (s : State) (h : Lighthouse) (inst ref : Nat) (o : PllOut) : TideMsg :=
  { version := 1, inst := inst, locked := h.locked, timeHoldover := s.servo.state == .holdover
    freqLimit := !withinI (h.nominalHz * 1000000 - 5000000) (h.nominalHz * 1000000 + 5000000) o.freqUhz
    undervoltage := decide (o.vPos < 16384), berth := s.berthField, sequence := h.sequence, refT := ref
    position := h.count * 65536 + o.angle, frequency := o.freqUhz, rocof := o.rocof, vPos := o.vPos
    unbalance := o.unbalance, phaseError := o.phaseErr, reserved := 0 }
/-- What every tide message must keep besides its age (R58). -/
def tideFieldsOk (s : State) (m : TideMsg) : Bool :=
  m.version == 1 && decide (m.inst < 2) && (s.inst m.inst).berth == m.berth && m.reserved == 0 && m.flagsLow == 0
  && m.berthHigh == 0 && within 45000000 65000000 m.frequency
/-- Publish the tide message, and treat it as received at T (R55, R59). -/
def tidePublishDo (o : OwnRole) (s : State) : State :=
  match s.lh.mark with
  | none => s
  | some (ref, out) =>
    let inst := o.role % 2
    let h := takeCount s s.lh (s.inst (1 - inst)) ref out.angle
    let m := lhMessage s h inst ref out
    let s1 := ({ s with lh := { h with sequence := (h.sequence + 1) % 65536, mark := none, lastT := some ref } }).sendPlain
      0xFFFF (.tide m) 0xFFFF o.role o.epoch
    if m.locked && within 45000000 65000000 m.frequency then s1.tideAccept inst m ref else s1
/-- A change of the tide's extrapolation re-plans the PWM periods (05 R144). -/
def withReplan (f : State → State) (s : State) : State :=
  let s1 := f s
  if s1.tide.anchorNs ≠ s.tide.anchorNs ∨ s1.tide.anchorPos ≠ s.tide.anchorPos ∨ s1.tide.corrEnd ≠ s.tide.corrEnd then s1.replanAll
  else s1
def execTidePublish (t : Nat) (s : State) : Host.Outcome State Fault Refusal :=
  whenever s t (fun z => z.gridRuns && z.servo.state != .free && z.lh.mark.isSome)
    (fun z => match z.activeOf 4 with | none => z | some o => withReplan (tidePublishDo o) z)

/-! ## Tide messages (R58 to R64) -/

/-- A message that is not accepted, counted as `f` says, is kept, so that its second copy on the other LAN is a duplicate. -/
def State.turnAway (s : State) (l : Lan) (bytes : List Byte) (m : TideMsg) (f : Tide → Tide) : State :=
  let s1 := { s with tide := f s.tide }
  if m.inst < 2 then s1.updInst m.inst fun i => { i with turnedAway := some (l, bytes) } else s1
/-- The SEQUENCE of a message from the configured berth: a gap since the message before is counted (R58). -/
def State.heardSequence (s : State) (m : TideMsg) : State :=
  let gap := match (s.inst m.inst).heardSeq with | none => false | some q => (q + 1) % 65536 != m.sequence
  let s1 := s.updInst m.inst fun i => { i with heardSeq := some m.sequence }
  { s1 with tide := { s1.tide with seqGaps := if gap then inc64 s1.tide.seqGaps else s1.tide.seqGaps } }
/-- A message accepted by a lighthouse that has locked within 16 cycles gives it its cycle count (R57). -/
def State.adoptCount (s : State) (m : TideMsg) : State :=
  if (s.activeOf 4).isSome && s.lh.locked && decide (s.lh.lockCycle ≤ 16) && !s.lh.otherHeard then
    { s with lh := { s.lh with
        otherHeard := true, countTaken := true
        count := nearestCount ((m.position : Rat) + ((s.lh.lastRef : Rat) - m.refT) * tideRate m.frequency) s.lh.angle } }
  else s
/-- A tide message is received (R58): duplicates and unlocked messages are ignored, the rest is refused, early, late or
accepted. -/
def tideMessageDo (l : Lan) (bytes : List Byte) (m : TideMsg) (s : State) : State :=
  let i := s.inst m.inst
  let copy := match i.turnedAway with | none => false | some (x, b) => x != l && b == bytes
  if decide (m.inst < 2) && (i.lastSeq == some m.sequence || copy) then s
  else if !m.locked then (if tideFieldsOk s m then s.heardSequence m else s).turnAway l bytes m id
  else if !tideFieldsOk s m then s.turnAway l bytes m fun x => { x with refusedCount := inc64 x.refusedCount }
  else
    let s1 := s.heardSequence m
    if s.now < m.refT then s1.turnAway l bytes m fun x => { x with earlyCount := inc64 x.earlyCount }
    else if m.refT + 2000000 < s.now then s1.turnAway l bytes m fun x => { x with staleCount := inc64 x.staleCount }
    else ((s1.adoptCount m).updInst m.inst fun x => { x with lastSeq := some m.sequence }).tideAccept m.inst m s.now
def execTideMessage (t : Nat) (lan : Lan) (bytes : List (BitVec 8)) (s : State) : Host.Outcome State Fault Refusal :=
  whenever (s.frameIn (lanIx lan) t) t (fun z => z.tablesRun && bytes.length == 40
      && !((z.activeOf 4).any fun o => o.role % 2 == (tideOf bytes).inst))
    (withReplan (tideMessageDo lan bytes (tideOf bytes)))

def execLighthouseDisagree (t : Nat) (s : State) : Host.Outcome State Fault Refusal :=
  whenever s t (fun z => decide (3 ≤ z.tide.disagreeRun) && !z.tide.disagreeing) fun z =>
    (({ z with tide := { z.tide with
        disagreeing := true, disagreeCount := inc64 z.tide.disagreeCount } }).event evLighthouseDisagree 0 0).takeQuality

def execInstanceReturn (t : Nat) (s : State) : Host.Outcome State Fault Refusal :=
  whenever s t (fun z => z.tide.source == 1 && decide (16 ≤ z.tide.agreeRun) && !(z.inst 0).silent) fun z =>
    { z with tide := { z.tide with source := 0 } }

def execInstanceSilent (t i : Nat) (s : State) : Host.Outcome State Fault Refusal :=
  wheneverOn (decide (i < 2)) s t
    (fun z => !(z.inst i).silent && decide (3 * 10 ^ 15 ≤ (z.now - (z.inst i).rxAt) * (z.inst i).freqUhz))
    (fun z => z.instSilent i)

def execCorrectionEnd (t : Nat) (s : State) : Host.Outcome State Fault Refusal :=
  whenever s t (fun z => elapsedO z.tide.corrEnd 0 z.now) (withReplan fun z =>
    { z with tide := z.tide.reanchor (z.tide.corrEnd.getD z.now) })

/-- The cycles from `a` up to but not at `b` whose count is that of the cycle `c` modulo `p`. -/
def cyclesIn (a b c p : Nat) : Nat := (b + p - 1 - c % p) / p - (a + p - 1 - c % p) / p
/-- Firings of a periodic entry that a recount from cycle `a` to cycle `b` passes over are not made and count in MISSED
(R72; DEDUCED, log entry 140); the angle 0 of the wrap itself, where it was armed, is made. -/
def State.passPeriodic (s : State) (a b n : Nat) : State :=
  let e := s.entry n
  if e.enable && e.periodic && decide (a < b) then
    let made := (s.table.armed.filter fun x => x.entry == n && decide (a ≤ cycleOf x.pos)).length
    s.setEntry n { e with missed := min 65535 (e.missed + (cyclesIn a b (cycleOf e.position) e.period * e.repeat_ - made)) }
  else s
/-- At the angle wrap the source's count is taken (R62); the entries passed over are handled under R72. -/
def recountDo (d : Int) (s0 : State) : State :=
  let td := s0.tide
  let c := cycleOf s0.pos
  let s := (s0.table.entries.map Prod.fst).foldl (fun z n => z.passPeriodic c ((c : Int) + d).toNat n) s0
  let s1 := ({ s with tide := { td with
    anchorPos := td.anchorPos + (d * 65536 : Int), recountTo := none, recounts := inc64 td.recounts } }).event
      evTideRecount 0 0 (v0 := some (cycleOf s.pos + d)) (v1 := some (cycleOf s.pos))
  (s1.table.entries.map Prod.fst).foldl (fun z n => z.passOver n) s1
def execTideRecount (t : Nat) (s : State) : Host.Outcome State Fault Refusal :=
  whenever s t (fun z => z.tide.recountTo.isSome && z.pos % 65536 == 0) fun z => recountDo (z.tide.recountTo.getD 0) z

/-! ## The tide table, captures and triggers (R69 to R75) -/

/-- The previous SAMPLE_STROBE firing of a lane of the mask lies less than 150 µs before. -/
def strobeTooSoon (s : State) (mask t0 : Nat) : Bool :=
  (bitsOf 8 mask).any fun n => match tget none s.table.lastStrobe n with
    | none => false
    | some x => decide (x < t0 ∧ t0 < x + 150000)
/-- Arm a firing: its instant is fixed; a strobe that the raised rate brings too close is not made (R69, R71). -/
def armFiring (n k pos t0 : Nat) (s0 : State) : State :=
  let s := { s0 with table := { s0.table with lastArmed := tset s0.table.lastArmed n (some t0) } }
  let e := s.entry n
  if e.kind == 1 && decide (0 < s.tide.corrE) && strobeTooSoon s e.arg0 t0 then
    s.setEntry n { e with missed := satInc 16 e.missed }
  else
    let s1 := s.setEntry n { e with fireCount := (e.fireCount + 1) % 2 ^ 32 }
    { s1 with table := { s1.table with
        armed := s1.table.armed ++ [{ entry := n, k := k, pos := pos, t0 := t0, armedAt := s1.now, content := e, current := true }]
        lastStrobe := if e.kind == 1 then (bitsOf 8 e.arg0).foldl (fun l i => tset l i (some t0)) s1.table.lastStrobe
          else s1.table.lastStrobe } }
def execTideFiringArmed (t entry k pos : Nat) (s : State) : Host.Outcome State Fault Refusal :=
  wheneverOn (decide (entry < 1024)) s t
    (fun z => z.tablesRun && fires (z.entry entry) k pos
      && within z.now (z.now + 20000) (z.tide.timeOf pos)
      && (tget none z.table.lastArmed entry).all (decide <| · < z.tide.timeOf pos))
    (fun z => armFiring entry k pos (z.tide.timeOf pos) z)

/-- A pulse starts on an output: the high time runs to the later of its end and the end of the pulse before (R75). -/
def pulse (o : TsOut) (at_ width : Nat) : TsOut :=
  { o with level := true, endAt := some (max (at_ + width) (if o.level then o.endAt.getD 0 else 0)) }
/-- The latest instant of a TIME or PPS sequence that `now` has reached begins its pulse; one whose width has passed by then,
as after BEACHED, is not made (R75). -/
def TsOut.timePulse (o : TsOut) (now : Nat) : TsOut :=
  let at_ := o.nextAt.getD 0
  let last := if o.period = 0 then at_ else at_ + (now - at_) / o.period * o.period
  { (if now < last + o.width then pulse o last o.width else o) with nextAt := some (last + o.period) }
def execTriggerOut (t entry : Nat) (s : State) : Host.Outcome State Fault Refusal :=
  firing entry 7 s t fun z a =>
    if (z.tsOut a.content.arg0).byTable then z.updTsOut a.content.arg0 fun o => pulse o a.t0 a.content.arg1 else z

def execTriggerTimePulse (t out : Nat) (s : State) : Host.Outcome State Fault Refusal :=
  wheneverOn (decide (out < 4)) s t
    (fun z => !(z.tsOut out).byTable && (z.tsOut out).mode != .off && elapsedO (z.tsOut out).nextAt 0 z.now && z.tablesRun)
    (fun z => z.updTsOut out fun o => o.timePulse z.now)

def execPulseEnd (t out : Nat) (s : State) : Host.Outcome State Fault Refusal :=
  wheneverOn (decide (out < 4)) s t (fun z => (z.tsOut out).level && elapsedO (z.tsOut out).endAt 0 z.now)
    (fun z => z.updTsOut out fun o => { o with level := false, endAt := none })

def execTsinCapture (t input : Nat) (rising : Bool) (widthNs : Nat) (s : State) : Host.Outcome State Fault Refusal :=
  wheneverOn (decide (input < 4)) s t
    (fun z => (if rising then (z.tsIn input).rising else (z.tsIn input).falling) && decide (16 ≤ widthNs)
      && decide (8 * (z.tsIn input).filter ≤ widthNs))
    (fun z => z.updTsIn input fun q =>
      if q.queue.length < 16 then { q with queue := q.queue ++ [⟨z.now, z.pos, rising⟩] }
      else { q with dropped := inc64 q.dropped })

end Sys2Proof.Machine
end

