-- ==== Sys2Proof/Machine/Requests.lean ====
section
/-! DEFINITION. Taking a request from a mailbox: whose turn it is, its checks, its operands and its command (14 R399, R403
to R406, R412, R418, R419, R421). -/

namespace Sys2Proof.Machine

open Sys2Proof

/-- The command that a request spells runs. Only commands are spelled by a request (14 R424). -/
def execRequested (i : Instr) (s : State) : Host.Outcome State Fault Refusal :=
  match i with
  | .moduleIdentify src => execModuleIdentify src s
  | .moduleStatus src => execModuleStatus src s
  | .moduleBeach src => execModuleBeach src s
  | .modulePart src => execModulePart src s
  | .moduleRestart src => execModuleRestart src s
  | .mboxNop src data => execMboxNop src data s
  | .mboxStatus src => execMboxStatus src s
  | .mboxCountersRead src clear => execMboxCountersRead src clear s
  | .timeStatus src => execTimeStatus src s
  | .timeServoSet src p => execTimeServoSet src p s
  | .timeTriggerSet src output mode start period width => execTimeTriggerSet src output mode start period width s
  | .timeCaptureRead src input max => execTimeCaptureRead src input max s
  | .tideStatus src => execTideStatus src s
  | .tideEntrySet src entry w => execTideEntrySet src entry w s
  | .tideEntryRead src entry => execTideEntryRead src entry s
  | .lighthouseConfig src c => execLighthouseConfig src c s
  | .tapStatus src port => execTapStatus src port s
  | .tapTrimSet src port asym => execTapTrimSet src port asym s
  | .tapLimitsSet src target ov uv ot cells temps => execTapLimitsSet src target ov uv ot cells temps s
  | .tapRetrain src port => execTapRetrain src port s
  | .tapCountersRead src port clear => execTapCountersRead src port clear s
  | .analogInputSet src input cls scale handle => execAnalogInputSet src input cls scale handle s
  | .analogTableSet src conv table entries queue => execAnalogTableSet src conv table entries queue s
  | .analogTableStart src conv table => execAnalogTableStart src conv table s
  | .analogConvert src input urgent => execAnalogConvert src input urgent s
  | .analogRead src inputs => execAnalogRead src inputs s
  | .analogCalPoint src target full value => execAnalogCalPoint src target full value s
  | .analogCalCommit src inputs icvs all => execAnalogCalCommit src inputs icvs all s
  | .analogCalRead src target => execAnalogCalRead src target s
  | .analogCountersRead src conv clear => execAnalogCountersRead src conv clear s
  | .icvStatus src lane => execIcvStatus src lane s
  | .icvReset src lane => execIcvReset src lane s
  | .dacConfig src out source safeCode range => execDacConfig src out source safeCode range s
  | .dacSet src out range code => execDacSet src out range code s
  | .tachConfig src input falling pair ppr filter standstill => execTachConfig src input falling pair ppr filter standstill s
  | .tachRead src inputs => execTachRead src inputs s
  | .laneConfig src lane c => execLaneConfig src lane c s
  | .laneLoopSet src lane g => execLaneLoopSet src lane g s
  | .laneArm src lane => execLaneArm src lane s
  | .laneDisarm src lane => execLaneDisarm src lane s
  | .laneSetpoint src lane v => execLaneSetpoint src lane v s
  | .laneStatus src lane => execLaneStatus src lane s
  | .laneFaultClear src lane ack => execLaneFaultClear src lane ack s
  | .laneCountersRead src lane clear => execLaneCountersRead src lane clear s
  | .modelParamLoad src typ bytes => execModelParamLoad src typ bytes s
  | .modelParamRead src typ => execModelParamRead src typ s
  | .modelAssign src port types sensors => execModelAssign src port types sensors s
  | .modelCellRead src port first count => execModelCellRead src port first count s
  | .modelStatus src lane => execModelStatus src lane s
  | .modelLearnSet src native hours => execModelLearnSet src native hours s
  | .modelLearnedRead src port => execModelLearnedRead src port s
  | .modelLearnedWrite src port bytes => execModelLearnedWrite src port bytes s
  | .modelCommit src => execModelCommit src s
  | .modelRoughCommand src target keep => execModelRoughCommand src target keep s
  | .modelPowerSet src on => execModelPowerSet src on s
  | .modelCountersRead src port clear => execModelCountersRead src port clear s
  | .soundSchedule src r => execSoundSchedule src r s
  | .soundCancel src lane set_ step => execSoundCancel src lane set_ step s
  | .soundStatus src lane => execSoundStatus src lane s
  | .soundResultRead src lane set_ step port => execSoundResultRead src lane set_ step port s
  | .springStart src lane iChg iDis cvGain maxHours => execSpringStart src lane iChg iDis cvGain maxHours s
  | .springStop src lane => execSpringStop src lane s
  | .springStatus src lane => execSpringStatus src lane s
  | .springRosterSet src share interval => execSpringRosterSet src share interval s
  | .springRosterRead src => execSpringRosterRead src s
  | .balanceConfig src lane r => execBalanceConfig src lane r s
  | .balanceStatus src lane => execBalanceStatus src lane s
  | .balanceTest src cell => execBalanceTest src cell s
  | .balanceTestRead src port => execBalanceTestRead src port s
  | .thermalLimitsSet src lane r => execThermalLimitsSet src lane r s
  | .thermalStatus src lane => execThermalStatus src lane s
  | .coolingLoopSet src loop c => execCoolingLoopSet src loop c s
  | .coolingOutputSet src out source freq safeDuty => execCoolingOutputSet src out source freq safeDuty s
  | .coolingDutySet src out duty => execCoolingDutySet src out duty s
  | .coolingStatus src loop => execCoolingStatus src loop s
  | .dieStatus src => execDieStatus src s
  | .safetyStatus src => execSafetyStatus src s
  | .safetyLimitsSet src lane ov uv plt => execSafetyLimitsSet src lane ov uv plt s
  | .safetyOcSet src lane str ph filt => execSafetyOcSet src lane str ph filt s
  | .safetyIoSet src disc fireEn masks => execSafetyIoSet src disc fireEn masks s
  | .safetyChannelSet src hb => execSafetyChannelSet src hb s
  | .safetyLinkSet src l => execSafetyLinkSet src l s
  | .safetyLinkStatus src sender link => execSafetyLinkStatus src sender link s
  | .safetyWindowSet src source n w => execSafetyWindowSet src source n w s
  | .safetyBareRock src => execSafetyBareRock src s
  | .safetyCountersRead src clear => execSafetyCountersRead src clear s
  | .netStatus src => execNetStatus src s
  | .netCountersRead src clear => execNetCountersRead src clear s
  | .berthStatus src => execBerthStatus src s
  | .estateMapLoad src entries => execEstateMapLoad src entries s
  | .estateChangePropose src p => execEstateChangePropose src p s
  | .estateChangeStatus src id => execEstateChangeStatus src id s
  | .estateChangeAbandon src id => execEstateChangeAbandon src id s
  | .roleTableRead src first count => execRoleTableRead src first count s
  | .roleResolve src role => execRoleResolve src role s
  | .tenantLoad src slot role offset bytes last => execTenantLoad src slot role offset bytes last s
  | .tenantUnload src slot => execTenantUnload src slot s
  | .tenantStop src slot => execTenantStop src slot s
  | .tenantStart src slot => execTenantStart src slot s
  | .tenantStatus src slot => execTenantStatus src slot s
  | .tenantCountersRead src slot clear => execTenantCountersRead src slot clear s
  | .graphActivate src slot n => execGraphActivate src slot n s
  | .graphDiscard src slot => execGraphDiscard src slot s
  | .graphVarRead src slot first count => execGraphVarRead src slot first count s
  | .graphGroupSet src group offset => execGraphGroupSet src group offset s
  | .graphEnginesRead src => execGraphEnginesRead src s
  | .signalRead src estate handles => execSignalRead src estate handles s
  | .signalConfig src delay refresh => execSignalConfig src delay refresh s
  | .pairRoleSet src a => execPairRoleSet src a s
  | .pairStatus src role => execPairStatus src role s
  | .pairSwapHelm src role => execPairSwapHelm src role s
  | .pairCompareSet src dutyTol outTol socTol => execPairCompareSet src dutyTol outTol socTol s
  | .pairCountersRead src role clear => execPairCountersRead src role clear s
  | .queueCreate src q k prod cons thr => execQueueCreate src q k prod cons thr s
  | .queueDestroy src q => execQueueDestroy src q s
  | .queueThresholdSet src q thr => execQueueThresholdSet src q thr s
  | .queueStatus src q => execQueueStatus src q s
  | .dmaChannelSet src ch owner prio win => execDmaChannelSet src ch owner prio win s
  | .dmaStart src ch addr => execDmaStart src ch addr s
  | .dmaDoorbell src ch => execDmaDoorbell src ch s
  | .dmaAbort src ch => execDmaAbort src ch s
  | .dmaStatus src ch => execDmaStatus src ch s
  | .dmaCountersRead src ch clear => execDmaCountersRead src ch clear s
  | .canConfig src ctl c => execCanConfig src ctl c s
  | .canFilterSet src ctl i f => execCanFilterSet src ctl i f s
  | .canSend src ctl buf abort f => execCanSend src ctl buf abort f s
  | .canReceive src ctl which max => execCanReceive src ctl which max s
  | .canRecover src ctl => execCanRecover src ctl s
  | .canStatus src ctl => execCanStatus src ctl s
  | .canTimeMasterSet src ctl on m => execCanTimeMasterSet src ctl on m s
  | .canCountersRead src ctl clear => execCanCountersRead src ctl clear s
  | .storeStatus src => execStoreStatus src s
  | .storeScrub src => execStoreScrub src s
  | .storeHoldupMeasure src => execStoreHoldupMeasure src s
  | .storeWearRead src dev => execStoreWearRead src dev s
  | .eventStatus src => execEventStatus src s
  | .eventRead src first count => execEventRead src first count s
  | .lifecycleStatus src => execLifecycleStatus src s
  | .lifecycleTurn src r => execLifecycleTurn src r s
  | .lifecycleSeal src => execLifecycleSeal src s
  | .lifecycleDecommission src serial => execLifecycleDecommission src serial s
  | .debugStatus src => execDebugStatus src s
  | .debugLevelSet src level => execDebugLevelSet src level s
  | .updateStatus src => execUpdateStatus src s
  | .updateImageWrite src offset bytes last gapOk => execUpdateImageWrite src offset bytes last gapOk s
  | .updateReboot src trial => execUpdateReboot src trial s
  | .powerStatus src => execPowerStatus src s
  | _ => .next s

/-! ## Whose turn it is (R404) -/

/-- A mailbox's place in the round: the PCIe mailboxes, the sessions, the sender berths (log entry 72). -/
def boxPlace : Path → Nat → Nat
  | .pcie, b => b
  | .service, b => 4 + b
  | .garzet, b => 2 ^ 32 + b
/-- A mailbox with what its ring holds. -/
def State.fetched (s : State) (p : Path) (b : Nat) : State := match p with | .pcie => s.ringFetch b 256 | _ => s
/-- The mailbox holds a complete request and is not executing one. -/
def State.canTake (s : State) (p : Path) (b : Nat) : Bool :=
  let x := s.box p b
  (p != .pcie || x.enable) && x.executing.isNone && x.waiting.isEmpty && (p == .service || !s.sec.recovery) && !((s.fetched p b).box p b).queue.isEmpty
/-- The mailbox served next. -/
def State.nextServed (s : State) : Option (Path × Nat) :=
  let all := ((List.range 4).map fun m => (Path.pcie, m))
    ++ (s.mbox.boxes.filter fun (x : Mailbox) => x.path != .pcie).map fun (x : Mailbox) => (x.path, x.box)
  let away (x : Path × Nat) : Nat := (boxPlace x.1 x.2 + 2 ^ 33 - 1 - s.mbox.lastServed) % 2 ^ 33
  (all.filter fun x => s.canTake x.1 x.2).foldl
    (fun (best : Option (Path × Nat)) x => match best with
      | none => some x
      | some y => if away x < away y then some x else some y) none

/-! ## The role addressed (R419) -/

/-- Commands that name a lane first: LANE, SOUND, SPRING but its ROSTER commands, BALANCE and THERMAL. -/
def namesLane (code : Nat) : Bool :=
  code / 256 == 0x0B || code / 256 == 0x0D || (code / 256 == 0x0E && decide (code % 256 ≤ 3))
  || (code / 256 == 0x0F && decide (code % 256 ≤ 3)) || code / 256 == 0x10
/-- Commands that name a slot first: TENANT and GRAPH. -/
def namesSlot (code : Nat) : Bool := code / 256 == 0x18 || (code / 256 == 0x19 && decide (code % 256 ≤ 3))
/-- Commands that may address the COORDINATOR role. -/
def forCoordinator (code : Nat) : Bool :=
  code == 0x0E04 || code == 0x0E05 || (code / 256 == 0x16 && decide (2 ≤ code % 256))
/-- The payload with its first byte standing for the lane or slot that serves the role; none where it names another. -/
def servedBy (any n : Nat) : List Byte → Option (List Byte)
  | [] => some []
  | b :: r => if b.toNat = any || b.toNat = n then some (BitVec.ofNat 8 n :: r) else none
/-- The operands of a request at the role it addresses; none where the role does not fit its command. -/
def State.atRole (s : State) (q : Request) : Option (List Byte) :=
  let n := ((s.ownRole q.targetRole).map (·.local_)).getD 256
  match roleKind q.targetRole with
  | 1 => some q.bytes
  | 2 => if namesLane q.command then servedBy 255 n q.bytes else none
  | 3 => if namesSlot q.command then servedBy 0 n q.bytes else none
  | 5 => if forCoordinator q.command then some q.bytes else none
  | _ => none

/-! ## Taking (R399, R405) -/

/-- The command that a request on a path spells, none where its payload or its role is at fault. -/
def State.spelled (s : State) (src : Source) (q : Request) : Option Instr :=
  (if src.path = .garzet then s.atRole q else some q.bytes).bind (commandOf src q.command)
/-- The status of a request whose payload is at fault: LANE.CONFIG meets an armed lane before any field (05 R137). -/
def State.malformed (s : State) (q : Request) : Nat :=
  if q.command = 0x0B01 ∧ s.anyArmed then stLaneArmed else stInvalidArg
/-- A request is checked and, where nothing is at fault, its command runs. -/
def State.serve (s : State) (src : Source) (q : Request) : Host.Outcome State Fault Refusal :=
  match q.envErr with
  | some st => done s (s.answer src q.command st [])
  | none =>
    if !isCommand q.command then done s (s.answer src q.command stUnknownCommand [])
    else match gate s src q.command with
      | .closed => .next s
      | .refused st => done s (s.answer src q.command st [])
      | .runs => match s.spelled src q with
        | none => done s (s.answer src q.command (s.malformed q) [])
        | some i => execRequested i s
/-- The next request of a mailbox is taken. -/
def State.takeRequest (s : State) (p : Path) (b : Nat) : Host.Outcome State Fault Refusal :=
  let s1 := s.fetched p b
  let x := s1.box p b
  match x.queue with
  | [] => .next s
  | q :: r =>
    let s2 := s1.setBox { x with queue := r }
    let s3 := { s2 with mbox := { s2.mbox with lastServed := boxPlace p b } }
    s3.serve { path := p, box := b, tag := q.tag, corr := q.corr, role := q.srcRole, epoch := q.srcEpoch } q
/-- REQUEST_TAKE: SVA takes a complete request of the mailbox whose turn it is. -/
def execRequestTake (t : Nat) (path : Path) (box : Nat) (s : State) : Host.Outcome State Fault Refusal :=
  let s1 := s.atTime t
  if s1.serving && s1.nextServed == some (path, box) then s1.takeRequest path box else .next s1

end Sys2Proof.Machine
end

