-- ==== Sys2Proof/Machine/Strobe.lean ====
section
/-! DEFINITION. Base, SLACK and capture instants (02 R68, R517; 03 R87, R91, R95, R103; 05 R144, R145, R160; 06 R182, R197;
07 R212, R230; 11 R330), and the work of the model engines at them (06 R172, R173). -/

namespace Sys2Proof.Machine

open Sys2Proof

/-! ## String-current strobes (03 R103, 05 R145) -/

/-- The lane's sampling instants come from the twin that holds its helm (03 R103). -/
def State.followsTwin (s : State) (n : Nat) : Bool :=
  match s.laneRole n with | none => false | some o => o.state == .standby && o.kind == .twin
/-- A period of phase 0 starts within 300 ns of a strobe (05 R145). -/
def Lane.periodNear (l : Lane) (hold : Nat) : Bool :=
  match (l.phase 0).nextAt with
  | none => false
  | some q =>
    let near (x : Rat) : Bool := decide (|x - hold| ≤ 300)
    near q || near (q - l.lastPeriodNs)
/-- The STROBE request of a lane at an instant; a PWM request within 300 ns is merged into it. -/
def State.strobeLane (s : State) (n hold tag : Nat) : State :=
  let mk (i source : Nat) : Conversion := { s.conversion (12 * n + i) source false with holdAt := hold, tag := tag }
  if (s.lane n).periodNear hold then
    s.urgentRequest (2 * n + 1) [{ mk 6 1 with also := [2] }, mk 8 2, mk 7 2]
  else s.urgentRequest (2 * n + 1) [mk 6 1]
/-- The instant of the lane that lies nearest to a position: a base instant, or a capture instant while one is prepared. -/
def State.nearestInstant (s : State) (n pos : Nat) : Nat :=
  let b := s.baseB
  let cyc := cycleOf pos
  let extra := if s.capturePrepared n then ([1, 2, 3] : List Nat).flatMap fun j =>
      (List.range b).map fun k => j * 65536 / (4 * b) + k * 65536 / b else []
  let l := ([cyc, cyc + 1].flatMap fun c => (((List.range b).map fun k => k * 65536 / b) ++ extra).map fun a => c * 65536 + a)
  let far (x : Nat) : Nat := max x pos - min x pos
  l.foldl (fun a x => if far x < far a then x else a) (cyc * 65536)
/-- HELM_HOLDER_MARK: the standby strobes a lane at the instant that the holder marks, as the mark gives it on its arrival
less the delay measured for the link (a free value, log entry 148); the mark shows that the holder drives its line (log
entry 46). -/
def execHelmHolderMark (t lane at_ : Nat) (s : State) : Host.Outcome State Fault Refusal :=
  wheneverOn (decide (lane < 8)) s t (fun z => z.tablesRun && z.followsTwin lane && decide (tget 0 z.net.helmMark lane < at_)) fun z =>
    let z1 := { z with net := { z.net with helmMark := tset z.net.helmMark lane at_ } }
    let z2 := z1.updLane lane fun l => { l with helmIn := true, helmLowSince := none }
    let hold := at_ - Config.twinDelay
    z2.strobeLane lane hold (z2.nearestInstant lane (z2.posAt hold))

/-! ## SYNCs (03 R87, R91, R95, R212) -/

/-- Send the SYNCs of a lane, each port with its own SERIAL_REQ and ECHO schedule; a port takes one SYNC for an instant. -/
def State.syncLane (s : State) (n t0 tag armedAt : Nat) (serialReq echo : Nat → Bool) : State :=
  ((s.portsOf n).filter fun p => (s.port p).synced && (s.port p).sync.all fun x => x.tag != tag).foldl
    (fun z p => z.sendSync p t0 tag armedAt (z.lane n).helmOut (serialReq p) (echo p)) s
/-- Send the SYNCs of a mask of lanes. -/
def State.syncLanes (s : State) (mask t0 tag armedAt : Nat) (serialReq echo : Nat → Bool) : State :=
  (bitsOf 8 mask).foldl (fun z n => z.syncLane n t0 tag armedAt serialReq echo) s

/-! ## Lane signals (06 R182, 07 R230) -/

/-- Publish them. -/
def State.publishModel (s : State) (n : Nat) : State :=
  let l := s.modelSignals n
  (List.range l.length).foldl (fun z i =>
    let x := l.getD i (3, none)
    z.moduleSignal (Config.moduleHandle (sgModel + i) n) x.1 x.2) s
/-- The signals of 07 R230. -/
def State.publishLane (s : State) (n : Nat) : State :=
  let out := (s.spring n).profile.isSome
  let l := s.lane n
  let w : Rat := if l.powerMode then l.ramp else l.ramp * l.vString / 1000000
  let s1 := (s.signalOf sgLaneOut n 1 (if out then 1 else 0)).moduleSignal (Config.moduleHandle sgOutW n) 4
    (if out then some (satS 32 (roundA w)) else none)
  (s1.signalOf sgSpringPhase n 3 (springPhaseCode (s.spring n).phase : Int)).moduleSignal (Config.moduleHandle sgSoundW n) 4
    ((s.laneSound n).running.map fun a => a.stepW)

/-! ## Alignment instants (05 R138, R144, R160) -/

/-- A lane enters RUN from ARMING: loops and ramp are seeded, the gates released (05 R149, R155, R160). -/
def Lane.enterRun (l : Lane) (now : Nat) : Lane :=
  let l1 := l.updPhases fun _ p => { p with
    loop := p.loop.fresh, switching := false, inFirst := false, shadowNew := false, waitY := none }
  { l1 with
    state := .run, step := 0, stepAt := now, gatesForced := false, firstPeriod := false, firstReady := false
    spB := l.spB.fresh, ramp := l.measured, mailboxCmd := none, sourceLost := true, lowRun := 0, busOutRun := 0 }
/-- LANE_RUN: step 9 of R160. A bus out of its window drops the outputs, and the lane goes to DISARMED (DEDUCED: as after a
failed precharge; the spec states no result). -/
def State.laneRun (s : State) (n : Nat) : State :=
  let l := s.lane n
  if s.busOk n then (s.setLane n (l.enterRun s.now)).event evLaneRun 1 n
  else
    let l1 := ((l.driveK 0 false s.now).driveK 1 false s.now).driveK 2 false s.now
    (s.setLane n { l1 with state := .disarmed, step := 0, stepAt := s.now, cause := trBusRange, failName := 0 }).event
      evLaneDisarmed 1 n (cause := trBusRange)
/-- What an alignment instant does to a configured lane before its samples are held. -/
def State.alignLane (s : State) (n pos : Nat) : State :=
  let ending := (s.laneSound n).steps.filter fun a => a.phase == .running && a.endAtAlign
  let s1 := ending.foldl (fun z a =>
    let z1 := z.stepEnded n a a.outcome
    if a.capture then (z1.portsOf n).foldl (fun y p => y.sendBalance p) z1 else z1) s
  let s2 := s1.updLane n fun l => match l.pendingGains with
    | none => { l with vBase := l.vString }
    | some g => { l with gains := some g, pendingGains := none, vBase := l.vString }
  let s3 := if (s2.lane n).state == .arming && (s2.lane n).step == 9 then s2.laneRun n else s2
  s3.planInterval n pos
/-- Capture instants of a lane are counted (07 R212). -/
def State.countCapture (s : State) (n pos : Nat) : State :=
  s.updLaneSound n fun x => { x with
    steps := x.steps.map fun a => if stepCaptures s.baseB pos a then { a with capCount := a.capCount + 1 } else a }
/-- The lanes of a mask that are configured. -/
def State.lanesOf (s : State) (mask : Nat) : List Nat := (bitsOf 8 mask).filter fun n => (s.lane n).cfg.isSome
/-- Strobe the lanes of a mask, those apart that follow their twin. -/
def State.strobeLanes (s : State) (mask t0 tag : Nat) : State :=
  (s.lanesOf mask).foldl (fun z n => (if z.followsTwin n then z else z.strobeLane n t0 tag).countCapture n tag) s
/-- Step 3 of 06 R198 waits for every cell's step to a later base instant. -/
def State.beachSteps (s : State) : Bool := s.power.beach.any fun b => b.stepFrom.isSome && b.stepFrom != some s.model.lastTag
/-- The models of a lane step at this base instant: in FULL always, in SLACK at SLACK instants (06 R172, R197), and at the one
that step 3 of R198 names. -/
def State.modelsStep (s : State) (n pos : Nat) : Bool :=
  ((s.portsOf n).any fun p => !(s.modelled p).isEmpty)
  && (s.power.state != .slack || s.beachSteps || (pos % 65536 == 0 && cycleOf pos % (if s.baseB = 17 then 6 else 5) == 0))
/-- A base instant (05 R144): what falls due at it, the alignment of every lane, the strobes, and in FULL the SYNCs. -/
def State.baseInstant (s : State) (a : ArmedFiring) : State :=
  let b := s.baseB
  let n := cycleOf a.pos * b + a.k
  let before := s.model.lastTag
  let s1 := { (s.applySignals a.pos) with model := { s.model with lastBase := n, lastTag := a.pos } }
  let lanes := s1.lanesOf a.content.arg0
  let s2 := lanes.foldl (fun z i => ((z.springBase i before).alignLane i a.pos).publishLane i) s1
  let s3 := s2.strobeLanes a.content.arg0 a.t0 a.pos
  let s4 := (lanes.filter fun i => !s3.modelsStep i a.pos).foldl (fun z i => (z.publishModel i).laneGeneration i a.pos []) s3
  if s4.power.state == .full then
    { (s4.syncLanes a.content.arg0 a.t0 a.pos a.armedAt (fun p => n % 1000 == 7 * p) (fun p => n % 10 == p % 10)) with
      model := { s4.model with syncTag := some a.pos } }
  else s4
/-- A SLACK instant (06 R197): the only SYNCs of SLACK, one ECHO on each port. -/
def State.slackInstant (s : State) (a : ArmedFiring) : State :=
  let m := cycleOf a.pos / (if s.baseB = 17 then 6 else 5)
  let s1 := s.syncLanes a.content.arg0 a.t0 a.pos a.armedAt (fun p => m % 10 == p % 10) fun _ => true
  { s1 with model := { s1.model with lastSlack := m, syncTag := some a.pos } }
/-- A capture instant between base instants (07 R212): SYNCs and string-current strobes of its lane. -/
def State.captureInstant (s : State) (a : ArmedFiring) : State :=
  (s.strobeLanes a.content.arg0 a.t0 a.pos).syncLanes a.content.arg0 a.t0 a.pos a.armedAt (fun _ => false) fun _ => false
/-- SAMPLE_STROBE (03 R87). -/
def execSampleStrobe (t entry : Nat) (s : State) : Host.Outcome State Fault Refusal :=
  firing entry 1 s t fun z a =>
    if entry = 8 then z.baseInstant a else if entry = 9 then z.slackInstant a else z.captureInstant a

/-! ## Model engines (06 R172, R173) -/

/-- The states of a port's cells as a capture begins are kept for the fit (07 R214). -/
def State.saveCapture (s : State) (n p tag : Nat) : State :=
  (s.modelled p).foldl (fun z c =>
    let k := cellIx p c
    z.updLaneSound n fun x => x.mapSteps fun a =>
      if stepCaptures s.baseB tag a && (tget [] a.capX k).isEmpty then { a with capX := tset a.capX k (z.cell k).x } else a) s
/-- The engine of a port has not yet stepped at the latest base instant. -/
def State.stepDue (s : State) (p : Nat) : Bool :=
  !(s.modelled p).isEmpty && tget none s.model.stepped p != some s.model.lastTag
/-- With the last model engine of the module at the base instant that step 3 of 06 R198 waits for, the beaching commit is asked
for. -/
def State.beachCommit (s : State) : State :=
  if s.beachSteps && s.modelledPorts.all (fun p => (s.laneOfPort p).isNone || !s.stepDue p) then
    let b := s.power.beach.map fun x => { x with stepFrom := none }
    { s with power := { s.power with beach := b } }.requestCommit true
  else s
/-- A reader of the 8 latest instants of a port finds the one it wants gone: it is older than all of them (01 R37). -/
def Port.goneAt (x : Port) (tag : Nat) : Bool := x.ring.length == 8 && x.ring.all fun f => decide (tag < f.tag)
/-- MODEL_STEP: a model engine's work at an instant; with the last engine of a lane its signals are published, and its mirror
generation goes out (06 R182, 12 R357). An engine that is more than 7 instants behind its port's frames counts a sample
overrun (01 R37). -/
def execModelStep (t port : Nat) (s : State) : Host.Outcome State Fault Refusal :=
  wheneverOn (decide (port < 128)) s t
    (fun z => z.tablesRun && z.stepDue port && (match z.laneOfPort port with
      | none => false | some n => z.modelsStep n z.model.lastTag)) fun z =>
    match z.laneOfPort port with
    | none => z
    | some n =>
      let tag := z.model.lastTag
      let z0 := if (z.port port).goneAt tag then
          z.updPort port fun x => { x with counters := { x.counters with overruns := inc64 x.counters.overruns } } else z
      let z1 := z0.stepPort n port
      let z2 := ({ z1 with model := { z1.model with stepped := tset z1.model.stepped port (some tag) } }).saveCapture n port tag
      if (z2.portsOf n).any fun p => z2.stepDue p then z2
      else
        let cells := (z2.portsOf n).flatMap fun p => ((z2.modelled p).map (cellIx p)).filter fun k => (z2.cell k).updAt == some tag
        ((z2.publishModel n).laneGeneration n tag cells).beachCommit

end Sys2Proof.Machine
end

