-- ==== Sys2Proof/Machine/Dispatch.lean ====
section
/-! DEFINITION. One arm for each constructor of `Instr`, each a direct call of its meaning. -/

namespace Sys2Proof.Machine

def exec (i : Instr) (s : State) : Host.Outcome State Fault Refusal :=
  match i with
  | .moduleIdentify src => Sys2Proof.Machine.execModuleIdentify src s
  | .moduleStatus src => Sys2Proof.Machine.execModuleStatus src s
  | .moduleBeach src => Sys2Proof.Machine.execModuleBeach src s
  | .modulePart src => Sys2Proof.Machine.execModulePart src s
  | .moduleRestart src => Sys2Proof.Machine.execModuleRestart src s
  | .mboxNop src data => Sys2Proof.Machine.execMboxNop src data s
  | .mboxStatus src => Sys2Proof.Machine.execMboxStatus src s
  | .mboxCountersRead src clear => Sys2Proof.Machine.execMboxCountersRead src clear s
  | .timeStatus src => Sys2Proof.Machine.execTimeStatus src s
  | .timeServoSet src p => Sys2Proof.Machine.execTimeServoSet src p s
  | .timeTriggerSet src output mode start period width => Sys2Proof.Machine.execTimeTriggerSet src output mode start period width s
  | .timeCaptureRead src input max => Sys2Proof.Machine.execTimeCaptureRead src input max s
  | .tideStatus src => Sys2Proof.Machine.execTideStatus src s
  | .tideEntrySet src entry w => Sys2Proof.Machine.execTideEntrySet src entry w s
  | .tideEntryRead src entry => Sys2Proof.Machine.execTideEntryRead src entry s
  | .lighthouseConfig src c => Sys2Proof.Machine.execLighthouseConfig src c s
  | .tapStatus src port => Sys2Proof.Machine.execTapStatus src port s
  | .tapTrimSet src port asym => Sys2Proof.Machine.execTapTrimSet src port asym s
  | .tapLimitsSet src target ov uv ot cells temps => Sys2Proof.Machine.execTapLimitsSet src target ov uv ot cells temps s
  | .tapRetrain src port => Sys2Proof.Machine.execTapRetrain src port s
  | .tapCountersRead src port clear => Sys2Proof.Machine.execTapCountersRead src port clear s
  | .analogInputSet src input cls scale handle => Sys2Proof.Machine.execAnalogInputSet src input cls scale handle s
  | .analogTableSet src conv table entries queue => Sys2Proof.Machine.execAnalogTableSet src conv table entries queue s
  | .analogTableStart src conv table => Sys2Proof.Machine.execAnalogTableStart src conv table s
  | .analogConvert src input urgent => Sys2Proof.Machine.execAnalogConvert src input urgent s
  | .analogRead src inputs => Sys2Proof.Machine.execAnalogRead src inputs s
  | .analogCalPoint src target full value => Sys2Proof.Machine.execAnalogCalPoint src target full value s
  | .analogCalCommit src inputs icvs all => Sys2Proof.Machine.execAnalogCalCommit src inputs icvs all s
  | .analogCalRead src target => Sys2Proof.Machine.execAnalogCalRead src target s
  | .analogCountersRead src conv clear => Sys2Proof.Machine.execAnalogCountersRead src conv clear s
  | .icvStatus src lane => Sys2Proof.Machine.execIcvStatus src lane s
  | .icvReset src lane => Sys2Proof.Machine.execIcvReset src lane s
  | .dacConfig src out source safeCode range => Sys2Proof.Machine.execDacConfig src out source safeCode range s
  | .dacSet src out range code => Sys2Proof.Machine.execDacSet src out range code s
  | .tachConfig src input falling pair ppr filter standstill => Sys2Proof.Machine.execTachConfig src input falling pair ppr filter standstill s
  | .tachRead src inputs => Sys2Proof.Machine.execTachRead src inputs s
  | .laneConfig src lane c => Sys2Proof.Machine.execLaneConfig src lane c s
  | .laneLoopSet src lane g => Sys2Proof.Machine.execLaneLoopSet src lane g s
  | .laneArm src lane => Sys2Proof.Machine.execLaneArm src lane s
  | .laneDisarm src lane => Sys2Proof.Machine.execLaneDisarm src lane s
  | .laneSetpoint src lane v => Sys2Proof.Machine.execLaneSetpoint src lane v s
  | .laneStatus src lane => Sys2Proof.Machine.execLaneStatus src lane s
  | .laneFaultClear src lane ack => Sys2Proof.Machine.execLaneFaultClear src lane ack s
  | .laneCountersRead src lane clear => Sys2Proof.Machine.execLaneCountersRead src lane clear s
  | .modelParamLoad src typ bytes => Sys2Proof.Machine.execModelParamLoad src typ bytes s
  | .modelParamRead src typ => Sys2Proof.Machine.execModelParamRead src typ s
  | .modelAssign src port types sensors => Sys2Proof.Machine.execModelAssign src port types sensors s
  | .modelCellRead src port first count => Sys2Proof.Machine.execModelCellRead src port first count s
  | .modelStatus src lane => Sys2Proof.Machine.execModelStatus src lane s
  | .modelLearnSet src native hours => Sys2Proof.Machine.execModelLearnSet src native hours s
  | .modelLearnedRead src port => Sys2Proof.Machine.execModelLearnedRead src port s
  | .modelLearnedWrite src port bytes => Sys2Proof.Machine.execModelLearnedWrite src port bytes s
  | .modelCommit src => Sys2Proof.Machine.execModelCommit src s
  | .modelRoughCommand src target keep => Sys2Proof.Machine.execModelRoughCommand src target keep s
  | .modelPowerSet src on => Sys2Proof.Machine.execModelPowerSet src on s
  | .modelCountersRead src port clear => Sys2Proof.Machine.execModelCountersRead src port clear s
  | .soundSchedule src r => Sys2Proof.Machine.execSoundSchedule src r s
  | .soundCancel src lane set_ step => Sys2Proof.Machine.execSoundCancel src lane set_ step s
  | .soundStatus src lane => Sys2Proof.Machine.execSoundStatus src lane s
  | .soundResultRead src lane set_ step port => Sys2Proof.Machine.execSoundResultRead src lane set_ step port s
  | .springStart src lane iChg iDis cvGain maxHours => Sys2Proof.Machine.execSpringStart src lane iChg iDis cvGain maxHours s
  | .springStop src lane => Sys2Proof.Machine.execSpringStop src lane s
  | .springStatus src lane => Sys2Proof.Machine.execSpringStatus src lane s
  | .springRosterSet src share interval => Sys2Proof.Machine.execSpringRosterSet src share interval s
  | .springRosterRead src => Sys2Proof.Machine.execSpringRosterRead src s
  | .balanceConfig src lane r => Sys2Proof.Machine.execBalanceConfig src lane r s
  | .balanceStatus src lane => Sys2Proof.Machine.execBalanceStatus src lane s
  | .balanceTest src cell => Sys2Proof.Machine.execBalanceTest src cell s
  | .balanceTestRead src port => Sys2Proof.Machine.execBalanceTestRead src port s
  | .thermalLimitsSet src lane r => Sys2Proof.Machine.execThermalLimitsSet src lane r s
  | .thermalStatus src lane => Sys2Proof.Machine.execThermalStatus src lane s
  | .coolingLoopSet src loop c => Sys2Proof.Machine.execCoolingLoopSet src loop c s
  | .coolingOutputSet src out source freq safeDuty => Sys2Proof.Machine.execCoolingOutputSet src out source freq safeDuty s
  | .coolingDutySet src out duty => Sys2Proof.Machine.execCoolingDutySet src out duty s
  | .coolingStatus src loop => Sys2Proof.Machine.execCoolingStatus src loop s
  | .dieStatus src => Sys2Proof.Machine.execDieStatus src s
  | .safetyStatus src => Sys2Proof.Machine.execSafetyStatus src s
  | .safetyLimitsSet src lane ov uv plt => Sys2Proof.Machine.execSafetyLimitsSet src lane ov uv plt s
  | .safetyOcSet src lane str ph filt => Sys2Proof.Machine.execSafetyOcSet src lane str ph filt s
  | .safetyIoSet src disc fireEn masks => Sys2Proof.Machine.execSafetyIoSet src disc fireEn masks s
  | .safetyChannelSet src hb => Sys2Proof.Machine.execSafetyChannelSet src hb s
  | .safetyLinkSet src l => Sys2Proof.Machine.execSafetyLinkSet src l s
  | .safetyLinkStatus src sender link => Sys2Proof.Machine.execSafetyLinkStatus src sender link s
  | .safetyWindowSet src source n w => Sys2Proof.Machine.execSafetyWindowSet src source n w s
  | .safetyBareRock src => Sys2Proof.Machine.execSafetyBareRock src s
  | .safetyCountersRead src clear => Sys2Proof.Machine.execSafetyCountersRead src clear s
  | .netStatus src => Sys2Proof.Machine.execNetStatus src s
  | .netCountersRead src clear => Sys2Proof.Machine.execNetCountersRead src clear s
  | .berthStatus src => Sys2Proof.Machine.execBerthStatus src s
  | .estateMapLoad src entries => Sys2Proof.Machine.execEstateMapLoad src entries s
  | .estateChangePropose src p => Sys2Proof.Machine.execEstateChangePropose src p s
  | .estateChangeStatus src id => Sys2Proof.Machine.execEstateChangeStatus src id s
  | .estateChangeAbandon src id => Sys2Proof.Machine.execEstateChangeAbandon src id s
  | .roleTableRead src first count => Sys2Proof.Machine.execRoleTableRead src first count s
  | .roleResolve src role => Sys2Proof.Machine.execRoleResolve src role s
  | .tenantLoad src slot role offset bytes last => Sys2Proof.Machine.execTenantLoad src slot role offset bytes last s
  | .tenantUnload src slot => Sys2Proof.Machine.execTenantUnload src slot s
  | .tenantStop src slot => Sys2Proof.Machine.execTenantStop src slot s
  | .tenantStart src slot => Sys2Proof.Machine.execTenantStart src slot s
  | .tenantStatus src slot => Sys2Proof.Machine.execTenantStatus src slot s
  | .tenantCountersRead src slot clear => Sys2Proof.Machine.execTenantCountersRead src slot clear s
  | .graphActivate src slot n => Sys2Proof.Machine.execGraphActivate src slot n s
  | .graphDiscard src slot => Sys2Proof.Machine.execGraphDiscard src slot s
  | .graphVarRead src slot first count => Sys2Proof.Machine.execGraphVarRead src slot first count s
  | .graphGroupSet src group offset => Sys2Proof.Machine.execGraphGroupSet src group offset s
  | .graphEnginesRead src => Sys2Proof.Machine.execGraphEnginesRead src s
  | .signalRead src estate handles => Sys2Proof.Machine.execSignalRead src estate handles s
  | .signalConfig src delay refresh => Sys2Proof.Machine.execSignalConfig src delay refresh s
  | .pairRoleSet src a => Sys2Proof.Machine.execPairRoleSet src a s
  | .pairStatus src role => Sys2Proof.Machine.execPairStatus src role s
  | .pairSwapHelm src role => Sys2Proof.Machine.execPairSwapHelm src role s
  | .pairCompareSet src dutyTol outTol socTol => Sys2Proof.Machine.execPairCompareSet src dutyTol outTol socTol s
  | .pairCountersRead src role clear => Sys2Proof.Machine.execPairCountersRead src role clear s
  | .queueCreate src q k prod cons thr => Sys2Proof.Machine.execQueueCreate src q k prod cons thr s
  | .queueDestroy src q => Sys2Proof.Machine.execQueueDestroy src q s
  | .queueThresholdSet src q thr => Sys2Proof.Machine.execQueueThresholdSet src q thr s
  | .queueStatus src q => Sys2Proof.Machine.execQueueStatus src q s
  | .dmaChannelSet src ch owner prio win => Sys2Proof.Machine.execDmaChannelSet src ch owner prio win s
  | .dmaStart src ch addr => Sys2Proof.Machine.execDmaStart src ch addr s
  | .dmaDoorbell src ch => Sys2Proof.Machine.execDmaDoorbell src ch s
  | .dmaAbort src ch => Sys2Proof.Machine.execDmaAbort src ch s
  | .dmaStatus src ch => Sys2Proof.Machine.execDmaStatus src ch s
  | .dmaCountersRead src ch clear => Sys2Proof.Machine.execDmaCountersRead src ch clear s
  | .canConfig src ctl c => Sys2Proof.Machine.execCanConfig src ctl c s
  | .canFilterSet src ctl k f => Sys2Proof.Machine.execCanFilterSet src ctl k f s
  | .canSend src ctl buf abort f => Sys2Proof.Machine.execCanSend src ctl buf abort f s
  | .canReceive src ctl which max => Sys2Proof.Machine.execCanReceive src ctl which max s
  | .canRecover src ctl => Sys2Proof.Machine.execCanRecover src ctl s
  | .canStatus src ctl => Sys2Proof.Machine.execCanStatus src ctl s
  | .canTimeMasterSet src ctl on m => Sys2Proof.Machine.execCanTimeMasterSet src ctl on m s
  | .canCountersRead src ctl clear => Sys2Proof.Machine.execCanCountersRead src ctl clear s
  | .storeStatus src => Sys2Proof.Machine.execStoreStatus src s
  | .storeScrub src => Sys2Proof.Machine.execStoreScrub src s
  | .storeHoldupMeasure src => Sys2Proof.Machine.execStoreHoldupMeasure src s
  | .storeWearRead src dev => Sys2Proof.Machine.execStoreWearRead src dev s
  | .eventStatus src => Sys2Proof.Machine.execEventStatus src s
  | .eventRead src first count => Sys2Proof.Machine.execEventRead src first count s
  | .lifecycleStatus src => Sys2Proof.Machine.execLifecycleStatus src s
  | .lifecycleTurn src r => Sys2Proof.Machine.execLifecycleTurn src r s
  | .lifecycleSeal src => Sys2Proof.Machine.execLifecycleSeal src s
  | .lifecycleDecommission src serial => Sys2Proof.Machine.execLifecycleDecommission src serial s
  | .debugStatus src => Sys2Proof.Machine.execDebugStatus src s
  | .debugLevelSet src level => Sys2Proof.Machine.execDebugLevelSet src level s
  | .updateStatus src => Sys2Proof.Machine.execUpdateStatus src s
  | .updateImageWrite src offset bytes last gapOk => Sys2Proof.Machine.execUpdateImageWrite src offset bytes last gapOk s
  | .updateReboot src trial => Sys2Proof.Machine.execUpdateReboot src trial s
  | .powerStatus src => Sys2Proof.Machine.execPowerStatus src s
  | .intStatusWrite t v => Sys2Proof.Machine.execIntStatusWrite t v s
  | .mailboxEnableWrite t m on => Sys2Proof.Machine.execMailboxEnableWrite t m on s
  | .mailboxResetWrite t m => Sys2Proof.Machine.execMailboxResetWrite t m s
  | .timeLoRead t => Sys2Proof.Machine.execTimeLoRead t s
  | .queueDoorbellPi t q v => Sys2Proof.Machine.execQueueDoorbellPi t q v s
  | .queueDoorbellCi t q v => Sys2Proof.Machine.execQueueDoorbellCi t q v s
  | .channelDoorbellRing t c => Sys2Proof.Machine.execChannelDoorbellRing t c s
  | .channelDoorbellAbort t c => Sys2Proof.Machine.execChannelDoorbellAbort t c s
  | .queueNoticePendingWrite t word v => Sys2Proof.Machine.execQueueNoticePendingWrite t word v s
  | .bar2Access t write offset data len => Sys2Proof.Machine.execBar2Access t write offset data len s
  | .registerWrite t offset v size => Sys2Proof.Machine.execRegisterWrite t offset v size s
  | .pcieFunctionReset t => Sys2Proof.Machine.execPcieFunctionReset t s
  | .requestTake t path box => Sys2Proof.Machine.execRequestTake t path box s
  | .respRoom t m => Sys2Proof.Machine.execRespRoom t m s
  | .serviceMessage t session bytes => Sys2Proof.Machine.execServiceMessage t session bytes s
  | .mailboxClose t berth => Sys2Proof.Machine.execMailboxClose t berth s
  | .requestTimeout t corr => Sys2Proof.Machine.execRequestTimeout t corr s
  | .heartbeat t => Sys2Proof.Machine.execHeartbeat t s
  | .ptpSync t lan m => Sys2Proof.Machine.execPtpSync t lan m s
  | .ptpAnnounce t lan a => Sys2Proof.Machine.execPtpAnnounce t lan a s
  | .ptpDelayResp t lan m => Sys2Proof.Machine.execPtpDelayResp t lan m s
  | .ptpSyncSend t lan insertOk => Sys2Proof.Machine.execPtpSyncSend t lan insertOk s
  | .servoLocked t => Sys2Proof.Machine.execServoLocked t s
  | .servoOutliers t => Sys2Proof.Machine.execServoOutliers t s
  | .masterLost t => Sys2Proof.Machine.execMasterLost t s
  | .timeDisagree t => Sys2Proof.Machine.execTimeDisagree t s
  | .lighthouseSample t inst lane => Sys2Proof.Machine.execLighthouseSample t inst lane s
  | .pllLock t => Sys2Proof.Machine.execPllLock t s
  | .pllUnlock t => Sys2Proof.Machine.execPllUnlock t s
  | .tidePublish t => Sys2Proof.Machine.execTidePublish t s
  | .tideMessage t lan bytes => Sys2Proof.Machine.execTideMessage t lan bytes s
  | .lighthouseDisagree t => Sys2Proof.Machine.execLighthouseDisagree t s
  | .instanceReturn t => Sys2Proof.Machine.execInstanceReturn t s
  | .instanceSilent t k => Sys2Proof.Machine.execInstanceSilent t k s
  | .correctionEnd t => Sys2Proof.Machine.execCorrectionEnd t s
  | .tideRecount t => Sys2Proof.Machine.execTideRecount t s
  | .tideFiringArmed t entry k pos => Sys2Proof.Machine.execTideFiringArmed t entry k pos s
  | .sampleStrobe t entry => Sys2Proof.Machine.execSampleStrobe t entry s
  | .sarSequence t entry => Sys2Proof.Machine.execSarSequence t entry s
  | .icvWindow t entry => Sys2Proof.Machine.execIcvWindow t entry s
  | .soundingStep t entry => Sys2Proof.Machine.execSoundingStep t entry s
  | .graphCycle t entry => Sys2Proof.Machine.execGraphCycle t entry s
  | .modeChange t entry => Sys2Proof.Machine.execModeChange t entry s
  | .triggerOut t entry => Sys2Proof.Machine.execTriggerOut t entry s
  | .triggerTimePulse t out => Sys2Proof.Machine.execTriggerTimePulse t out s
  | .pulseEnd t out => Sys2Proof.Machine.execPulseEnd t out s
  | .tsinCapture t input rising widthNs => Sys2Proof.Machine.execTsinCapture t input rising widthNs s
  | .tapData t port rx => Sys2Proof.Machine.execTapData t port rx s
  | .tapHello t port rx => Sys2Proof.Machine.execTapHello t port rx s
  | .tapEchoReply t port rx => Sys2Proof.Machine.execTapEchoReply t port rx s
  | .alignLost t port => Sys2Proof.Machine.execAlignLost t port s
  | .alignRegained t port => Sys2Proof.Machine.execAlignRegained t port s
  | .alignLostRetrain t port => Sys2Proof.Machine.execAlignLostRetrain t port s
  | .tapAck t port rx => Sys2Proof.Machine.execTapAck t port rx s
  | .tapFrameError t port rx => Sys2Proof.Machine.execTapFrameError t port rx s
  | .missedFrame t port => Sys2Proof.Machine.execMissedFrame t port s
  | .tapStall t port => Sys2Proof.Machine.execTapStall t port s
  | .commandWindow t port => Sys2Proof.Machine.execCommandWindow t port s
  | .trainingAttempt t port => Sys2Proof.Machine.execTrainingAttempt t port s
  | .trainingTimeout t port => Sys2Proof.Machine.execTrainingTimeout t port s
  | .trainingRetry t port => Sys2Proof.Machine.execTrainingRetry t port s
  | .helmHolderMark t lane at_ => Sys2Proof.Machine.execHelmHolderMark t lane at_ s
  | .conversionComplete t conv code => Sys2Proof.Machine.execConversionComplete t conv code s
  | .tableRunEnd t conv => Sys2Proof.Machine.execTableRunEnd t conv s
  | .calPointResult t target => Sys2Proof.Machine.execCalPointResult t target s
  | .icvWord t lane count => Sys2Proof.Machine.execIcvWord t lane count s
  | .beachedBusConversion t lane code => Sys2Proof.Machine.execBeachedBusConversion t lane code s
  | .dacRangeSettle t out => Sys2Proof.Machine.execDacRangeSettle t out s
  | .tachEdge t input pulse => Sys2Proof.Machine.execTachEdge t input pulse s
  | .standstill t input => Sys2Proof.Machine.execStandstill t input s
  | .pwmPeriodStart t lane phase => Sys2Proof.Machine.execPwmPeriodStart t lane phase s
  | .loopSampleLost t lane => Sys2Proof.Machine.execLoopSampleLost t lane s
  | .busRange t lane => Sys2Proof.Machine.execBusRange t lane s
  | .armSequenceStep t lane => Sys2Proof.Machine.execArmSequenceStep t lane s
  | .prechargeShort t lane => Sys2Proof.Machine.execPrechargeShort t lane s
  | .disarmSequenceStep t lane => Sys2Proof.Machine.execDisarmSequenceStep t lane s
  | .disarmForced t lane => Sys2Proof.Machine.execDisarmForced t lane s
  | .decayCheck t lane => Sys2Proof.Machine.execDecayCheck t lane s
  | .contactorFeedback t lane k closed => Sys2Proof.Machine.execContactorFeedback t lane k closed s
  | .contactorMismatch t lane k => Sys2Proof.Machine.execContactorMismatch t lane k s
  | .weldCheck t lane => Sys2Proof.Machine.execWeldCheck t lane s
  | .loopItem t lane item => Sys2Proof.Machine.execLoopItem t lane item s
  | .modelStep t port => Sys2Proof.Machine.execModelStep t port s
  | .modelDiverged t port cell => Sys2Proof.Machine.execModelDiverged t port cell s
  | .modelLimitsStale t port => Sys2Proof.Machine.execModelLimitsStale t port s
  | .openCircuitEstimate t port cell => Sys2Proof.Machine.execOpenCircuitEstimate t port cell s
  | .laneRest t lane => Sys2Proof.Machine.execLaneRest t lane s
  | .commitInterval t => Sys2Proof.Machine.execCommitInterval t s
  | .commitDone t ok => Sys2Proof.Machine.execCommitDone t ok s
  | .slackEnter t => Sys2Proof.Machine.execSlackEnter t s
  | .slackExit t => Sys2Proof.Machine.execSlackExit t s
  | .roleDropped t role => Sys2Proof.Machine.execRoleDropped t role s
  | .beachedAt t => Sys2Proof.Machine.execBeachedAt t s
  | .refloat t byInput rose => Sys2Proof.Machine.execRefloat t byInput rose s
  | .refloated t => Sys2Proof.Machine.execRefloated t s
  | .soundReadySend t lane => Sys2Proof.Machine.execSoundReadySend t lane s
  | .soundReady t lan h m => Sys2Proof.Machine.execSoundReady t lan h m s
  | .soundActive t lan h m => Sys2Proof.Machine.execSoundActive t lan h m s
  | .soundEnd t lan h m => Sys2Proof.Machine.execSoundEnd t lan h m s
  | .soundDecision t lane => Sys2Proof.Machine.execSoundDecision t lane s
  | .soundAlone t lane => Sys2Proof.Machine.execSoundAlone t lane s
  | .soundStepLeave t lane => Sys2Proof.Machine.execSoundStepLeave t lane s
  | .captureEnd t lane => Sys2Proof.Machine.execCaptureEnd t lane s
  | .soundFit t lane => Sys2Proof.Machine.execSoundFit t lane s
  | .soundSetClose t lane => Sys2Proof.Machine.execSoundSetClose t lane s
  | .springPhaseEnd t lane => Sys2Proof.Machine.execSpringPhaseEnd t lane s
  | .springTaperEnd t lane => Sys2Proof.Machine.execSpringTaperEnd t lane s
  | .springEndpoint t lane => Sys2Proof.Machine.execSpringEndpoint t lane s
  | .springInterrupted t lane => Sys2Proof.Machine.execSpringInterrupted t lane s
  | .springPortLost t lane => Sys2Proof.Machine.execSpringPortLost t lane s
  | .springTimeout t lane => Sys2Proof.Machine.execSpringTimeout t lane s
  | .springGrant t => Sys2Proof.Machine.execSpringGrant t s
  | .balancePlan t lane => Sys2Proof.Machine.execBalancePlan t lane s
  | .balanceRepeat t port => Sys2Proof.Machine.execBalanceRepeat t port s
  | .switchTestStart t port cell => Sys2Proof.Machine.execSwitchTestStart t port cell s
  | .switchTestStep t port => Sys2Proof.Machine.execSwitchTestStep t port s
  | .balTestOverdue t port cell => Sys2Proof.Machine.execBalTestOverdue t port cell s
  | .temperatureSample t lane => Sys2Proof.Machine.execTemperatureSample t lane s
  | .thermalPrecursor t port sensor => Sys2Proof.Machine.execThermalPrecursor t port sensor s
  | .tempSensorLost t port sensor => Sys2Proof.Machine.execTempSensorLost t port sensor s
  | .coolingLoopUpdate t loop => Sys2Proof.Machine.execCoolingLoopUpdate t loop s
  | .coolingLost t loop => Sys2Proof.Machine.execCoolingLost t loop s
  | .coolingRestored t loop => Sys2Proof.Machine.execCoolingRestored t loop s
  | .dieReading t raw reading => Sys2Proof.Machine.execDieReading t raw reading s
  | .dieEnforce t => Sys2Proof.Machine.execDieEnforce t s
  | .dieSensorBroken t => Sys2Proof.Machine.execDieSensorBroken t s
  | .dieRelease t => Sys2Proof.Machine.execDieRelease t s
  | .lockstepMismatch t sfb => Sys2Proof.Machine.execLockstepMismatch t sfb s
  | .crossWatchdog t sfb => Sys2Proof.Machine.execCrossWatchdog t sfb s
  | .configCrcCheck t ok => Sys2Proof.Machine.execConfigCrcCheck t ok s
  | .safetyCoreReset t => Sys2Proof.Machine.execSafetyCoreReset t s
  | .overcurrentTrip t lane comp value => Sys2Proof.Machine.execOvercurrentTrip t lane comp value s
  | .comparatorRelease t lane comp => Sys2Proof.Machine.execComparatorRelease t lane comp s
  | .thresholdReadback t lane comp code => Sys2Proof.Machine.execThresholdReadback t lane comp code s
  | .portDerate t lane => Sys2Proof.Machine.execPortDerate t lane s
  | .portLost t lane => Sys2Proof.Machine.execPortLost t lane s
  | .estop t channelB => Sys2Proof.Machine.execEstop t channelB s
  | .estopDiscrepancy t => Sys2Proof.Machine.execEstopDiscrepancy t s
  | .estopRecovered t => Sys2Proof.Machine.execEstopRecovered t s
  | .fire t => Sys2Proof.Machine.execFire t s
  | .safeOutFault t out => Sys2Proof.Machine.execSafeOutFault t out s
  | .clearEdge t lowNs highNs => Sys2Proof.Machine.execClearEdge t lowNs highNs s
  | .clearStuck t rose => Sys2Proof.Machine.execClearStuck t rose s
  | .safeHeartbeat t due => Sys2Proof.Machine.execSafeHeartbeat t due s
  | .safeFrame t lan bytes => Sys2Proof.Machine.execSafeFrame t lan bytes s
  | .skewExpiry t berth link => Sys2Proof.Machine.execSkewExpiry t berth link s
  | .safeLinkWatchdog t berth link => Sys2Proof.Machine.execSafeLinkWatchdog t berth link s
  | .lanDown t lan linkLoss => Sys2Proof.Machine.execLanDown t lan linkLoss s
  | .lanUp t lan => Sys2Proof.Machine.execLanUp t lan s
  | .eccCorrected t sram object => Sys2Proof.Machine.execEccCorrected t sram object s
  | .uncorrectableError t u => Sys2Proof.Machine.execUncorrectableError t u s
  | .supervisorWatchdog t core => Sys2Proof.Machine.execSupervisorWatchdog t core s
  | .bareRockStrobe t => Sys2Proof.Machine.execBareRockStrobe t s
  | .bareRockExit t => Sys2Proof.Machine.execBareRockExit t s
  | .lldpdu t lan id => Sys2Proof.Machine.execLldpdu t lan id s
  | .lldpSend t lan => Sys2Proof.Machine.execLldpSend t lan s
  | .berthDerivation t => Sys2Proof.Machine.execBerthDerivation t s
  | .berthDuplicate t => Sys2Proof.Machine.execBerthDuplicate t s
  | .garzetFormatErr t frame => Sys2Proof.Machine.execGarzetFormatErr t frame s
  | .garzetMailbox t lan h bytes => Sys2Proof.Machine.execGarzetMailbox t lan h bytes s
  | .garzetMailboxReply t lan h bytes => Sys2Proof.Machine.execGarzetMailboxReply t lan h bytes s
  | .garzetAck t lan h => Sys2Proof.Machine.execGarzetAck t lan h s
  | .garzetRoleMoved t lan h m => Sys2Proof.Machine.execGarzetRoleMoved t lan h m s
  | .garzetAnnounce t lan h m => Sys2Proof.Machine.execGarzetAnnounce t lan h m s
  | .garzetSignal t lan h m => Sys2Proof.Machine.execGarzetSignal t lan h m s
  | .garzetPropose t lan h m => Sys2Proof.Machine.execGarzetPropose t lan h m s
  | .garzetProposeAck t lan h id result => Sys2Proof.Machine.execGarzetProposeAck t lan h id result s
  | .garzetCommit t lan h id n => Sys2Proof.Machine.execGarzetCommit t lan h id n s
  | .garzetAbandon t lan h id reason => Sys2Proof.Machine.execGarzetAbandon t lan h id reason s
  | .garzetReport t lan h m => Sys2Proof.Machine.execGarzetReport t lan h m s
  | .garzetFallBack t lan h id m => Sys2Proof.Machine.execGarzetFallBack t lan h id m s
  | .retransmit t peer seq => Sys2Proof.Machine.execRetransmit t peer seq s
  | .noAck t peer seq => Sys2Proof.Machine.execNoAck t peer seq s
  | .gapSkipped t peer => Sys2Proof.Machine.execGapSkipped t peer s
  | .pathDown t berth lan => Sys2Proof.Machine.execPathDown t berth lan s
  | .pathUp t berth lan => Sys2Proof.Machine.execPathUp t berth lan s
  | .announceSend t => Sys2Proof.Machine.execAnnounceSend t s
  | .roleAgeOut t key => Sys2Proof.Machine.execRoleAgeOut t key s
  | .changeDecision t id => Sys2Proof.Machine.execChangeDecision t id s
  | .changeRound t id => Sys2Proof.Machine.execChangeRound t id s
  | .changeMemberClose t id => Sys2Proof.Machine.execChangeMemberClose t id s
  | .coordinatorTakeover t roster reports => Sys2Proof.Machine.execCoordinatorTakeover t roster reports s
  | .graphCycleComplete t slot r => Sys2Proof.Machine.execGraphCycleComplete t slot r s
  | .cycleBudget t slot => Sys2Proof.Machine.execCycleBudget t slot s
  | .tenantFault t slot => Sys2Proof.Machine.execTenantFault t slot s
  | .engineFault t engine => Sys2Proof.Machine.execEngineFault t engine s
  | .signalRefresh t slot => Sys2Proof.Machine.execSignalRefresh t slot s
  | .signalStale t handle => Sys2Proof.Machine.execSignalStale t handle s
  | .roleTake t role => Sys2Proof.Machine.execRoleTake t role s
  | .helmInFall t lane => Sys2Proof.Machine.execHelmInFall t lane s
  | .helmRaise t lane => Sys2Proof.Machine.execHelmRaise t lane s
  | .helmConflict t lane => Sys2Proof.Machine.execHelmConflict t lane s
  | .helmRetry t lane => Sys2Proof.Machine.execHelmRetry t lane s
  | .takeover t role => Sys2Proof.Machine.execTakeover t role s
  | .spindleLate t lane => Sys2Proof.Machine.execSpindleLate t lane s
  | .modelEngineLate t port => Sys2Proof.Machine.execModelEngineLate t port s
  | .helmKeep t link h m => Sys2Proof.Machine.execHelmKeep t link h m s
  | .keepCheck t role p => Sys2Proof.Machine.execKeepCheck t role p s
  | .helmRelease t link h m => Sys2Proof.Machine.execHelmRelease t link h m s
  | .helmTakenReceived t link h m => Sys2Proof.Machine.execHelmTakenReceived t link h m s
  | .helmSwapRequest t link h m => Sys2Proof.Machine.execHelmSwapRequest t link h m s
  | .helmSwapReady t link h m => Sys2Proof.Machine.execHelmSwapReady t link h m s
  | .helmTestStart t link h m => Sys2Proof.Machine.execHelmTestStart t link h m s
  | .selfTest t role pass => Sys2Proof.Machine.execSelfTest t role pass s
  | .helmTestResult t link h m => Sys2Proof.Machine.execHelmTestResult t link h m s
  | .testResultTimeout t role => Sys2Proof.Machine.execTestResultTimeout t role s
  | .backgroundTest t role pass => Sys2Proof.Machine.execBackgroundTest t role pass s
  | .helmFullRequest t link h m => Sys2Proof.Machine.execHelmFullRequest t link h m s
  | .fullRequestSend t role => Sys2Proof.Machine.execFullRequestSend t role s
  | .garzetMirror t link h m => Sys2Proof.Machine.execGarzetMirror t link h m s
  | .mirrorStale t role => Sys2Proof.Machine.execMirrorStale t role s
  | .inSync t role => Sys2Proof.Machine.execInSync t role s
  | .twinLaneDown t k => Sys2Proof.Machine.execTwinLaneDown t k s
  | .descriptorFetch t ch hostBytes => Sys2Proof.Machine.execDescriptorFetch t ch hostBytes s
  | .dmaBurstGrant t ch data busErr => Sys2Proof.Machine.execDmaBurstGrant t ch data busErr s
  | .descriptorComplete t ch => Sys2Proof.Machine.execDescriptorComplete t ch s
  | .cqRoom t ch => Sys2Proof.Machine.execCqRoom t ch s
  | .cqStall t ch => Sys2Proof.Machine.execCqStall t ch s
  | .canFrameReceived t ctl start f => Sys2Proof.Machine.execCanFrameReceived t ctl start f s
  | .canBusIdle t ctl => Sys2Proof.Machine.execCanBusIdle t ctl s
  | .canTxAttemptEnd t ctl result loopDelay counted => Sys2Proof.Machine.execCanTxAttemptEnd t ctl result loopDelay counted s
  | .txTimeout t ctl buf => Sys2Proof.Machine.execTxTimeout t ctl buf s
  | .canBusOff t ctl => Sys2Proof.Machine.execCanBusOff t ctl s
  | .canRecoveryDone t ctl => Sys2Proof.Machine.execCanRecoveryDone t ctl s
  | .txEventRoom t ctl buf => Sys2Proof.Machine.execTxEventRoom t ctl buf s
  | .canReferenceDue t ctl => Sys2Proof.Machine.execCanReferenceDue t ctl s
  | .containerTimeTake t ctl => Sys2Proof.Machine.execContainerTimeTake t ctl s
  | .recordBatch t => Sys2Proof.Machine.execRecordBatch t s
  | .holdupRetry t vhu => Sys2Proof.Machine.execHoldupRetry t vhu s
  | .storeDeferred t => Sys2Proof.Machine.execStoreDeferred t s
  | .holdupMeasurement t vhu => Sys2Proof.Machine.execHoldupMeasurement t vhu s
  | .holdupMeasured t vhu => Sys2Proof.Machine.execHoldupMeasured t vhu s
  | .pageProgramDone t ok0 ok1 => Sys2Proof.Machine.execPageProgramDone t ok0 ok1 s
  | .eraseDone t ok0 ok1 => Sys2Proof.Machine.execEraseDone t ok0 ok1 s
  | .scrub t problems => Sys2Proof.Machine.execScrub t problems s
  | .serviceConnect t hs => Sys2Proof.Machine.execServiceConnect t hs s
  | .lockoutEnd t => Sys2Proof.Machine.execLockoutEnd t s
  | .sessionTimeout t session => Sys2Proof.Machine.execSessionTimeout t session s
  | .sessionKeyExpiry t => Sys2Proof.Machine.execSessionKeyExpiry t s
  | .rollbackAdvanced t => Sys2Proof.Machine.execRollbackAdvanced t s
  | .stageRailsUp t sideB => Sys2Proof.Machine.execStageRailsUp t sideB s
  | .memoryZeroed t => Sys2Proof.Machine.execMemoryZeroed t s
  | .stageImageRunning t slots devices => Sys2Proof.Machine.execStageImageRunning t slots devices s
  | .stageOnNetwork t => Sys2Proof.Machine.execStageOnNetwork t s
  | .stageLanesArmable t => Sys2Proof.Machine.execStageLanesArmable t s
  | .startSlow t stage => Sys2Proof.Machine.execStartSlow t stage s
  | .vhuCharged t mv => Sys2Proof.Machine.execVhuCharged t mv s
  | .portPowerLoss t port => Sys2Proof.Machine.execPortPowerLoss t port s
  | .portPowerRestored t port => Sys2Proof.Machine.execPortPowerRestored t port s
  | .linePowerLoss t vhu => Sys2Proof.Machine.execLinePowerLoss t vhu s
  | .moduleUnpowered t => Sys2Proof.Machine.execModuleUnpowered t s
  | .brownoutRestart t => Sys2Proof.Machine.execBrownoutRestart t s
  | .boardSupplyFault t => Sys2Proof.Machine.execBoardSupplyFault t s
  | .boardSupplyRetry t ma ok => Sys2Proof.Machine.execBoardSupplyRetry t ma ok s
  | .partingStep t => Sys2Proof.Machine.execPartingStep t s
  | .powerUp t port => Sys2Proof.Machine.execPowerUp t port s
  | .sessionClose t session => Sys2Proof.Machine.execSessionClose t session s
  | .delayReqSend t lan => Sys2Proof.Machine.execDelayReqSend t lan s
  | .delayReq t lan seq peer => Sys2Proof.Machine.execDelayReq t lan seq peer s
  | .ptpAnnounceSend t lan => Sys2Proof.Machine.execPtpAnnounceSend t lan s
  | .foreignFrame t lan oversize => Sys2Proof.Machine.execForeignFrame t lan oversize s
  | .changeLagging t id => Sys2Proof.Machine.execChangeLagging t id s
  | .safetyInputHealthy t input => Sys2Proof.Machine.execSafetyInputHealthy t input s
  | .canReceiveError t ctl exception code dominantAfterFlag => Sys2Proof.Machine.execCanReceiveError t ctl exception code dominantAfterFlag s
  | .debugHalt t core => Sys2Proof.Machine.execDebugHalt t core s

end Sys2Proof.Machine
end

