-- ==== Sys2Proof/Machine/Step.lean ====
section
/-! DEFINITION. One step: the command at the front of the queue, or one tick of the clock where none waits. -/

namespace Sys2Proof.Machine

open Sys2Proof

/-- The clock runs on by one tick where no command waits (02 R42; log entry 24). -/
def State.tick (s : State) : State := { s with clock := clockTick s.clock }

/-- Take the command at the front of the queue and run it with the queue's rest; on an empty queue, one tick. -/
def step (s : State) : Host.Outcome State Fault Refusal :=
  match s.pending with
  | [] => .next s.tick
  | c :: rest => exec c { s with pending := rest }

/-- The state with the command that a word spells put at the front of its queue; unchanged where it spells none. -/
def State.withFetchWord (s : State) (nbits w : Nat) : State :=
  match decodeTableWord nbits w with
  | none => s
  | some c => { s with pending := c :: s.pending }

end Sys2Proof.Machine
end

