-- ==== Sys2Proof/Machine/Payload.lean ====
section
/-! DEFINITION. The fields of a command's payload, in the order of its Request column (14 R401, R424): what a sender lays out,
read back by Machine/Operands.lean. Sizes and codes that the spec does not state are log entry 71. -/

namespace Sys2Proof.Machine

open Sys2Proof

/-- The value fits its field. -/
def Field.fits : Field → Bool
  | .u n v => decide (v < 2 ^ (8 * n))
  | .s n v => decide (-(2 : Int) ^ (8 * n - 1) ≤ v ∧ v < (2 : Int) ^ (8 * n - 1))
  | .struct _ => true

/-! ## Forms that several commands share -/

/-- The fields, where their values can be spelled. -/
def only (ok : Bool) (fs : List Field) : Option (List Field) := if ok then some fs else none
/-- A list after its count. -/
def listed (fs : List Field) : List Field := f2 fs.length :: fs
/-- The code of an enumeration's value, in the order listed. -/
def fEnum {α : Type} [DecidableEq α] (l : List α) (a : α) : Field := f1 (l.idxOf a)
/-- A mailbox path (R397). -/
def pathField (k : Nat) (p : Path) : Field := .u k ([Path.pcie, .service, .garzet].idxOf p)
/-- A value, or none. -/
def orNone (k : Nat) : Option Nat → List Field
  | some v => [f1 0, .u k v]
  | none => [f1 1, .u k 0]
/-- "Signal handle, or mailbox path" (05 R137). -/
def setpointFields : OutSource → Option (List Field)
  | .signal v => some [f1 0, f2 v]
  | .path p => some [f1 1, pathField 2 p]
  | _ => none
/-- A mailbox path, or a local signal (04 R130). -/
def dacFields : OutSource → Option (List Field)
  | .path p => some [f1 0, pathField 2 p]
  | .signal v => some [f1 1, f2 v]
  | _ => none
/-- A cooling loop, a local signal, or a mailbox path (08 R247). -/
def pumpFields : OutSource → Option (List Field)
  | .loop v => some [f1 0, f2 v]
  | .signal v => some [f1 1, f2 v]
  | .path p => some [f1 2, pathField 2 p]
  | _ => none
/-- A tenant slot, or a mailbox path (15 R429). -/
def ownerFields : OutSource → Option (List Field)
  | .slot v => some [f1 0, f1 v]
  | .path p => some [f1 1, pathField 1 p]
  | _ => none
/-- A queue, or a mailbox path (15 R434). -/
def canTargetFields : CanTarget → Option (List Field)
  | .queue q => some [f1 0, f2 q]
  | .path p => some [f1 1, pathField 2 p]
  | .discard => none
/-- "Input or ICV n" (04 R135). -/
def calTargetFields : CalTarget → List Field
  | .input k => [f1 0, f1 k]
  | .icv n => [f1 1, f1 n]

/-! ## The long requests -/

/-- LANE.CONFIG (05 R137): a value that is the no-value marker of a field with a default cannot be spelled, and a port count
of 0 leaves the other fields out (log entry 151). -/
def laneConfigFields (c : LaneConfig) : Option (List Field) :=
  if c.portCount = 0 then
    only (decide (c = { firstPort := c.firstPort, portCount := 0, phases := 0, pwmN := 0, dtH := [], dtL := [], minOn := 0
                        umin := 0, umax := 0, power := false, stringFs := 0, powerFs := 0, phaseFs := 0, rated := 0
                        iChgMax := 0, iDisMax := 0, rampRate := 0, vbusMin := 0, vbusMax := 0, tFb := 0, preDelta := 0
                        preTimeout := 0, preShort := 0, tOverlap := 0, iOpen := 0, iBreak := 0, disarmTimeout := 0
                        tDecay := 0, source := .none_ })) [f1 c.firstPort, f1 0]
  else
    let twos := c.dtH ++ c.dtL ++ [c.minOn, c.tFb, c.preDelta, c.preTimeout, c.preShort, c.tOverlap, c.disarmTimeout, c.tDecay]
    (setpointFields c.source).bind fun src =>
      only (decide (c.dtH.length = c.phases) && decide (c.dtL.length = c.phases) && twos.all (· != 65535)
          && [c.umin, c.umax].all (· != -2147483648) && [c.iChgMax, c.iDisMax, c.iOpen, c.iBreak].all (· != 0x80000000))
        ([f1 c.firstPort, f1 c.portCount, f1 c.phases, f1 c.pwmN] ++ c.dtH.map f2 ++ c.dtL.map f2
          ++ [f2 c.minOn, .s 4 c.umin, .s 4 c.umax, fb c.power, f4 c.stringFs, f4 c.powerFs, f4 c.phaseFs, f4 c.rated
             , f4 c.iChgMax, f4 c.iDisMax, f4 c.rampRate, .s 4 c.vbusMin, .s 4 c.vbusMax, f2 c.tFb, f2 c.preDelta
             , f2 c.preTimeout, f2 c.preShort, f2 c.tOverlap, f4 c.iOpen, f4 c.iBreak, f2 c.disarmTimeout, f2 c.tDecay] ++ src)
/-- A record of bytes as one number, the first byte the least significant. -/
def ofBytes (l : List Nat) : Nat := l.foldr (fun b n => b + 256 * n) 0
/-- One bit's source (09 R277) in 8 bytes. -/
def bitSourceField (x : Nat × BitSource) : Option Field :=
  let f (kind n k berth link : Nat) : Option Field :=
    if x.1 < 256 ∧ n < 256 ∧ k < 256 ∧ berth < 65536 ∧ link < 65536 then
      some (f8 (ofBytes [x.1, kind, n, k, berth % 256, berth / 256, link % 256, link / 256])) else none
  match x.2 with
  | .zero => f 0 0 0 0 0
  | .laneTripped n => f 1 n 0 0 0
  | .laneLatched n => f 2 n 0 0 0
  | .moduleLatch => f 3 0 0 0 0
  | .estop => f 4 0 0 0 0
  | .fire => f 5 0 0 0 0
  | .precursor n => f 6 n 0 0 0
  | .bareRock => f 7 0 0 0 0
  | .received b l k => f 8 0 k b l
/-- One bit's action (09 R277) in 4 bytes. -/
def bitActionField (x : Nat × BitAction) : Option Field :=
  let f (kind lanes mask : Nat) : Option Field :=
    if x.1 < 256 ∧ lanes < 256 ∧ mask < 256 then some (f4 (ofBytes [x.1, kind, lanes, mask])) else none
  match x.2 with
  | .none_ => f 0 0 0
  | .alarm => f 1 0 0
  | .trip l => f 2 l 0
  | .outputs m => f 3 0 m
  | .tripOutputs l m => f 4 l m
/-- SAFETY.LINK_SET: WATCHDOG in ms, SKEW and MAX_AGE in µs, left out from the end for their defaults. -/
def linkSetFields (l : LinkSet) : Option (List Field) :=
  if l.send then
    (l.sources.mapM bitSourceField).bind fun fs =>
      only (decide (l = { send := true, linkId := l.linkId, berth := 0, dest := l.dest, sources := l.sources, actions := []
                          watchdog := none, skew := none, maxAge := none }))
        ([f1 0, f2 l.linkId, f1 1, f8 l.dest, f1 0] ++ listed fs)
  else
    (l.actions.mapM bitActionField).bind fun fs =>
      let head := [f1 1, f2 l.linkId, f1 0, f8 l.berth, f1 1] ++ listed fs
      let plain := decide (l = { l with send := false, dest := 0, sources := [] })
      match l.watchdog, l.skew, l.maxAge with
      | none, none, none => only plain head
      | some w, none, none => only (plain && w % 1000000 == 0) (head ++ [f1 (w / 1000000)])
      | some w, some k, none =>
        only (plain && w % 1000000 == 0 && k % 1000 == 0) (head ++ [f1 (w / 1000000), f2 (k / 1000)])
      | some w, some k, some m =>
        only (plain && w % 1000000 == 0 && k % 1000 == 0 && m % 1000 == 0)
          (head ++ [f1 (w / 1000000), f2 (k / 1000), f2 (m / 1000)])
      | _, _, _ => none
/-- An LLDP identity (10 R291). -/
def lldpFields (i : LldpId) : List Field :=
  f1 i.chassisType :: listed (i.chassis.map fun b => f1 b.toNat) ++ f1 i.portType :: listed (i.port.map fun b => f1 b.toNat)
/-- One bit timing; TSEG1 has two bytes in the nominal phase. -/
def timingFields (k : Nat) (b : BitTiming) : List Field := [f1 b.brp, .u k b.tseg1, f1 b.tseg2, f1 b.sjw]
/-- CAN.CONFIG (15 R427, R440). -/
def canConfigFields (c : CanConfig) : Option (List Field) :=
  if c.owners.length = 32 ∧ c.retries.length = 32 then
    (c.owners.mapM ownerFields).bind fun owners =>
      ([c.fifo0, c.fifo1, c.hp, c.txEvent].mapM canTargetFields).bind fun targets =>
        some ([fEnum [.disabled, .normal, .listenOnly] c.mode, fb c.fd] ++ timingFields 2 c.nominal ++ timingFields 1 c.data
          ++ [fb c.tdc, f1 c.tdcOffset, f2 c.txTimeout] ++ ((owners.zip c.retries).map fun x => x.1 ++ [f1 x.2]).flatten
          ++ targets.flatten ++ [fb c.noMatchFifo1])
  else none
/-- CAN.SEND (15 R440): an abort leaves the frame out; else its DLC follows from its data. -/
def canSendFields (ctl buf : Nat) (abort : Bool) (f : CanFrame) : Option (List Field) :=
  if abort then only (decide (f = {})) [f1 ctl, f1 buf, fb true]
  else only (decide (f.dlc = (dlcOf f.data.length).getD 0) && !f.esi)
    ([f1 ctl, f1 buf, fb false, f4 f.id, fb f.ide, fb f.fdf, fb f.brs, fb f.rtr] ++ f.data.map fun b => f1 b.toNat)

/-! ## The commands -/

/-- The fields of a command's Request column (14 R424); none for an event, for operands that no payload spells, and for
LIFECYCLE.TURN, whose root key and CA flag are what its certificate holds. -/
def requestFields : Instr → Option (List Field)
  | .moduleIdentify _ | .moduleStatus _ | .moduleBeach _ | .modulePart _ | .moduleRestart _ | .mboxStatus _
  | .timeStatus _ | .tideStatus _ | .modelCommit _ | .springRosterRead _ | .dieStatus _ | .safetyStatus _
  | .safetyBareRock _ | .netStatus _ | .berthStatus _ | .graphEnginesRead _ | .storeStatus _ | .storeScrub _
  | .storeHoldupMeasure _ | .eventStatus _ | .lifecycleStatus _ | .lifecycleSeal _ | .debugStatus _ | .updateStatus _
  | .powerStatus _ => some []
  | .mboxNop _ data => some (data.map fun b => f1 b.toNat)
  | .mboxCountersRead _ clear => some [fb clear]
  | .timeServoSet _ p => some [f4 p.kp, f4 p.ki, f4 p.outlier, f2 p.lockNs, f4 p.stepNs, .s 4 p.asymA, .s 4 p.asymB]
  | .timeTriggerSet _ output mode start period width =>
    some [f1 output, fEnum [.off, .time, .pps] mode, f8 start, f8 period, f8 width]
  | .timeCaptureRead _ input max => some [f1 input, f1 max]
  | .tideEntrySet _ entry w => some [f2 entry, .struct (leBytes 32 w.toNat)]
  | .tideEntryRead _ entry => some [f2 entry]
  | .lighthouseConfig _ c => some [f1 c.lane, f1 c.nominalHz, .s 2 c.angleOffset, f1 c.bandwidth, f4 c.nominalMv]
  | .tapStatus _ port => some [f1 port]
  | .tapTrimSet _ port asym => some [f1 port, .s 2 asym]
  | .tapLimitsSet _ target ov uv ot cells temps =>
    some ((match target with | .port p => [f1 0, f1 p] | .lane n => [f1 1, f1 n]) ++ [f2 ov, f2 uv, .s 2 ot, f4 cells,
      f1 temps])
  | .tapRetrain _ port => some [f1 port]
  | .tapCountersRead _ port clear => some [f1 port, fb clear]
  | .analogInputSet _ input cls scale handle =>
    some [f1 input, fEnum [.current, .voltage, .temperature, .raw] cls, .s 4 scale, f2 handle]
  | .analogTableSet _ conv table entries queue =>
    some ([f1 conv, f1 table] ++ listed (entries.map fun w => f4 w.toNat) ++ orNone 2 queue)
  | .analogTableStart _ conv table => some [f1 conv, f1 table]
  | .analogConvert _ input urgent => some [f1 input, fb urgent]
  | .analogRead _ inputs => some (listed (inputs.map f1))
  | .analogCalPoint _ target full value => some (calTargetFields target ++ [fb full, .s 4 value])
  | .analogCalCommit _ inputs icvs all =>
    if all then only (inputs.isEmpty && icvs.isEmpty) [f1 1] else some (f1 0 :: listed (inputs.map f1) ++ listed
      (icvs.map f1))
  | .analogCalRead _ target => some (calTargetFields target)
  | .analogCountersRead _ conv clear => some [f1 conv, fb clear]
  | .icvStatus _ lane => some [f1 lane]
  | .icvReset _ lane => some [f1 lane]
  | .dacConfig _ out source safeCode range => (dacFields source).map fun x => f1 out :: x ++ [f2 safeCode, f1 range]
  | .dacSet _ out range code => some [f1 out, f1 range, f2 code]
  | .tachConfig _ input falling pair ppr filter standstill =>
    some [f1 input, fb falling, fb pair, f1 ppr, f1 filter, f2 standstill]
  | .tachRead _ inputs => some (listed (inputs.map f1))
  | .laneConfig _ lane c => (laneConfigFields c).map (f1 lane :: ·)
  | .laneLoopSet _ lane g => some (f1 lane :: [g.kpA, g.kiA, g.kdA, g.kpB, g.kiB, g.kdB].map f4)
  | .laneArm _ lane => some [f1 lane]
  | .laneDisarm _ lane => some [f1 lane]
  | .laneSetpoint _ lane v => some [f1 lane, .s 4 v]
  | .laneStatus _ lane => some [f1 lane]
  | .laneFaultClear _ lane ack => some [f1 lane, fb ack]
  | .laneCountersRead _ lane clear => some [f1 lane, fb clear]
  | .modelParamLoad _ typ bytes => some [f1 typ, .struct bytes]
  | .modelParamRead _ typ => some [f1 typ]
  | .modelAssign _ port types sensors =>
    only (types.length == 18 && sensors.length == 18) (f1 port :: types.map f1 ++ sensors.map f1)
  | .modelCellRead _ port first count => some [f1 port, f1 first, f1 count]
  | .modelStatus _ lane => some [f1 lane]
  | .modelLearnSet _ native hours => some [fb !native, f1 hours]
  | .modelLearnedRead _ port => some [f1 port]
  | .modelLearnedWrite _ port bytes => some [f1 port, .struct bytes]
  | .modelRoughCommand _ target keep =>
    some ((match target with | .port p => [f1 0, f1 p] | .cell n p k => [f1 1, f1 n, f1 p, f1 k]) ++ [fb keep])
  | .modelPowerSet _ on => some [fb on]
  | .modelCountersRead _ port clear => some [f1 port, fb clear]
  | .soundSchedule _ r =>
    only ([10, 100, 1000].contains r.length) [f1 r.lane, f4 r.set_, f2 r.step, fb r.last, f8 r.start, .s 4 r.stepMa,
      fEnum [10, 100, 1000] r.length, fb r.capture, f4 r.partnerRole, f2 r.partnerEpoch]
  | .soundCancel _ lane set_ step => some ([f1 lane, f4 set_] ++ orNone 2 step)
  | .soundStatus _ lane => some [f1 lane]
  | .soundResultRead _ lane set_ step port => some [f1 lane, f4 set_, f2 step, f1 port]
  | .springStart _ lane iChg iDis cvGain maxHours => some [f1 lane, .s 4 iChg, .s 4 iDis, f2 cvGain, f1 maxHours]
  | .springStop _ lane => some [f1 lane]
  | .springStatus _ lane => some [f1 lane]
  | .springRosterSet _ share interval => some [f1 share, f2 interval]
  | .balanceConfig _ lane r =>
    some [f1 lane, fb r.enable, f8 r.deadband, f1 r.maxPerPort, f2 r.vMin, .s 2 r.tMax, f2 r.dropMin, f2 r.dropMax, f2
      r.leak]
  | .balanceStatus _ lane => some [f1 lane]
  | .balanceTest _ cell => some [f1 cell.lane, f1 cell.port, f1 cell.cell]
  | .balanceTestRead _ port => some [f1 port]
  | .thermalLimitsSet _ lane r =>
    some (f1 lane :: [r.tripHigh, r.warnHigh, r.shedStart, r.warnLow, r.chgInhibit, r.tripLow].map (.s 2 ·) ++ [f2
      r.rateLimit, f2 r.shedFloor, .s 2 r.hsShedStart, .s 2 r.hsTrip, f2 r.coolLossShare])
  | .thermalStatus _ lane => some [f1 lane]
  | .coolingLoopSet _ loop c =>
    some [f1 loop, f1 c.lanes, f1 c.pump, f1 c.tach, .s 2 c.setPoint, f4 c.kp, f4 c.ki, f2 c.pumpMin, f2 c.pumpMax, f2
      c.expect]
  | .coolingOutputSet _ out source freq safeDuty => (pumpFields source).map fun x => f1 out :: x ++ [f4 freq, f2 safeDuty]
  | .coolingDutySet _ out duty => some [f1 out, f2 duty]
  | .coolingStatus _ loop => some [f1 loop]
  | .safetyLimitsSet _ lane ov uv plt => some [f1 lane, f2 ov, f2 uv, f2 plt]
  | .safetyOcSet _ lane str ph filt => some [f1 lane, f4 str, f4 ph, f1 filt]
  | .safetyIoSet _ disc fireEn masks => only (masks.length == 4) (f2 disc :: fb fireEn :: masks.map f4)
  | .safetyChannelSet _ hb => only (hb % 1000 == 0) [f2 (hb / 1000)]
  | .safetyLinkSet _ l => linkSetFields l
  | .safetyLinkStatus _ sender link => some [f2 sender, f2 link]
  | .safetyWindowSet _ source n w => only (w % 1000000 == 0) [f1 source, f1 n, f4 (w / 1000000)]
  | .safetyCountersRead _ clear => some [fb clear]
  | .netCountersRead _ clear => some [fb clear]
  | .estateMapLoad _ entries =>
    some (f2 entries.length :: (entries.map fun e => f2 e.berth :: lldpFields e.idA ++ lldpFields e.idB).flatten)
  | .estateChangePropose _ p =>
    some ([f4 p.id, f1 p.kind, f1 p.policy, f1 p.conservative, f8 p.n, f4 p.old, f4 p.new_] ++ listed (p.members.map
      f2))
  | .estateChangeStatus _ id => some [f4 id]
  | .estateChangeAbandon _ id => some [f4 id]
  | .roleTableRead _ first count => some [f2 first, f1 count]
  | .roleResolve _ role => some [f4 role]
  | .tenantLoad _ slot role offset bytes last => some [f1 slot, f4 role, f4 offset, .struct bytes, fb last]
  | .tenantUnload _ slot => some [f1 slot]
  | .tenantStop _ slot => some [f1 slot]
  | .tenantStart _ slot => some [f1 slot]
  | .tenantStatus _ slot => some [f1 slot]
  | .tenantCountersRead _ slot clear => some [f1 slot, fb clear]
  | .graphActivate _ slot n => some [f1 slot, f8 n]
  | .graphDiscard _ slot => some [f1 slot]
  | .graphVarRead _ slot first count => some [f1 slot, f2 first, f1 count]
  | .graphGroupSet _ group offset => some [f1 group, f2 offset]
  | .signalRead _ estate handles => some (fb estate :: listed (handles.map f4))
  | .signalConfig _ delay refresh => some [f1 delay, f2 refresh]
  | .pairRoleSet _ a =>
    some [f4 a.role, f1 (if roleKind a.role = 3 then 1 else 0), f1 a.local_, fEnum [.twin, .estate, .none_] a.kind, f2
      a.partner, fb a.preferred]
  | .pairStatus _ role => some [f4 role]
  | .pairSwapHelm _ role => some [f4 role]
  | .pairCompareSet _ dutyTol outTol socTol => some [f2 dutyTol, f2 outTol, f2 socTol]
  | .pairCountersRead _ role clear => some [f4 role, fb clear]
  | .queueCreate _ q k prod cons thr => some [f2 q, f1 k, f1 prod, f1 cons, f4 thr]
  | .queueDestroy _ q => some [f2 q]
  | .queueThresholdSet _ q thr => some [f2 q, f4 thr]
  | .queueStatus _ q => some [f2 q]
  | .dmaChannelSet _ ch owner prio win =>
    some (f1 ch :: (match owner with | .system => [f1 0, f1 0] | .tenant n => [f1 1, f1 n] | .pcie => [f1 2, f1 0]) ++
      f1 prio :: orNone 8 win)
  | .dmaStart _ ch addr => some [f1 ch, f8 addr]
  | .dmaDoorbell _ ch => some [f1 ch]
  | .dmaAbort _ ch => some [f1 ch]
  | .dmaStatus _ ch => some [f1 ch]
  | .dmaCountersRead _ ch clear => some [f1 ch, fb clear]
  | .canConfig _ ctl c => (canConfigFields c).map (f1 ctl :: ·)
  | .canFilterSet _ ctl i f =>
    some [f1 ctl, f1 i, fb f.ide, f4 f.id, f4 f.mask, f1 f.formats, fEnum [.discard, .fifo0, .fifo1, .hp] f.target]
  | .canSend _ ctl buf abort f => canSendFields ctl buf abort f
  | .canReceive _ ctl which max => only (decide (which < 4)) [f1 ctl, f1 which, f1 max]
  | .canRecover _ ctl => some [f1 ctl]
  | .canStatus _ ctl => some [f1 ctl]
  | .canTimeMasterSet _ ctl on m =>
    only (m.ide == decide (2048 ≤ m.identifier)) [f1 ctl, fb on, f2 m.container, f4 m.identifier, f2 m.periodMs]
  | .canCountersRead _ ctl clear => some [f1 ctl, fb clear]
  | .storeWearRead _ dev => some [f1 dev]
  | .eventRead _ first count => some [f8 first, f1 count]
  | .lifecycleDecommission _ serial => some [f8 serial]
  | .debugLevelSet _ level => only (decide (level < 3)) [f1 level]
  | .updateImageWrite _ offset bytes last gapOk => some [f4 offset, .struct bytes, fb last, fb gapOk]
  | .updateReboot _ trial => some [fb !trial]
  | .lifecycleTurn _ _ => none
  | _ => none

end Sys2Proof.Machine
end

