-- ==== Sys2Proof/Safety.lean ====
section
/-! DEFINITION. The terms the statements use: which parts of the state a command touches, what the answer of a command
leaves in the mailboxes, and what a safe run keeps. -/

namespace Sys2Proof.Machine

open Sys2Proof

/-! ## Parts of the state -/

/-- The parts of the state. -/
inductive Part where
  | clock | ptp | servo | lh | tide | table | tsin | tsout | tap | ana | lanes | model | sound | therm | safety | net | ten | fab | mbox | can | store | recorder | sec | power | held | out | fresh | pending
  deriving DecidableEq, Repr

/-- A part is the same in two states. -/
def Part.same : Part → State → State → Prop
  | .clock, s, t => t.clock = s.clock
  | .ptp, s, t => t.ptp = s.ptp
  | .servo, s, t => t.servo = s.servo
  | .lh, s, t => t.lh = s.lh
  | .tide, s, t => t.tide = s.tide
  | .table, s, t => t.table = s.table
  | .tsin, s, t => t.tsin = s.tsin
  | .tsout, s, t => t.tsout = s.tsout
  | .tap, s, t => t.tap = s.tap
  | .ana, s, t => t.ana = s.ana
  | .lanes, s, t => t.lanes = s.lanes
  | .model, s, t => t.model = s.model
  | .sound, s, t => t.sound = s.sound
  | .therm, s, t => t.therm = s.therm
  | .safety, s, t => t.safety = s.safety
  | .net, s, t => t.net = s.net
  | .ten, s, t => t.ten = s.ten
  | .fab, s, t => t.fab = s.fab
  | .mbox, s, t => t.mbox = s.mbox
  | .can, s, t => t.can = s.can
  | .store, s, t => t.store = s.store
  | .recorder, s, t => t.recorder = s.recorder
  | .sec, s, t => t.sec = s.sec
  | .power, s, t => t.power = s.power
  | .held, s, t => t.held = s.held
  | .out, s, t => t.out = s.out
  | .fresh, s, t => t.fresh = s.fresh
  | .pending, s, t => t.pending = s.pending

/-- Nothing but the parts listed differs between two states. -/
def Changes (ps : List Part) (s t : State) : Prop := ∀ p : Part, p ∉ ps → p.same s t
/-- Nothing but the clock, the interrupt bits of the mailboxes and the parts listed differs between two states. -/
def Moves (ps : List Part) (s t : State) : Prop := Changes (.clock :: .mbox :: ps) s t
/-- The state whose values a STATUS reply gives: in BEACHED that of step 6 (06 R199). -/
abbrev State.seen (s : State) : State := if s.power.state == .beached then s.atStep6 else s
/-- Of the objects of one kind only object `k` differs, and nothing outside the parts listed. -/
def Only {α : Type} (f : State → Nat → α) (k : Nat) (ps : List Part) (s t : State) : Prop :=
  (∀ j, j ≠ k → f t j = f s j) ∧ Changes ps s t
/-- The clock of a state once it has come to the time that an event carries. -/
abbrev State.nowAt (s : State) (t : Nat) : Nat := (s.atTime t).now

/-! ## The answer of a command (14 R398, R402, R404, R413, R418) -/

/-- The parts that an answer touches, by the path it goes out on: the response ring of a PCIe mailbox, or the streams of
the estate network. -/
def envelopeParts : Path → List Part
  | .service => [.mbox]
  | .pcie => [.mbox, .fab]
  | .garzet => [.mbox, .net, .ten, .sound, .out]

/-- A command that a mailbox takes now: nothing closes it or refuses it before its own checks, and no reset of the
mailbox waits (14 R399, R403, R406, R416). -/
abbrev Taken (s : State) (src : Source) (code : Nat) : Prop :=
  Served s src code ∧ (s.box src.path src.box).resetPending = false

/-- The newest response in `u` is the answer of that command, with its status and payload; the responses before it are
those of `s`. -/
def Replied (s u : State) (src : Source) (code status : Nat) (payload : List Field) : Prop :=
  u.mbox.responses = s.mbox.responses ++
    [{ path := src.path, box := src.box, tag := src.tag, command := code, status := status, doneAt := s.now
       payload := payload, corr := src.corr }]

/-- `u` is `z` but for what handing a response over touches: the mailboxes and their counts, and, by its path, the response
ring of the mailbox, or the outgoing streams and the requests that the module has open. -/
structure Envelope (src : Source) (z u : State) : Prop where
  rest : Changes (envelopeParts src.path) z u
  mbox : u.mbox = { z.mbox with
    boxes := u.mbox.boxes, counts := u.mbox.counts, responses := u.mbox.responses, msix := u.mbox.msix
    noticePending := u.mbox.noticePending, intStatus := u.mbox.intStatus }
  fab : u.fab = { z.fab with queues := u.fab.queues, lpddr := u.fab.lpddr }
  queues : ∀ q, q ≠ 17 + 2 * src.box → u.queue q = z.queue q
  net : u.net = { z.net with
    streamsTx := u.net.streamsTx, requests := u.net.requests, resent := u.net.resent, inboxFns := u.net.inboxFns }
  sound : u.sound = { z.sound with roster := { z.sound.roster with lanes := u.sound.roster.lanes } }
  ten : u.ten = { z.ten with slots := u.ten.slots }
  slots : ∀ k, u.slot k = { z.slot k with replies := (u.slot k).replies }

/-- The command of `s` ends in `u`: accepted with this payload, and `u` is `z` but for the handing over of its response. -/
def Answered (s u : State) (src : Source) (code : Nat) (payload : List Field) (z : State) : Prop :=
  Replied s u src code stOk payload ∧ Envelope src z u

/-- The command is refused with a status: its response says so, and nothing but the handing over differs. -/
def Refused (s u : State) (src : Source) (code status : Nat) : Prop :=
  Replied s u src code status [] ∧ Envelope src s u

/-- The command of `s` is being executed in `u`: it is answered later, and `u` is `z` but for its mailbox. -/
def Executing (u : State) (src : Source) (code : Nat) (z : State) : Prop :=
  Changes [.mbox] z u ∧ (u.box src.path src.box).executing = some code ∧ u.mbox.responses = z.mbox.responses

/-- `u` is `z` but for the interrupt bits that a change of state sets and the vector they raise (14 R411). -/
def Settled (z u : State) : Prop :=
  u = { z with mbox := { z.mbox with intStatus := u.mbox.intStatus, msix := u.mbox.msix } }

/-! ## Messages received (10 R297 to R307) -/

/-- A message of a stream comes in its turn: its header keeps its rules and is addressed to this module, it is the next of its
sender and nothing is held behind it, and the check of its role delivers it. -/
abbrev InTurn (s : State) (h : GHead) (b : GBody) : Prop :=
  s.netRuns = true ∧ headOk h b = true ∧ s.addressed h = true ∧ h.reliable = true ∧
    (s.peer (senderKey h)).keys.contains (keyOf h) = false ∧
    ((s.streamRx (senderKey h)).all fun x =>
      x.expected == h.sequence && x.held.isEmpty && !x.skipped.contains h.sequence) = true ∧
    s.verdict h b = .deliver

/-- The first copy of a message that is not RELIABLE comes: its header keeps its rules and is addressed to this module. -/
abbrev FirstHeard (s : State) (h : GHead) (b : GBody) : Prop :=
  s.netRuns = true ∧ headOk h b = true ∧ s.addressed h = true ∧ h.reliable = false ∧
    (s.peer (senderKey h)).keys.contains (keyOf h) = false

/-- A HELM or MIRROR message of a role of this module comes in its turn, over a LAN or over a lane of the twin link whose
other side is known, in a format at most 1 away from the module's own (12 R353, R362, R370). -/
abbrev FromPartner (s : State) (l : Link) (h : GHead) (b : GBody) (r f : Nat) (o : OwnRole) : Prop :=
  InTurn s h b ∧ r = h.targetRole ∧ s.ownRole r = some o ∧ f ≤ s.net.format + 1 ∧ s.net.format ≤ f + 1 ∧
    (l = .twin0 ∨ l = .twin1 → s.net.twinPeerSide.isSome = true)

/-- The newest unacknowledged message to a berth is a HELM message of that kind, role and result. -/
def State.saidHelm (u : State) (p kind role result : Nat) : Bool :=
  (u.streamTx p).unacked.getLast?.any fun q => match q.body with
    | .helm m => m.kind == kind && m.role == role && m.result == result
    | _ => false

/-- An assigned role is not held here, and nothing keeps the module from taking or joining it (12 R348). -/
abbrev RoleOpen (s : State) (r : Nat) (o : OwnRole) : Prop :=
  s.netRuns = true ∧ s.net.berth.isSome = true ∧ (s.power.state = .full ∨ s.power.state = .slack) ∧ s.power.beach = none ∧
    s.power.part = none ∧ s.sec.debug ≠ .invasive ∧ s.ownRole r = some o ∧ o.state = .none_ ∧
    s.alarmOn evPairDegraded 5 r = false ∧ s.assignedElsewhere o = false

/-! ## Before a command's own checks (14 R399, R402, R406; 17 R474) -/

/-- The next command of a mailbox comes to its checks: mailboxes are served, the module is not in BARE ROCK, nothing
executes or waits in this one and no reset of it is pending; the recovery loader serves its own commands alone. -/
abbrev AtTheGate (s : State) (src : Source) (code : Nat) : Prop :=
  (s.mbox.ready = true ∨ s.sec.recovery = true) ∧ s.power.state ≠ .bareRock ∧
    (s.box src.path src.box).executing = none ∧ (s.box src.path src.box).waiting = [] ∧
    (s.box src.path src.box).resetPending = false ∧
    (s.sec.recovery = true → src.path = .service ∧ recoveryCodes.contains code = true)

/-! ## The order of firings (02 R70) -/

/-- The firing `b` is taken before `a`: earlier, or at the same instant and of a kind that comes first, or of the same
kind and a lower entry. -/
abbrev Ahead (b a : ArmedFiring) : Prop :=
  b.t0 < a.t0 ∨ (b.t0 = a.t0 ∧ (kindOrder b.content.kind < kindOrder a.content.kind ∨
    (kindOrder b.content.kind = kindOrder a.content.kind ∧ b.entry < a.entry)))

/-! ## What a safe run keeps -/

/-- Both memories are in the canonical form. -/
abbrev MemWf (s : State) : Prop := Memory.wf s.fab.lpddr = true ∧ Memory.wf s.fab.sram = true

end Sys2Proof.Machine

namespace Sys2Proof

/-! ## Commands and events (14 R397, R424) -/

/-- Who sends a command through a mailbox, and its code (14 R424); none for an event. -/
def Instr.asked : Instr → Option (Source × Nat)
  | .moduleIdentify src => some (src, 0x0101) | .moduleStatus src => some (src, 0x0102)
  | .moduleBeach src => some (src, 0x0103) | .modulePart src => some (src, 0x0104) | .moduleRestart src => some (src, 0x0105)
  | .mboxNop src _ => some (src, 0x0201) | .mboxStatus src => some (src, 0x0202)
  | .mboxCountersRead src _ => some (src, 0x0203) | .timeStatus src => some (src, 0x0301)
  | .timeServoSet src _ => some (src, 0x0302) | .timeTriggerSet src _ _ _ _ _ => some (src, 0x0303)
  | .timeCaptureRead src _ _ => some (src, 0x0304) | .tideStatus src => some (src, 0x0401)
  | .tideEntrySet src _ _ => some (src, 0x0402) | .tideEntryRead src _ => some (src, 0x0403)
  | .lighthouseConfig src _ => some (src, 0x0501) | .tapStatus src _ => some (src, 0x0601)
  | .tapTrimSet src _ _ => some (src, 0x0602) | .tapLimitsSet src _ _ _ _ _ _ => some (src, 0x0603)
  | .tapRetrain src _ => some (src, 0x0604) | .tapCountersRead src _ _ => some (src, 0x0605)
  | .analogInputSet src _ _ _ _ => some (src, 0x0701) | .analogTableSet src _ _ _ _ => some (src, 0x0702)
  | .analogTableStart src _ _ => some (src, 0x0703) | .analogConvert src _ _ => some (src, 0x0704)
  | .analogRead src _ => some (src, 0x0705) | .analogCalPoint src _ _ _ => some (src, 0x0706)
  | .analogCalCommit src _ _ _ => some (src, 0x0707) | .analogCalRead src _ => some (src, 0x0708)
  | .analogCountersRead src _ _ => some (src, 0x0709) | .icvStatus src _ => some (src, 0x0801)
  | .icvReset src _ => some (src, 0x0802) | .dacConfig src _ _ _ _ => some (src, 0x0901)
  | .dacSet src _ _ _ => some (src, 0x0902) | .tachConfig src _ _ _ _ _ _ => some (src, 0x0A01)
  | .tachRead src _ => some (src, 0x0A02) | .laneConfig src _ _ => some (src, 0x0B01)
  | .laneLoopSet src _ _ => some (src, 0x0B02) | .laneArm src _ => some (src, 0x0B03) | .laneDisarm src _ => some (src, 0x0B04)
  | .laneSetpoint src _ _ => some (src, 0x0B05) | .laneStatus src _ => some (src, 0x0B06)
  | .laneFaultClear src _ _ => some (src, 0x0B07) | .laneCountersRead src _ _ => some (src, 0x0B08)
  | .modelParamLoad src _ _ => some (src, 0x0C01) | .modelParamRead src _ => some (src, 0x0C02)
  | .modelAssign src _ _ _ => some (src, 0x0C03) | .modelCellRead src _ _ _ => some (src, 0x0C04)
  | .modelStatus src _ => some (src, 0x0C05) | .modelLearnSet src _ _ => some (src, 0x0C06)
  | .modelLearnedRead src _ => some (src, 0x0C07) | .modelLearnedWrite src _ _ => some (src, 0x0C08)
  | .modelCommit src => some (src, 0x0C09) | .modelRoughCommand src _ _ => some (src, 0x0C0A)
  | .modelPowerSet src _ => some (src, 0x0C0B) | .modelCountersRead src _ _ => some (src, 0x0C0C)
  | .soundSchedule src _ => some (src, 0x0D01) | .soundCancel src _ _ _ => some (src, 0x0D02)
  | .soundStatus src _ => some (src, 0x0D03) | .soundResultRead src _ _ _ _ => some (src, 0x0D04)
  | .springStart src _ _ _ _ _ => some (src, 0x0E01) | .springStop src _ => some (src, 0x0E02)
  | .springStatus src _ => some (src, 0x0E03) | .springRosterSet src _ _ => some (src, 0x0E04)
  | .springRosterRead src => some (src, 0x0E05) | .balanceConfig src _ _ => some (src, 0x0F01)
  | .balanceStatus src _ => some (src, 0x0F02) | .balanceTest src _ => some (src, 0x0F03)
  | .balanceTestRead src _ => some (src, 0x0F04) | .thermalLimitsSet src _ _ => some (src, 0x1001)
  | .thermalStatus src _ => some (src, 0x1002) | .coolingLoopSet src _ _ => some (src, 0x1101)
  | .coolingOutputSet src _ _ _ _ => some (src, 0x1102) | .coolingDutySet src _ _ => some (src, 0x1103)
  | .coolingStatus src _ => some (src, 0x1104) | .dieStatus src => some (src, 0x1201) | .safetyStatus src => some (src, 0x1301)
  | .safetyLimitsSet src _ _ _ _ => some (src, 0x1302) | .safetyOcSet src _ _ _ _ => some (src, 0x1303)
  | .safetyIoSet src _ _ _ => some (src, 0x1304) | .safetyChannelSet src _ => some (src, 0x1305)
  | .safetyLinkSet src _ => some (src, 0x1306) | .safetyLinkStatus src _ _ => some (src, 0x1307)
  | .safetyWindowSet src _ _ _ => some (src, 0x1308) | .safetyBareRock src => some (src, 0x1309)
  | .safetyCountersRead src _ => some (src, 0x130A) | .netStatus src => some (src, 0x1401)
  | .netCountersRead src _ => some (src, 0x1402) | .berthStatus src => some (src, 0x1501)
  | .estateMapLoad src _ => some (src, 0x1601) | .estateChangePropose src _ => some (src, 0x1602)
  | .estateChangeStatus src _ => some (src, 0x1603) | .estateChangeAbandon src _ => some (src, 0x1604)
  | .roleTableRead src _ _ => some (src, 0x1701) | .roleResolve src _ => some (src, 0x1702)
  | .tenantLoad src _ _ _ _ _ => some (src, 0x1801) | .tenantUnload src _ => some (src, 0x1802)
  | .tenantStop src _ => some (src, 0x1803) | .tenantStart src _ => some (src, 0x1804)
  | .tenantStatus src _ => some (src, 0x1805) | .tenantCountersRead src _ _ => some (src, 0x1806)
  | .graphActivate src _ _ => some (src, 0x1901) | .graphDiscard src _ => some (src, 0x1902)
  | .graphVarRead src _ _ _ => some (src, 0x1903) | .graphGroupSet src _ _ => some (src, 0x1904)
  | .graphEnginesRead src => some (src, 0x1905) | .signalRead src _ _ => some (src, 0x1A01)
  | .signalConfig src _ _ => some (src, 0x1A02) | .pairRoleSet src _ => some (src, 0x1B01)
  | .pairStatus src _ => some (src, 0x1B02) | .pairSwapHelm src _ => some (src, 0x1B03)
  | .pairCompareSet src _ _ _ => some (src, 0x1B04) | .pairCountersRead src _ _ => some (src, 0x1B05)
  | .queueCreate src _ _ _ _ _ => some (src, 0x1C01) | .queueDestroy src _ => some (src, 0x1C02)
  | .queueThresholdSet src _ _ => some (src, 0x1C03) | .queueStatus src _ => some (src, 0x1C04)
  | .dmaChannelSet src _ _ _ _ => some (src, 0x1D01) | .dmaStart src _ _ => some (src, 0x1D02)
  | .dmaDoorbell src _ => some (src, 0x1D03) | .dmaAbort src _ => some (src, 0x1D04) | .dmaStatus src _ => some (src, 0x1D05)
  | .dmaCountersRead src _ _ => some (src, 0x1D06) | .canConfig src _ _ => some (src, 0x1E01)
  | .canFilterSet src _ _ _ => some (src, 0x1E02) | .canSend src _ _ _ _ => some (src, 0x1E03)
  | .canReceive src _ _ _ => some (src, 0x1E04) | .canRecover src _ => some (src, 0x1E05)
  | .canStatus src _ => some (src, 0x1E06) | .canTimeMasterSet src _ _ _ => some (src, 0x1E07)
  | .canCountersRead src _ _ => some (src, 0x1E08) | .storeStatus src => some (src, 0x1F01)
  | .storeScrub src => some (src, 0x1F02) | .storeHoldupMeasure src => some (src, 0x1F03)
  | .storeWearRead src _ => some (src, 0x1F04) | .eventStatus src => some (src, 0x2001)
  | .eventRead src _ _ => some (src, 0x2002) | .lifecycleStatus src => some (src, 0x2101)
  | .lifecycleTurn src _ => some (src, 0x2102) | .lifecycleSeal src => some (src, 0x2103)
  | .lifecycleDecommission src _ => some (src, 0x2104) | .debugStatus src => some (src, 0x2201)
  | .debugLevelSet src _ => some (src, 0x2202) | .updateStatus src => some (src, 0x2301)
  | .updateImageWrite src _ _ _ _ => some (src, 0x2302) | .updateReboot src _ => some (src, 0x2303)
  | .powerStatus src => some (src, 0x2401)
  | _ => none

namespace Machine

/-! ## Conditions and effects that the statements name -/

/-- The controller takes part in the bus and sends nothing itself (15 R426, R436). -/
abbrev CanHears (s : State) (k : Nat) : Prop :=
  k < 2 ∧ s.power.on ∧ (s.canCtl k).mode ≠ .disabled ∧ !(s.canCtl k).busOff ∧ !(s.canCtl k).integrating ∧ (s.canCtl k).air
    = none
/-- Every configured lane is TRIPPED (09 R258, R260). -/
abbrev AllTripped (s u : State) : Prop :=
  ∀ n, n < 8 → (s.lane n).state ≠ .unconfigured → (u.lane n).state = .tripped
/-- A sounding message names the one step of its lane (07 R206). -/
abbrev OfStep (z : State) (h : GHead) (m : SoundMsg) (o : OwnRole) (a : SoundStep) : Prop :=
  roleKind h.targetRole = 2 ∧ z.ownRole h.targetRole = some o ∧ (z.laneSound o.local_).steps = [a] ∧ a.set_ = m.set_ ∧
    a.step = m.step
/-- Every armed lane is TRIPPED by BARE ROCK (09 R284). -/
abbrev ArmedRocked (s u : State) : Prop :=
  ∀ n, n < 8 → laneArmed (s.lane n).state → (u.lane n).state = .tripped ∧ (u.lane n).cause = trBareRock
/-- A command at its checks on a path that may run it (14 R406; 17 R464, R470). -/
abbrev PathAllows (s : State) (c : Instr) (src : Source) (code : Nat) : Prop :=
  c.asked = some (src, code) ∧ AtTheGate s src code ∧ (serviceCodes.contains code = true → src.path = .service) ∧
    lifecycleAllows s.sec.lifecycle src.path code = true ∧ (s.sec.debug = .invasive → invasiveRefused.contains code = false)
/-- A safe frame is the next of its link, neither held nor seen (09 R279, R280). -/
abbrev NewOnLink (z : State) (b : List Byte) (r : LinkRx) : Prop :=
  z.safetyRuns ∧ z.safety.outConfigured ∧ safeFrameOk b ∧ z.rxLink (beAt b 4 2) (beAt b 6 2) = some r ∧ z.ageOk r b ∧
    r.fresh (beAt b 8 4) ∧ r.held = [] ∧ r.lastSeq ≠ some (beAt b 8 4)
/-- Both paths of a port that is on accept the frame (03 R80, R100). -/
abbrev Accepted (s : State) (p : Nat) (rx : TapRx) : Prop :=
  storeCheck rx = .accepted ∧ safetyCheck rx = .accepted ∧ (s.port p).state ≠ .off
/-- A standby that may take the role over (12 R355, R356). -/
abbrev OwnRole.mayTakeOver (o : OwnRole) : Prop :=
  o.state = .standby ∧ (o.sync = .inSync ∨ o.sync = .stale)
/-- A slot that may take an image of the role (11 R320, R346). -/
abbrev SlotFree (s : State) (slot role : Nat) : Prop :=
  (s.slot slot).staged = none ∧ ((s.slot slot).role = 0 ∨ (s.slot slot).role = role) ∧ !(s.net.own.any fun o => roleKind
    o.role == 3 && o.local_ == slot && o.role != role)
/-- The operands of QUEUE.CREATE in range, the queue not created yet (13 R377, R396). -/
abbrev QueueAsked (s : State) (q k prod cons thr : Nat) : Prop :=
  1024 ≤ q ∧ q ≤ 32767 ∧ 3 ≤ k ∧ k ≤ 16 ∧ 1 ≤ prod ∧ prod ≤ 2 ∧ 1 ≤ cons ∧ cons ≤ 2 ∧ thr ≤ 2 ^ k ∧ (s.queue q).k = 0
/-- A change that this module coordinates is open (10 R314, R317). -/
abbrev MyChange (s : State) (id : Nat) (c : Change) : Prop :=
  s.isCoordinator ∧ s.change id = some c ∧ s.coordinates c ∧ c.status = .open_
/-- A LOOP item of a running lane comes to its twin standby (12 R359). -/
abbrev LoopComes (s : State) (n : Nat) (o : OwnRole) (i : LoopItem) : Prop :=
  n < 8 ∧ s.laneRole n = some o ∧ o.state = .standby ∧ o.kind = .twin ∧ !o.mismatch ∧ s.net.twinPeerSide.isSome ∧ 2 ≤
    i.laneState ∧ i.laneState ≤ 5
/-- A safe link that this module sends on (09 R277). -/
abbrev LinkSends (z : State) (k : Nat) (x : LinkTx) : Prop :=
  z.safetyRuns ∧ z.safety.outConfigured ∧ z.net.berth.isSome ∧ (z.safety.tx.find? fun y => y.linkId == k) = some x
/-- An open role that no other module holds, its wait over (12 R348). -/
abbrev RoleVacant (s : State) (t r : Nat) (o : OwnRole) : Prop :=
  RoleOpen s r o ∧ s.otherHolder r = none ∧ !o.released ∧ !o.mismatch ∧ elapsed s.net.berthAt o.waitNs (s.nowAt t)
/-- A switch test that nothing disturbs (08 R235, R238). -/
abbrev TestGoesOn (s : State) (t n : Nat) (q : SwitchTest) : Prop :=
  !(s.atTime t).testDisturbed n q ∧ !s.capturePrepared n ∧ !elapsed q.startedAt (s.testBound + 1) (s.nowAt t)
/-- A frame that the controller receives is one that it can take, and the module is not beached (15 R433, R434). -/
abbrev CanStores (s : State) (k : Nat) (c : CanConfig) (f : CanFrame) : Prop :=
  CanHears s k ∧ (f.fdf → c.fd) ∧ (s.canCtl k).cfg = some c ∧ s.power.state ≠ .beached ∧ s.power.beach = none
/-- DMA.STATUS (13 R396). -/
abbrev ChannelStatusRead (s u z : State) (src : Source) (c : Nat) : Prop :=
  Answered s u src 0x1D05 [f1 (chanCode (z.channel c).state), f2 (ownerCode (z.channel c).owner), f1 (z.channel
    c).priority, f8 (((z.channel c).desc.map (·.addr)).getD (z.channel c).next), f4 (((z.channel c).lastRec.map (·.seq)).getD
    0), fb (z.channel c).pendingBell] s
/-- A descriptor accepted (13 R386, R388). -/
abbrev DescriptorTaken (s u : State) (c : Nat) (d : Desc) : Prop :=
  (u.channel c).desc = some d ∧ (u.channel c).state = .running ∧ (u.channel c).left = d.length ∧ (u.channel c).done_ = 0 ∧
    (∀ n, n ≠ c → u.channel n = s.channel n) ∧ u.fab.lpddr = s.fab.lpddr ∧ Moves [.fab] s u
/-- A burst moved (13 R384). -/
abbrev BurstDone (s u : State) (c : Nat) (d : Desc) : Prop :=
  u.fab.lpddr = writeBytes s.fab.lpddr (addrOff d.dst) (readBytes s.fab.lpddr (addrOff d.src) d.length) ∧ (u.channel
    c).done_ = d.length ∧ (u.channel c).left = 0 ∧ (u.channel c).lastGranted ∧ (u.channel c).bytes = ((s.channel c).bytes +
    d.length) % 2 ^ 64 ∧ Moves [.fab] s u
/-- A descriptor ends (13 R389, R392): its record, and the next descriptor. -/
abbrev DescriptorDone (s u : State) (c : Nat) (d : Desc) : Prop :=
  (u.channel c).state = .running ∧ (u.channel c).desc = none ∧ (u.channel c).next = (s.channel c).nextAddr (leAt
    (s.descBytes d.addr []) 0 4) ∧ (u.channel c).seq = ((s.channel c).seq + 1) % 2 ^ 32 ∧ (u.queue d.cq).pi = ((s.queue
    d.cq).pi + 1) % 2 ^ 32 ∧ (∀ a, a < (s.queue d.cq).slotAddr (s.queue d.cq).pi → readByte u.fab.lpddr a = readByte
    s.fab.lpddr a)
/-- TIME.SERVO_SET (02 R76). -/
abbrev ServoTaken (s u : State) (src : Source) (p : ServoParams) : Prop :=
  ∃ z, Answered s u src 0x0302 [] z ∧ z.servo = { s.servo with
    kp := p.kp, ki := p.ki, outlier := p.outlier, lockNs := p.lockNs, stepNs := p.stepNs } ∧ z.ptpPort 0 =
    { s.ptpPort 0 with asym := p.asymA } ∧ z.ptpPort 1 = { s.ptpPort 1 with asym := p.asymB } ∧ Changes [.servo, .ptp] s z
/-- A path delay measured (02 R48). -/
abbrev DelayTaken (u z : State) (l : Lan) (m : DelayResp) (t3 : Nat) : Prop :=
  (u.ptpPort (lanIx l)).delays = ((((z.ptpPort (lanIx l)).lastSyncT2 - (z.ptpPort (lanIx l)).lastSyncT1) + ((m.t4 : Int) -
    t3 - m.correction)).fdiv 2 :: (z.ptpPort (lanIx l)).delays).take 16 ∧ (u.ptpPort (lanIx l)).delayReqAt = none ∧ Moves
    [.ptp] z u
/-- A tide message of this module's lighthouse (02 R55, R56). -/
abbrev TidePublished (s u : State) (ref : Nat) (o : OwnRole) (x : PllOut) : Prop :=
  u.lh.sequence = (s.lh.sequence + 1) % 65536 ∧ u.lh.mark = none ∧ u.lh.lastT = some ref ∧ ∃ h m, u.out = .garzet (s.macTo
    0xFFFF .a) (s.macTo 0xFFFF .b) h (.tide m) :: s.out ∧ h.typ = 1 ∧ h.dstBerth = 0xFFFF ∧ h.srcRole = o.role ∧ m.version =
    1 ∧ m.inst = o.role % 2 ∧ m.locked = s.lh.locked ∧ m.refT = ref ∧ m.sequence = s.lh.sequence ∧ m.position = u.lh.count *
    65536 + x.angle ∧ m.frequency = x.freqUhz
/-- A tide message taken (02 R58). -/
abbrev InstanceHeard (u z : State) (m : TideMsg) : Prop :=
  u.inst m.inst = { z.inst m.inst with
    heard := true, silent := false, rxAt := z.now, refT := m.refT, position := m.position, freqUhz := m.frequency,
    lastSeq := some m.sequence, heardSeq := some m.sequence } ∧ u.inst (1 - m.inst) = z.inst (1 - m.inst) ∧ Moves [.tide,
    .lanes, .recorder, .ana, .therm, .ten] z u
/-- A firing armed with its entry's contents (02 R69, R73). -/
abbrev FiringArmed (s u : State) (t n k pos : Nat) : Prop :=
  u.table.armed = s.table.armed ++ [⟨n, k, pos, s.tide.timeOf pos, s.nowAt t, s.entry n, true⟩] ∧ u.entry n =
    { s.entry n with fireCount := ((s.entry n).fireCount + 1) % 2 ^ 32 } ∧ Only State.entry n [.clock, .table, .mbox] s u
/-- An ICV_WINDOW firing (04 R121). -/
abbrev WindowsClosed (s u : State) (a : ArmedFiring) : Prop :=
  (∀ k, k < 8 → a.content.arg0.testBit k → (u.icv k).windowStart = a.t0 ∧ (u.icv k).windowTag = a.pos ∧ !(u.icv k).partial_
    ∧ (u.icv k).prevStart = (s.icv k).windowStart ∧ (u.icv k).prevEnd = a.t0 ∧ (u.icv k).prevPartial = (s.icv k).partial_) ∧
    (∀ k, a.content.arg0.testBit k = false → u.icv k = s.icv k) ∧ Moves [.table, .ana] s u
/-- A graph's cycle begins (11 R328, R329). -/
abbrev CycleBegun (s u : State) (t n : Nat) (a : ArmedFiring) (g : Graph) : Prop :=
  (u.slot n).inCycle ∧ !(u.slot n).cycleDone ∧ (u.slot n).working = g.vars ∧ (u.slot n).cycleStart = cycleOf a.pos *
    s.baseB + a.k ∧ (u.slot n).publishAt = cycleOf a.pos * s.baseB + a.k + g.deadline ∧ (u.slot n).startedAt = s.nowAt t ∧
    Moves [.table, .ten] s u
/-- Stage 2 of the start ends (18 R488). -/
abbrev NetworkStarted (s u : State) (t : Nat) : Prop :=
  u.power.stage = (if ((List.range 8).all fun n => (s.lane n).cfg.isNone) = true then 4 else 3) ∧ u.net.announceAt =
    s.nowAt t ∧ !u.net.announceDue ∧ (∃ o ∈ u.out, ∃ a b h m, o = .garzet a b h (.announce m) ∧ h.dstBerth = 0xFFFF ∧ h.typ =
    7) ∧ Moves [.power, .net, .out, .recorder] s u
/-- Loss of both supplies (16 R450; 18 R486). -/
abbrev LinePowerLost (s u : State) (t v : Nat) : Prop :=
  !u.power.on ∧ (s.power.stage < 2 ∨ s.power.state = .beached → u.power.lossAt = some (s.nowAt t) ∧ !u.power.board ∧
    !u.power.charger ∧ !u.safety.outConfigured ∧ u.store.vHu = v ∧ ∀ n, n < 8 → (u.lane n).gatesForced ∧ !(u.lane n).helmOut
    ∧ !(u.lane n).kPos.drive ∧ !(u.lane n).kNeg.drive ∧ !(u.lane n).kPre.drive)
/-- TAP.LIMITS_SET (03 R106). -/
abbrev TapLimitsTaken (s u : State) (src : Source) (p ov uv : Nat) (ot : Int) (cells temps : Nat) : Prop :=
  ∃ z, Answered s u src 0x0603 [] z ∧ (z.port p).limits = { ov := ov, uv := uv, ot := ot, cells := cells, temps := temps }
    ∧ ((s.port p).state = .run → ∃ c ∈ (z.port p).waiting, c.kind = .config) ∧ (∀ q, q ≠ p → z.port q = s.port q) ∧
    (!s.store.settingsVolatile → z.store.settings.tail = s.store.settings ∧ z.store.settings.head?.map (fun r => (r.code,
    r.object)) = some (0x0603, p)) ∧ Changes [.tap, .model, .store, .recorder] s z
/-- A HELLO in training (03 R93, R95): its serial is recorded and the CONFIG sent. -/
abbrev HelloRecorded (s u : State) (t p : Nat) (rx : TapRx) : Prop :=
  (u.port p).hello = some (helloOf rx.bytes) ∧ (u.port p).recordedSerial = some (helloOf rx.bytes).serial ∧ (u.port
    p).trainStep = 3 ∧ (∃ c, (u.port p).inFlight = some c ∧ c.kind = .config ∧ u.out = .tap p (s.nowAt t) (s.nowAt t + 18 *
    640 - 40) (cmdBytes (s.port p).limits c) :: s.out) ∧ Moves [.tap, .model, .out] s u
/-- An echo's result (03 R91). -/
abbrev EchoMeasured (s u : State) (t p e : Nat) (rx : TapRx) : Prop :=
  (u.port p).echoSent = none ∧ (u.port p).echoOutRun = 0 ∧ (u.port p).mean = (((rx.startEdge : Int) - e - 4000 + 2 *
    (s.port p).asym) :: (s.port p).mean).take 16 ∧ (u.port p).trims =
    { at_ := s.nowAt t, trim := trimOf (echoMean (u.port p).mean), regains := false } :: (s.port p).trims ∧ Moves [.tap] s u
/-- A waiting command is sent in the command window (03 R96, R107). -/
abbrev CommandSentInWindow (s u : State) (t p : Nat) (c : TapCmd) : Prop :=
  (u.port p).inFlight = some { c with sends := c.sends + 1 } ∧ (u.port p).waiting = [{ c with sends := c.sends + 1 }] ∧
    (u.port p).windowOpen ∧ u.out = .tap p (s.nowAt t) (s.nowAt t + 18 * 640 - 40) (cmdBytes (s.port p).limits c) :: s.out ∧
    Moves [.tap, .out] s u
/-- ANALOG.COUNTERS_READ (04 R135). -/
abbrev AnalogCountersRead (s u : State) (src : Source) (k : Nat) (c : Bool) : Prop :=
  ∃ z, Answered s u src 0x0709 [f8 (s.conv k).urgentCollide, f8 (s.conv k).urgentDropped, f8 (s.conv k).resumedCount, f8
    (s.conv k).seqOverrun, f8 (s.conv k).clipCount] z ∧ z.conv k = (if c then { s.conv k with
    urgentCollide := 0, urgentDropped := 0, resumedCount := 0, seqOverrun := 0, clipCount := 0 } else s.conv k) ∧ Only
    State.conv k [.ana] s z
/-- DAC.SET (04 R129, R135). -/
abbrev DacValueTaken (s u : State) (src : Source) (k r c : Nat) : Prop :=
  ∃ z, Answered s u src 0x0902 [] z ∧ (r ≠ (s.dac k).range → z.dac k = { s.dac k with
    range := r, code := 0, stored := c, settleUntil := some (s.now + 20000), written := true, safe := false }) ∧ (r = (s.dac
    k).range → (s.dac k).settleUntil = none → z.dac k =
    { s.dac k with code := c, stored := c, written := true, safe := false }) ∧ (r = (s.dac k).range → (s.dac
    k).settleUntil.isSome → z.dac k = { s.dac k with stored := c, written := true, safe := false }) ∧ Only State.dac k [.ana]
    s z
/-- An ICV's word (04 R121, R124). -/
abbrev WordCounted (s u : State) (n : Nat) (c : Int) : Prop :=
  (u.icv n).last = some {
    tag := (s.icv n).prevTag, endNs := (s.icv n).prevEnd, windowNs := (s.icv n).prevEnd - (s.icv n).prevStart,
    count := satS 24 c, overrange := decide (c ≤ -8388608 ∨ 8388607 ≤ c), partial_ := (s.icv n).prevPartial } ∧ Only
    State.icv n [.clock, .ana, .model, .sound, .mbox] s u
/-- An edge of a tachometer (04 R131). -/
abbrev EdgeCounted (s u : State) (t k e : Nat) : Prop :=
  (u.tach k).count = wrapS 32 ((s.tach k).count + 1) ∧ (u.tach k).lastEdge = some (s.nowAt t) ∧ (u.tach k).lastInterval =
    edgeInterval e (s.nowAt t) ∧ !(u.tach k).stale ∧ (u.tach k).speed = satS 32 (roundA ((6000000000000 : Rat) /
    (edgeInterval e (s.nowAt t) * (s.tach k).ppr : Nat))) ∧ Only State.tach k [.clock, .ana, .therm, .ten, .mbox] s u
/-- LANE.COUNTERS_READ (05 R164). -/
abbrev LaneCountersRead (s u : State) (src : Source) (n : Nat) (c : Bool) : Prop :=
  ∃ z, Answered s u src 0x0B08 (s.lane n).counterFields z ∧ (!c → z.lane n = s.lane n) ∧ (c → (z.lane n).pwmSlip = 0 ∧
    (z.lane n).refusedSets = 0 ∧ (z.lane n).disarmForced = 0 ∧ (z.lane n).preOpen = 0 ∧ (z.lane n).preTimeout = 0 ∧ (z.lane
    n).preShort = 0) ∧ (z.lane n).state = (s.lane n).state ∧ Only State.lane n [.lanes] s z
/-- The period that starts at phase 0 (05 R142). -/
abbrev PeriodBegun (s u : State) (n len : Nat) (rest : List Nat) (q : Rat) : Prop :=
  (u.lane n).periods = rest ∧ ((u.lane n).phase 0).nextAt = some (q + (len : Rat) / 4) ∧ ((u.lane n).phase 0).len = len ∧
    (u.lane n).lastPeriodNs = (len : Rat) / 4 ∧ (u.lane n).periodSeq = ((s.lane n).periodSeq + 1) % 2 ^ 32 ∧ Moves [.lanes,
    .ana] s u
/-- A precharge that finds a short (05 R160). -/
abbrev PrechargeShort (s u : State) (n : Nat) : Prop :=
  (u.lane n).state = .disarmed ∧ (u.lane n).failName = 3 ∧ (u.lane n).preShort = inc64 (s.lane n).preShort ∧ !(u.lane
    n).kNeg.drive ∧ !(u.lane n).kPos.drive ∧ !(u.lane n).kPre.drive ∧ Only State.lane n [.clock, .lanes, .mbox, .recorder] s
    u
/-- A contactor's feedback changes (05 R156). -/
abbrev FeedbackSeen (s u : State) (t n k : Nat) (b : Bool) : Prop :=
  ((u.lane n).contactor k).fb = b ∧ ((u.lane n).contactor k).changedAt = s.nowAt t ∧ ((u.lane n).contactor k).closings =
    (if s.holdsHelm n ∧ b = true then inc64 ((s.lane n).contactor k).closings else ((s.lane n).contactor k).closings) ∧ (∀ j,
    j < 3 → j ≠ k → (u.lane n).contactor j = (s.lane n).contactor j) ∧ Only State.lane n [.clock, .lanes, .mbox] s u
/-- MODEL.ROUGH_COMMAND for a port (06 R202). -/
abbrev RoughBegun (s u : State) (src : Source) (p : Nat) (keep : Bool) : Prop :=
  ∃ z, Answered s u src 0x0C0A [] z ∧ (∀ c ∈ s.modelled p, (z.cell (cellIx p c)).estActive ∧ (z.cell (cellIx p c)).estVolts
    = [] ∧ (z.cell (cellIx p c)).learned = (if keep then (s.cell (cellIx p c)).learned else {})) ∧ (z.modelCount p).roughs =
    ((s.modelCount p).roughs + (s.modelled p).length) % 2 ^ 64 ∧ Changes [.model, .store, .recorder] s z
/-- MODEL.COUNTERS_READ (06 R202). -/
abbrev ModelCountersRead (s u : State) (src : Source) (p : Nat) (c : Bool) : Prop :=
  ∃ z, Answered s u src 0x0C0C [f8 (s.modelCount p).skipped, f8 (s.modelCount p).rejected, f8 (s.modelCount p).numeric, f8
    (s.modelCount p).diverged, f8 (s.modelCount p).reanchors, f8 (s.modelCount p).coasts, f8 (s.modelCount p).roughs] z ∧
    z.modelCount p = (if c then {} else s.modelCount p) ∧ Only State.modelCount p [.model] s z
/-- SOUND.SCHEDULE (07 R231): the lane's step, and the table entry it takes. -/
abbrev StepScheduled (s u : State) (src : Source) (r : SoundReq) (e : Nat) : Prop :=
  ∃ z, Answered s u src 0x0D01 [] z ∧ (z.laneSound r.lane).steps = (s.laneSound r.lane).tidy.steps ++ [{
    slot := (s.laneSound r.lane).tidy.freeSlot, set_ := r.set_, step := r.step, last := r.last, start := r.start,
    stepMa := r.stepMa, stepW := s.stepWatts r.lane r.stepMa, length := r.length, capture := r.capture,
    partnerRole := r.partnerRole, partnerEpoch := r.partnerEpoch, entry := e }] ∧ z.entry e = {
    position := r.start, kind := 4, arg0 := r.lane, arg1 := (s.laneSound r.lane).tidy.freeSlot } ∧ Changes [.sound, .table,
    .power, .recorder, .net, .out] s z
/-- SPRING.START (07 R231). -/
abbrev SpringStarted (s u : State) (src : Source) (n cv h : Nat) (i j : Int) : Prop :=
  ∃ z, Answered s u src 0x0E01 [] z ∧ (z.spring n).phase = .charge ∧ (z.spring n).iChg = i ∧ (z.spring n).iDis = j ∧
    (z.spring n).cvGain = cv ∧ (z.spring n).maxHours = h ∧ (z.spring n).startedAt = s.now ∧ (z.spring n).outcome = 0 ∧ (∀ m,
    m ≠ n → z.spring m = s.spring m) ∧ (∀ m, z.laneSound m = s.laneSound m) ∧ Changes [.sound, .model, .power, .table,
    .recorder] s z
/-- SPRING.ROSTER_READ (07 R231). -/
abbrev RosterRead (s u : State) (src : Source) : Prop :=
  Answered s u src 0x0E05 ([f2 s.sound.roster.share, f2 s.sound.roster.interval, f2 (s.sound.roster.lanes.filter
    (·.out)).length] ++ (s.sound.roster.lanes.filter (·.out)).map (fun l => f4 l.role) ++ [f2 (s.sound.roster.due
    s.now).length] ++ (s.sound.roster.due s.now).map fun l => f4 l.role) s
/-- BALANCE.CONFIG (08 R255), from the next plan on. -/
abbrev BalanceStaged (s u : State) (src : Source) (n : Nat) (r : BalRequest) : Prop :=
  ∃ z, Answered s u src 0x0F01 [] z ∧ z.laneTherm n = { s.laneTherm n with
    pendingBal := some {
    enable := r.enable, deadband := r.deadband, maxPerPort := r.maxPerPort, vMin := r.vMin, tMax := r.tMax,
    dropMin := r.dropMin, dropMax := r.dropMax, leak := r.leak } } ∧ Only State.laneTherm n [.therm] s z
/-- THERMAL.LIMITS_SET (08 R255), from the next base instant on. -/
abbrev ThermLimitsStaged (s u : State) (src : Source) (n : Nat) (r : ThermRequest) : Prop :=
  ∃ z, Answered s u src 0x1001 [] z ∧ z.laneTherm n = { s.laneTherm n with
    pendingCfg := some {
    tripHigh := r.tripHigh, warnHigh := r.warnHigh, shedStart := r.shedStart, warnLow := r.warnLow,
    chgInhibit := r.chgInhibit, tripLow := r.tripLow, rateLimit := r.rateLimit, shedFloor := r.shedFloor,
    hsShedStart := r.hsShedStart, hsTrip := r.hsTrip, coolLossShare := r.coolLossShare } } ∧ Only State.laneTherm n [.therm]
    s z
/-- A switch test that finds nothing (08 R238, R239). -/
abbrev SwitchTestPassed (s u : State) (t p : Nat) (q : SwitchTest) : Prop :=
  (u.balPort p).test = none ∧ (u.cell (cellIx p q.cell)).lastVerdict = some 0 ∧ (u.cell (cellIx p q.cell)).lastVerdictAt =
    s.nowAt t ∧ (u.cell (cellIx p q.cell)).balSwitchFault = false ∧ (u.cell (cellIx p q.cell)).balFaultRun = 0 ∧ (u.cell
    (cellIx p q.cell)).testedAt = (s.atTime t).fullNow ∧ (u.cell (cellIx p q.cell)).overdue = false ∧ Moves [.therm, .model,
    .tap, .recorder] s u
/-- A cooling loop's update (08 R248). -/
abbrev LoopUpdated (s u : State) (k : Nat) (c : CoolConfig) : Prop :=
  (u.coolLoop k).y = s.coolMeasure c.lanes ∧ (u.coolLoop k).duty = pumpDuty c (u.coolLoop k).u ∧ (u.coolLoop k).cfg = some
    c ∧ (s.coolMeasure c.lanes = none → (u.coolLoop k).u = (s.coolLoop k).loop.out.toNat) ∧ (∀ i, i < 8 → (s.aux i).source =
    .loop k → (u.aux i).duty = (u.coolLoop k).duty ∧ !(u.aux i).safe) ∧ Moves [.therm, .ten, .ana] s u
/-- SAFETY.STATUS (09 R287). -/
abbrev SafetyStatusRead (s u z : State) (src : Source) : Prop :=
  Answered s u src 0x1301 ([fb z.safety.moduleLatch, f8 (maskOf z.safety.moduleCauses)] ++ (List.range 8).flatMap (fun n =>
    [fb (z.laneSafe n).latch, f8 (maskOf (z.laneSafe n).latchCauses)]) ++ [fb z.safety.estopA, fb z.safety.estopB, fb
    z.safety.fireIn, fb z.safety.clear] ++ (List.range 4).flatMap (fun k => [fb (z.safeOut k), fb ((tget none
    z.safety.outRead k).getD (z.safeOut k))]) ++ [fb (z.safeLan 0).down, fb (z.safeLan 1).down, f1 (maskOf ((List.range
    8).filter z.permissive)), f1 ((z.safety.rock.map (·.1)).getD 0)]) s
/-- SAFETY.OC_SET (09 R287): the thresholds and the codes of the comparators. -/
abbrev OcThresholdsSet (s u : State) (src : Source) (n a b f : Nat) : Prop :=
  ∃ z, Answered s u src 0x1303 [] z ∧ (z.laneSafe n).ocString = some a ∧ (z.laneSafe n).ocPhase = some b ∧ (z.laneSafe
    n).ocFilter = f ∧ (∀ k, k < 7 → (tget {} (z.laneSafe n).comps k).code = s.compCode n k (if k = 0 then a else b) ∧ (tget
    {} (z.laneSafe n).comps k).tripped = (tget {} (s.laneSafe n).comps k).tripped) ∧ Only State.laneSafe n [.safety, .store]
    s z
/-- SAFETY.IO_SET (09 R287). -/
abbrev SafetyIoTaken (s u : State) (src : Source) (d : Nat) (f : Bool) (a b c e : Nat) : Prop :=
  ∃ z, Answered s u src 0x1304 [] z ∧ z.safety.discTime = d ∧ z.safety.fireEnable = f ∧ tget 0 z.safety.outMask 0 = a ∧
    tget 0 z.safety.outMask 1 = b ∧ tget 0 z.safety.outMask 2 = c ∧ tget 0 z.safety.outMask 3 = e ∧ z.safety.moduleLatch =
    s.safety.moduleLatch ∧ Changes [.safety, .store] s z
/-- SAFETY.LINK_SET of a link that the module receives (09 R280, R287). -/
abbrev LinkReceived (s u : State) (src : Source) (l : LinkSet) : Prop :=
  ∃ z, Answered s u src 0x1306 [] z ∧ z.safety.tx = s.safety.tx ∧ z.safety.rx = (s.safety.rx.filter fun x => !(x.berth ==
    l.berth && x.linkId == l.linkId)) ++ [{
    berth := l.berth, linkId := l.linkId, watchdog := linkWatchdog s.safety.hb l.watchdog, skew := l.skew.getD 500000,
    maxAge := l.maxAge.getD 2000000, actions := l.actions, lastAt := s.now }] ∧ Changes [.safety, .store] s z
/-- SAFETY.COUNTERS_READ (09 R287). -/
abbrev SafetyCountersRead (s u : State) (src : Source) (c : Bool) : Prop :=
  ∃ z, Answered s u src 0x130A ((List.range 7).map (fun k => f8 (tget 0 s.safety.transients k)) ++ (List.range 7).map (fun
    k => f8 (tget 0 s.safety.lastings k)) ++ tripCodes.map (fun c => f8 (tget 0 s.safety.trips c)) ++ [f8
    s.safety.clearsRefused, f8 s.safety.clearsOk]) z ∧ z.safety = (if c then { s.safety with
    transients := [], lastings := [], trips := [], clearsOk := 0, clearsRefused := 0 } else s.safety) ∧ Changes [.safety] s z
/-- The module's reset after a safety core fault (09 R258, R271). -/
abbrev CoreRestarted (s u : State) (t : Nat) : Prop :=
  u.safety.coreFault = none ∧ u.power.on ∧ u.power.stage = 0 ∧ u.safety.moduleLatch = s.safety.moduleLatch ∧ (∀ n,
    (u.laneSafe n).latch = (s.laneSafe n).latch) ∧ (∀ n, (u.lane n).state = .unconfigured ∧ !(u.lane n).helmOut) ∧ u.clock.ns
    = s.nowAt t ∧ u.fab.lpddr = s.fab.lpddr ∧ u.pending = s.pending
/-- A heartbeat of a safe link on both LANs (09 R275, R277). -/
abbrev HeartbeatSent (s u z : State) (k : Nat) (x : LinkTx) : Prop :=
  u.out = [.b, .a].map (fun n => .safe n x.linkId x.dest (safeBytes z.berthField x.linkId ((x.seq + 1) % 2 ^ 32) z.now
    z.srcState (z.linkBits x) z.timeOk)) ++ s.out ∧ (u.safety.tx.find? fun y => y.linkId == k) = some { x with
    seq := (x.seq + 1) % 2 ^ 32, lastSent := z.now, lastState := z.srcState, lastBits := z.linkBits x } ∧ Moves [.safety,
    .out] s u
/-- NET.STATUS (10 R318). -/
abbrev NetStatusRead (s u z : State) (src : Source) : Prop :=
  Answered s u src 0x1401 ((List.range 2).flatMap (fun l => [fb (z.netLan l).link, fb (z.netLan l).master, f2
    (Config.freeNat (s.fresh + l) % 65536), f8 (z.netLan l).mac, lldpField (z.netLan l).lldp, f1 (z.lanStateCode l)]) ++ [f2
    (z.net.peers.filter fun p => p.downA || p.downB).length] ++ (z.net.peers.filter fun p => p.downA || p.downB).flatMap fun
    p => [f2 p.berth, f1 ((if p.downA then 1 else 0) + if p.downB then 2 else 0)]) { s with fresh := s.fresh + 2 }
/-- NET.COUNTERS_READ (10 R318). -/
abbrev NetCountersRead (s u : State) (src : Source) (c : Bool) : Prop :=
  ∃ z, Answered s u src 0x1402 ((List.range 2).flatMap (fun l => [f8 (s.netLan l).framesIn, f8 (s.lanFrames l - (s.netLan
    l).framesOut), f8 (s.netLan l).fcsErr, f8 (s.netLan l).oversize, f8 (s.netLan l).foreign, f8 (s.netLan l).formatErr, f8
    (s.netLan l).duplicates]) ++ [f8 s.net.winDrops, f8 s.net.staleMsgs, f8 s.net.gapSkipped, f8 s.net.noAck, f8
    s.net.movedSent, f8 s.net.movedRecv, f8 s.net.orphans, f8 s.net.roleConflicts]) z ∧ (!c → z = s) ∧ (c → z.net.orphans = 0
    ∧ z.net.noAck = 0 ∧ z.net.movedSent = 0 ∧ (∀ l, l < 2 → (z.netLan l).framesIn = 0 ∧ (z.netLan l).duplicates = 0 ∧
    (z.netLan l).framesOut = s.lanFrames l ∧ (z.netLan l).link = (s.netLan l).link)) ∧ Changes [.net] s z
/-- BERTH.STATUS (10 R318). -/
abbrev BerthStatusRead (s u z : State) (src : Source) : Prop :=
  Answered s u src 0x1501 [f2 z.berthField, f1 (berthCode .both), f2 z.net.moduleEpoch, f2 ((z.net.storedBerth.map
    (·.1)).getD 0xFFFF), lldpField none, lldpField none, f8 (((z.net.announcers.find? fun a => (z.net.berth == some a.berth
    || z.net.seenEpoch.any fun x => x.1 == a.berth) && a.serial != z.net.serial).map (·.serial)).getD 0)] s
/-- ESTATE.CHANGE_PROPOSE (10 R318). -/
abbrev ProposalOpened (s u : State) (src : Source) (p : Proposal) : Prop :=
  ∃ z, Answered s u src 0x1602 [] z ∧ (z.change p.id).map (fun c =>
    { c with members := c.members.map fun (m : ChangeMember) => { berth := m.berth } }) = some {
    id := p.id, kind := p.kind, policy := p.policy, conservative := p.conservative, n := p.n, old := p.old, new_ := p.new_,
    coordBerth := s.berthField, members := p.members.map fun m => { berth := m } } ∧ Changes [.net, .out] s z
/-- A frame of another protocol, or one too long (10 R289). -/
abbrev ForeignCounted (s u : State) (lan : Lan) (o : Bool) : Prop :=
  (u.netLan (lanNo lan)).oversize = (if o then inc64 (s.netLan (lanNo lan)).oversize else (s.netLan (lanNo lan)).oversize)
    ∧ (u.netLan (lanNo lan)).foreign = (if o then (s.netLan (lanNo lan)).foreign else inc64 (s.netLan (lanNo lan)).foreign) ∧
    (u.netLan (lanNo lan)).framesIn = inc64 (s.netLan (lanNo lan)).framesIn ∧ Moves [.net] s u
/-- An ANNOUNCE on both LANs (10 R305). -/
abbrev AnnounceSent (s u : State) (t : Nat) : Prop :=
  !u.net.announceDue ∧ u.net.announceAt = s.nowAt t ∧ u.out.tail = s.out ∧ (∃ a b h, u.out.head? = some (.garzet a b h
    (.announce {
    part := 0, parts := 1, power := announcePower s.power.state, berth := s.berthField,
    moduleEpoch := if s.net.berth.isSome then s.net.moduleEpoch else 0, serial := s.net.serial, entries := s.ownEntries,
    mac := 0 }))) ∧ Moves [.net, .out] s u
/-- A mailbox message put in its sender's mailbox (14 R418, R421). -/
abbrev MessageQueued (s u : State) (t : Nat) (h : GHead) (b : List (BitVec 8)) : Prop :=
  u.box .garzet (senderKey h) = ({ s.box .garzet (senderKey h) with enable := true, lastReqAt := s.nowAt t } :
    Mailbox).message b {
    role := h.targetRole, epoch := h.targetEpoch, corr := h.corr, srcRole := h.srcRole, srcEpoch := h.srcEpoch } ∧ Moves
    [.net, .out] s u
/-- A stream without acknowledgement (10 R302). -/
abbrev StreamGivenUp (s u : State) (p : Nat) (m : StreamMsg) : Prop :=
  u.streamTx p = { s.streamTx p with unacked := [], queued := [], newStream := true } ∧ u.net.noAck = inc64 s.net.noAck ∧
    u.net.inboxFns = s.net.inboxFns ++ [{
    typ := 2, corr := m.head.corr, role := m.head.targetRole, status := stNoAck, holder := 0xFFFF, holderEpoch := 0 }] ∧
    Moves [.net] s u
/-- TENANT.LOAD's last part (11 R320, R342, R346): the image runs in a slot without one, and is staged in one with one. -/
abbrev SlotImagePlaced (s u z : State) (src : Source) (slot role : Nat) (up : List (BitVec 8)) : Prop :=
  Answered s u src 0x1801 [f4 (leAt up 8 4), f1 (z.slot slot).engine, f1 (if (s.slot slot).running.isSome then 1 else 0)] z
    ∧ (if (s.slot slot).running.isSome then (z.slot slot).staged.map (·.id) = some (leAt up 8 4) ∧ (z.slot slot).running =
    (s.slot slot).running ∧ (z.slot slot).state = (s.slot slot).state ∧ (z.slot slot).engine = (s.slot slot).engine else
    (z.slot slot).running.map (·.id) = some (leAt up 8 4) ∧ (z.slot slot).state = .stopped ∧ (z.slot slot).role = role ∧
    (z.slot slot).engine < 32) ∧ Only State.slot slot [.ten, .fab, .table] s z
/-- TENANT.STOP (11 R346). -/
abbrev SlotStopped (s u : State) (src : Source) (n : Nat) : Prop :=
  ∃ z, Answered s u src 0x1803 [] z ∧ (z.slot n).stop ∧ (z.slot n).state = (if (s.slot n).state = .empty then .empty else
    .stopped) ∧ (z.slot n).running = (s.slot n).running ∧ ((s.slot n).state ≠ .empty → ∀ h, (s.slot n).localHandles.contains
    h → (z.sigLocal h).absent) ∧ (∀ h, (s.slot n).localHandles.contains h = false → z.sigLocal h = s.sigLocal h) ∧ Changes
    [.ten, .ana, .therm, .lanes, .fab, .mbox, .can, .table] s z
/-- TENANT.UNLOAD (11 R346). -/
abbrev SlotEmptied (s u : State) (src : Source) (n : Nat) : Prop :=
  ∃ z, Answered s u src 0x1802 [] z ∧ (z.slot n).state = .empty ∧ (z.slot n).running = none ∧ (z.slot n).staged = none ∧
    (z.slot n).queueList = [] ∧ ((s.slot n).state ≠ .empty → ∀ h, (s.slot n).localHandles.contains h → (z.sigLocal h).absent)
    ∧ (∀ q, (s.slot n).queueList.contains q → (z.queue q).k = 0) ∧ Only State.slot n [.ten, .ana, .therm, .lanes, .fab,
    .mbox, .can, .table] s z
/-- TENANT.STATUS (11 R346). -/
abbrev SlotStatusRead (s u z : State) (src : Source) (n : Nat) : Prop :=
  Answered s u src 0x1805 [f1 (slotCode (z.slot n).state), f4 (z.slot n).role, f2 (((z.ownRole (z.slot n).role).map
    (·.epoch)).getD 0), f4 (((z.slot n).running.map (·.id)).getD 0), f4 (((z.slot n).staged.map (·.id)).getD 0), f4 (((z.slot
    n).fallback.map (·.id)).getD 0), f1 (z.slot n).engine, f4 (shareField (((z.slot n).running.map (·.share z.baseB)).getD
    0)), f8 (z.slot n).windowBase, f4 (((z.slot n).running.map (·.windowBytes)).getD 0), f2 (z.slot n).queueList.length,
    .struct ((z.slot n).queueList.flatMap (leBytes 2)), f8 (z.slot n).cycleStart, ft (z.slot n).lastFailAt, f1 (z.slot
    n).lastFail] s
/-- TENANT.COUNTERS_READ (11 R346). -/
abbrev TenantCountersRead (s u : State) (src : Source) (n : Nat) (c : Bool) : Prop :=
  ∃ z, Answered s u src 0x1806 [f8 (s.slot n).cycles, f8 (s.slot n).overruns, f8 (s.slot n).budgets, f8 (s.slot
    n).windowFails, f4 (s.slot n).peakUs, f8 (s.slot n).resized, f8 (s.slot n).retyped] z ∧ z.slot n = (if c then
    { s.slot n with
    cycles := 0, overruns := 0, budgets := 0, windowFails := 0, peakUs := 0, resized := 0, retyped := 0 } else s.slot n) ∧
    Only State.slot n [.ten] s z
/-- GRAPH.ACTIVATE (11 R346). -/
abbrev ActivationArmed (s u : State) (src : Source) (n p : Nat) : Prop :=
  ∃ z, Answered s u src 0x1901 [] z ∧ (∃ e, s.freeEntry s.usedEntries = some e ∧ z.slot n =
    { s.slot n with activateAt := some (p, e) } ∧ z.entry e = { position := p, enable := true, kind := 6, arg0 := n } ∧ (∀ k,
    k ≠ e → z.entry k = s.entry k)) ∧ Only State.slot n [.ten, .table] s z
/-- GRAPH.ENGINES_READ (11 R346). -/
abbrev EnginesListed (s u : State) (src : Source) : Prop :=
  Answered s u src 0x1905 ((List.range 32).flatMap fun k => [.struct (leBytes 1 (s.ten.slots.filter fun x => x.2.state !=
    .empty && x.2.engine == k).length ++ (s.ten.slots.filter fun x => x.2.state != .empty && x.2.engine == k).flatMap fun x
    => leBytes 1 x.1), f4 (shareField ((s.ten.slots.filter fun x => x.2.state != .empty && x.2.engine == k).map fun x =>
    (x.2.load s.baseB).2.1).sum), f4 (shareField ((s.ten.slots.filter fun x => x.2.state != .empty && x.2.engine == k).map
    fun x => (x.2.load s.baseB).2.2).sum), f4 ((s.ten.slots.filter fun x => x.2.state != .empty && x.2.engine == k).map fun x
    => (x.2.load s.baseB).1).sum, f1 (if (s.engine k).fault then 1 else 0)]) s
/-- A cycle's results kept until its publication (11 R329, R331). -/
abbrev CycleCompleted (s u : State) (n : Nat) (r : CycleResult) : Prop :=
  (u.slot n).cycleDone ∧ (u.slot n).inCycle ∧ (u.slot n).outputs = r.outputs.filter (fun o => if o.2.1 then (s.slot
    n).estateHandles.contains o.1 else (s.slot n).localHandles.contains o.1) ∧ (u.slot n).acts = r.acts ∧ (u.slot n).peakUs =
    max (s.slot n).peakUs r.usedUs ∧ (u.slot n).running = (s.slot n).running ∧ (u.slot n).working.length = (s.slot
    n).working.length ∧ (∀ (k : Nat) (v : GraphVar), (s.slot n).working[k]? = some v → (u.slot n).working[k]? = some
    { v with values := (r.vars.getD k v.values).take v.count }) ∧ (∀ k, k ≠ n → u.slot k = s.slot k) ∧ (∀ h, u.sigLocal h =
    s.sigLocal h) ∧ Moves [.ten] s u
/-- A cycle with an access outside its window (11 R326, R332). -/
abbrev WindowFailed (s u : State) (n : Nat) : Prop :=
  !(u.slot n).inCycle ∧ (u.slot n).working = [] ∧ (u.slot n).windowFails = inc64 (s.slot n).windowFails ∧ (u.slot
    n).failRun = (s.slot n).failRun + 1 ∧ (u.slot n).running = (s.slot n).running ∧ (u.slot n).state = (s.slot n).state ∧
    ((s.slot n).state = .active → ∀ h, (s.slot n).localHandles.contains h → u.sigLocal h =
    { s.sigLocal h with held := true }) ∧ Moves [.ten] s u
/-- A cycle over its budget (11 R331, R332). -/
abbrev BudgetFailed (s u : State) (n : Nat) : Prop :=
  !(u.slot n).inCycle ∧ (u.slot n).working = [] ∧ (u.slot n).budgets = inc64 (s.slot n).budgets ∧ (u.slot n).failRun =
    (s.slot n).failRun + 1 ∧ (u.slot n).running = (s.slot n).running ∧ ((s.slot n).state = .active → ∀ h, (s.slot
    n).localHandles.contains h → u.sigLocal h = { s.sigLocal h with held := true }) ∧ Moves [.ten] s u
/-- A tenant fault (11 R332). -/
abbrev TenantFaulted (s u : State) (t n : Nat) : Prop :=
  (u.slot n).state = .stopped ∧ (u.slot n).failRun = 0 ∧ u.holdsActive (s.slot n).role = false ∧ !(u.slot n).inCycle ∧ (∀
    h, (s.slot n).localHandles.contains h → (u.sigLocal h).absent) ∧ u.clock.ns = s.nowAt t ∧ u.fab.sram = s.fab.sram ∧
    u.safety = s.safety ∧ u.power = s.power ∧ u.tide = s.tide
/-- PAIR.STATUS (12 R374). -/
abbrev PairStatusRead (s u z : State) (src : Source) (r : Nat) (o : OwnRole) : Prop :=
  Answered s u src 0x1B02 [f1 (roleStateCode o.state), f1 (syncCode o.sync), f2 o.partner, f2 o.partnerEpoch, f2
    (z.formatTo o), f2 (o.partnerFormat.getD 0), f4 o.genSent, f4 (o.genApplied.getD 0), fb (roleKind r == 2 && (z.lane
    o.local_).helmOut), fb (roleKind r == 2 && (z.lane o.local_).helmIn), ft o.takeoverAt, f1 o.takeoverCause] s
/-- PAIR.COUNTERS_READ (12 R374). -/
abbrev PairCountersRead (s u : State) (src : Source) (r : Nat) (c : Bool) (o : OwnRole) : Prop :=
  ∃ z, Answered s u src 0x1B05 ((List.range 4).map (fun k => f8 (tget 0 o.mismatches k)) ++ [f8 o.inputDiff, f8
    o.unresolvedCount, f8 o.testsRun, f8 o.testsFailed, f8 o.mirrorDropped, f8 o.takeoverStale, f8 o.helmConflict, f8
    o.helmFenced, f8 s.net.twinDownCount, f8 o.formatGap]) z ∧ z.ownRole r = some (if c then { o with
    mismatches := [], inputDiff := 0, unresolvedCount := 0, testsRun := 0, testsFailed := 0, mirrorDropped := 0,
    takeoverStale := 0, helmConflict := 0, helmFenced := 0, formatGap := 0 } else o) ∧ z.net.twinDownCount = (if c then 0
    else s.net.twinDownCount) ∧ Only State.ownRole r [.net] s z
/-- A lane's role taken, its helm line raised (12 R348, R350). -/
abbrev HelmRaised (s u : State) (t r : Nat) (o : OwnRole) : Prop :=
  (∃ o', u.ownRole r = some o' ∧ o'.state = .active ∧ o'.epoch = s.takeEpoch r) ∧ (u.lane o.local_).helmOut ∧ (u.lane
    o.local_).helmRaisedAt = some (s.nowAt t) ∧ (u.lane o.local_).state = (s.lane o.local_).state ∧ Only State.lane o.local_
    [.clock, .net, .can, .table, .lanes, .mbox] s u
/-- Both sides raised the helm line (12 R350). -/
abbrev HelmGivenUp (s u : State) (t n : Nat) (o : OwnRole) : Prop :=
  !(u.lane n).helmOut ∧ (u.lane n).helmIn ∧ !(u.lane n).wantHelm ∧ (u.lane n).helmRetryAt = some (s.nowAt t + if
    s.net.twinSideB then 100000 else 20000) ∧ (∃ o', u.ownRole o.role = some o' ∧ o'.state = .none_ ∧ o'.helmConflict = inc64
    o.helmConflict) ∧ (u.lane n).state ≠ .run
/-- A lane's helm taken over (12 R355, R367). -/
abbrev LaneTakenOver (s u : State) (t r : Nat) (o : OwnRole) : Prop :=
  (∃ o', u.ownRole r = some o' ∧ o'.state = .active ∧ o'.epoch = s.takeEpoch r ∧ o'.takeoverAt = some (s.nowAt t) ∧
    o'.takeoverCause = tkLine) ∧ (u.lane o.local_).state = .run ∧ !(u.lane o.local_).gatesForced ∧ (u.lane o.local_).helmOut
    ∧ (u.lane o.local_).ramp = (s.lane o.local_).ramp ∧ (u.lane o.local_).spB = (s.lane o.local_).spB ∧ (∀ k, k ≠ o.local_ →
    u.lane k = s.lane k)
/-- A full generation in one fragment (12 R358, R359). -/
abbrev MirrorApplied (s u : State) (t : Nat) (f : MirrorFrag) (o : OwnRole) (b c : Nat) : Prop :=
  u.ownRole f.role = some { o with
    partnerEpoch := f.epoch, partnerFormat := some f.format, frags := [], genApplied := some f.gen,
    genAppliedAt := s.nowAt t, fullApplied := true, cleanSince := s.nowAt t, genMissed := o.genMissed % 2 ^ 64,
    runningPeer := some b, stagedPeer := some c } ∧ Moves [.net, .out] s u
/-- A LOOP item applied by the standby (12 R359, R367). -/
abbrev LoopMirrored (s u : State) (n : Nat) (i : LoopItem) : Prop :=
  (u.lane n).periodSeq = i.periodSeq ∧ (u.lane n).ramp = i.ramp ∧ (u.lane n).dff = i.dff ∧ (u.lane n).command = i.command ∧
    (u.lane n).peerState = i.laneState ∧ (u.lane n).spB.integ = i.bInteg ∧ (u.lane n).spB.yPrev = some i.bYPrev ∧ (u.lane
    n).state = (if (s.lane n).state = .disarmed then .shadow else (s.lane n).state) ∧ Only State.lane n [.clock, .net,
    .lanes, .mbox] s u
/-- A lane of the twin link goes down (12 R362, R363). -/
abbrev TwinLaneDown (s u : State) (t i : Nat) : Prop :=
  tget false u.net.twinDown i ∧ u.net.twinDownCount = inc64 s.net.twinDownCount ∧ (∀ j, j ≠ i → tget false u.net.twinDown j
    = tget false s.net.twinDown j) ∧ (∀ r o, s.ownRole r = some o → u.ownRole r = some (if u.twinGone ∧ roleKind r = 2 ∧
    o.state = .standby ∧ o.sync = .inSync then { o with sync := .stale, cleanSince := s.nowAt t } else o)) ∧ Moves [.net,
    .recorder] s u
/-- CAN.CONFIG (15 R427, R440). -/
abbrev CanConfigured (s u : State) (src : Source) (k : Nat) (c : CanConfig) : Prop :=
  ∃ z, Answered s u src 0x1E01 [] z ∧ (z.canCtl k).mode = c.mode ∧ (z.canCtl k).cfg = some c ∧ (z.canCtl k).air = none ∧
    (z.canCtl k).integrating ∧ (z.canCtl k).filters = (s.canCtl k).filters ∧ (∀ b, b < 32 → (z.txBuf k b).owner =
    c.owners.getD b .none_ ∧ (z.txBuf k b).retry = c.retries.getD b 3 ∧ (z.txBuf k b).req = none) ∧ Only State.canCtl k
    [.can, .fab, .mbox, .ten, .store] s z
/-- CAN.SEND (15 R430, R440). -/
abbrev FrameRequested (s u : State) (src : Source) (k b : Nat) (f : CanFrame) : Prop :=
  ∃ z, Answered s u src 0x1E03 [f4 (s.canCtl k).txSeq] z ∧ z.txBuf k b = { s.txBuf k b with
    req := some { frame := canToSend f, txSeq := (s.canCtl k).txSeq, acceptedAt := s.now } } ∧ (z.canCtl k).txSeq =
    ((s.canCtl k).txSeq + 1) % 2 ^ 32 ∧ (∀ j, j ≠ b → z.txBuf k j = s.txBuf k j) ∧ Only State.canCtl k [.can] s z
/-- CAN.STATUS (15 R440). -/
abbrev CanStatusRead (s u z : State) (src : Source) (k : Nat) : Prop :=
  Answered s u src 0x1E06 ([f1 (canModeCode (z.canCtl k).mode), f1 (z.canCtl k).errorState, f2 (z.canCtl k).tec, f2
    (z.canCtl k).rec_, f2 ((z.canCtl k).loopDelay.getD 65535)] ++ (List.range 32).flatMap (fun b => [fb (z.txBuf k
    b).req.isSome, f1 ((z.txBuf k b).last.getD 255)]) ++ [f1 (z.containerState (z.canCtl k))]) s
/-- CAN.COUNTERS_READ (15 R440). -/
abbrev CanCountersRead (s u : State) (src : Source) (k : Nat) (c : Bool) : Prop :=
  ∃ z, Answered s u src 0x1E08 ([f8 (s.canCtl k).sent, f8 (s.canCtl k).received] ++ ([2, 3, 4, 5, 6].map fun e => f8 (tget
    0 (s.canCtl k).errors e)) ++ [f8 (s.canCtl k).arbLost, f8 (s.canCtl k).busOffs, f8 (s.canCtl k).pxe, f8 (s.canCtl
    k).tdcRange, f8 (s.canCtl k).rxLost, f8 (s.canCtl k).rxBeached, f8 (s.canCtl k).noMatch, f8 (s.canCtl k).refLate, f8
    (s.canCtl k).notOwner]) z ∧ z.canCtl k = (if c then { s.canCtl k with
    sent := 0, received := 0, errors := [], arbLost := 0, busOffs := 0, pxe := 0, tdcRange := 0, rxLost := 0, rxBeached := 0,
    noMatch := 0, refLate := 0, notOwner := 0 } else s.canCtl k) ∧ Only State.canCtl k [.can] s z
/-- An attempt starts on the bus (15 R430). -/
abbrev AttemptBegun (s u : State) (t k b : Nat) (r : TxReq) (f : CanFrame) : Prop :=
  u.txBuf k b = { s.txBuf k b with
    req := some { r with startAt := some (s.nowAt t), attempts := r.attempts + 1, onBus := true } } ∧ (u.canCtl k).air = some
    f ∧ u.out = .can k b f :: s.out ∧ (∀ j, j ≠ b → u.txBuf k j = s.txBuf k j) ∧ Only State.canCtl k [.clock, .can, .out,
    .mbox] s u
/-- An attempt that will be repeated (15 R431, R436). -/
abbrev AttemptFailed (s u : State) (k b e : Nat) (r : TxReq) : Prop :=
  u.txBuf k b = { s.txBuf k b with req := some { r with onBus := false, lastError := e } } ∧ (u.canCtl k).air = none ∧
    (u.canCtl k).tec = (s.canCtl k).tec + 8 ∧ tget 0 (u.canCtl k).errors e = (tget 0 (s.canCtl k).errors e + 1) % 2 ^ 64 ∧
    (u.canCtl k).sent = (s.canCtl k).sent ∧ Only State.canCtl k [.clock, .can, .mbox] s u
/-- The last attempt of a request failed (15 R431, R432). -/
abbrev RetriesUsedUp (s u : State) (k b e : Nat) : Prop :=
  (u.txBuf k b).req = none ∧ (u.txBuf k b).last = some coRetries ∧ (u.canCtl k).tec = (if e = 1 then (s.canCtl k).tec else
    (s.canCtl k).tec + 8) ∧ (u.canCtl k).sent = (s.canCtl k).sent ∧ Only State.canCtl k [.clock, .can, .fab, .mbox, .ten] s u
/-- A frame put in a queue (15 R434): one entry of it, and no other byte. -/
abbrev FrameQueued (s u : State) (k a i q : Nat) (f : CanFrame) : Prop :=
  u.queue q = { s.queue q with pi := ((s.queue q).pi + 1) % 2 ^ 32 } ∧ u.lpRead ((s.queue q).slotAddr (s.queue q).pi) 64 =
    rxEntries k a (some i) f ∧ (∀ x, ¬((s.queue q).slotAddr (s.queue q).pi ≤ x ∧ x < (s.queue q).slotAddr (s.queue q).pi +
    64) → readByte u.fab.lpddr x = readByte s.fab.lpddr x) ∧ u.fab.sram = s.fab.sram ∧ (∀ j, j ≠ q → u.queue j = s.queue j) ∧
    Only State.canCtl k [.clock, .can, .fab, .fresh, .mbox] s u
/-- A controller goes bus off (15 R436). -/
abbrev BusOffEntered (s u : State) (k : Nat) : Prop :=
  (u.canCtl k).busOff ∧ (u.canCtl k).busOffs = inc64 (s.canCtl k).busOffs ∧ (∀ b, b < 32 → (u.txBuf k b).req = none) ∧ (∀
    b, b < 32 → (s.txBuf k b).req.isSome → (u.txBuf k b).last = some coBusOff) ∧ u.alarmOn evCanBusOff 11 k ∧ Only
    State.canCtl k [.clock, .can, .fab, .mbox, .ten, .recorder] s u
/-- A time reference waits in the transmit buffer (15 R437). -/
abbrev ReferenceQueued (s u : State) (t k : Nat) (m : TimeMaster) : Prop :=
  (∃ r, (u.txBuf k 31).req = some r ∧ r.reference ∧ r.acceptedAt = s.nowAt t ∧ r.frame.id = m.identifier ∧ r.frame.ide =
    m.ide ∧ r.frame.fdf ∧ r.frame.data.length = 20) ∧ (u.canCtl k).refDueAt = t ∧ (∀ j, j ≠ 31 → u.txBuf k j = s.txBuf k j) ∧
    Moves [.can, .fresh] s u
/-- STORE.STATUS (16 R459). -/
abbrev StoreStatusRead (s u z : State) (src : Source) : Prop :=
  Answered s u src 0x1F01 (([0, 1].flatMap fun k => [fb (z.device k).present, fb (z.device k).failed, f1 (wearCode
    (z.device k).stage), f2 (z.device k).sparesLeft]) ++ [f4 z.cHuField, f8 z.store.cHuAt, f4 ((z.store.eAvail.map fun e =>
    (roundQ (e * 1000)).toNat).getD 0), f2 z.waitingWrites.1, f4 z.waitingWrites.2, f8 z.store.genCommit, f8
    z.store.commitTime, f8 z.store.lastScrub, f1 z.store.lastScrubRes]) s
/-- STORE.WEAR_READ (16 R459). -/
abbrev WearListed (s u : State) (src : Source) (d : Nat) : Prop :=
  Answered s u src 0x1F04 ([f4 (s.recentRetries (s.device d)).length, f4 (s.device d).retries, f2 (s.device
    d).remap.length] ++ (s.device d).remap.map (fun x => f4 (x.1 + x.2 * 65536)) ++ [f2 (s.device d).badSectors.length] ++
    (s.device d).badSectors.map f2 ++ storeRegions.flatMap fun r => [f4 (((List.range r.2).map fun i => tget 0 (s.device
    d).erases (r.1 + i)).foldl max 0), f4 (((List.range r.2).map fun i => tget 0 (s.device d).erases (r.1 + i)).sum / r.2)])
    s
/-- A commit is complete (16 R443, R445). -/
abbrev CommitFinished (s u : State) (t : Nat) (c : Commit) : Prop :=
  u.store.genCommit = c.generation ∧ u.store.commitTime = c.startedAt ∧ u.store.lastCommitEnd = s.nowAt t ∧ u.store.commit
    = none ∧ u.store.laneCounts = c.lanes ∧ u.model = { s.model with storedBlocks := c.into s.model.storedBlocks } ∧ (∀ k,
    u.device k = s.device k) ∧ Moves [.model, .store, .recorder] s u
/-- The hold-up capacitor measured (16 R449). -/
abbrev HoldupMeasured (s u : State) (t v v0 : Nat) : Prop :=
  u.store.measuring = none ∧ u.store.vHu = v ∧ u.store.cHu = some (25 / ((v0 : Rat) - (v : Rat))) ∧ u.store.cHuAt =
    (s.atTime t).onNow ∧ (u.store.ops ++ u.store.running.toList).any (fun o => o.kind == .header) ∧ u.alarmOn evHoldupLow 0 0
    = decide (v0 > v + 5100) ∧ Moves [.store, .recorder] s u

end Machine
end Sys2Proof
end

