-- ==== Sys2Proof/Certificates/Slice0/Obligations.lean ====
section
/-! DEFINITION. The statements for the provers: what every command does and leaves alone, what every step keeps, and what the
gate, the queue and the payloads of commands do. -/

open Sys2Proof Sys2Proof.Machine

/-- Reads of the module and its mailboxes answer what the registers hold (14 R409, R410, R425). -/
def Obligations.ModuleAndMailboxReadsComplete : Prop := ∀ (s z : State) (src : Source) (data : List Byte) (clear : Bool),
 (Taken s src 0x0101 → ∃ u, exec (.moduleIdentify src) s = .next u ∧ Answered s u src 0x0101 (s.identity.map f4 ++ [macField (s.netLan 0).mac, macField (s.netLan 1).mac]) s) ∧
 (Taken s src 0x0102 → z = s.seen → ∃ u, exec (.moduleStatus src) s = .next u ∧ ∃ p, Answered s u src 0x0102 p s ∧ p.take 4 = [f4 z.moduleStateWord, f4 z.berthWord, f4 z.lanesWord, f2 (min 64
 z.recorder.alarms.length)]) ∧
 (Taken s src 0x0201 → data.length ≤ 1024 → ∃ u, exec (.mboxNop src data) s = .next u ∧ Answered s u src 0x0201 (data.map fun b => f1 b.toNat) s) ∧
 (Taken s src 0x0202 → z = s.seen → ∃ u, exec (.mboxStatus src) s = .next u ∧ ∃ p, Answered s u src 0x0202 p s ∧ p.head? = some (f2 z.everyBox.length)) ∧
 (Taken s src 0x0203 → ∃ u, exec (.mboxCountersRead src clear) s = .next u ∧ ∃ p, Answered s u src 0x0203 p { s with mbox := { s.mbox with counts := if clear then [] else s.mbox.counts } } ∧ p.length
 = 30 ∧ ∀ i < 3, p.getD (10 * i) (f1 0) = f8 (s.pathCount i).taken)

/-- Host-window accesses change the registers they name and nothing else (14 R408, R410, R411, R412, R414, R416). -/
def Obligations.HostWindowAccessesComplete : Prop := ∀ (s : State) (t v m w o n : Nat) (on : Bool) (bs : List Byte),
 (s.mbox.hostLinked → ∃ u, exec (.intStatusWrite t v) s = .next u ∧ u = { s.atTime t with mbox := { s.mbox with intStatus := s.mbox.intStatus - (s.mbox.intStatus &&& v) } }) ∧
 (m < 4 → s.mbox.hostLinked → ∃ u, exec (.mailboxEnableWrite t m on) s = .next u ∧ (u.box .pcie m).enable = on ∧ (∀ k, k ≠ m → u.box .pcie k = s.box .pcie k) ∧ Moves [] s u) ∧
 (m < 4 → s.mbox.hostLinked → (s.box .pcie m).executing = none → ∃ u, exec (.mailboxResetWrite t m) s = .next u ∧ !(u.box .pcie m).enable ∧ (u.box .pcie m).queue = [] ∧ (u.queue (16 + 2 * m)).pi = 0
 ∧ (u.queue (16 + 2 * m)).ci = 0 ∧ (u.queue (17 + 2 * m)).pi = 0 ∧ (u.queue (17 + 2 * m)).ci = 0 ∧ Moves [.fab] s u) ∧
 (s.mbox.hostLinked → ∃ u, exec (.timeLoRead t) s = .next u ∧ u = { s.atTime t with
 mbox := { s.mbox with lastRead := some ((s.atTime t).clock.ns % 2 ^ 32), timeHi := (s.atTime t).clock.ns / 2 ^ 32 % 2 ^ 32 } }) ∧
 (w < 1024 → s.mbox.hostLinked → ∃ u, exec (.queueNoticePendingWrite t w v) s = .next u ∧ (∀ q, q ∈ u.mbox.noticePending ↔ q ∈ s.mbox.noticePending ∧ ¬ (q / 32 = w ∧ v.testBit (q % 32))) ∧ Moves [] s
 u) ∧
 (s.mbox.hostLinked → v < 2 ^ 32 → (∃ u, exec (.registerWrite t 0x84 v 4) s = .next u ∧ u = { s.atTime t with mbox := { s.mbox with intEnable := v % 256 } }) ∧ (∃ u, exec (.registerWrite t 0x200 v 4)
 s = .next u ∧ u = { s.atTime t with mbox := { s.mbox with qsel := v % 32768 } }) ∧ (∀ o, o < 0x80000 → o % 4 ≠ 0 → ∃ u, exec (.registerWrite t o v 4) s = .next u ∧ u =
 { s.atTime t with mbox := { s.mbox with unsupported := inc64 s.mbox.unsupported } })) ∧
 (s.mbox.hostLinked → 1 ≤ bs.length → bs.length ≤ 256 → o + bs.length ≤ 2 ^ 29 → (∀ i, s.hostByte i = false) → ∃ u, exec (.bar2Access t true o bs n) s = .next u ∧ Moves [] s u ∧ (u.pathCount
 0).accessDenied = inc64 (s.pathCount 0).accessDenied)

/-- Lifecycle, debug and update commands do what chapter 17 gives them (17 R462, R463, R468, R470, R472, R473, R475, R476,
R478). -/
def Obligations.LifecycleDebugAndUpdateCommandsComplete : Prop := ∀ (s z : State) (src : Source) (r : TurnReq) (n : Nat) (bs : List Byte) (g : Bool),
 (Taken s src 0x2101 → z = s.seen → ∃ u, exec (.lifecycleStatus src) s = .next u ∧ ∃ p, Answered s u src 0x2101 p s ∧ p.take 2 = [f1 (lifecycleCode z.sec.lifecycle), f1 z.sec.keyGens.length]) ∧
 (Taken s src 0x2102 → r.revoked.length ≤ 256 → r.prefixLen ≤ 32 → s.sec.keyGens.length < 16 → r.rootIsCa → s.sec.lifecycle ≠ .parted → ∃ u, exec (.lifecycleTurn src r) s = .next u ∧ ∃ z, Answered s
 u src 0x2102 [] z ∧ z.sec.keyGens = { root := r.root, delivery := r.delivery, revoked := r.revoked, ipv4 := some (r.ipv4, r.prefixLen) } :: s.sec.keyGens ∧ z.sec.lifecycle = (if s.sec.lifecycle =
 .blank then .turned else s.sec.lifecycle) ∧ Changes [.mbox, .sec, .recorder] s z) ∧
 (Taken s src 0x2103 → s.sec.lifecycle = .turned → s.sec.debug ≠ .invasive → ∃ u, exec (.lifecycleSeal src) s = .next u ∧ ∃ z, Answered s u src 0x2103 [] z ∧ z.sec =
 { s.sec with lifecycle := .sealed } ∧ Changes [.sec, .recorder] s z) ∧
 (Taken s src 0x2104 → n = s.net.serial → !s.anyArmed → !s.holdsAny → s.sec.lifecycle ≠ .blank → ∃ u, exec (.lifecycleDecommission src n) s = .next u ∧ Replied s u src 0x2104 stOk [] ∧
 u.sec.lifecycle = .parted ∧ u.store.settings = [] ∧ u.ana.calStored = [] ∧ u.net.storedBerth = none ∧ u.power.on ∧ u.power.stage = 0) ∧
 (Taken s src 0x2201 → z = s.seen → ∃ u, exec (.debugStatus src) s = .next u ∧ Answered s u src 0x2201 (f1 (debugCode z.sec.debug) :: f1 (z.sec.debugSession.getD 255) :: f1 z.sec.halted.length ::
 z.sec.halted.map f1) s) ∧
 (Taken s src 0x2202 → s.sec.debug = .none_ → ∃ u, exec (.debugLevelSet src 1) s = .next u ∧ ∃ z, Answered s u src 0x2202 [] z ∧ z.sec = { s.sec with debug := .observe, debugSession := some src.box }
 ∧ Changes [.sec, .recorder] s z) ∧
 (Taken s src 0x2301 → z = s.seen → ∃ u, exec (.updateStatus src) s = .next u ∧ ∃ p, Answered s u src 0x2301 p s ∧ p.take 3 = [f1 (imgCode (z.imgSlot 0).state), f4 (z.imgSlot 0).fwVersion, f8
 (z.imgSlot 0).build]) ∧
 (Taken s src 0x2302 → bs.length ≤ 50331648 → s.sec.lifecycle ≠ .parted → !s.slotUnwritable (1 - s.sec.active) → ∃ u, exec (.updateImageWrite src 0 bs false g) s = .next u ∧ ∃ z, Answered s u src
 0x2302 [] z ∧ (z.imgSlot (1 - s.sec.active)).state = .writing ∧ (z.imgSlot (1 - s.sec.active)).upload = bs ∧ Changes [.sec, .store, .recorder] s z) ∧
 (Taken s src 0x2303 → !s.holdsAnyActive → (s.imgSlot (1 - s.sec.active)).state = .pending → ∃ u, exec (.updateReboot src true) s = .next u ∧ Replied s u src 0x2303 stOk [] ∧ u.sec.tryMark = some (1
 - s.sec.active) ∧ u.power.on ∧ u.power.stage = 0 ∧ u.recorder.ring = s.recorder.ring)

/-- What happens at the service port opens, keeps and closes sessions as chapter 17 states (14 R417; 17 R465, R467, R469, R470,
R475). -/
def Obligations.ServicePortEventsComplete : Prop := ∀ (s : State) (t i a core : Nat) (hs : Handshake) (bs : List Byte) (x : Session),
 (s.power.on → s.power.state = .full → s.mbox.ready → s.mbox.lockoutUntil = none → s.mbox.sessions.length < 4 → s.handshakeOk hs → ∃ u, exec (.serviceConnect t hs) s = .next u ∧ u.mbox.sessions.map
 (·.subject) = s.mbox.sessions.map (·.subject) ++ [hs.serial] ∧ Moves [.recorder] s u) ∧
 ((∃ x ∈ s.mbox.sessions, x.id = i) → ∃ u, exec (.serviceMessage t i bs) s = .next u ∧ (∀ x ∈ u.mbox.sessions, x.id = i → x.lastMsgAt = s.nowAt t) ∧ Moves [] s u) ∧
 (s.mbox.lockoutUntil = some a → a ≤ s.nowAt t → ∃ u, exec (.lockoutEnd t) s = .next u ∧ u = { s.atTime t with mbox := { s.mbox with lockoutUntil := none } }) ∧
 ((∃ x ∈ s.mbox.sessions, x.id = i ∧ x.lastMsgAt + 900000000000 ≤ s.nowAt t) → ∃ u, exec (.sessionTimeout t i) s = .next u ∧ (∀ x ∈ u.mbox.sessions, x.id ≠ i) ∧ Moves [.sec, .recorder] s u) ∧
 ((∃ x ∈ s.mbox.sessions, x.id = i) → ∃ u, exec (.sessionClose t i) s = .next u ∧ (∀ x ∈ u.mbox.sessions, x.id ≠ i) ∧ Moves [.sec, .recorder] s u) ∧
 (x ∈ s.mbox.sessions → x.endsAt = some a → a ≤ s.nowAt t → ∃ u, exec (.sessionKeyExpiry t) s = .next u ∧ (∀ y ∈ u.mbox.sessions, y.id ≠ x.id) ∧ Moves [.sec, .recorder] s u) ∧
 (core < 4 → s.sec.debug = .invasive → ∃ u, exec (.debugHalt t core) s = .next u ∧ core ∈ u.sec.halted ∧ (∀ k ∈ s.sec.halted, k ∈ u.sec.halted) ∧ Moves [.sec] s u) ∧
 (s.power.on → 2 ≤ s.power.stage → !s.sec.recovery → !s.sec.trial → s.sec.active = s.sec.default_ → 72 * 3600 * 10 ^ 9 ≤ (s.atTime t).imageNow → s.sec.rollback < (s.imgSlot s.sec.default_).rollback →
 ∃ u, exec (.rollbackAdvanced t) s = .next u ∧ u.sec = { s.sec with rollback := min 63 (s.imgSlot s.sec.default_).rollback } ∧ Moves [.sec, .recorder] s u)

/-- Requests are taken, doorbells move indices and mailboxes close as chapter 14 states (13 R378; 14 R402, R404, R410, R413,
R415, R416, R418, R420). -/
def Obligations.MailboxTrafficEventsComplete : Prop := ∀ (s : State) (t b m k c v : Nat) (w : List Byte),
 (∀ (q : Request), (s.atTime t).serving → (s.atTime t).nextServed = some (.service, b) → (s.box .service b).queue = [q] → !(s.box .service b).resetPending → q.envErr = none → q.command = 0x0201 →
 q.bytes.length ≤ 1024 → Served (s.atTime t) { path := .service, box := b, tag := q.tag, corr := q.corr } 0x0201 → ∃ u, exec (.requestTake t .service b) s = .next u ∧ (u.box .service b).queue = [] ∧
 u.mbox.responses.dropLast = s.mbox.responses ∧ u.mbox.responses.getLast?.map (fun r => (r.tag, r.status, r.payload)) = some (q.tag, stOk, q.bytes.map fun x => f1 x.toNat)) ∧
 (m < 4 → (s.atTime t).serving → (s.box .pcie m).waiting = [w] → (s.ringPut (17 + 2 * m) w).isSome → ∃ u, exec (.respRoom t m) s = .next u ∧ (u.box .pcie m).waiting = [] ∧ (u.queue (17 + 2 * m)).pi =
 ((s.queue (17 + 2 * m)).pi + (w.length + 63) / 64) % 2 ^ 32) ∧
 ((∃ b ∈ s.mbox.boxes, b.path = .garzet ∧ b.box = k ∧ b.queue = [] ∧ b.executing = none ∧ b.lastReqAt + 10 ^ 10 ≤ s.nowAt t) → ∃ u, exec (.mailboxClose t k) s = .next u ∧ (∀ b ∈ u.mbox.boxes, ¬
 (b.path = .garzet ∧ b.box = k)) ∧ Moves [] s u) ∧
 ((∃ r ∈ s.net.requests, r.corr = c ∧ r.waitUntil ≤ s.nowAt t) → ∃ u, exec (.requestTimeout t c) s = .next u ∧ (∀ r ∈ u.net.requests, r.corr ≠ c) ∧ (∃ f ∈ u.net.inboxFns, f.corr = c ∧ f.status =
 stTimeout)) ∧
 ((s.atTime t).serving → s.mbox.heartbeatAt + 10 ^ 8 ≤ s.nowAt t → ∃ u, exec (.heartbeat t) s = .next u ∧ u =
 { s.atTime t with mbox := { s.mbox with heartbeat := !s.mbox.heartbeat, heartbeatAt := s.nowAt t } }) ∧
 (∀ (q : Nat), q < 32768 → s.mbox.hostLinked → v < 2 ^ 32 → (s.queue q).k ≠ 0 → (s.queue q).prod = 2 → (v + 2 ^ 32 - (s.queue q).ci) % 2 ^ 32 ≤ 2 ^ (s.queue q).k → ∃ u, exec (.queueDoorbellPi t q v)
 s = .next u ∧ u.queue q = { s.queue q with pi := v } ∧ Only State.queue q [.clock, .mbox, .fab] s u) ∧
 (∀ (q : Nat), q < 32768 → s.mbox.hostLinked → v < 2 ^ 32 → (s.queue q).k ≠ 0 → (s.queue q).cons = 2 → ((s.queue q).pi + 2 ^ 32 - v) % 2 ^ 32 ≤ 2 ^ (s.queue q).k → ∃ u, exec (.queueDoorbellCi t q v)
 s = .next u ∧ u.queue q = { s.queue q with ci := v } ∧ Only State.queue q [.clock, .mbox, .fab] s u) ∧
 (∀ (q : Nat), q < 32768 → s.mbox.hostLinked → v < 2 ^ 32 → (s.queue q).prod ≠ 2 → ∃ u, exec (.queueDoorbellPi t q v) s = .next u ∧ (u.queue q).pi = (s.queue q).pi ∧ (u.pathCount 0).indexError =
 inc64 (s.pathCount 0).indexError ∧ Moves [.fab] s u) ∧
 (c < 64 → s.mbox.hostLinked → (s.channel c).owner = .pcie → (s.channel c).state = .running → ∃ u, exec (.channelDoorbellRing t c) s = .next u ∧ u.channel c = { s.channel c with pendingBell := true }
 ∧ Moves [.fab] s u) ∧
 (c < 64 → s.mbox.hostLinked → (s.channel c).owner = .pcie → (s.channel c).state = .parked → ∃ u, exec (.channelDoorbellAbort t c) s = .next u ∧ (u.channel c).state = .stopped ∧ (u.channel
 c).abortIdle = inc64 (s.channel c).abortIdle ∧ Moves [.fab] s u) ∧
 (s.mbox.hostLinked → ∃ u, exec (.pcieFunctionReset t) s = .next u ∧ u.mbox.intEnable = 0 ∧ (∀ m < 4, (u.box .pcie m).enable = false ∧ (u.box .pcie m).queue = []))

/-- Queue and DMA commands create, destroy and start what chapter 13 states (13 R376, R377, R381, R382, R386, R389, R390, R394,
R396). -/
def Obligations.QueueAndDmaCommandsComplete : Prop := ∀ (s z : State) (src : Source) (q k prod cons thr b n c p a : Nat) (clear : Bool),
  let x (y : State) := y.channel c
 (Taken s src 0x1C01 → QueueAsked s q k prod cons thr → s.mbox.hostLinked → lowestFree ringRegion ringBytes (64 * 2 ^ k) (64 * 2 ^ k) s.rings = some b → ∃ u, exec (.queueCreate src q k prod cons thr)
 s = .next u ∧ Answered s u src 0x1C01 [f8 b] (s.setQueue q { k := k, base := b, prod := prod, cons := cons, threshold := thr, owner := 0, created := true })) ∧
 (Taken s src 0x1C02 → 1024 ≤ q → q < 32768 → (s.queue q).owner = 0 → (s.queue q).k ≠ 0 → !s.cqUsed q → ∃ u, exec (.queueDestroy src q) s = .next u ∧ ∃ z, Answered s u src 0x1C02 [] z ∧ (z.queue q).k
 = 0 ∧ (∀ n, n ≠ q → z.queue n = s.queue n) ∧ z.fab.lpddr = s.fab.lpddr ∧ Changes [.mbox, .fab] s z) ∧
 (Taken s src 0x1C03 → 1024 ≤ q → q < 32768 → (s.queue q).k ≠ 0 → n ≤ 2 ^ (s.queue q).k → !s.holdsHp q → ∃ u, exec (.queueThresholdSet src q n) s = .next u ∧ Answered s u src 0x1C03 [] (s.setQueue q
 { s.queue q with threshold := n })) ∧
 (Taken s src 0x1C04 → q < 32768 → z = s.seen → (z.queue q).k ≠ 0 → ∃ u, exec (.queueStatus src q) s = .next u ∧ Answered s u src 0x1C04 [.struct (z.queue q).bytes] s) ∧
 (Taken s src 0x1D01 → 16 ≤ c → c ≤ 63 → p ≤ 5 → (x s).state = .idle ∨ (x s).state = .stopped → ∃ u, exec (.dmaChannelSet src c .pcie p none) s = .next u ∧ ∃ z, Answered s u src 0x1D01 [] z ∧ (x
 z).owner = .pcie ∧ (x z).priority = p ∧ (x z).window = none ∧ Only State.channel c [.fab] s z) ∧
 (Taken s src 0x1D02 → c < 64 → addrOk a → a % 32 = 0 → addrSpace a ≠ 3 → (x s).owner = .pcie → src.path = .pcie → (x s).state = .idle ∨ (x s).state = .stopped → ∃ u, exec (.dmaStart src c a) s =
 .next u ∧ ∃ z, Answered s u src 0x1D02 [] z ∧ (x z).state = .running ∧ (x z).next = a ∧ (x z).desc = none ∧ Only State.channel c [.fab] s z) ∧
 (Taken s src 0x1D03 → c < 64 → (x s).owner = .pcie → src.path = .pcie → (x s).state = .running → ∃ u, exec (.dmaDoorbell src c) s = .next u ∧ Answered s u src 0x1D03 [] (s.setChannel c
 { s.channel c with pendingBell := true })) ∧
 (Taken s src 0x1D04 → c < 64 → (x s).owner = .pcie → src.path = .pcie → (x s).state = .parked → ∃ u, exec (.dmaAbort src c) s = .next u ∧ ∃ z, Answered s u src 0x1D04 [f1 2] z ∧ (x z).state =
 .stopped ∧ (x z).abortIdle = inc64 (x s).abortIdle ∧ Changes [.fab] s z) ∧
 (Taken s src 0x1D05 → c < 64 → z = s.seen → ∃ u, exec (.dmaStatus src c) s = .next u ∧ ChannelStatusRead s u z src c) ∧
 (Taken s src 0x1D06 → c < 64 → ∃ u, exec (.dmaCountersRead src c clear) s = .next u ∧ ∃ p z, Answered s u src 0x1D06 p z ∧ p.take 2 = [f8 (x s).bytes, f8 (x s).bursts] ∧ (x z).bytes = (if clear then
 0 else (x s).bytes) ∧ (x z).state = (x s).state ∧ Changes [.fab] s z)

/-- A DMA channel fetches, carries, completes and waits as chapter 13 states (13 R383, R384, R385, R386, R388, R389, R392,
R393). -/
def Obligations.DmaChannelEventsComplete : Prop := ∀ (s : State) (t c a : Nat) (b : List Byte) (d : Desc) (r : Record),
  let x (y : State) := y.channel c
 (c < 64 → !s.fab.stopped → (x s).state = .running → (x s).held = none → (x s).desc = none → (x s).next = a → b = s.descBytes a [] → d = descOf a b → s.descOk b d → s.right (x s).owner d.src d.length
 true → s.right (x s).owner d.dst d.length false → ∃ u, exec (.descriptorFetch t c []) s = .next u ∧ DescriptorTaken s u c d) ∧
 (c < 64 → !s.fab.stopped → s.granted = some c → (x s).desc = some d → addrSpace d.src = 0 → addrSpace d.dst = 0 → (x s).done_ = 0 → (x s).left = d.length → d.length ≤ 512 → addrOff d.src % 4096 +
 d.length ≤ 4096 → addrOff d.dst % 4096 + d.length ≤ 4096 → addrOff d.src + d.length ≤ 3584 * 1048576 → addrOff d.dst + d.length ≤ 3584 * 1048576 → s.fab.poisoned = [] → ∃ u, exec (.dmaBurstGrant t c
 {} false) s = .next u ∧ BurstDone s u c d) ∧
 (c < 64 → !s.fab.stopped → (x s).state = .running → (x s).held = none → (x s).desc = some d → (x s).started → (x s).lastGranted → !(x s).abortReq → addrSpace d.addr = 0 → s.cqOk d.cq → (s.queue
 d.cq).fill < (s.queue d.cq).size → (∀ i, i < 64 → ∀ j, j < 32 → (s.queue d.cq).slotAddr (s.queue d.cq).pi + i ≠ addrOff d.addr + j) → !(leAt (s.descBytes d.addr []) 28 4).testBit 31 → ∃ u, exec
 (.descriptorComplete t c) s = .next u ∧ DescriptorDone s u c d) ∧
 (c < 64 → !s.fab.stopped → (x s).held = some r → (x s).desc = some d → (x s).state = .stopped → (s.queue d.cq).fill < (s.queue d.cq).size → ∃ u, exec (.cqRoom t c) s = .next u ∧ (x u).held = none ∧
 (x u).state = .stopped ∧ (x u).desc = none ∧ (u.queue d.cq).pi = ((s.queue d.cq).pi + 1) % 2 ^ 32) ∧
 (c < 64 → (x s).held.isSome → !(x s).stallSeen → (x s).heldSince = some a → a + 100000000 ≤ s.nowAt t → ∃ u, exec (.cqStall t c) s = .next u ∧ u.channel c = { s.channel c with stallSeen := true } ∧
 Moves [.fab] s u)

/-- TIME, TIDE and LIGHTHOUSE commands set and read what chapter 02 states (02 R46, R49, R52, R66, R67, R73, R74, R75, R76). -/
def Obligations.TimeAndTideCommandsComplete : Prop := ∀ (s z : State) (src : Source) (p : ServoParams) (o start period width i n : Nat) (w : BitVec 256) (c : LhConfig),
 (Taken s src 0x0301 → z = s.seen → ∃ u, exec (.timeStatus src) s = .next u ∧ Answered s u src 0x0301 (timeStatusFields z) s) ∧
 (Taken s src 0x0302 → p.kp < 2 ^ 32 → p.ki < 2 ^ 32 → 1000 ≤ p.outlier → p.outlier ≤ 1000000 → 10 ≤ p.lockNs → p.lockNs ≤ 10000 → 1000 ≤ p.stepNs → p.stepNs ≤ 1000000000 → -32768 ≤ p.asymA → p.asymA
 ≤ 32767 → -32768 ≤ p.asymB → p.asymB ≤ 32767 → ∃ u, exec (.timeServoSet src p) s = .next u ∧ ServoTaken s u src p) ∧
 (Taken s src 0x0303 → o < 4 → 1000 ≤ period → period ≤ 10 ^ 12 → 8 ≤ width → width ≤ 1000000 → start < 2 ^ 64 → s.clock.ns ≤ start → ∃ u, exec (.timeTriggerSet src o .time start period width) s =
 .next u ∧ Answered s u src 0x0303 [] (s.setTsOut o { s.tsOut o with mode := .time, byTable := false, start := start, period := period, width := width, nextAt := some start })) ∧
 (Taken s src 0x0304 → i < 4 → 1 ≤ n → n ≤ 16 → ∃ u, exec (.timeCaptureRead src i n) s = .next u ∧ ∃ p z, Answered s u src 0x0304 p z ∧ p = f2 (min n (s.tsIn i).queue.length) :: ((s.tsIn
 i).queue.take n).map (fun c => .struct (captureBytes c)) ++ [f8 (s.tsIn i).dropped] ∧ (z.tsIn i).queue = (s.tsIn i).queue.drop n ∧ (z.tsIn i).dropped = 0 ∧ Only State.tsIn i [.tsin] s z) ∧
 (Taken s src 0x0401 → z = s.seen → ∃ u, exec (.tideStatus src) s = .next u ∧ Answered s u src 0x0401 (tideStatusFields z) s) ∧
 (Taken s src 0x0402 → 768 ≤ n → n < 1024 → entryReserved w → (entryOf w).kind = 7 → !(entryOf w).enable → entryShape (entryOf w) → (entryOf w).arg0 < 4 → 8 ≤ (entryOf w).arg1 → (entryOf w).arg1 ≤
 1000000 → !tooDense (s.userEntries n (entryOf w)) → ∃ u, exec (.tideEntrySet src n w) s = .next u ∧ ∃ z, Answered s u src 0x0402 [] z ∧ z.entry n =
 { entryOf w with expired := false, late := false, fired := false, missed := 0, fireCount := 0 } ∧ Only State.entry n [.table] s z) ∧
 (Taken s src 0x0403 → n < 1024 → ∃ u, exec (.tideEntryRead src n) s = .next u ∧ Answered s u src 0x0403 [.struct (leBytes 32 (entryWord (s.entry n)))] s) ∧
 (Taken s src 0x0501 → c.lane < 8 → c.nominalHz = 50 ∨ c.nominalHz = 60 → -32768 ≤ c.angleOffset → c.angleOffset ≤ 32767 → 1 ≤ c.bandwidth → c.bandwidth ≤ 20 → c.nominalMv < 2 ^ 31 → (s.lane
 c.lane).cfg = none → s.activeOf 4 = none → ∃ u, exec (.lighthouseConfig src c) s = .next u ∧ Answered s u src 0x0501 [] { s with lh := { s.lh with staged := some c } })

/-- PTP messages and servo transitions do what chapter 02 states (02 R44, R45, R47, R48, R50, R51). -/
def Obligations.PtpAndServoEventsComplete : Prop := ∀ (s z : State) (t t3 q p : Nat) (l : Lan),
 (∀ (m : SyncMsg), z = (s.frameIn (lanIx l) t).atTime t → m.domain = z.servo.domain → -7 ≤ m.logInterval → m.logInterval ≤ 0 → (z.ptpPort (lanIx l)).state = .slave → l ≠ z.servo.source → ∃ u, exec
 (.ptpSync t l m) s = .next u ∧ (u.ptpPort (lanIx l)).lastOffset = satS 32 ((m.t2 : Int) - m.t1 - (m.correction + (z.ptpPort (lanIx l)).asym) - meanDelay (z.ptpPort (lanIx l)).delays) ∧ (u.ptpPort
 (lanIx l)).lastSyncAt = some z.now ∧ Moves [.ptp, .servo] z u) ∧
 (∀ (a : Announce), z = (s.frameIn (lanIx l) t).atTime t → a.domain = z.servo.domain → a.identity ≠ z.net.serial → z.power.state ≠ .bareRock → (z.ptpPort (lanIx l)).best = none → (z.ptpPort (lanIx
 l)).priority1 = 255 → ∃ u, exec (.ptpAnnounce t l a) s = .next u ∧ (u.ptpPort (lanIx l)).best = some a ∧ (u.ptpPort (lanIx l)).state = .slave ∧ (u.ptpPort (lanIx l)).announceAt = some z.now ∧ Moves
 [.ptp, .servo] z u) ∧
 (∀ (m : DelayResp), z = (s.frameIn (lanIx l) t).atTime t → (z.ptpPort (lanIx l)).delayReqAt = some t3 → (z.ptpPort (lanIx l)).delayReqSeq = m.seq → (z.ptpPort (lanIx l)).lastSyncAt.isSome →
 z.servo.state ≠ .holdover → ∃ u, exec (.ptpDelayResp t l m) s = .next u ∧ DelayTaken u z l m t3) ∧
 ((s.ptpPort (lanIx l)).state = .master → dueAgain (s.ptpPort (lanIx l)).syncSentAt masterLogSync (s.nowAt t) → s.power.state ≠ .bareRock → ∃ u, exec (.ptpSyncSend t l true) s = .next u ∧ u.out =
 .ptpSync l (s.ptpPort (lanIx l)).syncSeq (s.nowAt t) :: s.out ∧ (u.ptpPort (lanIx l)).syncSeq = ((s.ptpPort (lanIx l)).syncSeq + 1) % 65536 ∧ Moves [.ptp, .out] s u) ∧
 ((s.ptpPort (lanIx l)).state = .slave → dueAgain (s.ptpPort (lanIx l)).delayReqLast (s.ptpPort (lanIx l)).logMinDelayReq (s.nowAt t) → s.power.state ≠ .bareRock → ∃ u, exec (.delayReqSend t l) s =
 .next u ∧ u.out = .delayReq l (((s.ptpPort (lanIx l)).delayReqSeq + 1) % 65536) :: s.out ∧ (u.ptpPort (lanIx l)).delayReqAt = some (s.nowAt t) ∧ Moves [.ptp, .out] s u) ∧
 (z = (s.frameIn (lanIx l) t).atTime t → (z.ptpPort (lanIx l)).state = .master → ∃ u, exec (.delayReq t l q p) s = .next u ∧ u.out = .delayResp l q p z.now :: z.out ∧ Moves [.out] z u) ∧
 ((s.ptpPort (lanIx l)).state = .master → dueAgain (s.ptpPort (lanIx l)).announceSentAt masterLogAnnounce (s.nowAt t) → s.power.state ≠ .bareRock → ∃ u, exec (.ptpAnnounceSend t l) s = .next u ∧
 u.out = .ptpAnnounce l (s.ownClock (lanIx l)) :: s.out ∧ Moves [.ptp, .out] s u) ∧
 (s.servo.state = .acquire → 16 ≤ s.servo.goodRun → ∃ u, exec (.servoLocked t) s = .next u ∧ u.servo.state = .locked ∧ u.servo.lockedSince = some (s.nowAt t) ∧ Moves [.servo] s u) ∧
 (s.servo.state = .locked → 8 ≤ s.servo.outlierRun → ∃ u, exec (.servoOutliers t) s = .next u ∧ u.servo.state = .acquire ∧ u.servo.accepted = [] ∧ u.clock.incr = s.clock.incr ∧ Moves [.servo] s u) ∧
 (∀ (a : Nat), (s.ptpPort 0).state = .slave → (s.ptpPort 0).lastSyncAt = some a → a + 4 * pow2Sec (s.ptpPort 0).logSync ≤ s.nowAt t → (s.ptpPort 1).state = .slave → !(s.atTime t).masterLost 1 →
 (s.ptpPort 1).delays.length < 4 → s.servo.source = .a → s.servo.state = .locked → (s.ptpPort 0).priority1 = 255 → ∃ u, exec (.masterLost t) s = .next u ∧ (u.ptpPort 0).state = .listening ∧
 (u.ptpPort 0).best = none ∧ u.servo.source = .b ∧ u.servo.state = .holdover ∧ u.servo.holdoverSince = some (s.nowAt t)) ∧
 (8 ≤ s.servo.disagreeRun → ∃ u, exec (.timeDisagree t) s = .next u ∧ u.servo.disagreeRun = 0 ∧ u.servo.disagreeCount = inc64 s.servo.disagreeCount ∧ Moves [.servo, .recorder] s u)

/-- Lighthouse evaluations, tide messages and the tide's own events do what chapter 02 states (02 R53, R54, R55, R56, R58, R59,
R61, R62, R63). -/
def Obligations.LighthouseAndTideEventsComplete : Prop := ∀ (s z : State) (t n ref i e : Nat) (o : OwnRole) (x : PllOut) (l : Lan) (b : List Byte) (m : TideMsg) (d : Int),
 ((s.atTime t).gridRuns → s.lh.lane = some n → n < 8 → s.activeOf 4 = some o → t % 50000 = 0 → s.nowAt t = t → (∀ k < 2, (s.conv (2 * n + k)).running = none ∧ !(s.conv (2 * n + k)).stopped) → ∃ u,
 exec (.lighthouseSample t (o.role % 2) n) s = .next u ∧ u.lh = { s.lh with lastEval := t } ∧ (∀ k < 2, (u.conv (2 * n + k)).running = some ((s.atTime t).conversion (12 * n + 6 * k) 3 true)) ∧ Moves
 [.lh, .ana] s u) ∧
 (!s.lh.locked → 10 ≤ s.lh.goodCycles → !s.lh.negAbove → ∃ u, exec (.pllLock t) s = .next u ∧ u.lh =
 { s.lh with locked := true, badCycles := 0, rangeLost := false, countTaken := false, otherHeard := false, lockCycle := 0 } ∧ Moves [.lh] s u) ∧
 (s.lh.locked → 3 ≤ s.lh.badCycles ∨ s.lh.rangeLost → ∃ u, exec (.pllUnlock t) s = .next u ∧ u.lh = { s.lh with locked := false, goodCycles := 0, badCycles := 0, rangeLost := false } ∧ Moves [.lh] s
 u) ∧
 ((s.atTime t).gridRuns → s.activeOf 4 = some o → s.servo.state ≠ .free → s.lh.mark = some (ref, x) → ∃ u, exec (.tidePublish t) s = .next u ∧ TidePublished s u ref o x) ∧
 (z = (s.frameIn (lanIx l) t).atTime t → b.length = 40 → m = tideOf b → z.tablesRun → z.activeOf 4 = none → m.locked → tideFieldsOk z m → (z.inst m.inst).lastSeq ≠ some m.sequence → (z.inst
 m.inst).turnedAway = none → m.refT ≤ z.now → z.now ≤ m.refT + 2000000 → ∃ u, exec (.tideMessage t l b) s = .next u ∧ InstanceHeard u z m) ∧
 (3 ≤ s.tide.disagreeRun → !s.tide.disagreeing → ∃ u, exec (.lighthouseDisagree t) s = .next u ∧ u.tide.disagreeing ∧ u.tide.disagreeCount = inc64 s.tide.disagreeCount ∧ u.tide.source = s.tide.source
 ∧ u.tide.quality = { s.tide with disagreeing := true, disagreeCount := u.tide.disagreeCount : Tide }.qualityNow ∧ Moves [.tide, .recorder, .ana, .therm, .ten] s u) ∧
 (s.tide.source = 1 → 16 ≤ s.tide.agreeRun → !(s.inst 0).silent → ∃ u, exec (.instanceReturn t) s = .next u ∧ u.tide = { s.tide with source := 0 } ∧ Moves [.tide] s u) ∧
 (i < 2 → !(s.inst i).silent → 3 * 10 ^ 15 ≤ (s.nowAt t - (s.inst i).rxAt) * (s.inst i).freqUhz → ∃ u, exec (.instanceSilent t i) s = .next u ∧ u.inst i = { s.inst i with silent := true } ∧
 u.tide.source = (if s.tide.source = i ∧ (s.inst (1 - i)).silent = false then 1 - i else s.tide.source) ∧ u.tide.disagreeing = s.tide.disagreeing ∧ Moves [.tide, .recorder, .ana, .therm, .ten] s u) ∧
 (s.tide.corrEnd = some e → e ≤ s.nowAt t → ∃ u, exec (.correctionEnd t) s = .next u ∧ u.tide = s.tide.reanchor e ∧ u.tide.corrE = 0 ∧ u.tide.corrEnd = none ∧ Moves [.tide, .lanes] s u) ∧
 (s.tide.recountTo = some d → (s.atTime t).pos % 65536 = 0 → ∃ u, exec (.tideRecount t) s = .next u ∧ u.tide =
 { s.tide with anchorPos := s.tide.anchorPos + (d * 65536 : Int), recountTo := none, recounts := inc64 s.tide.recounts } ∧ Moves [.tide, .table, .recorder] s u)

/-- Armed firings, strobes, windows, captures and pulses do what the tide table gives them (02 R68, R69, R70, R74, R75; 03 R87;
04 R117, R121; 07 R203; 10 R314; 11 R329, R343). -/
def Obligations.TideTableFiringsComplete : Prop := ∀ (s : State) (t n k pos e o p i w : Nat) (a : ArmedFiring) (x : SoundStep) (g : Graph) (r : Bool),
 (n < 1024 → s.power.state = .full → fires (s.entry n) k pos → s.nowAt t ≤ s.tide.timeOf pos → s.tide.timeOf pos ≤ s.nowAt t + 20000 → (tget none s.table.lastArmed n).all (decide <| · < s.tide.timeOf
 pos) → s.tide.corrE ≤ 0 ∨ (s.entry n).kind ≠ 1 → ∃ u, exec (.tideFiringArmed t n k pos) s = .next u ∧ FiringArmed s u t n k pos) ∧
 ((s.atTime t).dueFiring 8 1 = some a → s.power.state = .slack → (∀ n, n < 8 → a.content.arg0.testBit n → (s.lane n).cfg = none) → ∃ u, exec (.sampleStrobe t 8) s = .next u ∧ u.model.lastBase =
 cycleOf a.pos * s.baseB + a.k ∧ u.model.lastTag = a.pos ∧ a ∉ u.table.armed ∧ u.clock = (s.atTime t).clock) ∧
 (n < 1024 → n ≠ 8 → n ≠ 9 → (s.atTime t).dueFiring n 1 = some a → s.power.state = .full → ∃ u, exec (.sampleStrobe t n) s = .next u ∧ a ∉ u.table.armed ∧ u.model = s.model ∧ Moves [.table, .ana,
 .tap, .sound, .out, .lanes, .recorder, .lh, .therm, .ten] s u) ∧
 (n < 1024 → (s.atTime t).dueFiring n 2 = some a → s.power.state = .full → !(s.conv a.content.arg0).stopped → !((s.conv a.content.arg0).table a.content.arg1).isEmpty → (s.conv a.content.arg0).run =
 none → ∃ u, exec (.sarSequence t n) s = .next u ∧ (∃ r, (u.conv a.content.arg0).run = some r ∧ r.table = a.content.arg1 ∧ r.byFiring) ∧ Only State.conv a.content.arg0 [.clock, .table, .ana, .mbox] s
 u) ∧
 (n < 1024 → (s.atTime t).dueFiring n 3 = some a → s.power.state = .full → ∃ u, exec (.icvWindow t n) s = .next u ∧ WindowsClosed s u a) ∧
 (n < 1024 → (s.atTime t).dueFiring n 4 = some a → s.power.state = .full → ((s.laneSound a.content.arg0).steps.find? fun y => y.entry == n && y.phase == .enabled) = some x → s.ownRole x.partnerRole =
 none → ∃ u, exec (.soundingStep t n) s = .next u ∧ u.entry n = {} ∧ (∃ y ∈ (u.laneSound a.content.arg0).steps, y.set_ = x.set_ ∧ y.step = x.step ∧ y.phase = .running ∧ y.t0 = a.t0) ∧ Moves [.table,
 .sound, .net, .out] s u) ∧
 (e < 1024 → (s.atTime t).dueFiring e 5 = some a → s.power.state = .full → s.slotsAsc = [n] → (s.slot n).state = .active → !(s.slot n).inCycle → !(s.slot n).switching → (s.slot n).running = some g →
 g.group = a.content.arg0 → (cycleOf a.pos * s.baseB + a.k) % g.cycle = g.phase → ∃ u, exec (.graphCycle t e) s = .next u ∧ CycleBegun s u t n a g) ∧
 (e < 1024 → (s.atTime t).dueFiring e 6 = some a → s.power.state = .full → (∀ c ∈ s.net.changes, c.entry ≠ some e) → s.slotsAsc = [n] → (s.slot n).activateAt = some (a.pos, e) → ∃ u, exec
 (.modeChange t e) s = .next u ∧ u.slot n = { s.slot n with activateAt := none, switching := (s.slot n).state != .stopped && (s.slot n).staged.isSome } ∧ Moves [.table, .ten] s u) ∧
 (n < 1024 → (s.atTime t).dueFiring n 7 = some a → s.power.state = .full → (s.tsOut a.content.arg0).byTable → ∃ u, exec (.triggerOut t n) s = .next u ∧ (u.tsOut a.content.arg0).level ∧ (!(s.tsOut
 a.content.arg0).level → (u.tsOut a.content.arg0).endAt = some (a.t0 + a.content.arg1)) ∧ Only State.tsOut a.content.arg0 [.clock, .table, .tsout, .mbox] s u) ∧
 (o < 4 → s.power.state = .full → !(s.tsOut o).byTable → (s.tsOut o).mode ≠ .off → (s.tsOut o).nextAt = some p → p ≤ s.nowAt t → s.nowAt t < p + (s.tsOut o).width → s.nowAt t < p + (s.tsOut o).period
 → ∃ u, exec (.triggerTimePulse t o) s = .next u ∧ (u.tsOut o).level ∧ (!(s.tsOut o).level → (u.tsOut o).endAt = some (p + (s.tsOut o).width)) ∧ (u.tsOut o).nextAt = some (p + (s.tsOut o).period) ∧
 Only State.tsOut o [.clock, .tsout, .mbox] s u) ∧
 (o < 4 → (s.tsOut o).level → (s.tsOut o).endAt = some e → e ≤ s.nowAt t → ∃ u, exec (.pulseEnd t o) s = .next u ∧ u.tsOut o = { s.tsOut o with level := false, endAt := none } ∧ Only State.tsOut o
 [.clock, .tsout, .mbox] s u) ∧
 (i < 4 → (if r then (s.tsIn i).rising else (s.tsIn i).falling) → 16 ≤ w → 8 * (s.tsIn i).filter ≤ w → (s.tsIn i).queue.length < 16 → ∃ u, exec (.tsinCapture t i r w) s = .next u ∧ u.tsIn i =
 { s.tsIn i with queue := (s.tsIn i).queue ++ [⟨s.nowAt t, (s.atTime t).pos, r⟩] } ∧ Only State.tsIn i [.clock, .tsin, .mbox] s u)

/-- Beaching, refloating and parting go through their steps, and the MODULE and POWER commands start them (06 R198, R200, R201;
18 R492, R493, R495). -/
def Obligations.BeachingPartingAndPowerCommandsComplete : Prop := ∀ (s : State) (src : Source) (t r a : Nat) (o : OwnRole) (b : BeachSeq) (p : PartSeq),
 (Taken s src 0x0103 → s.lanesQuiet → s.net.own = [] → ∃ u, exec (.moduleBeach src) s = .next u ∧ ∃ z, Answered s u src 0x0103 [] z ∧ z.power = { s.power with
 beach := some { step := 3, roles := [], at_ := s.now, stepFrom := if s.modelledPorts.isEmpty then none else some s.model.lastTag } } ∧ Changes [.power, .can, .fab, .store, .recorder, .model] s z) ∧
 (Taken s src 0x0104 → s.lanesQuiet → s.net.own = [] → ∃ u, exec (.modulePart src) s = .next u ∧ ∃ z, Answered s u src 0x0104 [] z ∧ z.power =
 { s.power with part := some { step := 4, roles := [], at_ := s.now } } ∧ z.net.announceDue ∧ Changes [.power, .net, .store, .recorder, .model] s z) ∧
 (Taken s src 0x0105 → !s.holdsAnyActive → s.power.part = none → ∃ u, exec (.moduleRestart src) s = .next u ∧ Replied s u src 0x0105 stOk [] ∧ u.power.on ∧ u.power.stage = 0 ∧ u.power.bootAt = s.now
 ∧ u.sec.lifecycle = s.sec.lifecycle ∧ u.net.own = [] ∧ u.recorder.ring = s.recorder.ring ∧ u.clock.ns = s.clock.ns) ∧
 (Taken s src 0x2401 → ∃ u, exec (.powerStatus src) s = .next u ∧ ∃ p, Answered s u src 0x2401 p { s with fresh := s.fresh + 6 } ∧ p.length = 21) ∧
 (s.power.beach = some { step := 2, roles := [r], at_ := a } → a + 10 ^ 9 ≤ s.nowAt t → s.ownRole r = some o → o.state = .none_ → ∃ u, exec (.roleDropped t r) s = .next u ∧ u.power = { s.power with
 beach := some { step := 3, roles := [], at_ := s.nowAt t, stepFrom := if s.modelledPorts.isEmpty then none else some s.model.lastTag } } ∧ Moves [.power, .store, .recorder, .model] s u) ∧
 (s.power.on → s.power.beach = some b → b.step = 3 → b.stepFrom = none → s.store.commit = none → ∃ u, exec (.beachedAt t) s = .next u ∧ u.power.beach = some
 { step := 4, roles := [], at_ := s.nowAt t } ∧ u.power.state = s.power.state ∧ !u.store.commitQueued) ∧
 (s.power.on → s.power.beach = some b → b.step = 4 → (s.atTime t).portsAsleep b.at_ → ∃ u, exec (.beachedAt t) s = .next u ∧ u.power.state = .beached ∧ u.power.beach = none ∧ u.power.beachedAt =
 s.nowAt t ∧ u.table.armed = [] ∧ u.held.isSome) ∧
 (s.power.on → s.power.state = .beached → s.power.beachedAt ≤ r → r + 50000000 ≤ s.nowAt t → ∃ u, exec (.refloat t true r) s = .next u ∧ u.power.state = .full ∧ u.power.refloatAt = some (s.nowAt t) ∧
 !u.power.parted ∧ !u.power.pullOk ∧ u.held = none ∧ (∀ k, k < 16 → !(u.conv k).stopped)) ∧
 (s.power.on → s.power.state = .full → s.power.refloatAt = some r → !s.power.pendingCommit → ∃ u, exec (.refloated t) s = .next u ∧ u.power = { s.power with refloatAt := none } ∧ Moves [.power,
 .recorder] s u) ∧
 (s.power.on → s.power.part = some p → p.step = 5 → (s.atTime t).portsAsleep p.at_ → ∃ u, exec (.partingStep t) s = .next u ∧ u.power.state = .beached ∧ u.power.part = none ∧ u.power.pullOk ∧
 u.power.parted)

/-- Power-up, the start stages and the loss of line power do what chapter 18 states (18 R481, R482, R484, R485, R486, R487,
R488; 01 R27). -/
def Obligations.StartStagesAndLinePowerComplete : Prop := ∀ (s : State) (t p k mv v ma : Nat) (x : ImgSlot) (d0 d1 : Bool),
 (p < 2 → !s.power.on → s.power.lossAt = none → !(s.powerPort p).powered → ∃ u, exec (.powerUp t p) s = .next u ∧ (u.powerPort p).powered ∧ u.power.on ∧ u.power.stage = 0 ∧ u.power.bootAt = s.nowAt t
 ∧ u.powerPort (1 - p) = s.powerPort (1 - p) ∧ Moves [.power, .ana] s u) ∧
 (∀ (b : Bool), s.power.on → s.power.stage = 0 → !s.safety.resetHold → ∃ u, exec (.stageRailsUp t b) s = .next u ∧ u.power.stage = 1 ∧ u.power.board ∧ u.power.charger ∧ u.power.vstore ∧ u.net =
 { s.net with twinSideB := b } ∧ Moves [.power, .net, .store, .recorder] s u) ∧
 (s.power.on → s.power.stage = 1 → !s.power.zeroed → ∃ u, exec (.memoryZeroed t) s = .next u ∧ u.fab.lpddr = [] ∧ u.fab.sram = [] ∧ !u.fab.stopped ∧ u.power = { s.power with zeroed := true } ∧ Moves
 [.power, .fab, .ana, .therm, .ten] s u) ∧
 (∀ (a b : SlotCheck), s.power.on → s.power.stage = 1 → s.power.zeroed → !s.sec.recovery → s.sec.tryMark = none → s.sec.default_ = 0 → s.imgSlot 0 = x → x.state = .good →
 !s.sec.signerRevoked.contains x.signer → s.sec.rollback ≤ x.rollback → a.keyOk → a.gcmOk → a.signatureOk → s.store.settings = [] → s.store.laneCounts = [] → s.ana.calStored = [] → ∃ u, exec
 (.stageImageRunning t ⟨a, b⟩ ⟨d0, d1⟩) s = .next u ∧ u.power.stage = 2 ∧ u.sec.active = 0 ∧ !u.sec.trial ∧ !u.sec.recovery ∧ u.mbox.ready ∧ u.mbox.hostLinked ∧ u.safety.outConfigured) ∧
 ((s.atTime t).netRuns → s.power.stage = 2 → (s.atTime t).onNetwork → !s.sec.trial → ∃ u, exec (.stageOnNetwork t) s = .next u ∧ NetworkStarted s u t) ∧
 (s.power.on → s.power.stage = 3 → (∀ n, n < 8 → (s.atTime t).laneArmable n) → s.store.measuredBoot → ∃ u, exec (.stageLanesArmable t) s = .next u ∧ u.power.stage = 4 ∧ Moves [.power, .recorder] s u)
 ∧
 (s.power.on → 1 ≤ k → k ≤ 4 → s.power.stage < k → s.power.bootAt + 10 ^ 10 < s.nowAt t → ∃ u, exec (.startSlow t k) s = .next u ∧ u.alarmOn evStartSlow 0 k ∧ Moves [.recorder] s u) ∧
 (s.power.on → s.power.charger → !s.store.measuredBoot → 39200 ≤ mv → ∃ u, exec (.vhuCharged t mv) s = .next u ∧ u.store.vHu = mv ∧ u.store.measuredBoot ∧ Moves [.store] s u) ∧
 (p < 2 → s.power.on → (s.powerPort p).powered → (s.powerPort (1 - p)).powered → ∃ u, exec (.portPowerLoss t p) s = .next u ∧ !(u.powerPort p).powered ∧ (u.powerPort (1 - p)).powered ∧ u.alarmOn
 evPowerOnePort 13 p ∧ Moves [.power, .recorder] s u) ∧
 (p < 2 → s.power.on → !(s.powerPort p).powered → ∃ u, exec (.portPowerRestored t p) s = .next u ∧ (u.powerPort p).powered ∧ !u.alarmOn evPowerOnePort 13 p ∧ Moves [.power, .recorder] s u) ∧
 (s.power.on → ∃ u, exec (.linePowerLoss t v) s = .next u ∧ LinePowerLost s u t v) ∧
 (∀ (a : Nat), s.power.lossAt = some a → ∃ u, exec (.moduleUnpowered t) s = .next u ∧ u.fab.lpddr = [] ∧ u.fab.sram = [] ∧ u.store.vHu = 0 ∧ !u.power.on ∧ u.power.lossAt = none ∧ u.sec.lifecycle =
 s.sec.lifecycle ∧ (∀ k, (s.imgSlot k).state ≠ .writing → u.imgSlot k = s.imgSlot k) ∧ u.recorder.ring = s.recorder.ring ∧ u.clock.ns = s.nowAt t) ∧
 (∀ (a : Nat), p < 2 → s.power.lossAt = some a → (s.powerPort p).powered → ∃ u, exec (.brownoutRestart t) s = .next u ∧ u.power.on ∧ u.power.stage = 0 ∧ u.power.brownout ∧ u.power.lossAt = none ∧
 u.fab.lpddr = s.fab.lpddr ∧ u.fab.sram = s.fab.sram ∧ u.sec.lifecycle = s.sec.lifecycle ∧ u.recorder.ring = s.recorder.ring) ∧
 (s.power.on → s.power.board → ∃ u, exec (.boardSupplyFault t) s = .next u ∧ u.power = { s.power with board := false, boardTryAt := s.nowAt t, boardOkSince := none } ∧ u.alarmOn evBoardSupplyFault 0
 0 ∧ Moves [.power, .recorder] s u) ∧
 (s.power.on → s.alarmOn evBoardSupplyFault 0 0 → s.power.boardOkSince = none → s.power.boardTryAt + 10 ^ 9 ≤ s.nowAt t → ∃ u, exec (.boardSupplyRetry t ma true) s = .next u ∧ u.power =
 { s.power with board := true, boardMa := ma, boardTryAt := s.nowAt t, boardOkSince := some (s.nowAt t) } ∧ u.alarmOn evBoardSupplyFault 0 0 ∧ Moves [.power] s u)

/-- The TAP commands read and set a port's registers and retrain it (03 R86, R93, R106, R518). -/
def Obligations.TapCommandsComplete : Prop := ∀ (s z : State) (src : Source) (p ov uv cells temps n : Nat) (a ot : Int) (c : Bool),
 (Taken s src 0x0601 → p < 128 → z = s.seen → ∃ u, exec (.tapStatus src p) s = .next u ∧ Answered s u src 0x0601 (tapStatusFields (z.port p)) s) ∧
 (Taken s src 0x0602 → p < 128 → -500 ≤ a → a ≤ 500 → ∃ u, exec (.tapTrimSet src p a) s = .next u ∧ Answered s u src 0x0602 [] (s.setPort p { s.port p with asym := a })) ∧
 (Taken s src 0x0603 → p < 128 → ov < 65535 → uv < ov → -32767 ≤ ot → ot ≤ 32767 → cells < 2 ^ 18 → temps < 64 → (∀ n, s.laneOfPort p = some n → s.holdsHelm n) → ∃ u, exec (.tapLimitsSet src (.port
 p) ov uv ot cells temps) s = .next u ∧ TapLimitsTaken s u src p ov uv ot cells temps) ∧
 (Taken s src 0x0604 → p < 128 → s.laneOfPort p = some n → !laneArmed (s.lane n).state → ∃ u, exec (.tapRetrain src p) s = .next u ∧ ∃ z, Answered s u src 0x0604 [] z ∧ (z.port p).state = .train ∧
 (z.port p).failRun = 0 ∧ (z.port p).attemptAt = none) ∧
 (Taken s src 0x0605 → p < 128 → ∃ u, exec (.tapCountersRead src p c) s = .next u ∧ ∃ z, Answered s u src 0x0605 (tapCounterFields (s.port p).counters) z ∧ (z.port p).counters = (if c then
 { overruns := (s.port p).counters.overruns } else (s.port p).counters) ∧ Only State.port p [.tap] s z)

/-- Frames, echoes, alignment, training and command windows of a tap port do what chapter 03 states (03 R84, R85, R89, R90,
R91, R94, R95, R97, R98, R103, R107). -/
def Obligations.TapLinkEventsComplete : Prop := ∀ (s : State) (t p a e n : Nat) (rx : TapRx) (y : SyncRec) (c : TapCmd),
  let w (y : State) := y.port p
 (p < 128 → beAt rx.bytes 0 1 = 0x81 → rx.bytes.length = 66 → storeCheck rx = .accepted → safetyCheck rx = .accepted → (w s).state = .run → (w s).sync = some y → beAt rx.bytes 2 1 = y.tag / 256 % 256
 → !y.answered → !y.safeAnswered → (w s).waiting = [] → s.nowAt t ≤ y.t0 + 150000 → ∃ u, exec (.tapData t p rx) s = .next u ∧ (w u).ring = (dataSample rx.bytes y.tag (w s).alignLost :: (w
 s).ring).take 8 ∧ (w u).lastStatus = beAt rx.bytes 4 2 ∧ (w u).cmdAck = beAt rx.bytes 3 1) ∧
 (p < 128 → beAt rx.bytes 0 1 = 0x82 → Accepted s p rx → (w s).trainStep = 1 → (w s).attemptAt = some a → s.nowAt t ≤ a + 2500000 → (w s).recordedSerial = none → (helloOf rx.bytes).version = 1 →
 (helloOf rx.bytes).model ≠ 0 → (helloOf rx.bytes).model ≠ 0xFFFF → !(helloOf rx.bytes).dual → ∃ u, exec (.tapHello t p rx) s = .next u ∧ HelloRecorded s u t p rx) ∧
 (p < 128 → beAt rx.bytes 0 1 = 0x83 → Accepted s p rx → (w s).echoSent = some e → beAt rx.bytes 2 1 = (w s).echoToken → (w s).trainStep ≠ 4 → !(w s).alignLost → -50 ≤ (rx.startEdge : Int) - e - 4000
 + 2 * (w s).asym - 2 * (w s).trim → (rx.startEdge : Int) - e - 4000 + 2 * (w s).asym - 2 * (w s).trim ≤ 50 → ∃ u, exec (.tapEchoReply t p rx) s = .next u ∧ EchoMeasured s u t p e rx) ∧
 (p < 128 → (w s).state = .run → !(w s).alignLost → 3 ≤ (w s).echoOutRun → ∃ u, exec (.alignLost t p) s = .next u ∧ u.port p =
 { s.port p with alignLost := true, alignLostAt := s.nowAt t, mean := [], trims := [] } ∧ Only State.port p [.clock, .tap, .mbox, .recorder] s u) ∧
 (p < 128 → (w s).alignLost → (w s).mean.length = 16 → echoClose (w s).mean → !(w s).trims.any (·.regains) → ∃ u, exec (.alignRegained t p) s = .next u ∧ u.port p =
 { s.port p with trims := { at_ := s.nowAt t, trim := trimOf (echoMean (w s).mean), regains := true } :: (w s).trims } ∧ Only State.port p [.clock, .tap, .mbox] s u) ∧
 (p < 128 → (w s).alignLost → (w s).alignLostAt + 10 ^ 10 ≤ s.nowAt t → ∃ u, exec (.alignLostRetrain t p) s = .next u ∧ (w u).state = .train ∧ !(w u).alignLost ∧ (w u).failRun = 0) ∧
 (p < 128 → beAt rx.bytes 0 1 = 0x84 → Accepted s p rx → (w s).inFlight = some c → c.seq = beAt rx.bytes 2 1 → c.kind ≠ .sleep → beAt rx.bytes 3 1 = 0 → (w s).trainStep ≠ 3 → ∃ u, exec (.tapAck t p
 rx) s = .next u ∧ u.port p = { s.port p with
 waiting := (w s).waiting.filter (fun d => d.seq != c.seq), inFlight := none, configLost := (w s).configLost && c.kind != .config } ∧ Only State.port p [.clock, .tap, .mbox] s u) ∧
 (p < 128 → storeCheck rx = .truncated → safetyCheck rx = .truncated → (w s).state ≠ .off → !((w s).txAt.any fun x => decide (rx.startEdge < x ∧ x ≤ s.nowAt t)) → ∃ u, exec (.tapFrameError t p rx) s
 = .next u ∧ (w u).counters.truncated = inc64 (w s).counters.truncated ∧ (w u).counters.crcErr = (w s).counters.crcErr ∧ (w u).state = (w s).state ∧ Only State.port p [.clock, .tap, .mbox] s u) ∧
 (p < 128 → (w s).state = .run → (w s).sync = some y → !y.judged → y.t0 + 150000 ≤ s.nowAt t → ∃ u, exec (.missedFrame t p) s = .next u ∧ (w u).missRun = (w s).missRun + 1 ∧ (w u).counters.missed =
 inc64 (w s).counters.missed ∧ (w u).sync = some { y with judged := true } ∧ Moves [.tap, .sound] s u) ∧
 (p < 128 → (w s).state = .run → 3 ≤ (w s).missRun → ∃ u, exec (.tapStall t p) s = .next u ∧ (w u).state = .train ∧ (w u).counters.stalls = inc64 (w s).counters.stalls ∧ (w u).ring = (w s).ring.map
 markerSample) ∧
 (p < 128 → (w s).state = .run → s.power.state = .slack → s.table.armed = [] → !(w s).windowOpen → (w s).sync = some y → y.t0 + 150000 ≤ s.nowAt t → s.laneOfPort p = some n → (s.laneSound n).steps =
 [] → (w s).waiting = [c] → c.sends < 3 → c.kind = .config → ∃ u, exec (.commandWindow t p) s = .next u ∧ CommandSentInWindow s u t p c) ∧
 (p < 128 → (w s).state = .train → (w s).attemptAt = none → (w s).failRun = 0 → s.power.state ≠ .beached → ∃ u, exec (.trainingAttempt t p) s = .next u ∧ (w u).attemptAt = some (s.nowAt t) ∧ (w
 u).trainStep = 1 ∧ (w u).counters.attempts = inc64 (w s).counters.attempts ∧ u.out = .tone p :: s.out ∧ Only State.port p [.clock, .tap, .out, .mbox] s u) ∧
 (p < 128 → (w s).attemptAt = some a → a + 50000000 ≤ s.nowAt t → (w s).failRun = 2 → ∃ u, exec (.trainingTimeout t p) s = .next u ∧ (w u).state = .failed ∧ (w u).failRun = 3 ∧ (w u).attemptAt = none
 ∧ (w u).failedAt = s.nowAt t ∧ u.alarmOn evTapFailed 2 p ∧ Only State.port p [.clock, .tap, .mbox, .recorder] s u) ∧
 (p < 128 → (w s).attemptAt = none → s.power.state ≠ .beached → (w s).state = .failed → (w s).failedAt + 10 ^ 10 ≤ s.nowAt t → ∃ u, exec (.trainingRetry t p) s = .next u ∧ (w u).attemptAt = some
 (s.nowAt t) ∧ (w u).trainStep = 1 ∧ u.out = .tone p :: s.out ∧ Moves [.tap, .out] s u) ∧
 (n < 8 → s.power.state = .full → s.followsTwin n → tget 0 s.net.helmMark n < a → !(s.conv (2 * n + 1)).stopped → (s.conv (2 * n + 1)).running = none → ∃ u, exec (.helmHolderMark t n a) s = .next u ∧
 u.net = { s.net with helmMark := tset s.net.helmMark n a } ∧ (u.lane n).helmIn ∧ (∃ c, (u.conv (2 * n + 1)).running = some c ∧ c.holdAt = a - Config.twinDelay ∧ c.input = 12 * n + 6 ∧ c.source = 1)
 ∧ Moves [.net, .lanes, .ana] s u)

/-- The ANALOG, ICV, DAC and TACH commands set, start and read what chapter 04 states (04 R109, R115, R116, R118, R124, R125,
R126, R127, R128, R130, R131, R135). -/
def Obligations.AnalogueCommandsComplete : Prop := ∀ (s z : State) (src : Source) (k h t i n r st : Nat) (sc v a b : Int) (es : List (BitVec 32)) (q : Option Nat) (l : List Nat) (fall : Bool),
 (∀ (c : InputClass), Taken s src 0x0701 → k < 96 → -2147483648 ≤ sc → sc ≤ 2147483647 → h < 4096 → !s.armedInput k → !s.gridInput k → !s.fixedInput k ∨ c = positionClass k → !s.calibrating (.input
 k) → ∃ u, exec (.analogInputSet src k c sc h) s = .next u ∧ Answered s u src 0x0701 [] (s.setInput k { s.input k with cls := c, scale := sc, handle := some h })) ∧
 (Taken s src 0x0702 → k < 16 → t < 4 → 1 ≤ es.length → es.length ≤ 64 → es.all tableEntryOk → (∀ n, q = some n → n < 32768) → !s.tableOwned k t → (es.all fun e => !s.armedInput (6 * k + entryInput
 e) && !s.gridInput (6 * k + entryInput e)) → (s.conv k).otherEntries t + es.length ≤ 64 → ∃ u, exec (.analogTableSet src k t es q) s = .next u ∧ Answered s u src 0x0702 [] (s.setConv k
 { s.conv k with tables := tset (s.conv k).tables t es, queues := tset (s.conv k).queues t q })) ∧
 (Taken s src 0x0703 → k < 16 → t < 4 → !s.tableOwned k t → !((s.conv k).table t).isEmpty → (((s.conv k).table t).all fun e => !s.armedInput (6 * k + entryInput e) && !s.gridInput (6 * k + entryInput
 e)) → !(s.conv k).stopped → (s.conv k).run = none → ∃ u, exec (.analogTableStart src k t) s = .next u ∧ ∃ z, Answered s u src 0x0703 [] z ∧ (∃ r, (z.conv k).run = some r ∧ r.table = t ∧ !r.byFiring)
 ∧ Only State.conv k [.ana] s z) ∧
 (Taken s src 0x0704 → i < 96 → !s.gridInput i → !(s.conv (i / 6)).stopped → (s.conv (i / 6)).running = none → (s.conv (i / 6)).urgent = [] → (s.conv (i / 6)).aborted = none → (s.conv (i / 6)).run =
 none → (s.conv (i / 6)).soft = [] → ∃ u, exec (.analogConvert src i false) s = .next u ∧ ∃ z, Executing u src 0x0704 z ∧ (∃ c, (z.conv (i / 6)).running = some c ∧ c.input = i ∧ c.source = 6 ∧ c.src
 = some src) ∧ Changes [.ana] s z) ∧
 (Taken s src 0x0705 → l.length ≤ 96 → (∀ k ∈ l, k < 96) → (l.all fun k => !s.gridInput k) → ∃ u, exec (.analogRead src l) s = .next u ∧ Answered s u src 0x0705 (f2 l.length :: l.map fun k => .struct
 (s.latestOf k).bytes) s) ∧
 (∀ (f : Bool), Taken s src 0x0706 → k < 96 → -2147483647 ≤ v → v ≤ 2147483647 → !s.armedInput k → !s.gridInput k → s.ana.calJobs = [] → (∀ n, n < 8 → (s.icv n).cal = none) → ∃ u, exec
 (.analogCalPoint src (.input k) f v) s = .next u ∧ ∃ z, Executing u src 0x0706 z ∧ z.ana.calJobs = [{ target := .input k, full := f, value := v, src := src, codes := [], nextAt := s.now }] ∧ Changes
 [.ana] s z) ∧
 (Taken s src 0x0707 → k < 96 → !s.armedInput k → !s.gridInput k → (s.input k).coef = some (a, b) → !s.calibrating (.input k) → ∃ u, exec (.analogCalCommit src [k] [] false) s = .next u ∧ ∃ z,
 Answered s u src 0x0707 [] z ∧ (z.input k).committed ∧ (!s.store.settingsVolatile → (⟨.input k, a, b, s.store.genSettings + 1⟩ : CalRec) ∈ z.ana.calStored) ∧ Only State.input k [.ana, .store,
 .recorder] s z) ∧
 (Taken s src 0x0708 → k < 96 → !s.armedInput k → !s.gridInput k → ∃ u, exec (.analogCalRead src (.input k)) s = .next u ∧ Answered s u src 0x0708 [fb (s.input k).coef.isSome, .s 4 (((s.input
 k).coef.map Prod.fst).getD 0), .s 4 (((s.input k).coef.map Prod.snd).getD 0), fb (s.input k).committed] s) ∧
 (∀ (c : Bool), Taken s src 0x0709 → k < 16 → ∃ u, exec (.analogCountersRead src k c) s = .next u ∧ AnalogCountersRead s u src k c) ∧
 (Taken s src 0x0801 → n < 8 → z = s.seen → ∃ u, exec (.icvStatus src n) s = .next u ∧ ∃ p, Answered s u src 0x0801 p s ∧ p[1]? = some (.s 8 ((z.icv n).acc.tdiv 1000000)) ∧ p[3]? = some (fb (z.icv
 n).incomplete) ∧ p[4]? = some (f8 (z.icv n).validWords) ∧ p.length = 5) ∧
 (Taken s src 0x0802 → n < 8 → !s.gridInput (12 * n + 6) → (s.icv n).cal = none → ∃ u, exec (.icvReset src n) s = .next u ∧ Answered s u src 0x0802 [] (s.setIcv n ((s.icv n).reset s.now s.pos)) ∧
 (u.icv n).partial_ ∧ (u.icv n).resetAt = s.now ∧ (u.icv n).validWords = 0 ∧ (u.icv n).windowStart = s.now ∧ (u.icv n).windowTag = s.pos) ∧
 (∀ (c : Nat) (p : Path), Taken s src 0x0901 → k < 8 → c < 65536 → r < 2 → ∃ u, exec (.dacConfig src k (.path p) c r) s = .next u ∧ Answered s u src 0x0901 [] (s.setDac k
 { s.dac k with source := .path p, safeCode := c, safeRange := r })) ∧
 (∀ (c : Nat), Taken s src 0x0902 → k < 8 → r < 2 → c < 65536 → (s.dac k).source = .path src.path → ∃ u, exec (.dacSet src k r c) s = .next u ∧ DacValueTaken s u src k r c) ∧
 (∀ (p f : Nat), Taken s src 0x0A01 → k < 16 → 8 ≤ k → 1 ≤ p → p ≤ 64 → f < 256 → 10 ≤ st → st ≤ 10000 → ∃ u, exec (.tachConfig src k fall false p f st) s = .next u ∧ ∃ z, Answered s u src 0x0A01 []
 z ∧ z.tach k = { s.tach k with
 speed := 0, stale := true, lastEdge := none, falling := fall, pair := false, ppr := p, filter := f, standstill := st, reverse := false } ∧ Only State.tach k [.ana, .therm, .ten] s z) ∧
 (Taken s src 0x0A02 → l.length ≤ 16 → (∀ k ∈ l, k < 16) → ∃ u, exec (.tachRead src l) s = .next u ∧ Answered s u src 0x0A02 (f2 l.length :: l.flatMap fun k => [.s 4 (s.tach k).speed, fb (s.tach
 k).reverse, fb (s.tach k).stale, .s 4 (s.tach k).count, f8 (s.tach k).lastInterval]) s)

/-- Conversions, table ends, window words, settling outputs and edges do what chapter 04 states (04 R110, R111, R115, R119,
R120, R121, R122, R126, R127, R129, R132, R133). -/
def Obligations.AnalogueEventsComplete : Prop := ∀ (s : State) (t k code g n e w : Nat) (q : Source) (r : TableRun) (j : CalJob) (d : Bool),
 (∀ (c : Conversion), k < 16 → code < 16384 → (s.conv k).running = some c → c.holdAt + 250 ≤ s.nowAt t → c.source = 6 → c.left = 1 → c.codes = [] → c.also = [] → c.src = some q → c.input / 6 = k →
 (s.atTime t).clearOf k c.holdAt = c.holdAt → !(s.box q.path q.box).resetPending → ∃ u, exec (.conversionComplete t k code) s = .next u ∧ ∃ r, (u.input c.input).latest = some r ∧ r.raw = code ∧
 r.input = c.input ∧ r.source = 6 ∧ !r.dropped ∧ Replied (s.atTime t) u q 0x0704 stOk [.struct r.bytes]) ∧
 (k < 16 → (s.conv k).run = some r → r.index = r.entries.length → r.gapUntil = some g → g ≤ s.nowAt t → r.queue = none → (s.conv k).pendingStart = none → ∃ u, exec (.tableRunEnd t k) s = .next u ∧
 (u.conv k).run = none ∧ Only State.conv k [.clock, .ana, .mbox] s u) ∧
 (k < 96 → s.ana.calJobs = [j] → j.target = .input k → j.codes.length = 64 → spreadOf j.codes ≤ 64 → !j.full → (s.input k).full = none → !(s.box j.src.path j.src.box).resetPending → ∃ u, exec
 (.calPointResult t (.input k)) s = .next u ∧ u.ana.calJobs = [] ∧ (u.input k).zero = some (j.value, meanCode j.codes) ∧ Replied (s.atTime t) u j.src 0x0706 stOk [.s 4 (roundA (meanCode j.codes *
 65536)), f2 (spreadOf j.codes)]) ∧
 (∀ (c : Int), n < 8 → 0 < (s.icv n).prevEnd → (s.icv n).prevEnd ≤ s.nowAt t → (s.icv n).last = none → s.power.state = .full → ∃ u, exec (.icvWord t n c) s = .next u ∧ WordCounted s u n c) ∧
 (n < 8 → s.power.state = .beached → (s.lane n).cfg.isSome → s.nowAt t % 10000000 = 0 → code < 16384 → ∃ u, exec (.beachedBusConversion t n code) s = .next u ∧ (∃ r, (u.input (12 * n + 8)).latest =
 some r ∧ r.raw = code ∧ r.input = 12 * n + 8) ∧ u.power.state = .beached) ∧
 (k < 8 → (s.dac k).settleUntil = some e → e ≤ s.nowAt t → ∃ u, exec (.dacRangeSettle t k) s = .next u ∧ u.dac k = { s.dac k with code := (s.dac k).stored, settleUntil := none } ∧ Only State.dac k
 [.clock, .ana, .mbox] s u) ∧
 (k < 16 → s.power.state = .full → !(s.tach k).pair → 8 * (s.tach k).filter ≤ w → (s.tach k).lastEdge = some e → s.nowAt t - e ≤ (s.tach k).standstill * 1000000 → !(s.tach k).reverse → ∃ u, exec
 (.tachEdge t k ⟨(s.tach k).falling, w, d⟩) s = .next u ∧ EdgeCounted s u t k e) ∧
 (k < 16 → s.power.state = .full → (s.tach k).lastEdge = some e → e + (s.tach k).standstill * 1000000 ≤ s.nowAt t → ∃ u, exec (.standstill t k) s = .next u ∧ u.tach k =
 { s.tach k with speed := 0, stale := true, lastEdge := none } ∧ Only State.tach k [.clock, .ana, .therm, .ten, .mbox] s u)

/-- The LANE commands configure, arm, disarm, set and read a lane (05 R137, R138, R139, R140, R154, R159, R160, R161, R163,
R164). -/
def Obligations.LaneCommandsComplete : Prop := ∀ (s z : State) (src : Source) (n : Nat) (g : LoopGains) (v : Int) (a : Bool),
 (∀ (c : LaneConfig), Taken s src 0x0B01 → n < 8 → !s.anyArmed → c.firstPort < 128 → c.portCount ≠ 0 → laneConfigOk s.baseB c → s.rangesOk n c → (s.lane n).cfg = none → (s.lane n).state =
 .unconfigured → ∃ u, exec (.laneConfig src n c) s = .next u ∧ ∃ z, Answered s u src 0x0B01 [] z ∧ (z.lane n).cfg = some c ∧ (z.lane n).state = .disarmed ∧ (!s.store.settingsVolatile →
 z.store.settings.tail = s.store.settings ∧ z.store.settings.head?.map (fun r => (r.code, r.object, r.cmd)) = some (0x0B01, n, .laneConfig src n c))) ∧
 (Taken s src 0x0B02 → n < 8 → gainsOk g → (s.lane n).state ≠ .arming → (s.lane n).state ≠ .disarming → ∃ u, exec (.laneLoopSet src n g) s = .next u ∧ ∃ z, Answered s u src 0x0B02 [] z ∧ z.lane n =
 (if (s.lane n).state = .run ∨ (s.lane n).state = .shadow then { s.lane n with pendingGains := some g } else { s.lane n with gains := some g, pendingGains := none }) ∧ Only State.lane n [.lanes,
 .store] s z) ∧
 (Taken s src 0x0B03 → n < 8 → (∀ c ∈ s.armChecks n, c.1) → ∃ u, exec (.laneArm src n) s = .next u ∧ ∃ z, Answered s u src 0x0B03 [] z ∧ (z.lane n).state = .arming ∧ (z.lane n).step = 1 ∧ (z.lane
 n).stepAt = s.now ∧ (z.lane n).kNeg.drive ∧ (z.lane n).kPos.drive = (s.lane n).kPos.drive ∧ (z.lane n).kPre.drive = (s.lane n).kPre.drive ∧ Only State.lane n [.lanes] s z) ∧
 (Taken s src 0x0B04 → n < 8 → (s.lane n).state = .run → ∃ u, exec (.laneDisarm src n) s = .next u ∧ ∃ z, Answered s u src 0x0B04 [] z ∧ (z.lane n).state = .disarming ∧ (z.lane n).step = 1 ∧ (z.lane
 n).stepAt = s.now) ∧
 (∀ (c : LaneConfig), Taken s src 0x0B05 → n < 8 → -2147483648 ≤ v → v ≤ 2147483647 → (s.lane n).cfg = some c → c.source = .path src.path → (s.lane n).state = .run → ∃ u, exec (.laneSetpoint src n v)
 s = .next u ∧ Answered s u src 0x0B05 [] (s.setLane n { s.lane n with mailboxCmd := some v })) ∧
 (Taken s src 0x0B06 → n < 8 → z = s.seen → ∃ u, exec (.laneStatus src n) s = .next u ∧ Answered s u src 0x0B06 (z.laneFields n) s) ∧
 (Taken s src 0x0B07 → n < 8 → (s.lane n).state = .tripped → !s.latched n → (s.lane n).allOpen → (∀ k, k < 3 → ((s.lane n).contactor k).weld = false ∧ ((s.lane n).contactor k).weldSuspect = false) ∨
 a → ∃ u, exec (.laneFaultClear src n a) s = .next u ∧ ∃ z, Answered s u src 0x0B07 [] z ∧ (z.lane n).state = .disarmed ∧ (∀ k, k < 3 → ((z.lane n).contactor k).weld = false ∧ ((z.lane n).contactor
 k).weldSuspect = false) ∧ Only State.lane n [.lanes] s z) ∧
 (∀ (c : Bool), Taken s src 0x0B08 → n < 8 → ∃ u, exec (.laneCountersRead src n c) s = .next u ∧ LaneCountersRead s u src n c)

/-- PWM periods, sequences, contactors and the lane's own trips do what chapter 05 states (05 R144, R145, R147, R152, R156,
R158, R160, R161, R162). -/
def Obligations.LaneEventsComplete : Prop := ∀ (s : State) (t n len m a k : Nat) (rest : List Nat) (c : LaneConfig) (q : Rat) (b : Bool),
  let l (y : State) := y.lane n
 (n < 8 → s.power.state = .full → (l s).cfg = some c → 0 < c.phases → (l s).state = .run → (l s).periods = len :: rest → ((l s).phase 0).nextAt = some q → q ≤ (s.nowAt t : Rat) + 1 → s.laneRole n =
 none → (s.conv (2 * n)).running = none → (s.conv (2 * n + 1)).running = none → ∃ u, exec (.pwmPeriodStart t n 0) s = .next u ∧ PeriodBegun s u n len rest q) ∧
 (n < 8 → m < 6 → m ≠ 0 → s.power.state = .full → (l s).cfg = some c → m < c.phases → ((l s).phase m).nextAt = some q → q ≤ (s.nowAt t : Rat) + 1 → (s.conv (2 * n)).running = none → !(s.conv (2 *
 n)).stopped → ∃ u, exec (.pwmPeriodStart t n m) s = .next u ∧ ((l u).phase m).nextAt = none ∧ (∀ j, j ≠ m → (l u).phase j = (l s).phase j) ∧ (∃ x, (u.conv (2 * n)).running = some x ∧ x.input = 12 *
 n + m ∧ x.source = 2 ∧ x.holdAt = s.nowAt t) ∧ Moves [.lanes, .ana] s u) ∧
 (n < 8 → (l s).state = .run → 8 ≤ (l s).spB.droppedRun → ∃ u, exec (.loopSampleLost t n) s = .next u ∧ (l u).state = .tripped ∧ (l u).cause = trLoopSample ∧ (l u).gatesForced) ∧
 (n < 8 → (l s).state = .run → 10 ≤ (l s).busOutRun → ∃ u, exec (.busRange t n) s = .next u ∧ (l u).state = .tripped ∧ (l u).cause = trBusRange ∧ (l u).gatesForced) ∧
 (n < 8 → (l s).cfg = some c → (l s).state = .arming → (s.atTime t).permissive n → c.tDecay = 0 → (l s).step = 1 → (l s).kNeg.closedBy ((l s).stepAt + c.tFb * 1000000) → ∃ u, exec (.armSequenceStep t
 n) s = .next u ∧ u.lane n = { s.lane n with step := 2, stepAt := s.nowAt t } ∧ Only State.lane n [.clock, .lanes, .mbox] s u) ∧
 (n < 8 → (l s).cfg = some c → (l s).state = .arming → 3 ≤ (l s).step → (l s).step ≤ 4 → (s.atTime t).nodeHighSince n = some a → a + (c.preShort * 1000000 + 1) ≤ s.nowAt t → ∃ u, exec
 (.prechargeShort t n) s = .next u ∧ PrechargeShort s u n) ∧
 (n < 8 → (l s).cfg = some c → (l s).state = .disarming → (l s).step = 2 → (l s).gatesForced → (l s).stepAt + 1000000 ≤ s.nowAt t → ∃ u, exec (.disarmSequenceStep t n) s = .next u ∧ (l u).step = 3 ∧
 !(l u).kPos.drive ∧ (l u).kNeg.drive = (l s).kNeg.drive ∧ (l u).state = .disarming ∧ (l u).decayDue = (if c.tDecay = 0 then none else some (s.nowAt t + c.tDecay * 1000000)) ∧ Only State.lane n
 [.clock, .lanes, .mbox] s u) ∧
 (n < 8 → (l s).cfg = some c → (l s).state = .disarming → (l s).step = 1 → (l s).stepAt + c.disarmTimeout * 1000000 ≤ s.nowAt t → ∃ u, exec (.disarmForced t n) s = .next u ∧ u.lane n =
 { s.lane n with step := 2, stepAt := s.nowAt t, disarmForced := inc64 (l s).disarmForced } ∧ Only State.lane n [.clock, .lanes, .mbox, .recorder] s u) ∧
 (n < 8 → (l s).decayDue = some a → a ≤ s.nowAt t → (s.atTime t).stageDown n → ∃ u, exec (.decayCheck t n) s = .next u ∧ u.lane n = { s.lane n with decayDue := none } ∧ Only State.lane n [.clock,
 .lanes, .mbox] s u) ∧
 (n < 8 → k < 3 → ((l s).contactor k).fb ≠ b → ∃ u, exec (.contactorFeedback t n k b) s = .next u ∧ FeedbackSeen s u t n k b) ∧
 (n < 8 → k < 3 → (l s).cfg = some c → (l s).state = .run → ((l s).contactor k).drive ≠ ((l s).contactor k).fb → !((l s).contactor k).reported → ((l s).contactor k).changedAt + c.tFb * 1000000 <
 s.nowAt t → ∃ u, exec (.contactorMismatch t n k) s = .next u ∧ (l u).state = .tripped ∧ (l u).cause = trMismatch) ∧
 (n < 8 → (l s).cfg = some c → (l s).state = .tripped → (l s).openWatch ≠ [] → (l s).openAt + c.tFb * 1000000 ≤ s.nowAt t → (l s).allOpen → ∃ u, exec (.weldCheck t n) s = .next u ∧ u.lane n =
 { s.lane n with openWatch := [] } ∧ Only State.lane n [.clock, .lanes, .mbox] s u)

/-- The MODEL commands load, assign, read and write what chapter 06 states (06 R179, R180, R185, R191, R192, R193, R194, R196,
R202). -/
def Obligations.ModelCommandsComplete : Prop := ∀ (s z : State) (src : Source) (typ p n : Nat) (q : ParamSet) (ts ss : List Nat) (keep on : Bool),
 (∀ (b : List Byte), Taken s src 0x0C01 → 1 ≤ typ → typ ≤ 255 → b.length = 1032 → paramCheck b → paramRange typ { bytes := b, build := leAt b 8 8 } = true → (s.model.params.filter fun x => x.2.isSome
 && x.1 != typ).length < 64 → ∃ u, exec (.modelParamLoad src typ b) s = .next u ∧ ∃ z, Answered s u src 0x0C01 [] z ∧ z.params typ = some { bytes := b, build := leAt b 8 8 } ∧ Only State.params typ
 [.model] s z) ∧
 (Taken s src 0x0C02 → 1 ≤ typ → typ ≤ 255 → s.params typ = some q → ∃ u, exec (.modelParamRead src typ) s = .next u ∧ Answered s u src 0x0C02 [f2 (leAt q.bytes 0 2), f8 q.build, f4 (leAt q.bytes
 1028 4), f2 (s.model.cells.filter fun x => x.2.typ == typ).length] s) ∧
 (Taken s src 0x0C03 → p < 128 → ts.length = 18 → ss.length = 18 → ts.all (fun x => decide (x ≤ 255)) → ss.all (fun x => decide (x ≤ 5) || x == 255) → (∀ n, s.laneOfPort p = some n → laneArmed
 (s.lane n).state = false) → ∃ u, exec (.modelAssign src p ts ss) s = .next u ∧ ∃ z, Answered s u src 0x0C03 [] z ∧ (∀ c, c < 18 → (z.cell (cellIx p c)).typ = ts.getD c 0 ∧ (z.cell (cellIx p
 c)).sensor = ss.getD c 255) ∧ Changes [.model, .store, .recorder] s z) ∧
 (∀ (c : Nat), Taken s src 0x0C04 → p < 128 → c < 18 → 1 ≤ n → c + n ≤ 18 → ∃ u, exec (.modelCellRead src p c n) s = .next u ∧ Answered s u src 0x0C04 ((List.range n).map fun k => .struct
 (s.cellRecord p (c + k)).bytes) s) ∧
 (Taken s src 0x0C05 → n < 8 → z = s.seen → ∃ u, exec (.modelStatus src n) s = .next u ∧ ∃ p, Answered s u src 0x0C05 p s ∧ p.length = 16 ∧ p.drop 10 = [fb (z.lane n).limitsStale, fb
 (!z.model.native), fb z.store.commit.isSome, fb z.store.deferred, f8 z.store.lastCommitEnd, fb (z.power.state == .slack)]) ∧
 (∀ (b : Bool) (h : Nat), Taken s src 0x0C06 → 1 ≤ h → h ≤ 24 → ∃ u, exec (.modelLearnSet src b h) s = .next u ∧ ∃ z, Answered s u src 0x0C06 [] z ∧ z.model =
 { s.model with native := b, nextIntervalH := some h } ∧ (!s.store.settingsVolatile → z.store.settings.head?.map (·.cmd) = some (.modelLearnSet src b h)) ∧ Changes [.model, .store] s z) ∧
 (Taken s src 0x0C07 → p < 128 → ∃ u, exec (.modelLearnedRead src p) s = .next u ∧ Answered s u src 0x0C07 [.struct (blockBytes (s.serialOf p) (s.learnedOfPort p))] s) ∧
 (∀ (b : List Byte) (h : Hello), Taken s src 0x0C08 → p < 128 → b.length = 588 → (s.port p).hello = some h → h.serial = leAt b 0 8 → leAt b 584 4 = crc32 (b.take 584) → ∃ u, exec (.modelLearnedWrite
 src p b) s = .next u ∧ ∃ z, Answered s u src 0x0C08 [] z ∧ (∀ c ∈ s.modelled p, (z.cell (cellIx p c)).newLearned = some (learnedOf (slice b (8 + 32 * c) 32))) ∧ Changes [.model, .store] s z) ∧
 (Taken s src 0x0C09 → s.model.native → s.storeStage ≠ .volatile → s.store.commit = none → ∃ u, exec (.modelCommit src) s = .next u ∧ ∃ z, Answered s u src 0x0C09 [] z ∧ (∃ c, z.store.commit = some c
 ∧ c.generation = s.store.genCommit + 1 ∧ c.startedAt = s.now) ∧ Changes [.store, .model] s z) ∧
 (Taken s src 0x0C0A → p < 128 → s.modelled p ≠ [] → ∃ u, exec (.modelRoughCommand src (.port p) keep) s = .next u ∧ RoughBegun s u src p keep) ∧
 (Taken s src 0x0C0B → ∃ u, exec (.modelPowerSet src on) s = .next u ∧ ∃ z, Answered s u src 0x0C0B [] z ∧ z.model = { s.model with slackEnabled := on } ∧ z.power = (if on = false ∧ s.power.state =
 .slack then { s.power with state := .full } else s.power) ∧ Changes [.model, .power, .table, .recorder] s z) ∧
 (∀ (c : Bool), Taken s src 0x0C0C → p < 128 → ∃ u, exec (.modelCountersRead src p c) s = .next u ∧ ModelCountersRead s u src p c)

/-- Model steps, divergence, estimates, rest, commits and slack water do what chapter 06 states (06 R172, R173, R176, R183,
R186, R187, R193, R196). -/
def Obligations.ModelEventsComplete : Prop := ∀ (s : State) (t p n c a : Nat) (q : ParamSet),
 (p < 128 → s.power.state = .full → s.laneOfPort p = some n → (s.portsOf n).contains p → s.modelled p = [c] → s.params (s.cell (cellIx p c)).typ = none → tget none s.model.stepped p ≠ some
 s.model.lastTag → ∃ u, exec (.modelStep t p) s = .next u ∧ tget none u.model.stepped p = some s.model.lastTag ∧ (u.cellRecord p c).noParam ∧ (u.cell (cellIx p c)).x = (s.cell (cellIx p c)).x) ∧
 (p < 128 → c < 18 → 10 ≤ (s.cell (cellIx p c)).rejectRun → ∃ u, exec (.modelDiverged t p c) s = .next u ∧ (u.cell (cellIx p c)).rejectRun = 0 ∧ (u.cell (cellIx p c)).outRec.diverged ∧ (u.cell
 (cellIx p c)).learned = (s.cell (cellIx p c)).learned ∧ (u.modelCount p).diverged = inc64 (s.modelCount p).diverged ∧ Moves [.model, .recorder] s u) ∧
 (p < 128 → s.power.state = .full → s.laneOfPort p = some n → tget none (s.lane n).limChgPort p = none → ∃ u, exec (.modelLimitsStale t p) s = .next u ∧ u.lane n =
 { s.lane n with limitsStale := true } ∧ Only State.lane n [.clock, .lanes, .mbox] s u) ∧
 (p < 128 → c < 18 → s.power.state = .full → (s.cell (cellIx p c)).estActive → (s.cell (cellIx p c)).estVolts.length = 16 → s.params (s.cell (cellIx p c)).typ = some q → ∃ u, exec
 (.openCircuitEstimate t p c) s = .next u ∧ (u.cell (cellIx p c)).estActive = false ∧ (u.cell (cellIx p c)).estVolts = [] ∧ (u.cell (cellIx p c)).x.length = 14 ∧ (u.cell (cellIx p c)).cov.length = 14
 ∧ (u.cell (cellIx p c)).tagAt = s.model.lastTag ∧ Only State.cell (cellIx p c) [.clock, .model, .fresh, .mbox] s u) ∧
 (n < 8 → !(s.lane n).rested → (s.lane n).restSince = some a → a + 1800 * 10 ^ 9 ≤ s.nowAt t → ∃ u, exec (.laneRest t n) s = .next u ∧ u.lane n = { s.lane n with rested := true } ∧ Only State.lane n
 [.clock, .lanes, .model, .mbox] s u) ∧
 (s.model.native → s.power.state = .full → s.store.commit = none → s.storeStage = .normal → s.store.lastCommitEnd + s.model.intervalH * 3600 * 10 ^ 9 ≤ s.nowAt t → ∃ u, exec (.commitInterval t) s =
 .next u ∧ (∃ c, u.store.commit = some c ∧ c.generation = s.store.genCommit + 1) ∧ Moves [.store, .model] s u) ∧
 (s.power.state = .full → s.model.slackEnabled → (s.atTime t).quiet → s.sec.debug ≠ .invasive → s.sec.lifecycle ≠ .parted → s.power.beach = none → (∀ n < 8, (s.lane n).cfg = none ∨ elapsedO (s.lane
 n).lowSince (60 * 10 ^ 9) (s.nowAt t)) → cycleOf ((s.atTime t).pos + 32) % (if s.baseB = 17 then 6 else 5) = 0 → ∃ u, exec (.slackEnter t) s = .next u ∧ u.power = { s.power with state := .slack } ∧
 Moves [.power, .table, .recorder] s u) ∧
 (n < 8 → s.power.state = .slack → (s.lane n).cfg.isSome → 3 ≤ (s.lane n).highRun → ∃ u, exec (.slackExit t) s = .next u ∧ u.power = { s.power with state := .full } ∧ Moves [.power, .table,
 .recorder] s u)

/-- The SOUND and SPRING commands schedule, cancel, start, stop and read (07 R203, R205, R209, R217, R220, R221, R223, R228,
R231). -/
def Obligations.SoundAndSpringCommandsComplete : Prop := ∀ (s z : State) (src : Source) (e n k cv h d : Nat) (a : SoundStep) (x : LaneSound) (i : Int) (c : LaneConfig),
 (∀ (r : SoundReq), Taken s src 0x0D01 → r.lane < 8 → r.set_ < 2 ^ 32 → r.step < 65536 → r.start < 2 ^ 64 → roleKind r.partnerRole = 2 → r.partnerEpoch < 65536 → s.ownRole r.partnerRole = none →
 s.soundBlocked r.lane = none → (baseIndex s.baseB r.start).isSome → s.pos + 10 * 65536 ≤ r.start → !s.stepOverlaps r.lane r → s.tideSettled → stepRange (s.lane r.lane).rated r → s.freeEntry
 s.usedEntries = some e → ∃ u, exec (.soundSchedule src r) s = .next u ∧ StepScheduled s u src r e) ∧
 (Taken s src 0x0D02 → n < 8 → ∃ u, exec (.soundCancel src n k none) s = .next u ∧ ∃ z, Answered s u src 0x0D02 [] z ∧ (∀ a ∈ (z.laneSound n).steps, a.set_ = k → a.phase ≠ .scheduled ∧ a.phase ≠
 .enabled ∧ (a.phase = .running → a.endAtAlign)) ∧ Changes [.sound, .table, .recorder, .net, .out] s z) ∧
 (∀ (j : Nat), Taken s src 0x0D02 → n < 8 → (s.laneSound n).steps = [a] → a.set_ = k → a.step = j → a.phase = .scheduled → (s.entry a.entry).kind = 4 → s.ownRole a.partnerRole = none → ∃ u, exec
 (.soundCancel src n k (some j)) s = .next u ∧ ∃ z, Answered s u src 0x0D02 [] z ∧ (z.laneSound n).steps = [{ a with phase := .ended, outcome := ocCancelled, endedEarly := true }] ∧ z.entry a.entry =
 {}) ∧
 (Taken s src 0x0D03 → n < 8 → z = s.seen → x = z.laneSound n → ∃ u, exec (.soundStatus src n) s = .next u ∧ Answered s u src 0x0D03 ([f2 x.steps.length] ++ x.steps.flatMap (fun a => [f4 a.set_, f2
 a.step, f1 (stepCode a.phase), f1 a.outcome]) ++ [f2 x.openSets.length] ++ x.openSets.map fun o => f4 o.set_) s) ∧
 (∀ (j p : Nat) (r : SoundRun), Taken s src 0x0D04 → n < 8 → p < 128 → (s.laneSound n).runs.find? (fun x => x.set_ == k && x.step == j && x.port == p) = some r → tget [] (s.laneSound n).results p =
 [] → ∃ u, exec (.soundResultRead src n k j p) s = .next u ∧ Answered s u src 0x0D04 ((List.range 18).map (fun c => .struct (soundBytes (noResult k j c))) ++ [fi4 (r.mean.map roundA), fi4 (r.iRef.map
 roundA)]) s) ∧
 (∀ (j : Int), Taken s src 0x0E01 → n < 8 → 1 ≤ cv → cv ≤ 10000 → 4 ≤ h → h ≤ 72 → (s.lane n).cfg = some c → springCurrent c.rated i → springCurrent c.rated j → s.fromCoordinator src → s.soundBlocked
 n = none → !(s.laneSound n).capturePending → ∃ u, exec (.springStart src n i j cv h) s = .next u ∧ SpringStarted s u src n cv h i j) ∧
 (Taken s src 0x0E02 → n < 8 → (s.spring n).profile.isSome → (s.lane n).state = .run → ∃ u, exec (.springStop src n) s = .next u ∧ ∃ z, Answered s u src 0x0E02 [] z ∧ z.spring n =
 { s.spring n with phase := .return_, phaseAt := s.now, outcome := 2, failCause := 5, lastFailedAt := some s.now, gathering := false } ∧ Only State.spring n [.sound, .recorder] s z) ∧
 (∀ (p : Spring), Taken s src 0x0E03 → n < 8 → z = s.seen → p = z.spring n → (z.lane n).cfg = none → ∃ u, exec (.springStatus src n) s = .next u ∧ Answered s u src 0x0E03 [f1 (springCode p.phase), .s
 4 p.iK, f8 (z.statusNow - p.phaseAt), ft p.lastCompleteAt, f1 p.outcome, f1 p.failCause, f2 0] s) ∧
 (Taken s src 0x0E04 → 1 ≤ k → k ≤ 200 → 30 ≤ d → d ≤ 730 → s.isCoordinator → ∃ u, exec (.springRosterSet src k d) s = .next u ∧ ∃ z, Answered s u src 0x0E04 [] z ∧ z.sound =
 { s.sound with roster := { s.sound.roster with share := k, interval := d } } ∧ Changes [.sound] s z) ∧
 (Taken s src 0x0E05 → s.isCoordinator → ∃ u, exec (.springRosterRead src) s = .next u ∧ RosterRead s u src)

/-- The exchange of a sounding step, its decision, its end and its fit do what chapter 07 states (07 R203, R206, R208, R209,
R212, R218). -/
def Obligations.SoundingEventsComplete : Prop := ∀ (s z : State) (t n k b x : Nat) (a : SoundStep) (lan : Lan) (h : GHead) (m : SoundMsg) (o : OwnRole),
  let l (y : State) := y.laneSound n
 (n < 8 → (l s).steps = [a] → a.phase = .scheduled → (s.atTime t).atAngle0 → cycleOf ((s.atTime t).pos + 1) + 3 ≤ cycleOf a.start → a.readyCycle ≠ some (cycleOf ((s.atTime t).pos + 1)) →
 s.soundBlocked n = none → (s.atTime t).tideSettled → s.ownRole a.partnerRole = none → ∃ u, exec (.soundReadySend t n) s = .next u ∧ (l u).steps =
 [{ a with stepW := s.stepWatts n a.stepMa, readyCycle := some (cycleOf ((s.atTime t).pos + 1)) }] ∧ Moves [.sound, .net, .out] s u) ∧
 (z = (s.frameIn (lanNo lan) t).atTime t → InTurn z h (.sound m) → m.kind = 1 → OfStep z h m o a → a.partnerRole = m.laneRole → a.phase = .scheduled → (cycleOf a.start - 4) * 65536 ≤ z.pos → a.start
 = m.start → a.length = m.length → a.stepMa * m.stepMa < 0 → ∃ u, exec (.soundReady t lan h m) s = .next u ∧ (u.laneSound o.local_).steps =
 [{ a with readyOk := true, partnerW := m.stepW, partnerSource := m.source }] ∧ Moves [.sound, .net, .out] z u) ∧
 (z = (s.frameIn (lanNo lan) t).atTime t → InTurn z h (.sound m) → m.kind = 2 → OfStep z h m o a → a.start = m.start → a.phase ≠ .ended → a.partnerRole = m.laneRole → ∃ u, exec (.soundActive t lan h
 m) s = .next u ∧ (u.laneSound o.local_).steps = [{ a with activeSeen := true }] ∧ Moves [.sound, .net, .out] z u) ∧
 (z = (s.frameIn (lanNo lan) t).atTime t → InTurn z h (.sound m) → m.kind = 3 → OfStep z h m o a → a.start = m.start → a.phase = .running → a.partnerRole = m.laneRole → ∃ u, exec (.soundEnd t lan h
 m) s = .next u ∧ (u.laneSound o.local_).steps = [{ a with endAtAlign := true, outcome := ocPartnerEnded }] ∧ Moves [.sound, .net, .out] z u) ∧
 (n < 8 → (l s).steps = [a] → a.phase = .scheduled → !a.capture → cycleOf a.start ≤ cycleOf ((s.atTime t).pos + 1) + 2 → a.readyOk → |a.stepW + a.partnerW| * 10 ≤ max |a.stepW| |a.partnerW| →
 s.soundBlocked n = none → (s.atTime t).tideSettled → a.partnerSource = s.tide.source → (s.atTime t).pos < (s.entry a.entry).position → ∃ u, exec (.soundDecision t n) s = .next u ∧ (l u).steps =
 [{ a with phase := .enabled }] ∧ u.entry a.entry = { s.entry a.entry with enable := true, expired := false, late := false, fired := false, missed := 0, fireCount := 0 } ∧ Moves [.sound, .table] s u)
 ∧
 (n < 8 → (l s).steps = [a] → a.phase = .running → !a.activeSeen → !a.endAtAlign → a.t0 + 2000000 ≤ s.nowAt t → s.ownRole a.partnerRole = none → ∃ u, exec (.soundAlone t n) s = .next u ∧ (l u).steps
 = [{ a with endAtAlign := true, outcome := ocAlone, endedEarly := true }] ∧ Moves [.sound, .net, .out] s u) ∧
 (n < 8 → (l s).steps = [a] → a.phase = .running → !a.endAtAlign → a.capture → (s.atTime t).pastStart a a.length → ∃ u, exec (.soundStepLeave t n) s = .next u ∧ (l u).steps =
 [{ a with phase := .capturing }] ∧ Moves [.sound] s u) ∧
 (n < 8 → (l s).steps = [a] → a.phase = .running → !a.endAtAlign → !a.capture → (s.atTime t).pastStart a a.length → (s.entry a.entry).kind ≠ 4 → ∃ u, exec (.soundStepLeave t n) s = .next u ∧ (l
 u).steps = [{ a with phase := .ended, outcome := ocComplete }] ∧ Moves [.sound, .recorder] s u) ∧
 (n < 8 → (l s).steps = [a] → a.phase = .capturing → (s.atTime t).pastStart a (2 * a.length) → ∃ u, exec (.captureEnd t n) s = .next u ∧ (l u).steps = [{ a with phase := .fitting }] ∧ (∀ e ∈
 captureEntries n, u.entry e = {}) ∧ Moves [.sound, .table, .therm, .tap] s u) ∧
 (n < 8 → (l s).steps = [a] → a.phase = .fitting → !a.last → a.capture → (s.entry a.entry).kind ≠ 4 → ∃ u, exec (.soundFit t n) s = .next u ∧ (l u).steps =
 [{ a with phase := .ended, outcome := ocComplete }] ∧ (l u).openSets = (l s).openSets ∧ (∀ p ∈ s.portsOf n, a.run s.baseB p ∈ (l u).runs) ∧ Moves [.sound, .table, .recorder] s u) ∧
 (n < 8 → (l s).openSets = [{ set_ := k, start := b, t0 := some x }] → x + 3600 * 10 ^ 9 ≤ s.nowAt t → ∃ u, exec (.soundSetClose t n) s = .next u ∧ (l u).openSets = [] ∧ (∀ f ∈ (l u).fits, f.set_ ≠
 k) ∧ (∀ a ∈ (l u).steps, a.set_ = k → a.caps = []) ∧ Moves [.sound, .model, .store, .recorder] s u)

/-- A spring tide passes its phases, takes its endpoints, ends and is granted as chapter 07 states (07 R221, R222, R223, R225,
R226, R228). -/
def Obligations.SpringTideEventsComplete : Prop := ∀ (s : State) (t n a p c b e : Nat) (m : Rat) (l : RosterLane),
  let x (y : State) := y.spring n
 (n < 8 → (x s).phase = .charge ∨ (x s).phase = .discharge → (x s).margin = some m → m ≤ 10 → ∃ u, exec (.springPhaseEnd t n) s = .next u ∧ u.spring n = (if (x s).phase = .charge then (x s).enter
 .top (x s).iChg (s.nowAt t) else (x s).enter .bottom (x s).iDis (s.nowAt t)) ∧ Only State.spring n [.clock, .sound, .mbox] s u) ∧
 (n < 8 → (x s).phase = .return_ → (x s).phaseAt < s.nowAt t → (s.lane n).ramp = (s.lane n).limitedCommand → ∃ u, exec (.springPhaseEnd t n) s = .next u ∧ u.spring n = (x s).enter .idle 0 (s.nowAt t)
 ∧ Only State.spring n [.clock, .sound, .mbox] s u) ∧
 (n < 8 → (x s).phase = .top ∨ (x s).phase = .bottom → !(x s).gathering → (x s).taperSince = some a → a + 10 ^ 10 ≤ s.nowAt t → ∃ u, exec (.springTaperEnd t n) s = .next u ∧ u.spring n =
 { s.spring n with gathering := true } ∧ (∀ p ∈ s.portsOf n, ∀ c ∈ s.modelled p, (u.cell (cellIx p c)).endVolts = [] ∧ (u.cell (cellIx p c)).endCurrents = []) ∧ Moves [.sound, .model] s u) ∧
 (n < 8 → (x s).gathering → (x s).phase = .top → s.portsOf n = [p] → s.modelled p = [c] → (s.cell (cellIx p c)).endState.isSome → ∃ u, exec (.springEndpoint t n) s = .next u ∧ u.spring n =
 { (x s).enter .discharge (x s).iDis (s.nowAt t) with counterOk := !(s.icv n).incomplete, fullTag := s.model.lastTag } ∧ (u.icv n).windowsSpan = 0 ∧ (u.icv n).windowsCarried = 0 ∧ Moves [.sound,
 .model, .ana] s u) ∧
 (n < 8 → (x s).gathering → (x s).phase = .bottom → s.portsOf n = [p] → s.modelled p = [c] → (s.cell (cellIx p c)).endState.isSome → ∃ u, exec (.springEndpoint t n) s = .next u ∧ u.spring n =
 { (x s).enter .return_ 0 (s.nowAt t) with outcome := 1, lastCompleteAt := some (s.nowAt t) } ∧ Moves [.sound, .model, .store, .recorder] s u) ∧
 (n < 8 → (x s).phase = .discharge ∨ (x s).phase = .bottom → (x s).lowSince = some a → a + (60 * 10 ^ 9 + 1) ≤ s.nowAt t → (s.lane n).state = .run → ∃ u, exec (.springInterrupted t n) s = .next u ∧
 u.spring n = { s.spring n with
 phase := .return_, phaseAt := s.nowAt t, outcome := 2, failCause := 1, lastFailedAt := some (s.nowAt t), gathering := false } ∧ Only State.spring n [.clock, .sound, .recorder, .mbox] s u) ∧
 (n < 8 → (x s).profile.isSome → p ∈ s.portsOf n → (s.port p).state ≠ .run → max (x s).startedAt ((s.port p).outSince.getD 0) + (10 ^ 9 + 1) ≤ s.nowAt t → (s.lane n).state = .run → ∃ u, exec
 (.springPortLost t n) s = .next u ∧ u.spring n = { s.spring n with
 phase := .return_, phaseAt := s.nowAt t, outcome := 2, failCause := 2, lastFailedAt := some (s.nowAt t), gathering := false } ∧ Only State.spring n [.clock, .sound, .recorder, .mbox] s u) ∧
 (n < 8 → (x s).profile.isSome → (x s).startedAt + (x s).maxHours * 3600 * 10 ^ 9 ≤ s.nowAt t → (s.lane n).state = .run → ∃ u, exec (.springTimeout t n) s = .next u ∧ u.spring n = { s.spring n with
 phase := .return_, phaseAt := s.nowAt t, outcome := 2, failCause := 3, lastFailedAt := some (s.nowAt t), gathering := false } ∧ Only State.spring n [.clock, .sound, .recorder, .mbox] s u) ∧
 (s.isCoordinator → s.sound.roster.ready → s.sound.roster.lanes = [l] → !l.out → s.sound.roster.due (s.nowAt t) = [l] → s.holderOf l.role = some (b, e) → s.net.berth ≠ some b → (s.streamTx
 b).unacked.length < 64 → ∃ u, exec (.springGrant t) s = .next u ∧ u.sound.roster.lanes = [{ l with out := true }] ∧ (∃ r ∈ u.net.requests, r.role = l.role ∧ r.epoch = e ∧ r.command = 0x0E01 ∧
 r.srcRole = 0x50000000) ∧ Moves [.sound, .net, .out, .fresh] s u)

/-- The BALANCE, THERMAL, COOLING and DIE commands set what they name and read what is held (08 R236, R238, R242, R247, R248,
R251, R255). -/
def Obligations.BalancingAndThermalCommandsComplete : Prop := ∀ (s z : State) (src : Source) (n k f : Nat) (h : LaneTherm) (x : CoolLoop),
 (∀ (r : BalRequest), Taken s src 0x0F01 → n < 8 → balOk r → ∃ u, exec (.balanceConfig src n r) s = .next u ∧ BalanceStaged s u src n r) ∧
 (Taken s src 0x0F02 → n < 8 → z = s.seen → ∃ u, exec (.balanceStatus src n) s = .next u ∧ Answered s u src 0x0F02 (fi8 (z.laneTherm n).qRef :: (z.portsOf n).flatMap fun p => [f4 (z.balPort p).sent,
 f4 (z.port p).balanceField, f4 (z.cellMask p (·.overdue)), f4 (z.cellMask p (·.balSwitchFault))]) s) ∧
 (∀ (p c : Nat), Taken s src 0x0F03 → n < 8 → p < 128 → c < 18 → s.laneOfPort p = some n → (s.modelled p).contains c → s.holdsHelm n → (s.port p).state = .run → ∃ u, exec (.balanceTest src
 { lane := n, port := p, cell := c }) s = .next u ∧ ∃ z, Answered s u src 0x0F03 [] z ∧ z.cell (cellIx p c) = { s.cell (cellIx p c) with testQueued := true } ∧ Only State.cell (cellIx p c) [.model] s
 z) ∧
 (∀ (p : Nat), Taken s src 0x0F04 → p < 128 → ∃ u, exec (.balanceTestRead src p) s = .next u ∧ Answered s u src 0x0F04 ((List.range 18).flatMap fun c => [f1 ((s.cell (cellIx p c)).lastVerdict.getD
 0xFF), f8 (s.cell (cellIx p c)).lastVerdictAt, .s 2 (s.cell (cellIx p c)).lastD, .s 2 (s.cell (cellIx p c)).lastLeak]) s) ∧
 (∀ (r : ThermRequest), Taken s src 0x1001 → n < 8 → thermOk r → ∃ u, exec (.thermalLimitsSet src n r) s = .next u ∧ ThermLimitsStaged s u src n r) ∧
 (Taken s src 0x1002 → n < 8 → z = s.seen → h = z.laneTherm n → ∃ u, exec (.thermalStatus src n) s = .next u ∧ Answered s u src 0x1002 [fi2 h.hottest, fi2 h.coldest, f4 (z.shedNow n), f1 h.shedCause,
 fb (z.anySensor n (·.warnHigh)), fb (z.anySensor n (·.warnLow)), fb h.precursor, fb (z.anySensor n (·.lost))] s) ∧
 (∀ (c : CoolConfig), Taken s src 0x1101 → k < 8 → c.lanes < 256 → c.pump < 8 → c.tach < 16 → -32768 ≤ c.setPoint → c.setPoint ≤ 32767 → c.kp < 2 ^ 32 → c.ki < 2 ^ 32 → c.pumpMin < 65536 → c.pumpMax
 < 65536 → c.expect < 65536 → ∃ u, exec (.coolingLoopSet src k c) s = .next u ∧ ∃ z, Answered s u src 0x1101 [] z ∧ z.coolLoop k = { s.coolLoop k with cfg := some c } ∧ Only State.coolLoop k [.therm]
 s z) ∧
 (∀ (d : Nat) (p : Path), Taken s src 0x1102 → k < 8 → 1000 ≤ f → f ≤ 100000 → d < 65536 → ∃ u, exec (.coolingOutputSet src k (.path p) f d) s = .next u ∧ ∃ z, Answered s u src 0x1102 [] z ∧ z.aux k
 = { s.aux k with source := .path p, freq := f, safeDuty := d, configured := true, duty := d, safe := true } ∧ Only State.aux k [.therm] s z) ∧
 (∀ (d : Nat), Taken s src 0x1103 → k < 8 → d < 65536 → (s.aux k).source = .path src.path → ∃ u, exec (.coolingDutySet src k d) s = .next u ∧ ∃ z, Answered s u src 0x1103 [] z ∧ z.aux k =
 { s.aux k with duty := d, safe := false } ∧ Only State.aux k [.therm] s z) ∧
 (Taken s src 0x1104 → k < 8 → z = s.seen → x = z.coolLoop k → ∃ u, exec (.coolingStatus src k) s = .next u ∧ Answered s u src 0x1104 [f2 x.u, fi2 x.y, f2 x.duty, f2 (valveCode x.u), f2 x.u, fb
 x.lost] s) ∧
 (∀ (d : Die), Taken s src 0x1201 → z = s.seen → d = z.therm.die → ∃ u, exec (.dieStatus src) s = .next u ∧ Answered s u src 0x1201 [fi2 d.reading, .s 4 (d.rate.getD (-2147483648)), f1 (dieCode
 d.state), fb d.broken, f8 (z.now - d.since)] s)

/-- Plans, switch tests and temperature samples do what chapter 08 states (08 R233, R234, R237, R238, R239, R240, R241, R242,
R243, R244, R245, R246). -/
def Obligations.BalancingAndThermalEventsComplete : Prop := ∀ (s : State) (t n p c g : Nat) (q : SwitchTest),
  let l (y : State) := y.laneTherm n
 (n < 8 → s.plans n → s.model.lastBase % 10000 = 0 → ∃ u, exec (.balancePlan t n) s = .next u ∧ (l u).bal = (l s).pendingBal.getD (l s).bal ∧ (l u).pendingBal = none ∧ (l u).qRef = ((((s.portsOf
 n).flatMap fun p => (List.range 18).filterMap (s.balCell p)).map (·.need)).max?).map roundA ∧ Moves [.therm, .tap] s u) ∧
 (p < 128 → (s.balPort p).sentAt + 500000000 ≤ s.nowAt t → s.laneOfPort p = some n → s.balances n → (s.port p).state = .run → ∃ u, exec (.balanceRepeat t p) s = .next u ∧ u.port p = (s.port
 p).request .balance (s.balanceMask n p) ∧ u.balPort p = { s.balPort p with sent := s.balanceMask n p, sentAt := s.nowAt t } ∧ (∀ q, q ≠ p → u.port q = s.port q ∧ u.balPort q = s.balPort q) ∧ Moves
 [.therm, .tap] s u) ∧
 (∀ (i : Int), p < 128 → c < 18 → (s.modelled p).contains c → (s.atTime t).testDue p c → s.laneOfPort p = some n → (s.atTime t).testCurrent n = some i → (s.atTime t).testCanStart n p → ∃ u, exec
 (.switchTestStart t p c) s = .next u ∧ (u.balPort p).test = some { cell := c, step := 1, current0 := i, startedAt := s.nowAt t } ∧ u.cell (cellIx p c) =
 { s.cell (cellIx p c) with testQueued := false, retryAt := none } ∧ Only State.cell (cellIx p c) [.clock, .therm, .model, .tap, .mbox] s u) ∧
 (p < 128 → c < 18 → (s.modelled p).contains c → (s.atTime t).testDue p c → s.laneOfPort p = some n → !s.testCanStart n p → ∃ u, exec (.switchTestStart t p c) s = .next u ∧ u.cell (cellIx p c) =
 { s.cell (cellIx p c) with retryAt := some (s.nowAt t + 600 * 10 ^ 9) } ∧ Only State.cell (cellIx p c) [.clock, .model, .mbox] s u) ∧
 (p < 128 → (s.balPort p).test = some q → s.laneOfPort p = some n → q.step = 1 → TestGoesOn s t n q → (s.port p).balanceField = 0 → 0 < q.frames → ∃ u, exec (.switchTestStep t p) s = .next u ∧
 u.balPort p = { s.balPort p with test := some { q with step := 2, frames := 0 } } ∧ Only State.balPort p [.clock, .therm, .mbox] s u) ∧
 (p < 128 → (s.balPort p).test = some q → s.laneOfPort p = some n → q.step = 6 → TestGoesOn s t n q → 10 ≤ q.frames → verdictOf (l s).bal q = 0 → ∃ u, exec (.switchTestStep t p) s = .next u ∧
 SwitchTestPassed s u t p q) ∧
 (p < 128 → c < 18 → (s.modelled p).contains c → !(s.cell (cellIx p c)).overdue → (s.cell (cellIx p c)).testedAt + 86400 * 10 ^ 9 ≤ (s.atTime t).fullNow → ∃ u, exec (.balTestOverdue t p c) s = .next
 u ∧ u.cell (cellIx p c) = { s.cell (cellIx p c) with overdue := true } ∧ (∀ j, j ≠ cellIx p c → u.cell j = s.cell j) ∧ u.alarmOn evBalTestOverdue 3 (s.cellObject p c) ∧ Moves [.model, .recorder] s
 u) ∧
 (n < 8 → (s.lane n).cfg.isSome → s.power.state = .full → s.model.lastBase % 100 = 0 → s.model.lastTag = g → s.model.syncTag = some g → (l s).sampleTag ≠ some g → ∃ u, exec (.temperatureSample t n) s
 = .next u ∧ (l u).sampleTag = some g ∧ (l u).cfg = (l s).pendingCfg.getD (l s).cfg ∧ (l u).pendingCfg = none ∧ (l u).hsValue = none ∧ (l u).shedLimit.isSome) ∧
 (∀ (i : Nat), p < 128 → i < 6 → 3 ≤ (s.sensor (6 * p + i)).fastRun → (s.port p).limits.temps.testBit i → s.laneOfPort p = some n → !(l s).precursor → (s.lane n).state = .run → ∃ u, exec
 (.thermalPrecursor t p i) s = .next u ∧ (l u).precursor ∧ (u.lane n).state = .tripped ∧ (u.lane n).cause = trPrecursor) ∧
 (∀ (i : Nat), p < 128 → i < 6 → 10 ≤ (s.sensor (6 * p + i)).lostRun → (s.port p).state = .run → (s.port p).limits.temps.testBit i → !(s.sensor (6 * p + i)).lost → s.laneOfPort p = some n → ∃ u, exec
 (.tempSensorLost t p i) s = .next u ∧ u.sensor (6 * p + i) = { s.sensor (6 * p + i) with lost := true } ∧ u.laneTherm n = { s.laneTherm n with derateLost := true } ∧ u.alarmOn evTempSensorLost 2 p ∧
 Moves [.therm, .recorder] s u)

/-- Cooling loops and the die sensor do what chapter 08 states (08 R247, R248, R249, R251, R252, R253, R254). -/
def Obligations.CoolingAndDieEventsComplete : Prop := ∀ (s : State) (t k a w : Nat) (c : CoolConfig) (r : Int),
 (k < 8 → (s.coolLoop k).cfg = some c → s.power.state = .full → ∃ u, exec (.coolingLoopUpdate t k) s = .next u ∧ LoopUpdated s u k c) ∧
 (k < 8 → !(s.coolLoop k).lost → (s.coolLoop k).lowSince = some a → a + 10 ^ 10 ≤ s.nowAt t → ∃ u, exec (.coolingLost t k) s = .next u ∧ u.coolLoop k = { s.coolLoop k with lost := true } ∧ (∀ j, j ≠
 k → u.coolLoop j = s.coolLoop j) ∧ u.alarmOn evCoolingLost 0 0 ∧ Moves [.therm, .recorder] s u) ∧
 (k < 8 → (s.coolLoop k).lost → (s.coolLoop k).okSince = some a → a + 6 * 10 ^ 10 ≤ s.nowAt t → ∃ u, exec (.coolingRestored t k) s = .next u ∧ u.coolLoop k = { s.coolLoop k with lost := false } ∧
 Only State.coolLoop k [.clock, .therm, .recorder, .mbox] s u) ∧
 (w < 65536 → -5000 ≤ r → r < 10000 → !s.therm.die.broken → s.therm.die.state = .normal → (dieRate s.therm.die.history (s.nowAt t) r).all (fun q => decide (q ≤ 200)) → ∃ u, exec (.dieReading t w r) s
 = .next u ∧ u.therm.die.reading = some r ∧ u.therm.die.raw = w ∧ u.therm.die.rate = (dieRate s.therm.die.history (s.nowAt t) r).map roundA ∧ u.therm.die.state = .normal ∧ Moves [.therm] s u) ∧
 (w < 65536 → 10000 ≤ r → r < 10800 → !s.therm.die.broken → s.therm.die.state = .normal → ∃ u, exec (.dieReading t w r) s = .next u ∧ u.therm.die.reading = some r ∧ u.therm.die.state = .shedRequest ∧
 u.therm.die.since = s.nowAt t ∧ u.power = s.power) ∧
 (w < 65536 → 10800 ≤ r → r < 11200 → ∃ u, exec (.dieReading t w r) s = .next u ∧ u.therm.die.reading = some r ∧ u.therm.die.state = .enforce) ∧
 (s.therm.die.state = .shedRequest → s.therm.die.since + 2000000000 ≤ s.nowAt t → ∃ u, exec (.dieEnforce t) s = .next u ∧ u.therm.die.state = .enforce ∧ u.therm.die.since = s.nowAt t ∧
 u.therm.die.reading = s.therm.die.reading ∧ u.power = s.power) ∧
 (!s.therm.die.broken → 100 ≤ s.therm.die.sameRun → ∃ u, exec (.dieSensorBroken t) s = .next u ∧ u.therm.die.broken ∧ u.therm.die.state = .enforce ∧ u.therm.die.hotRun = 0 ∧ u.power = s.power) ∧
 (s.therm.die.state ≠ .normal → !s.therm.die.broken → s.therm.die.coolSince = some a → a + 10 ^ 10 ≤ s.nowAt t → ∃ u, exec (.dieRelease t) s = .next u ∧ u.therm.die =
 { s.therm.die with state := .normal, since := s.nowAt t, coolSince := none } ∧ Moves [.therm, .ten, .ana, .table] s u)

/-- The SAFETY commands set what they name, read what is held, and BARE_ROCK enters BARE ROCK (09 R261, R262, R263, R267, R268,
R277, R282, R284, R287). -/
def Obligations.SafetyCommandsComplete : Prop := ∀ (s z : State) (src : Source) (n ov uv p a b d e hb k w : Nat) (l : LinkSet) (r : LinkRx),
 (Taken s src 0x1301 → z = s.seen → ∃ u, exec (.safetyStatus src) s = .next u ∧ SafetyStatusRead s u z src) ∧
 (Taken s src 0x1302 → n < 8 → ov < 65535 → uv < ov → 10 ≤ p → p ≤ 1000 → !s.anyArmed → ∃ u, exec (.safetyLimitsSet src n ov uv p) s = .next u ∧ ∃ z, Answered s u src 0x1302 [] z ∧ z.laneSafe n =
 { s.laneSafe n with ov := some ov, uv := some uv, portLostTime := p } ∧ (!s.store.settingsVolatile → z.store.settings.tail = s.store.settings ∧ z.store.settings.head?.map (fun r => (r.code,
 r.object, r.cmd)) = some (0x1302, n, .safetyLimitsSet src n ov uv p)) ∧ Only State.laneSafe n [.safety, .store] s z) ∧
 (∀ (f : Nat), Taken s src 0x1303 → n < 8 → a < 2 ^ 31 → b < 2 ^ 31 → f ≤ 80 → f % 10 = 0 → !s.anyArmed → (s.compNeeded n).all (fun k => (s.compCode n k 0).isSome) → ∃ u, exec (.safetyOcSet src n a b
 f) s = .next u ∧ OcThresholdsSet s u src n a b f) ∧
 (∀ (f : Bool) (c : Nat), Taken s src 0x1304 → 10 ≤ d → d ≤ 500 → a < 2 ^ 32 → b < 2 ^ 32 → c < 2 ^ 32 → e < 2 ^ 32 → !s.anyArmed → !f ∨ s.safety.fireIn → ∃ u, exec (.safetyIoSet src d f [a, b, c,
 e]) s = .next u ∧ SafetyIoTaken s u src d f a b c e) ∧
 (Taken s src 0x1305 → 250000 ≤ hb → hb ≤ 2500000 → s.safety.rx.all (fun r => decide (6 * hb ≤ r.watchdog)) → !s.anyArmed → ∃ u, exec (.safetyChannelSet src hb) s = .next u ∧ ∃ z, Answered s u src
 0x1305 [] z ∧ z.safety = { s.safety with hb := hb } ∧ Changes [.safety, .store] s z) ∧
 (Taken s src 0x1306 → l.send → linkOk s.safety.hb l → s.linkRoom l → !s.anyArmed → ∃ u, exec (.safetyLinkSet src l) s = .next u ∧ ∃ z, Answered s u src 0x1306 [] z ∧ z.safety.rx = s.safety.rx ∧
 z.safety.tx = (s.safety.tx.filter fun x => x.linkId != l.linkId) ++ [{ linkId := l.linkId, dest := l.dest, sources := l.sources, lastSent := s.now }] ∧ Changes [.safety, .store] s z) ∧
 (Taken s src 0x1306 → !l.send → linkOk s.safety.hb l → s.linkRoom l → !s.anyArmed → ∃ u, exec (.safetyLinkSet src l) s = .next u ∧ LinkReceived s u src l) ∧
 (Taken s src 0x1307 → b < 4096 → k < 65536 → z = s.seen → z.rxLink b k = some r → ∃ u, exec (.safetyLinkStatus src b k) s = .next u ∧ Answered s u src 0x1307 [fb r.safe, f4 (r.lastSeq.getD 0), f8
 (z.now - r.lastAt), f8 r.crcErr, f8 z.safety.unknownLinks, f8 r.age, f8 r.stale, f8 r.singleCopy, f8 r.copyMismatch] s) ∧
 (Taken s src 0x1308 → k < 5 → 1 ≤ n → n ≤ 255 → 1000000 ≤ w → w ≤ 86400000000000 → !s.anyArmed → ∃ u, exec (.safetyWindowSet src k n w) s = .next u ∧ ∃ z, Answered s u src 0x1308 [] z ∧ z.winN k = n
 ∧ z.winW k = w ∧ (∀ j, j ≠ k → z.winN j = s.winN j ∧ z.winW j = s.winW j) ∧ Changes [.safety, .store] s z) ∧
 (Taken s src 0x1309 → ∃ u, exec (.safetyBareRock src) s = .next u ∧ u.power.state = .bareRock ∧ u.safety.rock = some (4, 0) ∧ !u.mbox.ready ∧ ArmedRocked s u ∧ (∃ r ∈ u.mbox.responses, r.command =
 0x1309 ∧ r.status = stOk ∧ r.tag = src.tag ∧ r.doneAt = s.now)) ∧
 (∀ (c : Bool), Taken s src 0x130A → ∃ u, exec (.safetyCountersRead src c) s = .next u ∧ SafetyCountersRead s u src c)

/-- Safety core faults, comparators and lost ports trip as chapter 09 states (09 R257, R258, R259, R260, R261, R263). -/
def Obligations.SafetyCoreAndLaneProtectionEventsComplete : Prop := ∀ (s : State) (t a n k thr c : Nat) (b : Bool) (v : Int),
  let l (y : State) := y.laneSafe n
 (s.safetyRuns → s.safety.coreFault = none → ∃ u, exec (.lockstepMismatch t b) s = .next u ∧ u.safety.coreFault = some (s.nowAt t) ∧ u.safety.moduleLatch ∧ AllTripped s u ∧ (∀ n, n < 8 → !(u.lane
 n).helmOut)) ∧
 (s.safetyRuns → s.safety.coreFault = none → ∃ u, exec (.crossWatchdog t b) s = .next u ∧ u.safety.coreFault = some (s.nowAt t) ∧ u.safety.moduleLatch ∧ AllTripped s u ∧ (∀ n, n < 8 → !(u.lane
 n).helmOut)) ∧
 (s.safetyRuns → s.safety.configCrcAt + 100000000 ≤ s.nowAt t → ∃ u, exec (.configCrcCheck t true) s = .next u ∧ u.safety = { s.safety with configCrcAt := s.nowAt t } ∧ Moves [.safety] s u) ∧
 (s.safetyRuns → s.safety.configCrcAt + 100000000 ≤ s.nowAt t → s.safety.coreFault = none → ∃ u, exec (.configCrcCheck t false) s = .next u ∧ u.safety.coreFault = some (s.nowAt t) ∧
 u.safety.moduleLatch ∧ AllTripped s u) ∧
 (s.safety.coreFault = some a → a + 10000000 ≤ s.nowAt t → ∃ u, exec (.safetyCoreReset t) s = .next u ∧ CoreRestarted s u t) ∧
 (n < 8 → k < 7 → s.hasComp n k → !(tget {} (l s).comps k).tripped → s.compThreshold n k = some thr → thr < v.natAbs → (s.lane n).state = .run → ∃ u, exec (.overcurrentTrip t n k v) s = .next u ∧
 (u.lane n).state = .tripped ∧ (u.lane n).cause = 0x01 ∧ (l u).latch ∧ (tget {} (l u).comps k).tripped ∧ (u.lane n).gatesForced ∧ !(u.lane n).kPos.drive ∧ !(u.lane n).kNeg.drive ∧ !(u.lane
 n).kPre.drive) ∧
 (n < 8 → k < 7 → (tget {} (l s).comps k).tripped → ∃ u, exec (.comparatorRelease t n k) s = .next u ∧ tget {} (l u).comps k = { tget {} (l s).comps k with tripped := false } ∧ (l u).latch = (l
 s).latch ∧ Only State.laneSafe n [.clock, .safety, .mbox] s u) ∧
 (n < 8 → k < 7 → (tget {} (l s).comps k).code = some c → elapsed (tget {} (l s).comps k).readAt 10000000 (s.nowAt t) → (l s).comps.all (fun x => !x.2.tripped && !x.2.readBad) → ∃ u, exec
 (.thresholdReadback t n k c) s = .next u ∧ tget {} (l u).comps k = { tget {} (l s).comps k with readAt := s.nowAt t } ∧ (l u).latch = (l s).latch) ∧
 (n < 8 → k < 7 → (tget {} (l s).comps k).code = some a → a ≠ c → elapsed (tget {} (l s).comps k).readAt 10000000 (s.nowAt t) → (s.lane n).state = .run → ∃ u, exec (.thresholdReadback t n k c) s =
 .next u ∧ (u.lane n).state = .tripped ∧ (u.lane n).cause = 0x01) ∧
 (n < 8 → laneArmed (s.lane n).state → !(l s).derate → s.derateCond n → ∃ u, exec (.portDerate t n) s = .next u ∧ u.laneSafe n = { s.laneSafe n with derate := true, derateSince := some (s.nowAt t) }
 ∧ Only State.laneSafe n [.clock, .safety, .mbox] s u) ∧
 (n < 8 → (s.lane n).state = .run → (l s).derate → s.derateCond n → (l s).derateSince = some a → a + (l s).portLostTime * 1000000 ≤ s.nowAt t → ∃ u, exec (.portLost t n) s = .next u ∧ (u.lane
 n).state = .tripped ∧ (u.lane n).cause = 0x08)

/-- E-STOP, FIRE, safe outputs and CLEAR do what chapter 09 states (09 R260, R267, R268, R271, R272, R273). -/
def Obligations.SafetyInputsAndClearEventsComplete : Prop := ∀ (s : State) (t a k lo hi rose : Nat) (b : Bool) (i : SafeInput),
 (s.safetyRuns → s.safety.estopA → s.safety.estopB → !s.safety.discrepancy → ∃ u, exec (.estop t b) s = .next u ∧ u.safety.estopA = b ∧ u.safety.estopB = !b ∧ u.safety.moduleLatch ∧ AllTripped s u ∧
 (∀ n, n < 8 → (s.lane n).state = .run → (u.lane n).cause = trEstop)) ∧
 (s.safetyRuns → !s.safety.discrepancy → s.safety.discrepancySince = some a → a + s.safety.discTime * 1000000 ≤ s.nowAt t → ∃ u, exec (.estopDiscrepancy t) s = .next u ∧ u.safety.discrepancy ∧
 u.safety.moduleLatch ∧ trEstop ∈ u.safety.moduleCauses) ∧
 (s.safety.discrepancy → s.safety.bothHighSince = some a → a + 1000000000 ≤ s.nowAt t → ∃ u, exec (.estopRecovered t) s = .next u ∧ u.safety = { s.safety with discrepancy := false } ∧ Moves [.safety]
 s u) ∧
 (s.safetyRuns → s.safety.fireIn → s.safety.fireEnable → ∃ u, exec (.fire t) s = .next u ∧ !u.safety.fireIn ∧ u.safety.moduleLatch ∧ AllTripped s u ∧ (∀ n, n < 8 → (s.lane n).state = .run → (u.lane
 n).cause = trFire)) ∧
 (s.safetyRuns → s.safety.fireIn → !s.safety.fireEnable → ∃ u, exec (.fire t) s = .next u ∧ u.safety = { s.safety with fireIn := false } ∧ Moves [.safety] s u) ∧
 (s.safetyRuns → ∃ u, exec (.safetyInputHealthy t i) s = .next u ∧ u.safety.estopA = (s.safety.estopA || i == .estopA) ∧ u.safety.estopB = (s.safety.estopB || i == .estopB) ∧ u.safety.fireIn =
 (s.safety.fireIn || i == .fireIn) ∧ u.safety.moduleLatch = s.safety.moduleLatch ∧ Moves [.safety] s u) ∧
 (k < 4 → s.safetyRuns → s.safety.outConfigured → tget none s.safety.outRead k = none → !s.safety.outFault → ∃ u, exec (.safeOutFault t k) s = .next u ∧ u.safety.outFault ∧ u.safety.moduleLatch ∧
 AllTripped s u ∧ u.alarmOn evSafeOutFault 0 0) ∧
 (s.safetyRuns → (s.safety.clearFell.getD 0) + lo + hi ≤ s.nowAt t → 50000000 ≤ lo → 100000000 ≤ hi → hi ≤ 2000000000 → s.power.state ≠ .bareRock → !s.safety.outFault → s.safety.outRead = [] →
 s.safety.moduleLatch → (∀ n, n < 8 → !(s.laneSafe n).latch) → (s.safety.moduleCauses.all fun c => !(s.atTime t).causeActive 0 c) → ∃ u, exec (.clearEdge t lo hi) s = .next u ∧ !u.safety.moduleLatch
 ∧ u.safety.moduleCauses = [] ∧ u.safety.clearsOk = inc64 s.safety.clearsOk ∧ !u.safety.clear ∧ u.safety.clearFell = some (s.nowAt t) ∧ Moves [.safety, .recorder] s u) ∧
 (s.safetyRuns → (s.safety.clearFell.getD 0) + lo + hi ≤ s.nowAt t → lo < 50000000 ∨ hi < 100000000 ∨ 2000000000 < hi → ∃ u, exec (.clearEdge t lo hi) s = .next u ∧ u.safety =
 { s.safety with clear := false, clearStuck := false, clearFell := some (s.nowAt t), clearsRefused := inc64 s.safety.clearsRefused } ∧ Moves [.safety] s u) ∧
 (s.safetyRuns → !s.safety.clearStuck → rose + 2000000000 ≤ s.nowAt t → s.safety.clearFell.getD 0 ≤ rose → ∃ u, exec (.clearStuck t rose) s = .next u ∧ u.safety =
 { s.safety with clear := true, clearStuck := true } ∧ Moves [.safety, .recorder] s u)

/-- Frames of the safe channel are sent, checked, accepted and timed as chapter 09 states (09 R275, R276, R277, R278, R279,
R280, R281). -/
def Obligations.SafeChannelEventsComplete : Prop := ∀ (s z : State) (t k a : Nat) (x : LinkTx) (lan : Lan) (r : LinkRx) (h : HeldCopy),
 (z = s.atTime t → LinkSends z k x → x.lastSent + z.safety.hb ≤ z.now ∨ x.lastState ≠ z.srcState ∨ x.lastBits ≠ z.linkBits x → ∃ u, exec (.safeHeartbeat t ⟨k, true, true⟩) s = .next u ∧ HeartbeatSent
 s u z k x) ∧
 (z = s.atTime t → LinkSends z k x → x.lastSent + z.safety.hb ≤ z.now → ∃ u, exec (.safeHeartbeat t ⟨k, true, false⟩) s = .next u ∧ u.out.take 1 = [.ptpAborted .b] ∧ u.servo.insertionAborts = inc64
 s.servo.insertionAborts ∧ Moves [.safety, .out, .servo, .recorder] s u) ∧
 (∀ (b : List (BitVec 8)), z = ((s.frameIn (lanIx lan) t).atTime t).lanHeard lan → z.safetyRuns → z.safety.outConfigured → !safeFrameOk b → z.rxLink (beAt b 4 2) (beAt b 6 2) = some r → ∃ u, exec
 (.safeFrame t lan b) s = .next u ∧ u.rxLink (beAt b 4 2) (beAt b 6 2) = some { r with crcErr := inc64 r.crcErr } ∧ Moves [.safety] z u) ∧
 (∀ (b : List (BitVec 8)), z = ((s.frameIn (lanIx lan) t).atTime t).lanHeard lan → NewOnLink z b r → z.lanDownNow (otherLan lan) → ∃ u, exec (.safeFrame t lan b) s = .next u ∧ u.rxLink (beAt b 4 2)
 (beAt b 6 2) = some (r.accept b z.now)) ∧
 (∀ (b : List (BitVec 8)), z = ((s.frameIn (lanIx lan) t).atTime t).lanHeard lan → NewOnLink z b r → !z.lanDownNow (otherLan lan) → ∃ u, exec (.safeFrame t lan b) s = .next u ∧ u.rxLink (beAt b 4 2)
 (beAt b 6 2) = some { r with held := [{ seq := beAt b 8 4, lan := lan, at_ := z.now, bytes := b }] } ∧ Moves [.safety] z u) ∧
 (∀ (b : Nat), s.rxLink b k = some r → r.held = [h] → h.at_ + r.skew ≤ s.nowAt t → h.at_ + r.skew ≠ s.nowAt t ∨ !(s.atTime t).lanDownNow (otherLan h.lan) → ∃ u, exec (.skewExpiry t b k) s = .next u ∧
 u.rxLink b k = some { r with singleCopy := inc64 r.singleCopy, held := [] } ∧ Moves [.safety, .recorder] s u) ∧
 (∀ (b : Nat), s.safetyRuns → s.safety.outConfigured → s.rxLink b k = some r → !r.safe → r.lastAt + r.watchdog ≤ s.nowAt t → ∃ u, exec (.safeLinkWatchdog t b k) s = .next u ∧ u.rxLink b k = some
 { r with safe := true }) ∧
 (s.safetyRuns → !(s.safeLan (lanIx lan)).down → ∃ u, exec (.lanDown t lan true) s = .next u ∧ (u.safeLan (lanIx lan)).down ∧ (u.netLan (lanIx lan)).link = false) ∧
 ((s.safeLan (lanIx lan)).down → (s.safeLan (lanIx lan)).upSince = some a → a + 100 * s.safety.hb ≤ s.nowAt t → !(s.atTime t).lanSilent lan → ∃ u, exec (.lanUp t lan) s = .next u ∧ u.safeLan (lanIx
 lan) = { s.safeLan (lanIx lan) with down := false, upSince := none } ∧ Moves [.safety, .recorder] s u)

/-- Counted memory faults, BARE ROCK and its ends do what chapters 01 and 09 state (09 R282, R283, R284, R285, R286; 01 R26).
-/
def Obligations.CountedFaultAndBareRockEventsComplete : Prop := ∀ (s : State) (t p c : Nat),
 (p < 917504 → s.winTimes fwEcc p = [] → 2 ≤ s.winN fwEcc → ∃ u, exec (.eccCorrected t false p) s = .next u ∧ tget 0 u.safety.eccCounts p = (tget 0 s.safety.eccCounts p + 1) % 2 ^ 64 ∧ u.winTimes
 fwEcc p = [s.nowAt t] ∧ u.safety.retired = s.safety.retired ∧ Moves [.safety, .recorder] s u) ∧
 (s.power.state ≠ .bareRock → ∃ u, exec (.uncorrectableError t .supervisorMemory) s = .next u ∧ u.power.state = .bareRock ∧ u.safety.rock = some (3, 1) ∧ !u.mbox.ready ∧ ArmedRocked s u ∧ (∀ o ∈
 u.net.own, o.state = .none_)) ∧
 (c < 4 → s.safetyRuns → 2 ≤ s.power.stage → s.power.state ≠ .bareRock → s.power.state ≠ .beached → c ∉ s.sec.halted → ∃ u, exec (.supervisorWatchdog t c) s = .next u ∧ u.power.state = .bareRock ∧
 u.safety.rock = some (2, c) ∧ !u.mbox.ready ∧ ArmedRocked s u) ∧
 (s.power.state = .bareRock → s.safety.rockStrobeAt + 10000000 ≤ s.nowAt t → ∃ u, exec (.bareRockStrobe t) s = .next u ∧ u.safety =
 { s.safety with rockStrobeAt := s.nowAt t, rockStrobes := s.safety.rockStrobes + 1 } ∧ u.model.syncTag = some (s.atTime t).pos ∧ Moves [.safety, .model, .tap, .out] s u) ∧
 (s.power.state = .bareRock → s.safety.rock.map (·.1) = some 1 → (s.atTime t).dieCool → !s.safety.rockHold → ∃ u, exec (.bareRockExit t) s = .next u ∧ u.power.state = .full ∧ u.power.stage = 0 ∧
 u.power.on ∧ u.safety.rock = none ∧ u.safety.moduleLatch = s.safety.moduleLatch ∧ (∀ n, (u.laneSafe n).latch = (s.laneSafe n).latch) ∧ u.clock.ns = s.nowAt t)

/-- NET, BERTH, ROLE and ESTATE commands answer what is known, load the map and carry changes (10 R289, R291, R292, R293, R305,
R306, R314, R318). -/
def Obligations.NetAndRoleCommandsComplete : Prop := ∀ (s z : State) (src : Source) (es : List BerthEntry) (p : Proposal) (id a n r : Nat),
 (Taken s src 0x1401 → z = s.seen → ∃ u, exec (.netStatus src) s = .next u ∧ NetStatusRead s u z src) ∧
 (∀ (c : Bool), Taken s src 0x1402 → ∃ u, exec (.netCountersRead src c) s = .next u ∧ NetCountersRead s u src c) ∧
 (Taken s src 0x1501 → z = s.seen → z.net.berthState = .both → ∃ u, exec (.berthStatus src) s = .next u ∧ BerthStatusRead s u z src) ∧
 (Taken s src 0x1601 → es.length ≤ 4096 → (es.all fun e => decide (e.berth < 4096) && lldpOk e.idA && lldpOk e.idB) → distinctIds (es.flatMap fun e => [e.idA, e.idB]) → !s.store.settingsVolatile → ∃
 u, exec (.estateMapLoad src es) s = .next u ∧ ∃ z, Answered s u src 0x1601 [] z ∧ z.store.settings.tail = s.store.settings ∧ z.store.settings.head?.map (fun r => (r.code, r.object, r.cmd)) = some
 (0x1601, 0, .estateMapLoad src es) ∧ Changes [.store] s z) ∧
 (Taken s src 0x1602 → 1 ≤ p.kind → p.kind ≤ 2 → 1 ≤ p.policy → p.policy ≤ 2 → p.conservative ≤ 1 → p.id < 2 ^ 32 → p.id ≠ 0 → p.n % 65536 = 0 → p.n < 2 ^ 64 → p.old < 256 → p.new_ < 256 → p.members
 ≠ [] → (p.members.all (· < 4096)) → s.isCoordinator → (s.net.changes.all (·.status != .open_)) → s.pos + 8 * 65536 ≤ p.n → ∃ u, exec (.estateChangePropose src p) s = .next u ∧ ProposalOpened s u src
 p) ∧
 (∀ (c : Change), Taken s src 0x1603 → id ≠ 0 → s.change id = some c → ∃ u, exec (.estateChangeStatus src id) s = .next u ∧ Answered s u src 0x1603 ([f1 (changeCode c.status), f1 c.round, f2
 c.members.length] ++ c.members.flatMap fun m => [f2 m.berth, f1 (m.answer.getD 255), f1 (m.report.getD 0), f1 m.inForce]) s) ∧
 (∀ (c : Change), Taken s src 0x1604 → s.change id = some c → s.isCoordinator → c.status = .open_ → cycleOf s.pos + 2 < cycleOf c.n → !c.decided → ∃ u, exec (.estateChangeAbandon src id) s = .next u
 ∧ ∃ z, Answered s u src 0x1604 [] z ∧ (z.change id).map (fun c => (c.status, c.entry)) = some (.abandoned, none)) ∧
 (Taken s src 0x1701 → 1 ≤ n → n ≤ 160 → ∃ u, exec (.roleTableRead src a n) s = .next u ∧ Answered s u src 0x1701 (f2 ((s.knownRoles.drop a).take n).length :: ((s.knownRoles.drop a).take n).flatMap
 s.roleFields) s) ∧
 (Taken s src 0x1702 → 1 ≤ roleKind r → roleKind r ≤ 6 → ∃ u, exec (.roleResolve src r) s = .next u ∧ Answered s u src 0x1702 ([f2 (((s.holderOf r).map (·.1)).getD 0xFFFF), f2 (((s.holderOf r).map
 (·.2)).getD 0), f2 (s.standbys r).length] ++ (s.standbys r).map f2) s)

/-- Frames of other kinds, LLDP, berths, paths and announcements do what chapter 10 states (10 R289, R292, R293, R294, R297,
R304, R305, R306). -/
def Obligations.PlantPortAndBerthEventsComplete : Prop := ∀ (s : State) (t k : Nat) (lan : Lan) (o : Bool) (i j : LldpId) (p : PeerPath),
 (s.netRuns → ∃ u, exec (.foreignFrame t lan o) s = .next u ∧ ForeignCounted s u lan o) ∧
 (∀ (b : List (BitVec 8)), s.netRuns → !garzetOk b → ∃ u, exec (.garzetFormatErr t ⟨lan, b⟩) s = .next u ∧ (u.netLan (lanNo lan)).formatErr = inc64 (s.netLan (lanNo lan)).formatErr ∧ (u.netLan (lanNo
 lan)).framesIn = inc64 (s.netLan (lanNo lan)).framesIn ∧ Moves [.net] s u) ∧
 (s.netRuns → ∃ u, exec (.lldpdu t lan i) s = .next u ∧ (u.netLan (lanNo lan)).lldp = some i ∧ u.net.berth = s.net.berth ∧ Moves [.net, .recorder] s u) ∧
 (s.netRuns → (s.netLan (lanNo lan)).link → (s.netLan (lanNo lan)).lldpAt = none → ∃ u, exec (.lldpSend t lan) s = .next u ∧ u.out = .lldp lan (s.netLan (lanNo lan)).mac s.net.berth :: s.out ∧
 u.netLan (lanNo lan) = { s.netLan (lanNo lan) with lldpAt := some (s.nowAt t) } ∧ Moves [.net, .out] s u) ∧
 (∀ (a b : Nat), s.netRuns → s.sec.lifecycle = .turned → s.net.berth = none → s.net.berthState = .notDerived → s.net.listenFrom = some a → a + 2 * 10 ^ 9 ≤ s.nowAt t → (s.netLan 0).lldp = some i →
 (s.netLan 1).lldp = some j → s.berthOf 0 i = some b → s.berthOf 1 j = some b → s.announced b = none → ∃ u, exec (.berthDerivation t) s = .next u ∧ u.net.berth = some b ∧ u.net.berthState = .both ∧
 u.net.announceDue ∧ u.net.storedBerth = some (b, u.net.moduleEpoch)) ∧
 (∀ (b : Nat) (a : Announcer), s.netRuns → s.net.berth = some b → s.announced b = some a → s.net.dupAt = 0 → ∃ u, exec (.berthDuplicate t) s = .next u ∧ u.net = { s.net with dupAt := s.nowAt t } ∧
 Moves [.net, .recorder] s u) ∧
 (∀ (b : Nat), s.netRuns → s.net.peers.find? (fun x => x.berth == b) = some p → p.missing .a → !p.downA → ∃ u, exec (.pathDown t b .a) s = .next u ∧ u.peer b =
 { p with downA := true, backSince := none } ∧ Moves [.net, .recorder] s u) ∧
 (∀ (b a : Nat), s.netRuns → s.net.peers.find? (fun x => x.berth == b) = some p → p.downB → !p.missing .b → p.backSince = some a → a + 10 ^ 9 ≤ s.nowAt t → ∃ u, exec (.pathUp t b .b) s = .next u ∧
 u.peer b = { p with downB := false, backSince := none } ∧ Moves [.net, .recorder] s u) ∧
 (s.netRuns → 3 ≤ s.power.stage → s.net.announceDue → s.ownEntries.length ≤ 160 → ∃ u, exec (.announceSend t) s = .next u ∧ AnnounceSent s u t) ∧
 (∀ (a : Announcer), s.net.announcers = [a] → a.key = k → a.at_ + 5 * 10 ^ 9 ≤ s.nowAt t → ∃ u, exec (.roleAgeOut t k) s = .next u ∧ u.net.announcers = [] ∧ Moves [.net, .can] s u)

/-- Garzet messages in their turn are delivered, acknowledged, sent again and given up as chapters 10, 11 and 14 state (10
R300, R301, R302, R303, R305, R307, R311, R313, R314; 11 R339; 14 R418, R420). -/
def Obligations.GarzetMessagesComplete : Prop := ∀ (s : State) (t id n e : Nat) (lan : Lan) (h : GHead) (c : Change) (x : StreamRx),
 (∀ (b : List (BitVec 8)), InTurn s h (.mailbox b) → (s.garzetBoxes.any fun x => x.box == senderKey h) → (s.box .garzet (senderKey h)).queue.length < 16 → (s.box .garzet (senderKey h)).state = .idle
 → ∃ u, exec (.garzetMailbox t lan h b) s = .next u ∧ MessageQueued s u t h b) ∧
 (∀ (b : List (BitVec 8)) (r : SentReq), InTurn s h (.mailboxReply b) → s.net.requests.find? (fun x => x.corr == h.corr) = some r → roleKind r.srcRole = 1 → leAt b 20 4 % 2 = 1 → ∃ u, exec
 (.garzetMailboxReply t lan h b) s = .next u ∧ u.net.requests.find? (fun x => x.corr == h.corr) = none ∧ (∃ f ∈ u.net.inboxFns, f.typ = 3 ∧ f.corr = h.corr ∧ f.role = r.role ∧ f.status = leAt b 18
 2)) ∧
 (∀ (m : StreamMsg), FirstHeard s h .ack → (s.streamTx (senderKey h)).unacked = [m] → (s.streamTx (senderKey h)).queued = [] → m.seq = h.ackSeq → h.ackSeq ≠ 0 → ∃ u, exec (.garzetAck t lan h) s =
 .next u ∧ u.streamTx (senderKey h) = { s.streamTx (senderKey h) with unacked := [], newStream := false } ∧ Moves [.net] s u) ∧
 (∀ (m : MovedMsg), FirstHeard s h (.roleMoved m) → m.typ ≠ 2 → m.typ ≠ 3 → ∃ u, exec (.garzetRoleMoved t lan h m) s = .next u ∧ u.net.movedRecv = inc64 s.net.movedRecv ∧ u.net.inboxFns =
 s.net.inboxFns ++ [{ typ := m.typ, corr := h.corr, role := m.role, status := stRoleMoved, holder := m.holderBerth, holderEpoch := m.holderEpoch }] ∧ Moves [.net, .out] s u) ∧
 (∀ (m : AnnounceMsg), FirstHeard s h (.announce m) → m.part = 0 → m.parts = 1 → m.power ≤ 2 → ∃ u, exec (.garzetAnnounce t lan h m) s = .next u ∧ ∃ a ∈ u.net.announcers, a.serial = m.serial ∧
 a.berth = m.berth ∧ a.moduleEpoch = m.moduleEpoch ∧ a.power = m.power ∧ a.entries = m.entries ∧ a.at_ = s.nowAt t) ∧
 (∀ (m : SignalMsg), FirstHeard s h (.signal m) → s.holderOf h.srcRole = some (h.srcBerth, h.srcEpoch) → s.ten.epochs = [] → ∃ u, exec (.garzetSignal t lan h m) s = .next u ∧ u.ten.epochs =
 [(h.srcRole, h.srcEpoch)] ∧ u.ten.oldEpoch = s.ten.oldEpoch ∧ Moves [.net, .ten] s u) ∧
 (∀ (p : Proposal) (b : Nat), InTurn s h (.propose p) → s.holderOf 0x50000000 = some (b, h.srcEpoch) → (s.atTime t).proposalResult p = 0 → s.change p.id = none → ∃ u, exec (.garzetPropose t lan h p)
 s = .next u ∧ u.change p.id = some {
 id := p.id, kind := p.kind, policy := p.policy, conservative := p.conservative, n := p.n, old := p.old, new_ := p.new_, coordBerth := h.srcBerth } ∧ Moves [.net, .out] s u) ∧
 (∀ (r : Nat), InTurn s h (.proposeAck id r) → s.isCoordinator → s.change id = some c → ∃ u, exec (.garzetProposeAck t lan h id r) s = .next u ∧ u.change id = some
 { c with members := c.members.map fun x => if x.berth == h.srcBerth then { x with answer := some r } else x } ∧ Moves [.net, .out] s u) ∧
 (InTurn s h (.commit id n) → s.change id = some c → c.status = .open_ → !c.applied → c.entry = none → cycleOf (s.atTime t).pos < cycleOf n → s.freeEntry s.usedEntries = some e → ∃ u, exec
 (.garzetCommit t lan h id n) s = .next u ∧ u.change id = some { c with decided := true, entry := some e } ∧ u.entry e = { position := n, enable := true, kind := 6, arg0 := c.id } ∧ Moves [.net,
 .out, .table] s u) ∧
 (∀ (r : Nat), InTurn s h (.abandon id r) → s.change id = some c → c.status = .open_ → c.kind = 1 → c.entry = none → ∃ u, exec (.garzetAbandon t lan h id r) s = .next u ∧ u.change id = some
 { c with status := .abandoned } ∧ Moves [.net, .out] s u) ∧
 (∀ (m : ReportMsg), InTurn s h (.report m) → s.isCoordinator → s.change m.id = some c → ∃ u, exec (.garzetReport t lan h m) s = .next u ∧ u.change m.id = some { c with
 members := c.members.map fun x => if x.berth == h.srcBerth then { x with report := some m.outcome, inForce := m.inForce } else x } ∧ Moves [.net, .out] s u) ∧
 (InTurn s h (.fallBack id n) → s.change id = some c → c.status = .open_ → c.entry = none → cycleOf (s.atTime t).pos < cycleOf n → s.freeEntry s.usedEntries = some e → ∃ u, exec (.garzetFallBack t
 lan h id n) s = .next u ∧ u.change id = some { c with fellBack := true, entry := some e } ∧ u.entry e = { position := n, enable := true, kind := 6, arg0 := c.id } ∧ Moves [.net, .out, .table] s u) ∧
 (∀ (p : Nat) (m : StreamMsg), s.netRuns → (s.streamTx p).unacked = [m] → m.sends < 5 → m.sentAt + 2000000 * m.sends ≤ s.nowAt t → ∃ u, exec (.retransmit t p m.seq) s = .next u ∧ u.streamTx p =
 { s.streamTx p with unacked := [{ m with sends := m.sends + 1 }] } ∧ (m.head.typ < 8 → u.out = .garzet (s.macTo p .a) (s.macTo p .b) { m.head with newStream := (s.streamTx p).newStream } m.body ::
 s.out) ∧ Moves [.net, .out] s u) ∧
 (∀ (p : Nat) (m : StreamMsg), s.netRuns → (s.streamTx p).unacked = [m] → (s.streamTx p).queued = [] → m.sentAt + 10000000 ≤ s.nowAt t → m.head.typ = 2 → !s.swapAsked m → ∃ u, exec (.noAck t p m.seq)
 s = .next u ∧ StreamGivenUp s u p m) ∧
 (∀ (p : Nat) (m : HeldMsg) (b : SoundMsg), s.netRuns → s.streamRx p = some x → x.held = [m] → m.body = .sound b → !(s.peer p).keys.contains (0, m.seq) → m.at_ + 10000000 ≤ s.nowAt t → ∃ u, exec
 (.gapSkipped t p) s = .next u ∧ (u.streamRx p).map (·.held) = some [] ∧ u.net.gapSkipped = inc64 s.net.gapSkipped)

/-- Tide-committed changes are decided, judged, closed and taken over as chapter 10 states (07 R229; 10 R314, R315, R316). -/
def Obligations.ChangeEventsComplete : Prop := ∀ (s : State) (t id a : Nat) (c : Change) (l : List RosterLane),
 (MyChange s id c → !c.decided → cycleOf c.n ≤ cycleOf (s.atTime t).pos + 2 → (c.members.all fun m => m.answer == some 0) → ∃ u, exec (.changeDecision t id) s = .next u ∧ (u.change id).map (fun x =>
 (x.decided, x.status, x.roundAt)) = some (true, .open_, c.n)) ∧
 (MyChange s id c → !c.decided → cycleOf c.n ≤ cycleOf (s.atTime t).pos + 2 → !(c.members.all fun m => m.answer == some 0) → ∃ u, exec (.changeDecision t id) s = .next u ∧ (u.change id).map
 (·.status) = some .abandoned) ∧
 (MyChange s id c → c.decided → !c.fellBack → cycleOf c.roundAt + 2 ≤ cycleOf (s.atTime t).pos → (c.members.all fun m => m.report == some 1) → ∃ u, exec (.changeRound t id) s = .next u ∧ (u.change
 id).map (fun x => (x.status, x.entry)) = some (.complete, none)) ∧
 (s.change id = some c → c.status = .open_ → !c.applied → !c.fellBack → !c.decided → c.entry = none → !s.coordinates c → cycleOf c.n ≤ cycleOf (s.atTime t).pos → ∃ u, exec (.changeLagging t id) s =
 .next u ∧ u.change id = some { c with decided := true } ∧ Moves [.net, .out] s u) ∧
 (s.change id = some c → c.status = .open_ → !s.isCoordinator → cycleOf c.n + 64 ≤ cycleOf (s.atTime t).pos → ∃ u, exec (.changeMemberClose t id) s = .next u ∧ (u.change id).map (fun x => (x.status,
 x.entry)) = some (if c.applied then .complete else .abandoned, none)) ∧
 (s.isCoordinator → s.net.takeoverAt = some a → a + 10 * 10 ^ 9 ≤ s.nowAt t → ∃ u, exec (.coordinatorTakeover t l []) s = .next u ∧ u.net = { s.net with takeoverAt := none } ∧ u.sound =
 { s.sound with roster := { s.sound.roster with lanes := l, ready := true } } ∧ Moves [.net, .sound] s u)

/-- The TENANT commands load, stop, start and unload a slot and answer what R346 lists (11 R320, R322, R324, R325, R327, R342,
R346). -/
def Obligations.TenantCommandsComplete : Prop := ∀ (s z : State) (src : Source) (slot role off n : Nat) (b up : List (BitVec 8)) (c : Bool),
 (Taken s src 0x1801 → 1 ≤ slot → slot ≤ 255 → roleKind role = 3 → role < 2 ^ 32 → (off = 0 ∨ off = (s.slot slot).upload.length) → (if off = 0 then b else (s.slot slot).upload ++ b).length ≤ 4194304
 → SlotFree s slot role → ∃ u, exec (.tenantLoad src slot role off b false) s = .next u ∧ ∃ z, Answered s u src 0x1801 [] z ∧ z.slot slot =
 { s.slot slot with upload := if off = 0 then b else (s.slot slot).upload ++ b } ∧ Only State.slot slot [.ten] s z) ∧
 (Taken s src 0x1801 → 1 ≤ slot → slot ≤ 255 → roleKind role = 3 → role < 2 ^ 32 → (off = 0 ∧ up = b ∨ off ≠ 0 ∧ off = (s.slot slot).upload.length ∧ up = (s.slot slot).upload ++ b) → up.length ≤
 4194304 → SlotFree s slot role → s.imageErr slot role up = none → (s.updSlot slot fun y => { y with upload := [] }).placeImage slot role up = some z → ∃ u, exec (.tenantLoad src slot role off b
 true) s = .next u ∧ SlotImagePlaced s u z src slot role up) ∧
 (Taken s src 0x1803 → n < 256 → (s.slot n).upload = [] → ∃ u, exec (.tenantStop src n) s = .next u ∧ SlotStopped s u src n) ∧
 (Taken s src 0x1804 → n < 256 → (s.slot n).upload = [] → ∃ u, exec (.tenantStart src n) s = .next u ∧ ∃ z, Answered s u src 0x1804 [] z ∧ z.slot n = { s.slot n with stop := false } ∧ Only State.slot
 n [.ten, .table] s z) ∧
 (Taken s src 0x1802 → n < 256 → (s.slot n).upload = [] → !s.holdsActive (s.slot n).role → ∃ u, exec (.tenantUnload src n) s = .next u ∧ SlotEmptied s u src n) ∧
 (Taken s src 0x1805 → n < 256 → z = s.seen → ∃ u, exec (.tenantStatus src n) s = .next u ∧ SlotStatusRead s u z src n) ∧
 (Taken s src 0x1806 → n < 256 → ∃ u, exec (.tenantCountersRead src n c) s = .next u ∧ TenantCountersRead s u src n c)

/-- The GRAPH and SIGNAL commands activate, discard and read graphs, set a group and read signals (11 R328, R335, R337, R339,
R342, R343, R346). -/
def Obligations.GraphAndSignalCommandsComplete : Prop := ∀ (s : State) (src : Source) (n p a k off d r : Nat) (e : Bool) (hs : List Nat),
 (Taken s src 0x1901 → 1 ≤ n → n ≤ 255 → p < 2 ^ 64 → p % 65536 = 0 → s.standbys (s.slot n).role = [] → (s.slot n).staged.isSome → s.pos + 8 * 65536 ≤ p → (s.slot n).activateAt = none → (s.slot
 n).upload = [] → (s.freeEntry s.usedEntries).isSome → ∃ u, exec (.graphActivate src n p) s = .next u ∧ ActivationArmed s u src n p) ∧
 (∀ (g : Graph), Taken s src 0x1902 → 1 ≤ n → n ≤ 255 → (s.slot n).staged = some g → !(s.net.changes.any fun c => c.kind == 2 && c.status == .open_ && g.id == c.new_) → (s.slot n).upload = [] → ∃ u,
 exec (.graphDiscard src n) s = .next u ∧ ∃ z, Answered s u src 0x1902 [] z ∧ (z.slot n).staged = none ∧ !(z.slot n).switching ∧ (z.slot n).activateAt = none ∧ (z.slot n).running = (s.slot n).running
 ∧ (z.slot n).state = (s.slot n).state ∧ Only State.slot n [.ten, .fab, .mbox, .table] s z) ∧
 (∀ (g : Graph), Taken s src 0x1903 → 1 ≤ n → n ≤ 255 → 1 ≤ k → k ≤ 64 → (s.slot n).running = some g → a < g.vars.length → ∃ u, exec (.graphVarRead src n a k) s = .next u ∧ Answered s u src 0x1903
 (((g.vars.drop a).take k).flatMap fun v => [.struct (fitBytes 64 v.name), f1 v.typ, f2 v.count, .struct (v.values.flatMap (valueBytes v.typ))]) s) ∧
 (∀ (g : Nat), Taken s src 0x1904 → g < 8 → off ≤ (if s.baseB = 17 then 3855 else 3276) → !(s.ten.slots.any fun x => (x.2.state == .active || x.2.state == .shadow) && x.2.running.any fun y => y.group
 == g) → ∃ u, exec (.graphGroupSet src g off) s = .next u ∧ ∃ z, Answered s u src 0x1904 [] z ∧ z.groupOffset g = off ∧ Only State.groupOffset g [.table] s z) ∧
 (Taken s src 0x1905 → ∃ u, exec (.graphEnginesRead src) s = .next u ∧ EnginesListed s u src) ∧
 (Taken s src 0x1A01 → hs.length ≤ 64 → (hs.all fun h => decide (h < if e then 1048576 else 65536)) → ∃ u, exec (.signalRead src e hs) s = .next u ∧ Answered s u src 0x1A01 (hs.map fun h => .struct
 (if e then s.sigEstate h else s.sigLocal h).bytes) s) ∧
 (Taken s src 0x1A02 → 1 ≤ d → d ≤ 100 → 100 ≤ r → r ≤ 10000 → !s.anyArmed → !s.store.settingsVolatile → ∃ u, exec (.signalConfig src d r) s = .next u ∧ ∃ z, Answered s u src 0x1A02 [] z ∧ z.ten =
 { s.ten with applyDelay := d, refresh := r } ∧ Changes [.ten, .store] s z)

/-- Cycles complete or fail, tenants and engines fail, estate signals refresh and go stale as chapter 11 states (11 R326, R329,
R331, R332, R335, R336, R337, R339; 12 R354). -/
def Obligations.TenantEventsComplete : Prop := ∀ (s : State) (t n k h : Nat) (r : CycleResult) (g : Graph),
 (n < 256 → (s.slot n).inCycle → !(s.slot n).cycleDone → !r.windowFault → !((s.slot n).running.any fun g => decide (g.budget < r.usedUs)) → ∃ u, exec (.graphCycleComplete t n r) s = .next u ∧
 CycleCompleted s u n r) ∧
 (n < 256 → (s.slot n).inCycle → !(s.slot n).cycleDone → r.windowFault → (s.slot n).estateHandles = [] → ∃ u, exec (.graphCycleComplete t n r) s = .next u ∧ WindowFailed s u n) ∧
 (n < 256 → (s.slot n).inCycle → !(s.slot n).cycleDone → (s.slot n).running = some g → (s.slot n).startedAt + g.budget * 1000 ≤ s.nowAt t → (s.slot n).estateHandles = [] → ∃ u, exec (.cycleBudget t
 n) s = .next u ∧ BudgetFailed s u n) ∧
 (n < 256 → 3 ≤ (s.slot n).failRun → ((s.slot n).state = .active ∨ (s.slot n).state = .shadow) → roleKind (s.slot n).role = 3 → ∃ u, exec (.tenantFault t n) s = .next u ∧ TenantFaulted s u t n) ∧
 (k < 32 → !(s.engine k).fault → ∃ u, exec (.engineFault t k) s = .next u ∧ (u.engine k).fault ∧ u.clock.ns = s.nowAt t ∧ (∀ n, s.slotNumbers.contains n → (s.slot n).state ≠ .empty → (s.slot
 n).engine = k → (u.slot n).state = .stopped ∧ u.holdsActive (s.slot n).role = false) ∧ u.safety = s.safety ∧ u.power = s.power ∧ u.tide = s.tide) ∧
 (n < 256 → (s.slot n).state = .active → (s.atTime t).refreshDue n ≠ [] → ∃ u, exec (.signalRefresh t n) s = .next u ∧ (∀ h, ((s.atTime t).refreshDue n).contains h → (u.sigOwner h).sentAt = s.nowAt
 t) ∧ (∀ k, u.slot k = s.slot k) ∧ s.out.length < u.out.length ∧ Moves [.ten, .net, .out] s u) ∧
 (h < 1048576 → (s.sigOwner h).owner ≠ 0 → (s.sigOwner h).ownerAt + 3 * s.ten.refresh * 1000000 ≤ s.nowAt t → !(s.sigEstate h).stale → ∃ u, exec (.signalStale t h) s = .next u ∧ u.sigEstate h =
 { s.sigEstate h with value := none, absent := true, held := false, stale := true } ∧ (∀ k, k ≠ h → u.sigEstate k = s.sigEstate k) ∧ (∀ k, u.slot k = s.slot k) ∧ Moves [.ten] s u)

/-- The PAIR commands keep assignments and tolerances, swap the helm and answer what R374 lists (12 R347, R354, R361, R364,
R365, R369, R374). -/
def Obligations.PairCommandsComplete : Prop := ∀ (s z : State) (src : Source) (a : Assignment) (r d : Nat),
 (Taken s src 0x1B01 → assignmentOk a s.net.berth → (roleKind a.role = 2 → laneArmed (s.lane a.local_).state = false) → !s.holdsActive a.role → !s.store.settingsVolatile → ∃ u, exec (.pairRoleSet src
 a) s = .next u ∧ ∃ z, Answered s u src 0x1B01 [] z ∧ z.store.settings.tail = s.store.settings ∧ z.store.settings.head?.map (fun r => (r.code, r.object, r.cmd)) = some (0x1B01, a.role, .pairRoleSet
 src a) ∧ Changes [.store] s z) ∧
 (∀ (o : OwnRole), Taken s src 0x1B02 → z = s.seen → z.ownRole r = some o → ∃ u, exec (.pairStatus src r) s = .next u ∧ PairStatusRead s u z src r o) ∧
 (∀ (o : OwnRole), Taken s src 0x1B03 → s.ownRole r = some o → o.state = .active → o.swap = none → o.releaseDue = 0 → (roleKind r = 2 → (s.lane o.local_).state ≠ .arming) → s.partnerThere o →
 (s.streamTx o.partner).unacked.length < 64 → ∃ u, exec (.pairSwapHelm src r) s = .next u ∧ ∃ z, Executing u src 0x1B03 z ∧ z.ownRole r = some { o with swap := some src, swapReady := false } ∧
 z.saidHelm o.partner hmSwapRequest r (syncCode o.sync) ∧ Changes [.net, .out] s z) ∧
 (∀ (o c : Nat), Taken s src 0x1B04 → 66 ≤ d → d ≤ 13107 → 66 ≤ o → o ≤ 32768 → 66 ≤ c → c ≤ 3276 → ∃ u, exec (.pairCompareSet src d o c) s = .next u ∧ ∃ z, Answered s u src 0x1B04 [] z ∧ z.net =
 { s.net with dutyTol := (d : Rat) / 65536, outTol := (o : Rat) / 65536, socTol := (c : Rat) / 65536 } ∧ Changes [.net] s z) ∧
 (∀ (c : Bool) (o : OwnRole), Taken s src 0x1B05 → s.ownRole r = some o → ∃ u, exec (.pairCountersRead src r c) s = .next u ∧ PairCountersRead s u src r c o)

/-- Roles are taken, helm lines fall, rise and conflict, KEEP is sent and watched, diagnosis gives the helm up (12 R348, R349,
R350, R351, R352, R354, R355, R356, R367, R368). -/
def Obligations.TakingTheHelmEventsComplete : Prop := ∀ (s : State) (t r e n a p : Nat) (o : OwnRole) (g : Graph),
 (RoleVacant s t r o → roleKind r ≠ 2 → roleKind r ≠ 4 → ∃ u, exec (.roleTake t r) s = .next u ∧ (∃ o', u.ownRole r = some o' ∧ o'.state = .active ∧ o'.epoch = s.takeEpoch r ∧ o'.kind = o.kind ∧
 o'.partner = o.partner ∧ o'.local_ = o.local_) ∧ u.net.announceDue ∧ Moves [.net, .can, .table] s u) ∧
 (RoleVacant s t r o → roleKind r = 2 → s.laneRole o.local_ = some o → (s.atTime t).lineLow o.local_ → ∃ u, exec (.roleTake t r) s = .next u ∧ HelmRaised s u t r o) ∧
 (RoleOpen s r o → s.otherHolder r = some (o.partner, e) → o.paired → ∃ u, exec (.roleTake t r) s = .next u ∧ u.ownRole r = some { o with
 state := .standby, sync := .syncing, partnerEpoch := e, cleanSince := s.nowAt t, fullApplied := false, genApplied := none, keeps := [], peerReleased := false } ∧ u.net.announceDue ∧ Moves [.net,
 .can, .table] s u) ∧
 (n < 8 → s.power.on → s.laneRole n = some o → o.mayTakeOver → (s.atTime t).permissive n → ∃ u, exec (.helmInFall t n) s = .next u ∧ u.lane n =
 { s.lane n with helmIn := false, helmLowSince := some (s.nowAt t), wantHelm := true } ∧ Only State.lane n [.clock, .lanes, .mbox] s u) ∧
 (n < 8 → s.power.on → !((s.laneRole n).any fun o => o.state == .standby) → ∃ u, exec (.helmInFall t n) s = .next u ∧ u.lane n = { s.lane n with helmIn := false, helmLowSince := some (s.nowAt t) } ∧
 Only State.lane n [.clock, .lanes, .mbox] s u) ∧
 (n < 8 → (s.lane n).wantHelm → !(s.lane n).helmOut → (s.atTime t).lineLow n → s.laneRole n = some o → o.state = .standby → ∃ u, exec (.helmRaise t n) s = .next u ∧ u.lane n =
 { s.lane n with helmOut := true, helmRaisedAt := some (s.nowAt t), helmRetryAt := none, wantHelm := false } ∧ Only State.lane n [.clock, .lanes, .mbox] s u) ∧
 (n < 8 → (s.lane n).wantHelm → !(s.lane n).helmOut → (s.atTime t).lineLow n → s.laneRole n = some o → o.state = .none_ → s.ownRole o.role = some o → ∃ u, exec (.helmRaise t n) s = .next u ∧ (u.lane
 n).helmOut ∧ !(u.lane n).wantHelm ∧ (u.lane n).state = (s.lane n).state ∧ (∃ o', u.ownRole o.role = some o' ∧ o'.state = .active ∧ o'.epoch = s.takeEpoch o.role) ∧ Moves [.lanes, .net, .can, .table]
 s u) ∧
 (n < 8 → (s.lane n).helmOut → (s.lane n).helmRaisedAt = some a → s.nowAt t ≤ a + 1000 → s.laneRole n = some o → s.ownRole o.role = some o → o.state = .active → o.takeoverAt = none → ∃ u, exec
 (.helmConflict t n) s = .next u ∧ HelmGivenUp s u t n o) ∧
 (n < 8 → (s.lane n).helmRetryAt = some a → a ≤ s.nowAt t → !(s.lane n).helmOut → s.laneRole n = some o → s.otherHolder o.role = none → !(s.atTime t).lineLow n → ∃ u, exec (.helmRetry t n) s = .next
 u ∧ u.lane n = { s.lane n with helmRetryAt := none, wantHelm := true } ∧ Only State.lane n [.clock, .lanes, .mbox] s u) ∧
 (n < 8 → (s.lane n).helmRetryAt = some a → a ≤ s.nowAt t → !(s.lane n).helmOut → s.laneRole n = some o → s.otherHolder o.role = none → (s.atTime t).lineLow n → o.state = .none_ → s.ownRole o.role =
 some o → ∃ u, exec (.helmRetry t n) s = .next u ∧ (u.lane n).helmOut ∧ (u.lane n).helmRetryAt = none ∧ (∃ o', u.ownRole o.role = some o' ∧ o'.state = .active ∧ o'.epoch = s.takeEpoch o.role) ∧ Moves
 [.lanes, .net, .can, .table] s u) ∧
 (s.ownRole r = some o → o.mayTakeOver → roleKind r ≠ 2 → o.peerReleased → ¬(roleKind r = 3 ∧ (s.slot o.local_).state = .shadow) → ∃ u, exec (.takeover t r) s = .next u ∧ (∃ o', u.ownRole r = some o'
 ∧ o'.state = .active ∧ o'.epoch = s.takeEpoch r ∧ o'.takeoverAt = some (s.nowAt t) ∧ o'.takeoverCause = tkRelease ∧ !o'.peerReleased) ∧ Moves [.net, .can, .table, .out, .recorder, .ten] s u) ∧
 (s.ownRole r = some o → o.mayTakeOver → roleKind r = 2 → (s.lane o.local_).helmOut → (s.lane o.local_).state = .shadow → (s.lane o.local_).peerState ≠ 2 → ∃ u, exec (.takeover t r) s = .next u ∧
 LaneTakenOver s u t r o) ∧
 (n < 8 → (s.lane n).loops → s.laneRole n = some o → s.ownRole o.role = some o → o.state = .active → ∃ u, exec (.spindleLate t n) s = .next u ∧ !u.holdsActive o.role ∧ !(u.lane n).helmOut ∧ (u.lane
 n).state ≠ .run ∧ u.clock.ns = s.nowAt t) ∧
 (p < 128 → s.tablesRun → s.modelled p ≠ [] → s.laneOfPort p = some n → s.laneRole n = some o → s.ownRole o.role = some o → o.state = .active → ∃ u, exec (.modelEngineLate t p) s = .next u ∧
 !u.holdsActive o.role ∧ !(u.lane n).helmOut ∧ (u.lane n).state ≠ .run ∧ u.clock.ns = s.nowAt t) ∧
 (s.netRuns → s.ownRole r = some o → o.paired → roleKind r = 5 → o.state = .active → o.releaseDue ≠ 1 → o.keepUnacked = [] → !o.keepAt.any (fun a => decide (s.nowAt t < a + 10000000)) →
 s.partnerThere o → ∃ u, exec (.keepCheck t r p) s = .next u ∧ u.ownRole r = some { o with keepUnacked := [(s.atTime t).pos], keepAt := some (s.nowAt t) } ∧ Moves [.net, .out] s u) ∧
 (s.netRuns → s.ownRole r = some o → o.paired → roleKind r = 5 → o.mayTakeOver → o.keeps = [] → !o.keepAt.any (fun a => decide (s.nowAt t < a + 10000000)) → ∃ u, exec (.keepCheck t r p) s = .next u ∧
 (∃ o', u.ownRole r = some o' ∧ o'.state = .active ∧ o'.epoch = s.takeEpoch r ∧ o'.takeoverAt = some (s.nowAt t) ∧ o'.takeoverCause = (if o.peerReleased then tkRelease else tkKeep)) ∧
 u.net.takeoverAt = some (s.nowAt t)) ∧
 (s.netRuns → s.ownRole r = some o → o.paired → roleKind r = 3 → o.mayTakeOver → p ≤ (s.atTime t).pos → (s.slot o.local_).running = some g → (s.slot o.local_).state = .shadow → s.groupPos g.group
 (s.slot o.local_).publishAt = p → !o.keeps.contains (s.keepBefore g (s.slot o.local_).publishAt) → ∃ u, exec (.keepCheck t r p) s = .next u ∧ u.holdsActive r ∧ (u.own r).epoch = s.takeEpoch r ∧
 (u.own r).takeoverAt = some (s.nowAt t) ∧ (u.slot o.local_).state = .active)

/-- HELM and MIRROR messages in their turn are taken, over a LAN or over the twin link, and LOOP items reach the standby (12
R351, R353, R355, R357, R358, R359, R362, R363, R364, R369, R370). -/
def Obligations.HelmMessagesAndMirrorsComplete : Prop := ∀ (s : State) (t a b c n : Nat) (l : Link) (h : GHead) (o : OwnRole) (f : MirrorFrag) (i : LoopItem) (p : Int × Int × Nat),
 (∀ (m : HelmMsg), FromPartner s l h (.helm m) m.role m.format o → m.kind = hmKeep → ∃ u, exec (.helmKeep t l h m) s = .next u ∧ u.ownRole m.role = some
 { o with partnerEpoch := m.epoch, partnerFormat := some m.format, keeps := (m.at_ :: o.keeps).take 64, peerReleased := false } ∧ Moves [.net, .out] s u) ∧
 (∀ (m : HelmMsg), FromPartner s l h (.helm m) m.role m.format o → m.kind = hmRelease → ∃ u, exec (.helmRelease t l h m) s = .next u ∧ u.ownRole m.role = some
 { o with partnerEpoch := m.epoch, partnerFormat := some m.format, keeps := [], peerReleased := true } ∧ Moves [.net, .out] s u) ∧
 (∀ (m : HelmMsg), FromPartner s l h (.helm m) m.role m.format o → m.kind = hmTaken → o.swap = none → s.power.beach = none → s.power.part = none → ∃ u, exec (.helmTakenReceived t l h m) s = .next u ∧
 u.ownRole m.role = some { o with partnerEpoch := m.epoch, partnerFormat := some m.format } ∧ Moves [.net, .out] s u) ∧
 (∀ (m : HelmMsg), FromPartner s l h (.helm m) m.role m.format o → m.kind = hmSwapRequest → o.state = .standby → o.sync = .inSync → o.kind ≠ .none_ → o.cleanSince + 1000000000 ≤ s.nowAt t →
 (s.streamTx o.partner).unacked.length < 64 → ∃ u, exec (.helmSwapRequest t l h m) s = .next u ∧ u.saidHelm o.partner hmSwapReady m.role 2 ∧ u.ownRole m.role = some
 { o with partnerEpoch := m.epoch, partnerFormat := some m.format } ∧ Moves [.net, .out] s u) ∧
 (∀ (m : HelmMsg), FromPartner s l h (.helm m) m.role m.format o → m.kind = hmSwapReady → m.result = 2 → o.state = .active → o.swap.isSome → roleKind m.role = 2 → (s.lane o.local_).cfg.isSome → ∃ u,
 exec (.helmSwapReady t l h m) s = .next u ∧ u.ownRole m.role = some { o with partnerEpoch := m.epoch, partnerFormat := some m.format, releaseDue := 2, swapReady := true } ∧ Moves [.net, .out] s u) ∧
 (∀ (m : HelmMsg), FromPartner s l h (.helm m) m.role m.format o → m.kind = hmTestStart → o.testAt = none → ∃ u, exec (.helmTestStart t l h m) s = .next u ∧ u.ownRole m.role = some { o with
 partnerEpoch := m.epoch, partnerFormat := some m.format, testAt := some (s.tide.timeOf m.at_), testOwn := none, testPeer := none } ∧ Moves [.net, .out] s u) ∧
 (∀ (m : HelmMsg), FromPartner s l h (.helm m) m.role m.format o → m.kind = hmTestResult → o.testOwn = none → ∃ u, exec (.helmTestResult t l h m) s = .next u ∧ u.ownRole m.role = some
 { o with partnerEpoch := m.epoch, partnerFormat := some m.format, testPeer := some (m.result == 0) } ∧ Moves [.net, .out] s u) ∧
 (∀ (m : HelmMsg), FromPartner s l h (.helm m) m.role m.format o → m.kind = hmFullRequest → ∃ u, exec (.helmFullRequest t l h m) s = .next u ∧ u.ownRole m.role = some
 { o with partnerEpoch := m.epoch, partnerFormat := some m.format, fullRequested := true } ∧ Moves [.net, .out] s u) ∧
 (FromPartner s l h (.mirror f) f.role f.format o → f.index < f.count → f.count ≤ 1024 → 2 ≤ f.count → o.frags = [] → ∃ u, exec (.garzetMirror t l h f) s = .next u ∧ u.ownRole f.role = some
 { o with partnerEpoch := f.epoch, partnerFormat := some f.format, frags := [f] } ∧ Moves [.net, .out] s u) ∧
 (FromPartner s l h (.mirror f) f.role f.format o → f.index = 0 → f.count = 1 → f.full → f.items = [.status a b c] → o.state = .standby → o.frags = [] → !o.fullApplied → o.genApplied = none → ∃ u,
 exec (.garzetMirror t l h f) s = .next u ∧ MirrorApplied s u t f o b c) ∧
 (LoopComes s n o i → i.updated ≠ 0 → (s.lane n).state ≠ .shadow → ∃ u, exec (.loopItem t n i) s = .next u ∧ LoopMirrored s u n i) ∧
 (∀ (m : Nat), LoopComes s n o i → (s.lane n).state = .shadow → m < 6 → i.updated.testBit m → i.phases[m]? = some p → ∃ u, exec (.loopItem t n i) s = .next u ∧ (u.lane n).state = .shadow ∧ (u.lane
 n).periodSeq = i.periodSeq ∧ (u.lane n).command = i.command ∧ ((u.lane n).phase m).loop.integ = p.1 ∧ ((u.lane n).phase m).loop.yPrev = some p.2.1)

/-- Self-tests run and are judged, standbys ask for FULL, go stale, come into sync and lose the twin link (12 R361, R362, R363,
R365, R366). -/
def Obligations.SelfTestAndSyncEventsComplete : Prop := ∀ (s : State) (t r a i : Nat) (b : Bool) (o : OwnRole),
 (s.ownRole r = some o → o.testOwn = none → o.testPeer = none → o.testAt = some a → a ≤ s.nowAt t → o.kind ≠ .none_ → (s.streamTx o.partner).unacked.length < 64 → ∃ u, exec (.selfTest t r b) s =
 .next u ∧ u.ownRole r = some { o with testOwn := some b, testsRun := inc64 o.testsRun, testsFailed := if b then o.testsFailed else inc64 o.testsFailed } ∧ u.saidHelm o.partner hmTestResult r (if b
 then 0 else 1) ∧ Moves [.net, .out] s u) ∧
 (s.ownRole r = some o → o.testOwn = some true → o.testPeer = none → o.testAt = some a → a + 5000000 ≤ s.nowAt t → ∃ u, exec (.testResultTimeout t r) s = .next u ∧ u.ownRole r = some
 { o with testAt := none, testOwn := none, testPeer := none } ∧ Moves [.net] s u) ∧
 (s.ownRole r = some o → o.testOwn = none → o.testPeer = some true → o.testAt = some a → a + 5000000 ≤ s.nowAt t → o.state = .standby → ∃ u, exec (.testResultTimeout t r) s = .next u ∧ (∃ o',
 u.ownRole r = some o' ∧ o'.state = .none_ ∧ o'.sync = .none_ ∧ o'.testAt = none)) ∧
 (s.ownRole r = some o → o.state = .standby → ∃ u, exec (.backgroundTest t r true) s = .next u ∧ u.ownRole r = some { o with bgTestAt := s.nowAt t, testsRun := inc64 o.testsRun } ∧ Moves [.net] s u)
 ∧
 (s.ownRole r = some o → o.state = .standby → roleKind r ≠ 3 → ∃ u, exec (.backgroundTest t r false) s = .next u ∧ (∃ o', u.ownRole r = some o' ∧ o'.state = .none_ ∧ o'.testsFailed = inc64
 o.testsFailed) ∧ u.alarmOn evPairDegraded 5 r) ∧
 (s.netRuns → s.ownRole r = some o → o.state = .standby → o.sync = .syncing → !o.fullApplied → roleKind r ≠ 5 → (o.fullReqAt = 0 ∨ o.fullReqAt + 10 ^ 9 ≤ s.nowAt t) → o.kind ≠ .none_ → (s.streamTx
 o.partner).unacked.length < 64 → ∃ u, exec (.fullRequestSend t r) s = .next u ∧ u.ownRole r = some { o with fullReqAt := s.nowAt t } ∧ u.saidHelm o.partner hmFullRequest r 1 ∧ Moves [.net, .out] s
 u) ∧
 (s.ownRole r = some o → o.state = .standby → o.sync = .inSync → roleKind r ≠ 5 → o.genAppliedAt + 8 * s.roleCycleNs r < s.nowAt t → ∃ u, exec (.mirrorStale t r) s = .next u ∧ u.ownRole r = some
 { o with sync := .stale, cleanSince := s.nowAt t } ∧ Only State.ownRole r [.clock, .net, .mbox] s u) ∧
 (s.ownRole r = some o → o.state = .standby → !s.formatGap o → o.cleanSince + 10 ^ 9 ≤ s.nowAt t → o.sync = .syncing → (o.fullApplied ∨ roleKind r = 5) → (roleKind r = 2 → !s.twinGone) → ∃ u, exec
 (.inSync t r) s = .next u ∧ u.ownRole r = some { o with sync := .inSync } ∧ Only State.ownRole r [.clock, .net, .mbox] s u) ∧
 (s.ownRole r = some o → o.state = .standby → !s.formatGap o → o.cleanSince + 10 ^ 9 ≤ s.nowAt t → o.sync = .stale → s.nowAt t ≤ o.genAppliedAt + 8 * s.roleCycleNs r → (roleKind r = 2 → !s.twinGone)
 → ∃ u, exec (.inSync t r) s = .next u ∧ u.ownRole r = some { o with sync := .inSync } ∧ Moves [.net] s u) ∧
 (i < 2 → s.netRuns → (s.net.own.any fun o => o.kind == .twin) → !tget false s.net.twinDown i → tget 0 s.net.twinLast i + 1000000 ≤ s.nowAt t → ∃ u, exec (.twinLaneDown t i) s = .next u ∧
 TwinLaneDown s u t i)

/-- The CAN commands configure a controller, take and abort requests, hand out records and set the time master (15 R427, R429,
R430, R431, R433, R434, R435, R436, R437, R440). -/
def Obligations.CanCommandsComplete : Prop := ∀ (s z : State) (src : Source) (k i b w n : Nat) (r : TxReq) (m m0 : TimeMaster),
 (∀ (c : CanConfig), Taken s src 0x1E01 → s.canConfigOk k c → bitTimingOk c → ∃ u, exec (.canConfig src k c) s = .next u ∧ CanConfigured s u src k c) ∧
 (∀ (f : CanFilter), Taken s src 0x1E02 → k < 2 → i < 64 → f.formats < 8 → idOk f.ide f.id → idOk f.ide f.mask → ∃ u, exec (.canFilterSet src k i f) s = .next u ∧ ∃ z, Answered s u src 0x1E02 [] z ∧
 tget none (z.canCtl k).filters i = some f ∧ (∀ j, j ≠ i → tget none (z.canCtl k).filters j = tget none (s.canCtl k).filters j) ∧ Only State.canCtl k [.can, .store] s z) ∧
 (∀ (f : CanFrame), Taken s src 0x1E03 → k < 2 → b < 32 → canFrameOk f → (s.txBuf k b).owner = .path src.path → !(s.canCtl k).reserved b → (s.txBuf k b).req = none → (s.txBuf k b).heldRec = none →
 !(s.canCtl k).busOff → (s.canCtl k).mode = .normal → (f.fdf → ((s.canCtl k).cfg.any fun g => g.fd)) → ∃ u, exec (.canSend src k b false f) s = .next u ∧ FrameRequested s u src k b f) ∧
 (∀ (f : CanFrame), Taken s src 0x1E03 → k < 2 → b < 32 → canFrameOk f → (s.txBuf k b).owner = .path src.path → !(s.canCtl k).reserved b → (s.txBuf k b).req = some r → !r.onBus → ∃ u, exec (.canSend
 src k b true f) s = .next u ∧ ∃ z, Answered s u src 0x1E03 [f4 r.txSeq] z ∧ (z.txBuf k b).req = none ∧ (z.txBuf k b).last = some coAborted ∧ (∀ j, j ≠ b → z.txBuf k j = s.txBuf k j) ∧ Only
 State.canCtl k [.can, .fab, .mbox] s z) ∧
 (∀ (c : CanConfig), Taken s src 0x1E04 → k < 2 → w < 4 → 1 ≤ n → n ≤ 32 → (s.canCtl k).cfg = some c → canTarget c w = .path src.path → ∃ u, exec (.canReceive src k w n) s = .next u ∧ ∃ z, Answered s
 u src 0x1E04 (f2 (min n (tget [] (s.canCtl k).paths w).length) :: ((tget [] (s.canCtl k).paths w).take n).map .struct) z ∧ tget [] (z.canCtl k).paths w = (tget [] (s.canCtl k).paths w).drop n ∧ Only
 State.canCtl k [.can] s z) ∧
 (Taken s src 0x1E05 → k < 2 → (s.canCtl k).busOff → ∃ u, exec (.canRecover src k) s = .next u ∧ ∃ z, Answered s u src 0x1E05 [] z ∧ z.canCtl k = { s.canCtl k with recovering := true } ∧ Only
 State.canCtl k [.can] s z) ∧
 (Taken s src 0x1E06 → k < 2 → z = s.seen → ∃ u, exec (.canStatus src k) s = .next u ∧ CanStatusRead s u z src k) ∧
 (Taken s src 0x1E07 → k < 2 → m.container < 4096 → idOk m.ide m.identifier → 10 ≤ m.periodMs → m.periodMs ≤ 10000 → ((s.canCtl k).cfg.any fun c => c.fd) → (s.canCtl k).master = none → ∃ u, exec
 (.canTimeMasterSet src k true m) s = .next u ∧ ∃ z, Answered s u src 0x1E07 [] z ∧ z.canCtl k = { s.canCtl k with master := some m, clearAt := s.now } ∧ (z.ownRole (containerRole m)).isSome ∧ (∀ r,
 r ≠ containerRole m → z.ownRole r = s.ownRole r) ∧ Only State.canCtl k [.can, .net] s z) ∧
 (Taken s src 0x1E07 → k < 2 → m.container < 4096 → idOk m.ide m.identifier → 10 ≤ m.periodMs → m.periodMs ≤ 10000 → ((s.canCtl k).cfg.any fun c => c.fd) → (s.canCtl k).master = some m0 → (s.canCtl
 (1 - k)).master = none → ∃ u, exec (.canTimeMasterSet src k false m) s = .next u ∧ ∃ z, Answered s u src 0x1E07 [] z ∧ (z.canCtl k).master = none ∧ z.ownRole (containerRole m0) = none) ∧
 (∀ (c : Bool), Taken s src 0x1E08 → k < 2 → ∃ u, exec (.canCountersRead src k c) s = .next u ∧ CanCountersRead s u src k c)

/-- Frames are sent, received, filtered and stored, requests end with their outcomes, errors count, as chapter 15 states (15
R430, R431, R432, R433, R434, R435, R436, R437, R438, R439). -/
def Obligations.CanBusEventsComplete : Prop := ∀ (s : State) (t k b e a i q : Nat) (r : TxReq) (f : CanFrame) (p : Path) (d : Bool) (m : TimeMaster),
  let x (y : State) := y.canCtl k
 (k < 2 → s.power.on → (x s).mode = .normal → (x s).air = none → !(x s).busOff → (x s).winner = some b → (s.txBuf k b).req = some r → !r.reference → f =
 { r.frame with esi := r.frame.fdf && (x s).passive } → ∃ u, exec (.canBusIdle t k) s = .next u ∧ AttemptBegun s u t k b r f) ∧
 (k < 2 → s.power.on → (x s).mode ≠ .disabled → (x s).air = none → (x s).winner = none → ∃ u, exec (.canBusIdle t k) s = .next u ∧ u.canCtl k = { s.canCtl k with integrating := false } ∧ Moves [.can]
 s u) ∧
 (∀ (c : Bool), k < 2 → s.power.on → (x s).air = some f → (x s).attempt = some b → (s.txBuf k b).req = some r → ∃ u, exec (.canTxAttemptEnd t k 0 none c) s = .next u ∧ (u.txBuf k b).req = none ∧
 (u.txBuf k b).last = some coSent ∧ (x u).air = none ∧ (x u).sent = inc64 (x s).sent ∧ (x u).tec = (x s).tec - 1 ∧ (∀ j, j ≠ b → u.txBuf k j = s.txBuf k j) ∧ Only State.canCtl k [.clock, .can, .fab,
 .mbox, .ten] s u) ∧
 (k < 2 → s.power.on → 2 ≤ e → e ≤ 6 → (x s).air = some f → (x s).attempt = some b → (s.txBuf k b).req = some r → !r.reference → r.ending = none → r.attempts ≤ (s.txBuf k b).retry → ∃ u, exec
 (.canTxAttemptEnd t k e none true) s = .next u ∧ AttemptFailed s u k b e r) ∧
 (k < 2 → s.power.on → 1 ≤ e → e ≤ 6 → (x s).air = some f → (x s).attempt = some b → (s.txBuf k b).req = some r → !r.reference → r.ending = none → (s.txBuf k b).retry < r.attempts → ∃ u, exec
 (.canTxAttemptEnd t k e none true) s = .next u ∧ RetriesUsedUp s u k b e) ∧
 (∀ (c : CanConfig), k < 2 → (s.txBuf k b).req = some r → r.ending = none → !r.onBus → (x s).cfg = some c → r.acceptedAt + c.txTimeout * 1000000 ≤ s.nowAt t → ∃ u, exec (.txTimeout t k b) s = .next u
 ∧ (u.txBuf k b).req = none ∧ (u.txBuf k b).last = some coTimeout ∧ (∀ j, j ≠ b → u.txBuf k j = s.txBuf k j) ∧ Only State.canCtl k [.clock, .can, .fab, .mbox, .ten] s u) ∧
 (∀ (o : TxOutcome) (c : CanConfig), k < 2 → (s.txBuf k b).heldRec = some o → (x s).cfg = some c → c.txEvent = .path p → entriesOf (tget [] (x s).paths 3) < 256 → ∃ u, exec (.txEventRoom t k b) s =
 .next u ∧ u.txBuf k b = { s.txBuf k b with heldRec := none } ∧ tget [] (x u).paths 3 = tget [] (x s).paths 3 ++ [outcomeEntry o] ∧ Only State.canCtl k [.clock, .can, .mbox] s u) ∧
 (∀ (c : CanConfig), CanStores s k c f → (x s).matching f = some (i, .fifo0) → c.fifo0 = .path p → (x s).rec_ ≤ 127 → entriesOf (tget [] (x s).paths 0) + 2 ≤ 256 → ∃ u, exec (.canFrameReceived t k a
 f) s = .next u ∧ tget [] (x u).paths 0 = tget [] (x s).paths 0 ++ [rxEntries k a (some i) f] ∧ (x u).received = inc64 (x s).received ∧ (x u).rec_ = (x s).rec_ - 1 ∧ Only State.canCtl k [.clock,
 .can, .fresh, .mbox] s u) ∧
 (∀ (c : CanConfig), CanStores s k c f → (x s).matching f = some (i, .fifo1) → c.fifo1 = .queue q → (s.queue q).k ≠ 0 → f.data.length ≤ 48 → (s.queue q).fill < (s.queue q).size → ∃ u, exec
 (.canFrameReceived t k a f) s = .next u ∧ FrameQueued s u k a i q f) ∧
 (∀ (c : CanConfig), CanStores s k c f → (x s).matching f = none → !c.noMatchFifo1 → (x s).rec_ ≤ 127 → ∃ u, exec (.canFrameReceived t k a f) s = .next u ∧ u.canCtl k =
 { s.canCtl k with received := inc64 (x s).received, rec_ := (x s).rec_ - 1, noMatch := inc64 (x s).noMatch } ∧ Moves [.can, .fresh] s u) ∧
 (CanHears s k → 2 ≤ e → e ≤ 6 → (x s).rec_ < 248 → ∃ u, exec (.canReceiveError t k false e d) s = .next u ∧ (x u).rec_ = (x s).rec_ + (if d then 8 else 1) ∧ tget 0 (x u).errors e = (tget 0 (x
 s).errors e + 1) % 2 ^ 64 ∧ (∀ j, j ≠ e → tget 0 (x u).errors j = tget 0 (x s).errors j) ∧ Only State.canCtl k [.clock, .can, .mbox] s u) ∧
 (CanHears s k → ∃ u, exec (.canReceiveError t k true e d) s = .next u ∧ u.canCtl k = { s.canCtl k with pxe := inc64 (x s).pxe, integrating := true } ∧ Moves [.can] s u) ∧
 (k < 2 → 256 ≤ (x s).tec → !(x s).busOff → ∃ u, exec (.canBusOff t k) s = .next u ∧ BusOffEntered s u k) ∧
 (k < 2 → (x s).busOff → (x s).recovering → (x s).mode ≠ .disabled → ∃ u, exec (.canRecoveryDone t k) s = .next u ∧ u.canCtl k =
 { s.canCtl k with busOff := false, recovering := false, integrating := false, tec := 0, rec_ := 0 } ∧ !u.alarmOn evCanBusOff 11 k ∧ Only State.canCtl k [.clock, .can, .mbox, .recorder] s u) ∧
 (∀ (o : OwnRole), (x s).mode = .normal → !(x s).busOff → (x s).master = some m → s.ownRole (containerRole m) = some o → o.state = .active → o.local_ = k → t % (m.periodMs * 1000000) = 0 → (x
 s).cfg.any (fun g => g.fd) → (s.txBuf k 31).req = none → (s.txBuf k 31).heldRec = none → ∃ u, exec (.canReferenceDue t k) s = .next u ∧ ReferenceQueued s u t k m) ∧
 (∀ (o : OwnRole), s.netRuns → s.net.berth.isSome → (s.power.state = .full ∨ s.power.state = .slack) → s.power.beach = none → s.power.part = none → s.sec.debug ≠ .invasive → (x s).master = some m →
 s.ownRole (containerRole m) = some o → s.unresolved (containerRole m) → max (x s).clearAt s.net.berthAt + 5 * 10 ^ 9 ≤ s.nowAt t → ∃ u, exec (.containerTimeTake t k) s = .next u ∧ (∃ o', u.ownRole
 (containerRole m) = some o' ∧ o'.state = .active ∧ o'.epoch = s.takeEpoch (containerRole m) ∧ o'.local_ = k) ∧ u.net.announceDue ∧ Moves [.net, .can, .table] s u)

/-- STORE and EVENT commands start a scrub or a measurement and answer what R459 lists (16 R449, R454, R455, R457, R458, R459).
-/
def Obligations.StoreAndRecorderCommandsComplete : Prop := ∀ (s z : State) (src : Source) (d a n : Nat),
 (Taken s src 0x1F01 → z = s.seen → ∃ u, exec (.storeStatus src) s = .next u ∧ StoreStatusRead s u z src) ∧
 (Taken s src 0x1F02 → s.store.scrub = none → ∃ u, exec (.storeScrub src) s = .next u ∧ ∃ z, Answered s u src 0x1F02 [] z ∧ z.store = { s.store with scrub := some (s.now, 0) } ∧ Changes [.store] s z)
 ∧
 (Taken s src 0x1F03 → s.linePower → s.store.measuring = none → !s.guardedRuns → ∃ u, exec (.storeHoldupMeasure src) s = .next u ∧ ∃ z, Answered s u src 0x1F03 [] z ∧ z.store =
 { s.store with measureDue := true } ∧ Changes [.store] s z) ∧
 (Taken s src 0x1F04 → d < 2 → ∃ u, exec (.storeWearRead src d) s = .next u ∧ WearListed s u src d) ∧
 (Taken s src 0x2001 → z = s.seen → ∃ u, exec (.eventStatus src) s = .next u ∧ Answered s u src 0x2001 [f8 z.newestSeq, f8 z.oldestSeq, f4 z.recorder.ring.length, f4 z.recorder.cache.length, f8
 z.recorder.lostTotal] s) ∧
 (Taken s src 0x2002 → 1 ≤ n → n ≤ 64 → s.recorder.ring ≠ [] → a ≤ s.newestSeq → ∃ u, exec (.eventRead src a n) s = .next u ∧ Answered s u src 0x2002 ([f8 s.oldestSeq, f8 s.oldestSeq] ++
 ((s.recorder.ring.filter fun r => decide (max a s.oldestSeq ≤ r.seq ∧ r.seq < max a s.oldestSeq + n)).reverse.map fun r => .struct r.bytes)) s)

/-- Pages, erases, commits, hold-up checks, batches and scrubs end as chapter 16 states (06 R193; 16 R445, R447, R448, R449,
R451, R453, R454, R455, R456, R457). -/
def Obligations.StoreAndRecorderEventsComplete : Prop := ∀ (s z : State) (t g k v a v0 d : Nat) (o : Op) (c : Commit) (r : EventRec),
 (s.power.on → s.store.running = some o → o.kind = .settings g → s.store.ops = [] → s.store.suspended = none → !s.store.deferred → ∃ u, exec (.pageProgramDone t true true) s = .next u ∧ u.store =
 { s.store with running := none } ∧ Moves [.store] s u) ∧
 (s.power.on → s.store.running = some o → o.kind = .settings g → o.tries0 < 3 → 0 ∉ o.given → (s.device 0).used → (s.recentRetries (s.device 0)).length < 64 → ∃ u, exec (.pageProgramDone t false
 true) s = .next u ∧ u.store.running = some { o with tries0 := o.tries0 + 1 } ∧ (u.device 0).retries = (s.device 0).retries + 1 ∧ (∀ k, k ≠ 0 → u.device k = s.device k) ∧ u.store.ops = s.store.ops ∧
 Moves [.store] s u) ∧
 (s.power.on → s.store.running = some o → o.kind = .erase k → s.store.ops = [] → s.store.suspended = none → ∃ u, exec (.eraseDone t true true) s = .next u ∧ u.store.running = none ∧ (∀ d, d < 2 →
 tget 0 (u.device d).erases k = (if (s.device d).used then tget 0 (s.device d).erases k + 1 else tget 0 (s.device d).erases k)) ∧ (∀ d, d < 2 → u.device d =
 { s.device d with erases := (u.device d).erases }) ∧ u.recorder = s.recorder ∧ Moves [.store] s u) ∧
 (s.power.on → s.store.commit = some c → c.pagesLeft ≤ 1 → s.store.running = some o → o.kind = .commitPage → !s.store.commitQueued → ∃ u, exec (.commitDone t true) s = .next u ∧ CommitFinished s u t
 c) ∧
 (s.power.on → s.store.commit = some c → c.pagesLeft ≤ 1 → s.store.running = some o → o.kind = .commitPage → ∃ u, exec (.commitDone t false) s = .next u ∧ u.store.commit = none ∧
 !u.store.commitQueued ∧ u.store.genCommit = s.store.genCommit ∧ (∀ k, k < 2 → (u.device k).stage = .volatile) ∧ u.model.storedBlocks = s.model.storedBlocks ∧ Moves [.model, .store, .recorder] s u) ∧
 (z = s.atTime t → s.power.on → s.power.lossAt = none → s.store.ops.any z.checkDue → s.store.measuring = none → s.store.measuredBoot → ({ z with store := { s.store with vHu := v } } : State).holdupOk
 → ∃ u, exec (.holdupRetry t v) s = .next u ∧ u.store.vHu = v ∧ (u.store.ops.all fun o => o.may || !z.checkDue o) ∧ u.store.settings = s.store.settings ∧ Moves [.store] s u) ∧
 (z = s.atTime t → s.power.on → s.store.ops.any z.nowLate → ∃ u, exec (.storeDeferred t) s = .next u ∧ u.store =
 { s.store with deferred := true, ops := s.store.ops.map fun o => { o with late := o.late || z.nowLate o } } ∧ u.alarmOn evStoreDeferred 0 0 ∧ Moves [.store, .recorder] s u) ∧
 (s.linePower → s.power.state ≠ .bareRock → s.store.measuredBoot → s.store.measuring = none → !s.guardedRuns → s.store.measureDue → ∃ u, exec (.holdupMeasurement t v) s = .next u ∧ u.store =
 { s.store with measuring := some (s.nowAt t, v), measureDue := false, vHu := v } ∧ Moves [.store] s u) ∧
 (s.power.on → s.store.measuring = some (a, v0) → a + 50000000 ≤ s.nowAt t → v < v0 → ∃ u, exec (.holdupMeasured t v) s = .next u ∧ HoldupMeasured s u t v v0) ∧
 (s.power.on → (s.power.state = .full ∨ s.power.state = .slack) → 64 ≤ s.recorder.cache.length → s.recorder.lostNow = 0 → ∃ u, exec (.recordBatch t) s = .next u ∧ u.recorder = { s.recorder with
 ring := ringKeep s.ringCap ((s.recorder.cache.take 64).reverse ++ s.recorder.ring), cache := s.recorder.cache.drop 64 } ∧ Moves [.store, .recorder] s u) ∧
 (s.power.on → (s.power.state = .full ∨ s.power.state = .slack) → s.recorder.cache = [r] → r.time + 100000000 ≤ s.nowAt t → s.recorder.lostNow = 0 → ∃ u, exec (.recordBatch t) s = .next u ∧
 u.recorder = { s.recorder with ring := ringKeep s.ringCap (r :: s.recorder.ring), cache := [] } ∧ Moves [.store, .recorder] s u) ∧
 (s.power.on → s.power.state ≠ .bareRock → s.power.state ≠ .beached → s.store.scrub.isSome → s.storeStage ≠ .volatile → (∀ k, k < 2 → 4 ≤ (s.device k).usableSlots) → !s.settingsGone → ∃ u, exec
 (.scrub t []) s = .next u ∧ u.store.scrub = none ∧ u.store.lastScrub = s.nowAt t ∧ u.store.lastScrubRes = 0 ∧ (∀ k, k < 2 → u.device k = { s.device k with scrubFails := [] }) ∧ Moves [.store] s u) ∧
 (s.power.on → s.power.state ≠ .bareRock → s.power.state ≠ .beached → s.store.scrub.isSome → !s.model.native → d < 2 → (s.device d).used → ∃ u, exec (.scrub t [(d, k)]) s = .next u ∧
 u.store.lastScrubRes = 1 ∧ (u.device d).scrubFails = [k] ∧ (u.device d).failed = (s.device d).scrubFails.contains k ∧ (u.alarmOn evStoreDegraded 9 d = (s.alarmOn evStoreDegraded 9 d || (s.device
 d).scrubFails.contains k)) ∧ Moves [.store, .recorder] s u)

/-- A step runs the command at the front of the queue with the queue's rest (14 R399; 02 R42). -/
def Obligations.StepRunsTheFrontCommand : Prop := ∀ (c : Instr) (rest : List Instr) (s : State),
 (step { s with pending := c :: rest } = exec c { s with pending := rest }) ∧
 (s.pending = [] → ∃ u, step s = .next u ∧ u.clock.ns * 2 ^ 32 + u.clock.frac = (s.clock.ns * 2 ^ 32 + s.clock.frac + s.clock.incr) % 2 ^ 96 ∧ u.clock.incr = s.clock.incr ∧ Changes [.clock] s u)

/-- A step never refuses, and takes exactly the front command off the queue (14 R399, R422). -/
def Obligations.EveryStepTakesOneCommandOffTheQueue : Prop := ∀ (s u : State) (c : Instr),
 ((∃ u, step s = .next u ∧ u.pending = s.pending.tail) ∨ (s.pending ≠ [] ∧ step s = .fault .noSuchObject)) ∧
 (exec c s = .next u → u.pending = s.pending)

/-- Every step keeps both memories in their canonical form (01 R24, R25, R27). -/
def Obligations.MemoriesStayCanonical : Prop := ∀ (s u : State) (c : Instr),
 (MemWf s → step s = .next u → MemWf u) ∧
 (MemWf s → exec c s = .next u → MemWf u)

/-- What the machine holds at reset, and what a reset that the module makes itself leaves (01 R24; 04 R128; 05 R140; 09 R271;
11 R327; 14 R411; 17 R468). -/
def Obligations.ResetLeaves : Prop := ∀ (s : State) (caused brownout : Bool),
 (State.reset.pending = [] ∧ MemWf State.reset ∧ (∀ n, (State.reset.lane n).state = .unconfigured) ∧ (∀ n k, ((State.reset.lane n).phase k).gateH = false ∧ ((State.reset.lane n).phase k).gateL =
 false) ∧ (∀ k, (State.reset.dac k).code = 0 ∧ (State.reset.dac k).range = 0) ∧ State.reset.anyLatch = false ∧ State.reset.net.own = [] ∧ State.reset.sec.debug = .none_ ∧ State.reset.mbox.intEnable =
 0 ∧ State.reset.mbox.intStatus = 0) ∧
 (let u := s.selfReset caused brownout; (∀ n, (u.lane n).state = .unconfigured) ∧ (∀ k, (u.dac k).code = 0 ∧ (u.dac k).range = 0) ∧ u.net.own = [] ∧ u.sec.debug = .none_ ∧ u.mbox.intEnable = 0 ∧
 u.sec.lifecycle = s.sec.lifecycle ∧ u.sec.keyGens = s.sec.keyGens ∧ u.safety.moduleLatch = s.safety.moduleLatch ∧ (∀ n, (u.laneSafe n).latch = (s.laneSafe n).latch) ∧ u.fab.lpddr = s.fab.lpddr ∧
 u.fab.sram = s.fab.sram ∧ u.pending = s.pending)

/-- No step moves the lifecycle but TURN, SEAL and DECOMMISSION, and those only as the table of R462 lists (17 R461, R462,
R463). -/
def Obligations.LifecycleMovesOnlyAsItsTableSays : Prop := ∀ (s u : State),
 (step s = .next u → u.sec.lifecycle = s.sec.lifecycle ∨ (∃ src r rest, s.pending = .lifecycleTurn src r :: rest ∧ s.sec.lifecycle = .blank ∧ u.sec.lifecycle = .turned) ∨ (∃ src rest, s.pending =
 .lifecycleSeal src :: rest ∧ s.sec.lifecycle = .turned ∧ u.sec.lifecycle = .sealed) ∨ (∃ src k rest, s.pending = .lifecycleDecommission src k :: rest ∧ (s.sec.lifecycle = .turned ∨ s.sec.lifecycle =
 .sealed) ∧ u.sec.lifecycle = .parted)) ∧
 (step s = .next u → u.sec.keyGens = s.sec.keyGens ∨ (∃ src r rest g, s.pending = .lifecycleTurn src r :: rest ∧ s.sec.keyGens.length < 16 ∧ u.sec.keyGens = g :: s.sec.keyGens))

/-- Firings of one instant are taken by kind, and within a kind by entry number (02 R70). -/
def Obligations.FiringsAtOneInstantKeepTheirOrder : Prop := ∀ (s : State) (t n : Nat) (a : ArmedFiring),
 (kindOrder 6 < kindOrder 3 ∧ kindOrder 3 < kindOrder 1 ∧ kindOrder 1 = kindOrder 2 ∧ kindOrder 2 < kindOrder 4 ∧ kindOrder 4 < kindOrder 5 ∧ kindOrder 5 < kindOrder 7) ∧
 (n < 1024 → (∀ a ∈ s.table.armed, a.entry < 1024) → (∀ a ∈ s.table.armed, a.entry = n → ∃ b ∈ s.table.armed, Ahead b a) → exec (.modeChange t n) s = .next (s.atTime t) ∧ exec (.icvWindow t n) s =
 .next (s.atTime t) ∧ exec (.sampleStrobe t n) s = .next (s.atTime t) ∧ exec (.sarSequence t n) s = .next (s.atTime t) ∧ exec (.soundingStep t n) s = .next (s.atTime t) ∧ exec (.graphCycle t n) s =
 .next (s.atTime t) ∧ exec (.triggerOut t n) s = .next (s.atTime t)) ∧
 (a ∈ s.table.armed → (∀ b ∈ s.table.armed, b.entry < 1024) → a.t0 ≤ s.now → (∀ b ∈ s.table.armed, ¬ Ahead b a) → (∀ b ∈ s.table.armed, b.entry = a.entry → b = a) → s.dueFiring a.entry a.content.kind
 = some a)

/-- A write to a tide table entry leaves its armed firing with the old contents (02 R73). -/
def Obligations.AWriteLeavesAnArmedFiringItsOldContents : Prop := ∀ (s u : State) (src : Source) (n t k pos : Nat) (w : BitVec 256) (e : TideEntry),
 (Taken s src 0x0402 → exec (.tideEntrySet src n w) s = .next u → ∀ a ∈ s.table.armed, ∃ b ∈ u.table.armed, b.entry = a.entry ∧ b.k = a.k ∧ b.pos = a.pos ∧ b.t0 = a.t0 ∧ b.content = a.content) ∧
 (n < 1024 → ∃ u v, exec (.triggerOut t n) s = .next u ∧ exec (.triggerOut t n) (s.setEntry n e) = .next v ∧ v.tsout = u.tsout ∧ v.table.armed = u.table.armed) ∧
 (n < 1024 → ∃ u v, exec (.sarSequence t n) s = .next u ∧ exec (.sarSequence t n) (s.setEntry n e) = .next v ∧ v.ana = u.ana ∧ v.table.armed = u.table.armed) ∧
 (exec (.tideFiringArmed t n k pos) s = .next u → ∀ a ∈ u.table.armed, a ∉ s.table.armed → a.entry = n ∧ a.content = s.entry n)

/-- A DAC that changes its range drives code 0 for 20 µs before the written code (04 R129). -/
def Obligations.ARangeChangeDrivesZeroFirst : Prop := ∀ (s : State) (src : Source) (k r c e t : Nat),
 (Taken s src 0x0902 → k < 8 → r < 2 → c < 65536 → (s.dac k).source = .path src.path → r ≠ (s.dac k).range → ∃ u, exec (.dacSet src k r c) s = .next u ∧ (u.dac k).range = r ∧ (u.dac k).code = 0 ∧
 (u.dac k).stored = c ∧ (u.dac k).settleUntil = some (s.now + 20000)) ∧
 (Taken s src 0x0902 → k < 8 → (s.dac k).range < 2 → c < 65536 → (s.dac k).source = .path src.path → (s.dac k).settleUntil = some e → ∃ u, exec (.dacSet src k (s.dac k).range c) s = .next u ∧ (u.dac
 k).range = (s.dac k).range ∧ (u.dac k).code = (s.dac k).code ∧ (u.dac k).stored = c ∧ (u.dac k).settleUntil = some e) ∧
 (k < 8 → (s.dac k).settleUntil = some e → e ≤ (s.atTime t).now → ∃ u, exec (.dacRangeSettle t k) s = .next u ∧ (u.dac k).code = (s.dac k).stored ∧ (u.dac k).range = (s.dac k).range ∧ (u.dac
 k).settleUntil = none ∧ (∀ j, j ≠ k → u.dac j = s.dac j)) ∧
 (k < 8 → (s.dac k).settleUntil = some e → (s.atTime t).now < e → exec (.dacRangeSettle t k) s = .next (s.atTime t))

/-- LANE.FAULT_CLEAR moves a TRIPPED lane to DISARMED, or is refused with LATCHED or CONTACTOR_FAULT (05 R163). -/
def Obligations.FaultClearMovesATrippedLaneOrRefuses : Prop := ∀ (s : State) (src : Source) (n : Nat) (ack : Bool),
 (Taken s src 0x0B07 → n < 8 → (s.lane n).state = .tripped → !s.latched n → (s.lane n).allOpen = true → (!(s.lane n).kNeg.weld ∧ !(s.lane n).kNeg.weldSuspect ∧ !(s.lane n).kPos.weld ∧ !(s.lane
 n).kPos.weldSuspect ∧ !(s.lane n).kPre.weld ∧ !(s.lane n).kPre.weldSuspect) ∨ ack = true → ∃ u, exec (.laneFaultClear src n ack) s = .next u ∧ Replied s u src 0x0B07 stOk [] ∧ (u.lane n).state =
 .disarmed ∧ (∀ m, m ≠ n → u.lane m = s.lane m)) ∧
 (Taken s src 0x0B07 → n < 8 → (s.lane n).state = .tripped → s.latched n = true → ∃ u, exec (.laneFaultClear src n ack) s = .next u ∧ Refused s u src 0x0B07 stLatched) ∧
 (Taken s src 0x0B07 → n < 8 → (s.lane n).state = .tripped → !s.latched n → !(s.lane n).allOpen ∨ (!ack ∧ ((s.lane n).kNeg.weld = true ∨ (s.lane n).kNeg.weldSuspect = true ∨ (s.lane n).kPos.weld =
 true ∨ (s.lane n).kPos.weldSuspect = true ∨ (s.lane n).kPre.weld = true ∨ (s.lane n).kPre.weldSuspect = true)) → ∃ u, exec (.laneFaultClear src n ack) s = .next u ∧ Refused s u src 0x0B07
 stContactorFault)

/-- Creating a queue sets PI and CI to 0, and neither creating nor destroying one touches its ring's memory (13 R377). -/
def Obligations.AQueueIsCreatedEmptyAndItsRingIsNotCleared : Prop := ∀ (s u : State) (src : Source) (q k prod cons thr b a : Nat),
 (Taken s src 0x1C01 → QueueAsked s q k prod cons thr → s.mbox.hostLinked = true ∨ (prod = 1 ∧ cons = 1) → lowestFree ringRegion ringBytes (64 * 2 ^ k) (64 * 2 ^ k) s.rings = some b → ∃ u, exec
 (.queueCreate src q k prod cons thr) s = .next u ∧ Replied s u src 0x1C01 stOk [f8 b] ∧ (q ≠ 17 + 2 * src.box → (u.queue q).k = k ∧ (u.queue q).base = b ∧ (u.queue q).pi = 0 ∧ (u.queue q).ci = 0 ∧
 (u.queue q).fill = 0) ∧ (src.path ≠ .pcie → u.fab.lpddr = s.fab.lpddr ∧ u.fab.sram = s.fab.sram)) ∧
 (Taken s src 0x1C02 → 1024 ≤ q → q < 32768 → (s.queue q).owner = 0 → (s.queue q).k ≠ 0 → !s.cqUsed q → src.path ≠ .pcie → ∃ u, exec (.queueDestroy src q) s = .next u ∧ Replied s u src 0x1C02 stOk []
 ∧ (u.queue q).k = 0 ∧ u.fab.lpddr = s.fab.lpddr ∧ u.fab.sram = s.fab.sram) ∧
 (Taken s src 0x1C01 → exec (.queueCreate src q k prod cons thr) s = .next u → q ≠ 17 + 2 * src.box → (∀ i, ¬ ((s.queue (17 + 2 * src.box)).slotAddr i ≤ a ∧ a < (s.queue (17 + 2 * src.box)).slotAddr
 i + 64)) → readByte u.fab.lpddr a = readByte s.fab.lpddr a) ∧
 (Taken s src 0x1C02 → exec (.queueDestroy src q) s = .next u → q ≠ 17 + 2 * src.box → (∀ i, ¬ ((s.queue (17 + 2 * src.box)).slotAddr i ≤ a ∧ a < (s.queue (17 + 2 * src.box)).slotAddr i + 64)) →
 readByte u.fab.lpddr a = readByte s.fab.lpddr a)

/-- For every command, the gate of its mailbox refuses it or leaves it waiting as the spec orders (06 R198, R199; 10 R293; 14
R399, R402, R403, R406; 17 R464, R470, R474; 18 R493). -/
def Obligations.TheGateRefusesBeforeACommandsOwnChecks : Prop := ∀ (s : State) (c : Instr) (src : Source) (code : Nat),
 (c.asked = some (src, code) → (!s.mbox.ready ∧ !s.sec.recovery) ∨ s.power.state = .bareRock ∨ (s.box src.path src.box).executing ≠ none ∨ (s.box src.path src.box).waiting ≠ [] ∨ (s.sec.recovery =
 true ∧ ¬ (src.path = .service ∧ recoveryCodes.contains code = true)) → exec c s = .next s) ∧
 (c.asked = some (src, code) → AtTheGate s src code → serviceCodes.contains code = true → src.path ≠ .service → ∃ u, exec c s = .next u ∧ Refused s u src code stServiceOnly) ∧
 (c.asked = some (src, code) → AtTheGate s src code → (serviceCodes.contains code = true → src.path = .service) → !lifecycleAllows s.sec.lifecycle src.path code → ∃ u, exec c s = .next u ∧ Refused s
 u src code stPathRefused) ∧
 (c.asked = some (src, code) → AtTheGate s src code → (serviceCodes.contains code = true → src.path = .service) → lifecycleAllows s.sec.lifecycle src.path code = true → s.sec.debug = .invasive →
 invasiveRefused.contains code = true → ∃ u, exec c s = .next u ∧ Refused s u src code stPathRefused) ∧
 (PathAllows s c src code → !isStatus code → s.power.state = .beached → ∃ u, exec c s = .next u ∧ Refused s u src code stBeached) ∧
 (PathAllows s c src code → !isStatus code → s.power.state ≠ .beached → s.power.beach ≠ none ∨ (s.power.part ≠ none ∧ code ≠ 0x0105) → ∃ u, exec c s = .next u ∧ Refused s u src code stBusy) ∧
 (PathAllows s c src code → !isStatus code → s.power.state ≠ .beached → s.power.beach = none → (s.power.part = none ∨ code = 0x0105) → src.path = .garzet → s.net.berth = none → ∃ u, exec c s = .next
 u ∧ Refused s u src code stNoBerth)

/-- The payload laid out from a command's fields is read back as that command, whatever its fields hold (14 R401, R424, R425).
-/
def Obligations.PayloadsSpellTheirCommands : Prop := ∀ (src : Source) (code ip len : Nat) (c : Instr) (fs : List Field) (cert key : List Byte) (revoked : List (List Byte)),
 (c.asked = some (src, code) → requestFields c = some fs → fs.all Field.fits → commandOf src code (layOut fs) = some c) ∧
 (cert.length < 65536 → key.length = 32 → revoked.length < 65536 → (∀ x ∈ revoked, x.length = 20) → ip < 2 ^ 32 → len < 256 → commandOf src 0x2102 (layOut (listed (cert.map fun b => f1 b.toNat) ++
 key.map (fun b => f1 b.toNat) ++ f2 revoked.length :: revoked.flatten.map (fun b => f1 b.toNat) ++ [f4 ip, f1 len])) = some (.lifecycleTurn src {
 root := ofLe cert, rootIsCa := decide (cert.length ≤ 2048) && Config.isP384Ca cert, delivery := ofLe key, revoked := revoked.map ofLe, ipv4 := ip, prefixLen := len }))

/-- Whatever payload comes with a code, what it spells is a command of that code from that sender (14 R399, R424). -/
def Obligations.EveryPayloadSpellsItsOwnCode : Prop := ∀ (src : Source) (code : Nat) (b : List Byte) (c : Instr),
 (commandOf src code b = some c → c.asked = some (src, code) ∧ isCommand code = true) ∧
 (c.asked = some (src, code) → isCommand code = true ∧ code < 65536)
end

