-- ==== Sys2Proof/Laws/Dispatch.lean ====
section
/-! SUPPORT. The meaning that each command runs. -/

namespace Sys2Proof.Machine

open Sys2Proof
set_option Elab.async false

theorem exec_moduleIdentify (s : State) (src) : exec (.moduleIdentify src) s = execModuleIdentify src s := rfl
theorem exec_moduleStatus (s : State) (src) : exec (.moduleStatus src) s = execModuleStatus src s := rfl
theorem exec_moduleBeach (s : State) (src) : exec (.moduleBeach src) s = execModuleBeach src s := rfl
theorem exec_modulePart (s : State) (src) : exec (.modulePart src) s = execModulePart src s := rfl
theorem exec_moduleRestart (s : State) (src) : exec (.moduleRestart src) s = execModuleRestart src s := rfl
theorem exec_mboxNop (s : State) (src data) : exec (.mboxNop src data) s = execMboxNop src data s := rfl
theorem exec_mboxStatus (s : State) (src) : exec (.mboxStatus src) s = execMboxStatus src s := rfl
theorem exec_mboxCountersRead (s : State) (src clear) : exec (.mboxCountersRead src clear) s = execMboxCountersRead src clear s := rfl
theorem exec_timeStatus (s : State) (src) : exec (.timeStatus src) s = execTimeStatus src s := rfl
theorem exec_timeServoSet (s : State) (src p) : exec (.timeServoSet src p) s = execTimeServoSet src p s := rfl
theorem exec_timeTriggerSet (s : State) (src output mode start period width) : exec (.timeTriggerSet src output mode start period width) s = execTimeTriggerSet src output mode start period width s := rfl
theorem exec_timeCaptureRead (s : State) (src input max) : exec (.timeCaptureRead src input max) s = execTimeCaptureRead src input max s := rfl
theorem exec_tideStatus (s : State) (src) : exec (.tideStatus src) s = execTideStatus src s := rfl
theorem exec_tideEntrySet (s : State) (src entry w) : exec (.tideEntrySet src entry w) s = execTideEntrySet src entry w s := rfl
theorem exec_tideEntryRead (s : State) (src entry) : exec (.tideEntryRead src entry) s = execTideEntryRead src entry s := rfl
theorem exec_lighthouseConfig (s : State) (src c) : exec (.lighthouseConfig src c) s = execLighthouseConfig src c s := rfl
theorem exec_tapStatus (s : State) (src port) : exec (.tapStatus src port) s = execTapStatus src port s := rfl
theorem exec_tapTrimSet (s : State) (src port asym) : exec (.tapTrimSet src port asym) s = execTapTrimSet src port asym s := rfl
theorem exec_tapLimitsSet (s : State) (src target ov uv ot cells temps) : exec (.tapLimitsSet src target ov uv ot cells temps) s = execTapLimitsSet src target ov uv ot cells temps s := rfl
theorem exec_tapRetrain (s : State) (src port) : exec (.tapRetrain src port) s = execTapRetrain src port s := rfl
theorem exec_tapCountersRead (s : State) (src port clear) : exec (.tapCountersRead src port clear) s = execTapCountersRead src port clear s := rfl
theorem exec_analogInputSet (s : State) (src input cls scale handle) : exec (.analogInputSet src input cls scale handle) s = execAnalogInputSet src input cls scale handle s := rfl
theorem exec_analogTableSet (s : State) (src conv table entries queue) : exec (.analogTableSet src conv table entries queue) s = execAnalogTableSet src conv table entries queue s := rfl
theorem exec_analogTableStart (s : State) (src conv table) : exec (.analogTableStart src conv table) s = execAnalogTableStart src conv table s := rfl
theorem exec_analogConvert (s : State) (src input urgent) : exec (.analogConvert src input urgent) s = execAnalogConvert src input urgent s := rfl
theorem exec_analogRead (s : State) (src inputs) : exec (.analogRead src inputs) s = execAnalogRead src inputs s := rfl
theorem exec_analogCalPoint (s : State) (src target full value) : exec (.analogCalPoint src target full value) s = execAnalogCalPoint src target full value s := rfl
theorem exec_analogCalCommit (s : State) (src inputs icvs all) : exec (.analogCalCommit src inputs icvs all) s = execAnalogCalCommit src inputs icvs all s := rfl
theorem exec_analogCalRead (s : State) (src target) : exec (.analogCalRead src target) s = execAnalogCalRead src target s := rfl
theorem exec_analogCountersRead (s : State) (src conv clear) : exec (.analogCountersRead src conv clear) s = execAnalogCountersRead src conv clear s := rfl
theorem exec_icvStatus (s : State) (src lane) : exec (.icvStatus src lane) s = execIcvStatus src lane s := rfl
theorem exec_icvReset (s : State) (src lane) : exec (.icvReset src lane) s = execIcvReset src lane s := rfl
theorem exec_dacConfig (s : State) (src out source safeCode range) : exec (.dacConfig src out source safeCode range) s = execDacConfig src out source safeCode range s := rfl
theorem exec_dacSet (s : State) (src out range code) : exec (.dacSet src out range code) s = execDacSet src out range code s := rfl
theorem exec_tachConfig (s : State) (src input falling pair ppr filter standstill) : exec (.tachConfig src input falling pair ppr filter standstill) s = execTachConfig src input falling pair ppr filter standstill s := rfl
theorem exec_tachRead (s : State) (src inputs) : exec (.tachRead src inputs) s = execTachRead src inputs s := rfl
theorem exec_laneConfig (s : State) (src lane c) : exec (.laneConfig src lane c) s = execLaneConfig src lane c s := rfl
theorem exec_laneLoopSet (s : State) (src lane g) : exec (.laneLoopSet src lane g) s = execLaneLoopSet src lane g s := rfl
theorem exec_laneArm (s : State) (src lane) : exec (.laneArm src lane) s = execLaneArm src lane s := rfl
theorem exec_laneDisarm (s : State) (src lane) : exec (.laneDisarm src lane) s = execLaneDisarm src lane s := rfl
theorem exec_laneSetpoint (s : State) (src lane v) : exec (.laneSetpoint src lane v) s = execLaneSetpoint src lane v s := rfl
theorem exec_laneStatus (s : State) (src lane) : exec (.laneStatus src lane) s = execLaneStatus src lane s := rfl
theorem exec_laneFaultClear (s : State) (src lane ack) : exec (.laneFaultClear src lane ack) s = execLaneFaultClear src lane ack s := rfl
theorem exec_laneCountersRead (s : State) (src lane clear) : exec (.laneCountersRead src lane clear) s = execLaneCountersRead src lane clear s := rfl
theorem exec_modelParamLoad (s : State) (src typ bytes) : exec (.modelParamLoad src typ bytes) s = execModelParamLoad src typ bytes s := rfl
theorem exec_modelParamRead (s : State) (src typ) : exec (.modelParamRead src typ) s = execModelParamRead src typ s := rfl
theorem exec_modelAssign (s : State) (src port types sensors) : exec (.modelAssign src port types sensors) s = execModelAssign src port types sensors s := rfl
theorem exec_modelCellRead (s : State) (src port first count) : exec (.modelCellRead src port first count) s = execModelCellRead src port first count s := rfl
theorem exec_modelStatus (s : State) (src lane) : exec (.modelStatus src lane) s = execModelStatus src lane s := rfl
theorem exec_modelLearnSet (s : State) (src native hours) : exec (.modelLearnSet src native hours) s = execModelLearnSet src native hours s := rfl
theorem exec_modelLearnedRead (s : State) (src port) : exec (.modelLearnedRead src port) s = execModelLearnedRead src port s := rfl
theorem exec_modelLearnedWrite (s : State) (src port bytes) : exec (.modelLearnedWrite src port bytes) s = execModelLearnedWrite src port bytes s := rfl
theorem exec_modelCommit (s : State) (src) : exec (.modelCommit src) s = execModelCommit src s := rfl
theorem exec_modelRoughCommand (s : State) (src target keep) : exec (.modelRoughCommand src target keep) s = execModelRoughCommand src target keep s := rfl
theorem exec_modelPowerSet (s : State) (src on) : exec (.modelPowerSet src on) s = execModelPowerSet src on s := rfl
theorem exec_modelCountersRead (s : State) (src port clear) : exec (.modelCountersRead src port clear) s = execModelCountersRead src port clear s := rfl
theorem exec_soundSchedule (s : State) (src r) : exec (.soundSchedule src r) s = execSoundSchedule src r s := rfl
theorem exec_soundCancel (s : State) (src lane set_ step) : exec (.soundCancel src lane set_ step) s = execSoundCancel src lane set_ step s := rfl
theorem exec_soundStatus (s : State) (src lane) : exec (.soundStatus src lane) s = execSoundStatus src lane s := rfl
theorem exec_soundResultRead (s : State) (src lane set_ step port) : exec (.soundResultRead src lane set_ step port) s = execSoundResultRead src lane set_ step port s := rfl
theorem exec_springStart (s : State) (src lane iChg iDis cvGain maxHours) : exec (.springStart src lane iChg iDis cvGain maxHours) s = execSpringStart src lane iChg iDis cvGain maxHours s := rfl
theorem exec_springStop (s : State) (src lane) : exec (.springStop src lane) s = execSpringStop src lane s := rfl
theorem exec_springStatus (s : State) (src lane) : exec (.springStatus src lane) s = execSpringStatus src lane s := rfl
theorem exec_springRosterSet (s : State) (src share interval) : exec (.springRosterSet src share interval) s = execSpringRosterSet src share interval s := rfl
theorem exec_springRosterRead (s : State) (src) : exec (.springRosterRead src) s = execSpringRosterRead src s := rfl
theorem exec_balanceConfig (s : State) (src lane r) : exec (.balanceConfig src lane r) s = execBalanceConfig src lane r s := rfl
theorem exec_balanceStatus (s : State) (src lane) : exec (.balanceStatus src lane) s = execBalanceStatus src lane s := rfl
theorem exec_balanceTest (s : State) (src cell) : exec (.balanceTest src cell) s = execBalanceTest src cell s := rfl
theorem exec_balanceTestRead (s : State) (src port) : exec (.balanceTestRead src port) s = execBalanceTestRead src port s := rfl
theorem exec_thermalLimitsSet (s : State) (src lane r) : exec (.thermalLimitsSet src lane r) s = execThermalLimitsSet src lane r s := rfl
theorem exec_thermalStatus (s : State) (src lane) : exec (.thermalStatus src lane) s = execThermalStatus src lane s := rfl
theorem exec_coolingLoopSet (s : State) (src loop c) : exec (.coolingLoopSet src loop c) s = execCoolingLoopSet src loop c s := rfl
theorem exec_coolingOutputSet (s : State) (src out source freq safeDuty) : exec (.coolingOutputSet src out source freq safeDuty) s = execCoolingOutputSet src out source freq safeDuty s := rfl
theorem exec_coolingDutySet (s : State) (src out duty) : exec (.coolingDutySet src out duty) s = execCoolingDutySet src out duty s := rfl
theorem exec_coolingStatus (s : State) (src loop) : exec (.coolingStatus src loop) s = execCoolingStatus src loop s := rfl
theorem exec_dieStatus (s : State) (src) : exec (.dieStatus src) s = execDieStatus src s := rfl
theorem exec_safetyStatus (s : State) (src) : exec (.safetyStatus src) s = execSafetyStatus src s := rfl
theorem exec_safetyLimitsSet (s : State) (src lane ov uv plt) : exec (.safetyLimitsSet src lane ov uv plt) s = execSafetyLimitsSet src lane ov uv plt s := rfl
theorem exec_safetyOcSet (s : State) (src lane str ph filt) : exec (.safetyOcSet src lane str ph filt) s = execSafetyOcSet src lane str ph filt s := rfl
theorem exec_safetyIoSet (s : State) (src disc fireEn masks) : exec (.safetyIoSet src disc fireEn masks) s = execSafetyIoSet src disc fireEn masks s := rfl
theorem exec_safetyChannelSet (s : State) (src hb) : exec (.safetyChannelSet src hb) s = execSafetyChannelSet src hb s := rfl
theorem exec_safetyLinkSet (s : State) (src l) : exec (.safetyLinkSet src l) s = execSafetyLinkSet src l s := rfl
theorem exec_safetyLinkStatus (s : State) (src sender link) : exec (.safetyLinkStatus src sender link) s = execSafetyLinkStatus src sender link s := rfl
theorem exec_safetyWindowSet (s : State) (src source n w) : exec (.safetyWindowSet src source n w) s = execSafetyWindowSet src source n w s := rfl
theorem exec_safetyBareRock (s : State) (src) : exec (.safetyBareRock src) s = execSafetyBareRock src s := rfl
theorem exec_safetyCountersRead (s : State) (src clear) : exec (.safetyCountersRead src clear) s = execSafetyCountersRead src clear s := rfl
theorem exec_netStatus (s : State) (src) : exec (.netStatus src) s = execNetStatus src s := rfl
theorem exec_netCountersRead (s : State) (src clear) : exec (.netCountersRead src clear) s = execNetCountersRead src clear s := rfl
theorem exec_berthStatus (s : State) (src) : exec (.berthStatus src) s = execBerthStatus src s := rfl
theorem exec_estateMapLoad (s : State) (src entries) : exec (.estateMapLoad src entries) s = execEstateMapLoad src entries s := rfl
theorem exec_estateChangePropose (s : State) (src p) : exec (.estateChangePropose src p) s = execEstateChangePropose src p s := rfl
theorem exec_estateChangeStatus (s : State) (src id) : exec (.estateChangeStatus src id) s = execEstateChangeStatus src id s := rfl
theorem exec_estateChangeAbandon (s : State) (src id) : exec (.estateChangeAbandon src id) s = execEstateChangeAbandon src id s := rfl
theorem exec_roleTableRead (s : State) (src first count) : exec (.roleTableRead src first count) s = execRoleTableRead src first count s := rfl
theorem exec_roleResolve (s : State) (src role) : exec (.roleResolve src role) s = execRoleResolve src role s := rfl
theorem exec_tenantLoad (s : State) (src slot role offset bytes last) : exec (.tenantLoad src slot role offset bytes last) s = execTenantLoad src slot role offset bytes last s := rfl
theorem exec_tenantUnload (s : State) (src slot) : exec (.tenantUnload src slot) s = execTenantUnload src slot s := rfl
theorem exec_tenantStop (s : State) (src slot) : exec (.tenantStop src slot) s = execTenantStop src slot s := rfl
theorem exec_tenantStart (s : State) (src slot) : exec (.tenantStart src slot) s = execTenantStart src slot s := rfl
theorem exec_tenantStatus (s : State) (src slot) : exec (.tenantStatus src slot) s = execTenantStatus src slot s := rfl
theorem exec_tenantCountersRead (s : State) (src slot clear) : exec (.tenantCountersRead src slot clear) s = execTenantCountersRead src slot clear s := rfl
theorem exec_graphActivate (s : State) (src slot n) : exec (.graphActivate src slot n) s = execGraphActivate src slot n s := rfl
theorem exec_graphDiscard (s : State) (src slot) : exec (.graphDiscard src slot) s = execGraphDiscard src slot s := rfl
theorem exec_graphVarRead (s : State) (src slot first count) : exec (.graphVarRead src slot first count) s = execGraphVarRead src slot first count s := rfl
theorem exec_graphGroupSet (s : State) (src group offset) : exec (.graphGroupSet src group offset) s = execGraphGroupSet src group offset s := rfl
theorem exec_graphEnginesRead (s : State) (src) : exec (.graphEnginesRead src) s = execGraphEnginesRead src s := rfl
theorem exec_signalRead (s : State) (src estate handles) : exec (.signalRead src estate handles) s = execSignalRead src estate handles s := rfl
theorem exec_signalConfig (s : State) (src delay refresh) : exec (.signalConfig src delay refresh) s = execSignalConfig src delay refresh s := rfl
theorem exec_pairRoleSet (s : State) (src a) : exec (.pairRoleSet src a) s = execPairRoleSet src a s := rfl
theorem exec_pairStatus (s : State) (src role) : exec (.pairStatus src role) s = execPairStatus src role s := rfl
theorem exec_pairSwapHelm (s : State) (src role) : exec (.pairSwapHelm src role) s = execPairSwapHelm src role s := rfl
theorem exec_pairCompareSet (s : State) (src dutyTol outTol socTol) : exec (.pairCompareSet src dutyTol outTol socTol) s = execPairCompareSet src dutyTol outTol socTol s := rfl
theorem exec_pairCountersRead (s : State) (src role clear) : exec (.pairCountersRead src role clear) s = execPairCountersRead src role clear s := rfl
theorem exec_queueCreate (s : State) (src q k prod cons thr) : exec (.queueCreate src q k prod cons thr) s = execQueueCreate src q k prod cons thr s := rfl
theorem exec_queueDestroy (s : State) (src q) : exec (.queueDestroy src q) s = execQueueDestroy src q s := rfl
theorem exec_queueThresholdSet (s : State) (src q thr) : exec (.queueThresholdSet src q thr) s = execQueueThresholdSet src q thr s := rfl
theorem exec_queueStatus (s : State) (src q) : exec (.queueStatus src q) s = execQueueStatus src q s := rfl
theorem exec_dmaChannelSet (s : State) (src ch owner prio win) : exec (.dmaChannelSet src ch owner prio win) s = execDmaChannelSet src ch owner prio win s := rfl
theorem exec_dmaStart (s : State) (src ch addr) : exec (.dmaStart src ch addr) s = execDmaStart src ch addr s := rfl
theorem exec_dmaDoorbell (s : State) (src ch) : exec (.dmaDoorbell src ch) s = execDmaDoorbell src ch s := rfl
theorem exec_dmaAbort (s : State) (src ch) : exec (.dmaAbort src ch) s = execDmaAbort src ch s := rfl
theorem exec_dmaStatus (s : State) (src ch) : exec (.dmaStatus src ch) s = execDmaStatus src ch s := rfl
theorem exec_dmaCountersRead (s : State) (src ch clear) : exec (.dmaCountersRead src ch clear) s = execDmaCountersRead src ch clear s := rfl
theorem exec_canConfig (s : State) (src ctl c) : exec (.canConfig src ctl c) s = execCanConfig src ctl c s := rfl
theorem exec_canFilterSet (s : State) (src ctl k f) : exec (.canFilterSet src ctl k f) s = execCanFilterSet src ctl k f s := rfl
theorem exec_canSend (s : State) (src ctl buf abort f) : exec (.canSend src ctl buf abort f) s = execCanSend src ctl buf abort f s := rfl
theorem exec_canReceive (s : State) (src ctl which max) : exec (.canReceive src ctl which max) s = execCanReceive src ctl which max s := rfl
theorem exec_canRecover (s : State) (src ctl) : exec (.canRecover src ctl) s = execCanRecover src ctl s := rfl
theorem exec_canStatus (s : State) (src ctl) : exec (.canStatus src ctl) s = execCanStatus src ctl s := rfl
theorem exec_canTimeMasterSet (s : State) (src ctl on m) : exec (.canTimeMasterSet src ctl on m) s = execCanTimeMasterSet src ctl on m s := rfl
theorem exec_canCountersRead (s : State) (src ctl clear) : exec (.canCountersRead src ctl clear) s = execCanCountersRead src ctl clear s := rfl
theorem exec_storeStatus (s : State) (src) : exec (.storeStatus src) s = execStoreStatus src s := rfl
theorem exec_storeScrub (s : State) (src) : exec (.storeScrub src) s = execStoreScrub src s := rfl
theorem exec_storeHoldupMeasure (s : State) (src) : exec (.storeHoldupMeasure src) s = execStoreHoldupMeasure src s := rfl
theorem exec_storeWearRead (s : State) (src dev) : exec (.storeWearRead src dev) s = execStoreWearRead src dev s := rfl
theorem exec_eventStatus (s : State) (src) : exec (.eventStatus src) s = execEventStatus src s := rfl
theorem exec_eventRead (s : State) (src first count) : exec (.eventRead src first count) s = execEventRead src first count s := rfl
theorem exec_lifecycleStatus (s : State) (src) : exec (.lifecycleStatus src) s = execLifecycleStatus src s := rfl
theorem exec_lifecycleTurn (s : State) (src r) : exec (.lifecycleTurn src r) s = execLifecycleTurn src r s := rfl
theorem exec_lifecycleSeal (s : State) (src) : exec (.lifecycleSeal src) s = execLifecycleSeal src s := rfl
theorem exec_lifecycleDecommission (s : State) (src serial) : exec (.lifecycleDecommission src serial) s = execLifecycleDecommission src serial s := rfl
theorem exec_debugStatus (s : State) (src) : exec (.debugStatus src) s = execDebugStatus src s := rfl
theorem exec_debugLevelSet (s : State) (src level) : exec (.debugLevelSet src level) s = execDebugLevelSet src level s := rfl
theorem exec_updateStatus (s : State) (src) : exec (.updateStatus src) s = execUpdateStatus src s := rfl
theorem exec_updateImageWrite (s : State) (src offset bytes last gapOk) : exec (.updateImageWrite src offset bytes last gapOk) s = execUpdateImageWrite src offset bytes last gapOk s := rfl
theorem exec_updateReboot (s : State) (src trial) : exec (.updateReboot src trial) s = execUpdateReboot src trial s := rfl
theorem exec_powerStatus (s : State) (src) : exec (.powerStatus src) s = execPowerStatus src s := rfl
theorem exec_intStatusWrite (s : State) (t v) : exec (.intStatusWrite t v) s = execIntStatusWrite t v s := rfl
theorem exec_mailboxEnableWrite (s : State) (t m on) : exec (.mailboxEnableWrite t m on) s = execMailboxEnableWrite t m on s := rfl
theorem exec_mailboxResetWrite (s : State) (t m) : exec (.mailboxResetWrite t m) s = execMailboxResetWrite t m s := rfl
theorem exec_timeLoRead (s : State) (t) : exec (.timeLoRead t) s = execTimeLoRead t s := rfl
theorem exec_queueDoorbellPi (s : State) (t q v) : exec (.queueDoorbellPi t q v) s = execQueueDoorbellPi t q v s := rfl
theorem exec_queueDoorbellCi (s : State) (t q v) : exec (.queueDoorbellCi t q v) s = execQueueDoorbellCi t q v s := rfl
theorem exec_channelDoorbellRing (s : State) (t c) : exec (.channelDoorbellRing t c) s = execChannelDoorbellRing t c s := rfl
theorem exec_channelDoorbellAbort (s : State) (t c) : exec (.channelDoorbellAbort t c) s = execChannelDoorbellAbort t c s := rfl
theorem exec_queueNoticePendingWrite (s : State) (t word v) : exec (.queueNoticePendingWrite t word v) s = execQueueNoticePendingWrite t word v s := rfl
theorem exec_bar2Access (s : State) (t write offset data len) : exec (.bar2Access t write offset data len) s = execBar2Access t write offset data len s := rfl
theorem exec_registerWrite (s : State) (t offset v size) : exec (.registerWrite t offset v size) s = execRegisterWrite t offset v size s := rfl
theorem exec_pcieFunctionReset (s : State) (t) : exec (.pcieFunctionReset t) s = execPcieFunctionReset t s := rfl
theorem exec_requestTake (s : State) (t path box) : exec (.requestTake t path box) s = execRequestTake t path box s := rfl
theorem exec_respRoom (s : State) (t m) : exec (.respRoom t m) s = execRespRoom t m s := rfl
theorem exec_serviceMessage (s : State) (t session bytes) : exec (.serviceMessage t session bytes) s = execServiceMessage t session bytes s := rfl
theorem exec_mailboxClose (s : State) (t berth) : exec (.mailboxClose t berth) s = execMailboxClose t berth s := rfl
theorem exec_requestTimeout (s : State) (t corr) : exec (.requestTimeout t corr) s = execRequestTimeout t corr s := rfl
theorem exec_heartbeat (s : State) (t) : exec (.heartbeat t) s = execHeartbeat t s := rfl
theorem exec_ptpSync (s : State) (t lan m) : exec (.ptpSync t lan m) s = execPtpSync t lan m s := rfl
theorem exec_ptpAnnounce (s : State) (t lan a) : exec (.ptpAnnounce t lan a) s = execPtpAnnounce t lan a s := rfl
theorem exec_ptpDelayResp (s : State) (t lan m) : exec (.ptpDelayResp t lan m) s = execPtpDelayResp t lan m s := rfl
theorem exec_ptpSyncSend (s : State) (t lan insertOk) : exec (.ptpSyncSend t lan insertOk) s = execPtpSyncSend t lan insertOk s := rfl
theorem exec_servoLocked (s : State) (t) : exec (.servoLocked t) s = execServoLocked t s := rfl
theorem exec_servoOutliers (s : State) (t) : exec (.servoOutliers t) s = execServoOutliers t s := rfl
theorem exec_masterLost (s : State) (t) : exec (.masterLost t) s = execMasterLost t s := rfl
theorem exec_timeDisagree (s : State) (t) : exec (.timeDisagree t) s = execTimeDisagree t s := rfl
theorem exec_lighthouseSample (s : State) (t inst lane) : exec (.lighthouseSample t inst lane) s = execLighthouseSample t inst lane s := rfl
theorem exec_pllLock (s : State) (t) : exec (.pllLock t) s = execPllLock t s := rfl
theorem exec_pllUnlock (s : State) (t) : exec (.pllUnlock t) s = execPllUnlock t s := rfl
theorem exec_tidePublish (s : State) (t) : exec (.tidePublish t) s = execTidePublish t s := rfl
theorem exec_tideMessage (s : State) (t lan bytes) : exec (.tideMessage t lan bytes) s = execTideMessage t lan bytes s := rfl
theorem exec_lighthouseDisagree (s : State) (t) : exec (.lighthouseDisagree t) s = execLighthouseDisagree t s := rfl
theorem exec_instanceReturn (s : State) (t) : exec (.instanceReturn t) s = execInstanceReturn t s := rfl
theorem exec_instanceSilent (s : State) (t k) : exec (.instanceSilent t k) s = execInstanceSilent t k s := rfl
theorem exec_correctionEnd (s : State) (t) : exec (.correctionEnd t) s = execCorrectionEnd t s := rfl
theorem exec_tideRecount (s : State) (t) : exec (.tideRecount t) s = execTideRecount t s := rfl
theorem exec_tideFiringArmed (s : State) (t entry k pos) : exec (.tideFiringArmed t entry k pos) s = execTideFiringArmed t entry k pos s := rfl
theorem exec_sampleStrobe (s : State) (t entry) : exec (.sampleStrobe t entry) s = execSampleStrobe t entry s := rfl
theorem exec_sarSequence (s : State) (t entry) : exec (.sarSequence t entry) s = execSarSequence t entry s := rfl
theorem exec_icvWindow (s : State) (t entry) : exec (.icvWindow t entry) s = execIcvWindow t entry s := rfl
theorem exec_soundingStep (s : State) (t entry) : exec (.soundingStep t entry) s = execSoundingStep t entry s := rfl
theorem exec_graphCycle (s : State) (t entry) : exec (.graphCycle t entry) s = execGraphCycle t entry s := rfl
theorem exec_modeChange (s : State) (t entry) : exec (.modeChange t entry) s = execModeChange t entry s := rfl
theorem exec_triggerOut (s : State) (t entry) : exec (.triggerOut t entry) s = execTriggerOut t entry s := rfl
theorem exec_triggerTimePulse (s : State) (t out) : exec (.triggerTimePulse t out) s = execTriggerTimePulse t out s := rfl
theorem exec_pulseEnd (s : State) (t out) : exec (.pulseEnd t out) s = execPulseEnd t out s := rfl
theorem exec_tsinCapture (s : State) (t input rising widthNs) : exec (.tsinCapture t input rising widthNs) s = execTsinCapture t input rising widthNs s := rfl
theorem exec_tapData (s : State) (t port rx) : exec (.tapData t port rx) s = execTapData t port rx s := rfl
theorem exec_tapHello (s : State) (t port rx) : exec (.tapHello t port rx) s = execTapHello t port rx s := rfl
theorem exec_tapEchoReply (s : State) (t port rx) : exec (.tapEchoReply t port rx) s = execTapEchoReply t port rx s := rfl
theorem exec_alignLost (s : State) (t port) : exec (.alignLost t port) s = execAlignLost t port s := rfl
theorem exec_alignRegained (s : State) (t port) : exec (.alignRegained t port) s = execAlignRegained t port s := rfl
theorem exec_alignLostRetrain (s : State) (t port) : exec (.alignLostRetrain t port) s = execAlignLostRetrain t port s := rfl
theorem exec_tapAck (s : State) (t port rx) : exec (.tapAck t port rx) s = execTapAck t port rx s := rfl
theorem exec_tapFrameError (s : State) (t port rx) : exec (.tapFrameError t port rx) s = execTapFrameError t port rx s := rfl
theorem exec_missedFrame (s : State) (t port) : exec (.missedFrame t port) s = execMissedFrame t port s := rfl
theorem exec_tapStall (s : State) (t port) : exec (.tapStall t port) s = execTapStall t port s := rfl
theorem exec_commandWindow (s : State) (t port) : exec (.commandWindow t port) s = execCommandWindow t port s := rfl
theorem exec_trainingAttempt (s : State) (t port) : exec (.trainingAttempt t port) s = execTrainingAttempt t port s := rfl
theorem exec_trainingTimeout (s : State) (t port) : exec (.trainingTimeout t port) s = execTrainingTimeout t port s := rfl
theorem exec_trainingRetry (s : State) (t port) : exec (.trainingRetry t port) s = execTrainingRetry t port s := rfl
theorem exec_helmHolderMark (s : State) (t lane at_) : exec (.helmHolderMark t lane at_) s = execHelmHolderMark t lane at_ s := rfl
theorem exec_conversionComplete (s : State) (t conv code) : exec (.conversionComplete t conv code) s = execConversionComplete t conv code s := rfl
theorem exec_tableRunEnd (s : State) (t conv) : exec (.tableRunEnd t conv) s = execTableRunEnd t conv s := rfl
theorem exec_calPointResult (s : State) (t target) : exec (.calPointResult t target) s = execCalPointResult t target s := rfl
theorem exec_icvWord (s : State) (t lane count) : exec (.icvWord t lane count) s = execIcvWord t lane count s := rfl
theorem exec_beachedBusConversion (s : State) (t lane code) : exec (.beachedBusConversion t lane code) s = execBeachedBusConversion t lane code s := rfl
theorem exec_dacRangeSettle (s : State) (t out) : exec (.dacRangeSettle t out) s = execDacRangeSettle t out s := rfl
theorem exec_tachEdge (s : State) (t input pulse) : exec (.tachEdge t input pulse) s = execTachEdge t input pulse s := rfl
theorem exec_standstill (s : State) (t input) : exec (.standstill t input) s = execStandstill t input s := rfl
theorem exec_pwmPeriodStart (s : State) (t lane phase) : exec (.pwmPeriodStart t lane phase) s = execPwmPeriodStart t lane phase s := rfl
theorem exec_loopSampleLost (s : State) (t lane) : exec (.loopSampleLost t lane) s = execLoopSampleLost t lane s := rfl
theorem exec_busRange (s : State) (t lane) : exec (.busRange t lane) s = execBusRange t lane s := rfl
theorem exec_armSequenceStep (s : State) (t lane) : exec (.armSequenceStep t lane) s = execArmSequenceStep t lane s := rfl
theorem exec_prechargeShort (s : State) (t lane) : exec (.prechargeShort t lane) s = execPrechargeShort t lane s := rfl
theorem exec_disarmSequenceStep (s : State) (t lane) : exec (.disarmSequenceStep t lane) s = execDisarmSequenceStep t lane s := rfl
theorem exec_disarmForced (s : State) (t lane) : exec (.disarmForced t lane) s = execDisarmForced t lane s := rfl
theorem exec_decayCheck (s : State) (t lane) : exec (.decayCheck t lane) s = execDecayCheck t lane s := rfl
theorem exec_contactorFeedback (s : State) (t lane k closed) : exec (.contactorFeedback t lane k closed) s = execContactorFeedback t lane k closed s := rfl
theorem exec_contactorMismatch (s : State) (t lane k) : exec (.contactorMismatch t lane k) s = execContactorMismatch t lane k s := rfl
theorem exec_weldCheck (s : State) (t lane) : exec (.weldCheck t lane) s = execWeldCheck t lane s := rfl
theorem exec_loopItem (s : State) (t lane item) : exec (.loopItem t lane item) s = execLoopItem t lane item s := rfl
theorem exec_modelStep (s : State) (t port) : exec (.modelStep t port) s = execModelStep t port s := rfl
theorem exec_modelDiverged (s : State) (t port cell) : exec (.modelDiverged t port cell) s = execModelDiverged t port cell s := rfl
theorem exec_modelLimitsStale (s : State) (t port) : exec (.modelLimitsStale t port) s = execModelLimitsStale t port s := rfl
theorem exec_openCircuitEstimate (s : State) (t port cell) : exec (.openCircuitEstimate t port cell) s = execOpenCircuitEstimate t port cell s := rfl
theorem exec_laneRest (s : State) (t lane) : exec (.laneRest t lane) s = execLaneRest t lane s := rfl
theorem exec_commitInterval (s : State) (t) : exec (.commitInterval t) s = execCommitInterval t s := rfl
theorem exec_commitDone (s : State) (t ok) : exec (.commitDone t ok) s = execCommitDone t ok s := rfl
theorem exec_slackEnter (s : State) (t) : exec (.slackEnter t) s = execSlackEnter t s := rfl
theorem exec_slackExit (s : State) (t) : exec (.slackExit t) s = execSlackExit t s := rfl
theorem exec_roleDropped (s : State) (t role) : exec (.roleDropped t role) s = execRoleDropped t role s := rfl
theorem exec_beachedAt (s : State) (t) : exec (.beachedAt t) s = execBeachedAt t s := rfl
theorem exec_refloat (s : State) (t byInput rose) : exec (.refloat t byInput rose) s = execRefloat t byInput rose s := rfl
theorem exec_refloated (s : State) (t) : exec (.refloated t) s = execRefloated t s := rfl
theorem exec_soundReadySend (s : State) (t lane) : exec (.soundReadySend t lane) s = execSoundReadySend t lane s := rfl
theorem exec_soundReady (s : State) (t lan h m) : exec (.soundReady t lan h m) s = execSoundReady t lan h m s := rfl
theorem exec_soundActive (s : State) (t lan h m) : exec (.soundActive t lan h m) s = execSoundActive t lan h m s := rfl
theorem exec_soundEnd (s : State) (t lan h m) : exec (.soundEnd t lan h m) s = execSoundEnd t lan h m s := rfl
theorem exec_soundDecision (s : State) (t lane) : exec (.soundDecision t lane) s = execSoundDecision t lane s := rfl
theorem exec_soundAlone (s : State) (t lane) : exec (.soundAlone t lane) s = execSoundAlone t lane s := rfl
theorem exec_soundStepLeave (s : State) (t lane) : exec (.soundStepLeave t lane) s = execSoundStepLeave t lane s := rfl
theorem exec_captureEnd (s : State) (t lane) : exec (.captureEnd t lane) s = execCaptureEnd t lane s := rfl
theorem exec_soundFit (s : State) (t lane) : exec (.soundFit t lane) s = execSoundFit t lane s := rfl
theorem exec_soundSetClose (s : State) (t lane) : exec (.soundSetClose t lane) s = execSoundSetClose t lane s := rfl
theorem exec_springPhaseEnd (s : State) (t lane) : exec (.springPhaseEnd t lane) s = execSpringPhaseEnd t lane s := rfl
theorem exec_springTaperEnd (s : State) (t lane) : exec (.springTaperEnd t lane) s = execSpringTaperEnd t lane s := rfl
theorem exec_springEndpoint (s : State) (t lane) : exec (.springEndpoint t lane) s = execSpringEndpoint t lane s := rfl
theorem exec_springInterrupted (s : State) (t lane) : exec (.springInterrupted t lane) s = execSpringInterrupted t lane s := rfl
theorem exec_springPortLost (s : State) (t lane) : exec (.springPortLost t lane) s = execSpringPortLost t lane s := rfl
theorem exec_springTimeout (s : State) (t lane) : exec (.springTimeout t lane) s = execSpringTimeout t lane s := rfl
theorem exec_springGrant (s : State) (t) : exec (.springGrant t) s = execSpringGrant t s := rfl
theorem exec_balancePlan (s : State) (t lane) : exec (.balancePlan t lane) s = execBalancePlan t lane s := rfl
theorem exec_balanceRepeat (s : State) (t port) : exec (.balanceRepeat t port) s = execBalanceRepeat t port s := rfl
theorem exec_switchTestStart (s : State) (t port cell) : exec (.switchTestStart t port cell) s = execSwitchTestStart t port cell s := rfl
theorem exec_switchTestStep (s : State) (t port) : exec (.switchTestStep t port) s = execSwitchTestStep t port s := rfl
theorem exec_balTestOverdue (s : State) (t port cell) : exec (.balTestOverdue t port cell) s = execBalTestOverdue t port cell s := rfl
theorem exec_temperatureSample (s : State) (t lane) : exec (.temperatureSample t lane) s = execTemperatureSample t lane s := rfl
theorem exec_thermalPrecursor (s : State) (t port sensor) : exec (.thermalPrecursor t port sensor) s = execThermalPrecursor t port sensor s := rfl
theorem exec_tempSensorLost (s : State) (t port sensor) : exec (.tempSensorLost t port sensor) s = execTempSensorLost t port sensor s := rfl
theorem exec_coolingLoopUpdate (s : State) (t loop) : exec (.coolingLoopUpdate t loop) s = execCoolingLoopUpdate t loop s := rfl
theorem exec_coolingLost (s : State) (t loop) : exec (.coolingLost t loop) s = execCoolingLost t loop s := rfl
theorem exec_coolingRestored (s : State) (t loop) : exec (.coolingRestored t loop) s = execCoolingRestored t loop s := rfl
theorem exec_dieReading (s : State) (t raw reading) : exec (.dieReading t raw reading) s = execDieReading t raw reading s := rfl
theorem exec_dieEnforce (s : State) (t) : exec (.dieEnforce t) s = execDieEnforce t s := rfl
theorem exec_dieSensorBroken (s : State) (t) : exec (.dieSensorBroken t) s = execDieSensorBroken t s := rfl
theorem exec_dieRelease (s : State) (t) : exec (.dieRelease t) s = execDieRelease t s := rfl
theorem exec_lockstepMismatch (s : State) (t sfb) : exec (.lockstepMismatch t sfb) s = execLockstepMismatch t sfb s := rfl
theorem exec_crossWatchdog (s : State) (t sfb) : exec (.crossWatchdog t sfb) s = execCrossWatchdog t sfb s := rfl
theorem exec_configCrcCheck (s : State) (t ok) : exec (.configCrcCheck t ok) s = execConfigCrcCheck t ok s := rfl
theorem exec_safetyCoreReset (s : State) (t) : exec (.safetyCoreReset t) s = execSafetyCoreReset t s := rfl
theorem exec_overcurrentTrip (s : State) (t lane comp value) : exec (.overcurrentTrip t lane comp value) s = execOvercurrentTrip t lane comp value s := rfl
theorem exec_comparatorRelease (s : State) (t lane comp) : exec (.comparatorRelease t lane comp) s = execComparatorRelease t lane comp s := rfl
theorem exec_thresholdReadback (s : State) (t lane comp code) : exec (.thresholdReadback t lane comp code) s = execThresholdReadback t lane comp code s := rfl
theorem exec_portDerate (s : State) (t lane) : exec (.portDerate t lane) s = execPortDerate t lane s := rfl
theorem exec_portLost (s : State) (t lane) : exec (.portLost t lane) s = execPortLost t lane s := rfl
theorem exec_estop (s : State) (t channelB) : exec (.estop t channelB) s = execEstop t channelB s := rfl
theorem exec_estopDiscrepancy (s : State) (t) : exec (.estopDiscrepancy t) s = execEstopDiscrepancy t s := rfl
theorem exec_estopRecovered (s : State) (t) : exec (.estopRecovered t) s = execEstopRecovered t s := rfl
theorem exec_fire (s : State) (t) : exec (.fire t) s = execFire t s := rfl
theorem exec_safeOutFault (s : State) (t out) : exec (.safeOutFault t out) s = execSafeOutFault t out s := rfl
theorem exec_clearEdge (s : State) (t lowNs highNs) : exec (.clearEdge t lowNs highNs) s = execClearEdge t lowNs highNs s := rfl
theorem exec_clearStuck (s : State) (t rose) : exec (.clearStuck t rose) s = execClearStuck t rose s := rfl
theorem exec_safeHeartbeat (s : State) (t due) : exec (.safeHeartbeat t due) s = execSafeHeartbeat t due s := rfl
theorem exec_safeFrame (s : State) (t lan bytes) : exec (.safeFrame t lan bytes) s = execSafeFrame t lan bytes s := rfl
theorem exec_skewExpiry (s : State) (t berth link) : exec (.skewExpiry t berth link) s = execSkewExpiry t berth link s := rfl
theorem exec_safeLinkWatchdog (s : State) (t berth link) : exec (.safeLinkWatchdog t berth link) s = execSafeLinkWatchdog t berth link s := rfl
theorem exec_lanDown (s : State) (t lan linkLoss) : exec (.lanDown t lan linkLoss) s = execLanDown t lan linkLoss s := rfl
theorem exec_lanUp (s : State) (t lan) : exec (.lanUp t lan) s = execLanUp t lan s := rfl
theorem exec_eccCorrected (s : State) (t sram object) : exec (.eccCorrected t sram object) s = execEccCorrected t sram object s := rfl
theorem exec_uncorrectableError (s : State) (t u) : exec (.uncorrectableError t u) s = execUncorrectableError t u s := rfl
theorem exec_supervisorWatchdog (s : State) (t core) : exec (.supervisorWatchdog t core) s = execSupervisorWatchdog t core s := rfl
theorem exec_bareRockStrobe (s : State) (t) : exec (.bareRockStrobe t) s = execBareRockStrobe t s := rfl
theorem exec_bareRockExit (s : State) (t) : exec (.bareRockExit t) s = execBareRockExit t s := rfl
theorem exec_lldpdu (s : State) (t lan id) : exec (.lldpdu t lan id) s = execLldpdu t lan id s := rfl
theorem exec_lldpSend (s : State) (t lan) : exec (.lldpSend t lan) s = execLldpSend t lan s := rfl
theorem exec_berthDerivation (s : State) (t) : exec (.berthDerivation t) s = execBerthDerivation t s := rfl
theorem exec_berthDuplicate (s : State) (t) : exec (.berthDuplicate t) s = execBerthDuplicate t s := rfl
theorem exec_garzetFormatErr (s : State) (t frame) : exec (.garzetFormatErr t frame) s = execGarzetFormatErr t frame s := rfl
theorem exec_garzetMailbox (s : State) (t lan h bytes) : exec (.garzetMailbox t lan h bytes) s = execGarzetMailbox t lan h bytes s := rfl
theorem exec_garzetMailboxReply (s : State) (t lan h bytes) : exec (.garzetMailboxReply t lan h bytes) s = execGarzetMailboxReply t lan h bytes s := rfl
theorem exec_garzetAck (s : State) (t lan h) : exec (.garzetAck t lan h) s = execGarzetAck t lan h s := rfl
theorem exec_garzetRoleMoved (s : State) (t lan h m) : exec (.garzetRoleMoved t lan h m) s = execGarzetRoleMoved t lan h m s := rfl
theorem exec_garzetAnnounce (s : State) (t lan h m) : exec (.garzetAnnounce t lan h m) s = execGarzetAnnounce t lan h m s := rfl
theorem exec_garzetSignal (s : State) (t lan h m) : exec (.garzetSignal t lan h m) s = execGarzetSignal t lan h m s := rfl
theorem exec_garzetPropose (s : State) (t lan h m) : exec (.garzetPropose t lan h m) s = execGarzetPropose t lan h m s := rfl
theorem exec_garzetProposeAck (s : State) (t lan h id result) : exec (.garzetProposeAck t lan h id result) s = execGarzetProposeAck t lan h id result s := rfl
theorem exec_garzetCommit (s : State) (t lan h id n) : exec (.garzetCommit t lan h id n) s = execGarzetCommit t lan h id n s := rfl
theorem exec_garzetAbandon (s : State) (t lan h id reason) : exec (.garzetAbandon t lan h id reason) s = execGarzetAbandon t lan h id reason s := rfl
theorem exec_garzetReport (s : State) (t lan h m) : exec (.garzetReport t lan h m) s = execGarzetReport t lan h m s := rfl
theorem exec_garzetFallBack (s : State) (t lan h id m) : exec (.garzetFallBack t lan h id m) s = execGarzetFallBack t lan h id m s := rfl
theorem exec_retransmit (s : State) (t peer seq) : exec (.retransmit t peer seq) s = execRetransmit t peer seq s := rfl
theorem exec_noAck (s : State) (t peer seq) : exec (.noAck t peer seq) s = execNoAck t peer seq s := rfl
theorem exec_gapSkipped (s : State) (t peer) : exec (.gapSkipped t peer) s = execGapSkipped t peer s := rfl
theorem exec_pathDown (s : State) (t berth lan) : exec (.pathDown t berth lan) s = execPathDown t berth lan s := rfl
theorem exec_pathUp (s : State) (t berth lan) : exec (.pathUp t berth lan) s = execPathUp t berth lan s := rfl
theorem exec_announceSend (s : State) (t) : exec (.announceSend t) s = execAnnounceSend t s := rfl
theorem exec_roleAgeOut (s : State) (t key) : exec (.roleAgeOut t key) s = execRoleAgeOut t key s := rfl
theorem exec_changeDecision (s : State) (t id) : exec (.changeDecision t id) s = execChangeDecision t id s := rfl
theorem exec_changeRound (s : State) (t id) : exec (.changeRound t id) s = execChangeRound t id s := rfl
theorem exec_changeMemberClose (s : State) (t id) : exec (.changeMemberClose t id) s = execChangeMemberClose t id s := rfl
theorem exec_coordinatorTakeover (s : State) (t roster reports) : exec (.coordinatorTakeover t roster reports) s = execCoordinatorTakeover t roster reports s := rfl
theorem exec_graphCycleComplete (s : State) (t slot r) : exec (.graphCycleComplete t slot r) s = execGraphCycleComplete t slot r s := rfl
theorem exec_cycleBudget (s : State) (t slot) : exec (.cycleBudget t slot) s = execCycleBudget t slot s := rfl
theorem exec_tenantFault (s : State) (t slot) : exec (.tenantFault t slot) s = execTenantFault t slot s := rfl
theorem exec_engineFault (s : State) (t engine) : exec (.engineFault t engine) s = execEngineFault t engine s := rfl
theorem exec_signalRefresh (s : State) (t slot) : exec (.signalRefresh t slot) s = execSignalRefresh t slot s := rfl
theorem exec_signalStale (s : State) (t handle) : exec (.signalStale t handle) s = execSignalStale t handle s := rfl
theorem exec_roleTake (s : State) (t role) : exec (.roleTake t role) s = execRoleTake t role s := rfl
theorem exec_helmInFall (s : State) (t lane) : exec (.helmInFall t lane) s = execHelmInFall t lane s := rfl
theorem exec_helmRaise (s : State) (t lane) : exec (.helmRaise t lane) s = execHelmRaise t lane s := rfl
theorem exec_helmConflict (s : State) (t lane) : exec (.helmConflict t lane) s = execHelmConflict t lane s := rfl
theorem exec_helmRetry (s : State) (t lane) : exec (.helmRetry t lane) s = execHelmRetry t lane s := rfl
theorem exec_takeover (s : State) (t role) : exec (.takeover t role) s = execTakeover t role s := rfl
theorem exec_spindleLate (s : State) (t lane) : exec (.spindleLate t lane) s = execSpindleLate t lane s := rfl
theorem exec_modelEngineLate (s : State) (t port) : exec (.modelEngineLate t port) s = execModelEngineLate t port s := rfl
theorem exec_helmKeep (s : State) (t link h m) : exec (.helmKeep t link h m) s = execHelmKeep t link h m s := rfl
theorem exec_keepCheck (s : State) (t role p) : exec (.keepCheck t role p) s = execKeepCheck t role p s := rfl
theorem exec_helmRelease (s : State) (t link h m) : exec (.helmRelease t link h m) s = execHelmRelease t link h m s := rfl
theorem exec_helmTakenReceived (s : State) (t link h m) : exec (.helmTakenReceived t link h m) s = execHelmTakenReceived t link h m s := rfl
theorem exec_helmSwapRequest (s : State) (t link h m) : exec (.helmSwapRequest t link h m) s = execHelmSwapRequest t link h m s := rfl
theorem exec_helmSwapReady (s : State) (t link h m) : exec (.helmSwapReady t link h m) s = execHelmSwapReady t link h m s := rfl
theorem exec_helmTestStart (s : State) (t link h m) : exec (.helmTestStart t link h m) s = execHelmTestStart t link h m s := rfl
theorem exec_selfTest (s : State) (t role pass) : exec (.selfTest t role pass) s = execSelfTest t role pass s := rfl
theorem exec_helmTestResult (s : State) (t link h m) : exec (.helmTestResult t link h m) s = execHelmTestResult t link h m s := rfl
theorem exec_testResultTimeout (s : State) (t role) : exec (.testResultTimeout t role) s = execTestResultTimeout t role s := rfl
theorem exec_backgroundTest (s : State) (t role pass) : exec (.backgroundTest t role pass) s = execBackgroundTest t role pass s := rfl
theorem exec_helmFullRequest (s : State) (t link h m) : exec (.helmFullRequest t link h m) s = execHelmFullRequest t link h m s := rfl
theorem exec_fullRequestSend (s : State) (t role) : exec (.fullRequestSend t role) s = execFullRequestSend t role s := rfl
theorem exec_garzetMirror (s : State) (t link h m) : exec (.garzetMirror t link h m) s = execGarzetMirror t link h m s := rfl
theorem exec_mirrorStale (s : State) (t role) : exec (.mirrorStale t role) s = execMirrorStale t role s := rfl
theorem exec_inSync (s : State) (t role) : exec (.inSync t role) s = execInSync t role s := rfl
theorem exec_twinLaneDown (s : State) (t k) : exec (.twinLaneDown t k) s = execTwinLaneDown t k s := rfl
theorem exec_descriptorFetch (s : State) (t ch hostBytes) : exec (.descriptorFetch t ch hostBytes) s = execDescriptorFetch t ch hostBytes s := rfl
theorem exec_dmaBurstGrant (s : State) (t ch data busErr) : exec (.dmaBurstGrant t ch data busErr) s = execDmaBurstGrant t ch data busErr s := rfl
theorem exec_descriptorComplete (s : State) (t ch) : exec (.descriptorComplete t ch) s = execDescriptorComplete t ch s := rfl
theorem exec_cqRoom (s : State) (t ch) : exec (.cqRoom t ch) s = execCqRoom t ch s := rfl
theorem exec_cqStall (s : State) (t ch) : exec (.cqStall t ch) s = execCqStall t ch s := rfl
theorem exec_canFrameReceived (s : State) (t ctl start f) : exec (.canFrameReceived t ctl start f) s = execCanFrameReceived t ctl start f s := rfl
theorem exec_canBusIdle (s : State) (t ctl) : exec (.canBusIdle t ctl) s = execCanBusIdle t ctl s := rfl
theorem exec_canTxAttemptEnd (s : State) (t ctl result loopDelay counted) : exec (.canTxAttemptEnd t ctl result loopDelay counted) s = execCanTxAttemptEnd t ctl result loopDelay counted s := rfl
theorem exec_txTimeout (s : State) (t ctl buf) : exec (.txTimeout t ctl buf) s = execTxTimeout t ctl buf s := rfl
theorem exec_canBusOff (s : State) (t ctl) : exec (.canBusOff t ctl) s = execCanBusOff t ctl s := rfl
theorem exec_canRecoveryDone (s : State) (t ctl) : exec (.canRecoveryDone t ctl) s = execCanRecoveryDone t ctl s := rfl
theorem exec_txEventRoom (s : State) (t ctl buf) : exec (.txEventRoom t ctl buf) s = execTxEventRoom t ctl buf s := rfl
theorem exec_canReferenceDue (s : State) (t ctl) : exec (.canReferenceDue t ctl) s = execCanReferenceDue t ctl s := rfl
theorem exec_containerTimeTake (s : State) (t ctl) : exec (.containerTimeTake t ctl) s = execContainerTimeTake t ctl s := rfl
theorem exec_recordBatch (s : State) (t) : exec (.recordBatch t) s = execRecordBatch t s := rfl
theorem exec_holdupRetry (s : State) (t vhu) : exec (.holdupRetry t vhu) s = execHoldupRetry t vhu s := rfl
theorem exec_storeDeferred (s : State) (t) : exec (.storeDeferred t) s = execStoreDeferred t s := rfl
theorem exec_holdupMeasurement (s : State) (t vhu) : exec (.holdupMeasurement t vhu) s = execHoldupMeasurement t vhu s := rfl
theorem exec_holdupMeasured (s : State) (t vhu) : exec (.holdupMeasured t vhu) s = execHoldupMeasured t vhu s := rfl
theorem exec_pageProgramDone (s : State) (t ok0 ok1) : exec (.pageProgramDone t ok0 ok1) s = execPageProgramDone t ok0 ok1 s := rfl
theorem exec_eraseDone (s : State) (t ok0 ok1) : exec (.eraseDone t ok0 ok1) s = execEraseDone t ok0 ok1 s := rfl
theorem exec_scrub (s : State) (t problems) : exec (.scrub t problems) s = execScrub t problems s := rfl
theorem exec_serviceConnect (s : State) (t hs) : exec (.serviceConnect t hs) s = execServiceConnect t hs s := rfl
theorem exec_lockoutEnd (s : State) (t) : exec (.lockoutEnd t) s = execLockoutEnd t s := rfl
theorem exec_sessionTimeout (s : State) (t session) : exec (.sessionTimeout t session) s = execSessionTimeout t session s := rfl
theorem exec_sessionKeyExpiry (s : State) (t) : exec (.sessionKeyExpiry t) s = execSessionKeyExpiry t s := rfl
theorem exec_rollbackAdvanced (s : State) (t) : exec (.rollbackAdvanced t) s = execRollbackAdvanced t s := rfl
theorem exec_stageRailsUp (s : State) (t sideB) : exec (.stageRailsUp t sideB) s = execStageRailsUp t sideB s := rfl
theorem exec_memoryZeroed (s : State) (t) : exec (.memoryZeroed t) s = execMemoryZeroed t s := rfl
theorem exec_stageImageRunning (s : State) (t slots devices) : exec (.stageImageRunning t slots devices) s = execStageImageRunning t slots devices s := rfl
theorem exec_stageOnNetwork (s : State) (t) : exec (.stageOnNetwork t) s = execStageOnNetwork t s := rfl
theorem exec_stageLanesArmable (s : State) (t) : exec (.stageLanesArmable t) s = execStageLanesArmable t s := rfl
theorem exec_startSlow (s : State) (t stage) : exec (.startSlow t stage) s = execStartSlow t stage s := rfl
theorem exec_vhuCharged (s : State) (t mv) : exec (.vhuCharged t mv) s = execVhuCharged t mv s := rfl
theorem exec_portPowerLoss (s : State) (t port) : exec (.portPowerLoss t port) s = execPortPowerLoss t port s := rfl
theorem exec_portPowerRestored (s : State) (t port) : exec (.portPowerRestored t port) s = execPortPowerRestored t port s := rfl
theorem exec_linePowerLoss (s : State) (t vhu) : exec (.linePowerLoss t vhu) s = execLinePowerLoss t vhu s := rfl
theorem exec_moduleUnpowered (s : State) (t) : exec (.moduleUnpowered t) s = execModuleUnpowered t s := rfl
theorem exec_brownoutRestart (s : State) (t) : exec (.brownoutRestart t) s = execBrownoutRestart t s := rfl
theorem exec_boardSupplyFault (s : State) (t) : exec (.boardSupplyFault t) s = execBoardSupplyFault t s := rfl
theorem exec_boardSupplyRetry (s : State) (t ma ok) : exec (.boardSupplyRetry t ma ok) s = execBoardSupplyRetry t ma ok s := rfl
theorem exec_partingStep (s : State) (t) : exec (.partingStep t) s = execPartingStep t s := rfl
theorem exec_powerUp (s : State) (t port) : exec (.powerUp t port) s = execPowerUp t port s := rfl
theorem exec_sessionClose (s : State) (t session) : exec (.sessionClose t session) s = execSessionClose t session s := rfl
theorem exec_delayReqSend (s : State) (t lan) : exec (.delayReqSend t lan) s = execDelayReqSend t lan s := rfl
theorem exec_delayReq (s : State) (t lan seq peer) : exec (.delayReq t lan seq peer) s = execDelayReq t lan seq peer s := rfl
theorem exec_ptpAnnounceSend (s : State) (t lan) : exec (.ptpAnnounceSend t lan) s = execPtpAnnounceSend t lan s := rfl
theorem exec_foreignFrame (s : State) (t lan oversize) : exec (.foreignFrame t lan oversize) s = execForeignFrame t lan oversize s := rfl
theorem exec_changeLagging (s : State) (t id) : exec (.changeLagging t id) s = execChangeLagging t id s := rfl
theorem exec_safetyInputHealthy (s : State) (t input) : exec (.safetyInputHealthy t input) s = execSafetyInputHealthy t input s := rfl
theorem exec_canReceiveError (s : State) (t ctl exception code dominantAfterFlag) : exec (.canReceiveError t ctl exception code dominantAfterFlag) s = execCanReceiveError t ctl exception code dominantAfterFlag s := rfl
theorem exec_debugHalt (s : State) (t core) : exec (.debugHalt t core) s = execDebugHalt t core s := rfl

end Sys2Proof.Machine
end

