-- ==== Sys2Proof/Laws/State.lean ====
section
/-! SUPPORT. What reading and writing one record of a table leaves unchanged. -/

namespace Sys2Proof.Machine

open Sys2Proof
set_option Elab.async false

@[simp] theorem tget_tset_same {α : Type} (d : α) (t : Table α) (i : Nat) (a : α) : tget d (tset t i a) i = a := by
  induction t with
  | nil => simp [tset, tget]
  | cons x r ih => obtain ⟨k, b⟩ := x; simp only [tset]; split_ifs <;> simp_all [tget]

@[simp] theorem tget_tset_ne {α : Type} (d : α) (t : Table α) {i j : Nat} (a : α) (h : j ≠ i) :
    tget d (tset t i a) j = tget d t j := by
  induction t with
  | nil => simp [tset, tget, Ne.symm h]
  | cons x r ih =>
    obtain ⟨k, b⟩ := x; simp only [tset]
    split_ifs with h1 h2
    · subst h1; simp [tget, Ne.symm h]
    · simp [tget, Ne.symm h]
    · simp [tget, ih]

@[simp] theorem State.updPort_eq (s : State) (i : Nat) (f : Port → Port) : s.updPort i f = s.setPort i (f (s.port i)) := rfl
@[simp] theorem State.port_setPort_same (s : State) (i : Nat) (a : Port) : (s.setPort i a).port i = a :=
  tget_tset_same _ _ _ _
@[simp] theorem State.port_setPort_ne (s : State) {i j : Nat} (a : Port) (h : j ≠ i) :
    (s.setPort i a).port j = s.port j := tget_tset_ne _ _ _ h
@[simp] theorem State.clock_setPort (s : State) (i : Nat) (a : Port) : (s.setPort i a).clock = s.clock := rfl
@[simp] theorem State.ptp_setPort (s : State) (i : Nat) (a : Port) : (s.setPort i a).ptp = s.ptp := rfl
@[simp] theorem State.servo_setPort (s : State) (i : Nat) (a : Port) : (s.setPort i a).servo = s.servo := rfl
@[simp] theorem State.lh_setPort (s : State) (i : Nat) (a : Port) : (s.setPort i a).lh = s.lh := rfl
@[simp] theorem State.tide_setPort (s : State) (i : Nat) (a : Port) : (s.setPort i a).tide = s.tide := rfl
@[simp] theorem State.table_setPort (s : State) (i : Nat) (a : Port) : (s.setPort i a).table = s.table := rfl
@[simp] theorem State.tsin_setPort (s : State) (i : Nat) (a : Port) : (s.setPort i a).tsin = s.tsin := rfl
@[simp] theorem State.tsout_setPort (s : State) (i : Nat) (a : Port) : (s.setPort i a).tsout = s.tsout := rfl
@[simp] theorem State.ana_setPort (s : State) (i : Nat) (a : Port) : (s.setPort i a).ana = s.ana := rfl
@[simp] theorem State.lanes_setPort (s : State) (i : Nat) (a : Port) : (s.setPort i a).lanes = s.lanes := rfl
@[simp] theorem State.model_setPort (s : State) (i : Nat) (a : Port) : (s.setPort i a).model = s.model := rfl
@[simp] theorem State.sound_setPort (s : State) (i : Nat) (a : Port) : (s.setPort i a).sound = s.sound := rfl
@[simp] theorem State.therm_setPort (s : State) (i : Nat) (a : Port) : (s.setPort i a).therm = s.therm := rfl
@[simp] theorem State.safety_setPort (s : State) (i : Nat) (a : Port) : (s.setPort i a).safety = s.safety := rfl
@[simp] theorem State.net_setPort (s : State) (i : Nat) (a : Port) : (s.setPort i a).net = s.net := rfl
@[simp] theorem State.ten_setPort (s : State) (i : Nat) (a : Port) : (s.setPort i a).ten = s.ten := rfl
@[simp] theorem State.fab_setPort (s : State) (i : Nat) (a : Port) : (s.setPort i a).fab = s.fab := rfl
@[simp] theorem State.mbox_setPort (s : State) (i : Nat) (a : Port) : (s.setPort i a).mbox = s.mbox := rfl
@[simp] theorem State.can_setPort (s : State) (i : Nat) (a : Port) : (s.setPort i a).can = s.can := rfl
@[simp] theorem State.store_setPort (s : State) (i : Nat) (a : Port) : (s.setPort i a).store = s.store := rfl
@[simp] theorem State.recorder_setPort (s : State) (i : Nat) (a : Port) : (s.setPort i a).recorder = s.recorder := rfl
@[simp] theorem State.sec_setPort (s : State) (i : Nat) (a : Port) : (s.setPort i a).sec = s.sec := rfl
@[simp] theorem State.power_setPort (s : State) (i : Nat) (a : Port) : (s.setPort i a).power = s.power := rfl
@[simp] theorem State.out_setPort (s : State) (i : Nat) (a : Port) : (s.setPort i a).out = s.out := rfl
@[simp] theorem State.fresh_setPort (s : State) (i : Nat) (a : Port) : (s.setPort i a).fresh = s.fresh := rfl
@[simp] theorem State.pending_setPort (s : State) (i : Nat) (a : Port) : (s.setPort i a).pending = s.pending := rfl

@[simp] theorem State.updInput_eq (s : State) (i : Nat) (f : Input → Input) : s.updInput i f = s.setInput i (f (s.input i)) := rfl
@[simp] theorem State.input_setInput_same (s : State) (i : Nat) (a : Input) : (s.setInput i a).input i = a :=
  tget_tset_same _ _ _ _
@[simp] theorem State.input_setInput_ne (s : State) {i j : Nat} (a : Input) (h : j ≠ i) :
    (s.setInput i a).input j = s.input j := tget_tset_ne _ _ _ h
@[simp] theorem State.clock_setInput (s : State) (i : Nat) (a : Input) : (s.setInput i a).clock = s.clock := rfl
@[simp] theorem State.ptp_setInput (s : State) (i : Nat) (a : Input) : (s.setInput i a).ptp = s.ptp := rfl
@[simp] theorem State.servo_setInput (s : State) (i : Nat) (a : Input) : (s.setInput i a).servo = s.servo := rfl
@[simp] theorem State.lh_setInput (s : State) (i : Nat) (a : Input) : (s.setInput i a).lh = s.lh := rfl
@[simp] theorem State.tide_setInput (s : State) (i : Nat) (a : Input) : (s.setInput i a).tide = s.tide := rfl
@[simp] theorem State.table_setInput (s : State) (i : Nat) (a : Input) : (s.setInput i a).table = s.table := rfl
@[simp] theorem State.tsin_setInput (s : State) (i : Nat) (a : Input) : (s.setInput i a).tsin = s.tsin := rfl
@[simp] theorem State.tsout_setInput (s : State) (i : Nat) (a : Input) : (s.setInput i a).tsout = s.tsout := rfl
@[simp] theorem State.tap_setInput (s : State) (i : Nat) (a : Input) : (s.setInput i a).tap = s.tap := rfl
@[simp] theorem State.lanes_setInput (s : State) (i : Nat) (a : Input) : (s.setInput i a).lanes = s.lanes := rfl
@[simp] theorem State.model_setInput (s : State) (i : Nat) (a : Input) : (s.setInput i a).model = s.model := rfl
@[simp] theorem State.sound_setInput (s : State) (i : Nat) (a : Input) : (s.setInput i a).sound = s.sound := rfl
@[simp] theorem State.therm_setInput (s : State) (i : Nat) (a : Input) : (s.setInput i a).therm = s.therm := rfl
@[simp] theorem State.safety_setInput (s : State) (i : Nat) (a : Input) : (s.setInput i a).safety = s.safety := rfl
@[simp] theorem State.net_setInput (s : State) (i : Nat) (a : Input) : (s.setInput i a).net = s.net := rfl
@[simp] theorem State.ten_setInput (s : State) (i : Nat) (a : Input) : (s.setInput i a).ten = s.ten := rfl
@[simp] theorem State.fab_setInput (s : State) (i : Nat) (a : Input) : (s.setInput i a).fab = s.fab := rfl
@[simp] theorem State.mbox_setInput (s : State) (i : Nat) (a : Input) : (s.setInput i a).mbox = s.mbox := rfl
@[simp] theorem State.can_setInput (s : State) (i : Nat) (a : Input) : (s.setInput i a).can = s.can := rfl
@[simp] theorem State.store_setInput (s : State) (i : Nat) (a : Input) : (s.setInput i a).store = s.store := rfl
@[simp] theorem State.recorder_setInput (s : State) (i : Nat) (a : Input) : (s.setInput i a).recorder = s.recorder := rfl
@[simp] theorem State.sec_setInput (s : State) (i : Nat) (a : Input) : (s.setInput i a).sec = s.sec := rfl
@[simp] theorem State.power_setInput (s : State) (i : Nat) (a : Input) : (s.setInput i a).power = s.power := rfl
@[simp] theorem State.out_setInput (s : State) (i : Nat) (a : Input) : (s.setInput i a).out = s.out := rfl
@[simp] theorem State.fresh_setInput (s : State) (i : Nat) (a : Input) : (s.setInput i a).fresh = s.fresh := rfl
@[simp] theorem State.pending_setInput (s : State) (i : Nat) (a : Input) : (s.setInput i a).pending = s.pending := rfl
@[simp] theorem State.conv_setInput (s : State) (i j : Nat) (a : Input) : (s.setInput i a).conv j = s.conv j := rfl
@[simp] theorem State.icv_setInput (s : State) (i j : Nat) (a : Input) : (s.setInput i a).icv j = s.icv j := rfl
@[simp] theorem State.dac_setInput (s : State) (i j : Nat) (a : Input) : (s.setInput i a).dac j = s.dac j := rfl
@[simp] theorem State.tach_setInput (s : State) (i j : Nat) (a : Input) : (s.setInput i a).tach j = s.tach j := rfl

@[simp] theorem State.updConv_eq (s : State) (i : Nat) (f : Converter → Converter) : s.updConv i f = s.setConv i (f (s.conv i)) := rfl
@[simp] theorem State.conv_setConv_same (s : State) (i : Nat) (a : Converter) : (s.setConv i a).conv i = a :=
  tget_tset_same _ _ _ _
@[simp] theorem State.conv_setConv_ne (s : State) {i j : Nat} (a : Converter) (h : j ≠ i) :
    (s.setConv i a).conv j = s.conv j := tget_tset_ne _ _ _ h
@[simp] theorem State.clock_setConv (s : State) (i : Nat) (a : Converter) : (s.setConv i a).clock = s.clock := rfl
@[simp] theorem State.ptp_setConv (s : State) (i : Nat) (a : Converter) : (s.setConv i a).ptp = s.ptp := rfl
@[simp] theorem State.servo_setConv (s : State) (i : Nat) (a : Converter) : (s.setConv i a).servo = s.servo := rfl
@[simp] theorem State.lh_setConv (s : State) (i : Nat) (a : Converter) : (s.setConv i a).lh = s.lh := rfl
@[simp] theorem State.tide_setConv (s : State) (i : Nat) (a : Converter) : (s.setConv i a).tide = s.tide := rfl
@[simp] theorem State.table_setConv (s : State) (i : Nat) (a : Converter) : (s.setConv i a).table = s.table := rfl
@[simp] theorem State.tsin_setConv (s : State) (i : Nat) (a : Converter) : (s.setConv i a).tsin = s.tsin := rfl
@[simp] theorem State.tsout_setConv (s : State) (i : Nat) (a : Converter) : (s.setConv i a).tsout = s.tsout := rfl
@[simp] theorem State.tap_setConv (s : State) (i : Nat) (a : Converter) : (s.setConv i a).tap = s.tap := rfl
@[simp] theorem State.lanes_setConv (s : State) (i : Nat) (a : Converter) : (s.setConv i a).lanes = s.lanes := rfl
@[simp] theorem State.model_setConv (s : State) (i : Nat) (a : Converter) : (s.setConv i a).model = s.model := rfl
@[simp] theorem State.sound_setConv (s : State) (i : Nat) (a : Converter) : (s.setConv i a).sound = s.sound := rfl
@[simp] theorem State.therm_setConv (s : State) (i : Nat) (a : Converter) : (s.setConv i a).therm = s.therm := rfl
@[simp] theorem State.safety_setConv (s : State) (i : Nat) (a : Converter) : (s.setConv i a).safety = s.safety := rfl
@[simp] theorem State.net_setConv (s : State) (i : Nat) (a : Converter) : (s.setConv i a).net = s.net := rfl
@[simp] theorem State.ten_setConv (s : State) (i : Nat) (a : Converter) : (s.setConv i a).ten = s.ten := rfl
@[simp] theorem State.fab_setConv (s : State) (i : Nat) (a : Converter) : (s.setConv i a).fab = s.fab := rfl
@[simp] theorem State.mbox_setConv (s : State) (i : Nat) (a : Converter) : (s.setConv i a).mbox = s.mbox := rfl
@[simp] theorem State.can_setConv (s : State) (i : Nat) (a : Converter) : (s.setConv i a).can = s.can := rfl
@[simp] theorem State.store_setConv (s : State) (i : Nat) (a : Converter) : (s.setConv i a).store = s.store := rfl
@[simp] theorem State.recorder_setConv (s : State) (i : Nat) (a : Converter) : (s.setConv i a).recorder = s.recorder := rfl
@[simp] theorem State.sec_setConv (s : State) (i : Nat) (a : Converter) : (s.setConv i a).sec = s.sec := rfl
@[simp] theorem State.power_setConv (s : State) (i : Nat) (a : Converter) : (s.setConv i a).power = s.power := rfl
@[simp] theorem State.out_setConv (s : State) (i : Nat) (a : Converter) : (s.setConv i a).out = s.out := rfl
@[simp] theorem State.fresh_setConv (s : State) (i : Nat) (a : Converter) : (s.setConv i a).fresh = s.fresh := rfl
@[simp] theorem State.pending_setConv (s : State) (i : Nat) (a : Converter) : (s.setConv i a).pending = s.pending := rfl
@[simp] theorem State.input_setConv (s : State) (i j : Nat) (a : Converter) : (s.setConv i a).input j = s.input j := rfl
@[simp] theorem State.icv_setConv (s : State) (i j : Nat) (a : Converter) : (s.setConv i a).icv j = s.icv j := rfl
@[simp] theorem State.dac_setConv (s : State) (i j : Nat) (a : Converter) : (s.setConv i a).dac j = s.dac j := rfl
@[simp] theorem State.tach_setConv (s : State) (i j : Nat) (a : Converter) : (s.setConv i a).tach j = s.tach j := rfl

@[simp] theorem State.updIcv_eq (s : State) (i : Nat) (f : Icv → Icv) : s.updIcv i f = s.setIcv i (f (s.icv i)) := rfl
@[simp] theorem State.icv_setIcv_same (s : State) (i : Nat) (a : Icv) : (s.setIcv i a).icv i = a :=
  tget_tset_same _ _ _ _
@[simp] theorem State.icv_setIcv_ne (s : State) {i j : Nat} (a : Icv) (h : j ≠ i) :
    (s.setIcv i a).icv j = s.icv j := tget_tset_ne _ _ _ h
@[simp] theorem State.clock_setIcv (s : State) (i : Nat) (a : Icv) : (s.setIcv i a).clock = s.clock := rfl
@[simp] theorem State.ptp_setIcv (s : State) (i : Nat) (a : Icv) : (s.setIcv i a).ptp = s.ptp := rfl
@[simp] theorem State.servo_setIcv (s : State) (i : Nat) (a : Icv) : (s.setIcv i a).servo = s.servo := rfl
@[simp] theorem State.lh_setIcv (s : State) (i : Nat) (a : Icv) : (s.setIcv i a).lh = s.lh := rfl
@[simp] theorem State.tide_setIcv (s : State) (i : Nat) (a : Icv) : (s.setIcv i a).tide = s.tide := rfl
@[simp] theorem State.table_setIcv (s : State) (i : Nat) (a : Icv) : (s.setIcv i a).table = s.table := rfl
@[simp] theorem State.tsin_setIcv (s : State) (i : Nat) (a : Icv) : (s.setIcv i a).tsin = s.tsin := rfl
@[simp] theorem State.tsout_setIcv (s : State) (i : Nat) (a : Icv) : (s.setIcv i a).tsout = s.tsout := rfl
@[simp] theorem State.tap_setIcv (s : State) (i : Nat) (a : Icv) : (s.setIcv i a).tap = s.tap := rfl
@[simp] theorem State.lanes_setIcv (s : State) (i : Nat) (a : Icv) : (s.setIcv i a).lanes = s.lanes := rfl
@[simp] theorem State.model_setIcv (s : State) (i : Nat) (a : Icv) : (s.setIcv i a).model = s.model := rfl
@[simp] theorem State.sound_setIcv (s : State) (i : Nat) (a : Icv) : (s.setIcv i a).sound = s.sound := rfl
@[simp] theorem State.therm_setIcv (s : State) (i : Nat) (a : Icv) : (s.setIcv i a).therm = s.therm := rfl
@[simp] theorem State.safety_setIcv (s : State) (i : Nat) (a : Icv) : (s.setIcv i a).safety = s.safety := rfl
@[simp] theorem State.net_setIcv (s : State) (i : Nat) (a : Icv) : (s.setIcv i a).net = s.net := rfl
@[simp] theorem State.ten_setIcv (s : State) (i : Nat) (a : Icv) : (s.setIcv i a).ten = s.ten := rfl
@[simp] theorem State.fab_setIcv (s : State) (i : Nat) (a : Icv) : (s.setIcv i a).fab = s.fab := rfl
@[simp] theorem State.mbox_setIcv (s : State) (i : Nat) (a : Icv) : (s.setIcv i a).mbox = s.mbox := rfl
@[simp] theorem State.can_setIcv (s : State) (i : Nat) (a : Icv) : (s.setIcv i a).can = s.can := rfl
@[simp] theorem State.store_setIcv (s : State) (i : Nat) (a : Icv) : (s.setIcv i a).store = s.store := rfl
@[simp] theorem State.recorder_setIcv (s : State) (i : Nat) (a : Icv) : (s.setIcv i a).recorder = s.recorder := rfl
@[simp] theorem State.sec_setIcv (s : State) (i : Nat) (a : Icv) : (s.setIcv i a).sec = s.sec := rfl
@[simp] theorem State.power_setIcv (s : State) (i : Nat) (a : Icv) : (s.setIcv i a).power = s.power := rfl
@[simp] theorem State.out_setIcv (s : State) (i : Nat) (a : Icv) : (s.setIcv i a).out = s.out := rfl
@[simp] theorem State.fresh_setIcv (s : State) (i : Nat) (a : Icv) : (s.setIcv i a).fresh = s.fresh := rfl
@[simp] theorem State.pending_setIcv (s : State) (i : Nat) (a : Icv) : (s.setIcv i a).pending = s.pending := rfl
@[simp] theorem State.input_setIcv (s : State) (i j : Nat) (a : Icv) : (s.setIcv i a).input j = s.input j := rfl
@[simp] theorem State.conv_setIcv (s : State) (i j : Nat) (a : Icv) : (s.setIcv i a).conv j = s.conv j := rfl
@[simp] theorem State.dac_setIcv (s : State) (i j : Nat) (a : Icv) : (s.setIcv i a).dac j = s.dac j := rfl
@[simp] theorem State.tach_setIcv (s : State) (i j : Nat) (a : Icv) : (s.setIcv i a).tach j = s.tach j := rfl

@[simp] theorem State.updDac_eq (s : State) (i : Nat) (f : Dac → Dac) : s.updDac i f = s.setDac i (f (s.dac i)) := rfl
@[simp] theorem State.dac_setDac_same (s : State) (i : Nat) (a : Dac) : (s.setDac i a).dac i = a :=
  tget_tset_same _ _ _ _
@[simp] theorem State.dac_setDac_ne (s : State) {i j : Nat} (a : Dac) (h : j ≠ i) :
    (s.setDac i a).dac j = s.dac j := tget_tset_ne _ _ _ h
@[simp] theorem State.clock_setDac (s : State) (i : Nat) (a : Dac) : (s.setDac i a).clock = s.clock := rfl
@[simp] theorem State.ptp_setDac (s : State) (i : Nat) (a : Dac) : (s.setDac i a).ptp = s.ptp := rfl
@[simp] theorem State.servo_setDac (s : State) (i : Nat) (a : Dac) : (s.setDac i a).servo = s.servo := rfl
@[simp] theorem State.lh_setDac (s : State) (i : Nat) (a : Dac) : (s.setDac i a).lh = s.lh := rfl
@[simp] theorem State.tide_setDac (s : State) (i : Nat) (a : Dac) : (s.setDac i a).tide = s.tide := rfl
@[simp] theorem State.table_setDac (s : State) (i : Nat) (a : Dac) : (s.setDac i a).table = s.table := rfl
@[simp] theorem State.tsin_setDac (s : State) (i : Nat) (a : Dac) : (s.setDac i a).tsin = s.tsin := rfl
@[simp] theorem State.tsout_setDac (s : State) (i : Nat) (a : Dac) : (s.setDac i a).tsout = s.tsout := rfl
@[simp] theorem State.tap_setDac (s : State) (i : Nat) (a : Dac) : (s.setDac i a).tap = s.tap := rfl
@[simp] theorem State.lanes_setDac (s : State) (i : Nat) (a : Dac) : (s.setDac i a).lanes = s.lanes := rfl
@[simp] theorem State.model_setDac (s : State) (i : Nat) (a : Dac) : (s.setDac i a).model = s.model := rfl
@[simp] theorem State.sound_setDac (s : State) (i : Nat) (a : Dac) : (s.setDac i a).sound = s.sound := rfl
@[simp] theorem State.therm_setDac (s : State) (i : Nat) (a : Dac) : (s.setDac i a).therm = s.therm := rfl
@[simp] theorem State.safety_setDac (s : State) (i : Nat) (a : Dac) : (s.setDac i a).safety = s.safety := rfl
@[simp] theorem State.net_setDac (s : State) (i : Nat) (a : Dac) : (s.setDac i a).net = s.net := rfl
@[simp] theorem State.ten_setDac (s : State) (i : Nat) (a : Dac) : (s.setDac i a).ten = s.ten := rfl
@[simp] theorem State.fab_setDac (s : State) (i : Nat) (a : Dac) : (s.setDac i a).fab = s.fab := rfl
@[simp] theorem State.mbox_setDac (s : State) (i : Nat) (a : Dac) : (s.setDac i a).mbox = s.mbox := rfl
@[simp] theorem State.can_setDac (s : State) (i : Nat) (a : Dac) : (s.setDac i a).can = s.can := rfl
@[simp] theorem State.store_setDac (s : State) (i : Nat) (a : Dac) : (s.setDac i a).store = s.store := rfl
@[simp] theorem State.recorder_setDac (s : State) (i : Nat) (a : Dac) : (s.setDac i a).recorder = s.recorder := rfl
@[simp] theorem State.sec_setDac (s : State) (i : Nat) (a : Dac) : (s.setDac i a).sec = s.sec := rfl
@[simp] theorem State.power_setDac (s : State) (i : Nat) (a : Dac) : (s.setDac i a).power = s.power := rfl
@[simp] theorem State.out_setDac (s : State) (i : Nat) (a : Dac) : (s.setDac i a).out = s.out := rfl
@[simp] theorem State.fresh_setDac (s : State) (i : Nat) (a : Dac) : (s.setDac i a).fresh = s.fresh := rfl
@[simp] theorem State.pending_setDac (s : State) (i : Nat) (a : Dac) : (s.setDac i a).pending = s.pending := rfl
@[simp] theorem State.input_setDac (s : State) (i j : Nat) (a : Dac) : (s.setDac i a).input j = s.input j := rfl
@[simp] theorem State.conv_setDac (s : State) (i j : Nat) (a : Dac) : (s.setDac i a).conv j = s.conv j := rfl
@[simp] theorem State.icv_setDac (s : State) (i j : Nat) (a : Dac) : (s.setDac i a).icv j = s.icv j := rfl
@[simp] theorem State.tach_setDac (s : State) (i j : Nat) (a : Dac) : (s.setDac i a).tach j = s.tach j := rfl

@[simp] theorem State.updTach_eq (s : State) (i : Nat) (f : Tach → Tach) : s.updTach i f = s.setTach i (f (s.tach i)) := rfl
@[simp] theorem State.tach_setTach_same (s : State) (i : Nat) (a : Tach) : (s.setTach i a).tach i = a :=
  tget_tset_same _ _ _ _
@[simp] theorem State.tach_setTach_ne (s : State) {i j : Nat} (a : Tach) (h : j ≠ i) :
    (s.setTach i a).tach j = s.tach j := tget_tset_ne _ _ _ h
@[simp] theorem State.clock_setTach (s : State) (i : Nat) (a : Tach) : (s.setTach i a).clock = s.clock := rfl
@[simp] theorem State.ptp_setTach (s : State) (i : Nat) (a : Tach) : (s.setTach i a).ptp = s.ptp := rfl
@[simp] theorem State.servo_setTach (s : State) (i : Nat) (a : Tach) : (s.setTach i a).servo = s.servo := rfl
@[simp] theorem State.lh_setTach (s : State) (i : Nat) (a : Tach) : (s.setTach i a).lh = s.lh := rfl
@[simp] theorem State.tide_setTach (s : State) (i : Nat) (a : Tach) : (s.setTach i a).tide = s.tide := rfl
@[simp] theorem State.table_setTach (s : State) (i : Nat) (a : Tach) : (s.setTach i a).table = s.table := rfl
@[simp] theorem State.tsin_setTach (s : State) (i : Nat) (a : Tach) : (s.setTach i a).tsin = s.tsin := rfl
@[simp] theorem State.tsout_setTach (s : State) (i : Nat) (a : Tach) : (s.setTach i a).tsout = s.tsout := rfl
@[simp] theorem State.tap_setTach (s : State) (i : Nat) (a : Tach) : (s.setTach i a).tap = s.tap := rfl
@[simp] theorem State.lanes_setTach (s : State) (i : Nat) (a : Tach) : (s.setTach i a).lanes = s.lanes := rfl
@[simp] theorem State.model_setTach (s : State) (i : Nat) (a : Tach) : (s.setTach i a).model = s.model := rfl
@[simp] theorem State.sound_setTach (s : State) (i : Nat) (a : Tach) : (s.setTach i a).sound = s.sound := rfl
@[simp] theorem State.therm_setTach (s : State) (i : Nat) (a : Tach) : (s.setTach i a).therm = s.therm := rfl
@[simp] theorem State.safety_setTach (s : State) (i : Nat) (a : Tach) : (s.setTach i a).safety = s.safety := rfl
@[simp] theorem State.net_setTach (s : State) (i : Nat) (a : Tach) : (s.setTach i a).net = s.net := rfl
@[simp] theorem State.ten_setTach (s : State) (i : Nat) (a : Tach) : (s.setTach i a).ten = s.ten := rfl
@[simp] theorem State.fab_setTach (s : State) (i : Nat) (a : Tach) : (s.setTach i a).fab = s.fab := rfl
@[simp] theorem State.mbox_setTach (s : State) (i : Nat) (a : Tach) : (s.setTach i a).mbox = s.mbox := rfl
@[simp] theorem State.can_setTach (s : State) (i : Nat) (a : Tach) : (s.setTach i a).can = s.can := rfl
@[simp] theorem State.store_setTach (s : State) (i : Nat) (a : Tach) : (s.setTach i a).store = s.store := rfl
@[simp] theorem State.recorder_setTach (s : State) (i : Nat) (a : Tach) : (s.setTach i a).recorder = s.recorder := rfl
@[simp] theorem State.sec_setTach (s : State) (i : Nat) (a : Tach) : (s.setTach i a).sec = s.sec := rfl
@[simp] theorem State.power_setTach (s : State) (i : Nat) (a : Tach) : (s.setTach i a).power = s.power := rfl
@[simp] theorem State.out_setTach (s : State) (i : Nat) (a : Tach) : (s.setTach i a).out = s.out := rfl
@[simp] theorem State.fresh_setTach (s : State) (i : Nat) (a : Tach) : (s.setTach i a).fresh = s.fresh := rfl
@[simp] theorem State.pending_setTach (s : State) (i : Nat) (a : Tach) : (s.setTach i a).pending = s.pending := rfl
@[simp] theorem State.input_setTach (s : State) (i j : Nat) (a : Tach) : (s.setTach i a).input j = s.input j := rfl
@[simp] theorem State.conv_setTach (s : State) (i j : Nat) (a : Tach) : (s.setTach i a).conv j = s.conv j := rfl
@[simp] theorem State.icv_setTach (s : State) (i j : Nat) (a : Tach) : (s.setTach i a).icv j = s.icv j := rfl
@[simp] theorem State.dac_setTach (s : State) (i j : Nat) (a : Tach) : (s.setTach i a).dac j = s.dac j := rfl

@[simp] theorem State.updLane_eq (s : State) (i : Nat) (f : Lane → Lane) : s.updLane i f = s.setLane i (f (s.lane i)) := rfl
@[simp] theorem State.lane_setLane_same (s : State) (i : Nat) (a : Lane) : (s.setLane i a).lane i = a :=
  tget_tset_same _ _ _ _
@[simp] theorem State.lane_setLane_ne (s : State) {i j : Nat} (a : Lane) (h : j ≠ i) :
    (s.setLane i a).lane j = s.lane j := tget_tset_ne _ _ _ h
@[simp] theorem State.clock_setLane (s : State) (i : Nat) (a : Lane) : (s.setLane i a).clock = s.clock := rfl
@[simp] theorem State.ptp_setLane (s : State) (i : Nat) (a : Lane) : (s.setLane i a).ptp = s.ptp := rfl
@[simp] theorem State.servo_setLane (s : State) (i : Nat) (a : Lane) : (s.setLane i a).servo = s.servo := rfl
@[simp] theorem State.lh_setLane (s : State) (i : Nat) (a : Lane) : (s.setLane i a).lh = s.lh := rfl
@[simp] theorem State.tide_setLane (s : State) (i : Nat) (a : Lane) : (s.setLane i a).tide = s.tide := rfl
@[simp] theorem State.table_setLane (s : State) (i : Nat) (a : Lane) : (s.setLane i a).table = s.table := rfl
@[simp] theorem State.tsin_setLane (s : State) (i : Nat) (a : Lane) : (s.setLane i a).tsin = s.tsin := rfl
@[simp] theorem State.tsout_setLane (s : State) (i : Nat) (a : Lane) : (s.setLane i a).tsout = s.tsout := rfl
@[simp] theorem State.tap_setLane (s : State) (i : Nat) (a : Lane) : (s.setLane i a).tap = s.tap := rfl
@[simp] theorem State.ana_setLane (s : State) (i : Nat) (a : Lane) : (s.setLane i a).ana = s.ana := rfl
@[simp] theorem State.model_setLane (s : State) (i : Nat) (a : Lane) : (s.setLane i a).model = s.model := rfl
@[simp] theorem State.sound_setLane (s : State) (i : Nat) (a : Lane) : (s.setLane i a).sound = s.sound := rfl
@[simp] theorem State.therm_setLane (s : State) (i : Nat) (a : Lane) : (s.setLane i a).therm = s.therm := rfl
@[simp] theorem State.safety_setLane (s : State) (i : Nat) (a : Lane) : (s.setLane i a).safety = s.safety := rfl
@[simp] theorem State.net_setLane (s : State) (i : Nat) (a : Lane) : (s.setLane i a).net = s.net := rfl
@[simp] theorem State.ten_setLane (s : State) (i : Nat) (a : Lane) : (s.setLane i a).ten = s.ten := rfl
@[simp] theorem State.fab_setLane (s : State) (i : Nat) (a : Lane) : (s.setLane i a).fab = s.fab := rfl
@[simp] theorem State.mbox_setLane (s : State) (i : Nat) (a : Lane) : (s.setLane i a).mbox = s.mbox := rfl
@[simp] theorem State.can_setLane (s : State) (i : Nat) (a : Lane) : (s.setLane i a).can = s.can := rfl
@[simp] theorem State.store_setLane (s : State) (i : Nat) (a : Lane) : (s.setLane i a).store = s.store := rfl
@[simp] theorem State.recorder_setLane (s : State) (i : Nat) (a : Lane) : (s.setLane i a).recorder = s.recorder := rfl
@[simp] theorem State.sec_setLane (s : State) (i : Nat) (a : Lane) : (s.setLane i a).sec = s.sec := rfl
@[simp] theorem State.power_setLane (s : State) (i : Nat) (a : Lane) : (s.setLane i a).power = s.power := rfl
@[simp] theorem State.out_setLane (s : State) (i : Nat) (a : Lane) : (s.setLane i a).out = s.out := rfl
@[simp] theorem State.fresh_setLane (s : State) (i : Nat) (a : Lane) : (s.setLane i a).fresh = s.fresh := rfl
@[simp] theorem State.pending_setLane (s : State) (i : Nat) (a : Lane) : (s.setLane i a).pending = s.pending := rfl

@[simp] theorem State.updCell_eq (s : State) (i : Nat) (f : Cell → Cell) : s.updCell i f = s.setCell i (f (s.cell i)) := rfl
@[simp] theorem State.cell_setCell_same (s : State) (i : Nat) (a : Cell) : (s.setCell i a).cell i = a :=
  tget_tset_same _ _ _ _
@[simp] theorem State.cell_setCell_ne (s : State) {i j : Nat} (a : Cell) (h : j ≠ i) :
    (s.setCell i a).cell j = s.cell j := tget_tset_ne _ _ _ h
@[simp] theorem State.clock_setCell (s : State) (i : Nat) (a : Cell) : (s.setCell i a).clock = s.clock := rfl
@[simp] theorem State.ptp_setCell (s : State) (i : Nat) (a : Cell) : (s.setCell i a).ptp = s.ptp := rfl
@[simp] theorem State.servo_setCell (s : State) (i : Nat) (a : Cell) : (s.setCell i a).servo = s.servo := rfl
@[simp] theorem State.lh_setCell (s : State) (i : Nat) (a : Cell) : (s.setCell i a).lh = s.lh := rfl
@[simp] theorem State.tide_setCell (s : State) (i : Nat) (a : Cell) : (s.setCell i a).tide = s.tide := rfl
@[simp] theorem State.table_setCell (s : State) (i : Nat) (a : Cell) : (s.setCell i a).table = s.table := rfl
@[simp] theorem State.tsin_setCell (s : State) (i : Nat) (a : Cell) : (s.setCell i a).tsin = s.tsin := rfl
@[simp] theorem State.tsout_setCell (s : State) (i : Nat) (a : Cell) : (s.setCell i a).tsout = s.tsout := rfl
@[simp] theorem State.tap_setCell (s : State) (i : Nat) (a : Cell) : (s.setCell i a).tap = s.tap := rfl
@[simp] theorem State.ana_setCell (s : State) (i : Nat) (a : Cell) : (s.setCell i a).ana = s.ana := rfl
@[simp] theorem State.lanes_setCell (s : State) (i : Nat) (a : Cell) : (s.setCell i a).lanes = s.lanes := rfl
@[simp] theorem State.sound_setCell (s : State) (i : Nat) (a : Cell) : (s.setCell i a).sound = s.sound := rfl
@[simp] theorem State.therm_setCell (s : State) (i : Nat) (a : Cell) : (s.setCell i a).therm = s.therm := rfl
@[simp] theorem State.safety_setCell (s : State) (i : Nat) (a : Cell) : (s.setCell i a).safety = s.safety := rfl
@[simp] theorem State.net_setCell (s : State) (i : Nat) (a : Cell) : (s.setCell i a).net = s.net := rfl
@[simp] theorem State.ten_setCell (s : State) (i : Nat) (a : Cell) : (s.setCell i a).ten = s.ten := rfl
@[simp] theorem State.fab_setCell (s : State) (i : Nat) (a : Cell) : (s.setCell i a).fab = s.fab := rfl
@[simp] theorem State.mbox_setCell (s : State) (i : Nat) (a : Cell) : (s.setCell i a).mbox = s.mbox := rfl
@[simp] theorem State.can_setCell (s : State) (i : Nat) (a : Cell) : (s.setCell i a).can = s.can := rfl
@[simp] theorem State.store_setCell (s : State) (i : Nat) (a : Cell) : (s.setCell i a).store = s.store := rfl
@[simp] theorem State.recorder_setCell (s : State) (i : Nat) (a : Cell) : (s.setCell i a).recorder = s.recorder := rfl
@[simp] theorem State.sec_setCell (s : State) (i : Nat) (a : Cell) : (s.setCell i a).sec = s.sec := rfl
@[simp] theorem State.power_setCell (s : State) (i : Nat) (a : Cell) : (s.setCell i a).power = s.power := rfl
@[simp] theorem State.out_setCell (s : State) (i : Nat) (a : Cell) : (s.setCell i a).out = s.out := rfl
@[simp] theorem State.fresh_setCell (s : State) (i : Nat) (a : Cell) : (s.setCell i a).fresh = s.fresh := rfl
@[simp] theorem State.pending_setCell (s : State) (i : Nat) (a : Cell) : (s.setCell i a).pending = s.pending := rfl
@[simp] theorem State.modelCount_setCell (s : State) (i j : Nat) (a : Cell) : (s.setCell i a).modelCount j = s.modelCount j := rfl

@[simp] theorem State.updModelCount_eq (s : State) (i : Nat) (f : ModelCounters → ModelCounters) : s.updModelCount i f = s.setModelCount i (f (s.modelCount i)) := rfl
@[simp] theorem State.modelCount_setModelCount_same (s : State) (i : Nat) (a : ModelCounters) : (s.setModelCount i a).modelCount i = a :=
  tget_tset_same _ _ _ _
@[simp] theorem State.modelCount_setModelCount_ne (s : State) {i j : Nat} (a : ModelCounters) (h : j ≠ i) :
    (s.setModelCount i a).modelCount j = s.modelCount j := tget_tset_ne _ _ _ h
@[simp] theorem State.clock_setModelCount (s : State) (i : Nat) (a : ModelCounters) : (s.setModelCount i a).clock = s.clock := rfl
@[simp] theorem State.ptp_setModelCount (s : State) (i : Nat) (a : ModelCounters) : (s.setModelCount i a).ptp = s.ptp := rfl
@[simp] theorem State.servo_setModelCount (s : State) (i : Nat) (a : ModelCounters) : (s.setModelCount i a).servo = s.servo := rfl
@[simp] theorem State.lh_setModelCount (s : State) (i : Nat) (a : ModelCounters) : (s.setModelCount i a).lh = s.lh := rfl
@[simp] theorem State.tide_setModelCount (s : State) (i : Nat) (a : ModelCounters) : (s.setModelCount i a).tide = s.tide := rfl
@[simp] theorem State.table_setModelCount (s : State) (i : Nat) (a : ModelCounters) : (s.setModelCount i a).table = s.table := rfl
@[simp] theorem State.tsin_setModelCount (s : State) (i : Nat) (a : ModelCounters) : (s.setModelCount i a).tsin = s.tsin := rfl
@[simp] theorem State.tsout_setModelCount (s : State) (i : Nat) (a : ModelCounters) : (s.setModelCount i a).tsout = s.tsout := rfl
@[simp] theorem State.tap_setModelCount (s : State) (i : Nat) (a : ModelCounters) : (s.setModelCount i a).tap = s.tap := rfl
@[simp] theorem State.ana_setModelCount (s : State) (i : Nat) (a : ModelCounters) : (s.setModelCount i a).ana = s.ana := rfl
@[simp] theorem State.lanes_setModelCount (s : State) (i : Nat) (a : ModelCounters) : (s.setModelCount i a).lanes = s.lanes := rfl
@[simp] theorem State.sound_setModelCount (s : State) (i : Nat) (a : ModelCounters) : (s.setModelCount i a).sound = s.sound := rfl
@[simp] theorem State.therm_setModelCount (s : State) (i : Nat) (a : ModelCounters) : (s.setModelCount i a).therm = s.therm := rfl
@[simp] theorem State.safety_setModelCount (s : State) (i : Nat) (a : ModelCounters) : (s.setModelCount i a).safety = s.safety := rfl
@[simp] theorem State.net_setModelCount (s : State) (i : Nat) (a : ModelCounters) : (s.setModelCount i a).net = s.net := rfl
@[simp] theorem State.ten_setModelCount (s : State) (i : Nat) (a : ModelCounters) : (s.setModelCount i a).ten = s.ten := rfl
@[simp] theorem State.fab_setModelCount (s : State) (i : Nat) (a : ModelCounters) : (s.setModelCount i a).fab = s.fab := rfl
@[simp] theorem State.mbox_setModelCount (s : State) (i : Nat) (a : ModelCounters) : (s.setModelCount i a).mbox = s.mbox := rfl
@[simp] theorem State.can_setModelCount (s : State) (i : Nat) (a : ModelCounters) : (s.setModelCount i a).can = s.can := rfl
@[simp] theorem State.store_setModelCount (s : State) (i : Nat) (a : ModelCounters) : (s.setModelCount i a).store = s.store := rfl
@[simp] theorem State.recorder_setModelCount (s : State) (i : Nat) (a : ModelCounters) : (s.setModelCount i a).recorder = s.recorder := rfl
@[simp] theorem State.sec_setModelCount (s : State) (i : Nat) (a : ModelCounters) : (s.setModelCount i a).sec = s.sec := rfl
@[simp] theorem State.power_setModelCount (s : State) (i : Nat) (a : ModelCounters) : (s.setModelCount i a).power = s.power := rfl
@[simp] theorem State.out_setModelCount (s : State) (i : Nat) (a : ModelCounters) : (s.setModelCount i a).out = s.out := rfl
@[simp] theorem State.fresh_setModelCount (s : State) (i : Nat) (a : ModelCounters) : (s.setModelCount i a).fresh = s.fresh := rfl
@[simp] theorem State.pending_setModelCount (s : State) (i : Nat) (a : ModelCounters) : (s.setModelCount i a).pending = s.pending := rfl
@[simp] theorem State.cell_setModelCount (s : State) (i j : Nat) (a : ModelCounters) : (s.setModelCount i a).cell j = s.cell j := rfl

@[simp] theorem State.updLaneSound_eq (s : State) (i : Nat) (f : LaneSound → LaneSound) : s.updLaneSound i f = s.setLaneSound i (f (s.laneSound i)) := rfl
@[simp] theorem State.laneSound_setLaneSound_same (s : State) (i : Nat) (a : LaneSound) : (s.setLaneSound i a).laneSound i = a :=
  tget_tset_same _ _ _ _
@[simp] theorem State.laneSound_setLaneSound_ne (s : State) {i j : Nat} (a : LaneSound) (h : j ≠ i) :
    (s.setLaneSound i a).laneSound j = s.laneSound j := tget_tset_ne _ _ _ h
@[simp] theorem State.clock_setLaneSound (s : State) (i : Nat) (a : LaneSound) : (s.setLaneSound i a).clock = s.clock := rfl
@[simp] theorem State.ptp_setLaneSound (s : State) (i : Nat) (a : LaneSound) : (s.setLaneSound i a).ptp = s.ptp := rfl
@[simp] theorem State.servo_setLaneSound (s : State) (i : Nat) (a : LaneSound) : (s.setLaneSound i a).servo = s.servo := rfl
@[simp] theorem State.lh_setLaneSound (s : State) (i : Nat) (a : LaneSound) : (s.setLaneSound i a).lh = s.lh := rfl
@[simp] theorem State.tide_setLaneSound (s : State) (i : Nat) (a : LaneSound) : (s.setLaneSound i a).tide = s.tide := rfl
@[simp] theorem State.table_setLaneSound (s : State) (i : Nat) (a : LaneSound) : (s.setLaneSound i a).table = s.table := rfl
@[simp] theorem State.tsin_setLaneSound (s : State) (i : Nat) (a : LaneSound) : (s.setLaneSound i a).tsin = s.tsin := rfl
@[simp] theorem State.tsout_setLaneSound (s : State) (i : Nat) (a : LaneSound) : (s.setLaneSound i a).tsout = s.tsout := rfl
@[simp] theorem State.tap_setLaneSound (s : State) (i : Nat) (a : LaneSound) : (s.setLaneSound i a).tap = s.tap := rfl
@[simp] theorem State.ana_setLaneSound (s : State) (i : Nat) (a : LaneSound) : (s.setLaneSound i a).ana = s.ana := rfl
@[simp] theorem State.lanes_setLaneSound (s : State) (i : Nat) (a : LaneSound) : (s.setLaneSound i a).lanes = s.lanes := rfl
@[simp] theorem State.model_setLaneSound (s : State) (i : Nat) (a : LaneSound) : (s.setLaneSound i a).model = s.model := rfl
@[simp] theorem State.therm_setLaneSound (s : State) (i : Nat) (a : LaneSound) : (s.setLaneSound i a).therm = s.therm := rfl
@[simp] theorem State.safety_setLaneSound (s : State) (i : Nat) (a : LaneSound) : (s.setLaneSound i a).safety = s.safety := rfl
@[simp] theorem State.net_setLaneSound (s : State) (i : Nat) (a : LaneSound) : (s.setLaneSound i a).net = s.net := rfl
@[simp] theorem State.ten_setLaneSound (s : State) (i : Nat) (a : LaneSound) : (s.setLaneSound i a).ten = s.ten := rfl
@[simp] theorem State.fab_setLaneSound (s : State) (i : Nat) (a : LaneSound) : (s.setLaneSound i a).fab = s.fab := rfl
@[simp] theorem State.mbox_setLaneSound (s : State) (i : Nat) (a : LaneSound) : (s.setLaneSound i a).mbox = s.mbox := rfl
@[simp] theorem State.can_setLaneSound (s : State) (i : Nat) (a : LaneSound) : (s.setLaneSound i a).can = s.can := rfl
@[simp] theorem State.store_setLaneSound (s : State) (i : Nat) (a : LaneSound) : (s.setLaneSound i a).store = s.store := rfl
@[simp] theorem State.recorder_setLaneSound (s : State) (i : Nat) (a : LaneSound) : (s.setLaneSound i a).recorder = s.recorder := rfl
@[simp] theorem State.sec_setLaneSound (s : State) (i : Nat) (a : LaneSound) : (s.setLaneSound i a).sec = s.sec := rfl
@[simp] theorem State.power_setLaneSound (s : State) (i : Nat) (a : LaneSound) : (s.setLaneSound i a).power = s.power := rfl
@[simp] theorem State.out_setLaneSound (s : State) (i : Nat) (a : LaneSound) : (s.setLaneSound i a).out = s.out := rfl
@[simp] theorem State.fresh_setLaneSound (s : State) (i : Nat) (a : LaneSound) : (s.setLaneSound i a).fresh = s.fresh := rfl
@[simp] theorem State.pending_setLaneSound (s : State) (i : Nat) (a : LaneSound) : (s.setLaneSound i a).pending = s.pending := rfl
@[simp] theorem State.spring_setLaneSound (s : State) (i j : Nat) (a : LaneSound) : (s.setLaneSound i a).spring j = s.spring j := rfl

@[simp] theorem State.updSpring_eq (s : State) (i : Nat) (f : Spring → Spring) : s.updSpring i f = s.setSpring i (f (s.spring i)) := rfl
@[simp] theorem State.spring_setSpring_same (s : State) (i : Nat) (a : Spring) : (s.setSpring i a).spring i = a :=
  tget_tset_same _ _ _ _
@[simp] theorem State.spring_setSpring_ne (s : State) {i j : Nat} (a : Spring) (h : j ≠ i) :
    (s.setSpring i a).spring j = s.spring j := tget_tset_ne _ _ _ h
@[simp] theorem State.clock_setSpring (s : State) (i : Nat) (a : Spring) : (s.setSpring i a).clock = s.clock := rfl
@[simp] theorem State.ptp_setSpring (s : State) (i : Nat) (a : Spring) : (s.setSpring i a).ptp = s.ptp := rfl
@[simp] theorem State.servo_setSpring (s : State) (i : Nat) (a : Spring) : (s.setSpring i a).servo = s.servo := rfl
@[simp] theorem State.lh_setSpring (s : State) (i : Nat) (a : Spring) : (s.setSpring i a).lh = s.lh := rfl
@[simp] theorem State.tide_setSpring (s : State) (i : Nat) (a : Spring) : (s.setSpring i a).tide = s.tide := rfl
@[simp] theorem State.table_setSpring (s : State) (i : Nat) (a : Spring) : (s.setSpring i a).table = s.table := rfl
@[simp] theorem State.tsin_setSpring (s : State) (i : Nat) (a : Spring) : (s.setSpring i a).tsin = s.tsin := rfl
@[simp] theorem State.tsout_setSpring (s : State) (i : Nat) (a : Spring) : (s.setSpring i a).tsout = s.tsout := rfl
@[simp] theorem State.tap_setSpring (s : State) (i : Nat) (a : Spring) : (s.setSpring i a).tap = s.tap := rfl
@[simp] theorem State.ana_setSpring (s : State) (i : Nat) (a : Spring) : (s.setSpring i a).ana = s.ana := rfl
@[simp] theorem State.lanes_setSpring (s : State) (i : Nat) (a : Spring) : (s.setSpring i a).lanes = s.lanes := rfl
@[simp] theorem State.model_setSpring (s : State) (i : Nat) (a : Spring) : (s.setSpring i a).model = s.model := rfl
@[simp] theorem State.therm_setSpring (s : State) (i : Nat) (a : Spring) : (s.setSpring i a).therm = s.therm := rfl
@[simp] theorem State.safety_setSpring (s : State) (i : Nat) (a : Spring) : (s.setSpring i a).safety = s.safety := rfl
@[simp] theorem State.net_setSpring (s : State) (i : Nat) (a : Spring) : (s.setSpring i a).net = s.net := rfl
@[simp] theorem State.ten_setSpring (s : State) (i : Nat) (a : Spring) : (s.setSpring i a).ten = s.ten := rfl
@[simp] theorem State.fab_setSpring (s : State) (i : Nat) (a : Spring) : (s.setSpring i a).fab = s.fab := rfl
@[simp] theorem State.mbox_setSpring (s : State) (i : Nat) (a : Spring) : (s.setSpring i a).mbox = s.mbox := rfl
@[simp] theorem State.can_setSpring (s : State) (i : Nat) (a : Spring) : (s.setSpring i a).can = s.can := rfl
@[simp] theorem State.store_setSpring (s : State) (i : Nat) (a : Spring) : (s.setSpring i a).store = s.store := rfl
@[simp] theorem State.recorder_setSpring (s : State) (i : Nat) (a : Spring) : (s.setSpring i a).recorder = s.recorder := rfl
@[simp] theorem State.sec_setSpring (s : State) (i : Nat) (a : Spring) : (s.setSpring i a).sec = s.sec := rfl
@[simp] theorem State.power_setSpring (s : State) (i : Nat) (a : Spring) : (s.setSpring i a).power = s.power := rfl
@[simp] theorem State.out_setSpring (s : State) (i : Nat) (a : Spring) : (s.setSpring i a).out = s.out := rfl
@[simp] theorem State.fresh_setSpring (s : State) (i : Nat) (a : Spring) : (s.setSpring i a).fresh = s.fresh := rfl
@[simp] theorem State.pending_setSpring (s : State) (i : Nat) (a : Spring) : (s.setSpring i a).pending = s.pending := rfl
@[simp] theorem State.laneSound_setSpring (s : State) (i j : Nat) (a : Spring) : (s.setSpring i a).laneSound j = s.laneSound j := rfl

@[simp] theorem State.updLaneTherm_eq (s : State) (i : Nat) (f : LaneTherm → LaneTherm) : s.updLaneTherm i f = s.setLaneTherm i (f (s.laneTherm i)) := rfl
@[simp] theorem State.laneTherm_setLaneTherm_same (s : State) (i : Nat) (a : LaneTherm) : (s.setLaneTherm i a).laneTherm i = a :=
  tget_tset_same _ _ _ _
@[simp] theorem State.laneTherm_setLaneTherm_ne (s : State) {i j : Nat} (a : LaneTherm) (h : j ≠ i) :
    (s.setLaneTherm i a).laneTherm j = s.laneTherm j := tget_tset_ne _ _ _ h
@[simp] theorem State.clock_setLaneTherm (s : State) (i : Nat) (a : LaneTherm) : (s.setLaneTherm i a).clock = s.clock := rfl
@[simp] theorem State.ptp_setLaneTherm (s : State) (i : Nat) (a : LaneTherm) : (s.setLaneTherm i a).ptp = s.ptp := rfl
@[simp] theorem State.servo_setLaneTherm (s : State) (i : Nat) (a : LaneTherm) : (s.setLaneTherm i a).servo = s.servo := rfl
@[simp] theorem State.lh_setLaneTherm (s : State) (i : Nat) (a : LaneTherm) : (s.setLaneTherm i a).lh = s.lh := rfl
@[simp] theorem State.tide_setLaneTherm (s : State) (i : Nat) (a : LaneTherm) : (s.setLaneTherm i a).tide = s.tide := rfl
@[simp] theorem State.table_setLaneTherm (s : State) (i : Nat) (a : LaneTherm) : (s.setLaneTherm i a).table = s.table := rfl
@[simp] theorem State.tsin_setLaneTherm (s : State) (i : Nat) (a : LaneTherm) : (s.setLaneTherm i a).tsin = s.tsin := rfl
@[simp] theorem State.tsout_setLaneTherm (s : State) (i : Nat) (a : LaneTherm) : (s.setLaneTherm i a).tsout = s.tsout := rfl
@[simp] theorem State.tap_setLaneTherm (s : State) (i : Nat) (a : LaneTherm) : (s.setLaneTherm i a).tap = s.tap := rfl
@[simp] theorem State.ana_setLaneTherm (s : State) (i : Nat) (a : LaneTherm) : (s.setLaneTherm i a).ana = s.ana := rfl
@[simp] theorem State.lanes_setLaneTherm (s : State) (i : Nat) (a : LaneTherm) : (s.setLaneTherm i a).lanes = s.lanes := rfl
@[simp] theorem State.model_setLaneTherm (s : State) (i : Nat) (a : LaneTherm) : (s.setLaneTherm i a).model = s.model := rfl
@[simp] theorem State.sound_setLaneTherm (s : State) (i : Nat) (a : LaneTherm) : (s.setLaneTherm i a).sound = s.sound := rfl
@[simp] theorem State.safety_setLaneTherm (s : State) (i : Nat) (a : LaneTherm) : (s.setLaneTherm i a).safety = s.safety := rfl
@[simp] theorem State.net_setLaneTherm (s : State) (i : Nat) (a : LaneTherm) : (s.setLaneTherm i a).net = s.net := rfl
@[simp] theorem State.ten_setLaneTherm (s : State) (i : Nat) (a : LaneTherm) : (s.setLaneTherm i a).ten = s.ten := rfl
@[simp] theorem State.fab_setLaneTherm (s : State) (i : Nat) (a : LaneTherm) : (s.setLaneTherm i a).fab = s.fab := rfl
@[simp] theorem State.mbox_setLaneTherm (s : State) (i : Nat) (a : LaneTherm) : (s.setLaneTherm i a).mbox = s.mbox := rfl
@[simp] theorem State.can_setLaneTherm (s : State) (i : Nat) (a : LaneTherm) : (s.setLaneTherm i a).can = s.can := rfl
@[simp] theorem State.store_setLaneTherm (s : State) (i : Nat) (a : LaneTherm) : (s.setLaneTherm i a).store = s.store := rfl
@[simp] theorem State.recorder_setLaneTherm (s : State) (i : Nat) (a : LaneTherm) : (s.setLaneTherm i a).recorder = s.recorder := rfl
@[simp] theorem State.sec_setLaneTherm (s : State) (i : Nat) (a : LaneTherm) : (s.setLaneTherm i a).sec = s.sec := rfl
@[simp] theorem State.power_setLaneTherm (s : State) (i : Nat) (a : LaneTherm) : (s.setLaneTherm i a).power = s.power := rfl
@[simp] theorem State.out_setLaneTherm (s : State) (i : Nat) (a : LaneTherm) : (s.setLaneTherm i a).out = s.out := rfl
@[simp] theorem State.fresh_setLaneTherm (s : State) (i : Nat) (a : LaneTherm) : (s.setLaneTherm i a).fresh = s.fresh := rfl
@[simp] theorem State.pending_setLaneTherm (s : State) (i : Nat) (a : LaneTherm) : (s.setLaneTherm i a).pending = s.pending := rfl
@[simp] theorem State.balPort_setLaneTherm (s : State) (i j : Nat) (a : LaneTherm) : (s.setLaneTherm i a).balPort j = s.balPort j := rfl
@[simp] theorem State.sensor_setLaneTherm (s : State) (i j : Nat) (a : LaneTherm) : (s.setLaneTherm i a).sensor j = s.sensor j := rfl
@[simp] theorem State.coolLoop_setLaneTherm (s : State) (i j : Nat) (a : LaneTherm) : (s.setLaneTherm i a).coolLoop j = s.coolLoop j := rfl
@[simp] theorem State.aux_setLaneTherm (s : State) (i j : Nat) (a : LaneTherm) : (s.setLaneTherm i a).aux j = s.aux j := rfl

@[simp] theorem State.updBalPort_eq (s : State) (i : Nat) (f : BalPort → BalPort) : s.updBalPort i f = s.setBalPort i (f (s.balPort i)) := rfl
@[simp] theorem State.balPort_setBalPort_same (s : State) (i : Nat) (a : BalPort) : (s.setBalPort i a).balPort i = a :=
  tget_tset_same _ _ _ _
@[simp] theorem State.balPort_setBalPort_ne (s : State) {i j : Nat} (a : BalPort) (h : j ≠ i) :
    (s.setBalPort i a).balPort j = s.balPort j := tget_tset_ne _ _ _ h
@[simp] theorem State.clock_setBalPort (s : State) (i : Nat) (a : BalPort) : (s.setBalPort i a).clock = s.clock := rfl
@[simp] theorem State.ptp_setBalPort (s : State) (i : Nat) (a : BalPort) : (s.setBalPort i a).ptp = s.ptp := rfl
@[simp] theorem State.servo_setBalPort (s : State) (i : Nat) (a : BalPort) : (s.setBalPort i a).servo = s.servo := rfl
@[simp] theorem State.lh_setBalPort (s : State) (i : Nat) (a : BalPort) : (s.setBalPort i a).lh = s.lh := rfl
@[simp] theorem State.tide_setBalPort (s : State) (i : Nat) (a : BalPort) : (s.setBalPort i a).tide = s.tide := rfl
@[simp] theorem State.table_setBalPort (s : State) (i : Nat) (a : BalPort) : (s.setBalPort i a).table = s.table := rfl
@[simp] theorem State.tsin_setBalPort (s : State) (i : Nat) (a : BalPort) : (s.setBalPort i a).tsin = s.tsin := rfl
@[simp] theorem State.tsout_setBalPort (s : State) (i : Nat) (a : BalPort) : (s.setBalPort i a).tsout = s.tsout := rfl
@[simp] theorem State.tap_setBalPort (s : State) (i : Nat) (a : BalPort) : (s.setBalPort i a).tap = s.tap := rfl
@[simp] theorem State.ana_setBalPort (s : State) (i : Nat) (a : BalPort) : (s.setBalPort i a).ana = s.ana := rfl
@[simp] theorem State.lanes_setBalPort (s : State) (i : Nat) (a : BalPort) : (s.setBalPort i a).lanes = s.lanes := rfl
@[simp] theorem State.model_setBalPort (s : State) (i : Nat) (a : BalPort) : (s.setBalPort i a).model = s.model := rfl
@[simp] theorem State.sound_setBalPort (s : State) (i : Nat) (a : BalPort) : (s.setBalPort i a).sound = s.sound := rfl
@[simp] theorem State.safety_setBalPort (s : State) (i : Nat) (a : BalPort) : (s.setBalPort i a).safety = s.safety := rfl
@[simp] theorem State.net_setBalPort (s : State) (i : Nat) (a : BalPort) : (s.setBalPort i a).net = s.net := rfl
@[simp] theorem State.ten_setBalPort (s : State) (i : Nat) (a : BalPort) : (s.setBalPort i a).ten = s.ten := rfl
@[simp] theorem State.fab_setBalPort (s : State) (i : Nat) (a : BalPort) : (s.setBalPort i a).fab = s.fab := rfl
@[simp] theorem State.mbox_setBalPort (s : State) (i : Nat) (a : BalPort) : (s.setBalPort i a).mbox = s.mbox := rfl
@[simp] theorem State.can_setBalPort (s : State) (i : Nat) (a : BalPort) : (s.setBalPort i a).can = s.can := rfl
@[simp] theorem State.store_setBalPort (s : State) (i : Nat) (a : BalPort) : (s.setBalPort i a).store = s.store := rfl
@[simp] theorem State.recorder_setBalPort (s : State) (i : Nat) (a : BalPort) : (s.setBalPort i a).recorder = s.recorder := rfl
@[simp] theorem State.sec_setBalPort (s : State) (i : Nat) (a : BalPort) : (s.setBalPort i a).sec = s.sec := rfl
@[simp] theorem State.power_setBalPort (s : State) (i : Nat) (a : BalPort) : (s.setBalPort i a).power = s.power := rfl
@[simp] theorem State.out_setBalPort (s : State) (i : Nat) (a : BalPort) : (s.setBalPort i a).out = s.out := rfl
@[simp] theorem State.fresh_setBalPort (s : State) (i : Nat) (a : BalPort) : (s.setBalPort i a).fresh = s.fresh := rfl
@[simp] theorem State.pending_setBalPort (s : State) (i : Nat) (a : BalPort) : (s.setBalPort i a).pending = s.pending := rfl
@[simp] theorem State.laneTherm_setBalPort (s : State) (i j : Nat) (a : BalPort) : (s.setBalPort i a).laneTherm j = s.laneTherm j := rfl
@[simp] theorem State.sensor_setBalPort (s : State) (i j : Nat) (a : BalPort) : (s.setBalPort i a).sensor j = s.sensor j := rfl
@[simp] theorem State.coolLoop_setBalPort (s : State) (i j : Nat) (a : BalPort) : (s.setBalPort i a).coolLoop j = s.coolLoop j := rfl
@[simp] theorem State.aux_setBalPort (s : State) (i j : Nat) (a : BalPort) : (s.setBalPort i a).aux j = s.aux j := rfl

@[simp] theorem State.updSensor_eq (s : State) (i : Nat) (f : SensorState → SensorState) : s.updSensor i f = s.setSensor i (f (s.sensor i)) := rfl
@[simp] theorem State.sensor_setSensor_same (s : State) (i : Nat) (a : SensorState) : (s.setSensor i a).sensor i = a :=
  tget_tset_same _ _ _ _
@[simp] theorem State.sensor_setSensor_ne (s : State) {i j : Nat} (a : SensorState) (h : j ≠ i) :
    (s.setSensor i a).sensor j = s.sensor j := tget_tset_ne _ _ _ h
@[simp] theorem State.clock_setSensor (s : State) (i : Nat) (a : SensorState) : (s.setSensor i a).clock = s.clock := rfl
@[simp] theorem State.ptp_setSensor (s : State) (i : Nat) (a : SensorState) : (s.setSensor i a).ptp = s.ptp := rfl
@[simp] theorem State.servo_setSensor (s : State) (i : Nat) (a : SensorState) : (s.setSensor i a).servo = s.servo := rfl
@[simp] theorem State.lh_setSensor (s : State) (i : Nat) (a : SensorState) : (s.setSensor i a).lh = s.lh := rfl
@[simp] theorem State.tide_setSensor (s : State) (i : Nat) (a : SensorState) : (s.setSensor i a).tide = s.tide := rfl
@[simp] theorem State.table_setSensor (s : State) (i : Nat) (a : SensorState) : (s.setSensor i a).table = s.table := rfl
@[simp] theorem State.tsin_setSensor (s : State) (i : Nat) (a : SensorState) : (s.setSensor i a).tsin = s.tsin := rfl
@[simp] theorem State.tsout_setSensor (s : State) (i : Nat) (a : SensorState) : (s.setSensor i a).tsout = s.tsout := rfl
@[simp] theorem State.tap_setSensor (s : State) (i : Nat) (a : SensorState) : (s.setSensor i a).tap = s.tap := rfl
@[simp] theorem State.ana_setSensor (s : State) (i : Nat) (a : SensorState) : (s.setSensor i a).ana = s.ana := rfl
@[simp] theorem State.lanes_setSensor (s : State) (i : Nat) (a : SensorState) : (s.setSensor i a).lanes = s.lanes := rfl
@[simp] theorem State.model_setSensor (s : State) (i : Nat) (a : SensorState) : (s.setSensor i a).model = s.model := rfl
@[simp] theorem State.sound_setSensor (s : State) (i : Nat) (a : SensorState) : (s.setSensor i a).sound = s.sound := rfl
@[simp] theorem State.safety_setSensor (s : State) (i : Nat) (a : SensorState) : (s.setSensor i a).safety = s.safety := rfl
@[simp] theorem State.net_setSensor (s : State) (i : Nat) (a : SensorState) : (s.setSensor i a).net = s.net := rfl
@[simp] theorem State.ten_setSensor (s : State) (i : Nat) (a : SensorState) : (s.setSensor i a).ten = s.ten := rfl
@[simp] theorem State.fab_setSensor (s : State) (i : Nat) (a : SensorState) : (s.setSensor i a).fab = s.fab := rfl
@[simp] theorem State.mbox_setSensor (s : State) (i : Nat) (a : SensorState) : (s.setSensor i a).mbox = s.mbox := rfl
@[simp] theorem State.can_setSensor (s : State) (i : Nat) (a : SensorState) : (s.setSensor i a).can = s.can := rfl
@[simp] theorem State.store_setSensor (s : State) (i : Nat) (a : SensorState) : (s.setSensor i a).store = s.store := rfl
@[simp] theorem State.recorder_setSensor (s : State) (i : Nat) (a : SensorState) : (s.setSensor i a).recorder = s.recorder := rfl
@[simp] theorem State.sec_setSensor (s : State) (i : Nat) (a : SensorState) : (s.setSensor i a).sec = s.sec := rfl
@[simp] theorem State.power_setSensor (s : State) (i : Nat) (a : SensorState) : (s.setSensor i a).power = s.power := rfl
@[simp] theorem State.out_setSensor (s : State) (i : Nat) (a : SensorState) : (s.setSensor i a).out = s.out := rfl
@[simp] theorem State.fresh_setSensor (s : State) (i : Nat) (a : SensorState) : (s.setSensor i a).fresh = s.fresh := rfl
@[simp] theorem State.pending_setSensor (s : State) (i : Nat) (a : SensorState) : (s.setSensor i a).pending = s.pending := rfl
@[simp] theorem State.laneTherm_setSensor (s : State) (i j : Nat) (a : SensorState) : (s.setSensor i a).laneTherm j = s.laneTherm j := rfl
@[simp] theorem State.balPort_setSensor (s : State) (i j : Nat) (a : SensorState) : (s.setSensor i a).balPort j = s.balPort j := rfl
@[simp] theorem State.coolLoop_setSensor (s : State) (i j : Nat) (a : SensorState) : (s.setSensor i a).coolLoop j = s.coolLoop j := rfl
@[simp] theorem State.aux_setSensor (s : State) (i j : Nat) (a : SensorState) : (s.setSensor i a).aux j = s.aux j := rfl

@[simp] theorem State.updCoolLoop_eq (s : State) (i : Nat) (f : CoolLoop → CoolLoop) : s.updCoolLoop i f = s.setCoolLoop i (f (s.coolLoop i)) := rfl
@[simp] theorem State.coolLoop_setCoolLoop_same (s : State) (i : Nat) (a : CoolLoop) : (s.setCoolLoop i a).coolLoop i = a :=
  tget_tset_same _ _ _ _
@[simp] theorem State.coolLoop_setCoolLoop_ne (s : State) {i j : Nat} (a : CoolLoop) (h : j ≠ i) :
    (s.setCoolLoop i a).coolLoop j = s.coolLoop j := tget_tset_ne _ _ _ h
@[simp] theorem State.clock_setCoolLoop (s : State) (i : Nat) (a : CoolLoop) : (s.setCoolLoop i a).clock = s.clock := rfl
@[simp] theorem State.ptp_setCoolLoop (s : State) (i : Nat) (a : CoolLoop) : (s.setCoolLoop i a).ptp = s.ptp := rfl
@[simp] theorem State.servo_setCoolLoop (s : State) (i : Nat) (a : CoolLoop) : (s.setCoolLoop i a).servo = s.servo := rfl
@[simp] theorem State.lh_setCoolLoop (s : State) (i : Nat) (a : CoolLoop) : (s.setCoolLoop i a).lh = s.lh := rfl
@[simp] theorem State.tide_setCoolLoop (s : State) (i : Nat) (a : CoolLoop) : (s.setCoolLoop i a).tide = s.tide := rfl
@[simp] theorem State.table_setCoolLoop (s : State) (i : Nat) (a : CoolLoop) : (s.setCoolLoop i a).table = s.table := rfl
@[simp] theorem State.tsin_setCoolLoop (s : State) (i : Nat) (a : CoolLoop) : (s.setCoolLoop i a).tsin = s.tsin := rfl
@[simp] theorem State.tsout_setCoolLoop (s : State) (i : Nat) (a : CoolLoop) : (s.setCoolLoop i a).tsout = s.tsout := rfl
@[simp] theorem State.tap_setCoolLoop (s : State) (i : Nat) (a : CoolLoop) : (s.setCoolLoop i a).tap = s.tap := rfl
@[simp] theorem State.ana_setCoolLoop (s : State) (i : Nat) (a : CoolLoop) : (s.setCoolLoop i a).ana = s.ana := rfl
@[simp] theorem State.lanes_setCoolLoop (s : State) (i : Nat) (a : CoolLoop) : (s.setCoolLoop i a).lanes = s.lanes := rfl
@[simp] theorem State.model_setCoolLoop (s : State) (i : Nat) (a : CoolLoop) : (s.setCoolLoop i a).model = s.model := rfl
@[simp] theorem State.sound_setCoolLoop (s : State) (i : Nat) (a : CoolLoop) : (s.setCoolLoop i a).sound = s.sound := rfl
@[simp] theorem State.safety_setCoolLoop (s : State) (i : Nat) (a : CoolLoop) : (s.setCoolLoop i a).safety = s.safety := rfl
@[simp] theorem State.net_setCoolLoop (s : State) (i : Nat) (a : CoolLoop) : (s.setCoolLoop i a).net = s.net := rfl
@[simp] theorem State.ten_setCoolLoop (s : State) (i : Nat) (a : CoolLoop) : (s.setCoolLoop i a).ten = s.ten := rfl
@[simp] theorem State.fab_setCoolLoop (s : State) (i : Nat) (a : CoolLoop) : (s.setCoolLoop i a).fab = s.fab := rfl
@[simp] theorem State.mbox_setCoolLoop (s : State) (i : Nat) (a : CoolLoop) : (s.setCoolLoop i a).mbox = s.mbox := rfl
@[simp] theorem State.can_setCoolLoop (s : State) (i : Nat) (a : CoolLoop) : (s.setCoolLoop i a).can = s.can := rfl
@[simp] theorem State.store_setCoolLoop (s : State) (i : Nat) (a : CoolLoop) : (s.setCoolLoop i a).store = s.store := rfl
@[simp] theorem State.recorder_setCoolLoop (s : State) (i : Nat) (a : CoolLoop) : (s.setCoolLoop i a).recorder = s.recorder := rfl
@[simp] theorem State.sec_setCoolLoop (s : State) (i : Nat) (a : CoolLoop) : (s.setCoolLoop i a).sec = s.sec := rfl
@[simp] theorem State.power_setCoolLoop (s : State) (i : Nat) (a : CoolLoop) : (s.setCoolLoop i a).power = s.power := rfl
@[simp] theorem State.out_setCoolLoop (s : State) (i : Nat) (a : CoolLoop) : (s.setCoolLoop i a).out = s.out := rfl
@[simp] theorem State.fresh_setCoolLoop (s : State) (i : Nat) (a : CoolLoop) : (s.setCoolLoop i a).fresh = s.fresh := rfl
@[simp] theorem State.pending_setCoolLoop (s : State) (i : Nat) (a : CoolLoop) : (s.setCoolLoop i a).pending = s.pending := rfl
@[simp] theorem State.laneTherm_setCoolLoop (s : State) (i j : Nat) (a : CoolLoop) : (s.setCoolLoop i a).laneTherm j = s.laneTherm j := rfl
@[simp] theorem State.balPort_setCoolLoop (s : State) (i j : Nat) (a : CoolLoop) : (s.setCoolLoop i a).balPort j = s.balPort j := rfl
@[simp] theorem State.sensor_setCoolLoop (s : State) (i j : Nat) (a : CoolLoop) : (s.setCoolLoop i a).sensor j = s.sensor j := rfl
@[simp] theorem State.aux_setCoolLoop (s : State) (i j : Nat) (a : CoolLoop) : (s.setCoolLoop i a).aux j = s.aux j := rfl

@[simp] theorem State.updAux_eq (s : State) (i : Nat) (f : AuxPwm → AuxPwm) : s.updAux i f = s.setAux i (f (s.aux i)) := rfl
@[simp] theorem State.aux_setAux_same (s : State) (i : Nat) (a : AuxPwm) : (s.setAux i a).aux i = a :=
  tget_tset_same _ _ _ _
@[simp] theorem State.aux_setAux_ne (s : State) {i j : Nat} (a : AuxPwm) (h : j ≠ i) :
    (s.setAux i a).aux j = s.aux j := tget_tset_ne _ _ _ h
@[simp] theorem State.clock_setAux (s : State) (i : Nat) (a : AuxPwm) : (s.setAux i a).clock = s.clock := rfl
@[simp] theorem State.ptp_setAux (s : State) (i : Nat) (a : AuxPwm) : (s.setAux i a).ptp = s.ptp := rfl
@[simp] theorem State.servo_setAux (s : State) (i : Nat) (a : AuxPwm) : (s.setAux i a).servo = s.servo := rfl
@[simp] theorem State.lh_setAux (s : State) (i : Nat) (a : AuxPwm) : (s.setAux i a).lh = s.lh := rfl
@[simp] theorem State.tide_setAux (s : State) (i : Nat) (a : AuxPwm) : (s.setAux i a).tide = s.tide := rfl
@[simp] theorem State.table_setAux (s : State) (i : Nat) (a : AuxPwm) : (s.setAux i a).table = s.table := rfl
@[simp] theorem State.tsin_setAux (s : State) (i : Nat) (a : AuxPwm) : (s.setAux i a).tsin = s.tsin := rfl
@[simp] theorem State.tsout_setAux (s : State) (i : Nat) (a : AuxPwm) : (s.setAux i a).tsout = s.tsout := rfl
@[simp] theorem State.tap_setAux (s : State) (i : Nat) (a : AuxPwm) : (s.setAux i a).tap = s.tap := rfl
@[simp] theorem State.ana_setAux (s : State) (i : Nat) (a : AuxPwm) : (s.setAux i a).ana = s.ana := rfl
@[simp] theorem State.lanes_setAux (s : State) (i : Nat) (a : AuxPwm) : (s.setAux i a).lanes = s.lanes := rfl
@[simp] theorem State.model_setAux (s : State) (i : Nat) (a : AuxPwm) : (s.setAux i a).model = s.model := rfl
@[simp] theorem State.sound_setAux (s : State) (i : Nat) (a : AuxPwm) : (s.setAux i a).sound = s.sound := rfl
@[simp] theorem State.safety_setAux (s : State) (i : Nat) (a : AuxPwm) : (s.setAux i a).safety = s.safety := rfl
@[simp] theorem State.net_setAux (s : State) (i : Nat) (a : AuxPwm) : (s.setAux i a).net = s.net := rfl
@[simp] theorem State.ten_setAux (s : State) (i : Nat) (a : AuxPwm) : (s.setAux i a).ten = s.ten := rfl
@[simp] theorem State.fab_setAux (s : State) (i : Nat) (a : AuxPwm) : (s.setAux i a).fab = s.fab := rfl
@[simp] theorem State.mbox_setAux (s : State) (i : Nat) (a : AuxPwm) : (s.setAux i a).mbox = s.mbox := rfl
@[simp] theorem State.can_setAux (s : State) (i : Nat) (a : AuxPwm) : (s.setAux i a).can = s.can := rfl
@[simp] theorem State.store_setAux (s : State) (i : Nat) (a : AuxPwm) : (s.setAux i a).store = s.store := rfl
@[simp] theorem State.recorder_setAux (s : State) (i : Nat) (a : AuxPwm) : (s.setAux i a).recorder = s.recorder := rfl
@[simp] theorem State.sec_setAux (s : State) (i : Nat) (a : AuxPwm) : (s.setAux i a).sec = s.sec := rfl
@[simp] theorem State.power_setAux (s : State) (i : Nat) (a : AuxPwm) : (s.setAux i a).power = s.power := rfl
@[simp] theorem State.out_setAux (s : State) (i : Nat) (a : AuxPwm) : (s.setAux i a).out = s.out := rfl
@[simp] theorem State.fresh_setAux (s : State) (i : Nat) (a : AuxPwm) : (s.setAux i a).fresh = s.fresh := rfl
@[simp] theorem State.pending_setAux (s : State) (i : Nat) (a : AuxPwm) : (s.setAux i a).pending = s.pending := rfl
@[simp] theorem State.laneTherm_setAux (s : State) (i j : Nat) (a : AuxPwm) : (s.setAux i a).laneTherm j = s.laneTherm j := rfl
@[simp] theorem State.balPort_setAux (s : State) (i j : Nat) (a : AuxPwm) : (s.setAux i a).balPort j = s.balPort j := rfl
@[simp] theorem State.sensor_setAux (s : State) (i j : Nat) (a : AuxPwm) : (s.setAux i a).sensor j = s.sensor j := rfl
@[simp] theorem State.coolLoop_setAux (s : State) (i j : Nat) (a : AuxPwm) : (s.setAux i a).coolLoop j = s.coolLoop j := rfl

@[simp] theorem State.updLaneSafe_eq (s : State) (i : Nat) (f : LaneSafety → LaneSafety) : s.updLaneSafe i f = s.setLaneSafe i (f (s.laneSafe i)) := rfl
@[simp] theorem State.laneSafe_setLaneSafe_same (s : State) (i : Nat) (a : LaneSafety) : (s.setLaneSafe i a).laneSafe i = a :=
  tget_tset_same _ _ _ _
@[simp] theorem State.laneSafe_setLaneSafe_ne (s : State) {i j : Nat} (a : LaneSafety) (h : j ≠ i) :
    (s.setLaneSafe i a).laneSafe j = s.laneSafe j := tget_tset_ne _ _ _ h
@[simp] theorem State.clock_setLaneSafe (s : State) (i : Nat) (a : LaneSafety) : (s.setLaneSafe i a).clock = s.clock := rfl
@[simp] theorem State.ptp_setLaneSafe (s : State) (i : Nat) (a : LaneSafety) : (s.setLaneSafe i a).ptp = s.ptp := rfl
@[simp] theorem State.servo_setLaneSafe (s : State) (i : Nat) (a : LaneSafety) : (s.setLaneSafe i a).servo = s.servo := rfl
@[simp] theorem State.lh_setLaneSafe (s : State) (i : Nat) (a : LaneSafety) : (s.setLaneSafe i a).lh = s.lh := rfl
@[simp] theorem State.tide_setLaneSafe (s : State) (i : Nat) (a : LaneSafety) : (s.setLaneSafe i a).tide = s.tide := rfl
@[simp] theorem State.table_setLaneSafe (s : State) (i : Nat) (a : LaneSafety) : (s.setLaneSafe i a).table = s.table := rfl
@[simp] theorem State.tsin_setLaneSafe (s : State) (i : Nat) (a : LaneSafety) : (s.setLaneSafe i a).tsin = s.tsin := rfl
@[simp] theorem State.tsout_setLaneSafe (s : State) (i : Nat) (a : LaneSafety) : (s.setLaneSafe i a).tsout = s.tsout := rfl
@[simp] theorem State.tap_setLaneSafe (s : State) (i : Nat) (a : LaneSafety) : (s.setLaneSafe i a).tap = s.tap := rfl
@[simp] theorem State.ana_setLaneSafe (s : State) (i : Nat) (a : LaneSafety) : (s.setLaneSafe i a).ana = s.ana := rfl
@[simp] theorem State.lanes_setLaneSafe (s : State) (i : Nat) (a : LaneSafety) : (s.setLaneSafe i a).lanes = s.lanes := rfl
@[simp] theorem State.model_setLaneSafe (s : State) (i : Nat) (a : LaneSafety) : (s.setLaneSafe i a).model = s.model := rfl
@[simp] theorem State.sound_setLaneSafe (s : State) (i : Nat) (a : LaneSafety) : (s.setLaneSafe i a).sound = s.sound := rfl
@[simp] theorem State.therm_setLaneSafe (s : State) (i : Nat) (a : LaneSafety) : (s.setLaneSafe i a).therm = s.therm := rfl
@[simp] theorem State.net_setLaneSafe (s : State) (i : Nat) (a : LaneSafety) : (s.setLaneSafe i a).net = s.net := rfl
@[simp] theorem State.ten_setLaneSafe (s : State) (i : Nat) (a : LaneSafety) : (s.setLaneSafe i a).ten = s.ten := rfl
@[simp] theorem State.fab_setLaneSafe (s : State) (i : Nat) (a : LaneSafety) : (s.setLaneSafe i a).fab = s.fab := rfl
@[simp] theorem State.mbox_setLaneSafe (s : State) (i : Nat) (a : LaneSafety) : (s.setLaneSafe i a).mbox = s.mbox := rfl
@[simp] theorem State.can_setLaneSafe (s : State) (i : Nat) (a : LaneSafety) : (s.setLaneSafe i a).can = s.can := rfl
@[simp] theorem State.store_setLaneSafe (s : State) (i : Nat) (a : LaneSafety) : (s.setLaneSafe i a).store = s.store := rfl
@[simp] theorem State.recorder_setLaneSafe (s : State) (i : Nat) (a : LaneSafety) : (s.setLaneSafe i a).recorder = s.recorder := rfl
@[simp] theorem State.sec_setLaneSafe (s : State) (i : Nat) (a : LaneSafety) : (s.setLaneSafe i a).sec = s.sec := rfl
@[simp] theorem State.power_setLaneSafe (s : State) (i : Nat) (a : LaneSafety) : (s.setLaneSafe i a).power = s.power := rfl
@[simp] theorem State.out_setLaneSafe (s : State) (i : Nat) (a : LaneSafety) : (s.setLaneSafe i a).out = s.out := rfl
@[simp] theorem State.fresh_setLaneSafe (s : State) (i : Nat) (a : LaneSafety) : (s.setLaneSafe i a).fresh = s.fresh := rfl
@[simp] theorem State.pending_setLaneSafe (s : State) (i : Nat) (a : LaneSafety) : (s.setLaneSafe i a).pending = s.pending := rfl
@[simp] theorem State.safeLan_setLaneSafe (s : State) (i j : Nat) (a : LaneSafety) : (s.setLaneSafe i a).safeLan j = s.safeLan j := rfl

@[simp] theorem State.updSafeLan_eq (s : State) (i : Nat) (f : SafeLan → SafeLan) : s.updSafeLan i f = s.setSafeLan i (f (s.safeLan i)) := rfl
@[simp] theorem State.safeLan_setSafeLan_same (s : State) (i : Nat) (a : SafeLan) : (s.setSafeLan i a).safeLan i = a :=
  tget_tset_same _ _ _ _
@[simp] theorem State.safeLan_setSafeLan_ne (s : State) {i j : Nat} (a : SafeLan) (h : j ≠ i) :
    (s.setSafeLan i a).safeLan j = s.safeLan j := tget_tset_ne _ _ _ h
@[simp] theorem State.clock_setSafeLan (s : State) (i : Nat) (a : SafeLan) : (s.setSafeLan i a).clock = s.clock := rfl
@[simp] theorem State.ptp_setSafeLan (s : State) (i : Nat) (a : SafeLan) : (s.setSafeLan i a).ptp = s.ptp := rfl
@[simp] theorem State.servo_setSafeLan (s : State) (i : Nat) (a : SafeLan) : (s.setSafeLan i a).servo = s.servo := rfl
@[simp] theorem State.lh_setSafeLan (s : State) (i : Nat) (a : SafeLan) : (s.setSafeLan i a).lh = s.lh := rfl
@[simp] theorem State.tide_setSafeLan (s : State) (i : Nat) (a : SafeLan) : (s.setSafeLan i a).tide = s.tide := rfl
@[simp] theorem State.table_setSafeLan (s : State) (i : Nat) (a : SafeLan) : (s.setSafeLan i a).table = s.table := rfl
@[simp] theorem State.tsin_setSafeLan (s : State) (i : Nat) (a : SafeLan) : (s.setSafeLan i a).tsin = s.tsin := rfl
@[simp] theorem State.tsout_setSafeLan (s : State) (i : Nat) (a : SafeLan) : (s.setSafeLan i a).tsout = s.tsout := rfl
@[simp] theorem State.tap_setSafeLan (s : State) (i : Nat) (a : SafeLan) : (s.setSafeLan i a).tap = s.tap := rfl
@[simp] theorem State.ana_setSafeLan (s : State) (i : Nat) (a : SafeLan) : (s.setSafeLan i a).ana = s.ana := rfl
@[simp] theorem State.lanes_setSafeLan (s : State) (i : Nat) (a : SafeLan) : (s.setSafeLan i a).lanes = s.lanes := rfl
@[simp] theorem State.model_setSafeLan (s : State) (i : Nat) (a : SafeLan) : (s.setSafeLan i a).model = s.model := rfl
@[simp] theorem State.sound_setSafeLan (s : State) (i : Nat) (a : SafeLan) : (s.setSafeLan i a).sound = s.sound := rfl
@[simp] theorem State.therm_setSafeLan (s : State) (i : Nat) (a : SafeLan) : (s.setSafeLan i a).therm = s.therm := rfl
@[simp] theorem State.net_setSafeLan (s : State) (i : Nat) (a : SafeLan) : (s.setSafeLan i a).net = s.net := rfl
@[simp] theorem State.ten_setSafeLan (s : State) (i : Nat) (a : SafeLan) : (s.setSafeLan i a).ten = s.ten := rfl
@[simp] theorem State.fab_setSafeLan (s : State) (i : Nat) (a : SafeLan) : (s.setSafeLan i a).fab = s.fab := rfl
@[simp] theorem State.mbox_setSafeLan (s : State) (i : Nat) (a : SafeLan) : (s.setSafeLan i a).mbox = s.mbox := rfl
@[simp] theorem State.can_setSafeLan (s : State) (i : Nat) (a : SafeLan) : (s.setSafeLan i a).can = s.can := rfl
@[simp] theorem State.store_setSafeLan (s : State) (i : Nat) (a : SafeLan) : (s.setSafeLan i a).store = s.store := rfl
@[simp] theorem State.recorder_setSafeLan (s : State) (i : Nat) (a : SafeLan) : (s.setSafeLan i a).recorder = s.recorder := rfl
@[simp] theorem State.sec_setSafeLan (s : State) (i : Nat) (a : SafeLan) : (s.setSafeLan i a).sec = s.sec := rfl
@[simp] theorem State.power_setSafeLan (s : State) (i : Nat) (a : SafeLan) : (s.setSafeLan i a).power = s.power := rfl
@[simp] theorem State.out_setSafeLan (s : State) (i : Nat) (a : SafeLan) : (s.setSafeLan i a).out = s.out := rfl
@[simp] theorem State.fresh_setSafeLan (s : State) (i : Nat) (a : SafeLan) : (s.setSafeLan i a).fresh = s.fresh := rfl
@[simp] theorem State.pending_setSafeLan (s : State) (i : Nat) (a : SafeLan) : (s.setSafeLan i a).pending = s.pending := rfl
@[simp] theorem State.laneSafe_setSafeLan (s : State) (i j : Nat) (a : SafeLan) : (s.setSafeLan i a).laneSafe j = s.laneSafe j := rfl

@[simp] theorem State.updNetLan_eq (s : State) (i : Nat) (f : NetLan → NetLan) : s.updNetLan i f = s.setNetLan i (f (s.netLan i)) := rfl
@[simp] theorem State.netLan_setNetLan_same (s : State) (i : Nat) (a : NetLan) : (s.setNetLan i a).netLan i = a :=
  tget_tset_same _ _ _ _
@[simp] theorem State.netLan_setNetLan_ne (s : State) {i j : Nat} (a : NetLan) (h : j ≠ i) :
    (s.setNetLan i a).netLan j = s.netLan j := tget_tset_ne _ _ _ h
@[simp] theorem State.clock_setNetLan (s : State) (i : Nat) (a : NetLan) : (s.setNetLan i a).clock = s.clock := rfl
@[simp] theorem State.ptp_setNetLan (s : State) (i : Nat) (a : NetLan) : (s.setNetLan i a).ptp = s.ptp := rfl
@[simp] theorem State.servo_setNetLan (s : State) (i : Nat) (a : NetLan) : (s.setNetLan i a).servo = s.servo := rfl
@[simp] theorem State.lh_setNetLan (s : State) (i : Nat) (a : NetLan) : (s.setNetLan i a).lh = s.lh := rfl
@[simp] theorem State.tide_setNetLan (s : State) (i : Nat) (a : NetLan) : (s.setNetLan i a).tide = s.tide := rfl
@[simp] theorem State.table_setNetLan (s : State) (i : Nat) (a : NetLan) : (s.setNetLan i a).table = s.table := rfl
@[simp] theorem State.tsin_setNetLan (s : State) (i : Nat) (a : NetLan) : (s.setNetLan i a).tsin = s.tsin := rfl
@[simp] theorem State.tsout_setNetLan (s : State) (i : Nat) (a : NetLan) : (s.setNetLan i a).tsout = s.tsout := rfl
@[simp] theorem State.tap_setNetLan (s : State) (i : Nat) (a : NetLan) : (s.setNetLan i a).tap = s.tap := rfl
@[simp] theorem State.ana_setNetLan (s : State) (i : Nat) (a : NetLan) : (s.setNetLan i a).ana = s.ana := rfl
@[simp] theorem State.lanes_setNetLan (s : State) (i : Nat) (a : NetLan) : (s.setNetLan i a).lanes = s.lanes := rfl
@[simp] theorem State.model_setNetLan (s : State) (i : Nat) (a : NetLan) : (s.setNetLan i a).model = s.model := rfl
@[simp] theorem State.sound_setNetLan (s : State) (i : Nat) (a : NetLan) : (s.setNetLan i a).sound = s.sound := rfl
@[simp] theorem State.therm_setNetLan (s : State) (i : Nat) (a : NetLan) : (s.setNetLan i a).therm = s.therm := rfl
@[simp] theorem State.safety_setNetLan (s : State) (i : Nat) (a : NetLan) : (s.setNetLan i a).safety = s.safety := rfl
@[simp] theorem State.ten_setNetLan (s : State) (i : Nat) (a : NetLan) : (s.setNetLan i a).ten = s.ten := rfl
@[simp] theorem State.fab_setNetLan (s : State) (i : Nat) (a : NetLan) : (s.setNetLan i a).fab = s.fab := rfl
@[simp] theorem State.mbox_setNetLan (s : State) (i : Nat) (a : NetLan) : (s.setNetLan i a).mbox = s.mbox := rfl
@[simp] theorem State.can_setNetLan (s : State) (i : Nat) (a : NetLan) : (s.setNetLan i a).can = s.can := rfl
@[simp] theorem State.store_setNetLan (s : State) (i : Nat) (a : NetLan) : (s.setNetLan i a).store = s.store := rfl
@[simp] theorem State.recorder_setNetLan (s : State) (i : Nat) (a : NetLan) : (s.setNetLan i a).recorder = s.recorder := rfl
@[simp] theorem State.sec_setNetLan (s : State) (i : Nat) (a : NetLan) : (s.setNetLan i a).sec = s.sec := rfl
@[simp] theorem State.power_setNetLan (s : State) (i : Nat) (a : NetLan) : (s.setNetLan i a).power = s.power := rfl
@[simp] theorem State.out_setNetLan (s : State) (i : Nat) (a : NetLan) : (s.setNetLan i a).out = s.out := rfl
@[simp] theorem State.fresh_setNetLan (s : State) (i : Nat) (a : NetLan) : (s.setNetLan i a).fresh = s.fresh := rfl
@[simp] theorem State.pending_setNetLan (s : State) (i : Nat) (a : NetLan) : (s.setNetLan i a).pending = s.pending := rfl

@[simp] theorem State.updSlot_eq (s : State) (i : Nat) (f : Slot → Slot) : s.updSlot i f = s.setSlot i (f (s.slot i)) := rfl
@[simp] theorem State.slot_setSlot_same (s : State) (i : Nat) (a : Slot) : (s.setSlot i a).slot i = a :=
  tget_tset_same _ _ _ _
@[simp] theorem State.slot_setSlot_ne (s : State) {i j : Nat} (a : Slot) (h : j ≠ i) :
    (s.setSlot i a).slot j = s.slot j := tget_tset_ne _ _ _ h
@[simp] theorem State.clock_setSlot (s : State) (i : Nat) (a : Slot) : (s.setSlot i a).clock = s.clock := rfl
@[simp] theorem State.ptp_setSlot (s : State) (i : Nat) (a : Slot) : (s.setSlot i a).ptp = s.ptp := rfl
@[simp] theorem State.servo_setSlot (s : State) (i : Nat) (a : Slot) : (s.setSlot i a).servo = s.servo := rfl
@[simp] theorem State.lh_setSlot (s : State) (i : Nat) (a : Slot) : (s.setSlot i a).lh = s.lh := rfl
@[simp] theorem State.tide_setSlot (s : State) (i : Nat) (a : Slot) : (s.setSlot i a).tide = s.tide := rfl
@[simp] theorem State.table_setSlot (s : State) (i : Nat) (a : Slot) : (s.setSlot i a).table = s.table := rfl
@[simp] theorem State.tsin_setSlot (s : State) (i : Nat) (a : Slot) : (s.setSlot i a).tsin = s.tsin := rfl
@[simp] theorem State.tsout_setSlot (s : State) (i : Nat) (a : Slot) : (s.setSlot i a).tsout = s.tsout := rfl
@[simp] theorem State.tap_setSlot (s : State) (i : Nat) (a : Slot) : (s.setSlot i a).tap = s.tap := rfl
@[simp] theorem State.ana_setSlot (s : State) (i : Nat) (a : Slot) : (s.setSlot i a).ana = s.ana := rfl
@[simp] theorem State.lanes_setSlot (s : State) (i : Nat) (a : Slot) : (s.setSlot i a).lanes = s.lanes := rfl
@[simp] theorem State.model_setSlot (s : State) (i : Nat) (a : Slot) : (s.setSlot i a).model = s.model := rfl
@[simp] theorem State.sound_setSlot (s : State) (i : Nat) (a : Slot) : (s.setSlot i a).sound = s.sound := rfl
@[simp] theorem State.therm_setSlot (s : State) (i : Nat) (a : Slot) : (s.setSlot i a).therm = s.therm := rfl
@[simp] theorem State.safety_setSlot (s : State) (i : Nat) (a : Slot) : (s.setSlot i a).safety = s.safety := rfl
@[simp] theorem State.net_setSlot (s : State) (i : Nat) (a : Slot) : (s.setSlot i a).net = s.net := rfl
@[simp] theorem State.fab_setSlot (s : State) (i : Nat) (a : Slot) : (s.setSlot i a).fab = s.fab := rfl
@[simp] theorem State.mbox_setSlot (s : State) (i : Nat) (a : Slot) : (s.setSlot i a).mbox = s.mbox := rfl
@[simp] theorem State.can_setSlot (s : State) (i : Nat) (a : Slot) : (s.setSlot i a).can = s.can := rfl
@[simp] theorem State.store_setSlot (s : State) (i : Nat) (a : Slot) : (s.setSlot i a).store = s.store := rfl
@[simp] theorem State.recorder_setSlot (s : State) (i : Nat) (a : Slot) : (s.setSlot i a).recorder = s.recorder := rfl
@[simp] theorem State.sec_setSlot (s : State) (i : Nat) (a : Slot) : (s.setSlot i a).sec = s.sec := rfl
@[simp] theorem State.power_setSlot (s : State) (i : Nat) (a : Slot) : (s.setSlot i a).power = s.power := rfl
@[simp] theorem State.out_setSlot (s : State) (i : Nat) (a : Slot) : (s.setSlot i a).out = s.out := rfl
@[simp] theorem State.fresh_setSlot (s : State) (i : Nat) (a : Slot) : (s.setSlot i a).fresh = s.fresh := rfl
@[simp] theorem State.pending_setSlot (s : State) (i : Nat) (a : Slot) : (s.setSlot i a).pending = s.pending := rfl
@[simp] theorem State.engine_setSlot (s : State) (i j : Nat) (a : Slot) : (s.setSlot i a).engine j = s.engine j := rfl
@[simp] theorem State.sigLocal_setSlot (s : State) (i j : Nat) (a : Slot) : (s.setSlot i a).sigLocal j = s.sigLocal j := rfl
@[simp] theorem State.sigEstate_setSlot (s : State) (i j : Nat) (a : Slot) : (s.setSlot i a).sigEstate j = s.sigEstate j := rfl
@[simp] theorem State.sigOwner_setSlot (s : State) (i j : Nat) (a : Slot) : (s.setSlot i a).sigOwner j = s.sigOwner j := rfl

@[simp] theorem State.updEngine_eq (s : State) (i : Nat) (f : Engine → Engine) : s.updEngine i f = s.setEngine i (f (s.engine i)) := rfl
@[simp] theorem State.engine_setEngine_same (s : State) (i : Nat) (a : Engine) : (s.setEngine i a).engine i = a :=
  tget_tset_same _ _ _ _
@[simp] theorem State.engine_setEngine_ne (s : State) {i j : Nat} (a : Engine) (h : j ≠ i) :
    (s.setEngine i a).engine j = s.engine j := tget_tset_ne _ _ _ h
@[simp] theorem State.clock_setEngine (s : State) (i : Nat) (a : Engine) : (s.setEngine i a).clock = s.clock := rfl
@[simp] theorem State.ptp_setEngine (s : State) (i : Nat) (a : Engine) : (s.setEngine i a).ptp = s.ptp := rfl
@[simp] theorem State.servo_setEngine (s : State) (i : Nat) (a : Engine) : (s.setEngine i a).servo = s.servo := rfl
@[simp] theorem State.lh_setEngine (s : State) (i : Nat) (a : Engine) : (s.setEngine i a).lh = s.lh := rfl
@[simp] theorem State.tide_setEngine (s : State) (i : Nat) (a : Engine) : (s.setEngine i a).tide = s.tide := rfl
@[simp] theorem State.table_setEngine (s : State) (i : Nat) (a : Engine) : (s.setEngine i a).table = s.table := rfl
@[simp] theorem State.tsin_setEngine (s : State) (i : Nat) (a : Engine) : (s.setEngine i a).tsin = s.tsin := rfl
@[simp] theorem State.tsout_setEngine (s : State) (i : Nat) (a : Engine) : (s.setEngine i a).tsout = s.tsout := rfl
@[simp] theorem State.tap_setEngine (s : State) (i : Nat) (a : Engine) : (s.setEngine i a).tap = s.tap := rfl
@[simp] theorem State.ana_setEngine (s : State) (i : Nat) (a : Engine) : (s.setEngine i a).ana = s.ana := rfl
@[simp] theorem State.lanes_setEngine (s : State) (i : Nat) (a : Engine) : (s.setEngine i a).lanes = s.lanes := rfl
@[simp] theorem State.model_setEngine (s : State) (i : Nat) (a : Engine) : (s.setEngine i a).model = s.model := rfl
@[simp] theorem State.sound_setEngine (s : State) (i : Nat) (a : Engine) : (s.setEngine i a).sound = s.sound := rfl
@[simp] theorem State.therm_setEngine (s : State) (i : Nat) (a : Engine) : (s.setEngine i a).therm = s.therm := rfl
@[simp] theorem State.safety_setEngine (s : State) (i : Nat) (a : Engine) : (s.setEngine i a).safety = s.safety := rfl
@[simp] theorem State.net_setEngine (s : State) (i : Nat) (a : Engine) : (s.setEngine i a).net = s.net := rfl
@[simp] theorem State.fab_setEngine (s : State) (i : Nat) (a : Engine) : (s.setEngine i a).fab = s.fab := rfl
@[simp] theorem State.mbox_setEngine (s : State) (i : Nat) (a : Engine) : (s.setEngine i a).mbox = s.mbox := rfl
@[simp] theorem State.can_setEngine (s : State) (i : Nat) (a : Engine) : (s.setEngine i a).can = s.can := rfl
@[simp] theorem State.store_setEngine (s : State) (i : Nat) (a : Engine) : (s.setEngine i a).store = s.store := rfl
@[simp] theorem State.recorder_setEngine (s : State) (i : Nat) (a : Engine) : (s.setEngine i a).recorder = s.recorder := rfl
@[simp] theorem State.sec_setEngine (s : State) (i : Nat) (a : Engine) : (s.setEngine i a).sec = s.sec := rfl
@[simp] theorem State.power_setEngine (s : State) (i : Nat) (a : Engine) : (s.setEngine i a).power = s.power := rfl
@[simp] theorem State.out_setEngine (s : State) (i : Nat) (a : Engine) : (s.setEngine i a).out = s.out := rfl
@[simp] theorem State.fresh_setEngine (s : State) (i : Nat) (a : Engine) : (s.setEngine i a).fresh = s.fresh := rfl
@[simp] theorem State.pending_setEngine (s : State) (i : Nat) (a : Engine) : (s.setEngine i a).pending = s.pending := rfl
@[simp] theorem State.slot_setEngine (s : State) (i j : Nat) (a : Engine) : (s.setEngine i a).slot j = s.slot j := rfl
@[simp] theorem State.sigLocal_setEngine (s : State) (i j : Nat) (a : Engine) : (s.setEngine i a).sigLocal j = s.sigLocal j := rfl
@[simp] theorem State.sigEstate_setEngine (s : State) (i j : Nat) (a : Engine) : (s.setEngine i a).sigEstate j = s.sigEstate j := rfl
@[simp] theorem State.sigOwner_setEngine (s : State) (i j : Nat) (a : Engine) : (s.setEngine i a).sigOwner j = s.sigOwner j := rfl

@[simp] theorem State.updSigLocal_eq (s : State) (i : Nat) (f : SigVal → SigVal) : s.updSigLocal i f = s.setSigLocal i (f (s.sigLocal i)) := rfl
@[simp] theorem State.sigLocal_setSigLocal_same (s : State) (i : Nat) (a : SigVal) : (s.setSigLocal i a).sigLocal i = a :=
  tget_tset_same _ _ _ _
@[simp] theorem State.sigLocal_setSigLocal_ne (s : State) {i j : Nat} (a : SigVal) (h : j ≠ i) :
    (s.setSigLocal i a).sigLocal j = s.sigLocal j := tget_tset_ne _ _ _ h
@[simp] theorem State.clock_setSigLocal (s : State) (i : Nat) (a : SigVal) : (s.setSigLocal i a).clock = s.clock := rfl
@[simp] theorem State.ptp_setSigLocal (s : State) (i : Nat) (a : SigVal) : (s.setSigLocal i a).ptp = s.ptp := rfl
@[simp] theorem State.servo_setSigLocal (s : State) (i : Nat) (a : SigVal) : (s.setSigLocal i a).servo = s.servo := rfl
@[simp] theorem State.lh_setSigLocal (s : State) (i : Nat) (a : SigVal) : (s.setSigLocal i a).lh = s.lh := rfl
@[simp] theorem State.tide_setSigLocal (s : State) (i : Nat) (a : SigVal) : (s.setSigLocal i a).tide = s.tide := rfl
@[simp] theorem State.table_setSigLocal (s : State) (i : Nat) (a : SigVal) : (s.setSigLocal i a).table = s.table := rfl
@[simp] theorem State.tsin_setSigLocal (s : State) (i : Nat) (a : SigVal) : (s.setSigLocal i a).tsin = s.tsin := rfl
@[simp] theorem State.tsout_setSigLocal (s : State) (i : Nat) (a : SigVal) : (s.setSigLocal i a).tsout = s.tsout := rfl
@[simp] theorem State.tap_setSigLocal (s : State) (i : Nat) (a : SigVal) : (s.setSigLocal i a).tap = s.tap := rfl
@[simp] theorem State.ana_setSigLocal (s : State) (i : Nat) (a : SigVal) : (s.setSigLocal i a).ana = s.ana := rfl
@[simp] theorem State.lanes_setSigLocal (s : State) (i : Nat) (a : SigVal) : (s.setSigLocal i a).lanes = s.lanes := rfl
@[simp] theorem State.model_setSigLocal (s : State) (i : Nat) (a : SigVal) : (s.setSigLocal i a).model = s.model := rfl
@[simp] theorem State.sound_setSigLocal (s : State) (i : Nat) (a : SigVal) : (s.setSigLocal i a).sound = s.sound := rfl
@[simp] theorem State.therm_setSigLocal (s : State) (i : Nat) (a : SigVal) : (s.setSigLocal i a).therm = s.therm := rfl
@[simp] theorem State.safety_setSigLocal (s : State) (i : Nat) (a : SigVal) : (s.setSigLocal i a).safety = s.safety := rfl
@[simp] theorem State.net_setSigLocal (s : State) (i : Nat) (a : SigVal) : (s.setSigLocal i a).net = s.net := rfl
@[simp] theorem State.fab_setSigLocal (s : State) (i : Nat) (a : SigVal) : (s.setSigLocal i a).fab = s.fab := rfl
@[simp] theorem State.mbox_setSigLocal (s : State) (i : Nat) (a : SigVal) : (s.setSigLocal i a).mbox = s.mbox := rfl
@[simp] theorem State.can_setSigLocal (s : State) (i : Nat) (a : SigVal) : (s.setSigLocal i a).can = s.can := rfl
@[simp] theorem State.store_setSigLocal (s : State) (i : Nat) (a : SigVal) : (s.setSigLocal i a).store = s.store := rfl
@[simp] theorem State.recorder_setSigLocal (s : State) (i : Nat) (a : SigVal) : (s.setSigLocal i a).recorder = s.recorder := rfl
@[simp] theorem State.sec_setSigLocal (s : State) (i : Nat) (a : SigVal) : (s.setSigLocal i a).sec = s.sec := rfl
@[simp] theorem State.power_setSigLocal (s : State) (i : Nat) (a : SigVal) : (s.setSigLocal i a).power = s.power := rfl
@[simp] theorem State.out_setSigLocal (s : State) (i : Nat) (a : SigVal) : (s.setSigLocal i a).out = s.out := rfl
@[simp] theorem State.fresh_setSigLocal (s : State) (i : Nat) (a : SigVal) : (s.setSigLocal i a).fresh = s.fresh := rfl
@[simp] theorem State.pending_setSigLocal (s : State) (i : Nat) (a : SigVal) : (s.setSigLocal i a).pending = s.pending := rfl
@[simp] theorem State.slot_setSigLocal (s : State) (i j : Nat) (a : SigVal) : (s.setSigLocal i a).slot j = s.slot j := rfl
@[simp] theorem State.engine_setSigLocal (s : State) (i j : Nat) (a : SigVal) : (s.setSigLocal i a).engine j = s.engine j := rfl
@[simp] theorem State.sigEstate_setSigLocal (s : State) (i j : Nat) (a : SigVal) : (s.setSigLocal i a).sigEstate j = s.sigEstate j := rfl
@[simp] theorem State.sigOwner_setSigLocal (s : State) (i j : Nat) (a : SigVal) : (s.setSigLocal i a).sigOwner j = s.sigOwner j := rfl

@[simp] theorem State.updSigEstate_eq (s : State) (i : Nat) (f : SigVal → SigVal) : s.updSigEstate i f = s.setSigEstate i (f (s.sigEstate i)) := rfl
@[simp] theorem State.sigEstate_setSigEstate_same (s : State) (i : Nat) (a : SigVal) : (s.setSigEstate i a).sigEstate i = a :=
  tget_tset_same _ _ _ _
@[simp] theorem State.sigEstate_setSigEstate_ne (s : State) {i j : Nat} (a : SigVal) (h : j ≠ i) :
    (s.setSigEstate i a).sigEstate j = s.sigEstate j := tget_tset_ne _ _ _ h
@[simp] theorem State.clock_setSigEstate (s : State) (i : Nat) (a : SigVal) : (s.setSigEstate i a).clock = s.clock := rfl
@[simp] theorem State.ptp_setSigEstate (s : State) (i : Nat) (a : SigVal) : (s.setSigEstate i a).ptp = s.ptp := rfl
@[simp] theorem State.servo_setSigEstate (s : State) (i : Nat) (a : SigVal) : (s.setSigEstate i a).servo = s.servo := rfl
@[simp] theorem State.lh_setSigEstate (s : State) (i : Nat) (a : SigVal) : (s.setSigEstate i a).lh = s.lh := rfl
@[simp] theorem State.tide_setSigEstate (s : State) (i : Nat) (a : SigVal) : (s.setSigEstate i a).tide = s.tide := rfl
@[simp] theorem State.table_setSigEstate (s : State) (i : Nat) (a : SigVal) : (s.setSigEstate i a).table = s.table := rfl
@[simp] theorem State.tsin_setSigEstate (s : State) (i : Nat) (a : SigVal) : (s.setSigEstate i a).tsin = s.tsin := rfl
@[simp] theorem State.tsout_setSigEstate (s : State) (i : Nat) (a : SigVal) : (s.setSigEstate i a).tsout = s.tsout := rfl
@[simp] theorem State.tap_setSigEstate (s : State) (i : Nat) (a : SigVal) : (s.setSigEstate i a).tap = s.tap := rfl
@[simp] theorem State.ana_setSigEstate (s : State) (i : Nat) (a : SigVal) : (s.setSigEstate i a).ana = s.ana := rfl
@[simp] theorem State.lanes_setSigEstate (s : State) (i : Nat) (a : SigVal) : (s.setSigEstate i a).lanes = s.lanes := rfl
@[simp] theorem State.model_setSigEstate (s : State) (i : Nat) (a : SigVal) : (s.setSigEstate i a).model = s.model := rfl
@[simp] theorem State.sound_setSigEstate (s : State) (i : Nat) (a : SigVal) : (s.setSigEstate i a).sound = s.sound := rfl
@[simp] theorem State.therm_setSigEstate (s : State) (i : Nat) (a : SigVal) : (s.setSigEstate i a).therm = s.therm := rfl
@[simp] theorem State.safety_setSigEstate (s : State) (i : Nat) (a : SigVal) : (s.setSigEstate i a).safety = s.safety := rfl
@[simp] theorem State.net_setSigEstate (s : State) (i : Nat) (a : SigVal) : (s.setSigEstate i a).net = s.net := rfl
@[simp] theorem State.fab_setSigEstate (s : State) (i : Nat) (a : SigVal) : (s.setSigEstate i a).fab = s.fab := rfl
@[simp] theorem State.mbox_setSigEstate (s : State) (i : Nat) (a : SigVal) : (s.setSigEstate i a).mbox = s.mbox := rfl
@[simp] theorem State.can_setSigEstate (s : State) (i : Nat) (a : SigVal) : (s.setSigEstate i a).can = s.can := rfl
@[simp] theorem State.store_setSigEstate (s : State) (i : Nat) (a : SigVal) : (s.setSigEstate i a).store = s.store := rfl
@[simp] theorem State.recorder_setSigEstate (s : State) (i : Nat) (a : SigVal) : (s.setSigEstate i a).recorder = s.recorder := rfl
@[simp] theorem State.sec_setSigEstate (s : State) (i : Nat) (a : SigVal) : (s.setSigEstate i a).sec = s.sec := rfl
@[simp] theorem State.power_setSigEstate (s : State) (i : Nat) (a : SigVal) : (s.setSigEstate i a).power = s.power := rfl
@[simp] theorem State.out_setSigEstate (s : State) (i : Nat) (a : SigVal) : (s.setSigEstate i a).out = s.out := rfl
@[simp] theorem State.fresh_setSigEstate (s : State) (i : Nat) (a : SigVal) : (s.setSigEstate i a).fresh = s.fresh := rfl
@[simp] theorem State.pending_setSigEstate (s : State) (i : Nat) (a : SigVal) : (s.setSigEstate i a).pending = s.pending := rfl
@[simp] theorem State.slot_setSigEstate (s : State) (i j : Nat) (a : SigVal) : (s.setSigEstate i a).slot j = s.slot j := rfl
@[simp] theorem State.engine_setSigEstate (s : State) (i j : Nat) (a : SigVal) : (s.setSigEstate i a).engine j = s.engine j := rfl
@[simp] theorem State.sigLocal_setSigEstate (s : State) (i j : Nat) (a : SigVal) : (s.setSigEstate i a).sigLocal j = s.sigLocal j := rfl
@[simp] theorem State.sigOwner_setSigEstate (s : State) (i j : Nat) (a : SigVal) : (s.setSigEstate i a).sigOwner j = s.sigOwner j := rfl

@[simp] theorem State.updSigOwner_eq (s : State) (i : Nat) (f : EstateSig → EstateSig) : s.updSigOwner i f = s.setSigOwner i (f (s.sigOwner i)) := rfl
@[simp] theorem State.sigOwner_setSigOwner_same (s : State) (i : Nat) (a : EstateSig) : (s.setSigOwner i a).sigOwner i = a :=
  tget_tset_same _ _ _ _
@[simp] theorem State.sigOwner_setSigOwner_ne (s : State) {i j : Nat} (a : EstateSig) (h : j ≠ i) :
    (s.setSigOwner i a).sigOwner j = s.sigOwner j := tget_tset_ne _ _ _ h
@[simp] theorem State.clock_setSigOwner (s : State) (i : Nat) (a : EstateSig) : (s.setSigOwner i a).clock = s.clock := rfl
@[simp] theorem State.ptp_setSigOwner (s : State) (i : Nat) (a : EstateSig) : (s.setSigOwner i a).ptp = s.ptp := rfl
@[simp] theorem State.servo_setSigOwner (s : State) (i : Nat) (a : EstateSig) : (s.setSigOwner i a).servo = s.servo := rfl
@[simp] theorem State.lh_setSigOwner (s : State) (i : Nat) (a : EstateSig) : (s.setSigOwner i a).lh = s.lh := rfl
@[simp] theorem State.tide_setSigOwner (s : State) (i : Nat) (a : EstateSig) : (s.setSigOwner i a).tide = s.tide := rfl
@[simp] theorem State.table_setSigOwner (s : State) (i : Nat) (a : EstateSig) : (s.setSigOwner i a).table = s.table := rfl
@[simp] theorem State.tsin_setSigOwner (s : State) (i : Nat) (a : EstateSig) : (s.setSigOwner i a).tsin = s.tsin := rfl
@[simp] theorem State.tsout_setSigOwner (s : State) (i : Nat) (a : EstateSig) : (s.setSigOwner i a).tsout = s.tsout := rfl
@[simp] theorem State.tap_setSigOwner (s : State) (i : Nat) (a : EstateSig) : (s.setSigOwner i a).tap = s.tap := rfl
@[simp] theorem State.ana_setSigOwner (s : State) (i : Nat) (a : EstateSig) : (s.setSigOwner i a).ana = s.ana := rfl
@[simp] theorem State.lanes_setSigOwner (s : State) (i : Nat) (a : EstateSig) : (s.setSigOwner i a).lanes = s.lanes := rfl
@[simp] theorem State.model_setSigOwner (s : State) (i : Nat) (a : EstateSig) : (s.setSigOwner i a).model = s.model := rfl
@[simp] theorem State.sound_setSigOwner (s : State) (i : Nat) (a : EstateSig) : (s.setSigOwner i a).sound = s.sound := rfl
@[simp] theorem State.therm_setSigOwner (s : State) (i : Nat) (a : EstateSig) : (s.setSigOwner i a).therm = s.therm := rfl
@[simp] theorem State.safety_setSigOwner (s : State) (i : Nat) (a : EstateSig) : (s.setSigOwner i a).safety = s.safety := rfl
@[simp] theorem State.net_setSigOwner (s : State) (i : Nat) (a : EstateSig) : (s.setSigOwner i a).net = s.net := rfl
@[simp] theorem State.fab_setSigOwner (s : State) (i : Nat) (a : EstateSig) : (s.setSigOwner i a).fab = s.fab := rfl
@[simp] theorem State.mbox_setSigOwner (s : State) (i : Nat) (a : EstateSig) : (s.setSigOwner i a).mbox = s.mbox := rfl
@[simp] theorem State.can_setSigOwner (s : State) (i : Nat) (a : EstateSig) : (s.setSigOwner i a).can = s.can := rfl
@[simp] theorem State.store_setSigOwner (s : State) (i : Nat) (a : EstateSig) : (s.setSigOwner i a).store = s.store := rfl
@[simp] theorem State.recorder_setSigOwner (s : State) (i : Nat) (a : EstateSig) : (s.setSigOwner i a).recorder = s.recorder := rfl
@[simp] theorem State.sec_setSigOwner (s : State) (i : Nat) (a : EstateSig) : (s.setSigOwner i a).sec = s.sec := rfl
@[simp] theorem State.power_setSigOwner (s : State) (i : Nat) (a : EstateSig) : (s.setSigOwner i a).power = s.power := rfl
@[simp] theorem State.out_setSigOwner (s : State) (i : Nat) (a : EstateSig) : (s.setSigOwner i a).out = s.out := rfl
@[simp] theorem State.fresh_setSigOwner (s : State) (i : Nat) (a : EstateSig) : (s.setSigOwner i a).fresh = s.fresh := rfl
@[simp] theorem State.pending_setSigOwner (s : State) (i : Nat) (a : EstateSig) : (s.setSigOwner i a).pending = s.pending := rfl
@[simp] theorem State.slot_setSigOwner (s : State) (i j : Nat) (a : EstateSig) : (s.setSigOwner i a).slot j = s.slot j := rfl
@[simp] theorem State.engine_setSigOwner (s : State) (i j : Nat) (a : EstateSig) : (s.setSigOwner i a).engine j = s.engine j := rfl
@[simp] theorem State.sigLocal_setSigOwner (s : State) (i j : Nat) (a : EstateSig) : (s.setSigOwner i a).sigLocal j = s.sigLocal j := rfl
@[simp] theorem State.sigEstate_setSigOwner (s : State) (i j : Nat) (a : EstateSig) : (s.setSigOwner i a).sigEstate j = s.sigEstate j := rfl

@[simp] theorem State.updQueue_eq (s : State) (i : Nat) (f : Queue → Queue) : s.updQueue i f = s.setQueue i (f (s.queue i)) := rfl
@[simp] theorem State.queue_setQueue_same (s : State) (i : Nat) (a : Queue) : (s.setQueue i a).queue i = a :=
  tget_tset_same _ _ _ _
@[simp] theorem State.queue_setQueue_ne (s : State) {i j : Nat} (a : Queue) (h : j ≠ i) :
    (s.setQueue i a).queue j = s.queue j := tget_tset_ne _ _ _ h
@[simp] theorem State.clock_setQueue (s : State) (i : Nat) (a : Queue) : (s.setQueue i a).clock = s.clock := rfl
@[simp] theorem State.ptp_setQueue (s : State) (i : Nat) (a : Queue) : (s.setQueue i a).ptp = s.ptp := rfl
@[simp] theorem State.servo_setQueue (s : State) (i : Nat) (a : Queue) : (s.setQueue i a).servo = s.servo := rfl
@[simp] theorem State.lh_setQueue (s : State) (i : Nat) (a : Queue) : (s.setQueue i a).lh = s.lh := rfl
@[simp] theorem State.tide_setQueue (s : State) (i : Nat) (a : Queue) : (s.setQueue i a).tide = s.tide := rfl
@[simp] theorem State.table_setQueue (s : State) (i : Nat) (a : Queue) : (s.setQueue i a).table = s.table := rfl
@[simp] theorem State.tsin_setQueue (s : State) (i : Nat) (a : Queue) : (s.setQueue i a).tsin = s.tsin := rfl
@[simp] theorem State.tsout_setQueue (s : State) (i : Nat) (a : Queue) : (s.setQueue i a).tsout = s.tsout := rfl
@[simp] theorem State.tap_setQueue (s : State) (i : Nat) (a : Queue) : (s.setQueue i a).tap = s.tap := rfl
@[simp] theorem State.ana_setQueue (s : State) (i : Nat) (a : Queue) : (s.setQueue i a).ana = s.ana := rfl
@[simp] theorem State.lanes_setQueue (s : State) (i : Nat) (a : Queue) : (s.setQueue i a).lanes = s.lanes := rfl
@[simp] theorem State.model_setQueue (s : State) (i : Nat) (a : Queue) : (s.setQueue i a).model = s.model := rfl
@[simp] theorem State.sound_setQueue (s : State) (i : Nat) (a : Queue) : (s.setQueue i a).sound = s.sound := rfl
@[simp] theorem State.therm_setQueue (s : State) (i : Nat) (a : Queue) : (s.setQueue i a).therm = s.therm := rfl
@[simp] theorem State.safety_setQueue (s : State) (i : Nat) (a : Queue) : (s.setQueue i a).safety = s.safety := rfl
@[simp] theorem State.net_setQueue (s : State) (i : Nat) (a : Queue) : (s.setQueue i a).net = s.net := rfl
@[simp] theorem State.ten_setQueue (s : State) (i : Nat) (a : Queue) : (s.setQueue i a).ten = s.ten := rfl
@[simp] theorem State.mbox_setQueue (s : State) (i : Nat) (a : Queue) : (s.setQueue i a).mbox = s.mbox := rfl
@[simp] theorem State.can_setQueue (s : State) (i : Nat) (a : Queue) : (s.setQueue i a).can = s.can := rfl
@[simp] theorem State.store_setQueue (s : State) (i : Nat) (a : Queue) : (s.setQueue i a).store = s.store := rfl
@[simp] theorem State.recorder_setQueue (s : State) (i : Nat) (a : Queue) : (s.setQueue i a).recorder = s.recorder := rfl
@[simp] theorem State.sec_setQueue (s : State) (i : Nat) (a : Queue) : (s.setQueue i a).sec = s.sec := rfl
@[simp] theorem State.power_setQueue (s : State) (i : Nat) (a : Queue) : (s.setQueue i a).power = s.power := rfl
@[simp] theorem State.out_setQueue (s : State) (i : Nat) (a : Queue) : (s.setQueue i a).out = s.out := rfl
@[simp] theorem State.fresh_setQueue (s : State) (i : Nat) (a : Queue) : (s.setQueue i a).fresh = s.fresh := rfl
@[simp] theorem State.pending_setQueue (s : State) (i : Nat) (a : Queue) : (s.setQueue i a).pending = s.pending := rfl
@[simp] theorem State.channel_setQueue (s : State) (i j : Nat) (a : Queue) : (s.setQueue i a).channel j = s.channel j := rfl

@[simp] theorem State.updChannel_eq (s : State) (i : Nat) (f : Channel → Channel) : s.updChannel i f = s.setChannel i (f (s.channel i)) := rfl
@[simp] theorem State.channel_setChannel_same (s : State) (i : Nat) (a : Channel) : (s.setChannel i a).channel i = a :=
  tget_tset_same _ _ _ _
@[simp] theorem State.channel_setChannel_ne (s : State) {i j : Nat} (a : Channel) (h : j ≠ i) :
    (s.setChannel i a).channel j = s.channel j := tget_tset_ne _ _ _ h
@[simp] theorem State.clock_setChannel (s : State) (i : Nat) (a : Channel) : (s.setChannel i a).clock = s.clock := rfl
@[simp] theorem State.ptp_setChannel (s : State) (i : Nat) (a : Channel) : (s.setChannel i a).ptp = s.ptp := rfl
@[simp] theorem State.servo_setChannel (s : State) (i : Nat) (a : Channel) : (s.setChannel i a).servo = s.servo := rfl
@[simp] theorem State.lh_setChannel (s : State) (i : Nat) (a : Channel) : (s.setChannel i a).lh = s.lh := rfl
@[simp] theorem State.tide_setChannel (s : State) (i : Nat) (a : Channel) : (s.setChannel i a).tide = s.tide := rfl
@[simp] theorem State.table_setChannel (s : State) (i : Nat) (a : Channel) : (s.setChannel i a).table = s.table := rfl
@[simp] theorem State.tsin_setChannel (s : State) (i : Nat) (a : Channel) : (s.setChannel i a).tsin = s.tsin := rfl
@[simp] theorem State.tsout_setChannel (s : State) (i : Nat) (a : Channel) : (s.setChannel i a).tsout = s.tsout := rfl
@[simp] theorem State.tap_setChannel (s : State) (i : Nat) (a : Channel) : (s.setChannel i a).tap = s.tap := rfl
@[simp] theorem State.ana_setChannel (s : State) (i : Nat) (a : Channel) : (s.setChannel i a).ana = s.ana := rfl
@[simp] theorem State.lanes_setChannel (s : State) (i : Nat) (a : Channel) : (s.setChannel i a).lanes = s.lanes := rfl
@[simp] theorem State.model_setChannel (s : State) (i : Nat) (a : Channel) : (s.setChannel i a).model = s.model := rfl
@[simp] theorem State.sound_setChannel (s : State) (i : Nat) (a : Channel) : (s.setChannel i a).sound = s.sound := rfl
@[simp] theorem State.therm_setChannel (s : State) (i : Nat) (a : Channel) : (s.setChannel i a).therm = s.therm := rfl
@[simp] theorem State.safety_setChannel (s : State) (i : Nat) (a : Channel) : (s.setChannel i a).safety = s.safety := rfl
@[simp] theorem State.net_setChannel (s : State) (i : Nat) (a : Channel) : (s.setChannel i a).net = s.net := rfl
@[simp] theorem State.ten_setChannel (s : State) (i : Nat) (a : Channel) : (s.setChannel i a).ten = s.ten := rfl
@[simp] theorem State.mbox_setChannel (s : State) (i : Nat) (a : Channel) : (s.setChannel i a).mbox = s.mbox := rfl
@[simp] theorem State.can_setChannel (s : State) (i : Nat) (a : Channel) : (s.setChannel i a).can = s.can := rfl
@[simp] theorem State.store_setChannel (s : State) (i : Nat) (a : Channel) : (s.setChannel i a).store = s.store := rfl
@[simp] theorem State.recorder_setChannel (s : State) (i : Nat) (a : Channel) : (s.setChannel i a).recorder = s.recorder := rfl
@[simp] theorem State.sec_setChannel (s : State) (i : Nat) (a : Channel) : (s.setChannel i a).sec = s.sec := rfl
@[simp] theorem State.power_setChannel (s : State) (i : Nat) (a : Channel) : (s.setChannel i a).power = s.power := rfl
@[simp] theorem State.out_setChannel (s : State) (i : Nat) (a : Channel) : (s.setChannel i a).out = s.out := rfl
@[simp] theorem State.fresh_setChannel (s : State) (i : Nat) (a : Channel) : (s.setChannel i a).fresh = s.fresh := rfl
@[simp] theorem State.pending_setChannel (s : State) (i : Nat) (a : Channel) : (s.setChannel i a).pending = s.pending := rfl
@[simp] theorem State.queue_setChannel (s : State) (i j : Nat) (a : Channel) : (s.setChannel i a).queue j = s.queue j := rfl

@[simp] theorem State.updCanCtl_eq (s : State) (i : Nat) (f : Can → Can) : s.updCanCtl i f = s.setCanCtl i (f (s.canCtl i)) := rfl
@[simp] theorem State.canCtl_setCanCtl_same (s : State) (i : Nat) (a : Can) : (s.setCanCtl i a).canCtl i = a :=
  tget_tset_same _ _ _ _
@[simp] theorem State.canCtl_setCanCtl_ne (s : State) {i j : Nat} (a : Can) (h : j ≠ i) :
    (s.setCanCtl i a).canCtl j = s.canCtl j := tget_tset_ne _ _ _ h
@[simp] theorem State.clock_setCanCtl (s : State) (i : Nat) (a : Can) : (s.setCanCtl i a).clock = s.clock := rfl
@[simp] theorem State.ptp_setCanCtl (s : State) (i : Nat) (a : Can) : (s.setCanCtl i a).ptp = s.ptp := rfl
@[simp] theorem State.servo_setCanCtl (s : State) (i : Nat) (a : Can) : (s.setCanCtl i a).servo = s.servo := rfl
@[simp] theorem State.lh_setCanCtl (s : State) (i : Nat) (a : Can) : (s.setCanCtl i a).lh = s.lh := rfl
@[simp] theorem State.tide_setCanCtl (s : State) (i : Nat) (a : Can) : (s.setCanCtl i a).tide = s.tide := rfl
@[simp] theorem State.table_setCanCtl (s : State) (i : Nat) (a : Can) : (s.setCanCtl i a).table = s.table := rfl
@[simp] theorem State.tsin_setCanCtl (s : State) (i : Nat) (a : Can) : (s.setCanCtl i a).tsin = s.tsin := rfl
@[simp] theorem State.tsout_setCanCtl (s : State) (i : Nat) (a : Can) : (s.setCanCtl i a).tsout = s.tsout := rfl
@[simp] theorem State.tap_setCanCtl (s : State) (i : Nat) (a : Can) : (s.setCanCtl i a).tap = s.tap := rfl
@[simp] theorem State.ana_setCanCtl (s : State) (i : Nat) (a : Can) : (s.setCanCtl i a).ana = s.ana := rfl
@[simp] theorem State.lanes_setCanCtl (s : State) (i : Nat) (a : Can) : (s.setCanCtl i a).lanes = s.lanes := rfl
@[simp] theorem State.model_setCanCtl (s : State) (i : Nat) (a : Can) : (s.setCanCtl i a).model = s.model := rfl
@[simp] theorem State.sound_setCanCtl (s : State) (i : Nat) (a : Can) : (s.setCanCtl i a).sound = s.sound := rfl
@[simp] theorem State.therm_setCanCtl (s : State) (i : Nat) (a : Can) : (s.setCanCtl i a).therm = s.therm := rfl
@[simp] theorem State.safety_setCanCtl (s : State) (i : Nat) (a : Can) : (s.setCanCtl i a).safety = s.safety := rfl
@[simp] theorem State.net_setCanCtl (s : State) (i : Nat) (a : Can) : (s.setCanCtl i a).net = s.net := rfl
@[simp] theorem State.ten_setCanCtl (s : State) (i : Nat) (a : Can) : (s.setCanCtl i a).ten = s.ten := rfl
@[simp] theorem State.fab_setCanCtl (s : State) (i : Nat) (a : Can) : (s.setCanCtl i a).fab = s.fab := rfl
@[simp] theorem State.mbox_setCanCtl (s : State) (i : Nat) (a : Can) : (s.setCanCtl i a).mbox = s.mbox := rfl
@[simp] theorem State.store_setCanCtl (s : State) (i : Nat) (a : Can) : (s.setCanCtl i a).store = s.store := rfl
@[simp] theorem State.recorder_setCanCtl (s : State) (i : Nat) (a : Can) : (s.setCanCtl i a).recorder = s.recorder := rfl
@[simp] theorem State.sec_setCanCtl (s : State) (i : Nat) (a : Can) : (s.setCanCtl i a).sec = s.sec := rfl
@[simp] theorem State.power_setCanCtl (s : State) (i : Nat) (a : Can) : (s.setCanCtl i a).power = s.power := rfl
@[simp] theorem State.out_setCanCtl (s : State) (i : Nat) (a : Can) : (s.setCanCtl i a).out = s.out := rfl
@[simp] theorem State.fresh_setCanCtl (s : State) (i : Nat) (a : Can) : (s.setCanCtl i a).fresh = s.fresh := rfl
@[simp] theorem State.pending_setCanCtl (s : State) (i : Nat) (a : Can) : (s.setCanCtl i a).pending = s.pending := rfl

@[simp] theorem State.updDevice_eq (s : State) (i : Nat) (f : Device → Device) : s.updDevice i f = s.setDevice i (f (s.device i)) := rfl
@[simp] theorem State.device_setDevice_same (s : State) (i : Nat) (a : Device) : (s.setDevice i a).device i = a :=
  tget_tset_same _ _ _ _
@[simp] theorem State.device_setDevice_ne (s : State) {i j : Nat} (a : Device) (h : j ≠ i) :
    (s.setDevice i a).device j = s.device j := tget_tset_ne _ _ _ h
@[simp] theorem State.clock_setDevice (s : State) (i : Nat) (a : Device) : (s.setDevice i a).clock = s.clock := rfl
@[simp] theorem State.ptp_setDevice (s : State) (i : Nat) (a : Device) : (s.setDevice i a).ptp = s.ptp := rfl
@[simp] theorem State.servo_setDevice (s : State) (i : Nat) (a : Device) : (s.setDevice i a).servo = s.servo := rfl
@[simp] theorem State.lh_setDevice (s : State) (i : Nat) (a : Device) : (s.setDevice i a).lh = s.lh := rfl
@[simp] theorem State.tide_setDevice (s : State) (i : Nat) (a : Device) : (s.setDevice i a).tide = s.tide := rfl
@[simp] theorem State.table_setDevice (s : State) (i : Nat) (a : Device) : (s.setDevice i a).table = s.table := rfl
@[simp] theorem State.tsin_setDevice (s : State) (i : Nat) (a : Device) : (s.setDevice i a).tsin = s.tsin := rfl
@[simp] theorem State.tsout_setDevice (s : State) (i : Nat) (a : Device) : (s.setDevice i a).tsout = s.tsout := rfl
@[simp] theorem State.tap_setDevice (s : State) (i : Nat) (a : Device) : (s.setDevice i a).tap = s.tap := rfl
@[simp] theorem State.ana_setDevice (s : State) (i : Nat) (a : Device) : (s.setDevice i a).ana = s.ana := rfl
@[simp] theorem State.lanes_setDevice (s : State) (i : Nat) (a : Device) : (s.setDevice i a).lanes = s.lanes := rfl
@[simp] theorem State.model_setDevice (s : State) (i : Nat) (a : Device) : (s.setDevice i a).model = s.model := rfl
@[simp] theorem State.sound_setDevice (s : State) (i : Nat) (a : Device) : (s.setDevice i a).sound = s.sound := rfl
@[simp] theorem State.therm_setDevice (s : State) (i : Nat) (a : Device) : (s.setDevice i a).therm = s.therm := rfl
@[simp] theorem State.safety_setDevice (s : State) (i : Nat) (a : Device) : (s.setDevice i a).safety = s.safety := rfl
@[simp] theorem State.net_setDevice (s : State) (i : Nat) (a : Device) : (s.setDevice i a).net = s.net := rfl
@[simp] theorem State.ten_setDevice (s : State) (i : Nat) (a : Device) : (s.setDevice i a).ten = s.ten := rfl
@[simp] theorem State.fab_setDevice (s : State) (i : Nat) (a : Device) : (s.setDevice i a).fab = s.fab := rfl
@[simp] theorem State.mbox_setDevice (s : State) (i : Nat) (a : Device) : (s.setDevice i a).mbox = s.mbox := rfl
@[simp] theorem State.can_setDevice (s : State) (i : Nat) (a : Device) : (s.setDevice i a).can = s.can := rfl
@[simp] theorem State.recorder_setDevice (s : State) (i : Nat) (a : Device) : (s.setDevice i a).recorder = s.recorder := rfl
@[simp] theorem State.sec_setDevice (s : State) (i : Nat) (a : Device) : (s.setDevice i a).sec = s.sec := rfl
@[simp] theorem State.power_setDevice (s : State) (i : Nat) (a : Device) : (s.setDevice i a).power = s.power := rfl
@[simp] theorem State.out_setDevice (s : State) (i : Nat) (a : Device) : (s.setDevice i a).out = s.out := rfl
@[simp] theorem State.fresh_setDevice (s : State) (i : Nat) (a : Device) : (s.setDevice i a).fresh = s.fresh := rfl
@[simp] theorem State.pending_setDevice (s : State) (i : Nat) (a : Device) : (s.setDevice i a).pending = s.pending := rfl

@[simp] theorem State.updPtpPort_eq (s : State) (i : Nat) (f : PtpPort → PtpPort) : s.updPtpPort i f = s.setPtpPort i (f (s.ptpPort i)) := rfl
@[simp] theorem State.ptpPort_setPtpPort_same (s : State) (i : Nat) (a : PtpPort) : (s.setPtpPort i a).ptpPort i = a :=
  tget_tset_same _ _ _ _
@[simp] theorem State.ptpPort_setPtpPort_ne (s : State) {i j : Nat} (a : PtpPort) (h : j ≠ i) :
    (s.setPtpPort i a).ptpPort j = s.ptpPort j := tget_tset_ne _ _ _ h
@[simp] theorem State.clock_setPtpPort (s : State) (i : Nat) (a : PtpPort) : (s.setPtpPort i a).clock = s.clock := rfl
@[simp] theorem State.servo_setPtpPort (s : State) (i : Nat) (a : PtpPort) : (s.setPtpPort i a).servo = s.servo := rfl
@[simp] theorem State.lh_setPtpPort (s : State) (i : Nat) (a : PtpPort) : (s.setPtpPort i a).lh = s.lh := rfl
@[simp] theorem State.tide_setPtpPort (s : State) (i : Nat) (a : PtpPort) : (s.setPtpPort i a).tide = s.tide := rfl
@[simp] theorem State.table_setPtpPort (s : State) (i : Nat) (a : PtpPort) : (s.setPtpPort i a).table = s.table := rfl
@[simp] theorem State.tsin_setPtpPort (s : State) (i : Nat) (a : PtpPort) : (s.setPtpPort i a).tsin = s.tsin := rfl
@[simp] theorem State.tsout_setPtpPort (s : State) (i : Nat) (a : PtpPort) : (s.setPtpPort i a).tsout = s.tsout := rfl
@[simp] theorem State.tap_setPtpPort (s : State) (i : Nat) (a : PtpPort) : (s.setPtpPort i a).tap = s.tap := rfl
@[simp] theorem State.ana_setPtpPort (s : State) (i : Nat) (a : PtpPort) : (s.setPtpPort i a).ana = s.ana := rfl
@[simp] theorem State.lanes_setPtpPort (s : State) (i : Nat) (a : PtpPort) : (s.setPtpPort i a).lanes = s.lanes := rfl
@[simp] theorem State.model_setPtpPort (s : State) (i : Nat) (a : PtpPort) : (s.setPtpPort i a).model = s.model := rfl
@[simp] theorem State.sound_setPtpPort (s : State) (i : Nat) (a : PtpPort) : (s.setPtpPort i a).sound = s.sound := rfl
@[simp] theorem State.therm_setPtpPort (s : State) (i : Nat) (a : PtpPort) : (s.setPtpPort i a).therm = s.therm := rfl
@[simp] theorem State.safety_setPtpPort (s : State) (i : Nat) (a : PtpPort) : (s.setPtpPort i a).safety = s.safety := rfl
@[simp] theorem State.net_setPtpPort (s : State) (i : Nat) (a : PtpPort) : (s.setPtpPort i a).net = s.net := rfl
@[simp] theorem State.ten_setPtpPort (s : State) (i : Nat) (a : PtpPort) : (s.setPtpPort i a).ten = s.ten := rfl
@[simp] theorem State.fab_setPtpPort (s : State) (i : Nat) (a : PtpPort) : (s.setPtpPort i a).fab = s.fab := rfl
@[simp] theorem State.mbox_setPtpPort (s : State) (i : Nat) (a : PtpPort) : (s.setPtpPort i a).mbox = s.mbox := rfl
@[simp] theorem State.can_setPtpPort (s : State) (i : Nat) (a : PtpPort) : (s.setPtpPort i a).can = s.can := rfl
@[simp] theorem State.store_setPtpPort (s : State) (i : Nat) (a : PtpPort) : (s.setPtpPort i a).store = s.store := rfl
@[simp] theorem State.recorder_setPtpPort (s : State) (i : Nat) (a : PtpPort) : (s.setPtpPort i a).recorder = s.recorder := rfl
@[simp] theorem State.sec_setPtpPort (s : State) (i : Nat) (a : PtpPort) : (s.setPtpPort i a).sec = s.sec := rfl
@[simp] theorem State.power_setPtpPort (s : State) (i : Nat) (a : PtpPort) : (s.setPtpPort i a).power = s.power := rfl
@[simp] theorem State.out_setPtpPort (s : State) (i : Nat) (a : PtpPort) : (s.setPtpPort i a).out = s.out := rfl
@[simp] theorem State.fresh_setPtpPort (s : State) (i : Nat) (a : PtpPort) : (s.setPtpPort i a).fresh = s.fresh := rfl
@[simp] theorem State.pending_setPtpPort (s : State) (i : Nat) (a : PtpPort) : (s.setPtpPort i a).pending = s.pending := rfl

@[simp] theorem State.updTsIn_eq (s : State) (i : Nat) (f : TsIn → TsIn) : s.updTsIn i f = s.setTsIn i (f (s.tsIn i)) := rfl
@[simp] theorem State.tsIn_setTsIn_same (s : State) (i : Nat) (a : TsIn) : (s.setTsIn i a).tsIn i = a :=
  tget_tset_same _ _ _ _
@[simp] theorem State.tsIn_setTsIn_ne (s : State) {i j : Nat} (a : TsIn) (h : j ≠ i) :
    (s.setTsIn i a).tsIn j = s.tsIn j := tget_tset_ne _ _ _ h
@[simp] theorem State.clock_setTsIn (s : State) (i : Nat) (a : TsIn) : (s.setTsIn i a).clock = s.clock := rfl
@[simp] theorem State.ptp_setTsIn (s : State) (i : Nat) (a : TsIn) : (s.setTsIn i a).ptp = s.ptp := rfl
@[simp] theorem State.servo_setTsIn (s : State) (i : Nat) (a : TsIn) : (s.setTsIn i a).servo = s.servo := rfl
@[simp] theorem State.lh_setTsIn (s : State) (i : Nat) (a : TsIn) : (s.setTsIn i a).lh = s.lh := rfl
@[simp] theorem State.tide_setTsIn (s : State) (i : Nat) (a : TsIn) : (s.setTsIn i a).tide = s.tide := rfl
@[simp] theorem State.table_setTsIn (s : State) (i : Nat) (a : TsIn) : (s.setTsIn i a).table = s.table := rfl
@[simp] theorem State.tsout_setTsIn (s : State) (i : Nat) (a : TsIn) : (s.setTsIn i a).tsout = s.tsout := rfl
@[simp] theorem State.tap_setTsIn (s : State) (i : Nat) (a : TsIn) : (s.setTsIn i a).tap = s.tap := rfl
@[simp] theorem State.ana_setTsIn (s : State) (i : Nat) (a : TsIn) : (s.setTsIn i a).ana = s.ana := rfl
@[simp] theorem State.lanes_setTsIn (s : State) (i : Nat) (a : TsIn) : (s.setTsIn i a).lanes = s.lanes := rfl
@[simp] theorem State.model_setTsIn (s : State) (i : Nat) (a : TsIn) : (s.setTsIn i a).model = s.model := rfl
@[simp] theorem State.sound_setTsIn (s : State) (i : Nat) (a : TsIn) : (s.setTsIn i a).sound = s.sound := rfl
@[simp] theorem State.therm_setTsIn (s : State) (i : Nat) (a : TsIn) : (s.setTsIn i a).therm = s.therm := rfl
@[simp] theorem State.safety_setTsIn (s : State) (i : Nat) (a : TsIn) : (s.setTsIn i a).safety = s.safety := rfl
@[simp] theorem State.net_setTsIn (s : State) (i : Nat) (a : TsIn) : (s.setTsIn i a).net = s.net := rfl
@[simp] theorem State.ten_setTsIn (s : State) (i : Nat) (a : TsIn) : (s.setTsIn i a).ten = s.ten := rfl
@[simp] theorem State.fab_setTsIn (s : State) (i : Nat) (a : TsIn) : (s.setTsIn i a).fab = s.fab := rfl
@[simp] theorem State.mbox_setTsIn (s : State) (i : Nat) (a : TsIn) : (s.setTsIn i a).mbox = s.mbox := rfl
@[simp] theorem State.can_setTsIn (s : State) (i : Nat) (a : TsIn) : (s.setTsIn i a).can = s.can := rfl
@[simp] theorem State.store_setTsIn (s : State) (i : Nat) (a : TsIn) : (s.setTsIn i a).store = s.store := rfl
@[simp] theorem State.recorder_setTsIn (s : State) (i : Nat) (a : TsIn) : (s.setTsIn i a).recorder = s.recorder := rfl
@[simp] theorem State.sec_setTsIn (s : State) (i : Nat) (a : TsIn) : (s.setTsIn i a).sec = s.sec := rfl
@[simp] theorem State.power_setTsIn (s : State) (i : Nat) (a : TsIn) : (s.setTsIn i a).power = s.power := rfl
@[simp] theorem State.out_setTsIn (s : State) (i : Nat) (a : TsIn) : (s.setTsIn i a).out = s.out := rfl
@[simp] theorem State.fresh_setTsIn (s : State) (i : Nat) (a : TsIn) : (s.setTsIn i a).fresh = s.fresh := rfl
@[simp] theorem State.pending_setTsIn (s : State) (i : Nat) (a : TsIn) : (s.setTsIn i a).pending = s.pending := rfl

@[simp] theorem State.updTsOut_eq (s : State) (i : Nat) (f : TsOut → TsOut) : s.updTsOut i f = s.setTsOut i (f (s.tsOut i)) := rfl
@[simp] theorem State.tsOut_setTsOut_same (s : State) (i : Nat) (a : TsOut) : (s.setTsOut i a).tsOut i = a :=
  tget_tset_same _ _ _ _
@[simp] theorem State.tsOut_setTsOut_ne (s : State) {i j : Nat} (a : TsOut) (h : j ≠ i) :
    (s.setTsOut i a).tsOut j = s.tsOut j := tget_tset_ne _ _ _ h
@[simp] theorem State.clock_setTsOut (s : State) (i : Nat) (a : TsOut) : (s.setTsOut i a).clock = s.clock := rfl
@[simp] theorem State.ptp_setTsOut (s : State) (i : Nat) (a : TsOut) : (s.setTsOut i a).ptp = s.ptp := rfl
@[simp] theorem State.servo_setTsOut (s : State) (i : Nat) (a : TsOut) : (s.setTsOut i a).servo = s.servo := rfl
@[simp] theorem State.lh_setTsOut (s : State) (i : Nat) (a : TsOut) : (s.setTsOut i a).lh = s.lh := rfl
@[simp] theorem State.tide_setTsOut (s : State) (i : Nat) (a : TsOut) : (s.setTsOut i a).tide = s.tide := rfl
@[simp] theorem State.table_setTsOut (s : State) (i : Nat) (a : TsOut) : (s.setTsOut i a).table = s.table := rfl
@[simp] theorem State.tsin_setTsOut (s : State) (i : Nat) (a : TsOut) : (s.setTsOut i a).tsin = s.tsin := rfl
@[simp] theorem State.tap_setTsOut (s : State) (i : Nat) (a : TsOut) : (s.setTsOut i a).tap = s.tap := rfl
@[simp] theorem State.ana_setTsOut (s : State) (i : Nat) (a : TsOut) : (s.setTsOut i a).ana = s.ana := rfl
@[simp] theorem State.lanes_setTsOut (s : State) (i : Nat) (a : TsOut) : (s.setTsOut i a).lanes = s.lanes := rfl
@[simp] theorem State.model_setTsOut (s : State) (i : Nat) (a : TsOut) : (s.setTsOut i a).model = s.model := rfl
@[simp] theorem State.sound_setTsOut (s : State) (i : Nat) (a : TsOut) : (s.setTsOut i a).sound = s.sound := rfl
@[simp] theorem State.therm_setTsOut (s : State) (i : Nat) (a : TsOut) : (s.setTsOut i a).therm = s.therm := rfl
@[simp] theorem State.safety_setTsOut (s : State) (i : Nat) (a : TsOut) : (s.setTsOut i a).safety = s.safety := rfl
@[simp] theorem State.net_setTsOut (s : State) (i : Nat) (a : TsOut) : (s.setTsOut i a).net = s.net := rfl
@[simp] theorem State.ten_setTsOut (s : State) (i : Nat) (a : TsOut) : (s.setTsOut i a).ten = s.ten := rfl
@[simp] theorem State.fab_setTsOut (s : State) (i : Nat) (a : TsOut) : (s.setTsOut i a).fab = s.fab := rfl
@[simp] theorem State.mbox_setTsOut (s : State) (i : Nat) (a : TsOut) : (s.setTsOut i a).mbox = s.mbox := rfl
@[simp] theorem State.can_setTsOut (s : State) (i : Nat) (a : TsOut) : (s.setTsOut i a).can = s.can := rfl
@[simp] theorem State.store_setTsOut (s : State) (i : Nat) (a : TsOut) : (s.setTsOut i a).store = s.store := rfl
@[simp] theorem State.recorder_setTsOut (s : State) (i : Nat) (a : TsOut) : (s.setTsOut i a).recorder = s.recorder := rfl
@[simp] theorem State.sec_setTsOut (s : State) (i : Nat) (a : TsOut) : (s.setTsOut i a).sec = s.sec := rfl
@[simp] theorem State.power_setTsOut (s : State) (i : Nat) (a : TsOut) : (s.setTsOut i a).power = s.power := rfl
@[simp] theorem State.out_setTsOut (s : State) (i : Nat) (a : TsOut) : (s.setTsOut i a).out = s.out := rfl
@[simp] theorem State.fresh_setTsOut (s : State) (i : Nat) (a : TsOut) : (s.setTsOut i a).fresh = s.fresh := rfl
@[simp] theorem State.pending_setTsOut (s : State) (i : Nat) (a : TsOut) : (s.setTsOut i a).pending = s.pending := rfl

@[simp] theorem State.updPowerPort_eq (s : State) (i : Nat) (f : PowerPort → PowerPort) : s.updPowerPort i f = s.setPowerPort i (f (s.powerPort i)) := rfl
@[simp] theorem State.powerPort_setPowerPort_same (s : State) (i : Nat) (a : PowerPort) : (s.setPowerPort i a).powerPort i = a :=
  tget_tset_same _ _ _ _
@[simp] theorem State.powerPort_setPowerPort_ne (s : State) {i j : Nat} (a : PowerPort) (h : j ≠ i) :
    (s.setPowerPort i a).powerPort j = s.powerPort j := tget_tset_ne _ _ _ h
@[simp] theorem State.clock_setPowerPort (s : State) (i : Nat) (a : PowerPort) : (s.setPowerPort i a).clock = s.clock := rfl
@[simp] theorem State.ptp_setPowerPort (s : State) (i : Nat) (a : PowerPort) : (s.setPowerPort i a).ptp = s.ptp := rfl
@[simp] theorem State.servo_setPowerPort (s : State) (i : Nat) (a : PowerPort) : (s.setPowerPort i a).servo = s.servo := rfl
@[simp] theorem State.lh_setPowerPort (s : State) (i : Nat) (a : PowerPort) : (s.setPowerPort i a).lh = s.lh := rfl
@[simp] theorem State.tide_setPowerPort (s : State) (i : Nat) (a : PowerPort) : (s.setPowerPort i a).tide = s.tide := rfl
@[simp] theorem State.table_setPowerPort (s : State) (i : Nat) (a : PowerPort) : (s.setPowerPort i a).table = s.table := rfl
@[simp] theorem State.tsin_setPowerPort (s : State) (i : Nat) (a : PowerPort) : (s.setPowerPort i a).tsin = s.tsin := rfl
@[simp] theorem State.tsout_setPowerPort (s : State) (i : Nat) (a : PowerPort) : (s.setPowerPort i a).tsout = s.tsout := rfl
@[simp] theorem State.tap_setPowerPort (s : State) (i : Nat) (a : PowerPort) : (s.setPowerPort i a).tap = s.tap := rfl
@[simp] theorem State.ana_setPowerPort (s : State) (i : Nat) (a : PowerPort) : (s.setPowerPort i a).ana = s.ana := rfl
@[simp] theorem State.lanes_setPowerPort (s : State) (i : Nat) (a : PowerPort) : (s.setPowerPort i a).lanes = s.lanes := rfl
@[simp] theorem State.model_setPowerPort (s : State) (i : Nat) (a : PowerPort) : (s.setPowerPort i a).model = s.model := rfl
@[simp] theorem State.sound_setPowerPort (s : State) (i : Nat) (a : PowerPort) : (s.setPowerPort i a).sound = s.sound := rfl
@[simp] theorem State.therm_setPowerPort (s : State) (i : Nat) (a : PowerPort) : (s.setPowerPort i a).therm = s.therm := rfl
@[simp] theorem State.safety_setPowerPort (s : State) (i : Nat) (a : PowerPort) : (s.setPowerPort i a).safety = s.safety := rfl
@[simp] theorem State.net_setPowerPort (s : State) (i : Nat) (a : PowerPort) : (s.setPowerPort i a).net = s.net := rfl
@[simp] theorem State.ten_setPowerPort (s : State) (i : Nat) (a : PowerPort) : (s.setPowerPort i a).ten = s.ten := rfl
@[simp] theorem State.fab_setPowerPort (s : State) (i : Nat) (a : PowerPort) : (s.setPowerPort i a).fab = s.fab := rfl
@[simp] theorem State.mbox_setPowerPort (s : State) (i : Nat) (a : PowerPort) : (s.setPowerPort i a).mbox = s.mbox := rfl
@[simp] theorem State.can_setPowerPort (s : State) (i : Nat) (a : PowerPort) : (s.setPowerPort i a).can = s.can := rfl
@[simp] theorem State.store_setPowerPort (s : State) (i : Nat) (a : PowerPort) : (s.setPowerPort i a).store = s.store := rfl
@[simp] theorem State.recorder_setPowerPort (s : State) (i : Nat) (a : PowerPort) : (s.setPowerPort i a).recorder = s.recorder := rfl
@[simp] theorem State.sec_setPowerPort (s : State) (i : Nat) (a : PowerPort) : (s.setPowerPort i a).sec = s.sec := rfl
@[simp] theorem State.out_setPowerPort (s : State) (i : Nat) (a : PowerPort) : (s.setPowerPort i a).out = s.out := rfl
@[simp] theorem State.fresh_setPowerPort (s : State) (i : Nat) (a : PowerPort) : (s.setPowerPort i a).fresh = s.fresh := rfl
@[simp] theorem State.pending_setPowerPort (s : State) (i : Nat) (a : PowerPort) : (s.setPowerPort i a).pending = s.pending := rfl

@[simp] theorem State.updImgSlot_eq (s : State) (i : Nat) (f : ImgSlot → ImgSlot) : s.updImgSlot i f = s.setImgSlot i (f (s.imgSlot i)) := rfl
@[simp] theorem State.imgSlot_setImgSlot_same (s : State) (i : Nat) (a : ImgSlot) : (s.setImgSlot i a).imgSlot i = a :=
  tget_tset_same _ _ _ _
@[simp] theorem State.imgSlot_setImgSlot_ne (s : State) {i j : Nat} (a : ImgSlot) (h : j ≠ i) :
    (s.setImgSlot i a).imgSlot j = s.imgSlot j := tget_tset_ne _ _ _ h
@[simp] theorem State.clock_setImgSlot (s : State) (i : Nat) (a : ImgSlot) : (s.setImgSlot i a).clock = s.clock := rfl
@[simp] theorem State.ptp_setImgSlot (s : State) (i : Nat) (a : ImgSlot) : (s.setImgSlot i a).ptp = s.ptp := rfl
@[simp] theorem State.servo_setImgSlot (s : State) (i : Nat) (a : ImgSlot) : (s.setImgSlot i a).servo = s.servo := rfl
@[simp] theorem State.lh_setImgSlot (s : State) (i : Nat) (a : ImgSlot) : (s.setImgSlot i a).lh = s.lh := rfl
@[simp] theorem State.tide_setImgSlot (s : State) (i : Nat) (a : ImgSlot) : (s.setImgSlot i a).tide = s.tide := rfl
@[simp] theorem State.table_setImgSlot (s : State) (i : Nat) (a : ImgSlot) : (s.setImgSlot i a).table = s.table := rfl
@[simp] theorem State.tsin_setImgSlot (s : State) (i : Nat) (a : ImgSlot) : (s.setImgSlot i a).tsin = s.tsin := rfl
@[simp] theorem State.tsout_setImgSlot (s : State) (i : Nat) (a : ImgSlot) : (s.setImgSlot i a).tsout = s.tsout := rfl
@[simp] theorem State.tap_setImgSlot (s : State) (i : Nat) (a : ImgSlot) : (s.setImgSlot i a).tap = s.tap := rfl
@[simp] theorem State.ana_setImgSlot (s : State) (i : Nat) (a : ImgSlot) : (s.setImgSlot i a).ana = s.ana := rfl
@[simp] theorem State.lanes_setImgSlot (s : State) (i : Nat) (a : ImgSlot) : (s.setImgSlot i a).lanes = s.lanes := rfl
@[simp] theorem State.model_setImgSlot (s : State) (i : Nat) (a : ImgSlot) : (s.setImgSlot i a).model = s.model := rfl
@[simp] theorem State.sound_setImgSlot (s : State) (i : Nat) (a : ImgSlot) : (s.setImgSlot i a).sound = s.sound := rfl
@[simp] theorem State.therm_setImgSlot (s : State) (i : Nat) (a : ImgSlot) : (s.setImgSlot i a).therm = s.therm := rfl
@[simp] theorem State.safety_setImgSlot (s : State) (i : Nat) (a : ImgSlot) : (s.setImgSlot i a).safety = s.safety := rfl
@[simp] theorem State.net_setImgSlot (s : State) (i : Nat) (a : ImgSlot) : (s.setImgSlot i a).net = s.net := rfl
@[simp] theorem State.ten_setImgSlot (s : State) (i : Nat) (a : ImgSlot) : (s.setImgSlot i a).ten = s.ten := rfl
@[simp] theorem State.fab_setImgSlot (s : State) (i : Nat) (a : ImgSlot) : (s.setImgSlot i a).fab = s.fab := rfl
@[simp] theorem State.mbox_setImgSlot (s : State) (i : Nat) (a : ImgSlot) : (s.setImgSlot i a).mbox = s.mbox := rfl
@[simp] theorem State.can_setImgSlot (s : State) (i : Nat) (a : ImgSlot) : (s.setImgSlot i a).can = s.can := rfl
@[simp] theorem State.store_setImgSlot (s : State) (i : Nat) (a : ImgSlot) : (s.setImgSlot i a).store = s.store := rfl
@[simp] theorem State.recorder_setImgSlot (s : State) (i : Nat) (a : ImgSlot) : (s.setImgSlot i a).recorder = s.recorder := rfl
@[simp] theorem State.power_setImgSlot (s : State) (i : Nat) (a : ImgSlot) : (s.setImgSlot i a).power = s.power := rfl
@[simp] theorem State.out_setImgSlot (s : State) (i : Nat) (a : ImgSlot) : (s.setImgSlot i a).out = s.out := rfl
@[simp] theorem State.fresh_setImgSlot (s : State) (i : Nat) (a : ImgSlot) : (s.setImgSlot i a).fresh = s.fresh := rfl
@[simp] theorem State.pending_setImgSlot (s : State) (i : Nat) (a : ImgSlot) : (s.setImgSlot i a).pending = s.pending := rfl

@[simp] theorem State.updEntry_eq (s : State) (i : Nat) (f : TideEntry → TideEntry) : s.updEntry i f = s.setEntry i (f (s.entry i)) := rfl
@[simp] theorem State.entry_setEntry_same (s : State) (i : Nat) (a : TideEntry) : (s.setEntry i a).entry i = a :=
  tget_tset_same _ _ _ _
@[simp] theorem State.entry_setEntry_ne (s : State) {i j : Nat} (a : TideEntry) (h : j ≠ i) :
    (s.setEntry i a).entry j = s.entry j := tget_tset_ne _ _ _ h
@[simp] theorem State.clock_setEntry (s : State) (i : Nat) (a : TideEntry) : (s.setEntry i a).clock = s.clock := rfl
@[simp] theorem State.ptp_setEntry (s : State) (i : Nat) (a : TideEntry) : (s.setEntry i a).ptp = s.ptp := rfl
@[simp] theorem State.servo_setEntry (s : State) (i : Nat) (a : TideEntry) : (s.setEntry i a).servo = s.servo := rfl
@[simp] theorem State.lh_setEntry (s : State) (i : Nat) (a : TideEntry) : (s.setEntry i a).lh = s.lh := rfl
@[simp] theorem State.tide_setEntry (s : State) (i : Nat) (a : TideEntry) : (s.setEntry i a).tide = s.tide := rfl
@[simp] theorem State.tsin_setEntry (s : State) (i : Nat) (a : TideEntry) : (s.setEntry i a).tsin = s.tsin := rfl
@[simp] theorem State.tsout_setEntry (s : State) (i : Nat) (a : TideEntry) : (s.setEntry i a).tsout = s.tsout := rfl
@[simp] theorem State.tap_setEntry (s : State) (i : Nat) (a : TideEntry) : (s.setEntry i a).tap = s.tap := rfl
@[simp] theorem State.ana_setEntry (s : State) (i : Nat) (a : TideEntry) : (s.setEntry i a).ana = s.ana := rfl
@[simp] theorem State.lanes_setEntry (s : State) (i : Nat) (a : TideEntry) : (s.setEntry i a).lanes = s.lanes := rfl
@[simp] theorem State.model_setEntry (s : State) (i : Nat) (a : TideEntry) : (s.setEntry i a).model = s.model := rfl
@[simp] theorem State.sound_setEntry (s : State) (i : Nat) (a : TideEntry) : (s.setEntry i a).sound = s.sound := rfl
@[simp] theorem State.therm_setEntry (s : State) (i : Nat) (a : TideEntry) : (s.setEntry i a).therm = s.therm := rfl
@[simp] theorem State.safety_setEntry (s : State) (i : Nat) (a : TideEntry) : (s.setEntry i a).safety = s.safety := rfl
@[simp] theorem State.net_setEntry (s : State) (i : Nat) (a : TideEntry) : (s.setEntry i a).net = s.net := rfl
@[simp] theorem State.ten_setEntry (s : State) (i : Nat) (a : TideEntry) : (s.setEntry i a).ten = s.ten := rfl
@[simp] theorem State.fab_setEntry (s : State) (i : Nat) (a : TideEntry) : (s.setEntry i a).fab = s.fab := rfl
@[simp] theorem State.mbox_setEntry (s : State) (i : Nat) (a : TideEntry) : (s.setEntry i a).mbox = s.mbox := rfl
@[simp] theorem State.can_setEntry (s : State) (i : Nat) (a : TideEntry) : (s.setEntry i a).can = s.can := rfl
@[simp] theorem State.store_setEntry (s : State) (i : Nat) (a : TideEntry) : (s.setEntry i a).store = s.store := rfl
@[simp] theorem State.recorder_setEntry (s : State) (i : Nat) (a : TideEntry) : (s.setEntry i a).recorder = s.recorder := rfl
@[simp] theorem State.sec_setEntry (s : State) (i : Nat) (a : TideEntry) : (s.setEntry i a).sec = s.sec := rfl
@[simp] theorem State.power_setEntry (s : State) (i : Nat) (a : TideEntry) : (s.setEntry i a).power = s.power := rfl
@[simp] theorem State.out_setEntry (s : State) (i : Nat) (a : TideEntry) : (s.setEntry i a).out = s.out := rfl
@[simp] theorem State.fresh_setEntry (s : State) (i : Nat) (a : TideEntry) : (s.setEntry i a).fresh = s.fresh := rfl
@[simp] theorem State.pending_setEntry (s : State) (i : Nat) (a : TideEntry) : (s.setEntry i a).pending = s.pending := rfl

@[simp] theorem State.updInst_eq (s : State) (i : Nat) (f : TideInst → TideInst) : s.updInst i f = s.setInst i (f (s.inst i)) := rfl
@[simp] theorem State.inst_setInst_same (s : State) (i : Nat) (a : TideInst) : (s.setInst i a).inst i = a :=
  tget_tset_same _ _ _ _
@[simp] theorem State.inst_setInst_ne (s : State) {i j : Nat} (a : TideInst) (h : j ≠ i) :
    (s.setInst i a).inst j = s.inst j := tget_tset_ne _ _ _ h
@[simp] theorem State.clock_setInst (s : State) (i : Nat) (a : TideInst) : (s.setInst i a).clock = s.clock := rfl
@[simp] theorem State.ptp_setInst (s : State) (i : Nat) (a : TideInst) : (s.setInst i a).ptp = s.ptp := rfl
@[simp] theorem State.servo_setInst (s : State) (i : Nat) (a : TideInst) : (s.setInst i a).servo = s.servo := rfl
@[simp] theorem State.lh_setInst (s : State) (i : Nat) (a : TideInst) : (s.setInst i a).lh = s.lh := rfl
@[simp] theorem State.table_setInst (s : State) (i : Nat) (a : TideInst) : (s.setInst i a).table = s.table := rfl
@[simp] theorem State.tsin_setInst (s : State) (i : Nat) (a : TideInst) : (s.setInst i a).tsin = s.tsin := rfl
@[simp] theorem State.tsout_setInst (s : State) (i : Nat) (a : TideInst) : (s.setInst i a).tsout = s.tsout := rfl
@[simp] theorem State.tap_setInst (s : State) (i : Nat) (a : TideInst) : (s.setInst i a).tap = s.tap := rfl
@[simp] theorem State.ana_setInst (s : State) (i : Nat) (a : TideInst) : (s.setInst i a).ana = s.ana := rfl
@[simp] theorem State.lanes_setInst (s : State) (i : Nat) (a : TideInst) : (s.setInst i a).lanes = s.lanes := rfl
@[simp] theorem State.model_setInst (s : State) (i : Nat) (a : TideInst) : (s.setInst i a).model = s.model := rfl
@[simp] theorem State.sound_setInst (s : State) (i : Nat) (a : TideInst) : (s.setInst i a).sound = s.sound := rfl
@[simp] theorem State.therm_setInst (s : State) (i : Nat) (a : TideInst) : (s.setInst i a).therm = s.therm := rfl
@[simp] theorem State.safety_setInst (s : State) (i : Nat) (a : TideInst) : (s.setInst i a).safety = s.safety := rfl
@[simp] theorem State.net_setInst (s : State) (i : Nat) (a : TideInst) : (s.setInst i a).net = s.net := rfl
@[simp] theorem State.ten_setInst (s : State) (i : Nat) (a : TideInst) : (s.setInst i a).ten = s.ten := rfl
@[simp] theorem State.fab_setInst (s : State) (i : Nat) (a : TideInst) : (s.setInst i a).fab = s.fab := rfl
@[simp] theorem State.mbox_setInst (s : State) (i : Nat) (a : TideInst) : (s.setInst i a).mbox = s.mbox := rfl
@[simp] theorem State.can_setInst (s : State) (i : Nat) (a : TideInst) : (s.setInst i a).can = s.can := rfl
@[simp] theorem State.store_setInst (s : State) (i : Nat) (a : TideInst) : (s.setInst i a).store = s.store := rfl
@[simp] theorem State.recorder_setInst (s : State) (i : Nat) (a : TideInst) : (s.setInst i a).recorder = s.recorder := rfl
@[simp] theorem State.sec_setInst (s : State) (i : Nat) (a : TideInst) : (s.setInst i a).sec = s.sec := rfl
@[simp] theorem State.power_setInst (s : State) (i : Nat) (a : TideInst) : (s.setInst i a).power = s.power := rfl
@[simp] theorem State.out_setInst (s : State) (i : Nat) (a : TideInst) : (s.setInst i a).out = s.out := rfl
@[simp] theorem State.fresh_setInst (s : State) (i : Nat) (a : TideInst) : (s.setInst i a).fresh = s.fresh := rfl
@[simp] theorem State.pending_setInst (s : State) (i : Nat) (a : TideInst) : (s.setInst i a).pending = s.pending := rfl

@[simp] theorem State.updPathCount_eq (s : State) (i : Nat) (f : PathCount → PathCount) : s.updPathCount i f = s.setPathCount i (f (s.pathCount i)) := rfl
@[simp] theorem State.pathCount_setPathCount_same (s : State) (i : Nat) (a : PathCount) : (s.setPathCount i a).pathCount i = a :=
  tget_tset_same _ _ _ _
@[simp] theorem State.pathCount_setPathCount_ne (s : State) {i j : Nat} (a : PathCount) (h : j ≠ i) :
    (s.setPathCount i a).pathCount j = s.pathCount j := tget_tset_ne _ _ _ h
@[simp] theorem State.clock_setPathCount (s : State) (i : Nat) (a : PathCount) : (s.setPathCount i a).clock = s.clock := rfl
@[simp] theorem State.ptp_setPathCount (s : State) (i : Nat) (a : PathCount) : (s.setPathCount i a).ptp = s.ptp := rfl
@[simp] theorem State.servo_setPathCount (s : State) (i : Nat) (a : PathCount) : (s.setPathCount i a).servo = s.servo := rfl
@[simp] theorem State.lh_setPathCount (s : State) (i : Nat) (a : PathCount) : (s.setPathCount i a).lh = s.lh := rfl
@[simp] theorem State.tide_setPathCount (s : State) (i : Nat) (a : PathCount) : (s.setPathCount i a).tide = s.tide := rfl
@[simp] theorem State.table_setPathCount (s : State) (i : Nat) (a : PathCount) : (s.setPathCount i a).table = s.table := rfl
@[simp] theorem State.tsin_setPathCount (s : State) (i : Nat) (a : PathCount) : (s.setPathCount i a).tsin = s.tsin := rfl
@[simp] theorem State.tsout_setPathCount (s : State) (i : Nat) (a : PathCount) : (s.setPathCount i a).tsout = s.tsout := rfl
@[simp] theorem State.tap_setPathCount (s : State) (i : Nat) (a : PathCount) : (s.setPathCount i a).tap = s.tap := rfl
@[simp] theorem State.ana_setPathCount (s : State) (i : Nat) (a : PathCount) : (s.setPathCount i a).ana = s.ana := rfl
@[simp] theorem State.lanes_setPathCount (s : State) (i : Nat) (a : PathCount) : (s.setPathCount i a).lanes = s.lanes := rfl
@[simp] theorem State.model_setPathCount (s : State) (i : Nat) (a : PathCount) : (s.setPathCount i a).model = s.model := rfl
@[simp] theorem State.sound_setPathCount (s : State) (i : Nat) (a : PathCount) : (s.setPathCount i a).sound = s.sound := rfl
@[simp] theorem State.therm_setPathCount (s : State) (i : Nat) (a : PathCount) : (s.setPathCount i a).therm = s.therm := rfl
@[simp] theorem State.safety_setPathCount (s : State) (i : Nat) (a : PathCount) : (s.setPathCount i a).safety = s.safety := rfl
@[simp] theorem State.net_setPathCount (s : State) (i : Nat) (a : PathCount) : (s.setPathCount i a).net = s.net := rfl
@[simp] theorem State.ten_setPathCount (s : State) (i : Nat) (a : PathCount) : (s.setPathCount i a).ten = s.ten := rfl
@[simp] theorem State.fab_setPathCount (s : State) (i : Nat) (a : PathCount) : (s.setPathCount i a).fab = s.fab := rfl
@[simp] theorem State.can_setPathCount (s : State) (i : Nat) (a : PathCount) : (s.setPathCount i a).can = s.can := rfl
@[simp] theorem State.store_setPathCount (s : State) (i : Nat) (a : PathCount) : (s.setPathCount i a).store = s.store := rfl
@[simp] theorem State.recorder_setPathCount (s : State) (i : Nat) (a : PathCount) : (s.setPathCount i a).recorder = s.recorder := rfl
@[simp] theorem State.sec_setPathCount (s : State) (i : Nat) (a : PathCount) : (s.setPathCount i a).sec = s.sec := rfl
@[simp] theorem State.power_setPathCount (s : State) (i : Nat) (a : PathCount) : (s.setPathCount i a).power = s.power := rfl
@[simp] theorem State.out_setPathCount (s : State) (i : Nat) (a : PathCount) : (s.setPathCount i a).out = s.out := rfl
@[simp] theorem State.fresh_setPathCount (s : State) (i : Nat) (a : PathCount) : (s.setPathCount i a).fresh = s.fresh := rfl
@[simp] theorem State.pending_setPathCount (s : State) (i : Nat) (a : PathCount) : (s.setPathCount i a).pending = s.pending := rfl

end Sys2Proof.Machine
end

