-- ==== Sys2Proof/Laws/Envelope.lean ====
section
/-! SUPPORT. What the answer of a command, and the interrupt bits of a step, leave as they were. -/

namespace Sys2Proof.Machine

open Sys2Proof
set_option Elab.async false

/-! ## Parts -/

theorem Part.same_refl (p : Part) (s : State) : p.same s s := by cases p <;> rfl
theorem Part.same_trans {p : Part} {s t u : State} (h : p.same s t) (k : p.same t u) : p.same s u := by
  cases p <;> exact Eq.trans k h
theorem Changes.refl (ps : List Part) (s : State) : Changes ps s s := fun p _ => p.same_refl s
theorem Changes.trans {ps : List Part} {s t u : State} (h : Changes ps s t) (k : Changes ps t u) : Changes ps s u :=
  fun p hp => Part.same_trans (h p hp) (k p hp)
theorem Changes.mono {ps qs : List Part} {s t : State} (h : Changes ps s t) (hs : ∀ p ∈ ps, p ∈ qs) : Changes qs s t :=
  fun p hp => h p fun hq => hp (hs p hq)

/-! ## Interrupt bits -/

theorem settle_settled (a b : State) : Settled b (settle a b) := by
  unfold Settled settle
  generalize (if a.power.stage != 0 && b.power.stage == 0 then 0 else intBits a b) = n
  simp only
  split
  · rfl
  · split <;> rfl
theorem settle_changes (a b : State) : Changes [.mbox] b (settle a b) := by
  intro p hp
  rw [settle_settled a b]
  cases p <;> first | rfl | exact absurd (List.mem_singleton.2 rfl) hp
@[simp] theorem settle_responses (a b : State) : (settle a b).mbox.responses = b.mbox.responses := by
  rw [settle_settled a b]
@[simp] theorem settle_boxes (a b : State) : (settle a b).mbox.boxes = b.mbox.boxes := by
  rw [settle_settled a b]

/-! ## The envelope -/

theorem Envelope.refl (src : Source) (z : State) : Envelope src z z :=
  ⟨Changes.refl _ _, rfl, rfl, fun _ _ => rfl, rfl, rfl, rfl, fun _ => rfl⟩

theorem Envelope.trans {src : Source} {a b c : State} (h : Envelope src a b) (k : Envelope src b c) : Envelope src a c where
  rest := h.rest.trans k.rest
  mbox := by rw [k.mbox, h.mbox]
  fab := by rw [k.fab, h.fab]
  queues q hq := (k.queues q hq).trans (h.queues q hq)
  net := by rw [k.net, h.net]
  sound := by rw [k.sound, h.sound]
  ten := by rw [k.ten, h.ten]
  slots n := by rw [k.slots n, h.slots n]

/-- What touches the mailboxes alone is of the envelope. -/
theorem envelope_of_mbox (src : Source) (z : State) (m : Mbox)
    (h : m = { z.mbox with
      boxes := m.boxes, counts := m.counts, responses := m.responses, msix := m.msix
      noticePending := m.noticePending, intStatus := m.intStatus }) : Envelope src z { z with mbox := m } := by
  refine ⟨fun p hp => ?_, h, rfl, fun _ _ => rfl, rfl, rfl, rfl, fun _ => rfl⟩
  cases p <;> first | rfl | (cases hq : src.path <;> simp [envelopeParts, hq] at hp)

theorem settle_envelope (src : Source) (a b : State) : Envelope src b (settle a b) := by
  have h : settle a b = { b with mbox := { b.mbox with
      intStatus := (settle a b).mbox.intStatus, msix := (settle a b).mbox.msix } } := settle_settled a b
  rw [h]
  exact envelope_of_mbox src b _ rfl

theorem envelope_setBox (src : Source) (z : State) (b : Mailbox) : Envelope src z (z.setBox b) :=
  envelope_of_mbox src z _ rfl
theorem envelope_countPath (src : Source) (z : State) (p : Path) (f : PathCount → PathCount) :
    Envelope src z (z.countPath p f) := envelope_of_mbox src z _ rfl
theorem envelope_notice (src : Source) (z : State) (q : Nat) : Envelope src z (z.notice q) := by
  unfold State.notice
  split
  · split
    · exact envelope_of_mbox src z _ rfl
    · exact envelope_of_mbox src z _ rfl
  · exact .refl _ _
theorem envelope_queueMoved (src : Source) (z : State) (q f : Nat) (b : Bool) : Envelope src z (z.queueMoved q f b) := by
  unfold State.queueMoved
  simp only
  split
  · exact envelope_notice _ _ _
  · exact .refl _ _
theorem envelope_ring (src : Source) (hp : src.path = .pcie) (z : State) (f : Fabric)
    (h : f = { z.fab with queues := f.queues, lpddr := f.lpddr })
    (hq : ∀ q, q ≠ 17 + 2 * src.box → ({ z with fab := f } : State).queue q = z.queue q) :
    Envelope src z { z with fab := f } := by
  refine ⟨fun p hn => ?_, rfl, h, hq, rfl, rfl, rfl, fun _ => rfl⟩
  cases p <;> first | rfl | simp [envelopeParts, hp] at hn
theorem envelope_lpWrite (src : Source) (hp : src.path = .pcie) (z : State) (a : Nat) (l : List Byte) :
    Envelope src z (z.lpWrite a l) := envelope_ring src hp z _ rfl fun _ _ => rfl
theorem envelope_fold {α : Type} (src : Source) (f : State → α → State) (h : ∀ z x, Envelope src z (f z x)) (l : List α)
    (z : State) : Envelope src z (l.foldl f z) := by
  induction l generalizing z with
  | nil => exact .refl _ _
  | cons x r ih => exact (h z x).trans (ih _)
theorem envelope_ringPut {src : Source} (hp : src.path = .pcie) {z u : State} {m : List Byte}
    (h : z.ringPut (17 + 2 * src.box) m = some u) : Envelope src z u := by
  unfold State.ringPut at h
  simp only at h
  split at h
  · cases h
    refine Envelope.trans ?_ (envelope_queueMoved _ _ _ _ _)
    refine Envelope.trans ?_ (envelope_ring src hp _ _ rfl fun q hq => tget_tset_ne _ _ _ hq)
    exact envelope_fold src _ (fun w _ => envelope_lpWrite src hp w _ _) _ z
  · cases h
theorem envelope_takeEach {α : Type} {src : Source} (f : State → α → Option State)
    (h : ∀ z x u, f z x = some u → Envelope src z u) (l : List α) (z : State) : Envelope src z (takeEach f l z).1 := by
  induction l generalizing z with
  | nil => exact .refl _ _
  | cons x r ih =>
    unfold takeEach
    split
    · exact .refl _ _
    · next u hu => exact (h z x u hu).trans (ih u)
theorem envelope_ringPutAll {src : Source} (hp : src.path = .pcie) (l : List (List Byte)) (z : State) :
    Envelope src z (z.ringPutAll (17 + 2 * src.box) l).1 :=
  envelope_takeEach _ (fun _ _ _ h => envelope_ringPut hp h) l z
theorem envelope_sendReliable {src : Source} (hp : src.path = .garzet) (z : State) (peer dst : Nat) (body : GBody)
    (a b c d e : Nat) (r : Bool) : Envelope src z (z.sendReliable peer dst body a b c d e r) := by
  have key : ∀ (w u : State), u = { w with net := { w.net with
      streamsTx := u.net.streamsTx, inboxFns := u.net.inboxFns }, out := u.out } → Envelope src w u := by
    intro w u h
    rw [h]
    refine ⟨fun p hn => ?_, rfl, rfl, fun _ _ => rfl, rfl, rfl, rfl, fun _ => rfl⟩
    cases p <;> first | rfl | simp [envelopeParts, hp] at hn
  unfold State.sendReliable
  simp only
  have tr : ∀ (w : State) (k : Nat) (h : GHead), Envelope src w (w.transmit k h body) := by
    intro w k h
    unfold State.transmit State.onLans
    split
    · exact key w _ rfl
    · exact key w _ rfl
  split
  · exact (key z (z.setStreamTx _) rfl).trans (tr _ _ _)
  · split
    · exact key z (z.setStreamTx _) rfl
    · exact key z (z.report _) rfl
theorem envelope_slot {src : Source} (hp : src.path = .garzet) (z : State) (n : Nat) (l : List (Nat × Nat × List Byte)) :
    Envelope src z (z.updSlot n fun x => { x with replies := x.replies ++ l }) := by
  refine ⟨fun p hn => ?_, rfl, rfl, fun _ _ => rfl, rfl, rfl, rfl, fun k => ?_⟩
  · cases p <;> first | rfl | simp [envelopeParts, hp] at hn
  · by_cases hk : k = n
    · subst hk; simp [State.slot, State.updSlot, State.setSlot]
    · simp [State.slot, State.updSlot, State.setSlot, hk]
theorem envelope_requestDone {src : Source} (hp : src.path = .garzet) (z : State) (c st : Nat) (p : List Byte) :
    Envelope src z (z.requestDone c st p) := by
  have key : ∀ (w : State) (n : Net), n = { w.net with
      streamsTx := n.streamsTx, requests := n.requests, resent := n.resent, inboxFns := n.inboxFns } →
      Envelope src w { w with net := n } := by
    intro w n h
    refine ⟨fun p hn => ?_, rfl, rfl, fun _ _ => rfl, h, rfl, rfl, fun _ => rfl⟩
    cases p <;> first | rfl | simp [envelopeParts, hp] at hn
  unfold State.requestDone
  split
  · exact .refl _ _
  · next r _ =>
    simp only
    have e1 : Envelope src z (({ z with net := { z.net with
        requests := z.net.requests.filter fun x => x.corr != c, resent := z.net.resent.filter (· != c) } } : State).report
          { typ := 3, corr := c, role := r.role, status := st, holder := ((z.otherHolder r.role).map (·.1)).getD 0xFFFF
            holderEpoch := ((z.otherHolder r.role).map (·.2)).getD 0 }) := key z _ rfl
    have e2 : ∀ w : State, Envelope src w (w.rosterReply r.role p) := by
      intro w
      refine ⟨fun p hn => ?_, rfl, rfl, fun _ _ => rfl, rfl, rfl, rfl, fun _ => rfl⟩
      cases p <;> first | rfl | simp [envelopeParts, hp] at hn
    split <;> split <;> first
      | exact (e1.trans (e2 _))
      | exact e1
      | exact (e1.trans (envelope_slot hp _ _ _)).trans (e2 _)
      | exact e1.trans (envelope_slot hp _ _ _)

theorem envelope_handOver (src : Source) (z : State) (r : Response) (hp : r.path = src.path) (hb : r.box = src.box) :
    Envelope src z (z.handOver r) := by
  have e0 : Envelope src z { z with mbox := { z.mbox with responses := z.mbox.responses ++ [r] } } :=
    envelope_of_mbox src z _ rfl
  unfold State.handOver
  simp only
  cases hr : r.path with
  | service => exact e0
  | pcie =>
    have hs : src.path = .pcie := by rw [← hp, hr]
    simp only [hb]
    have e1 := e0.trans (envelope_ringPutAll hs (respMessages r) _)
    split
    · exact e1
    · exact (e1.trans (envelope_setBox _ _ _)).trans (envelope_countPath _ _ _ _)
  | garzet =>
    have hs : src.path = .garzet := by rw [← hp, hr]
    simp only
    split
    · exact e0.trans (envelope_requestDone hs _ _ _ _)
    · exact e0.trans (envelope_fold src _ (fun w _ => envelope_sendReliable hs _ _ _ _ _ _ _ _ _ _) _ _)

theorem envelope_answer (src : Source) (z : State) (code st : Nat) (p : List Field)
    (h : (z.box src.path src.box).resetPending = false) : Envelope src z (z.answer src code st p) := by
  unfold State.answer
  simp only [h, Bool.false_eq_true, if_false]
  split
  · exact ((envelope_countPath _ _ _ _).trans (envelope_setBox _ _ _)).trans (envelope_handOver src _ _ rfl rfl)
  · exact (envelope_countPath _ _ _ _).trans (envelope_handOver src _ _ rfl rfl)

/-! ## The response -/

@[simp] theorem queueMoved_responses (z : State) (q f : Nat) (b : Bool) :
    (z.queueMoved q f b).mbox.responses = z.mbox.responses := by
  unfold State.queueMoved State.notice; simp only; split_ifs <;> rfl
theorem lpFold_responses {α : Type} (f : State → α → State) (h : ∀ z x, (f z x).mbox.responses = z.mbox.responses)
    (l : List α) (z : State) : (l.foldl f z).mbox.responses = z.mbox.responses := by
  induction l generalizing z with
  | nil => rfl
  | cons x r ih => exact (ih _).trans (h z x)
theorem ringPut_responses {z u : State} {q : Nat} {m : List Byte} (h : z.ringPut q m = some u) :
    u.mbox.responses = z.mbox.responses := by
  unfold State.ringPut at h
  simp only at h
  split at h
  · cases h
    rw [queueMoved_responses]
    exact lpFold_responses (fun (w : State) (i : Nat) => w.lpWrite ((z.queue q).slotAddr ((z.queue q).pi + i))
      (fitBytes 64 (slice m (64 * i) 64))) (fun _ _ => rfl) _ z
  · cases h
theorem takeEach_responses {α : Type} (f : State → α → Option State)
    (h : ∀ z x u, f z x = some u → u.mbox.responses = z.mbox.responses) (l : List α) (z : State) :
    (takeEach f l z).1.mbox.responses = z.mbox.responses := by
  induction l generalizing z with
  | nil => rfl
  | cons x r ih =>
    unfold takeEach
    split
    · rfl
    · next u hu => exact (ih u).trans (h z x u hu)
theorem ringPutAll_responses (q : Nat) (l : List (List Byte)) (z : State) :
    (z.ringPutAll q l).1.mbox.responses = z.mbox.responses :=
  takeEach_responses _ (fun _ _ _ h => ringPut_responses h) l z
theorem sendReliable_responses (z : State) (peer dst : Nat) (body : GBody) (a b c d e : Nat) (r : Bool) :
    (z.sendReliable peer dst body a b c d e r).mbox.responses = z.mbox.responses := by
  unfold State.sendReliable State.transmit; simp only; split_ifs <;> rfl
theorem requestDone_responses (z : State) (c st : Nat) (p : List Byte) :
    (z.requestDone c st p).mbox.responses = z.mbox.responses := by
  unfold State.requestDone
  split
  · rfl
  · simp only; split_ifs <;> rfl
theorem handOver_responses (z : State) (r : Response) : (z.handOver r).mbox.responses = z.mbox.responses ++ [r] := by
  unfold State.handOver
  simp only
  split
  · split
    · exact ringPutAll_responses _ _ _
    · exact ringPutAll_responses _ _ _
  · rfl
  · split
    · exact requestDone_responses _ _ _ _
    · exact lpFold_responses _ (fun _ _ => sendReliable_responses _ _ _ _ _ _ _ _ _ _) _ _
theorem answer_responses (src : Source) (z : State) (code st : Nat) (p : List Field)
    (h : (z.box src.path src.box).resetPending = false) :
    (z.answer src code st p).mbox.responses = z.mbox.responses ++
      [{ path := src.path, box := src.box, tag := src.tag, command := code, status := st, doneAt := z.now
         payload := p, corr := src.corr }] := by
  unfold State.answer
  simp only [h, Bool.false_eq_true, if_false]
  split <;> exact handOver_responses _ _

/-- Outside BEACHED a handler runs on the state as it stands. -/
theorem runs_outside {s : State} (h : State → Answer) (hb : s.power.state ≠ .beached) : s.runs h = h s := by
  unfold State.runs
  split
  · simp_all
  · rfl
/-- In BEACHED a handler's answer is that of step 6, and nothing of the state follows it but the free values' place. -/
theorem runs_beached {s : State} (h : State → Answer) (hb : s.power.state = .beached) :
    s.runs h = { h s.atStep6 with state := { s with fresh := (h s.atStep6).state.fresh } } := by
  simp [State.runs, hb]

/-- What the next state is when a command that is taken ends with a status at once. -/
theorem runCommand_ends {src : Source} {code st : Nat} {h : State → Answer} {s : State} {p : List Field} {z : State}
    (hr : Taken s src code) (ha : s.runs h = ⟨some st, p, z⟩) (hb : z.mbox.boxes = s.mbox.boxes)
    (hm : z.mbox.responses = s.mbox.responses) (hc : z.clock.ns = s.clock.ns) :
    ∃ u, runCommand src code h s = .next u ∧ Replied s u src code st p ∧ Envelope src z u := by
  have hz : (z.box src.path src.box).resetPending = false := by
    have := hr.2
    unfold State.box at this ⊢
    rwa [hb]
  refine ⟨settle s (z.answer src code st p), ?_, ?_, (envelope_answer src z code st p hz).trans (settle_envelope _ _ _)⟩
  · have hg : gate s src code = .runs := hr.1
    simp only [runCommand, hg, ha, done]
  · have : z.now = s.now := hc
    simp only [Replied, settle_responses, answer_responses src z code st p hz, hm, this]

/-- The same where it is accepted. -/
theorem runCommand_ok {src : Source} {code : Nat} {h : State → Answer} {s : State} {p : List Field} {z : State}
    (hr : Taken s src code) (ha : s.runs h = ⟨some stOk, p, z⟩) (hb : z.mbox.boxes = s.mbox.boxes)
    (hm : z.mbox.responses = s.mbox.responses) (hc : z.clock.ns = s.clock.ns) :
    ∃ u, runCommand src code h s = .next u ∧ Answered s u src code p z := runCommand_ends hr ha hb hm hc

/-- The same where a check of the command refuses it. -/
theorem runCommand_refused {src : Source} {code st : Nat} {h : State → Answer} {s : State}
    (hr : Taken s src code) (ha : s.runs h = refuse s st) :
    ∃ u, runCommand src code h s = .next u ∧ Refused s u src code st := runCommand_ends hr ha rfl rfl rfl

/-- What follows from the handler of a command that is taken, where it accepts at once. -/
theorem ok_imp {src : Source} {code : Nat} {h : State → Answer} {s : State} {Q : State → Prop} (hr : Taken s src code)
    (hs : (s.runs h).status = some stOk) (hb : (s.runs h).state.mbox.boxes = s.mbox.boxes)
    (hm : (s.runs h).state.mbox.responses = s.mbox.responses) (hc : (s.runs h).state.clock.ns = s.clock.ns)
    (k : ∀ u, Answered s u src code (s.runs h).payload (s.runs h).state → Q u) :
    ∃ u, runCommand src code h s = .next u ∧ Q u := by
  obtain ⟨u, hu, ha⟩ := runCommand_ok (p := (s.runs h).payload) (z := (s.runs h).state) hr (by rw [← hs]) hb hm hc
  exact ⟨u, hu, k u ha⟩

/-- The same where a check of the handler refuses. -/
theorem refused_imp {src : Source} {code st : Nat} {h : State → Answer} {s : State} {Q : State → Prop}
    (hr : Taken s src code) (hs : s.runs h = refuse s st) (k : ∀ u, Refused s u src code st → Q u) :
    ∃ u, runCommand src code h s = .next u ∧ Q u := by
  obtain ⟨u, hu, ha⟩ := runCommand_refused hr hs
  exact ⟨u, hu, k u ha⟩

/-! ## Events -/

theorem when_imp {s : State} {t : Nat} {c : State → Bool} {f : State → State} {Q : State → Prop}
    (h : c (s.atTime t) = true) (k : ∀ u, Settled (f (s.atTime t)) u → Q u) : ∃ u, whenever s t c f = .next u ∧ Q u :=
  ⟨settle s (f (s.atTime t)), by simp only [whenever, h, if_true, done], k _ (settle_settled _ _)⟩
theorem whenOn_imp {e : Bool} {s : State} {t : Nat} {c : State → Bool} {f : State → State} {Q : State → Prop} (he : e = true)
    (h : c (s.atTime t) = true) (k : ∀ u, Settled (f (s.atTime t)) u → Q u) :
    ∃ u, wheneverOn e s t c f = .next u ∧ Q u := by
  simp only [wheneverOn, he, if_true]; exact when_imp h k
theorem intBits_atTime (s : State) (t : Nat) (b : State) : intBits s b = intBits (s.atTime t) b := by
  unfold State.atTime; split <;> rfl
/-- Where the change raises no interrupt bit, nothing of the state differs. -/
theorem when_same {s : State} {t : Nat} {c : State → Bool} {f : State → State} (h : c (s.atTime t) = true)
    (hb : intBits (s.atTime t) (f (s.atTime t)) = 0) : whenever s t c f = .next (f (s.atTime t)) := by
  rw [← intBits_atTime] at hb
  simp only [whenever, h, if_true, done, settle, hb, ite_self]
/-- A change of the mailboxes alone, MAILBOX_READY as it was, raises no interrupt bit. -/
theorem intBits_mbox (s : State) (m : Mbox) (h : m.ready = s.mbox.ready) : intBits s { s with mbox := m } = 0 := by
  have h1 : State.anyLatch { s with mbox := m } = s.anyLatch := rfl
  have h2 : State.lanesWord { s with mbox := m } = s.lanesWord := rfl
  have h3 : ∀ n, State.laneSafe { s with mbox := m } n = s.laneSafe n := fun _ => rfl
  cases hp : s.power.state <;> simp [intBits, h, h1, h2, h3, hp]
@[simp] theorem atTime_mbox (s : State) (t : Nat) : (s.atTime t).mbox = s.mbox := by
  unfold State.atTime; split <;> rfl

theorem Settled.changes {z u : State} (h : Settled z u) : Changes [.mbox] z u := by
  intro p hp
  unfold Settled at h; rw [h]
  cases p <;> first | rfl | exact absurd (List.mem_singleton.2 rfl) hp
theorem atTime_changes (s : State) (t : Nat) : Changes [.clock] s (s.atTime t) := by
  intro p hp
  unfold State.atTime
  split <;> cases p <;> first | rfl | exact absurd (List.mem_singleton.2 rfl) hp

/-! ## One mailbox -/

theorem find_boxes (p : Path) (k : Nat) (b : Mailbox) (l : List Mailbox) (h : ¬ (b.path = p ∧ b.box = k)) :
    ((b :: l.filter fun y => !(y.path == b.path && y.box == b.box)).find? fun x => x.path == p && x.box == k) =
      l.find? fun x => x.path == p && x.box == k := by
  have h0 : (b.path == p && b.box == k) = false := by simpa using h
  rw [List.find?_cons, h0]
  simp only []
  induction l with
  | nil => rfl
  | cons x r ih =>
    by_cases hx : (x.path == p && x.box == k) = true
    · have : (!(x.path == b.path && x.box == b.box)) = true := by
        simp only [Bool.and_eq_true, beq_iff_eq] at hx
        simp only [Bool.not_eq_true', Bool.and_eq_false_iff, beq_eq_false_iff_ne]
        by_contra hc
        simp only [not_or, not_not] at hc
        exact h ⟨by rw [← hc.1]; exact hx.1, by rw [← hc.2]; exact hx.2⟩
      rw [List.filter_cons, this, if_pos rfl, List.find?_cons, List.find?_cons, hx]
    · rw [List.find?_cons]
      simp only [Bool.not_eq_true] at hx
      rw [hx]
      simp only []
      rw [List.filter_cons]
      split
      · rw [List.find?_cons, hx]; exact ih
      · exact ih
theorem box_setBox_same (s : State) (b : Mailbox) {p : Path} {k : Nat} (hp : b.path = p) (hk : b.box = k) :
    (s.setBox b).box p k = b := by
  subst hp hk
  simp [State.box, State.setBox]
theorem box_setBox_ne (s : State) (b : Mailbox) {p : Path} {k : Nat} (h : ¬ (b.path = p ∧ b.box = k)) :
    (s.setBox b).box p k = s.box p k := by
  unfold State.box State.setBox
  simp only
  rw [find_boxes p k b _ h]
@[simp] theorem box_path (s : State) (p : Path) (k : Nat) : (s.box p k).path = p := by
  unfold State.box
  cases h : List.find? (fun x => x.path == p && x.box == k) s.mbox.boxes with
  | none => rfl
  | some x => have := List.find?_some h; simp at this; exact this.1
@[simp] theorem box_box (s : State) (p : Path) (k : Nat) : (s.box p k).box = k := by
  unfold State.box
  cases h : List.find? (fun x => x.path == p && x.box == k) s.mbox.boxes with
  | none => rfl
  | some x => have := List.find?_some h; simp at this; exact this.2
theorem Settled.box {z u : State} (h : Settled z u) (p : Path) (k : Nat) : u.box p k = z.box p k := by
  unfold Settled at h; rw [h]; rfl
theorem Settled.queue {z u : State} (h : Settled z u) (q : Nat) : u.queue q = z.queue q := by
  unfold Settled at h; rw [h]; rfl
@[simp] theorem queue_setBox (s : State) (b : Mailbox) (q : Nat) : (s.setBox b).queue q = s.queue q := rfl

end Sys2Proof.Machine
end

