-- ==== Sys2Proof/Laws/Events.lean ====
section
/-! SUPPORT. What recording an event, raising an alarm or ending one leaves as it was: all but the recorder. -/

namespace Sys2Proof.Machine

open Sys2Proof

theorem keepRecord_only (s : State) (r : EventRec) : s.keepRecord r = { s with recorder := (s.keepRecord r).recorder } := by
  unfold State.keepRecord
  simp only
  split
  · rfl
  · split <;> rfl
theorem event_only (s : State) (c k o u : Nat) (v0 v1 v2 : Option Int) (src : Option Nat) (b cl : Bool) (a : Option Nat) :
    s.event c k o u v0 v1 v2 src b cl a = { s with recorder := (s.event c k o u v0 v1 v2 src b cl a).recorder } :=
  keepRecord_only _ _
theorem raise_only (s : State) (c k o u : Nat) (v0 v1 : Option Int) :
    s.raise c k o u v0 v1 = { s with recorder := (s.raise c k o u v0 v1).recorder } := by
  unfold State.raise
  split
  · rfl
  · simp only; rw [event_only]
theorem clearAlarm_only (s : State) (c k o u : Nat) :
    s.clearAlarm c k o u = { s with recorder := (s.clearAlarm c k o u).recorder } := by
  unfold State.clearAlarm
  split
  · simp only; rw [event_only]
  · rfl
/-- What differs in the recorder alone. -/
theorem changes_recorder {s t : State} (h : t = { s with recorder := t.recorder }) : Changes [.recorder] s t := by
  intro p hp
  rw [h]
  cases p <;> first | exact absurd (List.mem_singleton.2 rfl) hp | rfl
theorem changes_event (s : State) (c k o u : Nat) (v0 v1 v2 : Option Int) (src : Option Nat) (b cl : Bool) (a : Option Nat) :
    Changes [.recorder] s (s.event c k o u v0 v1 v2 src b cl a) := changes_recorder (event_only ..)
theorem changes_raise (s : State) (c k o u : Nat) (v0 v1 : Option Int) : Changes [.recorder] s (s.raise c k o u v0 v1) :=
  changes_recorder (raise_only ..)
theorem changes_clearAlarm (s : State) (c k o u : Nat) : Changes [.recorder] s (s.clearAlarm c k o u) :=
  changes_recorder (clearAlarm_only ..)

@[simp] theorem clock_event (s : State) (c k o u : Nat) (v0 v1 v2 : Option Int) (src : Option Nat) (b cl : Bool) (a : Option Nat) :
    (s.event c k o u v0 v1 v2 src b cl a).clock = s.clock := by rw [event_only]
@[simp] theorem clock_raise (s : State) (c k o u : Nat) (v0 v1 : Option Int) : (s.raise c k o u v0 v1).clock = s.clock := by
  rw [raise_only]
@[simp] theorem clock_clearAlarm (s : State) (c k o u : Nat) : (s.clearAlarm c k o u).clock = s.clock := by
  rw [clearAlarm_only]
@[simp] theorem ptp_event (s : State) (c k o u : Nat) (v0 v1 v2 : Option Int) (src : Option Nat) (b cl : Bool) (a : Option Nat) :
    (s.event c k o u v0 v1 v2 src b cl a).ptp = s.ptp := by rw [event_only]
@[simp] theorem ptp_raise (s : State) (c k o u : Nat) (v0 v1 : Option Int) : (s.raise c k o u v0 v1).ptp = s.ptp := by
  rw [raise_only]
@[simp] theorem ptp_clearAlarm (s : State) (c k o u : Nat) : (s.clearAlarm c k o u).ptp = s.ptp := by
  rw [clearAlarm_only]
@[simp] theorem servo_event (s : State) (c k o u : Nat) (v0 v1 v2 : Option Int) (src : Option Nat) (b cl : Bool) (a : Option Nat) :
    (s.event c k o u v0 v1 v2 src b cl a).servo = s.servo := by rw [event_only]
@[simp] theorem servo_raise (s : State) (c k o u : Nat) (v0 v1 : Option Int) : (s.raise c k o u v0 v1).servo = s.servo := by
  rw [raise_only]
@[simp] theorem servo_clearAlarm (s : State) (c k o u : Nat) : (s.clearAlarm c k o u).servo = s.servo := by
  rw [clearAlarm_only]
@[simp] theorem lh_event (s : State) (c k o u : Nat) (v0 v1 v2 : Option Int) (src : Option Nat) (b cl : Bool) (a : Option Nat) :
    (s.event c k o u v0 v1 v2 src b cl a).lh = s.lh := by rw [event_only]
@[simp] theorem lh_raise (s : State) (c k o u : Nat) (v0 v1 : Option Int) : (s.raise c k o u v0 v1).lh = s.lh := by
  rw [raise_only]
@[simp] theorem lh_clearAlarm (s : State) (c k o u : Nat) : (s.clearAlarm c k o u).lh = s.lh := by
  rw [clearAlarm_only]
@[simp] theorem tide_event (s : State) (c k o u : Nat) (v0 v1 v2 : Option Int) (src : Option Nat) (b cl : Bool) (a : Option Nat) :
    (s.event c k o u v0 v1 v2 src b cl a).tide = s.tide := by rw [event_only]
@[simp] theorem tide_raise (s : State) (c k o u : Nat) (v0 v1 : Option Int) : (s.raise c k o u v0 v1).tide = s.tide := by
  rw [raise_only]
@[simp] theorem tide_clearAlarm (s : State) (c k o u : Nat) : (s.clearAlarm c k o u).tide = s.tide := by
  rw [clearAlarm_only]
@[simp] theorem table_event (s : State) (c k o u : Nat) (v0 v1 v2 : Option Int) (src : Option Nat) (b cl : Bool) (a : Option Nat) :
    (s.event c k o u v0 v1 v2 src b cl a).table = s.table := by rw [event_only]
@[simp] theorem table_raise (s : State) (c k o u : Nat) (v0 v1 : Option Int) : (s.raise c k o u v0 v1).table = s.table := by
  rw [raise_only]
@[simp] theorem table_clearAlarm (s : State) (c k o u : Nat) : (s.clearAlarm c k o u).table = s.table := by
  rw [clearAlarm_only]
@[simp] theorem tsin_event (s : State) (c k o u : Nat) (v0 v1 v2 : Option Int) (src : Option Nat) (b cl : Bool) (a : Option Nat) :
    (s.event c k o u v0 v1 v2 src b cl a).tsin = s.tsin := by rw [event_only]
@[simp] theorem tsin_raise (s : State) (c k o u : Nat) (v0 v1 : Option Int) : (s.raise c k o u v0 v1).tsin = s.tsin := by
  rw [raise_only]
@[simp] theorem tsin_clearAlarm (s : State) (c k o u : Nat) : (s.clearAlarm c k o u).tsin = s.tsin := by
  rw [clearAlarm_only]
@[simp] theorem tsout_event (s : State) (c k o u : Nat) (v0 v1 v2 : Option Int) (src : Option Nat) (b cl : Bool) (a : Option Nat) :
    (s.event c k o u v0 v1 v2 src b cl a).tsout = s.tsout := by rw [event_only]
@[simp] theorem tsout_raise (s : State) (c k o u : Nat) (v0 v1 : Option Int) : (s.raise c k o u v0 v1).tsout = s.tsout := by
  rw [raise_only]
@[simp] theorem tsout_clearAlarm (s : State) (c k o u : Nat) : (s.clearAlarm c k o u).tsout = s.tsout := by
  rw [clearAlarm_only]
@[simp] theorem tap_event (s : State) (c k o u : Nat) (v0 v1 v2 : Option Int) (src : Option Nat) (b cl : Bool) (a : Option Nat) :
    (s.event c k o u v0 v1 v2 src b cl a).tap = s.tap := by rw [event_only]
@[simp] theorem tap_raise (s : State) (c k o u : Nat) (v0 v1 : Option Int) : (s.raise c k o u v0 v1).tap = s.tap := by
  rw [raise_only]
@[simp] theorem tap_clearAlarm (s : State) (c k o u : Nat) : (s.clearAlarm c k o u).tap = s.tap := by
  rw [clearAlarm_only]
@[simp] theorem ana_event (s : State) (c k o u : Nat) (v0 v1 v2 : Option Int) (src : Option Nat) (b cl : Bool) (a : Option Nat) :
    (s.event c k o u v0 v1 v2 src b cl a).ana = s.ana := by rw [event_only]
@[simp] theorem ana_raise (s : State) (c k o u : Nat) (v0 v1 : Option Int) : (s.raise c k o u v0 v1).ana = s.ana := by
  rw [raise_only]
@[simp] theorem ana_clearAlarm (s : State) (c k o u : Nat) : (s.clearAlarm c k o u).ana = s.ana := by
  rw [clearAlarm_only]
@[simp] theorem lanes_event (s : State) (c k o u : Nat) (v0 v1 v2 : Option Int) (src : Option Nat) (b cl : Bool) (a : Option Nat) :
    (s.event c k o u v0 v1 v2 src b cl a).lanes = s.lanes := by rw [event_only]
@[simp] theorem lanes_raise (s : State) (c k o u : Nat) (v0 v1 : Option Int) : (s.raise c k o u v0 v1).lanes = s.lanes := by
  rw [raise_only]
@[simp] theorem lanes_clearAlarm (s : State) (c k o u : Nat) : (s.clearAlarm c k o u).lanes = s.lanes := by
  rw [clearAlarm_only]
@[simp] theorem model_event (s : State) (c k o u : Nat) (v0 v1 v2 : Option Int) (src : Option Nat) (b cl : Bool) (a : Option Nat) :
    (s.event c k o u v0 v1 v2 src b cl a).model = s.model := by rw [event_only]
@[simp] theorem model_raise (s : State) (c k o u : Nat) (v0 v1 : Option Int) : (s.raise c k o u v0 v1).model = s.model := by
  rw [raise_only]
@[simp] theorem model_clearAlarm (s : State) (c k o u : Nat) : (s.clearAlarm c k o u).model = s.model := by
  rw [clearAlarm_only]
@[simp] theorem sound_event (s : State) (c k o u : Nat) (v0 v1 v2 : Option Int) (src : Option Nat) (b cl : Bool) (a : Option Nat) :
    (s.event c k o u v0 v1 v2 src b cl a).sound = s.sound := by rw [event_only]
@[simp] theorem sound_raise (s : State) (c k o u : Nat) (v0 v1 : Option Int) : (s.raise c k o u v0 v1).sound = s.sound := by
  rw [raise_only]
@[simp] theorem sound_clearAlarm (s : State) (c k o u : Nat) : (s.clearAlarm c k o u).sound = s.sound := by
  rw [clearAlarm_only]
@[simp] theorem therm_event (s : State) (c k o u : Nat) (v0 v1 v2 : Option Int) (src : Option Nat) (b cl : Bool) (a : Option Nat) :
    (s.event c k o u v0 v1 v2 src b cl a).therm = s.therm := by rw [event_only]
@[simp] theorem therm_raise (s : State) (c k o u : Nat) (v0 v1 : Option Int) : (s.raise c k o u v0 v1).therm = s.therm := by
  rw [raise_only]
@[simp] theorem therm_clearAlarm (s : State) (c k o u : Nat) : (s.clearAlarm c k o u).therm = s.therm := by
  rw [clearAlarm_only]
@[simp] theorem safety_event (s : State) (c k o u : Nat) (v0 v1 v2 : Option Int) (src : Option Nat) (b cl : Bool) (a : Option Nat) :
    (s.event c k o u v0 v1 v2 src b cl a).safety = s.safety := by rw [event_only]
@[simp] theorem safety_raise (s : State) (c k o u : Nat) (v0 v1 : Option Int) : (s.raise c k o u v0 v1).safety = s.safety := by
  rw [raise_only]
@[simp] theorem safety_clearAlarm (s : State) (c k o u : Nat) : (s.clearAlarm c k o u).safety = s.safety := by
  rw [clearAlarm_only]
@[simp] theorem net_event (s : State) (c k o u : Nat) (v0 v1 v2 : Option Int) (src : Option Nat) (b cl : Bool) (a : Option Nat) :
    (s.event c k o u v0 v1 v2 src b cl a).net = s.net := by rw [event_only]
@[simp] theorem net_raise (s : State) (c k o u : Nat) (v0 v1 : Option Int) : (s.raise c k o u v0 v1).net = s.net := by
  rw [raise_only]
@[simp] theorem net_clearAlarm (s : State) (c k o u : Nat) : (s.clearAlarm c k o u).net = s.net := by
  rw [clearAlarm_only]
@[simp] theorem ten_event (s : State) (c k o u : Nat) (v0 v1 v2 : Option Int) (src : Option Nat) (b cl : Bool) (a : Option Nat) :
    (s.event c k o u v0 v1 v2 src b cl a).ten = s.ten := by rw [event_only]
@[simp] theorem ten_raise (s : State) (c k o u : Nat) (v0 v1 : Option Int) : (s.raise c k o u v0 v1).ten = s.ten := by
  rw [raise_only]
@[simp] theorem ten_clearAlarm (s : State) (c k o u : Nat) : (s.clearAlarm c k o u).ten = s.ten := by
  rw [clearAlarm_only]
@[simp] theorem fab_event (s : State) (c k o u : Nat) (v0 v1 v2 : Option Int) (src : Option Nat) (b cl : Bool) (a : Option Nat) :
    (s.event c k o u v0 v1 v2 src b cl a).fab = s.fab := by rw [event_only]
@[simp] theorem fab_raise (s : State) (c k o u : Nat) (v0 v1 : Option Int) : (s.raise c k o u v0 v1).fab = s.fab := by
  rw [raise_only]
@[simp] theorem fab_clearAlarm (s : State) (c k o u : Nat) : (s.clearAlarm c k o u).fab = s.fab := by
  rw [clearAlarm_only]
@[simp] theorem mbox_event (s : State) (c k o u : Nat) (v0 v1 v2 : Option Int) (src : Option Nat) (b cl : Bool) (a : Option Nat) :
    (s.event c k o u v0 v1 v2 src b cl a).mbox = s.mbox := by rw [event_only]
@[simp] theorem mbox_raise (s : State) (c k o u : Nat) (v0 v1 : Option Int) : (s.raise c k o u v0 v1).mbox = s.mbox := by
  rw [raise_only]
@[simp] theorem mbox_clearAlarm (s : State) (c k o u : Nat) : (s.clearAlarm c k o u).mbox = s.mbox := by
  rw [clearAlarm_only]
@[simp] theorem can_event (s : State) (c k o u : Nat) (v0 v1 v2 : Option Int) (src : Option Nat) (b cl : Bool) (a : Option Nat) :
    (s.event c k o u v0 v1 v2 src b cl a).can = s.can := by rw [event_only]
@[simp] theorem can_raise (s : State) (c k o u : Nat) (v0 v1 : Option Int) : (s.raise c k o u v0 v1).can = s.can := by
  rw [raise_only]
@[simp] theorem can_clearAlarm (s : State) (c k o u : Nat) : (s.clearAlarm c k o u).can = s.can := by
  rw [clearAlarm_only]
@[simp] theorem store_event (s : State) (c k o u : Nat) (v0 v1 v2 : Option Int) (src : Option Nat) (b cl : Bool) (a : Option Nat) :
    (s.event c k o u v0 v1 v2 src b cl a).store = s.store := by rw [event_only]
@[simp] theorem store_raise (s : State) (c k o u : Nat) (v0 v1 : Option Int) : (s.raise c k o u v0 v1).store = s.store := by
  rw [raise_only]
@[simp] theorem store_clearAlarm (s : State) (c k o u : Nat) : (s.clearAlarm c k o u).store = s.store := by
  rw [clearAlarm_only]
@[simp] theorem sec_event (s : State) (c k o u : Nat) (v0 v1 v2 : Option Int) (src : Option Nat) (b cl : Bool) (a : Option Nat) :
    (s.event c k o u v0 v1 v2 src b cl a).sec = s.sec := by rw [event_only]
@[simp] theorem sec_raise (s : State) (c k o u : Nat) (v0 v1 : Option Int) : (s.raise c k o u v0 v1).sec = s.sec := by
  rw [raise_only]
@[simp] theorem sec_clearAlarm (s : State) (c k o u : Nat) : (s.clearAlarm c k o u).sec = s.sec := by
  rw [clearAlarm_only]
@[simp] theorem power_event (s : State) (c k o u : Nat) (v0 v1 v2 : Option Int) (src : Option Nat) (b cl : Bool) (a : Option Nat) :
    (s.event c k o u v0 v1 v2 src b cl a).power = s.power := by rw [event_only]
@[simp] theorem power_raise (s : State) (c k o u : Nat) (v0 v1 : Option Int) : (s.raise c k o u v0 v1).power = s.power := by
  rw [raise_only]
@[simp] theorem power_clearAlarm (s : State) (c k o u : Nat) : (s.clearAlarm c k o u).power = s.power := by
  rw [clearAlarm_only]
@[simp] theorem held_event (s : State) (c k o u : Nat) (v0 v1 v2 : Option Int) (src : Option Nat) (b cl : Bool) (a : Option Nat) :
    (s.event c k o u v0 v1 v2 src b cl a).held = s.held := by rw [event_only]
@[simp] theorem held_raise (s : State) (c k o u : Nat) (v0 v1 : Option Int) : (s.raise c k o u v0 v1).held = s.held := by
  rw [raise_only]
@[simp] theorem held_clearAlarm (s : State) (c k o u : Nat) : (s.clearAlarm c k o u).held = s.held := by
  rw [clearAlarm_only]
@[simp] theorem out_event (s : State) (c k o u : Nat) (v0 v1 v2 : Option Int) (src : Option Nat) (b cl : Bool) (a : Option Nat) :
    (s.event c k o u v0 v1 v2 src b cl a).out = s.out := by rw [event_only]
@[simp] theorem out_raise (s : State) (c k o u : Nat) (v0 v1 : Option Int) : (s.raise c k o u v0 v1).out = s.out := by
  rw [raise_only]
@[simp] theorem out_clearAlarm (s : State) (c k o u : Nat) : (s.clearAlarm c k o u).out = s.out := by
  rw [clearAlarm_only]
@[simp] theorem fresh_event (s : State) (c k o u : Nat) (v0 v1 v2 : Option Int) (src : Option Nat) (b cl : Bool) (a : Option Nat) :
    (s.event c k o u v0 v1 v2 src b cl a).fresh = s.fresh := by rw [event_only]
@[simp] theorem fresh_raise (s : State) (c k o u : Nat) (v0 v1 : Option Int) : (s.raise c k o u v0 v1).fresh = s.fresh := by
  rw [raise_only]
@[simp] theorem fresh_clearAlarm (s : State) (c k o u : Nat) : (s.clearAlarm c k o u).fresh = s.fresh := by
  rw [clearAlarm_only]
@[simp] theorem pending_event (s : State) (c k o u : Nat) (v0 v1 v2 : Option Int) (src : Option Nat) (b cl : Bool) (a : Option Nat) :
    (s.event c k o u v0 v1 v2 src b cl a).pending = s.pending := by rw [event_only]
@[simp] theorem pending_raise (s : State) (c k o u : Nat) (v0 v1 : Option Int) : (s.raise c k o u v0 v1).pending = s.pending := by
  rw [raise_only]
@[simp] theorem pending_clearAlarm (s : State) (c k o u : Nat) : (s.clearAlarm c k o u).pending = s.pending := by
  rw [clearAlarm_only]

/-- An alarm that is raised is active after it. -/
@[simp] theorem alarmOn_raise (s : State) (c k o u : Nat) (v0 v1 : Option Int) : (s.raise c k o u v0 v1).alarmOn c k o = true := by
  unfold State.raise
  split
  · assumption
  · simp [State.alarmOn]
/-- An alarm that is ended is not active after it. -/
@[simp] theorem alarmOn_clearAlarm (s : State) (c k o u : Nat) : (s.clearAlarm c k o u).alarmOn c k o = false := by
  unfold State.clearAlarm
  split
  · simp [State.alarmOn]
    tauto
  · simp_all

@[simp] theorem ptp_atTime (s : State) (t : Nat) : (s.atTime t).ptp = s.ptp := by unfold State.atTime; split <;> rfl
@[simp] theorem servo_atTime (s : State) (t : Nat) : (s.atTime t).servo = s.servo := by unfold State.atTime; split <;> rfl
@[simp] theorem lh_atTime (s : State) (t : Nat) : (s.atTime t).lh = s.lh := by unfold State.atTime; split <;> rfl
@[simp] theorem tide_atTime (s : State) (t : Nat) : (s.atTime t).tide = s.tide := by unfold State.atTime; split <;> rfl
@[simp] theorem table_atTime (s : State) (t : Nat) : (s.atTime t).table = s.table := by unfold State.atTime; split <;> rfl
@[simp] theorem tsin_atTime (s : State) (t : Nat) : (s.atTime t).tsin = s.tsin := by unfold State.atTime; split <;> rfl
@[simp] theorem tsout_atTime (s : State) (t : Nat) : (s.atTime t).tsout = s.tsout := by unfold State.atTime; split <;> rfl
@[simp] theorem tap_atTime (s : State) (t : Nat) : (s.atTime t).tap = s.tap := by unfold State.atTime; split <;> rfl
@[simp] theorem ana_atTime (s : State) (t : Nat) : (s.atTime t).ana = s.ana := by unfold State.atTime; split <;> rfl
@[simp] theorem lanes_atTime (s : State) (t : Nat) : (s.atTime t).lanes = s.lanes := by unfold State.atTime; split <;> rfl
@[simp] theorem model_atTime (s : State) (t : Nat) : (s.atTime t).model = s.model := by unfold State.atTime; split <;> rfl
@[simp] theorem sound_atTime (s : State) (t : Nat) : (s.atTime t).sound = s.sound := by unfold State.atTime; split <;> rfl
@[simp] theorem therm_atTime (s : State) (t : Nat) : (s.atTime t).therm = s.therm := by unfold State.atTime; split <;> rfl
@[simp] theorem safety_atTime (s : State) (t : Nat) : (s.atTime t).safety = s.safety := by unfold State.atTime; split <;> rfl
@[simp] theorem net_atTime (s : State) (t : Nat) : (s.atTime t).net = s.net := by unfold State.atTime; split <;> rfl
@[simp] theorem ten_atTime (s : State) (t : Nat) : (s.atTime t).ten = s.ten := by unfold State.atTime; split <;> rfl
@[simp] theorem fab_atTime (s : State) (t : Nat) : (s.atTime t).fab = s.fab := by unfold State.atTime; split <;> rfl
@[simp] theorem can_atTime (s : State) (t : Nat) : (s.atTime t).can = s.can := by unfold State.atTime; split <;> rfl
@[simp] theorem store_atTime (s : State) (t : Nat) : (s.atTime t).store = s.store := by unfold State.atTime; split <;> rfl
@[simp] theorem sec_atTime (s : State) (t : Nat) : (s.atTime t).sec = s.sec := by unfold State.atTime; split <;> rfl
@[simp] theorem power_atTime (s : State) (t : Nat) : (s.atTime t).power = s.power := by unfold State.atTime; split <;> rfl
@[simp] theorem held_atTime (s : State) (t : Nat) : (s.atTime t).held = s.held := by unfold State.atTime; split <;> rfl
@[simp] theorem out_atTime (s : State) (t : Nat) : (s.atTime t).out = s.out := by unfold State.atTime; split <;> rfl
@[simp] theorem fresh_atTime (s : State) (t : Nat) : (s.atTime t).fresh = s.fresh := by unfold State.atTime; split <;> rfl
@[simp] theorem pending_atTime (s : State) (t : Nat) : (s.atTime t).pending = s.pending := by unfold State.atTime; split <;> rfl
@[simp] theorem recorder_atTime (s : State) (t : Nat) : (s.atTime t).recorder = s.recorder := by unfold State.atTime; split <;> rfl

end Sys2Proof.Machine
end

