-- ==== Sys2Proof/Laws/Memory.lean ====
section
/-! SUPPORT. The two memories: reading after writing, and the canonical form that every write keeps. -/

namespace Sys2Proof.Machine

open Sys2Proof
set_option Elab.async false

/-! ## Reading after writing -/

/-- A write leaves every other byte alone, whatever list stands for the memory. -/
theorem readByte_writeByte_ne (m : List Host.Cell) {a x : Nat} (b : Byte) (h : x ≠ a) :
    readByte (writeByte m a b) x = readByte m x := by
  induction m with
  | nil => unfold writeByte; split <;> simp [readByte, h.symm]
  | cons c r ih =>
    obtain ⟨k, d⟩ := c
    unfold writeByte
    split
    · split <;> simp [readByte, h.symm]
    · split
      · subst_vars; split <;> simp [readByte, h.symm]
      · simp only [readByte, ih]
/-- An address below every cell reads 0. -/
theorem readByte_below (m : List Host.Cell) (a : Nat) (h : ∀ c ∈ m, a < c.1) : readByte m a = 0 := by
  induction m with
  | nil => rfl
  | cons c r ih =>
    rw [readByte, if_neg (Nat.ne_of_gt (h c (List.mem_cons_self ..)))]
    exact ih fun d hd => h d (List.mem_cons_of_mem _ hd)
/-- A byte written in a memory of canonical form is read back. -/
theorem readByte_writeByte_same (m : List Host.Cell) (a : Nat) (b : Byte) (h : Memory.wf m = true) :
    readByte (writeByte m a b) a = b := by
  induction m with
  | nil => unfold writeByte; split <;> simp_all [readByte]
  | cons c r ih =>
    obtain ⟨k, d⟩ := c
    simp only [Memory.wf, List.pairwise_cons, Bool.and_eq_true, decide_eq_true_eq, List.all_cons] at h ih
    unfold writeByte
    split
    · split
      · subst_vars
        refine readByte_below _ _ fun x hx => ?_
        rcases List.mem_cons.1 hx with rfl | hx
        · assumption
        · exact Nat.lt_trans ‹a < k› (h.1.1 x hx)
      · simp [readByte]
    · split
      · subst_vars
        split
        · subst_vars
          exact readByte_below _ _ h.1.1
        · simp [readByte]
      · rw [readByte, if_neg (Ne.symm ‹_›)]
        exact ih ⟨h.1.2, h.2.2⟩

/-! ## The canonical form -/

/-- The cells after a write are those before it, but for the one written. -/
theorem mem_writeByte {m : List Host.Cell} {a : Nat} {b : Byte} {c : Host.Cell} (h : c ∈ writeByte m a b) :
    c ∈ m ∨ (c = (a, b) ∧ b ≠ 0) := by
  induction m with
  | nil => unfold writeByte at h; split at h <;> simp_all
  | cons d r ih =>
    obtain ⟨k, e⟩ := d
    unfold writeByte at h
    split at h
    · (split at h <;> simp_all; try tauto)
    · split at h
      · (split at h <;> simp_all; try tauto)
      · simp only [List.mem_cons] at h ⊢
        rcases h with h | h
        · exact .inl (.inl h)
        · rcases ih h with h | h
          · exact .inl (.inr h)
          · exact .inr h
/-- A write keeps the canonical form. -/
theorem writeByte_wf {m : List Host.Cell} (a : Nat) (b : Byte) (h : Memory.wf m = true) : Memory.wf (writeByte m a b) = true := by
  induction m with
  | nil => unfold writeByte; split <;> simp_all [Memory.wf]
  | cons d r ih =>
    obtain ⟨k, e⟩ := d
    have h0 := h
    simp only [Memory.wf, List.pairwise_cons, Bool.and_eq_true, decide_eq_true_eq, List.all_cons] at h ih
    have hr := ih ⟨h.1.2, h.2.2⟩
    unfold writeByte
    split
    · split
      · exact h0
      · simp only [Memory.wf, List.pairwise_cons, Bool.and_eq_true, decide_eq_true_eq, List.all_cons, List.mem_cons]
        refine ⟨⟨fun x hx => ?_, h.1⟩, by simpa, h.2⟩
        rcases hx with rfl | hx
        · assumption
        · exact Nat.lt_trans ‹a < k› (h.1.1 x hx)
    · split
      · subst_vars
        split
        · simpa only [Memory.wf, Bool.and_eq_true, decide_eq_true_eq] using (⟨h.1.2, h.2.2⟩ : _ ∧ _)
        · simp only [Memory.wf, List.pairwise_cons, Bool.and_eq_true, decide_eq_true_eq, List.all_cons]
          exact ⟨h.1, by simpa, h.2.2⟩
      · simp only [Memory.wf, List.pairwise_cons, Bool.and_eq_true, decide_eq_true_eq, List.all_cons]
        refine ⟨⟨fun x hx => ?_, hr.1⟩, h.2.1, hr.2⟩
        rcases mem_writeByte hx with hx | ⟨rfl, -⟩
        · exact h.1.1 x hx
        · show k < a
          omega
/-- Writing bytes keeps the canonical form. -/
theorem writeBytes_wf {m : List Host.Cell} (a : Nat) (l : List Byte) (h : Memory.wf m = true) :
    Memory.wf (writeBytes m a l) = true := by
  induction l generalizing m a with
  | nil => exact h
  | cons b r ih => exact ih (a + 1) (writeByte_wf a b h)
/-- Writing bytes leaves every byte outside them alone. -/
theorem readByte_writeBytes_outside (m : List Host.Cell) {a x : Nat} (l : List Byte) (h : x < a ∨ a + l.length ≤ x) :
    readByte (writeBytes m a l) x = readByte m x := by
  induction l generalizing m a with
  | nil => rfl
  | cons b r ih =>
    simp only [List.length_cons] at h
    rw [writeBytes, ih (writeByte m a b) (by omega), readByte_writeByte_ne _ _ (by omega)]
/-- Bytes written are read back. -/
theorem readBytes_writeBytes (m : List Host.Cell) (a : Nat) (l : List Byte) (h : Memory.wf m = true) :
    readBytes (writeBytes m a l) a l.length = l := by
  induction l generalizing m a with
  | nil => rfl
  | cons b r ih =>
    rw [writeBytes, List.length_cons, readBytes, ih _ _ (writeByte_wf a b h),
      readByte_writeBytes_outside _ _ (.inl (Nat.lt_succ_self a)), readByte_writeByte_same _ _ _ h]

/-! ## Operations of the state -/

theorem memWf_reset : MemWf State.reset := ⟨rfl, rfl⟩
/-- Two states with the same memories keep the form alike. -/
theorem MemWf.of_fab {s t : State} (h : MemWf s) (l : t.fab.lpddr = s.fab.lpddr) (r : t.fab.sram = s.fab.sram) : MemWf t := by
  unfold MemWf
  rw [l, r]
  exact h
theorem memWf_lpWrite {s : State} (a : Nat) (l : List Byte) (h : MemWf s) : MemWf (s.lpWrite a l) :=
  ⟨writeBytes_wf a l h.1, h.2⟩
@[simp] theorem lpWrite_sram (s : State) (a : Nat) (l : List Byte) : (s.lpWrite a l).fab.sram = s.fab.sram := rfl
theorem memWf_notice {s : State} (q : Nat) (h : MemWf s) : MemWf (s.notice q) := by
  unfold State.notice
  split
  · split <;> exact h
  · exact h
theorem memWf_queueMoved {s : State} (q f : Nat) (b : Bool) (h : MemWf s) : MemWf (s.queueMoved q f b) := by
  unfold State.queueMoved
  simp only
  split
  · exact memWf_notice q h
  · exact h
theorem memWf_queuePut {s : State} (q : Nat) (e : List Byte) (h : MemWf s) : MemWf (s.queuePut q e) := by
  unfold State.queuePut
  simp only
  split
  · exact h
  · split
    · exact h
    · exact memWf_queueMoved _ _ _ (memWf_lpWrite (s := s) _ _ h)
theorem memWf_fold {α : Type} {f : State → α → State} (h : ∀ z x, MemWf z → MemWf (f z x)) (l : List α) {s : State} (w : MemWf s) :
    MemWf (l.foldl f s) := by
  induction l generalizing s with
  | nil => exact w
  | cons x r ih => exact ih (h s x w)
theorem memWf_ringPut {s t : State} {q : Nat} {m : List Byte} (h : MemWf s) (e : s.ringPut q m = some t) : MemWf t := by
  unfold State.ringPut at e
  simp only at e
  split at e
  · cases e
    refine memWf_queueMoved _ _ _ ?_
    exact memWf_fold (fun z x w => memWf_lpWrite _ _ w) _ h
  · cases e
theorem memWf_selfReset {s : State} (c b : Bool) (h : MemWf s) : MemWf (s.selfReset c b) := h
theorem memWf_unpowered (s : State) : MemWf s.unpowered := ⟨rfl, rfl⟩

end Sys2Proof.Machine
end

