-- ==== Sys2Proof/Machine/Package.lean ====
section
/-! DEFINITION. The balls of the package (19 R497 to R499) and the draw of each power state (18 R483). They state no change of
state; where a rule reads a ball's level, that level is in State. -/

namespace Sys2Proof.Machine

open Sys2Proof

/-- A signal that has balls of its own (19 R498); `neg` is the N ball of a pair. -/
inductive Pin where
  | tap (p : Nat) (neg : Bool) | ain (k : Nat) | icv (n : Nat) (neg : Bool) | agnd (k : Nat)
  | gate (lane phase : Nat) (low : Bool)
  /-- KNEG, KPOS, KPRE, FBNEG, FBPOS, FBPRE, HELM_OUT and HELM_IN of a lane, 0 to 7. -/
  | line (lane j : Nat)
  | dac (k : Nat) | auxPwm (k : Nat) | tach (k : Nat) | tsin (k : Nat) | tsout (k : Nat)
  | estopA | estopB | fireIn | clear | refloat | safeOut (k : Nat) | safeRb (k : Nat) | pullOk | twinSide
  | canTx (k : Nat) | canRx (k : Nat)
  /-- TCK, TMS, TDI, TDO and TRST_N, 0 to 4. -/
  | jtag (k : Nat)
  | lan (b : Bool) (neg : Bool) | podl (b : Bool) (k : Nat) | vhu (k : Nat) | vbrd (k : Nat) | vstore (k : Nat)
  | tcxoIn | tcxoVdd | svcTx (neg : Bool) | svcRx (neg : Bool)
  | pcieTx (k : Nat) (neg : Bool) | pcieRx (k : Nat) (neg : Bool) | pcieRefclk (neg : Bool) | pciePerst
  | twinTx (k : Nat) (neg : Bool) | twinRx (k : Nat) (neg : Bool)
  | xspiClk | xspiDs | xspiDq (k : Nat) | xspiCs (k : Nat) | xspiReset
  deriving DecidableEq, Repr

/-- The letters of rows, in order (R497). -/
def rowLetters : List Char := "ABCDEFGHJKLMNPTUVWY".toList
/-- The name of the row of an index, 0 to 43 (R497). -/
def rowName (i : Nat) : String :=
  let c := String.ofList [rowLetters.getD (i % 19) 'A']
  if i < 19 then c else if i < 38 then "A" ++ c else "B" ++ c
/-- 1 for the N ball of a pair. -/
def negBit (neg : Bool) : Nat := if neg then 1 else 0
/-- The ball of a signal: its row index and its column (R498). -/
def Pin.ball : Pin → Nat × Nat
  | .tap p neg =>
    if p < 44 then (negBit neg, p + 1) else if p < 88 then (43 - negBit neg, p - 43) else (p - 86, 1 + negBit neg)
  | .ain k => if k < 40 then (k + 2, 44) else if k < 80 then (k - 38, 43) else (k - 78, 41)
  | .icv n neg => (18 + 2 * n + negBit neg, 41)
  | .agnd k => if k < 40 then (k + 2, 42) else if k < 80 then (k - 38, 40) else (k - 46, 41)
  | .gate n m low => let g := 12 * n + 2 * m + negBit low; (2 + g / 32, 3 + g % 32)
  | .line n j => let c := 8 * n + j; (5 + c / 32, 3 + c % 32)
  | .dac k => (7, 3 + k) | .auxPwm k => (7, 11 + k) | .tach k => (7, 19 + k)
  | .tsin k => (8, 3 + k) | .tsout k => (8, 7 + k) | .estopA => (8, 11) | .estopB => (8, 12) | .fireIn => (8, 13)
  | .clear => (8, 14) | .refloat => (8, 15) | .safeOut k => (8, 16 + k) | .safeRb k => (8, 20 + k) | .pullOk => (8, 24)
  | .twinSide => (8, 25) | .canTx k => (8, 26 + 2 * k) | .canRx k => (8, 27 + 2 * k) | .jtag k => (8, 30 + k)
  | .lan b neg => (41, 3 + 2 * negBit b + negBit neg) | .podl b k => (41, 7 + 8 * negBit b + k) | .vhu k => (41, 23 + k)
  | .vbrd k => (41, 27 + k) | .vstore k => (41, 31 + k) | .tcxoIn => (41, 33) | .tcxoVdd => (41, 34)
  | .svcTx neg => (41, 35 + negBit neg) | .svcRx neg => (40, 3 + negBit neg)
  | .pcieTx k neg => (40, 5 + 2 * k + negBit neg) | .pcieRx k neg => (40, 9 + 2 * k + negBit neg)
  | .pcieRefclk neg => (40, 13 + negBit neg) | .pciePerst => (40, 15)
  | .twinTx k neg => (40, 16 + 2 * k + negBit neg) | .twinRx k neg => (40, 20 + 2 * k + negBit neg)
  | .xspiClk => (40, 24) | .xspiDs => (40, 25) | .xspiDq k => (40, 26 + k) | .xspiCs k => (40, 34 + k) | .xspiReset => (40, 36)
/-- Every signal that has a ball. -/
def allPins : List Pin :=
  let each (n : Nat) (f : Nat → Pin) : List Pin := (List.range n).map f
  let both (f : Bool → Pin) : List Pin := [f false, f true]
  let pairs (n : Nat) (f : Nat → Bool → Pin) : List Pin := (List.range n).flatMap fun k => both (f k)
  pairs 128 .tap ++ each 96 .ain ++ pairs 8 .icv ++ each 88 .agnd
  ++ (List.range 8).flatMap (fun n => pairs 6 (.gate n)) ++ (List.range 8).flatMap (fun n => each 8 (.line n))
  ++ each 8 .dac ++ each 8 .auxPwm ++ each 16 .tach ++ each 4 .tsin ++ each 4 .tsout
  ++ [.estopA, .estopB, .fireIn, .clear, .refloat] ++ each 4 .safeOut ++ each 4 .safeRb ++ [.pullOk, .twinSide]
  ++ each 2 .canTx ++ each 2 .canRx ++ each 5 .jtag ++ both (.lan false) ++ both (.lan true) ++ each 8 (.podl false)
  ++ each 8 (.podl true) ++ each 4 .vhu ++ each 4 .vbrd ++ each 2 .vstore ++ [.tcxoIn, .tcxoVdd] ++ both .svcTx ++ both .svcRx
  ++ pairs 2 .pcieTx ++ pairs 2 .pcieRx ++ both .pcieRefclk ++ [.pciePerst] ++ pairs 2 .twinTx ++ pairs 2 .twinRx
  ++ [.xspiClk, .xspiDs] ++ each 8 .xspiDq ++ each 2 .xspiCs ++ [.xspiReset]
/-- The ball is GND: no signal and no AGND has it (R499). -/
def isGnd (row col : Nat) : Bool := !allPins.any fun p => p.ball == (row, col)

/-- The most a module draws at its input in a power state, mW, the board output included (18 R483). -/
def inputMax : PowerState → Nat
  | .full => 46000 | .slack => 35000 | .beached => 3100 | .bareRock => 15000

end Sys2Proof.Machine
end

