-- ==== Sys2Proof/WellFormed.lean ====
section
/-! DEFINITION. The operand ranges of the commands. A command outside them is answered INVALID_ARG, or its event
cannot arise; the step does not rest on this check. -/

namespace Sys2Proof

/-- The number is a lane (00 R11). -/
def laneOk (n : Nat) : Bool := decide (n < 8)
/-- The number is a tap port (00 R11). -/
def portOk (n : Nat) : Bool := decide (n < 128)
/-- The number is a converter (04 R108). -/
def convOk (n : Nat) : Bool := decide (n < 16)
/-- The number is a cell of a front-end (00 R11). -/
def cellIdx (n : Nat) : Bool := decide (n < 18)
/-- The number is a tenant slot (11 R319). -/
def slotOk (n : Nat) : Bool := decide (n < 256)
/-- The number is a tide-table entry (02 R66). -/
def entryOk (n : Nat) : Bool := decide (n < 1024)
/-- The number is a CAN controller (15 R426). -/
def ctlOk (n : Nat) : Bool := decide (n < 2)
/-- The number is a DMA channel (13 R382). -/
def chanOk (n : Nat) : Bool := decide (n < 64)
/-- The number is a queue (13 R375). -/
def queueOk (n : Nat) : Bool := decide (n < 32768)
/-- The number is a cooling loop (08 R248). -/
def loopOk (n : Nat) : Bool := decide (n < 8)
/-- The number is a graph engine (11 R325). -/
def engineOk (n : Nat) : Bool := decide (n < 32)
/-- The number is a DAC or pump output (04 R128, 08 R247). -/
def outOk (n : Nat) : Bool := decide (n < 8)
/-- The number is one of four (02 R74, R75; 09 R268; 14 R397; 16 R455). -/
def fourOk (n : Nat) : Bool := decide (n < 4)
/-- The number is an analogue input (00 R11). -/
def ainOk (n : Nat) : Bool := decide (n < 96)
/-- The number is a tachometer input (04 R131). -/
def tachOk (n : Nat) : Bool := decide (n < 16)
/-- The number is a phase or sensor of six (01 R29; 03 R84). -/
def phaseOk (n : Nat) : Bool := decide (n < 6)
/-- The number is a comparator of a lane (01 R29). -/
def compOk (n : Nat) : Bool := decide (n < 7)
/-- The number is a contactor of a lane (01 R29). -/
def contOk (n : Nat) : Bool := decide (n < 3)
/-- The number is one of two. -/
def lanIdx (n : Nat) : Bool := decide (n < 2)
/-- The number is a start stage (18 R488). -/
def stageOk (n : Nat) : Bool := decide (1 ≤ n ∧ n ≤ 4)
/-- The number is a cycle group (11 R328). -/
def groupOk (n : Nat) : Bool := decide (n < 8)
/-- The number is a transmit buffer (15 R429). -/
def bufOk (n : Nat) : Bool := decide (n < 32)
/-- The number is an acceptance filter (15 R433). -/
def filterOk (n : Nat) : Bool := decide (n < 64)
/-- The number is a role of a kind that is not reserved (01 R33). -/
def roleOk (n : Nat) : Bool := decide (1 ≤ n / 2 ^ 28 ∧ n / 2 ^ 28 ≤ 6)
/-- The number is a count of event records (16 R459). -/
def readOk (n : Nat) : Bool := decide (1 ≤ n ∧ n ≤ 64)
/-- The number is a raw code of the die sensor. -/
def rawOk (n : Nat) : Bool := decide (n < 65536)
/-- The number is a code of 14 bits (04 R108). -/
def codeOk (n : Nat) : Bool := decide (n < 16384)
/-- A cell identifier in range (00 R11). -/
def cellIdOk (c : CellId) : Bool := laneOk c.lane && portOk c.port && cellIdx c.cell
/-- A port, or a cell identifier, in range. -/
def portOrCellOk : PortOrCell → Bool
  | .port p => portOk p
  | .cell n p c => laneOk n && portOk p && cellIdx c
/-- Data of MBOX.NOP (14 R425). -/
def nopOk (l : List (BitVec 8)) : Bool := decide (l.length ≤ 1024)

/-- The operands of a command lie in the ranges of its rule. -/
def Instr.wf : Instr → Bool
  | .moduleIdentify _ => true
  | .moduleStatus _ => true
  | .moduleBeach _ => true
  | .modulePart _ => true
  | .moduleRestart _ => true
  | .mboxNop _ data => nopOk data
  | .mboxStatus _ => true
  | .mboxCountersRead _ _ => true
  | .timeStatus _ => true
  | .timeServoSet _ _ => true
  | .timeTriggerSet _ output _ _ _ _ => fourOk output
  | .timeCaptureRead _ input _ => fourOk input
  | .tideStatus _ => true
  | .tideEntrySet _ entry _ => entryOk entry
  | .tideEntryRead _ entry => entryOk entry
  | .lighthouseConfig _ _ => true
  | .tapStatus _ port => portOk port
  | .tapTrimSet _ port _ => portOk port
  | .tapLimitsSet _ _ _ _ _ _ _ => true
  | .tapRetrain _ port => portOk port
  | .tapCountersRead _ port _ => portOk port
  | .analogInputSet _ input _ _ _ => ainOk input
  | .analogTableSet _ conv _ _ _ => convOk conv
  | .analogTableStart _ conv _ => convOk conv
  | .analogConvert _ input _ => ainOk input
  | .analogRead _ _ => true
  | .analogCalPoint _ _ _ _ => true
  | .analogCalCommit _ _ _ _ => true
  | .analogCalRead _ _ => true
  | .analogCountersRead _ conv _ => convOk conv
  | .icvStatus _ lane => laneOk lane
  | .icvReset _ lane => laneOk lane
  | .dacConfig _ out _ _ _ => outOk out
  | .dacSet _ out _ _ => outOk out
  | .tachConfig _ input _ _ _ _ _ => tachOk input
  | .tachRead _ _ => true
  | .laneConfig _ lane _ => laneOk lane
  | .laneLoopSet _ lane _ => laneOk lane
  | .laneArm _ lane => laneOk lane
  | .laneDisarm _ lane => laneOk lane
  | .laneSetpoint _ lane _ => laneOk lane
  | .laneStatus _ lane => laneOk lane
  | .laneFaultClear _ lane _ => laneOk lane
  | .laneCountersRead _ lane _ => laneOk lane
  | .modelParamLoad _ _ _ => true
  | .modelParamRead _ _ => true
  | .modelAssign _ port _ _ => portOk port
  | .modelCellRead _ port _ _ => portOk port
  | .modelStatus _ lane => laneOk lane
  | .modelLearnSet _ _ _ => true
  | .modelLearnedRead _ port => portOk port
  | .modelLearnedWrite _ port _ => portOk port
  | .modelCommit _ => true
  | .modelRoughCommand _ target _ => portOrCellOk target
  | .modelPowerSet _ _ => true
  | .modelCountersRead _ port _ => portOk port
  | .soundSchedule _ _ => true
  | .soundCancel _ lane _ _ => laneOk lane
  | .soundStatus _ lane => laneOk lane
  | .soundResultRead _ lane _ _ port => laneOk lane && portOk port
  | .springStart _ lane _ _ _ _ => laneOk lane
  | .springStop _ lane => laneOk lane
  | .springStatus _ lane => laneOk lane
  | .springRosterSet _ _ _ => true
  | .springRosterRead _ => true
  | .balanceConfig _ lane _ => laneOk lane
  | .balanceStatus _ lane => laneOk lane
  | .balanceTest _ cell => cellIdOk cell
  | .balanceTestRead _ port => portOk port
  | .thermalLimitsSet _ lane _ => laneOk lane
  | .thermalStatus _ lane => laneOk lane
  | .coolingLoopSet _ loop _ => loopOk loop
  | .coolingOutputSet _ out _ _ _ => outOk out
  | .coolingDutySet _ out _ => outOk out
  | .coolingStatus _ loop => loopOk loop
  | .dieStatus _ => true
  | .safetyStatus _ => true
  | .safetyLimitsSet _ lane _ _ _ => laneOk lane
  | .safetyOcSet _ lane _ _ _ => laneOk lane
  | .safetyIoSet _ _ _ _ => true
  | .safetyChannelSet _ _ => true
  | .safetyLinkSet _ _ => true
  | .safetyLinkStatus _ _ _ => true
  | .safetyWindowSet _ _ _ _ => true
  | .safetyBareRock _ => true
  | .safetyCountersRead _ _ => true
  | .netStatus _ => true
  | .netCountersRead _ _ => true
  | .berthStatus _ => true
  | .estateMapLoad _ _ => true
  | .estateChangePropose _ _ => true
  | .estateChangeStatus _ _ => true
  | .estateChangeAbandon _ _ => true
  | .roleTableRead _ _ _ => true
  | .roleResolve _ _ => true
  | .tenantLoad _ slot _ _ _ _ => slotOk slot
  | .tenantUnload _ slot => slotOk slot
  | .tenantStop _ slot => slotOk slot
  | .tenantStart _ slot => slotOk slot
  | .tenantStatus _ slot => slotOk slot
  | .tenantCountersRead _ slot _ => slotOk slot
  | .graphActivate _ slot _ => slotOk slot
  | .graphDiscard _ slot => slotOk slot
  | .graphVarRead _ slot _ _ => slotOk slot
  | .graphGroupSet _ group _ => groupOk group
  | .graphEnginesRead _ => true
  | .signalRead _ _ _ => true
  | .signalConfig _ _ _ => true
  | .pairRoleSet _ _ => true
  | .pairStatus _ _ => true
  | .pairSwapHelm _ _ => true
  | .pairCompareSet _ _ _ _ => true
  | .pairCountersRead _ _ _ => true
  | .queueCreate _ q _ _ _ _ => queueOk q
  | .queueDestroy _ q => queueOk q
  | .queueThresholdSet _ q _ => queueOk q
  | .queueStatus _ q => queueOk q
  | .dmaChannelSet _ ch _ _ _ => chanOk ch
  | .dmaStart _ ch _ => chanOk ch
  | .dmaDoorbell _ ch => chanOk ch
  | .dmaAbort _ ch => chanOk ch
  | .dmaStatus _ ch => chanOk ch
  | .dmaCountersRead _ ch _ => chanOk ch
  | .canConfig _ ctl _ => ctlOk ctl
  | .canFilterSet _ ctl i _ => ctlOk ctl && filterOk i
  | .canSend _ ctl buf _ _ => ctlOk ctl && bufOk buf
  | .canReceive _ ctl _ _ => ctlOk ctl
  | .canRecover _ ctl => ctlOk ctl
  | .canStatus _ ctl => ctlOk ctl
  | .canTimeMasterSet _ ctl _ _ => ctlOk ctl
  | .canCountersRead _ ctl _ => ctlOk ctl
  | .storeStatus _ => true
  | .storeScrub _ => true
  | .storeHoldupMeasure _ => true
  | .storeWearRead _ dev => lanIdx dev
  | .eventStatus _ => true
  | .eventRead _ _ count => readOk count
  | .lifecycleStatus _ => true
  | .lifecycleTurn _ _ => true
  | .lifecycleSeal _ => true
  | .lifecycleDecommission _ _ => true
  | .debugStatus _ => true
  | .debugLevelSet _ _ => true
  | .updateStatus _ => true
  | .updateImageWrite _ _ _ _ _ => true
  | .updateReboot _ _ => true
  | .powerStatus _ => true
  | .intStatusWrite _ _ => true
  | .mailboxEnableWrite _ m _ => fourOk m
  | .mailboxResetWrite _ m => fourOk m
  | .timeLoRead _ => true
  | .queueDoorbellPi _ q _ => queueOk q
  | .queueDoorbellCi _ q _ => queueOk q
  | .channelDoorbellRing _ c => chanOk c
  | .channelDoorbellAbort _ c => chanOk c
  | .queueNoticePendingWrite _ _ _ => true
  | .bar2Access _ _ _ _ _ => true
  | .registerWrite _ _ _ _ => true
  | .pcieFunctionReset _ => true
  | .requestTake _ _ _ => true
  | .respRoom _ m => fourOk m
  | .serviceMessage _ _ _ => true
  | .mailboxClose _ _ => true
  | .requestTimeout _ _ => true
  | .heartbeat _ => true
  | .ptpSync _ _ _ => true
  | .ptpAnnounce _ _ _ => true
  | .ptpDelayResp _ _ _ => true
  | .ptpSyncSend _ _ _ => true
  | .servoLocked _ => true
  | .servoOutliers _ => true
  | .masterLost _ => true
  | .timeDisagree _ => true
  | .lighthouseSample _ inst lane => lanIdx inst && laneOk lane
  | .pllLock _ => true
  | .pllUnlock _ => true
  | .tidePublish _ => true
  | .tideMessage _ _ _ => true
  | .lighthouseDisagree _ => true
  | .instanceReturn _ => true
  | .instanceSilent _ i => lanIdx i
  | .correctionEnd _ => true
  | .tideRecount _ => true
  | .tideFiringArmed _ entry _ _ => entryOk entry
  | .sampleStrobe _ entry => entryOk entry
  | .sarSequence _ entry => entryOk entry
  | .icvWindow _ entry => entryOk entry
  | .soundingStep _ entry => entryOk entry
  | .graphCycle _ entry => entryOk entry
  | .modeChange _ entry => entryOk entry
  | .triggerOut _ entry => entryOk entry
  | .triggerTimePulse _ out => fourOk out
  | .pulseEnd _ out => fourOk out
  | .tsinCapture _ input _ _ => fourOk input
  | .tapData _ port _ => portOk port
  | .tapHello _ port _ => portOk port
  | .tapEchoReply _ port _ => portOk port
  | .alignLost _ port => portOk port
  | .alignRegained _ port => portOk port
  | .alignLostRetrain _ port => portOk port
  | .tapAck _ port _ => portOk port
  | .tapFrameError _ port _ => portOk port
  | .missedFrame _ port => portOk port
  | .tapStall _ port => portOk port
  | .commandWindow _ port => portOk port
  | .trainingAttempt _ port => portOk port
  | .trainingTimeout _ port => portOk port
  | .trainingRetry _ port => portOk port
  | .helmHolderMark _ lane _ => laneOk lane
  | .conversionComplete _ conv code => convOk conv && codeOk code
  | .tableRunEnd _ conv => convOk conv
  | .calPointResult _ _ => true
  | .icvWord _ lane _ => laneOk lane
  | .beachedBusConversion _ lane code => laneOk lane && codeOk code
  | .dacRangeSettle _ out => outOk out
  | .tachEdge _ input _ => tachOk input
  | .standstill _ input => tachOk input
  | .pwmPeriodStart _ lane phase => laneOk lane && phaseOk phase
  | .loopSampleLost _ lane => laneOk lane
  | .busRange _ lane => laneOk lane
  | .armSequenceStep _ lane => laneOk lane
  | .prechargeShort _ lane => laneOk lane
  | .disarmSequenceStep _ lane => laneOk lane
  | .disarmForced _ lane => laneOk lane
  | .decayCheck _ lane => laneOk lane
  | .contactorFeedback _ lane k _ => laneOk lane && contOk k
  | .contactorMismatch _ lane k => laneOk lane && contOk k
  | .weldCheck _ lane => laneOk lane
  | .loopItem _ lane _ => laneOk lane
  | .modelStep _ port => portOk port
  | .modelDiverged _ port cell => portOk port && cellIdx cell
  | .modelLimitsStale _ port => portOk port
  | .openCircuitEstimate _ port cell => portOk port && cellIdx cell
  | .laneRest _ lane => laneOk lane
  | .commitInterval _ => true
  | .commitDone _ _ => true
  | .slackEnter _ => true
  | .slackExit _ => true
  | .roleDropped _ _ => true
  | .beachedAt _ => true
  | .refloat _ _ _ => true
  | .refloated _ => true
  | .soundReadySend _ lane => laneOk lane
  | .soundReady _ _ _ _ => true
  | .soundActive _ _ _ _ => true
  | .soundEnd _ _ _ _ => true
  | .soundDecision _ lane => laneOk lane
  | .soundAlone _ lane => laneOk lane
  | .soundStepLeave _ lane => laneOk lane
  | .captureEnd _ lane => laneOk lane
  | .soundFit _ lane => laneOk lane
  | .soundSetClose _ lane => laneOk lane
  | .springPhaseEnd _ lane => laneOk lane
  | .springTaperEnd _ lane => laneOk lane
  | .springEndpoint _ lane => laneOk lane
  | .springInterrupted _ lane => laneOk lane
  | .springPortLost _ lane => laneOk lane
  | .springTimeout _ lane => laneOk lane
  | .springGrant _ => true
  | .balancePlan _ lane => laneOk lane
  | .balanceRepeat _ port => portOk port
  | .switchTestStart _ port cell => portOk port && cellIdx cell
  | .switchTestStep _ port => portOk port
  | .balTestOverdue _ port cell => portOk port && cellIdx cell
  | .temperatureSample _ lane => laneOk lane
  | .thermalPrecursor _ port sensor => portOk port && phaseOk sensor
  | .tempSensorLost _ port sensor => portOk port && phaseOk sensor
  | .coolingLoopUpdate _ loop => loopOk loop
  | .coolingLost _ loop => loopOk loop
  | .coolingRestored _ loop => loopOk loop
  | .dieReading _ raw _ => rawOk raw
  | .dieEnforce _ => true
  | .dieSensorBroken _ => true
  | .dieRelease _ => true
  | .lockstepMismatch _ _ => true
  | .crossWatchdog _ _ => true
  | .configCrcCheck _ _ => true
  | .safetyCoreReset _ => true
  | .overcurrentTrip _ lane comp _ => laneOk lane && compOk comp
  | .comparatorRelease _ lane comp => laneOk lane && compOk comp
  | .thresholdReadback _ lane comp _ => laneOk lane && compOk comp
  | .portDerate _ lane => laneOk lane
  | .portLost _ lane => laneOk lane
  | .estop _ _ => true
  | .estopDiscrepancy _ => true
  | .estopRecovered _ => true
  | .fire _ => true
  | .safeOutFault _ out => fourOk out
  | .clearEdge _ _ _ => true
  | .clearStuck _ _ => true
  | .safeHeartbeat _ _ => true
  | .safeFrame _ _ _ => true
  | .skewExpiry _ _ _ => true
  | .safeLinkWatchdog _ _ _ => true
  | .lanDown _ _ _ => true
  | .lanUp _ _ => true
  | .eccCorrected _ _ _ => true
  | .uncorrectableError _ _ => true
  | .supervisorWatchdog _ core => fourOk core
  | .bareRockStrobe _ => true
  | .bareRockExit _ => true
  | .lldpdu _ _ _ => true
  | .lldpSend _ _ => true
  | .berthDerivation _ => true
  | .berthDuplicate _ => true
  | .garzetFormatErr _ _ => true
  | .garzetMailbox _ _ _ _ => true
  | .garzetMailboxReply _ _ _ _ => true
  | .garzetAck _ _ _ => true
  | .garzetRoleMoved _ _ _ _ => true
  | .garzetAnnounce _ _ _ _ => true
  | .garzetSignal _ _ _ _ => true
  | .garzetPropose _ _ _ _ => true
  | .garzetProposeAck _ _ _ _ _ => true
  | .garzetCommit _ _ _ _ _ => true
  | .garzetAbandon _ _ _ _ _ => true
  | .garzetReport _ _ _ _ => true
  | .garzetFallBack _ _ _ _ _ => true
  | .retransmit _ _ _ => true
  | .noAck _ _ _ => true
  | .gapSkipped _ _ => true
  | .pathDown _ _ _ => true
  | .pathUp _ _ _ => true
  | .announceSend _ => true
  | .roleAgeOut _ _ => true
  | .changeDecision _ _ => true
  | .changeRound _ _ => true
  | .changeMemberClose _ _ => true
  | .coordinatorTakeover _ _ _ => true
  | .graphCycleComplete _ slot _ => slotOk slot
  | .cycleBudget _ slot => slotOk slot
  | .tenantFault _ slot => slotOk slot
  | .engineFault _ engine => engineOk engine
  | .signalRefresh _ slot => slotOk slot
  | .signalStale _ _ => true
  | .roleTake _ role => roleOk role
  | .helmInFall _ lane => laneOk lane
  | .helmRaise _ lane => laneOk lane
  | .helmConflict _ lane => laneOk lane
  | .helmRetry _ lane => laneOk lane
  | .takeover _ _ => true
  | .spindleLate _ lane => laneOk lane
  | .modelEngineLate _ port => portOk port
  | .helmKeep _ _ _ _ => true
  | .keepCheck _ _ _ => true
  | .helmRelease _ _ _ _ => true
  | .helmTakenReceived _ _ _ _ => true
  | .helmSwapRequest _ _ _ _ => true
  | .helmSwapReady _ _ _ _ => true
  | .helmTestStart _ _ _ _ => true
  | .selfTest _ _ _ => true
  | .helmTestResult _ _ _ _ => true
  | .testResultTimeout _ _ => true
  | .backgroundTest _ _ _ => true
  | .helmFullRequest _ _ _ _ => true
  | .fullRequestSend _ _ => true
  | .garzetMirror _ _ _ _ => true
  | .mirrorStale _ _ => true
  | .inSync _ _ => true
  | .twinLaneDown _ i => lanIdx i
  | .descriptorFetch _ ch _ => chanOk ch
  | .dmaBurstGrant _ ch _ _ => chanOk ch
  | .descriptorComplete _ ch => chanOk ch
  | .cqRoom _ ch => chanOk ch
  | .cqStall _ ch => chanOk ch
  | .canFrameReceived _ ctl _ _ => ctlOk ctl
  | .canBusIdle _ ctl => ctlOk ctl
  | .canTxAttemptEnd _ ctl _ _ _ => ctlOk ctl
  | .txTimeout _ ctl buf => ctlOk ctl && bufOk buf
  | .canBusOff _ ctl => ctlOk ctl
  | .canRecoveryDone _ ctl => ctlOk ctl
  | .txEventRoom _ ctl buf => ctlOk ctl && bufOk buf
  | .canReferenceDue _ ctl => ctlOk ctl
  | .containerTimeTake _ ctl => ctlOk ctl
  | .recordBatch _ => true
  | .holdupRetry _ _ => true
  | .storeDeferred _ => true
  | .holdupMeasurement _ _ => true
  | .holdupMeasured _ _ => true
  | .pageProgramDone _ _ _ => true
  | .eraseDone _ _ _ => true
  | .scrub _ _ => true
  | .serviceConnect _ _ => true
  | .lockoutEnd _ => true
  | .sessionTimeout _ _ => true
  | .sessionKeyExpiry _ => true
  | .rollbackAdvanced _ => true
  | .stageRailsUp _ _ => true
  | .memoryZeroed _ => true
  | .stageImageRunning _ _ _ => true
  | .stageOnNetwork _ => true
  | .stageLanesArmable _ => true
  | .startSlow _ stage => stageOk stage
  | .vhuCharged _ _ => true
  | .portPowerLoss _ port => lanIdx port
  | .portPowerRestored _ port => lanIdx port
  | .linePowerLoss _ _ => true
  | .moduleUnpowered _ => true
  | .brownoutRestart _ => true
  | .boardSupplyFault _ => true
  | .boardSupplyRetry _ _ _ => true
  | .partingStep _ => true
  | .powerUp _ port => lanIdx port
  | .sessionClose _ _ => true
  | .delayReqSend _ _ => true
  | .delayReq _ _ _ _ => true
  | .ptpAnnounceSend _ _ => true
  | .foreignFrame _ _ _ => true
  | .changeLagging _ _ => true
  | .safetyInputHealthy _ _ => true
  | .canReceiveError _ ctl _ _ _ => ctlOk ctl
  | .debugHalt _ _ => true

end Sys2Proof
end

