-- ==== Sys2Proof/Tests/Slice0.lean ====
section
/-! SUPPORT. Tests: the operand checks refuse an ill-formed term each, the examples that the spec works out, and, for each
statement, states and operands that meet its hypotheses. -/

namespace Sys2Proof.Tests

open Sys2Proof Sys2Proof.Machine
set_option maxRecDepth 4000
set_option Elab.async false

/-! witness states -/
def served (l : Lifecycle) : State :=
  { State.reset with
    mbox := { State.reset.mbox with ready := true, hostLinked := true }
    sec := { State.reset.sec with lifecycle := l }
    power := { State.reset.power with on := true, stage := 4 }
    clock := { ns := 1000000000 } }
def sv : Source := { path := .service, box := 0, tag := 1 }
def turnReq : TurnReq := { root := 0, rootIsCa := true, delivery := 0, revoked := [], ipv4 := 0, prefixLen := 24 }
/-- A module with a trial image pending. -/
def pendingS : State := (served .turned).updImgSlot 1 fun x => { x with state := .pending }
def hand : Handshake := { paramsOk := true, rootGen := some 1, chainLen := 2, serial := 77, datesOk := true }
/-- A module with a service session open. -/
def inSession : State :=
  { served .turned with mbox := { (served .turned).mbox with sessions := [{ id := 3, subject := 7, endsAt := some 7 }] } }
/-- A module whose default image has run for 73 hours. -/
def aged : State :=
  { served .turned with sec := { (served .turned).sec with imageOn := 73 * 3600 * 10 ^ 9 } }.updImgSlot 0 fun x =>
    { x with state := .good, rollback := 4 }
def nopReq : Request := { tag := 4, command := 0x0201, bytes := [1, 2] }
/-- A module with a request waiting on a service session, an idle Garzet mailbox and a request of its own out. -/
def requested : State :=
  { inSession with
    mbox := { inSession.mbox with boxes :=
      [{ path := .service, box := 3, queue := [nopReq], enable := true, state := .idle },
       { path := .garzet, box := 9, enable := true, state := .idle }] }
    net := { inSession.net with requests := [{ corr := 5, slot := 0, srcRole := 0, role := 1, epoch := 0, command := 0x0101, sentAt := 0, waitUntil := 7, bytes := [], got := [] }] } }
/-- A module with two queues that the host shares. -/
def ringed : State :=
  ((served .turned).setQueue 1024 { k := 3, base := ringRegion, prod := 2, cons := 1, created := true }).setQueue 1025
    { k := 3, base := ringRegion + 512, prod := 1, cons := 2, created := true, pi := 4 }
/-- A module whose PCIe mailbox 1 waits for room, which is there. -/
def stalled : State :=
  ((served .turned).setQueue 19 { k := 8, base := ringRegion, prod := 1, cons := 2, threshold := 1 }).setBox
    { path := .pcie, box := 1, enable := true, state := .waiting, waiting := [[1, 2]] }
/-- A module whose channel 16 belongs to the host. -/
def dma (x : ChanState) : State := ringed.setChannel 16 { owner := .pcie, state := x }
def pc : Source := { path := .pcie, box := 1, tag := 1 }
/-- The descriptor of a copy of 128 bytes. -/
def copyDesc : Desc := { addr := 4096, cq := 1025, length := 128, dst := 16384, src := 8192, nextLo := 8224 }
/-- A module whose channel 0 is to fetch that descriptor. -/
def chained : State :=
  let m := writeBytes (writeBytes [] 4096 (leBytes 4 8224 ++ leBytes 8 8192 ++ leBytes 8 16384 ++ leBytes 4 128 ++ leBytes 2 0
    ++ leBytes 2 1025 ++ leBytes 4 0)) 8192 [1, 2, 3]
  { ringed with fab := { ringed.fab with lpddr := m, stopped := false } }.setChannel 0
    { owner := .system, priority := 6, state := .running, next := 4096 }
def fetched : State := chained.setChannel 0 { chained.channel 0 with desc := some copyDesc, left := 128 }
def carried : State :=
  fetched.setChannel 0 { fetched.channel 0 with started := true, lastGranted := true, left := 0, done_ := 128 }
def heldRec (x : ChanState) : State :=
  carried.setChannel 0 { carried.channel 0 with held := some {}, heldSince := some 5, state := x }
def servoP : ServoParams :=
  { kp := 1, ki := 2, outlier := 1000, lockNs := 10000, stepNs := 1000, asymA := -32768, asymB := 32767 }
def captured : State := (served .turned).setTsIn 2 { queue := [⟨5, 6, true⟩, ⟨7, 8, false⟩], dropped := 3 }
/-- TRIGGER_OUT on output 3 for 8 ns, not enabled. -/
def trigWord : BitVec 256 := BitVec.ofNat 256 (7 * 2 ^ 72 + 3 * 2 ^ 128 + 8 * 2 ^ 160 + 99)
def lhCfg : LhConfig := { lane := 7, nominalHz := 60, angleOffset := -5, bandwidth := 20, nominalMv := 690000 }
/-- A module whose two PTP ports are slaves; LAN A has been silent since 5. -/
def slaved : State :=
  { (((served .turned).setPtpPort 0 { state := .slave, lastSyncAt := some 5 }).setPtpPort 1
      { state := .slave, lastSyncAt := some 999999000, delays := [20], asym := 7, delayReqAt := some 500, delayReqSeq := 3
        lastSyncT2 := 100, lastSyncT1 := 60 }) with
    servo := { (served .turned).servo with state := .locked } }
def mastered : State := (served .turned).setPtpPort 0 { state := .master }
def sync1 : SyncMsg := { t1 := 300, t2 := 1000, correction := 50, domain := 0, logInterval := -4 }
def ann1 : Announce :=
  { priority1 := 1, clockClass := 6, accuracy := 0x21, variance := 1, priority2 := 1, identity := 99, stepsRemoved := 0
    logInterval := 1, domain := 0 }
def resp1 : DelayResp := { t4 := 900, correction := 4, seq := 3, logMinDelayReq := 0 }
/-- The LIGHTHOUSE role, held ACTIVE. -/
def ownLh : OwnRole := { role := 0x40000000, state := .active, epoch := 1 }
/-- A module in FULL that holds LIGHTHOUSE. -/
def lit : State :=
  { State.reset with
    power := { State.reset.power with state := .full }
    net := { State.reset.net with own := [ownLh] }
    lh := { State.reset.lh with lane := some 7 } }
def litOut : PllOut := { angle := 5, freqUhz := 50000000, rocof := 0, vPos := 20000, unbalance := 0, phaseErr := 0, negAbove := false }
/-- A module whose lighthouse has crossed angle 0. -/
def crossing : State :=
  { lit with servo := { lit.servo with state := .locked }, lh := { lit.lh with locked := true, mark := some (0, litOut) } }
/-- A module in FULL that has heard both lighthouses. -/
def heard : State :=
  (({ State.reset with
    power := { State.reset.power with state := .full }
    clock := { State.reset.clock with ns := 1000 } }).setInst 0 { heard := true, silent := false, berth := 9, freqUhz := 60000000 }).setInst 1
      { heard := true, silent := false, berth := 11, freqUhz := 60000000 }
def tm : TideMsg :=
  { version := 1, inst := 1, locked := true, timeHoldover := false, freqLimit := false, undervoltage := false, berth := 11
    sequence := 5, refT := 1200, position := 77 * 65536, frequency := 50000000, rocof := 0, vPos := 20000, unbalance := 0
    phaseError := 0, reserved := 0 }
/-- A module in FULL, and no more. -/
def full : State := { State.reset with power := { State.reset.power with state := .full } }
/-- The armed firing `k` of an entry with those contents, at `t0` and position `pos`. -/
def firedOf (n : Nat) (e : TideEntry) (t0 pos k : Nat) : ArmedFiring := { entry := n, k := k, pos := pos, t0 := t0, content := e }
/-- A module in FULL with that firing armed. -/
def firedState (n : Nat) (e : TideEntry) (t0 pos k : Nat) : State :=
  { full.setEntry n e with table := { (full.setEntry n e).table with armed := [firedOf n e t0 pos k] } }
/-- A module in FULL with a TRIGGER_OUT entry for position 64. -/
def fullDue : State := full.setEntry 800 { position := 64, enable := true, kind := 7, arg0 := 3, arg1 := 8 }
/-- A module in FULL with a SAR_SEQUENCE due on converter 3. -/
def sarDue : State :=
  (firedState 700 { kind := 2, arg0 := 3, arg1 := 1 } 500 0 0).setConv 3 { tables := [(1, [3])] }
def enabledStep : SoundStep := { set_ := 4, step := 1, entry := 60, phase := .enabled, partnerRole := 0x20000005 }
/-- A module in FULL with a SOUNDING_STEP due on lane 2. -/
def stepDueS : State := (firedState 60 { kind := 4, arg0 := 2 } 500 0 0).updLaneSound 2 fun x => { x with steps := [enabledStep] }
/-- A module in FULL with a GRAPH_CYCLE of group 0 due and a graph in slot 7. -/
def cycleDueS : State :=
  (firedState 18 { kind := 5, arg0 := 0 } 500 65536 0).setSlot 7 { state := .active, running := some { cycle := 4, deadline := 2 } }
/-- A module in FULL with the MODE_CHANGE of GRAPH.ACTIVATE due. -/
def activeDueS : State :=
  (firedState 70 { kind := 6 } 500 65536 0).setSlot 7 { state := .active, staged := some {}, activateAt := some (65536, 70) }
def trigDueS : State := (firedState 900 { kind := 7, arg0 := 3, arg1 := 8 } 500 0 0).setTsOut 3 { byTable := true }
def pulseDueS : State := full.setTsOut 3 { byTable := false, mode := .time, nextAt := some 500, period := 1000, width := 16 }
/-- A lane of three phases on ports 0 to 7. -/
def cfg3 : LaneConfig :=
  { firstPort := 0, portCount := 8, phases := 3, pwmN := 20, dtH := [100, 100, 100], dtL := [100, 100, 100], minOn := 500
    umin := 100000, umax := 900000, power := false, stringFs := 100000, powerFs := 1000000, phaseFs := 100000, rated := 50000
    iChgMax := 40000, iDisMax := 40000, rampRate := 100000, vbusMin := 600000, vbusMax := 800000, tFb := 50, preDelta := 1000
    preTimeout := 2000, preShort := 200, tOverlap := 20, iOpen := 500, iBreak := 20000, disarmTimeout := 1000, tDecay := 1000
    source := .path .service }
/-- A module whose beaching waits for a TENANT role that it has given up. -/
def dropping : State :=
  { served .turned with
    power := { (served .turned).power with beach := some { step := 2, roles := [0x30000007], at_ := 5 } }
    net := { (served .turned).net with own := [{ role := 0x30000007 }] } }
/-- A module whose beaching commit has ended. -/
def commitDone : State :=
  { served .turned with power := { (served .turned).power with beach := some { step := 3, roles := [], at_ := 0 } } }
/-- A module whose ports are asleep for beaching. -/
def asleepS : State :=
  { served .turned with power := { (served .turned).power with beach := some { step := 4, roles := [], at_ := 0 } } }
/-- A module in BEACHED. -/
def beached : State := { served .turned with power := { (served .turned).power with state := .beached, beachedAt := 5 } }
def refloating : State := { served .turned with power := { (served .turned).power with refloatAt := some 3 } }
/-- A module whose ports are asleep for parting. -/
def partDone : State :=
  { served .turned with power := { (served .turned).power with part := some { step := 5, roles := [], at_ := 0 } } }
/-- A module that has started up to a stage, its LANs up from stage 2 on. -/
def started (k : Nat) : State :=
  let s := { State.reset with power := { State.reset.power with on := true, stage := k } }
  if k < 2 then s
  else { (s.updNetLan 0 fun x => { x with link := true }).updNetLan 1 fun x => { x with link := true } with
    sec := { s.sec with lifecycle := .blank } }
/-- A module whose memories have been zeroed. -/
def zeroedS : State := { started 1 with power := { (started 1).power with zeroed := true } }
def allOk : SlotCheck := { keyOk := true, gcmOk := true, signatureOk := true }
/-- A module with both its ports powered. -/
def bothPorts : State := ((started 4).setPowerPort 0 { powered := true }).setPowerPort 1 { powered := true }
/-- A frame from a front-end: TYPE, LENGTH, body and its CRC. -/
def tapRx (typ : Nat) (body : List Byte) (edge : Nat) : TapRx :=
  let b : List Byte := BitVec.ofNat 8 typ :: BitVec.ofNat 8 body.length :: body
  { delimiterOk := true, bytes := b ++ beBytes 2 (crc16 b), partialByte := false, safetyOk := true, storeOk := true, startEdge := edge }
def dataRx : TapRx := tapRx 0x81 ([3, 9, 0, 0] ++ List.replicate 58 0) 0
def helloRx : TapRx := tapRx 0x82 ([1, 0, 0, 5] ++ beBytes 8 77 ++ [0, 0]) 0
def echoRx : TapRx := tapRx 0x83 [6] 5220
def ackRx : TapRx := tapRx 0x84 [4, 0] 0
def shortRx : TapRx := { tapRx 0x84 [4, 0] 0 with bytes := [0x84] }
def sync5 : SyncRec := { tag := 0x300, t0 := 1000000000 }
/-- A module in FULL that holds lane 0 of eight ports; port 5 runs, port 6 trains. -/
def runPort : State :=
  ((({ served .turned with net := { (served .turned).net with own := [{ role := 0x20000005, state := .active, epoch := 1 }] } }).setLane 0
    { cfg := some cfg3, state := .disarmed }).setPort 5
      { state := .run, sync := some sync5, echoSent := some 1000, echoToken := 6, trim := 100 }).setPort 6
        { state := .train, trainStep := 1, attemptAt := some 1000000000 }
def sentPort : State := runPort.updPort 5 fun x => { x with inFlight := some { seq := 4 }, waiting := [{ seq := 4 }] }
def slackPort : State :=
  { runPort.updPort 5 fun x => { x with waiting := [{ seq := 4 }] } with power := { runPort.power with state := .slack } }
/-- A module in FULL that holds lane 3 STANDBY for its twin. -/
def twinned : State :=
  { full with net := { full.net with own := [{ role := 0x20000005, state := .standby, epoch := 1, kind := .twin, partner := 9, local_ := 3 }] } }
def tabled : State := (served .turned).setConv 15 { tables := [(3, [1])] }
def tabledEnd : State := (served .turned).setConv 15 { tables := [(3, [1])], run := some { table := 3, entries := [1], index := 1, gapUntil := some 5 } }
def coefS : State := (served .turned).setInput 95 { coef := some (3, 65536) }
def dacS : State := (served .turned).setDac 7 { source := .path .service }
def dacSettling : State := (served .turned).setDac 7 { source := .path .service, settleUntil := some 5, stored := 9 }
def softC : Conversion := { input := 95, source := 6, holdAt := 5, src := some sv }
/-- A module that executes ANALOG.CONVERT of input 95. -/
def softS : State :=
  ((served .turned).setConv 15 { running := some softC }).setBox { path := .service, box := 0, executing := some 0x0704, state := .executing }
def calJ : CalJob := { target := .input 95, full := false, value := 100, src := sv, codes := List.replicate 64 8000, nextAt := 0 }
def calS : State := { served .turned with ana := { (served .turned).ana with calJobs := [calJ] } }
def wordS : State := full.setIcv 7 { prevStart := 100, prevEnd := 600, prevTag := 65536 }
def beachedLane : State := { beached with clock := { beached.clock with ns := 1000000000 } }.setLane 0 { cfg := some cfg3, state := .disarmed }
def gains1 : LoopGains := { kpA := 2 ^ 32 - 1, kiA := 1, kdA := 0, kpB := 2 ^ 24, kiB := 1, kdB := 0 }
/-- A lane of eight ports without DECAY time. -/
def cfg0 : LaneConfig := { cfg3 with tDecay := 0 }
/-- The ports 0 to 7 of a state in RUN. -/
def portsRun (s : State) : State := (List.range 8).foldl (fun z p => z.setPort p { state := .run }) s
/-- A module in FULL that holds lane 0 ACTIVE, its ports in RUN, its inputs calibrated, its limits set. -/
def laneBase (c : LaneConfig) (st : LaneState) : State :=
  let s := portsRun ({ served .turned with
    net := { (served .turned).net with own := [{ role := 0x20000005, state := .active, epoch := 1 }] }
    tide := { (served .turned).tide with quality := .lockedOne } }.setLane 0
      { cfg := some c, state := st, gains := some gains1, kPos := { drive := true } })
  let s1 := (List.range 12).foldl (fun (z : State) i => z.setInput i { coef := some (0, 65536), validValue := some 700000 }) s
  ((s1.setInput 11 { coef := some (0, 65536), validValue := some 2500 }).setIcv 0 { coef := some (0, 65536) }).updLaneSafe 0 fun x => { x with ov := some 42000, uv := some 25000 }
def running : State := laneBase cfg3 .run
def armable : State := laneBase cfg3 .disarmed
def trippedS : State :=
  (laneBase cfg3 .tripped).updLane 0 fun l => { l with openWatch := [0, 1, 2], openAt := 5, kPos := { weldSuspect := true } }
/-- A lane in RUN with two periods planned. -/
def planned : State :=
  { running.updLane 0 fun l => { l with
      gains := none, periods := [200000, 199999], phases := [(0, { nextAt := some 1000000000 }), (2, { nextAt := some 1000000000 })] } with
    net := { running.net with own := [] } }
/-- A lane in step 1 of ARMING whose K- has closed. -/
def armingS : State :=
  (laneBase cfg0 .arming).updLane 0 fun l => { l with step := 1, kNeg := { drive := true, fb := true } }
/-- A lane in step 3 of ARMING whose precharge node has stayed high. -/
def shortS : State := (laneBase cfg0 .arming).updLane 0 fun l => { l with step := 3, preHighSince := some 5 }
def disarmingS : State := (laneBase cfg3 .disarming).updLane 0 fun l => { l with step := 2, gatesForced := true }
/-- A lane after its decay time, its stage discharged. -/
def decayed : State :=
  (((disarmingS.updLane 0 fun l => { l with decayDue := some 5 }).setInput 10 { validValue := some 1000, latestAt := 1000000000 })).setInput 7
    { validValue := some 700000, latestAt := 1000000000 }
/-- The FP32 words of a parameter set: every value 1 but the stoichiometries at empty, a positive electrode that falls from
4 V to 3 V, and flat tables. -/
def paramWord (o : Nat) : Nat :=
  if o = 20 ∨ o = 32 ∨ o = 160 ∨ o = 300 ∨ (824 ≤ o ∧ o < 960) then 0
  else if o = 304 then 0x40800000
  else if 304 < o ∧ o < 564 then 0x40000000 + (128 - (o - 304) / 4) * 65536
  else 0x3F800000
/-- A parameter set within every range. -/
def paramBytes : List Byte :=
  let b := leBytes 2 1 ++ leBytes 2 255 ++ leBytes 4 1032 ++ leBytes 8 9
    ++ ((List.range 252).flatMap fun k => leBytes 4 (paramWord (16 + 4 * k))) ++ leBytes 4 0
  b ++ leBytes 4 (crc32 b)
/-- A block of learned values of serial 77. -/
def learnBytes : List Byte :=
  let b := leBytes 8 77 ++ ((List.range 18).flatMap fun _ => leBytes 8 9 ++ List.replicate 24 0)
  b ++ leBytes 4 (crc32 b)
/-- A module whose port 5 holds one modelled cell. -/
def typed : State :=
  let s := runPort.setCell (cellIx 5 4) { typ := 3 }
  { s with model := { s.model with lastTag := 65536, native := !false } }
/-- The same with a parameter set of its type and a front-end heard. -/
def modelled : State :=
  let s := typed.updPort 5 fun x => { x with
    hello := some { version := 1, otherRun := false, dual := false, sideB := false, model := 5, serial := 77 } }
  { s with model := { s.model with params := tset s.model.params 3 (some { build := 5 }) } }
def gathered : State :=
  modelled.updCell (cellIx 5 4) fun c => { c with estActive := true, estVolts := List.replicate 16 37000, estCurrents := List.replicate 16 0 }
/-- A quiet module that may enter SLACK. -/
def slackable : State :=
  { served .turned with
    model := { (served .turned).model with slackEnabled := true }
    tide := { (served .turned).tide with anchorNs := 1000000000, anchorPos := 0 } }
/-- A module that drives lane 0 in its berth 3, with a settled tide, 100 s after power on. -/
def soundS : State :=
  { running with
    clock := { running.clock with ns := 100000000000 }
    servo := { running.servo with state := .locked, lockedSince := some 0 }
    net := { running.net with berth := some 3, moduleEpoch := 1 } }
def sreq (c : Bool) : SoundReq :=
  { lane := 0, set_ := 4, step := 1, last := true, start := 7000 * 65536, stepMa := 1000, length := 10, capture := c
    partnerRole := 0x20000009, partnerEpoch := 1 }
def stepOf (ph : StepPhase) : SoundStep :=
  { set_ := 4, step := 1, last := true, start := 5000 * 65536, stepMa := 1000, stepW := 100, length := 10, partnerRole := 0x20000009
    partnerEpoch := 1, entry := 60, phase := ph, t0 := 5 }
/-- The same with one step of set 4. -/
def stepS (a : SoundStep) : State := soundS.updLaneSound 0 fun x => { x with steps := [a], openSets := [{ set_ := 4, start := 5 }] }
/-- A message of the holder of LANE role 9, at berth 9, to this module's lane 0. -/
def headTo (typ len target epoch : Nat) (reply : Bool) : GHead :=
  { typ := typ, reliable := true, reply := reply, newStream := false, lanB := false, srcBerth := 9, dstBerth := 3
    srcRole := 0x20000009, srcEpoch := 1, length := len, targetRole := target, targetEpoch := epoch, corr := 0, sequence := 7
    ackSeq := 0, srcKey := 77 }
def headSound : GHead := headTo 2 36 0x20000005 1 false
def soundMsgOf (k : Nat) : SoundMsg :=
  { kind := k, reason := 0, set_ := 4, step := 1, length := 10, source := 0, start := 5000 * 65536, stepMa := -1000, stepW := -100
    laneRole := 0x20000009, laneEpoch := 1 }
def nearStep : SoundStep := { stepOf .scheduled with start := 4 * 65536 }
def laneA : OwnRole := { role := 0x20000005, state := .active, epoch := 1 }
/-- A lane with a spring tide in a phase. -/
def springS (p : Spring) : State := soundS.setSpring 0 p
def endX : Rat × Rat × Rat × Bool := (25, 0, 0, true)
def oneCell (s : State) : State :=
  let s := s.setCell (cellIx 5 4) { typ := 3, endVolts := List.replicate 16 37000, endCurrents := List.replicate 16 0, endState := some endX }
  { s with model := { s.model with native := !false, params := tset s.model.params 3 (some { build := 5 }) } }
def gridS : State :=
  { soundS with
    net := { soundS.net with
      own := { role := 0x50000000, state := .active, epoch := 1 } :: soundS.net.own
      announcers := [{ key := 9, serial := 77, berth := 9, moduleEpoch := 1, entries := [⟨0x20000009, 1, true⟩] }] }
    sound := { soundS.sound with roster := { soundS.sound.roster with ready := true, lanes := [⟨0x20000009, 9, none, none, false⟩] } } }
/-- A lane of one port with one modelled cell whose endpoint has been gathered. -/
def endS (ph : SpringPhase) : State :=
  (oneCell (springS { phase := ph, gathering := true })).setLane 0 { cfg := some { cfg3 with firstPort := 5, portCount := 1 } }
def waitingS : State := (stepS (stepOf .scheduled)).setEntry 60 { kind := 4 }
def readyStep : SoundStep := { stepOf .scheduled with readyOk := true, partnerW := -100 }
def decidedS : State := (stepS readyStep).setEntry 60 { kind := 4, position := 7000 * 65536 }
def laterStep : SoundStep := { stepOf .scheduled with start := 7000 * 65536 }
def pastStep (ph : StepPhase) (c : Bool) : SoundStep := { stepOf ph with capture := c, start := 5 * 65536 }
def bal0 : BalRequest := { enable := true, deadband := 10 ^ 12, maxPerPort := 18, vMin := 65534, tMax := -4000, dropMin := 1, dropMax := 10000, leak := 1000 }
def therm0 : ThermRequest :=
  { tripHigh := 10000, warnHigh := 9999, shedStart := 9998, warnLow := -3999, chgInhibit := -3999, tripLow := -4000, rateLimit := 500
    shedFloor := 0, hsShedStart := 14999, hsTrip := 15000, coolLossShare := 65535 }
def cool0 : CoolConfig :=
  { lanes := 1, pump := 7, tach := 15, setPoint := -32768, kp := 65536, ki := 1, pumpMin := 0, pumpMax := 65535, expect := 65535 }
/-- A module that drives lane 0 with a modelled cell 4 on its port 5. -/
def balS : State := oneCell soundS
/-- The same with a switch test of that cell in a step. -/
def testS (q : SwitchTest) : State := balS.updBalPort 5 fun b => { b with test := some q }
/-- A module with a tapped sensor 5 on port 5. -/
def sensorS (k : SensorState) : State :=
  (balS.updPort 5 fun x => { x with limits := { x.limits with temps := 32 } }).setSensor 35 k
/-- A module at a temperature sample. -/
def sampleS : State :=
  { sensorS {} with model := { soundS.model with lastBase := 100, lastTag := 65536, syncTag := some 65536 } }
def loopS : State := (balS.setCoolLoop 3 { cfg := some cool0, u := 7 }).setAux 2 { source := .loop 3, configured := true }
def dieS (d : Die) : State := { balS with therm := { balS.therm with die := d } }
def test1 : SwitchTest := { frames := 1, current0 := 700000, startedAt := 100000000000 }
def test6 : SwitchTest := { step := 6, frames := 10, sumOpen := 8000, sumClosed := 6000, sumAfter := 8000, current0 := 700000, startedAt := 100000000000 }
def queuedS : State := balS.updCell (cellIx 5 4) fun k => { k with testQueued := true }
def busyTestS : State := (testS test1).updCell (cellIx 5 4) fun k => { k with testQueued := true }
/-- The same with the safe outputs configured and the inputs healthy. -/
def safeS : State := { balS with safety := { balS.safety with outConfigured := true } }
/-- No lane is armed. -/
def calmS : State := safeS.updLane 0 fun l => { l with state := .disarmed }
def safeWith (f : Safety → Safety) : State := { safeS with safety := f safeS.safety }
def rx1 : LinkRx := { berth := 9, linkId := 2, lastAt := 5 }
def sndLink : LinkSet :=
  { send := true, linkId := 65535, berth := 0, dest := 2 ^ 48 - 1, sources := [(255, .laneTripped 7)], actions := [], watchdog := none
    skew := none, maxAge := none }
def rcvLink : LinkSet :=
  { send := false, linkId := 65535, berth := 4095, dest := 0, sources := [], actions := [(255, .tripOutputs 255 15)]
    watchdog := some 2000000, skew := some 100000, maxAge := some 50000000 }
/-- A good frame of berth 9 on link 2. -/
def frame9 (seq : Nat) : List Byte := safeBytes 9 2 seq 100000000000 0 5 false
/-- A module with a link that receives from berth 9, the other LAN DOWN. -/
def rxS (r : LinkRx) : State := ({ safeS with safety := { safeS.safety with rx := [r] } }).setSafeLan 1 { down := true }
def rxBoth (r : LinkRx) : State := ({ safeS with safety := { safeS.safety with rx := [r] } }).setSafeLan 1 { lastFrame := 100000000000 }
def tx1 : LinkTx := { linkId := 2, dest := 5 }
def txS : State := safeWith fun a => { a with tx := [tx1] }
def comp1 : State := safeS.updLaneSafe 0 fun x => { x with ocString := some 100, ocPhase := some 100, comps := [(1, { code := some 5 })] }
def latchedS : State := safeWith fun a => { a with moduleLatch := true, moduleCauses := [9] }
def rockS : State :=
  { safeWith (fun a => { a with rock := some (1, 0), rockStrobeAt := 5 }) with
    power := { safeS.power with state := .bareRock }
    therm := { safeS.therm with die := { coolSince := some 5 } } }
def badFrame : List Byte := ((frame9 5).set 60 0).set 61 0
def copy5 : HeldCopy := { seq := 5, lan := .a, at_ := 0, bytes := [] }
def heldLink : LinkRx := { rx1 with held := [copy5] }
def portOutS : State := safeS.setPort 7 { state := .failed }
def derated : State := portOutS.updLaneSafe 0 fun x => { x with derate := true, derateSince := some 5 }
def lanBackS : State := safeS.setSafeLan 1 { down := true, upSince := some 5, lastFrame := 100000000000 }
def idOf (k : Nat) : LldpId := { chassisType := 4, chassis := [BitVec.ofNat 8 k], portType := 3, port := [1] }
def berth3 : BerthEntry := { berth := 3, idA := idOf 1, idB := idOf 2 }
/-- A coordinator at berth 3 that has heard the module at berth 9. -/
def netS : State :=
  { gridS with net := { gridS.net with
      peers := [{ berth := 9, lastA := some 5, lastB := some 100000000000 }], map := [berth3]
      streamsTx := [{ peer := 9, nextSeq := 8, newStream := false
                      unacked := [{ seq := 7, head := headSound, body := .sound (soundMsgOf 1), sentAt := 5, sends := 1 }] }] } }
def headM (typ : Nat) (b : GBody) (reply : Bool) : GHead := { headTo typ (gLength b) 0x10000003 1 reply with ackSeq := 7 }
/-- A header of a message that is not RELIABLE. -/
def headP (typ : Nat) (b : GBody) (reply : Bool) : GHead :=
  { headTo typ (gLength b) 0 0 reply with reliable := false, ackSeq := 7, dstBerth := 65535 }
def boxedS : State := netS.setBox { path := .garzet, box := 9, enable := true, state := .idle }
def reqBytes : List Byte := requestBytes 0x0101 7 []
def askedS : State :=
  { netS with net := { netS.net with requests := [{ corr := 0, slot := 0, srcRole := 0x10000003, role := 0x10000009, epoch := 1, command := 0x0101, sentAt := 0, waitUntil := 7, bytes := [], got := [] }] } }
def lastReply : List Byte := (List.replicate 32 0).set 20 1
def moved5 : MovedMsg := { role := 0x20000009, refusedEpoch := 1, holderBerth := 11, holderEpoch := 2, refusedSeq := 3, typ := 8 }
def ann11 : AnnounceMsg :=
  { part := 0, parts := 1, power := 0, berth := 11, moduleEpoch := 4, serial := 99, entries := [⟨0x2000000B, 2, true⟩], mac := 5 }
def sig9 : SignalMsg := { cycleSeq := 1, publishAt := 0, entries := [{ typ := 4, absent := false, held := false, handle := 65536, value := 5 }] }
/-- A change of the estate mode from 0 to 1 at cycle 7000. -/
def prop1 : Proposal := { id := 6, kind := 1, policy := 2, conservative := 0, n := 7000 * 65536, old := 0, new_ := 1, members := [9, 3] }
def prop0 : Proposal := { prop1 with id := 7 }
def change1 : Change := { id := 6, kind := 1, policy := 2, n := 7000 * 65536, new_ := 1, coordBerth := 9, members := [{ berth := 9 }, { berth := 3 }] }
/-- The module with that change. -/
def changeS (c : Change) : State := { netS with net := { netS.net with changes := [c] } }
/-- The same without the coordinator's role, which berth 9 holds. -/
def memberS (cs : List Change) : State :=
  { netS with net := { netS.net with
      changes := cs, own := soundS.net.own
      announcers := [{ key := 9, serial := 77, berth := 9, moduleEpoch := 1, entries := [⟨0x20000009, 1, true⟩, ⟨0x50000000, 1, true⟩] }] } }
def lostBerth : State :=
  { soundS with net := { soundS.net with
      berth := none, map := [berth3], listenFrom := some 5, lans := [(0, { link := true, lldp := some (idOf 1) }), (1, { link := true, lldp := some (idOf 2) })] } }
def twiceS : State := { netS with net := { netS.net with announcers := [{ key := 99, serial := 98, berth := 3, moduleEpoch := 1 }] } }
def heldS : State :=
  { netS with net := { netS.net with streamsRx := [{ peer := 9, expected := 5, held := [{ seq := 7, at_ := 5, head := headSound, body := .sound (soundMsgOf 1) }] }] } }
def upS (p : PeerPath) : State := { netS with net := { netS.net with peers := [p] } }
def headReply : GHead := { headTo 4 32 0 0 true with ackSeq := 7 }

def varA : GraphVar := { name := [], typ := 4, mirror := true, count := 2, offset := 0, values := [5, 6] }
/-- A graph of two words, one cycle in four base intervals. -/
def graphA : Graph :=
  { id := 1, cycle := 4, deadline := 2, budget := 100, localBytes := 4096
    vars := [varA] }
/-- A module that holds TENANT role 7 ACTIVE in slot 7. -/
def tenS (x : Slot) : State :=
  { soundS with net := { soundS.net with
      own := { role := 0x30000007, state := .active, epoch := 1, local_ := 7 } :: soundS.net.own } }.setSlot 7 { x with role := 0x30000007 }
def runSlot : Slot := { state := .active, running := some graphA, localHandles := [4096], cycleStart := 4 }
/-- The same without the role. -/
def freeS (x : Slot) : State := soundS.setSlot 7 x
/-- A slot in a cycle. -/
def cycS : State := tenS { runSlot with inCycle := true, working := graphA.vars, startedAt := 5 }
def cycResult : CycleResult := { outputs := [(4096, false, some 9), (9, false, some 9)], vars := [[1, 2]], acts := [], usedUs := 100, windowFault := false }
/-- The image of a graph without variables. -/
def imageA : List Byte :=
  let b := leBytes 2 1 ++ leBytes 2 1 ++ leBytes 4 128 ++ leBytes 4 1 ++ leBytes 8 5 ++ leBytes 2 4 ++ leBytes 2 0 ++ leBytes 2 2
    ++ leBytes 1 0 ++ leBytes 1 0 ++ leBytes 4 100 ++ leBytes 4 4096 ++ List.replicate 88 0
  b ++ leBytes 4 (crc32 b)
theorem test_image_placed : (((freeS {}).updSlot 7 fun y => { y with upload := [] }).placeImage 7 0x30000007 imageA).isSome := by
  decide +kernel
def sigEst (a : EstateSig) : State := cycS.setSigOwner 1048575 a
/-- Lane role 5 of this module, paired with berth 9 as a twin. -/
def lane5 (st : RoleState) : OwnRole :=
  { role := 0x20000005, state := st, epoch := 1, kind := .twin, partner := 9, partnerEpoch := 1 }
/-- A module with that record of the role alone, whose partner stands by (or, where `act`, holds it). -/
def helmS (o : OwnRole) (act : Bool) : State :=
  { netS with net := { netS.net with
      own := [o], twinPeerSide := some true, streamsTx := []
      announcers := [{ key := 9, serial := 77, berth := 9, moduleEpoch := 1, entries := [⟨o.role, 1, act⟩] }] } }
/-- The same with the lane in a state. -/
def helmL (o : OwnRole) (act : Bool) (f : Lane → Lane) : State := (helmS o act).updLane 0 f
def helmOf (k : Nat) : HelmMsg := { kind := k, result := 2, role := 0x20000005, epoch := 1, format := 0, at_ := 7000 * 65536, gen := 3 }
def headHelm : GHead := headTo 8 24 0x20000005 1 false
def headMir : GHead := headTo 9 28 0x20000005 1 false
def fragOf (full : Bool) (count : Nat) (l : List MirrorItem) : MirrorFrag :=
  { format := 0, role := 0x20000005, epoch := 1, index := 0, count := count, full := full, gen := 8, tag := 5, size := 0, items := l }
def loop9 : LoopItem :=
  { periodSeq := 1, laneState := 3, contactors := 7, updated := 3, bInteg := 1, bYPrev := 2, ramp := 3, dff := 4, command := 5, bOut := 6
    phases := [(1, 2, 3), (4, 5, 6)] }
/-- TENANT role 7 of slot 7, paired with berth 9. -/
def ten7 (st : RoleState) : OwnRole := { role := 0x30000007, state := st, epoch := 1, kind := .estate, partner := 9, partnerEpoch := 1, local_ := 7 }
/-- The COORDINATOR role, paired with berth 9. -/
def coord (st : RoleState) : OwnRole := { role := 0x50000000, state := st, epoch := 1, kind := .twin, partner := 9, partnerEpoch := 1 }
/-- A module that may take the role of its record, with nobody else heard. -/
def alone (o : OwnRole) : State := { helmS o false with net := { (helmS o false).net with announcers := [] } }
def driven : State := helmL (lane5 .active) false fun l => { l with helmOut := true }
/-- A module that stands by for slot 7 with a shadow that has computed. -/
def shadowTen (o : OwnRole) : State :=
  (helmS o true).setSlot 7 { state := .shadow, role := 0x30000007, running := some graphA, inCycle := true, cycleDone := true, publishAt := 40 }
def lane5r : OwnRole := { lane5 .standby with sync := .inSync }
def coordr : OwnRole := { coord .standby with sync := .inSync }
def ten7r : OwnRole := { ten7 .standby with sync := .inSync }
def bit1 : BitTiming := { brp := 1, tseg1 := 63, tseg2 := 16, sjw := 16 }
def canCfg : CanConfig :=
  { mode := .normal, fd := true, nominal := bit1, data := { brp := 1, tseg1 := 11, tseg2 := 4, sjw := 4 }, tdc := true, tdcOffset := 127
    txTimeout := 1000, owners := List.replicate 32 (.path .service), retries := List.replicate 32 15, fifo0 := .path .service
    fifo1 := .queue 1025, hp := .path .pcie, txEvent := .path .service, noMatchFifo1 := false }
def canC : Can :=
  { mode := .normal, cfg := some canCfg, integrating := false, filters := [(5, some { ide := false, id := 7, mask := 2047, formats := 7, target := .fifo0 }),
      (6, some { ide := true, id := 7, mask := 2 ^ 29 - 1, formats := 7, target := .fifo1 })]
    bufs := (List.range 32).map fun i => (i, { owner := .path .service }) }
/-- A module with controller 1 on its bus. -/
def canS (c : Can) : State := (netS.setCanCtl 1 c).setQueue 1025 { k := 3, base := ringRegion, prod := 1, cons := 2, owner := 0, created := true }
def frm7 : CanFrame := { id := 7, data := [1, 2, 3] }
def frmX : CanFrame := { id := 7, ide := true, dlc := 8, data := List.replicate 8 9 }
def tx7 : TxReq := { frame := canToSend frm7, txSeq := 9, acceptedAt := 5 }
/-- The same with a request in buffer 31. -/
def canT (r : TxReq) (air : Bool) : Can := { canC with bufs := tset canC.bufs 31 { owner := .path .service, req := some r }, air := if air then some r.frame else none }
def onBus7 : TxReq := { tx7 with attempts := 1, onBus := true, startAt := some 6 }
def out7 : TxOutcome := { time := 5, txSeq := 9, outcome := 0, lastError := 0, attempts := 1, buffer := 31, controller := 1, abortLate := false }
def master4 : TimeMaster := { container := 4095, identifier := 100, ide := false, periodMs := 100 }
def ownT (st : RoleState) : OwnRole := { role := 0x60000FFF, state := st, epoch := 1, local_ := 1 }
/-- A module whose controller 1 stands for CONTAINER_TIME of container 4095. -/
def timeS (st : RoleState) : State :=
  let s := canS { canC with master := some master4 }
  { s with net := { s.net with own := ownT st :: s.net.own } }
def opOf (k : StoreOp) : Op := { prio := 3, kind := k, checked := true }
def storeW (f : Store → Store) : State := { netS with store := f netS.store }
def commit3 : Commit := { generation := 3, startedAt := 7 }
def rec1 (k : Nat) : EventRec := { code := evCommitDone, seq := k, time := 5 }
def ringS : State := { netS with recorder := { netS.recorder with ring := [rec1 3, rec1 2, rec1 1], nextSeq := 4 } }
def linePowered : State := netS.setPowerPort 0 { powered := true }
def scrubS : State := { storeW fun a => { a with scrub := some (5, 0) } with model := { netS.model with native := false } }

def gz : Source := { path := .garzet, box := 9, tag := 1 }
/-- A module at the invasive level. -/
def invaded : State :=
  { served .turned with sec := { (served .turned).sec with debug := .invasive, debugSession := some 0 } }
/-- A module with a strobe and a graph cycle due at one instant. -/
def twoDue : State :=
  { full with
    clock := { ns := 600 }
    table := { full.table with armed := [firedOf 18 { kind := 5 } 500 0 0, firedOf 8 { kind := 1 } 500 0 0] } }
/-- A module that serves mailboxes, with a pulse on output 2 armed from entry 900. -/
def servedArmed : State :=
  { served .turned with
    table := { (served .turned).table with armed := [firedOf 900 { kind := 7, arg0 := 2, arg1 := 8 } 1000000500 64 0] } }
/-- A module with a host, whose PCIe mailbox 1 has its response ring. -/
def pcServed : State :=
  (served .turned).setQueue 19 { k := 8, base := ringRegion, prod := 1, cons := 2, threshold := 1 }
/-- The outcome is a next state of which `p` holds. -/
def answers (o : Host.Outcome State Fault Refusal) (p : State → Bool := fun _ => true) : Bool :=
  match o with
  | .next u => p u
  | _ => false
/-- A module with a running slot and no lane armed. -/
def stillS : State := (tenS runSlot).updLane 0 fun l => { l with state := .disarmed }
/-- A module whose lane `n` holds a range of ports. -/
def laneOn (n first count : Nat) : State := (served .turned).setLane n { cfg := some { cfg3 with firstPort := first, portCount := count } }

/-! ## States and operands that meet the hypotheses of each clause of each statement -/

/-! ModuleAndMailboxReadsComplete -/

theorem witness_ModuleAndMailboxReadsComplete_identify : ∃ (s : State) (src : Source), Taken s src 0x0101 :=
  ⟨served .turned, sv, by decide +kernel⟩
theorem witness_ModuleAndMailboxReadsComplete_status : ∃ (s z : State) (src : Source), Taken s src 0x0102 ∧ z = s.seen :=
  ⟨served .turned, (served .turned).seen, sv, by decide +kernel, rfl⟩
theorem witness_ModuleAndMailboxReadsComplete_nop : ∃ (s : State) (src : Source) (data : List Byte), Taken s src 0x0201
    ∧ data.length ≤ 1024 :=
  ⟨served .turned, sv, List.replicate 1024 (7 : Byte), by decide +kernel⟩
theorem witness_ModuleAndMailboxReadsComplete_mstatus : ∃ (s z : State) (src : Source), Taken s src 0x0202 ∧ z = s.seen :=
  ⟨served .turned, (served .turned).seen, sv, by decide +kernel, rfl⟩
theorem witness_ModuleAndMailboxReadsComplete_mcounters : ∃ (s : State) (src : Source), Taken s src 0x0203 :=
  ⟨served .turned, sv, by decide +kernel⟩

/-! HostWindowAccessesComplete -/

theorem witness_HostWindowAccessesComplete_int : ∃ (s : State), s.mbox.hostLinked :=
  ⟨served .turned, by decide +kernel⟩
theorem witness_HostWindowAccessesComplete_enable : ∃ (s : State) (m : Nat), m < 4 ∧ s.mbox.hostLinked :=
  ⟨served .turned, 3, by decide +kernel⟩
theorem witness_HostWindowAccessesComplete_reset : ∃ (s : State) (m : Nat), m < 4 ∧ s.mbox.hostLinked ∧ (s.box .pcie
    m).executing = none :=
  ⟨served .turned, 3, by decide +kernel⟩
theorem witness_HostWindowAccessesComplete_timelo : ∃ (s : State), s.mbox.hostLinked :=
  ⟨served .turned, by decide +kernel⟩
theorem witness_HostWindowAccessesComplete_notice : ∃ (s : State) (w : Nat), w < 1024 ∧ s.mbox.hostLinked :=
  ⟨served .turned, 1023, by decide +kernel⟩
theorem witness_HostWindowAccessesComplete_reg : ∃ (s : State) (v : Nat), s.mbox.hostLinked ∧ v < 2 ^ 32 :=
  ⟨served .turned, 4294967295, by decide +kernel⟩
theorem witness_HostWindowAccessesComplete_bar2 : ∃ (s : State) (o : Nat) (bs : List Byte), s.mbox.hostLinked ∧ 1 ≤
    bs.length ∧ bs.length ≤ 256 ∧ o + bs.length ≤ 2 ^ 29 ∧ (∀ i, s.hostByte i = false) :=
  ⟨served .turned, 4096, List.replicate 256 (1 : Byte), by decide +kernel, by decide +kernel, by decide +kernel,
      by decide +kernel, fun _ => rfl⟩

/-! LifecycleDebugAndUpdateCommandsComplete -/

theorem witness_LifecycleDebugAndUpdateCommandsComplete_lifecycleStatus : ∃ (s z : State) (src : Source), Taken s src
    0x2101 ∧ z = s.seen :=
  ⟨served .blank, (served .blank).seen, sv, by decide +kernel, rfl⟩
theorem witness_LifecycleDebugAndUpdateCommandsComplete_turn : ∃ (s : State) (src : Source) (r : TurnReq), Taken s src
    0x2102 ∧ r.revoked.length ≤ 256 ∧ r.prefixLen ≤ 32 ∧ s.sec.keyGens.length < 16 ∧ r.rootIsCa ∧ s.sec.lifecycle ≠ .parted
    :=
  ⟨served .blank, sv, turnReq, by decide +kernel⟩
theorem witness_LifecycleDebugAndUpdateCommandsComplete_seal : ∃ (s : State) (src : Source), Taken s src 0x2103 ∧
    s.sec.lifecycle = .turned ∧ s.sec.debug ≠ .invasive :=
  ⟨served .turned, sv, by decide +kernel⟩
theorem witness_LifecycleDebugAndUpdateCommandsComplete_decommission : ∃ (s : State) (src : Source) (n : Nat), Taken s
    src 0x2104 ∧ n = s.net.serial ∧ !s.anyArmed ∧ !s.holdsAny ∧ s.sec.lifecycle ≠ .blank :=
  ⟨served .sealed, sv, 0, by decide +kernel⟩
theorem witness_LifecycleDebugAndUpdateCommandsComplete_debugStatus : ∃ (s z : State) (src : Source), Taken s src
    0x2201 ∧ z = s.seen :=
  ⟨served .turned, (served .turned).seen, sv, by decide +kernel, rfl⟩
theorem witness_LifecycleDebugAndUpdateCommandsComplete_debugObserve : ∃ (s : State) (src : Source), Taken s src 0x2202
    ∧ s.sec.debug = .none_ :=
  ⟨served .turned, sv, by decide +kernel⟩
theorem witness_LifecycleDebugAndUpdateCommandsComplete_updateStatus : ∃ (s z : State) (src : Source), Taken s src
    0x2301 ∧ z = s.seen :=
  ⟨served .turned, (served .turned).seen, sv, by decide +kernel, rfl⟩
theorem witness_LifecycleDebugAndUpdateCommandsComplete_imageWrite : ∃ (s : State) (src : Source) (bs : List Byte),
    Taken s src 0x2302 ∧ bs.length ≤ 50331648 ∧ s.sec.lifecycle ≠ .parted ∧ !s.slotUnwritable (1 - s.sec.active) :=
  ⟨served .turned, sv, [(1 : Byte)], by decide +kernel⟩
theorem witness_LifecycleDebugAndUpdateCommandsComplete_reboot : ∃ (s : State) (src : Source), Taken s src 0x2303 ∧
    !s.holdsAnyActive ∧ (s.imgSlot (1 - s.sec.active)).state = .pending :=
  ⟨pendingS, sv, by decide +kernel⟩

/-! ServicePortEventsComplete -/

theorem witness_ServicePortEventsComplete_connect : ∃ (s : State) (hs : Handshake), s.power.on ∧ s.power.state = .full
    ∧ s.mbox.ready ∧ s.mbox.lockoutUntil = none ∧ s.mbox.sessions.length < 4 ∧ s.handshakeOk hs :=
  ⟨served .turned, { hand with rootGen := some 0 }, by decide +kernel⟩
theorem witness_ServicePortEventsComplete_message : ∃ (s : State) (i : Nat), (∃ x ∈ s.mbox.sessions, x.id = i) :=
  ⟨inSession, 3, by decide +kernel⟩
theorem witness_ServicePortEventsComplete_lockoutEnd : ∃ (s : State) (t a : Nat), s.mbox.lockoutUntil = some a ∧ a ≤
    s.nowAt t :=
  ⟨{ inSession with mbox := { inSession.mbox with lockoutUntil := some 5 } : State }, 0, 5, by decide +kernel⟩
theorem witness_ServicePortEventsComplete_timeout : ∃ (s : State) (t i : Nat), (∃ x ∈ s.mbox.sessions, x.id = i ∧
    x.lastMsgAt + 900000000000 ≤ s.nowAt t) :=
  ⟨inSession, 901 * 10 ^ 9, 3, by decide +kernel⟩
theorem witness_ServicePortEventsComplete_close : ∃ (s : State) (i : Nat), (∃ x ∈ s.mbox.sessions, x.id = i) :=
  ⟨inSession, 3, by decide +kernel⟩
theorem witness_ServicePortEventsComplete_keyExpiry : ∃ (s : State) (t : Nat) (x : Session) (a : Nat), x ∈
    s.mbox.sessions ∧ x.endsAt = some a ∧ a ≤ s.nowAt t :=
  ⟨inSession, 9, { id := 3, subject := 7, endsAt := some 7 }, 7, by decide +kernel⟩
theorem witness_ServicePortEventsComplete_halt : ∃ (s : State) (core : Nat), core < 4 ∧ s.sec.debug = .invasive :=
  ⟨{ inSession with sec := { inSession.sec with debug := .invasive } : State }, 3, by decide +kernel⟩
theorem witness_ServicePortEventsComplete_rollback : ∃ (s : State) (t : Nat), s.power.on ∧ 2 ≤ s.power.stage ∧
    !s.sec.recovery ∧ !s.sec.trial ∧ s.sec.active = s.sec.default_ ∧ 72 * 3600 * 10 ^ 9 ≤ (s.atTime t).imageNow ∧
    s.sec.rollback < (s.imgSlot s.sec.default_).rollback :=
  ⟨aged, 5, by decide +kernel⟩

/-! MailboxTrafficEventsComplete -/

theorem witness_MailboxTrafficEventsComplete_take : ∃ (s : State) (t b : Nat) (q : Request), (s.atTime t).serving ∧
    (s.atTime t).nextServed = some (.service, b) ∧ (s.box .service b).queue = [q] ∧ !(s.box .service b).resetPending ∧
    q.envErr = none ∧ q.command = 0x0201 ∧ q.bytes.length ≤ 1024 ∧ Served (s.atTime t)
    { path := .service, box := b, tag := q.tag, corr := q.corr } 0x0201 :=
  ⟨requested, 0, 3, nopReq, by decide +kernel⟩
theorem witness_MailboxTrafficEventsComplete_room : ∃ (s : State) (t m : Nat) (w : List Byte), m < 4 ∧ (s.atTime
    t).serving ∧ (s.box .pcie m).waiting = [w] ∧ (s.ringPut (17 + 2 * m) w).isSome :=
  ⟨stalled, 0, 1, [1, 2], by decide +kernel⟩
theorem witness_MailboxTrafficEventsComplete_closes : ∃ (s : State) (t k : Nat), (∃ b ∈ s.mbox.boxes, b.path = .garzet
    ∧ b.box = k ∧ b.queue = [] ∧ b.executing = none ∧ b.lastReqAt + 10 ^ 10 ≤ s.nowAt t) :=
  ⟨requested, 10000000000, 9, by decide +kernel⟩
theorem witness_MailboxTrafficEventsComplete_timeout : ∃ (s : State) (t c : Nat), (∃ r ∈ s.net.requests, r.corr = c ∧
    r.waitUntil ≤ s.nowAt t) :=
  ⟨requested, 20000000000, 5, by decide +kernel⟩
theorem witness_MailboxTrafficEventsComplete_heartbeat : ∃ (s : State) (t : Nat), (s.atTime t).serving ∧
    s.mbox.heartbeatAt + 10 ^ 8 ≤ s.nowAt t :=
  ⟨served .turned, 2000000000, by decide +kernel⟩
theorem witness_MailboxTrafficEventsComplete_bellPi : ∃ (s : State) (q v : Nat), q < 32768 ∧ s.mbox.hostLinked ∧ v < 2
    ^ 32 ∧ (s.queue q).k ≠ 0 ∧ (s.queue q).prod = 2 ∧ (v + 2 ^ 32 - (s.queue q).ci) % 2 ^ 32 ≤ 2 ^ (s.queue q).k :=
  ⟨ringed, 1024, 8, by decide +kernel⟩
theorem witness_MailboxTrafficEventsComplete_bellCi : ∃ (s : State) (q v : Nat), q < 32768 ∧ s.mbox.hostLinked ∧ v < 2
    ^ 32 ∧ (s.queue q).k ≠ 0 ∧ (s.queue q).cons = 2 ∧ ((s.queue q).pi + 2 ^ 32 - v) % 2 ^ 32 ≤ 2 ^ (s.queue q).k :=
  ⟨ringed, 1025, 0, by decide +kernel⟩
theorem witness_MailboxTrafficEventsComplete_bellElsewhere : ∃ (s : State) (q v : Nat), q < 32768 ∧ s.mbox.hostLinked ∧
    v < 2 ^ 32 ∧ (s.queue q).prod ≠ 2 :=
  ⟨ringed, 5, 8, by decide +kernel⟩
theorem witness_MailboxTrafficEventsComplete_ring : ∃ (s : State) (c : Nat), c < 64 ∧ s.mbox.hostLinked ∧ (s.channel
    c).owner = .pcie ∧ (s.channel c).state = .running :=
  ⟨dma .running, 16, by decide +kernel⟩
theorem witness_MailboxTrafficEventsComplete_abort : ∃ (s : State) (c : Nat), c < 64 ∧ s.mbox.hostLinked ∧ (s.channel
    c).owner = .pcie ∧ (s.channel c).state = .parked :=
  ⟨dma .parked, 16, by decide +kernel⟩
theorem witness_MailboxTrafficEventsComplete_functionReset : ∃ (s : State), s.mbox.hostLinked :=
  ⟨ringed, by decide +kernel⟩

/-! QueueAndDmaCommandsComplete -/

theorem witness_QueueAndDmaCommandsComplete_create : ∃ (s : State) (src : Source) (q k prod cons thr b : Nat), Taken s
    src 0x1C01 ∧ QueueAsked s q k prod cons thr ∧ s.mbox.hostLinked ∧ lowestFree ringRegion ringBytes (64 * 2 ^ k) (64 * 2
    ^ k) s.rings = some b :=
  ⟨ringed, sv, 2000, 3, 1, 2, 8, ringRegion + 1024, by decide +kernel⟩
theorem witness_QueueAndDmaCommandsComplete_destroy : ∃ (s : State) (src : Source) (q : Nat), Taken s src 0x1C02 ∧ 1024
    ≤ q ∧ q < 32768 ∧ (s.queue q).owner = 0 ∧ (s.queue q).k ≠ 0 ∧ !s.cqUsed q :=
  ⟨ringed, sv, 1025, by decide +kernel⟩
theorem witness_QueueAndDmaCommandsComplete_threshold : ∃ (s : State) (src : Source) (q n : Nat), Taken s src 0x1C03 ∧
    1024 ≤ q ∧ q < 32768 ∧ (s.queue q).k ≠ 0 ∧ n ≤ 2 ^ (s.queue q).k ∧ !s.holdsHp q :=
  ⟨ringed, sv, 1025, 8, by decide +kernel⟩
theorem witness_QueueAndDmaCommandsComplete_status : ∃ (s z : State) (src : Source) (q : Nat), Taken s src 0x1C04 ∧ q <
    32768 ∧ z = s.seen ∧ (z.queue q).k ≠ 0 :=
  ⟨ringed, ringed.seen, sv, 1025, by decide +kernel, by decide +kernel, rfl, by decide +kernel⟩
theorem witness_QueueAndDmaCommandsComplete_channelSet : ∃ (s : State) (src : Source) (c p : Nat), Taken s src 0x1D01 ∧
    16 ≤ c ∧ c ≤ 63 ∧ p ≤ 5 ∧ (s.channel c).state = .idle ∨ (s.channel c).state = .stopped :=
  ⟨dma .idle, sv, 16, 5, by decide +kernel⟩
theorem witness_QueueAndDmaCommandsComplete_start : ∃ (s : State) (src : Source) (c a : Nat), Taken s src 0x1D02 ∧ c <
    64 ∧ addrOk a ∧ a % 32 = 0 ∧ addrSpace a ≠ 3 ∧ (s.channel c).owner = .pcie ∧ src.path = .pcie ∧ (s.channel c).state =
    .idle ∨ (s.channel c).state = .stopped :=
  ⟨dma .idle, pc, 16, 4096, by decide +kernel⟩
theorem witness_QueueAndDmaCommandsComplete_doorbell : ∃ (s : State) (src : Source) (c : Nat), Taken s src 0x1D03 ∧ c <
    64 ∧ (s.channel c).owner = .pcie ∧ src.path = .pcie ∧ (s.channel c).state = .running :=
  ⟨dma .running, pc, 16, by decide +kernel⟩
theorem witness_QueueAndDmaCommandsComplete_abort : ∃ (s : State) (src : Source) (c : Nat), Taken s src 0x1D04 ∧ c < 64
    ∧ (s.channel c).owner = .pcie ∧ src.path = .pcie ∧ (s.channel c).state = .parked :=
  ⟨dma .parked, pc, 16, by decide +kernel⟩
theorem witness_QueueAndDmaCommandsComplete_dstatus : ∃ (s z : State) (src : Source) (c : Nat), Taken s src 0x1D05 ∧ c
    < 64 ∧ z = s.seen :=
  ⟨dma .parked, (dma .parked).seen, sv, 16, by decide +kernel, by decide +kernel, rfl⟩
theorem witness_QueueAndDmaCommandsComplete_dcounters : ∃ (s : State) (src : Source) (c : Nat), Taken s src 0x1D06 ∧ c < 64 :=
  ⟨dma .parked, sv, 16, by decide +kernel⟩

/-! DmaChannelEventsComplete -/

theorem witness_DmaChannelEventsComplete_fetch : ∃ (s : State) (c a : Nat) (b : List Byte) (d : Desc), c < 64 ∧
    !s.fab.stopped ∧ (s.channel c).state = .running ∧ (s.channel c).held = none ∧ (s.channel c).desc = none ∧ (s.channel
    c).next = a ∧ b = s.descBytes a [] ∧ d = descOf a b ∧ s.descOk b d ∧ s.right (s.channel c).owner d.src d.length true ∧
    s.right (s.channel c).owner d.dst d.length false :=
  ⟨chained, 0, 4096, chained.descBytes 4096 [], descOf 4096 (chained.descBytes 4096 []), by decide +kernel⟩
theorem witness_DmaChannelEventsComplete_burst : ∃ (s : State) (c : Nat) (d : Desc), c < 64 ∧ !s.fab.stopped ∧
    s.granted = some c ∧ (s.channel c).desc = some d ∧ addrSpace d.src = 0 ∧ addrSpace d.dst = 0 ∧ (s.channel c).done_ = 0
    ∧ (s.channel c).left = d.length ∧ d.length ≤ 512 ∧ addrOff d.src % 4096 + d.length ≤ 4096 ∧ addrOff d.dst % 4096 +
    d.length ≤ 4096 ∧ addrOff d.src + d.length ≤ 3584 * 1048576 ∧ addrOff d.dst + d.length ≤ 3584 * 1048576 ∧
    s.fab.poisoned = [] :=
  ⟨fetched, 0, copyDesc, by decide +kernel⟩
theorem witness_DmaChannelEventsComplete_complete : ∃ (s : State) (c : Nat) (d : Desc), c < 64 ∧ !s.fab.stopped ∧
    (s.channel c).state = .running ∧ (s.channel c).held = none ∧ (s.channel c).desc = some d ∧ (s.channel c).started ∧
    (s.channel c).lastGranted ∧ !(s.channel c).abortReq ∧ addrSpace d.addr = 0 ∧ s.cqOk d.cq ∧ (s.queue d.cq).fill <
    (s.queue d.cq).size ∧ (∀ i, i < 64 → ∀ j, j < 32 → (s.queue d.cq).slotAddr (s.queue d.cq).pi + i ≠ addrOff d.addr + j)
    ∧ !(leAt (s.descBytes d.addr []) 28 4).testBit 31 :=
  ⟨carried, 0, copyDesc, by decide +kernel⟩
theorem witness_DmaChannelEventsComplete_room : ∃ (s : State) (c : Nat) (d : Desc) (r : Record), c < 64 ∧
    !s.fab.stopped ∧ (s.channel c).held = some r ∧ (s.channel c).desc = some d ∧ (s.channel c).state = .stopped ∧ (s.queue
    d.cq).fill < (s.queue d.cq).size :=
  ⟨heldRec .stopped, 0, copyDesc, {}, by decide +kernel⟩
theorem witness_DmaChannelEventsComplete_stall : ∃ (s : State) (t c a : Nat), c < 64 ∧ (s.channel c).held.isSome ∧
    !(s.channel c).stallSeen ∧ (s.channel c).heldSince = some a ∧ a + 100000000 ≤ s.nowAt t :=
  ⟨heldRec .running, 0, 0, 5, by decide +kernel⟩

/-! TimeAndTideCommandsComplete -/

theorem witness_TimeAndTideCommandsComplete_timeStatus : ∃ (s z : State) (src : Source), Taken s src 0x0301 ∧ z = s.seen :=
  ⟨served .turned, (served .turned).seen, sv, by decide +kernel, rfl⟩
theorem witness_TimeAndTideCommandsComplete_servoSet : ∃ (s : State) (src : Source) (p : ServoParams), Taken s src
    0x0302 ∧ p.kp < 2 ^ 32 ∧ p.ki < 2 ^ 32 ∧ 1000 ≤ p.outlier ∧ p.outlier ≤ 1000000 ∧ 10 ≤ p.lockNs ∧ p.lockNs ≤ 10000 ∧
    1000 ≤ p.stepNs ∧ p.stepNs ≤ 1000000000 ∧ -32768 ≤ p.asymA ∧ p.asymA ≤ 32767 ∧ -32768 ≤ p.asymB ∧ p.asymB ≤ 32767 :=
  ⟨served .turned, sv, servoP, by decide +kernel⟩
theorem witness_TimeAndTideCommandsComplete_trigger : ∃ (s : State) (src : Source) (o start period width : Nat), Taken
    s src 0x0303 ∧ o < 4 ∧ 1000 ≤ period ∧ period ≤ 10 ^ 12 ∧ 8 ≤ width ∧ width ≤ 1000000 ∧ start < 2 ^ 64 ∧ s.clock.ns ≤
    start :=
  ⟨served .turned, sv, 3, 2 ^ 40, 10 ^ 12, 1000000, by decide +kernel⟩
theorem witness_TimeAndTideCommandsComplete_capture : ∃ (s : State) (src : Source) (i n : Nat), Taken s src 0x0304 ∧ i
    < 4 ∧ 1 ≤ n ∧ n ≤ 16 :=
  ⟨captured, sv, 2, 1, by decide +kernel⟩
theorem witness_TimeAndTideCommandsComplete_tideStatus : ∃ (s z : State) (src : Source), Taken s src 0x0401 ∧ z = s.seen :=
  ⟨served .turned, (served .turned).seen, sv, by decide +kernel, rfl⟩
theorem witness_TimeAndTideCommandsComplete_entrySet : ∃ (s : State) (src : Source) (n : Nat) (w : BitVec 256), Taken s
    src 0x0402 ∧ 768 ≤ n ∧ n < 1024 ∧ entryReserved w ∧ (entryOf w).kind = 7 ∧ !(entryOf w).enable ∧ entryShape (entryOf w)
    ∧ (entryOf w).arg0 < 4 ∧ 8 ≤ (entryOf w).arg1 ∧ (entryOf w).arg1 ≤ 1000000 ∧ !tooDense (s.userEntries n (entryOf w)) :=
  ⟨served .turned, sv, 1023, trigWord, by decide +kernel⟩
theorem witness_TimeAndTideCommandsComplete_entryRead : ∃ (s : State) (src : Source) (n : Nat), Taken s src 0x0403 ∧ n
    < 1024 :=
  ⟨served .turned, sv, 1023, by decide +kernel⟩
theorem witness_TimeAndTideCommandsComplete_lighthouse : ∃ (s : State) (src : Source) (c : LhConfig), Taken s src
    0x0501 ∧ c.lane < 8 ∧ (c.nominalHz = 50 ∨ c.nominalHz = 60) ∧ -32768 ≤ c.angleOffset ∧ c.angleOffset ≤ 32767 ∧ 1 ≤
    c.bandwidth ∧ c.bandwidth ≤ 20 ∧ c.nominalMv < 2 ^ 31 ∧ (s.lane c.lane).cfg = none ∧ s.activeOf 4 = none :=
  ⟨served .turned, sv, lhCfg, by decide +kernel⟩

/-! PtpAndServoEventsComplete -/

theorem witness_PtpAndServoEventsComplete_sync : ∃ (s z : State) (t : Nat) (l : Lan) (m : SyncMsg), z = (s.frameIn
    (lanIx l) t).atTime t ∧ m.domain = z.servo.domain ∧ -7 ≤ m.logInterval ∧ m.logInterval ≤ 0 ∧ (z.ptpPort (lanIx
    l)).state = .slave ∧ l ≠ z.servo.source :=
  ⟨slaved, (slaved.frameIn 1 10).atTime 10, 10, .b, sync1, rfl, by decide +kernel⟩
theorem witness_PtpAndServoEventsComplete_announce : ∃ (s z : State) (t : Nat) (l : Lan) (a : Announce), z = (s.frameIn
    (lanIx l) t).atTime t ∧ a.domain = z.servo.domain ∧ a.identity ≠ z.net.serial ∧ z.power.state ≠ .bareRock ∧ (z.ptpPort
    (lanIx l)).best = none ∧ (z.ptpPort (lanIx l)).priority1 = 255 :=
  ⟨served .turned, ((served .turned).frameIn 0 10).atTime 10, 10, .a, ann1, rfl, by decide +kernel⟩
theorem witness_PtpAndServoEventsComplete_delayResp : ∃ (s z : State) (t : Nat) (l : Lan) (m : DelayResp) (t3 : Nat), z
    = (s.frameIn (lanIx l) t).atTime t ∧ (z.ptpPort (lanIx l)).delayReqAt = some t3 ∧ (z.ptpPort (lanIx l)).delayReqSeq =
    m.seq ∧ (z.ptpPort (lanIx l)).lastSyncAt.isSome ∧ z.servo.state ≠ .holdover :=
  ⟨slaved, (slaved.frameIn 1 10).atTime 10, 10, .b, resp1, 500, rfl, by decide +kernel⟩
theorem witness_PtpAndServoEventsComplete_syncSend : ∃ (s : State) (t : Nat) (l : Lan), (s.ptpPort (lanIx l)).state =
    .master ∧ dueAgain (s.ptpPort (lanIx l)).syncSentAt masterLogSync (s.nowAt t) ∧ s.power.state ≠ .bareRock :=
  ⟨mastered, 10, .a, by decide +kernel⟩
theorem witness_PtpAndServoEventsComplete_delayReqSend : ∃ (s : State) (t : Nat) (l : Lan), (s.ptpPort (lanIx l)).state
    = .slave ∧ dueAgain (s.ptpPort (lanIx l)).delayReqLast (s.ptpPort (lanIx l)).logMinDelayReq (s.nowAt t) ∧ s.power.state
    ≠ .bareRock :=
  ⟨slaved, 10, .b, by decide +kernel⟩
theorem witness_PtpAndServoEventsComplete_delayReq : ∃ (s z : State) (t : Nat) (l : Lan), z = (s.frameIn (lanIx l)
    t).atTime t ∧ (z.ptpPort (lanIx l)).state = .master :=
  ⟨mastered, (mastered.frameIn 0 10).atTime 10, 10, .a, rfl, by decide +kernel⟩
theorem witness_PtpAndServoEventsComplete_announceSend : ∃ (s : State) (t : Nat) (l : Lan), (s.ptpPort (lanIx l)).state
    = .master ∧ dueAgain (s.ptpPort (lanIx l)).announceSentAt masterLogAnnounce (s.nowAt t) ∧ s.power.state ≠ .bareRock :=
  ⟨mastered, 10, .a, by decide +kernel⟩
theorem witness_PtpAndServoEventsComplete_locked : ∃ (s : State), s.servo.state = .acquire ∧ 16 ≤ s.servo.goodRun :=
  ⟨{ slaved with servo := { slaved.servo with state := .acquire, goodRun := 16 } : State }, by decide +kernel⟩
theorem witness_PtpAndServoEventsComplete_outliers : ∃ (s : State), s.servo.state = .locked ∧ 8 ≤ s.servo.outlierRun :=
  ⟨{ slaved with servo := { slaved.servo with outlierRun := 8 } : State }, by decide +kernel⟩
theorem witness_PtpAndServoEventsComplete_lost : ∃ (s : State) (t a : Nat), (s.ptpPort 0).state = .slave ∧ (s.ptpPort
    0).lastSyncAt = some a ∧ a + 4 * pow2Sec (s.ptpPort 0).logSync ≤ s.nowAt t ∧ (s.ptpPort 1).state = .slave ∧ !(s.atTime
    t).masterLost 1 ∧ (s.ptpPort 1).delays.length < 4 ∧ s.servo.source = .a ∧ s.servo.state = .locked ∧ (s.ptpPort
    0).priority1 = 255 :=
  ⟨slaved, 0, 5, by decide +kernel⟩
theorem witness_PtpAndServoEventsComplete_disagree : ∃ (s : State), 8 ≤ s.servo.disagreeRun :=
  ⟨{ slaved with servo := { slaved.servo with disagreeRun := 8 } : State }, by decide +kernel⟩

/-! LighthouseAndTideEventsComplete -/

theorem witness_LighthouseAndTideEventsComplete_sample : ∃ (s : State) (t n : Nat) (o : OwnRole), (s.atTime t).gridRuns
    ∧ s.lh.lane = some n ∧ n < 8 ∧ s.activeOf 4 = some o ∧ t % 50000 = 0 ∧ s.nowAt t = t ∧ (∀ k < 2, (s.conv (2 * n +
    k)).running = none ∧ !(s.conv (2 * n + k)).stopped) :=
  ⟨lit, 50000, 7, ownLh, by decide +kernel⟩
theorem witness_LighthouseAndTideEventsComplete_lock : ∃ (s : State), !s.lh.locked ∧ 10 ≤ s.lh.goodCycles ∧ !s.lh.negAbove :=
  ⟨{ lit with lh := { lit.lh with goodCycles := 10 } : State }, by decide +kernel⟩
theorem witness_LighthouseAndTideEventsComplete_unlock : ∃ (s : State), s.lh.locked ∧ (3 ≤ s.lh.badCycles ∨ s.lh.rangeLost) :=
  ⟨{ lit with lh := { lit.lh with locked := true, badCycles := 3 } : State }, by decide +kernel⟩
theorem witness_LighthouseAndTideEventsComplete_publish : ∃ (s : State) (t ref : Nat) (o : OwnRole) (x : PllOut),
    (s.atTime t).gridRuns ∧ s.activeOf 4 = some o ∧ s.servo.state ≠ .free ∧ s.lh.mark = some (ref, x) :=
  ⟨crossing, 0, 0, ownLh, litOut, by decide +kernel⟩
theorem witness_LighthouseAndTideEventsComplete_message : ∃ (s z : State) (t : Nat) (l : Lan) (b : List Byte) (m :
    TideMsg), z = (s.frameIn (lanIx l) t).atTime t ∧ b.length = 40 ∧ m = tideOf b ∧ z.tablesRun ∧ z.activeOf 4 = none ∧
    m.locked ∧ tideFieldsOk z m ∧ (z.inst m.inst).lastSeq ≠ some m.sequence ∧ (z.inst m.inst).turnedAway = none ∧ m.refT ≤
    z.now ∧ z.now ≤ m.refT + 2000000 :=
  ⟨heard, (heard.frameIn 0 1500).atTime 1500, 1500, .a, tideBytes tm, tm, rfl, by decide +kernel⟩
theorem witness_LighthouseAndTideEventsComplete_disagree : ∃ (s : State), 3 ≤ s.tide.disagreeRun ∧ !s.tide.disagreeing :=
  ⟨{ heard with tide := { heard.tide with disagreeRun := 3 } : State }, by decide +kernel⟩
theorem witness_LighthouseAndTideEventsComplete_instanceReturn : ∃ (s : State), s.tide.source = 1 ∧ 16 ≤
    s.tide.agreeRun ∧ !(s.inst 0).silent :=
  ⟨{ heard with tide := { heard.tide with source := 1, agreeRun := 16 } : State }, by decide +kernel⟩
theorem witness_LighthouseAndTideEventsComplete_instanceSilent : ∃ (s : State) (t i : Nat), i < 2 ∧ !(s.inst i).silent
    ∧ 3 * 10 ^ 15 ≤ (s.nowAt t - (s.inst i).rxAt) * (s.inst i).freqUhz :=
  ⟨heard, 1000000000, 0, by decide +kernel⟩
theorem witness_LighthouseAndTideEventsComplete_correctionEnd : ∃ (s : State) (t e : Nat), s.tide.corrEnd = some e ∧ e
    ≤ s.nowAt t :=
  ⟨{ heard with tide := { heard.tide with corrEnd := some 900, corrE := 5 } : State }, 1000, 900, by decide +kernel⟩
theorem witness_LighthouseAndTideEventsComplete_recount : ∃ (s : State) (t : Nat) (d : Int), s.tide.recountTo = some d
    ∧ (s.atTime t).pos % 65536 = 0 :=
  ⟨{ heard with tide := { heard.tide with recountTo := some 3, anchorNs := 1000 } : State }, 0, 3, by decide +kernel⟩

/-! TideTableFiringsComplete -/

theorem witness_TideTableFiringsComplete_armed : ∃ (s : State) (t n k pos : Nat), n < 1024 ∧ s.power.state = .full ∧
    fires (s.entry n) k pos ∧ s.nowAt t ≤ s.tide.timeOf pos ∧ s.tide.timeOf pos ≤ s.nowAt t + 20000 ∧ (tget none
    s.table.lastArmed n).all (decide <| · < s.tide.timeOf pos) ∧ (s.tide.corrE ≤ 0 ∨ (s.entry n).kind ≠ 1) :=
  ⟨fullDue, 15000, 800, 0, 64, by decide +kernel⟩
theorem witness_TideTableFiringsComplete_base : ∃ (s : State) (t : Nat) (a : ArmedFiring), (s.atTime t).dueFiring 8 1 =
    some a ∧ s.power.state = .slack ∧ (∀ n, n < 8 → a.content.arg0.testBit n → (s.lane n).cfg = none) :=
  ⟨{ (firedState 8 { kind := 1, periodic := true, arg0 := 3 } 500 65536 2) with
      power := { State.reset.power with state := .slack } : State }, 600, firedOf 8
      { kind := 1, periodic := true, arg0 := 3 } 500 65536 2, by decide +kernel⟩
theorem witness_TideTableFiringsComplete_capture : ∃ (s : State) (t n : Nat) (a : ArmedFiring), n < 1024 ∧ n ≠ 8 ∧ n ≠
    9 ∧ (s.atTime t).dueFiring n 1 = some a ∧ s.power.state = .full :=
  ⟨(firedState 60 { kind := 1, arg0 := 1 } 500 0 0).setLane 0 { cfg := some cfg3, state := .disarmed }, 600, 60,
      firedOf 60 { kind := 1, arg0 := 1 } 500 0 0, by decide +kernel⟩
theorem witness_TideTableFiringsComplete_sequence : ∃ (s : State) (t n : Nat) (a : ArmedFiring), n < 1024 ∧ (s.atTime
    t).dueFiring n 2 = some a ∧ s.power.state = .full ∧ !(s.conv a.content.arg0).stopped ∧ !((s.conv a.content.arg0).table
    a.content.arg1).isEmpty ∧ (s.conv a.content.arg0).run = none :=
  ⟨sarDue, 600, 700, firedOf 700 { kind := 2, arg0 := 3, arg1 := 1 } 500 0 0, by decide +kernel⟩
theorem witness_TideTableFiringsComplete_window : ∃ (s : State) (t n : Nat) (a : ArmedFiring), n < 1024 ∧ (s.atTime
    t).dueFiring n 3 = some a ∧ s.power.state = .full :=
  ⟨firedState 3 { kind := 3, arg0 := 8 } 500 65536 0, 600, 3, firedOf 3 { kind := 3, arg0 := 8 } 500 65536 0,
      by decide +kernel⟩
theorem witness_TideTableFiringsComplete_step : ∃ (s : State) (t n : Nat) (a : ArmedFiring) (x : SoundStep), n < 1024 ∧
    (s.atTime t).dueFiring n 4 = some a ∧ s.power.state = .full ∧ ((s.laneSound a.content.arg0).steps.find? fun y =>
    y.entry == n && y.phase == .enabled) = some x ∧ s.ownRole x.partnerRole = none :=
  ⟨stepDueS, 600, 60, firedOf 60 { kind := 4, arg0 := 2 } 500 0 0, enabledStep, by decide +kernel⟩
theorem witness_TideTableFiringsComplete_graph : ∃ (s : State) (t e n : Nat) (a : ArmedFiring) (g : Graph), e < 1024 ∧
    (s.atTime t).dueFiring e 5 = some a ∧ s.power.state = .full ∧ s.slotsAsc = [n] ∧ (s.slot n).state = .active ∧ !(s.slot
    n).inCycle ∧ !(s.slot n).switching ∧ (s.slot n).running = some g ∧ g.group = a.content.arg0 ∧ (cycleOf a.pos * s.baseB
    + a.k) % g.cycle = g.phase :=
  ⟨cycleDueS, 600, 18, 7, firedOf 18 { kind := 5, arg0 := 0 } 500 65536 0, { cycle := 4, deadline := 2 }, by decide +kernel⟩
theorem witness_TideTableFiringsComplete_mode : ∃ (s : State) (t e n : Nat) (a : ArmedFiring), e < 1024 ∧ (s.atTime
    t).dueFiring e 6 = some a ∧ s.power.state = .full ∧ (∀ c ∈ s.net.changes, c.entry ≠ some e) ∧ s.slotsAsc = [n] ∧
    (s.slot n).activateAt = some (a.pos, e) :=
  ⟨activeDueS, 600, 70, 7, firedOf 70 { kind := 6 } 500 65536 0, by decide +kernel⟩
theorem witness_TideTableFiringsComplete_trigger : ∃ (s : State) (t n : Nat) (a : ArmedFiring), n < 1024 ∧ (s.atTime
    t).dueFiring n 7 = some a ∧ s.power.state = .full ∧ (s.tsOut a.content.arg0).byTable :=
  ⟨trigDueS, 600, 900, firedOf 900 { kind := 7, arg0 := 3, arg1 := 8 } 500 0 0, by decide +kernel⟩
theorem witness_TideTableFiringsComplete_timePulse : ∃ (s : State) (t o p : Nat), o < 4 ∧ s.power.state = .full ∧
    !(s.tsOut o).byTable ∧ (s.tsOut o).mode ≠ .off ∧ (s.tsOut o).nextAt = some p ∧ p ≤ s.nowAt t ∧ s.nowAt t < p + (s.tsOut
    o).width ∧ s.nowAt t < p + (s.tsOut o).period :=
  ⟨pulseDueS, 515, 3, 500, by decide +kernel⟩
theorem witness_TideTableFiringsComplete_pulseEnd : ∃ (s : State) (t o e : Nat), o < 4 ∧ (s.tsOut o).level ∧ (s.tsOut
    o).endAt = some e ∧ e ≤ s.nowAt t :=
  ⟨State.reset.setTsOut 3 { level := true, endAt := some 5 }, 5, 3, 5, by decide +kernel⟩
theorem witness_TideTableFiringsComplete_input : ∃ (s : State) (i w : Nat) (r : Bool), i < 4 ∧ (if r then (s.tsIn
    i).rising else (s.tsIn i).falling) ∧ 16 ≤ w ∧ 8 * (s.tsIn i).filter ≤ w ∧ (s.tsIn i).queue.length < 16 :=
  ⟨State.reset.setTsIn 3 { rising := true }, 3, 16, true, by decide +kernel⟩

/-! BeachingPartingAndPowerCommandsComplete -/

theorem witness_BeachingPartingAndPowerCommandsComplete_beach : ∃ (s : State) (src : Source), Taken s src 0x0103 ∧
    s.lanesQuiet ∧ s.net.own = [] :=
  ⟨served .turned, sv, by decide +kernel⟩
theorem witness_BeachingPartingAndPowerCommandsComplete_part : ∃ (s : State) (src : Source), Taken s src 0x0104 ∧
    s.lanesQuiet ∧ s.net.own = [] :=
  ⟨served .turned, sv, by decide +kernel⟩
theorem witness_BeachingPartingAndPowerCommandsComplete_restart : ∃ (s : State) (src : Source), Taken s src 0x0105 ∧
    !s.holdsAnyActive ∧ s.power.part = none :=
  ⟨served .turned, sv, by decide +kernel⟩
theorem witness_BeachingPartingAndPowerCommandsComplete_status : ∃ (s : State) (src : Source), Taken s src 0x2401 :=
  ⟨served .turned, sv, by decide +kernel⟩
theorem witness_BeachingPartingAndPowerCommandsComplete_roleDropped : ∃ (s : State) (t r a : Nat) (o : OwnRole),
    s.power.beach = some { step := 2, roles := [r], at_ := a } ∧ a + 10 ^ 9 ≤ s.nowAt t ∧ s.ownRole r = some o ∧ o.state =
    .none_ :=
  ⟨dropping, 2000000000, 0x30000007, 5, { role := 0x30000007 }, by decide +kernel⟩
theorem witness_BeachingPartingAndPowerCommandsComplete_sleeps : ∃ (s : State) (b : BeachSeq), s.power.on ∧
    s.power.beach = some b ∧ b.step = 3 ∧ b.stepFrom = none ∧ s.store.commit = none :=
  ⟨commitDone, { step := 3, roles := [], at_ := 0 }, by decide +kernel⟩
theorem witness_BeachingPartingAndPowerCommandsComplete_beachedAt : ∃ (s : State) (t : Nat) (b : BeachSeq), s.power.on
    ∧ s.power.beach = some b ∧ b.step = 4 ∧ (s.atTime t).portsAsleep b.at_ :=
  ⟨asleepS, 2000000000, { step := 4, roles := [], at_ := 0 }, by decide +kernel⟩
theorem witness_BeachingPartingAndPowerCommandsComplete_refloat : ∃ (s : State) (t r : Nat), s.power.on ∧ s.power.state
    = .beached ∧ s.power.beachedAt ≤ r ∧ r + 50000000 ≤ s.nowAt t :=
  ⟨beached, 0, 6, by decide +kernel⟩
theorem witness_BeachingPartingAndPowerCommandsComplete_refloated : ∃ (s : State) (r : Nat), s.power.on ∧ s.power.state
    = .full ∧ s.power.refloatAt = some r ∧ !s.power.pendingCommit :=
  ⟨refloating, 3, by decide +kernel⟩
theorem witness_BeachingPartingAndPowerCommandsComplete_parted : ∃ (s : State) (t : Nat) (p : PartSeq), s.power.on ∧
    s.power.part = some p ∧ p.step = 5 ∧ (s.atTime t).portsAsleep p.at_ :=
  ⟨partDone, 0, { step := 5, roles := [], at_ := 0 }, by decide +kernel⟩

/-! StartStagesAndLinePowerComplete -/

theorem witness_StartStagesAndLinePowerComplete_powerUp : ∃ (s : State) (p : Nat), p < 2 ∧ !s.power.on ∧ s.power.lossAt
    = none ∧ !(s.powerPort p).powered :=
  ⟨State.reset, 1, by decide +kernel⟩
theorem witness_StartStagesAndLinePowerComplete_rails : ∃ (s : State), s.power.on ∧ s.power.stage = 0 ∧ !s.safety.resetHold :=
  ⟨started 0, by decide +kernel⟩
theorem witness_StartStagesAndLinePowerComplete_zeroed : ∃ (s : State), s.power.on ∧ s.power.stage = 1 ∧ !s.power.zeroed :=
  ⟨started 1, by decide +kernel⟩
theorem witness_StartStagesAndLinePowerComplete_image : ∃ (s : State) (a : SlotCheck) (x : ImgSlot), s.power.on ∧
    s.power.stage = 1 ∧ s.power.zeroed ∧ !s.sec.recovery ∧ s.sec.tryMark = none ∧ s.sec.default_ = 0 ∧ s.imgSlot 0 = x ∧
    x.state = .good ∧ !s.sec.signerRevoked.contains x.signer ∧ s.sec.rollback ≤ x.rollback ∧ a.keyOk ∧ a.gcmOk ∧
    a.signatureOk ∧ s.store.settings = [] ∧ s.store.laneCounts = [] ∧ s.ana.calStored = [] :=
  ⟨zeroedS, allOk, zeroedS.imgSlot 0, by decide +kernel⟩
theorem witness_StartStagesAndLinePowerComplete_network : ∃ (s : State) (t : Nat), (s.atTime t).netRuns ∧ s.power.stage
    = 2 ∧ (s.atTime t).onNetwork ∧ !s.sec.trial :=
  ⟨started 2, 3000000000, by decide +kernel⟩
theorem witness_StartStagesAndLinePowerComplete_armable : ∃ (s : State) (t : Nat), s.power.on ∧ s.power.stage = 3 ∧ (∀
    n, n < 8 → (s.atTime t).laneArmable n) ∧ s.store.measuredBoot :=
  ⟨{ (started 3) with store := { State.reset.store with measuredBoot := true } : State }, 3000000000, by decide +kernel⟩
theorem witness_StartStagesAndLinePowerComplete_slow : ∃ (s : State) (t k : Nat), s.power.on ∧ 1 ≤ k ∧ k ≤ 4 ∧
    s.power.stage < k ∧ s.power.bootAt + 10 ^ 10 < s.nowAt t :=
  ⟨started 3, 20000000000, 4, by decide +kernel⟩
theorem witness_StartStagesAndLinePowerComplete_charged : ∃ (s : State) (mv : Nat), s.power.on ∧ s.power.charger ∧
    !s.store.measuredBoot ∧ 39200 ≤ mv :=
  ⟨{ (started 3) with power := { (started 3).power with charger := true } : State }, 39200, by decide +kernel⟩
theorem witness_StartStagesAndLinePowerComplete_portLoss : ∃ (s : State) (p : Nat), p < 2 ∧ s.power.on ∧ (s.powerPort
    p).powered ∧ (s.powerPort (1 - p)).powered :=
  ⟨bothPorts, 1, by decide +kernel⟩
theorem witness_StartStagesAndLinePowerComplete_portBack : ∃ (s : State) (p : Nat), p < 2 ∧ s.power.on ∧ !(s.powerPort
    p).powered :=
  ⟨(started 3).raise evPowerOnePort 13 1, 1, by decide +kernel⟩
theorem witness_StartStagesAndLinePowerComplete_loss : ∃ (s : State), s.power.on :=
  ⟨bothPorts, by decide +kernel⟩
theorem witness_StartStagesAndLinePowerComplete_unpowered : ∃ (s : State) (a : Nat), s.power.lossAt = some a :=
  ⟨{ beached with power := { beached.power with lossAt := some 4 } : State }, 4, by decide +kernel⟩
theorem witness_StartStagesAndLinePowerComplete_brownout : ∃ (s : State) (a p : Nat), p < 2 ∧ s.power.lossAt = some a ∧
    (s.powerPort p).powered :=
  ⟨{ bothPorts with power := { bothPorts.power with lossAt := some 4 } : State }, 4, 1, by decide +kernel⟩
theorem witness_StartStagesAndLinePowerComplete_boardFault : ∃ (s : State), s.power.on ∧ s.power.board :=
  ⟨{ (started 3) with power := { (started 3).power with board := true } : State }, by decide +kernel⟩
theorem witness_StartStagesAndLinePowerComplete_boardRetry : ∃ (s : State) (t : Nat), s.power.on ∧ s.alarmOn
    evBoardSupplyFault 0 0 ∧ s.power.boardOkSince = none ∧ s.power.boardTryAt + 10 ^ 9 ≤ s.nowAt t :=
  ⟨(started 3).raise evBoardSupplyFault 0 0, 1000000000, by decide +kernel⟩

/-! TapCommandsComplete -/

theorem witness_TapCommandsComplete_status : ∃ (s z : State) (src : Source) (p : Nat), Taken s src 0x0601 ∧ p < 128 ∧ z
    = s.seen :=
  ⟨served .turned, (served .turned).seen, sv, 127, by decide +kernel, by decide +kernel, rfl⟩
theorem witness_TapCommandsComplete_trim : ∃ (s : State) (src : Source) (p : Nat) (a : Int), Taken s src 0x0602 ∧ p <
    128 ∧ -500 ≤ a ∧ a ≤ 500 :=
  ⟨served .turned, sv, 127, (-500 : Int), by decide +kernel⟩
theorem witness_TapCommandsComplete_limits : ∃ (s : State) (src : Source) (p ov uv : Nat) (ot : Int) (cells temps :
    Nat), Taken s src 0x0603 ∧ p < 128 ∧ ov < 65535 ∧ uv < ov ∧ -32767 ≤ ot ∧ ot ≤ 32767 ∧ cells < 2 ^ 18 ∧ temps < 64 ∧ (∀
    n, s.laneOfPort p = some n → s.holdsHelm n) :=
  ⟨runPort, sv, 5, 42000, 30000, 6000, 7, 1, by decide +kernel⟩
theorem witness_TapCommandsComplete_retrain : ∃ (s : State) (src : Source) (p n : Nat), Taken s src 0x0604 ∧ p < 128 ∧
    s.laneOfPort p = some n ∧ !laneArmed (s.lane n).state :=
  ⟨runPort, sv, 5, 0, by decide +kernel⟩
theorem witness_TapCommandsComplete_counters : ∃ (s : State) (src : Source) (p : Nat), Taken s src 0x0605 ∧ p < 128 :=
  ⟨runPort, sv, 5, by decide +kernel⟩

/-! TapLinkEventsComplete -/

theorem witness_TapLinkEventsComplete_data : ∃ (s : State) (t p : Nat) (rx : TapRx) (y : SyncRec), p < 128 ∧ beAt
    rx.bytes 0 1 = 0x81 ∧ rx.bytes.length = 66 ∧ storeCheck rx = .accepted ∧ safetyCheck rx = .accepted ∧ (s.port p).state
    = .run ∧ (s.port p).sync = some y ∧ beAt rx.bytes 2 1 = y.tag / 256 % 256 ∧ !y.answered ∧ !y.safeAnswered ∧ (s.port
    p).waiting = [] ∧ s.nowAt t ≤ y.t0 + 150000 :=
  ⟨runPort, 0, 5, dataRx, sync5, by decide +kernel⟩
theorem witness_TapLinkEventsComplete_hello : ∃ (s : State) (t p a : Nat) (rx : TapRx), p < 128 ∧ beAt rx.bytes 0 1 =
    0x82 ∧ Accepted s p rx ∧ (s.port p).trainStep = 1 ∧ (s.port p).attemptAt = some a ∧ s.nowAt t ≤ a + 2500000 ∧ (s.port
    p).recordedSerial = none ∧ (helloOf rx.bytes).version = 1 ∧ (helloOf rx.bytes).model ≠ 0 ∧ (helloOf rx.bytes).model ≠
    0xFFFF ∧ !(helloOf rx.bytes).dual :=
  ⟨runPort, 0, 6, 1000000000, helloRx, by decide +kernel⟩
theorem witness_TapLinkEventsComplete_echo : ∃ (s : State) (p e : Nat) (rx : TapRx), p < 128 ∧ beAt rx.bytes 0 1 = 0x83
    ∧ Accepted s p rx ∧ (s.port p).echoSent = some e ∧ beAt rx.bytes 2 1 = (s.port p).echoToken ∧ (s.port p).trainStep ≠ 4
    ∧ !(s.port p).alignLost ∧ -50 ≤ (rx.startEdge : Int) - e - 4000 + 2 * (s.port p).asym - 2 * (s.port p).trim ∧
    (rx.startEdge : Int) - e - 4000 + 2 * (s.port p).asym - 2 * (s.port p).trim ≤ 50 :=
  ⟨runPort, 5, 1000, echoRx, by decide +kernel⟩
theorem witness_TapLinkEventsComplete_alignLost : ∃ (s : State) (p : Nat), p < 128 ∧ (s.port p).state = .run ∧ !(s.port
    p).alignLost ∧ 3 ≤ (s.port p).echoOutRun :=
  ⟨runPort.updPort 5 fun x => { x with echoOutRun := 3 }, 5, by decide +kernel⟩
theorem witness_TapLinkEventsComplete_alignRegained : ∃ (s : State) (p : Nat), p < 128 ∧ (s.port p).alignLost ∧ (s.port
    p).mean.length = 16 ∧ echoClose (s.port p).mean ∧ !(s.port p).trims.any (·.regains) :=
  ⟨runPort.updPort 5 fun x => { x with alignLost := true, mean := List.replicate 16 200 }, 5, by decide +kernel⟩
theorem witness_TapLinkEventsComplete_alignRetrain : ∃ (s : State) (t p : Nat), p < 128 ∧ (s.port p).alignLost ∧
    (s.port p).alignLostAt + 10 ^ 10 ≤ s.nowAt t :=
  ⟨runPort.updPort 5 fun x => { x with alignLost := true }, 20000000000, 5, by decide +kernel⟩
theorem witness_TapLinkEventsComplete_ack : ∃ (s : State) (p : Nat) (rx : TapRx) (c : TapCmd), p < 128 ∧ beAt rx.bytes
    0 1 = 0x84 ∧ Accepted s p rx ∧ (s.port p).inFlight = some c ∧ c.seq = beAt rx.bytes 2 1 ∧ c.kind ≠ .sleep ∧ beAt
    rx.bytes 3 1 = 0 ∧ (s.port p).trainStep ≠ 3 :=
  ⟨sentPort, 5, ackRx, { seq := 4 }, by decide +kernel⟩
theorem witness_TapLinkEventsComplete_frameError : ∃ (s : State) (t p : Nat) (rx : TapRx), p < 128 ∧ storeCheck rx =
    .truncated ∧ safetyCheck rx = .truncated ∧ (s.port p).state ≠ .off ∧ !((s.port p).txAt.any fun x => decide
    (rx.startEdge < x ∧ x ≤ s.nowAt t)) :=
  ⟨runPort, 0, 5, shortRx, by decide +kernel⟩
theorem witness_TapLinkEventsComplete_missed : ∃ (s : State) (t p : Nat) (y : SyncRec), p < 128 ∧ (s.port p).state =
    .run ∧ (s.port p).sync = some y ∧ !y.judged ∧ y.t0 + 150000 ≤ s.nowAt t :=
  ⟨runPort, 1000150000, 5, sync5, by decide +kernel⟩
theorem witness_TapLinkEventsComplete_stall : ∃ (s : State) (p : Nat), p < 128 ∧ (s.port p).state = .run ∧ 3 ≤ (s.port
    p).missRun :=
  ⟨runPort.updPort 5 fun x => { x with missRun := 3 }, 5, by decide +kernel⟩
theorem witness_TapLinkEventsComplete_window : ∃ (s : State) (t p n : Nat) (y : SyncRec) (c : TapCmd), p < 128 ∧
    (s.port p).state = .run ∧ s.power.state = .slack ∧ s.table.armed = [] ∧ !(s.port p).windowOpen ∧ (s.port p).sync = some
    y ∧ y.t0 + 150000 ≤ s.nowAt t ∧ s.laneOfPort p = some n ∧ (s.laneSound n).steps = [] ∧ (s.port p).waiting = [c] ∧
    c.sends < 3 ∧ c.kind = .config :=
  ⟨slackPort, 1000150000, 5, 0, sync5, { seq := 4 }, by decide +kernel⟩
theorem witness_TapLinkEventsComplete_attempt : ∃ (s : State) (p : Nat), p < 128 ∧ (s.port p).state = .train ∧ (s.port
    p).attemptAt = none ∧ (s.port p).failRun = 0 ∧ s.power.state ≠ .beached :=
  ⟨runPort.toTrain 7, 7, by decide +kernel⟩
theorem witness_TapLinkEventsComplete_timeout : ∃ (s : State) (t p a : Nat), p < 128 ∧ (s.port p).attemptAt = some a ∧
    a + 50000000 ≤ s.nowAt t ∧ (s.port p).failRun = 2 :=
  ⟨runPort.updPort 6 fun x => { x with failRun := 2 }, 1050000000, 6, 1000000000, by decide +kernel⟩
theorem witness_TapLinkEventsComplete_retry : ∃ (s : State) (t p : Nat), p < 128 ∧ (s.port p).attemptAt = none ∧
    s.power.state ≠ .beached ∧ (s.port p).state = .failed ∧ (s.port p).failedAt + 10 ^ 10 ≤ s.nowAt t :=
  ⟨runPort.updPort 7 fun x => { x with state := .failed }, 10000000000, 7, by decide +kernel⟩
theorem witness_TapLinkEventsComplete_holderMark : ∃ (s : State) (n a : Nat), n < 8 ∧ s.power.state = .full ∧
    s.followsTwin n ∧ tget 0 s.net.helmMark n < a ∧ !(s.conv (2 * n + 1)).stopped ∧ (s.conv (2 * n + 1)).running = none :=
  ⟨twinned, 3, 900, by decide +kernel⟩

/-! AnalogueCommandsComplete -/

theorem witness_AnalogueCommandsComplete_inputSet : ∃ (s : State) (src : Source) (k : Nat) (c : InputClass) (sc : Int)
    (h : Nat), Taken s src 0x0701 ∧ k < 96 ∧ -2147483648 ≤ sc ∧ sc ≤ 2147483647 ∧ h < 4096 ∧ !s.armedInput k ∧ !s.gridInput
    k ∧ (!s.fixedInput k ∨ c = positionClass k) ∧ !s.calibrating (.input k) :=
  ⟨served .turned, sv, 95, .voltage, 65536, 4095, by decide +kernel⟩
theorem witness_AnalogueCommandsComplete_tableSet : ∃ (s : State) (src : Source) (k t : Nat) (es : List (BitVec 32)) (q
    : Option Nat), Taken s src 0x0702 ∧ k < 16 ∧ t < 4 ∧ 1 ≤ es.length ∧ es.length ≤ 64 ∧ es.all tableEntryOk ∧ (∀ n, q =
    some n → n < 32768) ∧ !s.tableOwned k t ∧ (es.all fun e => !s.armedInput (6 * k + entryInput e) && !s.gridInput (6 * k
    + entryInput e)) ∧ (s.conv k).otherEntries t + es.length ≤ 64 :=
  ⟨served .turned, sv, 15, 3, [0x01, 0x105], some 32767, by decide +kernel⟩
theorem witness_AnalogueCommandsComplete_tableStart : ∃ (s : State) (src : Source) (k t : Nat), Taken s src 0x0703 ∧ k
    < 16 ∧ t < 4 ∧ !s.tableOwned k t ∧ !((s.conv k).table t).isEmpty ∧ (((s.conv k).table t).all fun e => !s.armedInput (6
    * k + entryInput e) && !s.gridInput (6 * k + entryInput e)) ∧ !(s.conv k).stopped ∧ (s.conv k).run = none :=
  ⟨tabled, sv, 15, 3, by decide +kernel⟩
theorem witness_AnalogueCommandsComplete_convert : ∃ (s : State) (src : Source) (i : Nat), Taken s src 0x0704 ∧ i < 96
    ∧ !s.gridInput i ∧ !(s.conv (i / 6)).stopped ∧ (s.conv (i / 6)).running = none ∧ (s.conv (i / 6)).urgent = [] ∧ (s.conv
    (i / 6)).aborted = none ∧ (s.conv (i / 6)).run = none ∧ (s.conv (i / 6)).soft = [] :=
  ⟨served .turned, sv, 95, by decide +kernel⟩
theorem witness_AnalogueCommandsComplete_read : ∃ (s : State) (src : Source) (l : List Nat), Taken s src 0x0705 ∧
    l.length ≤ 96 ∧ (∀ k ∈ l, k < 96) ∧ (l.all fun k => !s.gridInput k) :=
  ⟨served .turned, sv, ([0, 95] : List Nat), by decide +kernel⟩
theorem witness_AnalogueCommandsComplete_calPoint : ∃ (s : State) (src : Source) (k : Nat) (v : Int), Taken s src
    0x0706 ∧ k < 96 ∧ -2147483647 ≤ v ∧ v ≤ 2147483647 ∧ !s.armedInput k ∧ !s.gridInput k ∧ s.ana.calJobs = [] ∧ (∀ n, n <
    8 → (s.icv n).cal = none) :=
  ⟨served .turned, sv, 95, 5000, by decide +kernel⟩
theorem witness_AnalogueCommandsComplete_calCommit : ∃ (s : State) (src : Source) (k : Nat) (a b : Int), Taken s src
    0x0707 ∧ k < 96 ∧ !s.armedInput k ∧ !s.gridInput k ∧ (s.input k).coef = some (a, b) ∧ !s.calibrating (.input k) :=
  ⟨coefS, sv, 95, 3, 65536, by decide +kernel⟩
theorem witness_AnalogueCommandsComplete_calRead : ∃ (s : State) (src : Source) (k : Nat), Taken s src 0x0708 ∧ k < 96
    ∧ !s.armedInput k ∧ !s.gridInput k :=
  ⟨coefS, sv, 95, by decide +kernel⟩
theorem witness_AnalogueCommandsComplete_counters : ∃ (s : State) (src : Source) (k : Nat), Taken s src 0x0709 ∧ k < 16 :=
  ⟨(served .turned).setConv 15 { clipCount := 3 }, sv, 15, by decide +kernel⟩
theorem witness_AnalogueCommandsComplete_icvStatus : ∃ (s z : State) (src : Source) (n : Nat), Taken s src 0x0801 ∧ n <
    8 ∧ z = s.seen :=
  ⟨served .turned, (served .turned).seen, sv, 7, by decide +kernel, by decide +kernel, rfl⟩
theorem witness_AnalogueCommandsComplete_icvReset : ∃ (s : State) (src : Source) (n : Nat), Taken s src 0x0802 ∧ n < 8
    ∧ !s.gridInput (12 * n + 6) ∧ (s.icv n).cal = none :=
  ⟨served .turned, sv, 7, by decide +kernel⟩
theorem witness_AnalogueCommandsComplete_dacConfig : ∃ (s : State) (src : Source) (k c r : Nat), Taken s src 0x0901 ∧ k
    < 8 ∧ c < 65536 ∧ r < 2 :=
  ⟨served .turned, sv, 7, 65535, 1, by decide +kernel⟩
theorem witness_AnalogueCommandsComplete_dacSet : ∃ (s : State) (src : Source) (k r c : Nat), Taken s src 0x0902 ∧ k <
    8 ∧ r < 2 ∧ c < 65536 ∧ (s.dac k).source = .path src.path :=
  ⟨dacS, sv, 7, 1, 65535, by decide +kernel⟩
theorem witness_AnalogueCommandsComplete_tachConfig : ∃ (s : State) (src : Source) (k p f st : Nat), Taken s src 0x0A01
    ∧ k < 16 ∧ 8 ≤ k ∧ 1 ≤ p ∧ p ≤ 64 ∧ f < 256 ∧ 10 ≤ st ∧ st ≤ 10000 :=
  ⟨served .turned, sv, 15, 64, 255, 10000, by decide +kernel⟩
theorem witness_AnalogueCommandsComplete_tachRead : ∃ (s : State) (src : Source) (l : List Nat), Taken s src 0x0A02 ∧
    l.length ≤ 16 ∧ (∀ k ∈ l, k < 16) :=
  ⟨served .turned, sv, ([0, 15] : List Nat), by decide +kernel⟩

/-! AnalogueEventsComplete -/

theorem witness_AnalogueEventsComplete_conversion : ∃ (s : State) (t k code : Nat) (c : Conversion) (q : Source), k <
    16 ∧ code < 16384 ∧ (s.conv k).running = some c ∧ c.holdAt + 250 ≤ s.nowAt t ∧ c.source = 6 ∧ c.left = 1 ∧ c.codes = []
    ∧ c.also = [] ∧ c.src = some q ∧ c.input / 6 = k ∧ (s.atTime t).clearOf k c.holdAt = c.holdAt ∧ !(s.box q.path
    q.box).resetPending :=
  ⟨softS, 0, 15, 16383, softC, sv, by decide +kernel⟩
theorem witness_AnalogueEventsComplete_tableEnd : ∃ (s : State) (t k g : Nat) (r : TableRun), k < 16 ∧ (s.conv k).run =
    some r ∧ r.index = r.entries.length ∧ r.gapUntil = some g ∧ g ≤ s.nowAt t ∧ r.queue = none ∧ (s.conv k).pendingStart =
    none :=
  ⟨tabledEnd, 0, 15, 5, { table := 3, entries := [1], index := 1, gapUntil := some 5 }, by decide +kernel⟩
theorem witness_AnalogueEventsComplete_calResult : ∃ (s : State) (k : Nat) (j : CalJob), k < 96 ∧ s.ana.calJobs = [j] ∧
    j.target = .input k ∧ j.codes.length = 64 ∧ spreadOf j.codes ≤ 64 ∧ !j.full ∧ (s.input k).full = none ∧ !(s.box
    j.src.path j.src.box).resetPending :=
  ⟨calS, 95, calJ, by decide +kernel⟩
theorem witness_AnalogueEventsComplete_word : ∃ (s : State) (t n : Nat), n < 8 ∧ 0 < (s.icv n).prevEnd ∧ (s.icv
    n).prevEnd ≤ s.nowAt t ∧ (s.icv n).last = none ∧ s.power.state = .full :=
  ⟨wordS, 700, 7, by decide +kernel⟩
theorem witness_AnalogueEventsComplete_beached : ∃ (s : State) (t n code : Nat), n < 8 ∧ s.power.state = .beached ∧
    (s.lane n).cfg.isSome ∧ s.nowAt t % 10000000 = 0 ∧ code < 16384 :=
  ⟨beachedLane, 0, 0, 16383, by decide +kernel⟩
theorem witness_AnalogueEventsComplete_settle : ∃ (s : State) (t k e : Nat), k < 8 ∧ (s.dac k).settleUntil = some e ∧ e
    ≤ s.nowAt t :=
  ⟨dacSettling, 0, 7, 5, by decide +kernel⟩
theorem witness_AnalogueEventsComplete_edge : ∃ (s : State) (t k e w : Nat), k < 16 ∧ s.power.state = .full ∧ !(s.tach
    k).pair ∧ 8 * (s.tach k).filter ≤ w ∧ (s.tach k).lastEdge = some e ∧ s.nowAt t - e ≤ (s.tach k).standstill * 1000000 ∧
    !(s.tach k).reverse :=
  ⟨full.setTach 15 { lastEdge := some 0 }, 1000000, 15, 0, 0, by decide +kernel⟩
theorem witness_AnalogueEventsComplete_standstill : ∃ (s : State) (t k e : Nat), k < 16 ∧ s.power.state = .full ∧
    (s.tach k).lastEdge = some e ∧ e + (s.tach k).standstill * 1000000 ≤ s.nowAt t :=
  ⟨full.setTach 15 { lastEdge := some 0, speed := 4 }, 1000000000, 15, 0, by decide +kernel⟩

/-! LaneCommandsComplete -/

theorem witness_LaneCommandsComplete_config : ∃ (s : State) (src : Source) (n : Nat) (c : LaneConfig), Taken s src
    0x0B01 ∧ n < 8 ∧ !s.anyArmed ∧ c.firstPort < 128 ∧ c.portCount ≠ 0 ∧ laneConfigOk s.baseB c ∧ s.rangesOk n c ∧ (s.lane
    n).cfg = none ∧ (s.lane n).state = .unconfigured :=
  ⟨served .turned, sv, 0, cfg3, by decide +kernel⟩
theorem witness_LaneCommandsComplete_loopSet : ∃ (s : State) (src : Source) (n : Nat) (g : LoopGains), Taken s src
    0x0B02 ∧ n < 8 ∧ gainsOk g ∧ (s.lane n).state ≠ .arming ∧ (s.lane n).state ≠ .disarming :=
  ⟨served .turned, sv, 7, gains1, by decide +kernel⟩
theorem witness_LaneCommandsComplete_arm : ∃ (s : State) (src : Source) (n : Nat), Taken s src 0x0B03 ∧ n < 8 ∧ (∀ c ∈
    s.armChecks n, c.1) :=
  ⟨armable, sv, 0, by decide +kernel⟩
theorem witness_LaneCommandsComplete_disarm : ∃ (s : State) (src : Source) (n : Nat), Taken s src 0x0B04 ∧ n < 8 ∧
    (s.lane n).state = .run :=
  ⟨running, sv, 0, by decide +kernel⟩
theorem witness_LaneCommandsComplete_setpoint : ∃ (s : State) (src : Source) (n : Nat) (v : Int) (c : LaneConfig),
    Taken s src 0x0B05 ∧ n < 8 ∧ -2147483648 ≤ v ∧ v ≤ 2147483647 ∧ (s.lane n).cfg = some c ∧ c.source = .path src.path ∧
    (s.lane n).state = .run :=
  ⟨running, sv, 0, (-2147483648 : Int), cfg3, by decide +kernel⟩
theorem witness_LaneCommandsComplete_status : ∃ (s z : State) (src : Source) (n : Nat), Taken s src 0x0B06 ∧ n < 8 ∧ z
    = s.seen :=
  ⟨running, running.seen, sv, 7, by decide +kernel, by decide +kernel, rfl⟩
theorem witness_LaneCommandsComplete_faultClear : ∃ (s : State) (src : Source) (n : Nat) (a : Bool), Taken s src 0x0B07
    ∧ n < 8 ∧ (s.lane n).state = .tripped ∧ !s.latched n ∧ (s.lane n).allOpen ∧ (∀ k, k < 3 → ((s.lane n).contactor k).weld
    = false ∧ ((s.lane n).contactor k).weldSuspect = false) ∨ a :=
  ⟨trippedS, sv, 0, true, by decide +kernel⟩
theorem witness_LaneCommandsComplete_counters : ∃ (s : State) (src : Source) (n : Nat), Taken s src 0x0B08 ∧ n < 8 :=
  ⟨running, sv, 0, by decide +kernel⟩

/-! LaneEventsComplete -/

theorem witness_LaneEventsComplete_period0 : ∃ (s : State) (t n len : Nat) (rest : List Nat) (c : LaneConfig) (q :
    Rat), n < 8 ∧ s.power.state = .full ∧ (s.lane n).cfg = some c ∧ 0 < c.phases ∧ (s.lane n).state = .run ∧ (s.lane
    n).periods = len :: rest ∧ ((s.lane n).phase 0).nextAt = some q ∧ q ≤ (s.nowAt t : Rat) + 1 ∧ s.laneRole n = none ∧
    (s.conv (2 * n)).running = none ∧ (s.conv (2 * n + 1)).running = none :=
  ⟨planned, 0, 0, 200000, [199999], cfg3, 1000000000, by decide +kernel⟩
theorem witness_LaneEventsComplete_period1 : ∃ (s : State) (t n m : Nat) (c : LaneConfig) (q : Rat), n < 8 ∧ m < 6 ∧ m
    ≠ 0 ∧ s.power.state = .full ∧ (s.lane n).cfg = some c ∧ m < c.phases ∧ ((s.lane n).phase m).nextAt = some q ∧ q ≤
    (s.nowAt t : Rat) + 1 ∧ (s.conv (2 * n)).running = none ∧ !(s.conv (2 * n)).stopped :=
  ⟨planned, 0, 0, 2, cfg3, 1000000000, by decide +kernel⟩
theorem witness_LaneEventsComplete_sampleLost : ∃ (s : State) (n : Nat), n < 8 ∧ (s.lane n).state = .run ∧ 8 ≤ (s.lane
    n).spB.droppedRun :=
  ⟨running.updLane 0 fun l => { l with spB := { l.spB with droppedRun := 8 } }, 0, by decide +kernel⟩
theorem witness_LaneEventsComplete_busRange : ∃ (s : State) (n : Nat), n < 8 ∧ (s.lane n).state = .run ∧ 10 ≤ (s.lane
    n).busOutRun :=
  ⟨running.updLane 0 fun l => { l with busOutRun := 10 }, 0, by decide +kernel⟩
theorem witness_LaneEventsComplete_arming : ∃ (s : State) (t n : Nat) (c : LaneConfig), n < 8 ∧ (s.lane n).cfg = some c
    ∧ (s.lane n).state = .arming ∧ (s.atTime t).permissive n ∧ c.tDecay = 0 ∧ (s.lane n).step = 1 ∧ (s.lane
    n).kNeg.closedBy ((s.lane n).stepAt + c.tFb * 1000000) :=
  ⟨armingS, 0, 0, cfg0, by decide +kernel⟩
theorem witness_LaneEventsComplete_short : ∃ (s : State) (t n a : Nat) (c : LaneConfig), n < 8 ∧ (s.lane n).cfg = some
    c ∧ (s.lane n).state = .arming ∧ 3 ≤ (s.lane n).step ∧ (s.lane n).step ≤ 4 ∧ (s.atTime t).nodeHighSince n = some a ∧ a
    + (c.preShort * 1000000 + 1) ≤ s.nowAt t :=
  ⟨shortS, 0, 0, 5, cfg0, by decide +kernel⟩
theorem witness_LaneEventsComplete_disarming : ∃ (s : State) (t n : Nat) (c : LaneConfig), n < 8 ∧ (s.lane n).cfg =
    some c ∧ (s.lane n).state = .disarming ∧ (s.lane n).step = 2 ∧ (s.lane n).gatesForced ∧ (s.lane n).stepAt + 1000000 ≤
    s.nowAt t :=
  ⟨disarmingS, 0, 0, cfg3, by decide +kernel⟩
theorem witness_LaneEventsComplete_forced : ∃ (s : State) (t n : Nat) (c : LaneConfig), n < 8 ∧ (s.lane n).cfg = some c
    ∧ (s.lane n).state = .disarming ∧ (s.lane n).step = 1 ∧ (s.lane n).stepAt + c.disarmTimeout * 1000000 ≤ s.nowAt t :=
  ⟨disarmingS.updLane 0 fun l => { l with step := 1 }, 2000000000, 0, cfg3, by decide +kernel⟩
theorem witness_LaneEventsComplete_decay : ∃ (s : State) (t n a : Nat), n < 8 ∧ (s.lane n).decayDue = some a ∧ a ≤
    s.nowAt t ∧ (s.atTime t).stageDown n :=
  ⟨decayed, 0, 0, 5, by decide +kernel⟩
theorem witness_LaneEventsComplete_feedback : ∃ (s : State) (n k : Nat) (b : Bool), n < 8 ∧ k < 3 ∧ ((s.lane
    n).contactor k).fb ≠ b :=
  ⟨running, 0, 2, true, by decide +kernel⟩
theorem witness_LaneEventsComplete_mismatch : ∃ (s : State) (t n k : Nat) (c : LaneConfig), n < 8 ∧ k < 3 ∧ (s.lane
    n).cfg = some c ∧ (s.lane n).state = .run ∧ ((s.lane n).contactor k).drive ≠ ((s.lane n).contactor k).fb ∧ !((s.lane
    n).contactor k).reported ∧ ((s.lane n).contactor k).changedAt + c.tFb * 1000000 < s.nowAt t :=
  ⟨running, 0, 0, 1, cfg3, by decide +kernel⟩
theorem witness_LaneEventsComplete_weld : ∃ (s : State) (t n : Nat) (c : LaneConfig), n < 8 ∧ (s.lane n).cfg = some c ∧
    (s.lane n).state = .tripped ∧ (s.lane n).openWatch ≠ [] ∧ (s.lane n).openAt + c.tFb * 1000000 ≤ s.nowAt t ∧ (s.lane
    n).allOpen :=
  ⟨trippedS, 0, 0, cfg3, by decide +kernel⟩

/-! ModelCommandsComplete -/

theorem witness_ModelCommandsComplete_paramLoad : ∃ (s : State) (src : Source) (typ : Nat) (b : List Byte), Taken s src
    0x0C01 ∧ 1 ≤ typ ∧ typ ≤ 255 ∧ b.length = 1032 ∧ paramCheck b ∧ paramRange typ { bytes := b, build := leAt b 8 8 } =
    true ∧ (s.model.params.filter fun x => x.2.isSome && x.1 != typ).length < 64 :=
  ⟨served .turned, sv, 255, paramBytes, by decide +kernel⟩
theorem witness_ModelCommandsComplete_paramRead : ∃ (s : State) (src : Source) (typ : Nat) (q : ParamSet), Taken s src
    0x0C02 ∧ 1 ≤ typ ∧ typ ≤ 255 ∧ s.params typ = some q :=
  ⟨modelled, sv, 3, { build := 5 }, by decide +kernel⟩
theorem witness_ModelCommandsComplete_assign : ∃ (s : State) (src : Source) (p : Nat) (ts ss : List Nat), Taken s src
    0x0C03 ∧ p < 128 ∧ ts.length = 18 ∧ ss.length = 18 ∧ ts.all (fun x => decide (x ≤ 255)) ∧ ss.all (fun x => decide (x ≤
    5) || x == 255) ∧ (∀ n, s.laneOfPort p = some n → laneArmed (s.lane n).state = false) :=
  ⟨runPort, sv, 5, List.replicate 18 3, List.replicate 18 255, by decide +kernel⟩
theorem witness_ModelCommandsComplete_cellRead : ∃ (s : State) (src : Source) (p c n : Nat), Taken s src 0x0C04 ∧ p <
    128 ∧ c < 18 ∧ 1 ≤ n ∧ c + n ≤ 18 :=
  ⟨served .turned, sv, 127, 0, 18, by decide +kernel⟩
theorem witness_ModelCommandsComplete_status : ∃ (s z : State) (src : Source) (n : Nat), Taken s src 0x0C05 ∧ n < 8 ∧ z
    = s.seen :=
  ⟨served .turned, (served .turned).seen, sv, 7, by decide +kernel, by decide +kernel, rfl⟩
theorem witness_ModelCommandsComplete_learnSet : ∃ (s : State) (src : Source) (h : Nat), Taken s src 0x0C06 ∧ 1 ≤ h ∧ h
    ≤ 24 :=
  ⟨served .turned, sv, 24, by decide +kernel⟩
theorem witness_ModelCommandsComplete_learnedRead : ∃ (s : State) (src : Source) (p : Nat), Taken s src 0x0C07 ∧ p < 128 :=
  ⟨served .turned, sv, 127, by decide +kernel⟩
theorem witness_ModelCommandsComplete_learnedWrite : ∃ (s : State) (src : Source) (p : Nat) (b : List Byte) (h :
    Hello), Taken s src 0x0C08 ∧ p < 128 ∧ b.length = 588 ∧ (s.port p).hello = some h ∧ h.serial = leAt b 0 8 ∧ leAt b 584
    4 = crc32 (b.take 584) :=
  ⟨modelled, sv, 5, learnBytes, {
      version := 1, otherRun := false, dual := false, sideB := false, model := 5, serial := 77 }, by decide +kernel⟩
theorem witness_ModelCommandsComplete_commit : ∃ (s : State) (src : Source), Taken s src 0x0C09 ∧ s.model.native ∧
    s.storeStage ≠ .volatile ∧ s.store.commit = none :=
  ⟨modelled, sv, by decide +kernel⟩
theorem witness_ModelCommandsComplete_rough : ∃ (s : State) (src : Source) (p : Nat), Taken s src 0x0C0A ∧ p < 128 ∧
    s.modelled p ≠ [] :=
  ⟨modelled, sv, 5, by decide +kernel⟩
theorem witness_ModelCommandsComplete_powerSet : ∃ (s : State) (src : Source), Taken s src 0x0C0B :=
  ⟨{ modelled with power := { modelled.power with state := .slack } }, sv, by decide +kernel⟩
theorem witness_ModelCommandsComplete_counters : ∃ (s : State) (src : Source) (p : Nat), Taken s src 0x0C0C ∧ p < 128 :=
  ⟨modelled, sv, 127, by decide +kernel⟩

/-! ModelEventsComplete -/

theorem witness_ModelEventsComplete_step : ∃ (s : State) (p n c : Nat), p < 128 ∧ s.power.state = .full ∧ s.laneOfPort
    p = some n ∧ (s.portsOf n).contains p ∧ s.modelled p = [c] ∧ s.params (s.cell (cellIx p c)).typ = none ∧ tget none
    s.model.stepped p ≠ some s.model.lastTag :=
  ⟨typed, 5, 0, 4, by decide +kernel⟩
theorem witness_ModelEventsComplete_diverged : ∃ (s : State) (p c : Nat), p < 128 ∧ c < 18 ∧ 10 ≤ (s.cell (cellIx p
    c)).rejectRun :=
  ⟨typed.updCell (cellIx 5 4) fun c => { c with rejectRun := 10 }, 5, 4, by decide +kernel⟩
theorem witness_ModelEventsComplete_stale : ∃ (s : State) (p n : Nat), p < 128 ∧ s.power.state = .full ∧ s.laneOfPort p
    = some n ∧ tget none (s.lane n).limChgPort p = none :=
  ⟨typed, 5, 0, by decide +kernel⟩
theorem witness_ModelEventsComplete_estimate : ∃ (s : State) (p c : Nat) (q : ParamSet), p < 128 ∧ c < 18 ∧
    s.power.state = .full ∧ (s.cell (cellIx p c)).estActive ∧ (s.cell (cellIx p c)).estVolts.length = 16 ∧ s.params (s.cell
    (cellIx p c)).typ = some q :=
  ⟨gathered, 5, 4, { build := 5 }, by decide +kernel⟩
theorem witness_ModelEventsComplete_rest : ∃ (s : State) (t n a : Nat), n < 8 ∧ !(s.lane n).rested ∧ (s.lane
    n).restSince = some a ∧ a + 1800 * 10 ^ 9 ≤ s.nowAt t :=
  ⟨typed.updLane 0 fun l => { l with restSince := some 5 }, 2000000000000, 0, 5, by decide +kernel⟩
theorem witness_ModelEventsComplete_commitInterval : ∃ (s : State) (t : Nat), s.model.native ∧ s.power.state = .full ∧
    s.store.commit = none ∧ s.storeStage = .normal ∧ s.store.lastCommitEnd + s.model.intervalH * 3600 * 10 ^ 9 ≤ s.nowAt t
    :=
  ⟨modelled, 100 * 3600 * 10 ^ 9, by decide +kernel⟩
theorem witness_ModelEventsComplete_slackEnter : ∃ (s : State) (t : Nat), s.power.state = .full ∧ s.model.slackEnabled
    ∧ (s.atTime t).quiet ∧ s.sec.debug ≠ .invasive ∧ s.sec.lifecycle ≠ .parted ∧ s.power.beach = none ∧ (∀ n < 8, (s.lane
    n).cfg = none ∨ elapsedO (s.lane n).lowSince (60 * 10 ^ 9) (s.nowAt t)) ∧ cycleOf ((s.atTime t).pos + 32) % (if s.baseB
    = 17 then 6 else 5) = 0 :=
  ⟨slackable, 0, by decide +kernel⟩
theorem witness_ModelEventsComplete_slackExit : ∃ (s : State) (n : Nat), n < 8 ∧ s.power.state = .slack ∧ (s.lane
    n).cfg.isSome ∧ 3 ≤ (s.lane n).highRun :=
  ⟨{ typed.updLane 0 fun l => { l with highRun := 3 } with
      power := { typed.power with state := .slack } }, 0, by decide +kernel⟩

/-! SoundAndSpringCommandsComplete -/

theorem witness_SoundAndSpringCommandsComplete_schedule : ∃ (s : State) (src : Source) (r : SoundReq) (e : Nat), Taken
    s src 0x0D01 ∧ r.lane < 8 ∧ r.set_ < 2 ^ 32 ∧ r.step < 65536 ∧ r.start < 2 ^ 64 ∧ roleKind r.partnerRole = 2 ∧
    r.partnerEpoch < 65536 ∧ s.ownRole r.partnerRole = none ∧ s.soundBlocked r.lane = none ∧ (baseIndex s.baseB
    r.start).isSome ∧ s.pos + 10 * 65536 ≤ r.start ∧ !s.stepOverlaps r.lane r ∧ s.tideSettled ∧ stepRange (s.lane
    r.lane).rated r ∧ s.freeEntry s.usedEntries = some e :=
  ⟨soundS, sv, sreq true, 56, by decide +kernel⟩
theorem witness_SoundAndSpringCommandsComplete_cancel : ∃ (s : State) (src : Source) (n : Nat), Taken s src 0x0D02 ∧ n < 8 :=
  ⟨stepS (stepOf .enabled), sv, 0, by decide +kernel⟩
theorem witness_SoundAndSpringCommandsComplete_cancelOne : ∃ (s : State) (src : Source) (n k j : Nat) (a : SoundStep),
    Taken s src 0x0D02 ∧ n < 8 ∧ (s.laneSound n).steps = [a] ∧ a.set_ = k ∧ a.step = j ∧ a.phase = .scheduled ∧ (s.entry
    a.entry).kind = 4 ∧ s.ownRole a.partnerRole = none :=
  ⟨waitingS, sv, 0, 4, 1, stepOf .scheduled, by decide +kernel⟩
theorem witness_SoundAndSpringCommandsComplete_status : ∃ (s z : State) (src : Source) (n : Nat) (x : LaneSound), Taken
    s src 0x0D03 ∧ n < 8 ∧ z = s.seen ∧ x = z.laneSound n :=
  ⟨soundS, soundS.seen, sv, 7, soundS.seen.laneSound 7, by decide +kernel, by decide +kernel, rfl, by decide +kernel⟩
theorem witness_SoundAndSpringCommandsComplete_result : ∃ (s : State) (src : Source) (n k j p : Nat) (r : SoundRun),
    Taken s src 0x0D04 ∧ n < 8 ∧ p < 128 ∧ (s.laneSound n).runs.find? (fun x => x.set_ == k && x.step == j && x.port == p)
    = some r ∧ tget [] (s.laneSound n).results p = [] :=
  ⟨soundS.updLaneSound 0 fun x => { x with runs := [{ set_ := 4, step := 1, port := 127, mean := some 5 }] }, sv, 0, 4,
      1, 127, { set_ := 4, step := 1, port := 127, mean := some 5 }, by decide +kernel⟩
theorem witness_SoundAndSpringCommandsComplete_springStart : ∃ (s : State) (src : Source) (n cv h : Nat) (i j : Int) (c
    : LaneConfig), Taken s src 0x0E01 ∧ n < 8 ∧ 1 ≤ cv ∧ cv ≤ 10000 ∧ 4 ≤ h ∧ h ≤ 72 ∧ (s.lane n).cfg = some c ∧
    springCurrent c.rated i ∧ springCurrent c.rated j ∧ s.fromCoordinator src ∧ s.soundBlocked n = none ∧ !(s.laneSound
    n).capturePending :=
  ⟨soundS, sv, 0, 1, 72, 500, 50000, cfg3, by decide +kernel⟩
theorem witness_SoundAndSpringCommandsComplete_springStop : ∃ (s : State) (src : Source) (n : Nat), Taken s src 0x0E02
    ∧ n < 8 ∧ (s.spring n).profile.isSome ∧ (s.lane n).state = .run :=
  ⟨springS { phase := .top }, sv, 0, by decide +kernel⟩
theorem witness_SoundAndSpringCommandsComplete_springStatus : ∃ (s z : State) (src : Source) (n : Nat) (p : Spring),
    Taken s src 0x0E03 ∧ n < 8 ∧ z = s.seen ∧ p = z.spring n ∧ (z.lane n).cfg = none :=
  ⟨soundS, soundS.seen, sv, 7, {}, by decide +kernel, by decide +kernel, rfl, by decide +kernel⟩
theorem witness_SoundAndSpringCommandsComplete_rosterSet : ∃ (s : State) (src : Source) (k d : Nat), Taken s src 0x0E04
    ∧ 1 ≤ k ∧ k ≤ 200 ∧ 30 ≤ d ∧ d ≤ 730 ∧ s.isCoordinator :=
  ⟨gridS, sv, 200, 730, by decide +kernel⟩
theorem witness_SoundAndSpringCommandsComplete_rosterRead : ∃ (s : State) (src : Source), Taken s src 0x0E05 ∧
    s.isCoordinator :=
  ⟨gridS, sv, by decide +kernel⟩

/-! SoundingEventsComplete -/

theorem witness_SoundingEventsComplete_readySend : ∃ (s : State) (t n : Nat) (a : SoundStep), n < 8 ∧ (s.laneSound
    n).steps = [a] ∧ a.phase = .scheduled ∧ (s.atTime t).atAngle0 ∧ cycleOf ((s.atTime t).pos + 1) + 3 ≤ cycleOf a.start ∧
    a.readyCycle ≠ some (cycleOf ((s.atTime t).pos + 1)) ∧ s.soundBlocked n = none ∧ (s.atTime t).tideSettled ∧ s.ownRole
    a.partnerRole = none :=
  ⟨stepS laterStep, 0, 0, laterStep, by decide +kernel⟩
theorem witness_SoundingEventsComplete_ready : ∃ (s z : State) (t : Nat) (lan : Lan) (h : GHead) (m : SoundMsg) (o :
    OwnRole) (a : SoundStep), z = (s.frameIn (lanNo lan) t).atTime t ∧ InTurn z h (.sound m) ∧ m.kind = 1 ∧ OfStep z h m o
    a ∧ a.partnerRole = m.laneRole ∧ a.phase = .scheduled ∧ (cycleOf a.start - 4) * 65536 ≤ z.pos ∧ a.start = m.start ∧
    a.length = m.length ∧ a.stepMa * m.stepMa < 0 :=
  ⟨stepS nearStep, ((stepS nearStep).frameIn 0 0).atTime 0, 0, .a, headSound, { soundMsgOf 1 with start := 4 * 65536 },
      laneA, nearStep, rfl, by decide +kernel⟩
theorem witness_SoundingEventsComplete_active : ∃ (s z : State) (t : Nat) (lan : Lan) (h : GHead) (m : SoundMsg) (o :
    OwnRole) (a : SoundStep), z = (s.frameIn (lanNo lan) t).atTime t ∧ InTurn z h (.sound m) ∧ m.kind = 2 ∧ OfStep z h m o
    a ∧ a.start = m.start ∧ a.phase ≠ .ended ∧ a.partnerRole = m.laneRole :=
  ⟨stepS (stepOf .running), ((stepS (stepOf .running)).frameIn 1 0).atTime 0, 0, .b, headSound, soundMsgOf 2, laneA,
      stepOf .running, rfl, by decide +kernel⟩
theorem witness_SoundingEventsComplete_end_ : ∃ (s z : State) (t : Nat) (lan : Lan) (h : GHead) (m : SoundMsg) (o :
    OwnRole) (a : SoundStep), z = (s.frameIn (lanNo lan) t).atTime t ∧ InTurn z h (.sound m) ∧ m.kind = 3 ∧ OfStep z h m o
    a ∧ a.start = m.start ∧ a.phase = .running ∧ a.partnerRole = m.laneRole :=
  ⟨stepS (stepOf .running), ((stepS (stepOf .running)).frameIn 0 0).atTime 0, 0, .a, headSound, soundMsgOf 3, laneA,
      stepOf .running, rfl, by decide +kernel⟩
theorem witness_SoundingEventsComplete_decision : ∃ (s : State) (t n : Nat) (a : SoundStep), n < 8 ∧ (s.laneSound
    n).steps = [a] ∧ a.phase = .scheduled ∧ !a.capture ∧ cycleOf a.start ≤ cycleOf ((s.atTime t).pos + 1) + 2 ∧ a.readyOk ∧
    |a.stepW + a.partnerW| * 10 ≤ max |a.stepW| |a.partnerW| ∧ s.soundBlocked n = none ∧ (s.atTime t).tideSettled ∧
    a.partnerSource = s.tide.source ∧ (s.atTime t).pos < (s.entry a.entry).position :=
  ⟨decidedS, 0, 0, readyStep, by decide +kernel⟩
theorem witness_SoundingEventsComplete_alone : ∃ (s : State) (t n : Nat) (a : SoundStep), n < 8 ∧ (s.laneSound n).steps
    = [a] ∧ a.phase = .running ∧ !a.activeSeen ∧ !a.endAtAlign ∧ a.t0 + 2000000 ≤ s.nowAt t ∧ s.ownRole a.partnerRole =
    none :=
  ⟨stepS (stepOf .running), 0, 0, stepOf .running, by decide +kernel⟩
theorem witness_SoundingEventsComplete_leave : ∃ (s : State) (t n : Nat) (a : SoundStep), n < 8 ∧ (s.laneSound n).steps
    = [a] ∧ a.phase = .running ∧ !a.endAtAlign ∧ a.capture ∧ (s.atTime t).pastStart a a.length :=
  ⟨stepS (pastStep .running true), 0, 0, pastStep .running true, by decide +kernel⟩
theorem witness_SoundingEventsComplete_complete : ∃ (s : State) (t n : Nat) (a : SoundStep), n < 8 ∧ (s.laneSound
    n).steps = [a] ∧ a.phase = .running ∧ !a.endAtAlign ∧ !a.capture ∧ (s.atTime t).pastStart a a.length ∧ (s.entry
    a.entry).kind ≠ 4 :=
  ⟨stepS (pastStep .running false), 0, 0, pastStep .running false, by decide +kernel⟩
theorem witness_SoundingEventsComplete_captureEnd : ∃ (s : State) (t n : Nat) (a : SoundStep), n < 8 ∧ (s.laneSound
    n).steps = [a] ∧ a.phase = .capturing ∧ (s.atTime t).pastStart a (2 * a.length) :=
  ⟨(stepS (pastStep .capturing true)).captureOn 0, 0, 0, pastStep .capturing true, by decide +kernel⟩
theorem witness_SoundingEventsComplete_fit : ∃ (s : State) (n : Nat) (a : SoundStep), n < 8 ∧ (s.laneSound n).steps =
    [a] ∧ a.phase = .fitting ∧ !a.last ∧ a.capture ∧ (s.entry a.entry).kind ≠ 4 :=
  ⟨stepS { stepOf .fitting with capture := true, last := false }, 0,
      { stepOf .fitting with capture := true, last := false }, by decide +kernel⟩
theorem witness_SoundingEventsComplete_setClose : ∃ (s : State) (t n k b x : Nat), n < 8 ∧ (s.laneSound n).openSets =
    [{ set_ := k, start := b, t0 := some x }] ∧ x + 3600 * 10 ^ 9 ≤ s.nowAt t :=
  ⟨(stepS (stepOf .ended)).updLaneSound 0 fun y => { y with openSets := [{ set_ := 4, start := 5, t0 := some 6 }] },
      4000000000000, 0, 4, 5, 6, by decide +kernel⟩

/-! SpringTideEventsComplete -/

theorem witness_SpringTideEventsComplete_phaseEnd : ∃ (s : State) (n : Nat) (m : Rat), n < 8 ∧ (s.spring n).phase =
    .charge ∨ (s.spring n).phase = .discharge ∧ (s.spring n).margin = some m ∧ m ≤ 10 :=
  ⟨springS { phase := .discharge, margin := some 10 }, 0, 10, by decide +kernel⟩
theorem witness_SpringTideEventsComplete_return_ : ∃ (s : State) (t n : Nat), n < 8 ∧ (s.spring n).phase = .return_ ∧
    (s.spring n).phaseAt < s.nowAt t ∧ (s.lane n).ramp = (s.lane n).limitedCommand :=
  ⟨springS { phase := .return_ }, 0, 0, by decide +kernel⟩
theorem witness_SpringTideEventsComplete_taper : ∃ (s : State) (t n a : Nat), n < 8 ∧ (s.spring n).phase = .top ∨
    (s.spring n).phase = .bottom ∧ !(s.spring n).gathering ∧ (s.spring n).taperSince = some a ∧ a + 10 ^ 10 ≤ s.nowAt t :=
  ⟨oneCell (springS { phase := .bottom, taperSince := some 5 }), 0, 0, 5, by decide +kernel⟩
theorem witness_SpringTideEventsComplete_full_ : ∃ (s : State) (n p c : Nat), n < 8 ∧ (s.spring n).gathering ∧
    (s.spring n).phase = .top ∧ s.portsOf n = [p] ∧ s.modelled p = [c] ∧ (s.cell (cellIx p c)).endState.isSome :=
  ⟨endS .top, 0, 5, 4, by decide +kernel⟩
theorem witness_SpringTideEventsComplete_empty : ∃ (s : State) (n p c : Nat), n < 8 ∧ (s.spring n).gathering ∧
    (s.spring n).phase = .bottom ∧ s.portsOf n = [p] ∧ s.modelled p = [c] ∧ (s.cell (cellIx p c)).endState.isSome :=
  ⟨endS .bottom, 0, 5, 4, by decide +kernel⟩
theorem witness_SpringTideEventsComplete_interrupted : ∃ (s : State) (t n a : Nat), n < 8 ∧ (s.spring n).phase =
    .discharge ∨ (s.spring n).phase = .bottom ∧ (s.spring n).lowSince = some a ∧ a + (60 * 10 ^ 9 + 1) ≤ s.nowAt t ∧
    (s.lane n).state = .run :=
  ⟨springS { phase := .bottom, lowSince := some 5 }, 0, 0, 5, by decide +kernel⟩
theorem witness_SpringTideEventsComplete_portLost : ∃ (s : State) (t n p : Nat), n < 8 ∧ (s.spring n).profile.isSome ∧
    p ∈ s.portsOf n ∧ (s.port p).state ≠ .run ∧ max (s.spring n).startedAt ((s.port p).outSince.getD 0) + (10 ^ 9 + 1) ≤
    s.nowAt t ∧ (s.lane n).state = .run :=
  ⟨(springS { phase := .charge }).updPort 3 fun x => { x with state := .train, outSince := some 5 }, 0, 0, 3,
      by decide +kernel⟩
theorem witness_SpringTideEventsComplete_timeout : ∃ (s : State) (t n : Nat), n < 8 ∧ (s.spring n).profile.isSome ∧
    (s.spring n).startedAt + (s.spring n).maxHours * 3600 * 10 ^ 9 ≤ s.nowAt t ∧ (s.lane n).state = .run :=
  ⟨springS { phase := .charge, maxHours := 4 }, 15000000000000, 0, by decide +kernel⟩
theorem witness_SpringTideEventsComplete_grant : ∃ (s : State) (t b e : Nat) (l : RosterLane), s.isCoordinator ∧
    s.sound.roster.ready ∧ s.sound.roster.lanes = [l] ∧ !l.out ∧ s.sound.roster.due (s.nowAt t) = [l] ∧ s.holderOf l.role =
    some (b, e) ∧ s.net.berth ≠ some b ∧ (s.streamTx b).unacked.length < 64 :=
  ⟨gridS, 0, 9, 1, ⟨0x20000009, 9, none, none, false⟩, by decide +kernel⟩

/-! BalancingAndThermalCommandsComplete -/

theorem witness_BalancingAndThermalCommandsComplete_balConfig : ∃ (s : State) (src : Source) (n : Nat) (r :
    BalRequest), Taken s src 0x0F01 ∧ n < 8 ∧ balOk r :=
  ⟨balS, sv, 7, bal0, by decide +kernel⟩
theorem witness_BalancingAndThermalCommandsComplete_balStatus : ∃ (s z : State) (src : Source) (n : Nat), Taken s src
    0x0F02 ∧ n < 8 ∧ z = s.seen :=
  ⟨balS, balS.seen, sv, 0, by decide +kernel, by decide +kernel, rfl⟩
theorem witness_BalancingAndThermalCommandsComplete_balTest : ∃ (s : State) (src : Source) (n p c : Nat), Taken s src
    0x0F03 ∧ n < 8 ∧ p < 128 ∧ c < 18 ∧ s.laneOfPort p = some n ∧ (s.modelled p).contains c ∧ s.holdsHelm n ∧ (s.port
    p).state = .run :=
  ⟨balS, sv, 0, 5, 4, by decide +kernel⟩
theorem witness_BalancingAndThermalCommandsComplete_balTestRead : ∃ (s : State) (src : Source) (p : Nat), Taken s src
    0x0F04 ∧ p < 128 :=
  ⟨balS, sv, 127, by decide +kernel⟩
theorem witness_BalancingAndThermalCommandsComplete_limits : ∃ (s : State) (src : Source) (n : Nat) (r : ThermRequest),
    Taken s src 0x1001 ∧ n < 8 ∧ thermOk r :=
  ⟨balS, sv, 7, therm0, by decide +kernel⟩
theorem witness_BalancingAndThermalCommandsComplete_thermStatus : ∃ (s z : State) (src : Source) (n : Nat) (h :
    LaneTherm), Taken s src 0x1002 ∧ n < 8 ∧ z = s.seen ∧ h = z.laneTherm n :=
  ⟨balS, balS.seen, sv, 0, balS.seen.laneTherm 0, by decide +kernel, by decide +kernel, rfl, by decide +kernel⟩
theorem witness_BalancingAndThermalCommandsComplete_loopSet : ∃ (s : State) (src : Source) (k : Nat) (c : CoolConfig),
    Taken s src 0x1101 ∧ k < 8 ∧ c.lanes < 256 ∧ c.pump < 8 ∧ c.tach < 16 ∧ -32768 ≤ c.setPoint ∧ c.setPoint ≤ 32767 ∧ c.kp
    < 2 ^ 32 ∧ c.ki < 2 ^ 32 ∧ c.pumpMin < 65536 ∧ c.pumpMax < 65536 ∧ c.expect < 65536 :=
  ⟨balS, sv, 7, cool0, by decide +kernel⟩
theorem witness_BalancingAndThermalCommandsComplete_outputSet : ∃ (s : State) (src : Source) (k f d : Nat), Taken s src
    0x1102 ∧ k < 8 ∧ 1000 ≤ f ∧ f ≤ 100000 ∧ d < 65536 :=
  ⟨balS, sv, 7, 1000, 65535, by decide +kernel⟩
theorem witness_BalancingAndThermalCommandsComplete_dutySet : ∃ (s : State) (src : Source) (k d : Nat), Taken s src
    0x1103 ∧ k < 8 ∧ d < 65536 ∧ (s.aux k).source = .path src.path :=
  ⟨balS.setAux 7 { source := .path .service }, sv, 7, 65535, by decide +kernel⟩
theorem witness_BalancingAndThermalCommandsComplete_status : ∃ (s z : State) (src : Source) (k : Nat) (x : CoolLoop),
    Taken s src 0x1104 ∧ k < 8 ∧ z = s.seen ∧ x = z.coolLoop k :=
  ⟨loopS, loopS.seen, sv, 3, loopS.seen.coolLoop 3, by decide +kernel, by decide +kernel, rfl, by decide +kernel⟩
theorem witness_BalancingAndThermalCommandsComplete_die : ∃ (s z : State) (src : Source) (d : Die), Taken s src 0x1201
    ∧ z = s.seen ∧ d = z.therm.die :=
  ⟨balS, balS.seen, sv, {}, by decide +kernel, rfl, by decide +kernel⟩

/-! BalancingAndThermalEventsComplete -/

theorem witness_BalancingAndThermalEventsComplete_plan : ∃ (s : State) (n : Nat), n < 8 ∧ s.plans n ∧ s.model.lastBase
    % 10000 = 0 :=
  ⟨balS.updLaneTherm 0 fun h => { h with pendingBal := some { enable := false } }, 0, by decide +kernel⟩
theorem witness_BalancingAndThermalEventsComplete_repeat_ : ∃ (s : State) (t n p : Nat), p < 128 ∧ (s.balPort p).sentAt
    + 500000000 ≤ s.nowAt t ∧ s.laneOfPort p = some n ∧ s.balances n ∧ (s.port p).state = .run :=
  ⟨balS, 0, 0, 5, by decide +kernel⟩
theorem witness_BalancingAndThermalEventsComplete_testStart : ∃ (s : State) (t n p c : Nat) (i : Int), p < 128 ∧ c < 18
    ∧ (s.modelled p).contains c ∧ (s.atTime t).testDue p c ∧ s.laneOfPort p = some n ∧ (s.atTime t).testCurrent n = some i
    ∧ (s.atTime t).testCanStart n p :=
  ⟨queuedS, 0, 0, 5, 4, 700000, by decide +kernel⟩
theorem witness_BalancingAndThermalEventsComplete_testPutOff : ∃ (s : State) (t n p c : Nat), p < 128 ∧ c < 18 ∧
    (s.modelled p).contains c ∧ (s.atTime t).testDue p c ∧ s.laneOfPort p = some n ∧ !s.testCanStart n p :=
  ⟨busyTestS, 0, 0, 5, 4, by decide +kernel⟩
theorem witness_BalancingAndThermalEventsComplete_testStep : ∃ (s : State) (t n p : Nat) (q : SwitchTest), p < 128 ∧
    (s.balPort p).test = some q ∧ s.laneOfPort p = some n ∧ q.step = 1 ∧ TestGoesOn s t n q ∧ (s.port p).balanceField = 0 ∧
    0 < q.frames :=
  ⟨testS test1, 0, 0, 5, test1, by decide +kernel⟩
theorem witness_BalancingAndThermalEventsComplete_testPass : ∃ (s : State) (t n p : Nat) (q : SwitchTest), p < 128 ∧
    (s.balPort p).test = some q ∧ s.laneOfPort p = some n ∧ q.step = 6 ∧ TestGoesOn s t n q ∧ 10 ≤ q.frames ∧ verdictOf
    (s.laneTherm n).bal q = 0 :=
  ⟨testS test6, 0, 0, 5, test6, by decide +kernel⟩
theorem witness_BalancingAndThermalEventsComplete_overdue : ∃ (s : State) (t p c : Nat), p < 128 ∧ c < 18 ∧ (s.modelled
    p).contains c ∧ !(s.cell (cellIx p c)).overdue ∧ (s.cell (cellIx p c)).testedAt + 86400 * 10 ^ 9 ≤ (s.atTime t).fullNow
    :=
  ⟨balS, 87000 * 10 ^ 9, 5, 4, by decide +kernel⟩
theorem witness_BalancingAndThermalEventsComplete_sample : ∃ (s : State) (n g : Nat), n < 8 ∧ (s.lane n).cfg.isSome ∧
    s.power.state = .full ∧ s.model.lastBase % 100 = 0 ∧ s.model.lastTag = g ∧ s.model.syncTag = some g ∧ (s.laneTherm
    n).sampleTag ≠ some g :=
  ⟨sampleS, 0, 65536, by decide +kernel⟩
theorem witness_BalancingAndThermalEventsComplete_precursor : ∃ (s : State) (n p i : Nat), p < 128 ∧ i < 6 ∧ 3 ≤
    (s.sensor (6 * p + i)).fastRun ∧ (s.port p).limits.temps.testBit i ∧ s.laneOfPort p = some n ∧ !(s.laneTherm
    n).precursor ∧ (s.lane n).state = .run :=
  ⟨sensorS { fastRun := 3 }, 0, 5, 5, by decide +kernel⟩
theorem witness_BalancingAndThermalEventsComplete_sensorLost : ∃ (s : State) (n p i : Nat), p < 128 ∧ i < 6 ∧ 10 ≤
    (s.sensor (6 * p + i)).lostRun ∧ (s.port p).state = .run ∧ (s.port p).limits.temps.testBit i ∧ !(s.sensor (6 * p +
    i)).lost ∧ s.laneOfPort p = some n :=
  ⟨sensorS { lostRun := 10 }, 0, 5, 5, by decide +kernel⟩

/-! CoolingAndDieEventsComplete -/

theorem witness_CoolingAndDieEventsComplete_update : ∃ (s : State) (k : Nat) (c : CoolConfig), k < 8 ∧ (s.coolLoop
    k).cfg = some c ∧ s.power.state = .full :=
  ⟨loopS.updLaneTherm 0 fun h => { h with hottest := some 3000 }, 3, cool0, by decide +kernel⟩
theorem witness_CoolingAndDieEventsComplete_lost : ∃ (s : State) (t k a : Nat), k < 8 ∧ !(s.coolLoop k).lost ∧
    (s.coolLoop k).lowSince = some a ∧ a + 10 ^ 10 ≤ s.nowAt t :=
  ⟨balS.setCoolLoop 3 { lowSince := some 5 }, 0, 3, 5, by decide +kernel⟩
theorem witness_CoolingAndDieEventsComplete_restored : ∃ (s : State) (t k a : Nat), k < 8 ∧ (s.coolLoop k).lost ∧
    (s.coolLoop k).okSince = some a ∧ a + 6 * 10 ^ 10 ≤ s.nowAt t :=
  ⟨balS.setCoolLoop 3 { lost := true, okSince := some 5 }, 0, 3, 5, by decide +kernel⟩
theorem witness_CoolingAndDieEventsComplete_reading : ∃ (s : State) (t w : Nat) (r : Int), w < 65536 ∧ -5000 ≤ r ∧ r <
    10000 ∧ !s.therm.die.broken ∧ s.therm.die.state = .normal ∧ (dieRate s.therm.die.history (s.nowAt t) r).all (fun q =>
    decide (q ≤ 200)) :=
  ⟨balS, 0, 65535, 9999, by decide +kernel⟩
theorem witness_CoolingAndDieEventsComplete_shed : ∃ (s : State) (w : Nat) (r : Int), w < 65536 ∧ 10000 ≤ r ∧ r < 10800
    ∧ !s.therm.die.broken ∧ s.therm.die.state = .normal :=
  ⟨balS, 1, 10799, by decide +kernel⟩
theorem witness_CoolingAndDieEventsComplete_enforceHot : ∃ (w : Nat) (r : Int), w < 65536 ∧ 10800 ≤ r ∧ r < 11200 :=
  ⟨1, 10800, by decide +kernel⟩
theorem witness_CoolingAndDieEventsComplete_enforce : ∃ (s : State) (t : Nat), s.therm.die.state = .shedRequest ∧
    s.therm.die.since + 2000000000 ≤ s.nowAt t :=
  ⟨dieS { state := .shedRequest }, 0, by decide +kernel⟩
theorem witness_CoolingAndDieEventsComplete_broken : ∃ (s : State), !s.therm.die.broken ∧ 100 ≤ s.therm.die.sameRun :=
  ⟨dieS { sameRun := 100 }, by decide +kernel⟩
theorem witness_CoolingAndDieEventsComplete_release : ∃ (s : State) (t a : Nat), s.therm.die.state ≠ .normal ∧
    !s.therm.die.broken ∧ s.therm.die.coolSince = some a ∧ a + 10 ^ 10 ≤ s.nowAt t :=
  ⟨dieS { state := .enforce, coolSince := some 5 }, 0, 5, by decide +kernel⟩

/-! SafetyCommandsComplete -/

theorem witness_SafetyCommandsComplete_status : ∃ (s z : State) (src : Source), Taken s src 0x1301 ∧ z = s.seen :=
  ⟨safeS, safeS.seen, sv, by decide +kernel, rfl⟩
theorem witness_SafetyCommandsComplete_limits : ∃ (s : State) (src : Source) (n ov uv p : Nat), Taken s src 0x1302 ∧ n
    < 8 ∧ ov < 65535 ∧ uv < ov ∧ 10 ≤ p ∧ p ≤ 1000 ∧ !s.anyArmed :=
  ⟨calmS, sv, 7, 65534, 65533, 10, by decide +kernel⟩
theorem witness_SafetyCommandsComplete_oc : ∃ (s : State) (src : Source) (n a b f : Nat), Taken s src 0x1303 ∧ n < 8 ∧
    a < 2 ^ 31 ∧ b < 2 ^ 31 ∧ f ≤ 80 ∧ f % 10 = 0 ∧ !s.anyArmed ∧ (s.compNeeded n).all (fun k => (s.compCode n k 0).isSome)
    :=
  ⟨calmS, sv, 0, 2000, 1000, 80, by decide +kernel⟩
theorem witness_SafetyCommandsComplete_io : ∃ (s : State) (src : Source) (d : Nat) (f : Bool) (a b c e : Nat), Taken s
    src 0x1304 ∧ 10 ≤ d ∧ d ≤ 500 ∧ a < 2 ^ 32 ∧ b < 2 ^ 32 ∧ c < 2 ^ 32 ∧ e < 2 ^ 32 ∧ !s.anyArmed ∧ (!f ∨
    s.safety.fireIn) :=
  ⟨calmS, sv, 500, true, 1, 2, 3, 0xFFFFFFFF, by decide +kernel⟩
theorem witness_SafetyCommandsComplete_channel : ∃ (s : State) (src : Source) (hb : Nat), Taken s src 0x1305 ∧ 250000 ≤
    hb ∧ hb ≤ 2500000 ∧ s.safety.rx.all (fun r => decide (6 * hb ≤ r.watchdog)) ∧ !s.anyArmed :=
  ⟨calmS, sv, 2500000, by decide +kernel⟩
theorem witness_SafetyCommandsComplete_linkSend : ∃ (s : State) (src : Source) (l : LinkSet), Taken s src 0x1306 ∧
    l.send ∧ linkOk s.safety.hb l ∧ s.linkRoom l ∧ !s.anyArmed :=
  ⟨calmS, sv, sndLink, by decide +kernel⟩
theorem witness_SafetyCommandsComplete_linkReceive : ∃ (s : State) (src : Source) (l : LinkSet), Taken s src 0x1306 ∧
    !l.send ∧ linkOk s.safety.hb l ∧ s.linkRoom l ∧ !s.anyArmed :=
  ⟨calmS, sv, rcvLink, by decide +kernel⟩
theorem witness_SafetyCommandsComplete_linkStatus : ∃ (s z : State) (src : Source) (b k : Nat) (r : LinkRx), Taken s
    src 0x1307 ∧ b < 4096 ∧ k < 65536 ∧ z = s.seen ∧ z.rxLink b k = some r :=
  ⟨rxS rx1, (rxS rx1).seen, sv, 9, 2, rx1, by decide +kernel, by decide +kernel, by decide +kernel, rfl, by decide +kernel⟩
theorem witness_SafetyCommandsComplete_window : ∃ (s : State) (src : Source) (k n w : Nat), Taken s src 0x1308 ∧ k < 5
    ∧ 1 ≤ n ∧ n ≤ 255 ∧ 1000000 ≤ w ∧ w ≤ 86400000000000 ∧ !s.anyArmed :=
  ⟨calmS, sv, 4, 255, 1000000, by decide +kernel⟩
theorem witness_SafetyCommandsComplete_rock : ∃ (s : State) (src : Source), Taken s src 0x1309 :=
  ⟨safeS, sv, by decide +kernel⟩
theorem witness_SafetyCommandsComplete_counters : ∃ (s : State) (src : Source), Taken s src 0x130A :=
  ⟨safeWith fun a => { a with clearsOk := 5 }, sv, by decide +kernel⟩

/-! SafetyCoreAndLaneProtectionEventsComplete -/

theorem witness_SafetyCoreAndLaneProtectionEventsComplete_lockstep : ∃ (s : State), s.safetyRuns ∧ s.safety.coreFault =
    none :=
  ⟨safeS, by decide +kernel⟩
theorem witness_SafetyCoreAndLaneProtectionEventsComplete_cross : ∃ (s : State), s.safetyRuns ∧ s.safety.coreFault = none :=
  ⟨safeS, by decide +kernel⟩
theorem witness_SafetyCoreAndLaneProtectionEventsComplete_configGood : ∃ (s : State) (t : Nat), s.safetyRuns ∧
    s.safety.configCrcAt + 100000000 ≤ s.nowAt t :=
  ⟨safeS, 0, by decide +kernel⟩
theorem witness_SafetyCoreAndLaneProtectionEventsComplete_configBad : ∃ (s : State) (t : Nat), s.safetyRuns ∧
    s.safety.configCrcAt + 100000000 ≤ s.nowAt t ∧ s.safety.coreFault = none :=
  ⟨safeS, 0, by decide +kernel⟩
theorem witness_SafetyCoreAndLaneProtectionEventsComplete_coreReset : ∃ (s : State) (t a : Nat), s.safety.coreFault =
    some a ∧ a + 10000000 ≤ s.nowAt t :=
  ⟨safeWith fun a => { a with coreFault := some 5, moduleLatch := true }, 0, 5, by decide +kernel⟩
theorem witness_SafetyCoreAndLaneProtectionEventsComplete_overcurrent : ∃ (s : State) (n k thr : Nat) (v : Int), n < 8
    ∧ k < 7 ∧ s.hasComp n k ∧ !(tget {} (s.laneSafe n).comps k).tripped ∧ s.compThreshold n k = some thr ∧ thr < v.natAbs ∧
    (s.lane n).state = .run :=
  ⟨comp1, 0, 1, 100, -101, by decide +kernel⟩
theorem witness_SafetyCoreAndLaneProtectionEventsComplete_release : ∃ (s : State) (n k : Nat), n < 8 ∧ k < 7 ∧ (tget {}
    (s.laneSafe n).comps k).tripped :=
  ⟨safeS.updLaneSafe 0 fun x => { x with comps := [(6, { tripped := true })] }, 0, 6, by decide +kernel⟩
theorem witness_SafetyCoreAndLaneProtectionEventsComplete_readback : ∃ (s : State) (t n k c : Nat), n < 8 ∧ k < 7 ∧
    (tget {} (s.laneSafe n).comps k).code = some c ∧ elapsed (tget {} (s.laneSafe n).comps k).readAt 10000000 (s.nowAt t) ∧
    (s.laneSafe n).comps.all (fun x => !x.2.tripped && !x.2.readBad) :=
  ⟨comp1, 0, 0, 1, 5, by decide +kernel⟩
theorem witness_SafetyCoreAndLaneProtectionEventsComplete_readbackBad : ∃ (s : State) (t n k a c : Nat), n < 8 ∧ k < 7
    ∧ (tget {} (s.laneSafe n).comps k).code = some a ∧ a ≠ c ∧ elapsed (tget {} (s.laneSafe n).comps k).readAt 10000000
    (s.nowAt t) ∧ (s.lane n).state = .run :=
  ⟨comp1, 0, 0, 1, 5, 6, by decide +kernel⟩
theorem witness_SafetyCoreAndLaneProtectionEventsComplete_derate : ∃ (s : State) (n : Nat), n < 8 ∧ laneArmed (s.lane
    n).state ∧ !(s.laneSafe n).derate ∧ s.derateCond n :=
  ⟨portOutS, 0, by decide +kernel⟩
theorem witness_SafetyCoreAndLaneProtectionEventsComplete_lost : ∃ (s : State) (t n a : Nat), n < 8 ∧ (s.lane n).state
    = .run ∧ (s.laneSafe n).derate ∧ s.derateCond n ∧ (s.laneSafe n).derateSince = some a ∧ a + (s.laneSafe n).portLostTime
    * 1000000 ≤ s.nowAt t :=
  ⟨derated, 0, 0, 5, by decide +kernel⟩

/-! SafetyInputsAndClearEventsComplete -/

theorem witness_SafetyInputsAndClearEventsComplete_estop : ∃ (s : State), s.safetyRuns ∧ s.safety.estopA ∧
    s.safety.estopB ∧ !s.safety.discrepancy :=
  ⟨safeS, by decide +kernel⟩
theorem witness_SafetyInputsAndClearEventsComplete_discrepancy : ∃ (s : State) (t a : Nat), s.safetyRuns ∧
    !s.safety.discrepancy ∧ s.safety.discrepancySince = some a ∧ a + s.safety.discTime * 1000000 ≤ s.nowAt t :=
  ⟨safeWith fun a => { a with discrepancySince := some 5 }, 0, 5, by decide +kernel⟩
theorem witness_SafetyInputsAndClearEventsComplete_recovered : ∃ (s : State) (t a : Nat), s.safety.discrepancy ∧
    s.safety.bothHighSince = some a ∧ a + 1000000000 ≤ s.nowAt t :=
  ⟨safeWith fun a => { a with discrepancy := true, bothHighSince := some 5 }, 0, 5, by decide +kernel⟩
theorem witness_SafetyInputsAndClearEventsComplete_fire : ∃ (s : State), s.safetyRuns ∧ s.safety.fireIn ∧
    s.safety.fireEnable :=
  ⟨safeS, by decide +kernel⟩
theorem witness_SafetyInputsAndClearEventsComplete_fireOff : ∃ (s : State), s.safetyRuns ∧ s.safety.fireIn ∧
    !s.safety.fireEnable :=
  ⟨safeWith fun a => { a with fireEnable := false }, by decide +kernel⟩
theorem witness_SafetyInputsAndClearEventsComplete_healthy : ∃ (s : State), s.safetyRuns :=
  ⟨safeWith fun a => { a with estopB := false }, by decide +kernel⟩
theorem witness_SafetyInputsAndClearEventsComplete_outFault : ∃ (s : State) (k : Nat), k < 4 ∧ s.safetyRuns ∧
    s.safety.outConfigured ∧ tget none s.safety.outRead k = none ∧ !s.safety.outFault :=
  ⟨safeS, 3, by decide +kernel⟩
theorem witness_SafetyInputsAndClearEventsComplete_clean : ∃ (s : State) (t lo hi : Nat), s.safetyRuns ∧
    (s.safety.clearFell.getD 0) + lo + hi ≤ s.nowAt t ∧ 50000000 ≤ lo ∧ 100000000 ≤ hi ∧ hi ≤ 2000000000 ∧ s.power.state ≠
    .bareRock ∧ !s.safety.outFault ∧ s.safety.outRead = [] ∧ s.safety.moduleLatch ∧ (∀ n, n < 8 → !(s.laneSafe n).latch) ∧
    (s.safety.moduleCauses.all fun c => !(s.atTime t).causeActive 0 c) :=
  ⟨latchedS, 0, 50000000, 100000000, by decide +kernel⟩
theorem witness_SafetyInputsAndClearEventsComplete_refused : ∃ (s : State) (t lo hi : Nat), s.safetyRuns ∧
    (s.safety.clearFell.getD 0) + lo + hi ≤ s.nowAt t ∧ (lo < 50000000 ∨ hi < 100000000 ∨ 2000000000 < hi) :=
  ⟨latchedS, 0, 50000000, 99999999, by decide +kernel⟩
theorem witness_SafetyInputsAndClearEventsComplete_stuck : ∃ (s : State) (t rose : Nat), s.safetyRuns ∧
    !s.safety.clearStuck ∧ rose + 2000000000 ≤ s.nowAt t ∧ s.safety.clearFell.getD 0 ≤ rose :=
  ⟨safeS, 0, 0, by decide +kernel⟩

/-! SafeChannelEventsComplete -/

theorem witness_SafeChannelEventsComplete_heartbeat : ∃ (s z : State) (t k : Nat) (x : LinkTx), z = s.atTime t ∧
    LinkSends z k x ∧ (x.lastSent + z.safety.hb ≤ z.now ∨ x.lastState ≠ z.srcState ∨ x.lastBits ≠ z.linkBits x) :=
  ⟨txS, txS.atTime 0, 0, 2, tx1, rfl, by decide +kernel⟩
theorem witness_SafeChannelEventsComplete_abort : ∃ (s z : State) (t k : Nat) (x : LinkTx), z = s.atTime t ∧ LinkSends
    z k x ∧ x.lastSent + z.safety.hb ≤ z.now :=
  ⟨txS, txS.atTime 0, 0, 2, tx1, rfl, by decide +kernel⟩
theorem witness_SafeChannelEventsComplete_crc : ∃ (s z : State) (t : Nat) (lan : Lan) (b : List (BitVec 8)) (r :
    LinkRx), z = ((s.frameIn (lanIx lan) t).atTime t).lanHeard lan ∧ z.safetyRuns ∧ z.safety.outConfigured ∧ !safeFrameOk b
    ∧ z.rxLink (beAt b 4 2) (beAt b 6 2) = some r :=
  ⟨rxS rx1, (((rxS rx1).frameIn 0 0).atTime 0).lanHeard .a, 0, .a, badFrame, rx1, rfl, by decide +kernel⟩
theorem witness_SafeChannelEventsComplete_accept : ∃ (s z : State) (t : Nat) (lan : Lan) (b : List (BitVec 8)) (r :
    LinkRx), z = ((s.frameIn (lanIx lan) t).atTime t).lanHeard lan ∧ NewOnLink z b r ∧ z.lanDownNow (otherLan lan) :=
  ⟨rxS rx1, (((rxS rx1).frameIn 0 0).atTime 0).lanHeard .a, 0, .a, frame9 5, rx1, rfl, by decide +kernel⟩
theorem witness_SafeChannelEventsComplete_wait_ : ∃ (s z : State) (t : Nat) (lan : Lan) (b : List (BitVec 8)) (r :
    LinkRx), z = ((s.frameIn (lanIx lan) t).atTime t).lanHeard lan ∧ NewOnLink z b r ∧ !z.lanDownNow (otherLan lan) :=
  ⟨rxBoth rx1, (((rxBoth rx1).frameIn 0 0).atTime 0).lanHeard .a, 0, .a, frame9 5, rx1, rfl, by decide +kernel⟩
theorem witness_SafeChannelEventsComplete_skew : ∃ (s : State) (t b k : Nat) (r : LinkRx) (h : HeldCopy), s.rxLink b k
    = some r ∧ r.held = [h] ∧ h.at_ + r.skew ≤ s.nowAt t ∧ (h.at_ + r.skew ≠ s.nowAt t ∨ !(s.atTime t).lanDownNow (otherLan
    h.lan)) :=
  ⟨rxBoth heldLink, 0, 9, 2, heldLink, copy5, by decide +kernel⟩
theorem witness_SafeChannelEventsComplete_watchdog : ∃ (s : State) (t b k : Nat) (r : LinkRx), s.safetyRuns ∧
    s.safety.outConfigured ∧ s.rxLink b k = some r ∧ !r.safe ∧ r.lastAt + r.watchdog ≤ s.nowAt t :=
  ⟨rxBoth rx1, 0, 9, 2, rx1, by decide +kernel⟩
theorem witness_SafeChannelEventsComplete_down : ∃ (s : State) (lan : Lan), s.safetyRuns ∧ !(s.safeLan (lanIx lan)).down :=
  ⟨rxBoth rx1, .b, by decide +kernel⟩
theorem witness_SafeChannelEventsComplete_up : ∃ (s : State) (t a : Nat) (lan : Lan), (s.safeLan (lanIx lan)).down ∧
    (s.safeLan (lanIx lan)).upSince = some a ∧ a + 100 * s.safety.hb ≤ s.nowAt t ∧ !(s.atTime t).lanSilent lan :=
  ⟨lanBackS, 0, 5, .b, by decide +kernel⟩

/-! CountedFaultAndBareRockEventsComplete -/

theorem witness_CountedFaultAndBareRockEventsComplete_ecc : ∃ (s : State) (p : Nat), p < 917504 ∧ s.winTimes fwEcc p =
    [] ∧ 2 ≤ s.winN fwEcc :=
  ⟨safeS, 917503, by decide +kernel⟩
theorem witness_CountedFaultAndBareRockEventsComplete_uncorrectable : ∃ (s : State), s.power.state ≠ .bareRock :=
  ⟨safeS, by decide +kernel⟩
theorem witness_CountedFaultAndBareRockEventsComplete_watchdog : ∃ (s : State) (c : Nat), c < 4 ∧ s.safetyRuns ∧ 2 ≤
    s.power.stage ∧ s.power.state ≠ .bareRock ∧ s.power.state ≠ .beached ∧ c ∉ s.sec.halted :=
  ⟨safeS, 3, by decide +kernel⟩
theorem witness_CountedFaultAndBareRockEventsComplete_strobe : ∃ (s : State) (t : Nat), s.power.state = .bareRock ∧
    s.safety.rockStrobeAt + 10000000 ≤ s.nowAt t :=
  ⟨rockS, 0, by decide +kernel⟩
theorem witness_CountedFaultAndBareRockEventsComplete_exit : ∃ (s : State) (t : Nat), s.power.state = .bareRock ∧
    s.safety.rock.map (·.1) = some 1 ∧ (s.atTime t).dieCool ∧ !s.safety.rockHold :=
  ⟨rockS, 0, by decide +kernel⟩

/-! NetAndRoleCommandsComplete -/

theorem witness_NetAndRoleCommandsComplete_netStatus : ∃ (s z : State) (src : Source), Taken s src 0x1401 ∧ z = s.seen :=
  ⟨netS, netS.seen, sv, by decide +kernel, rfl⟩
theorem witness_NetAndRoleCommandsComplete_counters : ∃ (s : State) (src : Source), Taken s src 0x1402 :=
  ⟨{ netS with net := { netS.net with orphans := 3 } }, sv, by decide +kernel⟩
theorem witness_NetAndRoleCommandsComplete_berthStatus : ∃ (s z : State) (src : Source), Taken s src 0x1501 ∧ z =
    s.seen ∧ z.net.berthState = .both :=
  ⟨{ netS with net := { netS.net with berthState := .both } },
      ({ netS with net := { netS.net with berthState := .both } } : State).seen, sv, by decide +kernel, rfl,
      by decide +kernel⟩
theorem witness_NetAndRoleCommandsComplete_mapLoad : ∃ (s : State) (src : Source) (es : List BerthEntry), Taken s src
    0x1601 ∧ es.length ≤ 4096 ∧ (es.all fun e => decide (e.berth < 4096) && lldpOk e.idA && lldpOk e.idB) ∧ distinctIds
    (es.flatMap fun e => [e.idA, e.idB]) ∧ !s.store.settingsVolatile :=
  ⟨netS, sv, [berth3], by decide +kernel⟩
theorem witness_NetAndRoleCommandsComplete_propose : ∃ (s : State) (src : Source) (p : Proposal), Taken s src 0x1602 ∧
    1 ≤ p.kind ∧ p.kind ≤ 2 ∧ 1 ≤ p.policy ∧ p.policy ≤ 2 ∧ p.conservative ≤ 1 ∧ p.id < 2 ^ 32 ∧ p.id ≠ 0 ∧ p.n % 65536 = 0
    ∧ p.n < 2 ^ 64 ∧ p.old < 256 ∧ p.new_ < 256 ∧ p.members ≠ [] ∧ (p.members.all (· < 4096)) ∧ s.isCoordinator ∧
    (s.net.changes.all (·.status != .open_)) ∧ s.pos + 8 * 65536 ≤ p.n :=
  ⟨netS, sv, prop1, by decide +kernel⟩
theorem witness_NetAndRoleCommandsComplete_changeStatus : ∃ (s : State) (src : Source) (id : Nat) (c : Change), Taken s
    src 0x1603 ∧ id ≠ 0 ∧ s.change id = some c :=
  ⟨changeS change1, sv, 6, change1, by decide +kernel⟩
theorem witness_NetAndRoleCommandsComplete_abandon : ∃ (s : State) (src : Source) (id : Nat) (c : Change), Taken s src
    0x1604 ∧ s.change id = some c ∧ s.isCoordinator ∧ c.status = .open_ ∧ cycleOf s.pos + 2 < cycleOf c.n ∧ !c.decided :=
  ⟨changeS change1, sv, 6, change1, by decide +kernel⟩
theorem witness_NetAndRoleCommandsComplete_table : ∃ (s : State) (src : Source) (n : Nat), Taken s src 0x1701 ∧ 1 ≤ n ∧
    n ≤ 160 :=
  ⟨netS, sv, 160, by decide +kernel⟩
theorem witness_NetAndRoleCommandsComplete_resolve : ∃ (s : State) (src : Source) (r : Nat), Taken s src 0x1702 ∧ 1 ≤
    roleKind r ∧ roleKind r ≤ 6 :=
  ⟨netS, sv, 0x20000009, by decide +kernel⟩

/-! PlantPortAndBerthEventsComplete -/

theorem witness_PlantPortAndBerthEventsComplete_foreign : ∃ (s : State), s.netRuns :=
  ⟨netS, by decide +kernel⟩
theorem witness_PlantPortAndBerthEventsComplete_format : ∃ (s : State) (b : List (BitVec 8)), s.netRuns ∧ !garzetOk b :=
  ⟨netS, [1], by decide +kernel⟩
theorem witness_PlantPortAndBerthEventsComplete_lldpdu : ∃ (s : State), s.netRuns :=
  ⟨netS, by decide +kernel⟩
theorem witness_PlantPortAndBerthEventsComplete_lldpSend : ∃ (s : State) (lan : Lan), s.netRuns ∧ (s.netLan (lanNo
    lan)).link ∧ (s.netLan (lanNo lan)).lldpAt = none :=
  ⟨netS.updNetLan 0 fun n => { n with link := true }, .a, by decide +kernel⟩
theorem witness_PlantPortAndBerthEventsComplete_derive : ∃ (s : State) (t a b : Nat) (i j : LldpId), s.netRuns ∧
    s.sec.lifecycle = .turned ∧ s.net.berth = none ∧ s.net.berthState = .notDerived ∧ s.net.listenFrom = some a ∧ a + 2 *
    10 ^ 9 ≤ s.nowAt t ∧ (s.netLan 0).lldp = some i ∧ (s.netLan 1).lldp = some j ∧ s.berthOf 0 i = some b ∧ s.berthOf 1 j =
    some b ∧ s.announced b = none :=
  ⟨lostBerth, 0, 5, 3, idOf 1, idOf 2, by decide +kernel⟩
theorem witness_PlantPortAndBerthEventsComplete_duplicate : ∃ (s : State) (b : Nat) (a : Announcer), s.netRuns ∧
    s.net.berth = some b ∧ s.announced b = some a ∧ s.net.dupAt = 0 :=
  ⟨twiceS, 3, { key := 99, serial := 98, berth := 3, moduleEpoch := 1 }, by decide +kernel⟩
theorem witness_PlantPortAndBerthEventsComplete_pathDown : ∃ (s : State) (b : Nat) (p : PeerPath), s.netRuns ∧
    s.net.peers.find? (fun x => x.berth == b) = some p ∧ p.missing .a ∧ !p.downA :=
  ⟨netS, 9, { berth := 9, lastA := some 5, lastB := some 100000000000 }, by decide +kernel⟩
theorem witness_PlantPortAndBerthEventsComplete_pathUp : ∃ (s : State) (t b a : Nat) (p : PeerPath), s.netRuns ∧
    s.net.peers.find? (fun x => x.berth == b) = some p ∧ p.downB ∧ !p.missing .b ∧ p.backSince = some a ∧ a + 10 ^ 9 ≤
    s.nowAt t :=
  ⟨upS { berth := 9, downB := true, backSince := some 5 }, 0, 9, 5, { berth := 9, downB := true, backSince := some 5 },
      by decide +kernel⟩
theorem witness_PlantPortAndBerthEventsComplete_announceSend : ∃ (s : State), s.netRuns ∧ 3 ≤ s.power.stage ∧
    s.net.announceDue ∧ s.ownEntries.length ≤ 160 :=
  ⟨{ netS with net := { netS.net with announceDue := true } }, by decide +kernel⟩
theorem witness_PlantPortAndBerthEventsComplete_ageOut : ∃ (s : State) (t k : Nat) (a : Announcer), s.net.announcers =
    [a] ∧ a.key = k ∧ a.at_ + 5 * 10 ^ 9 ≤ s.nowAt t :=
  ⟨twiceS, 0, 99, { key := 99, serial := 98, berth := 3, moduleEpoch := 1 }, by decide +kernel⟩

/-! GarzetMessagesComplete -/

theorem witness_GarzetMessagesComplete_mailbox : ∃ (s : State) (h : GHead) (b : List (BitVec 8)), InTurn s h (.mailbox
    b) ∧ (s.garzetBoxes.any fun x => x.box == senderKey h) ∧ (s.box .garzet (senderKey h)).queue.length < 16 ∧ (s.box
    .garzet (senderKey h)).state = .idle :=
  ⟨boxedS, headM 3 (.mailbox reqBytes) false, reqBytes, by decide +kernel⟩
theorem witness_GarzetMessagesComplete_reply : ∃ (s : State) (h : GHead) (b : List (BitVec 8)) (r : SentReq), InTurn s
    h (.mailboxReply b) ∧ s.net.requests.find? (fun x => x.corr == h.corr) = some r ∧ roleKind r.srcRole = 1 ∧ leAt b 20 4
    % 2 = 1 :=
  ⟨askedS, headReply, lastReply, (askedS.net.requests.headD {
      corr := 0, slot := 0, srcRole := 0, role := 0, epoch := 0, command := 0, sentAt := 0, waitUntil := 0, bytes := [],
      got := [] }), by decide +kernel⟩
theorem witness_GarzetMessagesComplete_ack : ∃ (s : State) (h : GHead) (m : StreamMsg), FirstHeard s h .ack ∧
    (s.streamTx (senderKey h)).unacked = [m] ∧ (s.streamTx (senderKey h)).queued = [] ∧ m.seq = h.ackSeq ∧ h.ackSeq ≠ 0 :=
  ⟨netS, headP 5 .ack false, {
      seq := 7, head := headSound, body := .sound (soundMsgOf 1), sentAt := 5, sends := 1 }, by decide +kernel⟩
theorem witness_GarzetMessagesComplete_moved : ∃ (s : State) (h : GHead) (m : MovedMsg), FirstHeard s h (.roleMoved m)
    ∧ m.typ ≠ 2 ∧ m.typ ≠ 3 :=
  ⟨netS, headP 6 (.roleMoved moved5) true, moved5, by decide +kernel⟩
theorem witness_GarzetMessagesComplete_announce : ∃ (s : State) (h : GHead) (m : AnnounceMsg), FirstHeard s h
    (.announce m) ∧ m.part = 0 ∧ m.parts = 1 ∧ m.power ≤ 2 :=
  ⟨netS, headP 7 (.announce ann11) false, ann11, by decide +kernel⟩
theorem witness_GarzetMessagesComplete_signal : ∃ (s : State) (h : GHead) (m : SignalMsg), FirstHeard s h (.signal m) ∧
    s.holderOf h.srcRole = some (h.srcBerth, h.srcEpoch) ∧ s.ten.epochs = [] :=
  ⟨netS, headP 10 (.signal sig9) false, sig9, by decide +kernel⟩
theorem witness_GarzetMessagesComplete_propose : ∃ (s : State) (t : Nat) (h : GHead) (p : Proposal) (b : Nat), InTurn s
    h (.propose p) ∧ s.holderOf 0x50000000 = some (b, h.srcEpoch) ∧ (s.atTime t).proposalResult p = 0 ∧ s.change p.id =
    none :=
  ⟨memberS [], 0, headM 11 (.propose prop1) false, prop1, 9, by decide +kernel⟩
theorem witness_GarzetMessagesComplete_proposeAck : ∃ (s : State) (h : GHead) (id r : Nat) (c : Change), InTurn s h
    (.proposeAck id r) ∧ s.isCoordinator ∧ s.change id = some c :=
  ⟨changeS change1, headM 12 (.proposeAck 6 0) true, 6, 0, change1, by decide +kernel⟩
theorem witness_GarzetMessagesComplete_commit : ∃ (s : State) (t : Nat) (h : GHead) (id n e : Nat) (c : Change), InTurn
    s h (.commit id n) ∧ s.change id = some c ∧ c.status = .open_ ∧ !c.applied ∧ c.entry = none ∧ cycleOf (s.atTime t).pos
    < cycleOf n ∧ s.freeEntry s.usedEntries = some e :=
  ⟨memberS [change1], 0, headM 13 (.commit 6 (7000 * 65536)) false, 6, 7000 * 65536, 56, change1, by decide +kernel⟩
theorem witness_GarzetMessagesComplete_abandon : ∃ (s : State) (h : GHead) (id r : Nat) (c : Change), InTurn s h
    (.abandon id r) ∧ s.change id = some c ∧ c.status = .open_ ∧ c.kind = 1 ∧ c.entry = none :=
  ⟨memberS [change1], headM 14 (.abandon 6 1) false, 6, 1, change1, by decide +kernel⟩
theorem witness_GarzetMessagesComplete_report : ∃ (s : State) (h : GHead) (m : ReportMsg) (c : Change), InTurn s h
    (.report m) ∧ s.isCoordinator ∧ s.change m.id = some c :=
  ⟨changeS change1, headM 15 (.report ⟨6, 1, 1, 0⟩) false, ⟨6, 1, 1, 0⟩, change1, by decide +kernel⟩
theorem witness_GarzetMessagesComplete_fallBack : ∃ (s : State) (t : Nat) (h : GHead) (id n e : Nat) (c : Change),
    InTurn s h (.fallBack id n) ∧ s.change id = some c ∧ c.status = .open_ ∧ c.entry = none ∧ cycleOf (s.atTime t).pos <
    cycleOf n ∧ s.freeEntry s.usedEntries = some e :=
  ⟨memberS [change1], 0, headM 16 (.fallBack 6 (7000 * 65536)) false, 6, 7000 * 65536, 56, change1, by decide +kernel⟩
theorem witness_GarzetMessagesComplete_retransmit : ∃ (s : State) (t p : Nat) (m : StreamMsg), s.netRuns ∧ (s.streamTx
    p).unacked = [m] ∧ m.sends < 5 ∧ m.sentAt + 2000000 * m.sends ≤ s.nowAt t :=
  ⟨netS, 0, 9, { seq := 7, head := headSound, body := .sound (soundMsgOf 1), sentAt := 5, sends := 1 }, by decide +kernel⟩
theorem witness_GarzetMessagesComplete_noAck : ∃ (s : State) (t p : Nat) (m : StreamMsg), s.netRuns ∧ (s.streamTx
    p).unacked = [m] ∧ (s.streamTx p).queued = [] ∧ m.sentAt + 10000000 ≤ s.nowAt t ∧ m.head.typ = 2 ∧ !s.swapAsked m :=
  ⟨netS, 0, 9, { seq := 7, head := headSound, body := .sound (soundMsgOf 1), sentAt := 5, sends := 1 }, by decide +kernel⟩
theorem witness_GarzetMessagesComplete_gap : ∃ (s : State) (t p : Nat) (x : StreamRx) (m : HeldMsg) (b : SoundMsg),
    s.netRuns ∧ s.streamRx p = some x ∧ x.held = [m] ∧ m.body = .sound b ∧ !(s.peer p).keys.contains (0, m.seq) ∧ m.at_ +
    10000000 ≤ s.nowAt t :=
  ⟨heldS, 0, 9, {
      peer := 9, expected := 5, held := [{ seq := 7, at_ := 5, head := headSound, body := .sound (soundMsgOf 1) }] },
      { seq := 7, at_ := 5, head := headSound, body := .sound (soundMsgOf 1) }, soundMsgOf 1, by decide +kernel⟩

/-! ChangeEventsComplete -/

theorem witness_ChangeEventsComplete_decide : ∃ (s : State) (t id : Nat) (c : Change), MyChange s id c ∧ !c.decided ∧
    cycleOf c.n ≤ cycleOf (s.atTime t).pos + 2 ∧ (c.members.all fun m => m.answer == some 0) :=
  ⟨changeS { change1 with
      coordBerth := 3, n := 10 * 65536, members := [{ berth := 9, answer := some 0 }] }, 0, 6, { change1 with
      coordBerth := 3, n := 10 * 65536, members := [{ berth := 9, answer := some 0 }] }, by decide +kernel⟩
theorem witness_ChangeEventsComplete_reject : ∃ (s : State) (t id : Nat) (c : Change), MyChange s id c ∧ !c.decided ∧
    cycleOf c.n ≤ cycleOf (s.atTime t).pos + 2 ∧ !(c.members.all fun m => m.answer == some 0) :=
  ⟨changeS { change1 with coordBerth := 3, n := 10 * 65536 }, 0, 6, { change1 with coordBerth := 3, n := 10 * 65536 },
      by decide +kernel⟩
theorem witness_ChangeEventsComplete_round : ∃ (s : State) (t id : Nat) (c : Change), MyChange s id c ∧ c.decided ∧
    !c.fellBack ∧ cycleOf c.roundAt + 2 ≤ cycleOf (s.atTime t).pos ∧ (c.members.all fun m => m.report == some 1) :=
  ⟨changeS { change1 with
      coordBerth := 3, decided := true, members := [{ berth := 9, report := some 1 }] }, 0, 6, { change1 with
      coordBerth := 3, decided := true, members := [{ berth := 9, report := some 1 }] }, by decide +kernel⟩
theorem witness_ChangeEventsComplete_lagging : ∃ (s : State) (t id : Nat) (c : Change), s.change id = some c ∧ c.status
    = .open_ ∧ !c.applied ∧ !c.fellBack ∧ !c.decided ∧ c.entry = none ∧ !s.coordinates c ∧ cycleOf c.n ≤ cycleOf (s.atTime
    t).pos :=
  ⟨memberS [{ change1 with n := 10 * 65536 }], 0, 6, { change1 with n := 10 * 65536 }, by decide +kernel⟩
theorem witness_ChangeEventsComplete_memberClose : ∃ (s : State) (t id : Nat) (c : Change), s.change id = some c ∧
    c.status = .open_ ∧ !s.isCoordinator ∧ cycleOf c.n + 64 ≤ cycleOf (s.atTime t).pos :=
  ⟨memberS [{ change1 with n := 10 * 65536, applied := true }], 0, 6,
      { change1 with n := 10 * 65536, applied := true }, by decide +kernel⟩
theorem witness_ChangeEventsComplete_takeover : ∃ (s : State) (t a : Nat), s.isCoordinator ∧ s.net.takeoverAt = some a
    ∧ a + 10 * 10 ^ 9 ≤ s.nowAt t :=
  ⟨{ netS with net := { netS.net with takeoverAt := some 5 } }, 0, 5, by decide +kernel⟩

/-! TenantCommandsComplete -/

theorem witness_TenantCommandsComplete_loadPart : ∃ (s : State) (src : Source) (slot role off : Nat) (b : List (BitVec
    8)), Taken s src 0x1801 ∧ 1 ≤ slot ∧ slot ≤ 255 ∧ roleKind role = 3 ∧ role < 2 ^ 32 ∧ (off = 0 ∨ off = (s.slot
    slot).upload.length) ∧ (if off = 0 then b else (s.slot slot).upload ++ b).length ≤ 4194304 ∧ SlotFree s slot role :=
  ⟨tenS { runSlot with upload := [1] }, sv, 7, 0x30000007, 1, [2], by decide +kernel⟩
theorem witness_TenantCommandsComplete_load : ∃ (s z : State) (src : Source) (slot role off : Nat) (b up : List (BitVec
    8)), Taken s src 0x1801 ∧ 1 ≤ slot ∧ slot ≤ 255 ∧ roleKind role = 3 ∧ role < 2 ^ 32 ∧ (off = 0 ∧ up = b ∨ off ≠ 0 ∧ off
    = (s.slot slot).upload.length ∧ up = (s.slot slot).upload ++ b) ∧ up.length ≤ 4194304 ∧ SlotFree s slot role ∧
    s.imageErr slot role up = none ∧ (s.updSlot slot fun y => { y with upload := [] }).placeImage slot role up = some z :=
  ⟨freeS {}, Option.get _ test_image_placed, sv, 7, 0x30000007, 0, imageA, imageA, by decide +kernel,
      by decide +kernel, by decide +kernel, by decide +kernel, by decide +kernel, by decide +kernel, by decide +kernel,
      by decide +kernel, by decide +kernel, (Option.some_get _).symm⟩
theorem witness_TenantCommandsComplete_stop : ∃ (s : State) (src : Source) (n : Nat), Taken s src 0x1803 ∧ n < 256 ∧
    (s.slot n).upload = [] :=
  ⟨tenS runSlot, sv, 7, by decide +kernel⟩
theorem witness_TenantCommandsComplete_start : ∃ (s : State) (src : Source) (n : Nat), Taken s src 0x1804 ∧ n < 256 ∧
    (s.slot n).upload = [] :=
  ⟨tenS { runSlot with stop := true, state := .stopped }, sv, 7, by decide +kernel⟩
theorem witness_TenantCommandsComplete_unload : ∃ (s : State) (src : Source) (n : Nat), Taken s src 0x1802 ∧ n < 256 ∧
    (s.slot n).upload = [] ∧ !s.holdsActive (s.slot n).role :=
  ⟨freeS runSlot, sv, 7, by decide +kernel⟩
theorem witness_TenantCommandsComplete_status : ∃ (s z : State) (src : Source) (n : Nat), Taken s src 0x1805 ∧ n < 256
    ∧ z = s.seen :=
  ⟨tenS runSlot, (tenS runSlot).seen, sv, 7, by decide +kernel, by decide +kernel, rfl⟩
theorem witness_TenantCommandsComplete_counters : ∃ (s : State) (src : Source) (n : Nat), Taken s src 0x1806 ∧ n < 256 :=
  ⟨tenS { runSlot with cycles := 5 }, sv, 7, by decide +kernel⟩

/-! GraphAndSignalCommandsComplete -/

theorem witness_GraphAndSignalCommandsComplete_activate : ∃ (s : State) (src : Source) (n p : Nat), Taken s src 0x1901
    ∧ 1 ≤ n ∧ n ≤ 255 ∧ p < 2 ^ 64 ∧ p % 65536 = 0 ∧ s.standbys (s.slot n).role = [] ∧ (s.slot n).staged.isSome ∧ s.pos + 8
    * 65536 ≤ p ∧ (s.slot n).activateAt = none ∧ (s.slot n).upload = [] ∧ (s.freeEntry s.usedEntries).isSome :=
  ⟨tenS { runSlot with staged := some graphA }, sv, 7, 7000 * 65536, by decide +kernel⟩
theorem witness_GraphAndSignalCommandsComplete_discard : ∃ (s : State) (src : Source) (n : Nat) (g : Graph), Taken s
    src 0x1902 ∧ 1 ≤ n ∧ n ≤ 255 ∧ (s.slot n).staged = some g ∧ !(s.net.changes.any fun c => c.kind == 2 && c.status ==
    .open_ && g.id == c.new_) ∧ (s.slot n).upload = [] :=
  ⟨tenS { runSlot with staged := some graphA, activateAt := some (5, 56) }, sv, 7, graphA, by decide +kernel⟩
theorem witness_GraphAndSignalCommandsComplete_varRead : ∃ (s : State) (src : Source) (n a k : Nat) (g : Graph), Taken
    s src 0x1903 ∧ 1 ≤ n ∧ n ≤ 255 ∧ 1 ≤ k ∧ k ≤ 64 ∧ (s.slot n).running = some g ∧ a < g.vars.length :=
  ⟨tenS runSlot, sv, 7, 0, 64, graphA, by decide +kernel⟩
theorem witness_GraphAndSignalCommandsComplete_groupSet : ∃ (s : State) (src : Source) (g off : Nat), Taken s src
    0x1904 ∧ g < 8 ∧ off ≤ (if s.baseB = 17 then 3855 else 3276) ∧ !(s.ten.slots.any fun x => (x.2.state == .active ||
    x.2.state == .shadow) && x.2.running.any fun y => y.group == g) :=
  ⟨tenS runSlot, sv, 7, 3276, by decide +kernel⟩
theorem witness_GraphAndSignalCommandsComplete_engines : ∃ (s : State) (src : Source), Taken s src 0x1905 :=
  ⟨tenS runSlot, sv, by decide +kernel⟩
theorem witness_GraphAndSignalCommandsComplete_signalRead : ∃ (s : State) (src : Source) (e : Bool) (hs : List Nat),
    Taken s src 0x1A01 ∧ hs.length ≤ 64 ∧ (hs.all fun h => decide (h < if e then 1048576 else 65536)) :=
  ⟨cycS, sv, true, [0, 1048575], by decide +kernel⟩
theorem witness_GraphAndSignalCommandsComplete_signalConfig : ∃ (s : State) (src : Source) (d r : Nat), Taken s src
    0x1A02 ∧ 1 ≤ d ∧ d ≤ 100 ∧ 100 ≤ r ∧ r ≤ 10000 ∧ !s.anyArmed ∧ !s.store.settingsVolatile :=
  ⟨stillS, sv, 100, 10000, by decide +kernel⟩

/-! TenantEventsComplete -/

theorem witness_TenantEventsComplete_complete : ∃ (s : State) (n : Nat) (r : CycleResult), n < 256 ∧ (s.slot n).inCycle
    ∧ !(s.slot n).cycleDone ∧ !r.windowFault ∧ !((s.slot n).running.any fun g => decide (g.budget < r.usedUs)) :=
  ⟨cycS, 7, cycResult, by decide +kernel⟩
theorem witness_TenantEventsComplete_window : ∃ (s : State) (n : Nat) (r : CycleResult), n < 256 ∧ (s.slot n).inCycle ∧
    !(s.slot n).cycleDone ∧ r.windowFault ∧ (s.slot n).estateHandles = [] :=
  ⟨cycS, 7, { cycResult with windowFault := true }, by decide +kernel⟩
theorem witness_TenantEventsComplete_budget : ∃ (s : State) (t n : Nat) (g : Graph), n < 256 ∧ (s.slot n).inCycle ∧
    !(s.slot n).cycleDone ∧ (s.slot n).running = some g ∧ (s.slot n).startedAt + g.budget * 1000 ≤ s.nowAt t ∧ (s.slot
    n).estateHandles = [] :=
  ⟨cycS, 0, 7, graphA, by decide +kernel⟩
theorem witness_TenantEventsComplete_tenantFault : ∃ (s : State) (n : Nat), n < 256 ∧ 3 ≤ (s.slot n).failRun ∧ ((s.slot
    n).state = .active ∨ (s.slot n).state = .shadow) ∧ roleKind (s.slot n).role = 3 :=
  ⟨tenS { runSlot with failRun := 3 }, 7, by decide +kernel⟩
theorem witness_TenantEventsComplete_engineFault : ∃ (s : State) (k : Nat), k < 32 ∧ !(s.engine k).fault :=
  ⟨tenS runSlot, 0, by decide +kernel⟩
theorem witness_TenantEventsComplete_refresh : ∃ (s : State) (t n : Nat), n < 256 ∧ (s.slot n).state = .active ∧
    (s.atTime t).refreshDue n ≠ [] :=
  ⟨tenS { runSlot with estateHandles := [9] }, 0, 7, by decide +kernel⟩
theorem witness_TenantEventsComplete_stale : ∃ (s : State) (t h : Nat), h < 1048576 ∧ (s.sigOwner h).owner ≠ 0 ∧
    (s.sigOwner h).ownerAt + 3 * s.ten.refresh * 1000000 ≤ s.nowAt t ∧ !(s.sigEstate h).stale :=
  ⟨sigEst { owner := 5, ownerAt := 5 }, 0, 1048575, by decide +kernel⟩

/-! PairCommandsComplete -/

theorem witness_PairCommandsComplete_roleSet : ∃ (s : State) (src : Source) (a : Assignment), Taken s src 0x1B01 ∧
    assignmentOk a s.net.berth ∧ (roleKind a.role = 2 → laneArmed (s.lane a.local_).state = false) ∧ !s.holdsActive a.role
    ∧ !s.store.settingsVolatile :=
  ⟨helmS (lane5 .active) false, sv, {
      role := 0x200000FF, local_ := 7, kind := .twin, partner := 4095, preferred := true }, by decide +kernel⟩
theorem witness_PairCommandsComplete_status : ∃ (s z : State) (src : Source) (r : Nat) (o : OwnRole), Taken s src
    0x1B02 ∧ z = s.seen ∧ z.ownRole r = some o :=
  ⟨helmS (lane5 .active) false, (helmS (lane5 .active) false).seen, sv, 0x20000005, lane5 .active, by decide +kernel,
      rfl, by decide +kernel⟩
theorem witness_PairCommandsComplete_swap : ∃ (s : State) (src : Source) (r : Nat) (o : OwnRole), Taken s src 0x1B03 ∧
    s.ownRole r = some o ∧ o.state = .active ∧ o.swap = none ∧ o.releaseDue = 0 ∧ (roleKind r = 2 → (s.lane o.local_).state
    ≠ .arming) ∧ s.partnerThere o ∧ (s.streamTx o.partner).unacked.length < 64 :=
  ⟨helmS (lane5 .active) false, sv, 0x20000005, lane5 .active, by decide +kernel⟩
theorem witness_PairCommandsComplete_compare : ∃ (s : State) (src : Source) (d o c : Nat), Taken s src 0x1B04 ∧ 66 ≤ d
    ∧ d ≤ 13107 ∧ 66 ≤ o ∧ o ≤ 32768 ∧ 66 ≤ c ∧ c ≤ 3276 :=
  ⟨helmS (lane5 .active) false, sv, 66, 32768, 3276, by decide +kernel⟩
theorem witness_PairCommandsComplete_counters : ∃ (s : State) (src : Source) (r : Nat) (o : OwnRole), Taken s src
    0x1B05 ∧ s.ownRole r = some o :=
  ⟨helmS { lane5 .active with helmConflict := 5 } false, sv, 0x20000005, { lane5 .active with helmConflict := 5 },
      by decide +kernel⟩

/-! TakingTheHelmEventsComplete -/

theorem witness_TakingTheHelmEventsComplete_takeRole : ∃ (s : State) (t r : Nat) (o : OwnRole), RoleVacant s t r o ∧
    roleKind r ≠ 2 ∧ roleKind r ≠ 4 :=
  ⟨alone (ten7 .none_), 0, 0x30000007, ten7 .none_, by decide +kernel⟩
theorem witness_TakingTheHelmEventsComplete_takeLane : ∃ (s : State) (t r : Nat) (o : OwnRole), RoleVacant s t r o ∧
    roleKind r = 2 ∧ s.laneRole o.local_ = some o ∧ (s.atTime t).lineLow o.local_ :=
  ⟨alone (lane5 .none_), 0, 0x20000005, lane5 .none_, by decide +kernel⟩
theorem witness_TakingTheHelmEventsComplete_standBy : ∃ (s : State) (r e : Nat) (o : OwnRole), RoleOpen s r o ∧
    s.otherHolder r = some (o.partner, e) ∧ o.paired :=
  ⟨helmS (lane5 .none_) true, 0x20000005, 1, lane5 .none_, by decide +kernel⟩
theorem witness_TakingTheHelmEventsComplete_fallReady : ∃ (s : State) (t n : Nat) (o : OwnRole), n < 8 ∧ s.power.on ∧
    s.laneRole n = some o ∧ o.mayTakeOver ∧ (s.atTime t).permissive n :=
  ⟨helmS lane5r true, 0, 0, lane5r, by decide +kernel⟩
theorem witness_TakingTheHelmEventsComplete_fallOther : ∃ (s : State) (n : Nat), n < 8 ∧ s.power.on ∧ !((s.laneRole
    n).any fun o => o.state == .standby) :=
  ⟨helmS (lane5 .active) false, 0, by decide +kernel⟩
theorem witness_TakingTheHelmEventsComplete_raise : ∃ (s : State) (t n : Nat) (o : OwnRole), n < 8 ∧ (s.lane
    n).wantHelm ∧ !(s.lane n).helmOut ∧ (s.atTime t).lineLow n ∧ s.laneRole n = some o ∧ o.state = .standby :=
  ⟨helmL lane5r true fun l => { l with wantHelm := true }, 0, 0, lane5r, by decide +kernel⟩
theorem witness_TakingTheHelmEventsComplete_raiseUnheld : ∃ (s : State) (t n : Nat) (o : OwnRole), n < 8 ∧ (s.lane
    n).wantHelm ∧ !(s.lane n).helmOut ∧ (s.atTime t).lineLow n ∧ s.laneRole n = some o ∧ o.state = .none_ ∧ s.ownRole
    o.role = some o :=
  ⟨helmL (lane5 .none_) false fun l => { l with wantHelm := true }, 0, 0, lane5 .none_, by decide +kernel⟩
theorem witness_TakingTheHelmEventsComplete_conflict : ∃ (s : State) (t n a : Nat) (o : OwnRole), n < 8 ∧ (s.lane
    n).helmOut ∧ (s.lane n).helmRaisedAt = some a ∧ s.nowAt t ≤ a + 1000 ∧ s.laneRole n = some o ∧ s.ownRole o.role = some
    o ∧ o.state = .active ∧ o.takeoverAt = none :=
  ⟨helmL (lane5 .active) false fun l => { l with helmOut := true, helmRaisedAt := some 100000000000 }, 100000001000, 0,
      100000000000, lane5 .active, by decide +kernel⟩
theorem witness_TakingTheHelmEventsComplete_retryWait : ∃ (s : State) (t n a : Nat) (o : OwnRole), n < 8 ∧ (s.lane
    n).helmRetryAt = some a ∧ a ≤ s.nowAt t ∧ !(s.lane n).helmOut ∧ s.laneRole n = some o ∧ s.otherHolder o.role = none ∧
    !(s.atTime t).lineLow n :=
  ⟨helmL (lane5 .none_) false fun l => { l with helmRetryAt := some 5, helmIn := true }, 0, 0, 5, lane5 .none_,
      by decide +kernel⟩
theorem witness_TakingTheHelmEventsComplete_retryTake : ∃ (s : State) (t n a : Nat) (o : OwnRole), n < 8 ∧ (s.lane
    n).helmRetryAt = some a ∧ a ≤ s.nowAt t ∧ !(s.lane n).helmOut ∧ s.laneRole n = some o ∧ s.otherHolder o.role = none ∧
    (s.atTime t).lineLow n ∧ o.state = .none_ ∧ s.ownRole o.role = some o :=
  ⟨helmL (lane5 .none_) false fun l => { l with helmRetryAt := some 5 }, 0, 0, 5, lane5 .none_, by decide +kernel⟩
theorem witness_TakingTheHelmEventsComplete_takeoverToken : ∃ (s : State) (r : Nat) (o : OwnRole), s.ownRole r = some o
    ∧ o.mayTakeOver ∧ roleKind r ≠ 2 ∧ o.peerReleased ∧ ¬(roleKind r = 3 ∧ (s.slot o.local_).state = .shadow) :=
  ⟨helmS { coordr with peerReleased := true } true, 0x50000000, { coordr with peerReleased := true }, by decide +kernel⟩
theorem witness_TakingTheHelmEventsComplete_takeoverLane : ∃ (s : State) (r : Nat) (o : OwnRole), s.ownRole r = some o
    ∧ o.mayTakeOver ∧ roleKind r = 2 ∧ (s.lane o.local_).helmOut ∧ (s.lane o.local_).state = .shadow ∧ (s.lane
    o.local_).peerState ≠ 2 :=
  ⟨helmL lane5r true fun l => { l with state := .shadow, helmOut := true, peerState := 3 }, 0x20000005, lane5r,
      by decide +kernel⟩
theorem witness_TakingTheHelmEventsComplete_spindle : ∃ (s : State) (n : Nat) (o : OwnRole), n < 8 ∧ (s.lane n).loops ∧
    s.laneRole n = some o ∧ s.ownRole o.role = some o ∧ o.state = .active :=
  ⟨driven, 0, lane5 .active, by decide +kernel⟩
theorem witness_TakingTheHelmEventsComplete_modelEngine : ∃ (s : State) (p n : Nat) (o : OwnRole), p < 128 ∧
    s.tablesRun ∧ s.modelled p ≠ [] ∧ s.laneOfPort p = some n ∧ s.laneRole n = some o ∧ s.ownRole o.role = some o ∧ o.state
    = .active :=
  ⟨oneCell driven, 5, 0, lane5 .active, by decide +kernel⟩
theorem witness_TakingTheHelmEventsComplete_keepSent : ∃ (s : State) (t r : Nat) (o : OwnRole), s.netRuns ∧ s.ownRole r
    = some o ∧ o.paired ∧ roleKind r = 5 ∧ o.state = .active ∧ o.releaseDue ≠ 1 ∧ o.keepUnacked = [] ∧ !o.keepAt.any (fun a
    => decide (s.nowAt t < a + 10000000)) ∧ s.partnerThere o :=
  ⟨helmS (coord .active) false, 0, 0x50000000, coord .active, by decide +kernel⟩
theorem witness_TakingTheHelmEventsComplete_keepMissed : ∃ (s : State) (t r : Nat) (o : OwnRole), s.netRuns ∧ s.ownRole
    r = some o ∧ o.paired ∧ roleKind r = 5 ∧ o.mayTakeOver ∧ o.keeps = [] ∧ !o.keepAt.any (fun a => decide (s.nowAt t < a +
    10000000)) :=
  ⟨helmS coordr true, 0, 0x50000000, coordr, by decide +kernel⟩
theorem witness_TakingTheHelmEventsComplete_tenantTaken : ∃ (s : State) (t r p : Nat) (o : OwnRole) (g : Graph),
    s.netRuns ∧ s.ownRole r = some o ∧ o.paired ∧ roleKind r = 3 ∧ o.mayTakeOver ∧ p ≤ (s.atTime t).pos ∧ (s.slot
    o.local_).running = some g ∧ (s.slot o.local_).state = .shadow ∧ s.groupPos g.group (s.slot o.local_).publishAt = p ∧
    !o.keeps.contains (s.keepBefore g (s.slot o.local_).publishAt) :=
  ⟨shadowTen ten7r, 0, 0x30000007, (shadowTen ten7r).groupPos 0 40, ten7r, graphA, by decide +kernel⟩

/-! HelmMessagesAndMirrorsComplete -/

theorem witness_HelmMessagesAndMirrorsComplete_keep : ∃ (s : State) (l : Link) (h : GHead) (m : HelmMsg) (o : OwnRole),
    FromPartner s l h (.helm m) m.role m.format o ∧ m.kind = hmKeep :=
  ⟨helmS lane5r true, .twin1, headHelm, helmOf hmKeep, lane5r, by decide +kernel⟩
theorem witness_HelmMessagesAndMirrorsComplete_release : ∃ (s : State) (l : Link) (h : GHead) (m : HelmMsg) (o :
    OwnRole), FromPartner s l h (.helm m) m.role m.format o ∧ m.kind = hmRelease :=
  ⟨helmS lane5r true, .lanA, headHelm, helmOf hmRelease, lane5r, by decide +kernel⟩
theorem witness_HelmMessagesAndMirrorsComplete_taken : ∃ (s : State) (l : Link) (h : GHead) (m : HelmMsg) (o :
    OwnRole), FromPartner s l h (.helm m) m.role m.format o ∧ m.kind = hmTaken ∧ o.swap = none ∧ s.power.beach = none ∧
    s.power.part = none :=
  ⟨helmS lane5r true, .twin0, headHelm, helmOf hmTaken, lane5r, by decide +kernel⟩
theorem witness_HelmMessagesAndMirrorsComplete_swapRequest : ∃ (s : State) (t : Nat) (l : Link) (h : GHead) (m :
    HelmMsg) (o : OwnRole), FromPartner s l h (.helm m) m.role m.format o ∧ m.kind = hmSwapRequest ∧ o.state = .standby ∧
    o.sync = .inSync ∧ o.kind ≠ .none_ ∧ o.cleanSince + 1000000000 ≤ s.nowAt t ∧ (s.streamTx o.partner).unacked.length < 64
    :=
  ⟨helmS lane5r true, 0, .lanA, headHelm, helmOf hmSwapRequest, lane5r, by decide +kernel⟩
theorem witness_HelmMessagesAndMirrorsComplete_swapReady : ∃ (s : State) (l : Link) (h : GHead) (m : HelmMsg) (o :
    OwnRole), FromPartner s l h (.helm m) m.role m.format o ∧ m.kind = hmSwapReady ∧ m.result = 2 ∧ o.state = .active ∧
    o.swap.isSome ∧ roleKind m.role = 2 ∧ (s.lane o.local_).cfg.isSome :=
  ⟨helmS { lane5 .active with swap := some sv } false, .lanB, headHelm, helmOf hmSwapReady,
      { lane5 .active with swap := some sv }, by decide +kernel⟩
theorem witness_HelmMessagesAndMirrorsComplete_testStart : ∃ (s : State) (l : Link) (h : GHead) (m : HelmMsg) (o :
    OwnRole), FromPartner s l h (.helm m) m.role m.format o ∧ m.kind = hmTestStart ∧ o.testAt = none :=
  ⟨helmS lane5r true, .lanB, headHelm, helmOf hmTestStart, lane5r, by decide +kernel⟩
theorem witness_HelmMessagesAndMirrorsComplete_testResult : ∃ (s : State) (l : Link) (h : GHead) (m : HelmMsg) (o :
    OwnRole), FromPartner s l h (.helm m) m.role m.format o ∧ m.kind = hmTestResult ∧ o.testOwn = none :=
  ⟨helmS lane5r true, .lanB, headHelm, helmOf hmTestResult, lane5r, by decide +kernel⟩
theorem witness_HelmMessagesAndMirrorsComplete_fullRequest : ∃ (s : State) (l : Link) (h : GHead) (m : HelmMsg) (o :
    OwnRole), FromPartner s l h (.helm m) m.role m.format o ∧ m.kind = hmFullRequest :=
  ⟨helmS (lane5 .active) false, .lanB, headHelm, helmOf hmFullRequest, lane5 .active, by decide +kernel⟩
theorem witness_HelmMessagesAndMirrorsComplete_mirrorPart : ∃ (s : State) (l : Link) (h : GHead) (f : MirrorFrag) (o :
    OwnRole), FromPartner s l h (.mirror f) f.role f.format o ∧ f.index < f.count ∧ f.count ≤ 1024 ∧ 2 ≤ f.count ∧ o.frags
    = [] :=
  ⟨helmS lane5r true, .twin0, headMir, fragOf false 2 [], lane5r, by decide +kernel⟩
theorem witness_HelmMessagesAndMirrorsComplete_mirrorWhole : ∃ (s : State) (l : Link) (h : GHead) (f : MirrorFrag) (o :
    OwnRole) (a b c : Nat), FromPartner s l h (.mirror f) f.role f.format o ∧ f.index = 0 ∧ f.count = 1 ∧ f.full ∧ f.items
    = [.status a b c] ∧ o.state = .standby ∧ o.frags = [] ∧ !o.fullApplied ∧ o.genApplied = none :=
  ⟨helmS lane5r true, .twin0, headMir, fragOf true 1 [.status 2 3 4], lane5r, 2, 3, 4, by decide +kernel⟩
theorem witness_HelmMessagesAndMirrorsComplete_loop : ∃ (s : State) (n : Nat) (i : LoopItem) (o : OwnRole), LoopComes s
    n o i ∧ i.updated ≠ 0 ∧ (s.lane n).state ≠ .shadow :=
  ⟨helmL lane5r true fun l => { l with state := .disarmed }, 0, loop9, lane5r, by decide +kernel⟩
theorem witness_HelmMessagesAndMirrorsComplete_loopShadow : ∃ (s : State) (n m : Nat) (i : LoopItem) (o : OwnRole) (p :
    Int × Int × Nat), LoopComes s n o i ∧ (s.lane n).state = .shadow ∧ m < 6 ∧ i.updated.testBit m ∧ i.phases[m]? = some p
    :=
  ⟨helmL lane5r true fun l => { l with state := .shadow }, 0, 1, loop9, lane5r, (4, 5, 6), by decide +kernel⟩

/-! SelfTestAndSyncEventsComplete -/

theorem witness_SelfTestAndSyncEventsComplete_selfTest : ∃ (s : State) (t r a : Nat) (o : OwnRole), s.ownRole r = some
    o ∧ o.testOwn = none ∧ o.testPeer = none ∧ o.testAt = some a ∧ a ≤ s.nowAt t ∧ o.kind ≠ .none_ ∧ (s.streamTx
    o.partner).unacked.length < 64 :=
  ⟨helmS { lane5r with testAt := some 5 } true, 0, 0x20000005, 5, { lane5r with testAt := some 5 }, by decide +kernel⟩
theorem witness_SelfTestAndSyncEventsComplete_timeoutPeer : ∃ (s : State) (t r a : Nat) (o : OwnRole), s.ownRole r =
    some o ∧ o.testOwn = some true ∧ o.testPeer = none ∧ o.testAt = some a ∧ a + 5000000 ≤ s.nowAt t :=
  ⟨helmS { lane5r with testAt := some 5, testOwn := some true } true, 0, 0x20000005, 5,
      { lane5r with testAt := some 5, testOwn := some true }, by decide +kernel⟩
theorem witness_SelfTestAndSyncEventsComplete_timeoutOwn : ∃ (s : State) (t r a : Nat) (o : OwnRole), s.ownRole r =
    some o ∧ o.testOwn = none ∧ o.testPeer = some true ∧ o.testAt = some a ∧ a + 5000000 ≤ s.nowAt t ∧ o.state = .standby
    :=
  ⟨helmS { lane5r with testAt := some 5, testPeer := some true } true, 0, 0x20000005, 5,
      { lane5r with testAt := some 5, testPeer := some true }, by decide +kernel⟩
theorem witness_SelfTestAndSyncEventsComplete_slicePass : ∃ (s : State) (r : Nat) (o : OwnRole), s.ownRole r = some o ∧
    o.state = .standby :=
  ⟨helmS lane5r true, 0x20000005, lane5r, by decide +kernel⟩
theorem witness_SelfTestAndSyncEventsComplete_sliceFail : ∃ (s : State) (r : Nat) (o : OwnRole), s.ownRole r = some o ∧
    o.state = .standby ∧ roleKind r ≠ 3 :=
  ⟨helmS lane5r true, 0x20000005, lane5r, by decide +kernel⟩
theorem witness_SelfTestAndSyncEventsComplete_askFull : ∃ (s : State) (t r : Nat) (o : OwnRole), s.netRuns ∧ s.ownRole
    r = some o ∧ o.state = .standby ∧ o.sync = .syncing ∧ !o.fullApplied ∧ roleKind r ≠ 5 ∧ (o.fullReqAt = 0 ∨ o.fullReqAt
    + 10 ^ 9 ≤ s.nowAt t) ∧ o.kind ≠ .none_ ∧ (s.streamTx o.partner).unacked.length < 64 :=
  ⟨helmS { lane5 .standby with sync := .syncing } true, 0, 0x20000005, { lane5 .standby with sync := .syncing },
      by decide +kernel⟩
theorem witness_SelfTestAndSyncEventsComplete_stale : ∃ (s : State) (t r : Nat) (o : OwnRole), s.ownRole r = some o ∧
    o.state = .standby ∧ o.sync = .inSync ∧ roleKind r ≠ 5 ∧ o.genAppliedAt + 8 * s.roleCycleNs r < s.nowAt t :=
  ⟨helmS lane5r true, 0, 0x20000005, lane5r, by decide +kernel⟩
theorem witness_SelfTestAndSyncEventsComplete_inSync : ∃ (s : State) (t r : Nat) (o : OwnRole), s.ownRole r = some o ∧
    o.state = .standby ∧ !s.formatGap o ∧ o.cleanSince + 10 ^ 9 ≤ s.nowAt t ∧ o.sync = .syncing ∧ (o.fullApplied ∨ roleKind
    r = 5) ∧ (roleKind r = 2 → !s.twinGone) :=
  ⟨helmS { lane5 .standby with sync := .syncing, fullApplied := true } true, 0, 0x20000005,
      { lane5 .standby with sync := .syncing, fullApplied := true }, by decide +kernel⟩
theorem witness_SelfTestAndSyncEventsComplete_staleEnds : ∃ (s : State) (t r : Nat) (o : OwnRole), s.ownRole r = some o
    ∧ o.state = .standby ∧ !s.formatGap o ∧ o.cleanSince + 10 ^ 9 ≤ s.nowAt t ∧ o.sync = .stale ∧ s.nowAt t ≤
    o.genAppliedAt + 8 * s.roleCycleNs r ∧ (roleKind r = 2 → !s.twinGone) :=
  ⟨helmS { lane5 .standby with sync := .stale, genAppliedAt := 100000000000 } true, 0, 0x20000005,
      { lane5 .standby with sync := .stale, genAppliedAt := 100000000000 }, by decide +kernel⟩
theorem witness_SelfTestAndSyncEventsComplete_twinDown : ∃ (s : State) (t i : Nat), i < 2 ∧ s.netRuns ∧ (s.net.own.any
    fun o => o.kind == .twin) ∧ !tget false s.net.twinDown i ∧ tget 0 s.net.twinLast i + 1000000 ≤ s.nowAt t :=
  ⟨helmS lane5r true, 0, 1, by decide +kernel⟩

/-! CanCommandsComplete -/

theorem witness_CanCommandsComplete_config : ∃ (s : State) (src : Source) (k : Nat) (c : CanConfig), Taken s src 0x1E01
    ∧ s.canConfigOk k c ∧ bitTimingOk c :=
  ⟨canS (canT tx7 false), sv, 1, canCfg, by decide +kernel⟩
theorem witness_CanCommandsComplete_filter : ∃ (s : State) (src : Source) (k i : Nat) (f : CanFilter), Taken s src
    0x1E02 ∧ k < 2 ∧ i < 64 ∧ f.formats < 8 ∧ idOk f.ide f.id ∧ idOk f.ide f.mask :=
  ⟨canS canC, sv, 1, 63, { ide := true, id := 2 ^ 29 - 1, mask := 0, formats := 7, target := .hp }, by decide +kernel⟩
theorem witness_CanCommandsComplete_send : ∃ (s : State) (src : Source) (k b : Nat) (f : CanFrame), Taken s src 0x1E03
    ∧ k < 2 ∧ b < 32 ∧ canFrameOk f ∧ (s.txBuf k b).owner = .path src.path ∧ !(s.canCtl k).reserved b ∧ (s.txBuf k b).req =
    none ∧ (s.txBuf k b).heldRec = none ∧ !(s.canCtl k).busOff ∧ (s.canCtl k).mode = .normal ∧ (f.fdf → ((s.canCtl
    k).cfg.any fun g => g.fd)) :=
  ⟨canS canC, sv, 1, 31, frm7, by decide +kernel⟩
theorem witness_CanCommandsComplete_abort : ∃ (s : State) (src : Source) (k b : Nat) (f : CanFrame) (r : TxReq), Taken
    s src 0x1E03 ∧ k < 2 ∧ b < 32 ∧ canFrameOk f ∧ (s.txBuf k b).owner = .path src.path ∧ !(s.canCtl k).reserved b ∧
    (s.txBuf k b).req = some r ∧ !r.onBus :=
  ⟨canS (canT tx7 false), sv, 1, 31, {}, tx7, by decide +kernel⟩
theorem witness_CanCommandsComplete_receive : ∃ (s : State) (src : Source) (k w n : Nat) (c : CanConfig), Taken s src
    0x1E04 ∧ k < 2 ∧ w < 4 ∧ 1 ≤ n ∧ n ≤ 32 ∧ (s.canCtl k).cfg = some c ∧ canTarget c w = .path src.path :=
  ⟨canS { canC with paths := [(0, [[1], [2]])] }, sv, 1, 0, 1, canCfg, by decide +kernel⟩
theorem witness_CanCommandsComplete_recover : ∃ (s : State) (src : Source) (k : Nat), Taken s src 0x1E05 ∧ k < 2 ∧
    (s.canCtl k).busOff :=
  ⟨canS { canC with busOff := true }, sv, 1, by decide +kernel⟩
theorem witness_CanCommandsComplete_status : ∃ (s z : State) (src : Source) (k : Nat), Taken s src 0x1E06 ∧ k < 2 ∧ z =
    s.seen :=
  ⟨canS canC, (canS canC).seen, sv, 1, by decide +kernel, by decide +kernel, rfl⟩
theorem witness_CanCommandsComplete_masterOn : ∃ (s : State) (src : Source) (k : Nat) (m : TimeMaster), Taken s src
    0x1E07 ∧ k < 2 ∧ m.container < 4096 ∧ idOk m.ide m.identifier ∧ 10 ≤ m.periodMs ∧ m.periodMs ≤ 10000 ∧ ((s.canCtl
    k).cfg.any fun c => c.fd) ∧ (s.canCtl k).master = none :=
  ⟨canS canC, sv, 1, master4, by decide +kernel⟩
theorem witness_CanCommandsComplete_masterOff : ∃ (s : State) (src : Source) (k : Nat) (m m0 : TimeMaster), Taken s src
    0x1E07 ∧ k < 2 ∧ m.container < 4096 ∧ idOk m.ide m.identifier ∧ 10 ≤ m.periodMs ∧ m.periodMs ≤ 10000 ∧ ((s.canCtl
    k).cfg.any fun c => c.fd) ∧ (s.canCtl k).master = some m0 ∧ (s.canCtl (1 - k)).master = none :=
  ⟨timeS .active, sv, 1, master4, master4, by decide +kernel⟩
theorem witness_CanCommandsComplete_counters : ∃ (s : State) (src : Source) (k : Nat), Taken s src 0x1E08 ∧ k < 2 :=
  ⟨canS { canC with sent := 5 }, sv, 1, by decide +kernel⟩

/-! CanBusEventsComplete -/

theorem witness_CanBusEventsComplete_start : ∃ (s : State) (k b : Nat) (r : TxReq) (f : CanFrame), k < 2 ∧ s.power.on ∧
    (s.canCtl k).mode = .normal ∧ (s.canCtl k).air = none ∧ !(s.canCtl k).busOff ∧ (s.canCtl k).winner = some b ∧ (s.txBuf
    k b).req = some r ∧ !r.reference ∧ f = { r.frame with esi := r.frame.fdf && (s.canCtl k).passive } :=
  ⟨canS (canT tx7 false), 1, 31, tx7, tx7.frame, by decide +kernel⟩
theorem witness_CanBusEventsComplete_idle : ∃ (s : State) (k : Nat), k < 2 ∧ s.power.on ∧ (s.canCtl k).mode ≠ .disabled
    ∧ (s.canCtl k).air = none ∧ (s.canCtl k).winner = none :=
  ⟨canS { canC with integrating := true }, 1, by decide +kernel⟩
theorem witness_CanBusEventsComplete_sent : ∃ (s : State) (k b : Nat) (r : TxReq) (f : CanFrame), k < 2 ∧ s.power.on ∧
    (s.canCtl k).air = some f ∧ (s.canCtl k).attempt = some b ∧ (s.txBuf k b).req = some r :=
  ⟨canS (canT onBus7 true), 1, 31, onBus7, onBus7.frame, by decide +kernel⟩
theorem witness_CanBusEventsComplete_failed : ∃ (s : State) (k b e : Nat) (r : TxReq) (f : CanFrame), k < 2 ∧
    s.power.on ∧ 2 ≤ e ∧ e ≤ 6 ∧ (s.canCtl k).air = some f ∧ (s.canCtl k).attempt = some b ∧ (s.txBuf k b).req = some r ∧
    !r.reference ∧ r.ending = none ∧ r.attempts ≤ (s.txBuf k b).retry :=
  ⟨canS (canT onBus7 true), 1, 31, 2, onBus7, onBus7.frame, by decide +kernel⟩
theorem witness_CanBusEventsComplete_usedUp : ∃ (s : State) (k b e : Nat) (r : TxReq) (f : CanFrame), k < 2 ∧
    s.power.on ∧ 1 ≤ e ∧ e ≤ 6 ∧ (s.canCtl k).air = some f ∧ (s.canCtl k).attempt = some b ∧ (s.txBuf k b).req = some r ∧
    !r.reference ∧ r.ending = none ∧ (s.txBuf k b).retry < r.attempts :=
  ⟨canS (canT { onBus7 with attempts := 4 } true), 1, 31, 1, { onBus7 with attempts := 4 }, onBus7.frame, by decide +kernel⟩
theorem witness_CanBusEventsComplete_timeout : ∃ (s : State) (t k b : Nat) (r : TxReq) (c : CanConfig), k < 2 ∧
    (s.txBuf k b).req = some r ∧ r.ending = none ∧ !r.onBus ∧ (s.canCtl k).cfg = some c ∧ r.acceptedAt + c.txTimeout *
    1000000 ≤ s.nowAt t :=
  ⟨canS (canT tx7 false), 0, 1, 31, tx7, canCfg, by decide +kernel⟩
theorem witness_CanBusEventsComplete_room : ∃ (s : State) (k b : Nat) (o : TxOutcome) (c : CanConfig) (p : Path), k < 2
    ∧ (s.txBuf k b).heldRec = some o ∧ (s.canCtl k).cfg = some c ∧ c.txEvent = .path p ∧ entriesOf (tget [] (s.canCtl
    k).paths 3) < 256 :=
  ⟨canS { canC with bufs := tset canC.bufs 31 { heldRec := some out7 } }, 1, 31, out7, canCfg, .service, by decide +kernel⟩
theorem witness_CanBusEventsComplete_receivedPath : ∃ (s : State) (k i : Nat) (f : CanFrame) (c : CanConfig) (p :
    Path), CanStores s k c f ∧ (s.canCtl k).matching f = some (i, .fifo0) ∧ c.fifo0 = .path p ∧ (s.canCtl k).rec_ ≤ 127 ∧
    entriesOf (tget [] (s.canCtl k).paths 0) + 2 ≤ 256 :=
  ⟨canS canC, 1, 5, frm7, canCfg, .service, by decide +kernel⟩
theorem witness_CanBusEventsComplete_receivedQueue : ∃ (s : State) (k i q : Nat) (f : CanFrame) (c : CanConfig),
    CanStores s k c f ∧ (s.canCtl k).matching f = some (i, .fifo1) ∧ c.fifo1 = .queue q ∧ (s.queue q).k ≠ 0 ∧ f.data.length
    ≤ 48 ∧ (s.queue q).fill < (s.queue q).size :=
  ⟨canS canC, 1, 6, 1025, frmX, canCfg, by decide +kernel⟩
theorem witness_CanBusEventsComplete_noMatch : ∃ (s : State) (k : Nat) (f : CanFrame) (c : CanConfig), CanStores s k c
    f ∧ (s.canCtl k).matching f = none ∧ !c.noMatchFifo1 ∧ (s.canCtl k).rec_ ≤ 127 :=
  ⟨canS canC, 1, { frm7 with id := 8 }, canCfg, by decide +kernel⟩
theorem witness_CanBusEventsComplete_receiveError : ∃ (s : State) (k e : Nat), CanHears s k ∧ 2 ≤ e ∧ e ≤ 6 ∧ (s.canCtl
    k).rec_ < 248 :=
  ⟨canS { canC with rec_ := 247 }, 1, 6, by decide +kernel⟩
theorem witness_CanBusEventsComplete_exception : ∃ (s : State) (k : Nat), CanHears s k :=
  ⟨canS canC, 1, by decide +kernel⟩
theorem witness_CanBusEventsComplete_busOff : ∃ (s : State) (k : Nat), k < 2 ∧ 256 ≤ (s.canCtl k).tec ∧ !(s.canCtl
    k).busOff :=
  ⟨canS { canT tx7 false with tec := 256 }, 1, by decide +kernel⟩
theorem witness_CanBusEventsComplete_recovered : ∃ (s : State) (k : Nat), k < 2 ∧ (s.canCtl k).busOff ∧ (s.canCtl
    k).recovering ∧ (s.canCtl k).mode ≠ .disabled :=
  ⟨canS { canC with busOff := true, recovering := true }, 1, by decide +kernel⟩
theorem witness_CanBusEventsComplete_reference : ∃ (s : State) (t k : Nat) (m : TimeMaster) (o : OwnRole), (s.canCtl
    k).mode = .normal ∧ !(s.canCtl k).busOff ∧ (s.canCtl k).master = some m ∧ s.ownRole (containerRole m) = some o ∧
    o.state = .active ∧ o.local_ = k ∧ t % (m.periodMs * 1000000) = 0 ∧ (s.canCtl k).cfg.any (fun g => g.fd) ∧ (s.txBuf k
    31).req = none ∧ (s.txBuf k 31).heldRec = none :=
  ⟨timeS .active, 100000000000, 1, master4, ownT .active, by decide +kernel⟩
theorem witness_CanBusEventsComplete_timeTaken : ∃ (s : State) (t k : Nat) (m : TimeMaster) (o : OwnRole), s.netRuns ∧
    s.net.berth.isSome ∧ (s.power.state = .full ∨ s.power.state = .slack) ∧ s.power.beach = none ∧ s.power.part = none ∧
    s.sec.debug ≠ .invasive ∧ (s.canCtl k).master = some m ∧ s.ownRole (containerRole m) = some o ∧ s.unresolved
    (containerRole m) ∧ max (s.canCtl k).clearAt s.net.berthAt + 5 * 10 ^ 9 ≤ s.nowAt t :=
  ⟨timeS .none_, 0, 1, master4, ownT .none_, by decide +kernel⟩

/-! StoreAndRecorderCommandsComplete -/

theorem witness_StoreAndRecorderCommandsComplete_status : ∃ (s z : State) (src : Source), Taken s src 0x1F01 ∧ z = s.seen :=
  ⟨netS, netS.seen, sv, by decide +kernel, rfl⟩
theorem witness_StoreAndRecorderCommandsComplete_scrub : ∃ (s : State) (src : Source), Taken s src 0x1F02 ∧
    s.store.scrub = none :=
  ⟨netS, sv, by decide +kernel⟩
theorem witness_StoreAndRecorderCommandsComplete_measure : ∃ (s : State) (src : Source), Taken s src 0x1F03 ∧
    s.linePower ∧ s.store.measuring = none ∧ !s.guardedRuns :=
  ⟨linePowered, sv, by decide +kernel⟩
theorem witness_StoreAndRecorderCommandsComplete_wear : ∃ (s : State) (src : Source) (d : Nat), Taken s src 0x1F04 ∧ d < 2 :=
  ⟨netS, sv, 1, by decide +kernel⟩
theorem witness_StoreAndRecorderCommandsComplete_eventStatus : ∃ (s z : State) (src : Source), Taken s src 0x2001 ∧ z =
    s.seen :=
  ⟨ringS, ringS.seen, sv, by decide +kernel, rfl⟩
theorem witness_StoreAndRecorderCommandsComplete_eventRead : ∃ (s : State) (src : Source) (a n : Nat), Taken s src
    0x2002 ∧ 1 ≤ n ∧ n ≤ 64 ∧ s.recorder.ring ≠ [] ∧ a ≤ s.newestSeq :=
  ⟨ringS, sv, 0, 2, by decide +kernel⟩

/-! StoreAndRecorderEventsComplete -/

theorem witness_StoreAndRecorderEventsComplete_page : ∃ (s : State) (g : Nat) (o : Op), s.power.on ∧ s.store.running =
    some o ∧ o.kind = .settings g ∧ s.store.ops = [] ∧ s.store.suspended = none ∧ !s.store.deferred :=
  ⟨storeW fun a => { a with running := some (opOf (.settings 1)) }, 1, opOf (.settings 1), by decide +kernel⟩
theorem witness_StoreAndRecorderEventsComplete_pageAgain : ∃ (s : State) (g : Nat) (o : Op), s.power.on ∧
    s.store.running = some o ∧ o.kind = .settings g ∧ o.tries0 < 3 ∧ 0 ∉ o.given ∧ (s.device 0).used ∧ (s.recentRetries
    (s.device 0)).length < 64 :=
  ⟨storeW fun a => { a with running := some (opOf (.settings 1)) }, 1, opOf (.settings 1), by decide +kernel⟩
theorem witness_StoreAndRecorderEventsComplete_erase : ∃ (s : State) (k : Nat) (o : Op), s.power.on ∧ s.store.running =
    some o ∧ o.kind = .erase k ∧ s.store.ops = [] ∧ s.store.suspended = none :=
  ⟨storeW fun a => { a with running := some (opOf (.erase 0x180)) }, 0x180, opOf (.erase 0x180), by decide +kernel⟩
theorem witness_StoreAndRecorderEventsComplete_commit : ∃ (s : State) (c : Commit) (o : Op), s.power.on ∧
    s.store.commit = some c ∧ c.pagesLeft ≤ 1 ∧ s.store.running = some o ∧ o.kind = .commitPage ∧ !s.store.commitQueued :=
  ⟨storeW fun a => { a with running := some (opOf .commitPage), commit := some commit3 }, commit3, opOf .commitPage,
      by decide +kernel⟩
theorem witness_StoreAndRecorderEventsComplete_commitFailed : ∃ (s : State) (c : Commit) (o : Op), s.power.on ∧
    s.store.commit = some c ∧ c.pagesLeft ≤ 1 ∧ s.store.running = some o ∧ o.kind = .commitPage :=
  ⟨storeW fun a => { a with running := some (opOf .commitPage), commit := some commit3 }, commit3, opOf .commitPage,
      by decide +kernel⟩
theorem witness_StoreAndRecorderEventsComplete_retry : ∃ (s z : State) (t v : Nat), z = s.atTime t ∧ s.power.on ∧
    s.power.lossAt = none ∧ s.store.ops.any z.checkDue ∧ s.store.measuring = none ∧ s.store.measuredBoot ∧
    ({ z with store := { s.store with vHu := v } } : State).holdupOk :=
  ⟨storeW fun a => { a with
      ops := [{ prio := 3, kind := .settings 1 }], measuredBoot := true, cHu := some (1 / 100) }, (storeW fun a => { a with
      ops := [{ prio := 3, kind := .settings 1 }], measuredBoot := true, cHu := some (1 / 100) }).atTime 0, 0, 40000, rfl,
      by decide +kernel⟩
theorem witness_StoreAndRecorderEventsComplete_deferred : ∃ (s z : State) (t : Nat), z = s.atTime t ∧ s.power.on ∧
    s.store.ops.any z.nowLate :=
  ⟨storeW fun a => { a with ops := [{ prio := 3, kind := .settings 1 }] }, (storeW fun a =>
      { a with ops := [{ prio := 3, kind := .settings 1 }] }).atTime 0, 0, rfl, by decide +kernel⟩
theorem witness_StoreAndRecorderEventsComplete_measurement : ∃ (s : State), s.linePower ∧ s.power.state ≠ .bareRock ∧
    s.store.measuredBoot ∧ s.store.measuring = none ∧ !s.guardedRuns ∧ s.store.measureDue :=
  ⟨{ linePowered with store := { linePowered.store with measureDue := true, measuredBoot := true } }, by decide +kernel⟩
theorem witness_StoreAndRecorderEventsComplete_measured : ∃ (s : State) (t v a v0 : Nat), s.power.on ∧
    s.store.measuring = some (a, v0) ∧ a + 50000000 ≤ s.nowAt t ∧ v < v0 :=
  ⟨storeW fun a => { a with measuring := some (5, 40000) }, 0, 34900, 5, 40000, by decide +kernel⟩
theorem witness_StoreAndRecorderEventsComplete_batch : ∃ (s : State), s.power.on ∧ (s.power.state = .full ∨
    s.power.state = .slack) ∧ 64 ≤ s.recorder.cache.length ∧ s.recorder.lostNow = 0 :=
  ⟨{ netS with recorder := { netS.recorder with cache := List.replicate 65 (rec1 1) } }, by decide +kernel⟩
theorem witness_StoreAndRecorderEventsComplete_batchLate : ∃ (s : State) (t : Nat) (r : EventRec), s.power.on ∧
    (s.power.state = .full ∨ s.power.state = .slack) ∧ s.recorder.cache = [r] ∧ r.time + 100000000 ≤ s.nowAt t ∧
    s.recorder.lostNow = 0 :=
  ⟨{ netS with recorder := { netS.recorder with cache := [rec1 1] } }, 0, rec1 1, by decide +kernel⟩
theorem witness_StoreAndRecorderEventsComplete_scrubClean : ∃ (s : State), s.power.on ∧ s.power.state ≠ .bareRock ∧
    s.power.state ≠ .beached ∧ s.store.scrub.isSome ∧ s.storeStage ≠ .volatile ∧ (∀ k, k < 2 → 4 ≤ (s.device
    k).usableSlots) ∧ !s.settingsGone :=
  ⟨storeW fun a => { a with scrub := some (5, 0) }, by decide +kernel⟩
theorem witness_StoreAndRecorderEventsComplete_scrubRepair : ∃ (s : State) (d : Nat), s.power.on ∧ s.power.state ≠
    .bareRock ∧ s.power.state ≠ .beached ∧ s.store.scrub.isSome ∧ !s.model.native ∧ d < 2 ∧ (s.device d).used :=
  ⟨scrubS, 1, by decide +kernel⟩

/-! StepRunsTheFrontCommand -/

theorem witness_StepRunsTheFrontCommand_idle :
    State.reset.pending = [] := by decide +kernel

/-! EveryStepTakesOneCommandOffTheQueue -/

theorem witness_EveryStepTakesOneCommandOffTheQueue_exec :
    answers (exec (.powerStatus sv) State.reset) = true ∧ answers (step
        { State.reset with pending := [.powerStatus sv] }) = true := by decide +kernel

/-! MemoriesStayCanonical -/

theorem witness_MemoriesStayCanonical_step :
    Memory.wf chained.fab.lpddr = true ∧ Memory.wf chained.fab.sram = true ∧ answers (step
        { chained with pending := [.powerStatus sv] }) = true := by decide +kernel
theorem witness_MemoriesStayCanonical_exec :
    Memory.wf chained.fab.lpddr = true ∧ Memory.wf chained.fab.sram = true ∧ answers (exec (.powerStatus sv) chained) =
        true := by decide +kernel

/-! LifecycleMovesOnlyAsItsTableSays -/

theorem witness_LifecycleMovesOnlyAsItsTableSays_lifecycle :
    answers (step { served .turned with pending := [.lifecycleSeal sv] }) (fun u => u.sec.lifecycle == .sealed) = true
        := by decide +kernel
theorem witness_LifecycleMovesOnlyAsItsTableSays_keys :
    answers (step { served .turned with pending := [.lifecycleTurn sv turnReq] }) (fun u => u.sec.keyGens.length == 1)
        = true := by decide +kernel

/-! FiringsAtOneInstantKeepTheirOrder -/

theorem witness_FiringsAtOneInstantKeepTheirOrder_waits :
    (18 < 1024 ∧ (∀ a ∈ twoDue.table.armed, a.entry < 1024) ∧ (∀ a ∈ twoDue.table.armed, a.entry = 18 → ∃ b ∈
        twoDue.table.armed, b.t0 < a.t0 ∨ (b.t0 = a.t0 ∧ (kindOrder b.content.kind < kindOrder a.content.kind ∨ (kindOrder
        b.content.kind = kindOrder a.content.kind ∧ b.entry < a.entry))))) := by decide +kernel
theorem witness_FiringsAtOneInstantKeepTheirOrder_first :
    firedOf 8 { kind := 1 } 500 0 0 ∈ twoDue.table.armed ∧ 500 ≤ twoDue.now ∧ (∀ b ∈ twoDue.table.armed, b.entry = 8 →
        b = firedOf 8 { kind := 1 } 500 0 0) ∧ (∀ b ∈ twoDue.table.armed, ¬ (b.t0 < 500 ∨ (b.t0 = 500 ∧ (kindOrder
        b.content.kind < kindOrder 1 ∨ (kindOrder b.content.kind = kindOrder 1 ∧ b.entry < 8))))) := by decide +kernel

/-! AWriteLeavesAnArmedFiringItsOldContents -/

theorem witness_AWriteLeavesAnArmedFiringItsOldContents_write :
    Taken servedArmed sv 0x0402 ∧ answers (exec (.tideEntrySet sv 900 trigWord) servedArmed) = true ∧
        servedArmed.table.armed ≠ [] := by decide +kernel
theorem witness_AWriteLeavesAnArmedFiringItsOldContents_pulse :
    1023 < 1024 := by decide +kernel
theorem witness_AWriteLeavesAnArmedFiringItsOldContents_sequence :
    1023 < 1024 := by decide +kernel
theorem witness_AWriteLeavesAnArmedFiringItsOldContents_next :
    answers (exec (.tideFiringArmed 7 800 0 64) fullDue) (fun u => u.table.armed.length == 1) = true := by decide +kernel

/-! ARangeChangeDrivesZeroFirst -/

theorem witness_ARangeChangeDrivesZeroFirst_change :
    Taken dacS sv 0x0902 ∧ 7 < 8 ∧ 1 < 2 ∧ 65535 < 65536 ∧ (dacS.dac 7).source = .path sv.path ∧ 1 ≠ (dacS.dac 7).range
        := by decide +kernel
theorem witness_ARangeChangeDrivesZeroFirst_within :
    Taken (dacS.updDac 7 fun d => { d with settleUntil := some 2000000000 }) sv 0x0902 ∧ 7 < 8 ∧ 65535 < 65536 ∧
        ((dacS.updDac 7 fun d => { d with settleUntil := some 2000000000 }).dac 7).range < 2 ∧ ((dacS.updDac 7 fun d =>
        { d with settleUntil := some 2000000000 }).dac 7).source = .path sv.path ∧ ((dacS.updDac 7 fun d =>
        { d with settleUntil := some 2000000000 }).dac 7).settleUntil = some 2000000000 := by decide +kernel
theorem witness_ARangeChangeDrivesZeroFirst_ends :
    7 < 8 ∧ ((dacS.updDac 7 fun d => { d with settleUntil := some 2000000000 }).dac 7).settleUntil = some 2000000000 ∧
        2000000000 ≤ ((dacS.updDac 7 fun d => { d with settleUntil := some 2000000000 }).atTime 2000000000).now :=
        by decide +kernel
theorem witness_ARangeChangeDrivesZeroFirst_early :
    0 < 8 ∧ ((dacS.updDac 0 fun d => { d with settleUntil := some 2000000000 }).dac 0).settleUntil = some 2000000000 ∧
        ((dacS.updDac 0 fun d => { d with settleUntil := some 2000000000 }).atTime 1999999999).now < 2000000000 :=
        by decide +kernel

/-! FaultClearMovesATrippedLaneOrRefuses -/

theorem witness_FaultClearMovesATrippedLaneOrRefuses_moves :
    Taken trippedS sv 0x0B07 ∧ 0 < 8 ∧ (trippedS.lane 0).state = .tripped ∧ trippedS.latched 0 = false ∧ (trippedS.lane
        0).allOpen = true := by decide +kernel
theorem witness_FaultClearMovesATrippedLaneOrRefuses_latched :
    Taken (trippedS.updLaneSafe 0 fun x => { x with latch := true }) sv 0x0B07 ∧ 0 < 8 ∧ ((trippedS.updLaneSafe 0 fun x
        => { x with latch := true }).lane 0).state = .tripped ∧ (trippedS.updLaneSafe 0 fun x =>
        { x with latch := true }).latched 0 = true := by decide +kernel
theorem witness_FaultClearMovesATrippedLaneOrRefuses_contactor :
    Taken (trippedS.updLane 0 fun l => { l with kPos := { l.kPos with weldSuspect := true } }) sv 0x0B07 ∧ 0 < 8 ∧
        ((trippedS.updLane 0 fun l => { l with kPos := { l.kPos with weldSuspect := true } }).lane 0).state = .tripped ∧
        (trippedS.updLane 0 fun l => { l with kPos := { l.kPos with weldSuspect := true } }).latched 0 = false ∧
        ((trippedS.updLane 0 fun l => { l with kPos := { l.kPos with weldSuspect := true } }).lane 0).kPos.weldSuspect =
        true := by decide +kernel

/-! AQueueIsCreatedEmptyAndItsRingIsNotCleared -/

theorem witness_AQueueIsCreatedEmptyAndItsRingIsNotCleared_create :
    Taken ringed sv 0x1C01 ∧ 1024 ≤ 32767 ∧ 32767 ≤ 32767 ∧ 3 ≤ 16 ∧ 16 ≤ 16 ∧ (ringed.queue 32767).k = 0 ∧
        ringed.mbox.hostLinked = true ∧ lowestFree ringRegion ringBytes (64 * 2 ^ 3) (64 * 2 ^ 3) ringed.rings = some
        (ringRegion + 1024) ∧ sv.path ≠ .pcie := by decide +kernel
theorem witness_AQueueIsCreatedEmptyAndItsRingIsNotCleared_destroy :
    Taken ringed sv 0x1C02 ∧ 1024 ≤ 1024 ∧ 1024 < 32768 ∧ (ringed.queue 1024).owner = 0 ∧ (ringed.queue 1024).k ≠ 0 ∧
        ringed.cqUsed 1024 = false ∧ sv.path ≠ .pcie := by decide +kernel
theorem witness_AQueueIsCreatedEmptyAndItsRingIsNotCleared_pcie :
    Taken pcServed pc 0x1C01 ∧ 1024 ≠ 17 + 2 * pc.box ∧ answers (exec (.queueCreate pc 1024 3 1 1 0) pcServed) = true ∧
        pcServed.queue 19 = { k := 8, base := ringRegion, prod := 1, cons := 2, threshold := 1 } ∧ ¬ (ringRegion + (5 % 2 ^
        8) * 64 ≤ 3 ∧ 3 < ringRegion + (5 % 2 ^ 8) * 64 + 64) := by decide +kernel
theorem witness_AQueueIsCreatedEmptyAndItsRingIsNotCleared_pcieDestroy :
    Taken pcServed pc 0x1C02 ∧ 1024 ≠ 17 + 2 * pc.box ∧ answers (exec (.queueDestroy pc 1024) pcServed) = true ∧
        pcServed.queue 19 = { k := 8, base := ringRegion, prod := 1, cons := 2, threshold := 1 } ∧ ¬ (ringRegion + (5 % 2 ^
        8) * 64 ≤ 3 ∧ 3 < ringRegion + (5 % 2 ^ 8) * 64 + 64) := by decide +kernel

/-! TheGateRefusesBeforeACommandsOwnChecks -/

theorem witness_TheGateRefusesBeforeACommandsOwnChecks_untaken :
    State.reset.mbox.ready = false ∧ State.reset.sec.recovery = false ∧ Instr.asked (.powerStatus sv) = some (sv,
        0x2401) := by decide +kernel
theorem witness_TheGateRefusesBeforeACommandsOwnChecks_serviceOnly :
    Instr.asked (.moduleRestart pc) = some (pc, 0x0105) ∧ AtTheGate (served .turned) pc 0x0105 ∧ serviceCodes.contains
        0x0105 = true ∧ pc.path ≠ .service := by decide +kernel
theorem witness_TheGateRefusesBeforeACommandsOwnChecks_lifecycle :
    Instr.asked (.laneArm pc 0) = some (pc, 0x0B03) ∧ AtTheGate (served .blank) pc 0x0B03 ∧ serviceCodes.contains
        0x0B03 = false ∧ lifecycleAllows (served .blank).sec.lifecycle pc.path 0x0B03 = false := by decide +kernel
theorem witness_TheGateRefusesBeforeACommandsOwnChecks_invasive :
    Instr.asked (.laneArm sv 0) = some (sv, 0x0B03) ∧ AtTheGate invaded sv 0x0B03 ∧ serviceCodes.contains 0x0B03 =
        false ∧ lifecycleAllows invaded.sec.lifecycle sv.path 0x0B03 = true ∧ invaded.sec.debug = .invasive ∧
        invasiveRefused.contains 0x0B03 = true := by decide +kernel
theorem witness_TheGateRefusesBeforeACommandsOwnChecks_beached :
    Instr.asked (.laneArm sv 0) = some (sv, 0x0B03) ∧ AtTheGate beached sv 0x0B03 ∧ serviceCodes.contains 0x0B03 =
        false ∧ lifecycleAllows beached.sec.lifecycle sv.path 0x0B03 = true ∧ beached.sec.debug ≠ .invasive ∧ isStatus
        0x0B03 = false ∧ beached.power.state = .beached := by decide +kernel
theorem witness_TheGateRefusesBeforeACommandsOwnChecks_busy :
    Instr.asked (.laneArm sv 0) = some (sv, 0x0B03) ∧ AtTheGate commitDone sv 0x0B03 ∧ serviceCodes.contains 0x0B03 =
        false ∧ lifecycleAllows commitDone.sec.lifecycle sv.path 0x0B03 = true ∧ commitDone.sec.debug ≠ .invasive ∧
        isStatus 0x0B03 = false ∧ commitDone.power.state ≠ .beached ∧ commitDone.power.beach ≠ none := by decide +kernel
theorem witness_TheGateRefusesBeforeACommandsOwnChecks_noBerth :
    Instr.asked (.laneArm gz 0) = some (gz, 0x0B03) ∧ AtTheGate (served .turned) gz 0x0B03 ∧ serviceCodes.contains
        0x0B03 = false ∧ lifecycleAllows (served .turned).sec.lifecycle gz.path 0x0B03 = true ∧ (served .turned).sec.debug
        ≠ .invasive ∧ isStatus 0x0B03 = false ∧ (served .turned).power.state ≠ .beached ∧ (served .turned).power.beach =
        none ∧ (served .turned).power.part = none ∧ gz.path = .garzet ∧ (served .turned).net.berth = none :=
        by decide +kernel

/-! PayloadsSpellTheirCommands -/

theorem witness_PayloadsSpellTheirCommands_fields : ∃ (src : Source) (code : Nat) (c : Instr) (fs : List Field),
    c.asked = some (src, code) ∧ requestFields c = some fs ∧ fs.all Field.fits :=
  ⟨sv, 0x0B05, .laneSetpoint sv 255 (-2147483648), [f1 255, .s 4 (-2147483648)], by decide +kernel⟩
theorem witness_PayloadsSpellTheirCommands_turn : ∃ (cert key : List Byte) (revoked : List (List Byte)) (ip len : Nat),
    cert.length < 65536 ∧ key.length = 32 ∧ revoked.length < 65536 ∧ (∀ x ∈ revoked, x.length = 20) ∧ ip < 2 ^ 32 ∧ len <
    256 :=
  ⟨[1, 2, 3], List.replicate 32 (7 : Byte), [List.replicate 20 (9 : Byte)], 4294967295, 255, by decide +kernel⟩

/-! EveryPayloadSpellsItsOwnCode -/

theorem witness_EveryPayloadSpellsItsOwnCode_reads :
    commandOf sv 0x0B03 [7] = some (.laneArm sv 7) := by decide +kernel
theorem witness_EveryPayloadSpellsItsOwnCode_codes :
    Instr.asked (.laneArm sv 7) = some (sv, 0x0B03) := by decide +kernel

/-! ## Operand checks: an ill-formed term for each, and the largest well-formed one -/

theorem test_wf_lane : Instr.wf (.laneArm sv 8) = false ∧ Instr.wf (.laneArm sv 7) = true := by decide
theorem test_wf_port : Instr.wf (.tapStatus sv 128) = false ∧ Instr.wf (.tapStatus sv 127) = true := by decide
theorem test_wf_converter : Instr.wf (.analogTableStart sv 16 0) = false ∧ Instr.wf (.analogTableStart sv 15 0) = true := by decide
theorem test_wf_cell : Instr.wf (.modelDiverged 0 0 18) = false ∧ Instr.wf (.modelDiverged 0 0 17) = true := by decide
theorem test_wf_slot : Instr.wf (.tenantStart sv 256) = false ∧ Instr.wf (.tenantStart sv 255) = true := by decide
theorem test_wf_entry : Instr.wf (.tideEntryRead sv 1024) = false ∧ Instr.wf (.tideEntryRead sv 1023) = true := by decide
theorem test_wf_controller : Instr.wf (.canStatus sv 2) = false ∧ Instr.wf (.canStatus sv 1) = true := by decide
theorem test_wf_channel : Instr.wf (.dmaAbort sv 64) = false ∧ Instr.wf (.dmaAbort sv 63) = true := by decide
theorem test_wf_queue : Instr.wf (.queueStatus sv 32768) = false ∧ Instr.wf (.queueStatus sv 32767) = true := by decide
theorem test_wf_loop : Instr.wf (.coolingStatus sv 8) = false ∧ Instr.wf (.coolingStatus sv 7) = true := by decide
theorem test_wf_output : Instr.wf (.dacSet sv 8 0 0) = false ∧ Instr.wf (.dacSet sv 7 0 0) = true := by decide
theorem test_wf_four : Instr.wf (.respRoom 0 4) = false ∧ Instr.wf (.respRoom 0 3) = true := by decide
theorem test_wf_input : Instr.wf (.analogConvert sv 96 false) = false ∧ Instr.wf (.analogConvert sv 95 false) = true := by decide
theorem test_wf_tach : Instr.wf (.standstill 0 16) = false ∧ Instr.wf (.standstill 0 15) = true := by decide
theorem test_wf_phase : Instr.wf (.pwmPeriodStart 0 0 6) = false ∧ Instr.wf (.pwmPeriodStart 0 0 5) = true := by decide
theorem test_wf_contactor : Instr.wf (.contactorMismatch 0 0 3) = false ∧ Instr.wf (.contactorMismatch 0 0 2) = true := by decide
theorem test_wf_device : Instr.wf (.storeWearRead sv 2) = false ∧ Instr.wf (.storeWearRead sv 1) = true := by decide
theorem test_wf_group : Instr.wf (.graphGroupSet sv 8 0) = false ∧ Instr.wf (.graphGroupSet sv 7 0) = true := by decide
theorem test_wf_buffer : Instr.wf (.canSend sv 0 32 true {}) = false ∧ Instr.wf (.canSend sv 0 31 true {}) = true := by decide
theorem test_wf_filter : Instr.wf (.canFilterSet sv 0 64 ⟨true, 0, 0, 0, .discard⟩) = false ∧
    Instr.wf (.canFilterSet sv 0 63 ⟨true, 0, 0, 0, .discard⟩) = true := by decide
theorem test_wf_records : Instr.wf (.eventRead sv 0 0) = false ∧ Instr.wf (.eventRead sv 0 65) = false ∧
    Instr.wf (.eventRead sv 0 64) = true := by decide
theorem test_wf_code : Instr.wf (.conversionComplete 0 0 16384) = false ∧ Instr.wf (.conversionComplete 0 0 16383) = true := by decide
theorem test_wf_cell_id : Instr.wf (.balanceTest sv ⟨0, 0, 18⟩) = false ∧ Instr.wf (.balanceTest sv ⟨8, 0, 0⟩) = false ∧
    Instr.wf (.balanceTest sv ⟨7, 127, 17⟩) = true := by decide
theorem test_wf_port_or_cell : Instr.wf (.modelRoughCommand sv (.port 128) true) = false ∧
    Instr.wf (.modelRoughCommand sv (.cell 0 0 18) true) = false ∧ Instr.wf (.modelRoughCommand sv (.port 127) true) = true := by decide
theorem test_wf_nop : Instr.wf (.mboxNop sv (List.replicate 1025 0)) = false := by decide +kernel

/-! ## Examples that the spec works out -/

/-- 14 R424: LANE.ARM is 0x0B03, and MODULE.BEACH is 0x0103. -/
theorem test_command_codes : commandOf sv 0x0B03 [5] = some (.laneArm sv 5) ∧ commandOf sv 0x0103 [] = some (.moduleBeach sv) := by
  decide
/-- 14 R401: a field stands at a multiple of its own size, and a byte between must be 0. -/
theorem test_payload_alignment : commandOf sv 0x0B05 [2, 0, 0, 0, 0x18, 0xFC, 0xFF, 0xFF] = some (.laneSetpoint sv 2 (-1000)) ∧
    commandOf sv 0x0B05 [2, 1, 0, 0, 0x18, 0xFC, 0xFF, 0xFF] = none := by decide
/-- 19 R498: TAP100_P is at T1 and TAP100_N at T2, AIN42 at E43, and GATE_L3_P2_L at D12. -/
theorem test_balls : (Pin.tap 100 false).ball = (14, 1) ∧ (Pin.tap 100 true).ball = (14, 2) ∧ rowName 14 = "T" ∧
    (Pin.ain 42).ball = (4, 43) ∧ rowName 4 = "E" ∧ (Pin.gate 3 2 true).ball = (3, 12) ∧ rowName 3 = "D" := by decide
/-- 19 R498: no two signals share a ball: each ball's bit is set once. -/
theorem test_balls_apart :
    (allPins.foldl (fun m p => m.bind fun x =>
      let k := 64 * p.ball.1 + p.ball.2
      if x.testBit k then none else some (x + 2 ^ k)) (some 0)).isSome = true := by decide +kernel
/-- 14 R401: a command's fields laid out are its payload: a value at a multiple of its size, and a list after its count. -/
theorem test_fields : (requestFields (.laneSetpoint sv 2 (-1000))).map layOut = some [2, 0, 0, 0, 0x18, 0xFC, 0xFF, 0xFF] ∧
    (requestFields (.analogRead sv [7, 95])).map layOut = some [2, 0, 7, 95] := by decide
/-- 01 R22: lanes 0 to 4 with TAP0 to TAP23, ... TAP96 to TAP119 are valid; TAP20 to TAP43 after TAP0 to TAP23 is refused. -/
theorem test_lane_ranges :
    (laneOn 0 0 24).rangesOk 1 { cfg3 with firstPort := 24, portCount := 24 } = true ∧
      (laneOn 0 0 24).rangesOk 1 { cfg3 with firstPort := 20, portCount := 24 } = false ∧
      (laneOn 0 0 8).rangesOk 1 { cfg3 with firstPort := 32, portCount := 32 } = true := by decide +kernel
/-- 04 R127: a mean of 412.25 codes at 0 mV and 15,702.75 codes at 1,400,000 mV give GAIN 0x005B_8F64 and OFFSET 0x019C_4000. -/
theorem test_calibration : inputCoef { scale := 6000000 } (0, 1649 / 4) (1400000, 62811 / 4) = (stOk, some (0x019C4000, 0x005B8F64)) := by
  decide +kernel
/-- 06 R189: cell 5, whose slot is 27, next updates at instant 4,027. -/
theorem test_slot_of_cell_5 : inSlot 5 4027 = true ∧ inSlot 5 4006 = false := by decide
/-- 06 R197: cell 0 updates at m = 962,500 and cell 1 five SLACK instants later. -/
theorem test_slack_slots : inSlot 0 962500 = true ∧ inSlot 1 962505 = true ∧ inSlot 1 962500 = false := by decide
/-- 07 R227: with C_obs 950,400 As and its variance 1,206,375, C moves from 955,000 As to 950,488 As: here in thousandths, rounded
down, the drift for 180 days at C_NOM 1,008,000 As included. -/
theorem test_capacity_learned :
    (learnValue 955000 (some 4000) (504 ^ 2 * 180) 950400 1206375).1.floor = 950488 := by decide +kernel
/-- 02 R42: one tick of 8 ns adds 8 ns when INCR is 8 × 2^32. -/
theorem test_clock_tick : (clockTick { ns := 100, frac := 5, incr := 8 * 2 ^ 32 }).ns = 108 := by decide
/-- 15 R428: 64 bytes is DLC 15, and no DLC stands for 9 bytes. -/
theorem test_dlc : dlcOf 64 = some 15 ∧ dlcOf 9 = none := by decide
/-- 06 R178: CRC-32 with the IEEE 802.3 polynomial gives its well-known check value on the digits 1 to 9. -/
theorem test_crc32 : crc32 [0x31, 0x32, 0x33, 0x34, 0x35, 0x36, 0x37, 0x38, 0x39] = 0xCBF43926 := by decide +kernel
/-- 09 R276: CRC-32C gives its well-known check value on the digits 1 to 9. -/
theorem test_crc32c : crc32c [0x31, 0x32, 0x33, 0x34, 0x35, 0x36, 0x37, 0x38, 0x39] = 0xE3069283 := by decide +kernel
/-- 10 R309: an epoch is newer when it is 1 to 32,767 ahead, wrapping at 65,536. -/
theorem test_newer : newer 1 65535 = true ∧ newer 65535 1 = false ∧ newer 7 7 = false := by decide

/-! ## Single steps -/

/-- 04 R128, R129: the second write within the 20 µs is kept. -/
theorem test_dac_range : answers (exec (.dacSet sv 7 1 65535) dacS) (fun u => (u.dac 7).code == 0 && (u.dac 7).stored == 65535) = true := by
  decide +kernel
/-- 02 R70: a graph cycle due at the instant of a strobe waits for it. -/
theorem test_strobe_first : answers (exec (.graphCycle 1000 18) twoDue) (fun u => u.table.armed.length == 2) = true ∧
    answers (exec (.sampleStrobe 1000 8) twoDue) (fun u => u.table.armed.length == 1) = true := by decide +kernel
/-- 17 R462: SEAL outside TURNED is answered NOT_TURNED. -/
theorem test_seal : answers (exec (.lifecycleSeal sv) (served .blank)) (fun u => u.mbox.responses.map (·.status) == [stNotTurned]) = true ∧
    answers (exec (.lifecycleSeal sv) (served .turned)) (fun u => u.sec.lifecycle == .sealed) = true := by decide +kernel
/-- 17 R462: a BLANK module has no move to PARTED. -/
theorem test_blank_stays : answers (exec (.lifecycleDecommission sv 0) (served .blank)) (fun u => u.sec.lifecycle == .blank) = true := by
  decide +kernel
/-- An object that the module does not have is a fault by name. -/
theorem test_no_such_object : (match exec (.respRoom 0 4) State.reset with | .fault .noSuchObject => true | _ => false) = true := by decide

end Sys2Proof.Tests
end

