-- ==== Sys2Proof/Proofs/Reset.lean ====
section
/-! PROOF. What the machine holds at reset and what its own reset leaves (O51): the tables that a reset maps keep what each of their
entries keeps. -/

namespace Sys2Proof.Machine

open Sys2Proof
set_option Elab.async false

/-- A property that the default has and the map gives each entry is one of every entry read of the mapped table. -/
theorem tget_map_of {α : Type} {p : α → Prop} {d : α} {f : α → α} (hd : p d) (hf : ∀ x, p (f x)) (t : Table α) (i : Nat) :
    p (tget d (t.map fun x => (x.1, f x.2)) i) := by
  induction t with
  | nil => exact hd
  | cons x t ih =>
    rw [List.map_cons, tget]
    split
    · exact hf _
    · exact ih

/-- A field that the map keeps, of each entry and so of the default, reads as before in the mapped table. -/
theorem tget_map_field {α β : Type} {g : α → β} {d : α} {f : α → α} (hf : ∀ x, g (f x) = g x) (t : Table α) (i : Nat) :
    g (tget d (t.map fun x => (x.1, f x.2)) i) = g (tget d t i) := by
  induction t with
  | nil => rfl
  | cons x t ih =>
    rw [List.map_cons, tget, tget]
    split
    · exact hf _
    · exact ih

theorem selfReset_lane_state (s : State) (caused brownout : Bool) (n : Nat) :
    ((s.selfReset caused brownout).lane n).state = .unconfigured :=
  tget_map_of (p := fun l : Lane => l.state = .unconfigured) rfl (fun _ => rfl) s.lanes n

theorem selfReset_laneSafe_latch (s : State) (caused brownout : Bool) (n : Nat) :
    ((s.selfReset caused brownout).laneSafe n).latch = (s.laneSafe n).latch :=
  tget_map_field (g := LaneSafety.latch) (f := fun x => { latch := x.latch, latchCauses := x.latchCauses }) (fun _ => rfl) s.safety.lanes n

theorem reset_anyLatch : State.reset.anyLatch = false := by decide

/-- Settles O51: the lanes and the safety latches pass through the maps of a reset, every other field is the one it writes. -/
theorem resetLeaves : Obligations.ResetLeaves := by
  intro s caused brownout
  refine ⟨⟨rfl, memWf_reset, fun _ => rfl, fun _ _ => ⟨rfl, rfl⟩, fun _ => ⟨rfl, rfl⟩, reset_anyLatch, rfl, rfl, rfl, rfl⟩, ?_⟩
  exact ⟨selfReset_lane_state s caused brownout, fun _ => ⟨rfl, rfl⟩, rfl, rfl, rfl, rfl, rfl, rfl,
    selfReset_laneSafe_latch s caused brownout, rfl, rfl, rfl⟩

end Sys2Proof.Machine
end

