-- ==== Sys2Proof/Proofs/Fabric.lean ====
section
/-! PROOF. The operations that leave the fabric, and so both memories, as they were: `(f s).fab = s.fab`. They stand in the order of the
model, under the name of the file that defines them. -/

namespace Sys2Proof.Machine

open Sys2Proof
set_option Elab.async false

/-! ### Records, branches and folds -/

theorem fab_ite (c : Prop) [Decidable c] (a b : State) : (if c then a else b).fab = if c then a.fab else b.fab :=
  apply_ite State.fab c a b
theorem fab_clock (s : State) (c : Clock) : ({ s with clock := c } : State).fab = s.fab := rfl
theorem fab_power (s : State) (p : Power) : ({ s with power := p } : State).fab = s.fab := rfl
theorem fab_mbox (s : State) (m : Mbox) : ({ s with mbox := m } : State).fab = s.fab := rfl
theorem fab_held (s : State) (o : Option Held) : ({ s with held := o } : State).fab = s.fab := rfl
theorem fab_foldl {α : Type} {f : State → α → State} (h : ∀ z x, (f z x).fab = z.fab) (l : List α) (s : State) :
    (l.foldl f s).fab = s.fab := by
  induction l generalizing s with
  | nil => rfl
  | cons x r ih => exact (ih (f s x)).trans (h s x)
theorem fab_getD {o : Option State} {s : State} (h : ∀ u, o = some u → u.fab = s.fab) : (o.getD s).fab = s.fab := by
  cases o with
  | none => rfl
  | some u => exact h u rfl

/-! ### Ops -/

@[simp] theorem fab_flushCache (s : State) : s.flushCache.fab = s.fab := by simp [State.flushCache]
@[simp] theorem fab_keepRecord (s : State) (r : EventRec) : (s.keepRecord r).fab = s.fab := by
  fun_cases State.keepRecord s r <;> rfl
@[simp] theorem fab_msixRaise (s : State) (v : Nat) : (s.msixRaise v).fab = s.fab := rfl
@[simp] theorem fab_notice (s : State) (q : Nat) : (s.notice q).fab = s.fab := by
  fun_cases State.notice s q <;> simp +zetaDelta
@[simp] theorem fab_queueMoved (s : State) (q fill0 : Nat) (force : Bool) : (s.queueMoved q fill0 force).fab = s.fab := by
  fun_cases State.queueMoved s q fill0 force <;> simp
@[simp] theorem fab_setOwn (s : State) (r : Nat) (f : OwnRole → OwnRole) : (s.setOwn r f).fab = s.fab := rfl
@[simp] theorem fab_emit (s : State) (o : Output) : (s.emit o).fab = s.fab := rfl
@[simp] theorem fab_onLans (s : State) (peer : Nat) (h : GHead) (body : GBody) : (s.onLans peer h body).fab = s.fab := by
  simp [State.onLans]
@[simp] theorem fab_sendPlain (s : State) (peer : Nat) (body : GBody) (dst srcRole srcEpoch corr ack : Nat) (reply : Bool) :
    (s.sendPlain peer body dst srcRole srcEpoch corr ack reply).fab = s.fab := by simp [State.sendPlain]
@[simp] theorem fab_sendGroup (s : State) (body : GBody) : (s.sendGroup body).fab = s.fab := by simp [State.sendGroup]
@[simp] theorem fab_setStreamTx (s : State) (x : StreamTx) : (s.setStreamTx x).fab = s.fab := rfl
@[simp] theorem fab_report (s : State) (r : FnReport) : (s.report r).fab = s.fab := rfl
@[simp] theorem fab_transmit (s : State) (peer : Nat) (h : GHead) (body : GBody) :
    (s.transmit peer h body).fab = s.fab := by
  fun_cases State.transmit s peer h body <;> simp
@[simp] theorem fab_sendReliable (s : State) (peer dst : Nat) (body : GBody) (srcRole srcEpoch target tEpoch corr : Nat) (reply : Bool) :
    (s.sendReliable peer dst body srcRole srcEpoch target tEpoch corr reply).fab = s.fab := by
  fun_cases State.sendReliable s peer dst body srcRole srcEpoch target tEpoch corr reply <;> simp
@[simp] theorem fab_sendToRole (s : State) (role : Nat) (body : GBody) (srcRole srcEpoch corr : Nat) (reply : Bool) :
    (s.sendToRole role body srcRole srcEpoch corr reply).fab = s.fab := by
  fun_cases State.sendToRole s role body srcRole srcEpoch corr reply <;> simp
@[simp] theorem fab_linkUp (s : State) (l t : Nat) : (s.linkUp l t).fab = s.fab := by simp [State.linkUp]
@[simp] theorem fab_frameIn (s : State) (l t : Nat) : (s.frameIn l t).fab = s.fab := by
  fun_cases State.frameIn s l t <;> simp
@[simp] theorem fab_rosterReply (s : State) (role : Nat) (p : List Byte) : (s.rosterReply role p).fab = s.fab := rfl
@[simp] theorem fab_requestDone (s : State) (corr status : Nat) (payload : List Byte) :
    (s.requestDone corr status payload).fab = s.fab := by
  fun_cases State.requestDone s corr status payload <;> simp +zetaDelta [fab_ite]
@[simp] theorem fab_countFull (s : State) : s.countFull.fab = s.fab := rfl

/-! ### Flags -/

@[simp] theorem fab_settle (a b : State) : (settle a b).fab = b.fab := by fun_cases settle a b <;> simp +zetaDelta

/-! ### Commands -/

@[simp] theorem fab_setBox (s : State) (x : Mailbox) : (s.setBox x).fab = s.fab := rfl
@[simp] theorem fab_dropBox (s : State) (p : Path) (b : Nat) : (s.dropBox p b).fab = s.fab := rfl
@[simp] theorem fab_countPath (s : State) (p : Path) (f : PathCount → PathCount) : (s.countPath p f).fab = s.fab := by
  simp [State.countPath]
@[simp] theorem fab_endSession (s : State) (id : Nat) : (s.endSession id).fab = s.fab := by
  simp [State.endSession, fab_ite]
@[simp] theorem fab_holdupCheck (s : State) (p : Op → Bool) : (s.holdupCheck p).fab = s.fab := by
  fun_cases State.holdupCheck s p <;> rfl
@[simp] theorem fab_storeServe (s : State) : s.storeServe.fab = s.fab := by fun_cases State.storeServe s <;> rfl
@[simp] theorem fab_queueOp (s : State) (prio : Nat) (kind : StoreOp) : (s.queueOp prio kind).fab = s.fab := by
  simp [State.queueOp]
@[simp] theorem fab_deferralEnds (s : State) : s.deferralEnds.fab = s.fab := by fun_cases State.deferralEnds s <;> simp
@[simp] theorem fab_persist (s : State) (code object : Nat) (cmd : Instr) : (s.persist code object cmd).fab = s.fab := by
  fun_cases State.persist s code object cmd <;> simp

/-! ### Signals -/

@[simp] theorem fab_dacSafe (s : State) (k : Nat) : (s.dacSafe k).fab = s.fab := by simp [State.dacSafe]
@[simp] theorem fab_dacValue (s : State) (k range code : Nat) : (s.dacValue k range code).fab = s.fab := by
  simp [State.dacValue]
@[simp] theorem fab_auxValue (s : State) (k : Nat) (v : Option Nat) : (s.auxValue k v).fab = s.fab := by
  simp [State.auxValue]
@[simp] theorem fab_followSignal (s : State) (h : Nat) : (s.followSignal h).fab = s.fab := by
  unfold State.followSignal
  refine (fab_foldl (fun z k => ?_) _ _).trans (fab_foldl (fun z k => ?_) _ s)
  · split <;> simp
  · split
    · split
      · simp
      · split <;> simp
    · rfl
@[simp] theorem fab_publishLocal (s : State) (h : Nat) (v : SigVal) : (s.publishLocal h v).fab = s.fab := by
  simp [State.publishLocal]
@[simp] theorem fab_moduleSignal (s : State) (h typ : Nat) (v : Option Int) : (s.moduleSignal h typ v).fab = s.fab := by
  simp [State.moduleSignal]
@[simp] theorem fab_signalOf (s : State) (what obj typ : Nat) (v : Int) : (s.signalOf what obj typ v).fab = s.fab := by
  simp [State.signalOf]
@[simp] theorem fab_watchCooling (s : State) : s.watchCooling.fab = s.fab := by
  unfold State.watchCooling
  exact fab_foldl (fun z k => by dsimp only; split <;> rfl) _ s

/-! ### TideOps -/

@[simp] theorem fab_holdoverRate (s : State) : s.holdoverRate.fab = s.fab := rfl
@[simp] theorem fab_toHoldover (s : State) : s.toHoldover.fab = s.fab := by simp [State.toHoldover]
@[simp] theorem fab_toAcquire (s : State) : s.toAcquire.fab = s.fab := rfl
@[simp] theorem fab_holdoverEnds (s : State) : s.holdoverEnds.fab = s.fab := by fun_cases State.holdoverEnds s <;> simp
@[simp] theorem fab_followMaster (s : State) (changed : Bool) : (s.followMaster changed).fab = s.fab := by
  unfold State.followMaster
  simp only [fab_holdoverEnds]
  split
  · simp [fab_ite]
  · simp [fab_ite]
  · rfl
@[simp] theorem fab_stepClock (s : State) (o : Int) : (s.stepClock o).fab = s.fab := rfl
@[simp] theorem fab_servoLaw (s : State) (o : Int) : (s.servoLaw o).fab = s.fab := rfl
@[simp] theorem fab_servoSample (s : State) (o : Int) : (s.servoSample o).fab = s.fab := by
  fun_cases State.servoSample s o <;> simp +zetaDelta
@[simp] theorem fab_publishQuality (s : State) : s.publishQuality.fab = s.fab := by simp [State.publishQuality]
@[simp] theorem fab_takeQuality (s : State) : s.takeQuality.fab = s.fab := by fun_cases State.takeQuality s <;> simp
@[simp] theorem fab_tideAccept (s : State) (n : Nat) (m : TideMsg) (t : Nat) : (s.tideAccept n m t).fab = s.fab := by
  simp [State.tideAccept]
@[simp] theorem fab_instSilent (s : State) (n : Nat) : (s.instSilent n).fab = s.fab := by simp [State.instSilent]
@[simp] theorem fab_lighthouseDo (hold : Nat) (vab vbc : Int) (s : State) : (lighthouseDo hold vab vbc s).fab = s.fab := by
  fun_cases lighthouseDo hold vab vbc s <;> simp +zetaDelta
@[simp] theorem fab_gridRecord (s : State) (input hold : Nat) (v : Option Int) :
    (s.gridRecord input hold v).fab = s.fab := by
  fun_cases State.gridRecord s input hold v <;> simp +zetaDelta
@[simp] theorem fab_passOver (s : State) (n : Nat) : (s.passOver n).fab = s.fab := by
  fun_cases State.passOver s n <;> simp +zetaDelta
@[simp] theorem fab_writeEntry (s : State) (n : Nat) (e : TideEntry) : (s.writeEntry n e).fab = s.fab := by
  simp [State.writeEntry]
@[simp] theorem fab_freeEntryAt (s : State) (n : Nat) : (s.freeEntryAt n).fab = s.fab := by simp [State.freeEntryAt]
@[simp] theorem fab_takeFiring (s : State) (a : ArmedFiring) : (s.takeFiring a).fab = s.fab := by
  fun_cases State.takeFiring s a <;> simp +zetaDelta
@[simp] theorem fab_dropArmed (s : State) : s.dropArmed.fab = s.fab := by simp [State.dropArmed, fab_ite, fab_foldl]
@[simp] theorem fab_insertionAbort (s : State) (lan : Lan) : (s.insertionAbort lan).fab = s.fab := by
  simp [State.insertionAbort]

/-! ### LaneOps -/

@[simp] theorem fab_formReference (s : State) (n : Nat) : (s.formReference n).fab = s.fab := by
  fun_cases State.formReference s n <;> simp +zetaDelta
@[simp] theorem fab_stringPeriod (s : State) (n : Nat) (dropped : Bool) : (s.stringPeriod n dropped).fab = s.fab := by
  fun_cases State.stringPeriod s n dropped <;> simp
@[simp] theorem fab_planInterval (s : State) (n pos : Nat) : (s.planInterval n pos).fab = s.fab := by
  fun_cases State.planInterval s n pos <;> simp
@[simp] theorem fab_replan (s : State) (n : Nat) : (s.replan n).fab = s.fab := by fun_cases State.replan s n <;> simp
@[simp] theorem fab_replanAll (s : State) : s.replanAll.fab = s.fab := by simp [State.replanAll, fab_foldl]
@[simp] theorem fab_strobeSample (s : State) (n tag hold : Nat) (v : Option Int) :
    (s.strobeSample n tag hold v).fab = s.fab := by
  fun_cases State.strobeSample s n tag hold v <;> simp +zetaDelta

/-! ### AnalogOps -/

@[simp] theorem fab_compWrite (s : State) (n : Nat) : (s.compWrite n).fab = s.fab := by
  fun_cases State.compWrite s n
  · exact fab_foldl (fun _ _ => by simp) _ s
  · rfl
@[simp] theorem fab_armWatch (s : State) (n : Nat) : (s.armWatch n).fab = s.fab := by fun_cases State.armWatch s n <;> simp
@[simp] theorem fab_latestRecord (s : State) (r : Result) (hold : Nat) : (s.latestRecord r hold).fab = s.fab := by
  fun_cases State.latestRecord s r hold <;> simp +zetaDelta [fab_ite]
@[simp] theorem fab_sendLoop (s : State) (n updated : Nat) : (s.sendLoop n updated).fab = s.fab := by
  fun_cases State.sendLoop s n updated <;> simp
@[simp] theorem fab_pwmRecord (s : State) (r : Result) : (s.pwmRecord r).fab = s.fab := by
  fun_cases State.pwmRecord s r <;> simp
@[simp] theorem fab_startNext (s : State) (k at_ : Nat) : (s.startNext k at_).fab = s.fab := by
  fun_cases State.startNext s k at_ <;> simp
@[simp] theorem fab_softRequest (s : State) (k : Nat) (c : Conversion) : (s.softRequest k c).fab = s.fab := by
  fun_cases State.softRequest s k c <;> simp +zetaDelta
@[simp] theorem fab_startTable (s : State) (k table : Nat) (byFiring : Bool) (at_ : Nat) :
    (s.startTable k table byFiring at_).fab = s.fab := by
  fun_cases State.startTable s k table byFiring at_ <;> simp +zetaDelta

/-! ### CanOps -/

@[simp] theorem fab_updTxBuf (s : State) (ctl b : Nat) (f : TxBuf → TxBuf) : (s.updTxBuf ctl b f).fab = s.fab := by
  simp [State.updTxBuf]
@[simp] theorem fab_tellSlot (s : State) (owner : OutSource) (o : TxOutcome) : (s.tellSlot owner o).fab = s.fab := by
  fun_cases State.tellSlot s owner o <;> simp
@[simp] theorem fab_placeTx (s : State) (ctl b txSeq : Nat) (f : CanFrame) (reference : Bool) :
    (s.placeTx ctl b txSeq f reference).fab = s.fab := by simp [State.placeTx]

/-! ### Places -/

@[simp] theorem fab_placeEntries (s : State) : s.placeEntries.fab = s.fab := by
  unfold State.placeEntries
  generalize List.range 26 = l
  induction l generalizing s with
  | nil => rfl
  | cons i l ih =>
    rw [List.foldl_cons, ih]
    split
    · rfl
    · exact fab_writeEntry ..

/-! ### SlotOps -/

@[simp] theorem fab_sourcesLost (s : State) (hs : List Nat) (lost : Bool) : (s.sourcesLost hs lost).fab = s.fab := by
  unfold State.sourcesLost
  exact fab_foldl (fun z n => by
    split
    · rfl
    · split
      · simp [fab_ite]
      · rfl) _ s
@[simp] theorem fab_followersSafe (s : State) (hs : List Nat) : (s.followersSafe hs).fab = s.fab := by
  simp [State.followersSafe, fab_ite, fab_foldl]

/-! ### SoundOps -/

@[simp] theorem fab_updStep (s : State) (n slot : Nat) (f : SoundStep → SoundStep) : (s.updStep n slot f).fab = s.fab := by
  simp [State.updStep]
@[simp] theorem fab_captureOff (s : State) (n : Nat) : (s.captureOff n).fab = s.fab := by
  simp [State.captureOff, fab_ite, fab_foldl]
@[simp] theorem fab_captureOn (s : State) (n : Nat) : (s.captureOn n).fab = s.fab := by simp [State.captureOn]
@[simp] theorem fab_endedResults (s : State) (n : Nat) (a : SoundStep) : (s.endedResults n a).fab = s.fab := by
  simp [State.endedResults]
@[simp] theorem fab_stepEnded (s : State) (n : Nat) (a : SoundStep) (outcome : Nat) :
    (s.stepEnded n a outcome).fab = s.fab := by simp [State.stepEnded, fab_ite]
@[simp] theorem fab_sendSoundOut (s : State) (n : Nat) (a : SoundStep) (kind reason : Nat) :
    (s.sendSoundOut n a kind reason).fab = s.fab := by
  fun_cases State.sendSoundOut s n a kind reason <;> simp
@[simp] theorem fab_soundArrives (s : State) (n : Nat) (m : SoundMsg) : (s.soundArrives n m).fab = s.fab := by
  fun_cases State.soundArrives s n m <;> simp +zetaDelta
@[simp] theorem fab_sendSound (s : State) (n : Nat) (a : SoundStep) (kind reason : Nat) :
    (s.sendSound n a kind reason).fab = s.fab := by
  fun_cases State.sendSound s n a kind reason <;> simp
@[simp] theorem fab_abandonStep (s : State) (n : Nat) (a : SoundStep) (outcome : Nat) :
    (s.abandonStep n a outcome).fab = s.fab := by simp [State.abandonStep]
@[simp] theorem fab_endSteps (s : State) (n outcome : Nat) (p : SoundStep → Bool) :
    (s.endSteps n outcome p).fab = s.fab := by simp [State.endSteps, fab_ite, fab_foldl]
@[simp] theorem fab_springFail (s : State) (n cause : Nat) : (s.springFail n cause).fab = s.fab := by
  fun_cases State.springFail s n cause <;> simp
@[simp] theorem fab_runLeft (s : State) (n outcome : Nat) : (s.runLeft n outcome).fab = s.fab := by simp [State.runLeft]

/-! ### SafetyOps -/

@[simp] theorem fab_latchFor (s : State) (n c : Nat) : (s.latchFor n c).fab = s.fab := by
  fun_cases State.latchFor s n c <;> simp
@[simp] theorem fab_setModuleLatch (s : State) (c : Nat) : (s.setModuleLatch c).fab = s.fab := rfl
@[simp] theorem fab_abandonArming (s : State) (n : Nat) (cause : Option Nat) : (s.abandonArming n cause).fab = s.fab := by
  fun_cases State.abandonArming s n cause <;> simp +zetaDelta
@[simp] theorem fab_shadowOpens (s : State) (n : Nat) : (s.shadowOpens n).fab = s.fab := by
  fun_cases State.shadowOpens s n <;> simp
@[simp] theorem fab_recheckArming (s : State) : s.recheckArming.fab = s.fab := by
  simp [State.recheckArming, fab_ite, fab_foldl]
@[simp] theorem fab_faultEvent (s : State) (k o : Nat) : (s.faultEvent k o).2.fab = s.fab := by simp [State.faultEvent]
@[simp] theorem fab_singleCopyFault (s : State) : s.singleCopyFault.fab = s.fab := by
  simp [State.singleCopyFault, fab_ite]
@[simp] theorem fab_dropHelmLines (s : State) : s.dropHelmLines.fab = s.fab := by
  unfold State.dropHelmLines
  exact fab_foldl (fun _ _ => by simp) _ s
@[simp] theorem fab_outputsSafe (s : State) : s.outputsSafe.fab = s.fab := by
  simp [State.outputsSafe, fab_ite, fab_foldl]
@[simp] theorem fab_stopConverters (s : State) : s.stopConverters.fab = s.fab := by
  unfold State.stopConverters
  exact fab_foldl (fun _ _ => by simp) _ s
@[simp] theorem fab_stopCounters (s : State) : s.stopCounters.fab = s.fab := by
  unfold State.stopCounters
  exact fab_foldl (fun _ _ => by simp) _ s
@[simp] theorem fab_loseRoles (s : State) : s.loseRoles.fab = s.fab := rfl
@[simp] theorem fab_tideCoasts (s : State) : s.tideCoasts.fab = s.fab := by simp [State.tideCoasts]
@[simp] theorem fab_mailboxesOff (s : State) : s.mailboxesOff.fab = s.fab := by simp [State.mailboxesOff, fab_foldl]

/-! ### ModelOps -/

@[simp] theorem fab_startCommit (s : State) : s.startCommit.fab = s.fab := by simp [State.startCommit]
@[simp] theorem fab_requestCommit (s : State) (key : Bool) : (s.requestCommit key).fab = s.fab := by
  fun_cases State.requestCommit s key <;> simp
@[simp] theorem fab_markNoLearn (s : State) (p : Nat) : (s.markNoLearn p).fab = s.fab := by
  fun_cases State.markNoLearn s p
  · rfl
  · exact fab_foldl (fun _ _ => by simp) _ s
@[simp] theorem fab_rough (s : State) (p : Nat) (cells : List Nat) (keep start : Bool) :
    (s.rough p cells keep start).fab = s.fab := by
  have cellsBegin (l : List Nat) (f : Cell → Cell) :
      (l.foldl (fun z c => z.updCell (cellIx p c) f) (s.markNoLearn p)).fab = s.fab :=
    (fab_foldl (fun _ _ => by simp) l _).trans (fab_markNoLearn s p)
  fun_cases State.rough s p cells keep start
  · rfl
  · simp +zetaDelta only [fab_event, State.updModelCount_eq, State.fab_setModelCount, cellsBegin]
  · simp +zetaDelta only [fab_requestCommit, fab_event, State.updModelCount_eq, State.fab_setModelCount, cellsBegin]
@[simp] theorem fab_startCells (s : State) (p : Nat) : (s.startCells p).fab = s.fab := by
  have cellsChange (l : List Nat) (f : Nat → Cell → Cell) :
      (l.foldl (fun z c => z.updCell (cellIx p c) (f c)) s).fab = s.fab := fab_foldl (fun _ _ => by simp) l s
  have fresh (l : List Nat) (f : Cell → Cell) (b c : Bool) :
      ((l.foldl (fun z c => z.updCell (cellIx p c) f) s).rough p l b c).fab = s.fab :=
    (fab_rough _ _ _ _ _).trans (cellsChange l fun _ => f)
  fun_cases State.startCells s p
  · rfl
  · exact cellsChange _ _
  · exact fresh _ _ _ _
  · exact fresh _ _ _ _
@[simp] theorem fab_capture (s : State) (n p : Nat) (f : Option PortSample) (tag : Nat) :
    (s.capture n p f tag).fab = s.fab := by
  fun_cases State.capture s n p f tag <;> simp
@[simp] theorem fab_frameToModels (s : State) (p : Nat) (f : PortSample) : (s.frameToModels p f).fab = s.fab := by
  fun_cases State.frameToModels s p f
  · exact fab_capture ..
  · exact (fab_foldl (fun _ _ => by simp) _ _).trans (fab_capture ..)
  · rfl
@[simp] theorem fab_coast (s : State) (p : Nat) : (s.coast p).fab = s.fab := by
  unfold State.coast
  exact fab_foldl (fun _ _ => by simp) _ s
@[simp] theorem fab_joinCells (s : State) (p : Nat) : (s.joinCells p).fab = s.fab := by
  fun_cases State.joinCells s p <;> simp
@[simp] theorem fab_reanchorCells (s : State) (p : Nat) : (s.reanchorCells p).fab = s.fab := by
  unfold State.reanchorCells
  exact fab_foldl (fun _ _ => by simp) _ s
@[simp] theorem fab_slackExit (s : State) : s.slackExit.fab = s.fab := by fun_cases State.slackExit s <;> simp

/-! ### TapOps -/

@[simp] theorem fab_drive (s : State) (p at_ : Nat) (bytes : List Byte) : (s.drive p at_ bytes).fab = s.fab := by
  simp [State.drive]
@[simp] theorem fab_sendCmd (s : State) (p : Nat) (c : TapCmd) : (s.sendCmd p c).fab = s.fab := by simp [State.sendCmd]
@[simp] theorem fab_sendBalance (s : State) (p : Nat) (force : Bool) : (s.sendBalance p force).fab = s.fab := by
  fun_cases State.sendBalance s p force <;> simp
@[simp] theorem fab_dropTest (s : State) (p : Nat) : (s.dropTest p).fab = s.fab := by fun_cases State.dropTest s p <;> simp
@[simp] theorem fab_portOut (s : State) (p : Nat) : (s.portOut p).fab = s.fab := by simp [State.portOut]
@[simp] theorem fab_toTrain (s : State) (p : Nat) : (s.toTrain p).fab = s.fab := by
  fun_cases State.toTrain s p <;> simp +zetaDelta
@[simp] theorem fab_toSleep (s : State) (p : Nat) : (s.toSleep p).fab = s.fab := by simp [State.toSleep]
@[simp] theorem fab_trainFail (s : State) (p : Nat) : (s.trainFail p).fab = s.fab := by
  fun_cases State.trainFail s p <;> simp +zetaDelta
@[simp] theorem fab_trainStart (s : State) (p : Nat) : (s.trainStart p).fab = s.fab := by simp [State.trainStart]
@[simp] theorem fab_sendEcho (s : State) (p at_ : Nat) : (s.sendEcho p at_).fab = s.fab := by simp [State.sendEcho]
@[simp] theorem fab_portRun (s : State) (p : Nat) : (s.portRun p).fab = s.fab := by simp [State.portRun]
@[simp] theorem fab_tapFault (s : State) (source p : Nat) : (s.tapFault source p).fab = s.fab := by
  simp [State.tapFault, fab_ite]
@[simp] theorem fab_sendSync (s : State) (p t0 tag armedAt : Nat) (helm serialReq echo : Bool) :
    (s.sendSync p t0 tag armedAt helm serialReq echo).fab = s.fab := by simp [State.sendSync]

/-! ### Analog -/

@[simp] theorem fab_calRequest (s : State) (k : Nat) : (s.calRequest k).fab = s.fab := by simp [State.calRequest]
@[simp] theorem fab_calStore (s : State) (ts : List CalTarget) : (s.calStore ts).fab = s.fab := by
  unfold State.calStore
  refine fab_foldl (fun z g => ?_) ts s
  split
  · rfl
  · cases g <;> simp [fab_ite]
@[simp] theorem fab_inputPoint (s : State) (k : Nat) (full : Bool) (p : Int × Rat) : (s.inputPoint k full p).2.fab = s.fab := by
  fun_cases State.inputPoint s k full p <;> simp
@[simp] theorem fab_icvPoint (s : State) (n : Nat) (full : Bool) (p : Int × Rat) (windowS : Rat) :
    (s.icvPoint n full p windowS).2.fab = s.fab := by
  fun_cases State.icvPoint s n full p windowS <;> simp
@[simp] theorem fab_calCode (s : State) (k code : Nat) : (s.calCode k code).fab = s.fab := by
  fun_cases State.calCode s k code <;> simp +zetaDelta
@[simp] theorem fab_icvWindowDo (n : Nat) (a : ArmedFiring) (s : State) : (icvWindowDo n a s).fab = s.fab := by
  simp [icvWindowDo]
@[simp] theorem fab_icvWordDo (n : Nat) (count : Int) (s : State) : (icvWordDo n count s).fab = s.fab := by
  have portsTake (u : State) (ps : List Nat) (f : Cell → Cell) :
      (ps.foldl (fun z p => (z.modelled p).foldl (fun y c => y.updCell (cellIx p c) f) z) u).fab = u.fab :=
    fab_foldl (fun _ _ => fab_foldl (fun _ _ => by simp) _ _) ps u
  unfold icvWordDo
  dsimp only
  split
  · rw [portsTake]
    simp [fab_ite]
  · simp [fab_ite]
@[simp] theorem fab_beachedBusDo (n code : Nat) (s : State) : (beachedBusDo n code s).fab = s.fab := by
  fun_cases beachedBusDo n code s <;> simp +zetaDelta
@[simp] theorem fab_tachSignals (s : State) (k : Nat) : (s.tachSignals k).fab = s.fab := by simp [State.tachSignals]
@[simp] theorem fab_tachsStill (s : State) : s.tachsStill.fab = s.fab := by simp [State.tachsStill, fab_foldl]

/-! ### RoleOps -/

@[simp] theorem fab_sendHelm (s : State) (r kind at_ : Nat) (result : Option Nat) :
    (s.sendHelm r kind at_ result).fab = s.fab := by
  fun_cases State.sendHelm s r kind at_ result <;> simp
@[simp] theorem fab_changeOwn (s : State) (r : Nat) (f : OwnRole → OwnRole) : (s.changeOwn r f).fab = s.fab := by
  simp [State.changeOwn, fab_ite]
@[simp] theorem fab_coordinatorTaken (s : State) (r : Nat) : (s.coordinatorTaken r).fab = s.fab := by
  fun_cases State.coordinatorTaken s r <;> rfl
@[simp] theorem fab_takeActive (s : State) (r : Nat) : (s.takeActive r).fab = s.fab := by simp [State.takeActive]
@[simp] theorem fab_raiseHelm (s : State) (n : Nat) : (s.raiseHelm n).fab = s.fab := by simp [State.raiseHelm]
@[simp] theorem fab_takeOver (s : State) (r cause : Nat) : (s.takeOver r cause).fab = s.fab := by
  generalize h : s.takeOver r cause = u
  unfold State.takeOver at h
  split at h
  · rw [← h]
  · dsimp only at h
    rw [← h, fab_event, fab_sendHelm, fab_setOwn, fab_takeActive]
    split
    · rw [fab_event, fab_setOwn]
    · rfl
@[simp] theorem fab_laneHelmLost (s : State) (n : Nat) (standby : Bool) : (s.laneHelmLost n standby).fab = s.fab := by
  fun_cases State.laneHelmLost s n standby <;> simp +zetaDelta
@[simp] theorem fab_laneUnheld (s : State) (n : Nat) : (s.laneUnheld n).fab = s.fab := by
  fun_cases State.laneUnheld s n <;> simp

/-! ### TenantOps -/

@[simp] theorem fab_applySignal (s : State) (d : DueSignal) : (s.applySignal d).fab = s.fab := by
  simp [State.applySignal]
@[simp] theorem fab_applySignals (s : State) (pos : Nat) : (s.applySignals pos).fab = s.fab := by
  simp [State.applySignals, fab_foldl]
@[simp] theorem fab_takeSignalEntry (s : State) (role seq at_ : Nat) (e : SignalEntry) :
    (s.takeSignalEntry role seq at_ e).fab = s.fab := by
  fun_cases State.takeSignalEntry s role seq at_ e <;> simp +zetaDelta
@[simp] theorem fab_signalFrame (s : State) (berth role epoch : Nat) (m : SignalMsg) :
    (s.signalFrame berth role epoch m).fab = s.fab := by simp [State.signalFrame, fab_ite, fab_foldl]
@[simp] theorem fab_sendSignals (s : State) (n p : Nat) (es : List SignalEntry) : (s.sendSignals n p es).fab = s.fab := by
  unfold State.sendSignals
  exact (fab_foldl (fun z c => by simp) _ _).trans (fab_foldl (fun _ _ => by simp) es s)
@[simp] theorem fab_cycleFail (s : State) (n cause : Nat) : (s.cycleFail n cause).fab = s.fab := by
  fun_cases State.cycleFail s n cause
  · simp +zetaDelta only [fab_sendSignals, State.fab_setSlot]
    exact fab_foldl (fun _ _ => by simp) _ _
  · rfl
@[simp] theorem fab_sendKeep (s : State) (r p : Nat) : (s.sendKeep r p).fab = s.fab := by
  fun_cases State.sendKeep s r p <;> simp
@[simp] theorem fab_sendFrags (s : State) (o : OwnRole) (fs : List MirrorFrag) : (s.sendFrags o fs).fab = s.fab := by
  simp [State.sendFrags, fab_foldl]
@[simp] theorem fab_sendGeneration (s : State) (r tag : Nat) (full : Bool) (items : List MirrorItem) :
    (s.sendGeneration r tag full items).fab = s.fab := by
  fun_cases State.sendGeneration s r tag full items <;> simp +zetaDelta [fab_ite]
@[simp] theorem fab_tenantGeneration (s : State) (n p inD outD : Nat) : (s.tenantGeneration n p inD outD).fab = s.fab := by
  fun_cases State.tenantGeneration s n p inD outD <;> simp
@[simp] theorem fab_publishOutputs (s : State) (n p : Nat) : (s.publishOutputs n p).fab = s.fab := by
  simp [State.publishOutputs, fab_foldl]
@[simp] theorem fab_publishShadow (s : State) (n p : Nat) : (s.publishShadow n p).fab = s.fab := by
  fun_cases State.publishShadow s n p <;> simp +zetaDelta
@[simp] theorem fab_slotStarts (s : State) (n : Nat) : (s.slotStarts n).fab = s.fab := by
  fun_cases State.slotStarts s n <;> simp
@[simp] theorem fab_startCycle (s : State) (n i : Nat) : (s.startCycle n i).fab = s.fab := by
  fun_cases State.startCycle s n i <;> simp +zetaDelta

/-! ### NetOps -/

@[simp] theorem fab_setPeer (s : State) (p : PeerPath) : (s.setPeer p).fab = s.fab := rfl
@[simp] theorem fab_setStreamRx (s : State) (x : StreamRx) : (s.setStreamRx x).fab = s.fab := rfl
@[simp] theorem fab_sendAck (s : State) (h : GHead) : (s.sendAck h).fab = s.fab := by simp [State.sendAck]
@[simp] theorem fab_sendMoved (s : State) (h : GHead) (role : Nat) : (s.sendMoved h role).fab = s.fab := by
  simp [State.sendMoved]
@[simp] theorem fab_pumpStream (s : State) (peer fuel : Nat) : (s.pumpStream peer fuel).fab = s.fab := by
  fun_induction State.pumpStream s peer fuel <;> simp_all
@[simp] theorem fab_keepAcked (s : State) (b : GBody) : (s.keepAcked b).fab = s.fab := by
  fun_cases State.keepAcked s b <;> simp
@[simp] theorem fab_acked (s : State) (peer ack : Nat) : (s.acked peer ack).fab = s.fab := by
  fun_cases State.acked s peer ack
  · rfl
  · simp only [fab_pumpStream, fab_setStreamTx]
    exact fab_foldl (fun _ _ => fab_keepAcked ..) _ s
@[simp] theorem fab_ackedOne (s : State) (peer seq : Nat) : (s.ackedOne peer seq).fab = s.fab := by
  simp [State.ackedOne]
@[simp] theorem fab_partnerEpochs (s : State) (b : Nat) (es : List RoleEntry) : (s.partnerEpochs b es).fab = s.fab := by
  unfold State.partnerEpochs
  exact fab_foldl (fun _ _ => by simp) es s
@[simp] theorem fab_containersSeen (before s : State) : (before.containersSeen s).fab = s.fab := by
  unfold State.containersSeen
  exact fab_foldl (fun z k => by
    split
    · rfl
    · simp [fab_ite]) _ s
@[simp] theorem fab_berthPriorities (s : State) (b : Nat) : (s.berthPriorities b).fab = s.fab := by
  simp [State.berthPriorities]
@[simp] theorem fab_takeBerth (s : State) (b : Nat) (st : BerthState) : (s.takeBerth b st).fab = s.fab := by
  unfold State.takeBerth
  exact fab_foldl (fun _ _ => by simp) _ _
@[simp] theorem fab_noBerth (s : State) (st : BerthState) (ev : Nat) : (s.noBerth st ev).fab = s.fab := by
  simp [State.noBerth]
@[simp] theorem fab_derived (s : State) (b : Nat) (st : BerthState) : (s.derived b st).fab = s.fab := by
  fun_cases State.derived s b st <;> simp +zetaDelta
@[simp] theorem fab_derive (s : State) : s.derive.fab = s.fab := by fun_cases State.derive s <;> simp +zetaDelta

/-! ### Can -/

@[simp] theorem fab_filterDo (s : State) (ctl i : Nat) (f : CanFilter) : (s.filterDo ctl i f).fab = s.fab := by
  simp [State.filterDo]

/-! ### Lane -/

@[simp] theorem fab_portLeaves (s : State) (p : Nat) : (s.portLeaves p).fab = s.fab := by simp [State.portLeaves]
@[simp] theorem fab_configure (s : State) (n : Nat) (c : LaneConfig) : (s.configure n c).fab = s.fab := by
  have leave (l : List Nat) (u : State) : (l.foldl (fun z p => z.portLeaves p) u).fab = u.fab :=
    fab_foldl (fun _ _ => fab_portLeaves ..) l u
  have train (l : List Nat) (u : State) : (l.foldl (fun z p => z.toTrain p) u).fab = u.fab :=
    fab_foldl (fun _ _ => fab_toTrain ..) l u
  simp [State.configure, fab_ite, leave, train]
@[simp] theorem fab_prechargeFail (s : State) (n cause : Nat) : (s.prechargeFail n cause).fab = s.fab := by
  simp [State.prechargeFail]
@[simp] theorem fab_armPrecharge (s : State) (n : Nat) : (s.armPrecharge n).fab = s.fab := by simp [State.armPrecharge]
@[simp] theorem fab_armNode (s : State) (n : Nat) : (s.armNode n).fab = s.fab := by fun_cases State.armNode s n <;> simp
@[simp] theorem fab_reportPeriod (s : State) (n : Nat) : (s.reportPeriod n).fab = s.fab := by
  fun_cases State.reportPeriod s n <;> simp
@[simp] theorem fab_feedbackDo (n k : Nat) (closed : Bool) (s : State) : (feedbackDo n k closed s).fab = s.fab := by
  simp [feedbackDo]

/-! ### Model -/

@[simp] theorem fab_writeLearned (s : State) (p c : Nat) (l : Learned) : (s.writeLearned p c l).fab = s.fab := by
  simp [State.writeLearned]
@[simp] theorem fab_stepCell (s : State) (n p c tag : Nat) (slot : Bool) : (s.stepCell n p c tag slot).fab = s.fab := by
  fun_cases State.stepCell s n p c tag slot <;> simp
@[simp] theorem fab_publishLimits (s : State) (n p : Nat) : (s.publishLimits n p).fab = s.fab := by
  fun_cases State.publishLimits s n p <;> simp +zetaDelta
@[simp] theorem fab_stepPort (s : State) (n p : Nat) : (s.stepPort n p).fab = s.fab := by
  simp [State.stepPort, fab_ite, fab_foldl]
@[simp] theorem fab_openEstimate (s : State) (p c : Nat) (q : ParamSet) : (s.openEstimate p c q).fab = s.fab := by
  simp [State.openEstimate]

/-! ### Sound -/

@[simp] theorem fab_openBalancing (s : State) (n : Nat) : (s.openBalancing n).fab = s.fab := by
  simp [State.openBalancing, fab_foldl]
@[simp] theorem fab_decideStep (s : State) (n : Nat) (a : SoundStep) : (s.decideStep n a).fab = s.fab := by
  fun_cases State.decideStep s n a <;> simp +zetaDelta
@[simp] theorem fab_fitStep (s : State) (n : Nat) (a : SoundStep) : (s.fitStep n a).fab = s.fab := by
  simp [State.fitStep]
@[simp] theorem fab_closeSet (s : State) (n set_ : Nat) : (s.closeSet n set_).fab = s.fab := by
  simp only [State.closeSet, fab_requestCommit, fab_event, State.updLaneSound_eq, State.fab_setLaneSound]
  refine fab_foldl (fun z p => fab_foldl (fun y c => ?_) _ z) _ s
  split
  · split <;> rfl
  · rfl
@[simp] theorem fab_fullEndpoint (s : State) (n : Nat) : (s.fullEndpoint n).fab = s.fab := by
  unfold State.fullEndpoint
  exact fab_foldl (fun z _ => fab_foldl (fun _ _ => by simp) _ z) _ s
@[simp] theorem fab_emptyEndpoint (s : State) (n : Nat) : (s.emptyEndpoint n).fab = s.fab := by
  simp only [State.emptyEndpoint, fab_requestCommit, fab_event, State.updSpring_eq, State.fab_setSpring]
  exact fab_foldl (fun z _ => fab_foldl (fun _ _ => by simp) _ z) _ s
@[simp] theorem fab_springBase (s : State) (n tag : Nat) : (s.springBase n tag).fab = s.fab := by
  fun_cases State.springBase s n tag <;> simp

/-! ### Change -/

@[simp] theorem fab_updChange (s : State) (id : Nat) (f : Change → Change) : (s.updChange id f).fab = s.fab := rfl
@[simp] theorem fab_addChange (s : State) (c : Change) : (s.addChange c).fab = s.fab := rfl
@[simp] theorem fab_setMode (s : State) (v : Nat) : (s.setMode v).fab = s.fab := by simp [State.setMode]
@[simp] theorem fab_toNew (s : State) (c : Change) : (s.toNew c).2.fab = s.fab := by
  unfold State.toNew
  split
  · dsimp only
    rw [fab_setMode]
  · dsimp only
    rw [fab_placeEntries]
    exact fab_foldl (fun _ _ => by simp) _ s
@[simp] theorem fab_toOld (s : State) (c : Change) : (s.toOld c).fab = s.fab := by
  fun_cases State.toOld s c
  · simp
  · simp only [fab_placeEntries]
    exact fab_foldl (fun z n => by simp [fab_ite]) _ s
@[simp] theorem fab_reportTaken (s : State) (berth : Nat) (m : ReportMsg) : (s.reportTaken berth m).fab = s.fab := by
  simp [State.reportTaken]
@[simp] theorem fab_sendReport (s : State) (c : Change) (outcome inForce : Nat) :
    (s.sendReport c outcome inForce).fab = s.fab := by
  fun_cases State.sendReport s c outcome inForce <;> simp
@[simp] theorem fab_memberPropose (s : State) (coord : Nat) (p : Proposal) : (s.memberPropose coord p).2.fab = s.fab := by
  fun_cases State.memberPropose s coord p <;> simp
@[simp] theorem fab_modeEntry (s : State) (c : Change) (p : Nat) : (s.modeEntry c p).fab = s.fab := by
  unfold State.modeEntry
  cases c.entry <;> dsimp only <;> split <;> simp
@[simp] theorem fab_memberCommit (s : State) (id n : Nat) : (s.memberCommit id n).fab = s.fab := by
  fun_cases State.memberCommit s id n <;> simp
@[simp] theorem fab_memberFallBack (s : State) (id m : Nat) : (s.memberFallBack id m).fab = s.fab := by
  fun_cases State.memberFallBack s id m <;> simp
@[simp] theorem fab_sendMember (s : State) (b : Nat) (body : GBody) : (s.sendMember b body).fab = s.fab := by
  fun_cases State.sendMember s b body <;> simp +zetaDelta
@[simp] theorem fab_nextRound (s : State) (c : Change) (l : List ChangeMember) (fall : Bool) :
    (s.nextRound c l fall).fab = s.fab := by simp [State.nextRound, fab_foldl]
@[simp] theorem fab_changeFires (s : State) (c : Change) (e : Nat) : (s.changeFires c e).fab = s.fab := by
  fun_cases State.changeFires s c e <;> simp +zetaDelta

/-! ### Mailbox -/

@[simp] theorem fab_writeIntStatus (s : State) (v : Nat) : (s.writeIntStatus v).fab = s.fab := rfl
@[simp] theorem fab_enableBox (s : State) (m : Nat) (on : Bool) : (s.enableBox m on).fab = s.fab := by
  simp [State.enableBox]
@[simp] theorem fab_writePending (s : State) (w v : Nat) : (s.writePending w v).fab = s.fab := rfl
theorem fab_bellChannel (s : State) (c : Nat) {f : State → State} (h : ∀ z, (f z).fab = z.fab) : (s.bellChannel c f).fab = s.fab := by
  fun_cases State.bellChannel s c f <;> simp [h]
@[simp] theorem fab_bar2Read (s : State) (o n : Nat) : (s.bar2Read o n).fab = s.fab := rfl
@[simp] theorem fab_writeRegister (s : State) (o v : Nat) : (s.writeRegister o v).fab = s.fab := by
  simp [State.writeRegister, fab_ite, fab_bellChannel]

/-! ### Net -/

@[simp] theorem fab_mapLoadDo (entries : List BerthEntry) (s : State) : (mapLoadDo entries s).fab = s.fab := rfl
@[simp] theorem fab_announce (s : State) : s.announce.fab = s.fab := by simp [State.announce, fab_foldl]

/-! ### PairOps -/

@[simp] theorem fab_toSyncing (s : State) (r : Nat) : (s.toSyncing r).fab = s.fab := by simp [State.toSyncing]
@[simp] theorem fab_toStale (s : State) (r : Nat) : (s.toStale r).fab = s.fab := by simp [State.toStale]
@[simp] theorem fab_abortArmed (s : State) (n : Nat) : (s.abortArmed n).fab = s.fab := by simp [State.abortArmed]
@[simp] theorem fab_driveLane (s : State) (n : Nat) : (s.driveLane n).fab = s.fab := by
  fun_cases State.driveLane s n <;> simp
@[simp] theorem fab_takeLane (s : State) (n r : Nat) : (s.takeLane n r).fab = s.fab := by simp [State.takeLane, fab_ite]
@[simp] theorem fab_takeHelm (s : State) (n : Nat) : (s.takeHelm n).fab = s.fab := by fun_cases State.takeHelm s n <;> simp
@[simp] theorem fab_tryHelm (s : State) (n : Nat) : (s.tryHelm n).fab = s.fab := by fun_cases State.tryHelm s n <;> simp
@[simp] theorem fab_grantLighthouse (s : State) : s.grantLighthouse.fab = s.fab := by
  fun_cases State.grantLighthouse s <;> rfl
@[simp] theorem fab_resolveRole (s : State) (o : OwnRole) : (s.resolveRole o).fab = s.fab := by
  fun_cases State.resolveRole s o <;> simp
@[simp] theorem fab_assignMismatch (s : State) (r : Nat) : (s.assignMismatch r).fab = s.fab := by
  simp [State.assignMismatch]
@[simp] theorem fab_decideRole (s : State) (r : Nat) : (s.decideRole r).fab = s.fab := by
  fun_cases State.decideRole s r <;> simp +zetaDelta [fab_ite]
@[simp] theorem fab_followGraph (s : State) (r : Nat) : (s.followGraph r).fab = s.fab := by
  fun_cases State.followGraph s r <;> simp
@[simp] theorem fab_mismatch (s : State) (r kind : Nat) : (s.mismatch r kind).fab = s.fab := by
  fun_cases State.mismatch s r kind <;> simp +zetaDelta
@[simp] theorem fab_peerSays (s : State) (r epoch format : Nat) : (s.peerSays r epoch format).fab = s.fab := by
  fun_cases State.peerSays s r epoch format <;> simp +zetaDelta
@[simp] theorem fab_answerSwap (s : State) (r : Nat) : (s.answerSwap r).fab = s.fab := by
  fun_cases State.answerSwap s r <;> simp
@[simp] theorem fab_testStart (s : State) (r at_ : Nat) : (s.testStart r at_).fab = s.fab := by simp [State.testStart]
@[simp] theorem fab_laneGeneration (s : State) (n tag : Nat) (updated : List Nat) :
    (s.laneGeneration n tag updated).fab = s.fab := by
  fun_cases State.laneGeneration s n tag updated <;> simp
@[simp] theorem fab_applyCell (s : State) (r tag : Nat) (c : CellItem) : (s.applyCell r tag c).fab = s.fab := by
  fun_cases State.applyCell s r tag c <;> simp +zetaDelta
@[simp] theorem fab_applyDigest (s : State) (r seq inD outD : Nat) : (s.applyDigest r seq inD outD).fab = s.fab := by
  fun_cases State.applyDigest s r seq inD outD <;> simp
@[simp] theorem fab_applyLearned (s : State) (p : Nat) (b : List Byte) : (s.applyLearned p b).fab = s.fab := by
  unfold State.applyLearned
  exact fab_foldl (fun _ _ => by simp) _ _
@[simp] theorem fab_applySpring (s : State) (n p phase : Nat) (iK : Int) (tag : Nat) (cells : List (Nat × Nat × Int)) :
    (s.applySpring n p phase iK tag cells).fab = s.fab := by
  unfold State.applySpring
  exact fab_foldl (fun z c => by split <;> rfl) _ _
@[simp] theorem fab_applyItem (s : State) (r tag : Nat) (i : MirrorItem) : (s.applyItem r tag i).fab = s.fab := by
  cases i <;> simp [State.applyItem]
@[simp] theorem fab_applyGeneration (s : State) (r : Nat) (fs : List MirrorFrag) : (s.applyGeneration r fs).fab = s.fab := by
  fun_cases State.applyGeneration s r fs
  · rfl
  · exact fab_foldl (fun z i => by split <;> simp) _ s
  · rfl
  · exact fab_foldl (fun z i => fab_applyItem ..) _ _
@[simp] theorem fab_takeFrag (s : State) (r : Nat) (f : MirrorFrag) : (s.takeFrag r f).fab = s.fab := by
  fun_cases State.takeFrag s r f <;> simp
@[simp] theorem fab_trackContactors (s : State) (n bits : Nat) : (s.trackContactors n bits).fab = s.fab := by
  simp [State.trackContactors]
@[simp] theorem fab_compareLoop (s : State) (o : OwnRole) (n : Nat) (item : LoopItem) :
    (s.compareLoop o n item).fab = s.fab := by simp [State.compareLoop, fab_ite]
@[simp] theorem fab_followLane (s : State) (n state : Nat) : (s.followLane n state).fab = s.fab := by
  fun_cases State.followLane s n state <;> simp
@[simp] theorem fab_loopArrives (s : State) (o : OwnRole) (n : Nat) (item : LoopItem) :
    (s.loopArrives o n item).fab = s.fab := by
  fun_cases State.loopArrives s o n item <;> simp +zetaDelta
@[simp] theorem fab_sideHeard (s : State) : s.sideHeard.fab = s.fab := by simp [State.sideHeard, fab_ite, fab_foldl]
@[simp] theorem fab_twinHeard (s : State) (i : Nat) : (s.twinHeard i).fab = s.fab := by simp [State.twinHeard]

/-! ### Pair -/

@[simp] theorem fab_roleSetDo (a : Assignment) (s : State) : (roleSetDo a s).fab = s.fab := rfl
@[simp] theorem fab_conflictRole (s : State) (n : Nat) : (s.conflictRole n).fab = s.fab := by
  fun_cases State.conflictRole s n <;> simp +zetaDelta

/-! ### Protect -/

@[simp] theorem fab_limitsDo (s : State) (n ov uv plt : Nat) : (s.limitsDo n ov uv plt).fab = s.fab := by
  simp [State.limitsDo]
@[simp] theorem fab_ocDo (s : State) (n str ph filt : Nat) : (s.ocDo n str ph filt).fab = s.fab := by simp [State.ocDo]
@[simp] theorem fab_ioDo (s : State) (disc : Nat) (fire : Bool) (masks : List Nat) :
    (s.ioDo disc fire masks).fab = s.fab := rfl
@[simp] theorem fab_hbDo (s : State) (hb : Nat) : (s.hbDo hb).fab = s.fab := rfl
@[simp] theorem fab_linkDo (s : State) (l : LinkSet) : (s.linkDo l).fab = s.fab := by fun_cases State.linkDo s l <;> rfl
@[simp] theorem fab_windowDo (s : State) (k n w : Nat) : (s.windowDo k n w).fab = s.fab := rfl
@[simp] theorem fab_writeFaultRecords (s : State) (from_ : Nat) : (s.writeFaultRecords from_).fab = s.fab := rfl
@[simp] theorem fab_updComp (s : State) (n k : Nat) (f : Comparator → Comparator) : (s.updComp n k f).fab = s.fab := by
  simp [State.updComp]
@[simp] theorem fab_estopLevels (s : State) (a b : Bool) : (s.estopLevels a b).fab = s.fab := rfl
@[simp] theorem fab_outCheck (s : State) : s.outCheck.fab = s.fab := by fun_cases State.outCheck s <;> simp +zetaDelta
@[simp] theorem fab_clearLatch (s : State) (lane : Option Nat) (causes : List Nat) : (s.clearLatch lane causes).fab = s.fab := by
  fun_cases State.clearLatch s lane causes
  · simp
  · cases lane <;> simp
@[simp] theorem fab_clearLatches (s : State) : s.clearLatches.fab = s.fab := by
  simp [State.clearLatches, fab_ite, fab_foldl]
@[simp] theorem fab_linkOut (s : State) (x : LinkTx) (bytes : List Byte) (inserted : Bool) (lan : Lan) :
    (s.linkOut x bytes inserted lan).fab = s.fab := by
  fun_cases State.linkOut s x bytes inserted lan <;> simp
@[simp] theorem fab_sendSafe (s : State) (x : LinkTx) (insertA insertB : Bool) :
    (s.sendSafe x insertA insertB).fab = s.fab := by simp [State.sendSafe]
@[simp] theorem fab_updRx (s : State) (berth link : Nat) (f : LinkRx → LinkRx) : (s.updRx berth link f).fab = s.fab := rfl
@[simp] theorem fab_singleCopy (s : State) (berth link seq : Nat) : (s.singleCopy berth link seq).fab = s.fab := by
  simp [State.singleCopy]
@[simp] theorem fab_lanHeard (s : State) (l : Lan) : (s.lanHeard l).fab = s.fab := by simp [State.lanHeard]

/-! ### Store -/

@[simp] theorem fab_volatileNow (s : State) : s.volatileNow.fab = s.fab := by fun_cases State.volatileNow s <;> simp
@[simp] theorem fab_wearEffects (s : State) : s.wearEffects.fab = s.fab := by
  fun_cases State.wearEffects s <;> simp +zetaDelta
@[simp] theorem fab_badSector (s : State) (k sector : Nat) : (s.badSector k sector).fab = s.fab := by
  fun_cases State.badSector s k sector <;> simp +zetaDelta
@[simp] theorem fab_retried (s : State) (k : Nat) : (s.retried k).fab = s.fab := by
  fun_cases State.retried s k <;> simp +zetaDelta
@[simp] theorem fab_headerWritten (s : State) : s.headerWritten.fab = s.fab := rfl
@[simp] theorem fab_pageOver (s : State) (o : Op) : (s.pageOver o).fab = s.fab := by
  fun_cases State.pageOver s o <;> simp +zetaDelta
@[simp] theorem fab_commitFailed (s : State) : s.commitFailed.fab = s.fab := by simp [State.commitFailed]
@[simp] theorem fab_stored (s : State) (c : Commit) : (s.stored c).fab = s.fab := rfl
@[simp] theorem fab_commitMade (s : State) (c : Commit) : (s.commitMade c).fab = s.fab := by
  fun_cases State.commitMade s c <;> simp +zetaDelta
@[simp] theorem fab_writeBatch (s : State) (l : List EventRec) : (s.writeBatch l).fab = s.fab := by
  fun_cases State.writeBatch s l <;> simp +zetaDelta
@[simp] theorem fab_countLost (s : State) : s.countLost.fab = s.fab := by fun_cases State.countLost s <;> simp
@[simp] theorem fab_scrubProblem (s : State) (k structure_ : Nat) : (s.scrubProblem k structure_).fab = s.fab := by
  fun_cases State.scrubProblem s k structure_ <;> simp +zetaDelta

/-! ### Security -/

@[simp] theorem fab_expireSessions (s : State) (issuer : Nat) : (s.expireSessions issuer).fab = s.fab := rfl
@[simp] theorem fab_debugTo (s : State) (l : DebugLevel) (session : Option Nat) : (s.debugTo l session).fab = s.fab := by
  simp [State.debugTo]
@[simp] theorem fab_tryBoot (s : State) (check : Nat → SlotCheck) (l : List Nat) : (s.tryBoot check l).2.fab = s.fab := by
  fun_induction State.tryBoot s check l <;> simp_all
@[simp] theorem fab_failTrials (s : State) : s.failTrials.fab = s.fab := by simp [State.failTrials, fab_ite]
@[simp] theorem fab_bootImage (s : State) (a b : SlotCheck) : (s.bootImage a b).fab = s.fab := by
  have boots (u : State) (check : Nat → SlotCheck) (l : List Nat) {r : Option Nat × State} (h : u.tryBoot check l = r) :
      r.2.fab = u.fab := h ▸ fab_tryBoot u check l
  unfold State.bootImage
  dsimp only
  split
  · next u h => simpa using boots _ _ _ h
  · next k u h => simpa using boots _ _ _ h
@[simp] theorem fab_trialGood (s : State) : s.trialGood.fab = s.fab := by fun_cases State.trialGood s <;> simp +zetaDelta

/-! ### Tap -/

@[simp] theorem fab_remodel (s : State) (p : Nat) : (s.remodel p).fab = s.fab := by
  simp [State.remodel, fab_ite, fab_foldl]
@[simp] theorem fab_storeFrame (s : State) (p : Nat) (b : List Byte) (f : PortSample) :
    (s.storeFrame p b f).fab = s.fab := by
  fun_cases State.storeFrame s p b f <;> simp +zetaDelta
@[simp] theorem fab_frameFaults (s : State) (p : Nat) (crc disagree : Bool) :
    (s.frameFaults p crc disagree).fab = s.fab := by simp [State.frameFaults, fab_ite]
theorem fab_linkFrame (s : State) (p : Nat) (rx : TapRx) (expected : Bool) {f : State → State} (h : ∀ z, (f z).fab = z.fab) :
    (s.linkFrame p rx expected f).fab = s.fab := by
  simp [State.linkFrame, fab_ite, h]
@[simp] theorem fab_frameErrorDo (p : Nat) (rx : TapRx) (s : State) : (frameErrorDo p rx s).fab = s.fab := by
  simp [frameErrorDo, fab_ite, fab_linkFrame]
@[simp] theorem fab_helloDo (p : Nat) (b : List Byte) (s : State) : (helloDo p b s).fab = s.fab := by
  fun_cases helloDo p b s <;> simp +zetaDelta [fab_ite]
@[simp] theorem fab_echoReplyDo (p startEdge : Nat) (s : State) : (echoReplyDo p startEdge s).fab = s.fab := by
  fun_cases echoReplyDo p startEdge s <;> simp
@[simp] theorem fab_ackDo (p result : Nat) (c : TapCmd) (s : State) : (ackDo p result c s).fab = s.fab := by
  fun_cases ackDo p result c s <;> simp
@[simp] theorem fab_markStalled (s : State) (p : Nat) : (s.markStalled p).fab = s.fab := by
  fun_cases State.markStalled s p <;> simp
@[simp] theorem fab_tapWindowDo (p : Nat) (s : State) : (windowDo p s).fab = s.fab := by
  fun_cases windowDo p s <;> simp +zetaDelta

/-! ### Tenant -/

@[simp] theorem fab_signalConfigDo (delay refresh : Nat) (s : State) : (signalConfigDo delay refresh s).fab = s.fab := rfl

/-! ### PowerOps -/

@[simp] theorem fab_sleepPort (s : State) (p : Nat) : (s.sleepPort p).fab = s.fab := by
  fun_cases State.sleepPort s p <;> simp
@[simp] theorem fab_sleepPorts (s : State) : s.sleepPorts.fab = s.fab := by simp [State.sleepPorts, fab_foldl]
@[simp] theorem fab_putOffCommit (s : State) : s.putOffCommit.fab = s.fab := rfl
@[simp] theorem fab_partEnds (s : State) : s.partEnds.fab = s.fab := by simp [State.partEnds]
@[simp] theorem fab_lastWrites (s : State) (commit : Bool) : (s.lastWrites commit).fab = s.fab := by
  fun_cases State.lastWrites s commit <;> simp +zetaDelta <;> split <;> simp [fab_ite]
@[simp] theorem fab_reach (s : State) (n : Nat) : (s.reach n).fab = s.fab := by simp [State.reach]
@[simp] theorem fab_loadCoefficients (s : State) : s.loadCoefficients.fab = s.fab := by
  unfold State.loadCoefficients
  induction s.ana.calStored with
  | nil => rfl
  | cons r l ih =>
    rw [List.foldr_cons, ← ih]
    split <;> rfl
@[simp] theorem fab_loadCommit (s : State) : s.loadCommit.fab = s.fab := by
  have lanes : (s.store.laneCounts.foldl (fun (z : State) (x : Nat × List Nat) => z.updLane x.1 fun l => l.withCounts x.2) s).fab
      = s.fab := fab_foldl (fun _ _ => by simp) _ s
  fun_cases State.loadCommit s
  · exact (fab_foldl (fun z x => by split <;> rfl) _ _).trans lanes
  · exact lanes

/-! ### NetRx -/

@[simp] theorem fab_orphan (s : State) : s.orphan.fab = s.fab := rfl
@[simp] theorem fab_updRequest (s : State) (corr : Nat) (f : SentReq → SentReq) : (s.updRequest corr f).fab = s.fab := rfl
@[simp] theorem fab_mailReply (s : State) (corr : Nat) (b : List Byte) : (s.mailReply corr b).fab = s.fab := by
  fun_cases State.mailReply s corr b <;> simp
@[simp] theorem fab_mirrorMsg (s : State) (f : MirrorFrag) : (s.mirrorMsg f).fab = s.fab := by
  fun_cases State.mirrorMsg s f <;> simp
@[simp] theorem fab_proposeMsg (s : State) (h : GHead) (p : Proposal) : (s.proposeMsg h p).fab = s.fab := by
  fun_cases State.proposeMsg s h p <;> simp +zetaDelta
@[simp] theorem fab_proposeAckMsg (s : State) (h : GHead) (id result : Nat) :
    (s.proposeAckMsg h id result).fab = s.fab := by
  fun_cases State.proposeAckMsg s h id result <;> simp
@[simp] theorem fab_dupOn (s : State) (l : Option Lan) : (s.dupOn l).fab = s.fab := by cases l <;> rfl
@[simp] theorem fab_forgetStream (s : State) (k : Nat) : (s.forgetStream k).fab = s.fab := by simp [State.forgetStream]

/-! ### Power -/

@[simp] theorem fab_endAlarms (s : State) : s.endAlarms.fab = s.fab := by simp [State.endAlarms, fab_foldl]
@[simp] theorem fab_findDevice (s : State) (k : Nat) (meets : Bool) : (s.findDevice k meets).fab = s.fab := by
  fun_cases State.findDevice s k meets <;> simp +zetaDelta
@[simp] theorem fab_powerStep2 (s : State) : s.powerStep2.fab = s.fab := by
  unfold State.powerStep2
  exact (fab_foldl (fun _ _ => by simp) _ _).trans (fab_dropHelmLines s)

/-! ### Thermal -/

@[simp] theorem fab_balancePlan (s : State) (n : Nat) : (s.balancePlan n).fab = s.fab := by
  simp [State.balancePlan, fab_foldl]
@[simp] theorem fab_startTest (s : State) (p c : Nat) : (s.startTest p c).fab = s.fab := by
  fun_cases State.startTest s p c <;> simp +zetaDelta
@[simp] theorem fab_testVerdict (s : State) (p : Nat) (q : SwitchTest) (v : Nat) : (s.testVerdict p q v).fab = s.fab := by
  simp [State.testVerdict, fab_ite]
@[simp] theorem fab_testStep (s : State) (n p : Nat) (q : SwitchTest) : (s.testStep n p q).fab = s.fab := by
  fun_cases State.testStep s n p q <;> simp +zetaDelta
@[simp] theorem fab_sampleSensor (s : State) (g : ThermConfig) (tag : Nat) (k : Nat × Nat) :
    (s.sampleSensor g tag k).fab = s.fab := by simp [State.sampleSensor, fab_ite]
@[simp] theorem fab_updDie (s : State) (f : Die → Die) : (s.updDie f).fab = s.fab := rfl

/-! ### Time -/

@[simp] theorem fab_announceDo (l : Lan) (a : Announce) (s : State) : (announceDo l a s).fab = s.fab := by
  fun_cases announceDo l a s <;> simp
@[simp] theorem fab_pairOffsets (s : State) : s.pairOffsets.fab = s.fab := by
  fun_cases State.pairOffsets s <;> simp +zetaDelta
@[simp] theorem fab_syncDo (l : Lan) (m : SyncMsg) (s : State) : (syncDo l m s).fab = s.fab := by simp [syncDo, fab_ite]
@[simp] theorem fab_delayRespDo (l : Lan) (m : DelayResp) (t3 : Nat) (s : State) : (delayRespDo l m t3 s).fab = s.fab := by
  simp [delayRespDo]
@[simp] theorem fab_loseMaster (s : State) (l : Nat) : (s.loseMaster l).fab = s.fab := by
  fun_cases State.loseMaster s l <;> simp
@[simp] theorem fab_tidePublishDo (o : OwnRole) (s : State) : (tidePublishDo o s).fab = s.fab := by
  fun_cases tidePublishDo o s <;> simp +zetaDelta
theorem fab_withReplan {f : State → State} (h : ∀ z, (f z).fab = z.fab) (s : State) : (withReplan f s).fab = s.fab := by
  simp [withReplan, fab_ite, h]
@[simp] theorem fab_turnAway (s : State) (l : Lan) (bytes : List Byte) (m : TideMsg) (f : Tide → Tide) :
    (s.turnAway l bytes m f).fab = s.fab := by
  fun_cases State.turnAway s l bytes m f <;> simp +zetaDelta
@[simp] theorem fab_heardSequence (s : State) (m : TideMsg) : (s.heardSequence m).fab = s.fab := by
  simp [State.heardSequence]
@[simp] theorem fab_adoptCount (s : State) (m : TideMsg) : (s.adoptCount m).fab = s.fab := by
  fun_cases State.adoptCount s m <;> rfl
@[simp] theorem fab_tideMessageDo (l : Lan) (bytes : List Byte) (m : TideMsg) (s : State) :
    (tideMessageDo l bytes m s).fab = s.fab := by simp [tideMessageDo, fab_ite]
@[simp] theorem fab_passPeriodic (s : State) (a b n : Nat) : (s.passPeriodic a b n).fab = s.fab := by
  fun_cases State.passPeriodic s a b n <;> simp
@[simp] theorem fab_recountDo (d : Int) (s0 : State) : (recountDo d s0).fab = s0.fab := by simp [recountDo, fab_foldl]
@[simp] theorem fab_armFiring (n k pos t0 : Nat) (s0 : State) : (armFiring n k pos t0 s0).fab = s0.fab := by
  fun_cases armFiring n k pos t0 s0 <;> simp +zetaDelta

/-! ### Strobe -/

@[simp] theorem fab_syncLane (s : State) (n t0 tag armedAt : Nat) (serialReq echo : Nat → Bool) :
    (s.syncLane n t0 tag armedAt serialReq echo).fab = s.fab := by simp [State.syncLane, fab_foldl]
@[simp] theorem fab_syncLanes (s : State) (mask t0 tag armedAt : Nat) (serialReq echo : Nat → Bool) :
    (s.syncLanes mask t0 tag armedAt serialReq echo).fab = s.fab := by simp [State.syncLanes, fab_foldl]
@[simp] theorem fab_publishModel (s : State) (n : Nat) : (s.publishModel n).fab = s.fab := by
  simp [State.publishModel, fab_foldl]
@[simp] theorem fab_publishLane (s : State) (n : Nat) : (s.publishLane n).fab = s.fab := by simp [State.publishLane]
@[simp] theorem fab_laneRun (s : State) (n : Nat) : (s.laneRun n).fab = s.fab := by fun_cases State.laneRun s n <;> simp
@[simp] theorem fab_alignLane (s : State) (n pos : Nat) : (s.alignLane n pos).fab = s.fab := by
  simp [State.alignLane, fab_ite, fab_foldl]
@[simp] theorem fab_countCapture (s : State) (n pos : Nat) : (s.countCapture n pos).fab = s.fab := by
  simp [State.countCapture]
@[simp] theorem fab_slackInstant (s : State) (a : ArmedFiring) : (s.slackInstant a).fab = s.fab := by
  simp [State.slackInstant]
@[simp] theorem fab_saveCapture (s : State) (n p tag : Nat) : (s.saveCapture n p tag).fab = s.fab := by
  unfold State.saveCapture
  exact fab_foldl (fun _ _ => by simp) _ s
@[simp] theorem fab_beachCommit (s : State) : s.beachCommit.fab = s.fab := by fun_cases State.beachCommit s <;> simp

/-! ### Step -/

@[simp] theorem fab_tick (s : State) : s.tick.fab = s.fab := fab_clock s _

end Sys2Proof.Machine
end

