-- ==== Sys2Proof/Proofs/Canonical.lean ====
section
/-! PROOF. The operations that reach a memory keep its canonical form (01 R24, R25): each write goes through `writeBytes`, and what clears
a memory leaves it empty. -/

namespace Sys2Proof.Machine

open Sys2Proof
set_option Elab.async false

/-- Both memories of a fabric are in the canonical form. -/
def Fabric.Canonical (f : Fabric) : Prop := Memory.wf f.lpddr = true ∧ Memory.wf f.sram = true
theorem memWf_iff (s : State) : MemWf s ↔ s.fab.Canonical := Iff.rfl
theorem canonical_ite (c : Prop) [Decidable c] (a b : Fabric) :
    (if c then a else b).Canonical ↔ if c then a.Canonical else b.Canonical := by split <;> rfl
theorem canonical_foldl {α : Type} {f : State → α → State} (hf : ∀ z x, z.fab.Canonical → (f z x).fab.Canonical) (l : List α)
    {s : State} (h : s.fab.Canonical) : (l.foldl f s).fab.Canonical := memWf_fold hf l h
/-- The form as a property of the whole state. A law that states it so of `f z` lets the kernel compare two spellings of `f z` as they
stand, where `State.fab` would have it evaluate both. -/
def State.Canonical (s : State) : Prop := s.fab.Canonical
theorem canonical_foldl_state {α : Type} {f : State → α → State} (hf : ∀ z x, z.Canonical → (f z x).Canonical) (l : List α)
    {s : State} (h : s.Canonical) : (l.foldl f s).Canonical := canonical_foldl hf l h
@[simp] theorem canonical_checked (l : List (Bool × Nat)) (a : Answer) {s : State} (h : s.fab.Canonical) (ha : a.state.fab.Canonical) :
    (checked s l a).state.fab.Canonical := by
  induction l with
  | nil => exact ha
  | cons c l ih =>
    unfold checked
    split
    · exact ih
    · exact h
@[simp] theorem state_ok (s : State) : (ok s).state = s := rfl
@[simp] theorem state_okWith (s : State) (fs : List Field) : (okWith s fs).state = s := rfl
@[simp] theorem state_refuse (s : State) (st : Nat) : (refuse s st).state = s := rfl
@[simp] theorem state_later (s : State) : (later s).state = s := rfl

/-! ### Access -/

@[simp] theorem canonical_setQueue (s : State) (i : Nat) (a : Queue) : (s.setQueue i a).fab.Canonical ↔ s.fab.Canonical := Iff.rfl
@[simp] theorem canonical_updQueue (s : State) (i : Nat) (f : Queue → Queue) : (s.updQueue i f).fab.Canonical ↔ s.fab.Canonical := Iff.rfl
@[simp] theorem canonical_setChannel (s : State) (i : Nat) (a : Channel) : (s.setChannel i a).fab.Canonical ↔ s.fab.Canonical := Iff.rfl
@[simp] theorem canonical_updChannel (s : State) (i : Nat) (f : Channel → Channel) : (s.updChannel i f).fab.Canonical ↔ s.fab.Canonical := Iff.rfl

/-! ### Ops -/

@[simp] theorem canonical_lpWrite (s : State) (a : Nat) (l : List Byte) (h : s.fab.Canonical) : (s.lpWrite a l).fab.Canonical :=
  memWf_lpWrite a l h
@[simp] theorem canonical_queuePut (s : State) (q : Nat) (entry : List Byte) (h : s.fab.Canonical) : (s.queuePut q entry).fab.Canonical :=
  memWf_queuePut q entry h

/-! ### Commands -/

theorem canonical_ringPut (s : State) (q : Nat) (m : List Byte) (h : s.fab.Canonical) {u : State} (e : s.ringPut q m = some u) :
    u.fab.Canonical := memWf_ringPut h e
theorem canonical_takeEach {α : Type} {f : State → α → Option State}
    (hf : ∀ z x u, z.fab.Canonical → f z x = some u → u.fab.Canonical) (l : List α) (s : State) (h : s.fab.Canonical) :
    (takeEach f l s).1.fab.Canonical := by
  fun_induction takeEach f l s with
  | case1 => exact h
  | case2 => exact h
  | case3 x r s u e ih => exact ih (hf s x u h e)
@[simp] theorem canonical_ringPutAll (s : State) (q : Nat) (l : List (List Byte)) (h : s.fab.Canonical) :
    (s.ringPutAll q l).1.fab.Canonical :=
  canonical_takeEach (fun z m _ hz e => canonical_ringPut z q m hz e) l s h
@[simp] theorem canonical_handOver (s : State) (r : Response) (h : s.fab.Canonical) : (s.handOver r).fab.Canonical := by
  unfold State.handOver
  dsimp only
  split
  · simp [fab_ite, h]
  · exact h
  · split
    · simp [h]
    · exact canonical_foldl (fun z m hz => by simpa using hz) _ h
@[simp] theorem canonical_boxFresh (s : State) (p : Path) (b : Nat) (h : s.fab.Canonical) :
    (s.boxFresh p b).fab.Canonical := by
  fun_cases State.boxFresh s p b <;> simp +zetaDelta [h]
@[simp] theorem canonical_answer (s : State) (src : Source) (code status : Nat) (payload : List Field) (h : s.fab.Canonical) :
    (s.answer src code status payload).fab.Canonical := by simp [State.answer, fab_ite, canonical_ite, h]
@[simp] theorem canonical_Answer_persisted (a : Answer) (code object : Nat) (cmd : Instr) (h : a.state.fab.Canonical) :
    (Answer.persisted a code object cmd).state.fab.Canonical := by
  fun_cases Answer.persisted a code object cmd <;> simp [h]

/-! ### AnalogOps -/

@[simp] theorem canonical_consume (s : State) (r : Result) (c : Conversion) (source : Nat) (h : s.fab.Canonical) :
    (s.consume r c source).fab.Canonical := by
  have answers (l : List Source) (st : Nat) : (l.foldl (fun z q => z.answer q 0x0704 st [.struct r.bytes]) s).fab.Canonical :=
    canonical_foldl (fun _ _ hz => canonical_answer _ _ _ _ _ hz) l h
  fun_cases State.consume s r c source
  case case6 => exact answers _ _
  case case7 => exact answers _ _
  all_goals simp [h]
@[simp] theorem canonical_deliver (s : State) (r : Result) (c : Conversion) (h : s.fab.Canonical) : (s.deliver r c).fab.Canonical := by
  unfold State.deliver
  exact canonical_foldl (fun _ _ hz => canonical_consume _ _ _ _ hz) _ (by simpa using h)
@[simp] theorem canonical_dropRequest (s : State) (k : Nat) (c : Conversion) (collide : Bool) (h : s.fab.Canonical) :
    (s.dropRequest k c collide).fab.Canonical := canonical_deliver _ _ _ h
@[simp] theorem canonical_loseRequest (s : State) (k : Nat) (o : Option Conversion) (h : s.fab.Canonical) :
    (s.loseRequest k o).fab.Canonical := by
  cases o <;> simp [State.loseRequest, h]
@[simp] theorem canonical_urgentRequest (s : State) (k : Nat) (l : List Conversion) (h : s.fab.Canonical) :
    (s.urgentRequest k l).fab.Canonical := by
  fun_cases State.urgentRequest s k l
  case case4 => exact canonical_loseRequest _ _ _ h
  case case6 => exact canonical_loseRequest _ _ _ h
  all_goals simp [h]
@[simp] theorem canonical_refuseAnalog (s : State) (h : s.fab.Canonical) : s.refuseAnalog.fab.Canonical := by
  have sources (u : State) (hu : u.fab.Canonical) : ((List.range 16).foldl (fun z k =>
      ((z.conv k).waitingSrcs).foldl (fun y q => y.answer q 0x0704 stBeached []) z) u).fab.Canonical :=
    canonical_foldl (fun _ _ hz => canonical_foldl (fun _ _ hy => canonical_answer _ _ _ _ _ hy) _ hz) _ hu
  have jobs (l : List CalJob) (u : State) (hu : u.fab.Canonical) :
      (l.foldl (fun z j => z.answer j.src 0x0706 stBeached []) u).fab.Canonical :=
    canonical_foldl (fun _ _ hz => canonical_answer _ _ _ _ _ hz) l hu
  dsimp only [State.refuseAnalog]
  refine canonical_foldl (fun z n hz => ?_) _ ?_
  · split
    · exact hz
    · exact canonical_answer _ _ _ _ _ hz
  · dsimp only
    exact jobs _ _ (sources s h)
@[simp] theorem canonical_tripRequests (s : State) (n cause : Nat) (h : s.fab.Canonical) :
    (s.tripRequests n cause).fab.Canonical := by simp [State.tripRequests, h]

/-! ### CanOps -/

theorem canonical_canPut (s : State) (ctl which : Nat) (bytes : List Byte) (h : s.fab.Canonical) {u : State}
    (e : s.canPut ctl which bytes = some u) : u.fab.Canonical := by
  revert e
  fun_cases State.canPut s ctl which bytes <;> intro e <;> simp only [reduceCtorEq, Option.some.injEq] at e <;> subst e
  · simp only [fab_queueMoved, canonical_setQueue]
    exact canonical_foldl (fun _ _ hz => canonical_lpWrite _ _ _ hz) _ h
  · simpa using h
@[simp] theorem canonical_rxLose (s : State) (ctl which : Nat) (h : s.fab.Canonical) :
    (s.rxLose ctl which).fab.Canonical := by
  fun_cases State.rxLose s ctl which <;> simp +zetaDelta [h]
@[simp] theorem canonical_putOutcome (s : State) (ctl b : Nat) (o : TxOutcome) (h : s.fab.Canonical) :
    (s.putOutcome ctl b o).fab.Canonical := by
  unfold State.putOutcome
  split
  · next e => simpa using canonical_canPut _ _ _ _ h e
  · simpa using h
@[simp] theorem canonical_endTx (s : State) (ctl b outcome : Nat) (late : Bool) (h : s.fab.Canonical) :
    (s.endTx ctl b outcome late).fab.Canonical := by
  fun_cases State.endTx s ctl b outcome late <;> simp +zetaDelta [h]
@[simp] theorem canonical_endAllTx (s : State) (ctl outcome : Nat) (h : s.fab.Canonical) : (s.endAllTx ctl outcome).fab.Canonical := by
  unfold State.endAllTx
  exact canonical_foldl (fun _ _ hz => canonical_endTx _ _ _ _ _ hz) _ h
@[simp] theorem canonical_canBeach (s : State) (h : s.fab.Canonical) : s.canBeach.fab.Canonical := by
  simp [State.canBeach, h]
@[simp] theorem canonical_canOff (s : State) (h : s.fab.Canonical) : s.canOff.fab.Canonical := by
  unfold State.canOff
  exact canonical_foldl (fun _ _ hz => by simpa using hz) _ (canonical_canBeach s h)
@[simp] theorem canonical_abortTx (s : State) (ctl b outcome : Nat) (h : s.fab.Canonical) :
    (s.abortTx ctl b outcome).fab.Canonical := by
  fun_cases State.abortTx s ctl b outcome <;> simp [h]
@[simp] theorem canonical_abortSlotTx (s : State) (n : Nat) (h : s.fab.Canonical) : (s.abortSlotTx n).fab.Canonical := by
  unfold State.abortSlotTx
  refine canonical_foldl (fun z k hz => canonical_foldl (fun y b hy => ?_) _ hz) _ h
  split
  · exact canonical_abortTx _ _ _ _ hy
  · exact hy
@[simp] theorem canonical_slotSend (s : State) (n ctl b count : Nat) (f : CanFrame) (h : s.fab.Canonical) :
    (s.slotSend n ctl b count f).fab.Canonical := by
  fun_cases State.slotSend s n ctl b count f <;> simp +zetaDelta [h]

/-! ### FabricOps -/

theorem canonical_createQueue (s : State) (q k prod cons thr owner : Nat) (created : Bool) (h : s.fab.Canonical) {u : State}
    (e : s.createQueue q k prod cons thr owner created = some u) : u.fab.Canonical := by
  obtain ⟨b, -, rfl⟩ := Option.map_eq_some_iff.1 e
  exact h
@[simp] theorem canonical_destroyQueue (s : State) (q : Nat) (h : s.fab.Canonical) : (s.destroyQueue q).fab.Canonical := h
@[simp] theorem canonical_putRecord (s : State) (q : Nat) (notify : Bool) (r : Record) (h : s.fab.Canonical) :
    (s.putRecord q notify r).fab.Canonical := by
  simp [State.putRecord, h]
@[simp] theorem canonical_writeRecord (s : State) (ch : Nat) (d : Desc) (r : Record) (h : s.fab.Canonical) :
    (s.writeRecord ch d r).2.fab.Canonical := by
  fun_cases State.writeRecord s ch d r <;> simp +zetaDelta [h]
@[simp] theorem canonical_endDescriptor (s : State) (ch : Nat) (d : Desc) (status : Nat) (h : s.fab.Canonical) :
    (s.endDescriptor ch d status).fab.Canonical := by simp [State.endDescriptor, h]
@[simp] theorem canonical_abortChannel (s : State) (ch : Nat) (h : s.fab.Canonical) :
    (s.abortChannel ch).fab.Canonical := by
  fun_cases State.abortChannel s ch <;> simp [h]
@[simp] theorem canonical_abortChannels (s : State) (l : List Nat) (h : s.fab.Canonical) : (s.abortChannels l).fab.Canonical := by
  unfold State.abortChannels
  exact canonical_foldl (fun _ _ hz => canonical_abortChannel _ _ hz) l h

/-! ### SlotOps -/

@[simp] theorem canonical_tenantAborts (s : State) (n : Nat) (h : s.fab.Canonical) : (s.tenantAborts n).fab.Canonical := by
  simp [State.tenantAborts, h]
@[simp] theorem canonical_slotAbsent (s : State) (n : Nat) (h : s.fab.Canonical) : (s.slotAbsent n).fab.Canonical := by
  have gone (l : List Nat) : (l.foldl (fun z h => z.publishLocal h (z.sigLocal h).gone) s).fab = s.fab :=
    fab_foldl (fun _ _ => by simp) l s
  fun_cases State.slotAbsent s n <;> simp +zetaDelta [gone, h]
@[simp] theorem canonical_slotTo (s : State) (n : Nat) (st : SlotState) (h : s.fab.Canonical) :
    (s.slotTo n st).fab.Canonical := by
  fun_cases State.slotTo s n st <;> simp [h]
@[simp] theorem canonical_slotSuspend (s : State) (n : Nat) (h : s.fab.Canonical) : (s.slotSuspend n).fab.Canonical := by
  simp only [State.slotSuspend, fab_placeEntries]
  refine canonical_tenantAborts _ _ ?_
  simp only [fab_followersSafe, fab_sourcesLost]
  exact canonical_foldl (fun _ _ hz => by simpa using hz) _ (by simpa using h)
@[simp] theorem canonical_suspendTenants (s : State) (h : s.fab.Canonical) : s.suspendTenants.fab.Canonical := by
  unfold State.suspendTenants
  exact canonical_foldl (fun z n hz => by simp [fab_ite, canonical_ite, hz]) _ h
@[simp] theorem canonical_stopTenants (s : State) (h : s.fab.Canonical) : s.stopTenants.fab.Canonical := by
  unfold State.stopTenants
  exact canonical_foldl (fun _ _ hz => canonical_slotTo _ _ _ hz) _ h

/-! ### SafetyOps -/

@[simp] theorem canonical_tripLane (s : State) (n c : Nat) (v0 : Option Int) (h : s.fab.Canonical) :
    (s.tripLane n c v0).fab.Canonical := by
  fun_cases State.tripLane s n c v0 <;> simp +zetaDelta [h]
@[simp] theorem canonical_tripCauses (s : State) (n : Nat) (cs : List Nat) (h : s.fab.Canonical) : (s.tripCauses n cs).fab.Canonical := by
  unfold State.tripCauses
  exact canonical_foldl (fun _ _ hz => canonical_tripLane _ _ _ _ hz) _ h
@[simp] theorem canonical_tripAll (s : State) (c : Nat) (h : s.fab.Canonical) : (s.tripAll c).fab.Canonical := by
  unfold State.tripAll
  exact canonical_foldl (fun _ _ hz => canonical_tripLane _ _ _ _ hz) _ (by simpa using h)
theorem canonical_stopped (f : Fabric) (b : Bool) : { f with stopped := b }.Canonical ↔ f.Canonical := Iff.rfl
@[simp] theorem canonical_enginesOff (s : State) (h : s.fab.Canonical) : s.enginesOff.fab.Canonical := by
  have stops := canonical_stopTenants s.stopCounters.stopConverters.outputsSafe (by simpa using h)
  fun_cases State.enginesOff s
  · simp +zetaDelta only [fab_dropArmed]
    exact (canonical_stopped _ _).2 stops
  · simp +zetaDelta only [fab_toHoldover, fab_dropArmed]
    exact (canonical_stopped _ _).2 stops
@[simp] theorem canonical_enterRock (s : State) (cause : Nat) (v0 : Option Int) (h : s.fab.Canonical) :
    (s.enterRock cause v0).fab.Canonical := by
  fun_cases State.enterRock s cause v0
  · simp +zetaDelta [h]
  · simp +zetaDelta only [fab_mailboxesOff, fab_tideCoasts, fab_loseRoles]
    refine canonical_enginesOff _ (canonical_foldl (fun z n hz => ?_) _ ?_)
    · simp [fab_ite, canonical_ite, hz]
    · simp [h]
@[simp] theorem canonical_coreFault (s : State) (h : s.fab.Canonical) : s.coreFault.fab.Canonical := by
  simp [State.coreFault, h]

/-! ### TapOps -/

@[simp] theorem canonical_sfaFrame (s : State) (p : Nat) (b : List Byte) (f : PortSample) (h : s.fab.Canonical) :
    (s.sfaFrame p b f).fab.Canonical := by
  fun_cases State.sfaFrame s p b f
  · exact h
  · rw [fab_recheckArming]
    show (ite _ _ _ : State).fab.Canonical
    split <;> exact canonical_tripCauses _ _ _ h

/-! ### Analog -/

@[simp] theorem canonical_inputSetDo (k : Nat) (cls : InputClass) (scale : Int) (handle : Nat) (s : State) (h : s.fab.Canonical) :
    (inputSetDo k cls scale handle s).state.fab.Canonical := by
  unfold inputSetDo
  exact canonical_checked _ _ h h
@[simp] theorem canonical_tableSetDo (conv table : Nat) (entries : List (BitVec 32)) (queue : Option Nat) (s : State) (h : s.fab.Canonical) :
    (tableSetDo conv table entries queue s).state.fab.Canonical := by
  unfold tableSetDo
  exact canonical_checked _ _ h h
@[simp] theorem canonical_tableStartDo (conv table : Nat) (s : State) (h : s.fab.Canonical) :
    (tableStartDo conv table s).state.fab.Canonical := by simp [tableStartDo, h]
@[simp] theorem canonical_convertDo (src : Source) (input : Nat) (urgent : Bool) (s : State) (h : s.fab.Canonical) :
    (convertDo src input urgent s).state.fab.Canonical := by
  unfold convertDo
  dsimp only
  refine canonical_checked _ _ h ?_
  split
  · split
    · exact canonical_urgentRequest _ _ _ h
    · exact canonical_urgentRequest _ _ _ h
  · simpa using h
@[simp] theorem canonical_calPointDo (src : Source) (target : CalTarget) (full : Bool) (value : Int) (s : State)
    (h : s.fab.Canonical) : (calPointDo src target full value s).state.fab.Canonical := by
  unfold calPointDo
  refine canonical_checked _ _ h ?_
  cases target
  · dsimp only [state_later]
    rw [fab_calRequest]
    exact h
  · exact h
@[simp] theorem canonical_calCommitDo (inputs icvs : List Nat) (all : Bool) (s : State) (h : s.fab.Canonical) :
    (calCommitDo inputs icvs all s).state.fab.Canonical := by simp [calCommitDo, h]
@[simp] theorem canonical_calResultDo (g : CalTarget) (j : CalJob) (s : State) (h : s.fab.Canonical) :
    (calResultDo g j s).fab.Canonical := by
  unfold calResultDo
  cases g <;> dsimp only <;> split <;> refine canonical_answer _ _ _ _ _ ?_
  · exact h
  · rw [fab_inputPoint]
    exact h
  · exact h
  · split
    · rw [fab_inputPoint, fab_icvPoint]
      exact h
    · dsimp only
      rw [fab_inputPoint, fab_icvPoint]
      exact h
@[simp] theorem canonical_conversionDo (k code : Nat) (c : Conversion) (s : State) (h : s.fab.Canonical) :
    (conversionDo k code c s).fab.Canonical := by
  fun_cases conversionDo k code c s
  · exact h
  · rw [fab_startNext]
    exact canonical_deliver _ _ _ (by simpa +zetaDelta using h)
  · exact h
  · rw [fab_startNext]
    show (ite _ _ _ : State).fab.Canonical
    split <;> exact canonical_deliver _ _ _ h
@[simp] theorem canonical_tableEndDo (k : Nat) (r : TableRun) (s : State) (h : s.fab.Canonical) : (tableEndDo k r s).fab.Canonical := by
  have put (q : Nat) (l : List (List Byte)) (v : Converter) :
      (l.foldl (fun z e => z.queuePut q e) (s.setConv k v)).fab.Canonical :=
    canonical_foldl (fun _ _ hz => canonical_queuePut _ _ _ hz) l (by simpa using h)
  unfold tableEndDo
  cases r.queue <;> dsimp only <;> split <;> simp [h, put]
@[simp] theorem canonical_dacConfigDo (k : Nat) (source : OutSource) (safeCode range : Nat) (s : State) (h : s.fab.Canonical) :
    (dacConfigDo k source safeCode range s).state.fab.Canonical := by
  unfold dacConfigDo
  refine canonical_checked _ _ h ?_
  dsimp only [state_ok]
  split
  · split
    · rw [fab_dacSafe]
      exact h
    · exact h
  · exact h
@[simp] theorem canonical_dacSetDo (src : Source) (k range code : Nat) (s : State) (h : s.fab.Canonical) :
    (dacSetDo src k range code s).state.fab.Canonical := by
  unfold dacSetDo
  refine canonical_checked _ _ h ?_
  split
  · rw [state_ok, fab_dacValue]
    exact h
  · exact h
@[simp] theorem canonical_tachConfigDo (k : Nat) (falling pair : Bool) (ppr filter standstill : Nat) (s : State)
    (h : s.fab.Canonical) : (tachConfigDo k falling pair ppr filter standstill s).state.fab.Canonical := by
  unfold tachConfigDo
  refine canonical_checked _ _ h ?_
  rw [state_ok, fab_tachSignals]
  split <;> exact h

/-! ### MboxOps -/

theorem canonical_ringMessage (s : State) (m : Nat) (h : s.fab.Canonical) {x : List Byte × State} (e : s.ringMessage m = some x) :
    x.2.fab.Canonical := by
  revert e
  fun_cases State.ringMessage s m
  · nofun
  · nofun
  · rintro ⟨⟩
    exact h
theorem canonical_repeatWhile {f : State → Option State} (hf : ∀ z u, z.fab.Canonical → f z = some u → u.fab.Canonical) (n : Nat)
    (s : State) (h : s.fab.Canonical) : (repeatWhile f n s).fab.Canonical := by
  induction n generalizing s with
  | zero => exact h
  | succ n ih =>
    unfold repeatWhile
    split
    · exact h
    · next u e => exact ih u (hf s u h e)
@[simp] theorem canonical_ringFetch (s : State) (m n : Nat) (h : s.fab.Canonical) : (s.ringFetch m n).fab.Canonical := by
  unfold State.ringFetch
  refine canonical_repeatWhile (fun z u hz e => ?_) n s h
  dsimp only at e
  split at e
  · cases e
  · obtain ⟨x, hx, rfl⟩ := Option.map_eq_some_iff.1 e
    simpa using canonical_ringMessage z m hz hx
@[simp] theorem canonical_answerUntaken (s : State) (path : Path) (box tag command status corr : Nat) (payload : List Field) (h : s.fab.Canonical) :
    (s.answerUntaken path box tag command status corr payload).fab.Canonical := by simp [State.answerUntaken, h]
@[simp] theorem canonical_refuseRole (s : State) (r : Nat) (h : s.fab.Canonical) : (s.refuseRole r).fab.Canonical := by
  unfold State.refuseRole
  refine canonical_foldl (fun z b hz => ?_) _ h
  exact canonical_foldl (fun _ _ hy => canonical_answerUntaken _ _ _ _ _ _ _ _ hy) _ (by simpa using hz)
@[simp] theorem canonical_garzetRequest (s : State) (key : Nat) (r : Route) (bytes : List Byte) (h : s.fab.Canonical) :
    (s.garzetRequest key r bytes).fab.Canonical := by
  fun_cases State.garzetRequest s key r bytes <;> simp [h]
@[simp] theorem canonical_mailOut (s : State) (h e : Nat) (r : SentReq) (w : s.fab.Canonical) :
    (s.mailOut h e r).fab.Canonical := by
  fun_cases State.mailOut s h e r <;> simp [w]
@[simp] theorem canonical_sendRequest (s : State) (srcRole role cmd answerNs : Nat) (payload : List Byte) (slot : Nat) (h : s.fab.Canonical) :
    (s.sendRequest srcRole role cmd answerNs payload slot).fab.Canonical := by
  fun_cases State.sendRequest s srcRole role cmd answerNs payload slot <;> simp +zetaDelta [h]

/-! ### RoleOps -/

@[simp] theorem canonical_roleStops (s : State) (o : OwnRole) (standby : Bool) (h : s.fab.Canonical) :
    (s.roleStops o standby).fab.Canonical := by
  fun_cases State.roleStops s o standby <;> simp [h]
@[simp] theorem canonical_swapEnds (s : State) (o : OwnRole) (bySwap : Bool) (h : s.fab.Canonical) :
    (s.swapEnds o bySwap).fab.Canonical := by
  fun_cases State.swapEnds s o bySwap
  · exact h
  · exact h
  · exact canonical_answer _ _ _ _ _ h
  · exact canonical_answer _ _ _ _ _ h
@[simp] theorem canonical_releaseRole (s : State) (r : Nat) (told bySwap toNone : Bool) (h : s.fab.Canonical) :
    (s.releaseRole r told bySwap toNone).fab.Canonical := by
  fun_cases State.releaseRole s r told bySwap toNone
  · exact h
  · exact h
  · rw [fab_placeEntries]
    refine canonical_refuseRole _ _ (canonical_swapEnds _ _ _ ?_)
    show (State.changeOwn _ _ _).fab.Canonical
    rw [fab_changeOwn]
    refine canonical_roleStops _ _ _ ?_
    show (ite _ _ _ : State).fab.Canonical
    split
    · simpa using h
    · exact h
@[simp] theorem canonical_dropStandby (s : State) (r : Nat) (h : s.fab.Canonical) : (s.dropStandby r).fab.Canonical := by
  fun_cases State.dropStandby s r <;> simp +zetaDelta [fab_ite, canonical_ite, h]
@[simp] theorem canonical_releaseAll (s : State) (told : Bool) (h : s.fab.Canonical) : (s.releaseAll told).fab.Canonical := by
  unfold State.releaseAll
  exact canonical_foldl (fun _ _ hz => canonical_dropStandby _ _ (canonical_releaseRole _ _ _ _ _ hz)) _ h
@[simp] theorem canonical_laneFault (s : State) (n : Nat) (h : s.fab.Canonical) : (s.laneFault n).fab.Canonical := by
  fun_cases State.laneFault s n <;> simp [h]
@[simp] theorem canonical_slotFault (s : State) (n : Nat) (h : s.fab.Canonical) : (s.slotFault n).fab.Canonical := by
  fun_cases State.slotFault s n
  · exact canonical_releaseRole _ _ _ _ _ (canonical_slotTo _ _ _ h)
  · exact canonical_slotTo _ _ _ h
@[simp] theorem canonical_engineFault (s : State) (k : Nat) (h : s.fab.Canonical) : (s.engineFault k).fab.Canonical := by
  unfold State.engineFault
  exact canonical_foldl (fun z n hz => by simp [hz]) _ (by simpa using h)
@[simp] theorem canonical_computeFault (s : State) (u : EccUnit) (h : s.fab.Canonical) : (s.computeFault u).fab.Canonical := by
  fun_cases State.computeFault s u <;> simp [h]

/-! ### TenantOps -/

theorem canonical_repeatAll {f : State → Option State} (hf : ∀ z u, z.fab.Canonical → f z = some u → u.fab.Canonical) (n : Nat)
    (s : State) (h : s.fab.Canonical) {u : State} (e : repeatAll f n s = some u) : u.fab.Canonical := by
  induction n generalizing s with
  | zero => cases e; exact h
  | succ n ih =>
    unfold repeatAll at e
    split at e
    · cases e
    · next t ht => exact ih t (hf s t h ht) e
theorem canonical_giveQueues (s : State) (n want : Nat) (img : List Byte) (k : Nat) (h : s.fab.Canonical) {u : State}
    (e : s.giveQueues n want img k = some u) : u.fab.Canonical := by
  refine canonical_repeatAll (fun z t hz et => ?_) k s h e
  dsimp only at et
  split at et
  · cases et
    exact hz
  · split at et
    · cases et
    · obtain ⟨y, hy, rfl⟩ := Option.map_eq_some_iff.1 et
      simpa using canonical_createQueue _ _ _ _ _ _ _ _ hz hy
@[simp] theorem canonical_trimQueues (s : State) (n : Nat) (h : s.fab.Canonical) : (s.trimQueues n).fab.Canonical := by
  simp only [State.trimQueues, State.updSlot_eq, State.fab_setSlot]
  exact canonical_foldl (fun _ _ hz => canonical_destroyQueue _ _ hz) _ h
@[simp] theorem canonical_performAct (s : State) (n : Nat) (a : TenantAct) (h : s.fab.Canonical) : (s.performAct n a).fab.Canonical := by
  cases a <;> simp [State.performAct, fab_ite, canonical_ite, h]
@[simp] theorem canonical_performActs (s : State) (n : Nat) (h : s.fab.Canonical) : (s.performActs n).fab.Canonical := by
  unfold State.performActs
  exact canonical_foldl (fun _ _ hz => canonical_performAct _ _ _ hz) _ (by simpa using h)
@[simp] theorem canonical_publishActive (s : State) (n i p : Nat) (h : s.fab.Canonical) :
    (s.publishActive n i p).fab.Canonical := by
  fun_cases State.publishActive s n i p <;> simp +zetaDelta [h]
@[simp] theorem canonical_publishSlot (s : State) (n i p : Nat) (h : s.fab.Canonical) :
    (s.publishSlot n i p).fab.Canonical := by
  fun_cases State.publishSlot s n i p <;> simp [h]
@[simp] theorem canonical_doSwitch (s : State) (n : Nat) (h : s.fab.Canonical) : (s.doSwitch n).fab.Canonical := by
  fun_cases State.doSwitch s n
  · exact h
  · exact canonical_trimQueues _ _ h
@[simp] theorem canonical_startSlot (s : State) (n g i : Nat) (h : s.fab.Canonical) :
    (s.startSlot n g i).fab.Canonical := by
  fun_cases State.startSlot s n g i <;> simp [h]
@[simp] theorem canonical_groupFires (s : State) (g i p : Nat) (h : s.fab.Canonical) : (s.groupFires g i p).fab.Canonical := by
  simp only [State.groupFires, fab_placeEntries]
  refine canonical_foldl (fun _ _ hz => canonical_startSlot _ _ _ _ hz) _ (canonical_foldl (fun z n hz => ?_) _ h)
  simp [fab_ite, canonical_ite, hz]

/-! ### NetOps -/

@[simp] theorem canonical_swapDone (s : State) (r status : Nat) (h : s.fab.Canonical) : (s.swapDone r status).fab.Canonical := by
  fun_cases State.swapDone s r status
  · exact h
  · exact canonical_answer _ _ _ _ _ h
@[simp] theorem canonical_noAckOf (s : State) (m : StreamMsg) (h : s.fab.Canonical) : (s.noAckOf m).fab.Canonical := by
  fun_cases State.noAckOf s m <;> simp [h]
@[simp] theorem canonical_streamFails (s : State) (peer : Nat) (h : s.fab.Canonical) : (s.streamFails peer).fab.Canonical := by
  unfold State.streamFails
  exact canonical_foldl (fun _ _ hz => canonical_noAckOf _ _ hz) _ (by simpa using h)
@[simp] theorem canonical_settleClaims (s : State) (h : s.fab.Canonical) : s.settleClaims.fab.Canonical := by
  unfold State.settleClaims
  exact canonical_foldl (fun z o hz => by simp [fab_ite, canonical_ite, hz]) _ h
@[simp] theorem canonical_announceTaken (s : State) (m : AnnounceMsg) (h : s.fab.Canonical) : (s.announceTaken m).fab.Canonical := by
  unfold State.announceTaken
  extract_lets a key parts whole a1 s1
  rw [fab_containersSeen]
  by_cases w : whole = true
  · rw [if_pos w]
    exact canonical_settleClaims _ (by rw [fab_partnerEpochs]; exact h)
  · rw [if_neg w]
    exact h

/-! ### Can -/

@[simp] theorem canonical_canConfigDo (s : State) (ctl : Nat) (c : CanConfig) (h : s.fab.Canonical) :
    (s.canConfigDo ctl c).fab.Canonical := by
  fun_cases State.canConfigDo s ctl c <;> simp +zetaDelta [h]
@[simp] theorem canonical_notOwner (s : State) (ctl : Nat) (h : s.fab.Canonical) :
    (s.notOwner ctl).state.fab.Canonical := by simp [State.notOwner, h]
@[simp] theorem canonical_candidacyEnds (s : State) (ctl : Nat) (h : s.fab.Canonical) : (s.candidacyEnds ctl).fab.Canonical := by
  fun_cases State.candidacyEnds s ctl
  · exact h
  · exact h
  · exact canonical_releaseRole _ _ _ _ _ h

/-! ### Lane -/

@[simp] theorem canonical_configDo (n : Nat) (c : LaneConfig) (s : State) (h : s.fab.Canonical) :
    (configDo n c s).state.fab.Canonical := by simp [configDo, h]
@[simp] theorem canonical_loopSetDo (n : Nat) (g : LoopGains) (s : State) (h : s.fab.Canonical) :
    (loopSetDo n g s).state.fab.Canonical := by
  unfold loopSetDo
  exact canonical_checked _ _ h h
@[simp] theorem canonical_contactorFault (s : State) (n k : Nat) (h : s.fab.Canonical) :
    (s.contactorFault n k).fab.Canonical := by simp [State.contactorFault, h]
@[simp] theorem canonical_weldSuspect (s : State) (n : Nat) (ks : List Nat) (h : s.fab.Canonical) : (s.weldSuspect n ks).fab.Canonical := by
  refine canonical_tripLane _ _ _ _ ?_
  rw [fab_event]
  exact canonical_foldl (fun _ _ hz => by simpa using hz) ks h
@[simp] theorem canonical_armStep (s : State) (n : Nat) (c : LaneConfig) (h : s.fab.Canonical) :
    (s.armStep n c).fab.Canonical := by
  fun_cases State.armStep s n c <;> simp [h]
@[simp] theorem canonical_disarmDo (n : Nat) (s : State) (h : s.fab.Canonical) : (disarmDo n s).state.fab.Canonical := by
  unfold disarmDo
  refine canonical_checked _ _ h ?_
  dsimp only [state_ok]
  split
  · rw [fab_runLeft]
    exact h
  · rw [fab_abandonArming]
    exact h
  · exact h
@[simp] theorem canonical_disarmStep (s : State) (n : Nat) (c : LaneConfig) (h : s.fab.Canonical) :
    (s.disarmStep n c).fab.Canonical := by
  fun_cases State.disarmStep s n c <;> simp [h]
@[simp] theorem canonical_setpointDo (src : Source) (n : Nat) (v : Int) (s : State) (h : s.fab.Canonical) :
    (setpointDo src n v s).state.fab.Canonical := by
  unfold setpointDo
  refine canonical_checked _ _ h ?_
  split
  · exact h
  · split
    · exact h
    · split <;> exact h
@[simp] theorem canonical_faultClearDo (n : Nat) (ack : Bool) (s : State) (h : s.fab.Canonical) :
    (faultClearDo n ack s).state.fab.Canonical := by
  unfold faultClearDo
  refine canonical_checked _ _ h ?_
  split <;> exact h
@[simp] theorem canonical_periodRelease (s : State) (n : Nat) (h : s.fab.Canonical) :
    (s.periodRelease n).fab.Canonical := by
  fun_cases State.periodRelease s n <;> simp [h]
@[simp] theorem canonical_pwmPeriodDo (n m : Nat) (c : LaneConfig) (s : State) (h : s.fab.Canonical) :
    (pwmPeriodDo n m c s).fab.Canonical := by
  unfold pwmPeriodDo
  extract_lets s0 s1 s3
  have h0 : s0.fab.Canonical := by
    show (ite _ _ _ : State).fab.Canonical
    split
    · rw [fab_reportPeriod]
      exact canonical_periodRelease _ _ h
    · exact h
  have h1 : s1.fab.Canonical := by
    show (ite _ _ _ : State).fab.Canonical
    split <;> exact h0
  have h3 : s3.fab.Canonical := canonical_urgentRequest _ _ _ h1
  split
  · exact canonical_urgentRequest _ _ _ h3
  · exact h3
@[simp] theorem canonical_weldCheckDo (n : Nat) (s : State) (h : s.fab.Canonical) : (weldCheckDo n s).fab.Canonical := by
  have welds (l : List Nat) (x : Lane) (f : Contactor → Contactor) :
      (l.foldl (fun z k => (z.updLane n fun y => y.updContactor k f).event evWeld 1 n (v0 := some (k : Int))) (s.setLane n x)).fab.Canonical :=
    canonical_foldl (fun _ _ hz => by simpa using hz) l (by simpa using h)
  unfold weldCheckDo
  dsimp only
  split
  · exact welds _ _ _
  · exact canonical_tripLane _ _ _ _ (welds _ _ _)

/-! ### Model -/

@[simp] theorem canonical_paramLoadDo (typ : Nat) (b : List Byte) (s : State) (h : s.fab.Canonical) :
    (paramLoadDo typ b s).state.fab.Canonical := by
  unfold paramLoadDo
  exact canonical_checked _ _ h h
@[simp] theorem canonical_assignDo (p : Nat) (types sensors : List Nat) (s : State) (h : s.fab.Canonical) :
    (assignDo p types sensors s).state.fab.Canonical := by
  unfold assignDo
  refine canonical_checked _ _ h ?_
  rw [state_ok]
  extract_lets changed s1 s2
  rw [fab_joinCells, fab_rough]
  refine canonical_foldl (fun z c hz => ?_) _ h
  exact hz
@[simp] theorem canonical_learnedWriteDo (p : Nat) (b : List Byte) (s : State) (h : s.fab.Canonical) :
    (learnedWriteDo p b s).state.fab.Canonical := by
  unfold learnedWriteDo
  refine canonical_checked _ _ h ?_
  rw [state_ok, fab_requestCommit]
  exact canonical_foldl (fun _ _ hz => by simpa using hz) _ h

/-! ### Sound -/

@[simp] theorem canonical_scheduleDo (r : SoundReq) (s : State) (h : s.fab.Canonical) : (scheduleDo r s).state.fab.Canonical := by
  unfold scheduleDo
  refine canonical_checked _ _ h ?_
  split
  · exact h
  · rw [state_ok, fab_sendSound, State.fab_setLaneSound, fab_writeEntry, fab_slackExit]
    exact h
@[simp] theorem canonical_springStartDo (src : Source) (n : Nat) (iChg iDis : Int) (cvGain maxHours : Nat) (s : State)
    (h : s.fab.Canonical) : (springStartDo src n iChg iDis cvGain maxHours s).state.fab.Canonical := by
  have begun : s.slackExit.fab.Canonical := by simpa using h
  unfold springStartDo
  refine canonical_checked _ _ h ?_
  rw [state_ok]
  refine canonical_foldl (fun z p hz => canonical_foldl (fun y c hy => ?_) _ hz) _ begun
  exact hy

/-! ### Change -/

@[simp] theorem canonical_releaseFallback (s : State) (c : Change) (h : s.fab.Canonical) : (s.releaseFallback c).fab.Canonical := by
  fun_cases State.releaseFallback s c
  · exact h
  · refine canonical_foldl (fun z n hz => ?_) _ h
    exact canonical_trimQueues _ _ hz
@[simp] theorem canonical_closeChange (s : State) (id : Nat) (st : ChangeState) (h : s.fab.Canonical) : (s.closeChange id st).fab.Canonical := by
  unfold State.closeChange
  split
  · exact h
  · next c _ =>
    cases c.entry
    · exact canonical_releaseFallback _ _ h
    · exact canonical_releaseFallback _ _ (by simpa using h)
@[simp] theorem canonical_memberAbandon (s : State) (id : Nat) (h : s.fab.Canonical) :
    (s.memberAbandon id).fab.Canonical := by
  fun_cases State.memberAbandon s id <;> simp [h]
@[simp] theorem canonical_leftSplit (s : State) (id : Nat) (h : s.fab.Canonical) : (s.leftSplit id).fab.Canonical := by
  simp [State.leftSplit, h]
@[simp] theorem canonical_fallenBack (s : State) (c : Change) (h : s.fab.Canonical) : (s.fallenBack c).fab.Canonical := by
  fun_cases State.fallenBack s c <;> simp [h]
@[simp] theorem canonical_resumeChange (s : State) (x : Proposal × List ReportMsg) (h : s.fab.Canonical) :
    (s.resumeChange x).fab.Canonical := by
  have told (l : List ChangeMember) (u : State) : (l.foldl (fun y m => y.sendMember m.berth (.abandon x.1.id 2)) u).fab = u.fab :=
    fab_foldl (fun _ _ => fab_sendMember ..) l u
  simp [State.resumeChange, fab_ite, canonical_ite, told, h]
@[simp] theorem canonical_grant (s : State) (l : RosterLane) (h : s.fab.Canonical) : (s.grant l).fab.Canonical := by
  simp [State.grant, h]

/-! ### Fabric -/

@[simp] theorem canonical_endCheck (s : State) (ch : Nat) (d : Desc) (b : List Byte) (h : s.fab.Canonical) :
    (s.endCheck ch d b).fab.Canonical := by simp [State.endCheck, h]
@[simp] theorem canonical_reread (s : State) (ch : Nat) (h : s.fab.Canonical) : (s.reread ch).fab.Canonical := by
  fun_cases State.reread s ch <;> simp [h]
@[simp] theorem canonical_ringChannel (s : State) (ch : Nat) (h : s.fab.Canonical) : (s.ringChannel ch).fab.Canonical := by
  fun_cases State.ringChannel s ch <;> simp [h]
@[simp] theorem canonical_othersTake (s : State) (a k : Nat) (h : s.fab.Canonical) : (s.othersTake a k).fab.Canonical := by
  fun_cases State.othersTake s a k <;> simp [h]
@[simp] theorem canonical_othersPut (s : State) (a : Nat) (l : List (List Byte)) (h : s.fab.Canonical) : (s.othersPut a l).fab.Canonical := by
  fun_cases State.othersPut s a l
  · exact canonical_foldl (fun _ _ hz => canonical_queuePut _ _ _ hz) l h
  · exact h
@[simp] theorem canonical_takeBurst (s : State) (d : Desc) (done_ n : Nat) (host : List Byte) (h : s.fab.Canonical) :
    (s.takeBurst d done_ n host).2.fab.Canonical := by
  fun_cases State.takeBurst s d done_ n host <;> simp [h]
@[simp] theorem canonical_putBurst (s : State) (d : Desc) (done_ : Nat) (b : List Byte) (h : s.fab.Canonical) :
    (s.putBurst d done_ b).fab.Canonical := by
  fun_cases State.putBurst s d done_ b
  · exact canonical_lpWrite _ _ _ h
  · exact ⟨h.1, writeBytes_wf _ _ h.2⟩
  · simpa using h
  · simp +zetaDelta only [fab_queueMoved, canonical_setQueue]
    exact canonical_foldl (fun _ _ hz => canonical_lpWrite _ _ _ hz) _ h
@[simp] theorem canonical_runBurst (s : State) (ch : Nat) (d : Desc) (done_ n : Nat) (host : List Byte) (h : s.fab.Canonical) :
    (s.runBurst ch d done_ n host).fab.Canonical := by simp [State.runBurst, h]
@[simp] theorem canonical_afterRecord (s : State) (ch : Nat) (d : Desc) (h : s.fab.Canonical) :
    (s.afterRecord ch d).fab.Canonical := by
  fun_cases State.afterRecord s ch d <;> simp [h]

/-! ### Mailbox -/

@[simp] theorem canonical_resetBox (s : State) (m : Nat) (h : s.fab.Canonical) : (s.resetBox m).fab.Canonical := by
  fun_cases State.resetBox s m <;> simp +zetaDelta [h]
@[simp] theorem canonical_indexError (s : State) (q : Nat) (h : s.fab.Canonical) : (s.indexError q).fab.Canonical := by
  fun_cases State.indexError s q <;> simp +zetaDelta [h]
@[simp] theorem canonical_bellPi (s : State) (q v : Nat) (h : s.fab.Canonical) : (s.bellPi q v).fab.Canonical := by
  fun_cases State.bellPi s q v <;> simp [h]
@[simp] theorem canonical_bellCi (s : State) (q v : Nat) (h : s.fab.Canonical) : (s.bellCi q v).fab.Canonical := by
  fun_cases State.bellCi s q v <;> simp [h]
@[simp] theorem canonical_bar2Write (s : State) (o : Nat) (data : List Byte) (h : s.fab.Canonical) : (s.bar2Write o data).fab.Canonical := by
  have written (l : List (Byte × Nat)) : (l.foldl (fun (z : State) (x : Byte × Nat) =>
      if s.hostByte (o + x.2) then z.lpWrite (ringRegion + o + x.2) [x.1] else z) s).fab.Canonical :=
    canonical_foldl (fun z x hz => by simp [fab_ite, canonical_ite, hz]) l h
  fun_cases State.bar2Write s o data <;> simp +zetaDelta [written]
@[simp] theorem canonical_writeWaiting (s : State) (m : Nat) (h : s.fab.Canonical) : (s.writeWaiting m).fab.Canonical := by
  simp [State.writeWaiting, h]

/-! ### PairOps -/

@[simp] theorem canonical_degrade (s : State) (r : Nat) (h : s.fab.Canonical) : (s.degrade r).fab.Canonical := by
  simp [State.degrade, h]
@[simp] theorem canonical_publishTaken (s : State) (n i p : Nat) (h : s.fab.Canonical) :
    (s.publishTaken n i p).fab.Canonical := by simp [State.publishTaken, fab_ite, canonical_ite, h]
@[simp] theorem canonical_checkTenant (s : State) (r p : Nat) (h : s.fab.Canonical) :
    (s.checkTenant r p).fab.Canonical := by
  fun_cases State.checkTenant s r p <;> simp [h]
@[simp] theorem canonical_checkCoordinator (s : State) (r : Nat) (h : s.fab.Canonical) :
    (s.checkCoordinator r).fab.Canonical := by
  fun_cases State.checkCoordinator s r <;> simp [h]
@[simp] theorem canonical_stayUnresolved (s : State) (r : Nat) (h : s.fab.Canonical) :
    (s.stayUnresolved r).fab.Canonical := by
  fun_cases State.stayUnresolved s r <;> simp +zetaDelta [h]
@[simp] theorem canonical_ownFails (s : State) (r : Nat) (peer : Bool) (h : s.fab.Canonical) : (s.ownFails r peer).fab.Canonical := by
  fun_cases State.ownFails s r peer
  · exact canonical_foldl (fun _ _ hz => canonical_releaseRole _ _ _ _ _ hz) _ h
  · simp [h]
  · simp [h]
  · exact h
@[simp] theorem canonical_arbitrate (s : State) (r : Nat) (h : s.fab.Canonical) : (s.arbitrate r).fab.Canonical := by
  fun_cases State.arbitrate s r
  · exact canonical_stayUnresolved _ _ h
  · exact h
  · exact canonical_ownFails _ _ _ h
  · exact h
@[simp] theorem canonical_swapNow (s : State) (r : Nat) (h : s.fab.Canonical) : (s.swapNow r).fab.Canonical := by
  fun_cases State.swapNow s r <;> simp [h]

/-! ### ResetOps -/

@[simp] theorem canonical_selfReset (s : State) (caused brownout : Bool) (h : s.fab.Canonical) :
    (s.selfReset caused brownout).fab.Canonical := memWf_selfReset caused brownout h
@[simp] theorem canonical_unpowered (s : State) : s.unpowered.fab.Canonical := memWf_unpowered s

/-! ### Protect -/

@[simp] theorem canonical_tripNew (s before : State) (c : Nat) (lanes : List Nat) (h : s.fab.Canonical) :
    (s.tripNew before c lanes).fab.Canonical := by
  unfold State.tripNew
  exact canonical_foldl (fun _ _ hz => canonical_tripLane _ _ _ _ hz) _ h
@[simp] theorem canonical_tripEvery (s before : State) (c : Nat) (h : s.fab.Canonical) :
    (s.tripEvery before c).fab.Canonical := by simp [State.tripEvery, h]
@[simp] theorem canonical_tripLinks (s before : State) (h : s.fab.Canonical) : (s.tripLinks before).fab.Canonical := by
  simp only [State.tripLinks, fab_recheckArming]
  exact canonical_foldl (fun _ _ hz => canonical_tripCauses _ _ _ hz) _ h
@[simp] theorem canonical_safetyFault (s : State) (h : s.fab.Canonical) : s.safetyFault.fab.Canonical := by
  fun_cases State.safetyFault s <;> simp [h]
@[simp] theorem canonical_cleanEdge (s : State) (h : s.fab.Canonical) : s.cleanEdge.fab.Canonical := by
  fun_cases State.cleanEdge s <;> simp +zetaDelta [h]
@[simp] theorem canonical_acceptFrame (s : State) (berth link : Nat) (b : List Byte) (h : s.fab.Canonical) :
    (s.acceptFrame berth link b).fab.Canonical := canonical_tripLinks _ _ h
@[simp] theorem canonical_linkToSafe (s : State) (berth link : Nat) (h : s.fab.Canonical) :
    (s.linkToSafe berth link).fab.Canonical := canonical_tripLinks _ _ h
@[simp] theorem canonical_copyMismatch (s : State) (berth link seq : Nat) (h : s.fab.Canonical) :
    (s.copyMismatch berth link seq).fab.Canonical := by simp [State.copyMismatch, fab_ite, h]
@[simp] theorem canonical_takeHeld (s : State) (berth link : Nat) (h : HeldCopy) (w : s.fab.Canonical) :
    (s.takeHeld berth link h).fab.Canonical := by
  fun_cases State.takeHeld s berth link h <;> simp [w]
@[simp] theorem canonical_releaseHeld (s : State) (downLan : Lan) (h : s.fab.Canonical) : (s.releaseHeld downLan).fab.Canonical := by
  unfold State.releaseHeld
  exact canonical_foldl (fun _ _ hz => canonical_foldl (fun _ _ hy => canonical_takeHeld _ _ _ _ hy) _ hz) _ h
@[simp] theorem canonical_decideCopy (s : State) (lan : Lan) (r : LinkRx) (b : List Byte) (h : s.fab.Canonical) :
    (s.decideCopy lan r b).fab.Canonical := by
  fun_cases State.decideCopy s lan r b <;> simp [h]
@[simp] theorem canonical_pageFault (s : State) (page : Nat) (h : s.fab.Canonical) : (s.pageFault page).fab.Canonical := by
  unfold State.pageFault
  exact canonical_foldl (fun _ _ hz => canonical_slotFault _ _ hz) _ h
@[simp] theorem canonical_uncorrectable (s : State) (u : EccUnit) (h : s.fab.Canonical) : (s.uncorrectable u).fab.Canonical := by
  have poisoned (l m : List Nat) : { s.fab with poisoned := l, poisonedSram := m }.Canonical := h
  fun_cases State.uncorrectable s u <;> simp +zetaDelta [h, poisoned]

/-! ### Security -/

@[simp] theorem fab_eraseSettings (s : State) : s.eraseSettings.fab = s.fab := rfl
@[simp] theorem canonical_goInvasive (s : State) (session : Nat) (h : s.fab.Canonical) : (s.goInvasive session).fab.Canonical := by
  unfold State.goInvasive
  refine canonical_foldl (fun _ _ hz => by simpa using hz) _ (canonical_foldl (fun _ _ hz => by simpa using hz) _ ?_)
  simp [h]

/-! ### Tap -/

@[simp] theorem canonical_limitsSetDo (target : PortOrLane) (ov uv : Nat) (ot : Int) (cells temps : Nat) (s : State)
    (h : s.fab.Canonical) : (limitsSetDo target ov uv ot cells temps s).state.fab.Canonical := by
  unfold limitsSetDo
  refine canonical_checked _ _ h ?_
  exact canonical_foldl (fun _ _ hz => by rw [fab_remodel]; exact hz) _ h
@[simp] theorem canonical_Answer_persistedPorts (a : Answer) (ps : List Nat) (cmd : Nat → Instr) (h : a.state.fab.Canonical) :
    (a.persistedPorts ps cmd).state.fab.Canonical := by
  unfold Answer.persistedPorts
  induction ps generalizing a with
  | nil => exact h
  | cons p ps ih => exact ih _ (canonical_Answer_persisted _ _ _ _ h)
@[simp] theorem canonical_tapDataDo (p : Nat) (rx : TapRx) (s : State) (h : s.fab.Canonical) :
    (tapDataDo p rx s).fab.Canonical := by simp [tapDataDo, fab_ite, canonical_ite, h]

/-! ### Tenant -/

theorem canonical_placeImage (s : State) (slot role : Nat) (b : List Byte) (h : s.fab.Canonical) {u : State}
    (e : s.placeImage slot role b = some u) : u.fab.Canonical := by
  unfold State.placeImage at e
  dsimp only at e
  split at e
  · next hq =>
    rw [Option.some.injEq] at e
    rw [← e]
    simpa using canonical_giveQueues _ _ _ _ _ h hq
  · cases e

/-! ### PowerOps -/

@[simp] theorem canonical_releaseNext (s : State) (l : List Nat) (h : s.fab.Canonical) : (s.releaseNext l).1.fab.Canonical := by
  fun_induction State.releaseNext s l <;> simp_all
@[simp] theorem canonical_beachGo (s : State) (roles : List Nat) (h : s.fab.Canonical) :
    (s.beachGo roles).fab.Canonical := by simp [State.beachGo, fab_ite, h]
@[simp] theorem canonical_beachNext (s : State) (h : s.fab.Canonical) : s.beachNext.fab.Canonical := by
  fun_cases State.beachNext s <;> simp [h]
@[simp] theorem canonical_toBeached (s : State) (h : s.fab.Canonical) : s.toBeached.fab.Canonical := by
  have stops := canonical_stopTenants s.outputsSafe.stopCounters.refuseAnalog.stopConverters (by simp [h])
  rw [State.toBeached, fab_held, fab_event, fab_power, fab_flushCache, fab_dropArmed, fab_countFull, fab_tideCoasts]
  exact canonical_canBeach _ (canonical_abortChannels _ _ (by rw [fab_tachsStill]; exact stops))
@[simp] theorem canonical_partRelease (s : State) (l : List Nat) (h : s.fab.Canonical) : (s.partRelease l).1.fab.Canonical := by
  fun_induction State.partRelease s l <;> simp_all
@[simp] theorem canonical_partGo (s : State) (step : Nat) (roles : List Nat) (h : s.fab.Canonical) : (s.partGo step roles).fab.Canonical := by
  have first := canonical_partRelease s roles h
  have second (u : State) (hu : u.fab.Canonical) :
      (if step = 2 then u.partRelease u.laterRoles else (u, [])).1.fab.Canonical := by
    split
    · exact canonical_partRelease _ _ hu
    · exact hu
  unfold State.partGo
  split
  next s1 l e =>
    rw [e] at first
    dsimp only
    split
    · exact first
    · have later := second s1 first
      generalize (if step = 2 then s1.partRelease s1.laterRoles else (s1, [])) = x at later ⊢
      split
      · exact later
      · rw [fab_power, fab_requestCommit]
        exact later
@[simp] theorem canonical_partNext (s : State) (h : s.fab.Canonical) : s.partNext.fab.Canonical := by
  fun_cases State.partNext s <;> simp [h]
@[simp] theorem canonical_applySetting (s : State) (r : SettingRec) (h : s.fab.Canonical) : (s.applySetting r).fab.Canonical := by
  have limits (l : List Nat) (f : Port → Port) : (l.foldl (fun (z : State) p => z.updPort p f) s).fab = s.fab :=
    fab_foldl (fun _ _ => by simp) l s
  fun_cases State.applySetting s r
  case case3 => rw [limits]; exact h
  case case15 => exact h
  case case16 => exact h
  all_goals simp [h]
@[simp] theorem canonical_applySettings (s : State) (h : s.fab.Canonical) : s.applySettings.fab.Canonical := by
  simp only [State.applySettings, fab_loadCommit]
  exact canonical_foldl (fun _ _ hz => canonical_applySetting _ _ hz) _ (by simpa using h)

/-! ### NetRx -/

@[simp] theorem canonical_resend (s : State) (b e : Nat) (r : SentReq) (h : s.fab.Canonical) :
    (s.resend b e r).fab.Canonical := by simp [State.resend, h]
@[simp] theorem canonical_movedMail (s : State) (corr : Nat) (m : MovedMsg) (h : s.fab.Canonical) : (s.movedMail corr m).fab.Canonical := by
  fun_cases State.movedMail s corr m
  · simpa using h
  · exact h
  · exact canonical_foldl (fun _ _ hz => canonical_resend _ _ _ _ hz) _ h
  · simpa using h
@[simp] theorem canonical_movedIn (s : State) (h : GHead) (m : MovedMsg) (w : s.fab.Canonical) : (s.movedIn h m).fab.Canonical := by
  have ended (u : State) (p : SoundStep → Bool) :
      ((List.range 8).foldl (fun z n => z.endSteps n ocHelm p) u).fab = u.fab := fab_foldl (fun _ _ => fab_endSteps ..) _ u
  fun_cases State.movedIn s h m <;> simp +zetaDelta [ended, w]
@[simp] theorem canonical_swapRefused (s : State) (r : Nat) (h : s.fab.Canonical) : (s.swapRefused r).fab.Canonical := by
  fun_cases State.swapRefused s r <;> simp [h]
@[simp] theorem canonical_takenByPartner (s : State) (r : Nat) (h : s.fab.Canonical) :
    (s.takenByPartner r).fab.Canonical := by
  fun_cases State.takenByPartner s r <;> simp +zetaDelta [h]
@[simp] theorem canonical_helmMsg (s : State) (m : HelmMsg) (h : s.fab.Canonical) : (s.helmMsg m).fab.Canonical := by
  fun_cases State.helmMsg s m <;> simp +zetaDelta [h]
@[simp] theorem canonical_deliverMsg (s : State) (h : GHead) (x : GBody) (w : s.fab.Canonical) :
    (s.deliverMsg h x).fab.Canonical := by
  fun_cases State.deliverMsg s h x <;> simp [w]
@[simp] theorem canonical_refuseInvalid (s : State) (h : GHead) (x : GBody) (w : s.fab.Canonical) :
    (s.refuseInvalid h x).fab.Canonical := by
  fun_cases State.refuseInvalid s h x <;> simp [w]
@[simp] theorem canonical_takeTurn (s : State) (h : GHead) (b : GBody) (w : s.fab.Canonical) : (s.takeTurn h b).fab.Canonical := by
  fun_cases State.takeTurn s h b
  · exact canonical_deliverMsg _ _ _ w
  · exact canonical_refuseInvalid _ _ _ w
  · simpa +zetaDelta using w
@[simp] theorem canonical_drain (s : State) (k fuel : Nat) (h : s.fab.Canonical) : (s.drain k fuel).fab.Canonical := by
  fun_induction State.drain s k fuel with
  | case1 => exact h
  | case2 => exact h
  | case3 s n x e known ih => exact ih h
  | case4 => exact h
  | case5 s n x e unknown m r held next ih => exact ih (canonical_takeTurn _ _ _ h)
  | case6 => exact h
@[simp] theorem canonical_streamIn (s0 : State) (lan : Option Lan) (h : GHead) (b : GBody) (w : s0.fab.Canonical) :
    (s0.streamIn lan h b).fab.Canonical := by simp [State.streamIn, fab_ite, canonical_ite, w]
@[simp] theorem canonical_copyIn (s : State) (lan : Option Lan) (h : GHead) (b : GBody) (w : s.fab.Canonical) :
    (s.copyIn lan h b).fab.Canonical := by simp [State.copyIn, fab_ite, canonical_ite, w]
@[simp] theorem canonical_garzetIn (lan : Lan) (h : GHead) (b : GBody) (s : State) (w : s.fab.Canonical) :
    (garzetIn lan h b s).fab.Canonical := by
  fun_cases garzetIn lan h b s <;> simp [w]
@[simp] theorem canonical_twinIn (i : Nat) (h : GHead) (b : GBody) (s : State) (w : s.fab.Canonical) :
    (twinIn i h b s).fab.Canonical := by
  fun_cases twinIn i h b s <;> simp +zetaDelta [w]

/-! ### Power -/

@[simp] theorem canonical_mailboxQueues (s : State) (h : s.fab.Canonical) : s.mailboxQueues.fab.Canonical := by
  have made (z : State) (q prod cons thr : Nat) (hz : z.fab.Canonical) :
      ((z.createQueue q 8 prod cons thr 0 false).getD z).fab.Canonical := by
    cases e : z.createQueue q 8 prod cons thr 0 false with
    | none => exact hz
    | some u => exact canonical_createQueue _ _ _ _ _ _ _ _ hz e
  unfold State.mailboxQueues
  exact canonical_foldl (fun z m hz => made _ _ _ _ _ (made _ _ _ _ _ hz)) _ h
@[simp] theorem canonical_imageRuns (s : State) (h : s.fab.Canonical) : s.imageRuns.fab.Canonical := by
  simp [State.imageRuns, fab_ite, h]
@[simp] theorem canonical_powerStep3 (s : State) (armed : List Nat) (h : s.fab.Canonical) : (s.powerStep3 armed).fab.Canonical := by
  simp only [State.powerStep3, fab_mailboxesOff, fab_loseRoles]
  refine canonical_enginesOff _ ?_
  rw [fab_event]
  exact canonical_foldl (fun _ _ hz => canonical_tripLane _ _ _ _ hz) _ h

/-! ### Thermal -/

@[simp] theorem canonical_temperatureSample (s : State) (n tag : Nat) (h : s.fab.Canonical) : (s.temperatureSample n tag).fab.Canonical := by
  have sampled (l : List (Nat × Nat)) (g : ThermConfig) (u : State) :
      (l.foldl (fun z k => z.sampleSensor g tag k) u).fab = u.fab := fab_foldl (fun _ _ => fab_sampleSensor ..) l u
  simp [State.temperatureSample, sampled, h]
@[simp] theorem canonical_dieEnter (s : State) (st : DieState) (h : s.fab.Canonical) : (s.dieEnter st).fab.Canonical := by
  fun_cases State.dieEnter s st <;> simp +zetaDelta [h]
@[simp] theorem canonical_dieEnforce (s : State) (h : s.fab.Canonical) : s.dieEnforce.fab.Canonical := by
  fun_cases State.dieEnforce s <;> simp [h]
@[simp] theorem canonical_dieBroken (s : State) (h : s.fab.Canonical) : s.dieBroken.fab.Canonical := by
  simp [State.dieBroken, h]
@[simp] theorem canonical_dieReading (s : State) (raw : Nat) (r : Int) (h : s.fab.Canonical) : (s.dieReading raw r).fab.Canonical := by
  unfold State.dieReading
  extract_lets d same rate s1 broken s2 hot cool s3 s4 s5
  have h2 : s2.fab.Canonical := by
    show (ite _ _ _ : State).fab.Canonical
    split
    · rw [fab_clearAlarm]
      exact h
    · exact h
  have h4 : s4.fab.Canonical := by
    show (ite _ _ _ : State).fab.Canonical
    split
    · exact canonical_dieEnter _ _ h2
    · exact h2
  have h5 : s5.fab.Canonical := by
    show (ite _ _ _ : State).fab.Canonical
    split
    · exact canonical_dieEnforce _ h4
    · exact h4
  split
  · exact canonical_dieBroken _ h
  · split
    · exact canonical_enterRock _ _ _ h5
    · exact h5

/-! ### Time -/

@[simp] theorem canonical_servoSetDo (p : ServoParams) (s : State) (h : s.fab.Canonical) :
    (servoSetDo p s).state.fab.Canonical := by
  unfold servoSetDo
  exact canonical_checked _ _ h h
@[simp] theorem canonical_triggerSetDo (output : Nat) (mode : TrigMode) (start period width : Nat) (s : State) (h : s.fab.Canonical) :
    (triggerSetDo output mode start period width s).state.fab.Canonical := by
  unfold triggerSetDo
  exact canonical_checked _ _ h h
@[simp] theorem canonical_captureReadDo (input max : Nat) (s : State) (h : s.fab.Canonical) :
    (captureReadDo input max s).state.fab.Canonical := by
  unfold captureReadDo
  exact canonical_checked _ _ h h
@[simp] theorem canonical_entrySetDo (n : Nat) (w : BitVec 256) (s : State) (h : s.fab.Canonical) :
    (entrySetDo n w s).state.fab.Canonical := by
  have written : (s.writeEntry n (entryOf w)).fab.Canonical := by simpa using h
  unfold entrySetDo
  refine canonical_checked _ _ h ?_
  dsimp only [state_ok]
  split <;> exact written
@[simp] theorem canonical_lighthouseConfigDo (c : LhConfig) (s : State) (h : s.fab.Canonical) :
    (lighthouseConfigDo c s).state.fab.Canonical := by
  unfold lighthouseConfigDo
  exact canonical_checked _ _ h h
@[simp] theorem canonical_gridSample (n : Nat) (s : State) (h : s.fab.Canonical) : (gridSample n s).fab.Canonical := by
  simp [gridSample, h]

/-! ### Requests -/

@[simp] theorem canonical_fetched (s : State) (p : Path) (b : Nat) (h : s.fab.Canonical) :
    (s.fetched p b).fab.Canonical := by
  fun_cases State.fetched s p b <;> simp [h]



/-! ### Strobe -/

@[simp] theorem canonical_strobeLane (s : State) (n hold tag : Nat) (h : s.fab.Canonical) :
    (s.strobeLane n hold tag).fab.Canonical := by
  fun_cases State.strobeLane s n hold tag <;> simp [h]
@[simp] theorem canonical_strobeLanes (s : State) (mask t0 tag : Nat) (h : s.fab.Canonical) : (s.strobeLanes mask t0 tag).fab.Canonical := by
  unfold State.strobeLanes
  exact canonical_foldl (fun z n hz => by simp [fab_ite, canonical_ite, hz]) _ h
@[simp] theorem canonical_baseInstant (s : State) (a : ArmedFiring) (h : s.fab.Canonical) : (s.baseInstant a).fab.Canonical := by
  have aligned (l : List Nat) (b : Nat) (u : State) :
      (l.foldl (fun z i => ((z.springBase i b).alignLane i a.pos).publishLane i) u).fab = u.fab := fab_foldl (fun _ _ => by simp) l u
  have published (l : List Nat) (u : State) :
      (l.foldl (fun z i => (z.publishModel i).laneGeneration i a.pos []) u).fab = u.fab := fab_foldl (fun _ _ => by simp) l u
  simp [State.baseInstant, fab_ite, aligned, published, h]
@[simp] theorem canonical_captureInstant (s : State) (a : ArmedFiring) (h : s.fab.Canonical) :
    (s.captureInstant a).fab.Canonical := by simp [State.captureInstant, h]

end Sys2Proof.Machine
end

