-- ==== Sys2Proof/Proofs/Handlers.lean ====
section
/-! PROOF. What the outcome of each command and event leaves in the memories: one law for each form of handler, then one for each
handler. -/

namespace Sys2Proof.Machine

open Sys2Proof
set_option Elab.async false

/-! ### Forms of handlers -/

/-- Where an outcome is a next state, its memories are in the canonical form. -/
def NextCanonical (o : Host.Outcome State Fault Refusal) : Prop := ∀ u, o = .next u → u.fab.Canonical

theorem nextCanonical_next {s : State} (h : s.fab.Canonical) : NextCanonical (.next s) := by
  rintro _ ⟨⟩
  exact h
theorem nextCanonical_fault (f : Fault) : NextCanonical (.fault f) := by rintro _ ⟨⟩
theorem nextCanonical_done (a : State) {b : State} (h : b.fab.Canonical) : NextCanonical (done a b) :=
  nextCanonical_next (by rw [fab_settle]; exact h)

theorem nextCanonical_whenever {s : State} (h : s.fab.Canonical) (t : Nat) (c : State → Bool) {f : State → State}
    (hf : ∀ z, z.fab.Canonical → (f z).fab.Canonical) : NextCanonical (whenever s t c f) := by
  have ht : (s.atTime t).fab.Canonical := by rw [fab_atTime]; exact h
  unfold whenever
  dsimp only
  split
  · exact nextCanonical_done _ (hf _ ht)
  · exact nextCanonical_next ht

theorem nextCanonical_whenever_state {s : State} (h : s.fab.Canonical) (t : Nat) (c : State → Bool) {f : State → State}
    (hf : ∀ z, z.Canonical → (f z).Canonical) : NextCanonical (whenever s t c f) := nextCanonical_whenever h t c hf

theorem nextCanonical_wheneverOn {s : State} (h : s.fab.Canonical) (e : Bool) (t : Nat) (c : State → Bool) {f : State → State}
    (hf : ∀ z, z.fab.Canonical → (f z).fab.Canonical) : NextCanonical (wheneverOn e s t c f) := by
  unfold wheneverOn
  split
  · exact nextCanonical_whenever h t c hf
  · exact nextCanonical_fault _

theorem nextCanonical_firing {s : State} (h : s.fab.Canonical) (n kind t : Nat) {f : State → ArmedFiring → State}
    (hf : ∀ z a, z.fab.Canonical → (f z a).fab.Canonical) : NextCanonical (firing n kind s t f) := by
  have ht : (s.atTime t).fab.Canonical := by rw [fab_atTime]; exact h
  unfold firing
  dsimp only
  split
  · split
    · split
      · exact nextCanonical_done _ (hf _ _ (by rw [fab_takeFiring]; exact ht))
      · exact nextCanonical_next ht
    · exact nextCanonical_next ht
  · exact nextCanonical_fault _

theorem nextCanonical_firing_state {s : State} (h : s.fab.Canonical) (n kind t : Nat) {f : State → ArmedFiring → State}
    (hf : ∀ z a, z.Canonical → (f z a).Canonical) : NextCanonical (firing n kind s t f) := nextCanonical_firing h n kind t hf

/-- In BEACHED the command runs on the snapshot, and of what it leaves only `fresh` is taken. -/
theorem canonical_runs {s : State} (h : s.fab.Canonical) {f : State → Answer}
    (hf : ∀ z, z.fab.Canonical → (f z).state.fab.Canonical) : (s.runs f).state.fab.Canonical := by
  unfold State.runs
  split
  · exact h
  · exact hf s h

theorem nextCanonical_runCommand {s : State} (h : s.fab.Canonical) (src : Source) (code : Nat) {f : State → Answer}
    (hf : ∀ z, z.fab.Canonical → (f z).state.fab.Canonical) : NextCanonical (runCommand src code f s) := by
  have ran := canonical_runs h hf
  unfold runCommand
  split
  · exact nextCanonical_next h
  · exact nextCanonical_done _ (canonical_answer _ _ _ _ _ h)
  · dsimp only
    split
    · exact nextCanonical_done _ (canonical_answer _ _ _ _ _ ran)
    · exact nextCanonical_done _ ran

theorem nextCanonical_runReset {s : State} (h : s.fab.Canonical) (src : Source) (code : Nat) (checks : State → List (Bool × Nat))
    {f : State → State} (hf : ∀ z, z.fab.Canonical → (f z).fab.Canonical) : NextCanonical (runReset src code checks f s) := by
  unfold runReset
  split
  · exact nextCanonical_next h
  · exact nextCanonical_done _ (canonical_answer _ _ _ _ _ h)
  · dsimp only
    split
    · exact nextCanonical_done _ (canonical_selfReset _ _ _ (hf _ (canonical_answer _ _ _ _ _ h)))
    · exact nextCanonical_done _ (canonical_answer _ _ _ _ _ h)

theorem canonical_bellChannel (s : State) (c : Nat) {f : State → State} (hf : ∀ z, z.fab.Canonical → (f z).fab.Canonical)
    (h : s.fab.Canonical) : (s.bellChannel c f).fab.Canonical := by
  fun_cases State.bellChannel s c f
  · exact hf s h
  · simpa using h

theorem canonical_frameIn {s : State} (l t : Nat) (h : s.fab.Canonical) : (s.frameIn l t).fab.Canonical := by
  rw [fab_frameIn]
  exact h

theorem nextCanonical_overLan {s : State} (w : s.fab.Canonical) (t : Nat) (lan : Lan) (ok : Bool) (h : GHead) (b : GBody) :
    NextCanonical (overLan t lan ok h b s) :=
  nextCanonical_whenever (canonical_frameIn _ _ w) _ _ fun _ hz => canonical_garzetIn _ _ _ _ hz

theorem nextCanonical_overLink {s : State} (w : s.fab.Canonical) (t : Nat) (link : Link) (ok : Bool) (h : GHead) (b : GBody) :
    NextCanonical (overLink t link ok h b s) := by
  unfold overLink
  cases link <;> dsimp only
  · exact nextCanonical_overLan w _ _ _ _ _
  · exact nextCanonical_overLan w _ _ _ _ _
  · exact nextCanonical_whenever w _ _ fun z hz => canonical_twinIn 0 h b z hz
  · exact nextCanonical_whenever w _ _ fun z hz => canonical_twinIn 1 h b z hz

/-! ### Analog -/

theorem nextCanonical_execAnalogInputSet (src : Source) (input : Nat) (cls : InputClass) (scale : Int) (handle : Nat) (s : State) (h : s.fab.Canonical) :
    NextCanonical (execAnalogInputSet src input cls scale handle s) :=
  nextCanonical_runCommand h _ _ fun _ hz => canonical_checked _ _ hz hz
theorem nextCanonical_execAnalogTableSet (src : Source) (conv table : Nat) (entries : List (BitVec 32)) (queue : Option Nat) (s : State) (h : s.fab.Canonical) :
    NextCanonical (execAnalogTableSet src conv table entries queue s) :=
  nextCanonical_runCommand h _ _ fun _ hz => canonical_checked _ _ hz hz
theorem nextCanonical_execAnalogTableStart (src : Source) (conv table : Nat) (s : State) (h : s.fab.Canonical) :
    NextCanonical (execAnalogTableStart src conv table s) :=
  nextCanonical_runCommand h _ _ fun _ hz => canonical_tableStartDo _ _ _ hz
theorem nextCanonical_execAnalogConvert (src : Source) (input : Nat) (urgent : Bool) (s : State) (h : s.fab.Canonical) :
    NextCanonical (execAnalogConvert src input urgent s) :=
  nextCanonical_runCommand h _ _ fun _ hz => canonical_convertDo _ _ _ _ hz
theorem nextCanonical_execAnalogRead (src : Source) (inputs : List Nat) (s : State) (h : s.fab.Canonical) :
    NextCanonical (execAnalogRead src inputs s) := nextCanonical_runCommand h _ _ fun _ hz => canonical_checked _ _ hz hz
theorem nextCanonical_execAnalogCalPoint (src : Source) (target : CalTarget) (full : Bool) (value : Int) (s : State) (h : s.fab.Canonical) :
    NextCanonical (execAnalogCalPoint src target full value s) :=
  nextCanonical_runCommand h _ _ fun _ hz => canonical_calPointDo _ _ _ _ _ hz
theorem nextCanonical_execAnalogCalCommit (src : Source) (inputs icvs : List Nat) (all : Bool) (s : State) (h : s.fab.Canonical) :
    NextCanonical (execAnalogCalCommit src inputs icvs all s) :=
  nextCanonical_runCommand h _ _ fun z hz => canonical_Answer_persisted _ _ _ _ (canonical_calCommitDo _ _ _ z hz)
theorem nextCanonical_execAnalogCalRead (src : Source) (target : CalTarget) (s : State) (h : s.fab.Canonical) :
    NextCanonical (execAnalogCalRead src target s) := nextCanonical_runCommand h _ _ fun _ hz => canonical_checked _ _ hz hz
theorem nextCanonical_execCalPointResult (t : Nat) (target : CalTarget) (s : State) (h : s.fab.Canonical) :
    NextCanonical (execCalPointResult t target s) := by
  refine nextCanonical_wheneverOn h _ _ _ fun z hz => ?_
  split
  · exact hz
  · exact canonical_calResultDo _ _ _ hz
theorem nextCanonical_execAnalogCountersRead (src : Source) (conv : Nat) (clear : Bool) (s : State) (h : s.fab.Canonical) :
    NextCanonical (execAnalogCountersRead src conv clear s) :=
  nextCanonical_runCommand h _ _ fun _ hz => canonical_checked _ _ hz (by dsimp only; split <;> exact hz)
theorem nextCanonical_execConversionComplete (t conv code : Nat) (s : State) (h : s.fab.Canonical) :
    NextCanonical (execConversionComplete t conv code s) := by
  refine nextCanonical_wheneverOn h _ _ _ fun z hz => ?_
  split
  · exact hz
  · exact canonical_conversionDo _ _ _ _ hz
theorem nextCanonical_execTableRunEnd (t conv : Nat) (s : State) (h : s.fab.Canonical) :
    NextCanonical (execTableRunEnd t conv s) := by
  refine nextCanonical_wheneverOn h _ _ _ fun z hz => ?_
  split
  · exact hz
  · exact canonical_tableEndDo _ _ _ hz
theorem nextCanonical_execSarSequence (t entry : Nat) (s : State) (h : s.fab.Canonical) :
    NextCanonical (execSarSequence t entry s) := nextCanonical_firing h _ _ _ fun _ _ hz => by rw [fab_startTable]; exact hz
theorem nextCanonical_execIcvStatus (src : Source) (lane : Nat) (s : State) (h : s.fab.Canonical) :
    NextCanonical (execIcvStatus src lane s) := nextCanonical_runCommand h _ _ fun _ hz => canonical_checked _ _ hz hz
theorem nextCanonical_execIcvReset (src : Source) (lane : Nat) (s : State) (h : s.fab.Canonical) :
    NextCanonical (execIcvReset src lane s) := nextCanonical_runCommand h _ _ fun _ hz => canonical_checked _ _ hz hz
theorem nextCanonical_execIcvWindow (t entry : Nat) (s : State) (h : s.fab.Canonical) :
    NextCanonical (execIcvWindow t entry s) :=
  nextCanonical_firing h _ _ _ fun _ _ hz => canonical_foldl (fun _ _ hy => by simpa using hy) _ hz
theorem nextCanonical_execIcvWord (t lane : Nat) (count : Int) (s : State) (h : s.fab.Canonical) :
    NextCanonical (execIcvWord t lane count s) := nextCanonical_wheneverOn h _ _ _ fun _ hz => by rw [fab_icvWordDo]; exact hz
theorem nextCanonical_execBeachedBusConversion (t lane code : Nat) (s : State) (h : s.fab.Canonical) :
    NextCanonical (execBeachedBusConversion t lane code s) :=
  nextCanonical_wheneverOn h _ _ _ fun _ hz => by rw [fab_beachedBusDo]; exact hz
theorem nextCanonical_execDacConfig (src : Source) (out : Nat) (source : OutSource) (safeCode range : Nat) (s : State) (h : s.fab.Canonical) :
    NextCanonical (execDacConfig src out source safeCode range s) :=
  nextCanonical_runCommand h _ _ fun _ hz => canonical_dacConfigDo _ _ _ _ _ hz
theorem nextCanonical_execDacSet (src : Source) (out range code : Nat) (s : State) (h : s.fab.Canonical) :
    NextCanonical (execDacSet src out range code s) :=
  nextCanonical_runCommand h _ _ fun _ hz => canonical_dacSetDo _ _ _ _ _ hz
theorem nextCanonical_execDacRangeSettle (t out : Nat) (s : State) (h : s.fab.Canonical) :
    NextCanonical (execDacRangeSettle t out s) := nextCanonical_wheneverOn h _ _ _ fun _ hz => hz
theorem nextCanonical_execTachConfig (src : Source) (input : Nat) (falling pair : Bool) (ppr filter standstill : Nat) (s : State) (h : s.fab.Canonical) :
    NextCanonical (execTachConfig src input falling pair ppr filter standstill s) :=
  nextCanonical_runCommand h _ _ fun z hz => canonical_tachConfigDo _ _ _ _ _ _ z hz
theorem nextCanonical_execTachRead (src : Source) (inputs : List Nat) (s : State) (h : s.fab.Canonical) :
    NextCanonical (execTachRead src inputs s) := nextCanonical_runCommand h _ _ fun _ hz => canonical_checked _ _ hz hz
theorem nextCanonical_execTachEdge (t input : Nat) (pulse : TachPulse) (s : State) (h : s.fab.Canonical) :
    NextCanonical (execTachEdge t input pulse s) :=
  nextCanonical_wheneverOn h _ _ _ fun _ hz => by rw [fab_tachSignals]; exact hz
theorem nextCanonical_execStandstill (t input : Nat) (s : State) (h : s.fab.Canonical) :
    NextCanonical (execStandstill t input s) := nextCanonical_wheneverOn h _ _ _ fun _ hz => by rw [fab_tachSignals]; exact hz

/-! ### Can -/

theorem nextCanonical_execCanConfig (src : Source) (ctl : Nat) (c : CanConfig) (s : State) (h : s.fab.Canonical) :
    NextCanonical (execCanConfig src ctl c s) := by
  refine nextCanonical_runCommand h _ _ fun z hz => canonical_Answer_persisted _ _ _ _ (canonical_checked _ _ hz ?_)
  exact canonical_canConfigDo _ _ _ hz
theorem nextCanonical_execCanFilterSet (src : Source) (ctl i : Nat) (f : CanFilter) (s : State) (h : s.fab.Canonical) :
    NextCanonical (execCanFilterSet src ctl i f s) := by
  refine nextCanonical_runCommand h _ _ fun z hz => canonical_Answer_persisted _ _ _ _ (canonical_checked _ _ hz ?_)
  rw [state_ok, fab_filterDo]
  exact hz
theorem nextCanonical_execCanSend (src : Source) (ctl buf : Nat) (abort : Bool) (f : CanFrame) (s : State) (h : s.fab.Canonical) :
    NextCanonical (execCanSend src ctl buf abort f s) := by
  refine nextCanonical_runCommand h _ _ fun z hz => ?_
  dsimp only
  split
  · exact hz
  · split
    · exact canonical_notOwner _ _ hz
    · split
      · split
        · exact hz
        · exact canonical_abortTx _ _ _ _ hz
      · exact canonical_checked _ _ hz hz
theorem nextCanonical_execCanReceive (src : Source) (ctl which max : Nat) (s : State) (h : s.fab.Canonical) :
    NextCanonical (execCanReceive src ctl which max s) := by
  refine nextCanonical_runCommand h _ _ fun z hz => ?_
  dsimp only
  split
  · exact hz
  · split
    · exact canonical_notOwner _ _ hz
    · exact hz
theorem nextCanonical_execCanRecover (src : Source) (ctl : Nat) (s : State) (h : s.fab.Canonical) :
    NextCanonical (execCanRecover src ctl s) := nextCanonical_runCommand h _ _ fun _ hz => canonical_checked _ _ hz hz
theorem nextCanonical_execCanStatus (src : Source) (ctl : Nat) (s : State) (h : s.fab.Canonical) :
    NextCanonical (execCanStatus src ctl s) := nextCanonical_runCommand h _ _ fun _ hz => canonical_checked _ _ hz hz
theorem nextCanonical_execCanCountersRead (src : Source) (ctl : Nat) (clear : Bool) (s : State) (h : s.fab.Canonical) :
    NextCanonical (execCanCountersRead src ctl clear s) :=
  nextCanonical_runCommand h _ _ fun _ hz => canonical_checked _ _ hz (by dsimp only; split <;> exact hz)
theorem nextCanonical_execCanTimeMasterSet (src : Source) (ctl : Nat) (on : Bool) (m : TimeMaster) (s : State) (h : s.fab.Canonical) :
    NextCanonical (execCanTimeMasterSet src ctl on m s) := by
  refine nextCanonical_runCommand h _ _ fun z hz => canonical_checked _ _ hz ?_
  split
  · exact canonical_candidacyEnds _ _ hz
  · extract_lets same z1 r z2
    have h1 : z1.fab.Canonical := by
      show (ite _ _ _ : State).fab.Canonical
      split
      · exact hz
      · exact canonical_candidacyEnds _ _ hz
    show (ite _ _ _ : State).fab.Canonical
    split <;> exact h1
theorem nextCanonical_execContainerTimeTake (t ctl : Nat) (s : State) (h : s.fab.Canonical) :
    NextCanonical (execContainerTimeTake t ctl s) := by
  refine nextCanonical_whenever h _ _ fun z hz => ?_
  split
  · exact hz
  · rw [fab_setOwn, fab_takeActive]
    exact hz
theorem nextCanonical_execCanReferenceDue (t ctl : Nat) (s : State) (h : s.fab.Canonical) :
    NextCanonical (execCanReferenceDue t ctl s) := by
  refine nextCanonical_whenever h _ _ fun z hz => ?_
  dsimp only
  split
  · exact hz
  · split
    · split <;> exact hz
    · split <;> exact hz
theorem nextCanonical_execCanBusIdle (t ctl : Nat) (s : State) (h : s.fab.Canonical) :
    NextCanonical (execCanBusIdle t ctl s) := by
  refine nextCanonical_wheneverOn h _ _ _ fun z hz => ?_
  dsimp only
  split
  · exact hz
  · split
    · exact hz
    · split
      · exact hz
      · rw [fab_emit]
        exact hz
theorem nextCanonical_execCanTxAttemptEnd (t ctl result : Nat) (loopDelay : Option Nat) (counted : Bool) (s : State) (h : s.fab.Canonical) :
    NextCanonical (execCanTxAttemptEnd t ctl result loopDelay counted s) := by
  refine nextCanonical_wheneverOn h _ _ _ fun z hz => ?_
  extract_lets c fd measured out res z1
  have h1 : z1.fab.Canonical := hz
  split
  · exact h1
  · split
    · exact h1
    · extract_lets z2 most
      have h2 : z2.fab.Canonical := h1
      split
      · exact canonical_endTx _ _ _ _ _ h2
      · split
        · exact canonical_endTx _ _ _ _ _ h2
        · split
          · exact canonical_endTx _ _ _ _ _ h2
          · exact h2
theorem nextCanonical_execTxTimeout (t ctl buf : Nat) (s : State) (h : s.fab.Canonical) :
    NextCanonical (execTxTimeout t ctl buf s) := nextCanonical_wheneverOn h _ _ _ fun _ hz => canonical_abortTx _ _ _ _ hz
theorem nextCanonical_execTxEventRoom (t ctl buf : Nat) (s : State) (h : s.fab.Canonical) :
    NextCanonical (execTxEventRoom t ctl buf s) := by
  refine nextCanonical_wheneverOn h _ _ _ fun z hz => ?_
  split
  · exact hz
  · exact canonical_putOutcome _ _ _ _ hz
theorem nextCanonical_execCanFrameReceived (t ctl start : Nat) (f : CanFrame) (s : State) (h : s.fab.Canonical) :
    NextCanonical (execCanFrameReceived t ctl start f s) := by
  refine nextCanonical_wheneverOn h _ _ _ fun z hz => ?_
  extract_lets c z1 hit which
  have h1 : z1.fab.Canonical := hz
  clear_value which
  split
  · exact h1
  · split
    · split <;> exact h1
    · split
      · next e => exact canonical_canPut _ _ _ _ h1 e
      · exact canonical_rxLose _ _ _ h1
theorem nextCanonical_execCanReceiveError (t ctl : Nat) (exception : Bool) (code : Nat) (dominantAfterFlag : Bool) (s : State) (h : s.fab.Canonical) :
    NextCanonical (execCanReceiveError t ctl exception code dominantAfterFlag s) :=
  nextCanonical_wheneverOn h _ _ _ fun _ hz => hz
theorem nextCanonical_execCanBusOff (t ctl : Nat) (s : State) (h : s.fab.Canonical) :
    NextCanonical (execCanBusOff t ctl s) :=
  nextCanonical_wheneverOn h _ _ _ fun _ hz => by rw [fab_raise]; exact canonical_endAllTx _ _ _ hz
theorem nextCanonical_execCanRecoveryDone (t ctl : Nat) (s : State) (h : s.fab.Canonical) :
    NextCanonical (execCanRecoveryDone t ctl s) := nextCanonical_wheneverOn h _ _ _ fun _ hz => by rw [fab_clearAlarm]; exact hz

/-! ### Lane -/

theorem nextCanonical_execLaneConfig (src : Source) (lane : Nat) (c : LaneConfig) (s : State) (h : s.fab.Canonical) :
    NextCanonical (execLaneConfig src lane c s) :=
  nextCanonical_runCommand h _ _ fun z hz => canonical_Answer_persisted _ _ _ _ (canonical_configDo _ _ z hz)
theorem nextCanonical_execLaneLoopSet (src : Source) (lane : Nat) (g : LoopGains) (s : State) (h : s.fab.Canonical) :
    NextCanonical (execLaneLoopSet src lane g s) :=
  nextCanonical_runCommand h _ _ fun z hz => canonical_Answer_persisted _ _ _ _ (canonical_loopSetDo _ _ z hz)
theorem nextCanonical_execLaneArm (src : Source) (lane : Nat) (s : State) (h : s.fab.Canonical) :
    NextCanonical (execLaneArm src lane s) := nextCanonical_runCommand h _ _ fun _ hz => canonical_checked _ _ hz hz
theorem nextCanonical_execArmSequenceStep (t lane : Nat) (s : State) (h : s.fab.Canonical) :
    NextCanonical (execArmSequenceStep t lane s) := by
  refine nextCanonical_wheneverOn h _ _ _ fun z hz => ?_
  split
  · exact hz
  · split
    · exact canonical_armStep _ _ _ hz
    · rw [fab_abandonArming]
      exact hz
theorem nextCanonical_execPrechargeShort (t lane : Nat) (s : State) (h : s.fab.Canonical) :
    NextCanonical (execPrechargeShort t lane s) :=
  nextCanonical_wheneverOn h _ _ _ fun _ hz => by rw [fab_prechargeFail]; exact hz
theorem nextCanonical_execLaneDisarm (src : Source) (lane : Nat) (s : State) (h : s.fab.Canonical) :
    NextCanonical (execLaneDisarm src lane s) := nextCanonical_runCommand h _ _ fun _ hz => canonical_disarmDo _ _ hz
theorem nextCanonical_execDisarmSequenceStep (t lane : Nat) (s : State) (h : s.fab.Canonical) :
    NextCanonical (execDisarmSequenceStep t lane s) := by
  refine nextCanonical_wheneverOn h _ _ _ fun z hz => ?_
  split
  · exact hz
  · exact canonical_disarmStep _ _ _ hz
theorem nextCanonical_execDisarmForced (t lane : Nat) (s : State) (h : s.fab.Canonical) :
    NextCanonical (execDisarmForced t lane s) := nextCanonical_wheneverOn h _ _ _ fun _ hz => by rw [fab_event]; exact hz
theorem nextCanonical_execDecayCheck (t lane : Nat) (s : State) (h : s.fab.Canonical) :
    NextCanonical (execDecayCheck t lane s) := by
  refine nextCanonical_wheneverOn h _ _ _ fun z hz => ?_
  dsimp only
  split
  · exact hz
  · exact canonical_weldSuspect _ _ _ hz
theorem nextCanonical_execLaneSetpoint (src : Source) (lane : Nat) (v : Int) (s : State) (h : s.fab.Canonical) :
    NextCanonical (execLaneSetpoint src lane v s) := nextCanonical_runCommand h _ _ fun _ hz => canonical_setpointDo _ _ _ _ hz
theorem nextCanonical_execLaneStatus (src : Source) (lane : Nat) (s : State) (h : s.fab.Canonical) :
    NextCanonical (execLaneStatus src lane s) := nextCanonical_runCommand h _ _ fun _ hz => canonical_checked _ _ hz hz
theorem nextCanonical_execLaneFaultClear (src : Source) (lane : Nat) (ack : Bool) (s : State) (h : s.fab.Canonical) :
    NextCanonical (execLaneFaultClear src lane ack s) :=
  nextCanonical_runCommand h _ _ fun _ hz => canonical_faultClearDo _ _ _ hz
theorem nextCanonical_execLaneCountersRead (src : Source) (lane : Nat) (clear : Bool) (s : State) (h : s.fab.Canonical) :
    NextCanonical (execLaneCountersRead src lane clear s) :=
  nextCanonical_runCommand h _ _ fun _ hz => canonical_checked _ _ hz (by dsimp only; split <;> exact hz)
theorem nextCanonical_execPwmPeriodStart (t lane phase : Nat) (s : State) (h : s.fab.Canonical) :
    NextCanonical (execPwmPeriodStart t lane phase s) := by
  refine nextCanonical_wheneverOn h _ _ _ fun z hz => ?_
  split
  · exact hz
  · exact canonical_pwmPeriodDo _ _ _ _ hz
theorem nextCanonical_execLoopSampleLost (t lane : Nat) (s : State) (h : s.fab.Canonical) :
    NextCanonical (execLoopSampleLost t lane s) := nextCanonical_wheneverOn h _ _ _ fun _ hz => canonical_tripLane _ _ _ _ hz
theorem nextCanonical_execBusRange (t lane : Nat) (s : State) (h : s.fab.Canonical) :
    NextCanonical (execBusRange t lane s) := nextCanonical_wheneverOn h _ _ _ fun _ hz => canonical_tripLane _ _ _ _ hz
theorem nextCanonical_execContactorFeedback (t lane k : Nat) (closed : Bool) (s : State) (h : s.fab.Canonical) :
    NextCanonical (execContactorFeedback t lane k closed s) := nextCanonical_wheneverOn h _ _ _ fun _ hz => hz
theorem nextCanonical_execContactorMismatch (t lane k : Nat) (s : State) (h : s.fab.Canonical) :
    NextCanonical (execContactorMismatch t lane k s) :=
  nextCanonical_wheneverOn h _ _ _ fun _ hz => canonical_tripLane _ _ _ _ hz
theorem nextCanonical_execWeldCheck (t lane : Nat) (s : State) (h : s.fab.Canonical) :
    NextCanonical (execWeldCheck t lane s) := nextCanonical_wheneverOn h _ _ _ fun _ hz => canonical_weldCheckDo _ _ hz

/-! ### Model -/

theorem nextCanonical_execModelParamLoad (src : Source) (typ : Nat) (bytes : List Byte) (s : State) (h : s.fab.Canonical) :
    NextCanonical (execModelParamLoad src typ bytes s) := nextCanonical_runCommand h _ _ fun _ hz => canonical_checked _ _ hz hz
theorem nextCanonical_execModelParamRead (src : Source) (typ : Nat) (s : State) (h : s.fab.Canonical) :
    NextCanonical (execModelParamRead src typ s) :=
  nextCanonical_runCommand h _ _ fun _ hz => canonical_checked _ _ hz (by split <;> exact hz)
theorem nextCanonical_execModelAssign (src : Source) (port : Nat) (types sensors : List Nat) (s : State) (h : s.fab.Canonical) :
    NextCanonical (execModelAssign src port types sensors s) :=
  nextCanonical_runCommand h _ _ fun _ hz => canonical_assignDo _ _ _ _ hz
theorem nextCanonical_execModelCellRead (src : Source) (port first count : Nat) (s : State) (h : s.fab.Canonical) :
    NextCanonical (execModelCellRead src port first count s) :=
  nextCanonical_runCommand h _ _ fun _ hz => canonical_checked _ _ hz hz
theorem nextCanonical_execModelStatus (src : Source) (lane : Nat) (s : State) (h : s.fab.Canonical) :
    NextCanonical (execModelStatus src lane s) := nextCanonical_runCommand h _ _ fun _ hz => canonical_checked _ _ hz hz
theorem nextCanonical_execModelLearnSet (src : Source) (native : Bool) (hours : Nat) (s : State) (h : s.fab.Canonical) :
    NextCanonical (execModelLearnSet src native hours s) :=
  nextCanonical_runCommand h _ _ fun _ hz => canonical_Answer_persisted _ _ _ _ (canonical_checked _ _ hz hz)
theorem nextCanonical_execModelLearnedRead (src : Source) (port : Nat) (s : State) (h : s.fab.Canonical) :
    NextCanonical (execModelLearnedRead src port s) := nextCanonical_runCommand h _ _ fun _ hz => canonical_checked _ _ hz hz
theorem nextCanonical_execModelLearnedWrite (src : Source) (port : Nat) (bytes : List Byte) (s : State) (h : s.fab.Canonical) :
    NextCanonical (execModelLearnedWrite src port bytes s) :=
  nextCanonical_runCommand h _ _ fun _ hz => canonical_learnedWriteDo _ _ _ hz
theorem nextCanonical_execModelCommit (src : Source) (s : State) (h : s.fab.Canonical) :
    NextCanonical (execModelCommit src s) :=
  nextCanonical_runCommand h _ _ fun _ hz => canonical_checked _ _ hz (by rw [state_ok, fab_requestCommit]; exact hz)
theorem nextCanonical_execModelRoughCommand (src : Source) (target : PortOrCell) (keep : Bool) (s : State) (h : s.fab.Canonical) :
    NextCanonical (execModelRoughCommand src target keep s) :=
  nextCanonical_runCommand h _ _ fun _ hz => canonical_checked _ _ hz (by rw [state_ok, fab_rough]; exact hz)
theorem nextCanonical_execModelPowerSet (src : Source) (on : Bool) (s : State) (h : s.fab.Canonical) :
    NextCanonical (execModelPowerSet src on s) := by
  refine nextCanonical_runCommand h _ _ fun z hz => ?_
  show (ite _ _ _ : State).fab.Canonical
  split
  · exact hz
  · rw [fab_slackExit]
    exact hz
theorem nextCanonical_execModelCountersRead (src : Source) (port : Nat) (clear : Bool) (s : State) (h : s.fab.Canonical) :
    NextCanonical (execModelCountersRead src port clear s) :=
  nextCanonical_runCommand h _ _ fun _ hz => canonical_checked _ _ hz (by dsimp only; split <;> exact hz)
theorem nextCanonical_execModelDiverged (t port cell : Nat) (s : State) (h : s.fab.Canonical) :
    NextCanonical (execModelDiverged t port cell s) := by
  refine nextCanonical_wheneverOn h _ _ _ fun z hz => ?_
  rw [fab_rough, fab_event]
  exact hz
theorem nextCanonical_execModelLimitsStale (t port : Nat) (s : State) (h : s.fab.Canonical) :
    NextCanonical (execModelLimitsStale t port s) := by
  refine nextCanonical_wheneverOn h _ _ _ fun z hz => ?_
  split <;> exact hz
theorem nextCanonical_execOpenCircuitEstimate (t port cell : Nat) (s : State) (h : s.fab.Canonical) :
    NextCanonical (execOpenCircuitEstimate t port cell s) := by
  refine nextCanonical_wheneverOn h _ _ _ fun z hz => ?_
  split
  · exact hz
  · rw [fab_openEstimate]
    exact hz
theorem nextCanonical_execLaneRest (t lane : Nat) (s : State) (h : s.fab.Canonical) :
    NextCanonical (execLaneRest t lane s) :=
  nextCanonical_wheneverOn h _ _ _ fun _ hz => canonical_foldl (fun _ _ hy => canonical_foldl (fun _ _ hx => by simpa using hx) _ hy) _ hz
theorem nextCanonical_execCommitInterval (t : Nat) (s : State) (h : s.fab.Canonical) :
    NextCanonical (execCommitInterval t s) := nextCanonical_whenever h _ _ fun _ hz => by rw [fab_requestCommit]; exact hz
theorem nextCanonical_execSlackEnter (t : Nat) (s : State) (h : s.fab.Canonical) : NextCanonical (execSlackEnter t s) := by
  refine nextCanonical_whenever_state h _ _ fun z hz => ?_
  rw [State.Canonical, fab_placeEntries, fab_event]
  exact hz
theorem nextCanonical_execSlackExit (t : Nat) (s : State) (h : s.fab.Canonical) : NextCanonical (execSlackExit t s) :=
  nextCanonical_whenever h _ _ fun _ hz => by rw [fab_slackExit]; exact hz

/-! ### Sound -/

theorem nextCanonical_execSoundSchedule (src : Source) (r : SoundReq) (s : State) (h : s.fab.Canonical) :
    NextCanonical (execSoundSchedule src r s) := nextCanonical_runCommand h _ _ fun z hz => canonical_scheduleDo _ z hz
theorem nextCanonical_execSoundCancel (src : Source) (lane set_ : Nat) (step : Option Nat) (s : State) (h : s.fab.Canonical) :
    NextCanonical (execSoundCancel src lane set_ step s) :=
  nextCanonical_runCommand h _ _ fun _ hz => canonical_checked _ _ hz (by rw [state_ok, fab_endSteps]; exact hz)
theorem nextCanonical_execSoundStatus (src : Source) (lane : Nat) (s : State) (h : s.fab.Canonical) :
    NextCanonical (execSoundStatus src lane s) := nextCanonical_runCommand h _ _ fun _ hz => canonical_checked _ _ hz hz
theorem nextCanonical_execSoundResultRead (src : Source) (lane set_ step port : Nat) (s : State) (h : s.fab.Canonical) :
    NextCanonical (execSoundResultRead src lane set_ step port s) :=
  nextCanonical_runCommand h _ _ fun _ hz => canonical_checked _ _ hz (by dsimp only; split <;> exact hz)
theorem nextCanonical_execSoundReadySend (t lane : Nat) (s : State) (h : s.fab.Canonical) :
    NextCanonical (execSoundReadySend t lane s) :=
  nextCanonical_wheneverOn h _ _ _ fun _ hz => canonical_foldl (fun _ _ hy => by rw [fab_sendSound]; exact hy) _ hz
theorem nextCanonical_execSoundDecision (t lane : Nat) (s : State) (h : s.fab.Canonical) :
    NextCanonical (execSoundDecision t lane s) :=
  nextCanonical_wheneverOn h _ _ _ fun _ hz => canonical_foldl (fun _ _ hy => by simpa using hy) _ hz
theorem nextCanonical_execSoundingStep (t entry : Nat) (s : State) (h : s.fab.Canonical) :
    NextCanonical (execSoundingStep t entry s) := by
  refine nextCanonical_firing h _ _ _ fun z a hz => ?_
  dsimp only
  split
  · exact hz
  · rw [fab_sendSound, fab_freeEntryAt]
    exact hz
theorem nextCanonical_execSoundAlone (t lane : Nat) (s : State) (h : s.fab.Canonical) :
    NextCanonical (execSoundAlone t lane s) :=
  nextCanonical_wheneverOn h _ _ _ fun _ hz => canonical_foldl (fun _ _ hy => by rw [fab_sendSound]; exact hy) _ hz
theorem nextCanonical_execSoundStepLeave (t lane : Nat) (s : State) (h : s.fab.Canonical) :
    NextCanonical (execSoundStepLeave t lane s) := by
  refine nextCanonical_wheneverOn h _ _ _ fun z hz => canonical_foldl (fun y a hy => ?_) _ hz
  split
  · exact hy
  · simpa using hy
theorem nextCanonical_execCaptureEnd (t lane : Nat) (s : State) (h : s.fab.Canonical) :
    NextCanonical (execCaptureEnd t lane s) := by
  refine nextCanonical_wheneverOn h _ _ _ fun z hz => canonical_foldl (fun y a hy => ?_) _ hz
  refine canonical_foldl (fun _ _ hx => by simpa using hx) _ ?_
  rw [fab_captureOff]
  exact hy
theorem nextCanonical_execSoundFit (t lane : Nat) (s : State) (h : s.fab.Canonical) :
    NextCanonical (execSoundFit t lane s) := by
  refine nextCanonical_wheneverOn h _ _ _ fun z hz => ?_
  refine canonical_foldl (fun _ _ hy => by simpa using hy) _ ?_
  exact canonical_foldl (fun _ _ hy => by simpa using hy) _ hz
theorem nextCanonical_execSoundSetClose (t lane : Nat) (s : State) (h : s.fab.Canonical) :
    NextCanonical (execSoundSetClose t lane s) :=
  nextCanonical_wheneverOn h _ _ _ fun _ hz => canonical_foldl (fun _ _ hy => by simpa using hy) _ hz
theorem nextCanonical_execSpringStart (src : Source) (lane : Nat) (iChg iDis : Int) (cvGain maxHours : Nat) (s : State) (h : s.fab.Canonical) :
    NextCanonical (execSpringStart src lane iChg iDis cvGain maxHours s) :=
  nextCanonical_runCommand h _ _ fun _ hz => canonical_springStartDo _ _ _ _ _ _ _ hz
theorem nextCanonical_execSpringStop (src : Source) (lane : Nat) (s : State) (h : s.fab.Canonical) :
    NextCanonical (execSpringStop src lane s) :=
  nextCanonical_runCommand h _ _ fun _ hz => canonical_checked _ _ hz (by rw [state_ok, fab_springFail]; exact hz)
theorem nextCanonical_execSpringStatus (src : Source) (lane : Nat) (s : State) (h : s.fab.Canonical) :
    NextCanonical (execSpringStatus src lane s) := nextCanonical_runCommand h _ _ fun _ hz => canonical_checked _ _ hz hz
theorem nextCanonical_execSpringRosterSet (src : Source) (share interval : Nat) (s : State) (h : s.fab.Canonical) :
    NextCanonical (execSpringRosterSet src share interval s) :=
  nextCanonical_runCommand h _ _ fun _ hz => canonical_checked _ _ hz hz
theorem nextCanonical_execSpringRosterRead (src : Source) (s : State) (h : s.fab.Canonical) :
    NextCanonical (execSpringRosterRead src s) := nextCanonical_runCommand h _ _ fun _ hz => canonical_checked _ _ hz hz
theorem nextCanonical_execSpringPhaseEnd (t lane : Nat) (s : State) (h : s.fab.Canonical) :
    NextCanonical (execSpringPhaseEnd t lane s) := nextCanonical_wheneverOn h _ _ _ fun _ hz => hz
theorem nextCanonical_execSpringTaperEnd (t lane : Nat) (s : State) (h : s.fab.Canonical) :
    NextCanonical (execSpringTaperEnd t lane s) :=
  nextCanonical_wheneverOn h _ _ _ fun _ hz => canonical_foldl (fun _ _ hy => canonical_foldl (fun _ _ hx => by simpa using hx) _ hy) _ hz
theorem nextCanonical_execSpringEndpoint (t lane : Nat) (s : State) (h : s.fab.Canonical) :
    NextCanonical (execSpringEndpoint t lane s) := by
  refine nextCanonical_wheneverOn h _ _ _ fun z hz => ?_
  split <;> simpa using hz
theorem nextCanonical_execSpringInterrupted (t lane : Nat) (s : State) (h : s.fab.Canonical) :
    NextCanonical (execSpringInterrupted t lane s) :=
  nextCanonical_wheneverOn h _ _ _ fun _ hz => by rw [fab_springFail]; exact hz
theorem nextCanonical_execSpringPortLost (t lane : Nat) (s : State) (h : s.fab.Canonical) :
    NextCanonical (execSpringPortLost t lane s) := nextCanonical_wheneverOn h _ _ _ fun _ hz => by rw [fab_springFail]; exact hz
theorem nextCanonical_execSpringTimeout (t lane : Nat) (s : State) (h : s.fab.Canonical) :
    NextCanonical (execSpringTimeout t lane s) := nextCanonical_wheneverOn h _ _ _ fun _ hz => by rw [fab_springFail]; exact hz

/-! ### Change -/

theorem nextCanonical_execEstateChangePropose (src : Source) (p : Proposal) (s : State) (h : s.fab.Canonical) :
    NextCanonical (execEstateChangePropose src p s) := by
  refine nextCanonical_runCommand h _ _ fun z hz => canonical_checked _ _ hz ?_
  exact canonical_foldl (fun _ _ hy => by simpa using hy) _ (by simpa using hz)
theorem nextCanonical_execEstateChangeStatus (src : Source) (id : Nat) (s : State) (h : s.fab.Canonical) :
    NextCanonical (execEstateChangeStatus src id s) := by
  refine nextCanonical_runCommand h _ _ fun z hz => ?_
  split <;> exact hz
theorem nextCanonical_execEstateChangeAbandon (src : Source) (id : Nat) (s : State) (h : s.fab.Canonical) :
    NextCanonical (execEstateChangeAbandon src id s) := by
  refine nextCanonical_runCommand h _ _ fun z hz => ?_
  split
  · split <;> exact hz
  · refine canonical_checked _ _ hz (canonical_closeChange _ _ _ ?_)
    exact canonical_foldl (fun _ _ hy => by simpa using hy) _ hz
theorem nextCanonical_execChangeDecision (t id : Nat) (s : State) (h : s.fab.Canonical) :
    NextCanonical (execChangeDecision t id s) := by
  refine nextCanonical_whenever h _ _ fun z hz => ?_
  dsimp only
  split
  · exact hz
  · split
    · exact canonical_foldl (fun _ _ hy => by simpa using hy) _ (by simpa using hz)
    · exact canonical_closeChange _ _ _ (canonical_foldl (fun _ _ hy => by simpa using hy) _ hz)
theorem nextCanonical_execChangeRound (t id : Nat) (s : State) (h : s.fab.Canonical) :
    NextCanonical (execChangeRound t id s) := by
  refine nextCanonical_whenever h _ _ fun z hz => ?_
  dsimp only
  split
  · exact hz
  · split
    · split
      · exact canonical_closeChange _ _ _ hz
      · split
        · simpa using hz
        · exact canonical_leftSplit _ _ hz
    · split
      · exact canonical_closeChange _ _ _ hz
      · split
        · simpa using hz
        · split
          · simpa using hz
          · exact canonical_leftSplit _ _ hz
theorem nextCanonical_execModeChange (t entry : Nat) (s : State) (h : s.fab.Canonical) :
    NextCanonical (execModeChange t entry s) := by
  refine nextCanonical_firing h _ _ _ fun z a hz => ?_
  dsimp only
  split
  · exact canonical_fallenBack _ _ (by simpa using hz)
  · split
    · exact hz
    · rw [fab_placeEntries]
      simpa using hz
theorem nextCanonical_execChangeLagging (t id : Nat) (s : State) (h : s.fab.Canonical) :
    NextCanonical (execChangeLagging t id s) := by
  refine nextCanonical_whenever h _ _ fun z hz => ?_
  dsimp only
  split
  · exact hz
  · rw [fab_sendReport, fab_updChange]
    split
    · exact hz
    · rw [fab_freeEntryAt]
      exact hz
theorem nextCanonical_execChangeMemberClose (t id : Nat) (s : State) (h : s.fab.Canonical) :
    NextCanonical (execChangeMemberClose t id s) := nextCanonical_whenever h _ _ fun _ hz => canonical_closeChange _ _ _ hz
theorem nextCanonical_execCoordinatorTakeover (t : Nat) (roster : List RosterLane) (reports : List (Proposal × List ReportMsg)) (s : State) (h : s.fab.Canonical) :
    NextCanonical (execCoordinatorTakeover t roster reports s) :=
  nextCanonical_whenever h _ _ fun _ hz => canonical_foldl (fun _ _ hy => canonical_resumeChange _ _ hy) _ hz
theorem nextCanonical_execSpringGrant (t : Nat) (s : State) (h : s.fab.Canonical) : NextCanonical (execSpringGrant t s) := by
  refine nextCanonical_whenever h _ _ fun z hz => ?_
  refine canonical_foldl (fun _ _ hy => canonical_grant _ _ hy) _ ?_
  exact canonical_foldl (fun _ _ hy => canonical_sendRequest _ _ _ _ _ _ _ hy) _ hz

/-! ### Fabric -/

theorem nextCanonical_execQueueCreate (src : Source) (q k prod cons thr : Nat) (s : State) (h : s.fab.Canonical) :
    NextCanonical (execQueueCreate src q k prod cons thr s) := by
  refine nextCanonical_runCommand h _ _ fun z hz => canonical_checked _ _ hz ?_
  split
  · exact hz
  · next e => exact canonical_createQueue _ _ _ _ _ _ _ _ hz e
theorem nextCanonical_execQueueDestroy (src : Source) (q : Nat) (s : State) (h : s.fab.Canonical) :
    NextCanonical (execQueueDestroy src q s) := nextCanonical_runCommand h _ _ fun _ hz => canonical_checked _ _ hz hz
theorem nextCanonical_execQueueThresholdSet (src : Source) (q thr : Nat) (s : State) (h : s.fab.Canonical) :
    NextCanonical (execQueueThresholdSet src q thr s) := nextCanonical_runCommand h _ _ fun _ hz => canonical_checked _ _ hz hz
theorem nextCanonical_execQueueStatus (src : Source) (q : Nat) (s : State) (h : s.fab.Canonical) :
    NextCanonical (execQueueStatus src q s) := nextCanonical_runCommand h _ _ fun _ hz => canonical_checked _ _ hz hz
theorem nextCanonical_execDmaChannelSet (src : Source) (ch : Nat) (owner : ChanOwner) (prio : Nat) (win : Option Nat) (s : State) (h : s.fab.Canonical) :
    NextCanonical (execDmaChannelSet src ch owner prio win s) :=
  nextCanonical_runCommand h _ _ fun _ hz => canonical_checked _ _ hz hz
theorem nextCanonical_execDmaStart (src : Source) (ch addr : Nat) (s : State) (h : s.fab.Canonical) :
    NextCanonical (execDmaStart src ch addr s) := nextCanonical_runCommand h _ _ fun _ hz => canonical_checked _ _ hz hz
theorem nextCanonical_execDmaDoorbell (src : Source) (ch : Nat) (s : State) (h : s.fab.Canonical) :
    NextCanonical (execDmaDoorbell src ch s) :=
  nextCanonical_runCommand h _ _ fun _ hz => canonical_checked _ _ hz (canonical_ringChannel _ _ hz)
theorem nextCanonical_execDmaAbort (src : Source) (ch : Nat) (s : State) (h : s.fab.Canonical) :
    NextCanonical (execDmaAbort src ch s) :=
  nextCanonical_runCommand h _ _ fun _ hz => canonical_checked _ _ hz (canonical_abortChannel _ _ hz)
theorem nextCanonical_execDmaStatus (src : Source) (ch : Nat) (s : State) (h : s.fab.Canonical) :
    NextCanonical (execDmaStatus src ch s) := nextCanonical_runCommand h _ _ fun _ hz => canonical_checked _ _ hz hz
theorem nextCanonical_execDmaCountersRead (src : Source) (ch : Nat) (clear : Bool) (s : State) (h : s.fab.Canonical) :
    NextCanonical (execDmaCountersRead src ch clear s) := by
  refine nextCanonical_runCommand h _ _ fun z hz => canonical_checked _ _ hz ?_
  show (ite _ _ _ : State).fab.Canonical
  split <;> exact hz
theorem nextCanonical_execDescriptorFetch (t ch : Nat) (hostBytes : List Byte) (s : State) (h : s.fab.Canonical) :
    NextCanonical (execDescriptorFetch t ch hostBytes s) := by
  refine nextCanonical_wheneverOn h _ _ _ fun z hz => ?_
  dsimp only
  split
  · split
    · exact canonical_reread _ _ (canonical_endCheck _ _ _ _ hz)
    · exact canonical_endCheck _ _ _ _ hz
  · split
    · exact canonical_endDescriptor _ _ _ _ hz
    · split
      · exact canonical_endDescriptor _ _ _ _ hz
      · exact hz
theorem nextCanonical_execDmaBurstGrant (t ch : Nat) (data : BurstData) (busErr : Bool) (s : State) (h : s.fab.Canonical) :
    NextCanonical (execDmaBurstGrant t ch data busErr s) := by
  refine nextCanonical_wheneverOn h _ _ _ fun z hz => ?_
  dsimp only
  split
  · exact hz
  · split
    · exact canonical_endDescriptor _ _ _ _ hz
    · split
      · exact canonical_endDescriptor _ _ _ _ hz
      · exact canonical_runBurst _ _ _ _ _ _ (canonical_othersPut _ _ _ (canonical_othersTake _ _ _ hz))
theorem nextCanonical_execDescriptorComplete (t ch : Nat) (s : State) (h : s.fab.Canonical) :
    NextCanonical (execDescriptorComplete t ch s) := by
  refine nextCanonical_wheneverOn h _ _ _ fun z hz => ?_
  split
  · exact hz
  · extract_lets tail r w
    have hw : w.2.fab.Canonical := canonical_writeRecord _ _ _ _ hz
    split
    · exact canonical_afterRecord _ _ _ hw
    · exact hw
theorem nextCanonical_execCqRoom (t ch : Nat) (s : State) (h : s.fab.Canonical) : NextCanonical (execCqRoom t ch s) := by
  refine nextCanonical_wheneverOn h _ _ _ fun z hz => ?_
  dsimp only
  split
  · exact canonical_afterRecord _ _ _ (canonical_putRecord _ _ _ _ hz)
  · exact hz
theorem nextCanonical_execCqStall (t ch : Nat) (s : State) (h : s.fab.Canonical) : NextCanonical (execCqStall t ch s) :=
  nextCanonical_wheneverOn h _ _ _ fun _ hz => hz

/-! ### Mailbox -/

theorem nextCanonical_execModuleIdentify (src : Source) (s : State) (h : s.fab.Canonical) :
    NextCanonical (execModuleIdentify src s) := nextCanonical_runCommand h _ _ fun _ hz => hz
theorem nextCanonical_execModuleStatus (src : Source) (s : State) (h : s.fab.Canonical) :
    NextCanonical (execModuleStatus src s) := nextCanonical_runCommand h _ _ fun _ hz => hz
theorem nextCanonical_execMboxNop (src : Source) (data : List Byte) (s : State) (h : s.fab.Canonical) :
    NextCanonical (execMboxNop src data s) := nextCanonical_runCommand h _ _ fun _ hz => canonical_checked _ _ hz hz
theorem nextCanonical_execMboxStatus (src : Source) (s : State) (h : s.fab.Canonical) :
    NextCanonical (execMboxStatus src s) := nextCanonical_runCommand h _ _ fun _ hz => hz
theorem nextCanonical_execMboxCountersRead (src : Source) (clear : Bool) (s : State) (h : s.fab.Canonical) :
    NextCanonical (execMboxCountersRead src clear s) :=
  nextCanonical_runCommand h _ _ fun _ hz => by dsimp only; split <;> exact hz
theorem nextCanonical_execIntStatusWrite (t v : Nat) (s : State) (h : s.fab.Canonical) :
    NextCanonical (execIntStatusWrite t v s) := nextCanonical_whenever h _ _ fun _ hz => hz
theorem nextCanonical_execMailboxEnableWrite (t m : Nat) (on : Bool) (s : State) (h : s.fab.Canonical) :
    NextCanonical (execMailboxEnableWrite t m on s) := nextCanonical_wheneverOn h _ _ _ fun _ hz => hz
theorem nextCanonical_execMailboxResetWrite (t m : Nat) (s : State) (h : s.fab.Canonical) :
    NextCanonical (execMailboxResetWrite t m s) := nextCanonical_wheneverOn h _ _ _ fun _ hz => canonical_resetBox _ _ hz
theorem nextCanonical_execTimeLoRead (t : Nat) (s : State) (h : s.fab.Canonical) : NextCanonical (execTimeLoRead t s) :=
  nextCanonical_whenever h _ _ fun _ hz => hz
theorem nextCanonical_execQueueNoticePendingWrite (t word v : Nat) (s : State) (h : s.fab.Canonical) :
    NextCanonical (execQueueNoticePendingWrite t word v s) := nextCanonical_wheneverOn h _ _ _ fun _ hz => hz
theorem nextCanonical_execQueueDoorbellPi (t q v : Nat) (s : State) (h : s.fab.Canonical) :
    NextCanonical (execQueueDoorbellPi t q v s) := nextCanonical_wheneverOn h _ _ _ fun _ hz => canonical_bellPi _ _ _ hz
theorem nextCanonical_execQueueDoorbellCi (t q v : Nat) (s : State) (h : s.fab.Canonical) :
    NextCanonical (execQueueDoorbellCi t q v s) := nextCanonical_wheneverOn h _ _ _ fun _ hz => canonical_bellCi _ _ _ hz
theorem nextCanonical_execChannelDoorbellRing (t c : Nat) (s : State) (h : s.fab.Canonical) :
    NextCanonical (execChannelDoorbellRing t c s) :=
  nextCanonical_wheneverOn h _ _ _ fun z hz => canonical_bellChannel z _ (fun _ hy => canonical_ringChannel _ _ hy) hz
theorem nextCanonical_execChannelDoorbellAbort (t c : Nat) (s : State) (h : s.fab.Canonical) :
    NextCanonical (execChannelDoorbellAbort t c s) :=
  nextCanonical_wheneverOn h _ _ _ fun z hz => canonical_bellChannel z _ (fun _ hy => canonical_abortChannel _ _ hy) hz
theorem nextCanonical_execBar2Access (t : Nat) (write : Bool) (offset : Nat) (data : List Byte) (len : Nat) (s : State) (h : s.fab.Canonical) :
    NextCanonical (execBar2Access t write offset data len s) := by
  refine nextCanonical_whenever h _ _ fun z hz => ?_
  split
  · exact canonical_bar2Write _ _ _ hz
  · rw [fab_bar2Read]
    exact hz
theorem nextCanonical_execRegisterWrite (t offset v size : Nat) (s : State) (h : s.fab.Canonical) :
    NextCanonical (execRegisterWrite t offset v size s) := by
  refine nextCanonical_whenever h _ _ fun z hz => ?_
  split
  · exact hz
  · rw [fab_writeRegister]
    exact hz
theorem nextCanonical_execPcieFunctionReset (t : Nat) (s : State) (h : s.fab.Canonical) :
    NextCanonical (execPcieFunctionReset t s) := by
  refine nextCanonical_whenever h _ _ fun z hz => ?_
  refine canonical_foldl (fun _ _ hy => canonical_destroyQueue _ _ hy) _ (canonical_abortChannels _ _ ?_)
  exact canonical_foldl (fun _ _ hy => canonical_resetBox _ _ hy) _ hz
theorem nextCanonical_execRespRoom (t m : Nat) (s : State) (h : s.fab.Canonical) : NextCanonical (execRespRoom t m s) :=
  nextCanonical_wheneverOn h _ _ _ fun _ hz => canonical_writeWaiting _ _ hz
theorem nextCanonical_execServiceMessage (t session : Nat) (bytes : List Byte) (s : State) (h : s.fab.Canonical) :
    NextCanonical (execServiceMessage t session bytes s) := nextCanonical_whenever h _ _ fun _ hz => hz
theorem nextCanonical_execMailboxClose (t berth : Nat) (s : State) (h : s.fab.Canonical) :
    NextCanonical (execMailboxClose t berth s) := nextCanonical_whenever h _ _ fun _ hz => hz
theorem nextCanonical_execRequestTimeout (t corr : Nat) (s : State) (h : s.fab.Canonical) :
    NextCanonical (execRequestTimeout t corr s) := nextCanonical_whenever h _ _ fun _ hz => by rw [fab_requestDone]; exact hz
theorem nextCanonical_execHeartbeat (t : Nat) (s : State) (h : s.fab.Canonical) : NextCanonical (execHeartbeat t s) :=
  nextCanonical_whenever h _ _ fun _ hz => hz

/-! ### Net -/

theorem nextCanonical_execNetStatus (src : Source) (s : State) (h : s.fab.Canonical) : NextCanonical (execNetStatus src s) :=
  nextCanonical_runCommand h _ _ fun _ hz => hz
theorem nextCanonical_execNetCountersRead (src : Source) (clear : Bool) (s : State) (h : s.fab.Canonical) :
    NextCanonical (execNetCountersRead src clear s) :=
  nextCanonical_runCommand h _ _ fun _ hz => by dsimp only; split <;> exact hz
theorem nextCanonical_execBerthStatus (src : Source) (s : State) (h : s.fab.Canonical) :
    NextCanonical (execBerthStatus src s) := nextCanonical_runCommand h _ _ fun _ hz => hz
theorem nextCanonical_execEstateMapLoad (src : Source) (entries : List BerthEntry) (s : State) (h : s.fab.Canonical) :
    NextCanonical (execEstateMapLoad src entries s) :=
  nextCanonical_runCommand h _ _ fun _ hz => canonical_Answer_persisted _ _ _ _ (canonical_checked _ _ hz hz)
theorem nextCanonical_execRoleTableRead (src : Source) (first count : Nat) (s : State) (h : s.fab.Canonical) :
    NextCanonical (execRoleTableRead src first count s) :=
  nextCanonical_runCommand h _ _ fun _ hz => canonical_checked _ _ hz hz
theorem nextCanonical_execRoleResolve (src : Source) (role : Nat) (s : State) (h : s.fab.Canonical) :
    NextCanonical (execRoleResolve src role s) := nextCanonical_runCommand h _ _ fun _ hz => canonical_checked _ _ hz hz
theorem nextCanonical_execForeignFrame (t : Nat) (lan : Lan) (oversize : Bool) (s : State) (h : s.fab.Canonical) :
    NextCanonical (execForeignFrame t lan oversize s) := nextCanonical_whenever (canonical_frameIn _ _ h) _ _ fun _ hz => hz
theorem nextCanonical_execLldpdu (t : Nat) (lan : Lan) (id : LldpId) (s : State) (h : s.fab.Canonical) :
    NextCanonical (execLldpdu t lan id s) := by
  refine nextCanonical_whenever (canonical_frameIn _ _ h) _ _ fun z hz => ?_
  dsimp only
  split
  · exact hz
  · split
    · rw [fab_event]
      exact hz
    · exact hz
theorem nextCanonical_execLldpSend (t : Nat) (lan : Lan) (s : State) (h : s.fab.Canonical) :
    NextCanonical (execLldpSend t lan s) := nextCanonical_whenever h _ _ fun _ hz => hz
theorem nextCanonical_execBerthDerivation (t : Nat) (s : State) (h : s.fab.Canonical) :
    NextCanonical (execBerthDerivation t s) := nextCanonical_whenever h _ _ fun _ hz => by rw [fab_derive]; exact hz
theorem nextCanonical_execBerthDuplicate (t : Nat) (s : State) (h : s.fab.Canonical) :
    NextCanonical (execBerthDuplicate t s) := by
  refine nextCanonical_whenever h _ _ fun z hz => ?_
  rw [fab_event]
  exact hz
theorem nextCanonical_execRetransmit (t peer seq : Nat) (s : State) (h : s.fab.Canonical) :
    NextCanonical (execRetransmit t peer seq s) := by
  unfold execRetransmit
  extract_lets due
  refine nextCanonical_whenever h _ _ fun z hz => ?_
  exact canonical_foldl (fun _ _ hy => by rw [fab_transmit]; exact hy) _ hz
theorem nextCanonical_execNoAck (t peer seq : Nat) (s : State) (h : s.fab.Canonical) :
    NextCanonical (execNoAck t peer seq s) := nextCanonical_whenever h _ _ fun _ hz => canonical_streamFails _ _ hz
theorem nextCanonical_execPathDown (t berth : Nat) (lan : Lan) (s : State) (h : s.fab.Canonical) :
    NextCanonical (execPathDown t berth lan s) := by
  refine nextCanonical_whenever h _ _ fun z hz => ?_
  rw [fab_event]
  exact hz
theorem nextCanonical_execPathUp (t berth : Nat) (lan : Lan) (s : State) (h : s.fab.Canonical) :
    NextCanonical (execPathUp t berth lan s) := by
  refine nextCanonical_whenever h _ _ fun z hz => ?_
  rw [fab_event]
  exact hz
theorem nextCanonical_execAnnounceSend (t : Nat) (s : State) (h : s.fab.Canonical) : NextCanonical (execAnnounceSend t s) :=
  nextCanonical_whenever h _ _ fun _ hz => by rw [fab_announce]; exact hz
theorem nextCanonical_execRoleAgeOut (t key : Nat) (s : State) (h : s.fab.Canonical) :
    NextCanonical (execRoleAgeOut t key s) := nextCanonical_whenever h _ _ fun _ hz => by rw [fab_containersSeen]; exact hz

/-! ### Pair -/

theorem nextCanonical_execPairRoleSet (src : Source) (a : Assignment) (s : State) (h : s.fab.Canonical) :
    NextCanonical (execPairRoleSet src a s) :=
  nextCanonical_runCommand h _ _ fun _ hz => canonical_Answer_persisted _ _ _ _ (canonical_checked _ _ hz hz)
theorem nextCanonical_execPairStatus (src : Source) (role : Nat) (s : State) (h : s.fab.Canonical) :
    NextCanonical (execPairStatus src role s) := nextCanonical_runCommand h _ _ fun _ hz => by dsimp only; split <;> exact hz
theorem nextCanonical_execPairSwapHelm (src : Source) (role : Nat) (s : State) (h : s.fab.Canonical) :
    NextCanonical (execPairSwapHelm src role s) := by
  refine nextCanonical_runCommand h _ _ fun z hz => canonical_checked _ _ hz ?_
  rw [state_later, fab_sendHelm]
  exact hz
theorem nextCanonical_execPairCompareSet (src : Source) (dutyTol outTol socTol : Nat) (s : State) (h : s.fab.Canonical) :
    NextCanonical (execPairCompareSet src dutyTol outTol socTol s) :=
  nextCanonical_runCommand h _ _ fun _ hz => canonical_checked _ _ hz hz
theorem nextCanonical_execPairCountersRead (src : Source) (role : Nat) (clear : Bool) (s : State) (h : s.fab.Canonical) :
    NextCanonical (execPairCountersRead src role clear s) := by
  refine nextCanonical_runCommand h _ _ fun z hz => ?_
  split
  · exact hz
  · show (ite _ _ _ : State).fab.Canonical
    split <;> exact hz
theorem nextCanonical_execRoleTake (t role : Nat) (s : State) (h : s.fab.Canonical) :
    NextCanonical (execRoleTake t role s) := nextCanonical_whenever h _ _ fun _ hz => by rw [fab_decideRole]; exact hz
theorem nextCanonical_execHelmInFall (t lane : Nat) (s : State) (h : s.fab.Canonical) :
    NextCanonical (execHelmInFall t lane s) := by
  refine nextCanonical_wheneverOn h _ _ _ fun z hz => ?_
  dsimp only
  split
  · exact hz
  · split
    · exact hz
    · split
      · exact hz
      · rw [fab_laneUnheld]
        exact hz
theorem nextCanonical_execHelmRaise (t lane : Nat) (s : State) (h : s.fab.Canonical) :
    NextCanonical (execHelmRaise t lane s) := by
  refine nextCanonical_wheneverOn h _ _ _ fun z hz => ?_
  split
  · rw [fab_raiseHelm]
    exact hz
  · rw [fab_takeHelm]
    exact hz
theorem nextCanonical_execHelmConflict (t lane : Nat) (s : State) (h : s.fab.Canonical) :
    NextCanonical (execHelmConflict t lane s) := by
  refine nextCanonical_wheneverOn h _ _ _ fun z hz => ?_
  show (z.conflictRole lane).fab.Canonical
  rw [fab_conflictRole]
  exact hz
theorem nextCanonical_execHelmRetry (t lane : Nat) (s : State) (h : s.fab.Canonical) :
    NextCanonical (execHelmRetry t lane s) := nextCanonical_wheneverOn h _ _ _ fun _ hz => by rw [fab_tryHelm]; exact hz
theorem nextCanonical_execTakeover (t role : Nat) (s : State) (h : s.fab.Canonical) :
    NextCanonical (execTakeover t role s) := by
  refine nextCanonical_whenever h _ _ fun z hz => ?_
  split
  · rw [fab_takeLane]
    exact hz
  · rw [fab_placeEntries, fab_followGraph, fab_takeOver]
    exact hz
theorem nextCanonical_execSpindleLate (t lane : Nat) (s : State) (h : s.fab.Canonical) :
    NextCanonical (execSpindleLate t lane s) := nextCanonical_wheneverOn h _ _ _ fun _ hz => canonical_laneFault _ _ hz
theorem nextCanonical_execModelEngineLate (t port : Nat) (s : State) (h : s.fab.Canonical) :
    NextCanonical (execModelEngineLate t port s) := by
  refine nextCanonical_wheneverOn h _ _ _ fun z hz => ?_
  split
  · exact hz
  · exact canonical_laneFault _ _ hz
theorem nextCanonical_execKeepCheck (t role p : Nat) (s : State) (h : s.fab.Canonical) :
    NextCanonical (execKeepCheck t role p s) := by
  refine nextCanonical_whenever h _ _ fun z hz => ?_
  split
  · exact canonical_checkCoordinator _ _ hz
  · exact canonical_checkTenant _ _ _ hz
theorem nextCanonical_execSelfTest (t role : Nat) (pass : Bool) (s : State) (h : s.fab.Canonical) :
    NextCanonical (execSelfTest t role pass s) := by
  refine nextCanonical_whenever h _ _ fun z hz => canonical_arbitrate _ _ ?_
  rw [fab_sendHelm]
  exact hz
theorem nextCanonical_execTestResultTimeout (t role : Nat) (s : State) (h : s.fab.Canonical) :
    NextCanonical (execTestResultTimeout t role s) := by
  refine nextCanonical_whenever h _ _ fun z hz => ?_
  refine canonical_arbitrate _ _ ?_
  rw [fab_setOwn]
  exact hz
theorem nextCanonical_execBackgroundTest (t role : Nat) (pass : Bool) (s : State) (h : s.fab.Canonical) :
    NextCanonical (execBackgroundTest t role pass s) := by
  refine nextCanonical_whenever h _ _ fun z hz => ?_
  dsimp only
  split
  · exact hz
  · refine canonical_degrade _ _ ?_
    exact canonical_foldl (fun _ _ hy => canonical_releaseRole _ _ _ _ _ hy) _ hz
theorem nextCanonical_execFullRequestSend (t role : Nat) (s : State) (h : s.fab.Canonical) :
    NextCanonical (execFullRequestSend t role s) :=
  nextCanonical_whenever h _ _ fun _ hz => by rw [fab_sendHelm, fab_setOwn]; exact hz
theorem nextCanonical_execMirrorStale (t role : Nat) (s : State) (h : s.fab.Canonical) :
    NextCanonical (execMirrorStale t role s) := nextCanonical_whenever h _ _ fun _ hz => hz
theorem nextCanonical_execInSync (t role : Nat) (s : State) (h : s.fab.Canonical) : NextCanonical (execInSync t role s) :=
  nextCanonical_whenever h _ _ fun _ hz => hz
theorem nextCanonical_execTwinLaneDown (t i : Nat) (s : State) (h : s.fab.Canonical) :
    NextCanonical (execTwinLaneDown t i s) := by
  refine nextCanonical_wheneverOn h _ _ _ fun z hz => ?_
  dsimp only
  split
  · refine canonical_foldl (fun _ _ hy => by simpa using hy) _ ?_
    rw [fab_event]
    exact hz
  · rw [fab_event]
    exact hz
theorem nextCanonical_execLoopItem (t lane : Nat) (item : LoopItem) (s : State) (h : s.fab.Canonical) :
    NextCanonical (execLoopItem t lane item s) := by
  refine nextCanonical_wheneverOn h _ _ _ fun z hz => ?_
  extract_lets z1
  have h1 : z1.fab.Canonical := canonical_foldl (fun _ _ hy => by simpa using hy) _ hz
  split
  · exact h1
  · simpa using h1

/-! ### Protect -/

theorem nextCanonical_execSafetyStatus (src : Source) (s : State) (h : s.fab.Canonical) :
    NextCanonical (execSafetyStatus src s) := nextCanonical_runCommand h _ _ fun _ hz => hz
theorem nextCanonical_execSafetyLinkStatus (src : Source) (sender link : Nat) (s : State) (h : s.fab.Canonical) :
    NextCanonical (execSafetyLinkStatus src sender link s) :=
  nextCanonical_runCommand h _ _ fun _ hz => canonical_checked _ _ hz (by split <;> exact hz)
theorem nextCanonical_execSafetyCountersRead (src : Source) (clear : Bool) (s : State) (h : s.fab.Canonical) :
    NextCanonical (execSafetyCountersRead src clear s) :=
  nextCanonical_runCommand h _ _ fun _ hz => by dsimp only; split <;> exact hz
theorem nextCanonical_execSafetyLimitsSet (src : Source) (lane ov uv plt : Nat) (s : State) (h : s.fab.Canonical) :
    NextCanonical (execSafetyLimitsSet src lane ov uv plt s) := by
  refine nextCanonical_runCommand h _ _ fun z hz => canonical_Answer_persisted _ _ _ _ (canonical_checked _ _ hz ?_)
  rw [state_ok, fab_limitsDo]
  exact hz
theorem nextCanonical_execSafetyOcSet (src : Source) (lane str ph filt : Nat) (s : State) (h : s.fab.Canonical) :
    NextCanonical (execSafetyOcSet src lane str ph filt s) := by
  refine nextCanonical_runCommand h _ _ fun z hz => canonical_Answer_persisted _ _ _ _ (canonical_checked _ _ hz ?_)
  rw [state_ok, fab_ocDo]
  exact hz
theorem nextCanonical_execSafetyIoSet (src : Source) (disc : Nat) (fireEn : Bool) (masks : List Nat) (s : State) (h : s.fab.Canonical) :
    NextCanonical (execSafetyIoSet src disc fireEn masks s) := by
  refine nextCanonical_runCommand h _ _ fun z hz => canonical_Answer_persisted _ _ _ _ (canonical_checked _ _ hz ?_)
  show (ite _ _ _ : State).fab.Canonical
  split
  · exact canonical_tripEvery _ _ _ (by simpa using hz)
  · simpa using hz
theorem nextCanonical_execSafetyChannelSet (src : Source) (hb : Nat) (s : State) (h : s.fab.Canonical) :
    NextCanonical (execSafetyChannelSet src hb s) :=
  nextCanonical_runCommand h _ _ fun _ hz => canonical_Answer_persisted _ _ _ _ (canonical_checked _ _ hz hz)
theorem nextCanonical_execSafetyLinkSet (src : Source) (l : LinkSet) (s : State) (h : s.fab.Canonical) :
    NextCanonical (execSafetyLinkSet src l s) := by
  refine nextCanonical_runCommand h _ _ fun z hz => canonical_Answer_persisted _ _ _ _ (canonical_checked _ _ hz ?_)
  rw [state_ok, fab_recheckArming, fab_linkDo]
  exact hz
theorem nextCanonical_execSafetyWindowSet (src : Source) (source n w : Nat) (s : State) (h : s.fab.Canonical) :
    NextCanonical (execSafetyWindowSet src source n w s) :=
  nextCanonical_runCommand h _ _ fun _ hz => canonical_Answer_persisted _ _ _ _ (canonical_checked _ _ hz hz)
theorem nextCanonical_execSafetyBareRock (src : Source) (s : State) (h : s.fab.Canonical) :
    NextCanonical (execSafetyBareRock src s) := nextCanonical_runCommand h _ _ fun _ hz => canonical_enterRock _ _ _ hz
theorem nextCanonical_execLockstepMismatch (t : Nat) (_sfb : Bool) (s : State) (h : s.fab.Canonical) :
    NextCanonical (execLockstepMismatch t _sfb s) := nextCanonical_whenever h _ _ fun _ hz => canonical_safetyFault _ hz
theorem nextCanonical_execCrossWatchdog (t : Nat) (_sfb : Bool) (s : State) (h : s.fab.Canonical) :
    NextCanonical (execCrossWatchdog t _sfb s) := nextCanonical_whenever h _ _ fun _ hz => canonical_safetyFault _ hz
theorem nextCanonical_execConfigCrcCheck (t : Nat) (ok : Bool) (s : State) (h : s.fab.Canonical) :
    NextCanonical (execConfigCrcCheck t ok s) := by
  refine nextCanonical_whenever h _ _ fun z hz => ?_
  dsimp only
  split
  · exact hz
  · exact canonical_safetyFault _ hz
theorem nextCanonical_execSafetyCoreReset (t : Nat) (s : State) (h : s.fab.Canonical) :
    NextCanonical (execSafetyCoreReset t s) := nextCanonical_whenever h _ _ fun _ hz => hz
theorem nextCanonical_execOvercurrentTrip (t lane comp : Nat) (value : Int) (s : State) (h : s.fab.Canonical) :
    NextCanonical (execOvercurrentTrip t lane comp value s) := by
  refine nextCanonical_wheneverOn h _ _ _ fun z hz => ?_
  dsimp only
  rw [fab_recheckArming]
  exact canonical_tripNew _ _ _ _ hz
theorem nextCanonical_execComparatorRelease (t lane comp : Nat) (s : State) (h : s.fab.Canonical) :
    NextCanonical (execComparatorRelease t lane comp s) := nextCanonical_wheneverOn h _ _ _ fun _ hz => hz
theorem nextCanonical_execThresholdReadback (t lane comp code : Nat) (s : State) (h : s.fab.Canonical) :
    NextCanonical (execThresholdReadback t lane comp code s) := by
  refine nextCanonical_wheneverOn h _ _ _ fun z hz => ?_
  dsimp only
  rw [fab_recheckArming]
  exact canonical_tripNew _ _ _ _ hz
theorem nextCanonical_execPortDerate (t lane : Nat) (s : State) (h : s.fab.Canonical) :
    NextCanonical (execPortDerate t lane s) := nextCanonical_wheneverOn h _ _ _ fun _ hz => hz
theorem nextCanonical_execPortLost (t lane : Nat) (s : State) (h : s.fab.Canonical) :
    NextCanonical (execPortLost t lane s) := nextCanonical_wheneverOn h _ _ _ fun _ hz => canonical_tripLane _ _ _ _ hz
theorem nextCanonical_execEstop (t : Nat) (channelB : Bool) (s : State) (h : s.fab.Canonical) :
    NextCanonical (execEstop t channelB s) := by
  refine nextCanonical_whenever h _ _ fun z hz => canonical_tripEvery _ _ _ ?_
  split <;> exact hz
theorem nextCanonical_execEstopDiscrepancy (t : Nat) (s : State) (h : s.fab.Canonical) :
    NextCanonical (execEstopDiscrepancy t s) := by
  refine nextCanonical_whenever h _ _ fun z hz => ?_
  rw [fab_recheckArming, fab_event]
  exact hz
theorem nextCanonical_execEstopRecovered (t : Nat) (s : State) (h : s.fab.Canonical) :
    NextCanonical (execEstopRecovered t s) := nextCanonical_whenever h _ _ fun _ hz => hz
theorem nextCanonical_execFire (t : Nat) (s : State) (h : s.fab.Canonical) : NextCanonical (execFire t s) := by
  refine nextCanonical_whenever h _ _ fun z hz => ?_
  dsimp only
  split
  · exact canonical_tripEvery _ _ _ hz
  · exact hz
theorem nextCanonical_execSafetyInputHealthy (t : Nat) (input : SafeInput) (s : State) (h : s.fab.Canonical) :
    NextCanonical (execSafetyInputHealthy t input s) := by
  refine nextCanonical_whenever h _ _ fun z hz => ?_
  split <;> exact hz
theorem nextCanonical_execSafeOutFault (t out : Nat) (s : State) (h : s.fab.Canonical) :
    NextCanonical (execSafeOutFault t out s) := by
  refine nextCanonical_wheneverOn h _ _ _ fun z hz => canonical_tripEvery _ _ _ ?_
  rw [fab_raise]
  exact hz
theorem nextCanonical_execClearEdge (t lowNs highNs : Nat) (s : State) (h : s.fab.Canonical) :
    NextCanonical (execClearEdge t lowNs highNs s) := by
  refine nextCanonical_whenever h _ _ fun z hz => ?_
  dsimp only
  split
  · exact canonical_cleanEdge _ hz
  · exact hz
theorem nextCanonical_execClearStuck (t rose : Nat) (s : State) (h : s.fab.Canonical) :
    NextCanonical (execClearStuck t rose s) := nextCanonical_whenever h _ _ fun _ hz => by rw [fab_event]; exact hz
theorem nextCanonical_execSafeHeartbeat (t : Nat) (due : SafeDue) (s : State) (h : s.fab.Canonical) :
    NextCanonical (execSafeHeartbeat t due s) := by
  refine nextCanonical_whenever h _ _ fun z hz => ?_
  split
  · exact hz
  · rw [fab_sendSafe]
    exact hz
theorem nextCanonical_execSafeFrame (t : Nat) (lan : Lan) (bytes : List (BitVec 8)) (s : State) (h : s.fab.Canonical) :
    NextCanonical (execSafeFrame t lan bytes s) := by
  refine nextCanonical_whenever (canonical_frameIn _ _ h) _ _ fun z0 hz0 => ?_
  extract_lets z berth link known
  have hz : z.fab.Canonical := by
    show (State.lanHeard _ _).fab.Canonical
    rw [fab_lanHeard]
    exact hz0
  clear_value known
  split
  · split <;> exact hz
  · split
    · exact hz
    · split
      · exact hz
      · split
        · exact hz
        · exact canonical_decideCopy _ _ _ _ hz
theorem nextCanonical_execSkewExpiry (t berth link : Nat) (s : State) (h : s.fab.Canonical) :
    NextCanonical (execSkewExpiry t berth link s) := by
  refine nextCanonical_whenever h _ _ fun z hz => ?_
  split
  · exact hz
  · refine canonical_foldl (fun y x hy => ?_) _ hz
    split
    · exact canonical_takeHeld _ _ _ _ hy
    · rw [fab_singleCopy]
      exact hy
theorem nextCanonical_execSafeLinkWatchdog (t berth link : Nat) (s : State) (h : s.fab.Canonical) :
    NextCanonical (execSafeLinkWatchdog t berth link s) :=
  nextCanonical_whenever h _ _ fun _ hz => canonical_linkToSafe _ _ _ hz
theorem nextCanonical_execLanDown (t : Nat) (lan : Lan) (linkLoss : Bool) (s : State) (h : s.fab.Canonical) :
    NextCanonical (execLanDown t lan linkLoss s) := by
  refine nextCanonical_whenever h _ _ fun z hz => ?_
  refine canonical_releaseHeld _ _ ?_
  rw [fab_event]
  split <;> exact hz
theorem nextCanonical_execLanUp (t : Nat) (lan : Lan) (s : State) (h : s.fab.Canonical) :
    NextCanonical (execLanUp t lan s) := nextCanonical_whenever h _ _ fun _ hz => by rw [fab_event]; exact hz
theorem nextCanonical_execEccCorrected (t : Nat) (sram : Bool) (object : Nat) (s : State) (h : s.fab.Canonical) :
    NextCanonical (execEccCorrected t sram object s) := by
  refine nextCanonical_wheneverOn h _ _ _ fun z hz => ?_
  extract_lets o safety z0 r
  have hr : r.2.fab.Canonical := by
    show (State.faultEvent _ _ _).2.fab.Canonical
    rw [fab_faultEvent]
    exact hz
  split
  · exact hr
  · split
    · exact hr
    · split
      · split
        · exact hr
        · exact canonical_computeFault _ _ hr
      · exact canonical_pageFault _ _ hr
theorem nextCanonical_execUncorrectableError (t : Nat) (u : EccUnit) (s : State) (h : s.fab.Canonical) :
    NextCanonical (execUncorrectableError t u s) := nextCanonical_whenever h _ _ fun _ hz => canonical_uncorrectable _ _ hz
theorem nextCanonical_execSupervisorWatchdog (t core : Nat) (s : State) (h : s.fab.Canonical) :
    NextCanonical (execSupervisorWatchdog t core s) := nextCanonical_wheneverOn h _ _ _ fun _ hz => canonical_enterRock _ _ _ hz
theorem nextCanonical_execBareRockStrobe (t : Nat) (s : State) (h : s.fab.Canonical) :
    NextCanonical (execBareRockStrobe t s) :=
  nextCanonical_whenever h _ _ fun _ hz => canonical_foldl (fun _ _ hy => by rw [fab_sendSync]; exact hy) _ hz
theorem nextCanonical_execBareRockExit (t : Nat) (s : State) (h : s.fab.Canonical) : NextCanonical (execBareRockExit t s) :=
  nextCanonical_whenever h _ _ fun _ hz => by rw [fab_power]; exact hz

/-! ### Store -/

theorem nextCanonical_execPageProgramDone (t : Nat) (ok0 ok1 : Bool) (s : State) (h : s.fab.Canonical) :
    NextCanonical (execPageProgramDone t ok0 ok1 s) := by
  refine nextCanonical_whenever h _ _ fun z hz => ?_
  split
  · exact hz
  · extract_lets bad again up sector z1 z2 o2
    have h1 : z1.fab.Canonical := by
      refine canonical_foldl (fun _ _ hy => by simpa using hy) _ ?_
      split <;> exact hz
    have h2 : z2.fab.Canonical := canonical_foldl (fun _ _ hy => by simpa using hy) _ h1
    split
    · simpa using hz
    · split
      · exact h2
      · split
        · simpa using h2
        · simpa using h2
theorem nextCanonical_execEraseDone (t : Nat) (ok0 ok1 : Bool) (s : State) (h : s.fab.Canonical) :
    NextCanonical (execEraseDone t ok0 ok1 s) := by
  refine nextCanonical_whenever h _ _ fun z hz => ?_
  split
  · exact hz
  · extract_lets sector z1 z2
    have h1 : z1.fab.Canonical := by
      refine canonical_foldl (fun y k hy => ?_) _ hz
      split <;> exact hy
    have h2 : z2.fab.Canonical := canonical_foldl (fun _ _ hy => by simpa using hy) _ h1
    rw [fab_storeServe]
    exact h2
theorem nextCanonical_execCommitDone (t : Nat) (ok : Bool) (s : State) (h : s.fab.Canonical) :
    NextCanonical (execCommitDone t ok s) := by
  refine nextCanonical_whenever h _ _ fun z hz => ?_
  split
  · split
    · rw [fab_commitMade]
      exact hz
    · simpa using hz
  · exact hz
theorem nextCanonical_execHoldupRetry (t vhu : Nat) (s : State) (h : s.fab.Canonical) :
    NextCanonical (execHoldupRetry t vhu s) :=
  nextCanonical_whenever h _ _ fun _ hz => by rw [fab_storeServe, fab_holdupCheck]; exact hz
theorem nextCanonical_execStoreDeferred (t : Nat) (s : State) (h : s.fab.Canonical) :
    NextCanonical (execStoreDeferred t s) := nextCanonical_whenever h _ _ fun _ hz => by rw [fab_raise]; exact hz
theorem nextCanonical_execHoldupMeasurement (t vhu : Nat) (s : State) (h : s.fab.Canonical) :
    NextCanonical (execHoldupMeasurement t vhu s) := nextCanonical_whenever h _ _ fun _ hz => hz
theorem nextCanonical_execHoldupMeasured (t vhu : Nat) (s : State) (h : s.fab.Canonical) :
    NextCanonical (execHoldupMeasured t vhu s) := by
  refine nextCanonical_whenever h _ _ fun z hz => ?_
  extract_lets v0 c store z1
  have h1 : z1.fab.Canonical := by
    show (State.event _ _ _ _).fab.Canonical
    rw [fab_event, fab_queueOp]
    exact hz
  split
  · rw [fab_raise]
    exact h1
  · rw [fab_clearAlarm]
    exact h1
theorem nextCanonical_execRecordBatch (t : Nat) (s : State) (h : s.fab.Canonical) : NextCanonical (execRecordBatch t s) :=
  nextCanonical_whenever h _ _ fun _ hz => by rw [fab_countLost, fab_writeBatch]; exact hz
theorem nextCanonical_execScrub (t : Nat) (problems : List (Nat × Nat)) (s : State) (h : s.fab.Canonical) :
    NextCanonical (execScrub t problems s) := by
  refine nextCanonical_whenever h _ _ fun z hz => ?_
  extract_lets l z1 z2
  have h1 : z1.fab.Canonical := canonical_foldl (fun _ _ hy => by simpa using hy) _ hz
  have h2 : z2.fab.Canonical := canonical_foldl (fun y k hy => by simpa using hy) _ h1
  rw [fab_wearEffects]
  exact h2
theorem nextCanonical_execStoreStatus (src : Source) (s : State) (h : s.fab.Canonical) :
    NextCanonical (execStoreStatus src s) := nextCanonical_runCommand h _ _ fun _ hz => hz
theorem nextCanonical_execStoreScrub (src : Source) (s : State) (h : s.fab.Canonical) :
    NextCanonical (execStoreScrub src s) := nextCanonical_runCommand h _ _ fun _ hz => canonical_checked _ _ hz hz
theorem nextCanonical_execStoreHoldupMeasure (src : Source) (s : State) (h : s.fab.Canonical) :
    NextCanonical (execStoreHoldupMeasure src s) := nextCanonical_runCommand h _ _ fun _ hz => canonical_checked _ _ hz hz
theorem nextCanonical_execStoreWearRead (src : Source) (dev : Nat) (s : State) (h : s.fab.Canonical) :
    NextCanonical (execStoreWearRead src dev s) := nextCanonical_runCommand h _ _ fun _ hz => canonical_checked _ _ hz hz
theorem nextCanonical_execEventStatus (src : Source) (s : State) (h : s.fab.Canonical) :
    NextCanonical (execEventStatus src s) := nextCanonical_runCommand h _ _ fun _ hz => hz
theorem nextCanonical_execEventRead (src : Source) (first count : Nat) (s : State) (h : s.fab.Canonical) :
    NextCanonical (execEventRead src first count s) := nextCanonical_runCommand h _ _ fun _ hz => canonical_checked _ _ hz hz

/-! ### Security -/

theorem nextCanonical_execLifecycleStatus (src : Source) (s : State) (h : s.fab.Canonical) :
    NextCanonical (execLifecycleStatus src s) := nextCanonical_runCommand h _ _ fun _ hz => hz
theorem nextCanonical_execLifecycleTurn (src : Source) (r : TurnReq) (s : State) (h : s.fab.Canonical) :
    NextCanonical (execLifecycleTurn src r s) := by
  refine nextCanonical_runCommand h _ _ fun z hz => canonical_checked _ _ hz ?_
  rw [state_ok, fab_event]
  show (ite _ _ _ : State).fab.Canonical
  split
  · exact hz
  · simpa using hz
theorem nextCanonical_execLifecycleSeal (src : Source) (s : State) (h : s.fab.Canonical) :
    NextCanonical (execLifecycleSeal src s) :=
  nextCanonical_runCommand h _ _ fun _ hz => canonical_checked _ _ hz (by rw [state_ok, fab_event]; exact hz)
theorem nextCanonical_execLifecycleDecommission (src : Source) (serial : Nat) (s : State) (h : s.fab.Canonical) :
    NextCanonical (execLifecycleDecommission src serial s) := by
  refine nextCanonical_runReset h _ _ _ fun z hz => ?_
  rw [fab_writeBatch, fab_event]
  exact hz
theorem nextCanonical_execDebugStatus (src : Source) (s : State) (h : s.fab.Canonical) :
    NextCanonical (execDebugStatus src s) := nextCanonical_runCommand h _ _ fun _ hz => hz
theorem nextCanonical_execDebugLevelSet (src : Source) (level : Nat) (s : State) (h : s.fab.Canonical) :
    NextCanonical (execDebugLevelSet src level s) := by
  refine nextCanonical_runCommand h _ _ fun z hz => canonical_checked _ _ hz ?_
  rw [state_ok]
  split
  · exact hz
  · split
    · simpa using hz
    · simpa using hz
    · exact canonical_goInvasive _ _ hz
theorem nextCanonical_execDebugHalt (t core : Nat) (s : State) (h : s.fab.Canonical) :
    NextCanonical (execDebugHalt t core s) := nextCanonical_wheneverOn h _ _ _ fun _ hz => hz
theorem nextCanonical_execUpdateStatus (src : Source) (s : State) (h : s.fab.Canonical) :
    NextCanonical (execUpdateStatus src s) := nextCanonical_runCommand h _ _ fun _ hz => hz
theorem nextCanonical_execUpdateImageWrite (src : Source) (offset : Nat) (bytes : List Byte) (last gapOk : Bool) (s : State) (h : s.fab.Canonical) :
    NextCanonical (execUpdateImageWrite src offset bytes last gapOk s) := by
  refine nextCanonical_runCommand h _ _ fun z hz => canonical_checked _ _ hz ?_
  extract_lets z1 z2
  have h1 : z1.fab.Canonical := by
    show (ite _ _ _ : State).fab.Canonical
    split
    · rw [fab_clearAlarm]
      exact hz
    · exact hz
  have h2 : z2.fab.Canonical := by
    show (State.queueOp _ _ _).fab.Canonical
    rw [fab_queueOp]
    exact h1
  split
  · exact h2
  · split
    · exact h2
    · rw [state_ok, fab_event]
      exact h2
theorem nextCanonical_execUpdateReboot (src : Source) (trial : Bool) (s : State) (h : s.fab.Canonical) :
    NextCanonical (execUpdateReboot src trial s) := by
  refine nextCanonical_runReset h _ _ _ fun z hz => ?_
  split <;> exact hz
theorem nextCanonical_execRollbackAdvanced (t : Nat) (s : State) (h : s.fab.Canonical) :
    NextCanonical (execRollbackAdvanced t s) := nextCanonical_whenever h _ _ fun _ hz => by rw [fab_event]; exact hz
theorem nextCanonical_execServiceConnect (t : Nat) (hs : Handshake) (s : State) (h : s.fab.Canonical) :
    NextCanonical (execServiceConnect t hs s) := by
  refine nextCanonical_whenever h _ _ fun z hz => ?_
  dsimp only
  split
  · rw [fab_event]
    exact hz
  · split
    · rw [fab_event]
      show (State.event _ _ _ _).fab.Canonical
      rw [fab_event]
      exact hz
    · rw [fab_event]
      exact hz
theorem nextCanonical_execLockoutEnd (t : Nat) (s : State) (h : s.fab.Canonical) : NextCanonical (execLockoutEnd t s) :=
  nextCanonical_whenever h _ _ fun _ hz => hz
theorem nextCanonical_execSessionTimeout (t session : Nat) (s : State) (h : s.fab.Canonical) :
    NextCanonical (execSessionTimeout t session s) := nextCanonical_whenever h _ _ fun _ hz => by rw [fab_endSession]; exact hz
theorem nextCanonical_execSessionKeyExpiry (t : Nat) (s : State) (h : s.fab.Canonical) :
    NextCanonical (execSessionKeyExpiry t s) :=
  nextCanonical_whenever h _ _ fun _ hz => canonical_foldl (fun _ _ hy => by rw [fab_endSession]; exact hy) _ hz
theorem nextCanonical_execSessionClose (t session : Nat) (s : State) (h : s.fab.Canonical) :
    NextCanonical (execSessionClose t session s) := nextCanonical_whenever h _ _ fun _ hz => by rw [fab_endSession]; exact hz

/-! ### Tap -/

theorem nextCanonical_execTapStatus (src : Source) (port : Nat) (s : State) (h : s.fab.Canonical) :
    NextCanonical (execTapStatus src port s) := nextCanonical_runCommand h _ _ fun _ hz => canonical_checked _ _ hz hz
theorem nextCanonical_execTapTrimSet (src : Source) (port : Nat) (asym : Int) (s : State) (h : s.fab.Canonical) :
    NextCanonical (execTapTrimSet src port asym s) := nextCanonical_runCommand h _ _ fun _ hz => canonical_checked _ _ hz hz
theorem nextCanonical_execTapLimitsSet (src : Source) (target : PortOrLane) (ov uv : Nat) (ot : Int) (cells temps : Nat) (s : State) (h : s.fab.Canonical) :
    NextCanonical (execTapLimitsSet src target ov uv ot cells temps s) :=
  nextCanonical_runCommand h _ _ fun z hz => canonical_Answer_persistedPorts _ _ _ (canonical_limitsSetDo _ _ _ _ _ _ z hz)
theorem nextCanonical_execTapRetrain (src : Source) (port : Nat) (s : State) (h : s.fab.Canonical) :
    NextCanonical (execTapRetrain src port s) :=
  nextCanonical_runCommand h _ _ fun _ hz => canonical_checked _ _ hz (by rw [state_ok, fab_toTrain]; exact hz)
theorem nextCanonical_execTapCountersRead (src : Source) (port : Nat) (clear : Bool) (s : State) (h : s.fab.Canonical) :
    NextCanonical (execTapCountersRead src port clear s) :=
  nextCanonical_runCommand h _ _ fun _ hz => canonical_checked _ _ hz (by dsimp only; split <;> exact hz)
theorem nextCanonical_execTapData (t port : Nat) (rx : TapRx) (s : State) (h : s.fab.Canonical) :
    NextCanonical (execTapData t port rx s) := nextCanonical_wheneverOn h _ _ _ fun _ hz => canonical_tapDataDo _ _ _ hz
theorem nextCanonical_execTapFrameError (t port : Nat) (rx : TapRx) (s : State) (h : s.fab.Canonical) :
    NextCanonical (execTapFrameError t port rx s) :=
  nextCanonical_wheneverOn h _ _ _ fun _ hz => by rw [fab_frameErrorDo]; exact hz
theorem nextCanonical_execTrainingAttempt (t port : Nat) (s : State) (h : s.fab.Canonical) :
    NextCanonical (execTrainingAttempt t port s) :=
  nextCanonical_wheneverOn h _ _ _ fun _ hz => by rw [fab_trainStart]; exact hz
theorem nextCanonical_execTrainingRetry (t port : Nat) (s : State) (h : s.fab.Canonical) :
    NextCanonical (execTrainingRetry t port s) := nextCanonical_wheneverOn h _ _ _ fun _ hz => by rw [fab_trainStart]; exact hz
theorem nextCanonical_execTrainingTimeout (t port : Nat) (s : State) (h : s.fab.Canonical) :
    NextCanonical (execTrainingTimeout t port s) := nextCanonical_wheneverOn h _ _ _ fun _ hz => by rw [fab_trainFail]; exact hz
theorem nextCanonical_execTapHello (t port : Nat) (rx : TapRx) (s : State) (h : s.fab.Canonical) :
    NextCanonical (execTapHello t port rx s) := by
  refine nextCanonical_wheneverOn h _ _ _ fun z hz => ?_
  rw [fab_linkFrame _ _ _ _ fun y => by simp]
  exact hz
theorem nextCanonical_execTapEchoReply (t port : Nat) (rx : TapRx) (s : State) (h : s.fab.Canonical) :
    NextCanonical (execTapEchoReply t port rx s) := by
  refine nextCanonical_wheneverOn h _ _ _ fun z hz => ?_
  rw [fab_linkFrame _ _ _ _ fun y => by simp]
  exact hz
theorem nextCanonical_execAlignLost (t port : Nat) (s : State) (h : s.fab.Canonical) :
    NextCanonical (execAlignLost t port s) := nextCanonical_wheneverOn h _ _ _ fun _ hz => by rw [fab_event]; exact hz
theorem nextCanonical_execAlignRegained (t port : Nat) (s : State) (h : s.fab.Canonical) :
    NextCanonical (execAlignRegained t port s) := nextCanonical_wheneverOn h _ _ _ fun _ hz => hz
theorem nextCanonical_execAlignLostRetrain (t port : Nat) (s : State) (h : s.fab.Canonical) :
    NextCanonical (execAlignLostRetrain t port s) := nextCanonical_wheneverOn h _ _ _ fun _ hz => by rw [fab_toTrain]; exact hz
theorem nextCanonical_execTapAck (t port : Nat) (rx : TapRx) (s : State) (h : s.fab.Canonical) :
    NextCanonical (execTapAck t port rx s) := by
  refine nextCanonical_wheneverOn h _ _ _ fun z hz => ?_
  rw [fab_linkFrame _ _ _ _ fun y => by split <;> simp]
  exact hz
theorem nextCanonical_execMissedFrame (t port : Nat) (s : State) (h : s.fab.Canonical) :
    NextCanonical (execMissedFrame t port s) := by
  refine nextCanonical_wheneverOn h _ _ _ fun z hz => ?_
  dsimp only
  split
  · exact hz
  · split
    · rw [fab_capture]
      exact hz
    · exact hz
theorem nextCanonical_execTapStall (t port : Nat) (s : State) (h : s.fab.Canonical) :
    NextCanonical (execTapStall t port s) := by
  refine nextCanonical_wheneverOn h _ _ _ fun z hz => ?_
  rw [fab_markStalled, fab_toTrain]
  show (z.event _ _ _).fab.Canonical
  rw [fab_event]
  exact hz
theorem nextCanonical_execCommandWindow (t port : Nat) (s : State) (h : s.fab.Canonical) :
    NextCanonical (execCommandWindow t port s) := nextCanonical_wheneverOn h _ _ _ fun _ hz => by rw [fab_tapWindowDo]; exact hz

/-! ### Tenant -/

theorem nextCanonical_execTenantLoad (src : Source) (slot role offset : Nat) (bytes : List (BitVec 8)) (last : Bool) (s : State) (h : s.fab.Canonical) :
    NextCanonical (execTenantLoad src slot role offset bytes last s) := by
  refine nextCanonical_runCommand h _ _ fun z hz => canonical_checked _ _ hz ?_
  split
  · exact hz
  · dsimp only
    split
    · exact hz
    · split
      · exact hz
      · next e =>
        refine canonical_placeImage _ _ _ _ ?_ e
        exact hz
theorem nextCanonical_execTenantUnload (src : Source) (slot : Nat) (s : State) (h : s.fab.Canonical) :
    NextCanonical (execTenantUnload src slot s) := by
  refine nextCanonical_runCommand h _ _ fun z hz => canonical_checked _ _ hz ?_
  extract_lets z1 z2 z3 kept
  have h2 : z2.fab.Canonical := canonical_foldl (fun _ _ hy => canonical_destroyQueue _ _ hy) _ (canonical_slotTo _ _ _ hz)
  have h3 : z3.fab.Canonical := by
    dsimp only [z3]
    split
    · exact h2
    · rw [fab_freeEntryAt]
      exact h2
  rw [state_ok, fab_placeEntries]
  exact h3
theorem nextCanonical_execTenantStop (src : Source) (slot : Nat) (s : State) (h : s.fab.Canonical) :
    NextCanonical (execTenantStop src slot s) :=
  nextCanonical_runCommand h _ _ fun _ hz => canonical_checked _ _ hz (by rw [state_ok, fab_placeEntries]; exact canonical_slotTo _ _ _ hz)
theorem nextCanonical_execTenantStart (src : Source) (slot : Nat) (s : State) (h : s.fab.Canonical) :
    NextCanonical (execTenantStart src slot s) :=
  nextCanonical_runCommand h _ _ fun _ hz => canonical_checked _ _ hz (by rw [state_ok, fab_placeEntries]; exact hz)
theorem nextCanonical_execTenantStatus (src : Source) (slot : Nat) (s : State) (h : s.fab.Canonical) :
    NextCanonical (execTenantStatus src slot s) := nextCanonical_runCommand h _ _ fun _ hz => canonical_checked _ _ hz hz
theorem nextCanonical_execTenantCountersRead (src : Source) (slot : Nat) (clear : Bool) (s : State) (h : s.fab.Canonical) :
    NextCanonical (execTenantCountersRead src slot clear s) := by
  refine nextCanonical_runCommand h _ _ fun z hz => canonical_checked _ _ hz ?_
  show (ite _ _ _ : State).fab.Canonical
  split <;> exact hz
theorem nextCanonical_execGraphActivate (src : Source) (slot n : Nat) (s : State) (h : s.fab.Canonical) :
    NextCanonical (execGraphActivate src slot n s) := by
  refine nextCanonical_runCommand h _ _ fun z hz => ?_
  extract_lets x z1
  have h1 : z1.fab.Canonical := by
    dsimp only [z1]
    split
    · exact hz
    · rw [fab_freeEntryAt]
      exact hz
  refine canonical_checked _ _ hz ?_
  split
  · exact hz
  · rw [state_ok]
    show (State.writeEntry _ _ _).fab.Canonical
    rw [fab_writeEntry]
    exact h1
theorem nextCanonical_execGraphDiscard (src : Source) (slot : Nat) (s : State) (h : s.fab.Canonical) :
    NextCanonical (execGraphDiscard src slot s) := by
  refine nextCanonical_runCommand h _ _ fun z hz => canonical_checked _ _ hz ?_
  extract_lets z1
  have h1 : z1.fab.Canonical := by
    dsimp only [z1]
    split
    · exact hz
    · rw [fab_freeEntryAt]
      exact hz
  rw [state_ok, fab_placeEntries]
  exact canonical_trimQueues _ _ h1
theorem nextCanonical_execGraphVarRead (src : Source) (slot first count : Nat) (s : State) (h : s.fab.Canonical) :
    NextCanonical (execGraphVarRead src slot first count s) :=
  nextCanonical_runCommand h _ _ fun _ hz => canonical_checked _ _ hz hz
theorem nextCanonical_execGraphGroupSet (src : Source) (group offset : Nat) (s : State) (h : s.fab.Canonical) :
    NextCanonical (execGraphGroupSet src group offset s) := by
  refine nextCanonical_runCommand h _ _ fun z hz => canonical_checked _ _ hz ?_
  rw [state_ok, fab_placeEntries]
  exact hz
theorem nextCanonical_execGraphEnginesRead (src : Source) (s : State) (h : s.fab.Canonical) :
    NextCanonical (execGraphEnginesRead src s) := nextCanonical_runCommand h _ _ fun _ hz => hz
theorem nextCanonical_execSignalRead (src : Source) (estate : Bool) (handles : List Nat) (s : State) (h : s.fab.Canonical) :
    NextCanonical (execSignalRead src estate handles s) :=
  nextCanonical_runCommand h _ _ fun _ hz => canonical_checked _ _ hz hz
theorem nextCanonical_execSignalConfig (src : Source) (delay refresh : Nat) (s : State) (h : s.fab.Canonical) :
    NextCanonical (execSignalConfig src delay refresh s) :=
  nextCanonical_runCommand h _ _ fun _ hz => canonical_Answer_persisted _ _ _ _ (canonical_checked _ _ hz hz)
theorem nextCanonical_execGraphCycle (t entry : Nat) (s : State) (h : s.fab.Canonical) :
    NextCanonical (execGraphCycle t entry s) := by
  refine nextCanonical_firing_state h _ _ _ fun z a hz => ?_
  rw [State.Canonical]
  exact canonical_groupFires _ _ _ _ hz
theorem nextCanonical_execGraphCycleComplete (t slot : Nat) (r : CycleResult) (s : State) (h : s.fab.Canonical) :
    NextCanonical (execGraphCycleComplete t slot r s) := by
  refine nextCanonical_wheneverOn h _ _ _ fun z hz => ?_
  dsimp only
  split
  · rw [fab_cycleFail]
    exact hz
  · split
    · rw [fab_cycleFail]
      exact hz
    · exact hz
theorem nextCanonical_execCycleBudget (t slot : Nat) (s : State) (h : s.fab.Canonical) :
    NextCanonical (execCycleBudget t slot s) := nextCanonical_wheneverOn h _ _ _ fun _ hz => by rw [fab_cycleFail]; exact hz
theorem nextCanonical_execTenantFault (t slot : Nat) (s : State) (h : s.fab.Canonical) :
    NextCanonical (execTenantFault t slot s) := by
  refine nextCanonical_wheneverOn h _ _ _ fun z hz => ?_
  refine canonical_slotFault _ _ ?_
  rw [fab_event]
  exact hz
theorem nextCanonical_execEngineFault (t engine : Nat) (s : State) (h : s.fab.Canonical) :
    NextCanonical (execEngineFault t engine s) := nextCanonical_wheneverOn h _ _ _ fun _ hz => canonical_engineFault _ _ hz
theorem nextCanonical_execSignalRefresh (t slot : Nat) (s : State) (h : s.fab.Canonical) :
    NextCanonical (execSignalRefresh t slot s) := by
  refine nextCanonical_wheneverOn h _ _ _ fun z hz => ?_
  dsimp only
  rw [fab_sendSignals]
  exact hz
theorem nextCanonical_execSignalStale (t handle : Nat) (s : State) (h : s.fab.Canonical) :
    NextCanonical (execSignalStale t handle s) := nextCanonical_wheneverOn h _ _ _ fun _ hz => hz

/-! ### NetRx -/

theorem nextCanonical_execGarzetFormatErr (t : Nat) (frame : LanFrame) (s : State) (h : s.fab.Canonical) :
    NextCanonical (execGarzetFormatErr t frame s) := nextCanonical_whenever (canonical_frameIn _ _ h) _ _ fun _ hz => hz
theorem nextCanonical_execGarzetMailbox (t : Nat) (lan : Lan) (h : GHead) (bytes : List Byte) (s : State) (w : s.fab.Canonical) :
    NextCanonical (execGarzetMailbox t lan h bytes s) := nextCanonical_overLan w _ _ _ _ _
theorem nextCanonical_execGarzetMailboxReply (t : Nat) (lan : Lan) (h : GHead) (bytes : List Byte) (s : State) (w : s.fab.Canonical) :
    NextCanonical (execGarzetMailboxReply t lan h bytes s) := nextCanonical_overLan w _ _ _ _ _
theorem nextCanonical_execGarzetAck (t : Nat) (lan : Lan) (h : GHead) (s : State) (w : s.fab.Canonical) :
    NextCanonical (execGarzetAck t lan h s) := nextCanonical_overLan w _ _ _ _ _
theorem nextCanonical_execGarzetRoleMoved (t : Nat) (lan : Lan) (h : GHead) (m : MovedMsg) (s : State) (w : s.fab.Canonical) :
    NextCanonical (execGarzetRoleMoved t lan h m s) := nextCanonical_overLan w _ _ _ _ _
theorem nextCanonical_execGarzetAnnounce (t : Nat) (lan : Lan) (h : GHead) (m : AnnounceMsg) (s : State) (w : s.fab.Canonical) :
    NextCanonical (execGarzetAnnounce t lan h m s) := nextCanonical_overLan w _ _ _ _ _
theorem nextCanonical_execGarzetSignal (t : Nat) (lan : Lan) (h : GHead) (m : SignalMsg) (s : State) (w : s.fab.Canonical) :
    NextCanonical (execGarzetSignal t lan h m s) := nextCanonical_overLan w _ _ _ _ _
theorem nextCanonical_execGarzetPropose (t : Nat) (lan : Lan) (h : GHead) (m : Proposal) (s : State) (w : s.fab.Canonical) :
    NextCanonical (execGarzetPropose t lan h m s) := nextCanonical_overLan w _ _ _ _ _
theorem nextCanonical_execGarzetProposeAck (t : Nat) (lan : Lan) (h : GHead) (id result : Nat) (s : State) (w : s.fab.Canonical) :
    NextCanonical (execGarzetProposeAck t lan h id result s) := nextCanonical_overLan w _ _ _ _ _
theorem nextCanonical_execGarzetCommit (t : Nat) (lan : Lan) (h : GHead) (id n : Nat) (s : State) (w : s.fab.Canonical) :
    NextCanonical (execGarzetCommit t lan h id n s) := nextCanonical_overLan w _ _ _ _ _
theorem nextCanonical_execGarzetAbandon (t : Nat) (lan : Lan) (h : GHead) (id reason : Nat) (s : State) (w : s.fab.Canonical) :
    NextCanonical (execGarzetAbandon t lan h id reason s) := nextCanonical_overLan w _ _ _ _ _
theorem nextCanonical_execGarzetReport (t : Nat) (lan : Lan) (h : GHead) (m : ReportMsg) (s : State) (w : s.fab.Canonical) :
    NextCanonical (execGarzetReport t lan h m s) := nextCanonical_overLan w _ _ _ _ _
theorem nextCanonical_execGarzetFallBack (t : Nat) (lan : Lan) (h : GHead) (id m : Nat) (s : State) (w : s.fab.Canonical) :
    NextCanonical (execGarzetFallBack t lan h id m s) := nextCanonical_overLan w _ _ _ _ _
theorem nextCanonical_execSoundReady (t : Nat) (lan : Lan) (h : GHead) (m : SoundMsg) (s : State) (w : s.fab.Canonical) :
    NextCanonical (execSoundReady t lan h m s) := nextCanonical_overLan w _ _ _ _ _
theorem nextCanonical_execSoundActive (t : Nat) (lan : Lan) (h : GHead) (m : SoundMsg) (s : State) (w : s.fab.Canonical) :
    NextCanonical (execSoundActive t lan h m s) := nextCanonical_overLan w _ _ _ _ _
theorem nextCanonical_execSoundEnd (t : Nat) (lan : Lan) (h : GHead) (m : SoundMsg) (s : State) (w : s.fab.Canonical) :
    NextCanonical (execSoundEnd t lan h m s) := nextCanonical_overLan w _ _ _ _ _
theorem nextCanonical_execHelmKeep (t : Nat) (link : Link) (h : GHead) (m : HelmMsg) (s : State) (w : s.fab.Canonical) :
    NextCanonical (execHelmKeep t link h m s) := nextCanonical_overLink w _ _ _ _ _
theorem nextCanonical_execHelmRelease (t : Nat) (link : Link) (h : GHead) (m : HelmMsg) (s : State) (w : s.fab.Canonical) :
    NextCanonical (execHelmRelease t link h m s) := nextCanonical_overLink w _ _ _ _ _
theorem nextCanonical_execHelmTakenReceived (t : Nat) (link : Link) (h : GHead) (m : HelmMsg) (s : State) (w : s.fab.Canonical) :
    NextCanonical (execHelmTakenReceived t link h m s) := nextCanonical_overLink w _ _ _ _ _
theorem nextCanonical_execHelmSwapRequest (t : Nat) (link : Link) (h : GHead) (m : HelmMsg) (s : State) (w : s.fab.Canonical) :
    NextCanonical (execHelmSwapRequest t link h m s) := nextCanonical_overLink w _ _ _ _ _
theorem nextCanonical_execHelmSwapReady (t : Nat) (link : Link) (h : GHead) (m : HelmMsg) (s : State) (w : s.fab.Canonical) :
    NextCanonical (execHelmSwapReady t link h m s) := nextCanonical_overLink w _ _ _ _ _
theorem nextCanonical_execHelmTestStart (t : Nat) (link : Link) (h : GHead) (m : HelmMsg) (s : State) (w : s.fab.Canonical) :
    NextCanonical (execHelmTestStart t link h m s) := nextCanonical_overLink w _ _ _ _ _
theorem nextCanonical_execHelmTestResult (t : Nat) (link : Link) (h : GHead) (m : HelmMsg) (s : State) (w : s.fab.Canonical) :
    NextCanonical (execHelmTestResult t link h m s) := nextCanonical_overLink w _ _ _ _ _
theorem nextCanonical_execHelmFullRequest (t : Nat) (link : Link) (h : GHead) (m : HelmMsg) (s : State) (w : s.fab.Canonical) :
    NextCanonical (execHelmFullRequest t link h m s) := nextCanonical_overLink w _ _ _ _ _
theorem nextCanonical_execGarzetMirror (t : Nat) (link : Link) (h : GHead) (m : MirrorFrag) (s : State) (w : s.fab.Canonical) :
    NextCanonical (execGarzetMirror t link h m s) := nextCanonical_overLink w _ _ _ _ _
theorem nextCanonical_execGapSkipped (t peer : Nat) (s : State) (h : s.fab.Canonical) :
    NextCanonical (execGapSkipped t peer s) := by
  refine nextCanonical_whenever h _ _ fun z hz => ?_
  dsimp only
  split
  · exact hz
  · split
    · exact hz
    · refine canonical_drain _ _ _ ?_
      rw [fab_event]
      exact hz

/-! ### Power -/

theorem nextCanonical_execModuleBeach (src : Source) (s : State) (h : s.fab.Canonical) :
    NextCanonical (execModuleBeach src s) := by
  refine nextCanonical_runCommand h _ _ fun z hz => canonical_checked _ _ hz ?_
  refine canonical_beachGo _ _ (canonical_abortChannels _ _ (canonical_canBeach _ ?_))
  rw [fab_event]
  exact hz
theorem nextCanonical_execModulePart (src : Source) (s : State) (h : s.fab.Canonical) :
    NextCanonical (execModulePart src s) := by
  refine nextCanonical_runCommand h _ _ fun z hz => canonical_checked _ _ hz (canonical_partGo _ _ _ ?_)
  rw [fab_event]
  exact hz
theorem nextCanonical_execModuleRestart (src : Source) (s : State) (h : s.fab.Canonical) :
    NextCanonical (execModuleRestart src s) := nextCanonical_runReset h _ _ _ fun _ hz => hz
theorem nextCanonical_execPowerStatus (src : Source) (s : State) (h : s.fab.Canonical) :
    NextCanonical (execPowerStatus src s) := nextCanonical_runCommand h _ _ fun _ hz => by dsimp only; split <;> exact hz
theorem nextCanonical_execRoleDropped (t role : Nat) (s : State) (h : s.fab.Canonical) :
    NextCanonical (execRoleDropped t role s) := by
  refine nextCanonical_whenever h _ _ fun z hz => ?_
  extract_lets z1
  have h1 : z1.fab.Canonical := by
    show (State.event _ _ _ _).fab.Canonical
    rw [fab_event]
    exact canonical_dropStandby _ _ (canonical_releaseRole _ _ _ _ _ hz)
  split
  · exact canonical_beachNext _ h1
  · exact canonical_partNext _ h1
theorem nextCanonical_execBeachedAt (t : Nat) (s : State) (h : s.fab.Canonical) : NextCanonical (execBeachedAt t s) := by
  refine nextCanonical_whenever h _ _ fun z hz => ?_
  split
  · dsimp only
    rw [fab_power]
    simpa using hz
  · exact canonical_toBeached _ hz
theorem nextCanonical_execRefloat (t : Nat) (byInput : Bool) (rose : Nat) (s : State) (h : s.fab.Canonical) :
    NextCanonical (execRefloat t byInput rose s) := by
  refine nextCanonical_whenever_state h _ _ fun z hz => ?_
  extract_lets z1 net power z2 z3 z4 z5 ps z6
  have h1 : z1.Canonical := by
    show State.Canonical (State.countFull _)
    rw [State.Canonical, fab_countFull, fab_event]
    exact hz
  have h2 : z2.Canonical := by
    show z1.fab.Canonical
    exact h1
  have h3 : z3.Canonical := by
    refine canonical_foldl_state (fun y k hy => ?_) _ h2
    show y.fab.Canonical
    exact hy
  have h4 : z4.Canonical := by
    show State.Canonical (State.tachsStill _)
    rw [State.Canonical, fab_tachsStill]
    refine canonical_foldl_state (fun y n hy => ?_) _ h3
    show y.fab.Canonical
    exact hy
  have h5 : z5.Canonical := by
    refine canonical_foldl_state (fun y k hy => ?_) _ h4
    split
    · rw [State.Canonical, fab_followSignal]
      exact hy
    · exact hy
  have h6 : z6.Canonical := by
    refine canonical_foldl_state (fun y p hy => canonical_foldl_state (fun x c hx => ?_) _ ?_) _ h5
    · show x.fab.Canonical
      exact hx
    · rw [State.Canonical, fab_toTrain]
      exact hy
  rw [State.Canonical, fab_placeEntries]
  exact h6
theorem nextCanonical_execRefloated (t : Nat) (s : State) (h : s.fab.Canonical) : NextCanonical (execRefloated t s) := by
  refine nextCanonical_whenever h _ _ fun z hz => ?_
  dsimp only
  split
  · rw [fab_requestCommit, fab_event]
    exact hz
  · rw [fab_event]
    exact hz
theorem nextCanonical_execPartingStep (t : Nat) (s : State) (h : s.fab.Canonical) : NextCanonical (execPartingStep t s) := by
  refine nextCanonical_whenever h _ _ fun z hz => ?_
  split
  · exact hz
  · split
    · dsimp only
      rw [fab_power]
      simpa using hz
    · split
      · dsimp only
        rw [fab_event, fab_power]
        exact canonical_toBeached _ hz
      · split
        · exact hz
        · next r _ =>
          have dropped := canonical_dropStandby _ r (canonical_releaseRole z r true false true hz)
          refine canonical_partNext _ ?_
          split
          · exact dropped
          · rw [fab_event]
            exact dropped
theorem nextCanonical_execPowerUp (t port : Nat) (s : State) (h : s.fab.Canonical) : NextCanonical (execPowerUp t port s) := by
  refine nextCanonical_wheneverOn h _ _ _ fun z hz => ?_
  dsimp only
  split <;> exact hz
theorem nextCanonical_execStageRailsUp (t : Nat) (sideB : Bool) (s : State) (h : s.fab.Canonical) :
    NextCanonical (execStageRailsUp t sideB s) := nextCanonical_whenever h _ _ fun _ hz => by rw [fab_reach]; exact hz
theorem nextCanonical_execMemoryZeroed (t : Nat) (s : State) (h : s.fab.Canonical) : NextCanonical (execMemoryZeroed t s) := by
  refine nextCanonical_whenever_state h _ _ fun z _ => ?_
  rw [State.Canonical, fab_publishQuality, fab_tachsStill]
  exact ⟨rfl, rfl⟩
theorem nextCanonical_execStageImageRunning (t : Nat) (slots : BootSlots) (devices : BootDevices) (s : State) (h : s.fab.Canonical) :
    NextCanonical (execStageImageRunning t slots devices s) := by
  refine nextCanonical_whenever h _ _ fun z hz => ?_
  extract_lets z1
  have h1 : z1.fab.Canonical := by
    show (State.bootImage _ _ _).fab.Canonical
    simpa using hz
  split
  · exact h1
  · exact canonical_imageRuns _ h1
theorem nextCanonical_execStageOnNetwork (t : Nat) (s : State) (h : s.fab.Canonical) :
    NextCanonical (execStageOnNetwork t s) := by
  refine nextCanonical_whenever h _ _ fun z hz => ?_
  dsimp only
  split <;> simpa using hz
theorem nextCanonical_execStageLanesArmable (t : Nat) (s : State) (h : s.fab.Canonical) :
    NextCanonical (execStageLanesArmable t s) := nextCanonical_whenever h _ _ fun _ hz => by rw [fab_reach]; exact hz
theorem nextCanonical_execStartSlow (t stage : Nat) (s : State) (h : s.fab.Canonical) :
    NextCanonical (execStartSlow t stage s) := nextCanonical_whenever h _ _ fun _ hz => by rw [fab_raise]; exact hz
theorem nextCanonical_execVhuCharged (t mv : Nat) (s : State) (h : s.fab.Canonical) :
    NextCanonical (execVhuCharged t mv s) :=
  nextCanonical_whenever h _ _ fun _ hz => by rw [fab_storeServe, fab_holdupCheck]; exact hz
theorem nextCanonical_execPortPowerLoss (t port : Nat) (s : State) (h : s.fab.Canonical) :
    NextCanonical (execPortPowerLoss t port s) := by
  refine nextCanonical_wheneverOn h _ _ _ fun z hz => ?_
  dsimp only
  split
  · rw [fab_raise]
    exact hz
  · exact hz
theorem nextCanonical_execPortPowerRestored (t port : Nat) (s : State) (h : s.fab.Canonical) :
    NextCanonical (execPortPowerRestored t port s) :=
  nextCanonical_wheneverOn h _ _ _ fun _ hz => by rw [fab_clearAlarm]; exact hz
theorem nextCanonical_execLinePowerLoss (t vhu : Nat) (s : State) (h : s.fab.Canonical) :
    NextCanonical (execLinePowerLoss t vhu s) := by
  refine nextCanonical_whenever h _ _ fun z hz => ?_
  extract_lets armed off store z1
  have switched (y : State) (hy : y.fab.Canonical) : (off y).fab.Canonical := hy
  have h1 : z1.powerStep2.fab.Canonical := by
    rw [fab_powerStep2]
    show (State.countFull _).fab.Canonical
    rw [fab_countFull]
    exact hz
  split
  · exact switched _ h1
  · refine switched _ ?_
    rw [fab_lastWrites]
    exact canonical_powerStep3 _ _ h1
theorem nextCanonical_execModuleUnpowered (t : Nat) (s : State) (h : s.fab.Canonical) :
    NextCanonical (execModuleUnpowered t s) := nextCanonical_whenever h _ _ fun z _ => canonical_unpowered z
theorem nextCanonical_execBrownoutRestart (t : Nat) (s : State) (h : s.fab.Canonical) :
    NextCanonical (execBrownoutRestart t s) := nextCanonical_whenever h _ _ fun _ hz => canonical_selfReset _ false true hz
theorem nextCanonical_execBoardSupplyFault (t : Nat) (s : State) (h : s.fab.Canonical) :
    NextCanonical (execBoardSupplyFault t s) := nextCanonical_whenever h _ _ fun _ hz => by rw [fab_raise]; exact hz
theorem nextCanonical_execBoardSupplyRetry (t ma : Nat) (ok : Bool) (s : State) (h : s.fab.Canonical) :
    NextCanonical (execBoardSupplyRetry t ma ok s) := by
  refine nextCanonical_whenever h _ _ fun z hz => ?_
  dsimp only
  split
  · split
    · rw [fab_clearAlarm]
      exact hz
    · exact hz
  · exact hz

/-! ### Thermal -/

theorem nextCanonical_execBalanceConfig (src : Source) (lane : Nat) (r : BalRequest) (s : State) (h : s.fab.Canonical) :
    NextCanonical (execBalanceConfig src lane r s) := nextCanonical_runCommand h _ _ fun _ hz => canonical_checked _ _ hz hz
theorem nextCanonical_execBalanceStatus (src : Source) (lane : Nat) (s : State) (h : s.fab.Canonical) :
    NextCanonical (execBalanceStatus src lane s) := nextCanonical_runCommand h _ _ fun _ hz => canonical_checked _ _ hz hz
theorem nextCanonical_execBalanceTest (src : Source) (cell : CellId) (s : State) (h : s.fab.Canonical) :
    NextCanonical (execBalanceTest src cell s) := nextCanonical_runCommand h _ _ fun _ hz => canonical_checked _ _ hz hz
theorem nextCanonical_execBalanceTestRead (src : Source) (port : Nat) (s : State) (h : s.fab.Canonical) :
    NextCanonical (execBalanceTestRead src port s) := nextCanonical_runCommand h _ _ fun _ hz => canonical_checked _ _ hz hz
theorem nextCanonical_execBalancePlan (t lane : Nat) (s : State) (h : s.fab.Canonical) :
    NextCanonical (execBalancePlan t lane s) := nextCanonical_wheneverOn h _ _ _ fun _ hz => by rw [fab_balancePlan]; exact hz
theorem nextCanonical_execBalanceRepeat (t port : Nat) (s : State) (h : s.fab.Canonical) :
    NextCanonical (execBalanceRepeat t port s) := nextCanonical_wheneverOn h _ _ _ fun _ hz => by rw [fab_sendBalance]; exact hz
theorem nextCanonical_execSwitchTestStart (t port cell : Nat) (s : State) (h : s.fab.Canonical) :
    NextCanonical (execSwitchTestStart t port cell s) :=
  nextCanonical_wheneverOn h _ _ _ fun _ hz => by rw [fab_startTest]; exact hz
theorem nextCanonical_execSwitchTestStep (t port : Nat) (s : State) (h : s.fab.Canonical) :
    NextCanonical (execSwitchTestStep t port s) := by
  refine nextCanonical_wheneverOn h _ _ _ fun z hz => ?_
  split
  · rw [fab_testStep]
    exact hz
  · exact hz
theorem nextCanonical_execBalTestOverdue (t port cell : Nat) (s : State) (h : s.fab.Canonical) :
    NextCanonical (execBalTestOverdue t port cell s) := nextCanonical_wheneverOn h _ _ _ fun _ hz => by rw [fab_raise]; exact hz
theorem nextCanonical_execThermalLimitsSet (src : Source) (lane : Nat) (r : ThermRequest) (s : State) (h : s.fab.Canonical) :
    NextCanonical (execThermalLimitsSet src lane r s) := nextCanonical_runCommand h _ _ fun _ hz => canonical_checked _ _ hz hz
theorem nextCanonical_execThermalStatus (src : Source) (lane : Nat) (s : State) (h : s.fab.Canonical) :
    NextCanonical (execThermalStatus src lane s) := nextCanonical_runCommand h _ _ fun _ hz => canonical_checked _ _ hz hz
theorem nextCanonical_execTemperatureSample (t lane : Nat) (s : State) (h : s.fab.Canonical) :
    NextCanonical (execTemperatureSample t lane s) :=
  nextCanonical_wheneverOn h _ _ _ fun _ hz => canonical_temperatureSample _ _ _ hz
theorem nextCanonical_execThermalPrecursor (t port sensor : Nat) (s : State) (h : s.fab.Canonical) :
    NextCanonical (execThermalPrecursor t port sensor s) := by
  refine nextCanonical_wheneverOn h _ _ _ fun z hz => ?_
  split
  · exact hz
  · split
    · exact hz
    · dsimp only
      rw [fab_recheckArming]
      refine canonical_tripLane _ _ _ _ ?_
      rw [fab_event]
      exact hz
theorem nextCanonical_execTempSensorLost (t port sensor : Nat) (s : State) (h : s.fab.Canonical) :
    NextCanonical (execTempSensorLost t port sensor s) := by
  refine nextCanonical_wheneverOn h _ _ _ fun z hz => ?_
  extract_lets z1
  have h1 : z1.fab.Canonical := by
    show (State.raise _ _ _ _ _ _).fab.Canonical
    rw [fab_raise]
    exact hz
  split <;> exact h1
theorem nextCanonical_execCoolingLoopSet (src : Source) (loop : Nat) (c : CoolConfig) (s : State) (h : s.fab.Canonical) :
    NextCanonical (execCoolingLoopSet src loop c s) := nextCanonical_runCommand h _ _ fun _ hz => canonical_checked _ _ hz hz
theorem nextCanonical_execCoolingOutputSet (src : Source) (out : Nat) (source : OutSource) (freq safeDuty : Nat) (s : State) (h : s.fab.Canonical) :
    NextCanonical (execCoolingOutputSet src out source freq safeDuty s) :=
  nextCanonical_runCommand h _ _ fun _ hz => canonical_checked _ _ hz (by rw [state_ok, fab_auxValue]; exact hz)
theorem nextCanonical_execCoolingDutySet (src : Source) (out duty : Nat) (s : State) (h : s.fab.Canonical) :
    NextCanonical (execCoolingDutySet src out duty s) := by
  refine nextCanonical_runCommand h _ _ fun z hz => canonical_checked _ _ hz ?_
  split
  · rw [state_ok, fab_auxValue]
    exact hz
  · exact hz
theorem nextCanonical_execCoolingStatus (src : Source) (loop : Nat) (s : State) (h : s.fab.Canonical) :
    NextCanonical (execCoolingStatus src loop s) := nextCanonical_runCommand h _ _ fun _ hz => canonical_checked _ _ hz hz
theorem nextCanonical_execCoolingLoopUpdate (t loop : Nat) (s : State) (h : s.fab.Canonical) :
    NextCanonical (execCoolingLoopUpdate t loop s) := by
  refine nextCanonical_wheneverOn h _ _ _ fun z hz => ?_
  split
  · exact hz
  · extract_lets k y l u d z1 z2
    have h2 : z2.fab.Canonical := by
      show (State.signalOf _ _ _ _ _).fab.Canonical
      rw [fab_signalOf, fab_signalOf, fab_signalOf]
      exact hz
    rw [fab_watchCooling]
    refine canonical_foldl (fun w i hw => ?_) _ h2
    split
    · rw [fab_auxValue]
      exact hw
    · exact hw
theorem nextCanonical_execCoolingLost (t loop : Nat) (s : State) (h : s.fab.Canonical) :
    NextCanonical (execCoolingLost t loop s) := nextCanonical_wheneverOn h _ _ _ fun _ hz => by rw [fab_raise]; exact hz
theorem nextCanonical_execCoolingRestored (t loop : Nat) (s : State) (h : s.fab.Canonical) :
    NextCanonical (execCoolingRestored t loop s) := by
  refine nextCanonical_wheneverOn h _ _ _ fun z hz => ?_
  dsimp only
  split
  · exact hz
  · rw [fab_clearAlarm]
    exact hz
theorem nextCanonical_execDieStatus (src : Source) (s : State) (h : s.fab.Canonical) : NextCanonical (execDieStatus src s) :=
  nextCanonical_runCommand h _ _ fun _ hz => hz
theorem nextCanonical_execDieReading (t raw : Nat) (reading : Int) (s : State) (h : s.fab.Canonical) :
    NextCanonical (execDieReading t raw reading s) := nextCanonical_whenever h _ _ fun _ hz => canonical_dieReading _ _ _ hz
theorem nextCanonical_execDieEnforce (t : Nat) (s : State) (h : s.fab.Canonical) : NextCanonical (execDieEnforce t s) :=
  nextCanonical_whenever h _ _ fun _ hz => canonical_dieEnforce _ hz
theorem nextCanonical_execDieSensorBroken (t : Nat) (s : State) (h : s.fab.Canonical) :
    NextCanonical (execDieSensorBroken t s) := nextCanonical_whenever h _ _ fun _ hz => canonical_dieBroken _ hz
theorem nextCanonical_execDieRelease (t : Nat) (s : State) (h : s.fab.Canonical) : NextCanonical (execDieRelease t s) := by
  refine nextCanonical_whenever_state h _ _ fun z hz => ?_
  rw [State.Canonical, fab_placeEntries]
  exact canonical_dieEnter _ _ hz

/-! ### Time -/

theorem nextCanonical_execTimeStatus (src : Source) (s : State) (h : s.fab.Canonical) :
    NextCanonical (execTimeStatus src s) := nextCanonical_runCommand h _ _ fun _ hz => hz
theorem nextCanonical_execTimeServoSet (src : Source) (p : ServoParams) (s : State) (h : s.fab.Canonical) :
    NextCanonical (execTimeServoSet src p s) := nextCanonical_runCommand h _ _ fun _ hz => canonical_servoSetDo _ _ hz
theorem nextCanonical_execTimeTriggerSet (src : Source) (output : Nat) (mode : TrigMode) (start period width : Nat) (s : State) (h : s.fab.Canonical) :
    NextCanonical (execTimeTriggerSet src output mode start period width s) :=
  nextCanonical_runCommand h _ _ fun _ hz => canonical_triggerSetDo _ _ _ _ _ _ hz
theorem nextCanonical_execTimeCaptureRead (src : Source) (input max : Nat) (s : State) (h : s.fab.Canonical) :
    NextCanonical (execTimeCaptureRead src input max s) :=
  nextCanonical_runCommand h _ _ fun _ hz => canonical_captureReadDo _ _ _ hz
theorem nextCanonical_execTideStatus (src : Source) (s : State) (h : s.fab.Canonical) :
    NextCanonical (execTideStatus src s) := nextCanonical_runCommand h _ _ fun _ hz => hz
theorem nextCanonical_execTideEntrySet (src : Source) (entry : Nat) (w : BitVec 256) (s : State) (h : s.fab.Canonical) :
    NextCanonical (execTideEntrySet src entry w s) := nextCanonical_runCommand h _ _ fun z hz => canonical_entrySetDo _ _ z hz
theorem nextCanonical_execTideEntryRead (src : Source) (entry : Nat) (s : State) (h : s.fab.Canonical) :
    NextCanonical (execTideEntryRead src entry s) := nextCanonical_runCommand h _ _ fun _ hz => canonical_checked _ _ hz hz
theorem nextCanonical_execLighthouseConfig (src : Source) (c : LhConfig) (s : State) (h : s.fab.Canonical) :
    NextCanonical (execLighthouseConfig src c s) :=
  nextCanonical_runCommand h _ _ fun _ hz => canonical_lighthouseConfigDo _ _ hz
theorem nextCanonical_execPtpAnnounce (t : Nat) (lan : Lan) (a : Announce) (s : State) (h : s.fab.Canonical) :
    NextCanonical (execPtpAnnounce t lan a s) :=
  nextCanonical_whenever (canonical_frameIn _ _ h) _ _ fun z hz => by simpa using hz
theorem nextCanonical_execPtpSync (t : Nat) (lan : Lan) (m : SyncMsg) (s : State) (h : s.fab.Canonical) :
    NextCanonical (execPtpSync t lan m s) := nextCanonical_whenever (canonical_frameIn _ _ h) _ _ fun z hz => by simpa using hz
theorem nextCanonical_execPtpDelayResp (t : Nat) (lan : Lan) (m : DelayResp) (s : State) (h : s.fab.Canonical) :
    NextCanonical (execPtpDelayResp t lan m s) :=
  nextCanonical_whenever (canonical_frameIn _ _ h) _ _ fun z hz => by simpa using hz
theorem nextCanonical_execPtpSyncSend (t : Nat) (lan : Lan) (insertOk : Bool) (s : State) (h : s.fab.Canonical) :
    NextCanonical (execPtpSyncSend t lan insertOk s) := by
  refine nextCanonical_whenever h _ _ fun z hz => ?_
  dsimp only
  split
  · rw [fab_emit]
    exact hz
  · rw [fab_insertionAbort]
    exact hz
theorem nextCanonical_execDelayReqSend (t : Nat) (lan : Lan) (s : State) (h : s.fab.Canonical) :
    NextCanonical (execDelayReqSend t lan s) := nextCanonical_whenever h _ _ fun _ hz => hz
theorem nextCanonical_execDelayReq (t : Nat) (lan : Lan) (seq peer : Nat) (s : State) (h : s.fab.Canonical) :
    NextCanonical (execDelayReq t lan seq peer s) :=
  nextCanonical_whenever (canonical_frameIn _ _ h) _ _ fun z hz => by simpa using hz
theorem nextCanonical_execPtpAnnounceSend (t : Nat) (lan : Lan) (s : State) (h : s.fab.Canonical) :
    NextCanonical (execPtpAnnounceSend t lan s) := nextCanonical_whenever h _ _ fun _ hz => hz
theorem nextCanonical_execServoLocked (t : Nat) (s : State) (h : s.fab.Canonical) : NextCanonical (execServoLocked t s) :=
  nextCanonical_whenever h _ _ fun _ hz => hz
theorem nextCanonical_execServoOutliers (t : Nat) (s : State) (h : s.fab.Canonical) :
    NextCanonical (execServoOutliers t s) := nextCanonical_whenever h _ _ fun _ hz => by rw [fab_toAcquire]; exact hz
theorem nextCanonical_execMasterLost (t : Nat) (s : State) (h : s.fab.Canonical) : NextCanonical (execMasterLost t s) := by
  refine nextCanonical_whenever h _ _ fun z hz => ?_
  rw [fab_followMaster, fab_loseMaster, fab_loseMaster]
  exact hz
theorem nextCanonical_execTimeDisagree (t : Nat) (s : State) (h : s.fab.Canonical) : NextCanonical (execTimeDisagree t s) :=
  nextCanonical_whenever h _ _ fun _ hz => by rw [fab_event]; exact hz
theorem nextCanonical_execLighthouseSample (t inst lane : Nat) (s : State) (h : s.fab.Canonical) :
    NextCanonical (execLighthouseSample t inst lane s) :=
  nextCanonical_wheneverOn h _ _ _ fun _ hz => canonical_gridSample _ _ hz
theorem nextCanonical_execPllLock (t : Nat) (s : State) (h : s.fab.Canonical) : NextCanonical (execPllLock t s) :=
  nextCanonical_whenever h _ _ fun _ hz => hz
theorem nextCanonical_execPllUnlock (t : Nat) (s : State) (h : s.fab.Canonical) : NextCanonical (execPllUnlock t s) :=
  nextCanonical_whenever h _ _ fun _ hz => hz
theorem nextCanonical_execTidePublish (t : Nat) (s : State) (h : s.fab.Canonical) : NextCanonical (execTidePublish t s) := by
  refine nextCanonical_whenever h _ _ fun z hz => ?_
  split
  · exact hz
  · rw [fab_withReplan fun y => by simp]
    exact hz
theorem nextCanonical_execTideMessage (t : Nat) (lan : Lan) (bytes : List (BitVec 8)) (s : State) (h : s.fab.Canonical) :
    NextCanonical (execTideMessage t lan bytes s) := by
  refine nextCanonical_whenever (canonical_frameIn _ _ h) _ _ fun z hz => ?_
  rw [fab_withReplan fun y => by simp]
  exact hz
theorem nextCanonical_execLighthouseDisagree (t : Nat) (s : State) (h : s.fab.Canonical) :
    NextCanonical (execLighthouseDisagree t s) :=
  nextCanonical_whenever h _ _ fun _ hz => by rw [fab_takeQuality, fab_event]; exact hz
theorem nextCanonical_execInstanceReturn (t : Nat) (s : State) (h : s.fab.Canonical) :
    NextCanonical (execInstanceReturn t s) := nextCanonical_whenever h _ _ fun _ hz => hz
theorem nextCanonical_execInstanceSilent (t i : Nat) (s : State) (h : s.fab.Canonical) :
    NextCanonical (execInstanceSilent t i s) := nextCanonical_wheneverOn h _ _ _ fun _ hz => by rw [fab_instSilent]; exact hz
theorem nextCanonical_execCorrectionEnd (t : Nat) (s : State) (h : s.fab.Canonical) :
    NextCanonical (execCorrectionEnd t s) := by
  refine nextCanonical_whenever h _ _ fun z hz => ?_
  rw [fab_withReplan]
  · exact hz
  · exact fun _ => rfl
theorem nextCanonical_execTideRecount (t : Nat) (s : State) (h : s.fab.Canonical) : NextCanonical (execTideRecount t s) :=
  nextCanonical_whenever h _ _ fun _ hz => by rw [fab_recountDo]; exact hz
theorem nextCanonical_execTideFiringArmed (t entry k pos : Nat) (s : State) (h : s.fab.Canonical) :
    NextCanonical (execTideFiringArmed t entry k pos s) :=
  nextCanonical_wheneverOn h _ _ _ fun _ hz => by rw [fab_armFiring]; exact hz
theorem nextCanonical_execTriggerOut (t entry : Nat) (s : State) (h : s.fab.Canonical) :
    NextCanonical (execTriggerOut t entry s) := by
  refine nextCanonical_firing h _ _ _ fun z a hz => ?_
  split <;> exact hz
theorem nextCanonical_execTriggerTimePulse (t out : Nat) (s : State) (h : s.fab.Canonical) :
    NextCanonical (execTriggerTimePulse t out s) := nextCanonical_wheneverOn h _ _ _ fun _ hz => hz
theorem nextCanonical_execPulseEnd (t out : Nat) (s : State) (h : s.fab.Canonical) : NextCanonical (execPulseEnd t out s) :=
  nextCanonical_wheneverOn h _ _ _ fun _ hz => hz
theorem nextCanonical_execTsinCapture (t input : Nat) (rising : Bool) (widthNs : Nat) (s : State) (h : s.fab.Canonical) :
    NextCanonical (execTsinCapture t input rising widthNs s) := nextCanonical_wheneverOn h _ _ _ fun _ hz => hz

/-! ### Strobe -/

theorem nextCanonical_execHelmHolderMark (t lane at_ : Nat) (s : State) (h : s.fab.Canonical) :
    NextCanonical (execHelmHolderMark t lane at_ s) :=
  nextCanonical_wheneverOn h _ _ _ fun _ hz => canonical_strobeLane _ _ _ _ hz
theorem nextCanonical_execSampleStrobe (t entry : Nat) (s : State) (h : s.fab.Canonical) :
    NextCanonical (execSampleStrobe t entry s) := by
  refine nextCanonical_firing h _ _ _ fun z a hz => ?_
  split
  · exact canonical_baseInstant _ _ hz
  · split
    · simpa using hz
    · exact canonical_captureInstant _ _ hz
theorem nextCanonical_execModelStep (t port : Nat) (s : State) (h : s.fab.Canonical) :
    NextCanonical (execModelStep t port s) := by
  refine nextCanonical_wheneverOn h _ _ _ fun z hz => ?_
  split
  · exact hz
  · extract_lets tag z0 z1 model z2 cells
    have h0 : z0.fab.Canonical := by
      show (ite _ _ _ : State).fab.Canonical
      split <;> exact hz
    have h2 : z2.fab.Canonical := by
      show (State.saveCapture _ _ _ _).fab.Canonical
      rw [fab_saveCapture]
      show (State.stepPort _ _ _).fab.Canonical
      rw [fab_stepPort]
      exact h0
    split
    · exact h2
    · simpa using h2

end Sys2Proof.Machine
end

