-- ==== Sys2Proof/Proofs/Memories.lean ====
section
/-! PROOF. The canonical form over every step (O50). -/

namespace Sys2Proof.Machine

open Sys2Proof
set_option Elab.async false

/-- The handler of each command and of each event but REQUEST_TAKE, whose request runs a command in turn. -/
theorem nextCanonical_exec_of_ne {s : State} (h : s.fab.Canonical) (i : Instr) (hi : ∀ t p b, i ≠ .requestTake t p b) :
    NextCanonical (exec i s) := by
  cases i with
  | moduleIdentify => rw [exec_moduleIdentify]; exact nextCanonical_execModuleIdentify _ _ h
  | moduleStatus => rw [exec_moduleStatus]; exact nextCanonical_execModuleStatus _ _ h
  | moduleBeach => rw [exec_moduleBeach]; exact nextCanonical_execModuleBeach _ _ h
  | modulePart => rw [exec_modulePart]; exact nextCanonical_execModulePart _ _ h
  | moduleRestart => rw [exec_moduleRestart]; exact nextCanonical_execModuleRestart _ _ h
  | mboxNop => rw [exec_mboxNop]; exact nextCanonical_execMboxNop _ _ _ h
  | mboxStatus => rw [exec_mboxStatus]; exact nextCanonical_execMboxStatus _ _ h
  | mboxCountersRead => rw [exec_mboxCountersRead]; exact nextCanonical_execMboxCountersRead _ _ _ h
  | timeStatus => rw [exec_timeStatus]; exact nextCanonical_execTimeStatus _ _ h
  | timeServoSet => rw [exec_timeServoSet]; exact nextCanonical_execTimeServoSet _ _ _ h
  | timeTriggerSet => rw [exec_timeTriggerSet]; exact nextCanonical_execTimeTriggerSet _ _ _ _ _ _ _ h
  | timeCaptureRead => rw [exec_timeCaptureRead]; exact nextCanonical_execTimeCaptureRead _ _ _ _ h
  | tideStatus => rw [exec_tideStatus]; exact nextCanonical_execTideStatus _ _ h
  | tideEntrySet => rw [exec_tideEntrySet]; exact nextCanonical_execTideEntrySet _ _ _ _ h
  | tideEntryRead => rw [exec_tideEntryRead]; exact nextCanonical_execTideEntryRead _ _ _ h
  | lighthouseConfig => rw [exec_lighthouseConfig]; exact nextCanonical_execLighthouseConfig _ _ _ h
  | tapStatus => rw [exec_tapStatus]; exact nextCanonical_execTapStatus _ _ _ h
  | tapTrimSet => rw [exec_tapTrimSet]; exact nextCanonical_execTapTrimSet _ _ _ _ h
  | tapLimitsSet => rw [exec_tapLimitsSet]; exact nextCanonical_execTapLimitsSet _ _ _ _ _ _ _ _ h
  | tapRetrain => rw [exec_tapRetrain]; exact nextCanonical_execTapRetrain _ _ _ h
  | tapCountersRead => rw [exec_tapCountersRead]; exact nextCanonical_execTapCountersRead _ _ _ _ h
  | analogInputSet => rw [exec_analogInputSet]; exact nextCanonical_execAnalogInputSet _ _ _ _ _ _ h
  | analogTableSet => rw [exec_analogTableSet]; exact nextCanonical_execAnalogTableSet _ _ _ _ _ _ h
  | analogTableStart => rw [exec_analogTableStart]; exact nextCanonical_execAnalogTableStart _ _ _ _ h
  | analogConvert => rw [exec_analogConvert]; exact nextCanonical_execAnalogConvert _ _ _ _ h
  | analogRead => rw [exec_analogRead]; exact nextCanonical_execAnalogRead _ _ _ h
  | analogCalPoint => rw [exec_analogCalPoint]; exact nextCanonical_execAnalogCalPoint _ _ _ _ _ h
  | analogCalCommit => rw [exec_analogCalCommit]; exact nextCanonical_execAnalogCalCommit _ _ _ _ _ h
  | analogCalRead => rw [exec_analogCalRead]; exact nextCanonical_execAnalogCalRead _ _ _ h
  | analogCountersRead => rw [exec_analogCountersRead]; exact nextCanonical_execAnalogCountersRead _ _ _ _ h
  | icvStatus => rw [exec_icvStatus]; exact nextCanonical_execIcvStatus _ _ _ h
  | icvReset => rw [exec_icvReset]; exact nextCanonical_execIcvReset _ _ _ h
  | dacConfig => rw [exec_dacConfig]; exact nextCanonical_execDacConfig _ _ _ _ _ _ h
  | dacSet => rw [exec_dacSet]; exact nextCanonical_execDacSet _ _ _ _ _ h
  | tachConfig => rw [exec_tachConfig]; exact nextCanonical_execTachConfig _ _ _ _ _ _ _ _ h
  | tachRead => rw [exec_tachRead]; exact nextCanonical_execTachRead _ _ _ h
  | laneConfig => rw [exec_laneConfig]; exact nextCanonical_execLaneConfig _ _ _ _ h
  | laneLoopSet => rw [exec_laneLoopSet]; exact nextCanonical_execLaneLoopSet _ _ _ _ h
  | laneArm => rw [exec_laneArm]; exact nextCanonical_execLaneArm _ _ _ h
  | laneDisarm => rw [exec_laneDisarm]; exact nextCanonical_execLaneDisarm _ _ _ h
  | laneSetpoint => rw [exec_laneSetpoint]; exact nextCanonical_execLaneSetpoint _ _ _ _ h
  | laneStatus => rw [exec_laneStatus]; exact nextCanonical_execLaneStatus _ _ _ h
  | laneFaultClear => rw [exec_laneFaultClear]; exact nextCanonical_execLaneFaultClear _ _ _ _ h
  | laneCountersRead => rw [exec_laneCountersRead]; exact nextCanonical_execLaneCountersRead _ _ _ _ h
  | modelParamLoad => rw [exec_modelParamLoad]; exact nextCanonical_execModelParamLoad _ _ _ _ h
  | modelParamRead => rw [exec_modelParamRead]; exact nextCanonical_execModelParamRead _ _ _ h
  | modelAssign => rw [exec_modelAssign]; exact nextCanonical_execModelAssign _ _ _ _ _ h
  | modelCellRead => rw [exec_modelCellRead]; exact nextCanonical_execModelCellRead _ _ _ _ _ h
  | modelStatus => rw [exec_modelStatus]; exact nextCanonical_execModelStatus _ _ _ h
  | modelLearnSet => rw [exec_modelLearnSet]; exact nextCanonical_execModelLearnSet _ _ _ _ h
  | modelLearnedRead => rw [exec_modelLearnedRead]; exact nextCanonical_execModelLearnedRead _ _ _ h
  | modelLearnedWrite => rw [exec_modelLearnedWrite]; exact nextCanonical_execModelLearnedWrite _ _ _ _ h
  | modelCommit => rw [exec_modelCommit]; exact nextCanonical_execModelCommit _ _ h
  | modelRoughCommand => rw [exec_modelRoughCommand]; exact nextCanonical_execModelRoughCommand _ _ _ _ h
  | modelPowerSet => rw [exec_modelPowerSet]; exact nextCanonical_execModelPowerSet _ _ _ h
  | modelCountersRead => rw [exec_modelCountersRead]; exact nextCanonical_execModelCountersRead _ _ _ _ h
  | soundSchedule => rw [exec_soundSchedule]; exact nextCanonical_execSoundSchedule _ _ _ h
  | soundCancel => rw [exec_soundCancel]; exact nextCanonical_execSoundCancel _ _ _ _ _ h
  | soundStatus => rw [exec_soundStatus]; exact nextCanonical_execSoundStatus _ _ _ h
  | soundResultRead => rw [exec_soundResultRead]; exact nextCanonical_execSoundResultRead _ _ _ _ _ _ h
  | springStart => rw [exec_springStart]; exact nextCanonical_execSpringStart _ _ _ _ _ _ _ h
  | springStop => rw [exec_springStop]; exact nextCanonical_execSpringStop _ _ _ h
  | springStatus => rw [exec_springStatus]; exact nextCanonical_execSpringStatus _ _ _ h
  | springRosterSet => rw [exec_springRosterSet]; exact nextCanonical_execSpringRosterSet _ _ _ _ h
  | springRosterRead => rw [exec_springRosterRead]; exact nextCanonical_execSpringRosterRead _ _ h
  | balanceConfig => rw [exec_balanceConfig]; exact nextCanonical_execBalanceConfig _ _ _ _ h
  | balanceStatus => rw [exec_balanceStatus]; exact nextCanonical_execBalanceStatus _ _ _ h
  | balanceTest => rw [exec_balanceTest]; exact nextCanonical_execBalanceTest _ _ _ h
  | balanceTestRead => rw [exec_balanceTestRead]; exact nextCanonical_execBalanceTestRead _ _ _ h
  | thermalLimitsSet => rw [exec_thermalLimitsSet]; exact nextCanonical_execThermalLimitsSet _ _ _ _ h
  | thermalStatus => rw [exec_thermalStatus]; exact nextCanonical_execThermalStatus _ _ _ h
  | coolingLoopSet => rw [exec_coolingLoopSet]; exact nextCanonical_execCoolingLoopSet _ _ _ _ h
  | coolingOutputSet => rw [exec_coolingOutputSet]; exact nextCanonical_execCoolingOutputSet _ _ _ _ _ _ h
  | coolingDutySet => rw [exec_coolingDutySet]; exact nextCanonical_execCoolingDutySet _ _ _ _ h
  | coolingStatus => rw [exec_coolingStatus]; exact nextCanonical_execCoolingStatus _ _ _ h
  | dieStatus => rw [exec_dieStatus]; exact nextCanonical_execDieStatus _ _ h
  | safetyStatus => rw [exec_safetyStatus]; exact nextCanonical_execSafetyStatus _ _ h
  | safetyLimitsSet => rw [exec_safetyLimitsSet]; exact nextCanonical_execSafetyLimitsSet _ _ _ _ _ _ h
  | safetyOcSet => rw [exec_safetyOcSet]; exact nextCanonical_execSafetyOcSet _ _ _ _ _ _ h
  | safetyIoSet => rw [exec_safetyIoSet]; exact nextCanonical_execSafetyIoSet _ _ _ _ _ h
  | safetyChannelSet => rw [exec_safetyChannelSet]; exact nextCanonical_execSafetyChannelSet _ _ _ h
  | safetyLinkSet => rw [exec_safetyLinkSet]; exact nextCanonical_execSafetyLinkSet _ _ _ h
  | safetyLinkStatus => rw [exec_safetyLinkStatus]; exact nextCanonical_execSafetyLinkStatus _ _ _ _ h
  | safetyWindowSet => rw [exec_safetyWindowSet]; exact nextCanonical_execSafetyWindowSet _ _ _ _ _ h
  | safetyBareRock => rw [exec_safetyBareRock]; exact nextCanonical_execSafetyBareRock _ _ h
  | safetyCountersRead => rw [exec_safetyCountersRead]; exact nextCanonical_execSafetyCountersRead _ _ _ h
  | netStatus => rw [exec_netStatus]; exact nextCanonical_execNetStatus _ _ h
  | netCountersRead => rw [exec_netCountersRead]; exact nextCanonical_execNetCountersRead _ _ _ h
  | berthStatus => rw [exec_berthStatus]; exact nextCanonical_execBerthStatus _ _ h
  | estateMapLoad => rw [exec_estateMapLoad]; exact nextCanonical_execEstateMapLoad _ _ _ h
  | estateChangePropose => rw [exec_estateChangePropose]; exact nextCanonical_execEstateChangePropose _ _ _ h
  | estateChangeStatus => rw [exec_estateChangeStatus]; exact nextCanonical_execEstateChangeStatus _ _ _ h
  | estateChangeAbandon => rw [exec_estateChangeAbandon]; exact nextCanonical_execEstateChangeAbandon _ _ _ h
  | roleTableRead => rw [exec_roleTableRead]; exact nextCanonical_execRoleTableRead _ _ _ _ h
  | roleResolve => rw [exec_roleResolve]; exact nextCanonical_execRoleResolve _ _ _ h
  | tenantLoad => rw [exec_tenantLoad]; exact nextCanonical_execTenantLoad _ _ _ _ _ _ _ h
  | tenantUnload => rw [exec_tenantUnload]; exact nextCanonical_execTenantUnload _ _ _ h
  | tenantStop => rw [exec_tenantStop]; exact nextCanonical_execTenantStop _ _ _ h
  | tenantStart => rw [exec_tenantStart]; exact nextCanonical_execTenantStart _ _ _ h
  | tenantStatus => rw [exec_tenantStatus]; exact nextCanonical_execTenantStatus _ _ _ h
  | tenantCountersRead => rw [exec_tenantCountersRead]; exact nextCanonical_execTenantCountersRead _ _ _ _ h
  | graphActivate => rw [exec_graphActivate]; exact nextCanonical_execGraphActivate _ _ _ _ h
  | graphDiscard => rw [exec_graphDiscard]; exact nextCanonical_execGraphDiscard _ _ _ h
  | graphVarRead => rw [exec_graphVarRead]; exact nextCanonical_execGraphVarRead _ _ _ _ _ h
  | graphGroupSet => rw [exec_graphGroupSet]; exact nextCanonical_execGraphGroupSet _ _ _ _ h
  | graphEnginesRead => rw [exec_graphEnginesRead]; exact nextCanonical_execGraphEnginesRead _ _ h
  | signalRead => rw [exec_signalRead]; exact nextCanonical_execSignalRead _ _ _ _ h
  | signalConfig => rw [exec_signalConfig]; exact nextCanonical_execSignalConfig _ _ _ _ h
  | pairRoleSet => rw [exec_pairRoleSet]; exact nextCanonical_execPairRoleSet _ _ _ h
  | pairStatus => rw [exec_pairStatus]; exact nextCanonical_execPairStatus _ _ _ h
  | pairSwapHelm => rw [exec_pairSwapHelm]; exact nextCanonical_execPairSwapHelm _ _ _ h
  | pairCompareSet => rw [exec_pairCompareSet]; exact nextCanonical_execPairCompareSet _ _ _ _ _ h
  | pairCountersRead => rw [exec_pairCountersRead]; exact nextCanonical_execPairCountersRead _ _ _ _ h
  | queueCreate => rw [exec_queueCreate]; exact nextCanonical_execQueueCreate _ _ _ _ _ _ _ h
  | queueDestroy => rw [exec_queueDestroy]; exact nextCanonical_execQueueDestroy _ _ _ h
  | queueThresholdSet => rw [exec_queueThresholdSet]; exact nextCanonical_execQueueThresholdSet _ _ _ _ h
  | queueStatus => rw [exec_queueStatus]; exact nextCanonical_execQueueStatus _ _ _ h
  | dmaChannelSet => rw [exec_dmaChannelSet]; exact nextCanonical_execDmaChannelSet _ _ _ _ _ _ h
  | dmaStart => rw [exec_dmaStart]; exact nextCanonical_execDmaStart _ _ _ _ h
  | dmaDoorbell => rw [exec_dmaDoorbell]; exact nextCanonical_execDmaDoorbell _ _ _ h
  | dmaAbort => rw [exec_dmaAbort]; exact nextCanonical_execDmaAbort _ _ _ h
  | dmaStatus => rw [exec_dmaStatus]; exact nextCanonical_execDmaStatus _ _ _ h
  | dmaCountersRead => rw [exec_dmaCountersRead]; exact nextCanonical_execDmaCountersRead _ _ _ _ h
  | canConfig => rw [exec_canConfig]; exact nextCanonical_execCanConfig _ _ _ _ h
  | canFilterSet => rw [exec_canFilterSet]; exact nextCanonical_execCanFilterSet _ _ _ _ _ h
  | canSend => rw [exec_canSend]; exact nextCanonical_execCanSend _ _ _ _ _ _ h
  | canReceive => rw [exec_canReceive]; exact nextCanonical_execCanReceive _ _ _ _ _ h
  | canRecover => rw [exec_canRecover]; exact nextCanonical_execCanRecover _ _ _ h
  | canStatus => rw [exec_canStatus]; exact nextCanonical_execCanStatus _ _ _ h
  | canTimeMasterSet => rw [exec_canTimeMasterSet]; exact nextCanonical_execCanTimeMasterSet _ _ _ _ _ h
  | canCountersRead => rw [exec_canCountersRead]; exact nextCanonical_execCanCountersRead _ _ _ _ h
  | storeStatus => rw [exec_storeStatus]; exact nextCanonical_execStoreStatus _ _ h
  | storeScrub => rw [exec_storeScrub]; exact nextCanonical_execStoreScrub _ _ h
  | storeHoldupMeasure => rw [exec_storeHoldupMeasure]; exact nextCanonical_execStoreHoldupMeasure _ _ h
  | storeWearRead => rw [exec_storeWearRead]; exact nextCanonical_execStoreWearRead _ _ _ h
  | eventStatus => rw [exec_eventStatus]; exact nextCanonical_execEventStatus _ _ h
  | eventRead => rw [exec_eventRead]; exact nextCanonical_execEventRead _ _ _ _ h
  | lifecycleStatus => rw [exec_lifecycleStatus]; exact nextCanonical_execLifecycleStatus _ _ h
  | lifecycleTurn => rw [exec_lifecycleTurn]; exact nextCanonical_execLifecycleTurn _ _ _ h
  | lifecycleSeal => rw [exec_lifecycleSeal]; exact nextCanonical_execLifecycleSeal _ _ h
  | lifecycleDecommission => rw [exec_lifecycleDecommission]; exact nextCanonical_execLifecycleDecommission _ _ _ h
  | debugStatus => rw [exec_debugStatus]; exact nextCanonical_execDebugStatus _ _ h
  | debugLevelSet => rw [exec_debugLevelSet]; exact nextCanonical_execDebugLevelSet _ _ _ h
  | updateStatus => rw [exec_updateStatus]; exact nextCanonical_execUpdateStatus _ _ h
  | updateImageWrite => rw [exec_updateImageWrite]; exact nextCanonical_execUpdateImageWrite _ _ _ _ _ _ h
  | updateReboot => rw [exec_updateReboot]; exact nextCanonical_execUpdateReboot _ _ _ h
  | powerStatus => rw [exec_powerStatus]; exact nextCanonical_execPowerStatus _ _ h
  | intStatusWrite => rw [exec_intStatusWrite]; exact nextCanonical_execIntStatusWrite _ _ _ h
  | mailboxEnableWrite => rw [exec_mailboxEnableWrite]; exact nextCanonical_execMailboxEnableWrite _ _ _ _ h
  | mailboxResetWrite => rw [exec_mailboxResetWrite]; exact nextCanonical_execMailboxResetWrite _ _ _ h
  | timeLoRead => rw [exec_timeLoRead]; exact nextCanonical_execTimeLoRead _ _ h
  | queueDoorbellPi => rw [exec_queueDoorbellPi]; exact nextCanonical_execQueueDoorbellPi _ _ _ _ h
  | queueDoorbellCi => rw [exec_queueDoorbellCi]; exact nextCanonical_execQueueDoorbellCi _ _ _ _ h
  | channelDoorbellRing => rw [exec_channelDoorbellRing]; exact nextCanonical_execChannelDoorbellRing _ _ _ h
  | channelDoorbellAbort => rw [exec_channelDoorbellAbort]; exact nextCanonical_execChannelDoorbellAbort _ _ _ h
  | queueNoticePendingWrite => rw [exec_queueNoticePendingWrite]; exact nextCanonical_execQueueNoticePendingWrite _ _ _ _ h
  | bar2Access => rw [exec_bar2Access]; exact nextCanonical_execBar2Access _ _ _ _ _ _ h
  | registerWrite => rw [exec_registerWrite]; exact nextCanonical_execRegisterWrite _ _ _ _ _ h
  | pcieFunctionReset => rw [exec_pcieFunctionReset]; exact nextCanonical_execPcieFunctionReset _ _ h
  | requestTake => exact absurd rfl (hi _ _ _)
  | respRoom => rw [exec_respRoom]; exact nextCanonical_execRespRoom _ _ _ h
  | serviceMessage => rw [exec_serviceMessage]; exact nextCanonical_execServiceMessage _ _ _ _ h
  | mailboxClose => rw [exec_mailboxClose]; exact nextCanonical_execMailboxClose _ _ _ h
  | requestTimeout => rw [exec_requestTimeout]; exact nextCanonical_execRequestTimeout _ _ _ h
  | heartbeat => rw [exec_heartbeat]; exact nextCanonical_execHeartbeat _ _ h
  | ptpSync => rw [exec_ptpSync]; exact nextCanonical_execPtpSync _ _ _ _ h
  | ptpAnnounce => rw [exec_ptpAnnounce]; exact nextCanonical_execPtpAnnounce _ _ _ _ h
  | ptpDelayResp => rw [exec_ptpDelayResp]; exact nextCanonical_execPtpDelayResp _ _ _ _ h
  | ptpSyncSend => rw [exec_ptpSyncSend]; exact nextCanonical_execPtpSyncSend _ _ _ _ h
  | servoLocked => rw [exec_servoLocked]; exact nextCanonical_execServoLocked _ _ h
  | servoOutliers => rw [exec_servoOutliers]; exact nextCanonical_execServoOutliers _ _ h
  | masterLost => rw [exec_masterLost]; exact nextCanonical_execMasterLost _ _ h
  | timeDisagree => rw [exec_timeDisagree]; exact nextCanonical_execTimeDisagree _ _ h
  | lighthouseSample => rw [exec_lighthouseSample]; exact nextCanonical_execLighthouseSample _ _ _ _ h
  | pllLock => rw [exec_pllLock]; exact nextCanonical_execPllLock _ _ h
  | pllUnlock => rw [exec_pllUnlock]; exact nextCanonical_execPllUnlock _ _ h
  | tidePublish => rw [exec_tidePublish]; exact nextCanonical_execTidePublish _ _ h
  | tideMessage => rw [exec_tideMessage]; exact nextCanonical_execTideMessage _ _ _ _ h
  | lighthouseDisagree => rw [exec_lighthouseDisagree]; exact nextCanonical_execLighthouseDisagree _ _ h
  | instanceReturn => rw [exec_instanceReturn]; exact nextCanonical_execInstanceReturn _ _ h
  | instanceSilent => rw [exec_instanceSilent]; exact nextCanonical_execInstanceSilent _ _ _ h
  | correctionEnd => rw [exec_correctionEnd]; exact nextCanonical_execCorrectionEnd _ _ h
  | tideRecount => rw [exec_tideRecount]; exact nextCanonical_execTideRecount _ _ h
  | tideFiringArmed => rw [exec_tideFiringArmed]; exact nextCanonical_execTideFiringArmed _ _ _ _ _ h
  | sampleStrobe => rw [exec_sampleStrobe]; exact nextCanonical_execSampleStrobe _ _ _ h
  | sarSequence => rw [exec_sarSequence]; exact nextCanonical_execSarSequence _ _ _ h
  | icvWindow => rw [exec_icvWindow]; exact nextCanonical_execIcvWindow _ _ _ h
  | soundingStep => rw [exec_soundingStep]; exact nextCanonical_execSoundingStep _ _ _ h
  | graphCycle => rw [exec_graphCycle]; exact nextCanonical_execGraphCycle _ _ _ h
  | modeChange => rw [exec_modeChange]; exact nextCanonical_execModeChange _ _ _ h
  | triggerOut => rw [exec_triggerOut]; exact nextCanonical_execTriggerOut _ _ _ h
  | triggerTimePulse => rw [exec_triggerTimePulse]; exact nextCanonical_execTriggerTimePulse _ _ _ h
  | pulseEnd => rw [exec_pulseEnd]; exact nextCanonical_execPulseEnd _ _ _ h
  | tsinCapture => rw [exec_tsinCapture]; exact nextCanonical_execTsinCapture _ _ _ _ _ h
  | tapData => rw [exec_tapData]; exact nextCanonical_execTapData _ _ _ _ h
  | tapHello => rw [exec_tapHello]; exact nextCanonical_execTapHello _ _ _ _ h
  | tapEchoReply => rw [exec_tapEchoReply]; exact nextCanonical_execTapEchoReply _ _ _ _ h
  | alignLost => rw [exec_alignLost]; exact nextCanonical_execAlignLost _ _ _ h
  | alignRegained => rw [exec_alignRegained]; exact nextCanonical_execAlignRegained _ _ _ h
  | alignLostRetrain => rw [exec_alignLostRetrain]; exact nextCanonical_execAlignLostRetrain _ _ _ h
  | tapAck => rw [exec_tapAck]; exact nextCanonical_execTapAck _ _ _ _ h
  | tapFrameError => rw [exec_tapFrameError]; exact nextCanonical_execTapFrameError _ _ _ _ h
  | missedFrame => rw [exec_missedFrame]; exact nextCanonical_execMissedFrame _ _ _ h
  | tapStall => rw [exec_tapStall]; exact nextCanonical_execTapStall _ _ _ h
  | commandWindow => rw [exec_commandWindow]; exact nextCanonical_execCommandWindow _ _ _ h
  | trainingAttempt => rw [exec_trainingAttempt]; exact nextCanonical_execTrainingAttempt _ _ _ h
  | trainingTimeout => rw [exec_trainingTimeout]; exact nextCanonical_execTrainingTimeout _ _ _ h
  | trainingRetry => rw [exec_trainingRetry]; exact nextCanonical_execTrainingRetry _ _ _ h
  | helmHolderMark => rw [exec_helmHolderMark]; exact nextCanonical_execHelmHolderMark _ _ _ _ h
  | conversionComplete => rw [exec_conversionComplete]; exact nextCanonical_execConversionComplete _ _ _ _ h
  | tableRunEnd => rw [exec_tableRunEnd]; exact nextCanonical_execTableRunEnd _ _ _ h
  | calPointResult => rw [exec_calPointResult]; exact nextCanonical_execCalPointResult _ _ _ h
  | icvWord => rw [exec_icvWord]; exact nextCanonical_execIcvWord _ _ _ _ h
  | beachedBusConversion => rw [exec_beachedBusConversion]; exact nextCanonical_execBeachedBusConversion _ _ _ _ h
  | dacRangeSettle => rw [exec_dacRangeSettle]; exact nextCanonical_execDacRangeSettle _ _ _ h
  | tachEdge => rw [exec_tachEdge]; exact nextCanonical_execTachEdge _ _ _ _ h
  | standstill => rw [exec_standstill]; exact nextCanonical_execStandstill _ _ _ h
  | pwmPeriodStart => rw [exec_pwmPeriodStart]; exact nextCanonical_execPwmPeriodStart _ _ _ _ h
  | loopSampleLost => rw [exec_loopSampleLost]; exact nextCanonical_execLoopSampleLost _ _ _ h
  | busRange => rw [exec_busRange]; exact nextCanonical_execBusRange _ _ _ h
  | armSequenceStep => rw [exec_armSequenceStep]; exact nextCanonical_execArmSequenceStep _ _ _ h
  | prechargeShort => rw [exec_prechargeShort]; exact nextCanonical_execPrechargeShort _ _ _ h
  | disarmSequenceStep => rw [exec_disarmSequenceStep]; exact nextCanonical_execDisarmSequenceStep _ _ _ h
  | disarmForced => rw [exec_disarmForced]; exact nextCanonical_execDisarmForced _ _ _ h
  | decayCheck => rw [exec_decayCheck]; exact nextCanonical_execDecayCheck _ _ _ h
  | contactorFeedback => rw [exec_contactorFeedback]; exact nextCanonical_execContactorFeedback _ _ _ _ _ h
  | contactorMismatch => rw [exec_contactorMismatch]; exact nextCanonical_execContactorMismatch _ _ _ _ h
  | weldCheck => rw [exec_weldCheck]; exact nextCanonical_execWeldCheck _ _ _ h
  | loopItem => rw [exec_loopItem]; exact nextCanonical_execLoopItem _ _ _ _ h
  | modelStep => rw [exec_modelStep]; exact nextCanonical_execModelStep _ _ _ h
  | modelDiverged => rw [exec_modelDiverged]; exact nextCanonical_execModelDiverged _ _ _ _ h
  | modelLimitsStale => rw [exec_modelLimitsStale]; exact nextCanonical_execModelLimitsStale _ _ _ h
  | openCircuitEstimate => rw [exec_openCircuitEstimate]; exact nextCanonical_execOpenCircuitEstimate _ _ _ _ h
  | laneRest => rw [exec_laneRest]; exact nextCanonical_execLaneRest _ _ _ h
  | commitInterval => rw [exec_commitInterval]; exact nextCanonical_execCommitInterval _ _ h
  | commitDone => rw [exec_commitDone]; exact nextCanonical_execCommitDone _ _ _ h
  | slackEnter => rw [exec_slackEnter]; exact nextCanonical_execSlackEnter _ _ h
  | slackExit => rw [exec_slackExit]; exact nextCanonical_execSlackExit _ _ h
  | roleDropped => rw [exec_roleDropped]; exact nextCanonical_execRoleDropped _ _ _ h
  | beachedAt => rw [exec_beachedAt]; exact nextCanonical_execBeachedAt _ _ h
  | refloat => rw [exec_refloat]; exact nextCanonical_execRefloat _ _ _ _ h
  | refloated => rw [exec_refloated]; exact nextCanonical_execRefloated _ _ h
  | soundReadySend => rw [exec_soundReadySend]; exact nextCanonical_execSoundReadySend _ _ _ h
  | soundReady => rw [exec_soundReady]; exact nextCanonical_execSoundReady _ _ _ _ _ h
  | soundActive => rw [exec_soundActive]; exact nextCanonical_execSoundActive _ _ _ _ _ h
  | soundEnd => rw [exec_soundEnd]; exact nextCanonical_execSoundEnd _ _ _ _ _ h
  | soundDecision => rw [exec_soundDecision]; exact nextCanonical_execSoundDecision _ _ _ h
  | soundAlone => rw [exec_soundAlone]; exact nextCanonical_execSoundAlone _ _ _ h
  | soundStepLeave => rw [exec_soundStepLeave]; exact nextCanonical_execSoundStepLeave _ _ _ h
  | captureEnd => rw [exec_captureEnd]; exact nextCanonical_execCaptureEnd _ _ _ h
  | soundFit => rw [exec_soundFit]; exact nextCanonical_execSoundFit _ _ _ h
  | soundSetClose => rw [exec_soundSetClose]; exact nextCanonical_execSoundSetClose _ _ _ h
  | springPhaseEnd => rw [exec_springPhaseEnd]; exact nextCanonical_execSpringPhaseEnd _ _ _ h
  | springTaperEnd => rw [exec_springTaperEnd]; exact nextCanonical_execSpringTaperEnd _ _ _ h
  | springEndpoint => rw [exec_springEndpoint]; exact nextCanonical_execSpringEndpoint _ _ _ h
  | springInterrupted => rw [exec_springInterrupted]; exact nextCanonical_execSpringInterrupted _ _ _ h
  | springPortLost => rw [exec_springPortLost]; exact nextCanonical_execSpringPortLost _ _ _ h
  | springTimeout => rw [exec_springTimeout]; exact nextCanonical_execSpringTimeout _ _ _ h
  | springGrant => rw [exec_springGrant]; exact nextCanonical_execSpringGrant _ _ h
  | balancePlan => rw [exec_balancePlan]; exact nextCanonical_execBalancePlan _ _ _ h
  | balanceRepeat => rw [exec_balanceRepeat]; exact nextCanonical_execBalanceRepeat _ _ _ h
  | switchTestStart => rw [exec_switchTestStart]; exact nextCanonical_execSwitchTestStart _ _ _ _ h
  | switchTestStep => rw [exec_switchTestStep]; exact nextCanonical_execSwitchTestStep _ _ _ h
  | balTestOverdue => rw [exec_balTestOverdue]; exact nextCanonical_execBalTestOverdue _ _ _ _ h
  | temperatureSample => rw [exec_temperatureSample]; exact nextCanonical_execTemperatureSample _ _ _ h
  | thermalPrecursor => rw [exec_thermalPrecursor]; exact nextCanonical_execThermalPrecursor _ _ _ _ h
  | tempSensorLost => rw [exec_tempSensorLost]; exact nextCanonical_execTempSensorLost _ _ _ _ h
  | coolingLoopUpdate => rw [exec_coolingLoopUpdate]; exact nextCanonical_execCoolingLoopUpdate _ _ _ h
  | coolingLost => rw [exec_coolingLost]; exact nextCanonical_execCoolingLost _ _ _ h
  | coolingRestored => rw [exec_coolingRestored]; exact nextCanonical_execCoolingRestored _ _ _ h
  | dieReading => rw [exec_dieReading]; exact nextCanonical_execDieReading _ _ _ _ h
  | dieEnforce => rw [exec_dieEnforce]; exact nextCanonical_execDieEnforce _ _ h
  | dieSensorBroken => rw [exec_dieSensorBroken]; exact nextCanonical_execDieSensorBroken _ _ h
  | dieRelease => rw [exec_dieRelease]; exact nextCanonical_execDieRelease _ _ h
  | lockstepMismatch => rw [exec_lockstepMismatch]; exact nextCanonical_execLockstepMismatch _ _ _ h
  | crossWatchdog => rw [exec_crossWatchdog]; exact nextCanonical_execCrossWatchdog _ _ _ h
  | configCrcCheck => rw [exec_configCrcCheck]; exact nextCanonical_execConfigCrcCheck _ _ _ h
  | safetyCoreReset => rw [exec_safetyCoreReset]; exact nextCanonical_execSafetyCoreReset _ _ h
  | overcurrentTrip => rw [exec_overcurrentTrip]; exact nextCanonical_execOvercurrentTrip _ _ _ _ _ h
  | comparatorRelease => rw [exec_comparatorRelease]; exact nextCanonical_execComparatorRelease _ _ _ _ h
  | thresholdReadback => rw [exec_thresholdReadback]; exact nextCanonical_execThresholdReadback _ _ _ _ _ h
  | portDerate => rw [exec_portDerate]; exact nextCanonical_execPortDerate _ _ _ h
  | portLost => rw [exec_portLost]; exact nextCanonical_execPortLost _ _ _ h
  | estop => rw [exec_estop]; exact nextCanonical_execEstop _ _ _ h
  | estopDiscrepancy => rw [exec_estopDiscrepancy]; exact nextCanonical_execEstopDiscrepancy _ _ h
  | estopRecovered => rw [exec_estopRecovered]; exact nextCanonical_execEstopRecovered _ _ h
  | fire => rw [exec_fire]; exact nextCanonical_execFire _ _ h
  | safeOutFault => rw [exec_safeOutFault]; exact nextCanonical_execSafeOutFault _ _ _ h
  | clearEdge => rw [exec_clearEdge]; exact nextCanonical_execClearEdge _ _ _ _ h
  | clearStuck => rw [exec_clearStuck]; exact nextCanonical_execClearStuck _ _ _ h
  | safeHeartbeat => rw [exec_safeHeartbeat]; exact nextCanonical_execSafeHeartbeat _ _ _ h
  | safeFrame => rw [exec_safeFrame]; exact nextCanonical_execSafeFrame _ _ _ _ h
  | skewExpiry => rw [exec_skewExpiry]; exact nextCanonical_execSkewExpiry _ _ _ _ h
  | safeLinkWatchdog => rw [exec_safeLinkWatchdog]; exact nextCanonical_execSafeLinkWatchdog _ _ _ _ h
  | lanDown => rw [exec_lanDown]; exact nextCanonical_execLanDown _ _ _ _ h
  | lanUp => rw [exec_lanUp]; exact nextCanonical_execLanUp _ _ _ h
  | eccCorrected => rw [exec_eccCorrected]; exact nextCanonical_execEccCorrected _ _ _ _ h
  | uncorrectableError => rw [exec_uncorrectableError]; exact nextCanonical_execUncorrectableError _ _ _ h
  | supervisorWatchdog => rw [exec_supervisorWatchdog]; exact nextCanonical_execSupervisorWatchdog _ _ _ h
  | bareRockStrobe => rw [exec_bareRockStrobe]; exact nextCanonical_execBareRockStrobe _ _ h
  | bareRockExit => rw [exec_bareRockExit]; exact nextCanonical_execBareRockExit _ _ h
  | lldpdu => rw [exec_lldpdu]; exact nextCanonical_execLldpdu _ _ _ _ h
  | lldpSend => rw [exec_lldpSend]; exact nextCanonical_execLldpSend _ _ _ h
  | berthDerivation => rw [exec_berthDerivation]; exact nextCanonical_execBerthDerivation _ _ h
  | berthDuplicate => rw [exec_berthDuplicate]; exact nextCanonical_execBerthDuplicate _ _ h
  | garzetFormatErr => rw [exec_garzetFormatErr]; exact nextCanonical_execGarzetFormatErr _ _ _ h
  | garzetMailbox => rw [exec_garzetMailbox]; exact nextCanonical_execGarzetMailbox _ _ _ _ _ h
  | garzetMailboxReply => rw [exec_garzetMailboxReply]; exact nextCanonical_execGarzetMailboxReply _ _ _ _ _ h
  | garzetAck => rw [exec_garzetAck]; exact nextCanonical_execGarzetAck _ _ _ _ h
  | garzetRoleMoved => rw [exec_garzetRoleMoved]; exact nextCanonical_execGarzetRoleMoved _ _ _ _ _ h
  | garzetAnnounce => rw [exec_garzetAnnounce]; exact nextCanonical_execGarzetAnnounce _ _ _ _ _ h
  | garzetSignal => rw [exec_garzetSignal]; exact nextCanonical_execGarzetSignal _ _ _ _ _ h
  | garzetPropose => rw [exec_garzetPropose]; exact nextCanonical_execGarzetPropose _ _ _ _ _ h
  | garzetProposeAck => rw [exec_garzetProposeAck]; exact nextCanonical_execGarzetProposeAck _ _ _ _ _ _ h
  | garzetCommit => rw [exec_garzetCommit]; exact nextCanonical_execGarzetCommit _ _ _ _ _ _ h
  | garzetAbandon => rw [exec_garzetAbandon]; exact nextCanonical_execGarzetAbandon _ _ _ _ _ _ h
  | garzetReport => rw [exec_garzetReport]; exact nextCanonical_execGarzetReport _ _ _ _ _ h
  | garzetFallBack => rw [exec_garzetFallBack]; exact nextCanonical_execGarzetFallBack _ _ _ _ _ _ h
  | retransmit => rw [exec_retransmit]; exact nextCanonical_execRetransmit _ _ _ _ h
  | noAck => rw [exec_noAck]; exact nextCanonical_execNoAck _ _ _ _ h
  | gapSkipped => rw [exec_gapSkipped]; exact nextCanonical_execGapSkipped _ _ _ h
  | pathDown => rw [exec_pathDown]; exact nextCanonical_execPathDown _ _ _ _ h
  | pathUp => rw [exec_pathUp]; exact nextCanonical_execPathUp _ _ _ _ h
  | announceSend => rw [exec_announceSend]; exact nextCanonical_execAnnounceSend _ _ h
  | roleAgeOut => rw [exec_roleAgeOut]; exact nextCanonical_execRoleAgeOut _ _ _ h
  | changeDecision => rw [exec_changeDecision]; exact nextCanonical_execChangeDecision _ _ _ h
  | changeRound => rw [exec_changeRound]; exact nextCanonical_execChangeRound _ _ _ h
  | changeMemberClose => rw [exec_changeMemberClose]; exact nextCanonical_execChangeMemberClose _ _ _ h
  | coordinatorTakeover => rw [exec_coordinatorTakeover]; exact nextCanonical_execCoordinatorTakeover _ _ _ _ h
  | graphCycleComplete => rw [exec_graphCycleComplete]; exact nextCanonical_execGraphCycleComplete _ _ _ _ h
  | cycleBudget => rw [exec_cycleBudget]; exact nextCanonical_execCycleBudget _ _ _ h
  | tenantFault => rw [exec_tenantFault]; exact nextCanonical_execTenantFault _ _ _ h
  | engineFault => rw [exec_engineFault]; exact nextCanonical_execEngineFault _ _ _ h
  | signalRefresh => rw [exec_signalRefresh]; exact nextCanonical_execSignalRefresh _ _ _ h
  | signalStale => rw [exec_signalStale]; exact nextCanonical_execSignalStale _ _ _ h
  | roleTake => rw [exec_roleTake]; exact nextCanonical_execRoleTake _ _ _ h
  | helmInFall => rw [exec_helmInFall]; exact nextCanonical_execHelmInFall _ _ _ h
  | helmRaise => rw [exec_helmRaise]; exact nextCanonical_execHelmRaise _ _ _ h
  | helmConflict => rw [exec_helmConflict]; exact nextCanonical_execHelmConflict _ _ _ h
  | helmRetry => rw [exec_helmRetry]; exact nextCanonical_execHelmRetry _ _ _ h
  | takeover => rw [exec_takeover]; exact nextCanonical_execTakeover _ _ _ h
  | spindleLate => rw [exec_spindleLate]; exact nextCanonical_execSpindleLate _ _ _ h
  | modelEngineLate => rw [exec_modelEngineLate]; exact nextCanonical_execModelEngineLate _ _ _ h
  | helmKeep => rw [exec_helmKeep]; exact nextCanonical_execHelmKeep _ _ _ _ _ h
  | keepCheck => rw [exec_keepCheck]; exact nextCanonical_execKeepCheck _ _ _ _ h
  | helmRelease => rw [exec_helmRelease]; exact nextCanonical_execHelmRelease _ _ _ _ _ h
  | helmTakenReceived => rw [exec_helmTakenReceived]; exact nextCanonical_execHelmTakenReceived _ _ _ _ _ h
  | helmSwapRequest => rw [exec_helmSwapRequest]; exact nextCanonical_execHelmSwapRequest _ _ _ _ _ h
  | helmSwapReady => rw [exec_helmSwapReady]; exact nextCanonical_execHelmSwapReady _ _ _ _ _ h
  | helmTestStart => rw [exec_helmTestStart]; exact nextCanonical_execHelmTestStart _ _ _ _ _ h
  | selfTest => rw [exec_selfTest]; exact nextCanonical_execSelfTest _ _ _ _ h
  | helmTestResult => rw [exec_helmTestResult]; exact nextCanonical_execHelmTestResult _ _ _ _ _ h
  | testResultTimeout => rw [exec_testResultTimeout]; exact nextCanonical_execTestResultTimeout _ _ _ h
  | backgroundTest => rw [exec_backgroundTest]; exact nextCanonical_execBackgroundTest _ _ _ _ h
  | helmFullRequest => rw [exec_helmFullRequest]; exact nextCanonical_execHelmFullRequest _ _ _ _ _ h
  | fullRequestSend => rw [exec_fullRequestSend]; exact nextCanonical_execFullRequestSend _ _ _ h
  | garzetMirror => rw [exec_garzetMirror]; exact nextCanonical_execGarzetMirror _ _ _ _ _ h
  | mirrorStale => rw [exec_mirrorStale]; exact nextCanonical_execMirrorStale _ _ _ h
  | inSync => rw [exec_inSync]; exact nextCanonical_execInSync _ _ _ h
  | twinLaneDown => rw [exec_twinLaneDown]; exact nextCanonical_execTwinLaneDown _ _ _ h
  | descriptorFetch => rw [exec_descriptorFetch]; exact nextCanonical_execDescriptorFetch _ _ _ _ h
  | dmaBurstGrant => rw [exec_dmaBurstGrant]; exact nextCanonical_execDmaBurstGrant _ _ _ _ _ h
  | descriptorComplete => rw [exec_descriptorComplete]; exact nextCanonical_execDescriptorComplete _ _ _ h
  | cqRoom => rw [exec_cqRoom]; exact nextCanonical_execCqRoom _ _ _ h
  | cqStall => rw [exec_cqStall]; exact nextCanonical_execCqStall _ _ _ h
  | canFrameReceived => rw [exec_canFrameReceived]; exact nextCanonical_execCanFrameReceived _ _ _ _ _ h
  | canBusIdle => rw [exec_canBusIdle]; exact nextCanonical_execCanBusIdle _ _ _ h
  | canTxAttemptEnd => rw [exec_canTxAttemptEnd]; exact nextCanonical_execCanTxAttemptEnd _ _ _ _ _ _ h
  | txTimeout => rw [exec_txTimeout]; exact nextCanonical_execTxTimeout _ _ _ _ h
  | canBusOff => rw [exec_canBusOff]; exact nextCanonical_execCanBusOff _ _ _ h
  | canRecoveryDone => rw [exec_canRecoveryDone]; exact nextCanonical_execCanRecoveryDone _ _ _ h
  | txEventRoom => rw [exec_txEventRoom]; exact nextCanonical_execTxEventRoom _ _ _ _ h
  | canReferenceDue => rw [exec_canReferenceDue]; exact nextCanonical_execCanReferenceDue _ _ _ h
  | containerTimeTake => rw [exec_containerTimeTake]; exact nextCanonical_execContainerTimeTake _ _ _ h
  | recordBatch => rw [exec_recordBatch]; exact nextCanonical_execRecordBatch _ _ h
  | holdupRetry => rw [exec_holdupRetry]; exact nextCanonical_execHoldupRetry _ _ _ h
  | storeDeferred => rw [exec_storeDeferred]; exact nextCanonical_execStoreDeferred _ _ h
  | holdupMeasurement => rw [exec_holdupMeasurement]; exact nextCanonical_execHoldupMeasurement _ _ _ h
  | holdupMeasured => rw [exec_holdupMeasured]; exact nextCanonical_execHoldupMeasured _ _ _ h
  | pageProgramDone => rw [exec_pageProgramDone]; exact nextCanonical_execPageProgramDone _ _ _ _ h
  | eraseDone => rw [exec_eraseDone]; exact nextCanonical_execEraseDone _ _ _ _ h
  | scrub => rw [exec_scrub]; exact nextCanonical_execScrub _ _ _ h
  | serviceConnect => rw [exec_serviceConnect]; exact nextCanonical_execServiceConnect _ _ _ h
  | lockoutEnd => rw [exec_lockoutEnd]; exact nextCanonical_execLockoutEnd _ _ h
  | sessionTimeout => rw [exec_sessionTimeout]; exact nextCanonical_execSessionTimeout _ _ _ h
  | sessionKeyExpiry => rw [exec_sessionKeyExpiry]; exact nextCanonical_execSessionKeyExpiry _ _ h
  | rollbackAdvanced => rw [exec_rollbackAdvanced]; exact nextCanonical_execRollbackAdvanced _ _ h
  | stageRailsUp => rw [exec_stageRailsUp]; exact nextCanonical_execStageRailsUp _ _ _ h
  | memoryZeroed => rw [exec_memoryZeroed]; exact nextCanonical_execMemoryZeroed _ _ h
  | stageImageRunning => rw [exec_stageImageRunning]; exact nextCanonical_execStageImageRunning _ _ _ _ h
  | stageOnNetwork => rw [exec_stageOnNetwork]; exact nextCanonical_execStageOnNetwork _ _ h
  | stageLanesArmable => rw [exec_stageLanesArmable]; exact nextCanonical_execStageLanesArmable _ _ h
  | startSlow => rw [exec_startSlow]; exact nextCanonical_execStartSlow _ _ _ h
  | vhuCharged => rw [exec_vhuCharged]; exact nextCanonical_execVhuCharged _ _ _ h
  | portPowerLoss => rw [exec_portPowerLoss]; exact nextCanonical_execPortPowerLoss _ _ _ h
  | portPowerRestored => rw [exec_portPowerRestored]; exact nextCanonical_execPortPowerRestored _ _ _ h
  | linePowerLoss => rw [exec_linePowerLoss]; exact nextCanonical_execLinePowerLoss _ _ _ h
  | moduleUnpowered => rw [exec_moduleUnpowered]; exact nextCanonical_execModuleUnpowered _ _ h
  | brownoutRestart => rw [exec_brownoutRestart]; exact nextCanonical_execBrownoutRestart _ _ h
  | boardSupplyFault => rw [exec_boardSupplyFault]; exact nextCanonical_execBoardSupplyFault _ _ h
  | boardSupplyRetry => rw [exec_boardSupplyRetry]; exact nextCanonical_execBoardSupplyRetry _ _ _ _ h
  | partingStep => rw [exec_partingStep]; exact nextCanonical_execPartingStep _ _ h
  | powerUp => rw [exec_powerUp]; exact nextCanonical_execPowerUp _ _ _ h
  | sessionClose => rw [exec_sessionClose]; exact nextCanonical_execSessionClose _ _ _ h
  | delayReqSend => rw [exec_delayReqSend]; exact nextCanonical_execDelayReqSend _ _ _ h
  | delayReq => rw [exec_delayReq]; exact nextCanonical_execDelayReq _ _ _ _ _ h
  | ptpAnnounceSend => rw [exec_ptpAnnounceSend]; exact nextCanonical_execPtpAnnounceSend _ _ _ h
  | foreignFrame => rw [exec_foreignFrame]; exact nextCanonical_execForeignFrame _ _ _ _ h
  | changeLagging => rw [exec_changeLagging]; exact nextCanonical_execChangeLagging _ _ _ h
  | safetyInputHealthy => rw [exec_safetyInputHealthy]; exact nextCanonical_execSafetyInputHealthy _ _ _ h
  | canReceiveError => rw [exec_canReceiveError]; exact nextCanonical_execCanReceiveError _ _ _ _ _ _ h
  | debugHalt => rw [exec_debugHalt]; exact nextCanonical_execDebugHalt _ _ _ h

/-- A request that spells a command runs it; it never spells the taking of a request. -/
theorem execRequested_eq (i : Instr) (s : State) :
    execRequested i s = .next s ∨ execRequested i s = exec i s ∧ ∀ t p b, i ≠ .requestTake t p b := by
  unfold execRequested
  split
  case h_148 => exact .inl rfl
  all_goals exact .inr ⟨rfl, nofun⟩

theorem nextCanonical_execRequested {s : State} (h : s.fab.Canonical) (i : Instr) : NextCanonical (execRequested i s) := by
  obtain e | ⟨e, hi⟩ := execRequested_eq i s
  · rw [e]
    exact nextCanonical_next h
  · rw [e]
    exact nextCanonical_exec_of_ne h i hi

theorem nextCanonical_serve {s : State} (h : s.fab.Canonical) (src : Source) (q : Request) : NextCanonical (s.serve src q) := by
  have answered (st : Nat) : NextCanonical (done s (s.answer src q.command st [])) :=
    nextCanonical_done _ (canonical_answer _ _ _ _ _ h)
  unfold State.serve
  split
  · exact answered _
  · split
    · exact answered _
    · split
      · exact nextCanonical_next h
      · exact answered _
      · split
        · exact answered _
        · exact nextCanonical_execRequested h _

theorem nextCanonical_takeRequest {s : State} (h : s.fab.Canonical) (p : Path) (b : Nat) : NextCanonical (s.takeRequest p b) := by
  unfold State.takeRequest
  extract_lets s1 x
  split
  · exact nextCanonical_next h
  · refine nextCanonical_serve ?_ _ _
    rw [fab_mbox, fab_setBox]
    exact canonical_fetched s p b h

theorem nextCanonical_execRequestTake (t : Nat) (path : Path) (box : Nat) (s : State) (h : s.fab.Canonical) :
    NextCanonical (execRequestTake t path box s) := by
  have ht : (s.atTime t).fab.Canonical := by rw [fab_atTime]; exact h
  unfold execRequestTake
  dsimp only
  split
  · exact nextCanonical_takeRequest ht _ _
  · exact nextCanonical_next ht

theorem nextCanonical_exec {s : State} (h : s.fab.Canonical) (i : Instr) : NextCanonical (exec i s) := by
  by_cases hi : ∀ t p b, i ≠ .requestTake t p b
  · exact nextCanonical_exec_of_ne h i hi
  · simp only [not_forall, not_not] at hi
    obtain ⟨t, p, b, rfl⟩ := hi
    exact nextCanonical_execRequestTake t p b s h

theorem nextCanonical_step {s : State} (h : s.fab.Canonical) : NextCanonical (step s) := by
  unfold step
  split
  · refine nextCanonical_next ?_
    rw [fab_tick]
    exact h
  · refine nextCanonical_exec ?_ _
    exact h

/-- Settles O50: every write goes through `writeBytes`, or clears a memory, so no operation of the model leaves the form; the outcome
of each handler follows, and the step's from that. -/
theorem memoriesStayCanonical : Obligations.MemoriesStayCanonical :=
  fun _ u c => ⟨fun h => nextCanonical_step h u, fun h => nextCanonical_exec h c u⟩

end Sys2Proof.Machine
end

