-- ==== Sys2Proof/Proofs/Outcomes.lean ====
section
/-! PROOF. The outcomes of commands that are taken and of events that have arisen, and the parts of the state they leave alone. -/

namespace Sys2Proof.Machine

open Sys2Proof
set_option Elab.async false

/-! ### Commands that are taken -/

/-- In BEACHED the gate lets STATUS commands alone through (06 R199). -/
theorem not_beached_of_taken {s : State} {src : Source} {code : Nat} (hr : Taken s src code) (hc : isStatus code = false) :
    s.power.state ≠ .beached := by
  intro hb
  have hg : gate s src code = .runs := hr.1
  unfold gate at hg
  simp only [hb, hc] at hg
  split_ifs at hg <;> simp_all

theorem checked_of_all {s : State} {l : List (Bool × Nat)} (a : Answer) (h : ∀ c ∈ l, c.1 = true) : checked s l a = a := by
  induction l with
  | nil => rfl
  | cons c r ih =>
    have hc : c.1 = true := h c List.mem_cons_self
    rw [checked, if_pos hc]
    exact ih fun d hd => h d (List.mem_cons_of_mem c hd)

/-- The checks end a command with its answer or with a refusal that leaves the state as it was. -/
theorem checked_eq (s : State) (l : List (Bool × Nat)) (a : Answer) : checked s l a = a ∨ ∃ st, checked s l a = refuse s st := by
  induction l with
  | nil => exact .inl rfl
  | cons c r ih =>
    rw [checked]
    split
    · exact ih
    · exact .inr ⟨c.2, rfl⟩

/-- A command that is no STATUS and passes its checks is answered OK, on the state that its handler leaves. -/
theorem taken_ok {src : Source} {code : Nat} {h : State → Answer} {s z : State} {p : List Field} (hr : Taken s src code)
    (hc : isStatus code = false) (ha : h s = ⟨some stOk, p, z⟩) (hm : z.mbox = s.mbox) (hk : z.clock = s.clock) :
    ∃ u, runCommand src code h s = .next u ∧ Answered s u src code p z :=
  runCommand_ok hr (by rw [runs_outside h (not_beached_of_taken hr hc), ha]) (by rw [hm]) (by rw [hm]) (by rw [hk])

theorem fresh_atStep6 (s : State) : s.atStep6.fresh = s.fresh := by
  unfold State.atStep6
  split <;> rfl

/-- A STATUS command answers what the module holds, in BEACHED what it held at step 6, and changes nothing. -/
theorem status_ok {src : Source} {code : Nat} {s : State} (fields : State → List Field) (hr : Taken s src code) :
    ∃ u, runCommand src code (fun z => okWith z (fields z)) s = .next u ∧ Answered s u src code (fields s.seen) s := by
  have hs : s.runs (fun z => okWith z (fields z)) = ⟨some stOk, fields s.seen, s⟩ := by
    unfold State.runs State.seen
    split
    · simp only [okWith, fresh_atStep6]
    · rfl
  exact runCommand_ok hr hs rfl rfl rfl

/-! ### Parts that differ -/

theorem changes_ptp (s : State) (x : Table PtpPort) : Changes [.ptp] s { s with ptp := x } := by
  intro p hp
  cases p <;> simp_all [Part.same]
theorem changes_servo (s : State) (x : Servo) : Changes [.servo] s { s with servo := x } := by
  intro p hp
  cases p <;> simp_all [Part.same]
theorem changes_clock (s : State) (x : Clock) : Changes [.clock] s { s with clock := x } := by
  intro p hp
  cases p <;> simp_all [Part.same]
theorem changes_table (s : State) (x : TideTable) : Changes [.table] s { s with table := x } := by
  intro p hp
  cases p <;> simp_all [Part.same]
theorem changes_tsin (s : State) (x : Table TsIn) : Changes [.tsin] s { s with tsin := x } := by
  intro p hp
  cases p <;> simp_all [Part.same]
theorem changes_tsout (s : State) (x : Table TsOut) : Changes [.tsout] s { s with tsout := x } := by
  intro p hp
  cases p <;> simp_all [Part.same]
theorem changes_emit (s : State) (o : Output) : Changes [.out] s (s.emit o) := by
  intro p hp
  cases p <;> simp_all [Part.same, State.emit]

theorem Moves.trans {ps : List Part} {s t u : State} (h : Moves ps s t) (k : Moves ps t u) : Moves ps s u := Changes.trans h k
theorem Changes.moves {ps qs : List Part} {s t : State} (h : Changes ps s t) (hs : ∀ p ∈ ps, p ∈ .clock :: .mbox :: qs) :
    Moves qs s t := h.mono hs
theorem moves_atTime (ps : List Part) (s : State) (t : Nat) : Moves ps s (s.atTime t) :=
  (atTime_changes s t).moves fun _ hp => List.mem_cons.2 (.inl (List.mem_singleton.1 hp))
theorem Settled.moves {z u : State} (h : Settled z u) (ps : List Part) : Moves ps z u :=
  h.changes.moves fun _ hp => List.mem_cons.2 (.inr (List.mem_cons.2 (.inl (List.mem_singleton.1 hp))))
/-- What an event does from the time it carries on, its interrupt bits included. -/
theorem Settled.moves_from {s z u : State} {t : Nat} {ps : List Part} (h : Settled z u) (hz : Moves ps (s.atTime t) z) :
    Moves ps s u := (moves_atTime ps s t).trans (hz.trans (h.moves ps))

/-! ### What the interrupt bits leave -/

theorem Settled.ptpPort {z u : State} (h : Settled z u) (k : Nat) : u.ptpPort k = z.ptpPort k := by
  unfold Settled at h; rw [h]; rfl
theorem Settled.servo {z u : State} (h : Settled z u) : u.servo = z.servo := h.changes .servo (by decide)
theorem Settled.clock {z u : State} (h : Settled z u) : u.clock = z.clock := h.changes .clock (by decide)
theorem Settled.out {z u : State} (h : Settled z u) : u.out = z.out := h.changes .out (by decide)
theorem Settled.table {z u : State} (h : Settled z u) : u.table = z.table := h.changes .table (by decide)
theorem Settled.tsout {z u : State} (h : Settled z u) : u.tsout = z.tsout := h.changes .tsout (by decide)
theorem Settled.ana {z u : State} (h : Settled z u) : u.ana = z.ana := h.changes .ana (by decide)

end Sys2Proof.Machine
end

