-- ==== Sys2Proof/Proofs/TideTable.lean ====
section
/-! PROOF. The tide table: what a write, an arming and a firing leave in the entries and in the list of armed firings (O53, O54). -/

namespace Sys2Proof.Machine

open Sys2Proof
set_option Elab.async false

/-! ### Writes (02 R72, R73) -/

theorem passOver_disabled (s : State) (n : Nat) (h : (s.entry n).enable = false) : s.passOver n = s := by
  simp [State.passOver, h]

theorem changes_passOver (s : State) (n : Nat) : Changes [.table] s (s.passOver n) := by
  fun_cases State.passOver s n
  · exact changes_table s _
  · exact changes_table s _
  · exact Changes.refl _ s

theorem changes_writeEntry (s : State) (n : Nat) (e : TideEntry) : Changes [.table] s (s.writeEntry n e) :=
  (changes_table s _).trans (changes_passOver _ n)

theorem armed_passOver {s : State} {a : ArmedFiring} (n : Nat) (h : a ∈ s.table.armed) : a ∈ (s.passOver n).table.armed := by
  fun_cases State.passOver s n
  · exact List.mem_cons_of_mem _ h
  · exact h
  · exact h

/-- A write keeps every armed firing with its contents; one of the written entry no longer speaks of it. -/
theorem armed_writeEntry {s : State} {a : ArmedFiring} (n : Nat) (e : TideEntry) (h : a ∈ s.table.armed) :
    { a with current := a.current && a.entry != n } ∈ (s.writeEntry n e).table.armed := by
  refine armed_passOver n (List.mem_map.2 ⟨a, h, ?_⟩)
  by_cases hn : a.entry = n
  · simp [hn]
  · rw [bne_iff_ne.2 hn, Bool.and_true, if_neg (by simpa using hn)]

theorem writeEntry_disabled (s : State) (n : Nat) (e : TideEntry) (he : e.enable = false) :
    s.writeEntry n e = { s with table := { s.table with
      entries := tset s.table.entries n { e with expired := false, late := false, fired := false, missed := 0, fireCount := 0 }
      armed := s.table.armed.map fun a => if a.entry == n then { a with current := false } else a } } :=
  passOver_disabled _ n ((congrArg TideEntry.enable (tget_tset_same _ _ _ _)).trans he)

/-! ### Due firings (02 R70) -/

theorem kindOrder_lt (k : Nat) : kindOrder k < 8 := by
  unfold kindOrder
  split_ifs <;> decide

/-- The keys of two firings stand in the order of the rule, entry numbers being below 1,024. -/
theorem firingKey_lt_iff {a b : ArmedFiring} (ha : a.entry < 1024) (hb : b.entry < 1024) :
    firingKey b < firingKey a ↔ Ahead b a := by
  have ka := kindOrder_lt a.content.kind
  have kb := kindOrder_lt b.content.kind
  unfold firingKey Ahead
  omega

/-- A due firing is armed, of the entry and the kind asked for, and none is to be taken before it. -/
theorem dueFiring_some {s : State} {n k : Nat} {a : ArmedFiring} (h : s.dueFiring n k = some a) :
    a ∈ s.table.armed ∧ a.entry = n ∧ a.content.kind = k ∧ a.t0 ≤ s.now ∧ ∀ b ∈ s.table.armed, firingKey a ≤ firingKey b := by
  have hp := List.find?_some h
  simp only [Bool.and_eq_true, beq_iff_eq, decide_eq_true_eq, List.all_eq_true] at hp
  obtain ⟨⟨⟨hn, hk⟩, ht⟩, hall⟩ := hp
  exact ⟨List.mem_of_find?_eq_some h, hn, hk, ht, hall⟩

/-- No firing of an entry is due while each has another ahead of it. -/
theorem dueFiring_none {s : State} {n : Nat} (hn : ∀ a ∈ s.table.armed, a.entry < 1024)
    (hw : ∀ a ∈ s.table.armed, a.entry = n → ∃ b ∈ s.table.armed, Ahead b a) (k : Nat) : s.dueFiring n k = none := by
  rw [Option.eq_none_iff_forall_ne_some]
  intro a h
  obtain ⟨ha, he, -, -, hmin⟩ := dueFiring_some h
  obtain ⟨b, hb, hab⟩ := hw a ha he
  exact absurd (hmin b hb) (Nat.not_le.2 ((firingKey_lt_iff (hn a ha) (hn b hb)).2 hab))

/-- A firing whose instant is reached is due where none is ahead of it and its entry has no other. -/
theorem dueFiring_of_first {s : State} {a : ArmedFiring} (ha : a ∈ s.table.armed) (hn : ∀ b ∈ s.table.armed, b.entry < 1024)
    (ht : a.t0 ≤ s.now) (hf : ∀ b ∈ s.table.armed, ¬ Ahead b a) (hu : ∀ b ∈ s.table.armed, b.entry = a.entry → b = a) :
    s.dueFiring a.entry a.content.kind = some a := by
  have hmin : ∀ b ∈ s.table.armed, firingKey a ≤ firingKey b := fun b hb =>
    Nat.not_lt.1 fun hlt => hf b hb ((firingKey_lt_iff (hn a ha) (hn b hb)).1 hlt)
  cases h : s.dueFiring a.entry a.content.kind with
  | none => exact absurd (List.find?_eq_none.1 h a ha) (by simpa [ht] using hmin)
  | some b =>
    obtain ⟨hb, he, -⟩ := dueFiring_some h
    rw [hu b hb he]

/-- Where no firing of the entry and kind is due, or the tables do not run, the event takes nothing and only the clock comes to its
time. -/
theorem firing_idle {s : State} {n kind t : Nat} {f : State → ArmedFiring → State} (hn : n < 1024)
    (h : (s.atTime t).dueFiring n kind = none ∨ ¬ (s.atTime t).tablesRun = true) : firing n kind s t f = .next (s.atTime t) := by
  simp only [firing, if_pos hn]
  split
  · next a ha => rw [if_neg (h.resolve_left (by simp [ha]))]
  · rfl

/-- A firing that is due is taken, and its action made, where the tables run. -/
theorem firing_some {s : State} {n kind t : Nat} {f : State → ArmedFiring → State} {a : ArmedFiring} (hn : n < 1024)
    (h : (s.atTime t).dueFiring n kind = some a) (hp : (s.atTime t).tablesRun = true) :
    firing n kind s t f = done s (f ((s.atTime t).takeFiring a) a) := by
  simp only [firing, if_pos hn, h, if_pos hp]

/-- Settles O53: the key by which the armed firings are taken orders them as the rule does. -/
theorem firingsAtOneInstantKeepTheirOrder : Obligations.FiringsAtOneInstantKeepTheirOrder := by
  intro s t n a
  refine ⟨by decide, fun hn hlt hw => ?_, fun ha hlt ht hf hu => dueFiring_of_first ha hlt ht hf hu⟩
  have none_due (k : Nat) : (s.atTime t).dueFiring n k = none :=
    dueFiring_none (by rwa [table_atTime]) (by rwa [table_atTime]) k
  rw [exec_modeChange, exec_icvWindow, exec_sampleStrobe, exec_sarSequence, exec_soundingStep, exec_graphCycle, exec_triggerOut]
  exact ⟨firing_idle hn (.inl (none_due 6)), firing_idle hn (.inl (none_due 3)), firing_idle hn (.inl (none_due 1)),
    firing_idle hn (.inl (none_due 2)), firing_idle hn (.inl (none_due 4)), firing_idle hn (.inl (none_due 5)),
    firing_idle hn (.inl (none_due 7))⟩

/-! ### Entries rewritten (02 R73) -/

/-- The state with other entries in its tide table, the armed firings as they stand. -/
def State.withEntries (s : State) (es : Table TideEntry) : State := { s with table := { s.table with entries := es } }

theorem withEntries_ite (c : Prop) [Decidable c] (a b : State) (es : Table TideEntry) :
    (if c then a else b).withEntries es = if c then a.withEntries es else b.withEntries es :=
  apply_ite (State.withEntries · es) c a b
theorem setEntry_eq_withEntries (s : State) (n : Nat) (e : TideEntry) :
    s.setEntry n e = s.withEntries (tset s.table.entries n e) := rfl

theorem atTime_withEntries (s : State) (es : Table TideEntry) (t : Nat) :
    (s.withEntries es).atTime t = (s.atTime t).withEntries es := by
  unfold State.atTime
  rw [withEntries_ite]
  rfl

/-- The firing that is due depends on the armed firings alone. -/
theorem dueFiring_withEntries (s : State) (es : Table TideEntry) (n k : Nat) :
    (s.withEntries es).dueFiring n k = s.dueFiring n k := rfl

theorem takeFiring_withEntries (s : State) (es : Table TideEntry) (a : ArmedFiring) :
    ∃ fs, (s.withEntries es).takeFiring a = (s.takeFiring a).withEntries fs := by
  unfold State.takeFiring
  dsimp only
  split
  · exact ⟨_, rfl⟩
  · exact ⟨es, rfl⟩

theorem clearOf_withEntries (s : State) (es : Table TideEntry) (k h : Nat) :
    (s.withEntries es).clearOf k h = s.clearOf k h := rfl
theorem holdFrom_withEntries (s : State) (es : Table TideEntry) (c : Conversion) (h : Nat) :
    (s.withEntries es).holdFrom c h = s.holdFrom c h := rfl

theorem startNext_withEntries (s : State) (es : Table TideEntry) (k at_ : Nat) :
    (s.withEntries es).startNext k at_ = (s.startNext k at_).withEntries es := by
  have hc : (s.withEntries es).conv k = s.conv k := rfl
  have hs (v : Converter) : (s.withEntries es).setConv k v = (s.setConv k v).withEntries es := rfl
  unfold State.startNext
  simp only [hc, hs, clearOf_withEntries, holdFrom_withEntries]
  split
  · rfl
  · split
    · rfl
    · split
      · rw [withEntries_ite]
      · rfl

theorem startTable_withEntries (s : State) (es : Table TideEntry) (k table : Nat) (b : Bool) (at_ : Nat) :
    (s.withEntries es).startTable k table b at_ = (s.startTable k table b at_).withEntries es := by
  have hc : (s.withEntries es).conv k = s.conv k := rfl
  have hs (v : Converter) : (s.withEntries es).setConv k v = (s.setConv k v).withEntries es := rfl
  unfold State.startTable
  simp only [hc, hs, startNext_withEntries]
  split
  · rfl
  · split
    · split <;> rfl
    · split <;> rfl

/-- A firing whose action reads no entry does the same whatever the entries hold. -/
theorem firing_withEntries {s : State} {n kind t : Nat} {f : State → ArmedFiring → State} (hn : n < 1024) (es : Table TideEntry)
    (hf : ∀ z fs a, f (z.withEntries fs) a = (f z a).withEntries fs) :
    ∃ u v, firing n kind s t f = .next u ∧ firing n kind (s.withEntries es) t f = .next v ∧
      v.tsout = u.tsout ∧ v.ana = u.ana ∧ v.table.armed = u.table.armed := by
  have ht : (s.withEntries es).atTime t = (s.atTime t).withEntries es := atTime_withEntries s es t
  have hd : ((s.withEntries es).atTime t).dueFiring n kind = (s.atTime t).dueFiring n kind := by rw [ht, dueFiring_withEntries]
  have hr : ((s.withEntries es).atTime t).tablesRun = (s.atTime t).tablesRun := by rw [ht]; rfl
  by_cases h : (s.atTime t).dueFiring n kind = none ∨ ¬ (s.atTime t).tablesRun = true
  · refine ⟨_, _, firing_idle hn h, firing_idle hn (by rwa [hd, hr]), ?_, ?_, ?_⟩ <;> rw [ht] <;> rfl
  · obtain ⟨hdue, hruns⟩ := not_or.1 h
    obtain ⟨a, ha⟩ := Option.ne_none_iff_exists'.1 hdue
    have hp : (s.atTime t).tablesRun = true := not_not.1 hruns
    obtain ⟨fs, hfs⟩ := takeFiring_withEntries (s.atTime t) es a
    have hu := settle_settled s (f ((s.atTime t).takeFiring a) a)
    have hv := settle_settled (s.withEntries es) ((f ((s.atTime t).takeFiring a) a).withEntries fs)
    refine ⟨_, _, firing_some hn ha hp, (firing_some hn (hd.trans ha) (hr.trans hp)).trans (by rw [ht, hfs, hf]; rfl), ?_, ?_, ?_⟩
    · rw [hu.tsout, hv.tsout]; rfl
    · rw [hu.ana, hv.ana]; rfl
    · rw [hu.table, hv.table]; rfl

/-! ### Armings (02 R69, R71) -/

/-- An arming adds at most its own firing, with the contents that the entry holds. -/
theorem armed_armFiring {s : State} {n k pos t0 : Nat} {a : ArmedFiring} (h : a ∈ (armFiring n k pos t0 s).table.armed)
    (hs : a ∉ s.table.armed) : a.entry = n ∧ a.content = s.entry n := by
  unfold armFiring at h
  dsimp only at h
  split at h
  · exact absurd h hs
  · obtain h | h := List.mem_append.1 h
    · exact absurd h hs
    · rw [List.mem_singleton.1 h]
      exact ⟨rfl, rfl⟩

theorem armed_tideFiringArmed {s u : State} {n k pos t : Nat} (h : exec (.tideFiringArmed t n k pos) s = .next u) {a : ArmedFiring}
    (ha : a ∈ u.table.armed) (hs : a ∉ s.table.armed) : a.entry = n ∧ a.content = s.entry n := by
  rw [exec_tideFiringArmed, execTideFiringArmed, wheneverOn, whenever] at h
  have he : (s.atTime t).entry n = s.entry n := by unfold State.entry; rw [table_atTime]
  split_ifs at h
  · cases h
    rw [(settle_settled _ _).table] at ha
    rw [← he]
    exact armed_armFiring ha (by rwa [table_atTime])
  · cases h
    exact absurd (by rwa [table_atTime] at ha) hs

/-! ### TIDE.ENTRY_SET (02 R73) -/

/-- What TIDE.ENTRY_SET leaves: the entry written and, where it is an enabled TRIGGER_OUT, its output given to the table; or, where a
check refuses it, the state as it was. -/
theorem entrySetDo_state (n : Nat) (w : BitVec 256) (s : State) :
    (entrySetDo n w s).status.isSome ∧ ((entrySetDo n w s).state = s ∨ ∃ f, (entrySetDo n w s).state =
      if (entryOf w).kind == 7 && (entryOf w).enable then (s.writeEntry n (entryOf w)).updTsOut (entryOf w).arg0 f
      else s.writeEntry n (entryOf w)) := by
  unfold entrySetDo
  extract_lets e s1
  obtain hc | ⟨st, hc⟩ := checked_eq s _ _
  · rw [hc]
    exact ⟨rfl, .inr ⟨_, rfl⟩⟩
  · rw [hc]
    exact ⟨rfl, .inl rfl⟩

theorem changes_entrySetDo (n : Nat) (w : BitVec 256) (s : State) : Changes [.table, .tsout] s (entrySetDo n w s).state := by
  have hw : Changes [.table, .tsout] s (s.writeEntry n (entryOf w)) := (changes_writeEntry s n _).mono (by decide)
  obtain hs | ⟨f, hs⟩ := (entrySetDo_state n w s).2
  · rw [hs]
    exact Changes.refl _ s
  · rw [hs]
    split
    · exact hw.trans ((changes_tsout _ _).mono (by decide))
    · exact hw

/-- The command keeps every armed firing, with all but the mark that its entry still speaks of it. -/
theorem armed_entrySetDo {s : State} {a : ArmedFiring} (n : Nat) (w : BitVec 256) (h : a ∈ s.table.armed) :
    ∃ c, { a with current := c } ∈ (entrySetDo n w s).state.table.armed := by
  obtain hs | ⟨f, hs⟩ := (entrySetDo_state n w s).2
  · exact ⟨a.current, by rw [hs]; exact h⟩
  · refine ⟨a.current && a.entry != n, ?_⟩
    have hw := armed_writeEntry n (entryOf w) h
    rw [hs]
    split
    · exact hw
    · exact hw

theorem armed_tideEntrySet {s u : State} {src : Source} {n : Nat} {w : BitVec 256} (hr : Taken s src 0x0402)
    (hu : exec (.tideEntrySet src n w) s = .next u) {a : ArmedFiring} (ha : a ∈ s.table.armed) :
    ∃ c, { a with current := c } ∈ u.table.armed := by
  rw [exec_tideEntrySet, execTideEntrySet] at hu
  have hz := changes_entrySetDo n w s
  have hmbox : (entrySetDo n w s).state.mbox = s.mbox := hz .mbox (by decide)
  have hclock : (entrySetDo n w s).state.clock = s.clock := hz .clock (by decide)
  obtain ⟨st, hst⟩ := Option.isSome_iff_exists.1 (entrySetDo_state n w s).1
  obtain ⟨v, hv, -, henv⟩ := runCommand_ends (h := entrySetDo n w) (z := (entrySetDo n w s).state) (st := st) hr
    (by rw [runs_outside _ (not_beached_of_taken hr (by decide)), ← hst]) (by rw [hmbox]) (by rw [hmbox]) (by rw [hclock])
  cases hv.symm.trans hu
  have htable : u.table = (entrySetDo n w s).state.table := henv.rest .table (by cases src.path <;> decide)
  rw [htable]
  exact armed_entrySetDo n w ha

/-! ### The actions of the user entries (02 R66, R75) -/

/-- TRIGGER_OUT raises its output where the output is the table's. -/
def triggerOutDo (z : State) (a : ArmedFiring) : State :=
  if (z.tsOut a.content.arg0).byTable then z.updTsOut a.content.arg0 fun o => pulse o a.t0 a.content.arg1 else z
/-- SAR_SEQUENCE starts a table of its converter. -/
def sarSequenceDo (z : State) (a : ArmedFiring) : State := z.startTable a.content.arg0 a.content.arg1 true a.t0

theorem exec_triggerOut_eq (s : State) (t n : Nat) : exec (.triggerOut t n) s = firing n 7 s t triggerOutDo := rfl
theorem exec_sarSequence_eq (s : State) (t n : Nat) : exec (.sarSequence t n) s = firing n 2 s t sarSequenceDo := rfl

theorem triggerOutDo_withEntries (z : State) (es : Table TideEntry) (a : ArmedFiring) :
    triggerOutDo (z.withEntries es) a = (triggerOutDo z a).withEntries es := by
  unfold triggerOutDo
  rw [withEntries_ite]
  rfl
theorem sarSequenceDo_withEntries (z : State) (es : Table TideEntry) (a : ArmedFiring) :
    sarSequenceDo (z.withEntries es) a = (sarSequenceDo z a).withEntries es := startTable_withEntries z es _ _ _ _

/-- Settles O54: a firing carries the contents it was armed with, and no action of it reads its entry. -/
theorem aWriteLeavesAnArmedFiringItsOldContents : Obligations.AWriteLeavesAnArmedFiringItsOldContents := by
  intro s u src n t k pos w e
  refine ⟨fun hr hu a ha => ?_, fun hn => ?_, fun hn => ?_, fun hu a ha hs => armed_tideFiringArmed hu ha hs⟩
  · obtain ⟨c, hc⟩ := armed_tideEntrySet hr hu ha
    exact ⟨_, hc, rfl, rfl, rfl, rfl, rfl⟩
  · simp only [exec_triggerOut_eq, setEntry_eq_withEntries]
    obtain ⟨u, v, hu, hv, hout, -, harmed⟩ := firing_withEntries (s := s) (t := t) (kind := 7) hn _ triggerOutDo_withEntries
    exact ⟨u, v, hu, hv, hout, harmed⟩
  · simp only [exec_sarSequence_eq, setEntry_eq_withEntries]
    obtain ⟨u, v, hu, hv, -, hana, harmed⟩ := firing_withEntries (s := s) (t := t) (kind := 2) hn _ sarSequenceDo_withEntries
    exact ⟨u, v, hu, hv, hana, harmed⟩

end Sys2Proof.Machine
end

