-- ==== Sys2Proof/Proofs/TimeCommands.lean ====
section
/-! PROOF. The TIME, TIDE and LIGHTHOUSE commands (O8): each passes its checks with operands in range, and is answered on the state
that its handler leaves. -/

namespace Sys2Proof.Machine

open Sys2Proof
set_option Elab.async false

/-! ### TIME (02 R46, R49, R74 to R76) -/

theorem servoParamsOk_iff (p : ServoParams) : servoParamsOk p = true ↔
    p.kp < 2 ^ 32 ∧ p.ki < 2 ^ 32 ∧ (1000 ≤ p.outlier ∧ p.outlier ≤ 1000000) ∧ (10 ≤ p.lockNs ∧ p.lockNs ≤ 10000) ∧
      (1000 ≤ p.stepNs ∧ p.stepNs ≤ 1000000000) ∧ (-32768 ≤ p.asymA ∧ p.asymA ≤ 32767) ∧ (-32768 ≤ p.asymB ∧ p.asymB ≤ 32767) := by
  simp only [servoParamsOk, within, withinI, Bool.and_eq_true, decide_eq_true_eq, and_assoc]

theorem timeServoSet_taken {s : State} {src : Source} {p : ServoParams} (hr : Taken s src 0x0302) (hp : servoParamsOk p = true) :
    ∃ u, exec (.timeServoSet src p) s = .next u ∧ ServoTaken s u src p := by
  rw [exec_timeServoSet, execTimeServoSet]
  obtain ⟨u, hu, ha⟩ := taken_ok (h := servoSetDo p) hr (by decide) (checked_of_all _ (by simpa using hp)) rfl rfl
  refine ⟨u, hu, _, ha, rfl, ?_, ?_, ?_⟩
  · rw [State.updPtpPort_eq _ 1, State.ptpPort_setPtpPort_ne _ _ (by decide), State.updPtpPort_eq, State.ptpPort_setPtpPort_same]
    rfl
  · rw [State.updPtpPort_eq _ 1, State.ptpPort_setPtpPort_same, State.updPtpPort_eq, State.ptpPort_setPtpPort_ne _ _ (by decide)]
    rfl
  · exact ((changes_servo s _).mono (by decide)).trans ((changes_ptp _ _).mono (by decide))

/-- A start time not past is the first pulse. -/
theorem firstPulse_of_le {now start : Nat} (period : Nat) (h : now ≤ start) : firstPulse now start period = start := if_pos h

theorem timeTriggerSet_time {s : State} {src : Source} {o start period width : Nat} (hr : Taken s src 0x0303) (ho : o < 4)
    (hp : within 1000 (10 ^ 12) period = true) (hw : within 8 1000000 width = true) (hst : start < 2 ^ 64) (hnow : s.now ≤ start) :
    ∃ u, exec (.timeTriggerSet src o .time start period width) s = .next u ∧ Answered s u src 0x0303 [] (s.setTsOut o { s.tsOut o with
      mode := .time, byTable := false, start := start, period := period, width := width, nextAt := some start }) := by
  rw [exec_timeTriggerSet, execTimeTriggerSet]
  refine taken_ok hr (by decide) ?_ rfl rfl
  unfold triggerSetDo
  rw [checked_of_all _ (by simp [-Nat.reducePow, ho, hp, hw, hst]),
    firstPulse_of_le period hnow]
  rfl

theorem timeCaptureRead_oldest {s : State} {src : Source} {i n : Nat} (hr : Taken s src 0x0304) (hi : i < 4)
    (hn : within 1 16 n = true) : ∃ u, exec (.timeCaptureRead src i n) s = .next u ∧ ∃ p z, Answered s u src 0x0304 p z ∧
      p = f2 (min n (s.tsIn i).queue.length) :: ((s.tsIn i).queue.take n).map (fun c => .struct (captureBytes c)) ++
        [f8 (s.tsIn i).dropped] ∧
      (z.tsIn i).queue = (s.tsIn i).queue.drop n ∧ (z.tsIn i).dropped = 0 ∧ Only State.tsIn i [.tsin] s z := by
  have takeMin : (s.tsIn i).queue.take (min n (s.tsIn i).queue.length) = (s.tsIn i).queue.take n := List.take_eq_take_iff.2 (by simp)
  have dropMin : (s.tsIn i).queue.drop (min n (s.tsIn i).queue.length) = (s.tsIn i).queue.drop n := List.drop_eq_drop_iff.2 (by simp)
  rw [exec_timeCaptureRead, execTimeCaptureRead]
  obtain ⟨u, hu, ha⟩ := taken_ok (h := captureReadDo i n) hr (by decide) (checked_of_all _ (by simp [hi, hn])) rfl rfl
  refine ⟨u, hu, _, _, ha, by rw [takeMin], ?_, ?_, fun j hj => State.tsIn_setTsIn_ne s _ hj, changes_tsin s _⟩
  · rw [ok, State.tsIn_setTsIn_same, dropMin]
  · rw [ok, State.tsIn_setTsIn_same]

/-! ### TIDE (02 R66, R67, R73) -/

theorem tideEntrySet_disabledTrigger {s : State} {src : Source} {n : Nat} {w : BitVec 256} (hr : Taken s src 0x0402)
    (hn : 768 ≤ n ∧ n < 1024) (hw : entryReserved w = true) (hk : (entryOf w).kind = 7) (he : (entryOf w).enable = false)
    (hs : entryShape (entryOf w) = true) (ho : (entryOf w).arg0 < 4) (hwidth : within 8 1000000 (entryOf w).arg1 = true)
    (hd : tooDense (s.userEntries n (entryOf w)) = false) :
    ∃ u, exec (.tideEntrySet src n w) s = .next u ∧ ∃ z, Answered s u src 0x0402 [] z ∧
      z.entry n = { entryOf w with expired := false, late := false, fired := false, missed := 0, fireCount := 0 } ∧
      Only State.entry n [.table] s z := by
  have kindOk : within 1 7 7 = true := by decide
  have done : entrySetDo n w s = ok (s.writeEntry n (entryOf w)) := by
    unfold entrySetDo
    extract_lets e s1
    rw [checked_of_all _ (by simp [e, hn, hw, hk, hs, ho, hwidth, hd, kindOk]), if_neg (by simp [e, he])]
  rw [exec_tideEntrySet, execTideEntrySet]
  rw [writeEntry_disabled s n _ he] at done
  obtain ⟨u, hu, ha⟩ := taken_ok hr (by decide) done rfl rfl
  exact ⟨u, hu, _, ha, tget_tset_same _ _ _ _, fun j hj => tget_tset_ne _ _ _ hj, changes_table s _⟩

theorem tideEntryRead_word {s : State} {src : Source} {n : Nat} (hr : Taken s src 0x0403) (hn : n < 1024) :
    ∃ u, exec (.tideEntryRead src n) s = .next u ∧ Answered s u src 0x0403 [.struct (leBytes 32 (entryWord (s.entry n)))] s := by
  rw [exec_tideEntryRead, execTideEntryRead]
  exact taken_ok hr (by decide) (checked_of_all _ (by simp [hn])) rfl rfl

/-! ### LIGHTHOUSE (02 R52) -/

theorem lighthouseConfig_staged {s : State} {src : Source} {c : LhConfig} (hr : Taken s src 0x0501) (hl : c.lane < 8)
    (hz : c.nominalHz = 50 ∨ c.nominalHz = 60) (ho : withinI (-32768) 32767 c.angleOffset = true)
    (hb : within 1 20 c.bandwidth = true) (hv : c.nominalMv < 2 ^ 31) (hlane : (s.lane c.lane).cfg = none)
    (hrole : s.activeOf 4 = none) :
    ∃ u, exec (.lighthouseConfig src c) s = .next u ∧ Answered s u src 0x0501 [] { s with lh := { s.lh with staged := some c } } := by
  rw [exec_lighthouseConfig, execLighthouseConfig]
  exact taken_ok hr (by decide) (checked_of_all _ (by simpa [hl, hz, ho, hb, hlane, hrole] using hv)) rfl rfl

/-- Settles O8: one lemma for each command, of which the two STATUS commands share theirs. -/
theorem timeAndTideCommandsComplete : Obligations.TimeAndTideCommandsComplete := by
  intro s z src p o start period width i n w c
  refine ⟨?_, ?_, ?_, ?_, ?_, ?_, fun hr hn => tideEntryRead_word hr hn, ?_⟩
  · rintro hr rfl
    rw [exec_timeStatus, execTimeStatus]
    exact status_ok timeStatusFields hr
  · intro hr hkp hki o1 o2 l1 l2 s1 s2 a1 a2 b1 b2
    exact timeServoSet_taken hr ((servoParamsOk_iff p).2 ⟨hkp, hki, ⟨o1, o2⟩, ⟨l1, l2⟩, ⟨s1, s2⟩, ⟨a1, a2⟩, b1, b2⟩)
  · intro hr ho p1 p2 w1 w2 hst hnow
    exact timeTriggerSet_time hr ho (decide_eq_true ⟨p1, p2⟩) (decide_eq_true ⟨w1, w2⟩) hst hnow
  · intro hr hi h1 hn
    exact timeCaptureRead_oldest hr hi (decide_eq_true ⟨h1, hn⟩)
  · rintro hr rfl
    rw [exec_tideStatus, execTideStatus]
    exact status_ok tideStatusFields hr
  · intro hr h1 hn hw hk he hs ho w1 w2 hd
    exact tideEntrySet_disabledTrigger hr ⟨h1, hn⟩ hw hk (by simpa using he) hs ho (decide_eq_true ⟨w1, w2⟩) (by simpa using hd)
  · intro hr hl hz o1 o2 b1 b2 hv hlane hrole
    exact lighthouseConfig_staged hr hl hz (decide_eq_true ⟨o1, o2⟩) (decide_eq_true ⟨b1, b2⟩) hv hlane hrole

end Sys2Proof.Machine
end

