-- ==== Sys2Proof/Proofs/Servo.lean ====
section
/-! PROOF. PTP messages and the transitions of the servo (O9): what each operation leaves in the ports and the servo, and then each
event. -/

namespace Sys2Proof.Machine

open Sys2Proof
set_option Elab.async false

/-! ### The clock's time and the ports -/

theorem ptpPort_atTime (s : State) (t k : Nat) : (s.atTime t).ptpPort k = s.ptpPort k := by
  unfold State.ptpPort
  rw [ptp_atTime]

/-! ### The servo (02 R50) -/

theorem changes_toHoldover (s : State) : Changes [.clock, .servo] s s.toHoldover :=
  ((changes_servo s _).mono (by decide)).trans ((changes_clock _ _).mono (by decide))

theorem changes_holdoverEnds (s : State) : Changes [.clock, .servo] s s.holdoverEnds := by
  unfold State.holdoverEnds
  dsimp only
  split
  · exact (changes_servo s _).mono (by decide)
  · exact Changes.refl _ s

theorem changes_followMaster (s : State) (changed : Bool) : Changes [.clock, .servo] s (s.followMaster changed) := by
  unfold State.followMaster
  extract_lets src moved v s1 slave
  have h1 : Changes [.clock, .servo] s s1 := (changes_servo s _).mono (by decide)
  refine Changes.trans ?_ (changes_holdoverEnds _)
  split
  · split
    · exact h1.trans (changes_toHoldover s1)
    · exact h1
  · split
    · exact h1.trans (changes_toHoldover s1)
    · exact h1
  · exact h1

theorem ptpPort_followMaster (s : State) (changed : Bool) (k : Nat) : (s.followMaster changed).ptpPort k = s.ptpPort k := by
  have h : (s.followMaster changed).ptp = s.ptp := changes_followMaster s changed .ptp (by decide)
  unfold State.ptpPort
  rw [h]

/-- Only HOLDOVER ends. -/
theorem holdoverEnds_of_ne {s : State} (h : s.servo.state ≠ .holdover) : s.holdoverEnds = s := by
  unfold State.holdoverEnds
  simp [h]

/-- HOLDOVER goes on while the source LAN lacks 4 path delays. -/
theorem holdoverEnds_of_delays {s : State} (h : (s.ptpPort (lanIx s.servo.source)).delays.length < 4) : s.holdoverEnds = s := by
  unfold State.holdoverEnds
  simp [h]

/-! ### Sync (02 R48, R51) -/

theorem changes_pairOffsets (s : State) : Changes [.ptp, .servo] s s.pairOffsets := by
  unfold State.pairOffsets
  dsimp only
  split
  · exact ((changes_ptp s _).mono (by decide)).trans ((changes_servo _ _).mono (by decide))
  · exact Changes.refl _ s

/-- Comparing a pair marks both offsets as used and leaves the rest of the ports. -/
theorem ptpPort_pairOffsets (s : State) (k : Nat) : ∃ b, s.pairOffsets.ptpPort k = { s.ptpPort k with offsetFresh := b } := by
  unfold State.pairOffsets
  dsimp only
  split
  · by_cases h1 : k = 1
    · subst h1
      exact ⟨false, State.ptpPort_setPtpPort_same _ _ _⟩
    · refine (Exists.imp fun _ => (State.ptpPort_setPtpPort_ne _ _ h1).trans) ?_
      by_cases h0 : k = 0
      · subst h0
        exact ⟨false, State.ptpPort_setPtpPort_same _ _ _⟩
      · exact ⟨_, State.ptpPort_setPtpPort_ne _ _ h0⟩
  · exact ⟨_, rfl⟩

/-- A Sync of the LAN that the servo does not follow: its offset is kept for the pair, and no sample is taken. -/
theorem syncDo_other {l : Lan} (m : SyncMsg) {z : State} (hl : l ≠ z.servo.source) :
    ((syncDo l m z).ptpPort (lanIx l)).lastOffset = syncOffset (z.ptpPort (lanIx l)) m ∧
      ((syncDo l m z).ptpPort (lanIx l)).lastSyncAt = some z.now ∧ Changes [.ptp, .servo] z (syncDo l m z) := by
  unfold syncDo
  extract_lets p o both s1 s2
  have h1 : Changes [.ptp, .servo] z s1 := (changes_ptp z _).mono (by decide)
  have hp : s1.ptpPort (lanIx l) = _ := State.ptpPort_setPtpPort_same z (lanIx l) _
  rw [if_neg (by simp [hl])]
  by_cases hb : both = true
  · obtain ⟨b, hq⟩ := ptpPort_pairOffsets s1 (lanIx l)
    rw [show s2 = s1.pairOffsets from if_pos hb, hq, hp]
    exact ⟨rfl, rfl, h1.trans (changes_pairOffsets s1)⟩
  · rw [show s2 = s1 from if_neg hb, hp]
    exact ⟨rfl, rfl, h1⟩

theorem ptpSync_other {s z : State} {t : Nat} {l : Lan} {m : SyncMsg} (hz : z = (s.frameIn (lanIx l) t).atTime t)
    (hd : m.domain = z.servo.domain) (hi : withinI (-7) 0 m.logInterval = true) (hs : (z.ptpPort (lanIx l)).state = .slave)
    (hl : l ≠ z.servo.source) : ∃ u, exec (.ptpSync t l m) s = .next u ∧
      (u.ptpPort (lanIx l)).lastOffset = syncOffset (z.ptpPort (lanIx l)) m ∧ (u.ptpPort (lanIx l)).lastSyncAt = some z.now ∧
      Moves [.ptp, .servo] z u := by
  subst hz
  obtain ⟨ho, ha, hc⟩ := syncDo_other m hl
  rw [exec_ptpSync, execPtpSync]
  refine when_imp (by simp [hd, hi, hs]) fun u hu => ?_
  rw [hu.ptpPort]
  exact ⟨ho, ha, (hc.moves (by decide)).trans (hu.moves _)⟩

/-! ### Announce (02 R44, R45) -/

/-- The first Announce that a slave-only port hears makes its sender the master. -/
theorem announceDo_first {l : Lan} (a : Announce) {z : State} (hb : (z.ptpPort (lanIx l)).best = none)
    (hp : (z.ptpPort (lanIx l)).priority1 = 255) :
    ((announceDo l a z).ptpPort (lanIx l)).best = some a ∧ ((announceDo l a z).ptpPort (lanIx l)).state = .slave ∧
      ((announceDo l a z).ptpPort (lanIx l)).announceAt = some z.now ∧ Moves [.ptp, .servo] z (announceDo l a z) := by
  unfold announceDo
  simp only [hb, hp, Bool.not_true, Bool.false_eq_true, if_false, bne_self_eq_false, Bool.false_and, ptpPort_followMaster,
    State.ptpPort_setPtpPort_same, true_and]
  exact ((changes_ptp z _).moves (by decide)).trans ((changes_followMaster _ _).moves (by decide))

theorem ptpAnnounce_first {s z : State} {t : Nat} {l : Lan} {a : Announce} (hz : z = (s.frameIn (lanIx l) t).atTime t)
    (hd : a.domain = z.servo.domain) (hi : a.identity ≠ z.net.serial) (hr : z.power.state ≠ .bareRock)
    (hb : (z.ptpPort (lanIx l)).best = none) (hp : (z.ptpPort (lanIx l)).priority1 = 255) :
    ∃ u, exec (.ptpAnnounce t l a) s = .next u ∧ (u.ptpPort (lanIx l)).best = some a ∧ (u.ptpPort (lanIx l)).state = .slave ∧
      (u.ptpPort (lanIx l)).announceAt = some z.now ∧ Moves [.ptp, .servo] z u := by
  subst hz
  obtain ⟨hbest, hstate, hat, hm⟩ := announceDo_first a hb hp
  rw [exec_ptpAnnounce, execPtpAnnounce]
  refine when_imp (by rw [hd, beq_self_eq_true, bne_iff_ne.2 hi, bne_iff_ne.2 hr]; rfl) fun u hu => ?_
  rw [hu.ptpPort]
  exact ⟨hbest, hstate, hat, hm.trans (hu.moves _)⟩

/-! ### Delay_Resp and Delay_Req (02 R46, R48) -/

theorem delayRespDo_of_ne {l : Lan} (m : DelayResp) (t3 : Nat) {z : State} (h : z.servo.state ≠ .holdover) :
    delayRespDo l m t3 z = z.setPtpPort (lanIx l) { z.ptpPort (lanIx l) with
      delays := ((((z.ptpPort (lanIx l)).lastSyncT2 - (z.ptpPort (lanIx l)).lastSyncT1) + ((m.t4 : Int) - t3 - m.correction)).fdiv 2
        :: (z.ptpPort (lanIx l)).delays).take 16
      delayReqAt := none, logMinDelayReq := m.logMinDelayReq } := holdoverEnds_of_ne h

theorem ptpDelayResp_taken {s z : State} {t t3 : Nat} {l : Lan} {m : DelayResp} (hz : z = (s.frameIn (lanIx l) t).atTime t)
    (h3 : (z.ptpPort (lanIx l)).delayReqAt = some t3) (hq : (z.ptpPort (lanIx l)).delayReqSeq = m.seq)
    (hs : (z.ptpPort (lanIx l)).lastSyncAt.isSome = true) (hv : z.servo.state ≠ .holdover) :
    ∃ u, exec (.ptpDelayResp t l m) s = .next u ∧ DelayTaken u z l m t3 := by
  subst hz
  rw [exec_ptpDelayResp, execPtpDelayResp]
  refine when_imp (by simp [h3, hq, hs]) fun u hu => ?_
  simp only [h3, Option.getD_some, delayRespDo_of_ne m t3 hv] at hu
  rw [DelayTaken, hu.ptpPort, State.ptpPort_setPtpPort_same]
  exact ⟨rfl, rfl, ((changes_ptp _ _).moves (by decide)).trans (hu.moves _)⟩

theorem delayReqSend_slave {s : State} {t : Nat} {l : Lan} (hs : (s.ptpPort (lanIx l)).state = .slave)
    (hd : dueAgain (s.ptpPort (lanIx l)).delayReqLast (s.ptpPort (lanIx l)).logMinDelayReq (s.nowAt t) = true)
    (hr : s.power.state ≠ .bareRock) : ∃ u, exec (.delayReqSend t l) s = .next u ∧
      u.out = .delayReq l (((s.ptpPort (lanIx l)).delayReqSeq + 1) % 65536) :: s.out ∧
      (u.ptpPort (lanIx l)).delayReqAt = some (s.nowAt t) ∧ Moves [.ptp, .out] s u := by
  rw [exec_delayReqSend, execDelayReqSend]
  refine when_imp (by simp [ptpPort_atTime, hs, hd, hr]) fun u hu => ⟨?_, ?_, ?_⟩
  · rw [hu.out, ← out_atTime s t, ← ptpPort_atTime s t]
    rfl
  · rw [hu.ptpPort]
    exact congrArg PtpPort.delayReqAt (State.ptpPort_setPtpPort_same _ _ _)
  · exact hu.moves_from (((changes_ptp _ _).moves (by decide)).trans ((changes_emit _ _).moves (by decide)))

theorem delayReq_answered {s z : State} {t q p : Nat} {l : Lan} (hz : z = (s.frameIn (lanIx l) t).atTime t)
    (hs : (z.ptpPort (lanIx l)).state = .master) :
    ∃ u, exec (.delayReq t l q p) s = .next u ∧ u.out = .delayResp l q p z.now :: z.out ∧ Moves [.out] z u := by
  subst hz
  rw [exec_delayReq, execDelayReq]
  exact when_imp (by simp [hs]) fun u hu => ⟨hu.out, ((changes_emit _ _).moves (by decide)).trans (hu.moves _)⟩

/-! ### A master's Sync and Announce (02 R44, R47) -/

theorem ptpSyncSend_master {s : State} {t : Nat} {l : Lan} (hs : (s.ptpPort (lanIx l)).state = .master)
    (hd : dueAgain (s.ptpPort (lanIx l)).syncSentAt masterLogSync (s.nowAt t) = true) (hr : s.power.state ≠ .bareRock) :
    ∃ u, exec (.ptpSyncSend t l true) s = .next u ∧ u.out = .ptpSync l (s.ptpPort (lanIx l)).syncSeq (s.nowAt t) :: s.out ∧
      (u.ptpPort (lanIx l)).syncSeq = ((s.ptpPort (lanIx l)).syncSeq + 1) % 65536 ∧ Moves [.ptp, .out] s u := by
  rw [exec_ptpSyncSend, execPtpSyncSend]
  refine when_imp (by simp [ptpPort_atTime, hs, hd, hr]) fun u hu => ⟨?_, ?_, ?_⟩
  · rw [hu.out, ← out_atTime s t, ← ptpPort_atTime s t]
    rfl
  · rw [hu.ptpPort, ← ptpPort_atTime s t]
    exact congrArg PtpPort.syncSeq (State.ptpPort_setPtpPort_same _ _ _)
  · exact hu.moves_from (((changes_ptp _ _).moves (by decide)).trans ((changes_emit _ _).moves (by decide)))

theorem ownClock_atTime (s : State) (t l : Nat) : (s.atTime t).ownClock l = s.ownClock l := by
  unfold State.ownClock
  rw [ptpPort_atTime, net_atTime, servo_atTime]

theorem ptpAnnounceSend_master {s : State} {t : Nat} {l : Lan} (hs : (s.ptpPort (lanIx l)).state = .master)
    (hd : dueAgain (s.ptpPort (lanIx l)).announceSentAt masterLogAnnounce (s.nowAt t) = true) (hr : s.power.state ≠ .bareRock) :
    ∃ u, exec (.ptpAnnounceSend t l) s = .next u ∧ u.out = .ptpAnnounce l (s.ownClock (lanIx l)) :: s.out ∧
      Moves [.ptp, .out] s u := by
  rw [exec_ptpAnnounceSend, execPtpAnnounceSend]
  refine when_imp (by simp [ptpPort_atTime, hs, hd, hr]) fun u hu => ⟨?_, ?_⟩
  · rw [hu.out, ← out_atTime s t, ← ownClock_atTime s t]
    rfl
  · exact hu.moves_from (((changes_ptp _ _).moves (by decide)).trans ((changes_emit _ _).moves (by decide)))

/-! ### LOCKED, ACQUIRE and HOLDOVER (02 R50) -/

theorem servoLocked_acquire {s : State} (t : Nat) (hs : s.servo.state = .acquire) (hg : 16 ≤ s.servo.goodRun) :
    ∃ u, exec (.servoLocked t) s = .next u ∧ u.servo.state = .locked ∧ u.servo.lockedSince = some (s.nowAt t) ∧
      Moves [.servo] s u := by
  rw [exec_servoLocked, execServoLocked]
  refine when_imp (by simp [hs, hg]) fun u hu => ?_
  rw [hu.servo]
  exact ⟨rfl, rfl, hu.moves_from ((changes_servo _ _).moves (by decide))⟩

theorem servoOutliers_locked {s : State} (t : Nat) (hs : s.servo.state = .locked) (ho : 8 ≤ s.servo.outlierRun) :
    ∃ u, exec (.servoOutliers t) s = .next u ∧ u.servo.state = .acquire ∧ u.servo.accepted = [] ∧ u.clock.incr = s.clock.incr ∧
      Moves [.servo] s u := by
  have incr_atTime : (s.atTime t).clock.incr = s.clock.incr := by
    unfold State.atTime
    split <;> rfl
  rw [exec_servoOutliers, execServoOutliers]
  refine when_imp (by simp [hs, ho]) fun u hu => ?_
  rw [hu.servo, hu.clock]
  exact ⟨rfl, rfl, incr_atTime, hu.moves_from ((changes_servo _ _).moves (by decide))⟩

/-- LOCKED goes to HOLDOVER on a new source LAN, and stays there while that LAN lacks 4 path delays. -/
theorem followMaster_locked {s : State} (changed : Bool) (hs : s.servo.state = .locked) (hm : s.ptpSource ≠ s.servo.source)
    (hd : (s.ptpPort (lanIx s.ptpSource)).delays.length < 4) :
    s.followMaster changed = ({ s with servo := { s.servo with source := s.ptpSource } } : State).toHoldover := by
  unfold State.followMaster
  extract_lets src moved v s1 slave
  have hmoved : moved = true := by simpa [moved, src] using hm
  simp only [hs, hmoved, Bool.true_or, if_true]
  exact holdoverEnds_of_delays hd

/-! ### The loss of a master (02 R44, R50) -/

theorem masterLost_of_silence {s : State} {k a : Nat} (hs : (s.ptpPort k).state = .slave) (ha : (s.ptpPort k).lastSyncAt = some a)
    (he : a + 4 * pow2Sec (s.ptpPort k).logSync ≤ s.now) : s.masterLost k = true := by
  simp [State.masterLost, hs, ha, elapsedO, elapsed, he]

theorem masterLost_setPtpPort_ne (s : State) {j k : Nat} (x : PtpPort) (h : k ≠ j) :
    (s.setPtpPort j x).masterLost k = s.masterLost k := by
  unfold State.masterLost
  rw [State.ptpPort_setPtpPort_ne _ _ h]
  rfl

/-- A slave-only port as the loss of its master leaves it. -/
def PtpPort.listening (p : PtpPort) : PtpPort :=
  { p with
    state := .listening, best := none, announceAt := none, masterAt := none, lastSyncAt := none, delays := [], delayReqAt := none
    offsetFresh := false }

theorem loseMaster_slaveOnly {s : State} {k : Nat} (h : s.masterLost k = true) (hp : (s.ptpPort k).priority1 = 255) :
    s.loseMaster k = s.setPtpPort k (s.ptpPort k).listening := by
  rw [State.loseMaster, if_pos h, State.updPtpPort_eq, PtpPort.listening, hp]
  rfl

theorem loseMaster_kept {s : State} {k : Nat} (h : ¬ s.masterLost k = true) : s.loseMaster k = s := if_neg h

theorem masterLost_sourceLan {s : State} {t a : Nat} (h0 : (s.ptpPort 0).state = .slave) (ha : (s.ptpPort 0).lastSyncAt = some a)
    (he : a + 4 * pow2Sec (s.ptpPort 0).logSync ≤ s.nowAt t) (h1 : ¬ (s.atTime t).masterLost 1 = true)
    (hd : (s.ptpPort 1).delays.length < 4) (hsrc : s.servo.source = .a) (hs : s.servo.state = .locked)
    (hp : (s.ptpPort 0).priority1 = 255) : ∃ u, exec (.masterLost t) s = .next u ∧ (u.ptpPort 0).state = .listening ∧
      (u.ptpPort 0).best = none ∧ u.servo.source = .b ∧ u.servo.state = .holdover ∧ u.servo.holdoverSince = some (s.nowAt t) := by
  rw [← ptpPort_atTime s t] at h0 ha he hp
  have hlost : (s.atTime t).masterLost 0 = true := masterLost_of_silence h0 ha he
  have hports : ((s.atTime t).loseMaster 0).loseMaster 1 = (s.atTime t).setPtpPort 0 ((s.atTime t).ptpPort 0).listening := by
    rw [loseMaster_slaveOnly hlost hp]
    exact loseMaster_kept (by rwa [masterLost_setPtpPort_ne _ _ (by decide)])
  rw [exec_masterLost, execMasterLost]
  refine when_imp (by simp [hlost]) fun u hu => ?_
  generalize hz : (s.atTime t).setPtpPort 0 ((s.atTime t).ptpPort 0).listening = z at hports
  rw [hports] at hu
  have hz0 : z.ptpPort 0 = ((s.atTime t).ptpPort 0).listening := by rw [← hz, State.ptpPort_setPtpPort_same]
  have hz1 : z.ptpPort 1 = s.ptpPort 1 := by rw [← hz, State.ptpPort_setPtpPort_ne _ _ (by decide), ptpPort_atTime]
  have hservo : z.servo = s.servo := by rw [← hz, State.servo_setPtpPort, servo_atTime]
  have hnow : z.now = s.nowAt t := by rw [← hz]; rfl
  have hb : z.ptpSource = .b := by
    rw [State.ptpSource, hz0]
    rfl
  rw [followMaster_locked _ (by rw [hservo, hs]) (by rw [hb, hservo, hsrc]; decide) (by rw [hb]; exact hz1 ▸ hd)] at hu
  rw [hu.ptpPort, hu.servo]
  exact ⟨congrArg PtpPort.state hz0, congrArg PtpPort.best hz0, hb, rfl, congrArg some hnow⟩

/-! ### Pairs that differ (02 R51) -/

theorem timeDisagree_counted {s : State} (t : Nat) (h : 8 ≤ s.servo.disagreeRun) :
    ∃ u, exec (.timeDisagree t) s = .next u ∧ u.servo.disagreeRun = 0 ∧
      u.servo.disagreeCount = inc64 s.servo.disagreeCount ∧ Moves [.servo, .recorder] s u := by
  rw [exec_timeDisagree, execTimeDisagree]
  refine when_imp (by simp [h]) fun u hu => ?_
  rw [hu.servo, servo_event, ← servo_atTime s t]
  have recorded (y : State) : Moves [.servo, .recorder] y (y.event evTimeDisagree 0 0) :=
    (changes_event _ _ _ _ _ _ _ _ _ _ _ _).moves (by decide)
  exact ⟨rfl, rfl, hu.moves_from (((changes_servo _ _).moves (by decide)).trans (recorded _))⟩

/-- Settles O9: one lemma for each message and each transition. -/
theorem ptpAndServoEventsComplete : Obligations.PtpAndServoEventsComplete := by
  intro s z t t3 q p l
  refine ⟨fun m hz hd h1 h2 hs hl => ptpSync_other hz hd (decide_eq_true ⟨h1, h2⟩) hs hl,
    fun a hz hd hi hr hb hp => ptpAnnounce_first hz hd hi hr hb hp, fun m hz h3 hq hs hv => ptpDelayResp_taken hz h3 hq hs hv,
    ptpSyncSend_master, delayReqSend_slave, delayReq_answered, ptpAnnounceSend_master, servoLocked_acquire t, servoOutliers_locked t,
    ?_, timeDisagree_counted t⟩
  intro a h0 ha he _ h1 hd hsrc hs hp
  exact masterLost_sourceLan h0 ha he (by simpa using h1) hd hsrc hs hp

end Sys2Proof.Machine
end

