-- ==== Sys2Proof/Proofs/StrobeMeetsConvert.lean ====
section
/-! PROOF. A strobe that meets an urgent conversion (O11): the conversion gives way, and the ANALOG.CONVERT that waits for it is
answered, which no part that the statement lists for a strobe takes in. -/

namespace Sys2Proof.Machine

open Sys2Proof
set_option Elab.async false

/-- An urgent ANALOG.CONVERT of the string voltage of lane 0, asked for by the module at berth 9, that holds at 500 ns. -/
def urgentConvert : Conversion :=
  { input := 7, source := 5, holdAt := 500, tag := 500, timeTag := true, src := some { path := .garzet, box := 9, tag := 1 } }

/-- Lane 0 with 8 ports and 3 phases. -/
def laneOfEightPorts : LaneConfig :=
  { source := .path .service, power := false, firstPort := 0, portCount := 8, phases := 3, pwmN := 20, rampRate := 100000
    umin := 100000, umax := 900000, minOn := 500, dtH := [90, 90, 90], dtL := [90, 90, 90], stringFs := 100000, powerFs := 1000000
    phaseFs := 100000, rated := 40000, iChgMax := 30000, iDisMax := 30000, vbusMin := 600000, vbusMax := 800000, preDelta := 1000
    preTimeout := 2000, preShort := 200, iOpen := 500, iBreak := 20000, tFb := 50, tOverlap := 20, tDecay := 1000
    disarmTimeout := 1000 }

/-- A firing of the strobe entry 60 of lane 0, armed for the same 500 ns. -/
def captureFiring : ArmedFiring := { entry := 60, t0 := 500, content := { kind := 1, arg0 := 1 } }

/-- A module in FULL whose converter 1 runs that conversion as that firing falls due. -/
def strobeMeetsConvert : State :=
  ({ State.reset with
    power := { State.reset.power with state := .full }
    table := { armed := [captureFiring] }
    lanes := [(0, { cfg := some laneOfEightPorts, state := .disarmed })] }).setConv 1 { running := some urgentConvert }

/-- The estate network's part of the state that an outcome leaves. -/
def netAfter : Host.Outcome State Fault Refusal → Option Net
  | .next u => some u.net
  | _ => none

theorem captureFiring_due : (strobeMeetsConvert.atTime 600).dueFiring 60 1 = some captureFiring := by decide +kernel

/-- The strobe holds input 6 at 500 ns in the place of the conversion of input 7, whose answer goes out to berth 9. -/
theorem netAfter_sampleStrobe : netAfter (exec (.sampleStrobe 600 60) strobeMeetsConvert) ≠ some strobeMeetsConvert.net := by
  decide +kernel

/-- Refutes O11: a strobe's firing moves more than the parts of its third clause. It takes the converter from an urgent request of
another input at the same instant (04 R114), and the command that waits for that request is answered over its path: here the stream
to berth 9, a part of the estate network (04 R135; 14 R418). -/
theorem not_tideTableFiringsComplete : ¬ Obligations.TideTableFiringsComplete := by
  intro h
  obtain ⟨-, -, strobe, -⟩ := h strobeMeetsConvert 600 60 0 0 0 0 0 0 0 captureFiring {} {} false
  obtain ⟨u, hu, -, -, hmoves⟩ := strobe (by decide) (by decide) (by decide) captureFiring_due rfl
  have hnet : u.net = strobeMeetsConvert.net := hmoves .net (by decide)
  apply netAfter_sampleStrobe
  rw [hu, netAfter, hnet]

end Sys2Proof.Machine
end

