-- ==== Sys2Proof/Proofs/TapFrames.lean ====
section
/-! PROOF. The operations that leave every tap port as it was: `(f s).tap = s.tap`. They are what a trip of a lane reaches, in the order
of the model, under the name of the file that defines them. -/

namespace Sys2Proof.Machine

open Sys2Proof
set_option Elab.async false

theorem tap_ite (c : Prop) [Decidable c] (a b : State) : (if c then a else b).tap = if c then a.tap else b.tap :=
  apply_ite State.tap c a b
theorem tap_foldl {α : Type} {f : State → α → State} (h : ∀ z x, (f z x).tap = z.tap) (l : List α) (s : State) :
    (l.foldl f s).tap = s.tap := by
  induction l generalizing s with
  | nil => rfl
  | cons x r ih => exact (ih (f s x)).trans (h s x)

/-! ### Messages and answers (10 R297; 14 R402, R418) -/

/-- No path's answer touches the tap. -/
theorem tap_of_envelope {src : Source} {z u : State} (h : Envelope src z u) : u.tap = z.tap :=
  h.rest .tap (by cases src.path <;> decide)

@[simp] theorem tap_sendReliable (s : State) (peer dst : Nat) (body : GBody) (srcRole srcEpoch target tEpoch corr : Nat) (reply : Bool) :
    (s.sendReliable peer dst body srcRole srcEpoch target tEpoch corr reply).tap = s.tap :=
  tap_of_envelope (src := { path := .garzet, box := 0, tag := 0 }) (envelope_sendReliable rfl s peer dst body _ _ _ _ _ _)

@[simp] theorem tap_answer (s : State) (src : Source) (code status : Nat) (payload : List Field) :
    (s.answer src code status payload).tap = s.tap := by
  cases h : (s.box src.path src.box).resetPending with
  | false => exact tap_of_envelope (envelope_answer src s code status payload h)
  | true =>
    unfold State.answer
    dsimp only
    rw [if_pos h]
    cases src.path <;> rfl

/-! ### Signals (04 R128, R130; 08 R247) -/

@[simp] theorem tap_followSignal (s : State) (h : Nat) : (s.followSignal h).tap = s.tap := by
  have dacs (z : State) (k : Nat) (code : Option Nat) : (if (z.dac k).source == .signal h then (match code with
      | some c => z.dacValue k (z.dac k).safeRange c
      | none => if (z.dac k).safe then z else z.dacSafe k) else z).tap = z.tap := by
    split
    · split
      · rfl
      · split <;> rfl
    · rfl
  have pumps (z : State) (k : Nat) (code : Option Nat) :
      (if (z.aux k).source == .signal h then z.auxValue k code else z).tap = z.tap := by
    split <;> rfl
  exact (tap_foldl (fun z k => pumps z k _) _ _).trans (tap_foldl (fun z k => dacs z k _) _ s)
@[simp] theorem tap_moduleSignal (s : State) (h typ : Nat) (v : Option Int) : (s.moduleSignal h typ v).tap = s.tap := by
  simp [State.moduleSignal, State.publishLocal]

/-! ### TideOps -/

@[simp] theorem tap_gridRecord (s : State) (input hold : Nat) (v : Option Int) : (s.gridRecord input hold v).tap = s.tap := by
  have evaluates (vab vbc : Int) (z : State) : (lighthouseDo hold vab vbc z).tap = z.tap := by
    fun_cases lighthouseDo hold vab vbc z <;> simp +zetaDelta
  fun_cases State.gridRecord s input hold v <;> simp +zetaDelta [evaluates]
@[simp] theorem tap_freeEntryAt (s : State) (n : Nat) : (s.freeEntryAt n).tap = s.tap :=
  changes_writeEntry s n {} .tap (by decide)

/-! ### LaneOps -/

@[simp] theorem tap_formReference (s : State) (n : Nat) : (s.formReference n).tap = s.tap := by
  fun_cases State.formReference s n <;> rfl
@[simp] theorem tap_stringPeriod (s : State) (n : Nat) (dropped : Bool) : (s.stringPeriod n dropped).tap = s.tap := by
  fun_cases State.stringPeriod s n dropped <;> simp
@[simp] theorem tap_strobeSample (s : State) (n tag hold : Nat) (v : Option Int) : (s.strobeSample n tag hold v).tap = s.tap := by
  fun_cases State.strobeSample s n tag hold v <;> rfl

/-! ### AnalogOps -/

@[simp] theorem tap_armWatch (s : State) (n : Nat) : (s.armWatch n).tap = s.tap := by fun_cases State.armWatch s n <;> rfl
@[simp] theorem tap_latestRecord (s : State) (r : Result) (hold : Nat) : (s.latestRecord r hold).tap = s.tap := by
  fun_cases State.latestRecord s r hold <;> simp +zetaDelta [tap_ite]
@[simp] theorem tap_sendLoop (s : State) (n updated : Nat) : (s.sendLoop n updated).tap = s.tap := by
  fun_cases State.sendLoop s n updated <;> rfl
@[simp] theorem tap_pwmRecord (s : State) (r : Result) : (s.pwmRecord r).tap = s.tap := by
  fun_cases State.pwmRecord s r <;> simp
@[simp] theorem tap_consume (s : State) (r : Result) (c : Conversion) (source : Nat) : (s.consume r c source).tap = s.tap := by
  have answers (l : List Source) (st : Nat) : (l.foldl (fun z q => z.answer q 0x0704 st [.struct r.bytes]) s).tap = s.tap :=
    tap_foldl (fun _ _ => tap_answer _ _ _ _ _) l s
  fun_cases State.consume s r c source
  case case6 => exact answers _ _
  case case7 => exact answers _ _
  all_goals simp
@[simp] theorem tap_deliver (s : State) (r : Result) (c : Conversion) : (s.deliver r c).tap = s.tap :=
  (tap_foldl (fun _ _ => tap_consume _ _ _ _) _ _).trans (tap_latestRecord s r c.holdAt)
@[simp] theorem tap_dropRequest (s : State) (k : Nat) (c : Conversion) (collide : Bool) : (s.dropRequest k c collide).tap = s.tap :=
  tap_deliver _ _ _
@[simp] theorem tap_loseRequest (s : State) (k : Nat) (o : Option Conversion) : (s.loseRequest k o).tap = s.tap := by
  cases o <;> simp [State.loseRequest]
@[simp] theorem tap_urgentRequest (s : State) (k : Nat) (l : List Conversion) : (s.urgentRequest k l).tap = s.tap := by
  fun_cases State.urgentRequest s k l <;> simp
@[simp] theorem tap_tripRequests (s : State) (n cause : Nat) : (s.tripRequests n cause).tap = s.tap := by
  simp [State.tripRequests]

/-! ### SoundOps -/

@[simp] theorem tap_updStep (s : State) (n slot : Nat) (f : SoundStep → SoundStep) : (s.updStep n slot f).tap = s.tap := rfl
@[simp] theorem tap_captureOff (s : State) (n : Nat) : (s.captureOff n).tap = s.tap := by
  simp [State.captureOff, tap_ite, tap_foldl]
@[simp] theorem tap_endedResults (s : State) (n : Nat) (a : SoundStep) : (s.endedResults n a).tap = s.tap := rfl
@[simp] theorem tap_stepEnded (s : State) (n : Nat) (a : SoundStep) (outcome : Nat) : (s.stepEnded n a outcome).tap = s.tap := by
  simp [State.stepEnded, tap_ite]
@[simp] theorem tap_sendSoundOut (s : State) (n : Nat) (a : SoundStep) (kind reason : Nat) :
    (s.sendSoundOut n a kind reason).tap = s.tap := by
  fun_cases State.sendSoundOut s n a kind reason <;> simp
@[simp] theorem tap_soundArrives (s : State) (n : Nat) (m : SoundMsg) : (s.soundArrives n m).tap = s.tap := by
  fun_cases State.soundArrives s n m <;> simp +zetaDelta
@[simp] theorem tap_sendSound (s : State) (n : Nat) (a : SoundStep) (kind reason : Nat) : (s.sendSound n a kind reason).tap = s.tap := by
  fun_cases State.sendSound s n a kind reason <;> simp
@[simp] theorem tap_endSteps (s : State) (n outcome : Nat) (p : SoundStep → Bool) : (s.endSteps n outcome p).tap = s.tap := by
  simp [State.endSteps, State.abandonStep, tap_ite, tap_foldl]
@[simp] theorem tap_springFail (s : State) (n cause : Nat) : (s.springFail n cause).tap = s.tap := by
  fun_cases State.springFail s n cause <;> simp
@[simp] theorem tap_runLeft (s : State) (n outcome : Nat) : (s.runLeft n outcome).tap = s.tap := by simp [State.runLeft]

/-! ### SafetyOps -/

@[simp] theorem tap_latchFor (s : State) (n c : Nat) : (s.latchFor n c).tap = s.tap := by
  fun_cases State.latchFor s n c <;> rfl
@[simp] theorem tap_tripLane (s : State) (n c : Nat) (v0 : Option Int) : (s.tripLane n c v0).tap = s.tap := by
  fun_cases State.tripLane s n c v0 <;> simp +zetaDelta
/-- A lane's trip leaves the ports as they were. -/
@[simp] theorem tap_tripCauses (s : State) (n : Nat) (cs : List Nat) : (s.tripCauses n cs).tap = s.tap :=
  tap_foldl (fun _ _ => tap_tripLane _ _ _ _) _ s

end Sys2Proof.Machine
end

