-- ==== Sys2Proof/Proofs/TapPorts.lean ====
section
/-! PROOF. One tap port at a time: what reading it gives after each operation of the link, and what the operation leaves elsewhere. -/

namespace Sys2Proof.Machine

open Sys2Proof
set_option Elab.async false

/-! ### Parts that differ -/

theorem changes_tap (s : State) (x : Tap) : Changes [.tap] s { s with tap := x } := by
  intro p hp
  cases p <;> simp_all [Part.same]
theorem changes_model (s : State) (x : Model) : Changes [.model] s { s with model := x } := by
  intro p hp
  cases p <;> simp_all [Part.same]
theorem changes_therm (s : State) (x : Thermal) : Changes [.therm] s { s with therm := x } := by
  intro p hp
  cases p <;> simp_all [Part.same]
theorem changes_lanes (s : State) (x : Table Lane) : Changes [.lanes] s { s with lanes := x } := by
  intro p hp
  cases p <;> simp_all [Part.same]
theorem changes_sound (s : State) (x : Sound) : Changes [.sound] s { s with sound := x } := by
  intro p hp
  cases p <;> simp_all [Part.same]
theorem changes_store (s : State) (x : Store) : Changes [.store] s { s with store := x } := by
  intro p hp
  cases p <;> simp_all [Part.same]
theorem changes_net (s : State) (x : Net) : Changes [.net] s { s with net := x } := by
  intro p hp
  cases p <;> simp_all [Part.same]
theorem changes_ana (s : State) (x : Analog) : Changes [.ana] s { s with ana := x } := by
  intro p hp
  cases p <;> simp_all [Part.same]

theorem changes_setPort (s : State) (p : Nat) (x : Port) : Changes [.tap] s (s.setPort p x) := changes_tap s _
theorem changes_setCell (s : State) (i : Nat) (x : Cell) : Changes [.model] s (s.setCell i x) := changes_model s _
theorem changes_setModelCount (s : State) (i : Nat) (x : ModelCounters) : Changes [.model] s (s.setModelCount i x) := changes_model s _
theorem changes_setBalPort (s : State) (p : Nat) (x : BalPort) : Changes [.therm] s (s.setBalPort p x) := changes_therm s _
theorem changes_setLane (s : State) (n : Nat) (x : Lane) : Changes [.lanes] s (s.setLane n x) := changes_lanes s _
theorem changes_setLaneSound (s : State) (n : Nat) (x : LaneSound) : Changes [.sound] s (s.setLaneSound n x) := changes_sound s _
theorem changes_setConv (s : State) (k : Nat) (x : Converter) : Changes [.ana] s (s.setConv k x) := changes_ana s _

theorem changes_foldl {α : Type} {ps : List Part} {f : State → α → State} (h : ∀ z x, Changes ps z (f z x)) (l : List α) (s : State) :
    Changes ps s (l.foldl f s) := by
  induction l generalizing s with
  | nil => exact Changes.refl ps s
  | cons x r ih => exact (h s x).trans (ih _)

/-! ### Reading a port -/

theorem port_of_tap {s t : State} (h : t.tap = s.tap) (p : Nat) : t.port p = s.port p := by
  unfold State.port
  rw [h]
theorem Changes.port {ps : List Part} {s t : State} (h : Changes ps s t) (hp : .tap ∉ ps) (p : Nat) : t.port p = s.port p :=
  port_of_tap (h .tap hp) p
theorem port_atTime (s : State) (t p : Nat) : (s.atTime t).port p = s.port p := port_of_tap (tap_atTime s t) p
theorem Settled.port {z u : State} (h : Settled z u) (p : Nat) : u.port p = z.port p := h.changes.port (by decide) p

/-! ### One port alone -/

theorem Only.trans {α : Type} {f : State → Nat → α} {k : Nat} {ps : List Part} {s t u : State} (h : Only f k ps s t)
    (g : Only f k ps t u) : Only f k ps s u :=
  ⟨fun j hj => (g.1 j hj).trans (h.1 j hj), h.2.trans g.2⟩
theorem Only.mono {α : Type} {f : State → Nat → α} {k : Nat} {ps qs : List Part} {s t : State} (h : Only f k ps s t)
    (hs : ∀ p ∈ ps, p ∈ qs) : Only f k qs s t := ⟨h.1, h.2.mono hs⟩
theorem onlyPort_setPort (s : State) (p : Nat) (x : Port) : Only State.port p [.tap] s (s.setPort p x) :=
  ⟨fun _ hj => State.port_setPort_ne s x hj, changes_tap s _⟩
theorem Changes.onlyPort {ps : List Part} {s t : State} (h : Changes ps s t) (hp : .tap ∉ ps) (p : Nat) : Only State.port p ps s t :=
  ⟨fun j _ => h.port hp j, h⟩
/-- What an event does to one port from the time it carries on, its interrupt bits included. -/
theorem Settled.onlyPort {s z u : State} {t p : Nat} {ps qs : List Part} (h : Settled z u) (hz : Only State.port p ps (s.atTime t) z)
    (hs : ∀ q ∈ .clock :: .mbox :: ps, q ∈ qs) : Only State.port p qs s u :=
  (((atTime_changes s t).onlyPort (by decide) p).mono fun q hq => hs q (by simp_all)).trans
    ((hz.mono fun q hq => hs q (by simp_all)).trans ((h.changes.onlyPort (by decide) p).mono fun q hq => hs q (by simp_all)))

/-! ### A frame that both paths accept (03 R80, R100) -/

theorem tapTyped_of_accepted {rx : TapRx} {typ : Nat} (ht : beAt rx.bytes 0 1 = typ) (h : storeCheck rx = .accepted) :
    tapTyped rx typ = true := by
  simp [tapTyped, ht, h]

/-- An accepted frame that is expected has its effect and no other. -/
theorem linkFrame_accepted {s : State} {p : Nat} {rx : TapRx} {f : State → State} (h : Accepted s p rx) :
    s.linkFrame p rx true f = f (s.setPort p (s.port p)) := by
  obtain ⟨hs, hf, -⟩ := h
  unfold State.linkFrame
  rw [hs, hf]
  rfl

/-! ### Port states (03 R93, R98) -/

theorem changes_coast (s : State) (p : Nat) : Changes [.model] s (s.coast p) :=
  (changes_foldl (fun z c => changes_setCell z (cellIx p c) _) _ s).trans (changes_setModelCount _ p _)
theorem changes_dropTest (s : State) (p : Nat) : Changes [.therm, .model] s (s.dropTest p) := by
  unfold State.dropTest
  split
  · exact Changes.refl _ s
  · next q _ =>
    exact ((changes_setBalPort s p _).mono (by decide)).trans ((changes_setCell _ (cellIx p q.cell) _).mono (by decide))
theorem changes_abandonArming (s : State) (n : Nat) (cause : Option Nat) : Changes [.lanes, .recorder] s (s.abandonArming n cause) := by
  fun_cases State.abandonArming s n cause
  · exact (changes_lanes s _).mono (by decide)
  · exact ((changes_lanes s _).mono (by decide)).trans ((changes_event _ _ _ _ _ _ _ _ _ _ _ _).mono (by decide))
  · exact Changes.refl _ s
theorem changes_shadowOpens (s : State) (n : Nat) : Changes [.lanes] s (s.shadowOpens n) := by
  fun_cases State.shadowOpens s n
  · exact changes_lanes s _
  · exact Changes.refl _ s
theorem changes_recheckArming (s : State) : Changes [.lanes, .recorder] s s.recheckArming := by
  refine changes_foldl (fun z n => ?_) _ s
  split
  · exact Changes.refl _ z
  · exact (changes_abandonArming z n _).trans ((changes_shadowOpens _ n).mono (by decide))

/-- A port that leaves RUN is out since now, and keeps the rest. -/
theorem port_portOut (s : State) (p : Nat) : (s.portOut p).port p = { s.port p with outSince := some s.now } := by
  have hport : ((s.coast p).dropTest p).port p = s.port p :=
    ((changes_dropTest _ p).port (by decide) p).trans ((changes_coast s p).port (by decide) p)
  unfold State.portOut
  rw [(changes_recheckArming _).port (by decide), State.updPort_eq, State.port_setPort_same, State.updBalPort_eq,
    (changes_setBalPort _ p _).port (by decide), hport]
theorem changes_portOut (s : State) (p : Nat) : Changes [.tap, .model, .therm, .lanes, .recorder] s (s.portOut p) := by
  unfold State.portOut
  refine Changes.trans ?_ ((changes_recheckArming _).mono (by decide))
  refine Changes.trans ?_ ((changes_setPort _ p _).mono (by decide))
  refine Changes.trans ?_ ((changes_setBalPort _ p _).mono (by decide))
  exact ((changes_coast s p).mono (by decide)).trans ((changes_dropTest _ p).mono (by decide))

/-- A port in TRAIN, where its first attempt can start. -/
theorem port_toTrain (s : State) (p : Nat) : ∃ since, (s.toTrain p).port p = { (s.port p).toState .train with
    failRun := 0, waiting := (s.port p).waiting.filter fun c => c.kind != .sleep, outSince := since } := by
  have cleared (z : State) : (z.clearAlarm evTapFailed 2 p).port p = z.port p := port_of_tap (tap_clearAlarm _ _ _ _ _) p
  unfold State.toTrain
  extract_lets was s1 s2
  have h2 : s2.port p = { (s.port p).toState .train with
      failRun := 0, waiting := (s.port p).waiting.filter fun c => c.kind != .sleep } :=
    (cleared s1).trans (State.port_setPort_same s p _)
  split
  · exact ⟨_, (port_portOut s2 p).trans (by rw [h2])⟩
  · exact ⟨_, ((changes_coast s2 p).port (by decide) p).trans h2⟩
theorem changes_toTrain (s : State) (p : Nat) : Changes [.tap, .model, .therm, .lanes, .recorder] s (s.toTrain p) := by
  unfold State.toTrain
  extract_lets was s1 s2
  have h2 : Changes [.tap, .model, .therm, .lanes, .recorder] s s2 :=
    ((changes_tap s _).mono (by decide)).trans ((changes_clearAlarm _ _ _ _ _).mono (by decide))
  split
  · exact h2.trans (changes_portOut s2 p)
  · exact h2.trans ((changes_coast s2 p).mono (by decide))

/-! ### Training (03 R94) -/

theorem port_trainStart (s : State) (p : Nat) : (s.trainStart p).port p = { s.port p with
    attemptAt := some s.now, trainStep := 1, trainEchoes := [], trainValid := 0, txAt := some s.now
    counters := { (s.port p).counters with attempts := inc64 (s.port p).counters.attempts } } := State.port_setPort_same s p _
theorem onlyPort_trainStart (s : State) (p : Nat) : Only State.port p [.tap, .out] s (s.trainStart p) :=
  ((onlyPort_setPort s p _).mono (by decide)).trans (((changes_emit _ _).onlyPort (by decide) p).mono (by decide))

/-- The third failed attempt in a row makes the port FAILED, with its alarm. -/
theorem trainFail_third {s : State} {p : Nat} (h : (s.port p).failRun = 2) :
    s.trainFail p = (s.setPort p { (s.port p).toState .failed with
      failRun := 3, failedAt := s.now
      counters := { (s.port p).counters with failedAttempts := inc64 (s.port p).counters.failedAttempts } }).raise evTapFailed 2 p := by
  simp only [State.trainFail, h, Nat.reduceAdd, le_refl, if_true]

/-! ### Sending (03 R83, R107) -/

theorem port_drive (s : State) (p at_ : Nat) (bytes : List Byte) : (s.drive p at_ bytes).port p = { s.port p with txAt := some at_ } :=
  State.port_setPort_same s p _
theorem out_drive (s : State) (p at_ : Nat) (bytes : List Byte) :
    (s.drive p at_ bytes).out = .tap p at_ (at_ + bytes.length * 640 - 40) bytes :: s.out := rfl
theorem changes_drive (s : State) (p at_ : Nat) (bytes : List Byte) : Changes [.tap, .out] s (s.drive p at_ bytes) :=
  ((changes_tap s _).mono (by decide)).trans ((changes_emit _ _).mono (by decide))

theorem length_leBytes (n v : Nat) : (leBytes n v).length = n := by
  induction n generalizing v with
  | zero => rfl
  | succ n ih => rw [leBytes, List.length_cons, ih]
theorem length_beBytes (n v : Nat) : (beBytes n v).length = n := by rw [beBytes, List.length_reverse, length_leBytes]
/-- A CONFIG takes 18 bytes on the line. -/
theorem length_cmdBytes_config (x : TapLimits) {c : TapCmd} (h : c.kind = .config) : (cmdBytes x c).length = 18 := by
  simp [cmdBytes, h, tapFrame, length_beBytes]

theorem mem_placeCmd (c : TapCmd) (l : List TapCmd) : c ∈ placeCmd c l := by
  induction l with
  | nil => exact List.mem_singleton.2 rfl
  | cons d r ih =>
    unfold placeCmd
    split
    · exact List.mem_cons_self
    · exact List.mem_cons_of_mem d ih
/-- A command requested waits. -/
theorem exists_waiting_request (x : Port) (kind : TapCmdKind) (mask : Nat) : ∃ c ∈ (x.request kind mask).waiting, c.kind = kind :=
  ⟨_, mem_placeCmd _ _, rfl⟩

end Sys2Proof.Machine
end

