-- ==== Sys2Proof/Proofs/TapCommands.lean ====
section
/-! PROOF. The TAP commands (O14): each passes its checks with operands in range, and is answered on the state that its handler
leaves. -/

namespace Sys2Proof.Machine

open Sys2Proof
set_option Elab.async false

/-- What follows from the handler of a command that is no STATUS, where it accepts at once. -/
theorem taken_imp {src : Source} {code : Nat} {h : State → Answer} {s z : State} {p : List Field} {Q : State → Prop}
    (hr : Taken s src code) (hc : isStatus code = false) (ha : h s = ⟨some stOk, p, z⟩) (hm : z.mbox = s.mbox) (hk : z.clock = s.clock)
    (k : ∀ u, Answered s u src code p z → Q u) : ∃ u, runCommand src code h s = .next u ∧ Q u := by
  obtain ⟨u, hu, hans⟩ := taken_ok hr hc ha hm hk
  exact ⟨u, hu, k u hans⟩

/-! ### STATUS, COUNTERS_READ and TRIM_SET (03 R86, R106) -/

theorem tapStatus_fields {s : State} {src : Source} {p : Nat} (hr : Taken s src 0x0601) (hp : p < 128) :
    ∃ u, exec (.tapStatus src p) s = .next u ∧ Answered s u src 0x0601 (tapStatusFields (s.seen.port p)) s := by
  have passes (z : State) : checked z [(decide (p < 128), stInvalidArg)] (okWith z (tapStatusFields (z.port p))) =
      okWith z (tapStatusFields (z.port p)) := checked_of_all _ (by simp [hp])
  rw [exec_tapStatus, execTapStatus]
  simp only [passes]
  exact status_ok (fun z => tapStatusFields (z.port p)) hr

theorem tapTrimSet_stored {s : State} {src : Source} {p : Nat} {a : Int} (hr : Taken s src 0x0602) (hp : p < 128)
    (ha : withinI (-500) 500 a = true) : ∃ u, exec (.tapTrimSet src p a) s = .next u ∧
      Answered s u src 0x0602 [] (s.setPort p { s.port p with asym := a }) := by
  rw [exec_tapTrimSet, execTapTrimSet]
  exact taken_ok hr (by decide) (checked_of_all _ (by simp [hp, ha])) rfl rfl

theorem tapCountersRead_counters {s : State} {src : Source} {p : Nat} {c : Bool} (hr : Taken s src 0x0605) (hp : p < 128) :
    ∃ u, exec (.tapCountersRead src p c) s = .next u ∧ ∃ z, Answered s u src 0x0605 (tapCounterFields (s.port p).counters) z ∧
      (z.port p).counters = (if c then { overruns := (s.port p).counters.overruns } else (s.port p).counters) ∧
      Only State.port p [.tap] s z := by
  rw [exec_tapCountersRead, execTapCountersRead]
  cases c with
  | false =>
    exact taken_imp hr (by decide) (checked_of_all _ (by simp [hp])) rfl rfl fun u ha =>
      ⟨s, ha, rfl, fun _ _ => rfl, Changes.refl _ s⟩
  | true =>
    exact taken_imp hr (by decide) (checked_of_all _ (by simp [hp])) rfl rfl fun u ha =>
      ⟨_, ha, congrArg Port.counters (State.port_setPort_same s p _), onlyPort_setPort s p _⟩

/-! ### RETRAIN (03 R93) -/

theorem tapRetrain_train {s : State} {src : Source} {p n : Nat} (hr : Taken s src 0x0604) (hp : p < 128)
    (hn : s.laneOfPort p = some n) (ha : laneArmed (s.lane n).state = false) :
    ∃ u, exec (.tapRetrain src p) s = .next u ∧ ∃ z, Answered s u src 0x0604 [] z ∧ (z.port p).state = .train ∧
      (z.port p).failRun = 0 ∧ (z.port p).attemptAt = none := by
  obtain ⟨since, hport⟩ := port_toTrain s p
  have hz := changes_toTrain s p
  rw [exec_tapRetrain, execTapRetrain]
  refine taken_imp hr (by decide) (checked_of_all _ (by simp [hp, hn, ha])) (hz .mbox (by decide)) (hz .clock (by decide))
    fun u hans => ⟨_, hans, ?_⟩
  rw [hport]
  exact ⟨rfl, rfl, rfl⟩

/-! ### The cells that follow a presence mask (06 R165, R184) -/

/-- From `s` to `t` only the cells, the recorder and the store differ, and the store keeps its settings. -/
structure CellsFollow (s t : State) : Prop where
  changes : Changes [.model, .store, .recorder] s t
  settings : t.store.settings = s.store.settings
  volatile : t.store.settingsVolatile = s.store.settingsVolatile

theorem CellsFollow.refl (s : State) : CellsFollow s s := ⟨Changes.refl _ s, rfl, rfl⟩
theorem CellsFollow.trans {s t u : State} (h : CellsFollow s t) (g : CellsFollow t u) : CellsFollow s u :=
  ⟨h.changes.trans g.changes, g.settings.trans h.settings, g.volatile.trans h.volatile⟩
theorem CellsFollow.of_changes {ps : List Part} {s t : State} (h : Changes ps s t) (hs : ∀ p ∈ ps, p ∈ [.model, .recorder]) :
    CellsFollow s t :=
  have hstore : t.store = s.store := h.mono hs .store (by decide)
  ⟨(h.mono hs).mono (by decide), by rw [hstore], by rw [hstore]⟩
theorem cellsFollow_foldl {α : Type} {f : State → α → State} (h : ∀ z x, CellsFollow z (f z x)) (l : List α) (s : State) :
    CellsFollow s (l.foldl f s) := by
  induction l generalizing s with
  | nil => exact CellsFollow.refl s
  | cons x r ih => exact (h s x).trans (ih _)
theorem cellsFollow_updCell (s : State) (i : Nat) (f : Cell → Cell) : CellsFollow s (s.updCell i f) :=
  .of_changes (changes_setCell s i _) (by decide)

/-- An operation queued on the store's interface changes the store alone, and no setting. -/
theorem queueOp_store (s : State) (prio : Nat) (kind : StoreOp) : Changes [.store] s (s.queueOp prio kind) ∧
    (s.queueOp prio kind).store.settings = s.store.settings ∧
    (s.queueOp prio kind).store.settingsVolatile = s.store.settingsVolatile := by
  have check (z : State) (q : Op → Bool) : ∃ st : Store, z.holdupCheck q = { z with store := st } ∧
      st.settings = z.store.settings ∧ st.settingsVolatile = z.store.settingsVolatile := by
    fun_cases State.holdupCheck z q <;> exact ⟨_, rfl, rfl, rfl⟩
  have serve (z : State) : ∃ st : Store, z.storeServe = { z with store := st } ∧
      st.settings = z.store.settings ∧ st.settingsVolatile = z.store.settingsVolatile := by
    fun_cases State.storeServe z <;> exact ⟨_, rfl, rfl, rfl⟩
  unfold State.queueOp
  extract_lets o
  obtain ⟨a, ha, hset, hvol⟩ := check { s with store := { s.store with ops := s.store.ops ++ [o] } } (· == o)
  rw [ha]
  obtain ⟨b, hb, hset', hvol'⟩ := serve { s with store := a }
  rw [hb]
  exact ⟨changes_store s b, hset'.trans hset, hvol'.trans hvol⟩

theorem cellsFollow_requestCommit (s : State) (key : Bool) : CellsFollow s (s.requestCommit key) := by
  have starts : CellsFollow s s.startCommit := by
    unfold State.startCommit
    extract_lets ports lanes counts c
    obtain ⟨hc, hset, hvol⟩ := queueOp_store ({ s with
      store := { s.store with commit := some c, commitQueued := false }
      model := { s.model with intervalH := s.model.nextIntervalH.getD s.model.intervalH, nextIntervalH := none } } : State) 2 .commitPage
    refine ⟨Changes.trans (fun p hp => ?_) (hc.mono (by decide)), hset, hvol⟩
    cases p <;> simp_all [Part.same]
  fun_cases State.requestCommit s key
  · exact CellsFollow.refl s
  · exact ⟨(changes_store s _).mono (by decide), rfl, rfl⟩
  · exact starts

theorem cellsFollow_markNoLearn (s : State) (p : Nat) : CellsFollow s (s.markNoLearn p) := by
  fun_cases State.markNoLearn s p
  · exact CellsFollow.refl s
  · exact cellsFollow_foldl (fun z c => cellsFollow_updCell z (cellIx p c) _) _ s

theorem cellsFollow_rough (s : State) (p : Nat) (cells : List Nat) (keep start : Bool) :
    CellsFollow s (s.rough p cells keep start) := by
  unfold State.rough
  extract_lets cs rough s1 s2
  have h1 : CellsFollow s s1 :=
    (cellsFollow_markNoLearn s p).trans (cellsFollow_foldl (fun z c => cellsFollow_updCell z (cellIx p c) _) cs _)
  have h2 : CellsFollow s s2 := (h1.trans (.of_changes (changes_setModelCount s1 p _) (by decide))).trans
    (.of_changes (changes_event _ _ _ _ _ _ _ _ _ _ _ _) (by decide))
  split
  · exact CellsFollow.refl s
  · split
    · exact h2
    · exact h2.trans (cellsFollow_requestCommit s2 true)

theorem cellsFollow_startCells (s : State) (p : Nat) : CellsFollow s (s.startCells p) := by
  have cells (l : List Nat) (f : Nat → Cell → Cell) : CellsFollow s (l.foldl (fun z c => z.updCell (cellIx p c) (f c)) s) :=
    cellsFollow_foldl (fun z c => cellsFollow_updCell z (cellIx p c) (f c)) l s
  have fresh (l : List Nat) (f : Cell → Cell) (b c : Bool) :
      CellsFollow s ((l.foldl (fun z c => z.updCell (cellIx p c) f) s).rough p l b c) :=
    (cells l fun _ => f).trans (cellsFollow_rough _ _ _ _ _)
  fun_cases State.startCells s p
  · exact CellsFollow.refl s
  · exact cells _ _
  · exact fresh _ _ _ _
  · exact fresh _ _ _ _

theorem cellsFollow_remodel (s : State) (p : Nat) : CellsFollow s (s.remodel p) := by
  unfold State.remodel
  extract_lets s1
  have h1 : CellsFollow s s1 := cellsFollow_foldl (fun z c => by
    split
    · exact CellsFollow.refl z
    · exact cellsFollow_updCell z _ _) _ s
  refine h1.trans ?_
  fun_cases State.joinCells s1 p
  · exact cellsFollow_startCells s1 p
  · exact .of_changes (changes_coast s1 p) (by decide)
  · exact CellsFollow.refl s1

/-! ### LIMITS_SET (03 R106, R518) -/

/-- A port with other limits; in RUN it wants them sent. -/
def Port.withLimits (x : Port) (l : TapLimits) : Port :=
  if x.state == .run then Port.request { x with limits := l } .config else { x with limits := l }

theorem limits_withLimits (x : Port) (l : TapLimits) : (x.withLimits l).limits = l := by
  unfold Port.withLimits
  split <;> rfl
theorem exists_config_withLimits {x : Port} (l : TapLimits) (h : x.state = .run) : ∃ c ∈ (x.withLimits l).waiting, c.kind = .config := by
  rw [Port.withLimits, if_pos (by simp [h])]
  exact exists_waiting_request _ _ _

/-- A setting kept in the store is the newest of its settings, while the store keeps any. -/
theorem persist_store (s : State) (code object : Nat) (cmd : Instr) : Changes [.store] s (s.persist code object cmd) ∧
    (s.store.settingsVolatile = false → ∃ g, (s.persist code object cmd).store.settings = ⟨code, object, g, cmd⟩ :: s.store.settings) := by
  unfold State.persist
  split
  · next hv => exact ⟨Changes.refl _ s, fun h => absurd hv (by simp [h])⟩
  · extract_lets g
    obtain ⟨hc, hset, -⟩ := queueOp_store ({ s with store := { s.store with
      genSettings := g, settings := ⟨code, object, g, cmd⟩ :: s.store.settings } } : State) 3 (.settings g)
    exact ⟨(changes_store s _).trans hc, fun _ => ⟨g, hset⟩⟩

theorem limitsSetDo_port {s : State} {p ov uv cells temps : Nat} {ot : Int} (hp : p < 128) (hov : ov < 65535) (huv : uv < ov)
    (hot : withinI (-32767) 32767 ot = true) (hcells : cells < 2 ^ 18) (htemps : temps < 64)
    (hh : ∀ n, s.laneOfPort p = some n → s.holdsHelm n = true) : limitsSetDo (.port p) ov uv ot cells temps s =
      ok ((s.setPort p ((s.port p).withLimits { ov := ov, uv := uv, ot := ot, cells := cells, temps := temps })).remodel p) := by
  unfold limitsSetDo
  extract_lets ps
  rw [checked_of_all]
  · rfl
  · simp only [List.forall_mem_cons, List.not_mem_nil, false_implies, implies_true, and_true, true_and]
    refine ⟨by simpa [hp, hov, huv, hot, htemps] using hcells, ?_⟩
    cases hn : s.laneOfPort p with
    | none => simp [ps, State.targetPorts, hn]
    | some n => simp [ps, State.targetPorts, hn, hh n hn]

theorem tapLimitsSet_port {s : State} {src : Source} {p ov uv cells temps : Nat} {ot : Int} (hr : Taken s src 0x0603) (hp : p < 128)
    (hov : ov < 65535) (huv : uv < ov) (hot : withinI (-32767) 32767 ot = true) (hcells : cells < 2 ^ 18) (htemps : temps < 64)
    (hh : ∀ n, s.laneOfPort p = some n → s.holdsHelm n = true) :
    ∃ u, exec (.tapLimitsSet src (.port p) ov uv ot cells temps) s = .next u ∧ TapLimitsTaken s u src p ov uv ot cells temps := by
  obtain ⟨l, hl⟩ : ∃ l : TapLimits, l = { ov := ov, uv := uv, ot := ot, cells := cells, temps := temps } := ⟨_, rfl⟩
  obtain ⟨a, ha⟩ : ∃ a, a = s.setPort p ((s.port p).withLimits l) := ⟨_, rfl⟩
  have hport : Only State.port p [.tap] s a := ha ▸ onlyPort_setPort s p _
  have hsame : a.port p = (s.port p).withLimits l := by rw [ha, State.port_setPort_same]
  have hcellsOf := cellsFollow_remodel a p
  obtain ⟨hpersist, hsettings⟩ := persist_store (a.remodel p) 0x0603 p (.tapLimitsSet src (.port p) ov uv ot cells temps)
  have handler : (limitsSetDo (.port p) ov uv ot cells temps s).persistedPorts (s.targetPorts (.port p))
      (fun p => .tapLimitsSet src (.port p) ov uv ot cells temps) =
      ⟨some stOk, [], (a.remodel p).persist 0x0603 p (.tapLimitsSet src (.port p) ov uv ot cells temps)⟩ := by
    rw [limitsSetDo_port hp hov huv hot hcells htemps hh, ha, hl]
    rfl
  generalize (a.remodel p).persist 0x0603 p (.tapLimitsSet src (.port p) ov uv ot cells temps) = z at hpersist hsettings handler
  have hall : Changes [.tap, .model, .store, .recorder] s z :=
    (hport.2.mono (by decide)).trans ((hcellsOf.changes.mono (by decide)).trans (hpersist.mono (by decide)))
  have hread (q : Nat) : z.port q = a.port q := (hpersist.port (by decide) q).trans (hcellsOf.changes.port (by decide) q)
  rw [exec_tapLimitsSet, execTapLimitsSet]
  refine taken_imp hr (by decide) handler (hall .mbox (by decide)) (hall .clock (by decide)) fun u hans =>
    ⟨z, hans, ?_, ?_, fun q hq => (hread q).trans (hport.1 q hq), ?_, hall⟩
  · rw [hread, hsame, limits_withLimits, hl]
  · rw [hread, hsame]
    exact exists_config_withLimits l
  · intro hv
    have hstore : a.store = s.store := hport.2 .store (by decide)
    obtain ⟨g, hg⟩ := hsettings (by rw [hcellsOf.volatile, hstore]; simpa using hv)
    rw [hg, hcellsOf.settings, hstore]
    exact ⟨rfl, rfl⟩

/-- Settles O14: one lemma for each command. -/
theorem tapCommandsComplete : Obligations.TapCommandsComplete := by
  intro s z src p ov uv cells temps n a ot c
  refine ⟨?_, fun hr hp h1 h2 => tapTrimSet_stored hr hp (decide_eq_true ⟨h1, h2⟩), ?_,
    fun hr hp hn ha => tapRetrain_train hr hp hn (by simpa using ha), tapCountersRead_counters⟩
  · rintro hr hp rfl
    exact tapStatus_fields hr hp
  · intro hr hp hov huv o1 o2 hcells htemps hh
    exact tapLimitsSet_port hr hp hov huv (decide_eq_true ⟨o1, o2⟩) hcells htemps hh

end Sys2Proof.Machine
end

