-- ==== Sys2Proof/Proofs/TapFramesReceived.lean ====
section
/-! PROOF. What arrives on a tap port (O15): DATA, HELLO, ECHO_REPLY, ACK, and a frame that both paths discard. -/

namespace Sys2Proof.Machine

open Sys2Proof
set_option Elab.async false

/-! ### DATA (03 R84, R90) -/

/-- What a port shows of the frames it has taken: its 8 latest instants, STATUS and CMD_ACK. -/
def Port.heard (x : Port) : List PortSample × Nat × Nat := (x.ring, x.lastStatus, x.cmdAck)

theorem heard_ackedBy (x : Port) (seq : Nat) : (x.ackedBy seq).heard = x.heard := by
  unfold Port.ackedBy
  split <;> rfl
theorem heard_wantConfig (x : Port) : x.wantConfig.heard = x.heard := by
  unfold Port.wantConfig
  dsimp only
  split <;> rfl
theorem heard_sendBalance (s : State) (p : Nat) (force : Bool) : ((s.sendBalance p force).port p).heard = (s.port p).heard := by
  unfold State.sendBalance
  split
  · rfl
  · dsimp only
    split
    · rw [State.updBalPort_eq, (changes_setBalPort _ p _).port (by decide), State.updPort_eq, State.port_setPort_same]
      rfl
    · rfl

theorem changes_capture (s : State) (n p : Nat) (f : Option PortSample) (tag : Nat) : Changes [.sound] s (s.capture n p f tag) := by
  unfold State.capture
  split
  · exact changes_setLaneSound s n _
  · exact Changes.refl _ s
theorem changes_frameToModels (s : State) (p : Nat) (f : PortSample) : Changes [.sound, .model] s (s.frameToModels p f) := by
  unfold State.frameToModels
  split
  · next n _ _ =>
    dsimp only
    have hc : Changes [.sound, .model] s (s.capture n p (some f) f.tag) := (changes_capture s n p _ _).mono (by decide)
    split
    · exact hc
    · exact hc.trans ((changes_foldl (fun z c => changes_setCell z (cellIx p c) _) _ _).mono (by decide))
  · exact Changes.refl _ s

/-- The sample-store path takes a frame into the ring of a port that has no command waiting. -/
theorem heard_storeFrame {s : State} {p : Nat} (b : List Byte) (f : PortSample) (hw : (s.port p).waiting = []) :
    ((s.storeFrame p b f).port p).heard = ((f :: (s.port p).ring).take 8, beAt b 4 2, beAt b 3 1) := by
  unfold State.storeFrame
  extract_lets s1 s2
  have h1 : (s1.port p).heard = ((f :: (s.port p).ring).take 8, beAt b 4 2, beAt b 3 1) := by
    have wants (z : Port) : (if z.configLost then z.wantConfig else z).heard = z.heard := by
      split
      · exact heard_wantConfig z
      · rfl
    rw [show s1.port p = _ from State.port_setPort_same s p _, wants, heard_ackedBy]
    rfl
  have h2 : s2.port p = s1.port p :=
    ((changes_setBalPort _ p _).port (by decide) p).trans ((changes_frameToModels s1 p f).port (by decide) p)
  rw [hw, List.any_nil, if_neg Bool.false_ne_true, heard_sendBalance, h2, h1]

/-- The safety path's check of a frame leaves the port's ring, STATUS and CMD_ACK. -/
theorem heard_sfaFrame (s : State) (p : Nat) (b : List Byte) (f : PortSample) : ((s.sfaFrame p b f).port p).heard = (s.port p).heard := by
  unfold State.sfaFrame
  extract_lets flags s0
  have h0 : (s0.port p).heard = (s.port p).heard := by
    rw [show s0.port p = _ from State.port_setPort_same s p _]
    rfl
  split
  · exact h0
  · extract_lets x s1 volt cs s2 ready s3
    have h2 : s2.tap = s0.tap := tap_tripCauses s1 _ _
    have h3 : s3.tap = s0.tap := by
      rw [← h2]
      exact (tap_ite _ _ _).trans (ite_self _)
    rw [(changes_recheckArming s3).port (by decide), port_of_tap h3, h0]

theorem dataVerdict_fresh {x : Port} {check : TapCheck} {b : List Byte} {now : Nat} {safety : Bool} {y : SyncRec}
    (hc : check = .accepted) (hs : x.sync = some y) (htag : beAt b 2 1 = y.tag / 256 % 256)
    (hna : (if safety then y.safeAnswered else y.answered) = false) (ht : now ≤ y.t0 + 150000) :
    dataVerdict x check b now safety = .fresh := by
  simp [dataVerdict, hc, hs, htag, hna, Nat.not_lt.2 ht]

/-- A DATA without a serial that both paths take on a port in RUN, with no command waiting. -/
theorem heard_tapDataDo {p : Nat} {rx : TapRx} {s : State} {y : SyncRec} (hl : rx.bytes.length = 66) (hst : storeCheck rx = .accepted)
    (hsf : safetyCheck rx = .accepted) (hrun : (s.port p).state = .run) (hs : (s.port p).sync = some y)
    (htag : beAt rx.bytes 2 1 = y.tag / 256 % 256) (ha : y.answered = false) (hsa : y.safeAnswered = false)
    (hw : (s.port p).waiting = []) (ht : s.now ≤ y.t0 + 150000) : ((tapDataDo p rx s).port p).heard =
      ((dataSample rx.bytes y.tag (s.port p).alignLost :: (s.port p).ring).take 8, beAt rx.bytes 4 2, beAt rx.bytes 3 1) := by
  unfold tapDataDo
  extract_lets b x sv fv s1 other f trained taken s2
  have hsv : sv = .fresh := dataVerdict_fresh (safety := false) hst hs htag ha ht
  have hfv : fv = .fresh := dataVerdict_fresh (safety := true) hsf hs htag hsa ht
  have hother : other = false := by
    simp only [other, b, hl]
    rfl
  have h1 : s1 = s.setPort p x := by
    simp only [s1, hsv, hst]
    rfl
  have h2 : s2 = ((s1.storeFrame p b f).updPort p fun y => { y with sync := y.sync.map fun k => { k with safeAnswered := true } }).sfaFrame
      p b f := by
    simp only [s2, taken, hsv, hfv, hother, x, hrun]
    rfl
  have hf : f = dataSample rx.bytes y.tag (s.port p).alignLost := by
    simp only [f, x, hs]
    rfl
  have hheard := heard_storeFrame (s := s1) b f (by rw [h1, State.port_setPort_same]; exact hw)
  rw [h1, State.port_setPort_same, ← h1, hf] at hheard
  rw [hst, hsv, hfv, h2, hf]
  refine (heard_sfaFrame _ _ _ _).trans ?_
  rw [State.updPort_eq, State.port_setPort_same]
  exact hheard

theorem tapData_taken {s : State} {t p : Nat} {rx : TapRx} {y : SyncRec} (hp : p < 128) (hty : beAt rx.bytes 0 1 = 0x81)
    (hl : rx.bytes.length = 66) (hst : storeCheck rx = .accepted) (hsf : safetyCheck rx = .accepted) (hrun : (s.port p).state = .run)
    (hs : (s.port p).sync = some y) (htag : beAt rx.bytes 2 1 = y.tag / 256 % 256) (ha : y.answered = false)
    (hsa : y.safeAnswered = false) (hw : (s.port p).waiting = []) (ht : s.nowAt t ≤ y.t0 + 150000) :
    ∃ u, exec (.tapData t p rx) s = .next u ∧
      (u.port p).ring = (dataSample rx.bytes y.tag (s.port p).alignLost :: (s.port p).ring).take 8 ∧
      (u.port p).lastStatus = beAt rx.bytes 4 2 ∧ (u.port p).cmdAck = beAt rx.bytes 3 1 := by
  rw [← port_atTime s t] at hrun hs hw ⊢
  rw [exec_tapData, execTapData]
  refine whenOn_imp (decide_eq_true hp) (by simp [tapTyped_of_accepted hty hst, Port.synced, hrun]) fun u hu => ?_
  have hheard := heard_tapDataDo hl hst hsf hrun hs htag ha hsa hw ht
  rw [← hu.port] at hheard
  simpa only [Port.heard, Prod.mk.injEq] using hheard

/-! ### HELLO (03 R85, R95) -/

theorem find_config_request (x : Port) : ∃ c, ((x.request .config).waiting.find? fun d => d.kind == .config) = some c ∧ c.kind = .config := by
  obtain ⟨d, hd, hk⟩ := exists_waiting_request x .config 0
  have hsome : ((x.request .config).waiting.find? fun d => d.kind == .config).isSome = true :=
    List.find?_isSome.2 ⟨d, hd, beq_iff_eq.2 hk⟩
  obtain ⟨c, hc⟩ := Option.isSome_iff_exists.1 hsome
  have hkind := List.find?_some hc
  exact ⟨c, hc, by simpa using hkind⟩

/-- The first HELLO of a front-end that is not redundant: its serial is recorded and the CONFIG of training goes out. -/
theorem helloDo_config {s : State} {p : Nat} {b : List Byte} (hr : (s.port p).recordedSerial = none) (hv : (helloOf b).version = 1)
    (h0 : (helloOf b).model ≠ 0) (hF : (helloOf b).model ≠ 0xFFFF) (hd : (helloOf b).dual = false) :
    ∃ (z : State) (x : Port) (c : TapCmd), helloDo p b s = (z.setPort p x).drive p s.now (cmdBytes (s.port p).limits c) ∧
      Changes [.tap, .model] s z ∧ x.hello = some (helloOf b) ∧ x.recordedSerial = some (helloOf b).serial ∧ x.trainStep = 3 ∧
      x.inFlight = some c ∧ c.kind = .config := by
  unfold helloDo
  extract_lets h x moved s1 started s2 m s3 y
  have hmoved : moved = false := by simp only [moved, x, hr]
  have h2 : s2 = s1 := by simp only [s2, hmoved, Bool.false_eq_true, if_false]
  have hx : s3.port p = { x with hello := some h, recordedSerial := some h.serial, stalled := x.stalled && !moved } := by
    simp only [s3, h2]
    exact State.port_setPort_same s p _
  have h3 : Changes [.tap, .model] s s3 := by
    simp only [s3, h2]
    exact ((changes_setPort s p _).mono (by decide)).trans ((changes_model s1 _).mono (by decide))
  obtain ⟨c, hc, hk⟩ := find_config_request (s3.port p)
  have hlimits : y.limits = (s.port p).limits := by
    rw [show y.limits = (s3.port p).limits from rfl, hx]
  have hgood : (decide (h.version ≠ 1) || decide (h.model = 0) || decide (h.model = 0xFFFF)) = false := by simp [h, hv, h0, hF]
  have hsingle : (h.dual && h.otherRun) = false := by simp [h, hd]
  refine ⟨s3, { y with trainStep := 3, inFlight := some c }, c, ?_, h3, congrArg Port.hello hx, congrArg Port.recordedSerial hx, rfl, rfl, hk⟩
  rw [if_neg (by simpa using hgood), if_neg (by simpa using hsingle), hc, ← hlimits]

theorem tapHello_recorded {s : State} {t p a : Nat} {rx : TapRx} (hp : p < 128) (hty : beAt rx.bytes 0 1 = 0x82) (hacc : Accepted s p rx)
    (hstep : (s.port p).trainStep = 1) (hat : (s.port p).attemptAt = some a) (ht : s.nowAt t ≤ a + 2500000)
    (hr : (s.port p).recordedSerial = none) (hv : (helloOf rx.bytes).version = 1) (h0 : (helloOf rx.bytes).model ≠ 0)
    (hF : (helloOf rx.bytes).model ≠ 0xFFFF) (hd : (helloOf rx.bytes).dual = false) :
    ∃ u, exec (.tapHello t p rx) s = .next u ∧ HelloRecorded s u t p rx := by
  rw [← port_atTime s t] at hstep hat hr
  have hacc' : Accepted (s.atTime t) p rx := by rwa [Accepted, port_atTime]
  have hin : ((s.atTime t).port p).trainStep == 1 && !elapsedO ((s.atTime t).port p).attemptAt 2500001 (s.atTime t).now := by
    have hearly : ¬ a + 2500001 ≤ (s.atTime t).now := Nat.not_le.2 (Nat.lt_succ_of_le ht)
    simp [hstep, hat, elapsedO, elapsed, hearly]
  rw [exec_tapHello, execTapHello]
  refine whenOn_imp (decide_eq_true hp) (by simp [tapTyped_of_accepted hty hacc.1, hacc'.2.2]) fun u hu => ?_
  rw [hin, linkFrame_accepted hacc'] at hu
  obtain ⟨z, x, c, hdo, hz, hhello, hserial, htrain, hflight, hk⟩ := helloDo_config (s := (s.atTime t).setPort p ((s.atTime t).port p))
    (p := p) (b := rx.bytes) (by rw [State.port_setPort_same]; exact hr) hv h0 hF hd
  rw [hdo, State.port_setPort_same] at hu
  have hport : u.port p = { x with txAt := some (s.nowAt t) } := by
    rw [hu.port, port_drive, State.port_setPort_same]
    rfl
  refine ⟨by rw [hport, hhello], by rw [hport, hserial], by rw [hport, htrain], ⟨c, by rw [hport, hflight], hk, ?_⟩, ?_⟩
  · have hout : z.out = s.out := (hz .out (by decide)).trans (out_atTime s t)
    rw [hu.out, out_drive, length_cmdBytes_config _ hk, State.out_setPort, hout, port_atTime]
    rfl
  · refine hu.moves_from (t := t) ?_
    refine Moves.trans ((changes_setPort (s.atTime t) p ((s.atTime t).port p)).moves (by decide)) ?_
    exact (hz.moves (by decide)).trans (((changes_setPort z p x).moves (by decide)).trans ((changes_drive _ _ _ _).moves (by decide)))

/-! ### ECHO_REPLY (03 R86, R91) -/

/-- An echo result of an aligned port within 50 half nanoseconds of its trim joins the mean and gives the next trim. -/
theorem echoResult_close {x : Port} {r : Int} (now : Nat) (hl : x.alignLost = false) (hr : withinI (-50) 50 (r - 2 * x.trim) = true) :
    x.echoResult r now = { x with
      mean := (r :: x.mean).take 16, echoOutRun := 0
      trims := { at_ := now, trim := trimOf (echoMean ((r :: x.mean).take 16)), regains := false } :: x.trims } := by
  unfold Port.echoResult
  rw [hl, if_neg Bool.false_ne_true, if_pos hr]

theorem echoReplyDo_run {s : State} {p e : Nat} (startEdge : Nat) (hs : (s.port p).trainStep ≠ 4) (he : (s.port p).echoSent = some e) :
    echoReplyDo p startEdge s = s.setPort p { (s.port p).echoResult ((startEdge : Int) - e - 4000 + 2 * (s.port p).asym) s.now with
      echoSent := none } := by
  simp only [echoReplyDo, if_neg hs, he, Option.getD_some]

theorem tapEchoReply_measured {s : State} {t p e : Nat} {rx : TapRx} (hp : p < 128) (hty : beAt rx.bytes 0 1 = 0x83)
    (hacc : Accepted s p rx) (he : (s.port p).echoSent = some e) (htok : beAt rx.bytes 2 1 = (s.port p).echoToken)
    (hs : (s.port p).trainStep ≠ 4) (hl : (s.port p).alignLost = false)
    (hr : withinI (-50) 50 ((rx.startEdge : Int) - e - 4000 + 2 * (s.port p).asym - 2 * (s.port p).trim) = true) :
    ∃ u, exec (.tapEchoReply t p rx) s = .next u ∧ EchoMeasured s u t p e rx := by
  rw [← port_atTime s t] at he htok hs hl hr
  have hacc' : Accepted (s.atTime t) p rx := by rwa [Accepted, port_atTime]
  have hexp : (((s.atTime t).port p).echoSent.isSome && beAt rx.bytes 2 1 == ((s.atTime t).port p).echoToken) = true := by
    simp [he, htok]
  rw [exec_tapEchoReply, execTapEchoReply]
  refine whenOn_imp (decide_eq_true hp) (by simp [tapTyped_of_accepted hty hacc.1, hacc'.2.2]) fun u hu => ?_
  rw [hexp, linkFrame_accepted hacc', echoReplyDo_run (e := e) _ (by rwa [State.port_setPort_same]) (by rwa [State.port_setPort_same]),
    State.port_setPort_same, echoResult_close _ hl hr] at hu
  have hport := (hu.port p).trans (State.port_setPort_same _ p _)
  rw [port_atTime] at hport
  rw [EchoMeasured, hport]
  exact ⟨rfl, rfl, rfl, rfl, hu.moves_from (((changes_setPort _ p _).moves (by decide)).trans ((changes_setPort _ p _).moves (by decide)))⟩

/-! ### ACK (03 R107) -/

theorem ackDo_success {s : State} {p : Nat} {c : TapCmd} (hs : (s.port p).trainStep ≠ 3) (hk : c.kind ≠ .sleep) :
    ackDo p 0 c s = s.setPort p { (s.port p).answered c.seq with configLost := (s.port p).configLost && c.kind != .config } := by
  simp [ackDo, hs, hk, bne]

theorem tapAck_success {s : State} {t p : Nat} {rx : TapRx} {c : TapCmd} (hp : p < 128) (hty : beAt rx.bytes 0 1 = 0x84)
    (hacc : Accepted s p rx) (hf : (s.port p).inFlight = some c) (hseq : c.seq = beAt rx.bytes 2 1) (hk : c.kind ≠ .sleep)
    (hres : beAt rx.bytes 3 1 = 0) (hs : (s.port p).trainStep ≠ 3) :
    ∃ u, exec (.tapAck t p rx) s = .next u ∧ u.port p = { s.port p with
      waiting := (s.port p).waiting.filter (fun d => d.seq != c.seq), inFlight := none
      configLost := (s.port p).configLost && c.kind != .config } ∧ Only State.port p [.clock, .tap, .mbox] s u := by
  rw [← port_atTime s t] at hf hs ⊢
  have hacc' : Accepted (s.atTime t) p rx := by rwa [Accepted, port_atTime]
  have hexp : (((s.atTime t).port p).inFlight.any fun c => c.seq == beAt rx.bytes 2 1) = true := by simp [hf, hseq]
  rw [exec_tapAck, execTapAck]
  refine whenOn_imp (decide_eq_true hp) (by simp [tapTyped_of_accepted hty hacc.1, hacc'.2.2]) fun u hu => ?_
  rw [hexp, linkFrame_accepted hacc', State.port_setPort_same, hf] at hu
  simp only [hres] at hu
  rw [ackDo_success (by rwa [State.port_setPort_same]) hk, State.port_setPort_same] at hu
  exact ⟨(hu.port p).trans (State.port_setPort_same _ p _),
    hu.onlyPort ((onlyPort_setPort _ p _).trans (onlyPort_setPort _ p _)) (by decide)⟩

/-! ### A frame that both paths discard (03 R80) -/

theorem frameErrorDo_truncated {s : State} {p : Nat} {rx : TapRx} (hst : storeCheck rx = .truncated) (hsf : safetyCheck rx = .truncated)
    (hx : ((s.port p).txAt.any fun x => decide (rx.startEdge < x ∧ x ≤ s.now)) = false) :
    frameErrorDo p rx s = s.setPort p { s.port p with
      counters := { (s.port p).counters with truncated := inc64 (s.port p).counters.truncated } } := by
  unfold frameErrorDo State.linkFrame
  rw [hx, hst, hsf]
  rfl

theorem tapFrameError_truncated {s : State} {t p : Nat} {rx : TapRx} (hp : p < 128) (hst : storeCheck rx = .truncated)
    (hsf : safetyCheck rx = .truncated) (hoff : (s.port p).state ≠ .off)
    (hx : ((s.port p).txAt.any fun x => decide (rx.startEdge < x ∧ x ≤ s.nowAt t)) = false) :
    ∃ u, exec (.tapFrameError t p rx) s = .next u ∧ (u.port p).counters.truncated = inc64 (s.port p).counters.truncated ∧
      (u.port p).counters.crcErr = (s.port p).counters.crcErr ∧ (u.port p).state = (s.port p).state ∧
      Only State.port p [.clock, .tap, .mbox] s u := by
  rw [← port_atTime s t] at hoff hx ⊢
  rw [exec_tapFrameError, execTapFrameError]
  refine whenOn_imp (decide_eq_true hp) (by simp [hst, hsf, hoff]) fun u hu => ?_
  rw [frameErrorDo_truncated hst hsf hx] at hu
  rw [hu.port, State.port_setPort_same]
  exact ⟨rfl, rfl, rfl, hu.onlyPort (onlyPort_setPort _ p _) (by decide)⟩

end Sys2Proof.Machine
end

