-- ==== Sys2Proof/Proofs/TapLink.lean ====
section
/-! PROOF. What a tap port's link does by itself (O15): its alignment, missed frames, training and command window, and the strobe of a
lane at its holder's mark. -/

namespace Sys2Proof.Machine

open Sys2Proof
set_option Elab.async false

/-! ### Alignment (03 R91) -/

theorem alignLost_port {s : State} {t p : Nat} (hp : p < 128) (hrun : (s.port p).state = .run) (hl : (s.port p).alignLost = false)
    (he : 3 ≤ (s.port p).echoOutRun) : ∃ u, exec (.alignLost t p) s = .next u ∧ u.port p =
      { s.port p with alignLost := true, alignLostAt := s.nowAt t, mean := [], trims := [] } ∧
      Only State.port p [.clock, .tap, .mbox, .recorder] s u := by
  rw [← port_atTime s t] at hrun hl he ⊢
  rw [exec_alignLost, execAlignLost]
  refine whenOn_imp (decide_eq_true hp) (by simp [hrun, hl, he]) fun u hu => ⟨?_, ?_⟩
  · exact (hu.port p).trans ((port_of_tap (tap_event _ _ _ _ _ _ _ _ _ _ _ _) p).trans (State.port_setPort_same _ p _))
  · exact hu.onlyPort (((onlyPort_setPort _ p _).mono (by decide)).trans
      (((changes_event _ _ _ _ _ _ _ _ _ _ _ _).onlyPort (by decide) p).mono (qs := [.tap, .recorder]) (by decide))) (by decide)

theorem alignRegained_port {s : State} {t p : Nat} (hp : p < 128) (hl : (s.port p).alignLost = true)
    (hm : (s.port p).mean.length = 16) (hc : echoClose (s.port p).mean = true) (hr : ((s.port p).trims.any fun c => c.regains) = false) :
    ∃ u, exec (.alignRegained t p) s = .next u ∧ u.port p = { s.port p with
      trims := { at_ := s.nowAt t, trim := trimOf (echoMean (s.port p).mean), regains := true } :: (s.port p).trims } ∧
      Only State.port p [.clock, .tap, .mbox] s u := by
  rw [← port_atTime s t] at hl hm hc hr ⊢
  rw [exec_alignRegained, execAlignRegained]
  exact whenOn_imp (decide_eq_true hp) (by simp [hl, hm, hc, hr]) fun u hu =>
    ⟨(hu.port p).trans (State.port_setPort_same _ p _), hu.onlyPort (onlyPort_setPort _ p _) (by decide)⟩

theorem alignLostRetrain_train {s : State} {t p : Nat} (hp : p < 128) (hl : (s.port p).alignLost = true)
    (ht : (s.port p).alignLostAt + 10 ^ 10 ≤ s.nowAt t) : ∃ u, exec (.alignLostRetrain t p) s = .next u ∧ (u.port p).state = .train ∧
      (u.port p).alignLost = false ∧ (u.port p).failRun = 0 := by
  rw [← port_atTime s t] at hl ht
  rw [exec_alignLostRetrain, execAlignLostRetrain]
  refine whenOn_imp (decide_eq_true hp) (by simpa [hl, elapsed] using ht) fun u hu => ?_
  obtain ⟨since, hport⟩ := port_toTrain (s.atTime t) p
  rw [hu.port, hport]
  exact ⟨rfl, rfl, rfl⟩

/-! ### Missed frames (03 R97, R98) -/

theorem missedFrame_counted {s : State} {t p : Nat} {y : SyncRec} (hp : p < 128) (hrun : (s.port p).state = .run)
    (hs : (s.port p).sync = some y) (hj : y.judged = false) (ht : y.t0 + 150000 ≤ s.nowAt t) :
    ∃ u, exec (.missedFrame t p) s = .next u ∧ (u.port p).missRun = (s.port p).missRun + 1 ∧
      (u.port p).counters.missed = inc64 (s.port p).counters.missed ∧ (u.port p).sync = some { y with judged := true } ∧
      Moves [.tap, .sound] s u := by
  rw [← port_atTime s t] at hrun hs ⊢
  rw [exec_missedFrame, execMissedFrame]
  refine whenOn_imp (decide_eq_true hp) (by simp [hs, hj, ht]) fun u hu => ?_
  extract_lets x tag k z1 at hu
  obtain ⟨z, hz, hset⟩ : ∃ z, Changes [.sound] z1 z ∧ Settled z u := by
    split at hu
    · exact ⟨z1, Changes.refl _ z1, hu⟩
    · split at hu
      · exact ⟨_, changes_capture z1 _ p none tag, hu⟩
      · exact ⟨z1, Changes.refl _ z1, hu⟩
  have hport : u.port p = _ := (hset.port p).trans ((hz.port (by decide) p).trans (State.port_setPort_same _ p _))
  rw [hport, hrun, hs]
  exact ⟨rfl, rfl, rfl, hset.moves_from (((changes_setPort (s.atTime t) p _).moves (by decide)).trans (hz.moves (by decide)))⟩

theorem changes_markStalled (s : State) (p : Nat) : Changes [.sound] s (s.markStalled p) := by
  unfold State.markStalled
  split
  · exact Changes.refl _ s
  · exact changes_setLaneSound s _ _

theorem tapStall_train {s : State} {t p : Nat} (hp : p < 128) (hrun : (s.port p).state = .run) (hm : 3 ≤ (s.port p).missRun) :
    ∃ u, exec (.tapStall t p) s = .next u ∧ (u.port p).state = .train ∧
      (u.port p).counters.stalls = inc64 (s.port p).counters.stalls ∧ (u.port p).ring = (s.port p).ring.map markerSample := by
  rw [← port_atTime s t] at hrun hm ⊢
  rw [exec_tapStall, execTapStall]
  refine whenOn_imp (decide_eq_true hp) (by simp [hrun, hm]) fun u hu => ?_
  have hevent : ((s.atTime t).event evTapStall 2 p).port p = (s.atTime t).port p :=
    port_of_tap (tap_event _ _ _ _ _ _ _ _ _ _ _ _) p
  rw [State.updPort_eq, hevent] at hu
  obtain ⟨since, hport⟩ := port_toTrain (((s.atTime t).event evTapStall 2 p).setPort p { (s.atTime t).port p with
    ring := ((s.atTime t).port p).ring.map markerSample, stalled := true
    counters := { ((s.atTime t).port p).counters with stalls := inc64 ((s.atTime t).port p).counters.stalls } }) p
  rw [hu.port, (changes_markStalled _ p).port (by decide), hport, State.port_setPort_same]
  exact ⟨rfl, rfl, rfl⟩

/-! ### The command window (03 R88, R89) -/

theorem tablesRun_atTime (s : State) (t : Nat) : (s.atTime t).tablesRun = s.tablesRun := by
  unfold State.tablesRun
  rw [power_atTime]
theorem laneOfPort_atTime (s : State) (t p : Nat) : (s.atTime t).laneOfPort p = s.laneOfPort p := by
  simp only [State.laneOfPort, State.lane, lanes_atTime]
theorem laneSound_atTime (s : State) (t n : Nat) : (s.atTime t).laneSound n = s.laneSound n := by
  rw [State.laneSound, sound_atTime, ← State.laneSound]

/-- In SLACK a lane has no instant before one is armed. -/
theorem nextInstant_slack {s : State} (n : Nat) (hp : s.power.state = .slack) (ha : s.table.armed = []) : s.nextInstant n = none := by
  unfold State.nextInstant
  rw [ha, hp]
  rfl
theorem capturing_eq_false {s : State} {n : Nat} (p : Nat) (h : (s.laneSound n).steps = []) : s.capturing n p = false := by
  unfold State.capturing
  rw [h]
  split <;> rfl
/-- A command that may be sent again is not given up. -/
theorem waiting_dropUnanswered {x : Port} {c : TapCmd} (hw : x.waiting = [c]) (hc : c.sends < 3) : x.dropUnanswered.waiting = [c] := by
  simp [Port.dropUnanswered, hw, hc]

/-- With no instant ahead and no capture, the window's exchange is the CONFIG that waits. -/
theorem windowDo_config {s : State} {p n : Nat} {c : TapCmd} (hpow : s.power.state = .slack) (ha : s.table.armed = [])
    (hn : s.laneOfPort p = some n) (hst : (s.laneSound n).steps = []) (hw : (s.port p).waiting = [c]) (hc : c.sends < 3)
    (hk : c.kind = .config) :
    windowDo p s = (s.setPort p { (s.port p).dropUnanswered with windowOpen := true }).sendCmd p c := by
  have hsend : (s.port p).dropUnanswered.sendable = some c := by simp [Port.sendable, waiting_dropUnanswered hw hc, hk]
  unfold windowDo
  simp only [hn, Option.bind_some, nextInstant_slack n hpow ha, capturing_eq_false p hst, hsend, Bool.false_eq_true, if_false, if_true]

theorem port_sendCmd (s : State) (p : Nat) (c : TapCmd) : (s.sendCmd p c).port p = { s.port p with
    inFlight := some { c with sends := c.sends + 1 }, txAt := some s.now
    waiting := (s.port p).waiting.map fun k => if k.seq == c.seq then { c with sends := c.sends + 1 } else k } :=
  (port_drive _ p _ _).trans (congrArg (fun x : Port => { x with txAt := some s.now }) (State.port_setPort_same s p _))
theorem out_sendCmd_config (s : State) (p : Nat) {c : TapCmd} (hk : c.kind = .config) :
    (s.sendCmd p c).out = .tap p s.now (s.now + 18 * 640 - 40) (cmdBytes (s.port p).limits c) :: s.out := by
  unfold State.sendCmd
  rw [out_drive, length_cmdBytes_config _ hk]
  rfl
theorem changes_sendCmd (s : State) (p : Nat) (c : TapCmd) : Changes [.tap, .out] s (s.sendCmd p c) :=
  ((changes_tap s _).mono (by decide)).trans (changes_drive _ _ _ _)

theorem commandWindow_sent {s : State} {t p n : Nat} {y : SyncRec} {c : TapCmd} (hp : p < 128) (hrun : (s.port p).state = .run)
    (hpow : s.power.state = .slack) (ha : s.table.armed = []) (ho : (s.port p).windowOpen = false) (hs : (s.port p).sync = some y)
    (ht : y.t0 + 150000 ≤ s.nowAt t) (hn : s.laneOfPort p = some n) (hst : (s.laneSound n).steps = [])
    (hw : (s.port p).waiting = [c]) (hc : c.sends < 3) (hk : c.kind = .config) :
    ∃ u, exec (.commandWindow t p) s = .next u ∧ CommandSentInWindow s u t p c := by
  have htables : s.tablesRun = true := by simp [State.tablesRun, hpow]
  unfold CommandSentInWindow
  rw [← port_atTime s t, ← out_atTime s t]
  rw [← port_atTime s t] at hrun ho hs hw
  rw [exec_commandWindow, execCommandWindow]
  refine whenOn_imp (decide_eq_true hp) (by simp [hrun, tablesRun_atTime, htables, ho, hs, ht]) fun u hu => ?_
  rw [windowDo_config (by rwa [power_atTime]) (by rwa [table_atTime]) (by rwa [laneOfPort_atTime]) (by rwa [laneSound_atTime]) hw hc
    hk] at hu
  have hport := (hu.port p).trans (port_sendCmd _ p c)
  rw [State.port_setPort_same] at hport
  rw [hport]
  refine ⟨rfl, ?_, rfl, ?_, hu.moves_from (((changes_setPort (s.atTime t) p _).moves (by decide)).trans
    ((changes_sendCmd _ p c).moves (by decide)))⟩
  · simp [waiting_dropUnanswered hw hc]
  · rw [hu.out, out_sendCmd_config _ p hk, State.port_setPort_same]
    rfl

/-! ### Training (03 R94) -/

theorem trainingAttempt_started {s : State} {t p : Nat} (hp : p < 128) (hst : (s.port p).state = .train)
    (ha : (s.port p).attemptAt = none) (hf : (s.port p).failRun = 0) (hb : s.power.state ≠ .beached) :
    ∃ u, exec (.trainingAttempt t p) s = .next u ∧ (u.port p).attemptAt = some (s.nowAt t) ∧ (u.port p).trainStep = 1 ∧
      (u.port p).counters.attempts = inc64 (s.port p).counters.attempts ∧ u.out = .tone p :: s.out ∧
      Only State.port p [.clock, .tap, .out, .mbox] s u := by
  rw [← port_atTime s t, ← out_atTime s t]
  rw [← port_atTime s t] at hst ha hf
  rw [exec_trainingAttempt, execTrainingAttempt]
  refine whenOn_imp (decide_eq_true hp) (by simp [hst, ha, hf, hb]) fun u hu => ?_
  rw [hu.port, port_trainStart, hu.out]
  exact ⟨rfl, rfl, rfl, rfl, hu.onlyPort (onlyPort_trainStart _ p) (by decide)⟩

theorem trainingRetry_started {s : State} {t p : Nat} (hp : p < 128) (ha : (s.port p).attemptAt = none)
    (hb : s.power.state ≠ .beached) (hst : (s.port p).state = .failed) (hf : (s.port p).failedAt + 10 ^ 10 ≤ s.nowAt t) :
    ∃ u, exec (.trainingRetry t p) s = .next u ∧ (u.port p).attemptAt = some (s.nowAt t) ∧ (u.port p).trainStep = 1 ∧
      u.out = .tone p :: s.out ∧ Moves [.tap, .out] s u := by
  rw [← out_atTime s t]
  rw [← port_atTime s t] at hst ha hf
  rw [exec_trainingRetry, execTrainingRetry]
  refine whenOn_imp (decide_eq_true hp) (by simpa [hst, ha, hb, elapsed] using hf) fun u hu => ?_
  rw [hu.port, port_trainStart, hu.out]
  exact ⟨rfl, rfl, rfl, hu.moves_from ((onlyPort_trainStart _ p).2.moves (by decide))⟩

theorem alarmOn_of_recorder {s t : State} (h : t.recorder = s.recorder) (c k o : Nat) : t.alarmOn c k o = s.alarmOn c k o := by
  unfold State.alarmOn
  rw [h]

theorem trainingTimeout_failed {s : State} {t p a : Nat} (hp : p < 128) (ha : (s.port p).attemptAt = some a)
    (ht : a + 50000000 ≤ s.nowAt t) (hf : (s.port p).failRun = 2) : ∃ u, exec (.trainingTimeout t p) s = .next u ∧
      (u.port p).state = .failed ∧ (u.port p).failRun = 3 ∧ (u.port p).attemptAt = none ∧ (u.port p).failedAt = s.nowAt t ∧
      u.alarmOn evTapFailed 2 p = true ∧ Only State.port p [.clock, .tap, .mbox, .recorder] s u := by
  rw [← port_atTime s t] at ha hf
  rw [exec_trainingTimeout, execTrainingTimeout]
  refine whenOn_imp (decide_eq_true hp) (by simp [ha, elapsedO, elapsed, ht]) fun u hu => ?_
  rw [trainFail_third hf] at hu
  have hport := (hu.port p).trans ((port_of_tap (tap_raise _ _ _ _ _ _ _) p).trans (State.port_setPort_same _ p _))
  rw [hport, alarmOn_of_recorder (hu.changes .recorder (by decide)), alarmOn_raise]
  exact ⟨rfl, rfl, rfl, rfl, rfl, hu.onlyPort (((onlyPort_setPort _ p _).mono (by decide)).trans
    (((changes_raise _ _ _ _ _ _ _).onlyPort (by decide) p).mono (qs := [.tap, .recorder]) (by decide))) (by decide)⟩

/-! ### The holder's mark (03 R103) -/

theorem followsTwin_atTime (s : State) (t n : Nat) : (s.atTime t).followsTwin n = s.followsTwin n := by
  unfold State.followsTwin State.laneRole
  rw [net_atTime]

theorem urgentRequest_idle {s : State} {k : Nat} (c : Conversion) (rest : List Conversion) (hs : (s.conv k).stopped = false)
    (hr : (s.conv k).running = none) :
    s.urgentRequest k (c :: rest) = s.setConv k { s.conv k with running := some c, urgent := rest } := by
  simp only [State.urgentRequest, hs, hr, Bool.false_eq_true, if_false]

/-- On an idle converter the strobe of a lane runs at once, whether a PWM request is merged into it or not. -/
theorem strobeLane_idle {s : State} {n : Nat} (hold tag : Nat) (hs : (s.conv (2 * n + 1)).stopped = false)
    (hr : (s.conv (2 * n + 1)).running = none) : ∃ v : Converter, s.strobeLane n hold tag = s.setConv (2 * n + 1) v ∧
      ∃ c, v.running = some c ∧ c.holdAt = hold ∧ c.input = 12 * n + 6 ∧ c.source = 1 := by
  unfold State.strobeLane
  extract_lets mk
  split
  · exact ⟨_, urgentRequest_idle _ _ hs hr, _, rfl, rfl, rfl, rfl⟩
  · exact ⟨_, urgentRequest_idle _ _ hs hr, _, rfl, rfl, rfl, rfl⟩

theorem helmHolderMark_strobed {s : State} {t n a : Nat} (hn : n < 8) (hpow : s.power.state = .full) (hf : s.followsTwin n = true)
    (hm : tget 0 s.net.helmMark n < a) (hs : (s.conv (2 * n + 1)).stopped = false) (hr : (s.conv (2 * n + 1)).running = none) :
    ∃ u, exec (.helmHolderMark t n a) s = .next u ∧ u.net = { s.net with helmMark := tset s.net.helmMark n a } ∧
      (u.lane n).helmIn = true ∧ (∃ c, (u.conv (2 * n + 1)).running = some c ∧ c.holdAt = a - Config.twinDelay ∧
      c.input = 12 * n + 6 ∧ c.source = 1) ∧ Moves [.net, .lanes, .ana] s u := by
  have htables : s.tablesRun = true := by simp [State.tablesRun, hpow]
  have hconv : (s.atTime t).conv (2 * n + 1) = s.conv (2 * n + 1) := by rw [State.conv, ana_atTime, ← State.conv]
  rw [← hconv] at hs hr
  rw [exec_helmHolderMark, execHelmHolderMark]
  refine whenOn_imp (decide_eq_true hn) (by simp [tablesRun_atTime, htables, followsTwin_atTime, hf, hm]) fun u hu => ?_
  extract_lets k z1 z2 hold at hu
  obtain ⟨v, hv, hrunning⟩ := strobeLane_idle (s := z2) hold (z2.nearestInstant n (z2.posAt hold)) hs hr
  rw [hv] at hu
  have hz2 : Changes [.net, .lanes] (s.atTime t) z2 :=
    ((changes_net _ _).mono (by decide)).trans ((changes_setLane z1 n _).mono (by decide))
  have hall : Changes [.net, .lanes, .ana] (s.atTime t) (z2.setConv (2 * n + 1) v) :=
    (hz2.mono (by decide)).trans ((changes_setConv z2 _ v).mono (by decide))
  have hnet : u.net = z2.net := hu.changes .net (by decide)
  have hlane : u.lane n = z2.lane n := by
    have hlanes : u.lanes = z2.lanes := hu.changes .lanes (by decide)
    rw [State.lane, hlanes, ← State.lane]
  have hv' : u.conv (2 * n + 1) = v := by
    rw [State.conv, hu.ana, ← State.conv]
    exact State.conv_setConv_same z2 _ v
  refine ⟨?_, ?_, by rw [hv']; exact hrunning, hu.moves_from (hall.moves (by decide))⟩
  · rw [hnet, ← net_atTime s t]
    rfl
  · rw [hlane]
    exact congrArg Lane.helmIn (State.lane_setLane_same z1 n _)

/-- Settles O15: one lemma for each frame and event. -/
theorem tapLinkEventsComplete : Obligations.TapLinkEventsComplete := by
  intro s t p a e n rx y c
  refine ⟨?data, ?hello, ?echo, ?lost, ?regained, ?retrain, tapAck_success, ?cut, ?missed, tapStall_train, ?window,
    trainingAttempt_started, trainingTimeout_failed, trainingRetry_started, ?mark⟩
  case data =>
    intro hp hty hl hst hsf hrun hs htag ha hsa hw ht
    exact tapData_taken hp hty hl hst hsf hrun hs htag (by simpa using ha) (by simpa using hsa) hw ht
  case hello =>
    intro hp hty hacc hstep hat ht hr hv h0 hF hd
    exact tapHello_recorded hp hty hacc hstep hat ht hr hv h0 hF (by simpa using hd)
  case echo =>
    intro hp hty hacc he htok hs hl h1 h2
    exact tapEchoReply_measured hp hty hacc he htok hs (by simpa using hl) (decide_eq_true ⟨h1, h2⟩)
  case lost => exact fun hp hrun hl he => alignLost_port hp hrun (by simpa using hl) he
  case regained => exact fun hp hl hm hc hr => alignRegained_port hp hl hm hc (by simpa using hr)
  case retrain =>
    intro hp hl ht
    obtain ⟨u, hu, htrain, halign, hfail⟩ := alignLostRetrain_train hp hl ht
    exact ⟨u, hu, htrain, by simpa using halign, hfail⟩
  case cut => exact fun hp hst hsf hoff hx => tapFrameError_truncated hp hst hsf hoff (by simpa using hx)
  case missed => exact fun hp hrun hs hj ht => missedFrame_counted hp hrun hs (by simpa using hj) ht
  case window =>
    intro hp hrun hpow ha ho hs ht hn hst hw hc hk
    exact commandWindow_sent hp hrun hpow ha (by simpa using ho) hs ht hn hst hw hc hk
  case mark => exact fun hn hpow hf hm hs hr => helmHolderMark_strobed hn hpow hf hm (by simpa using hs) hr

end Sys2Proof.Machine
end

