-- ==== Sys2Proof/Proofs/AnalogueParts.lean ====
section
/-! PROOF. One record of the analogue part at a time: what a write leaves elsewhere, and what the DACs, the local signals and the
converters' operations change. -/

namespace Sys2Proof.Machine

open Sys2Proof
set_option Elab.async false

/-! ### One record alone -/

theorem onlyInput_setInput (s : State) (k : Nat) (x : Input) : Only State.input k [.ana] s (s.setInput k x) :=
  ⟨fun _ hj => State.input_setInput_ne s x hj, changes_ana s _⟩
theorem onlyConv_setConv (s : State) (k : Nat) (x : Converter) : Only State.conv k [.ana] s (s.setConv k x) :=
  ⟨fun _ hj => State.conv_setConv_ne s x hj, changes_ana s _⟩
theorem onlyDac_setDac (s : State) (k : Nat) (x : Dac) : Only State.dac k [.ana] s (s.setDac k x) :=
  ⟨fun _ hj => State.dac_setDac_ne s x hj, changes_ana s _⟩
theorem onlyTach_setTach (s : State) (k : Nat) (x : Tach) : Only State.tach k [.ana] s (s.setTach k x) :=
  ⟨fun _ hj => State.tach_setTach_ne s x hj, changes_ana s _⟩

theorem input_of_ana {s t : State} (h : t.ana = s.ana) (k : Nat) : t.input k = s.input k := by
  unfold State.input
  rw [h]
theorem icv_of_ana {s t : State} (h : t.ana = s.ana) (n : Nat) : t.icv n = s.icv n := by
  unfold State.icv
  rw [h]
theorem dac_of_ana {s t : State} (h : t.ana = s.ana) (k : Nat) : t.dac k = s.dac k := by
  unfold State.dac
  rw [h]
theorem Changes.onlyInput {ps : List Part} {s t : State} (h : Changes ps s t) (hp : .ana ∉ ps) (k : Nat) : Only State.input k ps s t :=
  ⟨fun j _ => input_of_ana (h .ana hp) j, h⟩

/-- No path's answer touches the analogue part. -/
theorem Envelope.ana {src : Source} {z u : State} (h : Envelope src z u) : u.ana = z.ana :=
  h.rest .ana (by cases src.path <;> decide)

/-! ### An event that has not arisen (log entry 25) -/

theorem wheneverOn_notArisen {e : Bool} {s : State} {t : Nat} {c : State → Bool} {f : State → State} (he : e = true)
    (h : c (s.atTime t) = false) : wheneverOn e s t c f = .next (s.atTime t) := by
  simp only [wheneverOn, whenever, he, h, if_true, Bool.false_eq_true, if_false]

/-! ### Writes to a DAC (R129) -/

theorem Dac.write_otherRange {d : Dac} {r : Nat} (now c : Nat) (h : r ≠ d.range) : d.write now r c =
    { d with range := r, code := 0, stored := c, settleUntil := some (now + 20000), written := true } := if_pos h
theorem Dac.write_settling {d : Dac} (now c : Nat) (h : d.settleUntil.isSome = true) :
    d.write now d.range c = { d with stored := c, written := true } := by
  simp only [Dac.write, ne_eq, not_true_eq_false, if_false, h, if_true]
theorem Dac.write_settled {d : Dac} (now c : Nat) (h : d.settleUntil = none) :
    d.write now d.range c = { d with code := c, stored := c, written := true } := by
  simp only [Dac.write, ne_eq, not_true_eq_false, if_false, h, Option.isSome_none, Bool.false_eq_true]
theorem dac_dacValue (s : State) (k r c : Nat) :
    (s.dacValue k r c).dac k = { (s.dac k).write s.now r c with safe := false } := State.dac_setDac_same s k _

/-! ### Local signals and the outputs that follow them (R130, R134) -/

/-- From `s` to `t` only outputs, signals and cooling loops differ: no tachometer does. -/
structure OutputsFollow (s t : State) : Prop where
  changes : Changes [.ana, .therm, .ten] s t
  tach : ∀ k, t.tach k = s.tach k

theorem OutputsFollow.refl (s : State) : OutputsFollow s s := ⟨Changes.refl _ s, fun _ => rfl⟩
theorem OutputsFollow.trans {s t u : State} (h : OutputsFollow s t) (g : OutputsFollow t u) : OutputsFollow s u :=
  ⟨h.changes.trans g.changes, fun k => (g.tach k).trans (h.tach k)⟩
theorem outputsFollow_foldl {α : Type} {f : State → α → State} (h : ∀ z x, OutputsFollow z (f z x)) (l : List α) (s : State) :
    OutputsFollow s (l.foldl f s) := by
  induction l generalizing s with
  | nil => exact OutputsFollow.refl s
  | cons x r ih => exact (h s x).trans (ih _)

theorem outputsFollow_setDac (s : State) (k : Nat) (x : Dac) : OutputsFollow s (s.setDac k x) :=
  ⟨(changes_ana s _).mono (by decide), fun _ => rfl⟩
theorem outputsFollow_setAux (s : State) (k : Nat) (x : AuxPwm) : OutputsFollow s (s.setAux k x) :=
  ⟨(changes_therm s _).mono (by decide), fun _ => rfl⟩
theorem outputsFollow_setCoolLoop (s : State) (k : Nat) (x : CoolLoop) : OutputsFollow s (s.setCoolLoop k x) :=
  ⟨(changes_therm s _).mono (by decide), fun _ => rfl⟩
theorem outputsFollow_setSigLocal (s : State) (h : Nat) (v : SigVal) : OutputsFollow s (s.setSigLocal h v) := by
  refine ⟨fun p hp => ?_, fun _ => rfl⟩
  cases p <;> simp_all [Part.same, State.setSigLocal]

theorem outputsFollow_followSignal (s : State) (h : Nat) : OutputsFollow s (s.followSignal h) := by
  unfold State.followSignal
  extract_lets v code s1
  clear_value code
  have dacs : OutputsFollow s s1 := by
    refine outputsFollow_foldl (fun z k => ?_) _ s
    split
    · split
      · exact outputsFollow_setDac z k _
      · split
        · exact OutputsFollow.refl z
        · exact outputsFollow_setDac z k _
    · exact OutputsFollow.refl z
  refine dacs.trans (outputsFollow_foldl (fun z k => ?_) _ s1)
  split
  · exact outputsFollow_setAux z k _
  · exact OutputsFollow.refl z
theorem outputsFollow_signalOf (s : State) (what obj typ : Nat) (v : Int) : OutputsFollow s (s.signalOf what obj typ v) := by
  unfold State.signalOf State.moduleSignal State.publishLocal
  exact (outputsFollow_setSigLocal s _ _).trans (outputsFollow_followSignal _ _)
theorem outputsFollow_watchCooling (s : State) : OutputsFollow s s.watchCooling := by
  refine outputsFollow_foldl (fun z k => ?_) _ s
  dsimp only
  split
  · exact OutputsFollow.refl z
  · exact outputsFollow_setCoolLoop z k _
theorem outputsFollow_tachSignals (s : State) (k : Nat) : OutputsFollow s (s.tachSignals k) := by
  unfold State.tachSignals
  exact (((outputsFollow_watchCooling s).trans (outputsFollow_signalOf _ _ _ _ _)).trans (outputsFollow_signalOf _ _ _ _ _)).trans
    (outputsFollow_signalOf _ _ _ _ _)

/-! ### Requests on a converter (R113, R115) -/

/-- What a converter starts next is written to that converter, whose table run goes on. -/
theorem startNext_setConv (s : State) (k at_ : Nat) :
    ∃ v : Converter, s.startNext k at_ = s.setConv k v ∧ v.run = (s.conv k).run := by
  fun_cases State.startNext s k at_ <;> exact ⟨_, rfl, rfl⟩

/-- A SOFT request on a converter that has nothing to do holds as soon as the scheduled requests let it. -/
theorem running_startNext_soft {s : State} {k : Nat} (at_ : Nat) {c : Conversion} {r : List Conversion} (hu : (s.conv k).urgent = [])
    (ha : (s.conv k).aborted = none) (hr : (s.conv k).run = none) (hs : (s.conv k).soft = c :: r) :
    ((s.startNext k at_).conv k).running = some { c with holdAt := s.clearOf k (max at_ c.holdAt) } := by
  have noEntry : (s.conv k).nextEntry k at_ = none := by
    unfold Converter.nextEntry
    rw [hr]
  unfold State.startNext
  simp only [hu, ha, hs, noEntry, if_true, State.conv_setConv_same]

theorem changes_startNext (s : State) (k at_ : Nat) : Changes [.ana] s (s.startNext k at_) := by
  obtain ⟨v, hv, -⟩ := startNext_setConv s k at_
  rw [hv]
  exact changes_setConv s k v
theorem changes_softRequest (s : State) (k : Nat) (c : Conversion) : Changes [.ana] s (s.softRequest k c) := by
  unfold State.softRequest
  extract_lets v idle s1
  have h1 : Changes [.ana] s s1 := changes_setConv s k _
  split
  · exact Changes.refl _ s
  · split
    · exact h1.trans (changes_startNext s1 k _)
    · exact h1
/-- A request leaves the calibrations under way as they were. -/
theorem calJobs_softRequest (s : State) (k : Nat) (c : Conversion) : (s.softRequest k c).ana.calJobs = s.ana.calJobs := by
  unfold State.softRequest
  extract_lets v idle s1
  obtain ⟨w, hw, -⟩ := startNext_setConv s1 k c.holdAt
  split
  · rfl
  · split
    · rw [hw]
      rfl
    · rfl

/-- A SOFT request on an idle converter runs at once. -/
theorem running_softRequest_idle {s : State} {k : Nat} (c : Conversion) (hst : (s.conv k).stopped = false)
    (hrun : (s.conv k).running = none) (hu : (s.conv k).urgent = []) (ha : (s.conv k).aborted = none) (hr : (s.conv k).run = none)
    (hs : (s.conv k).soft = []) : ∃ x, ((s.softRequest k c).conv k).running = some { c with holdAt := x } := by
  obtain ⟨s1, h1⟩ : ∃ s1, s1 = s.setConv k { s.conv k with soft := [c], running := none } := ⟨_, rfl⟩
  have hv : s1.conv k = { s.conv k with soft := [c], running := none } := h1 ▸ State.conv_setConv_same s k _
  have starts : s.softRequest k c = s1.startNext k c.holdAt := by
    simp only [State.softRequest, hst, hrun, hs, Option.all_none, List.nil_append, Bool.false_eq_true, if_false, if_true, h1]
  rw [starts]
  exact ⟨_, running_startNext_soft _ (by rw [hv, hu]) (by rw [hv, ha]) (by rw [hv, hr]) (by rw [hv])⟩

/-- A table starts on a converter that runs none. -/
theorem startTable_idle {s : State} {k t : Nat} (byFiring : Bool) (at_ : Nat) (hst : (s.conv k).stopped = false)
    (ht : ((s.conv k).table t).isEmpty = false) (hr : (s.conv k).run = none) :
    (∃ r, ((s.startTable k t byFiring at_).conv k).run = some r ∧ r.table = t ∧ r.byFiring = byFiring) ∧
      Only State.conv k [.ana] s (s.startTable k t byFiring at_) := by
  unfold State.startTable
  extract_lets v r s1
  have hrun : (s1.conv k).run = some r := congrArg Converter.run (State.conv_setConv_same s k _)
  have h1 : Only State.conv k [.ana] s s1 := onlyConv_setConv s k _
  obtain ⟨w, hw, hwrun⟩ := startNext_setConv s1 k at_
  rw [if_neg (by simp [v, hst, ht]), if_neg (by simp [v, hr])]
  split
  · rw [hw]
    exact ⟨⟨r, by rw [State.conv_setConv_same, hwrun, hrun], rfl, rfl⟩, h1.trans (onlyConv_setConv s1 k w)⟩
  · exact ⟨⟨r, hrun, rfl, rfl⟩, h1⟩

end Sys2Proof.Machine
end

