-- ==== Sys2Proof/Proofs/DacCommands.lean ====
section
/-! PROOF. DAC.SET and the end of a range change (O55). -/

namespace Sys2Proof.Machine

open Sys2Proof
set_option Elab.async false

/-- DAC.SET over the output's own path is a write to it. -/
theorem dacSet_written {s : State} {src : Source} {k r c : Nat} (hr : Taken s src 0x0902) (hk : k < 8) (hrange : r < 2)
    (hc : c < 65536) (hsrc : (s.dac k).source = .path src.path) :
    ∃ u, exec (.dacSet src k r c) s = .next u ∧ Answered s u src 0x0902 [] (s.dacValue k r c) := by
  rw [exec_dacSet, execDacSet]
  refine taken_ok hr (by decide) ?_ rfl rfl
  unfold dacSetDo
  rw [checked_of_all _ (by simp [hk, hrange, hc]), if_pos (by simpa using hsrc)]
  rfl

/-- What DAC.SET leaves in the output. -/
theorem dacSet_dac {s : State} {src : Source} {k r c : Nat} (hr : Taken s src 0x0902) (hk : k < 8) (hrange : r < 2)
    (hc : c < 65536) (hsrc : (s.dac k).source = .path src.path) :
    ∃ u, exec (.dacSet src k r c) s = .next u ∧ u.dac k = { (s.dac k).write s.now r c with safe := false } := by
  obtain ⟨u, hu, -, henv⟩ := dacSet_written hr hk hrange hc hsrc
  exact ⟨u, hu, (dac_of_ana henv.ana k).trans (dac_dacValue s k r c)⟩

theorem dacRangeSettle_early {s : State} {k e t : Nat} (hk : k < 8) (hs : (s.dac k).settleUntil = some e)
    (he : (s.atTime t).now < e) : exec (.dacRangeSettle t k) s = .next (s.atTime t) := by
  rw [← dac_of_ana (ana_atTime s t)] at hs
  rw [exec_dacRangeSettle, execDacRangeSettle]
  exact wheneverOn_notArisen (decide_eq_true hk) (by simpa [hs, elapsedO, elapsed] using he)

/-- At the end of a range change the code kept last is driven, and no other output changes. -/
theorem dacRangeSettle_driven {s : State} {k e t : Nat} (hk : k < 8) (hs : (s.dac k).settleUntil = some e)
    (he : e ≤ (s.atTime t).now) : ∃ u, exec (.dacRangeSettle t k) s = .next u ∧
      u.dac k = { s.dac k with code := (s.dac k).stored, settleUntil := none } ∧ ∀ j, j ≠ k → u.dac j = s.dac j := by
  simp only [← dac_of_ana (ana_atTime s t)] at hs ⊢
  rw [exec_dacRangeSettle, execDacRangeSettle]
  refine whenOn_imp (decide_eq_true hk) (by simpa [hs, elapsedO, elapsed] using he) fun u hu => ⟨?_, fun j hj => ?_⟩
  · exact (dac_of_ana hu.ana k).trans (State.dac_setDac_same _ k _)
  · exact (dac_of_ana hu.ana j).trans (State.dac_setDac_ne _ _ hj)

/-- Settles O55: the two clauses of DAC.SET are the cases of a write, the two of the event its condition. -/
theorem aRangeChangeDrivesZeroFirst : Obligations.ARangeChangeDrivesZeroFirst := by
  intro s src k r c e t
  refine ⟨?change, ?within, ?ends, dacRangeSettle_early⟩
  case change =>
    intro hr hk hrange hc hsrc hne
    obtain ⟨u, hu, hdac⟩ := dacSet_dac hr hk hrange hc hsrc
    rw [Dac.write_otherRange _ _ hne] at hdac
    exact ⟨u, hu, by rw [hdac], by rw [hdac], by rw [hdac], by rw [hdac]⟩
  case within =>
    intro hr hk hrange hc hsrc hs
    obtain ⟨u, hu, hdac⟩ := dacSet_dac hr hk hrange hc hsrc
    rw [Dac.write_settling _ _ (by rw [hs]; rfl)] at hdac
    exact ⟨u, hu, by rw [hdac], by rw [hdac], by rw [hdac], by rw [hdac, hs]⟩
  case ends =>
    intro hk hs he
    obtain ⟨u, hu, hdac, hothers⟩ := dacRangeSettle_driven hk hs he
    exact ⟨u, hu, by rw [hdac], by rw [hdac], by rw [hdac], hothers⟩

end Sys2Proof.Machine
end

