-- ==== Sys2Proof/Proofs/AnalogueCommands.lean ====
section
/-! PROOF. The ANALOG, ICV, DAC and TACH commands (O16): each passes its checks with operands in range, and is answered, or taken up to
be answered later, on the state that its handler leaves. -/

namespace Sys2Proof.Machine

open Sys2Proof
set_option Elab.async false

/-- A command that is no STATUS and is answered later is being executed on the state that its handler leaves. -/
theorem taken_later {src : Source} {code : Nat} {h : State → Answer} {s z : State} (hr : Taken s src code)
    (hc : isStatus code = false) (ha : h s = later z) : ∃ u, runCommand src code h s = .next u ∧ Executing u src code z := by
  have hg : gate s src code = .runs := hr.1
  have hruns : s.runs h = later z := by rw [runs_outside h (not_beached_of_taken hr hc), ha]
  obtain ⟨b, hb⟩ : ∃ b, b = { z.box src.path src.box with executing := some code, state := .executing } := ⟨_, rfl⟩
  have hset : Settled (z.setBox b) (settle s (z.setBox b)) := settle_settled _ _
  have hbox : Changes [.mbox] z (z.setBox b) := by
    intro p hp
    cases p <;> simp_all [Part.same, State.setBox]
  refine ⟨settle s (z.setBox b), ?_, hbox.trans hset.changes, ?_, settle_responses _ _⟩
  · simp only [runCommand, hg, hruns, later, done, hb]
  · rw [hset.box, box_setBox_same z b (by rw [hb, box_path]) (by rw [hb, box_box]), hb]

/-! ### Inputs and tables (R109, R115, R116, R135) -/

theorem all_nameable {s : State} {ks : List Nat} (ha : ∀ k ∈ ks, s.armedInput k = false) (hg : ∀ k ∈ ks, s.gridInput k = false) :
    ∀ c ∈ s.nameable ks, c.1 = true := by
  simpa [State.nameable] using ⟨ha, hg⟩

theorem analogInputSet_stored {s : State} {src : Source} {k h : Nat} {c : InputClass} {sc : Int} (hr : Taken s src 0x0701)
    (hk : k < 96) (hsc : withinI (-2147483648) 2147483647 sc = true) (hh : h < 4096) (ha : s.armedInput k = false)
    (hg : s.gridInput k = false) (hf : s.fixedInput k = false ∨ c = positionClass k) (hcal : s.calibrating (.input k) = false) :
    ∃ u, exec (.analogInputSet src k c sc h) s = .next u ∧
      Answered s u src 0x0701 [] (s.setInput k { s.input k with cls := c, scale := sc, handle := some h }) := by
  rw [exec_analogInputSet, execAnalogInputSet]
  refine taken_ok hr (by decide) (checked_of_all _ ?_) rfl rfl
  simpa [State.nameable, hk, hsc, hh, ha, hg, hcal] using hf

theorem analogTableSet_stored {s : State} {src : Source} {k t : Nat} {es : List (BitVec 32)} {q : Option Nat}
    (hr : Taken s src 0x0702) (hk : k < 16) (ht : t < 4) (hl : within 1 64 es.length = true) (hes : es.all tableEntryOk = true)
    (hq : ∀ n, q = some n → n < 32768) (hown : s.tableOwned k t = false)
    (hin : ∀ e ∈ es, s.armedInput (6 * k + entryInput e) = false ∧ s.gridInput (6 * k + entryInput e) = false)
    (hroom : (s.conv k).otherEntries t + es.length ≤ 64) : ∃ u, exec (.analogTableSet src k t es q) s = .next u ∧
      Answered s u src 0x0702 [] (s.setConv k { s.conv k with
        tables := tset (s.conv k).tables t es, queues := tset (s.conv k).queues t q }) := by
  rw [exec_analogTableSet, execAnalogTableSet]
  refine taken_ok hr (by decide) (checked_of_all _ ?_) rfl rfl
  simp only [List.forall_mem_append, List.forall_mem_cons, List.not_mem_nil, false_implies, implies_true, and_true]
  refine ⟨⟨?_, all_nameable ?_ ?_⟩, by simp [hown], by simp [hroom]⟩
  · cases q with
    | none => simp only [hk, ht, hl, hes, decide_true, Bool.and_self]
    | some n => simp only [hk, ht, hl, hes, hq n rfl, decide_true, Bool.and_self]
  · simpa using fun e he => (hin e he).1
  · simpa using fun e he => (hin e he).2

theorem analogTableStart_runs {s : State} {src : Source} {k t : Nat} (hr : Taken s src 0x0703) (hk : k < 16) (ht : t < 4)
    (hown : s.tableOwned k t = false) (he : ((s.conv k).table t).isEmpty = false)
    (hin : ∀ e ∈ (s.conv k).table t, s.armedInput (6 * k + entryInput e) = false ∧ s.gridInput (6 * k + entryInput e) = false)
    (hst : (s.conv k).stopped = false) (hrun : (s.conv k).run = none) :
    ∃ u, exec (.analogTableStart src k t) s = .next u ∧ ∃ z, Answered s u src 0x0703 [] z ∧
      (∃ r, (z.conv k).run = some r ∧ r.table = t ∧ r.byFiring = false) ∧ Only State.conv k [.ana] s z := by
  obtain ⟨hstarted, honly⟩ := startTable_idle false s.now hst he hrun
  rw [exec_analogTableStart, execAnalogTableStart]
  refine taken_imp hr (by decide) (checked_of_all _ ?_) (honly.2 .mbox (by decide)) (honly.2 .clock (by decide)) fun u ha =>
    ⟨_, ha, hstarted, honly⟩
  simp only [List.forall_mem_append, List.forall_mem_cons, List.not_mem_nil, false_implies, implies_true, and_true]
  refine ⟨⟨by simp [hk, ht], all_nameable ?_ ?_⟩, by simp [hown], by simp [he]⟩
  · simpa using fun e he => (hin e he).1
  · simpa using fun e he => (hin e he).2

/-! ### Conversions and reads (R112, R113, R119) -/

theorem analogConvert_soft {s : State} {src : Source} {i : Nat} (hr : Taken s src 0x0704) (hi : i < 96) (hg : s.gridInput i = false)
    (hst : (s.conv (i / 6)).stopped = false) (hrun : (s.conv (i / 6)).running = none) (hu : (s.conv (i / 6)).urgent = [])
    (ha : (s.conv (i / 6)).aborted = none) (ht : (s.conv (i / 6)).run = none) (hs : (s.conv (i / 6)).soft = []) :
    ∃ u, exec (.analogConvert src i false) s = .next u ∧ ∃ z, Executing u src 0x0704 z ∧
      (∃ c, (z.conv (i / 6)).running = some c ∧ c.input = i ∧ c.source = 6 ∧ c.src = some src) ∧ Changes [.ana] s z := by
  obtain ⟨c, hc⟩ : ∃ c : Conversion, c = { s.conversion i 6 true with src := some src } := ⟨_, rfl⟩
  have handler : convertDo src i false s = later (s.softRequest (i / 6) c) := by
    unfold convertDo
    extract_lets k c' z v dropped
    rw [checked_of_all _ (by simp [hi, hg]), hc]
    rfl
  obtain ⟨x, hx⟩ := running_softRequest_idle c hst hrun hu ha ht hs
  rw [exec_analogConvert, execAnalogConvert]
  obtain ⟨u, hu, hexec⟩ := taken_later hr (by decide) handler
  exact ⟨u, hu, _, hexec, ⟨_, hx, by rw [hc]; rfl, by rw [hc]; rfl, by rw [hc]⟩, changes_softRequest s _ c⟩

theorem analogRead_latest {s : State} {src : Source} {l : List Nat} (hr : Taken s src 0x0705) (hl : l.length ≤ 96)
    (hk : ∀ k ∈ l, k < 96) (hg : ∀ k ∈ l, s.gridInput k = false) : ∃ u, exec (.analogRead src l) s = .next u ∧
      Answered s u src 0x0705 (f2 l.length :: l.map fun k => .struct (s.latestOf k).bytes) s := by
  rw [exec_analogRead, execAnalogRead]
  refine taken_ok hr (by decide) (checked_of_all _ ?_) rfl rfl
  simpa [hl] using ⟨hk, hg⟩

theorem analogCountersRead_counters {s : State} {src : Source} {k : Nat} {c : Bool} (hr : Taken s src 0x0709) (hk : k < 16) :
    ∃ u, exec (.analogCountersRead src k c) s = .next u ∧ AnalogCountersRead s u src k c := by
  rw [exec_analogCountersRead, execAnalogCountersRead]
  cases c with
  | false =>
    exact taken_imp hr (by decide) (checked_of_all _ (by simp [hk])) rfl rfl fun u ha =>
      ⟨s, ha, rfl, fun _ _ => rfl, Changes.refl _ s⟩
  | true =>
    exact taken_imp hr (by decide) (checked_of_all _ (by simp [hk])) rfl rfl fun u ha =>
      ⟨_, ha, State.conv_setConv_same s k _, onlyConv_setConv s k _⟩

/-! ### Calibration (R126, R127) -/

theorem analogCalPoint_started {s : State} {src : Source} {k : Nat} {f : Bool} {v : Int} (hr : Taken s src 0x0706) (hk : k < 96)
    (hv : withinI (-2147483647) 2147483647 v = true) (ha : s.armedInput k = false) (hg : s.gridInput k = false)
    (hj : s.ana.calJobs = []) (hicv : ∀ n, n < 8 → (s.icv n).cal = none) :
    ∃ u, exec (.analogCalPoint src (.input k) f v) s = .next u ∧ ∃ z, Executing u src 0x0706 z ∧
      z.ana.calJobs = [{ target := .input k, full := f, value := v, src := src, codes := [], nextAt := s.now }] ∧
      Changes [.ana] s z := by
  obtain ⟨s1, h1⟩ : ∃ s1 : State, s1 = { s with ana := { s.ana with calJobs := s.ana.calJobs ++
    [{ target := .input k, full := f, value := v, src := src, codes := [], nextAt := s.now }] } } := ⟨_, rfl⟩
  have handler : calPointDo src (.input k) f v s = later (s1.calRequest k) := by
    have noIcv : ((List.range 8).any fun n => (s.icv n).cal.isSome && 12 * n + 6 == k) = false := by
      simp only [List.any_eq_false, List.mem_range]
      intro n hn
      simp [hicv n hn]
    unfold calPointDo
    extract_lets k' job busy
    have hbusy : busy = false := by
      simp only [busy, hj, List.any_nil, Bool.false_or]
      exact noIcv
    rw [checked_of_all _ (by simp [State.nameable, k', calInput, hk, hv, ha, hg, hbusy]), h1]
    rfl
  have hs1 : Changes [.ana] s s1 := h1 ▸ changes_ana s _
  rw [exec_analogCalPoint, execAnalogCalPoint]
  obtain ⟨u, hu, hexec⟩ := taken_later hr (by decide) handler
  exact ⟨u, hu, _, hexec, (calJobs_softRequest _ _ _).trans (by rw [h1, hj]; rfl), hs1.trans (changes_softRequest _ _ _)⟩

/-- Committing one input's coefficients marks them committed, and keeps them in the store where it takes settings. -/
theorem calStore_input {s : State} {k : Nat} {a b : Int} (hc : (s.input k).coef = some (a, b)) :
    Only State.input k [.ana] s (s.calStore [.input k]) ∧ ((s.calStore [.input k]).input k).committed = true ∧
      (s.store.settingsVolatile = false → ⟨.input k, a, b, s.store.genSettings + 1⟩ ∈ (s.calStore [.input k]).ana.calStored) := by
  obtain ⟨s1, h1⟩ : ∃ s1 : State, s1 = if s.store.settingsVolatile then s else { s with ana := { s.ana with
    calStored := ⟨.input k, a, b, s.store.genSettings + 1⟩ :: s.ana.calStored } } := ⟨_, rfl⟩
  have hstored : s.calStore [.input k] = s1.setInput k { s1.input k with committed := true } := by
    simp only [State.calStore, List.foldl_cons, List.foldl_nil, State.calOf, hc, h1, State.updInput_eq]
  have hs1 : Only State.input k [.ana] s s1 := by
    rw [h1]
    split
    · exact ⟨fun _ _ => rfl, Changes.refl _ s⟩
    · exact ⟨fun _ _ => rfl, changes_ana s _⟩
  rw [hstored]
  refine ⟨hs1.trans (onlyInput_setInput s1 k _), by rw [State.input_setInput_same], fun hv => ?_⟩
  rw [h1, hv]
  exact List.mem_cons_self

theorem analogCalCommit_committed {s : State} {src : Source} {k : Nat} {a b : Int} (hr : Taken s src 0x0707) (hk : k < 96)
    (ha : s.armedInput k = false) (hg : s.gridInput k = false) (hc : (s.input k).coef = some (a, b))
    (hcal : s.calibrating (.input k) = false) : ∃ u, exec (.analogCalCommit src [k] [] false) s = .next u ∧
      ∃ z, Answered s u src 0x0707 [] z ∧ (z.input k).committed = true ∧
      (s.store.settingsVolatile = false → (⟨.input k, a, b, s.store.genSettings + 1⟩ : CalRec) ∈ z.ana.calStored) ∧
      Only State.input k [.ana, .store, .recorder] s z := by
  obtain ⟨honly, hcommitted, hkept⟩ := calStore_input hc
  obtain ⟨s1, h1⟩ : ∃ s1, s1 = (s.calStore [.input k]).event evCalCommitted 0 0 := ⟨_, rfl⟩
  obtain ⟨hpersist, -⟩ := persist_store s1 0x0707 0 (.analogCalCommit src [k] [] false)
  have handler : (calCommitDo [k] [] false s).persisted 0x0707 0 (.analogCalCommit src [k] [] false) =
      ⟨some stOk, [], s1.persist 0x0707 0 (.analogCalCommit src [k] [] false)⟩ := by
    unfold calCommitDo
    extract_lets ts named
    rw [checked_of_all _ (by simp [State.nameable, ts, named, calTargets, hk, ha, hg, hcal]), h1]
    rfl
  generalize s1.persist 0x0707 0 (.analogCalCommit src [k] [] false) = z at hpersist handler
  have hevent : Changes [.recorder] (s.calStore [.input k]) s1 := h1 ▸ changes_event _ _ _ _ _ _ _ _ _ _ _ _
  have hana : z.ana = (s.calStore [.input k]).ana := (hpersist .ana (by decide)).trans (hevent .ana (by decide))
  have hall : Only State.input k [.ana, .store, .recorder] s z :=
    (honly.mono (by decide)).trans (((hevent.onlyInput (by decide) k).mono (by decide)).trans
      ((hpersist.onlyInput (by decide) k).mono (by decide)))
  rw [exec_analogCalCommit, execAnalogCalCommit]
  refine taken_imp hr (by decide) handler (hall.2 .mbox (by decide)) (hall.2 .clock (by decide)) fun u hans =>
    ⟨z, hans, ?_, ?_, hall⟩
  · rw [input_of_ana hana, hcommitted]
  · rw [hana]
    exact hkept

theorem analogCalRead_fields {s : State} {src : Source} {k : Nat} (hr : Taken s src 0x0708) (hk : k < 96)
    (ha : s.armedInput k = false) (hg : s.gridInput k = false) : ∃ u, exec (.analogCalRead src (.input k)) s = .next u ∧
      Answered s u src 0x0708 [fb (s.input k).coef.isSome, .s 4 (((s.input k).coef.map Prod.fst).getD 0),
        .s 4 (((s.input k).coef.map Prod.snd).getD 0), fb (s.input k).committed] s := by
  rw [exec_analogCalRead, execAnalogCalRead]
  exact taken_ok hr (by decide) (checked_of_all _ (by simp [State.nameable, calInput, hk, ha, hg])) rfl rfl

/-! ### The integrating converters (R123, R124) -/

/-- The payload of ICV.STATUS. -/
def icvStatusFields (v : Icv) : List Field :=
  [ .struct (match v.last with | none => List.replicate 24 0 | some w => w.bytes), .s 8 (v.acc.tdiv 1000000)
  , f1 (match v.quality with | .icv => 0 | .sarCarried => 1 | .stopped => 2), fb v.incomplete, f8 v.validWords ]

theorem icvStatus_fields {s : State} {src : Source} {n : Nat} (hr : Taken s src 0x0801) (hn : n < 8) :
    ∃ u, exec (.icvStatus src n) s = .next u ∧ Answered s u src 0x0801 (icvStatusFields (s.seen.icv n)) s := by
  have passes : execIcvStatus src n s = runCommand src 0x0801 (fun z => okWith z (icvStatusFields (z.icv n))) s := by
    refine congrArg (fun h => runCommand src 0x0801 h s) (funext fun z => checked_of_all _ (by simp [hn]))
  rw [exec_icvStatus, passes]
  exact status_ok (fun z => icvStatusFields (z.icv n)) hr

/-- A synchronising reset begins a partial window there, with no valid word. -/
theorem Icv.reset_window (v : Icv) (now pos : Nat) : (v.reset now pos).partial_ = true ∧ (v.reset now pos).resetAt = now ∧
    (v.reset now pos).validWords = 0 ∧ (v.reset now pos).windowStart = now ∧ (v.reset now pos).windowTag = pos :=
  ⟨rfl, rfl, rfl, rfl, rfl⟩

theorem icvReset_partial {s : State} {src : Source} {n : Nat} (hr : Taken s src 0x0802) (hn : n < 8)
    (hg : s.gridInput (12 * n + 6) = false) (hcal : (s.icv n).cal = none) : ∃ u, exec (.icvReset src n) s = .next u ∧
      Answered s u src 0x0802 [] (s.setIcv n ((s.icv n).reset s.now s.pos)) ∧ (u.icv n).partial_ = true ∧
      (u.icv n).resetAt = s.now ∧ (u.icv n).validWords = 0 ∧ (u.icv n).windowStart = s.now ∧ (u.icv n).windowTag = s.pos := by
  rw [exec_icvReset, execIcvReset]
  refine taken_imp hr (by decide) (checked_of_all _ (by simp [hn, hg, State.calibrating, hcal])) rfl rfl fun u ha => ⟨ha, ?_⟩
  have hicv : u.icv n = (s.icv n).reset s.now s.pos := (icv_of_ana ha.2.ana n).trans (State.icv_setIcv_same s n _)
  rw [hicv]
  exact Icv.reset_window _ _ _

/-! ### DACs (R128 to R130) -/

theorem dacConfig_path {s : State} {src : Source} {k c r : Nat} {p : Path} (hr : Taken s src 0x0901) (hk : k < 8) (hc : c < 65536)
    (hrange : r < 2) : ∃ u, exec (.dacConfig src k (.path p) c r) s = .next u ∧
      Answered s u src 0x0901 [] (s.setDac k { s.dac k with source := .path p, safeCode := c, safeRange := r }) := by
  rw [exec_dacConfig, execDacConfig]
  exact taken_ok hr (by decide) (checked_of_all _ (by simp [hk, hc, hrange])) rfl rfl

theorem dacSet_taken {s : State} {src : Source} {k r c : Nat} (hr : Taken s src 0x0902) (hk : k < 8) (hrange : r < 2)
    (hc : c < 65536) (hsrc : (s.dac k).source = .path src.path) :
    ∃ u, exec (.dacSet src k r c) s = .next u ∧ DacValueTaken s u src k r c := by
  obtain ⟨u, hu, ha⟩ := dacSet_written hr hk hrange hc hsrc
  refine ⟨u, hu, _, ha, fun hne => ?_, ?_, ?_, onlyDac_setDac s k _⟩
  · rw [dac_dacValue, Dac.write_otherRange _ _ hne]
  · rintro rfl hs
    rw [dac_dacValue, Dac.write_settled _ _ hs]
  · rintro rfl hs
    rw [dac_dacValue, Dac.write_settling _ _ hs]

/-! ### Tachometers (R131, R132, R134) -/

theorem tachConfig_standstill {s : State} {src : Source} {k p f st : Nat} {fall : Bool} (hr : Taken s src 0x0A01) (hk : k < 16)
    (h8 : 8 ≤ k) (hp : within 1 64 p = true) (hf : f < 256) (hst : within 10 10000 st = true) :
    ∃ u, exec (.tachConfig src k fall false p f st) s = .next u ∧ ∃ z, Answered s u src 0x0A01 [] z ∧ z.tach k = { s.tach k with
      speed := 0, stale := true, lastEdge := none, falling := fall, pair := false, ppr := p, filter := f, standstill := st
      reverse := false } ∧ Only State.tach k [.ana, .therm, .ten] s z := by
  obtain ⟨x, hx⟩ : ∃ x : Tach, x = { s.tach k with
    speed := 0, stale := true, lastEdge := none, falling := fall, pair := false, ppr := p, filter := f, standstill := st
    reverse := false } := ⟨_, rfl⟩
  have handler : tachConfigDo k fall false p f st s = ok ((s.setTach k x).tachSignals k) := by
    unfold tachConfigDo
    extract_lets s1 mate
    rw [checked_of_all _ (by simp [hk, hp, hf, hst]), if_neg (by omega), hx]
    rfl
  have hsignals := outputsFollow_tachSignals (s.setTach k x) k
  have hall : Only State.tach k [.ana, .therm, .ten] s ((s.setTach k x).tachSignals k) :=
    ((onlyTach_setTach s k x).mono (by decide)).trans ⟨fun j _ => hsignals.tach j, hsignals.changes⟩
  rw [exec_tachConfig, execTachConfig, ← hx]
  exact taken_imp hr (by decide) handler (hall.2 .mbox (by decide)) (hall.2 .clock (by decide)) fun u ha =>
    ⟨_, ha, (hsignals.tach k).trans (State.tach_setTach_same s k x), hall⟩

theorem tachRead_fields {s : State} {src : Source} {l : List Nat} (hr : Taken s src 0x0A02) (hl : l.length ≤ 16)
    (hk : ∀ k ∈ l, k < 16) : ∃ u, exec (.tachRead src l) s = .next u ∧
      Answered s u src 0x0A02 (f2 l.length :: l.flatMap fun k => [.s 4 (s.tach k).speed, fb (s.tach k).reverse, fb (s.tach k).stale,
        .s 4 (s.tach k).count, f8 (s.tach k).lastInterval]) s := by
  rw [exec_tachRead, execTachRead]
  exact taken_ok hr (by decide) (checked_of_all _ (by simpa [hl] using hk)) rfl rfl

/-- Settles O16: one lemma for each command. -/
theorem analogueCommandsComplete : Obligations.AnalogueCommandsComplete := by
  intro s z src k h t i n r st sc v a b es q l fall
  refine ⟨?input, ?table, ?start, ?convert, ?read, ?point, ?commit, ?coefficients, fun c => analogCountersRead_counters, ?status, ?reset,
    fun c p hr hk hc hrange => dacConfig_path hr hk hc hrange, fun c hr hk hrange hc => dacSet_taken hr hk hrange hc, ?tach,
    tachRead_fields⟩
  case input =>
    intro c hr hk s1 s2 hh ha hg hf hcal
    exact analogInputSet_stored hr hk (decide_eq_true ⟨s1, s2⟩) hh (by simpa using ha) (by simpa using hg) (by simpa using hf)
      (by simpa using hcal)
  case table =>
    intro hr hk ht l1 l2 hes hq hown hin hroom
    exact analogTableSet_stored hr hk ht (decide_eq_true ⟨l1, l2⟩) hes hq (by simpa using hown) (by simpa using hin) hroom
  case start =>
    intro hr hk ht hown he hin hst hrun
    simpa using analogTableStart_runs hr hk ht (by simpa using hown) (by simpa using he) (by simpa using hin) (by simpa using hst) hrun
  case convert =>
    intro hr hi hg hst
    exact analogConvert_soft hr hi (by simpa using hg) (by simpa using hst)
  case read => exact fun hr hl hk hg => analogRead_latest hr hl hk (by simpa using hg)
  case point =>
    intro f hr hk v1 v2 ha hg
    exact analogCalPoint_started hr hk (decide_eq_true ⟨v1, v2⟩) (by simpa using ha) (by simpa using hg)
  case commit =>
    intro hr hk ha hg hc hcal
    simpa using analogCalCommit_committed hr hk (by simpa using ha) (by simpa using hg) hc (by simpa using hcal)
  case coefficients => exact fun hr hk ha hg => analogCalRead_fields hr hk (by simpa using ha) (by simpa using hg)
  case status =>
    rintro hr hn rfl
    obtain ⟨u, hu, ha⟩ := icvStatus_fields hr hn
    exact ⟨u, hu, _, ha, rfl, rfl, rfl, rfl⟩
  case reset => exact fun hr hn hg hcal => icvReset_partial hr hn (by simpa using hg) hcal
  case tach =>
    intro p f hr hk h8 p1 p2 hf st1 st2
    exact tachConfig_standstill hr hk h8 (decide_eq_true ⟨p1, p2⟩) hf (decide_eq_true ⟨st1, st2⟩)

end Sys2Proof.Machine
end

