-- ==== Sys2Proof/Proofs/SharedSoftConversion.lean ====
section
/-! PROOF. A SOFT conversion whose record a second command waits for (O17): its end answers both commands. -/

namespace Sys2Proof.Machine

open Sys2Proof
set_option Elab.async false

/-- The service session whose ANALOG.CONVERT the conversion was asked for by. -/
def firstAsker : Source := { path := .service, box := 0, tag := 1 }
/-- Another session, whose command waits for the same record. -/
def secondAsker : Source := { path := .service, box := 1, tag := 2 }

/-- A SOFT conversion of input 95 that holds at 500 ns, for two commands; no other request shares it. -/
def convertForTwo : Conversion :=
  { input := 95, source := 6, holdAt := 500, tag := 500, timeTag := true, src := some firstAsker, alsoSrc := [secondAsker] }

/-- A module whose converter 15 runs that conversion. -/
def convertsForTwo : State := State.reset.setConv 15 { running := some convertForTwo }

/-- The mailboxes that the responses of an outcome go to, in their order. -/
def answeredBoxes : Host.Outcome State Fault Refusal → Option (List Nat)
  | .next u => some (u.mbox.responses.map Response.box)
  | _ => none

theorem answeredBoxes_conversionComplete :
    answeredBoxes (exec (.conversionComplete 800 15 100) convertsForTwo) = some [0, 1] := by
  decide +kernel

/-- Refutes O17: its first clause asks that the end of a SOFT conversion answers the one command `q` that the conversion was asked for
by, and no other. It bars other sources that share the conversion (`also`), but not other commands that wait for its record
(`alsoSrc`), and the record goes to each of those as well (04 R114, R119, R135). -/
theorem not_analogueEventsComplete : ¬ Obligations.AnalogueEventsComplete := by
  intro h
  obtain ⟨conversion, -⟩ := h convertsForTwo 800 15 100 0 0 0 0 firstAsker {}
    { target := .input 0, full := false, value := 0, src := firstAsker, codes := [], nextAt := 0 } false
  obtain ⟨u, hu, r, -, -, -, -, -, hreplied⟩ := conversion convertForTwo (by decide) (by decide) rfl (by decide) rfl rfl rfl rfl
    rfl (by decide) (by decide +kernel) rfl
  have hone : answeredBoxes (.next u) = some [0] := by
    rw [answeredBoxes, hreplied]
    rfl
  rw [← hu, answeredBoxes_conversionComplete] at hone
  exact absurd hone (by decide)

end Sys2Proof.Machine
end

