-- ==== Sys2Proof/Proofs/LaneParts.lean ====
section
/-! PROOF. One lane at a time: what reading it gives after a write to it or to another, its contactors, and the shared operations that
leave it alone. -/

namespace Sys2Proof.Machine

open Sys2Proof
set_option Elab.async false

/-! ### Parts that differ -/

theorem changes_safety (s : State) (x : Safety) : Changes [.safety] s { s with safety := x } := by
  intro p hp
  cases p <;> simp_all [Part.same]
theorem changes_compWrite (s : State) (n : Nat) : Changes [.safety] s (s.compWrite n) := by
  fun_cases State.compWrite s n
  · exact changes_foldl (fun z _ => changes_safety z _) _ s
  · exact Changes.refl _ s
theorem changes_placeEntries (s : State) : Changes [.table] s s.placeEntries := by
  refine changes_foldl (fun z i => ?_) _ s
  split
  · exact Changes.refl _ z
  · exact changes_writeEntry z i _
theorem changes_sendReliable (s : State) (peer dst : Nat) (body : GBody) (srcRole srcEpoch target tEpoch corr : Nat) (reply : Bool) :
    Changes [.net, .out] s (s.sendReliable peer dst body srcRole srcEpoch target tEpoch corr reply) := by
  have stream (x : StreamTx) : Changes [.net, .out] s (s.setStreamTx x) := (changes_net s _).mono (by decide)
  have sent (z : State) (h : GHead) : Changes [.net, .out] z (z.transmit peer h body) := by
    unfold State.transmit State.onLans
    split <;> exact (changes_emit z _).mono (by decide)
  unfold State.sendReliable
  extract_lets x h m
  split
  · exact (stream _).trans (sent _ h)
  · split
    · exact stream _
    · exact (changes_net s _).mono (by decide)

/-! ### Reading a lane -/

theorem lane_of_lanes {s t : State} (h : t.lanes = s.lanes) (n : Nat) : t.lane n = s.lane n := by
  unfold State.lane
  rw [h]
theorem Changes.lane {ps : List Part} {s t : State} (h : Changes ps s t) (hp : .lanes ∉ ps) (n : Nat) : t.lane n = s.lane n :=
  lane_of_lanes (h .lanes hp) n
theorem lane_atTime (s : State) (t n : Nat) : (s.atTime t).lane n = s.lane n := lane_of_lanes (lanes_atTime s t) n
theorem Settled.lane {z u : State} (h : Settled z u) (n : Nat) : u.lane n = z.lane n := h.changes.lane (by decide) n
/-- No path's answer touches the lanes. -/
theorem Envelope.lane {src : Source} {z u : State} (h : Envelope src z u) (n : Nat) : u.lane n = z.lane n :=
  lane_of_lanes (h.rest .lanes (by cases src.path <;> decide)) n

/-! ### One lane alone -/

theorem onlyLane_setLane (s : State) (n : Nat) (x : Lane) : Only State.lane n [.lanes] s (s.setLane n x) :=
  ⟨fun _ hj => State.lane_setLane_ne s x hj, changes_lanes s _⟩
theorem Changes.onlyLane {ps : List Part} {s t : State} (h : Changes ps s t) (hp : .lanes ∉ ps) (n : Nat) : Only State.lane n ps s t :=
  ⟨fun j _ => h.lane hp j, h⟩
/-- What an event does to one lane from the time it carries on, its interrupt bits included. -/
theorem Settled.onlyLane {s z u : State} {t n : Nat} {ps qs : List Part} (h : Settled z u) (hz : Only State.lane n ps (s.atTime t) z)
    (hs : ∀ q ∈ .clock :: .mbox :: ps, q ∈ qs) : Only State.lane n qs s u :=
  (((atTime_changes s t).onlyLane (by decide) n).mono fun q hq => hs q (by simp_all)).trans
    ((hz.mono fun q hq => hs q (by simp_all)).trans ((h.changes.onlyLane (by decide) n).mono fun q hq => hs q (by simp_all)))

/-! ### Contactors (05 R156) -/

/-- The contactors 0 to 2 are the two mains and the precharge one. -/
theorem Lane.forall_contactor {l : Lane} {P : Contactor → Prop} : (∀ k, k < 3 → P (l.contactor k)) ↔ P l.kNeg ∧ P l.kPos ∧ P l.kPre := by
  refine ⟨fun h => ⟨h 0 (by decide), h 1 (by decide), h 2 (by decide)⟩, fun ⟨hneg, hpos, hpre⟩ k _ => ?_⟩
  unfold Lane.contactor
  split
  · exact hneg
  · split
    · exact hpos
    · exact hpre
theorem Lane.contactor_updContactor_same (l : Lane) {k : Nat} (f : Contactor → Contactor) :
    (l.updContactor k f).contactor k = f (l.contactor k) := by
  unfold Lane.updContactor Lane.contactor
  split_ifs <;> rfl
theorem Lane.contactor_updContactor_ne (l : Lane) {j k : Nat} (f : Contactor → Contactor) (hj : j < 3) (hk : k < 3) (h : j ≠ k) :
    (l.updContactor k f).contactor j = l.contactor j := by
  unfold Lane.updContactor Lane.contactor
  split_ifs
  any_goals rfl
  all_goals omega

/-! ### Permissives that are checked again (05 R157, R160) -/

/-- The arming sequences and the lanes in SHADOW are the only ones that a lost permissive ends. -/
theorem lane_recheckArming {s : State} {n : Nat} (ha : (s.lane n).state ≠ .arming) (hs : (s.lane n).state ≠ .shadow) :
    s.recheckArming.lane n = s.lane n := by
  have abandons (z : State) (k : Nat) (c : Option Nat) (hz : (z.lane n).state ≠ .arming) : (z.abandonArming k c).lane n = z.lane n := by
    by_cases hk : n = k
    · subst hk
      rw [State.abandonArming, if_neg (by simp [hz])]
    · fun_cases State.abandonArming z k c
      · exact State.lane_setLane_ne _ _ hk
      · exact (lane_of_lanes (lanes_event ..) n).trans (State.lane_setLane_ne _ _ hk)
      · rfl
  have opens (z : State) (k : Nat) (hz : (z.lane n).state ≠ .shadow) : (z.shadowOpens k).lane n = z.lane n := by
    by_cases hk : n = k
    · subst hk
      rw [State.shadowOpens, if_neg (by simp [hz])]
    · fun_cases State.shadowOpens z k
      · exact State.lane_setLane_ne _ _ hk
      · rfl
  have step (z : State) (k : Nat) (hz : z.lane n = s.lane n) :
      (if z.permissive k then z else (z.abandonArming k (some stNotPermitted)).shadowOpens k).lane n = s.lane n := by
    split
    · exact hz
    · have habandoned := (abandons z k (some stNotPermitted) (by rw [hz]; exact ha)).trans hz
      exact (opens _ k (by rw [habandoned]; exact hs)).trans habandoned
  exact List.foldlRecOn (motive := fun z => z.lane n = s.lane n) _ _ rfl fun z hz k _ => step z k hz

theorem lane_toTrain {s : State} {n : Nat} (p : Nat) (ha : (s.lane n).state ≠ .arming) (hs : (s.lane n).state ≠ .shadow) :
    (s.toTrain p).lane n = s.lane n := by
  have out (z : State) (hz : z.lane n = s.lane n) : (z.portOut p).lane n = s.lane n := by
    have hcoast := ((changes_dropTest _ p).lane (by decide) n).trans ((changes_coast z p).lane (by decide) n)
    have hrest : ((((z.coast p).dropTest p).updBalPort p fun b => { b with sent := 0 }).updPort p fun x => { x with
        outSince := some z.now }).lane n = s.lane n := hcoast.trans hz
    unfold State.portOut
    rw [lane_recheckArming (by rw [hrest]; exact ha) (by rw [hrest]; exact hs), hrest]
  unfold State.toTrain
  extract_lets was s1 s2
  have h2 : s2.lane n = s.lane n := lane_of_lanes (lanes_clearAlarm ..) n
  split
  · exact out s2 h2
  · exact ((changes_coast s2 p).lane (by decide) n).trans h2

/-! ### What a lane's leaving of RUN ends (07 R209, R223) -/

theorem changes_updStep (s : State) (n slot : Nat) (f : SoundStep → SoundStep) : Changes [.sound] s (s.updStep n slot f) :=
  changes_setLaneSound s n _
theorem changes_captureOff (s : State) (n : Nat) : Changes [.table] s (s.captureOff n) := by
  unfold State.captureOff
  split
  · exact Changes.refl _ s
  · exact changes_foldl (fun z e => changes_writeEntry z e {}) _ s
theorem changes_stepEnded (s : State) (n : Nat) (a : SoundStep) (outcome : Nat) :
    Changes [.sound, .table, .recorder] s (s.stepEnded n a outcome) := by
  unfold State.stepEnded
  extract_lets s1 s2 s3 s4
  have h1 : Changes [.sound, .table, .recorder] s s1 := (changes_updStep s n _ _).mono (by decide)
  have h2 : Changes [.sound, .table, .recorder] s1 s2 := by
    simp only [s2]
    split
    · exact (changes_writeEntry s1 _ {}).mono (by decide)
    · exact Changes.refl _ s1
  have h3 : Changes [.sound, .table, .recorder] s2 s3 := by
    simp only [s3]
    split
    · exact (changes_captureOff s2 n).mono (by decide)
    · exact Changes.refl _ s2
  have h4 : Changes [.sound, .table, .recorder] s3 s4 := by
    simp only [s4]
    split
    · exact (changes_setLaneSound s3 n _).mono (by decide)
    · exact Changes.refl _ s3
  exact (((h1.trans h2).trans h3).trans h4).trans ((changes_event _ _ _ _ _ _ _ _ _ _ _ _).mono (by decide))

/-- The parts that ending a sounding step, with its messages, touches. -/
abbrev stepParts : List Part := [.sound, .table, .recorder, .net, .out]

theorem changes_sendSoundOut (s : State) (n : Nat) (a : SoundStep) (kind reason : Nat) :
    Changes stepParts s (s.sendSoundOut n a kind reason) := by
  fun_cases State.sendSoundOut s n a kind reason
  · exact Changes.refl _ s
  · exact (changes_sendReliable s _ _ _ _ _ _ _ _ _).mono (by decide)
theorem changes_soundArrives (s : State) (n : Nat) (m : SoundMsg) : Changes stepParts s (s.soundArrives n m) := by
  have ended (a : SoundStep) : Changes stepParts s (s.stepEnded n a ocPartnerEnded) := (changes_stepEnded s n a _).mono (by decide)
  fun_cases State.soundArrives s n m
  case case1 => exact (changes_setLaneSound s n _).mono (by decide)
  case case2 => exact Changes.refl _ s
  case case3 => exact (changes_updStep s n _ _).mono (by decide)
  case case4 => exact (changes_updStep s n _ _).mono (by decide)
  case case5 => exact ended _
  case case6 => exact (ended _).trans (changes_sendSoundOut _ _ _ _ _)
  case case7 => exact Changes.refl _ s
theorem changes_sendSound (s : State) (n : Nat) (a : SoundStep) (kind reason : Nat) : Changes stepParts s (s.sendSound n a kind reason) := by
  fun_cases State.sendSound s n a kind reason
  · exact changes_soundArrives s _ _
  · exact changes_sendSoundOut s _ _ _ _
theorem changes_endSteps (s : State) (n outcome : Nat) (p : SoundStep → Bool) : Changes stepParts s (s.endSteps n outcome p) := by
  refine changes_foldl (fun z a => ?_) _ s
  split
  · exact ((changes_updStep z n _ _).mono (by decide)).trans (changes_sendSound _ _ _ _ _)
  · split
    · exact ((changes_stepEnded z n a _).mono (by decide)).trans (changes_sendSound _ _ _ _ _)
    · exact Changes.refl _ z
theorem changes_springFail (s : State) (n cause : Nat) : Changes [.sound, .recorder] s (s.springFail n cause) := by
  fun_cases State.springFail s n cause
  case case1 => exact Changes.refl _ s
  case case2 => exact ((changes_sound s _).mono (by decide)).trans ((changes_event _ _ _ _ _ _ _ _ _ _ _ _).mono (by decide))
  case case3 => exact (changes_sound s _).mono (by decide)
  case case4 => exact Changes.refl _ s
theorem changes_runLeft (s : State) (n outcome : Nat) : Changes stepParts s (s.runLeft n outcome) :=
  (changes_endSteps s n outcome _).trans ((changes_springFail _ n _).mono (by decide))

end Sys2Proof.Machine
end

