-- ==== Sys2Proof/Proofs/LaneCommands.lean ====
section
/-! PROOF. The LANE commands (O18), and LANE.FAULT_CLEAR on a TRIPPED lane (O56): each passes its checks with operands in range, and is
answered on the state that its handler leaves. -/

namespace Sys2Proof.Machine

open Sys2Proof
set_option Elab.async false

/-- A command that is no STATUS and whose checks refuse it changes nothing. -/
theorem taken_refused {src : Source} {code st : Nat} {h : State → Answer} {s : State} (hr : Taken s src code)
    (hc : isStatus code = false) (ha : h s = refuse s st) :
    ∃ u, runCommand src code h s = .next u ∧ Refused s u src code st :=
  runCommand_refused hr (by rw [runs_outside h (not_beached_of_taken hr hc), ha])

theorem persisted_ok (z : State) (code object : Nat) (cmd : Instr) :
    (ok z).persisted code object cmd = ok (z.persist code object cmd) := if_pos rfl

/-! ### LANE.CONFIG (R137, R139, R146) -/

theorem changes_portLeaves (s : State) (p : Nat) : Changes [.tap, .model, .therm] s (s.portLeaves p) :=
  (((changes_coast s p).mono (by decide)).trans ((changes_dropTest _ p).mono (by decide))).trans
    ((changes_setPort _ p _).mono (by decide))

/-- What putting a configuration in force touches besides the lane. -/
abbrev configParts : List Part := [.tap, .model, .therm, .lanes, .recorder, .safety, .ana, .table]

/-- A configuration put in force on an unconfigured lane: the lane is DISARMED, and it is the ports, converters and entries that
follow. -/
theorem configure_unconfigured {s : State} {n : Nat} {c : LaneConfig} (hp : c.portCount ≠ 0) (hst : (s.lane n).state = .unconfigured) :
    (s.configure n c).lane n = { s.lane n with cfg := some c, state := .disarmed } ∧ Changes configParts s (s.configure n c) := by
  unfold State.configure
  extract_lets old was off l stopped l1 s1 now s2 s3 s4 s5 s6
  have hl1 : l1 = { s.lane n with cfg := some c, state := .disarmed } := by
    simp only [l1, l, off, if_neg hp, hst, beq_self_eq_true, if_true]
  have h1 : s1.lane n = l1 := State.lane_setLane_same s n l1
  have leaves : Changes [.tap, .model, .therm] s1 s2 := changes_foldl changes_portLeaves _ s1
  have h3 : Changes [.tap, .model, .therm, .safety] s1 s3 :=
    (leaves.mono (by decide)).trans ((changes_safety s2 _).mono (by decide))
  have hl3 : s3.lane n = l1 := (h3.lane (by decide) n).trans h1
  have hdisarmed : l1.state = .disarmed := congrArg Lane.state hl1
  have hl4 : s4.lane n = l1 := by
    refine List.foldlRecOn (motive := fun z : State => z.lane n = l1) _ _ hl3 fun z hz p _ => (lane_toTrain p ?_ ?_).trans hz
    · rw [hz, hdisarmed]
      decide
    · rw [hz, hdisarmed]
      decide
  have h4 : Changes [.tap, .model, .therm, .lanes, .recorder] s3 s4 := changes_foldl changes_toTrain _ s3
  have h5 : Changes [.ana] s4 s5 := changes_setConv s4 (2 * n + 1) _
  have h6 : Changes [.ana] s5 s6 := by
    simp only [s6]
    split
    · split
      · exact changes_ana s5 _
      · exact Changes.refl _ s5
    · exact changes_ana s5 _
  have hend : Changes [.safety, .table] s6 (s6.placeEntries.compWrite n) :=
    ((changes_placeEntries s6).mono (by decide)).trans ((changes_compWrite _ n).mono (by decide))
  refine ⟨?_, ?_⟩
  · rw [hend.lane (by decide), h6.lane (by decide), h5.lane (by decide), hl4, hl1]
  · refine Changes.trans ((changes_setLane s n l1).mono (by decide)) ?_
    refine (h3.mono (by decide)).trans ((h4.mono (by decide)).trans ?_)
    exact ((h5.trans h6).mono (by decide)).trans (hend.mono (by decide))

theorem laneConfig_disarmed {s : State} {src : Source} {n : Nat} {c : LaneConfig} (hr : Taken s src 0x0B01) (hn : n < 8)
    (ha : s.anyArmed = false) (hfirst : c.firstPort < 128) (hp : c.portCount ≠ 0) (hok : laneConfigOk s.baseB c = true)
    (hranges : s.rangesOk n c = true) (hst : (s.lane n).state = .unconfigured) :
    ∃ u, exec (.laneConfig src n c) s = .next u ∧ ∃ z, Answered s u src 0x0B01 [] z ∧ (z.lane n).cfg = some c ∧
      (z.lane n).state = .disarmed ∧ (s.store.settingsVolatile = false → z.store.settings.tail = s.store.settings ∧
      z.store.settings.head?.map (fun r => (r.code, r.object, r.cmd)) = some (0x0B01, n, .laneConfig src n c)) := by
  obtain ⟨hlane, hconfig⟩ := configure_unconfigured hp hst
  obtain ⟨hpersist, hkept⟩ := persist_store (s.configure n c) 0x0B01 n (.laneConfig src n c)
  have handler : (configDo n c s).persisted 0x0B01 n (.laneConfig src n c) =
      ok ((s.configure n c).persist 0x0B01 n (.laneConfig src n c)) := by
    rw [configDo, checked_of_all _ (by simp [ha, hn, hfirst, hok, hranges]), persisted_ok]
  have hstore : (s.configure n c).store = s.store := hconfig .store (by decide)
  rw [hstore] at hkept
  rw [exec_laneConfig, execLaneConfig]
  refine taken_imp hr (by decide) handler ((hpersist .mbox (by decide)).trans (hconfig .mbox (by decide)))
    ((hpersist .clock (by decide)).trans (hconfig .clock (by decide))) fun u hans => ⟨_, hans, ?_, ?_, fun hv => ?_⟩
  · rw [hpersist.lane (by decide), hlane]
  · rw [hpersist.lane (by decide), hlane]
  · obtain ⟨g, hg⟩ := hkept hv
    rw [hg]
    exact ⟨rfl, rfl⟩

/-! ### LANE.LOOP_SET (R138) -/

/-- Gains put in force, or kept for the next alignment instant while the loops run. -/
def Lane.withGains (l : Lane) (g : LoopGains) : Lane :=
  if l.state = .run ∨ l.state = .shadow then { l with pendingGains := some g } else { l with gains := some g, pendingGains := none }

theorem laneLoopSet_gains {s : State} {src : Source} {n : Nat} {g : LoopGains} (hr : Taken s src 0x0B02) (hn : n < 8)
    (hg : gainsOk g = true) (ha : (s.lane n).state ≠ .arming) (hd : (s.lane n).state ≠ .disarming) :
    ∃ u, exec (.laneLoopSet src n g) s = .next u ∧ ∃ z, Answered s u src 0x0B02 [] z ∧ z.lane n = (s.lane n).withGains g ∧
      Only State.lane n [.lanes, .store] s z := by
  obtain ⟨s1, h1⟩ : ∃ s1, s1 = s.setLane n ((s.lane n).withGains g) := ⟨_, rfl⟩
  have handler : (loopSetDo n g s).persisted 0x0B02 n (.laneLoopSet src n g) = ok (s1.persist 0x0B02 n (.laneLoopSet src n g)) := by
    rw [loopSetDo, checked_of_all _ (by simp [hn, hg, ha, hd]), persisted_ok, h1]
    simp only [Lane.withGains, Bool.or_eq_true, beq_iff_eq]
  obtain ⟨hpersist, -⟩ := persist_store s1 0x0B02 n (.laneLoopSet src n g)
  have hall : Only State.lane n [.lanes, .store] s (s1.persist 0x0B02 n (.laneLoopSet src n g)) :=
    (h1 ▸ (onlyLane_setLane s n _).mono (by decide)).trans ((hpersist.onlyLane (by decide) n).mono (by decide))
  rw [exec_laneLoopSet, execLaneLoopSet]
  refine taken_imp hr (by decide) handler (hall.2 .mbox (by decide)) (hall.2 .clock (by decide)) fun u hans => ⟨_, hans, ?_, hall⟩
  rw [hpersist.lane (by decide), h1, State.lane_setLane_same]

/-! ### LANE.ARM and LANE.DISARM (R159 to R161) -/

theorem laneArm_begins {s : State} {src : Source} {n : Nat} (hr : Taken s src 0x0B03) (hn : n < 8) (hc : ∀ c ∈ s.armChecks n, c.1 = true) :
    ∃ u, exec (.laneArm src n) s = .next u ∧ Answered s u src 0x0B03 [] (s.setLane n ((s.lane n).startArming s.now)) := by
  rw [exec_laneArm, execLaneArm]
  exact taken_ok hr (by decide) (checked_of_all _ (by simpa [hn] using hc)) rfl rfl

theorem laneDisarm_begins {s : State} {src : Source} {n : Nat} (hr : Taken s src 0x0B04) (hn : n < 8) (hst : (s.lane n).state = .run) :
    ∃ u, exec (.laneDisarm src n) s = .next u ∧ ∃ z, Answered s u src 0x0B04 [] z ∧
      z.lane n = { s.lane n with state := .disarming, step := 1, stepAt := s.now, lowRun := 0 } := by
  obtain ⟨s1, h1⟩ : ∃ s1, s1 = s.setLane n { s.lane n with state := .disarming, step := 1, stepAt := s.now, lowRun := 0 } := ⟨_, rfl⟩
  have handler : disarmDo n s = ok (s1.runLeft n ocLaneState) := by
    rw [disarmDo, checked_of_all _ (by simp [hn]), hst, h1]
    rfl
  have hleft : Changes stepParts s1 (s1.runLeft n ocLaneState) := changes_runLeft s1 n ocLaneState
  rw [exec_laneDisarm, execLaneDisarm]
  refine taken_imp hr (by decide) handler ((hleft .mbox (by decide)).trans (by rw [h1, State.mbox_setLane]))
    ((hleft .clock (by decide)).trans (by rw [h1, State.clock_setLane])) fun u hans => ⟨_, hans, ?_⟩
  rw [hleft.lane (by decide), h1, State.lane_setLane_same]

/-! ### LANE.SETPOINT, LANE.STATUS and LANE.COUNTERS_READ (R154, R164) -/

theorem laneSetpoint_stored {s : State} {src : Source} {n : Nat} {v : Int} {c : LaneConfig} (hr : Taken s src 0x0B05) (hn : n < 8)
    (hv : withinI (-2147483648) 2147483647 v = true) (hcfg : (s.lane n).cfg = some c) (hsrc : c.source = .path src.path)
    (hst : (s.lane n).state = .run) : ∃ u, exec (.laneSetpoint src n v) s = .next u ∧
      Answered s u src 0x0B05 [] (s.setLane n { s.lane n with mailboxCmd := some v }) := by
  rw [exec_laneSetpoint, execLaneSetpoint]
  refine taken_ok hr (by decide) ?_ rfl rfl
  unfold setpointDo
  extract_lets l
  rw [checked_of_all _ (by simp [hn, hv])]
  split
  · next h => cases hcfg.symm.trans h
  · next d h =>
    obtain rfl : c = d := Option.some.inj (hcfg.symm.trans h)
    rw [if_neg (by simp [hsrc]), if_pos (by simp [l, hst])]
    rfl

theorem laneStatus_fields {s : State} {src : Source} {n : Nat} (hr : Taken s src 0x0B06) (hn : n < 8) :
    ∃ u, exec (.laneStatus src n) s = .next u ∧ Answered s u src 0x0B06 (s.seen.laneFields n) s := by
  have passes : execLaneStatus src n s = runCommand src 0x0B06 (fun z => okWith z (z.laneFields n)) s :=
    congrArg (fun h => runCommand src 0x0B06 h s) (funext fun z => checked_of_all _ (by simp [hn]))
  rw [exec_laneStatus, passes]
  exact status_ok (fun z => z.laneFields n) hr

theorem laneCountersRead_counters {s : State} {src : Source} {n : Nat} {c : Bool} (hr : Taken s src 0x0B08) (hn : n < 8) :
    ∃ u, exec (.laneCountersRead src n c) s = .next u ∧ LaneCountersRead s u src n c := by
  rw [exec_laneCountersRead, execLaneCountersRead]
  cases c with
  | false =>
    exact taken_imp hr (by decide) (checked_of_all _ (by simp [hn])) rfl rfl fun u ha =>
      ⟨s, ha, fun _ => rfl, nofun, rfl, fun _ _ => rfl, Changes.refl _ s⟩
  | true =>
    refine taken_imp hr (by decide) (checked_of_all _ (by simp [hn])) rfl rfl fun u ha =>
      ⟨s.setLane n (s.lane n).clearCounters, ha, nofun, fun _ => ?_, ?_, onlyLane_setLane s n _⟩
    · rw [State.lane_setLane_same]
      exact ⟨rfl, rfl, rfl, rfl, rfl, rfl⟩
    · rw [State.lane_setLane_same]
      rfl

/-! ### LANE.FAULT_CLEAR (R163) -/

/-- A contactor without a weld, recorded or suspected. -/
abbrev Contactor.unwelded (c : Contactor) : Prop := c.weld = false ∧ c.weldSuspect = false

/-- The lane that LANE.FAULT_CLEAR leaves: DISARMED, its welds acknowledged. -/
def Lane.faultCleared (l : Lane) (now : Nat) : Lane :=
  ([0, 1, 2] : List Nat).foldl (fun z k => z.updContactor k fun c => { c with weld := false, weldSuspect := false })
    { l with state := .disarmed, step := 0, stepAt := now, openWatch := [] }

theorem Lane.unwelded_faultCleared (l : Lane) (now : Nat) : ∀ k, k < 3 → ((l.faultCleared now).contactor k).unwelded :=
  forall_contactor.2 ⟨⟨rfl, rfl⟩, ⟨rfl, rfl⟩, ⟨rfl, rfl⟩⟩

/-- Whether any of a lane's contactors has a weld. -/
theorem Lane.any_welded (l : Lane) : (([0, 1, 2] : List Nat).any fun k => (l.contactor k).weld || (l.contactor k).weldSuspect) = false ↔
    ∀ k, k < 3 → (l.contactor k).unwelded := by
  rw [forall_contactor]
  simp [Lane.contactor]

section
variable {s : State} {src : Source} {n : Nat} {ack : Bool} (hr : Taken s src 0x0B07) (hn : n < 8)
include hr hn

theorem laneFaultClear_cleared (hst : (s.lane n).state = .tripped) (hl : s.latched n = false) (ho : (s.lane n).allOpen = true)
    (hw : (∀ k, k < 3 → ((s.lane n).contactor k).unwelded) ∨ ack = true) : ∃ u, exec (.laneFaultClear src n ack) s = .next u ∧
      Answered s u src 0x0B07 [] (s.setLane n ((s.lane n).faultCleared s.now)) := by
  rw [← Lane.any_welded] at hw
  rw [exec_laneFaultClear, execLaneFaultClear]
  refine taken_ok hr (by decide) ?_ rfl rfl
  unfold faultClearDo
  extract_lets l weld
  have hweld : (!weld || ack) = true := by simpa [weld, l] using hw
  rw [checked_of_all _ (by simp [l, hn, hl, ho, hweld]), if_neg (by simp [l, hst])]
  rfl

theorem laneFaultClear_latched (hl : s.latched n = true) : ∃ u, exec (.laneFaultClear src n ack) s = .next u ∧
    Refused s u src 0x0B07 stLatched := by
  rw [exec_laneFaultClear, execLaneFaultClear]
  exact taken_refused hr (by decide) (by simp [faultClearDo, checked, hn, hl])

theorem laneFaultClear_contactorFault (hl : s.latched n = false) (h : (s.lane n).allOpen = false ∨
    (ack = false ∧ ¬ ∀ k, k < 3 → ((s.lane n).contactor k).unwelded)) : ∃ u, exec (.laneFaultClear src n ack) s = .next u ∧
      Refused s u src 0x0B07 stContactorFault := by
  rw [← Lane.any_welded, Bool.not_eq_false] at h
  rw [exec_laneFaultClear, execLaneFaultClear]
  refine taken_refused hr (by decide) ?_
  unfold faultClearDo
  extract_lets l weld
  have hfails : (l.allOpen && (!weld || ack)) = false := by
    rcases h with hopen | ⟨hack, hweld⟩
    · simp [l, hopen]
    · simp [weld, l, hack, hweld]
  simp [checked, hn, hl, hfails]

end

/-- Settles O56: the three outcomes of the command's checks. -/
theorem faultClearMovesATrippedLaneOrRefuses : Obligations.FaultClearMovesATrippedLaneOrRefuses := by
  intro s src n ack
  refine ⟨?moves, fun hr hn _ => laneFaultClear_latched hr hn, ?contactor⟩
  case moves =>
    intro hr hn hst hl ho hw
    have hunwelded : (∀ k, k < 3 → ((s.lane n).contactor k).unwelded) ∨ ack = true := by
      rw [Lane.forall_contactor]
      simpa [and_assoc] using hw
    obtain ⟨u, hu, hreplied, henv⟩ := laneFaultClear_cleared hr hn hst (by simpa using hl) ho hunwelded
    refine ⟨u, hu, hreplied, ?_, fun m hm => (henv.lane m).trans (State.lane_setLane_ne s _ hm)⟩
    rw [henv.lane, State.lane_setLane_same]
    rfl
  case contactor =>
    intro hr hn _ hl h
    refine laneFaultClear_contactorFault hr hn (by simpa using hl) ?_
    rw [Lane.forall_contactor]
    simpa [imp_iff_not_or, or_assoc] using h

/-- Settles O18: one lemma for each command. -/
theorem laneCommandsComplete : Obligations.LaneCommandsComplete := by
  intro s z src n g v a
  refine ⟨?config, fun hr hn hg ha hd => laneLoopSet_gains hr hn hg ha hd, ?arm, ?disarm, ?setpoint, ?status, ?faultClear,
    fun c => laneCountersRead_counters⟩
  case config =>
    intro c hr hn ha hfirst hp hok hranges _ hst
    simpa using laneConfig_disarmed hr hn (by simpa using ha) hfirst hp hok hranges hst
  case arm =>
    intro hr hn hc
    obtain ⟨u, hu, hans⟩ := laneArm_begins hr hn hc
    refine ⟨u, hu, _, hans, ?_⟩
    rw [State.lane_setLane_same]
    exact ⟨rfl, rfl, rfl, rfl, rfl, rfl, onlyLane_setLane s n _⟩
  case disarm =>
    intro hr hn hst
    obtain ⟨u, hu, w, hans, hw⟩ := laneDisarm_begins hr hn hst
    exact ⟨u, hu, w, hans, by rw [hw], by rw [hw], by rw [hw]⟩
  case setpoint => exact fun c hr hn v1 v2 => laneSetpoint_stored hr hn (decide_eq_true ⟨v1, v2⟩)
  case status =>
    rintro hr hn rfl
    exact laneStatus_fields hr hn
  case faultClear =>
    intro hr hn hst hl ho hw
    obtain ⟨u, hu, hans⟩ := laneFaultClear_cleared hr hn hst (by simpa using hl) ho hw
    refine ⟨u, hu, _, hans, ?_⟩
    rw [State.lane_setLane_same]
    exact ⟨rfl, Lane.unwelded_faultCleared _ _, onlyLane_setLane s n _⟩

end Sys2Proof.Machine
end

