-- ==== Sys2Proof/Proofs/LaneTrips.lean ====
section
/-! PROOF. A trip of a lane: the TRIP requests that follow it on the converters can take the place of others, whose consumers are told;
no consumer changes the state of a lane, its cause or its forced gates. -/

namespace Sys2Proof.Machine

open Sys2Proof
set_option Elab.async false

/-- What a trip sets in a lane: its state, its cause and its forced gates. -/
def Lane.trip (l : Lane) : LaneState × Nat × Bool := (l.state, l.cause, l.gatesForced)

/-- Every lane is in the state in which it was, for the same cause, its gates forced or not as they were. -/
abbrev TripsKept (s t : State) : Prop := ∀ n, (t.lane n).trip = (s.lane n).trip

theorem TripsKept.refl (s : State) : TripsKept s s := fun _ => rfl
theorem TripsKept.trans {s t u : State} (h : TripsKept s t) (g : TripsKept t u) : TripsKept s u := fun n => (g n).trans (h n)
theorem Changes.tripsKept {ps : List Part} {s t : State} (h : Changes ps s t) (hp : .lanes ∉ ps) : TripsKept s t :=
  fun n => congrArg Lane.trip (h.lane hp n)
theorem tripsKept_setLane {s : State} {n : Nat} {x : Lane} (h : x.trip = (s.lane n).trip) : TripsKept s (s.setLane n x) := by
  intro j
  by_cases hj : j = n
  · rw [hj, State.lane_setLane_same, h]
  · rw [State.lane_setLane_ne s x hj]
theorem tripsKept_foldl {α : Type} {f : State → α → State} (h : ∀ z x, TripsKept z (f z x)) (l : List α) (s : State) :
    TripsKept s (l.foldl f s) :=
  List.foldlRecOn (motive := fun z => TripsKept s z) _ _ (.refl s) fun z hz x _ => hz.trans (h z x)

/-! ### The control law (05 R147 to R154) -/

theorem Lane.trip_updContactor (l : Lane) (k : Nat) (f : Contactor → Contactor) : (l.updContactor k f).trip = l.trip := by
  unfold Lane.updContactor
  split_ifs <;> rfl
theorem Lane.trip_phaseSample (l : Lane) (m : Nat) (v : Option Int) : (l.phaseSample m v).trip = l.trip := by
  fun_cases Lane.phaseSample l m v <;> rfl
theorem Lane.trip_periodRuns (l : Lane) : l.periodRuns.trip = l.trip := by
  fun_cases Lane.periodRuns l <;> rfl
theorem Lane.trip_spindleB (l : Lane) (c : LaneConfig) (g : LoopGains) : (l.spindleB c g).trip = l.trip := by
  unfold Lane.spindleB
  extract_lets fs y r ff d b l1
  split
  · refine List.foldlRecOn (motive := fun z : Lane => z.trip = l.trip) _ _ rfl fun z hz m _ => ?_
    split
    · exact hz
    · exact hz
  · rfl

theorem tripsKept_formReference (s : State) (n : Nat) : TripsKept s (s.formReference n) := by
  fun_cases State.formReference s n
  · exact TripsKept.refl s
  · exact (tripsKept_setLane (by rfl)).trans ((changes_setLaneSound _ n _).tripsKept (by decide))
theorem tripsKept_stringPeriod (s : State) (n : Nat) (dropped : Bool) : TripsKept s (s.stringPeriod n dropped) := by
  fun_cases State.stringPeriod s n dropped
  · exact TripsKept.refl s
  · refine (tripsKept_formReference s n).trans (tripsKept_setLane ?_)
    dsimp only
    split
    · rfl
    · rw [Lane.trip_periodRuns, Lane.trip_spindleB]
      rfl
  · exact TripsKept.refl s

/-! ### Records and their consumers (04 R119) -/

theorem changes_moduleSignal (s : State) (h typ : Nat) (v : Option Int) : Changes [.ana, .therm, .ten] s (s.moduleSignal h typ v) := by
  unfold State.moduleSignal State.publishLocal
  exact ((outputsFollow_setSigLocal s h _).trans (outputsFollow_followSignal _ h)).changes
theorem changes_gridRecord (s : State) (input hold : Nat) (v : Option Int) : Changes [.lh, .recorder] s (s.gridRecord input hold v) := by
  have heard (z : State) (x : Lighthouse) : Changes [.lh, .recorder] z { z with lh := x } := by
    intro p hp
    cases p <;> simp_all [Part.same]
  have evaluates (vab vbc : Int) (z : State) : Changes [.lh, .recorder] z (lighthouseDo hold vab vbc z) := by
    unfold lighthouseDo
    extract_lets h prev r angle fOk vOk good bad wrapped h1 h2 s1
    have hs1 : Changes [.lh, .recorder] z s1 := heard z h2
    split
    · exact hs1.trans ((changes_event _ _ _ _ _ _ _ _ _ _ _ _).mono (by decide))
    · exact hs1
  fun_cases State.gridRecord s input hold v
  · exact (heard s _).trans (evaluates _ _ _)
  all_goals exact heard s _
/-- No answer touches the lanes, not even one that is discarded at the reset of its mailbox. -/
theorem lanes_answer (s : State) (src : Source) (code status : Nat) (payload : List Field) :
    (s.answer src code status payload).lanes = s.lanes := by
  cases h : (s.box src.path src.box).resetPending with
  | false => exact (envelope_answer src s code status payload h).rest .lanes (by cases src.path <;> decide)
  | true =>
    unfold State.answer
    dsimp only
    rw [if_pos h]
    cases src.path <;> rfl

theorem tripsKept_armWatch (s : State) (n : Nat) : TripsKept s (s.armWatch n) := by
  fun_cases State.armWatch s n
  · exact TripsKept.refl s
  · exact tripsKept_setLane rfl
  · exact TripsKept.refl s
theorem tripsKept_latestRecord (s : State) (r : Result) (hold : Nat) : TripsKept s (s.latestRecord r hold) := by
  unfold State.latestRecord
  extract_lets valid s1 n s2
  have h1 : TripsKept s s1 := (changes_ana s _).tripsKept (by decide)
  have h2 : TripsKept s1 s2 := by
    simp only [s2]
    split
    · refine TripsKept.trans ?_ (tripsKept_armWatch _ n)
      split
      · exact (changes_therm s1 _).tripsKept (by decide)
      · split
        · exact tripsKept_setLane rfl
        · exact TripsKept.refl s1
    · exact TripsKept.refl s1
  split
  · exact h1.trans h2
  · exact (h1.trans h2).trans ((changes_moduleSignal s2 _ _ _).tripsKept (by decide))
theorem tripsKept_sendLoop (s : State) (n updated : Nat) : TripsKept s (s.sendLoop n updated) := by
  unfold State.sendLoop
  split
  · exact (changes_emit s _).tripsKept (by decide)
  · exact TripsKept.refl s
theorem tripsKept_pwmRecord (s : State) (r : Result) : TripsKept s (s.pwmRecord r) := by
  unfold State.pwmRecord
  extract_lets n l i
  split
  · exact (tripsKept_setLane (Lane.trip_phaseSample _ _ _)).trans (tripsKept_sendLoop _ _ _)
  · split
    · exact tripsKept_stringPeriod s n true
    · split
      · exact tripsKept_setLane rfl
      · split
        · exact tripsKept_setLane rfl
        · exact ((tripsKept_setLane (by rfl)).trans (tripsKept_stringPeriod _ n false)).trans (tripsKept_sendLoop _ _ _)
theorem tripsKept_strobeSample (s : State) (n tag hold : Nat) (v : Option Int) : TripsKept s (s.strobeSample n tag hold v) := by
  unfold State.strobeSample
  extract_lets s1
  have h1 : TripsKept s s1 := by
    refine TripsKept.trans (tripsKept_setLane (n := n) (x := (s.lane n).strobeSample tag hold v) rfl) ?_
    exact ((changes_sound _ _).tripsKept (by decide)).trans ((changes_ana _ _).tripsKept (by decide))
  split
  · exact h1.trans ((changes_sound s1 _).tripsKept (by decide))
  · exact h1
theorem tripsKept_consume (s : State) (r : Result) (c : Conversion) (source : Nat) : TripsKept s (s.consume r c source) := by
  have answers (l : List Source) (st : Nat) : TripsKept s (l.foldl (fun z q => z.answer q 0x0704 st [.struct r.bytes]) s) :=
    tripsKept_foldl (fun z q n => congrArg Lane.trip (lane_of_lanes (lanes_answer z q _ _ _) n)) l s
  fun_cases State.consume s r c source
  case case1 => exact (changes_setConv s _ _).tripsKept (by decide)
  case case2 => exact tripsKept_strobeSample s _ _ _ _
  case case3 => exact tripsKept_pwmRecord s r
  case case4 => exact (changes_gridRecord s _ _ _).tripsKept (by decide)
  case case5 => exact (changes_event _ _ _ _ _ _ _ _ _ _ _ _).tripsKept (by decide)
  case case6 => exact answers _ _
  case case7 => exact answers _ _
  case case8 => exact TripsKept.refl s

/-! ### Requests that are not converted (04 R114, R117) -/

theorem tripsKept_dropRequest (s : State) (k : Nat) (c : Conversion) (collide : Bool) : TripsKept s (s.dropRequest k c collide) := by
  refine TripsKept.trans ?_ ((tripsKept_latestRecord _ _ _).trans (tripsKept_foldl (fun z q => tripsKept_consume z _ c q) _ _))
  exact (changes_setConv s k _).tripsKept (by decide)
theorem tripsKept_loseRequest (s : State) (k : Nat) (c : Option Conversion) : TripsKept s (s.loseRequest k c) := by
  cases c with
  | none => exact TripsKept.refl s
  | some c => exact tripsKept_dropRequest s k c true
theorem tripsKept_urgentRequest (s : State) (k : Nat) (l : List Conversion) : TripsKept s (s.urgentRequest k l) := by
  have written (v : Converter) : TripsKept s (s.setConv k v) := (changes_setConv s k v).tripsKept (by decide)
  fun_cases State.urgentRequest s k l
  case case1 => exact TripsKept.refl s
  case case2 => exact TripsKept.refl s
  case case3 => exact written _
  case case4 => exact (written _).trans (tripsKept_loseRequest _ _ _)
  case case5 => exact written _
  case case6 => exact (written _).trans (tripsKept_loseRequest _ _ _)
  case case7 => exact tripsKept_dropRequest s k _ true
  case case8 => exact written _
  case case9 => exact tripsKept_dropRequest s k _ false
  case case10 => exact written _
theorem tripsKept_tripRequests (s : State) (n cause : Nat) : TripsKept s (s.tripRequests n cause) :=
  (tripsKept_urgentRequest s _ _).trans (tripsKept_urgentRequest _ _ _)

/-! ### The trip (09 R260, 05 R140) -/

/-- A lane that is configured and not yet TRIPPED goes to TRIPPED for the cause, its gates forced low. -/
theorem trip_tripLane {s : State} {n : Nat} (c : Nat) (v0 : Option Int) (hu : (s.lane n).state ≠ .unconfigured)
    (ht : (s.lane n).state ≠ .tripped) : ((s.tripLane n c v0).lane n).trip = (.tripped, c, true) := by
  unfold State.tripLane
  extract_lets l s1 trips s2
  rw [if_neg (by simp [l, hu]), if_neg (by simp [l, ht])]
  have tripped : (((s2.setLane n (l.toTripped c s.now))).lane n).trip = (.tripped, c, true) := by
    rw [State.lane_setLane_same]
    rfl
  exact (tripsKept_tripRequests _ n c n).trans (((changes_runLeft _ n ocLaneState).tripsKept (by decide) n).trans tripped)

end Sys2Proof.Machine
end

