-- ==== Sys2Proof/Proofs/LaneEvents.lean ====
section
/-! PROOF. PWM periods, the sequences, the contactors and the lane's own trips (O19): each event has arisen, and does to its lane what its
handler says. -/

namespace Sys2Proof.Machine

open Sys2Proof
set_option Elab.async false

/-! ### Events of one lane -/

section
variable {e : Bool} {s : State} {t n : Nat} {c : State → Bool} {f : State → State} {x : Lane} {Q : State → Prop} (he : e = true)
  (hc : c (s.atTime t) = true)
include he hc

/-- What follows from an event that writes one lane alone. -/
theorem whenOn_lane (hf : f (s.atTime t) = (s.atTime t).setLane n x)
    (k : ∀ u, u.lane n = x → Only State.lane n [.clock, .lanes, .mbox] s u → Q u) : ∃ u, wheneverOn e s t c f = .next u ∧ Q u := by
  refine whenOn_imp he hc fun u hu => ?_
  rw [hf] at hu
  exact k u ((hu.lane n).trans (State.lane_setLane_same _ n x)) (hu.onlyLane (onlyLane_setLane _ n x) (by decide))
/-- What follows from an event that writes one lane and is recorded. -/
theorem whenOn_laneRecorded (hf : Changes [.recorder] ((s.atTime t).setLane n x) (f (s.atTime t)))
    (k : ∀ u, u.lane n = x → Only State.lane n [.clock, .lanes, .mbox, .recorder] s u → Q u) :
    ∃ u, wheneverOn e s t c f = .next u ∧ Q u := by
  have honly : Only State.lane n [.lanes, .recorder] (s.atTime t) (f (s.atTime t)) :=
    ((onlyLane_setLane _ n x).mono (by decide)).trans ((hf.onlyLane (by decide) n).mono (by decide))
  exact whenOn_imp he hc fun u hu => k u ((hu.lane n).trans ((hf.lane (by decide) n).trans (State.lane_setLane_same _ n x)))
    (hu.onlyLane honly (by decide))

end

/-! ### Phases (R142 to R144) -/

theorem Lane.phase_updPhase_same (l : Lane) (m : Nat) (f : Phase → Phase) : (l.updPhase m f).phase m = f (l.phase m) :=
  tget_tset_same _ _ _ _
theorem Lane.phase_updPhase_ne (l : Lane) {j m : Nat} (f : Phase → Phase) (h : j ≠ m) : (l.updPhase m f).phase j = l.phase j :=
  tget_tset_ne _ _ _ h

theorem Phase.timing_gates (p : Phase) (dtH dtL len on : Nat) :
    (p.gates dtH dtL len on).nextAt = p.nextAt ∧ (p.gates dtH dtL len on).len = p.len := by
  unfold Phase.gates
  split_ifs <;> exact ⟨rfl, rfl⟩
theorem Phase.timing_start (p : Phase) (c : LaneConfig) (m : Nat) (drives : Bool) (len : Nat) (next : Option Rat) :
    (p.start c m drives len next).nextAt = next ∧ (p.start c m drives len next).len = len := by
  unfold Phase.start
  extract_lets sw p1
  split
  · exact Phase.timing_gates _ _ _ _ _
  · exact ⟨rfl, rfl⟩

/-- The next planned period begins in RUN: phase 0 takes its length and the start after it. -/
theorem Lane.startPeriod_run {l : Lane} {len : Nat} {rest : List Nat} {q : Rat} (c : LaneConfig) (now : Nat) (hst : l.state = .run)
    (hp : l.periods = len :: rest) (hq : (l.phase 0).nextAt = some q) :
    (l.startPeriod c now).periods = rest ∧ ((l.startPeriod c now).phase 0).nextAt = some (q + (len : Rat) / 4) ∧
      ((l.startPeriod c now).phase 0).len = len ∧ (l.startPeriod c now).lastPeriodNs = (len : Rat) / 4 ∧
      (l.startPeriod c now).periodSeq = (l.periodSeq + 1) % 2 ^ 32 := by
  fun_cases Lane.startPeriod l c now
  case case2 h => exact (h _ _ _ hp hq).elim
  case case1 len' rest' start hstart hper force l0 drv l1 l2 l3 first =>
    obtain rfl : start = q := Option.some.inj (hstart.symm.trans hq)
    obtain ⟨rfl, rfl⟩ : len' = len ∧ rest' = rest := List.cons.inj (hper.symm.trans hp)
    have hl0 : l0 = l := if_neg (by simp [force, hst])
    have hseq : l1.periodSeq = (l.periodSeq + 1) % 2 ^ 32 := by
      simp only [l1, hl0, hst]
      rfl
    have later : l3.phase 0 = l2.phase 0 ∧ l3 = { l2 with phases := l3.phases } := by
      refine List.foldlRecOn (motive := fun z : Lane => z.phase 0 = l2.phase 0 ∧ z = { l2 with phases := z.phases }) _ _ ⟨rfl, rfl⟩
        fun z hz m _ => ?_
      split
      · exact hz
      · next hm =>
        refine ⟨(Lane.phase_updPhase_ne z _ (Ne.symm hm)).trans hz.1, ?_⟩
        rw [Lane.updPhase, hz.2]
    have phase0 : l3.phase 0 = (l1.phase 0).start c 0 drv len' (some (start + (len' : Rat) / 4)) :=
      later.1.trans (Lane.phase_updPhase_same l1 0 _)
    obtain ⟨hnext, hlen⟩ := Phase.timing_start (l1.phase 0) c 0 drv len' (some (start + (len' : Rat) / 4))
    rw [← phase0] at hnext hlen
    exact ⟨congrArg Lane.periods later.2, hnext, hlen, congrArg Lane.lastPeriodNs later.2,
      (congrArg Lane.periodSeq later.2).trans hseq⟩

/-! ### PWM_PERIOD_START (R144, R145, R154) -/

theorem conv_of_ana {s t : State} (h : t.ana = s.ana) (k : Nat) : t.conv k = s.conv k := by
  unfold State.conv
  rw [h]

/-- On a converter with nothing to interrupt, an urgent request takes that converter, or is lost with it stopped. -/
theorem onlyConv_urgentRequest {s : State} {k : Nat} (l : List Conversion) (h : (s.conv k).running = none) :
    Only State.conv k [.ana] s (s.urgentRequest k l) := by
  have same : Only State.conv k [.ana] s s := ⟨fun _ _ => rfl, Changes.refl _ s⟩
  cases l with
  | nil => exact same
  | cons c rest =>
    simp only [State.urgentRequest, h]
    split
    · exact same
    · exact onlyConv_setConv s k _

/-- What arises at the start of a phase's period. -/
theorem pwmPeriodStart_arises {s : State} {t n m : Nat} {c : LaneConfig} {q : Rat} {Q : State → Prop} (hn : n < 8) (hm6 : m < 6)
    (hpow : s.power.state = .full) (hcfg : (s.lane n).cfg = some c) (hm : m < c.phases)
    (hper : m ≠ 0 ∨ (s.lane n).periods ≠ []) (hq : ((s.lane n).phase m).nextAt = some q) (hle : q ≤ (s.nowAt t : Rat) + 1)
    (k : ∀ u, Settled (pwmPeriodDo n m c (s.atTime t)) u → Q u) : ∃ u, exec (.pwmPeriodStart t n m) s = .next u ∧ Q u := by
  have htables : s.tablesRun = true := by simp [State.tablesRun, hpow]
  rw [exec_pwmPeriodStart, execPwmPeriodStart]
  refine whenOn_imp (by simp [hn, hm6]) ?_ fun u hu => k u ?_
  · simp only [lane_atTime, hcfg, hq, tablesRun_atTime, htables]
    simpa [hm, hle] using hper
  · simpa only [lane_atTime, hcfg] using hu

theorem pwmPeriodStart_begun {s : State} {t n len : Nat} {rest : List Nat} {c : LaneConfig} {q : Rat} (hn : n < 8)
    (hpow : s.power.state = .full) (hcfg : (s.lane n).cfg = some c) (hc : 0 < c.phases) (hst : (s.lane n).state = .run)
    (hp : (s.lane n).periods = len :: rest) (hq : ((s.lane n).phase 0).nextAt = some q) (hle : q ≤ (s.nowAt t : Rat) + 1)
    (hrole : s.laneRole n = none) (he : (s.conv (2 * n)).running = none) (ho : (s.conv (2 * n + 1)).running = none) :
    ∃ u, exec (.pwmPeriodStart t n 0) s = .next u ∧ PeriodBegun s u n len rest q := by
  refine pwmPeriodStart_arises hn (by decide) hpow hcfg hc (.inr (by simp [hp])) hq hle fun u hu => ?_
  generalize hz : s.atTime t = z at hu
  have hlane : z.lane n = s.lane n := hz ▸ lane_atTime s t n
  have hconv (k : Nat) : z.conv k = s.conv k := conv_of_ana (hz ▸ ana_atTime s t) k
  have hzrole : z.laneRole n = none := by
    rw [← hrole, State.laneRole, ← hz, net_atTime]
    rfl
  have hsame : (z.periodRelease n).reportPeriod n = z := by
    have hrelease : z.periodRelease n = z := by simp only [State.periodRelease, hzrole]
    rw [hrelease, State.reportPeriod, if_neg (by simp [State.mirrorsLane, hzrole])]
  obtain ⟨x, hx⟩ : ∃ x, x = (s.lane n).startPeriod c z.now := ⟨_, rfl⟩
  obtain ⟨hrest, hnext, hlen, hns, hseq⟩ := Lane.startPeriod_run c z.now hst hp hq
  rw [← hx] at hrest hnext hlen hns hseq
  unfold pwmPeriodDo at hu
  simp only [if_true, hsame, hlane, ← hx, decide_true, Bool.true_and] at hu
  have h1 : Changes [.lanes] z (z.setLane n x) := changes_setLane z n x
  obtain ⟨s3, h3⟩ : ∃ s3, s3 = (z.setLane n x).urgentRequest (2 * n) [(z.setLane n x).conversion (12 * n + 0) 2 false] := ⟨_, rfl⟩
  have hs3 : Only State.conv (2 * n) [.ana] (z.setLane n x) s3 := h3 ▸ onlyConv_urgentRequest _ ((hconv _).symm ▸ he)
  have hodd : (s3.conv (2 * n + 1)).running = none := by
    rw [hs3.1 _ (by omega)]
    exact (hconv _).symm ▸ ho
  rw [← h3] at hu
  have hend : Changes [.ana] (z.setLane n x)
      (if (!s3.strobeNear n) = true then s3.urgentRequest (2 * n + 1) (s3.stringRequests n) else s3) := by
    split
    · exact hs3.2.trans (onlyConv_urgentRequest _ hodd).2
    · exact hs3.2
  have hu' : u.lane n = x := (hu.lane n).trans ((hend.lane (by decide) n).trans (State.lane_setLane_same z n x))
  rw [PeriodBegun, hu']
  exact ⟨hrest, hnext, hlen, hns, hseq, hu.moves_from (hz ▸ ((h1.mono (by decide)).trans (hend.mono (by decide))))⟩

/-- A later phase starts, and asks its converter for its own current alone. -/
theorem pwmPeriodDo_later {m : Nat} (n : Nat) (hm : m ≠ 0) (c : LaneConfig) (z : State) : pwmPeriodDo n m c z =
    (z.setLane n ((z.lane n).updPhase m fun p => p.start c m (z.lane n).drives p.len none)).urgentRequest (2 * n)
      [z.conversion (12 * n + m) 2 false] := by
  simp only [pwmPeriodDo, if_neg hm, decide_eq_false hm, Bool.false_and, Bool.false_eq_true, if_false]
  rfl

theorem pwmPeriodStart_later {s : State} {t n m : Nat} {c : LaneConfig} {q : Rat} (hn : n < 8) (hm6 : m < 6) (hm0 : m ≠ 0)
    (hpow : s.power.state = .full) (hcfg : (s.lane n).cfg = some c) (hm : m < c.phases)
    (hq : ((s.lane n).phase m).nextAt = some q) (hle : q ≤ (s.nowAt t : Rat) + 1) (he : (s.conv (2 * n)).running = none)
    (hs : (s.conv (2 * n)).stopped = false) : ∃ u, exec (.pwmPeriodStart t n m) s = .next u ∧ ((u.lane n).phase m).nextAt = none ∧
      (∀ j, j ≠ m → (u.lane n).phase j = (s.lane n).phase j) ∧ (∃ x, (u.conv (2 * n)).running = some x ∧ x.input = 12 * n + m ∧
      x.source = 2 ∧ x.holdAt = s.nowAt t) ∧ Moves [.lanes, .ana] s u := by
  refine pwmPeriodStart_arises hn hm6 hpow hcfg hm (.inl hm0) hq hle fun u hu => ?_
  have hconv : (s.atTime t).conv (2 * n) = s.conv (2 * n) := conv_of_ana (ana_atTime s t) _
  obtain ⟨x, hx⟩ : ∃ x, x = (s.lane n).updPhase m fun p => p.start c m (s.lane n).drives p.len none := ⟨_, rfl⟩
  rw [pwmPeriodDo_later n hm0, lane_atTime, ← hx, urgentRequest_idle _ _ (hconv.symm ▸ hs) (hconv.symm ▸ he)] at hu
  have hu' : u.lane n = x := (hu.lane n).trans (State.lane_setLane_same (s.atTime t) n x)
  have hmoves (v : Converter) : Moves [.lanes, .ana] (s.atTime t) (((s.atTime t).setLane n x).setConv (2 * n) v) :=
    ((changes_setLane _ n x).mono (by decide)).trans ((changes_setConv _ _ v).mono (by decide))
  refine ⟨?_, fun j hj => ?_, ⟨(s.atTime t).conversion (12 * n + m) 2 false, ?_, rfl, rfl, rfl⟩, hu.moves_from (hmoves _)⟩
  · rw [hu', hx, Lane.phase_updPhase_same]
    exact (Phase.timing_start _ _ _ _ _ _).1
  · rw [hu', hx, Lane.phase_updPhase_ne _ _ hj]
  · rw [conv_of_ana hu.ana, State.conv_setConv_same]

/-! ### The lane's own trips (R147, R152, R156) -/

/-- A lane in RUN that a trip of its own takes is TRIPPED for the cause, its gates forced. -/
theorem Settled.tripped {z u : State} {n c : Nat} {v0 : Option Int} (h : Settled (z.tripLane n c v0) u) (hst : (z.lane n).state = .run) :
    (u.lane n).state = .tripped ∧ (u.lane n).cause = c ∧ (u.lane n).gatesForced = true := by
  have htrip : (u.lane n).trip = (.tripped, c, true) :=
    (congrArg Lane.trip (h.lane n)).trans (trip_tripLane c v0 (by simp [hst]) (by simp [hst]))
  exact ⟨congrArg Prod.fst htrip, congrArg (fun x => x.2.1) htrip, congrArg (fun x => x.2.2) htrip⟩

theorem loopSampleLost_trips {s : State} (t : Nat) {n : Nat} (hn : n < 8) (hst : (s.lane n).state = .run)
    (hd : 8 ≤ (s.lane n).spB.droppedRun) : ∃ u, exec (.loopSampleLost t n) s = .next u ∧ (u.lane n).state = .tripped ∧
      (u.lane n).cause = trLoopSample ∧ (u.lane n).gatesForced = true := by
  rw [← lane_atTime s t] at hst hd
  rw [exec_loopSampleLost, execLoopSampleLost]
  exact whenOn_imp (decide_eq_true hn) (by simp [Lane.loops, hst, hd]) fun u hu => hu.tripped hst

theorem busRange_trips {s : State} (t : Nat) {n : Nat} (hn : n < 8) (hst : (s.lane n).state = .run) (hd : 10 ≤ (s.lane n).busOutRun) :
    ∃ u, exec (.busRange t n) s = .next u ∧ (u.lane n).state = .tripped ∧ (u.lane n).cause = trBusRange ∧
      (u.lane n).gatesForced = true := by
  rw [← lane_atTime s t] at hst hd
  rw [exec_busRange, execBusRange]
  exact whenOn_imp (decide_eq_true hn) (by simp [hst, hd]) fun u hu => hu.tripped hst

theorem contactorMismatch_trips {s : State} {t n k : Nat} {c : LaneConfig} (hn : n < 8) (hk : k < 3) (hcfg : (s.lane n).cfg = some c)
    (hst : (s.lane n).state = .run) (hne : ((s.lane n).contactor k).drive ≠ ((s.lane n).contactor k).fb)
    (hrep : ((s.lane n).contactor k).reported = false) (hlate : ((s.lane n).contactor k).changedAt + c.tFb * 1000000 < s.nowAt t) :
    ∃ u, exec (.contactorMismatch t n k) s = .next u ∧ (u.lane n).state = .tripped ∧ (u.lane n).cause = trMismatch := by
  rw [← lane_atTime s t] at hcfg hst hne hrep hlate
  rw [exec_contactorMismatch, execContactorMismatch]
  refine whenOn_imp (by simp [hn, hk]) (by simp [hcfg, hst, hne, hrep, fbNs, hlate]) fun u hu => ?_
  obtain ⟨hstate, hcause, -⟩ := hu.tripped (by
    rw [State.updLane_eq, State.lane_setLane_same]
    exact (congrArg Prod.fst (Lane.trip_updContactor _ _ _)).trans hst)
  exact ⟨hstate, hcause⟩

/-! ### The arming sequence (R160) -/

/-- Step 1 ends with K- closed in time, where no decay time asks for the voltages. -/
theorem armStep_kNegClosed {z : State} {n : Nat} {c : LaneConfig} (hstep : (z.lane n).step = 1) (hd : c.tDecay = 0)
    (hk : (z.lane n).kNeg.closedBy ((z.lane n).stepAt + c.tFb * 1000000) = true) :
    z.armStep n c = z.setLane n { z.lane n with step := 2, stepAt := z.now } := by
  unfold State.armStep
  extract_lets l now kpLate
  simp only [l, hstep, fbNs, hk, if_true]
  rw [if_neg (by simp [hd])]

theorem armSequenceStep_kNegClosed {s : State} {t n : Nat} {c : LaneConfig} (hn : n < 8) (hcfg : (s.lane n).cfg = some c)
    (hst : (s.lane n).state = .arming) (hperm : (s.atTime t).permissive n = true) (hd : c.tDecay = 0) (hstep : (s.lane n).step = 1)
    (hk : (s.lane n).kNeg.closedBy ((s.lane n).stepAt + c.tFb * 1000000) = true) :
    ∃ u, exec (.armSequenceStep t n) s = .next u ∧ u.lane n = { s.lane n with step := 2, stepAt := s.nowAt t } ∧
      Only State.lane n [.clock, .lanes, .mbox] s u := by
  rw [← lane_atTime s t] at hcfg hst hstep hk ⊢
  rw [exec_armSequenceStep, execArmSequenceStep]
  refine whenOn_lane (decide_eq_true hn) (by simp [hst]) ?_ fun _ => And.intro
  simp only [hcfg, hperm, Bool.true_or, if_true, armStep_kNegClosed hstep hd hk]

/-- The lane that a precharge with a short leaves: its contactors opened, DISARMED, and the short counted. -/
def Lane.prechargeShorted (l : Lane) (now : Nat) : Lane :=
  { (((l.driveK 0 false now).driveK 1 false now).driveK 2 false now) with
    state := .disarmed, step := 0, stepAt := now, failName := 3, preShort := inc64 l.preShort }

theorem changes_prechargeFail_short (z : State) (n : Nat) :
    Changes [.recorder] (z.setLane n ((z.lane n).prechargeShorted z.now)) (z.prechargeFail n 3) :=
  changes_event _ _ _ _ _ _ _ _ _ _ _ _

theorem prechargeShort_disarms {s : State} {t n a : Nat} {c : LaneConfig} (hn : n < 8) (hcfg : (s.lane n).cfg = some c)
    (hst : (s.lane n).state = .arming) (h3 : 3 ≤ (s.lane n).step) (h4 : (s.lane n).step ≤ 4)
    (hhigh : (s.atTime t).nodeHighSince n = some a) (ha : a + (c.preShort * 1000000 + 1) ≤ s.nowAt t) :
    ∃ u, exec (.prechargeShort t n) s = .next u ∧ PrechargeShort s u n := by
  rw [← lane_atTime s t] at hcfg hst h3 h4
  rw [exec_prechargeShort, execPrechargeShort]
  refine whenOn_laneRecorded (decide_eq_true hn) (by simp [hcfg, hst, hhigh, within, h3, h4, elapsedO, elapsed, ha])
    (changes_prechargeFail_short (s.atTime t) n) fun u hlane honly => ?_
  rw [lane_atTime] at hlane
  rw [PrechargeShort, hlane]
  exact ⟨rfl, rfl, rfl, rfl, rfl, rfl, honly⟩

/-! ### The disarming sequence (R161) -/

/-- Step 2 opens K+ 1 ms after the gates were forced. -/
theorem disarmStep_opensKPos {z : State} {n : Nat} {c : LaneConfig} (hstep : (z.lane n).step = 2) (hg : (z.lane n).gatesForced = true)
    (ht : (z.lane n).stepAt + 1000000 ≤ z.now) : z.disarmStep n c = z.setLane n { ((z.lane n).driveK 1 false z.now) with
      step := 3, stepAt := z.now, decayDue := if c.tDecay = 0 then none else some (z.now + c.tDecay * 1000000) } := by
  simp only [State.disarmStep, hstep, hg, ht, decide_true, Bool.and_self, if_true]

theorem disarmSequenceStep_opensKPos {s : State} {t n : Nat} {c : LaneConfig} (hn : n < 8) (hcfg : (s.lane n).cfg = some c)
    (hst : (s.lane n).state = .disarming) (hstep : (s.lane n).step = 2) (hg : (s.lane n).gatesForced = true)
    (ht : (s.lane n).stepAt + 1000000 ≤ s.nowAt t) : ∃ u, exec (.disarmSequenceStep t n) s = .next u ∧
      u.lane n = { ((s.lane n).driveK 1 false (s.nowAt t)) with
        step := 3, stepAt := s.nowAt t, decayDue := if c.tDecay = 0 then none else some (s.nowAt t + c.tDecay * 1000000) } ∧
      Only State.lane n [.clock, .lanes, .mbox] s u := by
  rw [← lane_atTime s t] at hcfg hst hstep hg ht ⊢
  rw [exec_disarmSequenceStep, execDisarmSequenceStep]
  refine whenOn_lane (decide_eq_true hn) (by simp [hst]) ?_ fun _ => And.intro
  simp only [hcfg, disarmStep_opensKPos hstep hg ht]

theorem disarmForced_forces {s : State} {t n : Nat} {c : LaneConfig} (hn : n < 8) (hcfg : (s.lane n).cfg = some c)
    (hst : (s.lane n).state = .disarming) (hstep : (s.lane n).step = 1)
    (ht : (s.lane n).stepAt + c.disarmTimeout * 1000000 ≤ s.nowAt t) : ∃ u, exec (.disarmForced t n) s = .next u ∧
      u.lane n = { s.lane n with step := 2, stepAt := s.nowAt t, disarmForced := inc64 (s.lane n).disarmForced } ∧
      Only State.lane n [.clock, .lanes, .mbox, .recorder] s u := by
  rw [← lane_atTime s t] at hcfg hst hstep ht ⊢
  rw [exec_disarmForced, execDisarmForced]
  exact whenOn_laneRecorded (decide_eq_true hn) (by simp [hcfg, hst, hstep, ht]) (changes_event _ _ _ _ _ _ _ _ _ _ _ _)
    fun _ => And.intro

theorem decayCheck_down {s : State} {t n a : Nat} (hn : n < 8) (hd : (s.lane n).decayDue = some a) (ha : a ≤ s.nowAt t)
    (hdown : (s.atTime t).stageDown n = true) : ∃ u, exec (.decayCheck t n) s = .next u ∧
      u.lane n = { s.lane n with decayDue := none } ∧ Only State.lane n [.clock, .lanes, .mbox] s u := by
  rw [← lane_atTime s t] at hd ⊢
  rw [exec_decayCheck, execDecayCheck]
  exact whenOn_lane (decide_eq_true hn) (by simpa [hd, elapsedO, elapsed] using ha) (if_pos hdown) fun _ => And.intro

/-! ### Contactors (R156, R158, R162) -/

theorem holdsHelm_atTime (s : State) (t n : Nat) : (s.atTime t).holdsHelm n = s.holdsHelm n := by
  unfold State.holdsHelm State.laneRole
  rw [net_atTime]

theorem contactorFeedback_seen {s : State} (t : Nat) {n k : Nat} {b : Bool} (hn : n < 8) (hk : k < 3)
    (hne : ((s.lane n).contactor k).fb ≠ b) : ∃ u, exec (.contactorFeedback t n k b) s = .next u ∧ FeedbackSeen s u t n k b := by
  rw [exec_contactorFeedback, execContactorFeedback]
  refine whenOn_lane (by simp [hn, hk]) (by simpa [lane_atTime] using hne) rfl fun u hlane honly => ?_
  rw [lane_atTime, holdsHelm_atTime] at hlane
  rw [FeedbackSeen, hlane, Lane.contactor_updContactor_same]
  refine ⟨rfl, rfl, ?_, fun j hj hjk => Lane.contactor_updContactor_ne _ _ hj hk hjk, honly⟩
  simp only [Bool.and_eq_true]
  rfl

/-- A lane whose contactors all read open shows no weld. -/
theorem weldCheckDo_open {z : State} {n : Nat} (ho : (z.lane n).allOpen = true) :
    weldCheckDo n z = z.setLane n { z.lane n with openWatch := [] } := by
  have hopen : ∀ k, ((z.lane n).contactor k).fb = false := by
    obtain ⟨⟨hneg, hpos⟩, hpre⟩ : ((z.lane n).kNeg.fb = false ∧ (z.lane n).kPos.fb = false) ∧ (z.lane n).kPre.fb = false := by
      simpa [Lane.allOpen] using ho
    intro k
    unfold Lane.contactor
    split_ifs <;> assumption
  have none_closed : ((z.lane n).openWatch.filter fun k => ((z.lane n).contactor k).fb) = [] :=
    List.filter_eq_nil_iff.2 fun k _ => by simp [hopen k]
  unfold weldCheckDo
  simp only [none_closed, List.foldl_nil]

theorem weldCheck_open {s : State} {t n : Nat} {c : LaneConfig} (hn : n < 8) (hcfg : (s.lane n).cfg = some c)
    (hst : (s.lane n).state = .tripped) (hw : (s.lane n).openWatch ≠ []) (ht : (s.lane n).openAt + c.tFb * 1000000 ≤ s.nowAt t)
    (ho : (s.lane n).allOpen = true) : ∃ u, exec (.weldCheck t n) s = .next u ∧ u.lane n = { s.lane n with openWatch := [] } ∧
      Only State.lane n [.clock, .lanes, .mbox] s u := by
  rw [← lane_atTime s t] at hcfg hst hw ht ho ⊢
  rw [exec_weldCheck, execWeldCheck]
  exact whenOn_lane (decide_eq_true hn) (by simp [hcfg, hst, hw, fbNs, ht]) (weldCheckDo_open ho)
    fun _ => And.intro

/-- Settles O19: one lemma for each event. -/
theorem laneEventsComplete : Obligations.LaneEventsComplete := by
  intro s t n len m a k rest c q b l
  refine ⟨pwmPeriodStart_begun, ?later, loopSampleLost_trips t, busRange_trips t, armSequenceStep_kNegClosed, prechargeShort_disarms,
    ?disarming, disarmForced_forces, decayCheck_down, contactorFeedback_seen t, ?mismatch, weldCheck_open⟩
  case later =>
    intro hn hm6 hm0 hpow hcfg hm hq hle he hs
    exact pwmPeriodStart_later hn hm6 hm0 hpow hcfg hm hq hle he (by simpa using hs)
  case disarming =>
    intro hn hcfg hst hstep hg ht
    obtain ⟨u, hu, hlane, honly⟩ := disarmSequenceStep_opensKPos hn hcfg hst hstep hg ht
    refine ⟨u, hu, ?_⟩
    dsimp only [l]
    rw [hlane]
    exact ⟨rfl, rfl, rfl, hst, rfl, honly⟩
  case mismatch =>
    intro hn hk hcfg hst hne hrep hlate
    exact contactorMismatch_trips hn hk hcfg hst hne (by simpa using hrep) hlate

end Sys2Proof.Machine
end

