-- ==== Sys2Proof/Proofs/Gate.lean ====
section
/-! PROOF. The gate of a command's mailbox (O58): what it answers where the command stands, and that every command obeys it. -/

namespace Sys2Proof.Machine

open Sys2Proof
set_option Elab.async false

/-! ### What the gate answers (14 R399, R403, R406) -/

section
variable {s : State} {src : Source} {code : Nat}

/-- A mailbox that is not served keeps its command. -/
theorem gate_closed (h : (!s.mbox.ready ∧ !s.sec.recovery) ∨ s.power.state = .bareRock ∨
    (s.box src.path src.box).executing ≠ none ∨ (s.box src.path src.box).waiting ≠ [] ∨
    (s.sec.recovery = true ∧ ¬ (src.path = .service ∧ recoveryCodes.contains code = true))) : gate s src code = .closed := by
  unfold gate
  extract_lets b
  rcases h with hoff | hbare | hbusy | hfull | ⟨hloads, hforeign⟩
  · exact if_pos (by simp_all)
  · exact if_pos (by simp [hbare])
  · exact if_pos (by simp [b, Option.isSome_iff_ne_none.2 hbusy])
  · exact if_pos (by simp [b, hfull])
  · have hkept : (s.sec.recovery && !(src.path == .service && recoveryCodes.contains code)) = true := by
      simpa [hloads, imp_iff_not_or] using hforeign
    rw [if_pos hkept, ite_self]

/-- At the gate the mailbox is served, and the checks of the path come first. -/
theorem gate_of_atTheGate (h : AtTheGate s src code) : gate s src code =
    if serviceCodes.contains code && src.path != .service then .refused stServiceOnly
    else if !lifecycleAllows s.sec.lifecycle src.path code then .refused stPathRefused
    else if s.sec.debug == .invasive && invasiveRefused.contains code then .refused stPathRefused
    else if isStatus code then .runs
    else if s.power.state == .beached then .refused stBeached
    else if s.power.beach.isSome || (s.power.part.isSome && code != 0x0105) then .refused stBusy
    else if src.path == .garzet && s.net.berth.isNone then .refused stNoBerth
    else .runs := by
  obtain ⟨hready, hrock, hexec, hwait, -, hrecovery⟩ := h
  unfold gate
  extract_lets b
  rw [if_neg (by simpa [b, hexec, hwait, hrock, or_iff_not_imp_left] using hready), if_neg (by simpa using hrecovery)]

/-- A path that may run the command leaves the checks of the module's state, which a STATUS command passes over. -/
theorem gate_of_pathAllows {c : Instr} (h : PathAllows s c src code) (hstatus : isStatus code = false) : gate s src code =
    if s.power.state == .beached then .refused stBeached
    else if s.power.beach.isSome || (s.power.part.isSome && code != 0x0105) then .refused stBusy
    else if src.path == .garzet && s.net.berth.isNone then .refused stNoBerth
    else .runs := by
  obtain ⟨-, hgate, hservice, hlifecycle, hinvasive⟩ := h
  rw [gate_of_atTheGate hgate, if_neg (by simpa using hservice), if_neg (by simp [hlifecycle]), if_neg (by simpa using hinvasive),
    if_neg (by simp [hstatus])]

end

/-! ### Every command obeys its gate (14 R399) -/

/-- The outcome of a command where its gate lets it not run: closed, it stays untaken, and a refusal is answered at once. -/
def GateDecides (s : State) (src : Source) (code : Nat) (o : Host.Outcome State Fault Refusal) : Prop :=
  (gate s src code = .closed → o = .next s) ∧ ∀ st, gate s src code = .refused st → o = done s (s.answer src code st [])

theorem gateDecides_runCommand (s : State) (src : Source) (code : Nat) (h : State → Answer) :
    GateDecides s src code (runCommand src code h s) :=
  ⟨fun hg => by rw [runCommand, hg], fun st hg => by rw [runCommand, hg]⟩

theorem gateDecides_runReset (s : State) (src : Source) (code : Nat) (checks : State → List (Bool × Nat)) (f : State → State) :
    GateDecides s src code (runReset src code checks f s) :=
  ⟨fun hg => by rw [runReset, hg], fun st hg => by rw [runReset, hg]⟩

/-- Three commands reset the module; every other one runs by `runCommand`. -/
theorem gateDecides_exec {c : Instr} {src : Source} {code : Nat} (s : State) (h : c.asked = some (src, code)) :
    GateDecides s src code (exec c s) := by
  cases c
  case moduleRestart => cases h; rw [exec_moduleRestart]; exact gateDecides_runReset _ _ _ _ _
  case lifecycleDecommission => cases h; rw [exec_lifecycleDecommission]; exact gateDecides_runReset _ _ _ _ _
  case updateReboot => cases h; rw [exec_updateReboot]; exact gateDecides_runReset _ _ _ _ _
  all_goals cases h <;> (delta exec; dsimp only; exact gateDecides_runCommand _ _ _ _)

/-- A refusal of the gate changes nothing but the handing over of its answer. -/
theorem exec_refused {s : State} {c : Instr} {src : Source} {code st : Nat} (h : c.asked = some (src, code))
    (hb : (s.box src.path src.box).resetPending = false) (hg : gate s src code = .refused st) :
    ∃ u, exec c s = .next u ∧ Refused s u src code st := by
  refine ⟨_, (gateDecides_exec s h).2 st hg, ?_, (envelope_answer src s code st [] hb).trans (settle_envelope _ _ _)⟩
  rw [Replied, settle_responses, answer_responses src s code st [] hb]

/-- The same for a command on a path that may run it. -/
theorem exec_refused_of_pathAllows {s : State} {c : Instr} {src : Source} {code st : Nat} (h : PathAllows s c src code)
    (hg : gate s src code = .refused st) : ∃ u, exec c s = .next u ∧ Refused s u src code st := by
  obtain ⟨hasked, ⟨-, -, -, -, hpending, -⟩, -⟩ := h
  exact exec_refused hasked hpending hg

/-- Settles O58: the gate's answer in each of the seven places, and the outcome that it decides. -/
theorem theGateRefusesBeforeACommandsOwnChecks : Obligations.TheGateRefusesBeforeACommandsOwnChecks := by
  intro s c src code
  have refused {st : Nat} (hasked : c.asked = some (src, code)) (h : AtTheGate s src code) (hg : gate s src code = .refused st) :
      ∃ u, exec c s = .next u ∧ Refused s u src code st := by
    obtain ⟨-, -, -, -, hpending, -⟩ := h
    exact exec_refused hasked hpending hg
  refine ⟨fun hasked h => (gateDecides_exec s hasked).1 (gate_closed h), ?serviceOnly, ?lifecycle, ?invasive, ?beached, ?busy, ?noBerth⟩
  case serviceOnly =>
    intro hasked h hcode hpath
    exact refused hasked h (by rw [gate_of_atTheGate h, if_pos (by simp_all)])
  case lifecycle =>
    intro hasked h hservice hlifecycle
    exact refused hasked h (by rw [gate_of_atTheGate h, if_neg (by simpa using hservice), if_pos hlifecycle])
  case invasive =>
    intro hasked h hservice hlifecycle hdebug hcode
    refine refused hasked h ?_
    rw [gate_of_atTheGate h, if_neg (by simpa using hservice), if_neg (by simp [hlifecycle]), if_pos (by simp_all)]
  case beached =>
    intro h hstatus hstate
    refine exec_refused_of_pathAllows h ?_
    rw [gate_of_pathAllows h (by simpa using hstatus), if_pos (by simp [hstate])]
  case busy =>
    intro h hstatus hstate hbusy
    refine exec_refused_of_pathAllows h ?_
    rw [gate_of_pathAllows h (by simpa using hstatus), if_neg (by simp [hstate]),
      if_pos (by simpa [Option.isSome_iff_ne_none] using hbusy)]
  case noBerth =>
    intro h hstatus hstate hbeach hpart hpath hberth
    refine exec_refused_of_pathAllows h ?_
    rw [gate_of_pathAllows h (by simpa using hstatus), if_neg (by simp [hstate]),
      if_neg (by simpa [hbeach, imp_iff_not_or, Option.isSome_iff_ne_none] using hpart), if_pos (by simp [hpath, hberth])]

end Sys2Proof.Machine
end

