-- ==== Sys2Proof/Proofs/ModelParts.lean ====
section
/-! PROOF. The cells of a port: what reading them gives after a change to some of them, what a roughing estimate does to them, and the
commits that they ask for. -/

namespace Sys2Proof.Machine

open Sys2Proof
set_option Elab.async false

theorem changes_power (s : State) (x : Power) : Changes [.power] s { s with power := x } := by
  intro p hp
  cases p <;> simp_all [Part.same]

/-! ### Reading a cell -/

theorem cell_of_model {s t : State} (h : t.model = s.model) (i : Nat) : t.cell i = s.cell i := by
  unfold State.cell
  rw [h]
theorem cell_atTime (s : State) (t i : Nat) : (s.atTime t).cell i = s.cell i := cell_of_model (model_atTime s t) i
theorem Settled.model {z u : State} (h : Settled z u) : u.model = z.model := h.changes .model (by decide)
theorem Settled.cell {z u : State} (h : Settled z u) (i : Nat) : u.cell i = z.cell i := cell_of_model h.model i

theorem cellIx_injective (p : Nat) : Function.Injective (cellIx p) := fun a b h => by simpa [cellIx] using h

theorem modelled_nodup (s : State) (p : Nat) : (s.modelled p).Nodup := List.nodup_range.filter _

theorem onlyCell_setCell (s : State) (i : Nat) (x : Cell) : Only State.cell i [.model] s (s.setCell i x) :=
  ⟨fun _ hj => State.cell_setCell_ne s x hj, changes_model s _⟩
theorem Changes.onlyCell {ps : List Part} {s t : State} (h : Changes ps s t) (hp : .model ∉ ps) (i : Nat) : Only State.cell i ps s t :=
  ⟨fun j _ => cell_of_model (h .model hp) j, h⟩

/-! ### Several cells of a port -/

/-- From `s` to `t` only cells differ. -/
def OnlyCells (s t : State) : Prop := t = { s with model := { s.model with cells := t.model.cells } }

theorem OnlyCells.refl (s : State) : OnlyCells s s := rfl
theorem OnlyCells.trans {s t u : State} (h : OnlyCells s t) (k : OnlyCells t u) : OnlyCells s u := by
  unfold OnlyCells at h k ⊢
  rw [k, h]
theorem OnlyCells.changes {s t : State} (h : OnlyCells s t) : Changes [.model] s t := by
  rw [h]
  exact changes_model s _
theorem OnlyCells.modelCount {s t : State} (h : OnlyCells s t) (p : Nat) : t.modelCount p = s.modelCount p := by
  rw [h]
  rfl
theorem onlyCells_updCells (p : Nat) (f : Nat → Cell → Cell) (l : List Nat) (s : State) :
    OnlyCells s (l.foldl (fun z c => z.updCell (cellIx p c) (f c)) s) := by
  induction l generalizing s with
  | nil => exact .refl s
  | cons c r ih => exact .trans (t := s.updCell (cellIx p c) (f c)) rfl (ih _)

/-- A change made once to each of some cells leaves the others of the port. -/
theorem cell_updCells_of_notMem {p : Nat} {c : Nat} {l : List Nat} (f : Nat → Cell → Cell) (s : State) (hc : c ∉ l) :
    (l.foldl (fun z c => z.updCell (cellIx p c) (f c)) s).cell (cellIx p c) = s.cell (cellIx p c) := by
  induction l generalizing s with
  | nil => rfl
  | cons d r ih =>
    rw [List.mem_cons, not_or] at hc
    rw [List.foldl_cons, ih _ hc.2]
    exact State.cell_setCell_ne _ _ fun h => hc.1 (cellIx_injective p h)
/-- It changes each of them as it stood. -/
theorem cell_updCells_of_mem {p : Nat} {c : Nat} {l : List Nat} (f : Nat → Cell → Cell) (s : State) (hl : l.Nodup) (hc : c ∈ l) :
    (l.foldl (fun z c => z.updCell (cellIx p c) (f c)) s).cell (cellIx p c) = f c (s.cell (cellIx p c)) := by
  induction l generalizing s with
  | nil => exact absurd hc List.not_mem_nil
  | cons d r ih =>
    obtain ⟨hd, hr⟩ := List.nodup_cons.1 hl
    rw [List.foldl_cons]
    by_cases h : c = d
    · subst h
      rw [cell_updCells_of_notMem f _ hd, State.updCell_eq, State.cell_setCell_same]
    · have hne : cellIx p c ≠ cellIx p d := fun he => h (cellIx_injective p he)
      rw [ih _ hr ((List.mem_cons.1 hc).resolve_left h), State.updCell_eq, State.cell_setCell_ne _ _ hne]

/-! ### What the cells keep -/

/-- Every cell reads under `g` as it did. -/
def CellsKeep {α : Type} (g : Cell → α) (s t : State) : Prop := ∀ i, g (t.cell i) = g (s.cell i)

section
variable {α : Type} {g : Cell → α} {s t u : State}

theorem CellsKeep.refl (s : State) : CellsKeep g s s := fun _ => rfl
theorem CellsKeep.trans (h : CellsKeep g s t) (k : CellsKeep g t u) : CellsKeep g s u := fun i => (k i).trans (h i)
theorem CellsKeep.of_cells (h : t.model.cells = s.model.cells) : CellsKeep g s t := fun i => by rw [State.cell, h]; rfl
theorem CellsKeep.of_changes {ps : List Part} (h : Changes ps s t) (hp : .model ∉ ps) : CellsKeep g s t :=
  .of_cells (congrArg Model.cells (h .model hp))
theorem cellsKeep_updCell (s : State) (i : Nat) {f : Cell → Cell} (hf : ∀ y, g (f y) = g y) : CellsKeep g s (s.updCell i f) := by
  intro j
  by_cases h : j = i
  · rw [h, State.updCell_eq, State.cell_setCell_same, hf]
  · rw [State.updCell_eq, State.cell_setCell_ne _ _ h]
theorem cellsKeep_foldl {β : Type} {f : State → β → State} (h : ∀ z x, CellsKeep g z (f z x)) (l : List β) (s : State) :
    CellsKeep g s (l.foldl f s) := by
  induction l generalizing s with
  | nil => exact .refl s
  | cons x r ih => exact (h s x).trans (ih _)

end

/-! ### Operations queued on the store's interface (16 R447, R448) -/

/-- What an operation on the interface moves: the operations, the one running and the one suspended, and the energy found. -/
def Store.served (st : Store) (ops : List Op) (running suspended : Option Op) (e : Option Rat) : Store :=
  { st with ops := ops, running := running, suspended := suspended, eAvail := e }

theorem holdupCheck_served (s : State) (p : Op → Bool) : ∃ ops e, s.holdupCheck p =
    { s with store := s.store.served ops s.store.running s.store.suspended e } ∧ ops.length = s.store.ops.length := by
  fun_cases State.holdupCheck s p
  · exact ⟨_, _, rfl, rfl⟩
  · exact ⟨_, _, rfl, List.length_map ..⟩
theorem storeServe_served (s : State) : ∃ ops r w e, s.storeServe = { s with store := s.store.served ops r w e } := by
  fun_cases State.storeServe s <;> exact ⟨_, _, _, _, rfl⟩
theorem queueOp_served (s : State) (prio : Nat) (kind : StoreOp) : ∃ ops r w e, s.queueOp prio kind =
    { s with store := s.store.served ops r w e } := by
  unfold State.queueOp
  extract_lets o
  obtain ⟨ops, e, h, -⟩ := holdupCheck_served { s with store := { s.store with ops := s.store.ops ++ [o] } } (· == o)
  rw [h]
  obtain ⟨ops', r, w, e', h'⟩ := storeServe_served
    { s with store := ({ s.store with ops := s.store.ops ++ [o] } : Store).served ops s.store.running s.store.suspended e }
  exact ⟨ops', r, w, e', h'⟩

/-! ### Commits (06 R193) -/

/-- What a commit that is asked for leaves of the models and the store. -/
theorem startCommit_served (s : State) : ∃ c ops r w e, s.startCommit = { s with
    store := ({ s.store with commit := some c, commitQueued := false } : Store).served ops r w e
    model := { s.model with intervalH := s.model.nextIntervalH.getD s.model.intervalH, nextIntervalH := none } } ∧
    c.generation = s.store.genCommit + 1 ∧ c.startedAt = s.now := by
  unfold State.startCommit
  extract_lets ports lanes counts c
  obtain ⟨ops, r, w, e, h⟩ := queueOp_served { s with
    store := { s.store with commit := some c, commitQueued := false }
    model := { s.model with intervalH := s.model.nextIntervalH.getD s.model.intervalH, nextIntervalH := none } } 2 .commitPage
  exact ⟨c, ops, r, w, e, h, rfl, rfl⟩

theorem changes_startCommit (s : State) : Changes [.store, .model] s s.startCommit := by
  obtain ⟨c, ops, r, w, e, h, -, -⟩ := startCommit_served s
  rw [h]
  intro q hq
  cases q <;> simp_all [Part.same]
theorem changes_requestCommit (s : State) (key : Bool) : Changes [.store, .model] s (s.requestCommit key) := by
  fun_cases State.requestCommit s key
  · exact .refl _ s
  · exact (changes_store s _).mono (by decide)
  · exact changes_startCommit s

/-- A commit moves only the interval of the models. -/
theorem model_requestCommit (s : State) (key : Bool) : ∃ i n, (s.requestCommit key).model =
    { s.model with intervalH := i, nextIntervalH := n } := by
  fun_cases State.requestCommit s key
  · exact ⟨_, _, rfl⟩
  · exact ⟨_, _, rfl⟩
  · obtain ⟨c, ops, r, w, e, h, -, -⟩ := startCommit_served s
    rw [h]
    exact ⟨_, _, rfl⟩
theorem cells_requestCommit (s : State) (key : Bool) : (s.requestCommit key).model.cells = s.model.cells := by
  obtain ⟨i, n, h⟩ := model_requestCommit s key
  rw [h]
theorem modelCount_requestCommit (s : State) (key : Bool) (p : Nat) : (s.requestCommit key).modelCount p = s.modelCount p := by
  obtain ⟨i, n, h⟩ := model_requestCommit s key
  rw [State.modelCount, h]
  rfl

/-- Where nothing keeps it from starting, a commit of the next generation runs. -/
theorem requestCommit_starts {s : State} {key : Bool} (hn : s.model.native = true) (hv : s.storeStage ≠ .volatile)
    (hk : key = true ∨ s.storeStage ≠ .keyEventsOnly) (hc : s.store.commit = none) :
    ∃ c, (s.requestCommit key).store.commit = some c ∧ c.generation = s.store.genCommit + 1 ∧ c.startedAt = s.now := by
  have starts : s.requestCommit key = s.startCommit := by
    rw [State.requestCommit, if_neg (by rcases hk with rfl | hk <;> simp [*]), if_neg (by simp [hc])]
  obtain ⟨c, ops, r, w, e, h, hg, ht⟩ := startCommit_served s
  rw [starts, h]
  exact ⟨c, rfl, hg, ht⟩

/-! ### Roughing estimates (06 R185, R195) -/

theorem onlyCells_markNoLearn (s : State) (p : Nat) : OnlyCells s (s.markNoLearn p) := by
  fun_cases State.markNoLearn s p
  · exact .refl s
  · exact onlyCells_updCells p _ _ s
theorem cellsKeep_markNoLearn {α : Type} {g : Cell → α}
    (hg : ∀ y spring sets, g { y with noLearnSpring := spring, noLearnSets := sets } = g y) (s : State) (p : Nat) :
    CellsKeep g s (s.markNoLearn p) := by
  fun_cases State.markNoLearn s p
  · exact .refl s
  · exact cellsKeep_foldl (fun z c => cellsKeep_updCell z _ fun y => hg y _ _) _ s

/-- The cell whose estimate begins. -/
def Cell.roughed (y : Cell) (keep rough : Bool) : Cell :=
  { (if keep then y else y.resetLearned).startEstimate rough rough with pendingDelta := 0 }

/-- The estimates of some cells of a port begin, and are counted. -/
def State.roughBegins (s : State) (p : Nat) (cs : List Nat) (keep rough : Bool) : State :=
  ((cs.foldl (fun z c => z.updCell (cellIx p c) fun y => y.roughed keep rough) (s.markNoLearn p)).updModelCount p fun k =>
    { k with roughs := (k.roughs + cs.length) % 2 ^ 64 }).event evModelRough 2 p

/-- The estimates of the modelled cells among those named begin; where their learned values are reset, a commit is asked for. -/
theorem rough_eq (s : State) (p : Nat) (cells : List Nat) (keep start : Bool) : s.rough p cells keep start =
    (let cs := cells.filter fun c => (s.modelled p).contains c
     let begun := s.roughBegins p cs keep (start || !s.laneRested p)
     if cs = [] then s else if keep then begun else begun.requestCommit true) := by
  unfold State.rough
  extract_lets cs rough s1 s2
  by_cases h : cs = []
  · rw [if_pos (by simp [h]), if_pos h]
  · rw [if_neg (by simpa using h), if_neg h]
    rfl

section
variable {s : State} {p c : Nat} {cs : List Nat} {keep : Bool}

theorem cellsKeep_roughBegins {α : Type} {g : Cell → α} (hrough : ∀ y rough, g (y.roughed keep rough) = g y)
    (hmark : ∀ y spring sets, g { y with noLearnSpring := spring, noLearnSets := sets } = g y) (rough : Bool) :
    CellsKeep g s (s.roughBegins p cs keep rough) :=
  ((cellsKeep_markNoLearn hmark s p).trans (cellsKeep_foldl (fun z c => cellsKeep_updCell z _ fun y => hrough y _) cs _)).trans
    (.of_cells (by rw [State.roughBegins, model_event]; rfl))
theorem cell_roughBegins (rough : Bool) (hl : cs.Nodup) (hc : c ∈ cs) :
    (s.roughBegins p cs keep rough).cell (cellIx p c) = ((s.markNoLearn p).cell (cellIx p c)).roughed keep rough :=
  (cell_of_model (model_event ..) _).trans (cell_updCells_of_mem (fun _ y => y.roughed keep rough) _ hl hc)
theorem modelCount_roughBegins (s : State) (p : Nat) (cs : List Nat) (keep rough : Bool) : (s.roughBegins p cs keep rough).modelCount p =
    { s.modelCount p with roughs := ((s.modelCount p).roughs + cs.length) % 2 ^ 64 } := by
  have cells : OnlyCells s (cs.foldl (fun z c => z.updCell (cellIx p c) fun y => y.roughed keep rough) (s.markNoLearn p)) :=
    (onlyCells_markNoLearn s p).trans (onlyCells_updCells p (fun _ y => y.roughed keep rough) cs _)
  rw [State.roughBegins, State.modelCount, model_event, ← cells.modelCount p]
  exact State.modelCount_setModelCount_same _ p _

theorem changes_roughBegins (s : State) (p : Nat) (cs : List Nat) (keep rough : Bool) :
    Changes [.model, .recorder] s (s.roughBegins p cs keep rough) := by
  have cells : OnlyCells s (cs.foldl (fun z c => z.updCell (cellIx p c) fun y => y.roughed keep rough) (s.markNoLearn p)) :=
    (onlyCells_markNoLearn s p).trans (onlyCells_updCells p (fun _ y => y.roughed keep rough) cs _)
  exact ((cells.changes.trans (changes_setModelCount _ p _)).mono (by decide)).trans
    ((changes_event _ _ _ _ _ _ _ _ _ _ _ _).mono (by decide))

/-- A roughing estimate keeps of the cells what neither its start nor the reset of learned values moves. -/
theorem cellsKeep_rough {α : Type} {g : Cell → α} (hrough : ∀ y rough, g (y.roughed keep rough) = g y)
    (hmark : ∀ y spring sets, g { y with noLearnSpring := spring, noLearnSets := sets } = g y) (start : Bool) :
    CellsKeep g s (s.rough p cs keep start) := by
  rw [rough_eq]
  extract_lets ds begun
  have hbegun : CellsKeep g s begun := cellsKeep_roughBegins hrough hmark _
  split_ifs
  · exact .refl s
  · exact hbegun
  · exact hbegun.trans (.of_cells (cells_requestCommit begun true))

/-- Without a reset a roughing estimate moves only the models and the recorder, and of the counts that of roughing estimates alone. -/
theorem rough_kept (s : State) (p : Nat) (cells : List Nat) (start : Bool) :
    ((s.rough p cells true start).modelCount p).diverged = (s.modelCount p).diverged ∧
      Changes [.model, .recorder] s (s.rough p cells true start) := by
  rw [rough_eq]
  extract_lets ds begun
  rw [if_pos rfl]
  split_ifs
  · exact ⟨rfl, .refl _ s⟩
  · have hcount : begun.modelCount p = _ := modelCount_roughBegins s p ds true (start || !s.laneRested p)
    exact ⟨by rw [hcount], changes_roughBegins s p ds true _⟩

end

/-- The learned values of a cell that a roughing estimate names are kept, or all reset; its procedure gathers anew. -/
theorem rough_begun {s : State} {p : Nat} (keep start : Bool) (hne : s.modelled p ≠ []) :
    (∀ c ∈ s.modelled p, ∃ rough, (s.rough p (s.modelled p) keep start).cell (cellIx p c) =
      ((s.markNoLearn p).cell (cellIx p c)).roughed keep rough) ∧
    (s.rough p (s.modelled p) keep start).modelCount p =
      { s.modelCount p with roughs := ((s.modelCount p).roughs + (s.modelled p).length) % 2 ^ 64 } := by
  have hall : ((s.modelled p).filter fun c => (s.modelled p).contains c) = s.modelled p :=
    List.filter_eq_self.2 fun d hd => List.contains_iff_mem.2 hd
  rw [rough_eq, hall, if_neg hne]
  generalize hrough : (start || !s.laneRested p) = rough
  obtain ⟨begun, hbegun⟩ : ∃ begun, begun = s.roughBegins p (s.modelled p) keep rough := ⟨_, rfl⟩
  have hcells : ∀ c ∈ s.modelled p, begun.cell (cellIx p c) = ((s.markNoLearn p).cell (cellIx p c)).roughed keep rough :=
    fun c hc => hbegun ▸ cell_roughBegins rough (modelled_nodup s p) hc
  have hcount := modelCount_roughBegins s p (s.modelled p) keep rough
  rw [← hbegun] at hcount ⊢
  split
  · exact ⟨fun c hc => ⟨_, hcells c hc⟩, hcount⟩
  · refine ⟨fun c hc => ⟨rough, ?_⟩, (modelCount_requestCommit begun true p).trans hcount⟩
    rw [← hcells c hc, State.cell, cells_requestCommit]
    rfl

end Sys2Proof.Machine
end

