-- ==== Sys2Proof/Proofs/ModelCommands.lean ====
section
/-! PROOF. The MODEL commands (O20): each passes its checks with operands in range, and is answered on the state that its handler
leaves. -/

namespace Sys2Proof.Machine

open Sys2Proof
set_option Elab.async false

/-! ### Parameter sets (06 R179, R202) -/

theorem params_loaded {typ : Nat} (s : State) (q : ParamSet) (cells : Table Cell) (h : typ ≠ 0) :
    Only State.params typ [.model] s { s with model := { s.model with params := tset s.model.params typ (some q), cells := cells } } ∧
      ({ s with model := { s.model with params := tset s.model.params typ (some q), cells := cells } } : State).params typ = some q := by
  refine ⟨⟨fun j hj => ?_, changes_model s _⟩, ?_⟩
  · exact congrArg (fun x => if j = 0 then none else x) (tget_tset_ne _ _ _ hj)
  · exact (if_neg h).trans (tget_tset_same _ _ _ _)

theorem modelParamLoad_stored {s : State} {src : Source} {typ : Nat} {b : List Byte} (hr : Taken s src 0x0C01) (h1 : 1 ≤ typ)
    (h2 : typ ≤ 255) (hb : b.length = 1032) (hc : paramCheck b = true)
    (hq : paramRange typ { bytes := b, build := leAt b 8 8 } = true)
    (hl : (s.model.params.filter fun x => x.2.isSome && x.1 != typ).length < 64) :
    ∃ u, exec (.modelParamLoad src typ b) s = .next u ∧ ∃ z, Answered s u src 0x0C01 [] z ∧
      z.params typ = some { bytes := b, build := leAt b 8 8 } ∧ Only State.params typ [.model] s z := by
  rw [exec_modelParamLoad, execModelParamLoad]
  refine taken_imp hr (by decide) (checked_of_all _ (by simp [within, h1, h2, hb, hc, hq, hl])) rfl rfl fun u hans => ⟨_, hans, ?_⟩
  exact (params_loaded s _ _ (by omega)).symm

theorem modelParamRead_set {s : State} {src : Source} {typ : Nat} {q : ParamSet} (hr : Taken s src 0x0C02) (h1 : 1 ≤ typ)
    (h2 : typ ≤ 255) (hq : s.params typ = some q) : ∃ u, exec (.modelParamRead src typ) s = .next u ∧ Answered s u src 0x0C02
      [f2 (leAt q.bytes 0 2), f8 q.build, f4 (leAt q.bytes 1028 4), f2 (s.model.cells.filter fun x => x.2.typ == typ).length] s := by
  rw [exec_modelParamRead, execModelParamRead]
  refine taken_ok hr (by decide) ?_ rfl rfl
  rw [checked_of_all _ (by simp [within, h1, h2, hq]), hq]
  rfl

/-! ### MODEL.ASSIGN (06 R185, R202) -/

/-- The type and the sensor that a cell is assigned. -/
def Cell.assigned (c : Cell) : Nat × Nat := (c.typ, c.sensor)

theorem Cell.assigned_retype (c : Cell) (typ sensor : Nat) : (c.retype typ sensor).assigned = (typ, sensor) := by
  unfold Cell.retype Cell.assigned
  split_ifs with hsame hnone
  · rw [hsame]
  · rw [hnone]
  · rfl
theorem Cell.assigned_roughed (c : Cell) (keep rough : Bool) : (c.roughed keep rough).assigned = c.assigned := by
  cases keep <;> rfl

theorem assigned_rough (s : State) (p : Nat) (cells : List Nat) (keep start : Bool) :
    CellsKeep Cell.assigned s (s.rough p cells keep start) :=
  cellsKeep_rough (fun y => y.assigned_roughed keep) (fun _ _ _ => rfl) start
theorem assigned_joinCells (s : State) (p : Nat) : CellsKeep Cell.assigned s (s.joinCells p) := by
  have cells (l : List Nat) (f : Nat → Cell → Cell) (hf : ∀ c y, (f c y).assigned = y.assigned) :
      CellsKeep Cell.assigned s (l.foldl (fun z c => z.updCell (cellIx p c) (f c)) s) :=
    cellsKeep_foldl (fun z c => cellsKeep_updCell z _ (hf c)) l s
  have starts : CellsKeep Cell.assigned s (s.startCells p) := by
    have fresh (l : List Nat) : CellsKeep Cell.assigned s
        ((l.foldl (fun z c => z.updCell (cellIx p c) fun y => { y with started := true }) s).rough p l false true) :=
      (cells l (fun _ y => { y with started := true }) fun _ _ => rfl).trans (assigned_rough _ p l false true)
    fun_cases State.startCells s p
    · exact .refl s
    · refine cells _ _ fun _ _ => ?_
      rfl
    · exact fresh _
    · exact fresh _
  fun_cases State.joinCells s p
  · exact starts
  · exact (cells _ (fun _ => Cell.coasts) fun _ _ => rfl).trans (.of_cells rfl)
  · exact .refl s

/-- A type given to each cell of a port, and what follows from it, leave the cells with what they were given. -/
theorem modelAssign_assigned {s : State} {src : Source} {p : Nat} {ts ss : List Nat} (hr : Taken s src 0x0C03) (hp : p < 128)
    (hts : ts.length = 18) (hss : ss.length = 18) (ht : ts.all (fun x => decide (x ≤ 255)) = true)
    (hs : ss.all (fun x => decide (x ≤ 5) || x == 255) = true)
    (ha : ∀ n, s.laneOfPort p = some n → laneArmed (s.lane n).state = false) :
    ∃ u, exec (.modelAssign src p ts ss) s = .next u ∧ ∃ z, Answered s u src 0x0C03 [] z ∧
      (∀ c, c < 18 → (z.cell (cellIx p c)).assigned = (ts.getD c 0, ss.getD c 255)) ∧ Changes [.model, .store, .recorder] s z := by
  obtain ⟨s1, h1⟩ : ∃ s1, s1 = (List.range 18).foldl (fun z c => z.updCell (cellIx p c) fun y =>
    y.retype (ts.getD c 0) (ss.getD c 255)) s := ⟨_, rfl⟩
  obtain ⟨s2, h2⟩ : ∃ s2, s2 = s1.rough p (((List.range 18).filter fun c => (s.cell (cellIx p c)).typ != ts.getD c 0 &&
    (s.cell (cellIx p c)).typ != 0 && ts.getD c 0 != 0).filter fun c => (s1.cell (cellIx p c)).started) false := ⟨_, rfl⟩
  have handler : assignDo p ts ss s = ok (s2.joinCells p) := by
    rw [assignDo, checked_of_all, h2, h1]
    simp only [List.forall_mem_cons, List.not_mem_nil, false_implies, implies_true, and_true]
    refine ⟨by simp [hp, hts, hss, ht, hs], ?_⟩
    cases hn : s.laneOfPort p with
    | none => rfl
    | some n => simp [ha n hn]
  have joined : CellsFollow s2 (s2.joinCells p) := by
    fun_cases State.joinCells s2 p
    · exact cellsFollow_startCells s2 p
    · exact .of_changes (changes_coast s2 p) (by decide)
    · exact .refl s2
  have follows : CellsFollow s (s2.joinCells p) :=
    ((h1 ▸ cellsFollow_foldl (fun z c => cellsFollow_updCell z _ _) _ s : CellsFollow s s1).trans
      (h2 ▸ cellsFollow_rough s1 p _ _ _)).trans joined
  rw [exec_modelAssign, execModelAssign]
  refine taken_imp hr (by decide) handler (follows.changes .mbox (by decide)) (follows.changes .clock (by decide))
    fun u hans => ⟨_, hans, fun c hc => ?_, follows.changes⟩
  have retyped : s1.cell (cellIx p c) = (s.cell (cellIx p c)).retype (ts.getD c 0) (ss.getD c 255) :=
    h1 ▸ cell_updCells_of_mem (fun c y => y.retype (ts.getD c 0) (ss.getD c 255)) s List.nodup_range (List.mem_range.2 hc)
  rw [assigned_joinCells, h2, assigned_rough, retyped, Cell.assigned_retype]

/-! ### Reads (06 R180, R192, R202) -/

theorem modelCellRead_records {s : State} {src : Source} {p c n : Nat} (hr : Taken s src 0x0C04) (hp : p < 128) (hc : c < 18)
    (hn : 1 ≤ n) (hl : c + n ≤ 18) : ∃ u, exec (.modelCellRead src p c n) s = .next u ∧
      Answered s u src 0x0C04 ((List.range n).map fun k => .struct (s.cellRecord p (c + k)).bytes) s := by
  rw [exec_modelCellRead, execModelCellRead]
  exact taken_ok hr (by decide) (checked_of_all _ (by simp [within, hp, hc, hn, hl]; omega)) rfl rfl

theorem modelLearnedRead_block {s : State} {src : Source} {p : Nat} (hr : Taken s src 0x0C07) (hp : p < 128) :
    ∃ u, exec (.modelLearnedRead src p) s = .next u ∧
      Answered s u src 0x0C07 [.struct (blockBytes (s.serialOf p) (s.learnedOfPort p))] s := by
  rw [exec_modelLearnedRead, execModelLearnedRead]
  exact taken_ok hr (by decide) (checked_of_all _ (by simp [hp])) rfl rfl

/-- The fields of MODEL.STATUS: the ten signals of the lane, and the states of the models and of the store. -/
def State.modelStatusFields (z : State) (n : Nat) : List Field :=
  let v (k : Nat) : Option Int := ((z.modelSignals n).getD k (3, none)).2
  [ .u 2 ((v 0).getD 65535).toNat, .u 2 ((v 1).getD 65535).toNat, .u 2 ((v 2).getD 65535).toNat, fi8 (v 3), fi2 (v 4), fi2 (v 5)
  , fi4 (v 6), fi4 (v 7), f8 ((v 8).getD 0).toNat, f8 ((v 9).getD 0).toNat ]
  ++ [ fb (z.lane n).limitsStale, fb (!z.model.native), fb z.store.commit.isSome, fb z.store.deferred, f8 z.store.lastCommitEnd
     , fb (z.power.state == .slack) ]

theorem modelStatus_fields {s : State} {src : Source} {n : Nat} (hr : Taken s src 0x0C05) (hn : n < 8) :
    ∃ u, exec (.modelStatus src n) s = .next u ∧ Answered s u src 0x0C05 (s.seen.modelStatusFields n) s := by
  have passes : execModelStatus src n s = runCommand src 0x0C05 (fun z => okWith z (z.modelStatusFields n)) s :=
    congrArg (fun h => runCommand src 0x0C05 h s) (funext fun z => checked_of_all _ (by simp [hn]))
  rw [exec_modelStatus, passes]
  exact status_ok (fun z => z.modelStatusFields n) hr

theorem modelCountersRead_counters {s : State} {src : Source} {p : Nat} (c : Bool) (hr : Taken s src 0x0C0C) (hp : p < 128) :
    ∃ u, exec (.modelCountersRead src p c) s = .next u ∧ ModelCountersRead s u src p c := by
  rw [exec_modelCountersRead, execModelCountersRead]
  cases c with
  | false =>
    exact taken_imp hr (by decide) (checked_of_all _ (by simp [hp])) rfl rfl fun u hans =>
      ⟨s, hans, rfl, fun _ _ => rfl, Changes.refl _ s⟩
  | true =>
    exact taken_imp hr (by decide) (checked_of_all _ (by simp [hp])) rfl rfl fun u hans =>
      ⟨s.setModelCount p {}, hans, State.modelCount_setModelCount_same s p _,
        fun _ hj => State.modelCount_setModelCount_ne s _ hj, changes_setModelCount s p _⟩

/-! ### LEARN_SET, LEARNED_WRITE and COMMIT (06 R191, R193, R194) -/

theorem modelLearnSet_set {s : State} {src : Source} {h : Nat} (b : Bool) (hr : Taken s src 0x0C06) (h1 : 1 ≤ h) (h2 : h ≤ 24) :
    ∃ u, exec (.modelLearnSet src b h) s = .next u ∧ ∃ z, Answered s u src 0x0C06 [] z ∧
      z.model = { s.model with native := b, nextIntervalH := some h } ∧ (s.store.settingsVolatile = false →
      z.store.settings.head?.map (·.cmd) = some (.modelLearnSet src b h)) ∧ Changes [.model, .store] s z := by
  obtain ⟨s1, h1'⟩ : ∃ s1 : State, s1 = { s with model := { s.model with native := b, nextIntervalH := some h } } := ⟨_, rfl⟩
  obtain ⟨hpersist, hkept⟩ := persist_store s1 0x0C06 0 (.modelLearnSet src b h)
  have hall : Changes [.model, .store] s (s1.persist 0x0C06 0 (.modelLearnSet src b h)) :=
    (h1' ▸ (changes_model s _).mono (by decide)).trans (hpersist.mono (by decide))
  rw [exec_modelLearnSet, execModelLearnSet]
  refine taken_imp (z := s1.persist 0x0C06 0 (.modelLearnSet src b h)) hr (by decide) ?_ (hall .mbox (by decide))
    (hall .clock (by decide)) fun u hans => ⟨_, hans, ?_, fun hv => ?_, hall⟩
  · rw [checked_of_all _ (by simp [within, h1, h2]), persisted_ok, h1']
    rfl
  · rw [hpersist .model (by decide), h1']
  · obtain ⟨g, hg⟩ := hkept (h1' ▸ hv)
    rw [hg]
    rfl

theorem modelLearnedWrite_written {s : State} {src : Source} {p : Nat} {b : List Byte} {h : Hello} (hr : Taken s src 0x0C08)
    (hp : p < 128) (hb : b.length = 588) (hh : (s.port p).hello = some h) (hserial : h.serial = leAt b 0 8)
    (hcrc : leAt b 584 4 = crc32 (b.take 584)) :
    ∃ u, exec (.modelLearnedWrite src p b) s = .next u ∧ ∃ z, Answered s u src 0x0C08 [] z ∧
      (∀ c ∈ s.modelled p, (z.cell (cellIx p c)).newLearned = some (learnedOf (slice b (8 + 32 * c) 32))) ∧
      Changes [.model, .store] s z := by
  obtain ⟨s1, h1⟩ : ∃ s1, s1 = (s.modelled p).foldl (fun z c => z.updCell (cellIx p c) fun y =>
    { y with newLearned := some (learnedOf (slice b (8 + 32 * c) 32)) }) s := ⟨_, rfl⟩
  have hwritten : OnlyCells s s1 := h1 ▸ onlyCells_updCells p _ _ s
  have hall : Changes [.model, .store] s (s1.requestCommit true) :=
    (hwritten.changes.mono (by decide)).trans ((changes_requestCommit s1 true).mono (by decide))
  rw [exec_modelLearnedWrite, execModelLearnedWrite]
  refine taken_imp (z := s1.requestCommit true) hr (by decide) ?_ (hall .mbox (by decide)) (hall .clock (by decide))
    fun u hans => ⟨_, hans, fun c hc => ?_, hall⟩
  · rw [learnedWriteDo, checked_of_all _ (by simp [hp, hb, hh, hserial, hcrc]), h1]
    rfl
  · rw [State.cell, cells_requestCommit, h1]
    exact congrArg Cell.newLearned (cell_updCells_of_mem
      (fun c y => { y with newLearned := some (learnedOf (slice b (8 + 32 * c) 32)) }) s (modelled_nodup s p) hc)

theorem modelCommit_started {s : State} {src : Source} (hr : Taken s src 0x0C09) (hn : s.model.native = true)
    (hv : s.storeStage ≠ .volatile) (hc : s.store.commit = none) : ∃ u, exec (.modelCommit src) s = .next u ∧
      ∃ z, Answered s u src 0x0C09 [] z ∧
      (∃ c, z.store.commit = some c ∧ c.generation = s.store.genCommit + 1 ∧ c.startedAt = s.now) ∧
      Changes [.store, .model] s z := by
  have hall := changes_requestCommit s true
  rw [exec_modelCommit, execModelCommit]
  exact taken_imp hr (by decide) (checked_of_all _ (by simp [hn])) (hall .mbox (by decide)) (hall .clock (by decide))
    fun u hans => ⟨_, hans, requestCommit_starts hn hv (.inl rfl) hc, hall⟩

/-! ### ROUGH and POWER_SET (06 R185, R196) -/

theorem learned_roughed (y : Cell) (keep rough : Bool) : (y.roughed keep rough).learned = if keep then y.learned else {} := by
  cases keep <;> rfl

theorem modelRough_begun {s : State} {src : Source} {p : Nat} {keep : Bool} (hr : Taken s src 0x0C0A) (hp : p < 128)
    (hne : s.modelled p ≠ []) : ∃ u, exec (.modelRoughCommand src (.port p) keep) s = .next u ∧ RoughBegun s u src p keep := by
  have hfollow := (cellsFollow_rough s p (s.modelled p) keep false).changes
  obtain ⟨hcells, hcount⟩ := rough_begun keep false hne
  rw [exec_modelRoughCommand, execModelRoughCommand]
  refine taken_imp hr (by decide) (checked_of_all _ (by simp [State.roughTargetOk, State.roughTarget, hp, hne]))
    (hfollow .mbox (by decide)) (hfollow .clock (by decide)) fun u hans =>
      ⟨_, hans, fun c hc => ?_, by simp [State.roughTarget, hcount], hfollow⟩
  obtain ⟨rough, hcell⟩ := hcells c hc
  have hkept : ((s.markNoLearn p).cell (cellIx p c)).learned = (s.cell (cellIx p c)).learned :=
    cellsKeep_markNoLearn (g := Cell.learned) (fun _ _ _ => rfl) s p _
  have hcell' : (s.rough (s.roughTarget (.port p)).1 (s.roughTarget (.port p)).2 keep).cell (cellIx p c) = _ := hcell
  rw [hcell', learned_roughed, hkept]
  exact ⟨rfl, rfl, rfl⟩

theorem slackExit_power (s : State) : Changes [.power, .table, .recorder] s s.slackExit ∧
    s.slackExit.power = if s.power.state = .slack then { s.power with state := .full } else s.power := by
  fun_cases State.slackExit s
  case case1 h =>
    have hplace := changes_placeEntries (({ s with power := { s.power with state := .full } } : State).event evSlackExit 0 0)
    refine ⟨Changes.trans ?_ (hplace.mono (by decide)), ?_⟩
    · exact ((changes_power s _).mono (by decide)).trans ((changes_event _ _ _ _ _ _ _ _ _ _ _ _).mono (by decide))
    · rw [hplace .power (by decide), power_event, if_pos (by simpa using h)]
  case case2 h => exact ⟨.refl _ s, (if_neg (by simpa using h)).symm⟩

theorem modelPowerSet_set {s : State} {src : Source} {on : Bool} (hr : Taken s src 0x0C0B) :
    ∃ u, exec (.modelPowerSet src on) s = .next u ∧ ∃ z, Answered s u src 0x0C0B [] z ∧
      z.model = { s.model with slackEnabled := on } ∧
      z.power = (if on = false ∧ s.power.state = .slack then { s.power with state := .full } else s.power) ∧
      Changes [.model, .power, .table, .recorder] s z := by
  obtain ⟨s1, h1⟩ : ∃ s1 : State, s1 = { s with model := { s.model with slackEnabled := on } } := ⟨_, rfl⟩
  have hset : Changes [.model] s s1 := h1 ▸ changes_model s _
  have hmodel : s1.model = { s.model with slackEnabled := on } := by rw [h1]
  obtain ⟨hexit, hpower⟩ := slackExit_power s1
  rw [exec_modelPowerSet, execModelPowerSet]
  cases on with
  | true =>
    exact taken_imp (z := s1) hr (by decide) (by rw [h1]; rfl) (hset .mbox (by decide)) (hset .clock (by decide)) fun u hans =>
      ⟨s1, hans, hmodel, hset .power (by decide), hset.mono (by decide)⟩
  | false =>
    refine taken_imp (z := s1.slackExit) hr (by decide) (by rw [h1]; rfl) ((hexit .mbox (by decide)).trans (hset .mbox (by decide)))
      ((hexit .clock (by decide)).trans (hset .clock (by decide))) fun u hans =>
      ⟨_, hans, (hexit .model (by decide)).trans hmodel, ?_, (hset.mono (by decide)).trans (hexit.mono (by decide))⟩
    rw [hpower, hset .power (by decide)]
    simp

/-- Settles O20: one lemma for each command. -/
theorem modelCommandsComplete : Obligations.ModelCommandsComplete := by
  intro s z src typ p n q ts ss keep on
  refine ⟨fun b hr h1 h2 hb hc hq hl => modelParamLoad_stored hr h1 h2 hb hc hq hl, modelParamRead_set, ?assign,
    fun c hr hp hc hn hl => modelCellRead_records hr hp hc hn hl, ?status, ?learnSet, modelLearnedRead_block,
    fun b h hr hp hb hh hserial hcrc => modelLearnedWrite_written hr hp hb hh hserial hcrc, modelCommit_started, modelRough_begun,
    modelPowerSet_set, modelCountersRead_counters⟩
  case assign =>
    intro hr hp hts hss ht hs ha
    obtain ⟨u, hu, w, hans, hcells, hw⟩ := modelAssign_assigned hr hp hts hss ht hs ha
    exact ⟨u, hu, w, hans, fun c hc => Prod.mk.inj (hcells c hc), hw⟩
  case status =>
    rintro hr hn rfl
    obtain ⟨u, hu, hans⟩ := modelStatus_fields hr hn
    exact ⟨u, hu, _, hans, rfl, rfl⟩
  case learnSet =>
    intro b h hr h1 h2
    simpa using modelLearnSet_set b hr h1 h2

end Sys2Proof.Machine
end

