-- ==== Sys2Proof/Proofs/ModelEvents.lean ====
section
/-! PROOF. Model steps, divergence, estimates, rest, commits and slack water (O21): each event has arisen, and does to its cells and
lanes what its handler says. -/

namespace Sys2Proof.Machine

open Sys2Proof
set_option Elab.async false

/-! ### What the step of a port's models moves (06 R173, R182, R183; 12 R357) -/

theorem changes_setOwn (s : State) (r : Nat) (f : OwnRole → OwnRole) : Changes [.net] s (s.setOwn r f) := changes_net s _
theorem changes_sendFrags (s : State) (o : OwnRole) (fs : List MirrorFrag) : Changes [.net, .out] s (s.sendFrags o fs) :=
  changes_foldl (fun z _ => changes_sendReliable z _ _ _ _ _ _ _ _ _) fs s
theorem changes_sendGeneration (s : State) (r tag : Nat) (full : Bool) (items : List MirrorItem) :
    Changes [.net, .out] s (s.sendGeneration r tag full items) := by
  have own (z : State) (f : OwnRole → OwnRole) : Changes [.net, .out] z (z.setOwn r f) := (changes_setOwn z r f).mono (by decide)
  unfold State.sendGeneration
  split
  · exact .refl _ s
  · extract_lets parts gen fs s1 held bytes late s2 dropped s3 base free net3 s4
    have h1 : Changes [.net, .out] s s1 := own s _
    have h2 : Changes [.net, .out] s s2 := by
      simp only [s2]
      split
      · exact h1.trans (changes_sendFrags s1 _ held)
      · exact h1
    have h4 : Changes [.net, .out] s s4 := h2.trans ((own s2 _).trans ((changes_net s3 _).mono (qs := [.net, .out]) (by decide)))
    split_ifs
    · exact h1.trans (changes_sendFrags s1 _ fs)
    · exact h2.trans (own s2 _)
    · exact h4.trans (changes_sendFrags s4 _ fs)
    · exact h4.trans (own s4 _)
theorem changes_laneGeneration (s : State) (n tag : Nat) (updated : List Nat) :
    Changes [.net, .out] s (s.laneGeneration n tag updated) := by
  fun_cases State.laneGeneration s n tag updated
  · exact .refl _ s
  · exact .refl _ s
  · exact ((changes_setOwn s _ _).mono (by decide)).trans (changes_sendGeneration _ _ _ _ _)
theorem changes_publishModel (s : State) (n : Nat) : Changes [.ana, .therm, .ten] s (s.publishModel n) :=
  changes_foldl (fun z _ => changes_moduleSignal z _ _ _) _ s
theorem changes_publishLimits (s : State) (n p : Nat) : Changes [.lanes] s (s.publishLimits n p) := by
  fun_cases State.publishLimits s n p
  · exact (changes_setLane s n _).trans (changes_setLane _ n _)
  · exact .refl _ s
theorem changes_saveCapture (s : State) (n p tag : Nat) : Changes [.sound] s (s.saveCapture n p tag) :=
  changes_foldl (fun z _ => changes_setLaneSound z n _) _ s

/-! ### MODEL_STEP (06 R173) -/

/-- The models read as they did, but for the interval of their commits. -/
def ModelKept (m : Model) (t : State) : Prop := ∃ i n, t.model = { m with intervalH := i, nextIntervalH := n }

/-- What ends the step of a lane's engines moves no port and no model. -/
theorem beachCommit_kept (s : State) : s.beachCommit.tap = s.tap ∧ ModelKept s.model s.beachCommit := by
  fun_cases State.beachCommit s
  · exact ⟨changes_requestCommit _ true .tap (by decide), model_requestCommit _ true⟩
  · exact ⟨rfl, _, _, rfl⟩

/-- A modelled cell without a set for its type says so in its record. -/
theorem noParam_cellRecord {s t : State} {p c : Nat} (hl : (t.port p).limits = (s.port p).limits) (hcells : t.model.cells = s.model.cells)
    (hparams : t.model.params = s.model.params) (hc : c ∈ s.modelled p) (hq : s.params (s.cell (cellIx p c)).typ = none) :
    (t.cellRecord p c).noParam = true := by
  have hcell (i : Nat) : t.cell i = s.cell i := by
    rw [State.cell, hcells]
    rfl
  have hmodelled : t.modelled p = s.modelled p := by simp only [State.modelled, hl, hcell]
  have hset : t.params (s.cell (cellIx p c)).typ = none := by
    rw [← hq, State.params, hparams]
    rfl
  simp [State.cellRecord, hmodelled, hc, hcell, hset]

/-- Where a port models one cell and no set is loaded for its type, its step publishes the limits and no more. -/
theorem stepPort_noParam {s : State} {n p c : Nat} (hm : s.modelled p = [c]) (hq : s.params (s.cell (cellIx p c)).typ = none) :
    s.stepPort n p = s.publishLimits n p := by
  have hstep (slot : Bool) (tag : Nat) : s.stepCell n p c tag slot = s := by
    unfold State.stepCell
    simp only [hq]
  unfold State.stepPort
  simp only [hm, List.foldl_cons, List.foldl_nil, hstep, ite_self]

/-- An engine that has fallen behind its port's frames counts an overrun (01 R37). -/
def State.countOverrun (z : State) (p tag : Nat) : State :=
  if (z.port p).goneAt tag then
    z.updPort p fun x => { x with counters := { x.counters with overruns := inc64 x.counters.overruns } } else z
/-- The instant of a port's latest step is noted. -/
def State.noteStep (z : State) (p tag : Nat) : State :=
  { z with model := { z.model with stepped := tset z.model.stepped p (some tag) } }
/-- A port's engine has stepped at an instant. -/
def State.portStepped (z : State) (n p tag : Nat) : State :=
  (((z.countOverrun p tag).stepPort n p).noteStep p tag).saveCapture n p tag
/-- With the last engine of a lane its signals and its generation go out. -/
def State.laneStepped (z : State) (n tag : Nat) : State :=
  if (z.portsOf n).any fun p => z.stepDue p then z
  else ((z.publishModel n).laneGeneration n tag ((z.portsOf n).flatMap fun p =>
    ((z.modelled p).map (cellIx p)).filter fun k => (z.cell k).updAt == some tag)).beachCommit

theorem countOverrun_kept (z : State) (p tag : Nat) : (z.countOverrun p tag).model = z.model ∧
    ((z.countOverrun p tag).port p).limits = (z.port p).limits := by
  unfold State.countOverrun
  split
  · exact ⟨rfl, by rw [State.updPort_eq, State.port_setPort_same]⟩
  · exact ⟨rfl, rfl⟩

/-- The step of a port whose one cell has no set notes the instant, and leaves the models and the port's limits. -/
theorem portStepped_noParam {z : State} {n p c : Nat} (tag : Nat) (hm : z.modelled p = [c])
    (hq : z.params (z.cell (cellIx p c)).typ = none) :
    (z.portStepped n p tag).model = { z.model with stepped := tset z.model.stepped p (some tag) } ∧
      ((z.portStepped n p tag).port p).limits = (z.port p).limits := by
  obtain ⟨hmodel0, hlimits0⟩ := countOverrun_kept z p tag
  unfold State.portStepped
  generalize z.countOverrun p tag = z0 at hmodel0 hlimits0 ⊢
  have hstep : z0.stepPort n p = z0.publishLimits n p := by
    refine stepPort_noParam (c := c) ?_ ?_
    · simpa only [State.modelled, hlimits0, cell_of_model hmodel0] using hm
    · rw [State.params, cell_of_model hmodel0, hmodel0]
      exact hq
  have hlimits := changes_publishLimits z0 n p
  have hcapture := changes_saveCapture ((z0.publishLimits n p).noteStep p tag) n p tag
  rw [hstep, hcapture .model (by decide), hcapture.port (by decide)]
  refine ⟨?_, (congrArg Port.limits (hlimits.port (by decide) p)).trans hlimits0⟩
  rw [State.noteStep, hlimits .model (by decide), hmodel0]

/-- What follows the last step of a lane moves no port and no model, but for the interval of a commit. -/
theorem laneStepped_kept (z : State) (n tag : Nat) : (z.laneStepped n tag).tap = z.tap ∧ ModelKept z.model (z.laneStepped n tag) := by
  fun_cases State.laneStepped z n tag
  · exact ⟨rfl, _, _, rfl⟩
  · next hl =>
    have hsent (cells : List Nat) : Changes [.ana, .therm, .ten, .net, .out] z ((z.publishModel n).laneGeneration n tag cells) :=
      ((changes_publishModel z n).mono (by decide)).trans ((changes_laneGeneration _ n _ cells).mono (by decide))
    rw [← hsent _ .tap (by decide), ← hsent _ .model (by decide)]
    exact beachCommit_kept _

/-- A port whose step at the latest base instant is due makes it. -/
theorem modelStep_arises {s : State} {p n : Nat} (t : Nat) {Q : State → Prop} (hp : p < 128) (hfull : s.power.state = .full)
    (hn : s.laneOfPort p = some n) (hof : (s.portsOf n).contains p = true) (hm : s.modelled p ≠ [])
    (hdue : tget none s.model.stepped p ≠ some s.model.lastTag)
    (k : ∀ u, Settled (((s.atTime t).portStepped n p s.model.lastTag).laneStepped n s.model.lastTag) u → Q u) :
    ∃ u, exec (.modelStep t p) s = .next u ∧ Q u := by
  have hmodelled : (s.atTime t).modelled p = s.modelled p := by simp only [State.modelled, port_atTime, cell_atTime]
  have hports : (s.atTime t).portsOf n = s.portsOf n := by
    rw [State.portsOf, lane_atTime]
    rfl
  have hany : (((s.atTime t).portsOf n).any fun p => !((s.atTime t).modelled p).isEmpty) = true :=
    List.any_eq_true.2 ⟨p, hports ▸ List.contains_iff_mem.1 hof, by simp [hmodelled, hm]⟩
  have hruns (tag : Nat) : (s.atTime t).modelsStep n tag = true := by simp [State.modelsStep, hany, hfull]
  rw [exec_modelStep, execModelStep]
  refine whenOn_imp (decide_eq_true hp) ?_ fun u hu => k u ?_
  · simp [State.tablesRun, State.stepDue, hfull, hmodelled, hm, laneOfPort_atTime, hn, hdue, hruns]
  · simp only [laneOfPort_atTime, hn] at hu
    rw [← model_atTime s t]
    exact hu

theorem modelStep_noParam {s : State} {p n c : Nat} (t : Nat) (hp : p < 128) (hfull : s.power.state = .full)
    (hn : s.laneOfPort p = some n) (hof : (s.portsOf n).contains p = true) (hm : s.modelled p = [c])
    (hq : s.params (s.cell (cellIx p c)).typ = none) (hdue : tget none s.model.stepped p ≠ some s.model.lastTag) :
    ∃ u, exec (.modelStep t p) s = .next u ∧ tget none u.model.stepped p = some s.model.lastTag ∧
      (u.cellRecord p c).noParam = true ∧ (u.cell (cellIx p c)).x = (s.cell (cellIx p c)).x := by
  refine modelStep_arises t hp hfull hn hof (by simp [hm]) hdue fun u hu => ?_
  have hzm : (s.atTime t).modelled p = [c] := by simpa only [State.modelled, port_atTime, cell_atTime] using hm
  have hzq : (s.atTime t).params ((s.atTime t).cell (cellIx p c)).typ = none := by
    rw [State.params, cell_atTime, model_atTime]
    exact hq
  obtain ⟨hmodel, hlimits⟩ := portStepped_noParam (n := n) s.model.lastTag hzm hzq
  obtain ⟨htap, i, k, hkept⟩ := laneStepped_kept ((s.atTime t).portStepped n p s.model.lastTag) n s.model.lastTag
  rw [← hu.model, hmodel, model_atTime] at hkept
  refine ⟨?_, noParam_cellRecord (s := s) ?_ (by rw [hkept]) (by rw [hkept]) (by simp [hm]) hq, ?_⟩
  · rw [hkept]
    exact tget_tset_same _ _ _ _
  · rw [hu.port, port_of_tap htap, hlimits, port_atTime]
  · rw [State.cell, hkept]
    rfl

/-! ### MODEL_DIVERGED (06 R176) -/

/-- What a roughing estimate that keeps the learned values leaves of a cell's filter. -/
def Cell.verdict (c : Cell) : Nat × Bool × Learned := (c.rejectRun, c.outRec.diverged, c.learned)

theorem modelDiverged_diverged {s : State} {p c : Nat} (t : Nat) (hp : p < 128) (hc : c < 18)
    (hr : 10 ≤ (s.cell (cellIx p c)).rejectRun) : ∃ u, exec (.modelDiverged t p c) s = .next u ∧
      (u.cell (cellIx p c)).verdict = (0, true, (s.cell (cellIx p c)).learned) ∧
      (u.modelCount p).diverged = inc64 (s.modelCount p).diverged ∧ Moves [.model, .recorder] s u := by
  rw [← cell_atTime s t] at hr ⊢
  rw [exec_modelDiverged, execModelDiverged]
  refine whenOn_imp (by simp [hp, hc]) (by simp [hr]) fun u hu => ?_
  extract_lets n z1 z2 at hu
  obtain ⟨z3, h3⟩ : ∃ z3, z3 = z2.event evModelDiverged 3 (n * 2 ^ 24 + p * 2 ^ 16 + c) := ⟨_, rfl⟩
  have h3m : z3.model = z2.model := h3 ▸ model_event ..
  have hmarked : (z3.cell (cellIx p c)).verdict = (0, true, ((s.atTime t).cell (cellIx p c)).learned) := by
    rw [cell_of_model h3m]
    exact congrArg Cell.verdict (State.cell_setCell_same (s.atTime t) (cellIx p c) _)
  have hcount : (z3.modelCount p).diverged = inc64 (s.modelCount p).diverged := by
    rw [State.modelCount, h3m]
    have hkept : z1.modelCount p = s.modelCount p :=
      (State.modelCount_setCell (s.atTime t) (cellIx p c) p _).trans (by rw [State.modelCount, model_atTime]; rfl)
    refine (congrArg ModelCounters.diverged (State.modelCount_setModelCount_same z1 p _)).trans ?_
    show inc64 (z1.modelCount p).diverged = _
    rw [hkept]
  have hkept : CellsKeep Cell.verdict z3 (z3.rough p [c] true) := cellsKeep_rough (fun _ _ => rfl) (fun _ _ _ => rfl) false
  have hmoves : Changes [.model, .recorder] (s.atTime t) z3 :=
    ((changes_setCell _ _ _).trans (changes_setModelCount z1 p _)).mono (qs := [.model, .recorder]) (by decide) |>.trans
      (h3 ▸ (changes_event _ _ _ _ _ _ _ _ _ _ _ _).mono (by decide))
  obtain ⟨hcounted, hrough⟩ := rough_kept z3 p [c] false
  rw [← h3] at hu
  refine ⟨?_, ?_, hu.moves_from ((hmoves.trans hrough).moves (by decide))⟩
  · rw [hu.cell, hkept, hmarked]
  · rw [State.modelCount, hu.model, ← State.modelCount, hcounted, hcount]

/-! ### MODEL_LIMITS_STALE and LANE_REST (06 R183, R187) -/

theorem modelLimitsStale_stale {s : State} {p n : Nat} (t : Nat) (hp : p < 128) (hfull : s.power.state = .full)
    (hn : s.laneOfPort p = some n) (hnone : tget none (s.lane n).limChgPort p = none) : ∃ u, exec (.modelLimitsStale t p) s = .next u ∧
      u.lane n = { s.lane n with limitsStale := true } ∧ Only State.lane n [.clock, .lanes, .mbox] s u := by
  rw [← lane_atTime s t] at hnone ⊢
  rw [exec_modelLimitsStale, execModelLimitsStale]
  refine whenOn_lane (decide_eq_true hp) ?_ ?_ fun _ => And.intro
  · simp [laneOfPort_atTime, hn, State.tablesRun, hfull, hnone]
  · simp only [laneOfPort_atTime, hn]
    rfl

theorem laneRest_rested {s : State} {t n a : Nat} (hn : n < 8) (hr : (s.lane n).rested = false) (hs : (s.lane n).restSince = some a)
    (ht : a + 1800 * 10 ^ 9 ≤ s.nowAt t) : ∃ u, exec (.laneRest t n) s = .next u ∧ u.lane n = { s.lane n with rested := true } ∧
      Only State.lane n [.clock, .lanes, .model, .mbox] s u := by
  rw [← lane_atTime s t] at hr hs ⊢
  rw [exec_laneRest, execLaneRest]
  refine whenOn_imp (decide_eq_true hn) (by simpa [hr, hs, elapsedO, elapsed] using ht) fun u hu => ?_
  extract_lets z1 at hu
  have hcells (z : State) (l : List Nat) : Changes [.model] z (l.foldl (fun y p => (y.modelled p).foldl (fun x c =>
      x.updCell (cellIx p c) fun k => if k.outRec.rough then k.startEstimate false false else k) y) z) :=
    changes_foldl (fun y p => changes_foldl (fun x c => changes_setCell x _ _) _ y) l z
  refine ⟨?_, hu.onlyLane (ps := [.lanes, .model]) (Only.trans ((onlyLane_setLane (s.atTime t) n _).mono (by decide))
    (((hcells z1 _).onlyLane (by decide) n).mono (by decide))) (by decide)⟩
  rw [hu.lane, (hcells z1 _).lane (by decide)]
  exact State.lane_setLane_same _ n _

/-! ### OPEN_CIRCUIT_ESTIMATE (06 R186) -/

theorem length_openState (q : ParamSet) (l : Learned) (soc tamb : Rat) : (openState q l soc tamb).length = 14 := rfl
theorem length_openCov (q : ParamSet) (widen : Bool) : (openCov q widen).length = 14 := by simp [openCov]

/-- The procedure gives the cell its states and ends. -/
theorem openEstimate_cell (s : State) (p c : Nat) (q : ParamSet) : ∃ x soc tamb widen,
    (s.openEstimate p c q).cell (cellIx p c) = x ∧
      x.x = openState q (s.cell (cellIx p c)).learned soc tamb ∧ x.cov = openCov q widen ∧
      x.estActive = false ∧ x.estVolts = [] ∧ x.tagAt = s.model.lastTag ∧
      Only State.cell (cellIx p c) [.model, .fresh] s (s.openEstimate p c q) := by
  have hfresh (z : State) (k : Nat) : Changes [.fresh] z { z with fresh := k } := by
    intro q hq
    cases q <;> simp_all [Part.same]
  refine ⟨_, _, _, _, State.cell_setCell_same s _ _, rfl, rfl, rfl, rfl, rfl, ?_⟩
  exact Only.trans ((onlyCell_setCell s _ _).mono (by decide)) (((hfresh _ _).onlyCell (by decide) _).mono (by decide))

theorem openCircuitEstimate_states {s : State} {p c : Nat} {q : ParamSet} (t : Nat) (hp : p < 128) (hc : c < 18)
    (hfull : s.power.state = .full) (ha : (s.cell (cellIx p c)).estActive = true) (hv : (s.cell (cellIx p c)).estVolts.length = 16)
    (hq : s.params (s.cell (cellIx p c)).typ = some q) : ∃ u, exec (.openCircuitEstimate t p c) s = .next u ∧
      (u.cell (cellIx p c)).estActive = false ∧ (u.cell (cellIx p c)).estVolts = [] ∧ (u.cell (cellIx p c)).x.length = 14 ∧
      (u.cell (cellIx p c)).cov.length = 14 ∧ (u.cell (cellIx p c)).tagAt = s.model.lastTag ∧
      Only State.cell (cellIx p c) [.clock, .model, .fresh, .mbox] s u := by
  have hset : (s.atTime t).params ((s.atTime t).cell (cellIx p c)).typ = some q := by
    rw [State.params, cell_atTime, model_atTime]
    exact hq
  rw [← cell_atTime s t] at ha hv
  rw [exec_openCircuitEstimate, execOpenCircuitEstimate]
  refine whenOn_imp (by simp [hp, hc]) (by simp [State.tablesRun, hfull, ha, hv, hset]) fun u hu => ?_
  simp only [hset] at hu
  obtain ⟨x, soc, tamb, widen, hx, hstates, hcov, hactive, hvolts, htag, honly⟩ := openEstimate_cell (s.atTime t) p c q
  rw [hu.cell, hx, hstates, hcov, length_openState, length_openCov, htag, model_atTime]
  refine ⟨hactive, hvolts, rfl, rfl, rfl, fun j hj => ?_, ?_⟩
  · rw [hu.cell, honly.1 j hj, cell_atTime]
  · exact ((atTime_changes s t).mono (by decide)).trans ((honly.2.mono (by decide)).trans (hu.changes.mono (by decide)))

/-! ### COMMIT_INTERVAL, SLACK_ENTER and SLACK_EXIT (06 R193, R196) -/

theorem storeStage_of_store {s t : State} (h : t.store = s.store) : t.storeStage = s.storeStage := by
  unfold State.storeStage State.device
  rw [h]

theorem commitInterval_started {s : State} {t : Nat} (hn : s.model.native = true) (hfull : s.power.state = .full)
    (hc : s.store.commit = none) (hs : s.storeStage = .normal)
    (ht : s.store.lastCommitEnd + s.model.intervalH * 3600 * 10 ^ 9 ≤ s.nowAt t) : ∃ u, exec (.commitInterval t) s = .next u ∧
      (∃ c, u.store.commit = some c ∧ c.generation = s.store.genCommit + 1) ∧ Moves [.store, .model] s u := by
  rw [← storeStage_of_store (store_atTime s t)] at hs
  rw [exec_commitInterval, execCommitInterval]
  refine when_imp ?_ fun u hu => ?_
  · simpa [hn, State.tablesRun, hfull, hc, hs, elapsed] using ht
  · obtain ⟨c, hcommit, hgen, -⟩ := requestCommit_starts (s := s.atTime t) (key := false) (by rw [model_atTime, hn]) (by simp [hs])
      (.inr (by simp [hs])) (by rw [store_atTime, hc])
    rw [store_atTime] at hgen
    exact ⟨⟨c, (congrArg Store.commit (hu.changes .store (by decide))).trans hcommit, hgen⟩,
      hu.moves_from ((changes_requestCommit _ false).moves (by decide))⟩

theorem slackEnter_slack {s : State} {t : Nat} (hfull : s.power.state = .full) (he : s.model.slackEnabled = true)
    (hq : (s.atTime t).quiet = true) (hd : s.sec.debug ≠ .invasive) (hl : s.sec.lifecycle ≠ .parted) (hb : s.power.beach = none)
    (hlow : ∀ n < 8, (s.lane n).cfg = none ∨ elapsedO (s.lane n).lowSince (60 * 10 ^ 9) (s.nowAt t) = true)
    (hcyc : cycleOf ((s.atTime t).pos + 32) % (if s.baseB = 17 then 6 else 5) = 0) : ∃ u, exec (.slackEnter t) s = .next u ∧
      u.power = { s.power with state := .slack } ∧ Moves [.power, .table, .recorder] s u := by
  have hbase : (s.atTime t).baseB = s.baseB := by rw [State.baseB, tide_atTime]; rfl
  rw [exec_slackEnter, execSlackEnter]
  refine when_imp ?_ fun u hu => ?_
  · simpa [hfull, he, hq, hd, hl, hb, lane_atTime, hbase, hcyc] using hlow
  · obtain ⟨z1, h1⟩ : ∃ z1 : State, z1 = { s.atTime t with power := { (s.atTime t).power with state := .slack } } := ⟨_, rfl⟩
    rw [← h1] at hu
    have hset : Changes [.power] (s.atTime t) z1 := h1 ▸ changes_power _ _
    have hplace : Changes [.table, .recorder] z1 (z1.event evSlackEnter 0 0).placeEntries :=
      ((changes_event _ _ _ _ _ _ _ _ _ _ _ _).mono (by decide)).trans ((changes_placeEntries _).mono (by decide))
    refine ⟨?_, hu.moves_from ((hset.moves (by decide)).trans (hplace.moves (by decide)))⟩
    rw [hu.changes .power (by decide), hplace .power (by decide), h1, power_atTime]

theorem slackExit_full {s : State} {n : Nat} (t : Nat) (hn : n < 8) (hslack : s.power.state = .slack) (hc : (s.lane n).cfg.isSome = true)
    (hh : 3 ≤ (s.lane n).highRun) : ∃ u, exec (.slackExit t) s = .next u ∧ u.power = { s.power with state := .full } ∧
      Moves [.power, .table, .recorder] s u := by
  obtain ⟨hmoves, hpower⟩ := slackExit_power (s.atTime t)
  rw [power_atTime, if_pos hslack] at hpower
  rw [exec_slackExit, execSlackExit]
  refine when_imp ?_ fun u hu => ⟨?_, hu.moves_from (hmoves.moves (by decide))⟩
  · rw [Bool.and_eq_true, List.any_eq_true]
    exact ⟨by simp [hslack], n, List.mem_range.2 hn, by simp [lane_atTime, hc, hh]⟩
  · rw [hu.changes .power (by decide), hpower]

/-- Settles O21: one lemma for each event. -/
theorem modelEventsComplete : Obligations.ModelEventsComplete := by
  intro s t p n c a q
  refine ⟨modelStep_noParam t, ?diverged, modelLimitsStale_stale t, openCircuitEstimate_states t, ?rest, commitInterval_started,
    slackEnter_slack, slackExit_full t⟩
  case diverged =>
    intro hp hc hr
    obtain ⟨u, hu, hverdict, hcount, hmoves⟩ := modelDiverged_diverged t hp hc hr
    obtain ⟨hrun, hdiverged, hlearned⟩ : _ ∧ _ ∧ _ := by simpa [Cell.verdict] using hverdict
    exact ⟨u, hu, hrun, hdiverged, hlearned, hcount, hmoves⟩
  case rest =>
    intro hn hr hs ht
    exact laneRest_rested hn (by simpa using hr) hs ht

end Sys2Proof.Machine
end

