-- ==== Sys2Proof/Proofs/StoreParts.lean ====
section
/-! PROOF. What the store's operations keep: the interface's serving of its queue, the two devices, the wear that follows from their
stages, and the alarms that an event leaves. -/

namespace Sys2Proof.Machine

open Sys2Proof
set_option Elab.async false

/-! ### Reading the store -/

theorem Settled.store {z u : State} (h : Settled z u) : u.store = z.store := h.changes .store (by decide)
theorem Settled.recorder {z u : State} (h : Settled z u) : u.recorder = z.recorder := h.changes .recorder (by decide)
theorem device_of_devs {s t : State} (h : t.store.devs = s.store.devs) (k : Nat) : t.device k = s.device k := by
  unfold State.device
  rw [h]
theorem device_of_store {s t : State} (h : t.store = s.store) (k : Nat) : t.device k = s.device k :=
  device_of_devs (congrArg Store.devs h) k
theorem device_atTime (s : State) (t k : Nat) : (s.atTime t).device k = s.device k := device_of_store (store_atTime s t) k
theorem Settled.device {z u : State} (h : Settled z u) (k : Nat) : u.device k = z.device k := device_of_store h.store k
theorem storeStage_of_devices {s t : State} (h : ∀ k, t.device k = s.device k) : t.storeStage = s.storeStage := by
  unfold State.storeStage
  rw [h, h]
theorem settingsGone_of_devices {s t : State} (h : ∀ k, t.device k = s.device k) : t.settingsGone = s.settingsGone := by
  unfold State.settingsGone
  simp only [h]
theorem ringCap_atTime (s : State) (t : Nat) : (s.atTime t).ringCap = s.ringCap := by
  unfold State.ringCap
  rw [device_atTime, device_atTime]

/-! ### The interface (16 R447, R448) -/

/-- The store but for its operations, what their hold-up checks find and the alarm of those that are late. -/
def Store.lasting (st : Store) : Store := { st with ops := [], running := none, suspended := none, eAvail := none, deferred := false }

theorem lasting_holdupCheck (s : State) (p : Op → Bool) : (s.holdupCheck p).store.lasting = s.store.lasting := by
  obtain ⟨ops, e, h, -⟩ := holdupCheck_served s p
  rw [h]
  rfl
theorem lasting_storeServe (s : State) : s.storeServe.store.lasting = s.store.lasting := by
  obtain ⟨ops, r, w, e, h⟩ := storeServe_served s
  rw [h]
  rfl
theorem lasting_queueOp (s : State) (prio : Nat) (kind : StoreOp) : (s.queueOp prio kind).store.lasting = s.store.lasting := by
  obtain ⟨ops, r, w, e, h⟩ := queueOp_served s prio kind
  rw [h]
  rfl
theorem lasting_deferralEnds (s : State) : s.deferralEnds.store.lasting = s.store.lasting := by
  fun_cases State.deferralEnds s
  · rw [store_clearAlarm]
    rfl
  · rfl

theorem changes_storeServe (s : State) : Changes [.store] s s.storeServe := by
  obtain ⟨ops, r, w, e, h⟩ := storeServe_served s
  rw [h]
  exact changes_store s _
theorem changes_holdupCheck (s : State) (p : Op → Bool) : Changes [.store] s (s.holdupCheck p) := by
  obtain ⟨ops, e, h, -⟩ := holdupCheck_served s p
  rw [h]
  exact changes_store s _
theorem changes_queueOp (s : State) (prio : Nat) (kind : StoreOp) : Changes [.store] s (s.queueOp prio kind) :=
  (queueOp_store s prio kind).1
theorem changes_deferralEnds (s : State) : Changes [.store, .recorder] s s.deferralEnds := by
  fun_cases State.deferralEnds s
  · exact ((changes_store s _).mono (by decide)).trans ((changes_clearAlarm _ _ _ _ _).mono (by decide))
  · exact .refl _ s
theorem deferralEnds_of_notDeferred {s : State} (h : s.store.deferred = false) : s.deferralEnds = s := by
  simp [State.deferralEnds, h]

theorem storeServe_of_idle {s : State} (hr : s.store.running = none) (ho : s.store.ops = []) (hs : s.store.suspended = none) :
    s.storeServe = s := by
  have same : ({ s.store with ops := [], running := s.store.suspended, suspended := none } : Store) = s.store := by
    generalize s.store = st at *
    cases st
    simp_all
  unfold State.storeServe
  split
  · rfl
  · simp only [hr, ho, bestOp]
    exact congrArg (fun st => ({ s with store := st } : State)) same
theorem ops_storeServe_subset (s : State) : s.storeServe.store.ops ⊆ s.store.ops := by
  fun_cases State.storeServe s <;> first | exact List.Subset.refl _ | exact List.erase_subset
/-- An operation that waits is waiting afterwards, or runs. -/
theorem storeServe_keeps_op {s : State} {o : Op} (h : o ∈ s.store.ops) :
    o ∈ s.storeServe.store.ops ++ s.storeServe.store.running.toList := by
  have taken (b : Op) : o ∈ s.store.ops.erase b ++ (some b).toList := by
    by_cases hb : o = b
    · simp [hb]
    · exact List.mem_append_left _ ((List.mem_erase_of_ne hb).2 h)
  fun_cases State.storeServe s <;> first | exact List.mem_append_left _ h | exact taken _
/-- An operation that is queued waits or runs. -/
theorem queueOp_queued (s : State) (prio : Nat) (kind : StoreOp) :
    ((s.queueOp prio kind).store.ops ++ (s.queueOp prio kind).store.running.toList).any (fun o => o.kind == kind) = true := by
  unfold State.queueOp
  extract_lets o
  obtain ⟨x, hx, hkind⟩ : ∃ x ∈ (({ s with store := { s.store with ops := s.store.ops ++ [o] } }).holdupCheck (· == o)).store.ops,
      x.kind = kind := by
    fun_cases State.holdupCheck
    · exact ⟨o, List.mem_append_right _ (List.mem_singleton.2 rfl), rfl⟩
    · refine ⟨_, List.mem_map.2 ⟨o, List.mem_append_right _ (List.mem_singleton.2 rfl), rfl⟩, ?_⟩
      split <;> rfl
  exact List.any_eq_true.2 ⟨x, storeServe_keeps_op hx, by simp [hkind]⟩

/-- Where it can be made and passes, the hold-up check leaves no write of those it is made for waiting. -/
theorem holdupCheck_passes {s : State} (p : Op → Bool) (hm : s.store.measuring = none) (hb : s.store.measuredBoot = true)
    (hok : s.holdupOk = true) : ∀ o ∈ (s.holdupCheck p).store.ops, (o.may || !p o) = true := by
  fun_cases State.holdupCheck s p
  case case1 h => exact List.all_eq_true.1 h
  case case2 h can ok =>
    have passed : ok = true := by simp [ok, can, hm, hb, hok]
    intro o ho
    obtain ⟨x, -, rfl⟩ := List.mem_map.1 ho
    split
    · assumption
    · simp [Op.may, passed]

/-! ### The devices (16 R451, R453) -/

theorem changes_setDevice (s : State) (k : Nat) (d : Device) : Changes [.store] s (s.setDevice k d) := changes_store s _

/-- A change made to each of the two devices. -/
def State.updDevices (s : State) (f : Nat → Device → Device) : State := [0, 1].foldl (fun z k => z.updDevice k (f k)) s

theorem device_updDevices (s : State) (f : Nat → Device → Device) {k : Nat} (hk : k < 2) :
    (s.updDevices f).device k = f k (s.device k) := by
  obtain rfl | rfl : k = 0 ∨ k = 1 := by omega
  · simp [State.updDevices]
  · simp [State.updDevices]
theorem device_updDevices_of_same (s : State) {f : Nat → Device → Device} (h : ∀ k < 2, f k (s.device k) = s.device k) (k : Nat) :
    (s.updDevices f).device k = s.device k := by
  by_cases hk : k < 2
  · rw [device_updDevices s f hk, h k hk]
  · have h0 : k ≠ 0 := by omega
    have h1 : k ≠ 1 := by omega
    simp [State.updDevices, h0, h1]
theorem updDevices_only (s : State) (f : Nat → Device → Device) :
    s.updDevices f = { s with store := { s.store with devs := (s.updDevices f).store.devs } } := rfl
theorem changes_updDevices (s : State) (f : Nat → Device → Device) : Changes [.store] s (s.updDevices f) := by
  rw [updDevices_only]
  exact changes_store s _

theorem stage_atStage_volatile (d : Device) : (d.atStage .volatile).stage = .volatile := by
  unfold Device.atStage
  split
  · rfl
  · cases hd : d.stage <;> simp_all [wearOrder]
theorem storeStage_of_volatile {s : State} (h : (s.device 0).stage = .volatile) : s.storeStage = .volatile := by
  unfold State.storeStage
  extract_lets a b
  split
  · rfl
  · have hb : ¬ wearOrder a.stage < wearOrder b.stage := by
      rw [show a.stage = .volatile from h]
      cases b.stage <;> decide
    rw [if_neg hb, show a.stage = .volatile from h]

/-- A store that has become VOLATILE drops its commits and holds no values of its own. -/
theorem volatileNow_volatile {s : State} (h : s.storeStage = .volatile) :
    s.volatileNow.store.lasting = ({ s.store with commit := none, commitQueued := false } : Store).lasting ∧
    s.volatileNow.model = { s.model with native := false } ∧ Changes [.model, .store, .recorder] s s.volatileNow := by
  rw [State.volatileNow, if_pos (by simp [h])]
  refine ⟨?_, ?_, ?_⟩
  · rw [store_raise, lasting_deferralEnds]
    rfl
  · rw [model_raise, changes_deferralEnds _ .model (by decide)]
  · refine .trans ?_ (((changes_deferralEnds _).mono (by decide)).trans ((changes_raise _ _ _ _ _ _ _).mono (by decide)))
    intro p hp
    cases p <;> simp_all [Part.same]
theorem volatileNow_of_not {s : State} (h : s.storeStage ≠ .volatile) : s.volatileNow = s := by
  rw [State.volatileNow, if_neg (by simpa using h)]

/-! ### Alarms left alone (16 R456) -/

theorem alarms_event (s : State) (c k o u : Nat) (v0 v1 v2 : Option Int) (src : Option Nat) (b cl : Bool) (a : Option Nat) :
    (s.event c k o u v0 v1 v2 src b cl a).recorder.alarms = s.recorder.alarms := by
  unfold State.event State.keepRecord
  extract_lets r
  split
  · rfl
  · split <;> rfl
theorem alarmOn_event (s : State) (c k o u : Nat) (v0 v1 v2 : Option Int) (src : Option Nat) (b cl : Bool) (a : Option Nat)
    (c' k' o' : Nat) : (s.event c k o u v0 v1 v2 src b cl a).alarmOn c' k' o' = s.alarmOn c' k' o' := by
  unfold State.alarmOn
  rw [alarms_event]
theorem alarmOn_raise_ne (s : State) {c c' : Nat} (k o u : Nat) (v0 v1 : Option Int) (k' o' : Nat) (h : c ≠ c') :
    (s.raise c k o u v0 v1).alarmOn c' k' o' = s.alarmOn c' k' o' := by
  unfold State.raise
  split
  · rfl
  · simp [State.alarmOn, alarms_event, h]
theorem alarmOn_clearAlarm_ne (s : State) {c c' : Nat} (k o u : Nat) (k' o' : Nat) (h : c ≠ c') :
    (s.clearAlarm c k o u).alarmOn c' k' o' = s.alarmOn c' k' o' := by
  unfold State.clearAlarm
  split
  · simp only [State.alarmOn, alarms_event, List.any_filter]
    congr 1
    funext a
    grind
  · rfl
theorem alarmOn_deferralEnds (s : State) {c : Nat} (k o : Nat) (h : evStoreDeferred ≠ c) :
    s.deferralEnds.alarmOn c k o = s.alarmOn c k o := by
  fun_cases State.deferralEnds s
  · exact alarmOn_clearAlarm_ne _ _ _ _ _ _ h
  · rfl

end Sys2Proof.Machine
end

