-- ==== Sys2Proof/Proofs/StoreEvents.lean ====
section
/-! PROOF. Pages, erases, commits, hold-up checks, batches and scrubs (O47): each event has arisen, and does to the store, the devices
and the recorder what its handler says. -/

namespace Sys2Proof.Machine

open Sys2Proof
set_option Elab.async false

/-! ### PAGE_PROGRAM_DONE and ERASE_DONE (16 R447, R451 to R453) -/

/-- The page of a settings record ends its write, and nothing else waits for the interface. -/
theorem pageOver_settings {s : State} {o : Op} {g : Nat} (hk : o.kind = .settings g) (ho : s.store.ops = [])
    (hs : s.store.suspended = none) (hd : s.store.deferred = false) :
    s.pageOver o = { s with store := { s.store with running := none } } :=
  calc s.pageOver o = ({ s with store := { s.store with running := none } } : State).deferralEnds.storeServe := by
        simp only [State.pageOver, hk, opLeft]
    _ = ({ s with store := { s.store with running := none } } : State).storeServe :=
        congrArg State.storeServe (deferralEnds_of_notDeferred hd)
    _ = _ := storeServe_of_idle rfl ho hs

theorem pageProgramDone_over {s : State} {t g : Nat} {o : Op} (hon : s.power.on = true) (hr : s.store.running = some o)
    (hk : o.kind = .settings g) (ho : s.store.ops = []) (hs : s.store.suspended = none) (hd : s.store.deferred = false) :
    ∃ u, exec (.pageProgramDone t true true) s = .next u ∧ u.store = { s.store with running := none } ∧ Moves [.store] s u := by
  rw [exec_pageProgramDone, execPageProgramDone]
  refine when_imp (by simp [hon, hr, hk]) fun u hu => ?_
  have good : (s.atTime t).failing true true = [] := by simp [State.failing]
  rw [← store_atTime s t] at hr ho hs hd ⊢
  simp only [hr, good, List.filter_nil, List.isEmpty_nil, if_true, pageOver_settings hk ho hs hd] at hu
  exact ⟨hu.store, hu.moves_from ((changes_store _ _).moves (by decide))⟩

/-- A reprogram that makes fewer than 65 in 30 days is counted and does no more. -/
theorem retried_counted {s : State} {k : Nat} (h : (s.recentRetries (s.device k)).length < 64) :
    ∃ d, s.retried k = s.setDevice k d ∧ d.retries = (s.device k).retries + 1 := by
  have hlen : ¬ 64 < (s.onNow :: s.recentRetries (s.device k)).length := by rw [List.length_cons]; omega
  rw [State.retried, if_neg (by simp only [Bool.and_eq_true, decide_eq_true_eq]; exact fun hc => hlen hc.1)]
  exact ⟨_, rfl, rfl⟩
/-- The retries of the last 30 days do not become more with time. -/
theorem recentRetries_atTime (s : State) (t : Nat) (d : Device) :
    ((s.atTime t).recentRetries d).length ≤ (s.recentRetries d).length := by
  have hnow : s.onNow ≤ (s.atTime t).onNow := by
    unfold State.onNow State.now
    rw [store_atTime]
    fun_cases State.atTime s t
    · simp only
      omega
    · exact le_rfl
  refine (List.monotone_filter_right _ fun x hx => ?_).length_le
  simp only [decide_eq_true_eq] at hx ⊢
  omega

theorem pageProgramDone_again {s : State} {t g : Nat} {o : Op} (hon : s.power.on = true) (hr : s.store.running = some o)
    (hk : o.kind = .settings g) (ht : o.tries0 < 3) (hg : 0 ∉ o.given) (hu0 : (s.device 0).used = true)
    (hn : (s.recentRetries (s.device 0)).length < 64) : ∃ u, exec (.pageProgramDone t false true) s = .next u ∧
      u.store.running = some { o with tries0 := o.tries0 + 1 } ∧ (u.device 0).retries = (s.device 0).retries + 1 ∧
      (∀ k, k ≠ 0 → u.device k = s.device k) ∧ u.store.ops = s.store.ops ∧ Moves [.store] s u := by
  rw [exec_pageProgramDone, execPageProgramDone]
  refine when_imp (by simp [hon, hr, hk]) fun u hu => ?_
  have hbad : ((s.atTime t).failing false true).filter (fun k => !o.given.contains k) = [0] := by
    simp [State.failing, device_atTime, hu0, hg]
  obtain ⟨d, hretried, hd⟩ := retried_counted (s := s.atTime t) (k := 0)
    (lt_of_le_of_lt (by rw [device_atTime]; exact recentRetries_atTime s t _) hn)
  have hagain : List.filter (fun k => decide (o.tries k < 3)) [0] = [0] := by simp [Op.tries, ht]
  have hup : List.filter (fun k => decide (3 ≤ o.tries k)) [0] = [] := by simp [Op.tries, ht]
  rw [← store_atTime s t] at hr
  simp only [hr, hbad, hagain, hup, List.isEmpty_cons, List.isEmpty_nil, List.foldl_nil, List.foldl_cons, Bool.not_false, if_true,
    Bool.false_eq_true, if_false, hretried, List.append_nil] at hu
  have hdevice (k : Nat) : u.device k = ((s.atTime t).setDevice 0 d).device k := device_of_devs (congrArg Store.devs hu.store) k
  refine ⟨by rw [hu.store]; simp, ?_, fun k hk => ?_, ?_,
    hu.moves_from (((changes_setDevice _ 0 d).trans (changes_store _ _)).moves (by decide))⟩
  · rw [hdevice, State.device_setDevice_same, hd, device_atTime]
  · rw [hdevice, State.device_setDevice_ne _ _ hk, device_atTime]
  · exact (congrArg Store.ops hu.store).trans (congrArg Store.ops (store_atTime s t) :)

/-- The erase of a sector is counted on a device that is used. -/
def Device.erased (d : Device) (sector : Nat) : Device :=
  if d.used then { d with erases := tset d.erases sector (tget 0 d.erases sector + 1) } else d
def State.countErase (s : State) (sector k : Nat) : State :=
  if (s.device k).used then s.updDevice k fun d => { d with erases := tset d.erases sector (tget 0 d.erases sector + 1) } else s

theorem device_countErase_same (s : State) (sector k : Nat) : (s.countErase sector k).device k = (s.device k).erased sector := by
  unfold State.countErase Device.erased
  split
  · exact State.device_setDevice_same ..
  · rfl
theorem device_countErase_ne (s : State) (sector : Nat) {k j : Nat} (h : j ≠ k) : (s.countErase sector k).device j = s.device j := by
  unfold State.countErase
  split
  · exact State.device_setDevice_ne _ _ h
  · rfl
theorem countErase_only (s : State) (sector k : Nat) :
    s.countErase sector k = { s with store := { s.store with devs := (s.countErase sector k).store.devs } } := by
  unfold State.countErase
  split <;> rfl
theorem erases_erased (d : Device) (sector : Nat) : tget 0 (d.erased sector).erases sector =
    (if d.used then tget 0 d.erases sector + 1 else tget 0 d.erases sector) := by
  unfold Device.erased
  split
  · exact tget_tset_same ..
  · rfl
theorem erased_only (d : Device) (sector : Nat) : d.erased sector = { d with erases := (d.erased sector).erases } := by
  unfold Device.erased
  split <;> rfl

theorem eraseDone_counted {s : State} {t k : Nat} {o : Op} (hon : s.power.on = true) (hr : s.store.running = some o)
    (hk : o.kind = .erase k) (ho : s.store.ops = []) (hs : s.store.suspended = none) : ∃ u, exec (.eraseDone t true true) s = .next u ∧
      u.store.running = none ∧ (∀ d < 2, u.device d = (s.device d).erased k) ∧ u.recorder = s.recorder ∧ Moves [.store] s u := by
  rw [exec_eraseDone, execEraseDone]
  refine when_imp (by simp [hon, hr, hk]) fun u hu => ?_
  have hsector : (s.atTime t).opSector o = k := by rw [State.opSector, hk]
  obtain ⟨z1, hz1⟩ : ∃ z1, z1 = ((s.atTime t).countErase k 0).countErase k 1 := ⟨_, rfl⟩
  have honly : z1 = { s.atTime t with store := { s.store with devs := z1.store.devs } } := by
    rw [← store_atTime s t, hz1, countErase_only _ k 1, countErase_only _ k 0]
  have good : z1.failing true true = [] := by simp [State.failing]
  have hfold : [0, 1].foldl (fun y k_1 => if (y.device k_1).used = true then
      y.updDevice k_1 fun d => { d with erases := tset d.erases k (tget 0 d.erases k + 1) } else y) (s.atTime t) = z1 := hz1.symm
  simp only [store_atTime, hr, hsector, hfold, good, List.foldl_nil] at hu
  have hidle : ({ z1 with store := { z1.store with running := none } } : State).storeServe =
      { z1 with store := { z1.store with running := none } } := by
    refine storeServe_of_idle rfl ?_ ?_ <;> rw [honly]
    · exact ho
    · exact hs
  rw [hidle] at hu
  have hdevice (d : Nat) : u.device d = z1.device d := device_of_devs (congrArg Store.devs hu.store) d
  refine ⟨by rw [hu.store], fun d hd => ?_, ?_, hu.moves_from (t := t) ?_⟩
  · rw [hdevice, hz1, ← device_atTime s t d]
    obtain rfl | rfl : d = 0 ∨ d = 1 := by omega
    · rw [device_countErase_ne _ k (by decide), device_countErase_same]
    · rw [device_countErase_same, device_countErase_ne _ k (by decide)]
  · rw [hu.recorder, honly, recorder_atTime]
  · rw [honly]
    exact (changes_store _ _).moves (by decide)

/-! ### COMMIT_DONE (06 R193; 16 R443, R445, R453) -/

/-- A commit that has ended well, and behind which none waits, is the newest generation. -/
theorem commitMade_stored {s : State} (c : Commit) (hq : s.store.commitQueued = false) :
    (s.commitMade c).store.lasting = (s.stored c).store.lasting ∧ Changes [.store, .recorder] (s.stored c) (s.commitMade c) := by
  obtain ⟨s2, h2⟩ : ∃ s2, s2 = (s.stored c).deferralEnds.event evCommitDone 0 0 := ⟨_, rfl⟩
  obtain ⟨s3, h3⟩ : ∃ s3, s3 = ((s2.queueOp 6 (.erase (0x180 + 2 * ((c.generation + 2) % 64)))).queueOp 6
    (.erase (0x180 + 2 * ((c.generation + 2) % 64) + 1))).storeServe := ⟨_, rfl⟩
  have made : s.commitMade c = if s3.store.commitQueued then s3.startCommit else s3 := by
    rw [h3, h2]
    rfl
  have hlasting : s3.store.lasting = (s.stored c).store.lasting := by
    rw [h3, lasting_storeServe, lasting_queueOp, lasting_queueOp, h2, store_event, lasting_deferralEnds]
  have hevent : Changes [.recorder] (s.stored c).deferralEnds s2 := h2 ▸ changes_event _ _ _ _ _ _ _ _ _ _ _ _
  have hserved : Changes [.store] s2 s3 := h3 ▸ (changes_queueOp _ _ _).trans ((changes_queueOp _ _ _).trans (changes_storeServe _))
  have hnone : s3.store.commitQueued = false := by
    exact (congrArg Store.commitQueued hlasting :).trans hq
  rw [made, hnone]
  exact ⟨hlasting, (changes_deferralEnds _).trans ((hevent.mono (by decide)).trans (hserved.mono (by decide)))⟩

theorem commitDone_finished {s : State} {t : Nat} {c : Commit} {o : Op} (hon : s.power.on = true) (hc : s.store.commit = some c)
    (hp : c.pagesLeft ≤ 1) (hr : s.store.running = some o) (hk : o.kind = .commitPage) (hq : s.store.commitQueued = false) :
    ∃ u, exec (.commitDone t true) s = .next u ∧ CommitFinished s u t c := by
  rw [exec_commitDone, execCommitDone]
  refine when_imp (by simp [hon, hc, hp, hr, hk]) fun u hu => ?_
  simp only [store_atTime, hc, if_true] at hu
  obtain ⟨hlasting, hchanges⟩ := commitMade_stored (s := s.atTime t) c (by rw [store_atTime, hq])
  have hstore : u.store.lasting = ((s.atTime t).stored c).store.lasting := by rw [hu.store, hlasting]
  refine ⟨congrArg Store.genCommit hstore, congrArg Store.commitTime hstore, congrArg Store.lastCommitEnd hstore,
    congrArg Store.commit hstore, congrArg Store.laneCounts hstore, ?_, fun k => ?_, hu.moves_from (t := t) ?_⟩
  · rw [hu.model, hchanges .model (by decide), State.stored, model_atTime]
  · exact (device_of_devs (s := (s.atTime t).stored c) (congrArg Store.devs hstore :) k).trans (device_atTime s t k)
  · refine Moves.trans (t := (s.atTime t).stored c) ?_ (hchanges.moves (by decide))
    intro p hp
    cases p <;> simp_all [Part.same, State.stored]

/-- A commit that has failed on both devices leaves the store VOLATILE. -/
theorem commitFailed_volatile (s : State) :
    s.commitFailed.store.commit = none ∧ s.commitFailed.store.commitQueued = false ∧
      s.commitFailed.store.genCommit = s.store.genCommit ∧ (∀ k < 2, (s.commitFailed.device k).stage = .volatile) ∧
      s.commitFailed.model.storedBlocks = s.model.storedBlocks ∧ Changes [.model, .store, .recorder] s s.commitFailed := by
  obtain ⟨s1, hs1⟩ : ∃ s1 : State, s1 = { s with store := { s.store with commit := none, commitQueued := false, running := none } } :=
    ⟨_, rfl⟩
  obtain ⟨y, hy⟩ : ∃ y, y = s1.updDevices fun _ d => d.atStage .volatile := ⟨_, rfl⟩
  have hfailed : s.commitFailed = y.volatileNow.deferralEnds.storeServe := by rw [hy, hs1]; rfl
  have hstage (k : Nat) (hk : k < 2) : (y.device k).stage = .volatile := by
    rw [hy, device_updDevices _ _ hk, stage_atStage_volatile]
  have hset : Changes [.model, .store, .recorder] s y := by
    rw [hy, hs1]
    exact ((changes_store s _).mono (by decide)).trans ((changes_updDevices _ _).mono (by decide))
  obtain ⟨hlasting, hmodel, hvolatile⟩ := volatileNow_volatile (storeStage_of_volatile (hstage 0 (by decide)))
  have hended : Changes [.store, .recorder] y.volatileNow s.commitFailed := by
    rw [hfailed]
    exact (changes_deferralEnds _).trans ((changes_storeServe _).mono (by decide))
  have hstore : s.commitFailed.store.lasting = ({ y.store with commit := none, commitQueued := false } : Store).lasting := by
    rw [hfailed, lasting_storeServe, lasting_deferralEnds, hlasting]
  refine ⟨congrArg Store.commit hstore, congrArg Store.commitQueued hstore, ?_, fun k hk => ?_, ?_,
    hset.trans (hvolatile.trans (hended.mono (by decide)))⟩
  · exact (congrArg Store.genCommit hstore).trans (by rw [hy, updDevices_only, hs1]; rfl)
  · exact (congrArg Device.stage (device_of_devs (s := y) (congrArg Store.devs hstore :) k)).trans (hstage k hk)
  · rw [hended .model (by decide), hmodel, hy, updDevices_only, hs1]

theorem commitDone_failed {s : State} {t : Nat} {c : Commit} {o : Op} (hon : s.power.on = true) (hc : s.store.commit = some c)
    (hp : c.pagesLeft ≤ 1) (hr : s.store.running = some o) (hk : o.kind = .commitPage) :
    ∃ u, exec (.commitDone t false) s = .next u ∧ u.store.commit = none ∧ u.store.commitQueued = false ∧
      u.store.genCommit = s.store.genCommit ∧ (∀ k < 2, (u.device k).stage = .volatile) ∧
      u.model.storedBlocks = s.model.storedBlocks ∧ Moves [.model, .store, .recorder] s u := by
  rw [exec_commitDone, execCommitDone]
  refine when_imp (by simp [hon, hc, hp, hr, hk]) fun u hu => ?_
  simp only [store_atTime, hc, Bool.false_eq_true, if_false] at hu
  obtain ⟨hcommit, hqueued, hgen, hstage, hblocks, hchanges⟩ := commitFailed_volatile (s.atTime t)
  rw [store_atTime] at hgen
  rw [model_atTime] at hblocks
  rw [hu.store, hu.model]
  exact ⟨hcommit, hqueued, hgen, fun k hk => by rw [hu.device, hstage k hk], hblocks, hu.moves_from (hchanges.moves (by decide))⟩

/-! ### HOLDUP_RETRY, STORE_DEFERRED, HOLDUP_MEASUREMENT and HOLDUP_MEASURED (16 R448, R449) -/

theorem holdupRetry_passed {s : State} {t v : Nat} (hon : s.power.on = true) (hl : s.power.lossAt = none)
    (hdue : s.store.ops.any (s.atTime t).checkDue = true) (hm : s.store.measuring = none) (hb : s.store.measuredBoot = true)
    (hok : ({ s.atTime t with store := { s.store with vHu := v } } : State).holdupOk = true) :
    ∃ u, exec (.holdupRetry t v) s = .next u ∧ u.store.vHu = v ∧
      (u.store.ops.all fun o => o.may || !(s.atTime t).checkDue o) = true ∧
      u.store.settings = s.store.settings ∧ Moves [.store] s u := by
  rw [exec_holdupRetry, execHoldupRetry]
  refine when_imp (by simpa [hon, hl] using hdue) fun u hu => ?_
  rw [store_atTime] at hu
  obtain ⟨z, hz⟩ : ∃ z : State, z = { s.atTime t with store := { s.store with vHu := v } } := ⟨_, rfl⟩
  rw [← hz] at hu hok
  have hpassed := holdupCheck_passes (s := z) (s.atTime t).checkDue (by rw [hz]; exact hm) (by rw [hz]; exact hb) hok
  have hlasting : u.store.lasting = z.store.lasting := by rw [hu.store, lasting_storeServe, lasting_holdupCheck]
  refine ⟨(congrArg Store.vHu hlasting).trans (by rw [hz]; rfl), List.all_eq_true.2 fun o ho => ?_,
    (congrArg Store.settings hlasting).trans (by rw [hz]; rfl), hu.moves_from (t := t) ?_⟩
  · rw [hu.store] at ho
    exact hpassed o (ops_storeServe_subset _ ho)
  · rw [hz]
    exact ((changes_store _ _).trans ((changes_holdupCheck _ _).trans (changes_storeServe _))).moves (by decide)

theorem storeDeferred_raised {s : State} {t : Nat} (hon : s.power.on = true) (hlate : s.store.ops.any (s.atTime t).nowLate = true) :
    ∃ u, exec (.storeDeferred t) s = .next u ∧ u.store = { s.store with
        deferred := true, ops := s.store.ops.map fun o => { o with late := o.late || (s.atTime t).nowLate o } } ∧
      u.alarmOn evStoreDeferred 0 0 = true ∧ Moves [.store, .recorder] s u := by
  rw [exec_storeDeferred, execStoreDeferred]
  refine when_imp (by simpa [hon] using hlate) fun u hu => ⟨?_, ?_, hu.moves_from (t := t) ?_⟩
  · rw [hu.store, store_raise, store_atTime]
  · rw [alarmOn_of_recorder hu.recorder, alarmOn_raise]
  · exact ((changes_store _ _).moves (by decide)).trans ((changes_raise _ _ _ _ _ _ _).moves (by decide))

theorem holdupMeasurement_starts {s : State} {t v : Nat} (hl : s.linePower = true) (hrock : s.power.state ≠ .bareRock)
    (hb : s.store.measuredBoot = true) (hm : s.store.measuring = none) (hg : s.guardedRuns = false)
    (hd : s.store.measureDue = true) : ∃ u, exec (.holdupMeasurement t v) s = .next u ∧
      u.store = { s.store with measuring := some (s.nowAt t, v), measureDue := false, vHu := v } ∧ Moves [.store] s u := by
  have hline : (s.atTime t).linePower = true := by
    rw [← hl]
    unfold State.linePower State.powerPort
    rw [power_atTime]
  rw [exec_holdupMeasurement, execHoldupMeasurement]
  refine when_imp ?_ fun u hu => ⟨?_, hu.moves_from ((changes_store _ _).moves (by decide))⟩
  · rw [hline]
    simpa [hrock, hb, hm, State.measureDue, hd, State.guardedRuns] using hg
  · rw [hu.store, store_atTime]

/-- At 40.0 V a capacitor that has fallen by more than 5.1 V gives less than 2.5 J. -/
theorem holdup_low_iff {v v0 : Nat} (h : v < v0) :
    (85 / 100 * (25 / ((v0 : Rat) - (v : Rat))) / 2 * (1600 - 400) < (5 : Rat) / 2) ↔ v0 > v + 5100 := by
  have hpos : (0 : Rat) < (v0 : Rat) - v := sub_pos.2 (by exact_mod_cast h)
  have hcast : v0 > v + 5100 ↔ (5100 : Rat) < v0 - v := by
    rw [lt_sub_iff_add_lt, add_comm]
    exact_mod_cast Iff.rfl
  have hval : 85 / 100 * (25 / ((v0 : Rat) - v)) / 2 * (1600 - 400) = 12750 / ((v0 : Rat) - v) := by ring
  rw [hcast, hval, div_lt_iff₀ hpos]
  constructor <;> intro h <;> linarith

/-- The time from the start of a measurement has passed, and the voltage has fallen. (For every time `d`: the kernel is not to count
down the literal of 16 R449.) -/
theorem measurement_over {m : Option (Nat × Nat)} {a v0 d n v : Nat} (hm : m = some (a, v0)) (ha : a + d ≤ n) (hv : v < v0) :
    (m.any fun x => elapsed x.1 d n && decide (v < x.2)) = true := by simp [hm, elapsed, ha, hv]

theorem holdupMeasured_measured {s : State} {t v a v0 : Nat} (hon : s.power.on = true) (hm : s.store.measuring = some (a, v0))
    (ha : a + 50000000 ≤ s.nowAt t) (hv : v < v0) : ∃ u, exec (.holdupMeasured t v) s = .next u ∧ HoldupMeasured s u t v v0 := by
  rw [exec_holdupMeasured, execHoldupMeasured]
  refine when_imp (by rw [power_atTime, store_atTime, hon, measurement_over hm ha hv]; rfl) fun u hu => ?_
  rw [store_atTime, hm] at hu
  obtain ⟨z0, hz0⟩ : ∃ z0 : State, z0 = { s.atTime t with store := { s.store with
    measuring := none, vHu := v, cHu := some (25 / ((v0 : Rat) - (v : Rat))), cHuAt := (s.atTime t).onNow } } := ⟨_, rfl⟩
  obtain ⟨z1, hz1⟩ : ∃ z1, z1 = (z0.queueOp 3 .header).event evHoldupMeasured 0 0 := ⟨_, rfl⟩
  replace hu : Settled (if v0 > v + 5100 then z1.raise evHoldupLow 0 0 else z1.clearAlarm evHoldupLow 0 0) u := by
    simp only [← holdup_low_iff hv, hz1, hz0]
    exact hu
  have hstore : u.store = z1.store := by
    rw [hu.store]
    split
    · exact store_raise ..
    · exact store_clearAlarm ..
  have halarm : u.alarmOn evHoldupLow 0 0 = decide (v0 > v + 5100) := by
    rw [alarmOn_of_recorder hu.recorder]
    split <;> simp [*]
  have hqueued := queueOp_queued z0 3 .header
  have hlasting : u.store.lasting = z0.store.lasting := by rw [hstore, hz1, store_event, lasting_queueOp]
  rw [hz0] at hlasting
  refine ⟨congrArg Store.measuring hlasting, congrArg Store.vHu hlasting, congrArg Store.cHu hlasting, congrArg Store.cHuAt hlasting,
    ?_, halarm, hu.moves_from (t := t) ?_⟩
  · rw [hstore, hz1, store_event]
    exact hqueued
  · have hset : Changes [.store] (s.atTime t) z0 := hz0 ▸ changes_store _ _
    have hevent : Changes [.recorder] (z0.queueOp 3 .header) z1 := hz1 ▸ changes_event _ _ _ _ _ _ _ _ _ _ _ _
    refine ((hset.trans (changes_queueOp z0 3 .header)).moves (by decide)).trans ((hevent.moves (by decide)).trans ?_)
    split
    · exact (changes_raise _ _ _ _ _ _ _).moves (by decide)
    · exact (changes_clearAlarm _ _ _ _ _).moves (by decide)

/-! ### RECORD_BATCH (16 R455 to R457) -/

/-- The records of a batch go to the ring. -/
theorem recorder_writeBatch (s : State) (l : List EventRec) : (s.writeBatch l).recorder = { s.recorder with
    ring := ringKeep s.ringCap (l.reverse ++ s.recorder.ring), cache := s.recorder.cache.drop l.length } ∧
    Changes [.store, .recorder] s (s.writeBatch l) := by
  obtain ⟨s1, h1⟩ : ∃ s1 : State, s1 = { s with recorder := { s.recorder with
    ring := ringKeep s.ringCap (l.reverse ++ s.recorder.ring), cache := s.recorder.cache.drop l.length } } := ⟨_, rfl⟩
  have hset : Changes [.store, .recorder] s s1 := h1 ▸ (changes_recorder rfl).mono (by decide)
  have hqueued : Changes [.store] s1 (s.writeBatch l) := by
    rw [State.writeBatch, ← h1]
    split
    · exact changes_queueOp _ _ _
    · exact (changes_queueOp _ _ _).trans (changes_queueOp _ _ _)
  exact ⟨(hqueued .recorder (by decide)).trans (by rw [h1]), hset.trans (hqueued.mono (by decide))⟩

/-- Enough records have gathered, or the oldest has waited its time (`d`, as in `measurement_over`). -/
theorem batch_due {l : List EventRec} {d n : Nat} (h : 64 ≤ l.length ∨ ∃ r, l = [r] ∧ r.time + d ≤ n) :
    (decide (64 ≤ l.length) || l.head?.any fun r => elapsed r.time d n) = true := by
  obtain h | ⟨r, rfl, ht⟩ := h
  · simp [h]
  · simp [elapsed, ht]

theorem recordBatch_written {s : State} {t : Nat} (hon : s.power.on = true) (hstate : s.power.state = .full ∨ s.power.state = .slack)
    (hdue : 64 ≤ s.recorder.cache.length ∨ ∃ r, s.recorder.cache = [r] ∧ r.time + 100000000 ≤ s.nowAt t)
    (hlost : s.recorder.lostNow = 0) : ∃ u, exec (.recordBatch t) s = .next u ∧
      u.recorder = { s.recorder with
        ring := ringKeep s.ringCap ((s.recorder.cache.take 64).reverse ++ s.recorder.ring)
        cache := s.recorder.cache.drop (s.recorder.cache.take 64).length } ∧ Moves [.store, .recorder] s u := by
  rw [exec_recordBatch, execRecordBatch]
  refine when_imp ?_ fun u hu => ?_
  · obtain h | h := hstate <;> rw [power_atTime, recorder_atTime, hon, h, batch_due hdue] <;> rfl
  · obtain ⟨hrecorder, hchanges⟩ := recorder_writeBatch (s.atTime t) ((s.atTime t).recorder.cache.take 64)
    rw [recorder_atTime] at hrecorder hchanges
    rw [ringCap_atTime] at hrecorder
    rw [State.countLost, if_pos (.inl (by rw [recorder_atTime, hrecorder]; exact hlost)), recorder_atTime] at hu
    exact ⟨by rw [hu.recorder, hrecorder], hu.moves_from (hchanges.moves (qs := [.store, .recorder]) (by decide))⟩

/-! ### SCRUB (16 R453, R454) -/

/-- The stage that a device comes to by its usable slots. -/
def Device.worn (d : Device) : Device := if d.usableSlots < 4 then d.atStage .volatile else d
/-- What a scrub, or a stage, of a device leaves. -/
def Device.scrubbed (d : Device) : Bool × List Nat := (d.failed, d.scrubFails)

theorem scrubbed_worn (d : Device) : d.worn.scrubbed = d.scrubbed := by
  unfold Device.worn Device.atStage
  split
  · split <;> rfl
  · rfl

/-- The wear of the devices once it has been read. -/
theorem wearEffects_eq (s : State) : s.wearEffects =
    let z := (s.updDevices fun _ d => d.worn).volatileNow
    if z.settingsGone && !z.store.settingsVolatile then
      ({ z with store := { z.store with settingsVolatile := true } }).raise evSettingsVolatile 0 0 else z := rfl

/-- Devices with room for the learned log and for the settings log bring nothing with them. -/
theorem wearEffects_of_room {s : State} (hs : s.storeStage ≠ .volatile) (hr : ∀ k < 2, 4 ≤ (s.device k).usableSlots)
    (hg : s.settingsGone = false) : ∃ devs, s.wearEffects = { s with store := { s.store with devs := devs } } ∧
      ∀ k, s.wearEffects.device k = s.device k := by
  obtain ⟨z, hz⟩ : ∃ z, z = s.updDevices fun _ d => d.worn := ⟨_, rfl⟩
  have hdevice (k : Nat) : z.device k = s.device k := by
    rw [hz]
    exact device_updDevices_of_same s (f := fun _ d => d.worn) (fun k hk => if_neg (Nat.not_lt.2 (hr k hk))) k
  have hkept : s.wearEffects = z := by
    rw [wearEffects_eq, ← hz, volatileNow_of_not (by rwa [storeStage_of_devices hdevice])]
    simp [settingsGone_of_devices hdevice, hg]
  rw [hkept]
  exact ⟨z.store.devs, hz ▸ updDevices_only s _, hdevice⟩

/-- What the wear of the devices leaves to a scrub: what it has found, and the alarm of a device that has failed. -/
structure ScrubKept (s t : State) : Prop where
  device : ∀ k < 2, (t.device k).scrubbed = (s.device k).scrubbed
  result : t.store.lastScrubRes = s.store.lastScrubRes
  alarm : ∀ k o, t.alarmOn evStoreDegraded k o = s.alarmOn evStoreDegraded k o
  changes : Changes [.store, .recorder] s t

theorem ScrubKept.trans {s t u : State} (h : ScrubKept s t) (k : ScrubKept t u) : ScrubKept s u :=
  ⟨fun i hi => (k.device i hi).trans (h.device i hi), k.result.trans h.result, fun i o => (k.alarm i o).trans (h.alarm i o),
    h.changes.trans k.changes⟩
theorem scrubKept_worn (s : State) : ScrubKept s (s.updDevices fun _ d => d.worn) :=
  ⟨fun k hk => by rw [device_updDevices s _ hk, scrubbed_worn], rfl, fun _ _ => rfl, (changes_updDevices s _).mono (by decide)⟩
/-- Without native values a store that has become VOLATILE moves the store and the recorder alone. -/
theorem scrubKept_volatileNow {s : State} (hn : s.model.native = false) : ScrubKept s s.volatileNow := by
  by_cases h : s.storeStage = .volatile
  · obtain ⟨hlasting, hmodel, hchanges⟩ := volatileNow_volatile h
    have hsame : ({ s.model with native := false } : Model) = s.model := by rw [← hn]
    refine ⟨fun k _ => congrArg Device.scrubbed (device_of_devs (congrArg Store.devs hlasting :) k),
      (congrArg Store.lastScrubRes hlasting :), fun k o => ?_, fun p hp => ?_⟩
    · rw [State.volatileNow, if_pos (by simp [h])]
      exact (alarmOn_raise_ne _ _ _ _ _ _ _ _ (by decide)).trans (alarmOn_deferralEnds _ _ _ (by decide))
    · by_cases hmod : p = .model
      · rw [hmod]
        exact hmodel.trans hsame
      · exact hchanges p (by simp_all)
  · rw [volatileNow_of_not h]
    exact ⟨fun _ _ => rfl, rfl, fun _ _ => rfl, .refl _ s⟩
theorem scrubKept_raise (s : State) {c : Nat} (k o : Nat) (h : c ≠ evStoreDegraded) : ScrubKept s (s.raise c k o) :=
  ⟨fun i _ => congrArg Device.scrubbed (device_of_store (store_raise s _ _ _ _ _ _) i),
    congrArg Store.lastScrubRes (store_raise s _ _ _ _ _ _), fun _ _ => alarmOn_raise_ne _ _ _ _ _ _ _ _ h,
    (changes_raise _ _ _ _ _ _ _).mono (by decide)⟩
theorem scrubKept_wearEffects {s : State} (hn : s.model.native = false) : ScrubKept s s.wearEffects := by
  rw [wearEffects_eq]
  extract_lets z
  have hz : ScrubKept s z := (scrubKept_worn s).trans (scrubKept_volatileNow (by rw [updDevices_only, hn]))
  split
  · have hset : ScrubKept z { z with store := { z.store with settingsVolatile := true } } :=
      ⟨fun _ _ => rfl, rfl, fun _ _ => rfl, (changes_store z _).mono (by decide)⟩
    exact hz.trans (hset.trans (scrubKept_raise _ _ _ (by decide)))
  · exact hz

theorem scrub_clean {s : State} {t : Nat} (hon : s.power.on = true) (hrock : s.power.state ≠ .bareRock)
    (hb : s.power.state ≠ .beached) (hasked : s.store.scrub.isSome = true) (hs : s.storeStage ≠ .volatile)
    (hr : ∀ k < 2, 4 ≤ (s.device k).usableSlots) (hg : s.settingsGone = false) : ∃ u, exec (.scrub t []) s = .next u ∧
      u.store.scrub = none ∧ u.store.lastScrub = s.nowAt t ∧ u.store.lastScrubRes = 0 ∧
      (∀ k < 2, u.device k = { s.device k with scrubFails := [] }) ∧ Moves [.store] s u := by
  rw [exec_scrub, execScrub]
  refine when_imp (by simp [hon, hrock, hb, hasked]) fun u hu => ?_
  obtain ⟨z, hz⟩ : ∃ z, z = (s.atTime t).updDevices fun _ d => { d with scrubFails := [] } := ⟨_, rfl⟩
  obtain ⟨y, hy⟩ : ∃ y : State, y = { z with store := { z.store with
    scrub := none, lastScrub := (s.atTime t).now, lastScrubRes := 0 } } := ⟨_, rfl⟩
  replace hu : Settled y.wearEffects u := by
    rw [hy, hz]
    exact hu
  have hdevice (k : Nat) (hk : k < 2) : y.device k = { s.device k with scrubFails := [] } := by
    have hread : y.device k = z.device k := by rw [hy]; rfl
    rw [hread, hz, device_updDevices _ _ hk, device_atTime]
  have hroom (k : Nat) (hk : k < 2) : 4 ≤ (y.device k).usableSlots := by
    rw [hdevice k hk]
    exact hr k hk
  have hstage : y.storeStage ≠ .volatile := by
    rwa [State.storeStage, hdevice 0 (by decide), hdevice 1 (by decide)]
  have hgone : y.settingsGone = false := by
    unfold State.settingsGone at hg ⊢
    simp only [List.all_cons, List.all_nil, hdevice 0 (by decide), hdevice 1 (by decide)] at hg ⊢
    exact hg
  obtain ⟨devs, hkept, hwear⟩ := wearEffects_of_room hstage hroom hgone
  have hstore : u.store = { y.store with devs := devs } := by rw [hu.store, hkept]
  have hset : Changes [.store] (s.atTime t) y := by
    rw [hy, hz]
    exact (changes_updDevices _ _).trans (changes_store _ _)
  refine ⟨by rw [hstore, hy], by rw [hstore, hy], by rw [hstore, hy], fun k hk => ?_, hu.moves_from (t := t) ?_⟩
  · rw [hu.device, hwear, hdevice k hk]
  · rw [hkept]
    exact (hset.trans (changes_store y _)).moves (by decide)

theorem scrubProblem_found {s : State} (d k : Nat) (hu : (s.device d).used = true) :
    ((s.scrubProblem d k).device d).failed = (s.device d).scrubFails.contains k ∧
    (s.scrubProblem d k).alarmOn evStoreDegraded 9 d = (s.alarmOn evStoreDegraded 9 d || (s.device d).scrubFails.contains k) ∧
    (s.scrubProblem d k).model = s.model ∧ Changes [.store, .recorder] s (s.scrubProblem d k) := by
  have hread : (s.event evScrubRepair 9 d).device d = s.device d := device_of_store (store_event ..) d
  have hevent : Changes [.recorder] s (s.event evScrubRepair 9 d) := changes_event _ _ _ _ _ _ _ _ _ _ _ _
  have hgood : (s.device d).failed = false := by
    have := hu
    simp_all [Device.used]
  by_cases h : (s.device d).scrubFails.contains k = true
  · rw [State.scrubProblem, if_pos (by rw [h, hu]; rfl), h]
    have hset : Changes [.store, .recorder] s ((s.event evScrubRepair 9 d).updDevice d fun x => { x with failed := true }) :=
      (hevent.mono (by decide)).trans ((changes_setDevice _ _ _).mono (by decide))
    have hall := hset.trans ((changes_raise _ evStoreDegraded 9 d 0 none none).mono (by decide))
    refine ⟨?_, by simp, hall .model (by decide), hall⟩
    exact congrArg Device.failed ((device_of_store (store_raise _ _ _ _ _ _ _) d).trans (State.device_setDevice_same _ d _))
  · have hno := Bool.eq_false_iff.2 h
    rw [State.scrubProblem, if_neg (by rw [hno]; exact Bool.false_ne_true)]
    refine ⟨?_, ?_, hevent .model (by decide), hevent.mono (by decide)⟩
    · rw [hread, hgood, hno]
    · rw [alarmOn_event, hno, Bool.or_false]

theorem scrub_found {s : State} {t d k : Nat} (hon : s.power.on = true) (hrock : s.power.state ≠ .bareRock)
    (hb : s.power.state ≠ .beached) (hasked : s.store.scrub.isSome = true) (hn : s.model.native = false) (hd : d < 2)
    (hused : (s.device d).used = true) : ∃ u, exec (.scrub t [(d, k)]) s = .next u ∧
      u.store.lastScrubRes = 1 ∧ (u.device d).scrubFails = [k] ∧ (u.device d).failed = (s.device d).scrubFails.contains k ∧
      u.alarmOn evStoreDegraded 9 d = (s.alarmOn evStoreDegraded 9 d || (s.device d).scrubFails.contains k) ∧
      Moves [.store, .recorder] s u := by
  rw [← device_atTime s t] at hused ⊢
  rw [← alarmOn_of_recorder (recorder_atTime s t)]
  rw [exec_scrub, execScrub]
  refine when_imp (by simp [hon, hrock, hb, hasked]) fun u hu => ?_
  have hlist : [(d, k)].filter (fun p => decide (p.1 < 2) && ((s.atTime t).device p.1).used) = [(d, k)] := by
    simp [hused, Nat.le_of_lt_succ hd]
  rw [hlist] at hu
  obtain ⟨hfailed, halarm, hmodel, hproblem⟩ := scrubProblem_found d k hused
  obtain ⟨x, hx⟩ : ∃ x, x = (s.atTime t).scrubProblem d k := ⟨_, rfl⟩
  rw [← hx] at hfailed halarm hmodel hproblem
  obtain ⟨z, hz⟩ : ∃ z, z = x.updDevices fun j a =>
    { a with scrubFails := ([(d, k)].filter fun p => p.1 == j).map (·.2) } := ⟨_, rfl⟩
  obtain ⟨y, hy⟩ : ∃ y : State, y = { z with store := { z.store with
    scrub := none, lastScrub := (s.atTime t).now, lastScrubRes := 1 } } := ⟨_, rfl⟩
  replace hu : Settled y.wearEffects u := by
    rw [hy, hz, hx]
    exact hu
  have hdevice : y.device d = { x.device d with scrubFails := [k] } := by
    have hread : y.device d = z.device d := by rw [hy]; rfl
    rw [hread, hz, device_updDevices _ _ hd]
    simp
  have hset : Changes [.store] x y := by
    rw [hy, hz]
    exact (changes_updDevices _ _).trans (changes_store _ _)
  have hkept := scrubKept_wearEffects (s := y) (by rw [hset .model (by decide), hmodel, model_atTime, hn])
  obtain ⟨hsame, hfails⟩ := Prod.mk.inj (hkept.device d hd)
  rw [hdevice] at hsame hfails
  refine ⟨?_, ?_, ?_, ?_, hu.moves_from (t := t) ?_⟩
  · rw [hu.store, hkept.result, hy]
  · rw [hu.device, hfails]
  · rw [hu.device, hsame, hfailed]
  · rw [alarmOn_of_recorder hu.recorder, hkept.alarm, alarmOn_of_recorder (hset .recorder (by decide)), halarm]
  · exact (hproblem.moves (by decide)).trans ((hset.moves (by decide)).trans (hkept.changes.moves (by decide)))

/-- Settles O47: one lemma for each event. -/
theorem storeAndRecorderEventsComplete : Obligations.StoreAndRecorderEventsComplete := by
  intro s z t g k v a v0 d o c r
  refine ⟨?page, pageProgramDone_again, ?erase, ?commit, ?failed, ?retry, ?deferred, ?starts, holdupMeasured_measured, ?batch, ?late,
    ?clean, ?found⟩
  case page => exact fun hon hr hk ho hs hd => pageProgramDone_over hon hr hk ho hs (by simpa using hd)
  case erase =>
    intro hon hr hk ho hs
    obtain ⟨u, hu, hnone, hdevice, hrecorder, hmoves⟩ := eraseDone_counted (t := t) hon hr hk ho hs
    refine ⟨u, hu, hnone, fun d hd => ?_, fun d hd => ?_, hrecorder, hmoves⟩
    · rw [hdevice d hd, erases_erased]
    · rw [hdevice d hd]
      exact erased_only ..
  case commit => exact fun hon hc hp hr hk hq => commitDone_finished hon hc hp hr hk (by simpa using hq)
  case failed => exact fun hon hc hp hr hk => by simpa using commitDone_failed (t := t) hon hc hp hr hk
  case retry =>
    rintro rfl hon hl hdue hm hb hok
    exact holdupRetry_passed hon hl hdue hm hb hok
  case deferred =>
    rintro rfl hon hlate
    exact storeDeferred_raised hon hlate
  case starts => exact fun hl hrock hb hm hg hd => holdupMeasurement_starts hl hrock hb hm (by simpa using hg) hd
  case batch =>
    intro hon hstate hlen hlost
    simpa [Nat.min_eq_left hlen] using recordBatch_written (t := t) hon hstate (.inl hlen) hlost
  case late =>
    intro hon hstate hr ht hlost
    simpa [hr] using recordBatch_written hon hstate (.inr ⟨r, hr, ht⟩) hlost
  case clean => exact fun hon hrock hb ha hs hr hg => scrub_clean hon hrock hb ha hs hr (by simpa using hg)
  case found => exact fun hon hrock hb ha hn hd hu => scrub_found hon hrock hb ha (by simpa using hn) hd hu

end Sys2Proof.Machine
end

