-- ==== Sys2Proof/Proofs/BeachingEndsRequest.lean ====
section
/-! PROOF. A request of a tenant on the container bus when the module beaches (O12): MODULE.BEACH ends it, and its slot is told. -/

namespace Sys2Proof.Machine

open Sys2Proof
set_option Elab.async false

/-- A command on the service port. -/
def servicePort : Source := { path := .service, box := 0, tag := 1 }

/-- A request whose attempt is on the bus: its slot has given its role up since, and the abort waits for the attempt to end. -/
def requestOnBus : TxReq := { attempts := 1, onBus := true, ending := some coAborted }

/-- A module on line power that holds no role and whose lanes are UNCONFIGURED, with that request in buffer 0 of CAN0, which slot 0
owns. -/
def requestAtBeaching : State :=
  ({ State.reset with
    mbox := { State.reset.mbox with ready := true }
    sec := { State.reset.sec with lifecycle := .turned }
    power := { State.reset.power with on := true, stage := 4 } }).setCanCtl 0
      { mode := .normal, bufs := [(0, { owner := .slot 0, req := some requestOnBus })] }

/-- The outcomes that the send block of slot 0 has been told. -/
def toldSlot : Host.Outcome State Fault Refusal → Option (List Nat)
  | .next u => some ((u.slot 0).canOut.map TxOutcome.outcome)
  | _ => none

theorem requestAtBeaching_taken : Taken requestAtBeaching servicePort 0x0103 := by decide +kernel

theorem toldSlot_moduleBeach : toldSlot (exec (.moduleBeach servicePort) requestAtBeaching) = some [coDisabled] := by
  decide +kernel

/-- Refutes O12: BEACH moves more than the parts of its first clause. It ends every request pending on the container bus DISABLED
(15 R439), and the outcome of one in a buffer that a tenant owns reaches the send block of its slot (15 R432), a part of the graph
engines' state, which the clause does not list. -/
theorem not_beachingPartingAndPowerCommandsComplete : ¬ Obligations.BeachingPartingAndPowerCommandsComplete := by
  intro h
  obtain ⟨beach, -⟩ := h requestAtBeaching servicePort 0 0 0 { role := 0 } { step := 0, roles := [], at_ := 0 }
    { step := 0, roles := [], at_ := 0 }
  obtain ⟨u, hu, z, ⟨-, henvelope⟩, -, hchanges⟩ := beach requestAtBeaching_taken (by decide +kernel) rfl
  have hten : u.ten = requestAtBeaching.ten := (henvelope.rest .ten (by decide)).trans (hchanges .ten (by decide))
  have hnone : toldSlot (.next u) = some [] := by
    rw [toldSlot, State.slot, hten]
    rfl
  rw [← hu, toldSlot_moduleBeach] at hnone
  exact absurd hnone (by decide)

end Sys2Proof.Machine
end

