-- ==== Sys2Proof/Proofs/ChangeEvents.lean ====
section
/-! PROOF. Tide-committed changes (O36): what each message and each closing leaves of the record of a change, and with it the
coordinator's decisions, a member's part and the taking over. -/

namespace Sys2Proof.Machine

open Sys2Proof
set_option Elab.async false

/-! ### The record of a change -/

theorem change_of_changes {s t : State} (h : t.net.changes = s.net.changes) (id : Nat) : t.change id = s.change id := by
  unfold State.change
  rw [h]
theorem Changes.change {ps : List Part} {s t : State} (h : Changes ps s t) (hp : .net ∉ ps) (id : Nat) : t.change id = s.change id :=
  change_of_changes (congrArg Net.changes (h .net hp)) id
theorem change_atTime (s : State) (t id : Nat) : (s.atTime t).change id = s.change id :=
  change_of_changes (congrArg Net.changes (net_atTime s t)) id
theorem Settled.net {z u : State} (h : Settled z u) : u.net = z.net := h.changes .net (by decide)
theorem Settled.change {z u : State} (h : Settled z u) (id : Nat) : u.change id = z.change id := h.changes.change (by decide) id

theorem id_of_change {s : State} {id : Nat} {c : Change} (h : s.change id = some c) : c.id = id := by
  simpa using List.find?_some h
/-- A change of the record that keeps its number is read where the record was. -/
theorem change_updChange (s : State) (id : Nat) {f : Change → Change} (hf : ∀ c, (f c).id = c.id) :
    (s.updChange id f).change id = (s.change id).map f := by
  unfold State.updChange State.change
  generalize s.net.changes = l
  induction l with
  | nil => rfl
  | cons c r ih =>
    by_cases h : c.id = id
    · simp [h, hf]
    · simpa [h] using ih
theorem changes_updChange (s : State) (id : Nat) (f : Change → Change) : Changes [.net] s (s.updChange id f) := changes_net s _

theorem isCoordinator_of_own {s t : State} (h : t.net.own = s.net.own) : t.isCoordinator = s.isCoordinator := by
  unfold State.isCoordinator State.activeOf
  rw [h]
theorem isCoordinator_atTime (s : State) (t : Nat) : (s.atTime t).isCoordinator = s.isCoordinator :=
  isCoordinator_of_own (congrArg Net.own (net_atTime s t))
theorem coordinates_atTime (s : State) (t : Nat) (c : Change) : (s.atTime t).coordinates c = s.coordinates c := by
  unfold State.coordinates
  rw [net_atTime]

/-! ### Messages (10 R312) -/

theorem netChanges_sendReliable (s : State) (peer dst : Nat) (body : GBody) (srcRole srcEpoch target tEpoch corr : Nat) (reply : Bool) :
    (s.sendReliable peer dst body srcRole srcEpoch target tEpoch corr reply).net.changes = s.net.changes := by
  unfold State.sendReliable State.transmit
  dsimp only
  split_ifs <;> rfl
theorem changes_sendToRole (s : State) (role : Nat) (body : GBody) (srcRole srcEpoch corr : Nat) (reply : Bool) :
    Changes [.net, .out] s (s.sendToRole role body srcRole srcEpoch corr reply) := by
  fun_cases State.sendToRole s role body srcRole srcEpoch corr reply
  · exact .refl _ s
  · exact changes_sendReliable s _ _ _ _ _ _ _ _ _
theorem change_sendToRole (s : State) (role : Nat) (body : GBody) (srcRole srcEpoch corr : Nat) (reply : Bool) (id : Nat) :
    (s.sendToRole role body srcRole srcEpoch corr reply).change id = s.change id := by
  refine change_of_changes ?_ id
  fun_cases State.sendToRole s role body srcRole srcEpoch corr reply
  · rfl
  · exact netChanges_sendReliable s _ _ _ _ _ _ _ _ _

/-! ### The commit reaches the members (10 R314) -/

/-- What the coordinator's decision sets in a change, and no member's part in it changes. -/
def Change.verdict (c : Change) : Bool × ChangeState × Nat := (c.decided, c.status, c.roundAt)

/-- The change has been decided for its position, and is open. -/
def CommittedAt (id n : Nat) (s : State) : Prop := (s.change id).map Change.verdict = some (true, .open_, n)

section
variable {s : State} {id n : Nat}

theorem CommittedAt.of_change {t : State} (h : CommittedAt id n s) (ht : t.change id = s.change id) : CommittedAt id n t := by
  unfold CommittedAt
  rw [ht]
  exact h
/-- A change of the record that leaves a decision as it stands. -/
theorem CommittedAt.updChange {f : Change → Change} (h : CommittedAt id n s) (hf : ∀ c, (f c).id = c.id)
    (hv : ∀ c, c.decided = true → (f c).verdict = c.verdict) : CommittedAt id n (s.updChange id f) := by
  unfold CommittedAt at h ⊢
  rw [change_updChange s id hf]
  cases hc : s.change id with
  | none => simp [hc] at h
  | some c =>
    rw [hc, Option.map_some] at h
    have hd : c.decided = true := congrArg Prod.fst (Option.some.inj h)
    rw [Option.map_some, Option.map_some, hv c hd, h]
theorem CommittedAt.sendReport {c : Change} (h : CommittedAt id n s) (hc : c.id = id) (outcome inForce : Nat) :
    CommittedAt id n (s.sendReport c outcome inForce) := by
  unfold State.sendReport
  extract_lets m
  split
  · rw [State.reportTaken, show m.id = id from hc]
    exact h.updChange (by intro; rfl) (by intros; rfl)
  · exact h.of_change (change_sendToRole s _ _ _ _ _ _ id)
theorem CommittedAt.modeEntry {c : Change} (h : CommittedAt id n s) (hc : c.id = id) (p : Nat) :
    CommittedAt id n (s.modeEntry c p) := by
  unfold State.modeEntry
  extract_lets s1
  have h1 : CommittedAt id n s1 := by
    simp only [s1]
    split
    · exact h
    · exact h.of_change ((changes_writeEntry s _ {}).change (by decide) id)
  rw [hc]
  split
  · exact h1.updChange (by intro; rfl) (by intros; rfl)
  · exact (h1.updChange (by intro; rfl) (by intros; rfl)).of_change ((changes_writeEntry _ _ _).change (by decide) id)
theorem CommittedAt.memberCommit (h : CommittedAt id n s) (p : Nat) : CommittedAt id n (s.memberCommit id p) := by
  fun_cases State.memberCommit s id p
  case case1 => exact h
  case case2 => exact h
  case case3 c hc _ _ => exact h.sendReport (id_of_change hc) 2 0
  case case4 c hc _ _ =>
    have marked : CommittedAt id n (s.updChange id fun x => { x with decided := true }) :=
      h.updChange (by intro; rfl) (by intro c hd; simp only [Change.verdict, hd])
    exact marked.modeEntry (c := { c with decided := true }) (show c.id = id from id_of_change hc) p
theorem CommittedAt.sendMember (h : CommittedAt id n s) (b p : Nat) : CommittedAt id n (s.sendMember b (.commit id p)) := by
  unfold State.sendMember
  split
  · exact h.memberCommit p
  · exact h.of_change (change_sendToRole s _ _ _ _ _ _ id)

end

/-! ### A change that closes (10 R314 to R316, 11 R344) -/

theorem changes_destroyQueue (s : State) (q : Nat) : Changes [.mbox, .fab] s (s.destroyQueue q) := by
  intro p hp
  cases p <;> simp_all [Part.same, State.destroyQueue]
theorem changes_setSlot (s : State) (n : Nat) (x : Slot) : Changes [.ten] s (s.setSlot n x) := by
  intro p hp
  cases p <;> simp_all [Part.same, State.setSlot]
theorem changes_trimQueues (s : State) (n : Nat) : Changes [.mbox, .fab, .ten] s (s.trimQueues n) :=
  ((changes_foldl (fun z q => changes_destroyQueue z q) _ s).mono (by decide)).trans ((changes_setSlot _ n _).mono (by decide))
theorem changes_releaseFallback (s : State) (c : Change) : Changes [.mbox, .fab, .ten] s (s.releaseFallback c) := by
  fun_cases State.releaseFallback s c
  · exact .refl _ s
  · exact changes_foldl (fun z n => ((changes_setSlot z n _).mono (by decide)).trans (changes_trimQueues _ n)) _ s

/-- A change that closes takes its status and gives its entry up. -/
theorem change_closeChange {s : State} {id : Nat} {c : Change} (st : ChangeState) (h : s.change id = some c) :
    (s.closeChange id st).change id = some { c with status := st, entry := none } := by
  unfold State.closeChange
  rw [h]
  dsimp only
  rw [(changes_releaseFallback _ c).change (by decide), change_updChange _ _ (by intro; rfl)]
  split
  · rw [h]
    rfl
  · rw [State.freeEntryAt, (changes_writeEntry s _ {}).change (by decide), h]
    rfl

/-! ### CHANGE_DECISION and CHANGE_ROUND (10 R314, R315) -/

section
variable {s : State} {t id : Nat} {c : Change}

/-- A decision that is due is made. -/
theorem changeDecision_arises {Q : State → Prop} (hm : MyChange s id c) (hd : c.decided = false)
    (hn : cycleOf c.n ≤ cycleOf (s.atTime t).pos + 2)
    (k : ∀ u, Settled (if c.members.all (fun m => m.answer == some 0) then
        c.members.foldl (fun y m => y.sendMember m.berth (.commit id c.n))
          ((s.atTime t).updChange id fun x => { x with decided := true, roundAt := c.n })
      else
        (c.members.foldl (fun y m => y.sendMember m.berth (.abandon id (if c.members.any (fun m => m.answer.any (· != 0)) then 1 else 2)))
          (s.atTime t)).closeChange id .abandoned) u → Q u) :
    ∃ u, exec (.changeDecision t id) s = .next u ∧ Q u := by
  obtain ⟨hcoord, hc, hmine, hopen⟩ := hm
  rw [exec_changeDecision, execChangeDecision]
  refine when_imp ?_ fun u hu => k u ?_
  · simp [isCoordinator_atTime, change_atTime, coordinates_atTime, hcoord, hc, hmine, hopen, hd, hn]
  · simpa only [change_atTime, hc] using hu

theorem changeDecision_commits (hm : MyChange s id c) (hd : c.decided = false) (hn : cycleOf c.n ≤ cycleOf (s.atTime t).pos + 2)
    (hall : c.members.all (fun m => m.answer == some 0) = true) : ∃ u, exec (.changeDecision t id) s = .next u ∧
      (u.change id).map Change.verdict = some (true, .open_, c.n) := by
  refine changeDecision_arises hm hd hn fun u hu => ?_
  obtain ⟨-, hc, -, hopen⟩ := hm
  rw [if_pos hall] at hu
  have decided : CommittedAt id c.n ((s.atTime t).updChange id fun x => { x with decided := true, roundAt := c.n }) := by
    rw [CommittedAt, change_updChange _ _ (by intro; rfl), change_atTime, hc, Option.map_some, Option.map_some, Change.verdict, hopen]
  rw [hu.change]
  exact List.foldlRecOn (motive := CommittedAt id c.n) _ _ decided fun z hz m _ => hz.sendMember m.berth c.n

theorem change_sendMember_abandon (s : State) (b id reason : Nat) : (s.sendMember b (.abandon id reason)).change id = s.change id := by
  unfold State.sendMember
  split
  · rfl
  · exact change_sendToRole s _ _ _ _ _ _ id

theorem changeDecision_abandons (hm : MyChange s id c) (hd : c.decided = false) (hn : cycleOf c.n ≤ cycleOf (s.atTime t).pos + 2)
    (hall : c.members.all (fun m => m.answer == some 0) = false) : ∃ u, exec (.changeDecision t id) s = .next u ∧
      (u.change id).map (·.status) = some .abandoned := by
  refine changeDecision_arises hm hd hn fun u hu => ?_
  obtain ⟨-, hc, -, -⟩ := hm
  rw [if_neg (by simp [hall])] at hu
  generalize (if c.members.any (fun m => m.answer.any (· != 0)) then 1 else 2) = reason at hu
  have told : (c.members.foldl (fun y m => y.sendMember m.berth (.abandon id reason)) (s.atTime t)).change id = some c :=
    List.foldlRecOn (motive := fun z : State => z.change id = some c) _ _ ((change_atTime s t id).trans hc)
      fun z hz m _ => (change_sendMember_abandon z m.berth id reason).trans hz
  rw [hu.change, change_closeChange _ told]
  rfl

theorem changeRound_completes (hm : MyChange s id c) (hd : c.decided = true) (hf : c.fellBack = false)
    (hn : cycleOf c.roundAt + 2 ≤ cycleOf (s.atTime t).pos) (hall : c.members.all (fun m => m.report == some 1) = true) :
    ∃ u, exec (.changeRound t id) s = .next u ∧ u.change id = some { c with status := .complete, entry := none } := by
  obtain ⟨hcoord, hc, hmine, hopen⟩ := hm
  have applied : (c.members.filter fun m => m.report != some 1) = [] :=
    List.filter_eq_nil_iff.2 fun m hmem => by simpa using List.all_eq_true.1 hall m hmem
  rw [exec_changeRound, execChangeRound]
  refine when_imp ?_ fun u hu => ?_
  · simp [isCoordinator_atTime, change_atTime, coordinates_atTime, hcoord, hc, hmine, hopen, hd, hn]
  · simp only [change_atTime, hc, hf, applied, List.isEmpty_nil, if_true, Bool.false_eq_true, if_false] at hu
    rw [hu.change, change_closeChange _ ((change_atTime s t id).trans hc)]

/-! ### CHANGE_LAGGING and CHANGE_MEMBER_CLOSE (10 R314, R316) -/

theorem changeLagging_decides (hc : s.change id = some c) (hopen : c.status = .open_) (ha : c.applied = false) (hf : c.fellBack = false)
    (hd : c.decided = false) (he : c.entry = none) (hmine : s.coordinates c = false) (hn : cycleOf c.n ≤ cycleOf (s.atTime t).pos) :
    ∃ u, exec (.changeLagging t id) s = .next u ∧ u.change id = some { c with decided := true } ∧ Moves [.net, .out] s u := by
  rw [exec_changeLagging, execChangeLagging]
  refine when_imp ?_ fun u hu => ?_
  · simp [change_atTime, coordinates_atTime, hc, hopen, ha, hf, hd, he, hmine, hn]
  · simp only [change_atTime, hc, he] at hu
    obtain ⟨z, hz⟩ : ∃ z, z = (s.atTime t).updChange id fun x => { x with entry := none, decided := true } := ⟨_, rfl⟩
    have marked : z.change id = some { c with decided := true } := by
      rw [hz, change_updChange _ _ (by intro; rfl), change_atTime, hc, Option.map_some, ← he]
    have other : z.coordinates c = false := by
      rw [← hmine, ← coordinates_atTime s t, hz]
      rfl
    rw [← hz, State.sendReport, if_neg (by simp [other])] at hu
    refine ⟨?_, hu.moves_from (t := t) (Moves.trans (t := z) ?_ ((changes_sendToRole z _ _ _ _ _ _).moves (by decide)))⟩
    · rw [hu.change, change_sendToRole, marked]
    · exact hz ▸ (changes_updChange _ _ _).moves (by decide)

theorem changeMemberClose_closes (hc : s.change id = some c) (hopen : c.status = .open_) (hcoord : s.isCoordinator = false)
    (hn : cycleOf c.n + 64 ≤ cycleOf (s.atTime t).pos) : ∃ u, exec (.changeMemberClose t id) s = .next u ∧
      u.change id = some { c with status := if c.applied then .complete else .abandoned, entry := none } := by
  rw [exec_changeMemberClose, execChangeMemberClose]
  refine when_imp ?_ fun u hu => ?_
  · simp [isCoordinator_atTime, change_atTime, hc, hopen, hcoord, hn]
  · simp only [change_atTime, hc, Option.any_some] at hu
    rw [hu.change, change_closeChange _ ((change_atTime s t id).trans hc)]

end

/-! ### COORDINATOR_TAKEOVER (10 R316, 07 R229) -/

theorem coordinatorTakeover_rosterTaken {s : State} {t a : Nat} (l : List RosterLane) (hcoord : s.isCoordinator = true)
    (hat : s.net.takeoverAt = some a) (ha : a + 10 * 10 ^ 9 ≤ s.nowAt t) : ∃ u, exec (.coordinatorTakeover t l []) s = .next u ∧
      u.net = { s.net with takeoverAt := none } ∧
      u.sound = { s.sound with roster := { s.sound.roster with lanes := l, ready := true } } ∧ Moves [.net, .sound] s u := by
  rw [exec_coordinatorTakeover, execCoordinatorTakeover]
  refine when_imp ?_ fun u hu => ?_
  · simpa [isCoordinator_atTime, hcoord, hat, elapsedO, elapsed] using ha
  · rw [List.foldl_nil] at hu
    refine ⟨?_, ?_, hu.moves_from (t := t) ?_⟩
    · rw [hu.net, net_atTime]
    · rw [hu.changes .sound (by decide), sound_atTime]
    · refine Moves.trans ((changes_net (s.atTime t) { (s.atTime t).net with takeoverAt := none }).moves (by decide)) ?_
      exact (changes_sound _ _).moves (by decide)

/-- Settles O36: one lemma for each event. -/
theorem changeEventsComplete : Obligations.ChangeEventsComplete := by
  intro s t id a c l
  refine ⟨?commits, ?abandons, ?completes, ?lagging, ?closes, coordinatorTakeover_rosterTaken l⟩
  case commits =>
    intro hm hd hn hall
    exact changeDecision_commits hm (by simpa using hd) hn hall
  case abandons =>
    intro hm hd hn hall
    exact changeDecision_abandons hm (by simpa using hd) hn (by simpa using hall)
  case completes =>
    intro hm hd hf hn hall
    obtain ⟨u, hu, hc⟩ := changeRound_completes hm hd (by simpa using hf) hn hall
    exact ⟨u, hu, by rw [hc]; rfl⟩
  case lagging =>
    intro hc hopen ha hf hd he hmine hn
    exact changeLagging_decides hc hopen (by simpa using ha) (by simpa using hf) (by simpa using hd) he (by simpa using hmine) hn
  case closes =>
    intro hc hopen hcoord hn
    obtain ⟨u, hu, hclosed⟩ := changeMemberClose_closes hc hopen (by simpa using hcoord) hn
    exact ⟨u, hu, by rw [hclosed]; rfl⟩

end Sys2Proof.Machine
end

