-- ==== Sys2Proof/Proofs/SpringTides.lean ====
section
/-! PROOF. Spring tides (O24): one lane's tide at a time, the cells whose endpoints are gathered, and the grants of the coordinator. -/

namespace Sys2Proof.Machine

open Sys2Proof
set_option Elab.async false

/-! ### Reading a spring tide -/

theorem spring_of_sound {s t : State} (h : t.sound = s.sound) (n : Nat) : t.spring n = s.spring n := by
  unfold State.spring
  rw [h]
theorem Changes.spring {ps : List Part} {s t : State} (h : Changes ps s t) (hp : .sound ∉ ps) (n : Nat) : t.spring n = s.spring n :=
  spring_of_sound (h .sound hp) n
theorem spring_atTime (s : State) (t n : Nat) : (s.atTime t).spring n = s.spring n := spring_of_sound (sound_atTime s t) n
theorem Settled.sound {z u : State} (h : Settled z u) : u.sound = z.sound := h.changes .sound (by decide)
theorem Settled.spring {z u : State} (h : Settled z u) (n : Nat) : u.spring n = z.spring n := spring_of_sound h.sound n
theorem changes_setSpring (s : State) (n : Nat) (x : Spring) : Changes [.sound] s (s.setSpring n x) := changes_sound s _
theorem onlySpring_setSpring (s : State) (n : Nat) (x : Spring) : Only State.spring n [.sound] s (s.setSpring n x) :=
  ⟨fun _ hj => State.spring_setSpring_ne s x hj, changes_setSpring s n x⟩
theorem Changes.onlySpring {ps : List Part} {s t : State} (h : Changes ps s t) (hp : .sound ∉ ps) (n : Nat) :
    Only State.spring n ps s t := ⟨fun j _ => h.spring hp j, h⟩

theorem portsOf_of_lanes {s t : State} (h : t.lanes = s.lanes) (n : Nat) : t.portsOf n = s.portsOf n := by
  unfold State.portsOf
  rw [lane_of_lanes h]
theorem portsOf_atTime (s : State) (t n : Nat) : (s.atTime t).portsOf n = s.portsOf n := portsOf_of_lanes (lanes_atTime s t) n
theorem modelled_atTime (s : State) (t p : Nat) : (s.atTime t).modelled p = s.modelled p := by
  simp only [State.modelled, port_atTime, cell_atTime]

/-- What follows from an event that writes one lane's tide, and else moves parts that hold no tide. -/
theorem whenOn_spring {e : Bool} {s : State} {t n : Nat} {c : State → Bool} {f : State → State} {x : Spring} {ps : List Part}
    (hs : .sound ∉ ps) (he : e = true) (hc : c (s.atTime t) = true) (hf : Changes ps ((s.atTime t).setSpring n x) (f (s.atTime t))) :
    ∃ u, wheneverOn e s t c f = .next u ∧ u.spring n = x ∧ Only State.spring n (.clock :: .sound :: (ps ++ [.mbox])) s u := by
  refine whenOn_imp he hc fun u hu => ⟨?_, ?_⟩
  · rw [hu.spring, hf.spring hs, State.spring_setSpring_same]
  · refine Only.trans (((atTime_changes s t).onlySpring (by decide) n).mono (by simp)) ?_
    refine Only.trans ((onlySpring_setSpring _ n x).mono (by simp)) ?_
    exact ((hf.onlySpring hs n).mono fun p hp => by simp [hp]).trans ((hu.changes.onlySpring (by decide) n).mono (by simp))

/-! ### A spring tide that fails (07 R223) -/

/-- A spring tide of a lane in RUN that has ended FAILED. -/
def Spring.failed (p : Spring) (cause now : Nat) : Spring :=
  { p with phase := .return_, phaseAt := now, outcome := 2, failCause := cause, lastFailedAt := some now, gathering := false }

theorem springFail_run {s : State} {n : Nat} (cause : Nat) (hp : (s.spring n).profile.isSome = true) (hr : (s.lane n).state = .run) :
    s.springFail n cause = (s.setSpring n ((s.spring n).failed cause s.now)).event evSpringFailed 1 n (cause := cause) := by
  have hidle : (s.spring n).phase ≠ .idle := fun h => by simp [Spring.profile, h] at hp
  unfold State.springFail
  extract_lets p
  rw [if_neg (by simpa [p] using hidle), if_pos (show p.out = true from hp)]
  simp only [hr, beq_self_eq_true, if_true]
  rfl

section
variable {s : State} {t n : Nat}

/-- An event that ends a spring tide of a lane in RUN as FAILED. -/
theorem whenOn_springFail {c : State → Bool} (cause : Nat) (hn : n < 8) (hp : (s.spring n).profile.isSome = true)
    (hr : (s.lane n).state = .run) (hc : c (s.atTime t) = true) :
    ∃ u, wheneverOn (decide (n < 8)) s t c (fun z => z.springFail n cause) = .next u ∧
      u.spring n = (s.spring n).failed cause (s.nowAt t) ∧ Only State.spring n [.clock, .sound, .recorder, .mbox] s u := by
  refine whenOn_spring (ps := [.recorder]) (by decide) (decide_eq_true hn) hc ?_
  rw [springFail_run cause (by rwa [spring_atTime]) (by rwa [lane_atTime]), spring_atTime]
  exact changes_event _ _ _ _ _ _ _ _ _ _ _ _

theorem springInterrupted_fails {a : Nat} (hn : n < 8) (hph : (s.spring n).phase = .discharge ∨ (s.spring n).phase = .bottom)
    (hl : (s.spring n).lowSince = some a) (ha : a + (60 * 10 ^ 9 + 1) ≤ s.nowAt t) (hr : (s.lane n).state = .run) :
    ∃ u, exec (.springInterrupted t n) s = .next u ∧ u.spring n = (s.spring n).failed scInterrupted (s.nowAt t) ∧
      Only State.spring n [.clock, .sound, .recorder, .mbox] s u := by
  rw [exec_springInterrupted, execSpringInterrupted]
  refine whenOn_springFail scInterrupted hn ?_ hr ?_
  · rcases hph with h | h <;> rw [Spring.profile, h] <;> rfl
  · simpa [spring_atTime, hph, hl, elapsedO, elapsed] using ha

theorem springPortLost_fails {p : Nat} (hn : n < 8) (hp : (s.spring n).profile.isSome = true) (hmem : p ∈ s.portsOf n)
    (hst : (s.port p).state ≠ .run)
    (hlate : max (s.spring n).startedAt ((s.port p).outSince.getD 0) + (10 ^ 9 + 1) ≤ s.nowAt t) (hr : (s.lane n).state = .run) :
    ∃ u, exec (.springPortLost t n) s = .next u ∧ u.spring n = (s.spring n).failed scPortLost (s.nowAt t) ∧
      Only State.spring n [.clock, .sound, .recorder, .mbox] s u := by
  rw [exec_springPortLost, execSpringPortLost]
  refine whenOn_springFail scPortLost hn hp hr ?_
  rw [Bool.and_eq_true, List.any_eq_true]
  exact ⟨by rwa [spring_atTime], p, by rwa [portsOf_atTime], by simpa [port_atTime, spring_atTime, elapsed, hst] using hlate⟩

theorem springTimeout_fails (hn : n < 8) (hp : (s.spring n).profile.isSome = true)
    (hlate : (s.spring n).startedAt + (s.spring n).maxHours * 3600 * 10 ^ 9 ≤ s.nowAt t) (hr : (s.lane n).state = .run) :
    ∃ u, exec (.springTimeout t n) s = .next u ∧ u.spring n = (s.spring n).failed scTimeout (s.nowAt t) ∧
      Only State.spring n [.clock, .sound, .recorder, .mbox] s u := by
  rw [exec_springTimeout, execSpringTimeout]
  exact whenOn_springFail scTimeout hn hp hr (by simpa [spring_atTime, elapsed, hp] using hlate)

/-! ### SPRING_PHASE_END (07 R221) -/

theorem springPhaseEnd_margin {m : Rat} (hn : n < 8) (hph : (s.spring n).phase = .charge ∨ (s.spring n).phase = .discharge)
    (hm : (s.spring n).margin = some m) (hle : m ≤ 10) : ∃ u, exec (.springPhaseEnd t n) s = .next u ∧
      u.spring n = (if (s.spring n).phase = .charge then (s.spring n).enter .top (s.spring n).iChg (s.nowAt t)
        else (s.spring n).enter .bottom (s.spring n).iDis (s.nowAt t)) ∧ Only State.spring n [.clock, .sound, .mbox] s u := by
  rw [exec_springPhaseEnd, execSpringPhaseEnd]
  refine whenOn_spring (ps := []) (by decide) (decide_eq_true hn) ?_ ?_
  · rcases hph with h | h <;> simp [spring_atTime, h, hm, hle]
  · rcases hph with h | h
    · simpa [spring_atTime, h] using Changes.refl _ _
    · simpa [spring_atTime, h] using Changes.refl _ _

theorem springPhaseEnd_return (hn : n < 8) (hph : (s.spring n).phase = .return_) (hat : (s.spring n).phaseAt < s.nowAt t)
    (hramp : (s.lane n).ramp = (s.lane n).limitedCommand) : ∃ u, exec (.springPhaseEnd t n) s = .next u ∧
      u.spring n = (s.spring n).enter .idle 0 (s.nowAt t) ∧ Only State.spring n [.clock, .sound, .mbox] s u := by
  rw [exec_springPhaseEnd, execSpringPhaseEnd]
  refine whenOn_spring (ps := []) (by decide) (decide_eq_true hn) ?_ ?_
  · simpa [spring_atTime, lane_atTime, hph, hramp] using hat
  · simpa [spring_atTime, hph] using Changes.refl _ _

end

/-! ### The cells of a lane (07 R221, R225) -/

/-- One change made to every modelled cell of some ports. -/
def State.updModelled (s : State) (ps : List Nat) (f : Cell → Cell) : State :=
  ps.foldl (fun y p => (y.modelled p).foldl (fun x c => x.updCell (cellIx p c) f) y) s

theorem modelled_updCells {p : Nat} {l : List Nat} {s : State} {f : Cell → Cell} (hf : ∀ y, (f y).typ = y.typ) (q : Nat) :
    (l.foldl (fun x c => x.updCell (cellIx p c) f) s).modelled q = s.modelled q := by
  have cells := onlyCells_updCells p (fun _ => f) l s
  have hport := (cells.changes.port (by decide) q)
  have htyp : CellsKeep Cell.typ s (l.foldl (fun x c => x.updCell (cellIx p c) f) s) :=
    cellsKeep_foldl (fun z c => cellsKeep_updCell z _ hf) l s
  simp only [State.modelled, hport, htyp _]

section
variable {f : Cell → Cell} {P : Cell → Prop} (hP : ∀ y, P (f y))
include hP

/-- A cell of which `P` holds keeps it under changes that bring `P` about. -/
theorem holds_updCell {s : State} {i : Nat} (j : Nat) (h : P (s.cell i)) : P ((s.updCell j f).cell i) := by
  by_cases hij : i = j
  · rw [hij, State.updCell_eq, State.cell_setCell_same]
    exact hP _
  · rw [State.updCell_eq, State.cell_setCell_ne _ _ hij]
    exact h
theorem holds_updModelled {s : State} {i : Nat} (ps : List Nat) (h : P (s.cell i)) : P ((s.updModelled ps f).cell i) :=
  List.foldlRecOn (motive := fun z : State => P (z.cell i)) _ _ h fun _ hz p _ =>
    List.foldlRecOn (motive := fun z : State => P (z.cell i)) _ _ hz fun _ hy c _ => holds_updCell hP (cellIx p c) hy
/-- Every modelled cell of the ports is changed. -/
theorem updModelled_changed (hf : ∀ y, (f y).typ = y.typ) {s : State} {ps : List Nat} {p c : Nat} (hp : p ∈ ps)
    (hc : c ∈ s.modelled p) : P ((s.updModelled ps f).cell (cellIx p c)) := by
  induction ps generalizing s with
  | nil => exact absurd hp List.not_mem_nil
  | cons q r ih =>
    rw [State.updModelled, List.foldl_cons, ← State.updModelled]
    rcases List.mem_cons.1 hp with rfl | hr
    · refine holds_updModelled hP r ?_
      rw [cell_updCells_of_mem (fun _ => f) s (modelled_nodup s p) hc]
      exact hP _
    · exact ih hr (by rwa [modelled_updCells hf])

end

theorem changes_updModelled (s : State) (ps : List Nat) (f : Cell → Cell) : Changes [.model] s (s.updModelled ps f) :=
  changes_foldl (fun y _ => changes_foldl (fun x _ => changes_setCell x _ _) _ y) ps s

section
variable {s : State} {t n : Nat}

/-! ### SPRING_TAPER_END and SPRING_ENDPOINT (07 R221, R225) -/

theorem springTaperEnd_gathers {a : Nat} (hn : n < 8) (hph : (s.spring n).phase = .top ∨ (s.spring n).phase = .bottom)
    (hg : (s.spring n).gathering = false) (ht : (s.spring n).taperSince = some a) (ha : a + 10 ^ 10 ≤ s.nowAt t) :
    ∃ u, exec (.springTaperEnd t n) s = .next u ∧ u.spring n = { s.spring n with gathering := true } ∧
      (∀ p ∈ s.portsOf n, ∀ c ∈ s.modelled p, (u.cell (cellIx p c)).endVolts = [] ∧ (u.cell (cellIx p c)).endCurrents = []) ∧
      Moves [.sound, .model] s u := by
  rw [exec_springTaperEnd, execSpringTaperEnd]
  refine whenOn_imp (decide_eq_true hn) (by simpa [spring_atTime, hph, hg, ht, elapsedO, elapsed] using ha) fun u hu => ?_
  obtain ⟨z, hz⟩ : ∃ z, z = (s.atTime t).updSpring n fun p => { p with gathering := true } := ⟨_, rfl⟩
  obtain ⟨f, hf⟩ : ∃ f : Cell → Cell, f = fun k => { k with endVolts := [], endCurrents := [], endState := none } := ⟨_, rfl⟩
  have hu : Settled (z.updModelled (z.portsOf n) f) u := hz ▸ hf ▸ hu
  have hcells := changes_updModelled z (z.portsOf n) f
  have htide : Changes [.sound] (s.atTime t) z := hz ▸ changes_setSpring _ n _
  refine ⟨?_, fun p hp c hc => ?_, hu.moves_from ((htide.moves (by decide)).trans (hcells.moves (by decide)))⟩
  · rw [hu.spring, hcells.spring (by decide), hz, State.updSpring_eq, State.spring_setSpring_same, spring_atTime]
  · have hports : z.portsOf n = s.portsOf n := (portsOf_of_lanes (htide .lanes (by decide)) n).trans (portsOf_atTime s t n)
    have hmodelled : z.modelled p = s.modelled p := by
      rw [← modelled_atTime s t p]
      simp only [State.modelled, htide.port (by decide), cell_of_model (htide .model (by decide))]
    rw [hu.cell]
    exact updModelled_changed (f := f) (P := fun k => k.endVolts = [] ∧ k.endCurrents = []) (fun y => by simp [hf])
      (fun y => by simp [hf]) (hports ▸ hp) (hmodelled ▸ hc)

/-- The 16 frames of a lane's one modelled cell end the gathering of an endpoint. -/
theorem springEndpoint_arises {p c : Nat} {Q : State → Prop} (hn : n < 8) (hg : (s.spring n).gathering = true) (hp : s.portsOf n = [p])
    (hc : s.modelled p = [c]) (he : (s.cell (cellIx p c)).endState.isSome = true)
    (k : ∀ u, Settled (if (s.spring n).phase = .top then (s.atTime t).fullEndpoint n else (s.atTime t).emptyEndpoint n) u → Q u) :
    ∃ u, exec (.springEndpoint t n) s = .next u ∧ Q u := by
  rw [exec_springEndpoint, execSpringEndpoint]
  refine whenOn_imp (decide_eq_true hn) (by simp [spring_atTime, portsOf_atTime, modelled_atTime, cell_atTime, hg, hp, hc, he])
    fun u hu => k u ?_
  simpa only [spring_atTime, beq_iff_eq] using hu

theorem springEndpoint_full {p c : Nat} (hn : n < 8) (hg : (s.spring n).gathering = true) (hph : (s.spring n).phase = .top)
    (hp : s.portsOf n = [p]) (hc : s.modelled p = [c]) (he : (s.cell (cellIx p c)).endState.isSome = true) :
    ∃ u, exec (.springEndpoint t n) s = .next u ∧ u.spring n = { (s.spring n).enter .discharge (s.spring n).iDis (s.nowAt t) with
        counterOk := !(s.icv n).incomplete, fullTag := s.model.lastTag } ∧
      (u.icv n).windowsSpan = 0 ∧ (u.icv n).windowsCarried = 0 ∧ Moves [.sound, .model, .ana] s u := by
  refine springEndpoint_arises hn hg hp hc he fun u hu => ?_
  rw [if_pos hph] at hu
  generalize hz : s.atTime t = z at hu
  unfold State.fullEndpoint at hu
  extract_lets s1 at hu
  have h1 : Changes [.model] z s1 := changes_foldl (fun y _ => changes_foldl (fun x _ => changes_setCell x _ _) _ y) _ z
  have htide : s1.spring n = s.spring n := by rw [h1.spring (by decide), ← hz, spring_atTime]
  have hcount : z.icv n = s.icv n := icv_of_ana (hz ▸ ana_atTime s t) n
  obtain ⟨s2, hs2⟩ : ∃ s2, s2 = s1.updIcv n fun v => { v with windowsSpan := 0, windowsCarried := 0 } := ⟨_, rfl⟩
  rw [← hs2, State.updSpring_eq] at hu
  have h2 : Changes [.ana] s1 s2 := hs2 ▸ changes_ana s1 _
  have hcounted : u.icv n = { s1.icv n with windowsSpan := 0, windowsCarried := 0 } :=
    (icv_of_ana (hu.ana : u.ana = s2.ana) n).trans (hs2 ▸ State.icv_setIcv_same s1 n _)
  refine ⟨?_, by rw [hcounted], by rw [hcounted], hu.moves_from (t := t) ?_⟩
  · rw [hu.spring, State.spring_setSpring_same, h2.spring (by decide), htide, hcount, ← hz, model_atTime]
  · rw [hz]
    refine Changes.moves (ps := [.sound, .model, .ana]) ((h1.mono (by decide)).trans (Changes.trans (t := s2) ?_ ?_)) (by decide)
    · exact h2.mono (by decide)
    · exact (changes_setSpring s2 n _).mono (by decide)

theorem springEndpoint_empty {p c : Nat} (hn : n < 8) (hg : (s.spring n).gathering = true) (hph : (s.spring n).phase = .bottom)
    (hp : s.portsOf n = [p]) (hc : s.modelled p = [c]) (he : (s.cell (cellIx p c)).endState.isSome = true) :
    ∃ u, exec (.springEndpoint t n) s = .next u ∧ u.spring n =
        { (s.spring n).enter .return_ 0 (s.nowAt t) with outcome := 1, lastCompleteAt := some (s.nowAt t) } ∧
      Moves [.sound, .model, .store, .recorder] s u := by
  refine springEndpoint_arises hn hg hp hc he fun u hu => ?_
  rw [if_neg (by simp [hph])] at hu
  generalize hz : s.atTime t = z at hu
  unfold State.emptyEndpoint at hu
  extract_lets good s1 at hu
  have h1 : Changes [.model] z s1 := changes_foldl (fun y _ => changes_foldl (fun x _ => changes_setCell x _ _) _ y) _ z
  have htide : s1.spring n = s.spring n := by rw [h1.spring (by decide), ← hz, spring_atTime]
  generalize hs2 : (s1.updSpring n fun p => { p.enter .return_ 0 z.now with outcome := 1, lastCompleteAt := some z.now }) = s2 at hu
  have h2 : Changes [.sound] s1 s2 := hs2 ▸ changes_setSpring s1 n _
  have h3 : Changes [.store, .model, .recorder] s2 ((s2.event evSpringComplete 1 n).requestCommit true) :=
    ((changes_event _ _ _ _ _ _ _ _ _ _ _ _).mono (by decide)).trans ((changes_requestCommit _ true).mono (by decide))
  have hmoves : Changes [.sound, .model, .store, .recorder] z ((s2.event evSpringComplete 1 n).requestCommit true) :=
    ((h1.mono (by decide)).trans (h2.mono (by decide))).trans (h3.mono (by decide))
  refine ⟨?_, hu.moves_from (t := t) (hz ▸ hmoves.moves (by decide))⟩
  rw [hu.spring, h3.spring (by decide), ← hs2, State.updSpring_eq, State.spring_setSpring_same, htide, ← hz]

end

/-! ### SPRING_GRANT (07 R228) -/

theorem requests_sendReliable (s : State) (peer dst : Nat) (body : GBody) (srcRole srcEpoch target tEpoch corr : Nat) (reply : Bool) :
    (s.sendReliable peer dst body srcRole srcEpoch target tEpoch corr reply).net.requests = s.net.requests := by
  unfold State.sendReliable State.transmit
  dsimp only
  split_ifs <;> rfl

/-- A request to another module whose stream has room is awaited, and its message goes out. -/
theorem sendRequest_awaited {s : State} {b e : Nat} (src role cmd answerNs : Nat) (payload : List Byte) (slot : Nat)
    (hh : s.holderOf role = some (b, e)) (hb : s.net.berth ≠ some b) (hl : (s.streamTx b).unacked.length < 64) :
    (∃ r ∈ (s.sendRequest src role cmd answerNs payload slot).net.requests,
      r.role = role ∧ r.epoch = e ∧ r.command = cmd ∧ r.srcRole = src) ∧
    Changes [.net, .out] s (s.sendRequest src role cmd answerNs payload slot) := by
  unfold State.sendRequest
  extract_lets corr holder r net s1
  have hholder : holder = some (b, e) := hh
  have h1 : Changes [.net] s s1 := changes_net s _
  rw [hholder]
  dsimp only
  unfold State.mailOut
  extract_lets x
  have hx : x.unacked.length < 64 := hl
  have hother : ¬ (s1.net.berth == some b) = true := by simpa using hb
  rw [if_neg hother, if_neg (by omega)]
  refine ⟨⟨r, ?_, rfl, by simp [r, hholder], rfl, rfl⟩, (h1.mono (by decide)).trans (changes_sendReliable s1 _ _ _ _ _ _ _ _ _)⟩
  rw [requests_sendReliable]
  exact List.mem_cons_self

theorem holderOf_of_net {s t : State} (h : t.net = s.net) (r : Nat) : t.holderOf r = s.holderOf r := by
  unfold State.holderOf State.moduleRole State.berthField State.ownRole State.otherHolder State.claims
  rw [h]
theorem streamTx_of_net {s t : State} (h : t.net = s.net) (b : Nat) : t.streamTx b = s.streamTx b := by
  unfold State.streamTx
  rw [h]

/-- A grant marks the one lane of the roster out, and asks its holder for the spring tide. -/
theorem grant_asked {s : State} {l : RosterLane} {b e : Nat} (hl : s.sound.roster.lanes = [l])
    (hh : s.holderOf l.role = some (b, e)) (hb : s.net.berth ≠ some b) (hroom : (s.streamTx b).unacked.length < 64) :
    (s.grant l).sound.roster.lanes = [{ l with out := true }] ∧
    (∃ r ∈ (s.grant l).net.requests, r.role = l.role ∧ r.epoch = e ∧ r.command = 0x0E01 ∧ r.srcRole = coordinatorRole) ∧
    Changes [.sound, .net, .out, .fresh] s (s.grant l) := by
  unfold State.grant
  extract_lets sound roster s1
  have hnet : s1.net = s.net := rfl
  have h1 : Changes [.sound, .fresh] s s1 := by
    intro p hp
    cases p <;> simp_all [Part.same, s1]
  obtain ⟨hasked, hsent⟩ := sendRequest_awaited coordinatorRole l.role 0x0E01 1000000
    (layOut [f1 255, f4 (Config.freeNat s.fresh % 2 ^ 32), f4 (Config.freeNat (s.fresh + 1) % 2 ^ 32), f2 100, f1 24]) 0
    ((holderOf_of_net hnet _).trans hh) (hnet ▸ hb) (streamTx_of_net hnet b ▸ hroom)
  refine ⟨?_, hasked, (h1.mono (by decide)).trans (hsent.mono (by decide))⟩
  rw [hsent .sound (by decide)]
  simp [s1, hl]

theorem springGrant_granted {s : State} {t b e : Nat} {l : RosterLane} (hcoord : s.isCoordinator = true)
    (hready : s.sound.roster.ready = true) (hl : s.sound.roster.lanes = [l]) (hout : l.out = false)
    (hdue : s.sound.roster.due (s.nowAt t) = [l]) (hh : s.holderOf l.role = some (b, e)) (hb : s.net.berth ≠ some b)
    (hroom : (s.streamTx b).unacked.length < 64) : ∃ u, exec (.springGrant t) s = .next u ∧
      u.sound.roster.lanes = [{ l with out := true }] ∧
      (∃ r ∈ u.net.requests, r.role = l.role ∧ r.epoch = e ∧ r.command = 0x0E01 ∧ r.srcRole = coordinatorRole) ∧
      Moves [.sound, .net, .out, .fresh] s u := by
  have hnet := net_atTime s t
  obtain ⟨hlanes, hasked, hmoves⟩ := grant_asked (s := s.atTime t) (by rw [sound_atTime, hl]) ((holderOf_of_net hnet _).trans hh)
    (hnet ▸ hb) (streamTx_of_net hnet b ▸ hroom)
  have free : 1 ≤ (s.atTime t).grantsFree := by
    unfold State.grantsFree
    simp [sound_atTime, hl, hout]
  rw [exec_springGrant, execSpringGrant]
  refine when_imp ?_ fun u hu => ?_
  · simp [isCoordinator_atTime, sound_atTime, hcoord, hready, hdue]
  · simp only [sound_atTime, hl, List.filter_cons, hout, Bool.false_eq_true, if_false, List.filter_nil, List.foldl_nil, hdue,
      List.take_of_length_le (l := [l]) free, List.foldl_cons] at hu
    exact ⟨by rw [hu.sound, hlanes], by rw [hu.net]; exact hasked, hu.moves_from (hmoves.moves (by decide))⟩

/-- Settles O24: one lemma for each event. -/
theorem springTideEventsComplete : Obligations.SpringTideEventsComplete := by
  intro s t n a p c b e m l x
  refine ⟨springPhaseEnd_margin, springPhaseEnd_return, ?taper, springEndpoint_full, springEndpoint_empty, springInterrupted_fails,
    springPortLost_fails, springTimeout_fails, ?grant⟩
  case taper =>
    intro hn hph hg ht ha
    exact springTaperEnd_gathers hn hph (by simpa using hg) ht ha
  case grant =>
    intro hcoord hready hl hout hdue hh hb hroom
    exact springGrant_granted hcoord hready hl (by simpa using hout) hdue hh hb hroom

end Sys2Proof.Machine
end

