-- ==== Sys2Proof/Proofs/SoundCommands.lean ====
section
/-! PROOF. The SOUND and SPRING commands (O22): a step that is placed, the steps of a lane on their way to their ends, and the spring
tide of a lane that is started and stopped. -/

namespace Sys2Proof.Machine

open Sys2Proof
set_option Elab.async false

/-! ### Reading the soundings of a lane -/

theorem laneSound_of_sound {s t : State} (h : t.sound = s.sound) (n : Nat) : t.laneSound n = s.laneSound n := by
  unfold State.laneSound
  rw [h]
theorem Changes.laneSound {ps : List Part} {s t : State} (h : Changes ps s t) (hp : .sound ∉ ps) (n : Nat) :
    t.laneSound n = s.laneSound n := laneSound_of_sound (h .sound hp) n
theorem entry_of_table {s t : State} (h : t.table = s.table) (e : Nat) : t.entry e = s.entry e := by
  unfold State.entry
  rw [h]
theorem Changes.entry {ps : List Part} {s t : State} (h : Changes ps s t) (hp : .table ∉ ps) (e : Nat) : t.entry e = s.entry e :=
  entry_of_table (h .table hp) e
/-- A disabled entry is written with its marks of a firing cleared. -/
theorem entry_writeEntry_disabled {s : State} {n : Nat} {e : TideEntry} (he : e.enable = false) :
    (s.writeEntry n e).entry n = { e with expired := false, late := false, fired := false, missed := 0, fireCount := 0 } := by
  rw [writeEntry_disabled s n e he]
  exact tget_tset_same _ _ _ _
theorem ownRole_of_net {s t : State} (h : t.net = s.net) (r : Nat) : t.ownRole r = s.ownRole r := by
  unfold State.ownRole
  rw [h]

/-! ### A step whose partner is on another module (07 R207) -/

theorem changes_sendSoundOut_message (s : State) (n : Nat) (a : SoundStep) (kind reason : Nat) :
    Changes [.net, .out] s (s.sendSoundOut n a kind reason) := by
  fun_cases State.sendSoundOut s n a kind reason
  · exact .refl _ s
  · exact changes_sendReliable s _ _ _ _ _ _ _ _ _
theorem changes_sendSound_foreign {s : State} {a : SoundStep} (n kind reason : Nat) (h : s.ownRole a.partnerRole = none) :
    Changes [.net, .out] s (s.sendSound n a kind reason) := by
  have outside : s.soundInside a = none := by rw [State.soundInside, h]
  rw [State.sendSound, outside]
  exact changes_sendSoundOut_message s n a kind reason

/-! ### SOUND.SCHEDULE (07 R205, R231) -/

/-- The step that a SOUND.SCHEDULE adds, with the table entry it takes. -/
def State.newStep (s : State) (r : SoundReq) (e : Nat) : SoundStep :=
  { slot := (s.laneSound r.lane).tidy.freeSlot, set_ := r.set_, step := r.step, last := r.last, start := r.start,
    stepMa := r.stepMa, stepW := s.stepWatts r.lane r.stepMa, length := r.length, capture := r.capture,
    partnerRole := r.partnerRole, partnerEpoch := r.partnerEpoch, entry := e }
/-- The table entry of that step: disabled, and at START. -/
def State.newEntry (s : State) (r : SoundReq) : TideEntry :=
  { position := r.start, kind := 4, arg0 := r.lane, arg1 := (s.laneSound r.lane).tidy.freeSlot }
/-- The module with that step placed, before its READY goes out. -/
def State.stepPlaced (s : State) (r : SoundReq) (e : Nat) : State :=
  (s.slackExit.writeEntry e (s.newEntry r)).setLaneSound r.lane
    { (s.laneSound r.lane).tidy.joinSet r.set_ r.start with steps := (s.laneSound r.lane).tidy.steps ++ [s.newStep r e] }

theorem changes_stepPlaced (s : State) (r : SoundReq) (e : Nat) :
    Changes [.sound, .table, .power, .recorder] s (s.stepPlaced r e) :=
  (((slackExit_power s).1.mono (by decide)).trans ((changes_writeEntry _ e _).mono (by decide))).trans
    ((changes_setLaneSound _ r.lane _).mono (by decide))
theorem laneSound_stepPlaced (s : State) (r : SoundReq) (e : Nat) :
    ((s.stepPlaced r e).laneSound r.lane).steps = (s.laneSound r.lane).tidy.steps ++ [s.newStep r e] := by
  rw [State.stepPlaced, State.laneSound_setLaneSound_same]
theorem entry_stepPlaced (s : State) (r : SoundReq) (e : Nat) : (s.stepPlaced r e).entry e = s.newEntry r :=
  (Changes.entry (changes_setLaneSound _ r.lane _) (by decide) e).trans (entry_writeEntry_disabled rfl)

theorem soundSchedule_scheduled {s : State} {src : Source} {r : SoundReq} {e : Nat} (hr : Taken s src 0x0D01) (hn : r.lane < 8)
    (hset : r.set_ < 2 ^ 32) (hstep : r.step < 65536) (hstart : r.start < 2 ^ 64) (hkind : roleKind r.partnerRole = 2)
    (hepoch : r.partnerEpoch < 65536) (hforeign : s.ownRole r.partnerRole = none) (hfree : s.soundBlocked r.lane = none)
    (hbase : (baseIndex s.baseB r.start).isSome = true) (htime : s.pos + 10 * 65536 ≤ r.start)
    (hover : s.stepOverlaps r.lane r = false) (hsettled : s.tideSettled = true) (hrange : stepRange (s.lane r.lane).rated r = true)
    (he : s.freeEntry s.usedEntries = some e) : ∃ u, exec (.soundSchedule src r) s = .next u ∧ StepScheduled s u src r e := by
  have placed := changes_stepPlaced s r e
  have sent : Changes [.net, .out] (s.stepPlaced r e) ((s.stepPlaced r e).sendSound r.lane (s.newStep r e) 1 0) :=
    changes_sendSound_foreign _ _ _ ((ownRole_of_net (placed .net (by decide)) _).trans hforeign)
  have done : scheduleDo r s = ok ((s.stepPlaced r e).sendSound r.lane (s.newStep r e) 1 0) := by
    unfold scheduleDo
    refine (checked_of_all _ ?_).trans (by rw [he]; rfl)
    have hset' : r.set_ < 4294967296 := hset
    have hstart' : r.start < 18446744073709551616 := hstart
    simp [hn, hset', hstep, hstart', hkind, hepoch, hfree, hbase, htime, hover, hsettled, hrange, he]
  have hall : Changes [.sound, .table, .power, .recorder, .net, .out] s ((s.stepPlaced r e).sendSound r.lane (s.newStep r e) 1 0) :=
    (placed.mono (by decide)).trans (sent.mono (by decide))
  rw [exec_soundSchedule, execSoundSchedule]
  refine taken_imp hr (by decide) done (hall .mbox (by decide)) (hall .clock (by decide)) fun u hans => ⟨_, hans, ?_, ?_, hall⟩
  · rw [sent.laneSound (by decide), laneSound_stepPlaced]
    rfl
  · rw [sent.entry (by decide), entry_stepPlaced]
    rfl

/-! ### Steps on their way to their ends (07 R206, R208, R209) -/

/-- What a step keeps until it is gone: its slot and its set, its phase but for its end, and the mark that ends it at the next
alignment instant. -/
structure SoundStep.Onward (a b : SoundStep) : Prop where
  slot : b.slot = a.slot
  set_ : b.set_ = a.set_
  phase : b.phase = a.phase ∨ b.phase = .ended
  align : a.endAtAlign = true → b.endAtAlign = true

theorem SoundStep.Onward.refl (a : SoundStep) : a.Onward a := ⟨rfl, rfl, .inl rfl, id⟩
theorem SoundStep.Onward.trans {a b c : SoundStep} (h : a.Onward b) (g : b.Onward c) : a.Onward c where
  slot := g.slot.trans h.slot
  set_ := g.set_.trans h.set_
  phase := g.phase.elim (fun hp => h.phase.imp hp.trans hp.trans) .inr
  align := g.align ∘ h.align

/-- Every step that a lane has was there before, on its way. -/
def StepsOnward (s t : State) : Prop := ∀ n, ∀ b ∈ (t.laneSound n).steps, ∃ a ∈ (s.laneSound n).steps, a.Onward b

theorem StepsOnward.trans {s t u : State} (h : StepsOnward s t) (g : StepsOnward t u) : StepsOnward s u := by
  intro n c hc
  obtain ⟨b, hb, hbc⟩ := g n c hc
  obtain ⟨a, ha, hab⟩ := h n b hb
  exact ⟨a, ha, hab.trans hbc⟩
theorem stepsOnward_of_laneSound {s t : State} (h : ∀ n, t.laneSound n = s.laneSound n) : StepsOnward s t :=
  fun n b hb => ⟨b, by rwa [← h n], .refl b⟩
theorem Changes.stepsOnward {ps : List Part} {s t : State} (h : Changes ps s t) (hp : .sound ∉ ps) : StepsOnward s t :=
  stepsOnward_of_laneSound (h.laneSound hp)
theorem stepsOnward_setLaneSound {s : State} {n : Nat} {x : LaneSound}
    (h : ∀ b ∈ x.steps, ∃ a ∈ (s.laneSound n).steps, a.Onward b) : StepsOnward s (s.setLaneSound n x) := by
  intro m b hb
  by_cases hm : m = n
  · subst hm
    rw [State.laneSound_setLaneSound_same] at hb
    exact h b hb
  · rw [State.laneSound_setLaneSound_ne s x hm] at hb
    exact ⟨b, hb, .refl b⟩
theorem stepsOnward_mapSteps (s : State) (n : Nat) {f : SoundStep → SoundStep} (hf : ∀ a, SoundStep.Onward a (f a)) :
    StepsOnward s (s.updLaneSound n fun x => x.mapSteps f) := by
  refine stepsOnward_setLaneSound fun b hb => ?_
  obtain ⟨a, ha, rfl⟩ := List.mem_map.1 hb
  exact ⟨a, ha, hf a⟩
theorem stepsOnward_updStep (s : State) (n slot : Nat) {f : SoundStep → SoundStep} (hf : ∀ a, SoundStep.Onward a (f a)) :
    StepsOnward s (s.updStep n slot f) := by
  refine stepsOnward_mapSteps s n fun a => ?_
  split
  · exact hf a
  · exact .refl a

/-- A step that is over. -/
def SoundStep.over (outcome : Nat) (x : SoundStep) : SoundStep :=
  { x with phase := .ended, outcome := outcome, endedEarly := x.endedEarly || outcome != ocComplete }

/-- Of the steps of the lanes, the end of one changes those of its slot alone. -/
theorem steps_stepEnded (s : State) (n : Nat) (a : SoundStep) (outcome m : Nat) :
    ((s.stepEnded n a outcome).laneSound m).steps = ((s.updStep n a.slot (SoundStep.over outcome)).laneSound m).steps := by
  unfold State.stepEnded
  extract_lets s1 s2 s3 s4
  have h2 : s2.laneSound m = s1.laneSound m := by
    simp only [s2]
    split
    · exact (changes_writeEntry s1 a.entry {}).laneSound (by decide) m
    · rfl
  have h3 : s3.laneSound m = s2.laneSound m := by
    simp only [s3]
    split
    · exact (changes_captureOff s2 n).laneSound (by decide) m
    · rfl
  have h4 : (s4.laneSound m).steps = (s3.laneSound m).steps := by
    simp only [s4]
    split
    · rw [State.endedResults, State.updLaneSound_eq]
      by_cases hm : m = n
      · rw [hm, State.laneSound_setLaneSound_same]
      · rw [State.laneSound_setLaneSound_ne _ _ hm]
    · rfl
  rw [(changes_event _ _ _ _ _ _ _ _ _ _ _ _).laneSound (by decide), h4, h3, h2]
  rfl
theorem steps_updStep_same (s : State) (n slot : Nat) (f : SoundStep → SoundStep) : ((s.updStep n slot f).laneSound n).steps =
    (s.laneSound n).steps.map fun a => if a.slot == slot && a.phase != .ended then f a else a := by
  rw [State.updStep, State.updLaneSound_eq, State.laneSound_setLaneSound_same, LaneSound.mapSteps]
/-- After a change to the steps of a slot, each of them has ended before or has been changed. -/
theorem ended_or_changed_of_updStep {s : State} {n slot : Nat} {f : SoundStep → SoundStep} {b : SoundStep}
    (hb : b ∈ ((s.updStep n slot f).laneSound n).steps) (hslot : b.slot = slot) : b.phase = .ended ∨ ∃ x, b = f x := by
  rw [steps_updStep_same] at hb
  obtain ⟨x, -, rfl⟩ := List.mem_map.1 hb
  by_cases hx : (x.slot == slot && x.phase != .ended) = true
  · exact .inr ⟨x, if_pos hx⟩
  · rw [if_neg hx] at hslot ⊢
    exact .inl (by simpa [hslot] using hx)

theorem stepsOnward_stepEnded (s : State) (n : Nat) (a : SoundStep) (outcome : Nat) : StepsOnward s (s.stepEnded n a outcome) := by
  intro m b hb
  rw [steps_stepEnded] at hb
  exact stepsOnward_updStep s n a.slot (f := SoundStep.over outcome) (fun _ => ⟨rfl, rfl, .inr rfl, id⟩) m b hb
theorem phase_of_stepEnded {s : State} {n : Nat} {a b : SoundStep} {outcome : Nat}
    (hb : b ∈ ((s.stepEnded n a outcome).laneSound n).steps) (hslot : b.slot = a.slot) : b.phase = .ended := by
  rw [steps_stepEnded] at hb
  rcases ended_or_changed_of_updStep hb hslot with h | ⟨x, rfl⟩
  · exact h
  · rfl

theorem onward_readyMeets (pos : Nat) (m : SoundMsg) (other : Bool) (a : SoundStep) : a.Onward (readyMeets pos m other a) := by
  unfold readyMeets
  extract_lets same
  split_ifs
  · exact ⟨rfl, rfl, .inl rfl, id⟩
  · exact ⟨rfl, rfl, .inl rfl, id⟩
  · exact .refl a
theorem stepsOnward_sendSoundOut (s : State) (n : Nat) (a : SoundStep) (kind reason : Nat) :
    StepsOnward s (s.sendSoundOut n a kind reason) := (changes_sendSoundOut_message s n a kind reason).stepsOnward (by decide)
theorem stepsOnward_soundArrives (s : State) (n : Nat) (m : SoundMsg) : StepsOnward s (s.soundArrives n m) := by
  have ended (a : SoundStep) : StepsOnward s (s.stepEnded n a ocPartnerEnded) := stepsOnward_stepEnded s n a _
  fun_cases State.soundArrives s n m
  case case1 => exact stepsOnward_mapSteps s n (onward_readyMeets _ m _)
  case case2 => exact stepsOnward_of_laneSound fun _ => rfl
  case case3 => exact stepsOnward_updStep s n _ fun _ => ⟨rfl, rfl, .inl rfl, id⟩
  case case4 => exact stepsOnward_updStep s n _ fun _ => ⟨rfl, rfl, .inl rfl, fun _ => rfl⟩
  case case5 => exact ended _
  case case6 => exact (ended _).trans (stepsOnward_sendSoundOut _ _ _ _ _)
  case case7 => exact stepsOnward_of_laneSound fun _ => rfl
theorem stepsOnward_sendSound (s : State) (n : Nat) (a : SoundStep) (kind reason : Nat) :
    StepsOnward s (s.sendSound n a kind reason) := by
  fun_cases State.sendSound s n a kind reason
  · exact stepsOnward_soundArrives s _ _
  · exact stepsOnward_sendSoundOut s _ _ _ _

/-- What SOUND.CANCEL leaves of a step of a lane: neither waiting, nor running past the next alignment instant. -/
def SoundStep.Dealt (b : SoundStep) : Prop :=
  b.phase ≠ .scheduled ∧ b.phase ≠ .enabled ∧ (b.phase = .running → b.endAtAlign = true)
/-- What became of the steps in the slot of a step: they have ended, or it was running and they end at the next alignment instant. -/
def SlotDealt (n : Nat) (a : SoundStep) (t : State) : Prop :=
  ∀ b ∈ (t.laneSound n).steps, b.slot = a.slot → b.phase = .ended ∨ a.phase = .running ∧ b.endAtAlign = true

theorem SlotDealt.onward {n : Nat} {a : SoundStep} {t u : State} (h : SlotDealt n a t) (g : StepsOnward t u) : SlotDealt n a u := by
  intro b hb hslot
  obtain ⟨x, hx, hxb⟩ := g n b hb
  refine (h x hx (hxb.slot.symm.trans hslot)).imp (fun hended => ?_) fun hrun => ⟨hrun.1, hxb.align hrun.2⟩
  exact hxb.phase.elim (fun hp => hp.trans hended) id
/-- A step on its way from one that was dealt with is dealt with. -/
theorem SoundStep.Onward.dealt {a b : SoundStep} (h : a.Onward b)
    (hb : (a.phase = .scheduled ∨ a.phase = .enabled ∨ a.phase = .running) →
      b.phase = .ended ∨ a.phase = .running ∧ b.endAtAlign = true) :
    b.Dealt := by
  unfold SoundStep.Dealt
  rcases h.phase with hp | hp
  · rw [hp] at hb ⊢
    cases ha : a.phase <;> simp_all
  · simp [hp]

/-- What ending the steps of a lane does with one of them (`State.endSteps` is its fold). -/
def State.endStep (n outcome : Nat) (z : State) (a : SoundStep) : State :=
  if a.phase == .running then
    (z.updStep n a.slot fun x => { x with endAtAlign := true, outcome := outcome, endedEarly := true }).sendSound n a 3 outcome
  else if a.phase == .scheduled || a.phase == .enabled then z.abandonStep n a outcome
  else z

theorem stepsOnward_endStep (n outcome : Nat) (z : State) (a : SoundStep) : StepsOnward z (z.endStep n outcome a) := by
  unfold State.endStep
  split
  · refine StepsOnward.trans (stepsOnward_updStep z n a.slot ?_) (stepsOnward_sendSound _ _ _ _ _)
    exact fun _ => ⟨rfl, rfl, .inl rfl, fun _ => rfl⟩
  · split
    · exact (stepsOnward_stepEnded z n a outcome).trans (stepsOnward_sendSound _ _ _ _ _)
    · exact stepsOnward_of_laneSound fun _ => rfl
theorem slotDealt_endStep (n outcome : Nat) (z : State) {a : SoundStep}
    (ha : a.phase = .scheduled ∨ a.phase = .enabled ∨ a.phase = .running) : SlotDealt n a (z.endStep n outcome a) := by
  unfold State.endStep
  split
  next hrun =>
    refine SlotDealt.onward (fun b hb hslot => ?_) (stepsOnward_sendSound _ _ _ _ _)
    rcases ended_or_changed_of_updStep hb hslot with h | ⟨x, rfl⟩
    · exact .inl h
    · exact .inr ⟨by simpa using hrun, rfl⟩
  next hrun =>
    have hwaits : a.phase ≠ .running := by simpa using hrun
    rw [if_pos (by simpa [hwaits] using ha)]
    exact SlotDealt.onward (fun b hb hslot => .inl (phase_of_stepEnded hb hslot)) (stepsOnward_sendSound _ _ _ _ _)

theorem stepsOnward_endAll (n outcome : Nat) (l : List SoundStep) (s : State) : StepsOnward s (l.foldl (State.endStep n outcome) s) :=
  List.foldlRecOn (motive := StepsOnward s) _ _ (stepsOnward_of_laneSound fun _ => rfl)
    fun z hz a _ => hz.trans (stepsOnward_endStep n outcome z a)
theorem slotDealt_endAll (n outcome : Nat) (l : List SoundStep) (s : State) {a : SoundStep} (hmem : a ∈ l)
    (ha : a.phase = .scheduled ∨ a.phase = .enabled ∨ a.phase = .running) : SlotDealt n a (l.foldl (State.endStep n outcome) s) := by
  induction l generalizing s with
  | nil => exact absurd hmem List.not_mem_nil
  | cons x r ih =>
    rw [List.foldl_cons]
    rcases List.mem_cons.1 hmem with rfl | hr
    · exact (slotDealt_endStep n outcome s ha).onward (stepsOnward_endAll n outcome r _)
    · exact ih _ hr

/-- Of the steps that are ended none waits, and a running one ends at the next alignment instant. -/
theorem endSteps_dealt (s : State) (n outcome : Nat) {p : SoundStep → Bool}
    (hp : ∀ a b : SoundStep, a.Onward b → p b = true → p a = true) {b : SoundStep}
    (hb : b ∈ ((s.endSteps n outcome p).laneSound n).steps) (hpb : p b = true) : b.Dealt := by
  have folded : s.endSteps n outcome p = ((s.laneSound n).steps.filter p).foldl (State.endStep n outcome) s := rfl
  rw [folded] at hb
  obtain ⟨a, ha, hab⟩ := stepsOnward_endAll n outcome _ s n b hb
  exact hab.dealt fun hphase =>
    slotDealt_endAll n outcome _ s (List.mem_filter.2 ⟨ha, hp a b hab hpb⟩) hphase b hb hab.slot

/-! ### SOUND.CANCEL (07 R209, R231) -/

/-- A step that SOUND.CANCEL names: of the set, and of the number that it may give. -/
def SoundStep.namedBy (k : Nat) (j : Option Nat) (a : SoundStep) : Bool :=
  a.set_ == k && (match j with | none => true | some j => a.step == j)

section
variable {s : State} {src : Source} {n k : Nat}

/-- A cancel is answered at once. -/
theorem soundCancel_imp {Q : State → Prop} (j : Option Nat) (hr : Taken s src 0x0D02) (hn : n < 8)
    (hQ : ∀ u, Answered s u src 0x0D02 [] (s.endSteps n ocCancelled (SoundStep.namedBy k j)) → Q u) :
    ∃ u, exec (.soundCancel src n k j) s = .next u ∧ Q u := by
  have hall := changes_endSteps s n ocCancelled (SoundStep.namedBy k j)
  rw [exec_soundCancel, execSoundCancel]
  exact taken_imp hr (by decide) (checked_of_all _ (by simp [hn])) (hall .mbox (by decide)) (hall .clock (by decide)) hQ

theorem soundCancel_set (hr : Taken s src 0x0D02) (hn : n < 8) : ∃ u, exec (.soundCancel src n k none) s = .next u ∧
    ∃ z, Answered s u src 0x0D02 [] z ∧ (∀ a ∈ (z.laneSound n).steps, a.set_ = k → a.Dealt) ∧ Changes stepParts s z := by
  refine soundCancel_imp none hr hn fun u hans => ⟨_, hans, fun a ha hk => ?_, changes_endSteps s n _ _⟩
  have named (x : SoundStep) : x.namedBy k none = (x.set_ == k) := by simp [SoundStep.namedBy]
  exact endSteps_dealt s n ocCancelled (fun x y hxy hy => by rwa [named, ← hxy.set_, ← named]) ha (by simp [named, hk])

/-- The end of a scheduled step of a lane that has no other: its entry is freed. -/
theorem stepEnded_scheduled {a : SoundStep} (hl : (s.laneSound n).steps = [a]) (ha : a.phase = .scheduled)
    (he : (s.entry a.entry).kind = 4) : ((s.stepEnded n a ocCancelled).laneSound n).steps =
      [{ a with phase := .ended, outcome := ocCancelled, endedEarly := true }] ∧ (s.stepEnded n a ocCancelled).entry a.entry = {} := by
  constructor
  · rw [steps_stepEnded, steps_updStep_same, hl]
    simp [ha, SoundStep.over]
  · have ended : s.stepEnded n a ocCancelled =
        ((s.updStep n a.slot (SoundStep.over ocCancelled)).freeEntryAt a.entry).event evSoundStepEnd 1 n (cause := ocCancelled) := by
      simp [State.stepEnded, ha, he]
      rfl
    rw [ended, (changes_event _ _ _ _ _ _ _ _ _ _ _ _).entry (by decide)]
    exact entry_writeEntry_disabled rfl

theorem soundCancel_step {a : SoundStep} {j : Nat} (hr : Taken s src 0x0D02) (hn : n < 8) (hl : (s.laneSound n).steps = [a])
    (hset : a.set_ = k) (hstep : a.step = j) (ha : a.phase = .scheduled) (he : (s.entry a.entry).kind = 4)
    (hforeign : s.ownRole a.partnerRole = none) : ∃ u, exec (.soundCancel src n k (some j)) s = .next u ∧
      ∃ z, Answered s u src 0x0D02 [] z ∧ (z.laneSound n).steps =
        [{ a with phase := .ended, outcome := ocCancelled, endedEarly := true }] ∧ z.entry a.entry = {} := by
  obtain ⟨hsteps, hentry⟩ := stepEnded_scheduled hl ha he
  have net : (s.stepEnded n a ocCancelled).net = s.net := changes_stepEnded s n a ocCancelled .net (by decide)
  have sent := changes_sendSound_foreign (a := a) n 3 ocCancelled ((ownRole_of_net net _).trans hforeign)
  have ends : s.endSteps n ocCancelled (SoundStep.namedBy k (some j)) = s.abandonStep n a ocCancelled := by
    simp [State.endSteps, SoundStep.namedBy, hl, hset, hstep, ha]
  refine soundCancel_imp (some j) hr hn fun u hans => ⟨s.abandonStep n a ocCancelled, ends ▸ hans, ?_, ?_⟩
  · rw [State.abandonStep, sent.laneSound (by decide), hsteps]
  · rw [State.abandonStep, sent.entry (by decide), hentry]

/-! ### SOUND.STATUS and SOUND.RESULT_READ (07 R217, R231) -/

/-- The fields of a SOUND.STATUS reply. -/
def LaneSound.statusFields (x : LaneSound) : List Field :=
  [f2 x.steps.length] ++ x.steps.flatMap (fun a => [f4 a.set_, f2 a.step, f1 (stepCode a.phase), f1 a.outcome]) ++
    [f2 x.openSets.length] ++ x.openSets.map fun o => f4 o.set_

theorem soundStatus_fields (hr : Taken s src 0x0D03) (hn : n < 8) : ∃ u, exec (.soundStatus src n) s = .next u ∧
    Answered s u src 0x0D03 (s.seen.laneSound n).statusFields s := by
  have passes : execSoundStatus src n s = runCommand src 0x0D03 (fun z => okWith z (z.laneSound n).statusFields) s :=
    congrArg (fun h => runCommand src 0x0D03 h s) (funext fun z => checked_of_all _ (by simp [hn]))
  rw [exec_soundStatus, passes]
  exact status_ok (fun z => (z.laneSound n).statusFields) hr

theorem soundResultRead_noFit {j p : Nat} {r : SoundRun} (hr : Taken s src 0x0D04) (hn : n < 8) (hp : p < 128)
    (hrun : (s.laneSound n).runs.find? (fun x => x.set_ == k && x.step == j && x.port == p) = some r)
    (hnone : tget [] (s.laneSound n).results p = []) : ∃ u, exec (.soundResultRead src n k j p) s = .next u ∧
      Answered s u src 0x0D04 ((List.range 18).map (fun c => .struct (soundBytes (noResult k j c))) ++
        [fi4 (r.mean.map roundA), fi4 (r.iRef.map roundA)]) s := by
  rw [exec_soundResultRead, execSoundResultRead]
  refine taken_ok hr (by decide) ?_ rfl rfl
  refine (checked_of_all _ (by simp [hn, hp, hrun])).trans ?_
  simp [hrun, hnone, okWith]

/-! ### SPRING.START and SPRING.STOP (07 R220, R223, R231) -/

/-- A spring tide that begins. -/
def Spring.started (p : Spring) (i j : Int) (cv h now : Nat) : Spring :=
  { p with
    phase := .charge, iChg := i, iDis := j, cvGain := cv, maxHours := h, startedAt := now, phaseAt := now, iK := i, margin := none
    taperSince := none, lowSince := none, gathering := false, outcome := 0, failCause := 0, counterOk := true }
/-- A cell whose endpoints have not been taken. -/
def Cell.endpointsDropped (k : Cell) : Cell :=
  { k with sFull := none, sEmpty := none, fullOk := false, qPart := 0, qWin := 0, qPrevWin := 0, noLearnSpring := false }
/-- The module with a spring tide of a lane begun. -/
def State.springBegun (s : State) (n : Nat) (i j : Int) (cv h : Nat) : State :=
  let z := s.slackExit.setSpring n ((s.spring n).started i j cv h s.now)
  z.updModelled (z.portsOf n) Cell.endpointsDropped

theorem springStart_started {c : LaneConfig} {cv h : Nat} {i j : Int} (hr : Taken s src 0x0E01) (hn : n < 8) (hcv1 : 1 ≤ cv)
    (hcv2 : cv ≤ 10000) (hh1 : 4 ≤ h) (hh2 : h ≤ 72) (hc : (s.lane n).cfg = some c) (hi : springCurrent c.rated i = true)
    (hj : springCurrent c.rated j = true) (hfrom : s.fromCoordinator src = true) (hfree : s.soundBlocked n = none)
    (hcap : (s.laneSound n).capturePending = false) :
    ∃ u, exec (.springStart src n i j cv h) s = .next u ∧ SpringStarted s u src n cv h i j := by
  have left := (slackExit_power s).1
  have hrated : (s.lane n).rated = c.rated := by rw [Lane.rated, hc]
  have hnow : s.slackExit.now = s.now := by rw [State.now, State.now, left .clock (by decide)]
  have done : springStartDo src n i j cv h s = ok (s.springBegun n i j cv h) := by
    unfold springStartDo
    refine (checked_of_all _ ?_).trans ?_
    · simp [hn, within, hcv1, hcv2, hh1, hh2, hrated, hi, hj, hfrom, hfree, hcap]
    · dsimp only
      rw [hnow, State.updSpring_eq, left.spring (by decide)]
      rfl
  have cells := changes_updModelled (s.slackExit.setSpring n ((s.spring n).started i j cv h s.now))
    ((s.slackExit.setSpring n ((s.spring n).started i j cv h s.now)).portsOf n) Cell.endpointsDropped
  have tide := changes_setSpring s.slackExit n ((s.spring n).started i j cv h s.now)
  have hall : Changes [.sound, .model, .power, .table, .recorder] s (s.springBegun n i j cv h) :=
    ((left.mono (by decide)).trans (tide.mono (by decide))).trans (cells.mono (by decide))
  have started : (s.springBegun n i j cv h).spring n = (s.spring n).started i j cv h s.now := by
    rw [State.springBegun, cells.spring (by decide), State.spring_setSpring_same]
  rw [exec_springStart, execSpringStart]
  refine taken_imp hr (by decide) done (hall .mbox (by decide)) (hall .clock (by decide)) fun u hans => ⟨_, hans, ?_⟩
  rw [started]
  refine ⟨rfl, rfl, rfl, rfl, rfl, rfl, rfl, fun m hm => ?_, fun m => ?_, hall⟩
  · rw [State.springBegun, cells.spring (by decide), State.spring_setSpring_ne _ _ hm, left.spring (by decide)]
  · rw [State.springBegun, cells.laneSound (by decide), State.laneSound_setSpring, left.laneSound (by decide)]

theorem springStop_failed (hr : Taken s src 0x0E02) (hn : n < 8) (hp : (s.spring n).profile.isSome = true)
    (hrun : (s.lane n).state = .run) : ∃ u, exec (.springStop src n) s = .next u ∧ ∃ z, Answered s u src 0x0E02 [] z ∧
      z.spring n = (s.spring n).failed scStopped s.now ∧ Only State.spring n [.sound, .recorder] s z := by
  have fails := springFail_run scStopped hp hrun
  have recorded := changes_event (s.setSpring n ((s.spring n).failed scStopped s.now)) evSpringFailed 1 n scStopped none none none
    none false false none
  rw [exec_springStop, execSpringStop]
  refine taken_imp (z := s.springFail n scStopped) hr (by decide) (checked_of_all _ (by simp [hn]))
    (changes_springFail s n _ .mbox (by decide)) (changes_springFail s n _ .clock (by decide)) fun u hans => ⟨_, hans, ?_, ?_⟩
  · rw [fails, recorded.spring (by decide), State.spring_setSpring_same]
  · rw [fails]
    exact ((onlySpring_setSpring s n _).mono (by decide)).trans ((recorded.onlySpring (by decide) n).mono (by decide))

/-! ### SPRING.STATUS and the roster (07 R228, R231) -/

/-- The fields of a SPRING.STATUS reply. -/
def State.springStatusFields (z : State) (n : Nat) : List Field :=
  let p := z.spring n
  let cells := (z.portsOf n).flatMap fun q => (z.modelled q).map fun c => z.cell (cellIx q c)
  [f1 (springCode p.phase), .s 4 p.iK, f8 (z.statusNow - p.phaseAt), ft p.lastCompleteAt, f1 p.outcome, f1 p.failCause,
    f2 cells.length] ++ cells.flatMap fun k => [socField k.sFull, socField k.sEmpty]

theorem springStatus_fields (hr : Taken s src 0x0E03) (hn : n < 8) : ∃ u, exec (.springStatus src n) s = .next u ∧
    Answered s u src 0x0E03 (s.seen.springStatusFields n) s := by
  have passes : execSpringStatus src n s = runCommand src 0x0E03 (fun z => okWith z (z.springStatusFields n)) s :=
    congrArg (fun h => runCommand src 0x0E03 h s) (funext fun z => checked_of_all _ (by simp [hn]))
  rw [exec_springStatus, passes]
  exact status_ok (fun z => z.springStatusFields n) hr
/-- A lane without a configuration has no cells to report. -/
theorem springStatusFields_unconfigured (h : (s.lane n).cfg = none) : s.springStatusFields n =
    [f1 (springCode (s.spring n).phase), .s 4 (s.spring n).iK, f8 (s.statusNow - (s.spring n).phaseAt), ft (s.spring n).lastCompleteAt,
      f1 (s.spring n).outcome, f1 (s.spring n).failCause, f2 0] := by
  have noPorts : s.portsOf n = [] := by rw [State.portsOf, h]
  simp [State.springStatusFields, noPorts]

theorem springRosterSet_set {k d : Nat} (hr : Taken s src 0x0E04) (hk1 : 1 ≤ k) (hk2 : k ≤ 200) (hd1 : 30 ≤ d) (hd2 : d ≤ 730)
    (hcoord : s.isCoordinator = true) : ∃ u, exec (.springRosterSet src k d) s = .next u ∧ ∃ z, Answered s u src 0x0E04 [] z ∧
      z.sound = { s.sound with roster := { s.sound.roster with share := k, interval := d } } ∧ Changes [.sound] s z := by
  rw [exec_springRosterSet, execSpringRosterSet]
  exact taken_imp hr (by decide) (checked_of_all _ (by simp [within, hk1, hk2, hd1, hd2, hcoord])) rfl rfl fun u hans =>
    ⟨_, hans, rfl, changes_sound s _⟩

theorem springRosterRead_read (hr : Taken s src 0x0E05) (hcoord : s.isCoordinator = true) :
    ∃ u, exec (.springRosterRead src) s = .next u ∧ RosterRead s u src := by
  rw [exec_springRosterRead, execSpringRosterRead]
  exact taken_ok hr (by decide) (checked_of_all _ (by simp [hcoord])) rfl rfl

end

/-- Settles O22: one lemma for each command. -/
theorem soundAndSpringCommandsComplete : Obligations.SoundAndSpringCommandsComplete := by
  intro s z src e n k cv h d a x i c
  refine ⟨?schedule, soundCancel_set, fun _ => soundCancel_step, ?status, fun _ _ _ => soundResultRead_noFit, ?start,
    springStop_failed, ?springStatus, springRosterSet_set, springRosterRead_read⟩
  case schedule =>
    intro r hr hn hset hstep hstart hkind hepoch hforeign hfree hbase htime hover hsettled hrange he
    exact soundSchedule_scheduled hr hn hset hstep hstart hkind hepoch hforeign hfree hbase htime (by simpa using hover) hsettled hrange he
  case status =>
    rintro hr hn rfl rfl
    exact soundStatus_fields hr hn
  case start =>
    intro j hr hn hcv1 hcv2 hh1 hh2 hc hi hj hfrom hfree hcap
    exact springStart_started hr hn hcv1 hcv2 hh1 hh2 hc hi hj hfrom hfree (by simpa using hcap)
  case springStatus =>
    rintro p hr hn rfl rfl hcfg
    rw [← springStatusFields_unconfigured hcfg]
    exact springStatus_fields hr hn

end Sys2Proof.Machine
end

