-- ==== Sys2Proof/Proofs/PositionWraps.lean ====
section
/-! PROOF. A sounding step that is decided as the tide position passes 2 ^ 64 (O23): its entry is marked expired when it is enabled. -/

namespace Sys2Proof.Machine

open Sys2Proof
set_option Elab.async false

/-- A step of 1 A at START 2 * 65536, without capture, whose partner on another module has answered with the same power taken up. -/
def wrapStep : SoundStep :=
  { set_ := 4, step := 1, start := 2 * 65536, stepMa := 1000, stepW := 100, length := 10, partnerRole := 0x20000009,
    partnerEpoch := 1, entry := 60, readyOk := true, partnerW := -100 }

/-- A module whose tide position comes to 2 ^ 64, and so to 0, at 100 s, with that step scheduled on lane 0, which it holds ACTIVE and
in RUN; its tide and its servo are settled. -/
def positionWraps : State :=
  { State.reset with
    clock := { State.reset.clock with ns := 100000000000 }
    servo := { State.reset.servo with state := .locked, lockedSince := some 0 }
    tide := { State.reset.tide with
      quality := .lockedTwo, freqUhz := 60000000, anchorNs := 99000000000, anchorPos := 2 ^ 64 - 60 * 65536 }
    net := { State.reset.net with own := [{ role := 0x20000005, state := .active, epoch := 1 }] }
    lanes := [(0, { state := .run })]
    sound := { State.reset.sound with lanes := [(0, { steps := [wrapStep] })] }
    table := { State.reset.table with entries := [(60, { kind := 4, position := 2 * 65536 })] } }

/-- A message header; the decision of a step reads none. -/
def noHead : GHead :=
  { typ := 0, reliable := false, reply := false, newStream := false, lanB := false, srcBerth := 0, dstBerth := 0, srcRole := 0,
    srcEpoch := 0, length := 0, targetRole := 0, targetEpoch := 0, corr := 0, sequence := 0, ackSeq := 0, srcKey := 0 }
/-- A SOUND message; the decision of a step reads none. -/
def noSound : SoundMsg :=
  { kind := 0, reason := 0, set_ := 0, step := 0, length := 0, source := 0, start := 0, stepMa := 0, stepW := 0, laneRole := 0,
    laneEpoch := 0 }

/-- The mark of entry 60 in the state that an outcome leaves. -/
def entryExpired : Host.Outcome State Fault Refusal → Option Bool
  | .next u => some (u.entry 60).expired
  | _ => none

theorem entryExpired_soundDecision : entryExpired (exec (.soundDecision 100000000000 0) positionWraps) = some true := by
  decide +kernel

/-- Refutes O23: a step decided as the tide position passes 2 ^ 64 has its entry enabled and EXPIRED at once. The clause asks that START
lie ahead of the position modulo 2 ^ 64 (00 R8), here 0; the write of the entry compares START with the tide position that is not
reduced, here 2 ^ 64 (02 R72). -/
theorem not_soundingEventsComplete : ¬ Obligations.SoundingEventsComplete := by
  intro h
  obtain ⟨-, -, -, -, decision, -⟩ := h positionWraps positionWraps 100000000000 0 0 0 0 wrapStep .a noHead noSound {}
  obtain ⟨u, hu, -, hentry, -⟩ := decision (by decide) (by decide +kernel) rfl rfl (by decide +kernel) rfl (by decide)
    (by decide +kernel) (by decide +kernel) rfl (by decide +kernel)
  have hexpired := entryExpired_soundDecision
  rw [hu, entryExpired, show (60 : Nat) = wrapStep.entry from rfl, hentry] at hexpired
  exact absurd hexpired (by decide)

end Sys2Proof.Machine
end

