-- ==== Sys2Proof/Proofs/ThermalParts.lean ====
section
/-! PROOF. One record of the thermal part at a time: what reading it gives after a write to it or to another, and the operations that
move nothing of the part but the pump outputs. A lane's trip is among them: a request that it displaces gives no heat-sink value. -/

namespace Sys2Proof.Machine

open Sys2Proof
set_option Elab.async false

/-! ### Reading the thermal part -/

theorem laneTherm_of_therm {s t : State} (h : t.therm = s.therm) (n : Nat) : t.laneTherm n = s.laneTherm n := by
  rw [State.laneTherm, h, ← State.laneTherm]
theorem balPort_of_therm {s t : State} (h : t.therm = s.therm) (p : Nat) : t.balPort p = s.balPort p := by
  rw [State.balPort, h, ← State.balPort]
theorem sensor_of_therm {s t : State} (h : t.therm = s.therm) (i : Nat) : t.sensor i = s.sensor i := by
  rw [State.sensor, h, ← State.sensor]
theorem coolLoop_of_therm {s t : State} (h : t.therm = s.therm) (k : Nat) : t.coolLoop k = s.coolLoop k := by
  rw [State.coolLoop, h, ← State.coolLoop]
theorem aux_of_therm {s t : State} (h : t.therm = s.therm) (k : Nat) : t.aux k = s.aux k := by
  rw [State.aux, h, ← State.aux]

theorem laneTherm_atTime (s : State) (t n : Nat) : (s.atTime t).laneTherm n = s.laneTherm n := laneTherm_of_therm (therm_atTime s t) n
theorem balPort_atTime (s : State) (t p : Nat) : (s.atTime t).balPort p = s.balPort p := balPort_of_therm (therm_atTime s t) p
theorem sensor_atTime (s : State) (t i : Nat) : (s.atTime t).sensor i = s.sensor i := sensor_of_therm (therm_atTime s t) i
theorem coolLoop_atTime (s : State) (t k : Nat) : (s.atTime t).coolLoop k = s.coolLoop k := coolLoop_of_therm (therm_atTime s t) k
theorem Settled.therm {z u : State} (h : Settled z u) : u.therm = z.therm := h.changes .therm (by decide)

/-! ### One record alone -/

theorem changes_setLaneTherm (s : State) (n : Nat) (x : LaneTherm) : Changes [.therm] s (s.setLaneTherm n x) := changes_therm s _
theorem onlyLaneTherm_setLaneTherm (s : State) (n : Nat) (x : LaneTherm) : Only State.laneTherm n [.therm] s (s.setLaneTherm n x) :=
  ⟨fun _ hj => State.laneTherm_setLaneTherm_ne s x hj, changes_therm s _⟩
theorem onlyBalPort_setBalPort (s : State) (p : Nat) (x : BalPort) : Only State.balPort p [.therm] s (s.setBalPort p x) :=
  ⟨fun _ hj => State.balPort_setBalPort_ne s x hj, changes_therm s _⟩
theorem onlyCoolLoop_setCoolLoop (s : State) (k : Nat) (x : CoolLoop) : Only State.coolLoop k [.therm] s (s.setCoolLoop k x) :=
  ⟨fun _ hj => State.coolLoop_setCoolLoop_ne s x hj, changes_therm s _⟩
theorem onlyAux_setAux (s : State) (k : Nat) (x : AuxPwm) : Only State.aux k [.therm] s (s.setAux k x) :=
  ⟨fun _ hj => State.aux_setAux_ne s x hj, changes_therm s _⟩

theorem aux_auxValue_some (s : State) (k d : Nat) : (s.auxValue k (some d)).aux k = { s.aux k with duty := d, safe := false } :=
  State.aux_setAux_same s k _
theorem aux_auxValue_none (s : State) (k : Nat) :
    (s.auxValue k none).aux k = { s.aux k with duty := (s.aux k).safeDuty, safe := true } := State.aux_setAux_same s k _
theorem onlyAux_auxValue (s : State) (k : Nat) (v : Option Nat) : Only State.aux k [.therm] s (s.auxValue k v) := onlyAux_setAux s k _

/-- What an event does to one object from the time it carries on, its interrupt bits included. -/
theorem Settled.only {α : Type} {f : State → Nat → α} {s z u : State} {t k : Nat} {ps qs : List Part} (h : Settled z u)
    (hz : Only f k ps (s.atTime t) z) (hs : ∀ q ∈ .clock :: .mbox :: ps, q ∈ qs) (before : ∀ j, f (s.atTime t) j = f s j)
    (after : ∀ j, f u j = f z j) : Only f k qs s u := by
  refine ⟨fun j hj => (after j).trans ((hz.1 j hj).trans (before j)), ?_⟩
  refine ((atTime_changes s t).mono fun q hq => hs q (by simp_all)).trans ?_
  exact (hz.2.mono fun q hq => hs q (by simp_all)).trans (h.changes.mono fun q hq => hs q (by simp_all))

/-! ### Nothing but the pump outputs -/

/-- From `s` to `t` nothing of the thermal part differs but what the pump outputs drive; each keeps its source. -/
structure PumpsAlone (s t : State) : Prop where
  therm : t.therm = { s.therm with aux := t.therm.aux }
  source : ∀ k, (t.aux k).source = (s.aux k).source

theorem PumpsAlone.of_therm {s t : State} (h : t.therm = s.therm) : PumpsAlone s t := ⟨by rw [h], fun k => by rw [aux_of_therm h]⟩
theorem PumpsAlone.refl (s : State) : PumpsAlone s s := .of_therm rfl
theorem PumpsAlone.trans {s t u : State} (h : PumpsAlone s t) (g : PumpsAlone t u) : PumpsAlone s u :=
  ⟨g.therm.trans (by rw [h.therm]), fun k => (g.source k).trans (h.source k)⟩
theorem Changes.pumpsAlone {ps : List Part} {s t : State} (h : Changes ps s t) (hp : .therm ∉ ps) : PumpsAlone s t :=
  .of_therm (h .therm hp)
theorem PumpsAlone.ite {s t u : State} {c : Prop} [Decidable c] (h : PumpsAlone s t) (k : PumpsAlone s u) :
    PumpsAlone s (if c then t else u) := by
  split
  · exact h
  · exact k
theorem pumpsAlone_foldl {α : Type} {f : State → α → State} (h : ∀ z x, PumpsAlone z (f z x)) (l : List α) (s : State) :
    PumpsAlone s (l.foldl f s) :=
  List.foldlRecOn (motive := fun z => PumpsAlone s z) _ _ (.refl s) fun z hz x _ => hz.trans (h z x)

theorem PumpsAlone.laneTherm {s t : State} (h : PumpsAlone s t) (n : Nat) : t.laneTherm n = s.laneTherm n := by
  rw [State.laneTherm, h.therm]
  rfl
theorem PumpsAlone.coolLoop {s t : State} (h : PumpsAlone s t) (k : Nat) : t.coolLoop k = s.coolLoop k := by
  rw [State.coolLoop, h.therm]
  rfl
theorem PumpsAlone.die {s t : State} (h : PumpsAlone s t) : t.therm.die = s.therm.die := by rw [h.therm]

theorem pumpsAlone_auxValue (s : State) (k : Nat) (v : Option Nat) : PumpsAlone s (s.auxValue k v) := by
  refine ⟨rfl, fun j => ?_⟩
  by_cases hj : j = k
  · subst hj
    cases v with
    | none => rw [aux_auxValue_none]
    | some d => rw [aux_auxValue_some]
  · rw [(onlyAux_auxValue s k v).1 j hj]

/-! ### Signals (08 R247) -/

theorem pumpsAlone_followSignal (s : State) (h : Nat) : PumpsAlone s (s.followSignal h) := by
  unfold State.followSignal
  extract_lets v code s1
  clear_value code
  have dacs : PumpsAlone s s1 := by
    refine pumpsAlone_foldl (fun z k => ?_) _ s
    split
    · split
      · exact .of_therm rfl
      · split <;> exact .of_therm rfl
    · exact .refl z
  refine dacs.trans (pumpsAlone_foldl (fun z k => ?_) _ s1)
  split
  · exact pumpsAlone_auxValue z k code
  · exact .refl z
theorem pumpsAlone_moduleSignal (s : State) (h typ : Nat) (v : Option Int) : PumpsAlone s (s.moduleSignal h typ v) := by
  unfold State.moduleSignal State.publishLocal
  exact (PumpsAlone.of_therm (State.therm_setSigLocal s h _)).trans (pumpsAlone_followSignal _ h)
theorem pumpsAlone_signalOf (s : State) (what obj typ : Nat) (v : Int) : PumpsAlone s (s.signalOf what obj typ v) :=
  pumpsAlone_moduleSignal s _ typ _

/-! ### Records and their consumers (04 R119) -/

@[simp] theorem therm_formReference (s : State) (n : Nat) : (s.formReference n).therm = s.therm := by
  fun_cases State.formReference s n <;> rfl
@[simp] theorem therm_stringPeriod (s : State) (n : Nat) (dropped : Bool) : (s.stringPeriod n dropped).therm = s.therm := by
  fun_cases State.stringPeriod s n dropped <;> simp
@[simp] theorem therm_strobeSample (s : State) (n tag hold : Nat) (v : Option Int) :
    (s.strobeSample n tag hold v).therm = s.therm := by
  fun_cases State.strobeSample s n tag hold v <;> rfl
@[simp] theorem therm_armWatch (s : State) (n : Nat) : (s.armWatch n).therm = s.therm := by fun_cases State.armWatch s n <;> rfl
@[simp] theorem therm_sendLoop (s : State) (n updated : Nat) : (s.sendLoop n updated).therm = s.therm := by
  fun_cases State.sendLoop s n updated <;> rfl
@[simp] theorem therm_pwmRecord (s : State) (r : Result) : (s.pwmRecord r).therm = s.therm := by
  fun_cases State.pwmRecord s r <;> simp
/-- No answer touches the thermal part, not even one that is discarded at the reset of its mailbox. -/
theorem therm_answer (s : State) (src : Source) (code status : Nat) (payload : List Field) :
    (s.answer src code status payload).therm = s.therm := by
  cases h : (s.box src.path src.box).resetPending with
  | false => exact (envelope_answer src s code status payload h).rest .therm (by cases src.path <;> decide)
  | true =>
    unfold State.answer
    dsimp only
    rw [if_pos h]
    cases src.path <;> rfl
theorem therm_consume (s : State) (r : Result) (c : Conversion) (source : Nat) : (s.consume r c source).therm = s.therm := by
  have answers (l : List Source) (st : Nat) : (l.foldl (fun z q => z.answer q 0x0704 st [.struct r.bytes]) s).therm = s.therm :=
    List.foldlRecOn (motive := fun z : State => z.therm = s.therm) _ _ rfl fun z hz q _ => (therm_answer z q _ _ _).trans hz
  fun_cases State.consume s r c source
  case case4 => exact changes_gridRecord s _ _ _ .therm (by decide)
  case case6 => exact answers _ _
  case case7 => exact answers _ _
  all_goals simp

/-- The record of a request that is not converted gives no heat-sink value. -/
theorem pumpsAlone_latestRecord {s : State} {r : Result} (hold : Nat) (h : r.dropped = true) : PumpsAlone s (s.latestRecord r hold) := by
  unfold State.latestRecord
  extract_lets valid s1 n s2
  have hvalid : valid = false := by simp [valid, h]
  have h2 : s2.therm = s.therm := by
    simp only [s2, hvalid, Bool.false_and, Bool.false_eq_true, if_false]
    split
    · exact therm_armWatch s1 n
    · rfl
  split
  · exact .of_therm h2
  · exact (PumpsAlone.of_therm h2).trans (pumpsAlone_moduleSignal s2 _ _ _)

/-! ### The requests of a trip (04 R114, R117; 09 R260) -/

theorem pumpsAlone_dropRequest (s : State) (k : Nat) (c : Conversion) (collide : Bool) : PumpsAlone s (s.dropRequest k c collide) := by
  refine PumpsAlone.trans ?_ ((pumpsAlone_latestRecord _ rfl).trans (pumpsAlone_foldl (fun z q => .of_therm (therm_consume z _ c q)) _ _))
  exact .of_therm rfl
theorem pumpsAlone_loseRequest (s : State) (k : Nat) (c : Option Conversion) : PumpsAlone s (s.loseRequest k c) := by
  cases c with
  | none => exact .refl s
  | some c => exact pumpsAlone_dropRequest s k c true
theorem pumpsAlone_urgentRequest (s : State) (k : Nat) (l : List Conversion) : PumpsAlone s (s.urgentRequest k l) := by
  have written (v : Converter) : PumpsAlone s (s.setConv k v) := .of_therm rfl
  fun_cases State.urgentRequest s k l
  case case1 => exact .refl s
  case case2 => exact .refl s
  case case4 => exact (written _).trans (pumpsAlone_loseRequest _ _ _)
  case case6 => exact (written _).trans (pumpsAlone_loseRequest _ _ _)
  case case7 => exact pumpsAlone_dropRequest s k _ true
  case case9 => exact pumpsAlone_dropRequest s k _ false
  all_goals exact written _
theorem pumpsAlone_tripRequests (s : State) (n cause : Nat) : PumpsAlone s (s.tripRequests n cause) := by
  unfold State.tripRequests
  exact (pumpsAlone_urgentRequest s _ _).trans (pumpsAlone_urgentRequest _ _ _)

theorem pumpsAlone_tripLane (s : State) (n c : Nat) (v0 : Option Int) : PumpsAlone s (s.tripLane n c v0) := by
  have latched : (s.latchFor n c).therm = s.therm := by fun_cases State.latchFor s n c <;> rfl
  unfold State.tripLane
  extract_lets l s1 trips s2
  have h2 : s2.therm = s.therm := (therm_event ..).trans latched
  split
  · exact .refl s
  · split
    · exact .of_therm h2
    · refine PumpsAlone.trans (.of_therm h2) (PumpsAlone.trans ?_ (pumpsAlone_tripRequests _ n c))
      exact (PumpsAlone.of_therm (State.therm_setLane s2 n _)).trans ((changes_runLeft _ n _).pumpsAlone (by decide))
theorem pumpsAlone_tripCauses (s : State) (n : Nat) (cs : List Nat) : PumpsAlone s (s.tripCauses n cs) :=
  pumpsAlone_foldl (fun z c => pumpsAlone_tripLane z n c none) _ s

end Sys2Proof.Machine
end

