-- ==== Sys2Proof/Proofs/SuspendedTenants.lean ====
section
/-! PROOF. What ENFORCE does to the SHEDDABLE tenants (11 R320): the parts that their suspending touches, of which only the pump outputs
are of the thermal part. -/

namespace Sys2Proof.Machine

open Sys2Proof
set_option Elab.async false

/-! ### Parts that differ -/

theorem Changes.ite {ps : List Part} {s t u : State} {c : Prop} [Decidable c] (h : Changes ps s t) (k : Changes ps s u) :
    Changes ps s (if c then t else u) := by
  split
  · exact h
  · exact k
theorem changes_fab (s : State) (x : Fabric) : Changes [.fab] s { s with fab := x } := by
  intro p hp
  cases p <;> simp_all [Part.same]
theorem changes_setCanCtl (s : State) (k : Nat) (x : Can) : Changes [.can] s (s.setCanCtl k x) := by
  intro p hp
  cases p <;> simp_all [Part.same, State.setCanCtl]
theorem changes_setSigLocal (s : State) (h : Nat) (x : SigVal) : Changes [.ten] s (s.setSigLocal h x) := by
  intro p hp
  cases p <;> simp_all [Part.same, State.setSigLocal]

theorem changes_setQueue (s : State) (q : Nat) (x : Queue) : Changes [.fab] s (s.setQueue q x) := changes_fab s _
theorem changes_setChannel (s : State) (c : Nat) (x : Channel) : Changes [.fab] s (s.setChannel c x) := changes_fab s _
theorem changes_lpWrite (s : State) (a : Nat) (l : List Byte) : Changes [.fab] s (s.lpWrite a l) := changes_fab s _

/-! ### Transfers (13 R395) -/

theorem changes_queueMoved (s : State) (q fill0 : Nat) (force : Bool) : Changes [.mbox] s (s.queueMoved q fill0 force) := by
  have noticed : Changes [.mbox] s (s.notice q) := by
    intro p hp
    unfold State.notice
    cases p <;> simp_all [Part.same] <;> split_ifs <;> rfl
  exact Changes.ite noticed (.refl _ s)
theorem changes_writeRecord (s : State) (ch : Nat) (d : Desc) (r : Record) : Changes [.mbox, .fab] s (s.writeRecord ch d r).2 := by
  have put (z : State) : Changes [.mbox, .fab] z (z.putRecord d.cq d.notify r) := by
    refine Changes.trans ?_ ((changes_queueMoved _ _ _ _).mono (by decide))
    exact ((changes_lpWrite z _ _).mono (by decide)).trans ((changes_setQueue _ _ _).mono (by decide))
  have formed : Changes [.mbox, .fab] s (s.updChannel ch fun c => c.formed r) := (changes_setChannel s ch _).mono (by decide)
  fun_cases State.writeRecord s ch d r
  · exact formed
  · exact formed.trans (put _)
  · exact formed.trans ((changes_setChannel _ ch _).mono (by decide))
theorem changes_abortChannel (s : State) (ch : Nat) : Changes [.mbox, .fab] s (s.abortChannel ch) := by
  have written (x : Channel) : Changes [.mbox, .fab] s (s.setChannel ch x) := (changes_setChannel s ch x).mono (by decide)
  have ended (d : Desc) : Changes [.mbox, .fab] s (s.endDescriptor ch d 1) :=
    (changes_writeRecord s ch d _).trans ((changes_setChannel _ ch _).mono (by decide))
  fun_cases State.abortChannel s ch
  case case5 => exact ended _
  all_goals exact written _

/-! ### Transmit requests (15 R431) -/

/-- What the end of a tenant's transmit request touches. -/
abbrev requestParts : List Part := [.mbox, .fab, .can, .ten]

theorem changes_putOutcome (s : State) (ctl b : Nat) (o : TxOutcome) : Changes requestParts s (s.putOutcome ctl b o) := by
  have buffered (z : State) (f : TxBuf → TxBuf) : Changes requestParts z (z.updTxBuf ctl b f) :=
    (changes_setCanCtl z ctl _).mono (by decide)
  have stored {z : State} (h : s.canPut ctl 3 (outcomeEntry o) = some z) : Changes requestParts s z := by
    revert h
    fun_cases State.canPut s ctl 3 (outcomeEntry o) <;> intro h <;> simp only [reduceCtorEq, Option.some.injEq] at h <;> subst h
    · refine Changes.trans ?_ ((changes_queueMoved _ _ _ _).mono (by decide))
      refine Changes.trans ?_ ((changes_setQueue _ _ _).mono (by decide))
      exact (changes_foldl (fun z i => changes_lpWrite z _ _) _ s).mono (by decide)
    · exact (changes_setCanCtl s ctl _).mono (by decide)
  unfold State.putOutcome
  split
  · next h => exact (stored h).trans (buffered _ _)
  · exact buffered s _
theorem changes_abortTx (s : State) (ctl b outcome : Nat) : Changes requestParts s (s.abortTx ctl b outcome) := by
  have told (z : State) (owner : OutSource) (o : TxOutcome) : Changes requestParts z (z.tellSlot owner o) := by
    fun_cases State.tellSlot z owner o
    · exact (changes_setSlot z _ _).mono (by decide)
    · exact .refl _ z
  have ended : Changes requestParts s (s.endTx ctl b outcome) := by
    have put (o : TxOutcome) (f : TxBuf → TxBuf) : Changes requestParts s ((s.updTxBuf ctl b f).putOutcome ctl b o) :=
      ((changes_setCanCtl s ctl _).mono (by decide)).trans (changes_putOutcome _ ctl b o)
    fun_cases State.endTx s ctl b outcome
    · exact .refl _ s
    · exact put _ _
    · exact (put _ _).trans (told _ _ _)
  fun_cases State.abortTx s ctl b outcome
  · exact .refl _ s
  · exact (changes_setCanCtl s ctl _).mono (by decide)
  · exact ended
theorem changes_tenantAborts (s : State) (n : Nat) : Changes requestParts s (s.tenantAborts n) := by
  have channels : Changes [.mbox, .fab] s (s.abortChannels (s.tenantChannels n)) := changes_foldl changes_abortChannel _ s
  refine (channels.mono (by decide)).trans (changes_foldl (fun z k => changes_foldl (fun y b => ?_) _ z) _ _)
  exact .ite (changes_abortTx y k b _) (.refl _ y)

/-! ### The suspending (11 R320) -/

theorem changes_sourcesLost (s : State) (hs : List Nat) (lost : Bool) : Changes [.lanes] s (s.sourcesLost hs lost) := by
  refine changes_foldl (fun z n => ?_) _ s
  split
  · exact .refl _ z
  · split
    · split
      · exact changes_setLane z n _
      · exact .refl _ z
    · exact .refl _ z
theorem followersSafe_outputs (s : State) (hs : List Nat) :
    Changes [.ana, .therm] s (s.followersSafe hs) ∧ PumpsAlone s (s.followersSafe hs) := by
  unfold State.followersSafe
  extract_lets named s1
  have dacs : Changes [.ana] s s1 := by
    refine changes_foldl (fun z k => ?_) _ s
    split
    · exact changes_ana z _
    · exact .refl _ z
  refine ⟨(dacs.mono (by decide)).trans (changes_foldl (fun z k => ?_) _ s1),
    (dacs.pumpsAlone (by decide)).trans (pumpsAlone_foldl (fun z k => ?_) _ s1)⟩
  · split
    · exact (changes_therm z _).mono (by decide)
    · exact .refl _ z
  · split
    · exact pumpsAlone_auxValue z k none
    · exact .refl z

/-- What the suspending of a tenant touches. -/
abbrev suspendParts : List Part := [.ten, .lanes, .ana, .therm, .mbox, .fab, .can, .table]

theorem slotSuspend_outputs (s : State) (n : Nat) : Changes suspendParts s (s.slotSuspend n) ∧ PumpsAlone s (s.slotSuspend n) := by
  unfold State.slotSuspend
  extract_lets hs s1 s2
  have held : Changes [.ten] s s2 := (changes_setSlot s n _).trans (changes_foldl (fun z h => changes_setSigLocal z h _) _ s1)
  have lost : Changes [.ten, .lanes] s (s2.sourcesLost hs true) :=
    (held.mono (by decide)).trans ((changes_sourcesLost s2 hs true).mono (by decide))
  obtain ⟨safe, pumps⟩ := followersSafe_outputs (s2.sourcesLost hs true) hs
  generalize (s2.sourcesLost hs true).followersSafe hs = z at safe pumps
  have aborted := changes_tenantAborts z n
  have placed := changes_placeEntries (z.tenantAborts n)
  refine ⟨?_, ((lost.pumpsAlone (by decide)).trans pumps).trans ?_⟩
  · exact ((lost.mono (by decide)).trans (safe.mono (by decide))).trans ((aborted.mono (by decide)).trans (placed.mono (by decide)))
  · exact (aborted.pumpsAlone (by decide)).trans (placed.pumpsAlone (by decide))

theorem changes_suspendTenants (s : State) : Changes suspendParts s s.suspendTenants :=
  changes_foldl (fun z n => .ite (slotSuspend_outputs z n).1 (.refl _ z)) _ s
theorem pumpsAlone_suspendTenants (s : State) : PumpsAlone s s.suspendTenants :=
  pumpsAlone_foldl (fun z n => .ite (slotSuspend_outputs z n).2 (.refl z)) _ s

end Sys2Proof.Machine
end

