-- ==== Sys2Proof/Proofs/CoolingEvents.lean ====
section
/-! PROOF. Cooling loops and the die sensor (O27): what an update leaves of a loop and its pumps, what a reading and a change of state
leave of the die, and then each event. -/

namespace Sys2Proof.Machine

open Sys2Proof
set_option Elab.async false

/-! ### COOLING_LOOP_UPDATE (08 R247, R248) -/

theorem coolMeasure_atTime (s : State) (t m : Nat) : (s.atTime t).coolMeasure m = s.coolMeasure m := by
  simp only [State.coolMeasure, laneTherm_atTime]

/-- An output whose source is the loop takes its duty. -/
def State.pumpFollows (k d : Nat) (s : State) (i : Nat) : State :=
  if (s.aux i).source == .loop k then s.auxValue i (some d) else s

theorem pumpsAlone_pumpFollows (k d : Nat) (s : State) (i : Nat) : PumpsAlone s (s.pumpFollows k d i) :=
  .ite (pumpsAlone_auxValue s i _) (.refl s)
theorem changes_pumpFollows (k d : Nat) (s : State) (i : Nat) : Changes [.therm] s (s.pumpFollows k d i) :=
  .ite (onlyAux_auxValue s i _).2 (.refl _ s)
theorem aux_pumpFollows_same {k d : Nat} {s : State} {i : Nat} (h : (s.aux i).source = .loop k) :
    (s.pumpFollows k d i).aux i = { s.aux i with duty := d, safe := false } := by
  rw [State.pumpFollows, if_pos (by simp [h]), aux_auxValue_some]
theorem aux_pumpFollows_ne (k d : Nat) (s : State) {i j : Nat} (h : i ≠ j) : (s.pumpFollows k d j).aux i = s.aux i := by
  unfold State.pumpFollows
  split
  · exact (onlyAux_auxValue s j _).1 i h
  · rfl
/-- Each output of the list whose source is the loop drives its duty in the end. -/
theorem driven_pumpsFollow {k d i : Nat} {l : List Nat} {s : State} (hs : (s.aux i).source = .loop k)
    (h : i ∈ l ∨ (s.aux i).duty = d ∧ (s.aux i).safe = false) :
    ((l.foldl (State.pumpFollows k d) s).aux i).duty = d ∧ ((l.foldl (State.pumpFollows k d) s).aux i).safe = false := by
  induction l generalizing s with
  | nil => exact h.resolve_left List.not_mem_nil
  | cons j r ih =>
    refine ih (((pumpsAlone_pumpFollows k d s j).source i).trans hs) ?_
    by_cases hj : i = j
    · subst hj
      rw [aux_pumpFollows_same hs]
      exact .inr ⟨rfl, rfl⟩
    · rw [aux_pumpFollows_ne k d s hj]
      exact h.imp_left fun hi => (List.mem_cons.1 hi).resolve_left hj

/-- The watch on the tachometers writes the times of a loop alone. -/
theorem coolLoop_watchCooling (s : State) (k : Nat) :
    ∃ low high, s.watchCooling.coolLoop k = { s.coolLoop k with lowSince := low, okSince := high } := by
  refine List.foldlRecOn (motive := fun z : State => ∃ low high, z.coolLoop k = { s.coolLoop k with lowSince := low, okSince := high })
    _ _ ⟨_, _, rfl⟩ fun z ⟨low, high, hz⟩ j _ => ?_
  dsimp only
  split
  · exact ⟨low, high, hz⟩
  · by_cases hj : k = j
    · subst hj
      exact ⟨_, _, (State.coolLoop_setCoolLoop_same z k _).trans (by rw [hz])⟩
    · exact ⟨low, high, (State.coolLoop_setCoolLoop_ne z _ hj).trans hz⟩
theorem aux_watchCooling (s : State) (i : Nat) : s.watchCooling.aux i = s.aux i := by
  refine List.foldlRecOn (motive := fun z : State => z.aux i = s.aux i) _ _ rfl fun z hz j _ => ?_
  dsimp only
  split
  · exact hz
  · exact hz

/-- The signals that a loop publishes after its update. -/
def State.loopSignals (s : State) (k d u : Nat) : State :=
  ((s.signalOf sgPumpDuty k 3 d).signalOf sgValveCode k 3 (valveCode u)).signalOf sgHvacDemand k 3 u

theorem loopSignals_outputs (s : State) (k d u : Nat) :
    OutputsFollow s (s.loopSignals k d u) ∧ PumpsAlone s (s.loopSignals k d u) :=
  ⟨((outputsFollow_signalOf s _ _ _ _).trans (outputsFollow_signalOf _ _ _ _ _)).trans (outputsFollow_signalOf _ _ _ _ _),
    ((pumpsAlone_signalOf s _ _ _ _).trans (pumpsAlone_signalOf _ _ _ _ _)).trans (pumpsAlone_signalOf _ _ _ _ _)⟩

theorem coolingLoopUpdate_updated {s : State} (t : Nat) {k : Nat} {c : CoolConfig} (hk : k < 8) (hc : (s.coolLoop k).cfg = some c)
    (hp : s.power.state = .full) : ∃ u, exec (.coolingLoopUpdate t k) s = .next u ∧ LoopUpdated s u k c := by
  rw [← coolLoop_atTime s t] at hc
  rw [exec_coolingLoopUpdate, execCoolingLoopUpdate]
  refine whenOn_imp (decide_eq_true hk) (by simp [hc, hp]) fun u hu => ?_
  split at hu
  · next h => cases hc.symm.trans h
  · next e h =>
    obtain rfl : c = e := Option.some.inj (hc.symm.trans h)
    extract_lets x y l v d z1 z2 at hu
    have hy : y = s.coolMeasure c.lanes := coolMeasure_atTime s t c.lanes
    have hx : x = s.coolLoop k := coolLoop_atTime s t k
    have signals : OutputsFollow z1 z2 ∧ PumpsAlone z1 z2 := loopSignals_outputs z1 k d v
    obtain ⟨z3, h3⟩ : ∃ z3, z3 = (List.range 8).foldl (State.pumpFollows k d) z2 := ⟨_, rfl⟩
    have hu : Settled z3.watchCooling u := h3 ▸ hu
    have pumps : PumpsAlone z2 z3 := h3 ▸ pumpsAlone_foldl (pumpsAlone_pumpFollows k d) _ z2
    have hloop : z3.coolLoop k = { x with loop := l, u := v, y := y, duty := d } := by
      rw [pumps.coolLoop, signals.2.coolLoop]
      exact State.coolLoop_setCoolLoop_same _ k _
    obtain ⟨low, high, hwatch⟩ := coolLoop_watchCooling z3 k
    rw [hloop, ← coolLoop_of_therm hu.therm] at hwatch
    rw [LoopUpdated, hwatch]
    refine ⟨hy, rfl, h, fun hnone => ?_, fun i hi hs => ?_, hu.moves_from (t := t) ?_⟩
    · have hl : l = x.loop := by simp only [l, hy, hnone]
      show l.out.toNat = _
      rw [hl, hx]
    · have hsource : (z2.aux i).source = .loop k := by
        rw [signals.2.source, State.aux_setCoolLoop, aux_of_therm (therm_atTime s t), hs]
      obtain ⟨hduty, hsafe⟩ := driven_pumpsFollow (d := d) hsource (.inl (List.mem_range.2 hi))
      rw [aux_of_therm hu.therm, aux_watchCooling, h3]
      exact ⟨hduty, by simp [hsafe]⟩
    · have written : Changes [.therm] (s.atTime t) z1 := changes_therm _ _
      have followed : Changes [.therm] z2 z3 := h3 ▸ changes_foldl (changes_pumpFollows k d) _ z2
      have updated : Changes [.ana, .therm, .ten] (s.atTime t) z3 :=
        (written.mono (by decide)).trans ((signals.1.changes.mono (by decide)).trans (followed.mono (by decide)))
      exact (updated.trans ((outputsFollow_watchCooling z3).changes.mono (by decide))).moves (by decide)

/-! ### COOLING_LOST and COOLING_RESTORED (08 R249) -/

theorem coolingLost_alarm {s : State} {t k a : Nat} (hk : k < 8) (hl : (s.coolLoop k).lost = false)
    (hs : (s.coolLoop k).lowSince = some a) (ha : a + 10 ^ 10 ≤ s.nowAt t) : ∃ u, exec (.coolingLost t k) s = .next u ∧
      u.coolLoop k = { s.coolLoop k with lost := true } ∧ (∀ j, j ≠ k → u.coolLoop j = s.coolLoop j) ∧
      u.alarmOn evCoolingLost 0 0 ∧ Moves [.therm, .recorder] s u := by
  rw [exec_coolingLost, execCoolingLost]
  refine whenOn_imp (decide_eq_true hk) (by simpa [coolLoop_atTime, hl, hs, elapsedO, elapsed] using ha) fun u hu => ?_
  rw [State.updCoolLoop_eq, coolLoop_atTime] at hu
  obtain ⟨z, hz⟩ : ∃ z, z = (s.atTime t).setCoolLoop k { s.coolLoop k with lost := true } := ⟨_, rfl⟩
  rw [← hz] at hu
  have written : Only State.coolLoop k [.therm] (s.atTime t) z := hz ▸ onlyCoolLoop_setCoolLoop _ k _
  have hloop (j : Nat) : u.coolLoop j = z.coolLoop j := coolLoop_of_therm (hu.therm.trans (therm_raise ..)) j
  refine ⟨?_, fun j hj => ?_, ?_, hu.moves_from (t := t) ?_⟩
  · rw [hloop, hz, State.coolLoop_setCoolLoop_same]
  · rw [hloop, written.1 j hj, coolLoop_atTime]
  · rw [alarmOn_of_recorder hu.recorder, alarmOn_raise]
  · exact ((written.2.mono (by decide)).trans ((changes_raise _ _ _ _ _ _ _).mono (by decide))).moves (ps := [.therm, .recorder])
      (by decide)

theorem coolingRestored_ends {s : State} {t k a : Nat} (hk : k < 8) (hl : (s.coolLoop k).lost = true)
    (hs : (s.coolLoop k).okSince = some a) (ha : a + 6 * 10 ^ 10 ≤ s.nowAt t) : ∃ u, exec (.coolingRestored t k) s = .next u ∧
      u.coolLoop k = { s.coolLoop k with lost := false } ∧ Only State.coolLoop k [.clock, .therm, .recorder, .mbox] s u := by
  rw [exec_coolingRestored, execCoolingRestored]
  refine whenOn_imp (decide_eq_true hk) (by simpa [coolLoop_atTime, hl, hs, elapsedO, elapsed] using ha) fun u hu => ?_
  rw [State.updCoolLoop_eq, coolLoop_atTime] at hu
  extract_lets z at hu
  have ended : Changes [.recorder] z
      (if ((List.range 8).any fun j => (z.coolLoop j).lost) = true then z else z.clearAlarm evCoolingLost 0 0) :=
    .ite (.refl _ z) (changes_clearAlarm _ _ _ _ _)
  have hloop (j : Nat) : u.coolLoop j = z.coolLoop j := coolLoop_of_therm (hu.therm.trans (ended .therm (by decide))) j
  refine ⟨(hloop k).trans (State.coolLoop_setCoolLoop_same _ k _), ?_⟩
  refine hu.only (ps := [.therm, .recorder]) ?_ (by decide) (coolLoop_atTime s t) fun j => coolLoop_of_therm hu.therm j
  exact ((onlyCoolLoop_setCoolLoop _ k _).mono (by decide)).trans
    ⟨fun j _ => coolLoop_of_therm (ended .therm (by decide)) j, ended.mono (by decide)⟩

/-! ### States of the die (08 R252) -/

theorem changes_updDie (s : State) (f : Die → Die) : Changes [.therm] s (s.updDie f) := changes_therm s _

/-- What the entry into a state publishes leaves the die. -/
theorem die_dieSignal (s : State) (f : Die → Die) (v : Int) :
    ((s.updDie f).signalOf sgDieShed 0 1 v).therm.die = f s.therm.die := (pumpsAlone_signalOf (s.updDie f) _ _ _ _).die
theorem changes_dieSignal (s : State) (f : Die → Die) (v : Int) :
    Changes [.ana, .therm, .ten] s ((s.updDie f).signalOf sgDieShed 0 1 v) :=
  ((changes_updDie s f).mono (by decide)).trans (outputsFollow_signalOf _ _ _ _ _).changes

theorem die_dieEnter (s : State) (st : DieState) :
    (s.dieEnter st).therm.die = { s.therm.die with state := st, since := s.now, coolSince := none } := by
  unfold State.dieEnter
  extract_lets s1
  have h1 : s1.therm.die = { s.therm.die with state := st, since := s.now, coolSince := none } := by
    simp only [s1]
    rw [die_dieSignal]
  clear_value s1
  cases st with
  | normal => exact h1
  | shedRequest => exact (congrArg Thermal.die (therm_event ..)).trans h1
  | enforce => exact (congrArg Thermal.die (therm_event ..)).trans ((pumpsAlone_suspendTenants s1).die.trans h1)

theorem changes_dieEnter_normal (s : State) : Changes [.ana, .therm, .ten] s (s.dieEnter .normal) := changes_dieSignal s _ _

/-- What the entry into a state other than NORMAL touches. -/
abbrev dieParts : List Part := .recorder :: suspendParts

theorem changes_dieEnter (s : State) (st : DieState) : Changes dieParts s (s.dieEnter st) := by
  unfold State.dieEnter
  extract_lets s1
  have h1 : Changes dieParts s s1 := (changes_dieSignal s _ _).mono (by decide)
  cases st with
  | normal => exact h1
  | shedRequest => exact h1.trans ((changes_event _ _ _ _ _ _ _ _ _ _ _ _).mono (by decide))
  | enforce =>
    exact (h1.trans ((changes_suspendTenants s1).mono (by decide))).trans ((changes_event _ _ _ _ _ _ _ _ _ _ _ _).mono (by decide))

/-- ENFORCE keeps the readings. -/
theorem die_dieEnforce (s : State) :
    ∃ since cool, s.dieEnforce.therm.die = { s.therm.die with state := .enforce, since := since, coolSince := cool } := by
  unfold State.dieEnforce
  split
  · next h => exact ⟨_, _, by rw [← beq_iff_eq.1 h]⟩
  · exact ⟨_, _, die_dieEnter s .enforce⟩
theorem changes_dieEnforce (s : State) : Changes dieParts s s.dieEnforce := .ite (.refl _ s) (changes_dieEnter s .enforce)

/-! ### DIE_READING (08 R251, R252) -/

/-- A reading is held, and has not yet been compared with its limits. -/
structure DieHeld (s z : State) (raw : Nat) (r : Int) : Prop where
  reading : z.therm.die.reading = some r
  raw : z.therm.die.raw = raw
  rate : z.therm.die.rate = (dieRate s.therm.die.history s.now r).map roundA
  state : z.therm.die.state = s.therm.die.state
  changes : Changes [.therm, .recorder] s z
  unbroken : s.therm.die.broken = false → Changes [.therm] s z

/-- The limits of SHED_REQUEST and ENFORCE on a reading, and on a rate that is too fast. -/
def State.dieLimits (s : State) (fast : Bool) (r : Int) : State :=
  let shed := if s.therm.die.state == .normal && (decide (10000 ≤ r) || fast) then s.dieEnter .shedRequest else s
  if 10800 ≤ r then shed.dieEnforce else shed

/-- A reading below 112 degC is held, and then compared with the limits. -/
theorem dieReading_limits {s : State} (raw : Nat) {r : Int} (hlow : -5000 ≤ r) (hhigh : r < 11200) : ∃ z, DieHeld s z raw r ∧
    s.dieReading raw r = z.dieLimits ((dieRate s.therm.die.history s.now r).any fun q => decide (200 < q)) r := by
  unfold State.dieReading
  extract_lets d same rate s1 broken s2 hot cool s3 s4 s5
  have hok : withinI (-5000) 15000 r = true := by
    simp only [withinI, decide_eq_true_eq]
    omega
  have hhot : hot = 0 := if_neg (by omega)
  have h1 : Changes [.therm] s s1 := changes_updDie s _
  have h2 : Changes [.therm, .recorder] s1 s2 :=
    .ite (((changes_updDie s1 _).mono (by decide)).trans ((changes_clearAlarm _ _ _ _ _).mono (by decide))) (.refl _ s1)
  have hkept : s2.therm.die = { s1.therm.die with broken := s2.therm.die.broken } := by
    simp only [s2]
    split
    · rw [therm_clearAlarm]
      rfl
    · rfl
  refine ⟨s3, ⟨congrArg Die.reading hkept, congrArg Die.raw hkept, congrArg Die.rate hkept, (congrArg Die.state hkept).trans rfl,
    ?_, fun hb => ?_⟩, ?_⟩
  · exact ((h1.mono (by decide)).trans h2).trans ((changes_updDie s2 _).mono (by decide))
  · have h21 : s2 = s1 := if_neg (by simp [d, hb])
    exact h1.trans (h21 ▸ changes_updDie s2 _)
  · rw [if_neg (by simp [hok]), if_neg (by simp [hhot])]
    rfl

/-- What follows from a reading below 112 degC. -/
theorem dieReading_arises {s : State} {t w : Nat} {r : Int} {Q : State → Prop} (hw : w < 65536) (hlow : -5000 ≤ r) (hhigh : r < 11200)
    (k : ∀ z u, DieHeld (s.atTime t) z w r →
      Settled (z.dieLimits ((dieRate s.therm.die.history (s.nowAt t) r).any fun q => decide (200 < q)) r) u → Q u) :
    ∃ u, exec (.dieReading t w r) s = .next u ∧ Q u := by
  have hrange : withinI (-32768) 32767 r = true := by
    simp only [withinI, decide_eq_true_eq]
    omega
  obtain ⟨z, hz, heq⟩ := dieReading_limits (s := s.atTime t) w hlow hhigh
  rw [exec_dieReading, execDieReading]
  refine when_imp (by simp [hw, hrange]) fun u hu => k z u hz ?_
  rw [heq, therm_atTime] at hu
  exact hu

theorem dieReading_normal {s : State} {t w : Nat} {r : Int} (hw : w < 65536) (hlow : -5000 ≤ r) (hhigh : r < 10000)
    (hb : s.therm.die.broken = false) (hst : s.therm.die.state = .normal)
    (hrate : (dieRate s.therm.die.history (s.nowAt t) r).all (fun q => decide (q ≤ 200)) = true) :
    ∃ u, exec (.dieReading t w r) s = .next u ∧ u.therm.die.reading = some r ∧ u.therm.die.raw = w ∧
      u.therm.die.rate = (dieRate s.therm.die.history (s.nowAt t) r).map roundA ∧ u.therm.die.state = .normal ∧ Moves [.therm] s u := by
  refine dieReading_arises hw hlow (by omega) fun z u hz hu => ?_
  have slow : ((dieRate s.therm.die.history (s.nowAt t) r).any fun q => decide (200 < q)) = false := by
    cases h : dieRate s.therm.die.history (s.nowAt t) r with
    | none => rfl
    | some q => simpa [h] using hrate
  have quiet : z.dieLimits false r = z := by
    unfold State.dieLimits
    rw [if_neg (by omega), if_neg (by simp; omega)]
  rw [slow, quiet] at hu
  refine ⟨?_, ?_, ?_, ?_, hu.moves_from ((hz.unbroken ?_).moves (by decide))⟩
  · rw [hu.therm, hz.reading]
  · rw [hu.therm, hz.raw]
  · rw [hu.therm, hz.rate, therm_atTime]
  · rw [hu.therm, hz.state, therm_atTime, hst]
  · rw [therm_atTime, hb]

theorem dieReading_shed {s : State} (t : Nat) {w : Nat} {r : Int} (hw : w < 65536) (hlow : 10000 ≤ r) (hhigh : r < 10800)
    (hst : s.therm.die.state = .normal) : ∃ u, exec (.dieReading t w r) s = .next u ∧ u.therm.die.reading = some r ∧
      u.therm.die.state = .shedRequest ∧ u.therm.die.since = s.nowAt t ∧ u.power = s.power := by
  refine dieReading_arises hw (by omega) (by omega) fun z u hz hu => ?_
  have shed (fast : Bool) : z.dieLimits fast r = z.dieEnter .shedRequest := by
    unfold State.dieLimits
    rw [if_neg (by omega), if_pos (by simp [hz.state, hst, hlow])]
  rw [shed] at hu
  have hclock : z.clock = (s.atTime t).clock := hz.changes .clock (by decide)
  rw [hu.therm, die_dieEnter]
  refine ⟨hz.reading, rfl, congrArg Clock.ns hclock, ?_⟩
  rw [hu.changes .power (by decide), changes_dieEnter z _ .power (by decide), hz.changes .power (by decide), power_atTime]

theorem dieReading_enforce (s : State) (t : Nat) {w : Nat} {r : Int} (hw : w < 65536) (hlow : 10800 ≤ r) (hhigh : r < 11200) :
    ∃ u, exec (.dieReading t w r) s = .next u ∧ u.therm.die.reading = some r ∧ u.therm.die.state = .enforce := by
  refine dieReading_arises hw (by omega) hhigh fun z u hz hu => ?_
  unfold State.dieLimits at hu
  extract_lets shed at hu
  rw [if_pos hlow] at hu
  have hreading : shed.therm.die.reading = some r := by
    simp only [shed]
    split
    · rw [die_dieEnter]
      exact hz.reading
    · exact hz.reading
  obtain ⟨since, cool, henforce⟩ := die_dieEnforce shed
  rw [hu.therm, henforce]
  exact ⟨hreading, rfl⟩

/-! ### DIE_ENFORCE, DIE_SENSOR_BROKEN and DIE_RELEASE (08 R252 to R254) -/

theorem dieEnforce_entered {s : State} {t : Nat} (hst : s.therm.die.state = .shedRequest)
    (ht : s.therm.die.since + 2000000000 ≤ s.nowAt t) : ∃ u, exec (.dieEnforce t) s = .next u ∧ u.therm.die.state = .enforce ∧
      u.therm.die.since = s.nowAt t ∧ u.therm.die.reading = s.therm.die.reading ∧ u.power = s.power := by
  rw [exec_dieEnforce, execDieEnforce]
  refine when_imp (by simpa [hst, elapsed] using ht) fun u hu => ?_
  rw [State.dieEnforce, if_neg (by simp [hst])] at hu
  rw [hu.therm, die_dieEnter, hu.changes .power (by decide), changes_dieEnter _ _ .power (by decide)]
  simp

theorem dieSensorBroken_enforces {s : State} (t : Nat) (hb : s.therm.die.broken = false) (hr : 100 ≤ s.therm.die.sameRun) :
    ∃ u, exec (.dieSensorBroken t) s = .next u ∧ u.therm.die.broken ∧ u.therm.die.state = .enforce ∧ u.therm.die.hotRun = 0 ∧
      u.power = s.power := by
  rw [exec_dieSensorBroken, execDieSensorBroken]
  refine when_imp (by simp [hb, hr]) fun u hu => ?_
  unfold State.dieBroken at hu
  obtain ⟨since, cool, henforce⟩ := die_dieEnforce
    (((s.atTime t).updDie fun d => { d with broken := true, coolSince := none, hotRun := 0 }).raise evDieSensorBroken 0 0)
  rw [hu.therm, henforce, therm_raise]
  refine ⟨rfl, rfl, rfl, ?_⟩
  rw [hu.changes .power (by decide), changes_dieEnforce _ .power (by decide), changes_raise _ _ _ _ _ _ _ .power (by decide),
    changes_updDie _ _ .power (by decide), power_atTime]

theorem dieRelease_normal {s : State} {t a : Nat} (hst : s.therm.die.state ≠ .normal) (hb : s.therm.die.broken = false)
    (hc : s.therm.die.coolSince = some a) (ha : a + 10 ^ 10 ≤ s.nowAt t) : ∃ u, exec (.dieRelease t) s = .next u ∧
      u.therm.die = { s.therm.die with state := .normal, since := s.nowAt t, coolSince := none } ∧
      Moves [.therm, .ten, .ana, .table] s u := by
  rw [exec_dieRelease, execDieRelease]
  refine when_imp (by simpa [hst, hb, hc, elapsedO, elapsed] using ha) fun u hu => ?_
  have placed := changes_placeEntries ((s.atTime t).dieEnter .normal)
  refine ⟨?_, hu.moves_from (t := t) ?_⟩
  · rw [hu.therm, placed .therm (by decide), die_dieEnter, therm_atTime]
  · have all : Changes [.ana, .therm, .ten, .table] (s.atTime t) ((s.atTime t).dieEnter .normal).placeEntries :=
      ((changes_dieEnter_normal _).mono (by decide)).trans (placed.mono (by decide))
    exact all.moves (by decide)

/-- Settles O27: one lemma for each event, of which a reading has three. -/
theorem coolingAndDieEventsComplete : Obligations.CoolingAndDieEventsComplete := by
  intro s t k a w c r
  refine ⟨coolingLoopUpdate_updated t, ?lost, coolingRestored_ends, ?normal, ?shed, dieReading_enforce s t, dieEnforce_entered,
    ?broken, ?release⟩
  case lost =>
    intro hk hl hs ha
    exact coolingLost_alarm hk (by simpa using hl) hs ha
  case normal =>
    intro hw hlow hhigh hb hst hrate
    exact dieReading_normal hw hlow hhigh (by simpa using hb) hst hrate
  case shed => exact fun hw hlow hhigh _ hst => dieReading_shed t hw hlow hhigh hst
  case broken => exact fun hb hr => dieSensorBroken_enforces t (by simpa using hb) hr
  case release => exact fun hst hb hc ha => dieRelease_normal hst (by simpa using hb) hc ha

end Sys2Proof.Machine
end

