-- ==== Sys2Proof/Proofs/ThermalCommands.lean ====
section
/-! PROOF. The BALANCE, THERMAL, COOLING and DIE commands (O25): each passes its checks with operands in range, and is answered on the
state that its handler leaves. -/

namespace Sys2Proof.Machine

open Sys2Proof
set_option Elab.async false

/-- A STATUS command whose checks pass answers what the module holds. -/
theorem status_checked {src : Source} {code : Nat} {s : State} {l : List (Bool × Nat)} (fields : State → List Field)
    (hr : Taken s src code) (hl : ∀ c ∈ l, c.1 = true) :
    ∃ u, runCommand src code (fun z => checked z l (okWith z (fields z))) s = .next u ∧ Answered s u src code (fields s.seen) s := by
  rw [funext fun z => checked_of_all (okWith z (fields z)) hl]
  exact status_ok fields hr

/-! ### BALANCE (R236, R238, R255) -/

theorem balanceConfig_staged {s : State} {src : Source} {n : Nat} {r : BalRequest} (hr : Taken s src 0x0F01) (hn : n < 8)
    (hok : balOk r = true) : ∃ u, exec (.balanceConfig src n r) s = .next u ∧ BalanceStaged s u src n r := by
  rw [exec_balanceConfig, execBalanceConfig]
  exact taken_imp hr (by decide) (checked_of_all _ (by simp [hn, hok])) rfl rfl fun u hans =>
    ⟨_, hans, State.laneTherm_setLaneTherm_same s n _, onlyLaneTherm_setLaneTherm s n _⟩

theorem balanceStatus_fields {s : State} {src : Source} {n : Nat} (hr : Taken s src 0x0F02) (hn : n < 8) :
    ∃ u, exec (.balanceStatus src n) s = .next u ∧ Answered s u src 0x0F02 (fi8 (s.seen.laneTherm n).qRef ::
      (s.seen.portsOf n).flatMap fun p => [f4 (s.seen.balPort p).sent, f4 (s.seen.port p).balanceField,
        f4 (s.seen.cellMask p (·.overdue)), f4 (s.seen.cellMask p (·.balSwitchFault))]) s := by
  rw [exec_balanceStatus, execBalanceStatus]
  exact status_checked (fun z => fi8 (z.laneTherm n).qRef :: (z.portsOf n).flatMap fun p => [f4 (z.balPort p).sent,
    f4 (z.port p).balanceField, f4 (z.cellMask p (·.overdue)), f4 (z.cellMask p (·.balSwitchFault))]) hr (by simp [hn])

theorem balanceTest_queued {s : State} {src : Source} {n p c : Nat} (hr : Taken s src 0x0F03) (hn : n < 8) (hp : p < 128)
    (hc : c < 18) (hlane : s.laneOfPort p = some n) (hcell : (s.modelled p).contains c = true) (hhelm : s.holdsHelm n = true)
    (hrun : (s.port p).state = .run) : ∃ u, exec (.balanceTest src { lane := n, port := p, cell := c }) s = .next u ∧
      ∃ z, Answered s u src 0x0F03 [] z ∧ z.cell (cellIx p c) = { s.cell (cellIx p c) with testQueued := true } ∧
      Only State.cell (cellIx p c) [.model] s z := by
  rw [exec_balanceTest, execBalanceTest]
  have passes : ∀ d ∈ [(decide (n < 8) && decide (p < 128) && decide (c < 18) && s.laneOfPort p == some n, stInvalidArg),
      ((s.modelled p).contains c, stNotPresent), (s.holdsHelm n, stNotHelm), ((s.port p).state == .run, stPortsNotReady)],
      d.1 = true := by
    simp [hn, hp, hc, hlane, List.contains_iff_mem.1 hcell, hhelm, hrun]
  exact taken_imp hr (by decide) (checked_of_all _ passes) rfl rfl fun u hans =>
    ⟨_, hans, State.cell_setCell_same s _ _, onlyCell_setCell s _ _⟩

theorem balanceTestRead_fields {s : State} {src : Source} {p : Nat} (hr : Taken s src 0x0F04) (hp : p < 128) :
    ∃ u, exec (.balanceTestRead src p) s = .next u ∧ Answered s u src 0x0F04 ((List.range 18).flatMap fun c =>
      [f1 ((s.cell (cellIx p c)).lastVerdict.getD 0xFF), f8 (s.cell (cellIx p c)).lastVerdictAt, .s 2 (s.cell (cellIx p c)).lastD,
        .s 2 (s.cell (cellIx p c)).lastLeak]) s := by
  rw [exec_balanceTestRead, execBalanceTestRead]
  exact taken_ok hr (by decide) (checked_of_all _ (by simp [hp])) rfl rfl

/-! ### THERMAL (R242, R255) -/

theorem thermalLimitsSet_staged {s : State} {src : Source} {n : Nat} {r : ThermRequest} (hr : Taken s src 0x1001) (hn : n < 8)
    (hok : thermOk r = true) : ∃ u, exec (.thermalLimitsSet src n r) s = .next u ∧ ThermLimitsStaged s u src n r := by
  rw [exec_thermalLimitsSet, execThermalLimitsSet]
  exact taken_imp hr (by decide) (checked_of_all _ (by simp [hn, hok])) rfl rfl fun u hans =>
    ⟨_, hans, State.laneTherm_setLaneTherm_same s n _, onlyLaneTherm_setLaneTherm s n _⟩

/-- What THERMAL.STATUS shows of a lane. -/
def State.thermalFields (z : State) (n : Nat) : List Field :=
  let h := z.laneTherm n
  [fi2 h.hottest, fi2 h.coldest, f4 (z.shedNow n), f1 h.shedCause, fb (z.anySensor n (·.warnHigh)), fb (z.anySensor n (·.warnLow)),
    fb h.precursor, fb (z.anySensor n (·.lost))]

theorem thermalStatus_fields {s : State} {src : Source} {n : Nat} (hr : Taken s src 0x1002) (hn : n < 8) :
    ∃ u, exec (.thermalStatus src n) s = .next u ∧ Answered s u src 0x1002 (s.seen.thermalFields n) s := by
  rw [exec_thermalStatus, execThermalStatus]
  exact status_checked (fun z => z.thermalFields n) hr (by simp [hn])

/-! ### COOLING and DIE (R247, R248, R251, R255) -/

/-- The ranges of COOLING.LOOP_SET (R248). -/
structure CoolInRange (c : CoolConfig) : Prop where
  lanes : c.lanes < 256
  pump : c.pump < 8
  tach : c.tach < 16
  setPoint : -32768 ≤ c.setPoint ∧ c.setPoint ≤ 32767
  kp : c.kp < 2 ^ 32
  ki : c.ki < 2 ^ 32
  pumpMin : c.pumpMin < 65536
  pumpMax : c.pumpMax < 65536
  expect : c.expect < 65536

theorem coolingLoopSet_configured {s : State} {src : Source} {k : Nat} {c : CoolConfig} (hr : Taken s src 0x1101) (hk : k < 8)
    (h : CoolInRange c) : ∃ u, exec (.coolingLoopSet src k c) s = .next u ∧ ∃ z, Answered s u src 0x1101 [] z ∧
      z.coolLoop k = { s.coolLoop k with cfg := some c } ∧ Only State.coolLoop k [.therm] s z := by
  rw [exec_coolingLoopSet, execCoolingLoopSet]
  have setPoint : withinI (-32768) 32767 c.setPoint = true := decide_eq_true h.setPoint
  refine taken_imp hr (by decide) (checked_of_all _ ?_) rfl rfl fun u hans =>
    ⟨_, hans, State.coolLoop_setCoolLoop_same s k _, onlyCoolLoop_setCoolLoop s k _⟩
  simp only [List.forall_mem_singleton, hk, h.lanes, h.pump, h.tach, setPoint, h.kp, h.ki, h.pumpMin, h.pumpMax, h.expect,
    decide_true, Bool.and_self]

theorem coolingOutputSet_configured {s : State} {src : Source} {k f d : Nat} {p : Path} (hr : Taken s src 0x1102) (hk : k < 8)
    (hf1 : 1000 ≤ f) (hf2 : f ≤ 100000) (hd : d < 65536) : ∃ u, exec (.coolingOutputSet src k (.path p) f d) s = .next u ∧
      ∃ z, Answered s u src 0x1102 [] z ∧ z.aux k = { s.aux k with
        source := .path p, freq := f, safeDuty := d, configured := true, duty := d, safe := true } ∧
      Only State.aux k [.therm] s z := by
  rw [exec_coolingOutputSet, execCoolingOutputSet]
  refine taken_imp hr (by decide) (checked_of_all _ (by simp [hk, within, hf1, hf2, hd])) rfl rfl fun u hans => ⟨_, hans, ?_, ?_⟩
  · rw [show s.auxSource (.path p) = none from rfl, aux_auxValue_none, State.updAux_eq, State.aux_setAux_same]
  · exact (onlyAux_setAux s k _).trans (onlyAux_auxValue _ k _)

theorem coolingDutySet_driven {s : State} {src : Source} {k d : Nat} (hr : Taken s src 0x1103) (hk : k < 8) (hd : d < 65536)
    (hs : (s.aux k).source = .path src.path) : ∃ u, exec (.coolingDutySet src k d) s = .next u ∧
      ∃ z, Answered s u src 0x1103 [] z ∧ z.aux k = { s.aux k with duty := d, safe := false } ∧ Only State.aux k [.therm] s z := by
  rw [exec_coolingDutySet, execCoolingDutySet]
  have handler : checked s [(decide (k < 8) && decide (d < 65536), stInvalidArg)] (if (s.aux k).source == .path src.path then
      ok (s.auxValue k (some d)) else ⟨some stNotOwner, [], s.updAux k fun a => { a with refused := inc64 a.refused }⟩) =
      ok (s.auxValue k (some d)) := by
    rw [checked_of_all _ (by simp [hk, hd]), if_pos (by simp [hs])]
  exact taken_imp hr (by decide) handler rfl rfl fun u hans => ⟨_, hans, aux_auxValue_some s k d, onlyAux_auxValue s k _⟩

/-- What COOLING.STATUS shows of a loop. -/
def CoolLoop.fields (x : CoolLoop) : List Field := [f2 x.u, fi2 x.y, f2 x.duty, f2 (valveCode x.u), f2 x.u, fb x.lost]

theorem coolingStatus_fields {s : State} {src : Source} {k : Nat} (hr : Taken s src 0x1104) (hk : k < 8) :
    ∃ u, exec (.coolingStatus src k) s = .next u ∧ Answered s u src 0x1104 (s.seen.coolLoop k).fields s := by
  rw [exec_coolingStatus, execCoolingStatus]
  exact status_checked (fun z => (z.coolLoop k).fields) hr (by simp [hk])

/-- What DIE.STATUS shows of the die at a clock time. -/
def Die.fields (d : Die) (now : Nat) : List Field :=
  [fi2 d.reading, .s 4 (d.rate.getD (-2147483648)), f1 (dieCode d.state), fb d.broken, f8 (now - d.since)]

theorem dieStatus_fields {s : State} {src : Source} (hr : Taken s src 0x1201) :
    ∃ u, exec (.dieStatus src) s = .next u ∧ Answered s u src 0x1201 (s.seen.therm.die.fields s.seen.now) s := by
  rw [exec_dieStatus, execDieStatus]
  exact status_ok (fun z => z.therm.die.fields z.now) hr

/-- Settles O25: one lemma for each command. -/
theorem balancingAndThermalCommandsComplete : Obligations.BalancingAndThermalCommandsComplete := by
  intro s z src n k f h x
  refine ⟨fun r => balanceConfig_staged, ?balanceStatus, fun p c => balanceTest_queued, fun p => balanceTestRead_fields,
    fun r => thermalLimitsSet_staged, ?thermalStatus, ?loopSet, fun d p => coolingOutputSet_configured,
    fun d => coolingDutySet_driven, ?coolingStatus, ?dieStatus⟩
  case balanceStatus =>
    rintro hr hn rfl
    exact balanceStatus_fields hr hn
  case thermalStatus =>
    rintro hr hn rfl rfl
    exact thermalStatus_fields hr hn
  case loopSet =>
    intro c hr hk lanes pump tach low high kp ki pumpMin pumpMax expect
    exact coolingLoopSet_configured hr hk ⟨lanes, pump, tach, ⟨low, high⟩, kp, ki, pumpMin, pumpMax, expect⟩
  case coolingStatus =>
    rintro hr hk rfl rfl
    exact coolingStatus_fields hr hk
  case dieStatus =>
    rintro d hr rfl rfl
    exact dieStatus_fields hr

end Sys2Proof.Machine
end

