-- ==== Sys2Proof/Proofs/ThermalEvents.lean ====
section
/-! PROOF. Plans, switch tests and temperature samples (O26): what BALANCE leaves when it is sent, and then each event. -/

namespace Sys2Proof.Machine

open Sys2Proof
set_option Elab.async false

/-! ### What an event's time leaves -/

theorem balances_atTime (s : State) (t n : Nat) : (s.atTime t).balances n = s.balances n := by
  simp only [State.balances, State.laneRole, net_atTime, power_atTime]
theorem plans_atTime (s : State) (t n : Nat) : (s.atTime t).plans n = s.plans n := by
  simp only [State.plans, State.laneRole, net_atTime, power_atTime]
theorem capturePrepared_atTime (s : State) (t n : Nat) : (s.atTime t).capturePrepared n = s.capturePrepared n := by
  rw [State.capturePrepared, laneSound_atTime, ← State.capturePrepared]
theorem balanceMask_atTime (s : State) (t n p : Nat) : (s.atTime t).balanceMask n p = s.balanceMask n p := by
  simp only [State.balanceMask, State.bleeding, capturePrepared_atTime, balPort_atTime, laneTherm_atTime, port_atTime]
theorem testCanStart_atTime (s : State) (t n p : Nat) : (s.atTime t).testCanStart n p = s.testCanStart n p := by
  simp only [State.testCanStart, balances_atTime, capturePrepared_atTime, balPort_atTime, port_atTime, lane_atTime]
theorem laneOfPort_of_lanes {s t : State} (h : t.lanes = s.lanes) (p : Nat) : t.laneOfPort p = s.laneOfPort p := by
  simp only [State.laneOfPort, lane_of_lanes h]
theorem cellObject_atTime (s : State) (t p c : Nat) : (s.atTime t).cellObject p c = s.cellObject p c := by
  rw [State.cellObject, laneOfPort_atTime, ← State.cellObject]

/-! ### BALANCE that is sent (08 R234) -/

/-- Where BALANCE is asked for, the port takes a request, and its record the mask and the time. -/
theorem sendBalance_cases (s : State) (p : Nat) (force : Bool) : s.sendBalance p force = s ∨
    ∃ x m, s.sendBalance p force = (s.setPort p x).setBalPort p { s.balPort p with sent := m, sentAt := s.now } := by
  unfold State.sendBalance
  split
  · exact .inl rfl
  · extract_lets m
    split
    · exact .inr ⟨_, m, rfl⟩
    · exact .inl rfl
theorem sendBalance_forced {s : State} {n p : Nat} (hn : s.laneOfPort p = some n) (hb : s.balances n = true)
    (hr : (s.port p).state = .run) : s.sendBalance p true = (s.setPort p ((s.port p).request .balance (s.balanceMask n p))).setBalPort p
      { s.balPort p with sent := s.balanceMask n p, sentAt := s.now } := by
  simp only [State.sendBalance, hn, hb, hr, beq_self_eq_true, Bool.and_self, Bool.true_or, if_true]
  rfl

theorem changes_sendBalance (s : State) (p : Nat) (force : Bool) : Changes [.therm, .tap] s (s.sendBalance p force) := by
  rcases sendBalance_cases s p force with h | ⟨x, m, h⟩
  · rw [h]
    exact .refl _ s
  · rw [h]
    exact ((changes_setPort s p x).mono (by decide)).trans ((changes_setBalPort _ p _).mono (by decide))
theorem laneTherm_sendBalance (s : State) (p : Nat) (force : Bool) (n : Nat) : (s.sendBalance p force).laneTherm n = s.laneTherm n := by
  rcases sendBalance_cases s p force with h | ⟨x, m, h⟩
  · rw [h]
  · rw [h]
    rfl
/-- A switch test under way goes on. -/
theorem test_sendBalance (s : State) (p : Nat) (force : Bool) : ((s.sendBalance p force).balPort p).test = (s.balPort p).test := by
  rcases sendBalance_cases s p force with h | ⟨x, m, h⟩
  · rw [h]
  · rw [h, State.balPort_setBalPort_same]

/-! ### BALANCE_PLAN and BALANCE_REPEAT (08 R233, R234) -/

theorem balCell_congr {s t : State} (hm : t.model = s.model) (ht : t.tap = s.tap) : t.balCell = s.balCell := by
  funext p c
  have hmodelled : t.modelled p = s.modelled p := by simp only [State.modelled, cell_of_model hm, port_of_tap ht]
  unfold State.balCell
  rw [cell_of_model hm, hmodelled]

/-- The cells of a lane that its plan weighs. -/
def State.planCells (s : State) (n : Nat) : List BalCell := (s.portsOf n).flatMap fun p => (List.range 18).filterMap (s.balCell p)

theorem planCells_congr {s t : State} (hl : t.lanes = s.lanes) (hm : t.model = s.model) (ht : t.tap = s.tap) (n : Nat) :
    t.planCells n = s.planCells n := by
  rw [State.planCells, portsOf_of_lanes hl, balCell_congr hm ht, ← State.planCells]

/-- The plan takes the configuration that waits, and computes Q_ref of the lane's cells. -/
theorem balancePlan_computed (s : State) (n : Nat) : (s.balancePlan n).laneTherm n = { s.laneTherm n with
      bal := (s.laneTherm n).pendingBal.getD (s.laneTherm n).bal, pendingBal := none
      qRef := ((s.planCells n).map (·.need)).max?.map roundA } ∧
    Changes [.therm, .tap] s (s.balancePlan n) := by
  unfold State.balancePlan
  extract_lets s1 cells qRef s2
  have hcells : cells = s.planCells n := planCells_congr rfl rfl rfl n
  have h1 : s1.laneTherm n = { s.laneTherm n with
      bal := (s.laneTherm n).pendingBal.getD (s.laneTherm n).bal, pendingBal := none } := State.laneTherm_setLaneTherm_same s n _
  have h2 : s2.laneTherm n = { s1.laneTherm n with qRef := qRef.map roundA } := State.laneTherm_setLaneTherm_same s1 n _
  have computed : Changes [.therm] s s2 := (changes_setLaneTherm s n _).trans (changes_setLaneTherm s1 n _)
  refine ⟨?_, (computed.mono (by decide)).trans (changes_foldl (fun z p => ?_) _ s2)⟩
  · refine List.foldlRecOn (motive := fun z : State => z.laneTherm n = _) _ _ (h2.trans (by rw [h1, ← hcells])) fun z hz p _ => ?_
    exact (laneTherm_sendBalance _ p false n).trans hz
  · exact ((changes_setBalPort z p _).mono (by decide)).trans (changes_sendBalance _ p false)

theorem balancePlan_planned {s : State} {t n : Nat} (hn : n < 8) (hp : s.plans n = true) (hb : s.model.lastBase % 10000 = 0) :
    ∃ u, exec (.balancePlan t n) s = .next u ∧ (u.laneTherm n).bal = (s.laneTherm n).pendingBal.getD (s.laneTherm n).bal ∧
      (u.laneTherm n).pendingBal = none ∧ (u.laneTherm n).qRef = ((s.planCells n).map (·.need)).max?.map roundA ∧
      Moves [.therm, .tap] s u := by
  rw [exec_balancePlan, execBalancePlan]
  refine whenOn_imp (decide_eq_true hn) (by simp [plans_atTime, hp, hb]) fun u hu => ?_
  obtain ⟨hcomputed, hchanges⟩ := balancePlan_computed (s.atTime t) n
  rw [laneTherm_atTime, planCells_congr (lanes_atTime s t) (model_atTime s t) (tap_atTime s t)] at hcomputed
  rw [laneTherm_of_therm hu.therm, hcomputed]
  exact ⟨rfl, rfl, rfl, hu.moves_from (hchanges.moves (by decide))⟩

theorem balanceRepeat_sent {s : State} {t n p : Nat} (hp : p < 128) (ht : (s.balPort p).sentAt + 500000000 ≤ s.nowAt t)
    (hlane : s.laneOfPort p = some n) (hb : s.balances n = true) (hr : (s.port p).state = .run) :
    ∃ u, exec (.balanceRepeat t p) s = .next u ∧ u.port p = (s.port p).request .balance (s.balanceMask n p) ∧
      u.balPort p = { s.balPort p with sent := s.balanceMask n p, sentAt := s.nowAt t } ∧
      (∀ q, q ≠ p → u.port q = s.port q ∧ u.balPort q = s.balPort q) ∧ Moves [.therm, .tap] s u := by
  rw [exec_balanceRepeat, execBalanceRepeat]
  refine whenOn_imp (decide_eq_true hp) (by simpa [balPort_atTime, elapsed] using ht) fun u hu => ?_
  have hchanges := changes_sendBalance (s.atTime t) p true
  have sent := sendBalance_forced (s := s.atTime t) ((laneOfPort_atTime s t p).trans hlane) ((balances_atTime s t n).trans hb)
    ((congrArg Port.state (port_atTime s t p)).trans hr)
  rw [balanceMask_atTime, port_atTime, balPort_atTime] at sent
  rw [sent] at hu hchanges
  refine ⟨?_, ?_, fun q hq => ⟨?_, ?_⟩, hu.moves_from (hchanges.moves (by decide))⟩
  · rw [hu.port, (changes_setBalPort _ p _).port (by decide), State.port_setPort_same]
  · rw [balPort_of_therm hu.therm, State.balPort_setBalPort_same]
  · rw [hu.port, (changes_setBalPort _ p _).port (by decide), State.port_setPort_ne _ _ hq, port_atTime]
  · rw [balPort_of_therm hu.therm, State.balPort_setBalPort_ne _ _ hq]
    exact balPort_atTime s t q

/-! ### SWITCH_TEST_START (08 R235, R237) -/

theorem startTest_started {s : State} {n p c : Nat} {i : Int} (hlane : s.laneOfPort p = some n) (hi : s.testCurrent n = some i)
    (hs : s.testCanStart n p = true) :
    ((s.startTest p c).balPort p).test = some { cell := c, step := 1, current0 := i, startedAt := s.now } ∧
    (s.startTest p c).cell (cellIx p c) = { s.cell (cellIx p c) with testQueued := false, retryAt := none } ∧
    Only State.cell (cellIx p c) [.therm, .model, .tap] s (s.startTest p c) := by
  unfold State.startTest
  simp -zeta only [hlane, hi, hs]
  extract_lets s1
  obtain ⟨z, hz⟩ : ∃ z, z = s1.updCell (cellIx p c) fun k => { k with testQueued := false, retryAt := none } := ⟨_, rfl⟩
  rw [← hz]
  have h1 : Changes [.therm] s s1 := changes_setBalPort s p _
  have written : Only State.cell (cellIx p c) [.model] s1 z := hz ▸ onlyCell_setCell s1 _ _
  have hsent : Changes [.therm, .tap] z (z.sendBalance p true) := changes_sendBalance z p true
  refine ⟨?_, ?_, ((h1.onlyCell (by decide) _).mono (by decide)).trans ((written.mono (by decide)).trans
    ((hsent.onlyCell (by decide) _).mono (by decide)))⟩
  · rw [test_sendBalance, hz]
    exact congrArg BalPort.test (State.balPort_setBalPort_same s p _)
  · rw [cell_of_model (hsent .model (by decide)), hz]
    exact State.cell_setCell_same s1 _ _
theorem startTest_putOff {s : State} {n p : Nat} (c : Nat) (hlane : s.laneOfPort p = some n) (hs : s.testCanStart n p = false) :
    s.startTest p c = s.updCell (cellIx p c) fun k => { k with retryAt := some (s.now + 600 * 10 ^ 9) } := by
  unfold State.startTest
  simp -zeta only [hlane, hs]
  cases s.testCurrent n with
  | none => rfl
  | some i => rfl

/-- What follows from a switch test that is due. -/
theorem switchTestStart_arises {s : State} {t p c : Nat} {Q : State → Prop} (hp : p < 128) (hc : c < 18)
    (hm : (s.modelled p).contains c = true) (hd : (s.atTime t).testDue p c = true)
    (k : ∀ u, Settled ((s.atTime t).startTest p c) u → Q u) : ∃ u, exec (.switchTestStart t p c) s = .next u ∧ Q u := by
  rw [exec_switchTestStart, execSwitchTestStart]
  exact whenOn_imp (by simp [hp, hc]) (by rw [modelled_atTime, hm, hd]; rfl) k

theorem switchTestStart_started {s : State} {t n p c : Nat} {i : Int} (hp : p < 128) (hc : c < 18)
    (hm : (s.modelled p).contains c = true) (hd : (s.atTime t).testDue p c = true) (hlane : s.laneOfPort p = some n)
    (hi : (s.atTime t).testCurrent n = some i) (hs : (s.atTime t).testCanStart n p = true) :
    ∃ u, exec (.switchTestStart t p c) s = .next u ∧
      (u.balPort p).test = some { cell := c, step := 1, current0 := i, startedAt := s.nowAt t } ∧
      u.cell (cellIx p c) = { s.cell (cellIx p c) with testQueued := false, retryAt := none } ∧
      Only State.cell (cellIx p c) [.clock, .therm, .model, .tap, .mbox] s u := by
  refine switchTestStart_arises hp hc hm hd fun u hu => ?_
  obtain ⟨htest, hcell, honly⟩ := startTest_started (c := c) ((laneOfPort_atTime s t p).trans hlane) hi hs
  rw [cell_atTime] at hcell
  exact ⟨by rw [balPort_of_therm hu.therm, htest], by rw [hu.cell, hcell], hu.only honly (by decide) (cell_atTime s t) hu.cell⟩

theorem switchTestStart_putOff {s : State} {t n p c : Nat} (hp : p < 128) (hc : c < 18) (hm : (s.modelled p).contains c = true)
    (hd : (s.atTime t).testDue p c = true) (hlane : s.laneOfPort p = some n) (hs : s.testCanStart n p = false) :
    ∃ u, exec (.switchTestStart t p c) s = .next u ∧
      u.cell (cellIx p c) = { s.cell (cellIx p c) with retryAt := some (s.nowAt t + 600 * 10 ^ 9) } ∧
      Only State.cell (cellIx p c) [.clock, .model, .mbox] s u := by
  refine switchTestStart_arises hp hc hm hd fun u hu => ?_
  rw [startTest_putOff c ((laneOfPort_atTime s t p).trans hlane) ((testCanStart_atTime s t n p).trans hs), State.updCell_eq,
    cell_atTime] at hu
  exact ⟨by rw [hu.cell, State.cell_setCell_same], hu.only (onlyCell_setCell _ _ _) (by decide) (cell_atTime s t) hu.cell⟩

/-! ### SWITCH_TEST_STEP (08 R238 to R240) -/

/-- What follows from a frame of a test that nothing disturbs. -/
theorem switchTestStep_arises {s : State} {t n p : Nat} {q : SwitchTest} {f : State → State} {Q : State → Prop} (hp : p < 128)
    (hq : (s.balPort p).test = some q) (hlane : s.laneOfPort p = some n) (hgoes : TestGoesOn s t n q)
    (hf : ∀ z, (z.testDisturbed n q || z.capturePrepared n || elapsed q.startedAt (z.testBound + 1) z.now) = false →
      z.port p = s.port p → z.laneTherm n = s.laneTherm n → z.testStep n p q = f z)
    (k : ∀ u, Settled (f (s.atTime t)) u → Q u) : ∃ u, exec (.switchTestStep t p) s = .next u ∧ Q u := by
  obtain ⟨hsteady, hcapture, hbound⟩ := hgoes
  have bound : (s.atTime t).testBound = s.testBound := by rw [State.testBound, power_atTime, ← State.testBound]
  have goesOn : ((s.atTime t).testDisturbed n q || (s.atTime t).capturePrepared n ||
      elapsed q.startedAt ((s.atTime t).testBound + 1) (s.atTime t).now) = false := by
    rw [Bool.not_eq_true'] at hsteady hcapture hbound
    rw [capturePrepared_atTime, bound, hsteady, hcapture, hbound]
    rfl
  rw [exec_switchTestStep, execSwitchTestStep]
  refine whenOn_imp (decide_eq_true hp) (by simp [balPort_atTime, hq]) fun u hu => k u ?_
  simp only [balPort_atTime, hq, laneOfPort_atTime, hlane] at hu
  rw [← hf _ goesOn (port_atTime s t p) (laneTherm_atTime s t n)]
  exact hu

theorem switchTestStep_opened {s : State} {t n p : Nat} {q : SwitchTest} (hp : p < 128) (hq : (s.balPort p).test = some q)
    (hlane : s.laneOfPort p = some n) (hstep : q.step = 1) (hgoes : TestGoesOn s t n q) (hfield : (s.port p).balanceField = 0)
    (hframes : 0 < q.frames) : ∃ u, exec (.switchTestStep t p) s = .next u ∧
      u.balPort p = { s.balPort p with test := some { q with step := 2, frames := 0 } } ∧
      Only State.balPort p [.clock, .therm, .mbox] s u := by
  refine switchTestStep_arises (f := fun z => z.setBalPort p { z.balPort p with test := some { q with step := 2, frames := 0 } })
    hp hq hlane hgoes (fun z hgo hport _ => ?_) fun u hu => ?_
  · simp only [State.testStep, hgo, hstep, hport, hfield, hframes, decide_true, Bool.and_self, if_true, Bool.false_eq_true, if_false,
      State.updBalPort_eq]
  · dsimp only at hu
    rw [balPort_atTime] at hu
    exact ⟨by rw [balPort_of_therm hu.therm, State.balPort_setBalPort_same],
      hu.only (onlyBalPort_setBalPort _ p _) (by decide) (balPort_atTime s t) fun j => balPort_of_therm hu.therm j⟩

/-- A test that finds nothing ends, clears the fault of its cell and is recorded. -/
theorem testVerdict_passed (s : State) (p : Nat) (q : SwitchTest) : ((s.testVerdict p q 0).balPort p).test = none ∧
    (∃ x : Cell, (s.testVerdict p q 0).cell (cellIx p q.cell) = x ∧ x.lastVerdict = some 0 ∧ x.lastVerdictAt = s.now ∧
      x.balSwitchFault = false ∧ x.balFaultRun = 0 ∧ x.testedAt = s.fullNow ∧ x.overdue = false) ∧
    Changes [.therm, .model, .tap, .recorder] s (s.testVerdict p q 0) := by
  unfold State.testVerdict
  extract_lets ix o run done_ s1 s2 s3
  have h1 : Changes [.therm, .model] s s1 :=
    ((changes_setBalPort s p _).mono (by decide)).trans ((changes_setCell _ ix _).mono (by decide))
  have h3 : Changes [.recorder] s1 s3 := (changes_clearAlarm s1 _ _ _ _).trans (changes_clearAlarm s2 _ _ _ _)
  have hsent : Changes [.therm, .tap] s3 (s3.sendBalance p true) := changes_sendBalance s3 p true
  have hcell : (s3.sendBalance p true).cell ix = s1.cell ix :=
    (cell_of_model (hsent .model (by decide)) ix).trans (cell_of_model (h3 .model (by decide)) ix)
  refine ⟨?_, ⟨_, hcell.trans (State.cell_setCell_same _ ix _), rfl, rfl, rfl, rfl, rfl, rfl⟩,
    (h1.mono (by decide)).trans ((h3.mono (by decide)).trans (hsent.mono (by decide)))⟩
  rw [test_sendBalance, balPort_of_therm (h3 .therm (by decide))]
  exact congrArg BalPort.test (State.balPort_setBalPort_same s p _)

theorem switchTestStep_passed {s : State} {t n p : Nat} {q : SwitchTest} (hp : p < 128) (hq : (s.balPort p).test = some q)
    (hlane : s.laneOfPort p = some n) (hstep : q.step = 6) (hgoes : TestGoesOn s t n q) (hframes : 10 ≤ q.frames)
    (hv : verdictOf (s.laneTherm n).bal q = 0) : ∃ u, exec (.switchTestStep t p) s = .next u ∧ SwitchTestPassed s u t p q := by
  refine switchTestStep_arises (f := fun z => z.testVerdict p q 0) hp hq hlane hgoes (fun z hgo _ htherm => ?_) fun u hu => ?_
  · simp only [State.testStep, hgo, hstep, htherm, hv, hframes, if_true, Bool.false_eq_true, if_false]
  · obtain ⟨htest, ⟨x, hcell, hverdict, hat, hfault, hrun, htested, hoverdue⟩, hchanges⟩ := testVerdict_passed (s.atTime t) p q
    rw [SwitchTestPassed, balPort_of_therm hu.therm, hu.cell, hcell]
    exact ⟨htest, hverdict, hat, hfault, hrun, htested, hoverdue, hu.moves_from (hchanges.moves (by decide))⟩

/-! ### BAL_TEST_OVERDUE (08 R237) -/

theorem balTestOverdue_alarm {s : State} {t p c : Nat} (hp : p < 128) (hc : c < 18) (hm : (s.modelled p).contains c = true)
    (ho : (s.cell (cellIx p c)).overdue = false)
    (ht : (s.cell (cellIx p c)).testedAt + 86400 * 10 ^ 9 ≤ (s.atTime t).fullNow) : ∃ u, exec (.balTestOverdue t p c) s = .next u ∧
      u.cell (cellIx p c) = { s.cell (cellIx p c) with overdue := true } ∧
      (∀ j, j ≠ cellIx p c → u.cell j = s.cell j) ∧ u.alarmOn evBalTestOverdue 3 (s.cellObject p c) ∧
      Moves [.model, .recorder] s u := by
  rw [exec_balTestOverdue, execBalTestOverdue]
  refine whenOn_imp (by simp [hp, hc]) ?_ fun u hu => ?_
  · simp only [cell_atTime, modelled_atTime, hm, ho, Bool.not_false, Bool.and_self, Bool.true_and, decide_eq_true_eq]
    exact ht
  · rw [State.updCell_eq, cell_atTime, cellObject_atTime] at hu
    have raised (z : State) := changes_raise z evBalTestOverdue 3 (s.cellObject p c) 0 none none
    have hcell (j : Nat) := (hu.cell j).trans (cell_of_model (raised _ .model (by decide)) j)
    refine ⟨(hcell _).trans (State.cell_setCell_same _ _ _), fun j hj => ?_, ?_, hu.moves_from (t := t) ?_⟩
    · rw [hcell, State.cell_setCell_ne _ _ hj, cell_atTime]
    · rw [alarmOn_of_recorder hu.recorder, alarmOn_raise]
    · exact ((changes_setCell _ _ _).moves (by decide)).trans ((raised _).moves (by decide))

/-! ### TEMPERATURE_SAMPLE (08 R241 to R246) -/

theorem laneTherm_sampleSensor (s : State) (g : ThermConfig) (tag : Nat) (k : Nat × Nat) (n : Nat) :
    (s.sampleSensor g tag k).laneTherm n = s.laneTherm n := by
  unfold State.sampleSensor
  extract_lets x ix a b s1 s2
  have h2 : s2.laneTherm n = s.laneTherm n := by
    simp only [s2]
    split
    · exact laneTherm_of_therm (therm_event ..) n
    · rfl
  split
  · exact (laneTherm_of_therm (therm_clearAlarm ..) n).trans h2
  · exact h2

/-- A sample puts the limits that wait in force and gives a shed limit; the trips that follow leave the lane's limits. -/
theorem temperatureSample_taken (s : State) (n tag : Nat) : ∃ x : LaneTherm, (s.temperatureSample n tag).laneTherm n = x ∧
    x.sampleTag = some tag ∧ x.cfg = (s.laneTherm n).pendingCfg.getD (s.laneTherm n).cfg ∧ x.pendingCfg = none ∧ x.hsValue = none ∧
    x.shedLimit.isSome := by
  unfold State.temperatureSample
  extract_lets s1 g ks s2 temps shown all h inhibited limit s3 hsHot cs
  have h1 : s1.laneTherm n = { s.laneTherm n with
      cfg := (s.laneTherm n).pendingCfg.getD (s.laneTherm n).cfg, pendingCfg := none, sampleTag := some tag } :=
    State.laneTherm_setLaneTherm_same s n _
  have h2 : s2.laneTherm n = s1.laneTherm n :=
    List.foldlRecOn (motive := fun z : State => z.laneTherm n = s1.laneTherm n) _ _ rfl fun z hz k _ =>
      (laneTherm_sampleSensor z g tag k n).trans hz
  have trips (l : List Nat) : ((s3.tripCauses n l).recheckArming).laneTherm n = s3.laneTherm n :=
    (laneTherm_of_therm (changes_recheckArming _ .therm (by decide)) n).trans ((pumpsAlone_tripCauses s3 n l).laneTherm n)
  refine ⟨_, (trips _).trans (State.laneTherm_setLaneTherm_same s2 n _), ?_⟩
  rw [h2, h1]
  exact ⟨rfl, rfl, rfl, rfl, rfl⟩

theorem temperatureSample_sampled {s : State} (t : Nat) {n g : Nat} (hn : n < 8) (hcfg : (s.lane n).cfg.isSome = true)
    (hpow : s.power.state = .full) (hb : s.model.lastBase % 100 = 0) (hl : s.model.lastTag = g) (hg : s.model.syncTag = some g)
    (hne : (s.laneTherm n).sampleTag ≠ some g) : ∃ u, exec (.temperatureSample t n) s = .next u ∧
      (u.laneTherm n).sampleTag = some g ∧ (u.laneTherm n).cfg = (s.laneTherm n).pendingCfg.getD (s.laneTherm n).cfg ∧
      (u.laneTherm n).pendingCfg = none ∧ (u.laneTherm n).hsValue = none ∧ (u.laneTherm n).shedLimit.isSome := by
  rw [exec_temperatureSample, execTemperatureSample]
  have due : (s.atTime t).sampleDue n = true := by
    simp [State.sampleDue, lane_atTime, hcfg, hpow, hb, hl, hg, laneTherm_atTime, Ne.symm hne]
  refine whenOn_imp (decide_eq_true hn) due fun u hu => ?_
  rw [model_atTime, hg] at hu
  obtain ⟨x, hx, htag, hlimits, hpending, hheat, hshed⟩ := temperatureSample_taken (s.atTime t) n g
  rw [laneTherm_atTime] at hlimits
  rw [laneTherm_of_therm hu.therm, Option.getD_some, hx]
  exact ⟨htag, hlimits, hpending, hheat, hshed⟩

/-! ### THERMAL_PRECURSOR and TEMP_SENSOR_LOST (08 R244, R245) -/

theorem thermalPrecursor_trips {s : State} (t : Nat) {n p i : Nat} (hp : p < 128) (hi : i < 6)
    (hf : 3 ≤ (s.sensor (6 * p + i)).fastRun) (hs : (s.port p).limits.temps.testBit i = true) (hlane : s.laneOfPort p = some n)
    (hpre : (s.laneTherm n).precursor = false) (hst : (s.lane n).state = .run) : ∃ u, exec (.thermalPrecursor t p i) s = .next u ∧
      (u.laneTherm n).precursor ∧ (u.lane n).state = .tripped ∧ (u.lane n).cause = trPrecursor := by
  rw [exec_thermalPrecursor, execThermalPrecursor]
  refine whenOn_imp (by simp [hp, hi]) (by simp [sensor_atTime, port_atTime, hf, hs]) fun u hu => ?_
  simp -zeta only [laneOfPort_atTime, hlane, laneTherm_atTime, hpre, Bool.false_eq_true, if_false] at hu
  extract_lets z at hu
  have hmarked : (z.laneTherm n).precursor = true :=
    (congrArg LaneTherm.precursor (laneTherm_of_therm (therm_event ..) n)).trans
      (congrArg LaneTherm.precursor (State.laneTherm_setLaneTherm_same (s.atTime t) n _))
  have hrun : (z.lane n).state = .run := by
    have hlane : z.lane n = (s.atTime t).lane n := lane_of_lanes (lanes_event ..) n
    rw [hlane, lane_atTime, hst]
  have htrip : ((z.tripLane n trPrecursor).lane n).trip = (.tripped, trPrecursor, true) :=
    trip_tripLane trPrecursor none (by simp [hrun]) (by simp [hrun])
  have hstate : ((z.tripLane n trPrecursor).lane n).state = .tripped := congrArg Prod.fst htrip
  have hlanes : u.lane n = (z.tripLane n trPrecursor).lane n :=
    (hu.lane n).trans (lane_recheckArming (by simp [hstate]) (by simp [hstate]))
  refine ⟨?_, by rw [hlanes, hstate], by rw [hlanes]; exact congrArg (fun x => x.2.1) htrip⟩
  rw [laneTherm_of_therm hu.therm, laneTherm_of_therm (changes_recheckArming _ .therm (by decide)),
    (pumpsAlone_tripLane z n trPrecursor none).laneTherm, hmarked]

theorem tempSensorLost_derates {s : State} (t : Nat) {n p i : Nat} (hp : p < 128) (hi : i < 6)
    (hl : 10 ≤ (s.sensor (6 * p + i)).lostRun) (hr : (s.port p).state = .run) (hs : (s.port p).limits.temps.testBit i = true)
    (hn : (s.sensor (6 * p + i)).lost = false) (hlane : s.laneOfPort p = some n) : ∃ u, exec (.tempSensorLost t p i) s = .next u ∧
      u.sensor (6 * p + i) = { s.sensor (6 * p + i) with lost := true } ∧
      u.laneTherm n = { s.laneTherm n with derateLost := true } ∧ u.alarmOn evTempSensorLost 2 p ∧ Moves [.therm, .recorder] s u := by
  rw [exec_tempSensorLost, execTempSensorLost]
  refine whenOn_imp (by simp [hp, hi]) (by simp [sensor_atTime, port_atTime, hl, hr, hs, hn]) fun u hu => ?_
  rw [State.updSensor_eq, sensor_atTime] at hu
  obtain ⟨y, hy⟩ : ∃ y, y = (s.atTime t).setSensor (6 * p + i) { s.sensor (6 * p + i) with lost := true } := ⟨_, rfl⟩
  rw [← hy] at hu
  extract_lets z at hu
  have marked : Changes [.therm] (s.atTime t) y := hy ▸ changes_therm _ _
  have raised : Changes [.recorder] y z := changes_raise y _ _ _ _ _ _
  have both : Changes [.therm, .recorder] (s.atTime t) z := (marked.mono (by decide)).trans (raised.mono (by decide))
  have hlost : z.sensor (6 * p + i) = { s.sensor (6 * p + i) with lost := true } := by
    rw [sensor_of_therm (raised .therm (by decide)), hy, State.sensor_setSensor_same]
  have hlimits : z.laneTherm n = s.laneTherm n := by
    rw [laneTherm_of_therm (raised .therm (by decide)), hy, State.laneTherm_setSensor, laneTherm_atTime]
  have hport : z.laneOfPort p = some n := by
    rw [laneOfPort_of_lanes (both .lanes (by decide)), laneOfPort_atTime, hlane]
  simp only [hport, State.updLaneTherm_eq, hlimits] at hu
  refine ⟨?_, ?_, ?_, hu.moves_from (t := t) ?_⟩
  · rw [sensor_of_therm hu.therm, State.sensor_setLaneTherm, hlost]
  · rw [laneTherm_of_therm hu.therm, State.laneTherm_setLaneTherm_same]
  · rw [alarmOn_of_recorder hu.recorder, alarmOn_of_recorder (State.recorder_setLaneTherm z n _)]
    exact alarmOn_raise _ _ _ _ _ _ _
  · exact (both.moves (by decide)).trans ((changes_setLaneTherm z n _).moves (by decide))

/-- Settles O26: one lemma for each event, of which the start and the steps of a switch test have two. -/
theorem balancingAndThermalEventsComplete : Obligations.BalancingAndThermalEventsComplete := by
  intro s t n p c g q l
  refine ⟨balancePlan_planned, balanceRepeat_sent, fun i => switchTestStart_started, ?putOff, switchTestStep_opened,
    switchTestStep_passed, ?overdue, temperatureSample_sampled t, ?precursor, ?sensorLost⟩
  case putOff =>
    intro hp hc hm hd hlane hs
    exact switchTestStart_putOff hp hc hm hd hlane (by simpa using hs)
  case overdue =>
    intro hp hc hm ho ht
    exact balTestOverdue_alarm hp hc hm (by simpa using ho) ht
  case precursor =>
    intro i hp hi hf hs hlane hpre hst
    exact thermalPrecursor_trips t hp hi hf hs hlane (by simpa using hpre) hst
  case sensorLost =>
    intro i hp hi hl hr hs hn hlane
    exact tempSensorLost_derates t hp hi hl hr hs (by simpa using hn) hlane

end Sys2Proof.Machine
end

