-- ==== Sys2Proof/Proofs/TripFollowers.lean ====
section
/-! PROOF. What follows a trip of a lane: the steps of its soundings and its spring tide end, and the requests of its samples can take
the place of others, whose consumers are told. None of it moves an output of a lane, an alarm, a LAN or a mailbox's reset. -/

namespace Sys2Proof.Machine

open Sys2Proof
set_option Elab.async false

/-- The outputs of a lane to its contactors and its helm line. -/
def Lane.outputs (l : Lane) : Bool × Bool × Bool × Bool := (l.kNeg.drive, l.kPos.drive, l.kPre.drive, l.helmOut)

/-- What follows a trip can touch these parts whole. -/
abbrev freeParts : List Part := [.ana, .therm, .ten, .lh, .sound, .fab, .out, .table, .can]
/-- The parts that what follows a trip touches. -/
abbrev followParts : List Part := .lanes :: .recorder :: .mbox :: .net :: freeParts

/-- No reset of a mailbox has become pending. -/
abbrev ResetsKept (s t : State) : Prop := ∀ p k, (s.box p k).resetPending = false → (t.box p k).resetPending = false

/-- From `s` to `t` goes only what follows a trip. -/
structure Follows (s t : State) : Prop where
  parts : Changes followParts s t
  outputs : ∀ n, (t.lane n).outputs = (s.lane n).outputs
  alarms : t.recorder.alarms = s.recorder.alarms
  lans : t.net.lans = s.net.lans
  resets : ResetsKept s t

theorem Follows.refl (s : State) : Follows s s := ⟨.refl _ s, fun _ => rfl, rfl, rfl, fun _ _ => id⟩
theorem Follows.trans {s t u : State} (h : Follows s t) (g : Follows t u) : Follows s u :=
  ⟨h.parts.trans g.parts, fun n => (g.outputs n).trans (h.outputs n), g.alarms.trans h.alarms, g.lans.trans h.lans,
    fun p k hk => g.resets p k (h.resets p k hk)⟩
theorem Follows.ite {s t u : State} {c : Prop} [Decidable c] (h : Follows s t) (k : Follows s u) : Follows s (if c then t else u) := by
  split
  · exact h
  · exact k
theorem follows_foldl {α : Type} {f : State → α → State} (h : ∀ z x, Follows z (f z x)) (l : List α) (s : State) :
    Follows s (l.foldl f s) :=
  List.foldlRecOn (motive := fun z => Follows s z) _ _ (.refl s) fun z hz x _ => hz.trans (h z x)

theorem box_of_mbox {s t : State} (h : t.mbox.boxes = s.mbox.boxes) (p : Path) (k : Nat) : t.box p k = s.box p k := by
  unfold State.box
  rw [h]
theorem resetsKept_of_boxes {s t : State} (h : t.mbox.boxes = s.mbox.boxes) : ResetsKept s t := by
  intro p k hk
  rwa [box_of_mbox h]

/-- A change of the mailboxes' records that leaves the mailboxes themselves. -/
theorem Changes.follows_of_boxes {ps : List Part} {s t : State} (h : Changes ps s t) (hs : ∀ p ∈ ps, p ∈ .mbox :: freeParts)
    (hb : t.mbox.boxes = s.mbox.boxes) : Follows s t := by
  have hfree : Changes (.mbox :: freeParts) s t := h.mono hs
  have hrecorder : t.recorder = s.recorder := hfree .recorder (by decide)
  have hnet : t.net = s.net := hfree .net (by decide)
  exact ⟨hfree.mono (by decide), fun n => congrArg Lane.outputs (hfree.lane (by decide) n), by rw [hrecorder], by rw [hnet],
    resetsKept_of_boxes hb⟩
theorem Changes.follows {ps : List Part} {s t : State} (h : Changes ps s t) (hs : ∀ p ∈ ps, p ∈ freeParts) : Follows s t := by
  have hmbox : t.mbox = s.mbox := h.mono hs .mbox (by decide)
  exact h.follows_of_boxes (fun p hp => List.mem_cons_of_mem _ (hs p hp)) (by rw [hmbox])
theorem follows_event (s : State) (c k o u : Nat) (v0 v1 v2 : Option Int) (src : Option Nat) (b cl : Bool) (a : Option Nat) :
    Follows s (s.event c k o u v0 v1 v2 src b cl a) :=
  ⟨(changes_event _ _ _ _ _ _ _ _ _ _ _ _).mono (by decide), fun n => congrArg Lane.outputs (lane_of_lanes (lanes_event ..) n),
    alarms_event .., by rw [net_event], resetsKept_of_boxes (by rw [mbox_event])⟩
theorem follows_setLane {s : State} {n : Nat} {x : Lane} (h : x.outputs = (s.lane n).outputs) : Follows s (s.setLane n x) := by
  refine ⟨(changes_setLane s n x).mono (by decide), fun j => ?_, rfl, rfl, fun _ _ => id⟩
  by_cases hj : j = n
  · rw [hj, State.lane_setLane_same, h]
  · rw [State.lane_setLane_ne s x hj]

/-! ### Messages and answers (10 R297; 14 R402, R416, R418) -/

theorem lans_sendReliable (s : State) (peer dst : Nat) (body : GBody) (srcRole srcEpoch target tEpoch corr : Nat) (reply : Bool) :
    (s.sendReliable peer dst body srcRole srcEpoch target tEpoch corr reply).net.lans = s.net.lans := by
  unfold State.sendReliable State.transmit
  dsimp only
  split_ifs <;> rfl
theorem follows_sendReliable (s : State) (peer dst : Nat) (body : GBody) (srcRole srcEpoch target tEpoch corr : Nat) (reply : Bool) :
    Follows s (s.sendReliable peer dst body srcRole srcEpoch target tEpoch corr reply) := by
  have sent := changes_sendReliable s peer dst body srcRole srcEpoch target tEpoch corr reply
  have hmbox := sent .mbox (by decide)
  have hrecorder := sent .recorder (by decide)
  exact ⟨sent.mono (by decide), fun n => congrArg Lane.outputs (sent.lane (by decide) n), congrArg Recorder.alarms hrecorder,
    lans_sendReliable .., resetsKept_of_boxes (congrArg Mbox.boxes hmbox)⟩

theorem resetsKept_setBox {s : State} {b : Mailbox} (h : b.resetPending = (s.box b.path b.box).resetPending) :
    ResetsKept s (s.setBox b) := by
  intro p k hk
  by_cases hb : b.path = p ∧ b.box = k
  · obtain ⟨rfl, rfl⟩ := hb
    rw [box_setBox_same s b rfl rfl, h, hk]
  · rwa [box_setBox_ne s b hb]
@[simp] theorem queueMoved_boxes (z : State) (q f : Nat) (b : Bool) : (z.queueMoved q f b).mbox.boxes = z.mbox.boxes := by
  unfold State.queueMoved State.notice
  dsimp only
  split_ifs <;> rfl
theorem lpWrites_boxes {a : Nat → Nat} {m : Nat → List Byte} (l : List Nat) (z : State) :
    (l.foldl (fun w i => w.lpWrite (a i) (m i)) z).mbox.boxes = z.mbox.boxes :=
  List.foldlRecOn (motive := fun w : State => w.mbox.boxes = z.mbox.boxes) _ _ rfl fun _ hw _ _ => hw
theorem ringPut_boxes {z u : State} {q : Nat} {m : List Byte} (h : z.ringPut q m = some u) : u.mbox.boxes = z.mbox.boxes := by
  unfold State.ringPut at h
  extract_lets x n s1 at h
  split at h
  · cases h
    rw [queueMoved_boxes]
    exact lpWrites_boxes _ z
  · cases h
theorem takeEach_boxes {f : State → List Byte → Option State} (h : ∀ z m u, f z m = some u → u.mbox.boxes = z.mbox.boxes)
    (l : List (List Byte)) (z : State) : (takeEach f l z).1.mbox.boxes = z.mbox.boxes := by
  induction l generalizing z with
  | nil => rfl
  | cons m r ih =>
    unfold takeEach
    split
    · rfl
    · next u hu => exact (ih u).trans (h z m u hu)

theorem ResetsKept.trans {s t u : State} (h : ResetsKept s t) (g : ResetsKept t u) : ResetsKept s u := fun p k hk => g p k (h p k hk)

theorem resetsKept_handOver (s : State) (r : Response) : ResetsKept s (s.handOver r) := by
  have taken : ∀ (z : State) (q : Nat) (l : List (List Byte)), (z.ringPutAll q l).1.mbox.boxes = z.mbox.boxes :=
    fun z q l => takeEach_boxes (fun _ _ _ => ringPut_boxes) l z
  unfold State.handOver
  extract_lets m s1
  split
  · split
    next s2 rest h =>
    have h2 : ResetsKept s1 s2 := resetsKept_of_boxes (by rw [← taken s1 (17 + 2 * r.box) (respMessages r), h])
    split
    · exact h2
    · refine h2.trans (resetsKept_setBox ?_)
      rw [box_path, box_box]
  · exact resetsKept_of_boxes rfl
  · split
    · refine resetsKept_of_boxes (s := s1) ?_
      unfold State.requestDone
      split
      · rfl
      · dsimp only
        split_ifs <;> rfl
    · have sent := changes_foldl (fun (z : State) m => changes_sendReliable z r.box (if r.box < 65536 then r.box else 0xFFFF)
        (.mailboxReply m) z.moduleRole z.net.moduleEpoch 0 0 r.corr true) (respMessages r) s1 .mbox (by decide)
      exact resetsKept_of_boxes (s := s1) (congrArg Mbox.boxes sent)
/-- A mailbox that is dropped reads as a new one, whose reset is not pending. -/
theorem resetsKept_dropBox (s : State) (p : Path) (b : Nat) : ResetsKept s (s.dropBox p b) := by
  intro q k hk
  unfold State.box State.dropBox
  rw [List.find?_filter]
  by_cases hb : p = q ∧ b = k
  · obtain ⟨rfl, rfl⟩ := hb
    rw [List.find?_eq_none.2 (fun x _ => by grind)]
    rfl
  · have same : (fun x : Mailbox => decide ((!(x.path == p && x.box == b)) = true ∧ (x.path == q && x.box == k) = true)) =
        fun x => x.path == q && x.box == k := by
      funext x
      grind
    rw [same]
    exact hk
theorem resetsKept_boxFresh (s : State) (p : Path) (b : Nat) : ResetsKept s (s.boxFresh p b) := by
  unfold State.boxFresh
  split
  · intro q k hk
    by_cases hb : Path.pcie = q ∧ b = k
    · rw [box_setBox_same _ _ hb.1 hb.2]
    · rw [box_setBox_ne _ _ hb]
      exact hk
  · exact resetsKept_dropBox s p b
theorem resetsKept_answer (s : State) (src : Source) (code status : Nat) (payload : List Field) :
    ResetsKept s (s.answer src code status payload) := by
  unfold State.answer
  extract_lets b s1
  have h1 : ResetsKept s s1 := resetsKept_of_boxes rfl
  split
  · exact h1.trans (resetsKept_boxFresh s1 _ _)
  · refine h1.trans (ResetsKept.trans ?_ (resetsKept_handOver _ _))
    split
    · refine resetsKept_setBox ?_
      simp only [b, box_path, box_box]
      rfl
    · exact fun _ _ => id


theorem changes_mbox (s : State) (x : Mbox) : Changes [.mbox] s { s with mbox := x } := by
  intro p hp
  cases p <;> simp_all [Part.same]

/-- What an answer touches, on whatever path it goes out. -/
abbrev answerParts : List Part := [.mbox, .fab, .net, .ten, .sound, .out]

/-- No answer touches more, not even one that is discarded at the reset of its mailbox. -/
theorem changes_answer (s : State) (src : Source) (code status : Nat) (payload : List Field) :
    Changes answerParts s (s.answer src code status payload) := by
  cases h : (s.box src.path src.box).resetPending with
  | false =>
    refine (envelope_answer src s code status payload h).rest.mono ?_
    cases src.path <;> decide
  | true =>
    have counted (z : State) (x : Mbox) : Changes answerParts z { z with mbox := x } := (changes_mbox z x).mono (by decide)
    have fresh (z : State) (b : Nat) : Changes answerParts z (z.boxFresh src.path b) := by
      unfold State.boxFresh
      split
      · exact (((changes_setQueue z _ _).trans (changes_setQueue _ _ _)).mono (by decide)).trans (counted _ _)
      · exact counted z _
    unfold State.answer
    dsimp only
    rw [if_pos h]
    exact (counted s _).trans (fresh _ _)
theorem lans_answer (s : State) (src : Source) (code status : Nat) (payload : List Field) :
    (s.answer src code status payload).net.lans = s.net.lans := by
  cases h : (s.box src.path src.box).resetPending with
  | false => rw [(envelope_answer src s code status payload h).net]
  | true =>
    unfold State.answer
    dsimp only
    rw [if_pos h]
    cases src.path <;> rfl
theorem follows_answer (s : State) (src : Source) (code status : Nat) (payload : List Field) :
    Follows s (s.answer src code status payload) := by
  have answered := changes_answer s src code status payload
  exact ⟨answered.mono (by decide), fun n => congrArg Lane.outputs (answered.lane (by decide) n),
    congrArg Recorder.alarms (answered .recorder (by decide)), lans_answer .., resetsKept_answer s src code status payload⟩

/-! ### Soundings and spring tides (07 R206, R209, R223) -/

theorem follows_stepEnded (s : State) (n : Nat) (a : SoundStep) (outcome : Nat) : Follows s (s.stepEnded n a outcome) := by
  unfold State.stepEnded
  extract_lets s1 s2 s3 s4
  have h1 : Follows s s1 := (changes_updStep s n _ _).follows (by decide)
  have h2 : Follows s1 s2 := .ite ((changes_writeEntry s1 _ {}).follows (by decide)) (.refl s1)
  have h3 : Follows s2 s3 := .ite ((changes_captureOff s2 n).follows (by decide)) (.refl s2)
  have h4 : Follows s3 s4 := .ite ((changes_setLaneSound s3 n _).follows (by decide)) (.refl s3)
  exact (((h1.trans h2).trans h3).trans h4).trans (follows_event _ _ _ _ _ _ _ _ _ _ _ _)
theorem follows_sendSoundOut (s : State) (n : Nat) (a : SoundStep) (kind reason : Nat) : Follows s (s.sendSoundOut n a kind reason) := by
  fun_cases State.sendSoundOut s n a kind reason
  · exact .refl s
  · exact follows_sendReliable s _ _ _ _ _ _ _ _ _
theorem follows_soundArrives (s : State) (n : Nat) (m : SoundMsg) : Follows s (s.soundArrives n m) := by
  have noted (slot : Nat) (f : SoundStep → SoundStep) : Follows s (s.updStep n slot f) :=
    (changes_updStep s n slot f).follows (by decide)
  fun_cases State.soundArrives s n m
  case case1 => exact (changes_setLaneSound s n _).follows (by decide)
  case case2 => exact .refl s
  case case3 => exact noted _ _
  case case4 => exact noted _ _
  case case5 => exact follows_stepEnded s n _ _
  case case6 => exact (follows_stepEnded s n _ _).trans (follows_sendSoundOut _ _ _ _ _)
  case case7 => exact .refl s
theorem follows_sendSound (s : State) (n : Nat) (a : SoundStep) (kind reason : Nat) : Follows s (s.sendSound n a kind reason) := by
  fun_cases State.sendSound s n a kind reason
  · exact follows_soundArrives s _ _
  · exact follows_sendSoundOut s _ _ _ _
theorem follows_endSteps (s : State) (n outcome : Nat) (p : SoundStep → Bool) : Follows s (s.endSteps n outcome p) := by
  refine follows_foldl (fun z a => ?_) _ s
  refine .ite ?_ (.ite ?_ (.refl z))
  · exact ((changes_updStep z n _ _).follows (by decide)).trans (follows_sendSound _ _ _ _ _)
  · exact (follows_stepEnded z n a _).trans (follows_sendSound _ _ _ _ _)
theorem follows_springFail (s : State) (n cause : Nat) : Follows s (s.springFail n cause) := by
  have failed (x : Spring) : Follows s (s.setSpring n x) := (changes_setSpring s n x).follows (by decide)
  fun_cases State.springFail s n cause
  case case1 => exact .refl s
  case case2 => exact (failed _).trans (follows_event _ _ _ _ _ _ _ _ _ _ _ _)
  case case3 => exact failed _
  case case4 => exact .refl s
theorem follows_runLeft (s : State) (n outcome : Nat) : Follows s (s.runLeft n outcome) :=
  (follows_endSteps s n outcome _).trans (follows_springFail _ n _)

/-! ### Records and their consumers (04 R119; 05 R147 to R154) -/

theorem Lane.outputs_phaseSample (l : Lane) (m : Nat) (v : Option Int) : (l.phaseSample m v).outputs = l.outputs := by
  fun_cases Lane.phaseSample l m v <;> rfl
theorem Lane.outputs_periodRuns (l : Lane) : l.periodRuns.outputs = l.outputs := by
  fun_cases Lane.periodRuns l <;> rfl
theorem Lane.outputs_spindleB (l : Lane) (c : LaneConfig) (g : LoopGains) : (l.spindleB c g).outputs = l.outputs := by
  unfold Lane.spindleB
  extract_lets fs y r ff d b l1
  split
  · refine List.foldlRecOn (motive := fun z : Lane => z.outputs = l.outputs) _ _ rfl fun z hz m _ => ?_
    split
    · exact hz
    · exact hz
  · rfl

theorem follows_formReference (s : State) (n : Nat) : Follows s (s.formReference n) := by
  fun_cases State.formReference s n
  · exact .refl s
  · exact (follows_setLane (by rfl)).trans ((changes_setLaneSound _ n _).follows (by decide))
theorem follows_stringPeriod (s : State) (n : Nat) (dropped : Bool) : Follows s (s.stringPeriod n dropped) := by
  fun_cases State.stringPeriod s n dropped
  · exact .refl s
  · refine (follows_formReference s n).trans (follows_setLane ?_)
    dsimp only
    split
    · rfl
    · rw [Lane.outputs_periodRuns, Lane.outputs_spindleB]
      rfl
  · exact .refl s
theorem follows_gridRecord (s : State) (input hold : Nat) (v : Option Int) : Follows s (s.gridRecord input hold v) := by
  have heard (z : State) (x : Lighthouse) : Follows z { z with lh := x } := by
    have h : Changes [.lh] z { z with lh := x } := by
      intro p hp
      cases p <;> simp_all [Part.same]
    exact h.follows (by decide)
  have evaluates (vab vbc : Int) (z : State) : Follows z (lighthouseDo hold vab vbc z) := by
    unfold lighthouseDo
    extract_lets h prev r angle fOk vOk good bad wrapped h1 h2 s1
    exact .ite ((heard z h2).trans (follows_event _ _ _ _ _ _ _ _ _ _ _ _)) (heard z h2)
  fun_cases State.gridRecord s input hold v
  · exact (heard s _).trans (evaluates _ _ _)
  all_goals exact heard s _
theorem follows_armWatch (s : State) (n : Nat) : Follows s (s.armWatch n) := by
  fun_cases State.armWatch s n
  · exact .refl s
  · exact follows_setLane rfl
  · exact .refl s
theorem follows_latestRecord (s : State) (r : Result) (hold : Nat) : Follows s (s.latestRecord r hold) := by
  unfold State.latestRecord
  extract_lets valid s1 n s2
  have h1 : Follows s s1 := (changes_ana s _).follows (by decide)
  have h2 : Follows s1 s2 := by
    refine .ite (Follows.trans ?_ (follows_armWatch _ n)) (.refl s1)
    exact .ite ((changes_therm s1 _).follows (by decide)) (.ite (follows_setLane rfl) (.refl s1))
  split
  · exact h1.trans h2
  · exact (h1.trans h2).trans ((changes_moduleSignal s2 _ _ _).follows (by decide))
theorem follows_sendLoop (s : State) (n updated : Nat) : Follows s (s.sendLoop n updated) :=
  .ite ((changes_emit s _).follows (by decide)) (.refl s)
theorem follows_pwmRecord (s : State) (r : Result) : Follows s (s.pwmRecord r) := by
  unfold State.pwmRecord
  extract_lets n l i
  refine .ite ?_ (.ite (follows_stringPeriod s n true) (.ite (follows_setLane rfl) (.ite (follows_setLane rfl) ?_)))
  · exact (follows_setLane (Lane.outputs_phaseSample _ _ _)).trans (follows_sendLoop _ _ _)
  · exact ((follows_setLane (by rfl)).trans (follows_stringPeriod _ n false)).trans (follows_sendLoop _ _ _)
theorem follows_strobeSample (s : State) (n tag hold : Nat) (v : Option Int) : Follows s (s.strobeSample n tag hold v) := by
  unfold State.strobeSample
  extract_lets s1
  have h1 : Follows s s1 := by
    refine Follows.trans (follows_setLane (n := n) (x := (s.lane n).strobeSample tag hold v) rfl) ?_
    exact ((changes_sound _ _).follows (by decide)).trans ((changes_ana _ _).follows (by decide))
  exact .ite (h1.trans ((changes_sound s1 _).follows (by decide))) h1
theorem follows_consume (s : State) (r : Result) (c : Conversion) (source : Nat) : Follows s (s.consume r c source) := by
  have answers (l : List Source) (st : Nat) : Follows s (l.foldl (fun z q => z.answer q 0x0704 st [.struct r.bytes]) s) :=
    follows_foldl (fun z q => follows_answer z q _ _ _) l s
  fun_cases State.consume s r c source
  case case1 => exact (changes_setConv s _ _).follows (by decide)
  case case2 => exact follows_strobeSample s _ _ _ _
  case case3 => exact follows_pwmRecord s r
  case case4 => exact follows_gridRecord s _ _ _
  case case5 => exact follows_event _ _ _ _ _ _ _ _ _ _ _ _
  case case6 => exact answers _ _
  case case7 => exact answers _ _
  case case8 => exact .refl s

/-! ### The requests of a trip (04 R114, R117; 09 R260) -/

theorem follows_setConv (s : State) (k : Nat) (v : Converter) : Follows s (s.setConv k v) := (changes_setConv s k v).follows (by decide)
theorem follows_dropRequest (s : State) (k : Nat) (c : Conversion) (collide : Bool) : Follows s (s.dropRequest k c collide) :=
  (follows_setConv s k _).trans ((follows_latestRecord _ _ _).trans (follows_foldl (fun z q => follows_consume z _ c q) _ _))
theorem follows_loseRequest (s : State) (k : Nat) (c : Option Conversion) : Follows s (s.loseRequest k c) := by
  cases c with
  | none => exact .refl s
  | some c => exact follows_dropRequest s k c true
theorem follows_urgentRequest (s : State) (k : Nat) (l : List Conversion) : Follows s (s.urgentRequest k l) := by
  fun_cases State.urgentRequest s k l
  case case1 => exact .refl s
  case case2 => exact .refl s
  case case4 => exact (follows_setConv s k _).trans (follows_loseRequest _ _ _)
  case case6 => exact (follows_setConv s k _).trans (follows_loseRequest _ _ _)
  case case7 => exact follows_dropRequest s k _ true
  case case9 => exact follows_dropRequest s k _ false
  all_goals exact follows_setConv s k _
theorem follows_tripRequests (s : State) (n cause : Nat) : Follows s (s.tripRequests n cause) := by
  unfold State.tripRequests
  exact (follows_urgentRequest s _ _).trans (follows_urgentRequest _ _ _)

end Sys2Proof.Machine
end

