-- ==== Sys2Proof/Proofs/SafetyTrips.lean ====
section
/-! PROOF. Trips and latches (09 R259, R260): what a trip of one lane leaves of that lane, of the others and of the safety layer, what
trips of several lanes leave, and the permissives that are checked again after them. -/

namespace Sys2Proof.Machine

open Sys2Proof
set_option Elab.async false

/-! ### Reading the safety part -/

theorem laneSafe_of_safety {s t : State} (h : t.safety = s.safety) (n : Nat) : t.laneSafe n = s.laneSafe n := by
  rw [State.laneSafe, h, ← State.laneSafe]
theorem laneSafe_atTime (s : State) (t n : Nat) : (s.atTime t).laneSafe n = s.laneSafe n := laneSafe_of_safety (safety_atTime s t) n
theorem Settled.safety {z u : State} (h : Settled z u) : u.safety = z.safety := h.changes .safety (by decide)
theorem Settled.power {z u : State} (h : Settled z u) : u.power = z.power := h.changes .power (by decide)
theorem changes_setLaneSafe (s : State) (n : Nat) (x : LaneSafety) : Changes [.safety] s (s.setLaneSafe n x) := changes_safety s _
theorem onlyLaneSafe_setLaneSafe (s : State) (n : Nat) (x : LaneSafety) : Only State.laneSafe n [.safety] s (s.setLaneSafe n x) :=
  ⟨fun _ hj => State.laneSafe_setLaneSafe_ne s x hj, changes_safety s _⟩

theorem mem_addCause (c : Nat) (l : List Nat) : c ∈ addCause c l := by
  unfold addCause
  induction l with
  | nil => exact List.mem_singleton.2 rfl
  | cons b r ih =>
    unfold insertAsc
    split_ifs with h1 h2
    · exact h1 ▸ List.mem_cons_self
    · exact List.mem_cons_self
    · exact List.mem_cons_of_mem b ih

theorem Lane.state_of_trip {l : Lane} {x : LaneState × Nat × Bool} (h : l.trip = x) : l.state = x.1 := congrArg Prod.fst h
theorem Lane.cause_of_trip {l : Lane} {x : LaneState × Nat × Bool} (h : l.trip = x) : l.cause = x.2.1 :=
  congrArg (fun y => y.2.1) h
theorem Lane.gatesForced_of_trip {l : Lane} {x : LaneState × Nat × Bool} (h : l.trip = x) : l.gatesForced = x.2.2 :=
  congrArg (fun y => y.2.2) h

/-! ### What trips leave -/

/-- From `s` to `t` the safety part counts trips and sets latches, and nothing else of it differs. -/
structure LatchesSet (s t : State) : Prop where
  safety : t.safety = { s.safety with
    lanes := t.safety.lanes, moduleLatch := t.safety.moduleLatch, moduleCauses := t.safety.moduleCauses, trips := t.safety.trips }
  module : s.safety.moduleLatch = true → t.safety.moduleLatch = true
  lane : ∀ n, t.laneSafe n = { s.laneSafe n with latch := (t.laneSafe n).latch, latchCauses := (t.laneSafe n).latchCauses }
  latch : ∀ n, (s.laneSafe n).latch = true → (t.laneSafe n).latch = true

theorem LatchesSet.of_safety {s t : State} (h : t.safety = s.safety) : LatchesSet s t :=
  ⟨by rw [h], fun hs => by rwa [h], fun n => by rw [laneSafe_of_safety h], fun n hs => by rwa [laneSafe_of_safety h]⟩
theorem LatchesSet.refl (s : State) : LatchesSet s s := .of_safety rfl
theorem LatchesSet.trans {s t u : State} (h : LatchesSet s t) (g : LatchesSet t u) : LatchesSet s u :=
  ⟨g.safety.trans (by rw [h.safety]), fun hs => g.module (h.module hs), fun n => (g.lane n).trans (by rw [h.lane n]),
    fun n hs => g.latch n (h.latch n hs)⟩

/-- What a trip touches. -/
abbrev tripParts : List Part := .safety :: followParts

/-- From `s` to `t` goes what trips of some lanes do, with what follows them: a lane that was TRIPPED stays as it was. -/
structure Tripping (s t : State) : Prop where
  parts : Changes tripParts s t
  latches : LatchesSet s t
  tripped : ∀ n, (s.lane n).state = .tripped → (t.lane n).trip = (s.lane n).trip ∧ (t.lane n).outputs = (s.lane n).outputs
  alarms : t.recorder.alarms = s.recorder.alarms
  lans : t.net.lans = s.net.lans
  resets : ResetsKept s t

theorem Tripping.refl (s : State) : Tripping s s := ⟨.refl _ s, .refl s, fun _ _ => ⟨rfl, rfl⟩, rfl, rfl, fun _ _ => id⟩
theorem Tripping.state {s t : State} (h : Tripping s t) {n : Nat} (hn : (s.lane n).state = .tripped) : (t.lane n).state = .tripped :=
  (Lane.state_of_trip (h.tripped n hn).1).trans hn
theorem Tripping.trans {s t u : State} (h : Tripping s t) (g : Tripping t u) : Tripping s u := by
  refine ⟨h.parts.trans g.parts, h.latches.trans g.latches, fun n hn => ?_, g.alarms.trans h.alarms, g.lans.trans h.lans,
    h.resets.trans g.resets⟩
  obtain ⟨htrip, houtputs⟩ := h.tripped n hn
  obtain ⟨gtrip, goutputs⟩ := g.tripped n (h.state hn)
  exact ⟨gtrip.trans htrip, goutputs.trans houtputs⟩
theorem Tripping.ite {s t u : State} {c : Prop} [Decidable c] (h : Tripping s t) (k : Tripping s u) :
    Tripping s (if c then t else u) := by
  split
  · exact h
  · exact k
theorem tripping_foldl {α : Type} {f : State → α → State} (h : ∀ z x, Tripping z (f z x)) (l : List α) (s : State) :
    Tripping s (l.foldl f s) :=
  List.foldlRecOn (motive := fun z => Tripping s z) _ _ (.refl s) fun z hz x _ => hz.trans (h z x)
theorem Follows.tripping {s t : State} (h : Follows s t) (hk : TripsKept s t) : Tripping s t :=
  ⟨h.parts.mono (by decide), .of_safety (h.parts .safety (by decide)), fun n _ => ⟨hk n, h.outputs n⟩, h.alarms, h.lans, h.resets⟩

/-- A change of the safety part that only counts trips and sets latches. -/
theorem LatchesSet.tripping {s t : State} (h : LatchesSet s t) (hp : Changes [.safety] s t) : Tripping s t := by
  have hlane (n : Nat) := hp.lane (by decide) n
  refine ⟨hp.mono (by decide), h, fun n _ => ⟨by rw [hlane], by rw [hlane]⟩, ?_, ?_, resetsKept_of_boxes ?_⟩
  · exact congrArg Recorder.alarms (hp .recorder (by decide))
  · exact congrArg Net.lans (hp .net (by decide))
  · exact congrArg Mbox.boxes (hp .mbox (by decide))

theorem changes_latchFor (s : State) (n c : Nat) : Changes [.safety] s (s.latchFor n c) :=
  .ite (changes_setLaneSafe s n _) (.ite (changes_safety s _) (.refl _ s))
theorem latchesSet_latchFor (s : State) (n c : Nat) : LatchesSet s (s.latchFor n c) := by
  fun_cases State.latchFor s n c
  · refine ⟨rfl, id, fun j => ?_, fun j hj => ?_⟩
    · by_cases h : j = n
      · rw [h, State.updLaneSafe_eq, State.laneSafe_setLaneSafe_same]
      · rw [State.updLaneSafe_eq, State.laneSafe_setLaneSafe_ne _ _ h]
    · by_cases h : j = n
      · rw [h, State.updLaneSafe_eq, State.laneSafe_setLaneSafe_same]
      · rwa [State.updLaneSafe_eq, State.laneSafe_setLaneSafe_ne _ _ h]
  · exact ⟨rfl, fun _ => rfl, fun _ => rfl, fun _ => id⟩
  · exact .refl s
theorem tripping_latchFor (s : State) (n c : Nat) : Tripping s (s.latchFor n c) :=
  (latchesSet_latchFor s n c).tripping (changes_latchFor s n c)
theorem latch_latchFor {s : State} {c : Nat} (n : Nat) (h : latchesLane c = true) : ((s.latchFor n c).laneSafe n).latch = true := by
  rw [State.latchFor, if_pos h, State.updLaneSafe_eq, State.laneSafe_setLaneSafe_same]
theorem moduleLatch_latchFor {s : State} {c : Nat} (n : Nat) (hl : latchesLane c = false) (h : latchesModule c = true) :
    (s.latchFor n c).safety.moduleLatch = true := by
  rw [State.latchFor, if_neg (by simp [hl]), if_pos h]

/-! ### The trip of one lane (09 R260, 05 R140, R162) -/

/-- What a trip of a lane does before the lane itself goes to TRIPPED: its latch, its record and its count. -/
def State.tripNoted (s : State) (n c : Nat) (v0 : Option Int) : State :=
  let s1 := (s.latchFor n c).event evLaneTrip 1 n (cause := c) (v0 := v0) (src := some (tripSource c))
  { s1 with safety := { s1.safety with trips := tset s1.safety.trips c (inc64 (tget 0 s1.safety.trips c)) } }

theorem tripLane_cases (s : State) (n c : Nat) (v0 : Option Int) : s.tripLane n c v0 =
    if (s.lane n).state = .unconfigured then s
    else if (s.lane n).state = .tripped then s.tripNoted n c v0
    else (((s.tripNoted n c v0).setLane n ((s.lane n).toTripped c s.now)).runLeft n ocLaneState).tripRequests n c := by
  unfold State.tripLane State.tripNoted
  simp only [beq_iff_eq]

theorem lanes_tripNoted (s : State) (n c : Nat) (v0 : Option Int) : (s.tripNoted n c v0).lanes = s.lanes :=
  (lanes_event ..).trans (changes_latchFor s n c .lanes (by decide))
theorem tripping_tripNoted (s : State) (n c : Nat) (v0 : Option Int) : Tripping s (s.tripNoted n c v0) := by
  have noted (z : State) : Tripping z (z.event evLaneTrip 1 n c v0 none none (some (tripSource c))) :=
    (follows_event z _ _ _ _ _ _ _ _ _ _ _).tripping fun j => congrArg Lane.trip (lane_of_lanes (lanes_event ..) j)
  have counted (z : State) (x : Table Nat) : Tripping z { z with safety := { z.safety with trips := x } } :=
    LatchesSet.tripping ⟨rfl, id, fun _ => rfl, fun _ => id⟩ (changes_safety z _)
  exact ((tripping_latchFor s n c).trans (noted _)).trans (counted _ _)
theorem latch_tripNoted {s : State} {c : Nat} (n : Nat) (v0 : Option Int) (h : latchesLane c = true) :
    ((s.tripNoted n c v0).laneSafe n).latch = true := by
  have kept : (s.tripNoted n c v0).laneSafe n = (s.latchFor n c).laneSafe n := by
    simp only [State.tripNoted, State.laneSafe, safety_event]
  rw [kept, latch_latchFor n h]

theorem tripping_setLane {s : State} {n : Nat} (x : Lane) (h : (s.lane n).state ≠ .tripped) : Tripping s (s.setLane n x) := by
  refine ⟨(changes_setLane s n x).mono (by decide), .of_safety rfl, fun j hj => ?_, rfl, rfl, fun _ _ => id⟩
  have hne : j ≠ n := fun hn => h (hn.symm ▸ hj)
  rw [State.lane_setLane_ne s x hne]
  exact ⟨rfl, rfl⟩

/-- What follows the lane's going to TRIPPED. -/
theorem tripping_followers (s : State) (n c : Nat) : Tripping s ((s.runLeft n ocLaneState).tripRequests n c) :=
  ((follows_runLeft s n ocLaneState).tripping ((changes_runLeft s n _).tripsKept (by decide))).trans
    ((follows_tripRequests _ n c).tripping (tripsKept_tripRequests _ n c))
theorem tripsKept_followers (s : State) (n c : Nat) : TripsKept s ((s.runLeft n ocLaneState).tripRequests n c) :=
  ((changes_runLeft s n _).tripsKept (by decide)).trans (tripsKept_tripRequests _ n c)

theorem tripping_tripLane (s : State) (n c : Nat) (v0 : Option Int) : Tripping s (s.tripLane n c v0) := by
  rw [tripLane_cases]
  split
  · exact .refl s
  · split
    · exact tripping_tripNoted s n c v0
    · next hn =>
      refine ((tripping_tripNoted s n c v0).trans (tripping_setLane _ ?_)).trans (tripping_followers _ n c)
      rwa [lane_of_lanes (lanes_tripNoted s n c v0)]
/-- The trip of a lane leaves the state and the cause of every other. -/
theorem trip_tripLane_ne {s : State} {n j : Nat} (c : Nat) (v0 : Option Int) (h : j ≠ n) :
    ((s.tripLane n c v0).lane j).trip = (s.lane j).trip := by
  have noted : ((s.tripNoted n c v0).lane j) = s.lane j := lane_of_lanes (lanes_tripNoted s n c v0) j
  rw [tripLane_cases]
  split
  · rfl
  · split
    · rw [noted]
    · rw [tripsKept_followers, State.lane_setLane_ne _ _ h, noted]

/-- The contactor outputs of a lane that trips fall together; its helm line stays. -/
theorem Lane.outputs_toTripped (l : Lane) (c now : Nat) : (l.toTripped c now).outputs = (false, false, false, l.helmOut) := by
  simp [Lane.outputs, Lane.toTripped, Lane.openAll, Lane.driveK, Lane.updContactor, Lane.forceGates]
theorem outputs_tripLane {s : State} {n : Nat} (c : Nat) (v0 : Option Int) (hu : (s.lane n).state ≠ .unconfigured)
    (ht : (s.lane n).state ≠ .tripped) : ((s.tripLane n c v0).lane n).outputs = (false, false, false, (s.lane n).helmOut) := by
  rw [tripLane_cases, if_neg hu, if_neg ht, (follows_tripRequests _ n c).outputs, (follows_runLeft _ n _).outputs,
    State.lane_setLane_same, Lane.outputs_toTripped]
theorem latch_tripLane {s : State} {n c : Nat} (v0 : Option Int) (hu : (s.lane n).state ≠ .unconfigured)
    (h : latchesLane c = true) : ((s.tripLane n c v0).laneSafe n).latch = true := by
  rw [tripLane_cases, if_neg hu]
  split
  · exact latch_tripNoted n v0 h
  · exact (tripping_followers _ n c).latches.latch n (latch_tripNoted n v0 h)

/-! ### Trips of several lanes (09 R259, R260) -/

/-- A lane that is configured and not yet TRIPPED trips for the cause when its turn comes. -/
theorem trip_foldl {c n : Nat} {l : List Nat} {s : State} (hn : n ∈ l) (hu : (s.lane n).state ≠ .unconfigured)
    (ht : (s.lane n).state ≠ .tripped) : ((l.foldl (fun z k => z.tripLane k c) s).lane n).trip = (.tripped, c, true) := by
  induction l generalizing s with
  | nil => exact absurd hn List.not_mem_nil
  | cons k r ih =>
    rw [List.foldl_cons]
    by_cases hk : n = k
    · subst hk
      have htrip := trip_tripLane c none hu ht
      exact ((tripping_foldl (fun z k => tripping_tripLane z k c none) r _).tripped n (Lane.state_of_trip htrip)).1.trans htrip
    · have hkept : ((s.tripLane k c).lane n).state = (s.lane n).state := Lane.state_of_trip (trip_tripLane_ne c none hk)
      exact ih ((List.mem_cons.1 hn).resolve_left hk) (by rwa [hkept]) (by rwa [hkept])

theorem tripping_tripCauses (s : State) (n : Nat) (cs : List Nat) : Tripping s (s.tripCauses n cs) :=
  tripping_foldl (fun z c => tripping_tripLane z n c none) _ s
theorem tripping_tripNew (s before : State) (c : Nat) (lanes : List Nat) : Tripping s (s.tripNew before c lanes) :=
  tripping_foldl (fun z n => tripping_tripLane z n c none) _ s
/-- A lane on which the cause arrives trips for it. -/
theorem trip_tripNew {s before : State} {c n : Nat} {lanes : List Nat} (hn : n ∈ lanes) (hc : s.causeActive n c = true)
    (ha : before.arrives n c = true) (hu : (s.lane n).state ≠ .unconfigured) (ht : (s.lane n).state ≠ .tripped) :
    ((s.tripNew before c lanes).lane n).trip = (.tripped, c, true) :=
  trip_foldl (List.mem_filter.2 ⟨hn, by rw [hc, ha]; rfl⟩) hu ht
/-- A cause arrives at a lane that is not TRIPPED. -/
theorem arrives_of_ne {s : State} {n : Nat} (c : Nat) (h : (s.lane n).state ≠ .tripped) : s.arrives n c = true := by
  simp [State.arrives, h]

/-! ### Permissives that are checked again (05 R157, R160) -/

theorem alarms_recheckArming (s : State) : s.recheckArming.recorder.alarms = s.recorder.alarms := by
  have abandoned (z : State) (n : Nat) (c : Option Nat) : (z.abandonArming n c).recorder.alarms = z.recorder.alarms := by
    fun_cases State.abandonArming z n c
    · rfl
    · exact alarms_event ..
    · rfl
  unfold State.recheckArming
  refine List.foldlRecOn (motive := fun z : State => z.recorder.alarms = s.recorder.alarms) _ _ rfl fun z hz n _ => ?_
  split
  · exact hz
  · have opened := changes_shadowOpens (z.abandonArming n (some stNotPermitted)) n .recorder (by decide)
    rw [congrArg Recorder.alarms opened, abandoned, hz]
theorem tripping_recheckArming (s : State) : Tripping s s.recheckArming := by
  have checked := changes_recheckArming s
  refine ⟨checked.mono (by decide), .of_safety (checked .safety (by decide)), fun n hn => ?_, alarms_recheckArming s,
    congrArg Net.lans (checked .net (by decide)), resetsKept_of_boxes (congrArg Mbox.boxes (checked .mbox (by decide)))⟩
  rw [lane_recheckArming (by simp [hn]) (by simp [hn])]
  exact ⟨rfl, rfl⟩
/-- Where no lane is armed, none arms and none is in SHADOW: the check changes nothing. -/
theorem recheckArming_of_disarmed {s : State} (h : s.anyArmed = false) : s.recheckArming = s := by
  have disarmed {n : Nat} (hn : n < 8) : laneArmed (s.lane n).state = false := by
    simpa using List.any_eq_false.1 h n (List.mem_range.2 hn)
  refine List.foldlRecOn (motive := fun z : State => z = s) _ _ rfl fun z hz n hn => ?_
  rw [hz]
  have hstate := disarmed (List.mem_range.1 hn)
  have abandons : s.abandonArming n (some stNotPermitted) = s := by
    rw [State.abandonArming, if_neg]
    cases h : (s.lane n).state <;> simp_all [laneArmed]
  have opens : s.shadowOpens n = s := by
    rw [State.shadowOpens, if_neg]
    cases h : (s.lane n).state <;> simp_all [laneArmed]
  rw [abandons, opens, ite_self]

/-! ### A cause whose scope is every lane -/

theorem tripping_tripEvery (s before : State) (c : Nat) : Tripping s (s.tripEvery before c) :=
  ((tripping_latchFor s 0 c).trans (tripping_tripNew _ before c _)).trans (tripping_recheckArming _)
theorem tripping_tripLinks (s before : State) : Tripping s (s.tripLinks before) :=
  (tripping_foldl (fun z n => tripping_tripCauses z n _) _ s).trans (tripping_recheckArming _)

theorem lane_latchFor (s : State) (n c k : Nat) : (s.latchFor n c).lane k = s.lane k := (changes_latchFor s n c).lane (by decide) k

/-- Every lane that is configured and not TRIPPED before the cause trips for it. -/
theorem trip_tripEvery {s before : State} {c n : Nat} (hn : n < 8) (hc : (s.latchFor 0 c).causeActive n c = true)
    (hb : before.lane n = s.lane n) (hu : (s.lane n).state ≠ .unconfigured) (ht : (s.lane n).state ≠ .tripped) :
    ((s.tripEvery before c).lane n).trip = (.tripped, c, true) := by
  have htrip : (((s.latchFor 0 c).tripNew before c (List.range 8)).lane n).trip = (.tripped, c, true) :=
    trip_tripNew (List.mem_range.2 hn) hc (arrives_of_ne c (by rwa [hb])) (by rwa [lane_latchFor]) (by rwa [lane_latchFor])
  exact ((tripping_recheckArming _).tripped n (Lane.state_of_trip htrip)).1.trans htrip
/-- A cause of the module that is active on every lane trips every lane that is configured. -/
theorem allTripped_tripEvery {s before : State} {c : Nat} (hc : ∀ n, (s.latchFor 0 c).causeActive n c = true)
    (hb : before.lanes = s.lanes) : AllTripped before (s.tripEvery before c) := by
  intro n hn hu
  have hlane : before.lane n = s.lane n := lane_of_lanes hb n
  by_cases ht : (s.lane n).state = .tripped
  · exact (tripping_tripEvery s before c).state ht
  · have htrip := trip_tripEvery (before := before) hn (hc n) hlane (by rwa [← hlane]) ht
    exact Lane.state_of_trip htrip
theorem moduleLatch_tripEvery {s before : State} {c : Nat} (hl : latchesLane c = false) (h : latchesModule c = true) :
    (s.tripEvery before c).safety.moduleLatch = true := by
  unfold State.tripEvery
  have kept := (tripping_tripNew (s.latchFor 0 c) before c (List.range 8)).trans (tripping_recheckArming _)
  exact kept.latches.module (moduleLatch_latchFor 0 hl h)

end Sys2Proof.Machine
end

