-- ==== Sys2Proof/Proofs/SafetyInputs.lean ====
section
/-! PROOF. The hardwired inputs, the safe outputs and CLEAR (O30): what a cause leaves whose scope is every lane, what a clean CLEAR edge
releases, and then each event. -/

namespace Sys2Proof.Machine

open Sys2Proof
set_option Elab.async false

/-! ### A cause of the module (09 R259, R260) -/

theorem safetyRuns_atTime (s : State) (t : Nat) : (s.atTime t).safetyRuns = s.safetyRuns := by
  rw [State.safetyRuns, power_atTime, ← State.safetyRuns]

/-- A field of the safety part other than latches and counts of trips is as it was. -/
theorem LatchesSet.kept {α : Type} {s t : State} (h : LatchesSet s t) (f : Safety → α)
    (hf : ∀ a l m c x, f { a with lanes := l, moduleLatch := m, moduleCauses := c, trips := x } = f a) :
    f t.safety = f s.safety := by
  rw [h.safety, hf]

/-- A cause that is active on every lane and latches the module leaves the latch set and every configured lane TRIPPED, a lane in RUN
for that cause. -/
theorem Settled.everyTripped {s z u : State} {t c : Nat} (hu : Settled (z.tripEvery (s.atTime t) c) u) (hz : z.lanes = s.lanes)
    (hc : ∀ n, (z.latchFor 0 c).causeActive n c = true) (hl : latchesLane c = false) (hm : latchesModule c = true) :
    u.safety.moduleLatch = true ∧ AllTripped s u ∧ (∀ n, n < 8 → (s.lane n).state = .run → (u.lane n).cause = c) := by
  have hbefore : (s.atTime t).lanes = z.lanes := (lanes_atTime s t).trans hz.symm
  refine ⟨?_, fun n hn hs => ?_, fun n hn hs => ?_⟩
  · rw [hu.safety]
    exact moduleLatch_tripEvery hl hm
  · rw [hu.lane]
    exact allTripped_tripEvery hc hbefore n hn (by rwa [lane_atTime])
  · have hlane : z.lane n = s.lane n := lane_of_lanes hz n
    rw [hu.lane]
    exact Lane.cause_of_trip (trip_tripEvery hn (hc n) (lane_of_lanes hbefore n) (by simp [hlane, hs]) (by simp [hlane, hs]))

/-! ### E-STOP and FIRE (09 R267) -/

/-- The channel whose level falls is low, and the other stays high. -/
theorem estop_trips {s : State} (t : Nat) (b : Bool) (hr : s.safetyRuns = true) (ha : s.safety.estopA = true)
    (hb : s.safety.estopB = true) : ∃ u, exec (.estop t b) s = .next u ∧ u.safety.estopA = b ∧ u.safety.estopB = !b ∧
      u.safety.moduleLatch = true ∧ AllTripped s u ∧ (∀ n, n < 8 → (s.lane n).state = .run → (u.lane n).cause = trEstop) := by
  rw [exec_estop, execEstop]
  refine when_imp (by cases b <;> simp [safetyRuns_atTime, hr, ha, hb]) fun u hu => ?_
  have levels : (if b = true then (s.atTime t).estopLevels (s.atTime t).safety.estopA false
      else (s.atTime t).estopLevels false (s.atTime t).safety.estopB) = (s.atTime t).estopLevels b (!b) := by
    cases b <;> simp [ha, hb]
  rw [levels] at hu
  have active (n : Nat) : (((s.atTime t).estopLevels b (!b)).latchFor 0 trEstop).causeActive n trEstop = true := by
    cases b <;> rfl
  obtain ⟨hlatch, htripped, hcause⟩ := hu.everyTripped (lanes_atTime s t) active rfl rfl
  have kept := (tripping_tripEvery ((s.atTime t).estopLevels b (!b)) (s.atTime t) trEstop).latches
  refine ⟨?_, ?_, hlatch, htripped, hcause⟩
  · rw [hu.safety]
    exact kept.kept (·.estopA) fun _ _ _ _ _ => rfl
  · rw [hu.safety]
    exact kept.kept (·.estopB) fun _ _ _ _ _ => rfl

theorem estopDiscrepancy_latches {s : State} {t a : Nat} (hr : s.safetyRuns = true) (hd : s.safety.discrepancy = false)
    (hs : s.safety.discrepancySince = some a) (ha : a + s.safety.discTime * 1000000 ≤ s.nowAt t) :
    ∃ u, exec (.estopDiscrepancy t) s = .next u ∧ u.safety.discrepancy = true ∧ u.safety.moduleLatch = true ∧
      trEstop ∈ u.safety.moduleCauses := by
  rw [exec_estopDiscrepancy, execEstopDiscrepancy]
  refine when_imp (by simpa [safetyRuns_atTime, hr, hd, hs, elapsedO, elapsed] using ha) fun u hu => ?_
  rw [hu.safety, changes_recheckArming _ .safety (by decide), safety_event]
  exact ⟨rfl, rfl, mem_addCause trEstop _⟩

theorem estopRecovered_ends {s : State} {t a : Nat} (hd : s.safety.discrepancy = true) (hs : s.safety.bothHighSince = some a)
    (ha : a + 1000000000 ≤ s.nowAt t) : ∃ u, exec (.estopRecovered t) s = .next u ∧
      u.safety = { s.safety with discrepancy := false } ∧ Moves [.safety] s u := by
  rw [exec_estopRecovered, execEstopRecovered]
  refine when_imp (by simpa [hd, hs, elapsedO, elapsed] using ha) fun u hu => ?_
  exact ⟨by rw [hu.safety, safety_atTime], hu.moves_from ((changes_safety _ _).moves (by decide))⟩

theorem fire_trips {s : State} (t : Nat) (hr : s.safetyRuns = true) (hf : s.safety.fireIn = true) (he : s.safety.fireEnable = true) :
    ∃ u, exec (.fire t) s = .next u ∧ u.safety.fireIn = false ∧ u.safety.moduleLatch = true ∧ AllTripped s u ∧
      (∀ n, n < 8 → (s.lane n).state = .run → (u.lane n).cause = trFire) := by
  rw [exec_fire, execFire]
  refine when_imp (by simp [safetyRuns_atTime, hr, hf]) fun u hu => ?_
  extract_lets a z at hu
  rw [if_pos (by simp [he])] at hu
  have active (n : Nat) : (z.latchFor 0 trFire).causeActive n trFire = true := by
    have hz : (z.latchFor 0 trFire).safety.fireEnable = true := (congrArg Safety.fireEnable (safety_atTime s t)).trans he
    show ((z.latchFor 0 trFire).safety.fireEnable && !false) = true
    rw [hz]
    rfl
  obtain ⟨hlatch, htripped, hcause⟩ := hu.everyTripped (lanes_atTime s t) active rfl rfl
  refine ⟨?_, hlatch, htripped, hcause⟩
  rw [hu.safety]
  exact (tripping_tripEvery z (s.atTime t) trFire).latches.kept (·.fireIn) fun _ _ _ _ _ => rfl
theorem fire_disabled {s : State} (t : Nat) (hr : s.safetyRuns = true) (hf : s.safety.fireIn = true) (he : s.safety.fireEnable = false) :
    ∃ u, exec (.fire t) s = .next u ∧ u.safety = { s.safety with fireIn := false } ∧ Moves [.safety] s u := by
  rw [exec_fire, execFire]
  refine when_imp (by simp [safetyRuns_atTime, hr, hf]) fun u hu => ?_
  extract_lets a z at hu
  rw [if_neg (by simp [he])] at hu
  exact ⟨by rw [hu.safety, ← safety_atTime s t], hu.moves_from ((changes_safety _ _).moves (by decide))⟩

theorem safetyInputHealthy_noted {s : State} (t : Nat) (i : SafeInput) (hr : s.safetyRuns = true) :
    ∃ u, exec (.safetyInputHealthy t i) s = .next u ∧ u.safety.estopA = (s.safety.estopA || i == .estopA) ∧
      u.safety.estopB = (s.safety.estopB || i == .estopB) ∧ u.safety.fireIn = (s.safety.fireIn || i == .fireIn) ∧
      u.safety.moduleLatch = s.safety.moduleLatch ∧ Moves [.safety] s u := by
  rw [exec_safetyInputHealthy, execSafetyInputHealthy]
  refine when_imp (by rw [safetyRuns_atTime, hr]) fun u hu => ?_
  rw [hu.safety, ← safety_atTime s t]
  cases i <;> refine ⟨?_, ?_, ?_, rfl, hu.moves_from ((changes_safety _ _).moves (by decide))⟩ <;>
    simp [State.estopLevels]

/-! ### Safe outputs (09 R268) -/

theorem alarmOn_of_alarms {s t : State} (h : t.recorder.alarms = s.recorder.alarms) (c k o : Nat) :
    t.alarmOn c k o = s.alarmOn c k o := by
  rw [State.alarmOn, h, ← State.alarmOn]

theorem safeOutFault_trips {s : State} (t : Nat) {k : Nat} (hk : k < 4) (hr : s.safetyRuns = true) (hc : s.safety.outConfigured = true)
    (ho : tget none s.safety.outRead k = none) : ∃ u, exec (.safeOutFault t k) s = .next u ∧ u.safety.outFault = true ∧
      u.safety.moduleLatch = true ∧ AllTripped s u ∧ u.alarmOn evSafeOutFault 0 0 := by
  rw [exec_safeOutFault, execSafeOutFault]
  refine whenOn_imp (decide_eq_true hk) (by simp [safetyRuns_atTime, hr, hc, ho]) fun u hu => ?_
  extract_lets a z at hu
  obtain ⟨y, hy⟩ : ∃ y, y = z.raise evSafeOutFault 0 0 (v0 := some k) := ⟨_, rfl⟩
  rw [← hy] at hu
  have hfault : y.safety.outFault = true := by rw [hy, safety_raise]
  have hlanes : y.lanes = s.lanes := by rw [hy, lanes_raise, ← lanes_atTime s t]
  have active (n : Nat) : (y.latchFor 0 trSafeOut).causeActive n trSafeOut = true := hfault
  obtain ⟨hlatch, htripped, -⟩ := hu.everyTripped hlanes active rfl rfl
  have kept := tripping_tripEvery y (s.atTime t) trSafeOut
  refine ⟨?_, hlatch, htripped, ?_⟩
  · rw [hu.safety]
    exact (kept.latches.kept (·.outFault) fun _ _ _ _ _ => rfl).trans hfault
  · rw [alarmOn_of_recorder hu.recorder, alarmOn_of_alarms kept.alarms, hy, alarmOn_raise]

/-! ### CLEAR (09 R271 to R273) -/

theorem Safety.outputs_agreeing {a : Safety} (hr : a.outRead = []) (hf : a.outFault = false) :
    { a with outRead := [], outFault := false } = a := by
  rw [← hf, ← hr]
/-- Where no read-back has disagreed there is nothing to check. -/
theorem outCheck_agreeing {s : State} (hr : s.safety.outRead = []) (hf : s.safety.outFault = false) : s.outCheck = s := by
  unfold State.outCheck
  simp only [hr, hf, List.filter_nil, List.isEmpty_nil, Bool.not_true, Bool.false_and, Bool.false_eq_true, if_false]
  rw [Safety.outputs_agreeing hr hf]

theorem clearLatches_none {s : State} (h : ∀ n, n < 8 → (s.laneSafe n).latch = false) :
    s.clearLatches = if s.safety.moduleLatch then s.clearLatch none s.safety.moduleCauses else s := by
  have lanes : (List.range 8).foldl (fun z n =>
      if (z.laneSafe n).latch then z.clearLatch (some n) (z.laneSafe n).latchCauses else z) s = s := by
    refine List.foldlRecOn (motive := fun z : State => z = s) _ _ rfl fun z hz n hn => ?_
    rw [hz, if_neg (by simp [h n (List.mem_range.1 hn)])]
  unfold State.clearLatches
  rw [lanes]

/-- A latch none of whose causes is active is released, with its record. -/
theorem clearLatch_released {s : State} {causes : List Nat} (h : ∀ c ∈ causes, s.causeActive 0 c = false) :
    s.clearLatch none causes = ({ s with safety := { s.safety with moduleLatch := false, moduleCauses := [] } } : State).event
      evLatchReleased 0 0 := by
  have inactive : (causes.find? fun c => s.causeActive 0 c) = none := List.find?_eq_none.2 fun c hc => by simp [h c hc]
  simp only [State.clearLatch, Option.isNone_none, Option.getD_none, inactive, if_true]

/-- A clean edge outside BARE ROCK releases the module latch whose causes are gone, where no lane's latch is set. -/
theorem cleanEdge_released {s : State} (hrock : s.power.state ≠ .bareRock) (hf : s.safety.outFault = false)
    (hr : s.safety.outRead = []) (hm : s.safety.moduleLatch = true) (hl : ∀ n, n < 8 → (s.laneSafe n).latch = false)
    (hc : ∀ c ∈ s.safety.moduleCauses, s.causeActive 0 c = false) :
    ∃ rx, s.cleanEdge.safety = { s.safety with
      clearsOk := inc64 s.safety.clearsOk, moduleLatch := false, moduleCauses := [], rx := rx } ∧
      Changes [.safety, .recorder] s s.cleanEdge := by
  obtain ⟨z, hz⟩ : ∃ z : State, z = { s with safety := { s.safety with clearsOk := inc64 s.safety.clearsOk } } := ⟨_, rfl⟩
  have counted : Changes [.safety] s z := hz ▸ changes_safety s _
  have checked : z.outCheck = z := by
    rw [hz]
    exact outCheck_agreeing hr hf
  have released : z.clearLatches = ({ z with safety := { z.safety with moduleLatch := false, moduleCauses := [] } } : State).event
      evLatchReleased 0 0 := by
    have hlatch : z.safety.moduleLatch = true := by rw [hz, hm]
    rw [clearLatches_none (by rw [hz]; exact hl), if_pos hlatch]
    exact clearLatch_released (by rw [hz]; exact hc)
  unfold State.cleanEdge
  extract_lets a s1 s2 b s3
  have h1 : s1 = z := (congrArg State.outCheck hz.symm).trans checked
  have h2 : s2 = ({ z with safety := { z.safety with moduleLatch := false, moduleCauses := [] } } : State).event
      evLatchReleased 0 0 := by rw [← released, ← h1]
  have h2s : s2.safety = { z.safety with moduleLatch := false, moduleCauses := [] } := by rw [h2, safety_event]
  have h2c : Changes [.safety, .recorder] z s2 := by
    rw [h2]
    exact ((changes_safety z _).mono (by decide)).trans ((changes_event _ _ _ _ _ _ _ _ _ _ _ _).mono (by decide))
  have h3 : Changes [.safety, .recorder] s s3 :=
    (counted.mono (by decide)).trans (h2c.trans ((changes_safety s2 _).mono (by decide)))
  have hstate : s3.power.state ≠ .bareRock := by rwa [h3 .power (by decide)]
  rw [if_neg (by simp [hstate])]
  refine ⟨s2.safety.rx.map fun r => { r with stuck := false }, ?_, h3⟩
  have freed : s3.safety = { s2.safety with rx := s2.safety.rx.map fun r => { r with stuck := false } } := rfl
  rw [freed, h2s, hz]

theorem clearEdge_released {s : State} {t lo hi : Nat} (hr : s.safetyRuns = true)
    (hfell : s.safety.clearFell.getD 0 + lo + hi ≤ s.nowAt t) (hlo : 50000000 ≤ lo) (hhi : 100000000 ≤ hi) (hmax : hi ≤ 2000000000)
    (hrock : s.power.state ≠ .bareRock) (hf : s.safety.outFault = false) (ho : s.safety.outRead = [])
    (hm : s.safety.moduleLatch = true) (hl : ∀ n, n < 8 → (s.laneSafe n).latch = false)
    (hc : ∀ c ∈ s.safety.moduleCauses, (s.atTime t).causeActive 0 c = false) :
    ∃ u, exec (.clearEdge t lo hi) s = .next u ∧ u.safety.moduleLatch = false ∧ u.safety.moduleCauses = [] ∧
      u.safety.clearsOk = inc64 s.safety.clearsOk ∧ u.safety.clear = false ∧ u.safety.clearFell = some (s.nowAt t) ∧
      Moves [.safety, .recorder] s u := by
  rw [exec_clearEdge, execClearEdge]
  refine when_imp (by simpa [safetyRuns_atTime, hr] using hfell) fun u hu => ?_
  extract_lets a z at hu
  rw [if_pos (by simp [within, hlo, hhi, hmax])] at hu
  have hsafety := safety_atTime s t
  obtain ⟨rx, hreleased, hchanges⟩ := cleanEdge_released (s := z) (by rwa [← power_atTime s t] at hrock) (by rwa [← hsafety] at hf)
    (by rwa [← hsafety] at ho) (by rwa [← hsafety] at hm) (fun n hn => (congrArg LaneSafety.latch (laneSafe_atTime s t n)).trans (hl n hn))
    (fun c hcause => hc c (by rwa [← hsafety]))
  rw [hu.safety, hreleased]
  refine ⟨rfl, rfl, ?_, rfl, rfl, hu.moves_from (t := t) ?_⟩
  · show inc64 (s.atTime t).safety.clearsOk = inc64 s.safety.clearsOk
    rw [hsafety]
  · exact ((changes_safety (s.atTime t) _).moves (by decide)).trans (hchanges.moves (by decide))

theorem clearEdge_refused {s : State} {t lo hi : Nat} (hr : s.safetyRuns = true)
    (hfell : s.safety.clearFell.getD 0 + lo + hi ≤ s.nowAt t) (h : lo < 50000000 ∨ hi < 100000000 ∨ 2000000000 < hi) :
    ∃ u, exec (.clearEdge t lo hi) s = .next u ∧ u.safety = { s.safety with
      clear := false, clearStuck := false, clearFell := some (s.nowAt t), clearsRefused := inc64 s.safety.clearsRefused } ∧
      Moves [.safety] s u := by
  rw [exec_clearEdge, execClearEdge]
  refine when_imp (by simpa [safetyRuns_atTime, hr] using hfell) fun u hu => ?_
  extract_lets a z at hu
  have unclean : ¬ ((decide (50000000 ≤ lo) && within 100000000 2000000000 hi) = true) := by
    simp only [within, Bool.and_eq_true, decide_eq_true_eq]
    omega
  rw [if_neg unclean] at hu
  refine ⟨?_, hu.moves_from (t := t) ?_⟩
  · rw [hu.safety, ← safety_atTime s t]
  · exact ((changes_safety _ _).moves (by decide)).trans ((changes_safety z _).moves (by decide))

theorem clearStuck_noted {s : State} {t rose : Nat} (hr : s.safetyRuns = true) (hs : s.safety.clearStuck = false)
    (ht : rose + 2000000000 ≤ s.nowAt t) (hfell : s.safety.clearFell.getD 0 ≤ rose) :
    ∃ u, exec (.clearStuck t rose) s = .next u ∧ u.safety = { s.safety with clear := true, clearStuck := true } ∧
      Moves [.safety, .recorder] s u := by
  rw [exec_clearStuck, execClearStuck]
  have arisen : elapsed rose 2000000000 (s.atTime t).now = true := decide_eq_true ht
  refine when_imp (by simp [safetyRuns_atTime, hr, hs, arisen, hfell]) fun u hu => ⟨?_, hu.moves_from (t := t) ?_⟩
  · rw [hu.safety, safety_event, ← safety_atTime s t]
  · exact ((changes_safety _ _).moves (by decide)).trans ((changes_event _ _ _ _ _ _ _ _ _ _ _ _).moves (by decide))

/-- Settles O30: one lemma for each input and edge, of which FIRE_IN has two, as has CLEAR. -/
theorem safetyInputsAndClearEventsComplete : Obligations.SafetyInputsAndClearEventsComplete := by
  intro s t a k lo hi rose b i
  refine ⟨?estop, ?discrepancy, estopRecovered_ends, ?fire, ?disabled, safetyInputHealthy_noted t i, ?outFault, ?clean,
    clearEdge_refused, ?stuck⟩
  case estop => exact fun hr ha hb _ => estop_trips t b hr ha hb
  case discrepancy =>
    intro hr hd hs ha
    exact estopDiscrepancy_latches hr (by simpa using hd) hs ha
  case fire =>
    intro hr hf he
    simpa using fire_trips t hr hf he
  case disabled =>
    intro hr hf he
    exact fire_disabled t hr hf (by simpa using he)
  case outFault => exact fun hk hr hc ho _ => safeOutFault_trips t hk hr hc ho
  case clean =>
    intro hr hfell hlo hhi hmax hrock hf ho hm hl hc
    simpa using clearEdge_released hr hfell hlo hhi hmax hrock (by simpa using hf) ho hm (by simpa using hl) (by simpa using hc)
  case stuck =>
    intro hr hs ht hfell
    exact clearStuck_noted hr (by simpa using hs) ht hfell

end Sys2Proof.Machine
end

