-- ==== Sys2Proof/Proofs/SafeChannel.lean ====
section
/-! PROOF. The safe channel (O31): the rules of the links and of the LANs, then each event. -/

namespace Sys2Proof.Machine

open Sys2Proof
set_option Elab.async false

/-! ### Links (09 R277, R280) -/

/-- The first that satisfies `p` is found again where those that satisfy `p` have changed. -/
theorem find?_map_ite {α : Type} {p : α → Bool} {f : α → α} (hf : ∀ x, p x = true → p (f x) = true) (l : List α) :
    (l.map fun x => if p x then f x else x).find? p = (l.find? p).map f := by
  have same : (p ∘ fun x => if p x then f x else x) = p := by
    funext x
    by_cases h : p x = true
    · simp [h, hf x h]
    · simp [h]
  rw [List.find?_map, same]
  cases h : l.find? p with
  | none => rfl
  | some x => simp [List.find?_some h]

theorem rxLink_of_rx {s t : State} (h : t.safety.rx = s.safety.rx) (b k : Nat) : t.rxLink b k = s.rxLink b k := by
  rw [State.rxLink, h, ← State.rxLink]
/-- A received link is found under its sender and LINK_ID. -/
theorem key_of_rxLink {s : State} {b k : Nat} {r : LinkRx} (h : s.rxLink b k = some r) : r.berth = b ∧ r.linkId = k := by
  have found := List.find?_some h
  simpa using found
/-- What is found after a change of a received link that keeps its sender and LINK_ID. -/
theorem rxLink_updRx {s : State} {b k : Nat} {f : LinkRx → LinkRx} {r : LinkRx} (hr : s.rxLink b k = some r)
    (hf : ∀ x, (f x).berth = x.berth ∧ (f x).linkId = x.linkId) : (s.updRx b k f).rxLink b k = some (f r) := by
  have found := find?_map_ite (p := fun x : LinkRx => x.berth == b && x.linkId == k) (f := f)
    (fun x hx => by rw [(hf x).1, (hf x).2]; exact hx) s.safety.rx
  exact found.trans (congrArg (Option.map f) hr)
theorem changes_updRx (s : State) (b k : Nat) (f : LinkRx → LinkRx) : Changes [.safety] s (s.updRx b k f) := changes_safety s _

theorem Tripping.rxLink {s t : State} (h : Tripping s t) (b k : Nat) : t.rxLink b k = s.rxLink b k :=
  rxLink_of_rx (h.latches.kept (·.rx) fun _ _ _ _ _ => rfl) b k
theorem Settled.rxLink {z u : State} (h : Settled z u) (b k : Nat) : u.rxLink b k = z.rxLink b k := rxLink_of_rx (by rw [h.safety]) b k
theorem rxLink_atTime (s : State) (t b k : Nat) : (s.atTime t).rxLink b k = s.rxLink b k := rxLink_of_rx (by rw [safety_atTime]) b k

theorem rxLink_acceptFrame {s : State} {b k : Nat} {r : LinkRx} (m : List Byte) (hr : s.rxLink b k = some r) :
    (s.acceptFrame b k m).rxLink b k = some (r.accept m s.now) := by
  rw [State.acceptFrame, (tripping_tripLinks _ s).rxLink]
  exact rxLink_updRx hr fun _ => ⟨rfl, rfl⟩
theorem rxLink_linkToSafe {s : State} {b k : Nat} {r : LinkRx} (hr : s.rxLink b k = some r) :
    (s.linkToSafe b k).rxLink b k = some { r with safe := true } := by
  rw [State.linkToSafe, (tripping_tripLinks _ s).rxLink]
  exact rxLink_updRx hr fun _ => ⟨rfl, rfl⟩

/-! ### Sending (09 R275, R277; 02 R47) -/

/-- The sent links with a link's next SEQUENCE. -/
theorem find?_sent {l : List LinkTx} {k : Nat} {x y : LinkTx} (hx : (l.find? fun w => w.linkId == k) = some x) (hy : y.linkId = k) :
    ((l.map fun w => if w.linkId == x.linkId then y else w).find? fun w => w.linkId == k) = some y := by
  have hk : x.linkId = k := by simpa using List.find?_some hx
  rw [hk, find?_map_ite (p := fun w : LinkTx => w.linkId == k) (f := fun _ => y) (fun _ _ => by simp [hy]), hx]
  rfl
theorem safeHeartbeat_sent {s : State} {t k : Nat} {x : LinkTx} (hx : LinkSends (s.atTime t) k x)
    (hdue : x.lastSent + (s.atTime t).safety.hb ≤ (s.atTime t).now ∨ x.lastState ≠ (s.atTime t).srcState ∨
      x.lastBits ≠ (s.atTime t).linkBits x) :
    ∃ u, exec (.safeHeartbeat t ⟨k, true, true⟩) s = .next u ∧ HeartbeatSent s u (s.atTime t) k x := by
  obtain ⟨hr, hc, hb, hfind⟩ := hx
  have hk : x.linkId = k := by simpa using List.find?_some hfind
  rw [exec_safeHeartbeat, execSafeHeartbeat]
  refine when_imp (by
    rw [hfind]
    simpa [hr, hc, hb, elapsed, or_assoc, -safety_atTime, -net_atTime] using hdue) fun u hu => ?_
  simp only [hfind] at hu
  refine ⟨?_, ?_, hu.moves_from (t := t) ?_⟩
  · rw [hu.out, ← out_atTime s t]
    rfl
  · rw [hu.safety]
    exact find?_sent hfind hk
  · exact (((changes_safety _ _).mono (by decide)).trans ((changes_emit _ _).mono (by decide))).trans ((changes_emit _ _).mono (by decide))

theorem changes_insertionAbort (s : State) (lan : Lan) : Changes [.out, .servo, .recorder] s (s.insertionAbort lan) :=
  (((changes_servo s _).mono (by decide)).trans ((changes_emit _ _).mono (by decide))).trans
    ((changes_event _ _ _ _ _ _ _ _ _ _ _ _).mono (by decide))
theorem out_insertionAbort (s : State) (lan : Lan) : (s.insertionAbort lan).out = .ptpAborted lan :: s.out := by
  rw [State.insertionAbort, out_event]
  rfl
theorem servo_insertionAbort (s : State) (lan : Lan) :
    (s.insertionAbort lan).servo.insertionAborts = inc64 s.servo.insertionAborts := by
  rw [State.insertionAbort, servo_event]
  rfl
theorem safeHeartbeat_aborted {s : State} {t k : Nat} {x : LinkTx} (hx : LinkSends (s.atTime t) k x)
    (hdue : x.lastSent + (s.atTime t).safety.hb ≤ (s.atTime t).now) :
    ∃ u, exec (.safeHeartbeat t ⟨k, true, false⟩) s = .next u ∧ u.out.take 1 = [.ptpAborted .b] ∧
      u.servo.insertionAborts = inc64 s.servo.insertionAborts ∧ Moves [.safety, .out, .servo, .recorder] s u := by
  obtain ⟨hr, hc, hb, hfind⟩ := hx
  rw [exec_safeHeartbeat, execSafeHeartbeat]
  refine when_imp (by
    rw [hfind]
    simp [hr, hc, hb, elapsed, hdue, -safety_atTime, -net_atTime]) fun u hu => ?_
  simp only [hfind] at hu
  refine ⟨?_, ?_, hu.moves_from (t := t) ?_⟩
  · rw [hu.out]
    exact congrArg (List.take 1) (out_insertionAbort _ .b)
  · rw [hu.servo, ← servo_atTime s t]
    exact servo_insertionAbort _ .b
  · exact (((changes_safety _ _).mono (by decide)).trans ((changes_emit _ _).mono (by decide))).trans
      ((changes_insertionAbort _ _).mono (by decide))

/-! ### Receiving (09 R279 to R281) -/

theorem runs_lanHeard (s : State) (lan : Lan) :
    ((s.lanHeard lan).safetyRuns && (s.lanHeard lan).safety.outConfigured) = (s.safetyRuns && s.safety.outConfigured) := rfl

/-- A frame whose own CRC fails is counted on its link. -/
theorem safeFrame_crcErr {s z : State} {t : Nat} {lan : Lan} {m : List Byte} {r : LinkRx}
    (hz : z = ((s.frameIn (lanIx lan) t).atTime t).lanHeard lan) (hr : z.safetyRuns = true) (hc : z.safety.outConfigured = true)
    (hok : safeFrameOk m = false) (hlink : z.rxLink (beAt m 4 2) (beAt m 6 2) = some r) :
    ∃ u, exec (.safeFrame t lan m) s = .next u ∧ u.rxLink (beAt m 4 2) (beAt m 6 2) = some { r with crcErr := inc64 r.crcErr } ∧
      Moves [.safety] z u := by
  rw [exec_safeFrame, execSafeFrame]
  refine when_imp (by rw [← runs_lanHeard _ lan, ← hz, hr, hc]; rfl) fun u hu => ?_
  simp only [← hz, hok, hlink, Bool.not_false, if_true] at hu
  refine ⟨?_, ((changes_updRx z _ _ _).moves (by decide)).trans (hu.moves _)⟩
  rw [hu.rxLink]
  exact rxLink_updRx hlink fun _ => ⟨rfl, rfl⟩

/-- A good frame, fresh and neither held nor seen, goes by the state of the other LAN. -/
theorem decideCopy_new {s : State} {lan : Lan} {r : LinkRx} {m : List Byte} (hheld : r.held = []) (hseq : r.lastSeq ≠ some (beAt m 8 4)) :
    s.decideCopy lan r m = if s.lanDownNow (otherLan lan) then s.acceptFrame r.berth r.linkId m
      else s.updRx r.berth r.linkId fun x => { x with
        held := x.held ++ [{ seq := beAt m 8 4, lan := lan, at_ := s.now, bytes := m }] } := by
  simp only [State.decideCopy, hheld, List.find?_nil]
  rw [if_neg (by simp [hseq])]
theorem safeFrame_new {s z : State} {t : Nat} {lan : Lan} {m : List Byte} {r : LinkRx} {Q : State → Prop}
    (hz : z = ((s.frameIn (lanIx lan) t).atTime t).lanHeard lan) (hnew : NewOnLink z m r)
    (h : ∀ u, Settled (z.decideCopy lan r m) u → Q u) : ∃ u, exec (.safeFrame t lan m) s = .next u ∧ Q u := by
  obtain ⟨hr, hc, hok, hlink, hage, hfresh, -, -⟩ := hnew
  rw [exec_safeFrame, execSafeFrame]
  refine when_imp (by rw [← runs_lanHeard _ lan, ← hz, hr, hc]; rfl) fun u hu => h u ?_
  simpa only [← hz, hok, hlink, hage, hfresh, Bool.not_true, Bool.false_eq_true, if_false] using hu
theorem safeFrame_accepted {s z : State} {t : Nat} {lan : Lan} {m : List Byte} {r : LinkRx}
    (hz : z = ((s.frameIn (lanIx lan) t).atTime t).lanHeard lan) (hnew : NewOnLink z m r) (hdown : z.lanDownNow (otherLan lan) = true) :
    ∃ u, exec (.safeFrame t lan m) s = .next u ∧ u.rxLink (beAt m 4 2) (beAt m 6 2) = some (r.accept m z.now) := by
  refine safeFrame_new hz hnew fun u hu => ?_
  obtain ⟨-, -, -, hlink, -, -, hheld, hseq⟩ := hnew
  obtain ⟨hberth, hid⟩ := key_of_rxLink hlink
  rw [hu.rxLink, decideCopy_new hheld hseq, if_pos hdown, hberth, hid, rxLink_acceptFrame m hlink]
theorem safeFrame_waits {s z : State} {t : Nat} {lan : Lan} {m : List Byte} {r : LinkRx}
    (hz : z = ((s.frameIn (lanIx lan) t).atTime t).lanHeard lan) (hnew : NewOnLink z m r) (hup : z.lanDownNow (otherLan lan) = false) :
    ∃ u, exec (.safeFrame t lan m) s = .next u ∧ u.rxLink (beAt m 4 2) (beAt m 6 2) =
      some { r with held := [{ seq := beAt m 8 4, lan := lan, at_ := z.now, bytes := m }] } ∧ Moves [.safety] z u := by
  refine safeFrame_new hz hnew fun u hu => ?_
  obtain ⟨-, -, -, hlink, -, -, hheld, hseq⟩ := hnew
  obtain ⟨hberth, hid⟩ := key_of_rxLink hlink
  rw [decideCopy_new hheld hseq, if_neg (by simp [hup]), hberth, hid] at hu
  refine ⟨?_, ((changes_updRx z _ _ _).moves (by decide)).trans (hu.moves _)⟩
  rw [hu.rxLink]
  refine (rxLink_updRx hlink ?_).trans ?_
  · exact fun _ => ⟨rfl, rfl⟩
  rw [hheld]
  rfl

/-- A fault event within its window touches the counts of faults and the recorder. -/
theorem changes_faultEvent (s : State) (k o : Nat) : Changes [.safety, .recorder] s (s.faultEvent k o).2 := by
  unfold State.faultEvent
  exact ((changes_safety s _).mono (by decide)).trans ((changes_event _ _ _ _ _ _ _ _ _ _ _ _).mono (by decide))
theorem changes_singleCopyFault (s : State) : Changes [.safety, .recorder] s s.singleCopyFault := by
  unfold State.singleCopyFault
  exact .ite ((changes_faultEvent s _ _).trans ((changes_raise _ _ _ _ _ _ _).mono (by decide))) (changes_faultEvent s _ _)
/-- A field of the safety part other than the counts of faults is as it was. -/
theorem faultEvent_kept {α : Type} (s : State) (k o : Nat) (f : Safety → α)
    (hf : ∀ a w t l, f { a with windows := w, transients := t, lastings := l } = f a) :
    f (s.faultEvent k o).2.safety = f s.safety := by
  rw [State.faultEvent, safety_event, hf]
theorem rx_faultEvent (s : State) (k o : Nat) : (s.faultEvent k o).2.safety.rx = s.safety.rx :=
  faultEvent_kept s k o (·.rx) fun _ _ _ _ => rfl
theorem rx_singleCopyFault (s : State) : s.singleCopyFault.safety.rx = s.safety.rx := by
  unfold State.singleCopyFault
  extract_lets r
  split
  · rw [safety_raise, rx_faultEvent]
  · exact rx_faultEvent s _ _

theorem skewExpiry_counts {s : State} {t b k : Nat} {r : LinkRx} {h : HeldCopy} (hlink : s.rxLink b k = some r) (hheld : r.held = [h])
    (hskew : h.at_ + r.skew ≤ s.nowAt t)
    (halone : h.at_ + r.skew ≠ s.nowAt t ∨ (s.atTime t).lanDownNow (otherLan h.lan) = false) :
    ∃ u, exec (.skewExpiry t b k) s = .next u ∧ u.rxLink b k = some { r with singleCopy := inc64 r.singleCopy, held := [] } ∧
      Moves [.safety, .recorder] s u := by
  have hlinkAt : (s.atTime t).rxLink b k = some r := (rxLink_atTime s t b k).trans hlink
  have helapsed : elapsed h.at_ r.skew (s.atTime t).now = true := decide_eq_true hskew
  have dropped : ¬ ((decide (h.at_ + r.skew = (s.atTime t).now) && (s.atTime t).lanDownNow (otherLan h.lan)) = true) := by
    rw [Bool.and_eq_true_iff, decide_eq_true_eq]
    rintro ⟨hnow, hdown⟩
    rcases halone with hne | hup
    · exact hne hnow
    · simp [hup] at hdown
  rw [exec_skewExpiry, execSkewExpiry]
  refine when_imp (by simp [hlinkAt, hheld, helapsed]) fun u hu => ?_
  simp only [hlinkAt, hheld, helapsed, List.filter_cons_of_pos, List.filter_nil, List.foldl_cons, List.foldl_nil] at hu
  rw [if_neg dropped] at hu
  refine ⟨?_, hu.moves_from (((changes_updRx _ _ _ _).moves (by decide)).trans ((changes_singleCopyFault _).moves (by decide)))⟩
  rw [hu.rxLink, State.singleCopy, rxLink_of_rx (rx_singleCopyFault _)]
  refine (rxLink_updRx hlinkAt ?_).trans ?_
  · exact fun _ => ⟨rfl, rfl⟩
  simp [hheld]

theorem safeLinkWatchdog_safe {s : State} {t b k : Nat} {r : LinkRx} (hr : s.safetyRuns = true) (hc : s.safety.outConfigured = true)
    (hlink : s.rxLink b k = some r) (hsafe : r.safe = false) (ht : r.lastAt + r.watchdog ≤ s.nowAt t) :
    ∃ u, exec (.safeLinkWatchdog t b k) s = .next u ∧ u.rxLink b k = some { r with safe := true } := by
  have hlinkAt : (s.atTime t).rxLink b k = some r := (rxLink_atTime s t b k).trans hlink
  have helapsed : elapsed r.lastAt r.watchdog (s.atTime t).now = true := decide_eq_true ht
  rw [exec_safeLinkWatchdog, execSafeLinkWatchdog]
  refine when_imp (by simp [safetyRuns_atTime, hr, hc, hlinkAt, hsafe, helapsed]) fun u hu => ?_
  rw [hu.rxLink, rxLink_linkToSafe hlinkAt]

/-! ### LANs (09 R278) -/

/-- What is known of the LANs is as it was. -/
structure LansKept (s t : State) : Prop where
  safe : t.safety.lans = s.safety.lans
  net : t.net.lans = s.net.lans

theorem LansKept.refl (s : State) : LansKept s s := ⟨rfl, rfl⟩
theorem LansKept.trans {s t u : State} (h : LansKept s t) (g : LansKept t u) : LansKept s u :=
  ⟨g.safe.trans h.safe, g.net.trans h.net⟩
theorem lansKept_foldl {α : Type} {f : State → α → State} (h : ∀ z x, LansKept z (f z x)) (l : List α) (s : State) :
    LansKept s (l.foldl f s) :=
  List.foldlRecOn (motive := fun z => LansKept s z) _ _ (.refl s) fun z hz x _ => hz.trans (h z x)
theorem lansKept_acceptFrame (s : State) (b k : Nat) (m : List Byte) : LansKept s (s.acceptFrame b k m) := by
  obtain ⟨z, hz⟩ : ∃ z, z = s.updRx b k fun r => r.accept m s.now := ⟨_, rfl⟩
  have trips := tripping_tripLinks z s
  rw [State.acceptFrame, ← hz]
  exact ⟨(trips.latches.kept (·.lans) fun _ _ _ _ _ => rfl).trans (by rw [hz]; rfl), trips.lans.trans (by rw [hz]; rfl)⟩
theorem lansKept_takeHeld (s : State) (b k : Nat) (h : HeldCopy) : LansKept s (s.takeHeld b k h) := by
  fun_cases State.takeHeld s b k h
  · exact .refl s
  · exact lansKept_acceptFrame s b k _
  · exact ⟨rfl, rfl⟩
theorem lansKept_releaseHeld (s : State) (lan : Lan) : LansKept s (s.releaseHeld lan) :=
  lansKept_foldl (fun z (r : LinkRx) => lansKept_foldl (fun y h => lansKept_takeHeld y r.berth r.linkId h) _ z) _ s

theorem LansKept.safeLan {s t : State} (h : LansKept s t) (i : Nat) : t.safeLan i = s.safeLan i := by
  rw [State.safeLan, h.safe, ← State.safeLan]
theorem LansKept.netLan {s t : State} (h : LansKept s t) (i : Nat) : t.netLan i = s.netLan i := by
  rw [State.netLan, h.net, ← State.netLan]
theorem lansKept_event (s : State) (c k o u : Nat) (v0 v1 v2 : Option Int) (src : Option Nat) (b cl : Bool) (a : Option Nat) :
    LansKept s (s.event c k o u v0 v1 v2 src b cl a) := ⟨by rw [safety_event], by rw [net_event]⟩
theorem Settled.lansKept {z u : State} (h : Settled z u) : LansKept z u := ⟨by rw [h.safety], by rw [h.net]⟩
theorem lansKept_atTime (s : State) (t : Nat) : LansKept s (s.atTime t) := ⟨by rw [safety_atTime], by rw [net_atTime]⟩

theorem lanDown_noted {s : State} (t : Nat) (lan : Lan) (hr : s.safetyRuns = true) (hup : (s.safeLan (lanIx lan)).down = false) :
    ∃ u, exec (.lanDown t lan true) s = .next u ∧ (u.safeLan (lanIx lan)).down = true ∧ (u.netLan (lanIx lan)).link = false := by
  rw [exec_lanDown, execLanDown]
  refine when_imp (by simp [safetyRuns_atTime, hr, (lansKept_atTime s t).safeLan, hup]) fun u hu => ?_
  extract_lets z1 z2 at hu
  have kept : LansKept z2 u := ((lansKept_event z2 _ _ _ _ _ _ _ _ _ _ _).trans (lansKept_releaseHeld _ lan)).trans hu.lansKept
  rw [kept.safeLan, kept.netLan]
  refine ⟨?_, ?_⟩
  · exact congrArg SafeLan.down (State.safeLan_setSafeLan_same (s.atTime t) _ _)
  · exact congrArg NetLan.link (State.netLan_setNetLan_same z1 _ _)

theorem lanUp_noted {s : State} {t a : Nat} {lan : Lan} (hd : (s.safeLan (lanIx lan)).down = true)
    (hs : (s.safeLan (lanIx lan)).upSince = some a) (ht : a + 100 * s.safety.hb ≤ s.nowAt t)
    (hheard : (s.atTime t).lanSilent lan = false) :
    ∃ u, exec (.lanUp t lan) s = .next u ∧ u.safeLan (lanIx lan) = { s.safeLan (lanIx lan) with down := false, upSince := none } ∧
      Moves [.safety, .recorder] s u := by
  have hlan := (lansKept_atTime s t).safeLan (lanIx lan)
  rw [exec_lanUp, execLanUp]
  refine when_imp ?_ fun u hu => ⟨?_, hu.moves_from (t := t) ?_⟩
  · simpa [hlan, hd, hs, hheard, elapsedO, elapsed] using ht
  · rw [hu.lansKept.safeLan, (lansKept_event _ _ _ _ _ _ _ _ _ _ _ _).safeLan, State.updSafeLan, State.safeLan_setSafeLan_same, hlan]
  · exact ((changes_safety _ _).moves (by decide)).trans ((changes_event _ _ _ _ _ _ _ _ _ _ _ _).moves (by decide))

/-- Settles O31: one lemma for each event, of which a heartbeat has two, and a received frame three. -/
theorem safeChannelEventsComplete : Obligations.SafeChannelEventsComplete := by
  intro s z t k a x lan r h
  refine ⟨?sent, ?aborted, ?crc, ?accepted, ?waits, ?skew, ?watchdog, ?down, ?up⟩
  case sent =>
    rintro rfl hx hdue
    exact safeHeartbeat_sent hx hdue
  case aborted =>
    rintro rfl hx hdue
    exact safeHeartbeat_aborted hx hdue
  case crc => exact fun m hz hr hc hok hlink => safeFrame_crcErr hz hr hc (by simpa using hok) hlink
  case accepted => exact fun m hz hnew hdown => safeFrame_accepted hz hnew hdown
  case waits => exact fun m hz hnew hup => safeFrame_waits hz hnew (by simpa using hup)
  case skew => exact fun b hlink hheld hskew halone => skewExpiry_counts hlink hheld hskew (by simpa using halone)
  case watchdog => exact fun b hr hc hlink hsafe ht => safeLinkWatchdog_safe hr hc hlink (by simpa using hsafe) ht
  case down =>
    intro hr hup
    exact lanDown_noted t lan hr (by simpa using hup)
  case up =>
    intro hd hs ht hheard
    exact lanUp_noted hd hs ht (by simpa using hheard)

end Sys2Proof.Machine
end

