-- ==== Sys2Proof/Proofs/RoleReleases.lean ====
section
/-! PROOF. The release of roles (12 R354 to R356): what a tenant that stops ends, and that no release takes a lane out of TRIPPED or
drives a helm line. -/

namespace Sys2Proof.Machine

open Sys2Proof
set_option Elab.async false

/-- From `s` to `t` goes only what follows, and no lane's trip changes. -/
structure LanesRest (s t : State) : Prop where
  follows : Follows s t
  trips : TripsKept s t

theorem LanesRest.refl (s : State) : LanesRest s s := ⟨.refl s, .refl s⟩
theorem LanesRest.trans {s t u : State} (h : LanesRest s t) (g : LanesRest t u) : LanesRest s u :=
  ⟨h.follows.trans g.follows, h.trips.trans g.trips⟩
theorem LanesRest.ite {s t u : State} {c : Prop} [Decidable c] (h : LanesRest s t) (k : LanesRest s u) :
    LanesRest s (if c then t else u) := by
  split
  · exact h
  · exact k
theorem lanesRest_foldl {α : Type} {f : State → α → State} (h : ∀ z x, LanesRest z (f z x)) (l : List α) (s : State) :
    LanesRest s (l.foldl f s) :=
  List.foldlRecOn (motive := fun z => LanesRest s z) _ _ (.refl s) fun z hz x _ => hz.trans (h z x)
theorem Changes.lanesRest_of_boxes {ps : List Part} {s t : State} (h : Changes ps s t) (hs : ∀ p ∈ ps, p ∈ .mbox :: freeParts)
    (hb : t.mbox.boxes = s.mbox.boxes) : LanesRest s t :=
  ⟨h.follows_of_boxes hs hb, (h.mono hs).tripsKept (by decide)⟩
theorem Changes.lanesRest {ps : List Part} {s t : State} (h : Changes ps s t) (hs : ∀ p ∈ ps, p ∈ freeParts) : LanesRest s t :=
  ⟨h.follows hs, (h.mono hs).tripsKept (by decide)⟩

/-! ### Transfers and transmit requests that end (13 R395, 15 R431) -/

theorem writeRecord_boxes (s : State) (ch : Nat) (d : Desc) (r : Record) : (s.writeRecord ch d r).2.mbox.boxes = s.mbox.boxes := by
  fun_cases State.writeRecord s ch d r
  · rfl
  · exact queueMoved_boxes _ _ _ _
  · rfl
theorem abortChannel_boxes (s : State) (ch : Nat) : (s.abortChannel ch).mbox.boxes = s.mbox.boxes := by
  fun_cases State.abortChannel s ch
  case case5 => exact writeRecord_boxes s ch _ _
  all_goals rfl
theorem lanesRest_abortChannel (s : State) (ch : Nat) : LanesRest s (s.abortChannel ch) :=
  (changes_abortChannel s ch).lanesRest_of_boxes (by decide) (abortChannel_boxes s ch)
theorem lanesRest_abortChannels (s : State) (l : List Nat) : LanesRest s (s.abortChannels l) :=
  lanesRest_foldl lanesRest_abortChannel l s

theorem canPut_boxes {s t : State} {ctl which : Nat} {m : List Byte} (h : s.canPut ctl which m = some t) :
    t.mbox.boxes = s.mbox.boxes := by
  revert h
  fun_cases State.canPut s ctl which m <;> intro h <;> simp only [reduceCtorEq, Option.some.injEq] at h <;> subst h
  · rw [queueMoved_boxes]
    exact lpWrites_boxes _ s
  · rfl
theorem putOutcome_boxes (s : State) (ctl b : Nat) (o : TxOutcome) : (s.putOutcome ctl b o).mbox.boxes = s.mbox.boxes := by
  unfold State.putOutcome
  split
  · next s1 h => exact (canPut_boxes h : s1.mbox.boxes = s.mbox.boxes)
  · rfl
theorem lanesRest_updCanCtl (s : State) (k : Nat) (f : Can → Can) : LanesRest s (s.updCanCtl k f) :=
  (changes_setCanCtl s k _).lanesRest (by decide)
theorem lanesRest_putOutcome (s : State) (ctl b : Nat) (o : TxOutcome) : LanesRest s (s.putOutcome ctl b o) :=
  (changes_putOutcome s ctl b o).lanesRest_of_boxes (by decide) (putOutcome_boxes s ctl b o)
theorem lanesRest_tellSlot (s : State) (owner : OutSource) (o : TxOutcome) : LanesRest s (s.tellSlot owner o) := by
  fun_cases State.tellSlot s owner o
  · exact (changes_setSlot s _ _).lanesRest (by decide)
  · exact .refl s
theorem lanesRest_endTx (s : State) (ctl b outcome : Nat) : LanesRest s (s.endTx ctl b outcome) := by
  have put (o : TxOutcome) (f : TxBuf → TxBuf) : LanesRest s ((s.updTxBuf ctl b f).putOutcome ctl b o) :=
    (lanesRest_updCanCtl s ctl _).trans (lanesRest_putOutcome _ ctl b o)
  fun_cases State.endTx s ctl b outcome
  · exact .refl s
  · exact put _ _
  · exact (put _ _).trans (lanesRest_tellSlot _ _ _)
theorem lanesRest_abortTx (s : State) (ctl b outcome : Nat) : LanesRest s (s.abortTx ctl b outcome) := by
  fun_cases State.abortTx s ctl b outcome
  · exact .refl s
  · exact lanesRest_updCanCtl s ctl _
  · exact lanesRest_endTx s ctl b outcome
/-- Both controllers are DISABLED (15 R439). -/
theorem lanesRest_canOff (s : State) : LanesRest s s.canOff := by
  have ended (z : State) (ctl : Nat) : LanesRest z (z.endAllTx ctl coDisabled) := lanesRest_foldl (fun y b => lanesRest_endTx y ctl b _) _ z
  exact ((ended s 0).trans (ended _ 1)).trans (lanesRest_foldl (fun z k => lanesRest_updCanCtl z k _) _ _)

/-! ### Tenants that stop (11 R320, R321) -/

theorem lanesRest_tenantAborts (s : State) (n : Nat) : LanesRest s (s.tenantAborts n) := by
  refine (lanesRest_abortChannels s _).trans (lanesRest_foldl (fun z k => lanesRest_foldl (fun y b => ?_) _ z) _ _)
  exact .ite (lanesRest_abortTx y k b _) (.refl y)
theorem lanesRest_publishLocal (s : State) (h : Nat) (v : SigVal) : LanesRest s (s.publishLocal h v) :=
  ((outputsFollow_setSigLocal s h _).trans (outputsFollow_followSignal _ h)).changes.lanesRest (by decide)
theorem lanesRest_sourcesLost (s : State) (hs : List Nat) (lost : Bool) : LanesRest s (s.sourcesLost hs lost) := by
  have noted (z : State) (n : Nat) : LanesRest z (z.updLane n fun l => { l with lostSources := lost }) :=
    ⟨follows_setLane rfl, tripsKept_setLane rfl⟩
  refine lanesRest_foldl (fun z n => ?_) _ s
  split
  · exact .refl z
  · split
    · exact .ite (noted z n) (.refl z)
    · exact .refl z
theorem lanesRest_updSlot (s : State) (n : Nat) (f : Slot → Slot) : LanesRest s (s.updSlot n f) :=
  (changes_setSlot s n _).lanesRest (by decide)
theorem lanesRest_placeEntries (s : State) : LanesRest s s.placeEntries := (changes_placeEntries s).lanesRest (by decide)
theorem lanesRest_slotAbsent (s : State) (n : Nat) : LanesRest s (s.slotAbsent n) := by
  unfold State.slotAbsent
  extract_lets hs s1
  have h1 : LanesRest s s1 := (lanesRest_foldl (fun z h => lanesRest_publishLocal z h _) hs s).trans (lanesRest_sourcesLost _ hs true)
  exact .ite (h1.trans (lanesRest_tenantAborts s1 n)) h1
theorem lanesRest_slotTo (s : State) (n : Nat) (st : SlotState) : LanesRest s (s.slotTo n st) :=
  .ite (.refl s) (((lanesRest_slotAbsent s n).trans (lanesRest_updSlot _ n _)).trans (lanesRest_placeEntries _))

/-! ### Roles that are released (12 R354 to R356) -/

/-- The safety part is as it was, a TRIPPED lane stays so, and no helm line rises. -/
structure HelmsRest (s t : State) : Prop where
  safety : t.safety = s.safety
  tripped : ∀ n, (s.lane n).state = .tripped → (t.lane n).state = .tripped
  helm : ∀ n, (s.lane n).helmOut = false → (t.lane n).helmOut = false

theorem HelmsRest.refl (s : State) : HelmsRest s s := ⟨rfl, fun _ => id, fun _ => id⟩
theorem HelmsRest.trans {s t u : State} (h : HelmsRest s t) (g : HelmsRest t u) : HelmsRest s u :=
  ⟨g.safety.trans h.safety, fun n hn => g.tripped n (h.tripped n hn), fun n hn => g.helm n (h.helm n hn)⟩
theorem HelmsRest.ite {s t u : State} {c : Prop} [Decidable c] (h : HelmsRest s t) (k : HelmsRest s u) :
    HelmsRest s (if c then t else u) := by
  split
  · exact h
  · exact k
theorem helmsRest_foldl {α : Type} {f : State → α → State} (h : ∀ z x, HelmsRest z (f z x)) (l : List α) (s : State) :
    HelmsRest s (l.foldl f s) :=
  List.foldlRecOn (motive := fun z => HelmsRest s z) _ _ (.refl s) fun z hz x _ => hz.trans (h z x)
theorem Changes.helmsRest {ps : List Part} {s t : State} (h : Changes ps s t) (hl : .lanes ∉ ps) (hs : .safety ∉ ps) : HelmsRest s t :=
  ⟨h .safety hs, fun n hn => by rwa [h.lane hl], fun n hn => by rwa [h.lane hl]⟩
theorem LanesRest.helmsRest {s t : State} (h : LanesRest s t) : HelmsRest s t :=
  ⟨h.follows.parts .safety (by decide), fun n hn => (Lane.state_of_trip (h.trips n)).trans hn,
    fun n hn => (congrArg (fun x => x.2.2.2) (h.follows.outputs n)).trans hn⟩
theorem helmsRest_setLane {s : State} {n : Nat} {x : Lane} (hs : (s.lane n).state = .tripped → x.state = .tripped)
    (hh : (s.lane n).helmOut = false → x.helmOut = false) : HelmsRest s (s.setLane n x) := by
  refine ⟨rfl, fun j hj => ?_, fun j hj => ?_⟩ <;> by_cases h : j = n
  · rw [h, State.lane_setLane_same]
    exact hs (h ▸ hj)
  · rwa [State.lane_setLane_ne s x h]
  · rw [h, State.lane_setLane_same]
    exact hh (h ▸ hj)
  · rwa [State.lane_setLane_ne s x h]

theorem helmsRest_event (s : State) (c k o u : Nat) (v0 v1 v2 : Option Int) (src : Option Nat) (b cl : Bool) (a : Option Nat) :
    HelmsRest s (s.event c k o u v0 v1 v2 src b cl a) :=
  (changes_event _ _ _ _ _ _ _ _ _ _ _ _).helmsRest (by decide) (by decide)
theorem helmsRest_springFail (s : State) (n cause : Nat) : HelmsRest s (s.springFail n cause) :=
  (changes_springFail s n cause).helmsRest (by decide) (by decide)

theorem Lane.helmOut_driveK (l : Lane) (k : Nat) (c : Bool) (now : Nat) : (l.driveK k c now).helmOut = l.helmOut := by
  unfold Lane.driveK Lane.updContactor
  split_ifs <;> rfl
theorem Lane.helmOut_openAll (l : Lane) (now : Nat) : (l.openAll now).helmOut = l.helmOut := by
  simp only [Lane.openAll, Lane.helmOut_driveK]
theorem Lane.helmOut_openNext (l : Lane) (now : Nat) : (l.openNext now).helmOut = l.helmOut := by
  unfold Lane.openNext
  split
  · rfl
  · dsimp only
    split <;> exact Lane.helmOut_driveK _ _ _ _

/-- A lane that is not TRIPPED changes but for its helm line. -/
theorem helmsRest_setLane_of_ne {s : State} {n : Nat} {x : Lane} (hs : (s.lane n).state ≠ .tripped)
    (hx : x.helmOut = (s.lane n).helmOut) : HelmsRest s (s.setLane n x) :=
  helmsRest_setLane (fun ht => absurd ht hs) hx.trans
theorem helmsRest_abandonArming (s : State) (n : Nat) (c : Option Nat) : HelmsRest s (s.abandonArming n c) := by
  unfold State.abandonArming
  extract_lets l s1
  split
  case isFalse => exact .refl s
  case isTrue h =>
    have hstate : (s.lane n).state = .arming := by
      have both : l.state = .arming ∧ l.step ≠ stepOpening := by simpa using h
      exact both.1
    have opened : HelmsRest s s1 := helmsRest_setLane_of_ne (by simp [hstate]) (Lane.helmOut_openNext _ _)
    split
    · exact opened
    · exact opened.trans (helmsRest_event _ _ _ _ _ _ _ _ _ _ _ _)
/-- A lane whose helm line is driven no longer. -/
def Lane.undriven (l : Lane) : Lane := { l with helmOut := false, wantHelm := false, helmRaisedAt := none }

theorem helmsRest_undriven (s : State) (n : Nat) : HelmsRest s (s.setLane n (s.lane n).undriven) :=
  helmsRest_setLane id fun _ => rfl
theorem lanesRest_endSteps (s : State) (n outcome : Nat) (p : SoundStep → Bool) : LanesRest s (s.endSteps n outcome p) :=
  ⟨follows_endSteps s n outcome p, (changes_endSteps s n outcome p).tripsKept (by decide)⟩
theorem helmsRest_laneHelmLost (s : State) (n : Nat) (standby : Bool) : HelmsRest s (s.laneHelmLost n standby) := by
  unfold State.laneHelmLost
  extract_lets l s1
  have h1 : HelmsRest s s1 := (helmsRest_undriven s n).trans (lanesRest_endSteps _ n _ _).helmsRest
  have hstate : (s1.lane n).state = l.state := by
    refine (Lane.state_of_trip ((lanesRest_endSteps _ n _ _).trips n)).trans ?_
    rw [State.updLane, State.lane_setLane_same]
    rfl
  split
  case h_1 h =>
    have hrun : (s1.lane n).state ≠ .tripped := by simp [hstate, h]
    split
    · exact h1.trans (helmsRest_setLane_of_ne hrun rfl)
    · refine h1.trans ((helmsRest_setLane_of_ne hrun ?_).trans (helmsRest_springFail _ n _))
      exact Lane.helmOut_openAll (s1.lane n).forceGates s.now
  case h_2 => exact h1.trans (helmsRest_abandonArming s1 n _)
  case h_3 h => exact h1.trans (helmsRest_setLane_of_ne (by simp [hstate, h]) rfl)
  case h_4 => exact h1
theorem helmsRest_laneUnheld (s : State) (n : Nat) : HelmsRest s (s.laneUnheld n) := by
  unfold State.laneUnheld
  split
  case isFalse => exact .refl s
  case isTrue h =>
    have hshadow : (s.lane n).state = .shadow := by simpa using h
    refine (helmsRest_setLane_of_ne (by simp [hshadow]) ?_).trans (helmsRest_springFail _ n _)
    exact Lane.helmOut_openAll (s.lane n).forceGates s.now

theorem helmsRest_roleStops (s : State) (o : OwnRole) (standby : Bool) : HelmsRest s (s.roleStops o standby) := by
  unfold State.roleStops
  split
  · exact helmsRest_laneHelmLost s _ standby
  · refine .ite (.ite (LanesRest.helmsRest ?_) (.refl s)) (lanesRest_slotTo s _ _).helmsRest
    exact ((lanesRest_slotAbsent s _).trans (lanesRest_updSlot _ _ _)).trans (lanesRest_placeEntries _)
  · exact .refl s
theorem helmsRest_changeOwn (s : State) (r : Nat) (f : OwnRole → OwnRole) : HelmsRest s (s.changeOwn r f) := by
  unfold State.changeOwn
  extract_lets s1 a s2
  have announced : Changes [.net] s s2 := (changes_setOwn s r f).trans (changes_net s1 _)
  refine (announced.helmsRest (by decide) (by decide)).trans (helmsRest_foldl (fun z k => .ite ?_ (.refl z)) _ s2)
  exact (changes_setCanCtl z k _).helmsRest (by decide) (by decide)

/-- A message handed over to its path touches no more than an answer. -/
theorem changes_handOver (s : State) (r : Response) : Changes answerParts s (s.handOver r) := by
  refine (envelope_handOver ⟨r.path, r.box, 0, 0, 0, 0⟩ s r rfl rfl).rest.mono ?_
  show ∀ p ∈ envelopeParts r.path, p ∈ answerParts
  cases r.path <;> decide
theorem helmsRest_swapEnds (s : State) (o : OwnRole) (bySwap : Bool) : HelmsRest s (s.swapEnds o bySwap) := by
  have answered (z : State) (src : Source) (code st : Nat) (p : List Field) : HelmsRest z (z.answer src code st p) :=
    (changes_answer z src code st p).helmsRest (by decide) (by decide)
  have cleared (f : OwnRole → OwnRole) : HelmsRest s (s.setOwn o.role f) :=
    (changes_setOwn s o.role f).helmsRest (by decide) (by decide)
  fun_cases State.swapEnds s o bySwap
  · exact .refl s
  · exact .refl s
  · exact (cleared _).trans (answered _ _ _ _ _)
  · exact (cleared _).trans (answered _ _ _ _ _)
theorem helmsRest_refuseRole (s : State) (r : Nat) : HelmsRest s (s.refuseRole r) := by
  refine helmsRest_foldl (fun z b => ?_) _ s
  have emptied (x : Mailbox) : HelmsRest z (z.setBox x) := (changes_mbox z _).helmsRest (by decide) (by decide)
  exact (emptied _).trans (helmsRest_foldl (fun y q => (changes_handOver y _).helmsRest (by decide) (by decide)) _ _)
theorem helmsRest_placeEntries (s : State) : HelmsRest s s.placeEntries := (lanesRest_placeEntries s).helmsRest
theorem helmsRest_sendHelm (s : State) (r kind a : Nat) : HelmsRest s (s.sendHelm r kind a) := by
  fun_cases State.sendHelm s r kind a
  · exact .refl s
  · exact .refl s
  · exact (changes_sendReliable s _ _ _ _ _ _ _ _ _).helmsRest (by decide) (by decide)

theorem helmsRest_releaseRole (s : State) (r : Nat) (told : Bool) : HelmsRest s (s.releaseRole r told) := by
  unfold State.releaseRole
  split
  case h_1 => exact .refl s
  case h_2 o _ =>
    split
    · exact .refl s
    · extract_lets standby s1 s2 s3
      have h1 : HelmsRest s s1 := .ite (helmsRest_sendHelm s r _ _) (.refl s)
      have h3 : HelmsRest s s3 := (h1.trans (helmsRest_roleStops s1 o standby)).trans (helmsRest_changeOwn s2 r _)
      exact ((h3.trans (helmsRest_swapEnds s3 o _)).trans (helmsRest_refuseRole _ r)).trans (helmsRest_placeEntries _)
theorem helmsRest_dropStandby (s : State) (r : Nat) : HelmsRest s (s.dropStandby r) := by
  unfold State.dropStandby
  split
  case h_1 => exact .refl s
  case h_2 o _ =>
    split
    · exact .refl s
    · extract_lets s1
      have h1 : HelmsRest s s1 := .ite (helmsRest_laneUnheld s _) (.ite (lanesRest_slotTo s _ _).helmsRest (.refl s))
      exact (h1.trans (helmsRest_changeOwn s1 r _)).trans (helmsRest_placeEntries _)
theorem helmsRest_releaseAll (s : State) (told : Bool) : HelmsRest s (s.releaseAll told) :=
  helmsRest_foldl (fun z r => (helmsRest_releaseRole z r told).trans (helmsRest_dropStandby _ r)) _ s

end Sys2Proof.Machine
end

