-- ==== Sys2Proof/Proofs/SafetyCore.lean ====
section
/-! PROOF. Safety core faults, comparators and lost ports (O29): what a safety core fault leaves, what a comparator's change brings, and
then each event. -/

namespace Sys2Proof.Machine

open Sys2Proof
set_option Elab.async false

/-! ### Safety core faults (09 R257, R258) -/

theorem tripping_tripAll (s : State) (c : Nat) : Tripping s (s.tripAll c) :=
  (tripping_latchFor s 0 c).trans (tripping_foldl (fun z n => tripping_tripLane z n c none) _ _)
theorem allTripped_tripAll (s : State) (c : Nat) : AllTripped s (s.tripAll c) := by
  intro n hn hu
  by_cases ht : (s.lane n).state = .tripped
  · exact (tripping_tripAll s c).state ht
  · have htrip := trip_foldl (c := c) (s := s.latchFor 0 c) (List.mem_range.2 hn) (by rwa [lane_latchFor]) (by rwa [lane_latchFor])
    exact Lane.state_of_trip htrip
theorem moduleLatch_tripAll {s : State} {c : Nat} (hl : latchesLane c = false) (h : latchesModule c = true) :
    (s.tripAll c).safety.moduleLatch = true := by
  unfold State.tripAll
  have trips := tripping_foldl (fun z n => tripping_tripLane z n c none) (List.range 8) (s.latchFor 0 c)
  exact trips.latches.module (moduleLatch_latchFor 0 hl h)

theorem dropHelmLines_eq (s : State) :
    s.dropHelmLines = (List.range 8).foldl (fun z n => z.setLane n (z.lane n).undriven) s := rfl
theorem helmsRest_dropHelmLines (s : State) : HelmsRest s s.dropHelmLines := helmsRest_foldl helmsRest_undriven _ s
theorem helmOut_undriven {n : Nat} {l : List Nat} (hn : n ∈ l) (s : State) :
    ((l.foldl (fun z k => z.setLane k (z.lane k).undriven) s).lane n).helmOut = false := by
  induction l generalizing s with
  | nil => exact absurd hn List.not_mem_nil
  | cons k r ih =>
    rw [List.foldl_cons]
    by_cases hr : n ∈ r
    · exact ih hr _
    · obtain rfl : n = k := (List.mem_cons.1 hn).resolve_right hr
      refine (helmsRest_foldl helmsRest_undriven r _).helm n ?_
      rw [State.lane_setLane_same]
      rfl
theorem helmOut_dropHelmLines (s : State) {n : Nat} (hn : n < 8) : (s.dropHelmLines.lane n).helmOut = false := by
  rw [dropHelmLines_eq]
  exact helmOut_undriven (List.mem_range.2 hn) s

/-- What a safety core fault leaves (09 R258). -/
structure CoreFaulted (s u : State) : Prop where
  noted : u.safety.coreFault = some s.now
  latch : u.safety.moduleLatch = true
  tripped : AllTripped s u
  helm : ∀ n, n < 8 → (u.lane n).helmOut = false

theorem CoreFaulted.trans {s t u : State} (h : CoreFaulted s t) (g : HelmsRest t u) : CoreFaulted s u :=
  ⟨by rw [g.safety, h.noted], by rw [g.safety, h.latch], fun n hn hs => g.tripped n (h.tripped n hn hs),
    fun n hn => g.helm n (h.helm n hn)⟩
theorem coreFaulted_coreFault (s : State) : CoreFaulted s s.coreFault := by
  unfold State.coreFault
  extract_lets a s1 s2 r b
  have tripped := tripping_tripAll s1 trSafetyCore
  have dropped := helmsRest_dropHelmLines (s1.tripAll trSafetyCore)
  have hnoted : s2.safety.coreFault = some s.now := by
    rw [dropped.safety]
    exact tripped.latches.kept (·.coreFault) fun _ _ _ _ _ => rfl
  have hlatch : s2.safety.moduleLatch = true := by
    rw [dropped.safety]
    exact moduleLatch_tripAll rfl rfl
  have htripped : AllTripped s s2 := fun n hn hs => dropped.tripped n (allTripped_tripAll s1 trSafetyCore n hn hs)
  have hhelm : ∀ n, n < 8 → (s2.lane n).helmOut = false := fun n hn => helmOut_dropHelmLines _ hn
  clear_value s2
  have counted : Changes [.safety, .recorder] s2 r.2 := changes_faultEvent s2 fwSafetyCore 0
  have hkept : r.2.safety.coreFault = s2.safety.coreFault := faultEvent_kept s2 fwSafetyCore 0 (·.coreFault) fun _ _ _ _ => rfl
  have mkept : r.2.safety.moduleLatch = s2.safety.moduleLatch := faultEvent_kept s2 fwSafetyCore 0 (·.moduleLatch) fun _ _ _ _ => rfl
  have hlane (n : Nat) : r.2.lane n = s2.lane n := counted.lane (by decide) n
  clear_value r
  refine ⟨hkept.trans hnoted, mkept.trans hlatch, fun n hn hs => ?_, fun n hn => ?_⟩
  · exact (congrArg Lane.state (hlane n)).trans (htripped n hn hs)
  · exact (congrArg Lane.helmOut (hlane n)).trans (hhelm n hn)
theorem coreFaulted_safetyFault {s : State} (h : s.safety.coreFault = none) : CoreFaulted s s.safetyFault := by
  rw [State.safetyFault, if_neg (by simp [h])]
  exact (coreFaulted_coreFault s).trans (helmsRest_releaseAll _ false)

theorem Settled.helmsRest {z u : State} (h : Settled z u) : HelmsRest z u := h.changes.helmsRest (by decide) (by decide)
/-- A safety core fault at the time that the event carries. -/
theorem CoreFaulted.of_event {s z u : State} {t : Nat} (h : CoreFaulted z u) (hl : z.lanes = s.lanes) (hn : z.now = s.nowAt t) :
    u.safety.coreFault = some (s.nowAt t) ∧ u.safety.moduleLatch = true ∧ AllTripped s u ∧ (∀ n, n < 8 → (u.lane n).helmOut = false) :=
  ⟨by rw [h.noted, hn], h.latch, fun n hn hs => h.tripped n hn (by rwa [lane_of_lanes hl]), h.helm⟩

theorem lockstepMismatch_faults {s : State} (t : Nat) (b : Bool) (hr : s.safetyRuns = true) (hc : s.safety.coreFault = none) :
    ∃ u, exec (.lockstepMismatch t b) s = .next u ∧ u.safety.coreFault = some (s.nowAt t) ∧ u.safety.moduleLatch = true ∧
      AllTripped s u ∧ (∀ n, n < 8 → (u.lane n).helmOut = false) := by
  rw [exec_lockstepMismatch, execLockstepMismatch]
  refine when_imp (by rw [safetyRuns_atTime, hr]) fun u hu => ?_
  have faulted := coreFaulted_safetyFault (s := s.atTime t) (by rw [safety_atTime, hc])
  exact (faulted.trans hu.helmsRest).of_event (lanes_atTime s t) rfl
/-- A cross watchdog is handled as a lockstep mismatch is. -/
theorem crossWatchdog_faults {s : State} (t : Nat) (b : Bool) (hr : s.safetyRuns = true) (hc : s.safety.coreFault = none) :
    ∃ u, exec (.crossWatchdog t b) s = .next u ∧ u.safety.coreFault = some (s.nowAt t) ∧ u.safety.moduleLatch = true ∧
      AllTripped s u ∧ (∀ n, n < 8 → (u.lane n).helmOut = false) := lockstepMismatch_faults t b hr hc
theorem configCrcCheck_good {s : State} {t : Nat} (hr : s.safetyRuns = true) (ht : s.safety.configCrcAt + 100000000 ≤ s.nowAt t) :
    ∃ u, exec (.configCrcCheck t true) s = .next u ∧ u.safety = { s.safety with configCrcAt := s.nowAt t } ∧ Moves [.safety] s u := by
  rw [exec_configCrcCheck, execConfigCrcCheck]
  refine when_imp (by simpa [safetyRuns_atTime, hr, elapsed] using ht) fun u hu => ?_
  extract_lets a z at hu
  rw [if_pos rfl] at hu
  refine ⟨?_, hu.moves_from (t := t) ((changes_safety _ _).moves (by decide))⟩
  rw [hu.safety, ← safety_atTime s t]
theorem configCrcCheck_bad {s : State} {t : Nat} (hr : s.safetyRuns = true) (ht : s.safety.configCrcAt + 100000000 ≤ s.nowAt t)
    (hc : s.safety.coreFault = none) : ∃ u, exec (.configCrcCheck t false) s = .next u ∧ u.safety.coreFault = some (s.nowAt t) ∧
      u.safety.moduleLatch = true ∧ AllTripped s u := by
  rw [exec_configCrcCheck, execConfigCrcCheck]
  refine when_imp (by simpa [safetyRuns_atTime, hr, elapsed] using ht) fun u hu => ?_
  extract_lets a z at hu
  rw [if_neg Bool.false_ne_true] at hu
  have hfault : z.safety.coreFault = none := (congrArg Safety.coreFault (safety_atTime s t)).trans hc
  obtain ⟨hnoted, hlatch, htripped, -⟩ := ((coreFaulted_safetyFault hfault).trans hu.helmsRest).of_event (t := t)
    (show z.lanes = s.lanes from lanes_atTime s t) rfl
  exact ⟨hnoted, hlatch, htripped⟩

theorem selfReset_helmOut (s : State) (n : Nat) : (s.selfReset.lane n).helmOut = false :=
  tget_map_of (p := fun l : Lane => l.helmOut = false) rfl (fun _ => rfl) s.lanes n
theorem safetyCoreReset_restarts {s : State} {t a : Nat} (hc : s.safety.coreFault = some a) (ht : a + 10000000 ≤ s.nowAt t) :
    ∃ u, exec (.safetyCoreReset t) s = .next u ∧ CoreRestarted s u t := by
  rw [exec_safetyCoreReset, execSafetyCoreReset]
  refine when_imp (by simpa [hc, elapsedO, elapsed] using ht) fun u hu => ?_
  obtain ⟨z, hz⟩ : ∃ z, z = (s.atTime t).writeFaultRecords ((s.atTime t).safety.coreFault.getD 0) := ⟨_, rfl⟩
  have noted : Changes [.recorder] (s.atTime t) z := by
    rw [hz]
    exact changes_recorder rfl
  rw [← hz] at hu
  have hsafety : z.safety = s.safety := (noted .safety (by decide)).trans (safety_atTime s t)
  have hclock : z.clock = (s.atTime t).clock := noted .clock (by decide)
  refine ⟨?_, ?_, ?_, ?_, fun n => ?_, fun n => ?_, ?_, ?_, ?_⟩
  · rw [hu.safety]
    rfl
  · rw [hu.power]
    rfl
  · rw [hu.power]
    rfl
  · rw [hu.safety, ← hsafety]
    rfl
  · rw [laneSafe_of_safety hu.safety, selfReset_laneSafe_latch, laneSafe_of_safety hsafety]
  · rw [hu.lane, selfReset_lane_state, selfReset_helmOut]
    exact ⟨rfl, rfl⟩
  · rw [hu.clock]
    exact congrArg (·.ns) hclock
  · have hfab : z.fab = s.fab := (noted .fab (by decide)).trans (fab_atTime s t)
    rw [hu.changes .fab (by decide), ← hfab]
    rfl
  · rw [hu.changes .pending (by decide)]
    exact (noted .pending (by decide)).trans (pending_atTime s t)

/-! ### Comparators (09 R261) -/

theorem mem_tset {α : Type} (t : Table α) (i : Nat) (a : α) : (i, a) ∈ tset t i a := by
  induction t with
  | nil => exact List.mem_singleton.2 rfl
  | cons x t ih =>
    rw [tset]
    split_ifs
    · exact List.mem_cons_self
    · exact List.mem_cons_self
    · exact List.mem_cons_of_mem _ ih
theorem all_tset {α : Type} {p : α → Bool} {t : Table α} (h : t.all (fun x => p x.2) = true) (i : Nat) {a : α} (ha : p a = true) :
    (tset t i a).all (fun x => p x.2) = true := by
  induction t with
  | nil => simpa [tset] using ha
  | cons x t ih =>
    rw [List.all_cons, Bool.and_eq_true_iff] at h
    rw [tset]
    split_ifs <;> simp [ha, h, ih h.2, -List.all_eq_true]
theorem tget_of_all {α : Type} {p : α → Bool} {d : α} (hd : p d = true) {t : Table α} (h : t.all (fun x => p x.2) = true) (i : Nat) :
    p (tget d t i) = true := by
  induction t with
  | nil => exact hd
  | cons x t ih =>
    rw [List.all_cons, Bool.and_eq_true_iff] at h
    rw [tget]
    split
    · exact h.1
    · exact ih h.2

theorem laneSafe_updComp (s : State) (n k : Nat) (f : Comparator → Comparator) : (s.updComp n k f).laneSafe n =
    { s.laneSafe n with comps := tset (s.laneSafe n).comps k (f (tget {} (s.laneSafe n).comps k)) } :=
  State.laneSafe_setLaneSafe_same s n _
theorem comp_updComp (s : State) (n k : Nat) (f : Comparator → Comparator) :
    tget {} ((s.updComp n k f).laneSafe n).comps k = f (tget {} (s.laneSafe n).comps k) := by
  rw [laneSafe_updComp, tget_tset_same]
theorem changes_updComp (s : State) (n k : Nat) (f : Comparator → Comparator) : Changes [.safety] s (s.updComp n k f) := changes_safety s _
theorem lane_updComp (s : State) (n k : Nat) (f : Comparator → Comparator) (j : Nat) : (s.updComp n k f).lane j = s.lane j :=
  (changes_updComp s n k f).lane (by decide) j
/-- A comparator that has tripped, or whose read-back differed, is a cause of OVERCURRENT. -/
theorem overcurrent_updComp {s : State} {n k : Nat} {f : Comparator → Comparator}
    (h : ((f (tget {} (s.laneSafe n).comps k)).tripped || (f (tget {} (s.laneSafe n).comps k)).readBad) = true) :
    (s.updComp n k f).causeActive n trOvercurrent = true := by
  show ((s.updComp n k f).laneSafe n).comps.any _ = true
  rw [laneSafe_updComp]
  exact List.any_eq_true.2 ⟨_, mem_tset _ k _, h⟩

theorem Tripping.comps {s t : State} (h : Tripping s t) (n : Nat) : (t.laneSafe n).comps = (s.laneSafe n).comps := by rw [h.latches.lane n]
theorem Settled.laneSafe {z u : State} (h : Settled z u) (n : Nat) : u.laneSafe n = z.laneSafe n := laneSafe_of_safety h.safety n

/-- A cause that arrives at one lane trips it. -/
theorem tripNew_one {s before : State} {c n : Nat} (hc : s.causeActive n c = true) (ha : before.arrives n c = true) :
    s.tripNew before c [n] = s.tripLane n c := by
  rw [State.tripNew, List.filter_cons_of_pos (by rw [hc, ha]; rfl)]
  rfl
/-- A cause that is not active trips no lane. -/
theorem tripNew_inactive {s before : State} {c n : Nat} (hc : s.causeActive n c = false) : s.tripNew before c [n] = s := by
  rw [State.tripNew, List.filter_cons_of_neg (by simp [hc])]
  rfl
/-- A comparator that makes OVERCURRENT active trips its lane in RUN. -/
theorem overcurrent_trips {z u : State} {n k : Nat} {f : Comparator → Comparator} (hst : (z.lane n).state = .run)
    (hf : ((f (tget {} (z.laneSafe n).comps k)).tripped || (f (tget {} (z.laneSafe n).comps k)).readBad) = true)
    (hu : Settled (((z.updComp n k f).tripNew z trOvercurrent [n]).recheckArming) u) :
    (u.lane n).trip = (.tripped, trOvercurrent, true) ∧ (u.lane n).outputs = (false, false, false, (z.lane n).helmOut) ∧
      (u.laneSafe n).latch = true ∧ tget {} (u.laneSafe n).comps k = f (tget {} (z.laneSafe n).comps k) := by
  rw [tripNew_one (overcurrent_updComp hf) (arrives_of_ne _ (by simp [hst]))] at hu
  have hlane := lane_updComp z n k f n
  have configured : ((z.updComp n k f).lane n).state ≠ .unconfigured := by simp [hlane, hst]
  have untripped : ((z.updComp n k f).lane n).state ≠ .tripped := by simp [hlane, hst]
  have htrip := trip_tripLane trOvercurrent none configured untripped
  have checked := tripping_recheckArming ((z.updComp n k f).tripLane n trOvercurrent)
  obtain ⟨ktrip, koutputs⟩ := checked.tripped n (Lane.state_of_trip htrip)
  refine ⟨?_, ?_, ?_, ?_⟩
  · rw [hu.lane, ktrip, htrip]
  · rw [hu.lane, koutputs, outputs_tripLane _ _ configured untripped, hlane]
  · rw [hu.laneSafe]
    exact checked.latches.latch n (latch_tripLane none configured rfl)
  · rw [hu.laneSafe, checked.comps, (tripping_tripLane _ n _ _).comps, comp_updComp]

theorem overcurrentTrip_trips {s : State} (t : Nat) {n k thr : Nat} {v : Int} (hn : n < 8) (hk : k < 7) (hcomp : s.hasComp n k = true)
    (hrest : (tget {} (s.laneSafe n).comps k).tripped = false) (hthr : s.compThreshold n k = some thr) (hv : thr < v.natAbs)
    (hst : (s.lane n).state = .run) : ∃ u, exec (.overcurrentTrip t n k v) s = .next u ∧ (u.lane n).state = .tripped ∧
      (u.lane n).cause = 0x01 ∧ (u.laneSafe n).latch = true ∧ (tget {} (u.laneSafe n).comps k).tripped = true ∧
      (u.lane n).gatesForced = true ∧ (u.lane n).kPos.drive = false ∧ (u.lane n).kNeg.drive = false ∧ (u.lane n).kPre.drive = false := by
  have hcompAt : (s.atTime t).hasComp n k = true := by rw [State.hasComp, lane_atTime, ← State.hasComp, hcomp]
  have hthrAt : (s.atTime t).compThreshold n k = some thr := by rw [State.compThreshold, laneSafe_atTime, ← State.compThreshold, hthr]
  rw [exec_overcurrentTrip, execOvercurrentTrip]
  refine whenOn_imp (by simp [hn, hk]) ?_ fun u hu => ?_
  · rw [hcompAt, hthrAt, laneSafe_atTime, hrest]
    exact decide_eq_true hv
  · obtain ⟨htrip, houtputs, hlatch, hcomps⟩ := overcurrent_trips (by rw [lane_atTime, hst]) rfl hu
    refine ⟨Lane.state_of_trip htrip, Lane.cause_of_trip htrip, hlatch, ?_, Lane.gatesForced_of_trip htrip, ?_, ?_, ?_⟩
    · rw [hcomps]
    · exact congrArg (fun x => x.2.1) houtputs
    · exact congrArg (fun x => x.1) houtputs
    · exact congrArg (fun x => x.2.2.1) houtputs

theorem Settled.onlyLaneSafe {s z u : State} {t n : Nat} {ps qs : List Part} (h : Settled z u)
    (hz : Only State.laneSafe n ps (s.atTime t) z) (hs : ∀ q ∈ .clock :: .mbox :: ps, q ∈ qs) : Only State.laneSafe n qs s u :=
  h.only hz hs (laneSafe_atTime s t) h.laneSafe

theorem comparatorRelease_released {s : State} (t : Nat) {n k : Nat} (hn : n < 8) (hk : k < 7)
    (hc : (tget {} (s.laneSafe n).comps k).tripped = true) : ∃ u, exec (.comparatorRelease t n k) s = .next u ∧
      tget {} (u.laneSafe n).comps k = { tget {} (s.laneSafe n).comps k with tripped := false } ∧
      (u.laneSafe n).latch = (s.laneSafe n).latch ∧ Only State.laneSafe n [.clock, .safety, .mbox] s u := by
  rw [exec_comparatorRelease, execComparatorRelease]
  refine whenOn_imp (by simp [hn, hk]) (by rw [laneSafe_atTime, hc]) fun u hu => ⟨?_, ?_, ?_⟩
  · rw [hu.laneSafe, comp_updComp, laneSafe_atTime]
  · rw [hu.laneSafe, laneSafe_updComp, laneSafe_atTime]
  · exact hu.onlyLaneSafe (onlyLaneSafe_setLaneSafe _ n _) (by decide)

theorem Comparator.read_agreeing {x : Comparator} {c : Nat} (now : Nat) (hcode : x.code = some c) (h : x.readBad = false) :
    { x with readAt := now, readBad := x.code != some c } = { x with readAt := now } := by
  rw [hcode, bne_self_eq_false, ← h, ← hcode]
/-- A read-back that agrees, where no comparator of the lane has tripped or differed, makes no cause active. -/
theorem thresholdReadback_good {s : State} {t n k c : Nat} (hn : n < 8) (hk : k < 7)
    (hcode : (tget {} (s.laneSafe n).comps k).code = some c)
    (hdue : elapsed (tget {} (s.laneSafe n).comps k).readAt 10000000 (s.nowAt t) = true)
    (hall : (s.laneSafe n).comps.all (fun x => !x.2.tripped && !x.2.readBad) = true) :
    ∃ u, exec (.thresholdReadback t n k c) s = .next u ∧
      tget {} (u.laneSafe n).comps k = { tget {} (s.laneSafe n).comps k with readAt := s.nowAt t } ∧
      (u.laneSafe n).latch = (s.laneSafe n).latch := by
  have hcomp := tget_of_all (p := fun x : Comparator => !x.tripped && !x.readBad) (d := {}) rfl hall k
  obtain ⟨-, hagreed⟩ : (tget {} (s.laneSafe n).comps k).tripped = false ∧ (tget {} (s.laneSafe n).comps k).readBad = false := by
    simpa using hcomp
  rw [exec_thresholdReadback, execThresholdReadback]
  refine whenOn_imp (by simp [hn, hk]) (by rw [laneSafe_atTime, hcode, hdue]; rfl) fun u hu => ?_
  extract_lets z at hu
  have read : z.laneSafe n = { s.laneSafe n with
      comps := tset (s.laneSafe n).comps k { tget {} (s.laneSafe n).comps k with readAt := s.nowAt t } } := by
    refine (laneSafe_updComp _ n k _).trans ?_
    rw [laneSafe_atTime]
    exact congrArg (fun x => { s.laneSafe n with comps := tset (s.laneSafe n).comps k x }) (Comparator.read_agreeing _ hcode hagreed)
  have inactive : z.causeActive n trOvercurrent = false := by
    have untripped := all_tset (p := fun x : Comparator => !x.tripped && !x.readBad) hall k
      (a := { tget {} (s.laneSafe n).comps k with readAt := s.nowAt t }) hcomp
    show (z.laneSafe n).comps.any _ = false
    rw [read, List.any_eq_false]
    intro x hx
    have hx := List.all_eq_true.1 untripped x hx
    simpa using hx
  rw [tripNew_inactive inactive] at hu
  have kept : u.laneSafe n = z.laneSafe n := (hu.laneSafe n).trans (laneSafe_of_safety (changes_recheckArming z .safety (by decide)) n)
  rw [kept, read]
  exact ⟨tget_tset_same _ _ _ _, rfl⟩
theorem thresholdReadback_bad {s : State} {t n k c a : Nat} (hn : n < 8) (hk : k < 7)
    (hcode : (tget {} (s.laneSafe n).comps k).code = some a) (hne : a ≠ c)
    (hdue : elapsed (tget {} (s.laneSafe n).comps k).readAt 10000000 (s.nowAt t) = true) (hst : (s.lane n).state = .run) :
    ∃ u, exec (.thresholdReadback t n k c) s = .next u ∧ (u.lane n).state = .tripped ∧ (u.lane n).cause = 0x01 := by
  rw [exec_thresholdReadback, execThresholdReadback]
  refine whenOn_imp (by simp [hn, hk]) (by rw [laneSafe_atTime, hcode, hdue]; rfl) fun u hu => ?_
  obtain ⟨htrip, -⟩ := overcurrent_trips (by rw [lane_atTime, hst]) (by simp [laneSafe_atTime, hcode, hne]) hu
  exact ⟨Lane.state_of_trip htrip, Lane.cause_of_trip htrip⟩

/-! ### Lost ports (09 R263) -/

theorem derateCond_atTime (s : State) (t n : Nat) : (s.atTime t).derateCond n = s.derateCond n := by
  simp only [State.derateCond, portsOf_atTime, port_atTime]
theorem portDerate_derates {s : State} (t : Nat) {n : Nat} (hn : n < 8) (ha : laneArmed (s.lane n).state = true)
    (hd : (s.laneSafe n).derate = false) (hc : s.derateCond n = true) : ∃ u, exec (.portDerate t n) s = .next u ∧
      u.laneSafe n = { s.laneSafe n with derate := true, derateSince := some (s.nowAt t) } ∧
      Only State.laneSafe n [.clock, .safety, .mbox] s u := by
  rw [exec_portDerate, execPortDerate]
  refine whenOn_imp (decide_eq_true hn) ?_ fun u hu => ⟨?_, ?_⟩
  · rw [lane_atTime, laneSafe_atTime, derateCond_atTime, ha, hd, hc]
    rfl
  · rw [hu.laneSafe, State.updLaneSafe_eq, State.laneSafe_setLaneSafe_same, laneSafe_atTime]
  · exact hu.onlyLaneSafe (onlyLaneSafe_setLaneSafe _ n _) (by decide)
theorem portLost_trips {s : State} {t n a : Nat} (hn : n < 8) (hst : (s.lane n).state = .run) (hd : (s.laneSafe n).derate = true)
    (hc : s.derateCond n = true) (hs : (s.laneSafe n).derateSince = some a)
    (ht : a + (s.laneSafe n).portLostTime * 1000000 ≤ s.nowAt t) :
    ∃ u, exec (.portLost t n) s = .next u ∧ (u.lane n).state = .tripped ∧ (u.lane n).cause = 0x08 := by
  rw [exec_portLost, execPortLost]
  refine whenOn_imp (decide_eq_true hn) ?_ fun u hu => ?_
  · rw [lane_atTime, laneSafe_atTime, derateCond_atTime, hst, hd, hc, hs]
    simpa [laneArmed, elapsedO, elapsed] using ht
  · obtain ⟨hstate, hcause, -⟩ := hu.tripped (by rw [lane_atTime, hst])
    exact ⟨hstate, hcause⟩

/-- Settles O29: one lemma for each event, of which a configuration check has two, as has a threshold read-back. -/
theorem safetyCoreAndLaneProtectionEventsComplete : Obligations.SafetyCoreAndLaneProtectionEventsComplete := by
  intro s t a n k thr c b v l
  refine ⟨?lockstep, ?cross, configCrcCheck_good, configCrcCheck_bad, safetyCoreReset_restarts, ?overcurrent,
    fun hn hk hc => comparatorRelease_released t hn hk hc, ?good, thresholdReadback_bad, ?derate, portLost_trips⟩
  case lockstep => exact fun hr hc => by simpa using lockstepMismatch_faults t b hr hc
  case cross => exact fun hr hc => by simpa using crossWatchdog_faults t b hr hc
  case overcurrent =>
    intro hn hk hcomp hrest hthr hv hst
    simpa using overcurrentTrip_trips t hn hk hcomp (by simpa using hrest) hthr hv hst
  case good => exact fun hn hk hcode hdue hall => thresholdReadback_good hn hk hcode hdue hall
  case derate =>
    intro hn ha hd hc
    exact portDerate_derates t hn ha (by simpa using hd) hc

end Sys2Proof.Machine
end

