-- ==== Sys2Proof/Proofs/BareRockEntry.lean ====
section
/-! PROOF. The entry to BARE ROCK (09 R283, R284): what each of its steps keeps of the state that it has entered, and what it leaves. -/

namespace Sys2Proof.Machine

open Sys2Proof
set_option Elab.async false

/-! ### What a step of the entry keeps -/

/-- The state of the module, its BARE ROCK and the clock's time are as they were, and no reset of a mailbox has become pending. -/
structure RockStays (s t : State) : Prop where
  power : t.power = s.power
  rock : t.safety.rock = s.safety.rock
  ns : t.clock.ns = s.clock.ns
  resets : ResetsKept s t

theorem RockStays.trans {s t u : State} (h : RockStays s t) (g : RockStays t u) : RockStays s u :=
  ⟨g.power.trans h.power, g.rock.trans h.rock, g.ns.trans h.ns, h.resets.trans g.resets⟩
theorem Tripping.rockStays {s t : State} (h : Tripping s t) : RockStays s t :=
  ⟨h.parts .power (by decide), h.latches.kept (·.rock) fun _ _ _ _ _ => rfl, by rw [h.parts .clock (by decide)], h.resets⟩

/-- The same, and no lane's trip has changed. -/
structure RockKeeps (s t : State) : Prop extends RockStays s t where
  trips : TripsKept s t

theorem RockKeeps.trans {s t u : State} (h : RockKeeps s t) (g : RockKeeps t u) : RockKeeps s u :=
  ⟨h.toRockStays.trans g.toRockStays, h.trips.trans g.trips⟩
theorem Changes.rockKeeps {ps : List Part} {s t : State} (h : Changes ps s t)
    (hs : ∀ p ∈ ps, p ∈ [.servo, .tide, .table, .tsout, .ana, .therm, .net, .fab, .can, .ten, .recorder, .model]) : RockKeeps s t := by
  have hparts := h.mono hs
  exact ⟨⟨hparts .power (by decide), by rw [hparts .safety (by decide)], by rw [hparts .clock (by decide)],
    resetsKept_of_boxes (by rw [hparts .mbox (by decide)])⟩, hparts.tripsKept (by decide)⟩
theorem LanesRest.rockKeeps {s t : State} (h : LanesRest s t) : RockKeeps s t :=
  ⟨(h.follows.tripping h.trips).rockStays, h.trips⟩

theorem changes_tide (s : State) (x : Tide) : Changes [.tide] s { s with tide := x } := by
  intro p hp
  cases p <;> simp_all [Part.same]
theorem rockKeeps_event (s : State) (c k o u : Nat) (v0 v1 v2 : Option Int) (src : Option Nat) (b cl : Bool) (a : Option Nat) :
    RockKeeps s (s.event c k o u v0 v1 v2 src b cl a) :=
  (changes_event _ _ _ _ _ _ _ _ _ _ _ _).rockKeeps (by decide)
theorem rockKeeps_dropHelmLines (s : State) : RockKeeps s s.dropHelmLines := by
  rw [dropHelmLines_eq]
  have undriven := changes_foldl (fun z n => changes_setLane z n (z.lane n).undriven) (List.range 8) s
  have rested := tripsKept_foldl (fun z n => tripsKept_setLane (s := z) (n := n) (x := (z.lane n).undriven) rfl) (List.range 8) s
  exact ⟨⟨undriven .power (by decide), congrArg Safety.rock (undriven .safety (by decide)), congrArg Clock.ns (undriven .clock (by decide)),
    resetsKept_of_boxes (congrArg Mbox.boxes (undriven .mbox (by decide)))⟩, rested⟩
theorem rockKeeps_faultEvent (s : State) (k o : Nat) : RockKeeps s (s.faultEvent k o).2 := by
  have counted := changes_faultEvent s k o
  have hrock : (s.faultEvent k o).2.safety.rock = s.safety.rock := faultEvent_kept s k o (·.rock) fun _ _ _ _ => rfl
  exact ⟨⟨counted .power (by decide), hrock, by rw [counted .clock (by decide)], resetsKept_of_boxes (by rw [counted .mbox (by decide)])⟩,
    counted.tripsKept (by decide)⟩

/-! ### Engines, roles and the tide (09 R284) -/

theorem changes_outputsSafe (s : State) : Changes [.ana, .therm, .tsout] s s.outputsSafe := by
  unfold State.outputsSafe
  extract_lets s1 s2
  have dacs : Changes [.ana] s s1 := changes_foldl (fun z k => .ite (.refl _ z) (changes_ana z _)) _ s
  have pumps : Changes [.therm] s1 s2 := changes_foldl (fun z k => .ite (changes_therm z _) (.refl _ z)) _ s1
  exact ((dacs.mono (by decide)).trans (pumps.mono (by decide))).trans ((changes_tsout s2 _).mono (by decide))
theorem lanesRest_stopTenants (s : State) : LanesRest s s.stopTenants := lanesRest_foldl (fun z n => lanesRest_slotTo z n _) _ s
theorem changes_dropArmed (s : State) : Changes [.table] s s.dropArmed := by
  unfold State.dropArmed
  extract_lets s1
  have missed : Changes [.table] s s1 := changes_foldl (fun z a => .ite (changes_table z _) (.refl _ z)) _ s
  exact missed.trans (changes_table s1 _)
theorem rockKeeps_toHoldover (s : State) : RockKeeps s s.toHoldover := by
  have held := changes_toHoldover s
  exact ⟨⟨held .power (by decide), by rw [held .safety (by decide)], rfl, resetsKept_of_boxes (by rw [held .mbox (by decide)])⟩,
    held.tripsKept (by decide)⟩
theorem rockKeeps_enginesOff (s : State) : RockKeeps s s.enginesOff := by
  unfold State.enginesOff
  extract_lets s1 z s2
  have counters : Changes [.ana] s s.stopCounters := changes_foldl (fun z n => changes_ana z _) _ s
  have converters : Changes [.ana] s.stopCounters s.stopCounters.stopConverters := changes_foldl (fun z n => changes_ana z _) _ _
  have h1 : RockKeeps s s1 := (((counters.trans converters).rockKeeps (by decide)).trans ((changes_outputsSafe _).rockKeeps (by decide))).trans
    (lanesRest_stopTenants _).rockKeeps
  have h2 : RockKeeps s s2 := (h1.trans ((changes_fab s1 _).rockKeeps (by decide))).trans ((changes_dropArmed _).rockKeeps (by decide))
  split
  · exact h2
  · exact h2.trans (rockKeeps_toHoldover s2)
theorem rockKeeps_loseRoles (s : State) : RockKeeps s s.loseRoles := (changes_net s _).rockKeeps (by decide)
theorem changes_publishQuality (s : State) : Changes [.ana, .therm, .ten] s s.publishQuality := by
  unfold State.publishQuality State.signalOf
  exact changes_moduleSignal s _ _ _
theorem changes_takeQuality (s : State) : Changes [.tide, .recorder, .ana, .therm, .ten] s s.takeQuality := by
  unfold State.takeQuality
  extract_lets q td
  split
  · exact .refl _ s
  · exact (((changes_tide s _).mono (by decide)).trans ((changes_event _ _ _ _ _ _ _ _ _ _ _ _).mono (by decide))).trans
      ((changes_publishQuality _).mono (by decide))
theorem changes_tideCoasts (s : State) : Changes [.tide, .recorder, .ana, .therm, .ten] s s.tideCoasts := by
  unfold State.tideCoasts
  refine Changes.trans ?_ (changes_takeQuality _)
  exact (changes_tide s _).mono (by decide)

/-! ### Mailboxes (14 R406, 17 R467) -/

/-- The end of a session leaves the resets of the mailboxes of the other paths. -/
theorem resetKept_endSession (s : State) (id : Nat) {p : Path} (hp : p ≠ .service) {k : Nat} (h : (s.box p k).resetPending = false) :
    ((s.endSession id).box p k).resetPending = false := by
  unfold State.endSession
  extract_lets b s1 s2 x s3 y s4
  have h2 : (s2.box p k).resetPending = false := by
    show ((if b.executing.isSome then _ else _ : State).box p k).resetPending = false
    split
    · refine (congrArg Mailbox.resetPending (box_setBox_ne s1 _ ?_)).trans h
      exact fun hb => hp (hb.1.symm.trans (box_path s .service id))
    · exact resetsKept_dropBox s1 .service id p k h
  have h4 : s4.mbox.boxes = s2.mbox.boxes := by
    show (if _ then _ else s3 : State).mbox.boxes = s2.mbox.boxes
    split
    · rw [mbox_event]
    · rfl
  rw [box_of_mbox (congrArg Mbox.boxes (mbox_event s4 _ _ _ _ _ _ _ _ _ _ _)), box_of_mbox h4]
  exact h2
theorem changes_sec (s : State) (x : Security) : Changes [.sec] s { s with sec := x } := by
  intro p hp
  cases p <;> simp_all [Part.same]
theorem changes_endSession (s : State) (id : Nat) : Changes [.mbox, .sec, .recorder] s (s.endSession id) := by
  have logged (z : State) (c k o u : Nat) (v0 : Option Int) : Changes [.mbox, .sec, .recorder] z (z.event c k o u v0) :=
    (changes_event _ _ _ _ _ _ _ _ _ _ _ _).mono (by decide)
  unfold State.endSession
  extract_lets b s1 s2 x s3 y s4
  have h2 : Changes [.mbox] s s2 := (changes_mbox s _).trans (.ite (changes_mbox s1 _) (changes_mbox s1 _))
  have h3 : Changes [.mbox, .sec, .recorder] s s3 := (h2.trans (changes_mbox s2 _)).mono (by decide)
  have h4 : Changes [.mbox, .sec, .recorder] s s4 :=
    h3.trans (.ite (((changes_sec s3 _).mono (by decide)).trans (logged _ _ _ _ _ _)) (.refl _ s3))
  exact h4.trans (logged _ _ _ _ _ _)

theorem changes_mailboxesOff (s : State) : Changes [.mbox, .sec, .recorder] s s.mailboxesOff := by
  unfold State.mailboxesOff
  extract_lets s1
  have ended : Changes [.mbox, .sec, .recorder] s s1 := changes_foldl changes_endSession _ s
  refine ended.trans fun p hp => ?_
  cases p <;> simp_all [Part.same]
/-- No reset is pending that was not so before: the sessions' mailboxes are gone, the others keep what they had. -/
theorem resetsKept_mailboxesOff (s : State) : ResetsKept s s.mailboxesOff := by
  intro p k h
  unfold State.mailboxesOff
  extract_lets s1
  have ended (hp : p ≠ .service) : (s1.box p k).resetPending = false :=
    List.foldlRecOn (motive := fun z : State => (z.box p k).resetPending = false) _ _ h fun z hz id _ => resetKept_endSession z id hp hz
  clear_value s1
  unfold State.box at ended ⊢
  dsimp only
  rw [List.find?_map, List.find?_filter]
  by_cases hp : p = .service
  · rw [List.find?_eq_none.2 fun x _ => by simp_all]
    rfl
  · have same : (fun x : Mailbox => decide ((x.path != .service) = true ∧
        ((fun x : Mailbox => x.path == p && x.box == k) ∘ fun b => { b with executing := none }) x = true)) =
        fun x => x.path == p && x.box == k := by
      funext x
      grind
    rw [same]
    have hpending := ended hp
    cases hfind : s1.mbox.boxes.find? fun x => x.path == p && x.box == k with
    | none => rfl
    | some b => exact (congrArg (fun x : Option Mailbox => (x.getD { path := p, box := k }).resetPending) hfind).symm.trans hpending

/-! ### The entry (09 R283, R284) -/

/-- Every lane that is armed trips for BARE ROCK when its turn comes. -/
theorem trip_rocked {n : Nat} {l : List Nat} {s : State} (hn : n ∈ l) (ha : laneArmed (s.lane n).state = true) :
    ((l.foldl (fun z k => if laneArmed (z.lane k).state then z.tripLane k trBareRock else z) s).lane n).trip = (.tripped, trBareRock, true) := by
  induction l generalizing s with
  | nil => exact absurd hn List.not_mem_nil
  | cons k r ih =>
    rw [List.foldl_cons]
    by_cases hk : n = k
    · subst hk
      rw [if_pos ha]
      have htrip := trip_tripLane (s := s) (n := n) trBareRock none (fun h => by simp [h, laneArmed] at ha)
        (fun h => by simp [h, laneArmed] at ha)
      have rest := tripping_foldl (fun z k => Tripping.ite (c := laneArmed (z.lane k).state = true) (tripping_tripLane z k trBareRock none)
        (.refl z)) r (s.tripLane n trBareRock)
      exact (rest.tripped n (Lane.state_of_trip htrip)).1.trans htrip
    · refine ih ((List.mem_cons.1 hn).resolve_left hk) ?_
      split
      · rwa [Lane.state_of_trip (trip_tripLane_ne trBareRock none hk)]
      · exact ha

theorem rockKeeps_mailboxesOff (s : State) : RockKeeps s s.mailboxesOff := by
  have off := changes_mailboxesOff s
  exact ⟨⟨off .power (by decide), congrArg Safety.rock (off .safety (by decide)), congrArg Clock.ns (off .clock (by decide)),
    resetsKept_mailboxesOff s⟩, off.tripsKept (by decide)⟩
/-- What is left once the lanes have tripped. -/
theorem rockKeeps_left (s : State) : RockKeeps s s.enginesOff.loseRoles.tideCoasts.mailboxesOff :=
  (((rockKeeps_enginesOff s).trans (rockKeeps_loseRoles _)).trans ((changes_tideCoasts _).rockKeeps (by decide))).trans
    (rockKeeps_mailboxesOff _)
theorem own_loseRoles (s : State) : ∀ o ∈ s.loseRoles.net.own, o.state = .none_ := by
  intro o ho
  obtain ⟨x, -, rfl⟩ := List.mem_map.1 ho
  rfl
theorem own_left (s : State) : ∀ o ∈ s.enginesOff.loseRoles.tideCoasts.mailboxesOff.net.own, o.state = .none_ := by
  rw [changes_mailboxesOff _ .net (by decide), changes_tideCoasts _ .net (by decide)]
  exact own_loseRoles _

/-- The clock's time, the trips and the mailboxes' resets are as they were. -/
structure RockNoted (s t : State) : Prop where
  ns : t.clock.ns = s.clock.ns
  trips : TripsKept s t
  resets : ResetsKept s t

/-- What the entry to BARE ROCK leaves. -/
structure RockEntered (s u : State) (cause : Nat) (v0 : Option Int) : Prop where
  state : u.power.state = .bareRock
  rock : u.safety.rock = some (cause, (v0.getD 0).toNat)
  ready : u.mbox.ready = false
  armed : ArmedRocked s u
  own : ∀ o ∈ u.net.own, o.state = .none_
  ns : u.clock.ns = s.clock.ns
  resets : ResetsKept s u

theorem rockEntered_enterRock {s : State} (cause : Nat) (v0 : Option Int) (h : s.power.state ≠ .bareRock) :
    RockEntered s (s.enterRock cause v0) cause v0 := by
  unfold State.enterRock
  extract_lets a b s0 x c d s1 r e f s2 s3
  rw [if_neg (by simpa using h)]
  have noted : RockNoted s s0 := ⟨rfl, fun _ => rfl, fun _ _ => id⟩
  have cached : RockKeeps s0.canOff x := Changes.rockKeeps (ps := [.recorder]) (changes_recorder rfl) (by decide)
  have prepared : RockKeeps s0 x := (lanesRest_canOff s0).rockKeeps.trans cached
  clear_value s0 x
  have entered : RockNoted x s1 := ⟨rfl, fun _ => rfl, fun _ _ => id⟩
  have hstate : s1.power.state = .bareRock := rfl
  have hrock : s1.safety.rock = some (cause, (v0.getD 0).toNat) := rfl
  clear_value s1
  have stopped : RockKeeps s1 r.2 := (((rockKeeps_event s1 _ _ _ _ _ _ _ _ _ _ _).trans (lanesRest_abortChannels _ _).rockKeeps).trans
    (rockKeeps_dropHelmLines _)).trans (rockKeeps_faultEvent _ _ _)
  clear_value r
  have held : RockKeeps r.2 s2 := ⟨⟨rfl, rfl, rfl, fun _ _ => id⟩, fun _ => rfl⟩
  have armed : RockStays s2 s3 :=
    (tripping_foldl (fun z k => Tripping.ite (tripping_tripLane z k trBareRock none) (.refl z)) _ s2).rockStays
  have rocked (n : Nat) (hn : n < 8) (ha : laneArmed (s2.lane n).state = true) : (s3.lane n).trip = (.tripped, trBareRock, true) :=
    trip_rocked (List.mem_range.2 hn) ha
  have before : TripsKept s s2 := fun n => by rw [held.trips, stopped.trips, entered.trips, prepared.trips, noted.trips]
  have after := (stopped.trans held).toRockStays.trans (armed.trans (rockKeeps_left s3).toRockStays)
  clear_value s3
  refine ⟨?_, ?_, rfl, fun n hn ha => ?_, own_left s3, ?_, ?_⟩
  · rw [after.power, hstate]
  · rw [after.rock, hrock]
  · have htrip := ((rockKeeps_left s3).trips n).trans (rocked n hn (by rwa [Lane.state_of_trip (before n)]))
    exact ⟨Lane.state_of_trip htrip, Lane.cause_of_trip htrip⟩
  · rw [after.ns, entered.ns, prepared.ns, noted.ns]
  · exact ((noted.resets.trans prepared.resets).trans entered.resets).trans after.resets

end Sys2Proof.Machine
end

