-- ==== Sys2Proof/Proofs/SafetyCommands.lean ====
section
/-! PROOF. The SAFETY commands (O28): what is read, what each SET command puts in force with its settings record, and BARE_ROCK, which
is answered on the state that the entry leaves. -/

namespace Sys2Proof.Machine

open Sys2Proof
set_option Elab.async false

/-! ### Reading (09 R287) -/

/-- A STATUS command whose handler answers fields on the state seen. -/
theorem status_seen {src : Source} {code : Nat} {h : State → Answer} {s : State} {p : List Field} (hr : Taken s src code)
    (ha : h s.seen = okWith s.seen p) : ∃ u, runCommand src code h s = .next u ∧ Answered s u src code p s := by
  have runs : s.runs h = ⟨some stOk, p, s⟩ := by
    revert ha
    unfold State.runs State.seen
    split
    · intro ha
      simp only [ha, okWith, fresh_atStep6]
    · exact id
  exact runCommand_ok hr runs rfl rfl rfl
theorem safetyStatus_fields {s z : State} {src : Source} (hr : Taken s src 0x1301) (hz : z = s.seen) :
    ∃ u, exec (.safetyStatus src) s = .next u ∧ SafetyStatusRead s u z src := by
  rw [exec_safetyStatus, execSafetyStatus]
  subst hz
  exact status_seen hr rfl
theorem safetyLinkStatus_fields {s z : State} {src : Source} {b k : Nat} {r : LinkRx} (hr : Taken s src 0x1307) (hb : b < 4096)
    (hk : k < 65536) (hz : z = s.seen) (hlink : z.rxLink b k = some r) :
    ∃ u, exec (.safetyLinkStatus src b k) s = .next u ∧ Answered s u src 0x1307 [fb r.safe, f4 (r.lastSeq.getD 0),
      f8 (z.now - r.lastAt), f8 r.crcErr, f8 z.safety.unknownLinks, f8 r.age, f8 r.stale, f8 r.singleCopy, f8 r.copyMismatch] s := by
  rw [exec_safetyLinkStatus, execSafetyLinkStatus]
  subst hz
  refine status_seen hr ?_
  rw [checked_of_all _ (by simp [hb, hk])]
  rw [State.rxLink] at hlink
  simp only [hlink]
theorem safetyCountersRead_counters {s : State} {src : Source} (c : Bool) (hr : Taken s src 0x130A) :
    ∃ u, exec (.safetyCountersRead src c) s = .next u ∧ SafetyCountersRead s u src c := by
  rw [exec_safetyCountersRead, execSafetyCountersRead]
  cases c with
  | false => exact taken_imp hr (by decide) rfl rfl rfl fun u hans => ⟨s, hans, rfl, .refl _ s⟩
  | true => exact taken_imp hr (by decide) rfl rfl rfl fun u hans => ⟨_, hans, rfl, changes_safety s _⟩

/-! ### Settings (09 R287, 16 R446) -/

/-- A SET command that changes the safety part alone is answered, and its record is queued where the store keeps settings. -/
theorem safetySet_answered {src : Source} {code object : Nat} {cmd : Instr} {h : State → Answer} {s z : State} {Q : State → Prop}
    (hr : Taken s src code) (hc : isStatus code = false) (ha : h s = ok z) (hz : Changes [.safety] s z)
    (k : ∀ u w, Answered s u src code [] w → w.safety = z.safety → (s.store.settingsVolatile = false →
      w.store.settings.tail = s.store.settings ∧
      w.store.settings.head?.map (fun r => (r.code, r.object, r.cmd)) = some (code, object, cmd)) →
      Changes [.safety, .store] s w → Q u) :
    ∃ u, runCommand src code (fun y => (h y).persisted code object cmd) s = .next u ∧ Q u := by
  obtain ⟨hpersist, hkept⟩ := persist_store z code object cmd
  have handler : (h s).persisted code object cmd = ok (z.persist code object cmd) := by rw [ha, persisted_ok]
  have hstore : z.store = s.store := hz .store (by decide)
  rw [hstore] at hkept
  refine taken_imp hr hc handler ((hpersist .mbox (by decide)).trans (hz .mbox (by decide)))
    ((hpersist .clock (by decide)).trans (hz .clock (by decide))) fun u hans =>
      k u _ hans (hpersist .safety (by decide)) (fun hv => ?_) ((hz.mono (by decide)).trans (hpersist.mono (by decide)))
  obtain ⟨g, hg⟩ := hkept hv
  rw [hg]
  exact ⟨rfl, rfl⟩

theorem safetyLimitsSet_sets {s : State} {src : Source} {n ov uv p : Nat} (hr : Taken s src 0x1302) (hn : n < 8) (hov : ov < 65535)
    (huv : uv < ov) (hp : 10 ≤ p) (hmax : p ≤ 1000) (ha : s.anyArmed = false) :
    ∃ u, exec (.safetyLimitsSet src n ov uv p) s = .next u ∧ ∃ z, Answered s u src 0x1302 [] z ∧
      z.laneSafe n = { s.laneSafe n with ov := some ov, uv := some uv, portLostTime := p } ∧
      (s.store.settingsVolatile = false → z.store.settings.tail = s.store.settings ∧
      z.store.settings.head?.map (fun r => (r.code, r.object, r.cmd)) = some (0x1302, n, .safetyLimitsSet src n ov uv p)) ∧
      Only State.laneSafe n [.safety, .store] s z := by
  have set := onlyLaneSafe_setLaneSafe s n { s.laneSafe n with ov := some ov, uv := some uv, portLostTime := p }
  rw [exec_safetyLimitsSet, execSafetyLimitsSet]
  refine safetySet_answered hr (by decide) (checked_of_all _ (by simp [hn, hov, huv, hp, hmax, ha, within])) set.2
    fun u w hans hsafety hset hchanges => ⟨w, hans, ?_, hset, fun j hj => ?_, hchanges⟩
  · rw [laneSafe_of_safety hsafety]
    exact State.laneSafe_setLaneSafe_same s n _
  · rw [laneSafe_of_safety hsafety]
    exact set.1 j hj

/-! ### Thresholds (09 R261) -/

/-- The code of one comparator of a lane is written. -/
def State.codeWrite (n str ph : Nat) (s : State) (k : Nat) : State :=
  s.updLaneSafe n fun x => { x with
    comps := tset x.comps k { tget {} x.comps k with code := s.compCode n k (if k = 0 then str else ph) } }

theorem compWrite_eq {s : State} {n str ph : Nat} (hs : (s.laneSafe n).ocString = some str) (hp : (s.laneSafe n).ocPhase = some ph) :
    s.compWrite n = (List.range 7).foldl (State.codeWrite n str ph) s := by
  unfold State.compWrite
  rw [hs, hp]
  rfl
theorem laneSafe_codeWrite (n str ph : Nat) (s : State) (k : Nat) : (s.codeWrite n str ph k).laneSafe n = { s.laneSafe n with
    comps := tset (s.laneSafe n).comps k { tget {} (s.laneSafe n).comps k with code := s.compCode n k (if k = 0 then str else ph) } } :=
  State.laneSafe_setLaneSafe_same s n _

/-- What the writing of codes leaves of a lane: all but its comparators, and of these all but the codes, those of the list written. -/
theorem laneSafe_codesWritten (n str ph : Nat) (l : List Nat) (s : State) :
    let t := l.foldl (State.codeWrite n str ph) s
    (∀ j, tget {} (t.laneSafe n).comps j = if j ∈ l then { tget {} (s.laneSafe n).comps j with
      code := s.compCode n j (if j = 0 then str else ph) } else tget {} (s.laneSafe n).comps j) ∧
    t.laneSafe n = { s.laneSafe n with comps := (t.laneSafe n).comps } := by
  induction l generalizing s with
  | nil => exact ⟨fun _ => rfl, rfl⟩
  | cons k r ih =>
    obtain ⟨hcomps, hrest⟩ := ih (s.codeWrite n str ph k)
    rw [List.foldl_cons]
    refine ⟨fun j => ?_, ?_⟩
    · have coded (x : Nat) : (s.codeWrite n str ph k).compCode n j x = s.compCode n j x := rfl
      rw [hcomps, laneSafe_codeWrite, coded]
      by_cases hk : j = k
      · subst hk
        simp only [tget_tset_same, List.mem_cons_self, if_true, ite_self]
      · simp only [tget_tset_ne _ _ _ hk, List.mem_cons, hk, false_or]
    · rw [hrest, laneSafe_codeWrite]

theorem onlyLaneSafe_codesWritten (n str ph : Nat) (l : List Nat) (s : State) :
    Only State.laneSafe n [.safety] s (l.foldl (State.codeWrite n str ph) s) :=
  List.foldlRecOn (motive := fun z => Only State.laneSafe n [.safety] s z) _ _ ⟨fun _ _ => rfl, .refl _ s⟩
    fun z hz _ _ => hz.trans (onlyLaneSafe_setLaneSafe z n _)

/-- The thresholds of a lane in force, with the codes of its comparators. -/
theorem laneSafe_ocDo (s : State) {n a b f : Nat} : let t := s.ocDo n a b f
    (t.laneSafe n).ocString = some a ∧ (t.laneSafe n).ocPhase = some b ∧ (t.laneSafe n).ocFilter = f ∧
    (∀ k, k < 7 → (tget {} (t.laneSafe n).comps k).code = s.compCode n k (if k = 0 then a else b) ∧
      (tget {} (t.laneSafe n).comps k).tripped = (tget {} (s.laneSafe n).comps k).tripped) ∧ Only State.laneSafe n [.safety] s t := by
  obtain ⟨z, hz⟩ : ∃ z, z = s.updLaneSafe n fun x => { x with ocString := some a, ocPhase := some b, ocFilter := f } := ⟨_, rfl⟩
  have hlane : z.laneSafe n = { s.laneSafe n with ocString := some a, ocPhase := some b, ocFilter := f } := by
    rw [hz]
    exact State.laneSafe_setLaneSafe_same s n _
  have coded (k x : Nat) : z.compCode n k x = s.compCode n k x := by
    rw [hz]
    rfl
  have hwrite : s.ocDo n a b f = (List.range 7).foldl (State.codeWrite n a b) z := by
    rw [State.ocDo, ← hz, compWrite_eq (by rw [hlane]) (by rw [hlane])]
  obtain ⟨hcomps, hrest⟩ := laneSafe_codesWritten n a b (List.range 7) z
  have only : Only State.laneSafe n [.safety] s z := hz ▸ onlyLaneSafe_setLaneSafe s n _
  intro t
  have ht : t = (List.range 7).foldl (State.codeWrite n a b) z := hwrite
  rw [← ht] at hcomps hrest
  refine ⟨by rw [hrest, hlane], by rw [hrest, hlane], by rw [hrest, hlane], fun k hk => ?_, ?_⟩
  · rw [hcomps, if_pos (List.mem_range.2 hk), hlane, coded]
    exact ⟨rfl, rfl⟩
  · rw [ht]
    exact only.trans (onlyLaneSafe_codesWritten n a b _ z)
theorem safetyOcSet_sets {s : State} {src : Source} {n a b f : Nat} (hr : Taken s src 0x1303) (hn : n < 8) (ha : a < 2 ^ 31)
    (hb : b < 2 ^ 31) (hf : f ≤ 80) (hstep : f % 10 = 0) (harmed : s.anyArmed = false)
    (hcal : (s.compNeeded n).all (fun k => (s.compCode n k 0).isSome) = true) :
    ∃ u, exec (.safetyOcSet src n a b f) s = .next u ∧ OcThresholdsSet s u src n a b f := by
  obtain ⟨hstring, hphase, hfilter, hcodes, only⟩ := laneSafe_ocDo s (n := n) (a := a) (b := b) (f := f)
  rw [exec_safetyOcSet, execSafetyOcSet]
  refine safetySet_answered hr (by decide) (checked_of_all _ (by simp [hn, hf, hstep, harmed, hcal, -List.all_eq_true]; omega)) only.2
    fun u w hans hsafety _ hchanges => ⟨w, hans, ?_⟩
  rw [laneSafe_of_safety hsafety]
  refine ⟨hstring, hphase, hfilter, hcodes, fun j hj => ?_, hchanges⟩
  rw [laneSafe_of_safety hsafety]
  exact only.1 j hj

/-! ### Inputs, outputs, links and windows (09 R267, R268, R277, R282) -/

/-- FIRE_IN that is high, or not enabled, is no cause, so that nothing trips. -/
theorem safetyIoSet_sets {s : State} {src : Source} {d a b c e : Nat} {f : Bool} (hr : Taken s src 0x1304) (hd : 10 ≤ d) (hmax : d ≤ 500)
    (ha : a < 2 ^ 32) (hb : b < 2 ^ 32) (hc : c < 2 ^ 32) (he : e < 2 ^ 32) (harmed : s.anyArmed = false)
    (hfire : f = false ∨ s.safety.fireIn = true) :
    ∃ u, exec (.safetyIoSet src d f [a, b, c, e]) s = .next u ∧ SafetyIoTaken s u src d f a b c e := by
  have quiet : (s.ioDo d f [a, b, c, e]).fireActive = false := by
    show (f && !s.safety.fireIn) = false
    rcases hfire with h | h <;> simp [h]
  have handler : checked s [(within 10 500 d && [a, b, c, e].length == 4 && [a, b, c, e].all (· < 2 ^ 32), stInvalidArg),
      (!s.anyArmed, stLaneArmed)] (ok (if (s.ioDo d f [a, b, c, e]).fireActive && !s.fireActive then
        (s.ioDo d f [a, b, c, e]).tripEvery s trFire else s.ioDo d f [a, b, c, e])) = ok (s.ioDo d f [a, b, c, e]) := by
    rw [checked_of_all _ (by simp [within, hd, hmax, harmed]; omega), if_neg (by simp [quiet])]
  rw [exec_safetyIoSet, execSafetyIoSet]
  refine safetySet_answered hr (by decide) handler (changes_safety s _) fun u w hans hsafety _ hchanges => ⟨w, hans, ?_⟩
  rw [hsafety]
  exact ⟨rfl, rfl, by simp [State.ioDo, List.range_succ], by simp [State.ioDo, List.range_succ], by simp [State.ioDo, List.range_succ],
    by simp [State.ioDo, List.range_succ], rfl, hchanges⟩
theorem safetyChannelSet_sets {s : State} {src : Source} {hb : Nat} (hr : Taken s src 0x1305) (hmin : 250000 ≤ hb) (hmax : hb ≤ 2500000)
    (hrx : s.safety.rx.all (fun r => decide (6 * hb ≤ r.watchdog)) = true) (harmed : s.anyArmed = false) :
    ∃ u, exec (.safetyChannelSet src hb) s = .next u ∧ ∃ z, Answered s u src 0x1305 [] z ∧ z.safety = { s.safety with hb := hb } ∧
      Changes [.safety, .store] s z := by
  rw [exec_safetyChannelSet, execSafetyChannelSet]
  exact safetySet_answered hr (by decide) (checked_of_all _ (by simp [within, hmin, hmax, hrx, harmed, -List.all_eq_true]))
    (changes_safety s _) fun u w hans hsafety _ hchanges => ⟨w, hans, hsafety, hchanges⟩

theorem anyArmed_of_lanes {s t : State} (h : t.lanes = s.lanes) : t.anyArmed = s.anyArmed := by
  simp only [State.anyArmed, lane_of_lanes h]
/-- A link is configured: where no lane is armed no permissive has to be checked again. -/
theorem safetyLinkSet_answered {s : State} {src : Source} {l : LinkSet} {Q : State → Prop} (hr : Taken s src 0x1306)
    (hok : linkOk s.safety.hb l = true) (hroom : s.linkRoom l = true) (harmed : s.anyArmed = false)
    (k : ∀ u w, Answered s u src 0x1306 [] w → w.safety = (s.linkDo l).safety → Changes [.safety, .store] s w → Q u) :
    ∃ u, exec (.safetyLinkSet src l) s = .next u ∧ Q u := by
  have set : Changes [.safety] s (s.linkDo l) := .ite (changes_safety s _) (changes_safety s _)
  have handler : checked s [(linkOk s.safety.hb l && s.linkRoom l, stInvalidArg), (!s.anyArmed, stLaneArmed)]
      (ok (s.linkDo l).recheckArming) = ok (s.linkDo l) := by
    rw [checked_of_all _ (by simp [hok, hroom, harmed]), recheckArming_of_disarmed]
    rw [anyArmed_of_lanes (set .lanes (by decide)), harmed]
  rw [exec_safetyLinkSet, execSafetyLinkSet]
  exact safetySet_answered hr (by decide) handler set fun u w hans hsafety _ hchanges => k u w hans hsafety hchanges
theorem safetyLinkSet_sends {s : State} {src : Source} {l : LinkSet} (hr : Taken s src 0x1306) (hsend : l.send = true)
    (hok : linkOk s.safety.hb l = true) (hroom : s.linkRoom l = true) (harmed : s.anyArmed = false) :
    ∃ u, exec (.safetyLinkSet src l) s = .next u ∧ ∃ z, Answered s u src 0x1306 [] z ∧ z.safety.rx = s.safety.rx ∧
      z.safety.tx = (s.safety.tx.filter fun x => x.linkId != l.linkId) ++
        [{ linkId := l.linkId, dest := l.dest, sources := l.sources, lastSent := s.now }] ∧ Changes [.safety, .store] s z := by
  refine safetyLinkSet_answered hr hok hroom harmed fun u w hans hsafety hchanges => ⟨w, hans, ?_, ?_, hchanges⟩ <;>
    rw [hsafety, State.linkDo, if_pos hsend]
theorem safetyLinkSet_receives {s : State} {src : Source} {l : LinkSet} (hr : Taken s src 0x1306) (hsend : l.send = false)
    (hok : linkOk s.safety.hb l = true) (hroom : s.linkRoom l = true) (harmed : s.anyArmed = false) :
    ∃ u, exec (.safetyLinkSet src l) s = .next u ∧ LinkReceived s u src l := by
  refine safetyLinkSet_answered hr hok hroom harmed fun u w hans hsafety hchanges => ⟨w, hans, ?_, ?_, hchanges⟩ <;>
    rw [hsafety, State.linkDo, if_neg (by simp [hsend])]

theorem safetyWindowSet_sets {s : State} {src : Source} {k n w : Nat} (hr : Taken s src 0x1308) (hk : k < 5) (hn : 1 ≤ n) (hmax : n ≤ 255)
    (hw : 1000000 ≤ w) (hwmax : w ≤ 86400000000000) (harmed : s.anyArmed = false) :
    ∃ u, exec (.safetyWindowSet src k n w) s = .next u ∧ ∃ z, Answered s u src 0x1308 [] z ∧ z.winN k = n ∧ z.winW k = w ∧
      (∀ j, j ≠ k → z.winN j = s.winN j ∧ z.winW j = s.winW j) ∧ Changes [.safety, .store] s z := by
  rw [exec_safetyWindowSet, execSafetyWindowSet]
  refine safetySet_answered hr (by decide) (checked_of_all _ (by simp [within, (by omega : k < 7), hk, hn, hmax, hw, hwmax, harmed]))
    (changes_safety s _) fun u z hans hsafety _ hchanges => ⟨z, hans, ?_, ?_, fun j hj => ⟨?_, ?_⟩, hchanges⟩
  · rw [State.winN, hsafety]
    exact congrArg (Option.getD · (winDefaultN.getD k 1)) (tget_tset_same none s.safety.winN k (some n))
  · rw [State.winW, hsafety]
    exact congrArg (Option.getD · (winDefaultW.getD k 0)) (tget_tset_same none s.safety.winW k (some w))
  · rw [State.winN, hsafety]
    exact congrArg (Option.getD · (winDefaultN.getD j 1)) (tget_tset_ne none s.safety.winN (some n) hj)
  · rw [State.winW, hsafety]
    exact congrArg (Option.getD · (winDefaultW.getD j 0)) (tget_tset_ne none s.safety.winW (some w) hj)

/-! ### BARE_ROCK (09 R284) -/

theorem not_bareRock_of_taken {s : State} {src : Source} {code : Nat} (hr : Taken s src code) : s.power.state ≠ .bareRock := by
  intro hs
  have hg : gate s src code = .runs := hr.1
  unfold gate at hg
  simp [hs] at hg
theorem Envelope.safety {src : Source} {z u : State} (h : Envelope src z u) : u.safety = z.safety :=
  h.rest .safety (by cases src.path <;> decide)
theorem Envelope.power {src : Source} {z u : State} (h : Envelope src z u) : u.power = z.power :=
  h.rest .power (by cases src.path <;> decide)
theorem Settled.responses {z u : State} (h : Settled z u) : u.mbox.responses = z.mbox.responses := by
  unfold Settled at h
  rw [h]

theorem safetyBareRock_enters {s : State} {src : Source} (hr : Taken s src 0x1309) :
    ∃ u, exec (.safetyBareRock src) s = .next u ∧ u.power.state = .bareRock ∧ u.safety.rock = some (4, 0) ∧ u.mbox.ready = false ∧
      ArmedRocked s u ∧ (∃ r ∈ u.mbox.responses, r.command = 0x1309 ∧ r.status = stOk ∧ r.tag = src.tag ∧ r.doneAt = s.now) := by
  obtain ⟨z, hz⟩ : ∃ z, z = s.enterRock 4 := ⟨_, rfl⟩
  have entered : RockEntered s z 4 none := hz ▸ rockEntered_enterRock 4 none (not_bareRock_of_taken hr)
  have hbox : (z.box src.path src.box).resetPending = false := entered.resets _ _ hr.2
  have envelope : Envelope src z (settle s (z.answer src 0x1309 stOk [])) :=
    (envelope_answer src z 0x1309 stOk [] hbox).trans (settle_envelope _ _ _)
  have runs : exec (.safetyBareRock src) s = .next (settle s (z.answer src 0x1309 stOk [])) := by
    have hg : gate s src 0x1309 = .runs := hr.1
    rw [exec_safetyBareRock, execSafetyBareRock]
    simp only [runCommand, hg, runs_outside _ (not_beached_of_taken hr (by decide)), ← hz]
    rfl
  refine ⟨_, runs, ?_, ?_, ?_, fun n hn ha => ?_, ?_⟩
  · rw [envelope.power, entered.state]
  · rw [envelope.safety, entered.rock]
    rfl
  · rw [envelope.mbox]
    exact entered.ready
  · rw [envelope.lane]
    exact entered.armed n hn ha
  · rw [(settle_settled _ _).responses, answer_responses src z 0x1309 stOk [] hbox]
    exact ⟨_, List.mem_append_right _ (List.mem_singleton.2 rfl), rfl, rfl, rfl, entered.ns⟩

/-- Settles O28: one lemma for each command, of which LINK_SET has two. -/
theorem safetyCommandsComplete : Obligations.SafetyCommandsComplete := by
  intro s z src n ov uv p a b d e hb k w l r
  refine ⟨safetyStatus_fields, ?limits, ?oc, ?io, ?channel, ?send, ?receive, safetyLinkStatus_fields, ?window, ?rock,
    fun c hr => safetyCountersRead_counters c hr⟩
  case limits =>
    intro hr hn hov huv hp hmax ha
    obtain ⟨u, hu, z, hans, hlane, hset, honly⟩ := safetyLimitsSet_sets hr hn hov huv hp hmax (by simpa using ha)
    exact ⟨u, hu, z, hans, hlane, fun hv => hset (by simpa using hv), honly⟩
  case oc => exact fun f hr hn ha hb hf hstep harmed hcal => safetyOcSet_sets hr hn ha hb hf hstep (by simpa using harmed) hcal
  case io =>
    intro f c hr hd hmax ha hb hc he harmed hfire
    exact safetyIoSet_sets hr hd hmax ha hb hc he (by simpa using harmed) (by simpa using hfire)
  case channel => exact fun hr hmin hmax hrx harmed => safetyChannelSet_sets hr hmin hmax hrx (by simpa using harmed)
  case send => exact fun hr hsend hok hroom harmed => safetyLinkSet_sends hr hsend hok hroom (by simpa using harmed)
  case receive => exact fun hr hsend hok hroom harmed => safetyLinkSet_receives hr (by simpa using hsend) hok hroom (by simpa using harmed)
  case window => exact fun hr hk hn hmax hw hwmax harmed => safetyWindowSet_sets hr hk hn hmax hw hwmax (by simpa using harmed)
  case rock => exact fun hr => by simpa using safetyBareRock_enters hr

end Sys2Proof.Machine
end

