-- ==== Sys2Proof/Proofs/BareRockEvents.lean ====
section
/-! PROOF. Counted memory faults, the entry to BARE ROCK by an error and by the watchdog, its strobes and its end (O32). -/

namespace Sys2Proof.Machine

open Sys2Proof
set_option Elab.async false

/-! ### Corrected errors (09 R282; 01 R26) -/

/-- The times held of a source and object after another fault event of both. -/
theorem winTimes_faultEvent (s : State) (k o : Nat) :
    (s.faultEvent k o).2.winTimes k o = (s.now :: s.winTimes k o).take (s.winN k) := by
  unfold State.faultEvent
  rw [State.winTimes, safety_event, List.find?_cons_of_pos (by simp)]
/-- The first fault event of a window of more than one is not lasting. -/
theorem faultEvent_first {s : State} {k o : Nat} (ht : s.winTimes k o = []) (hn : 2 ≤ s.winN k) : (s.faultEvent k o).1 = false := by
  have held : ((s.now :: s.winTimes k o).take (s.winN k)).length ≤ 1 := by
    rw [ht]
    exact List.length_take_le' _ _
  have inside := (List.length_filter_le (fun t => decide (s.now < t + s.winW k ∨ s.now = t)) _).trans held
  exact decide_eq_false (by omega)

theorem eccCorrected_counted {s : State} (t : Nat) {p : Nat} (hp : p < 917504) (ht : s.winTimes fwEcc p = []) (hn : 2 ≤ s.winN fwEcc) :
    ∃ u, exec (.eccCorrected t false p) s = .next u ∧ tget 0 u.safety.eccCounts p = (tget 0 s.safety.eccCounts p + 1) % 2 ^ 64 ∧
      u.winTimes fwEcc p = [s.nowAt t] ∧ u.safety.retired = s.safety.retired ∧ Moves [.safety, .recorder] s u := by
  rw [exec_eccCorrected, execEccCorrected]
  refine whenOn_imp (by simp [hp]) rfl fun u hu => ?_
  extract_lets o a z r at hu
  have hsafety : (s.atTime t).safety = s.safety := safety_atTime s t
  have htimes : z.winTimes fwEcc p = [] := by
    show State.winTimes (s.atTime t) fwEcc p = []
    rwa [State.winTimes, hsafety, ← State.winTimes]
  have hwindow : 2 ≤ z.winN fwEcc := by
    show 2 ≤ State.winN (s.atTime t) fwEcc
    rwa [State.winN, hsafety, ← State.winN]
  have hfirst : r.1 = false := faultEvent_first htimes hwindow
  rw [if_pos (by rw [hfirst]; rfl)] at hu
  have hcounts : r.2.safety.eccCounts = z.safety.eccCounts := faultEvent_kept z fwEcc o (·.eccCounts) fun _ _ _ _ => rfl
  have hretired : r.2.safety.retired = z.safety.retired := faultEvent_kept z fwEcc o (·.retired) fun _ _ _ _ => rfl
  have hlatest : r.2.winTimes fwEcc p = [z.now] := by
    refine (winTimes_faultEvent z fwEcc p).trans ?_
    rw [htimes, List.take_of_length_le (by simpa using (by omega : 1 ≤ z.winN fwEcc))]
  refine ⟨?_, ?_, ?_, hu.moves_from (t := t) ?_⟩
  · rw [hu.safety, hcounts, ← hsafety]
    exact tget_tset_same _ _ _ _
  · rw [State.winTimes, hu.safety, ← State.winTimes, hlatest]
    rfl
  · rw [hu.safety, hretired, ← hsafety]
  · exact ((changes_safety _ _).moves (by decide)).trans ((changes_faultEvent z fwEcc p).moves (by decide))

/-! ### The entry by an error and by the watchdog (09 R283) -/

theorem RockEntered.settled {s z u : State} {c : Nat} {v0 : Option Int} (h : RockEntered s z c v0) (hu : Settled z u) :
    RockEntered s u c v0 := by
  refine ⟨?_, ?_, ?_, fun n hn ha => ?_, ?_, ?_, fun p k hk => ?_⟩
  · rw [hu.power, h.state]
  · rw [hu.safety, h.rock]
  · exact (congrArg (fun x : State => x.mbox.ready) (show u = _ from hu)).trans h.ready
  · rw [hu.lane]
    exact h.armed n hn ha
  · rw [hu.net]
    exact h.own
  · rw [hu.clock, h.ns]
  · rw [hu.box]
    exact h.resets p k hk
/-- The entry at the time that an event carries is one from the state before the event. -/
theorem RockEntered.armedRocked {s u : State} {t c : Nat} {v0 : Option Int} (h : RockEntered (s.atTime t) u c v0) : ArmedRocked s u :=
  fun n hn ha => h.armed n hn (by rwa [lane_atTime])

theorem uncorrectableError_rocks {s : State} (t : Nat) (hs : s.power.state ≠ .bareRock) :
    ∃ u, exec (.uncorrectableError t .supervisorMemory) s = .next u ∧ u.power.state = .bareRock ∧ u.safety.rock = some (3, 1) ∧
      u.mbox.ready = false ∧ ArmedRocked s u ∧ (∀ o ∈ u.net.own, o.state = .none_) := by
  rw [exec_uncorrectableError, execUncorrectableError]
  refine when_imp rfl fun u hu => ?_
  have entered := (rockEntered_enterRock (s := s.atTime t) 3 (some 1) (by rwa [power_atTime])).settled hu
  exact ⟨entered.state, entered.rock, entered.ready, entered.armedRocked, entered.own⟩
theorem supervisorWatchdog_rocks {s : State} (t : Nat) {c : Nat} (hc : c < 4) (hr : s.safetyRuns = true) (hstage : 2 ≤ s.power.stage)
    (hs : s.power.state ≠ .bareRock) (hb : s.power.state ≠ .beached) (hh : c ∉ s.sec.halted) :
    ∃ u, exec (.supervisorWatchdog t c) s = .next u ∧ u.power.state = .bareRock ∧ u.safety.rock = some (2, c) ∧
      u.mbox.ready = false ∧ ArmedRocked s u := by
  rw [exec_supervisorWatchdog, execSupervisorWatchdog]
  refine whenOn_imp (decide_eq_true hc) (by simp [safetyRuns_atTime, hr, hstage, hs, hb, hh]) fun u hu => ?_
  have entered := (rockEntered_enterRock (s := s.atTime t) 2 (some (c : Int)) (by rwa [power_atTime])).settled hu
  exact ⟨entered.state, entered.rock, entered.ready, entered.armedRocked⟩

/-! ### In BARE ROCK, and out of it (09 R285, R286) -/

theorem changes_sendSync (s : State) (p t0 tag armedAt : Nat) (helm serialReq echo : Bool) :
    Changes [.tap, .out] s (s.sendSync p t0 tag armedAt helm serialReq echo) :=
  ((changes_setPort s p _).mono (by decide)).trans (changes_drive _ _ _ _)
theorem bareRockStrobe_strobes {s : State} {t : Nat} (hs : s.power.state = .bareRock)
    (ht : s.safety.rockStrobeAt + 10000000 ≤ s.nowAt t) : ∃ u, exec (.bareRockStrobe t) s = .next u ∧
      u.safety = { s.safety with rockStrobeAt := s.nowAt t, rockStrobes := s.safety.rockStrobes + 1 } ∧
      u.model.syncTag = some (s.atTime t).pos ∧ Moves [.safety, .model, .tap, .out] s u := by
  rw [exec_bareRockStrobe, execBareRockStrobe]
  refine when_imp (by simpa [hs, elapsed] using ht) fun u hu => ?_
  extract_lets tag a b z at hu
  have sent := changes_foldl (fun y p => changes_sendSync y p (s.atTime t).now tag (s.atTime t).now false false false)
    ((List.range 128).filter fun p => ((s.atTime t).port p).synced) z
  refine ⟨?_, ?_, hu.moves_from (t := t) ?_⟩
  · rw [hu.safety, sent .safety (by decide), ← safety_atTime s t]
  · rw [hu.model, sent .model (by decide)]
  · refine Moves.trans (t := z) ?_ (sent.moves (by decide))
    intro p hp
    cases p <;> simp_all [Part.same, z, a, b]
theorem dieCool_exits {s : State} {t : Nat} (hs : s.power.state = .bareRock) (hrock : s.safety.rock.map (·.1) = some 1)
    (hcool : (s.atTime t).dieCool = true) (hhold : s.safety.rockHold = false) : ∃ u, exec (.bareRockExit t) s = .next u ∧
      u.power.state = .full ∧ u.power.stage = 0 ∧ u.power.on = true ∧ u.safety.rock = none ∧
      u.safety.moduleLatch = s.safety.moduleLatch ∧ (∀ n, (u.laneSafe n).latch = (s.laneSafe n).latch) ∧ u.clock.ns = s.nowAt t := by
  rw [exec_bareRockExit, execBareRockExit]
  refine when_imp (by simp [hs, hrock, hcool, hhold]) fun u hu => ?_
  refine ⟨?_, ?_, ?_, ?_, ?_, fun n => ?_, ?_⟩
  · rw [hu.power]
    rfl
  · rw [hu.power]
    rfl
  · rw [hu.power]
    rfl
  · rw [hu.safety]
    rfl
  · rw [hu.safety, ← safety_atTime s t]
    rfl
  · rw [hu.laneSafe, selfReset_laneSafe_latch, laneSafe_atTime]
  · rw [hu.clock]
    rfl

/-- Settles O32: one lemma for each event. -/
theorem countedFaultAndBareRockEventsComplete : Obligations.CountedFaultAndBareRockEventsComplete := by
  intro s t p c
  refine ⟨eccCorrected_counted t, ?uncorrectable, ?watchdog, bareRockStrobe_strobes, ?exit_⟩
  case uncorrectable => exact fun hs => by simpa using uncorrectableError_rocks t hs
  case watchdog => exact fun hc hr hstage hs hb hh => by simpa using supervisorWatchdog_rocks t hc hr hstage hs hb hh
  case exit_ => exact fun hs hrock hcool hhold => dieCool_exits hs hrock hcool (by simpa using hhold)

end Sys2Proof.Machine
end
